-- ==== Sys2Proof/Word.lean ====
section
/-! DEFINITION. The word types of the device: bytes, 32-bit register words and 64-bit words (R5, 00_scope.md). -/
namespace Sys2Proof

/-- A byte. -/
abbrev Byte := BitVec 8
/-- A 32-bit register word (R5). -/
abbrev W32 := BitVec 32
/-- A 64-bit word: Treadle registers and instruction words (R5, R50). -/
abbrev W64 := BitVec 64

end Sys2Proof
end

