-- ==== Sys2Proof/Operand.lean ====
section
/-! DEFINITION. The operands of commands that have a form of their own: instruction words, messages, frames and kernel outputs. -/
namespace Sys2Proof

/-- The fields of a Treadle instruction word that its row leaves to the programme, and its extension words (R55, R56). -/
structure TWord where
  /-- XW: number of extension words that follow -/
  xw : BitVec 4 := 0#4
  /-- RD: destination register or predicate -/
  rd : BitVec 5 := 0#5
  /-- RA: first source register -/
  ra : BitVec 5 := 0#5
  /-- RB: second source register or predicate -/
  rb : BitVec 5 := 0#5
  /-- CQ: post a completion entry -/
  cq : Bool := false
  /-- IMM[31:0] -/
  imm : BitVec 32 := 0#32
  /-- the extension words, in order -/
  ext : List (BitVec 64) := []
  deriving DecidableEq, Repr, Inhabited

/-- Where a read or a write enters the register map (R14, R452). -/
inductive Path where
  | bar0 | bar2 | spi | treadle
  deriving DecidableEq, Repr, Inhabited

/-- How the partner's exchange message arrives over the cross link (R249, R267): complete, complete from a clock that deviates by more
than 2 %, with a bad CRC, or not at all. -/
inductive XMsg where
  | ok | clockOff | badCrc | missing
  deriving DecidableEq, Repr, Inhabited

/-- A gPTP message, as a port receives it (R329 to R334): the fields of IEEE 802.1AS-2020. -/
structure PtpMsg where
  /-- domainNumber -/
  domain : BitVec 8 := 0#8
  /-- twoStepFlag -/
  twoStep : Bool := false
  /-- sequenceId -/
  seq : BitVec 16 := 0#16
  /-- logMessageInterval -/
  logInt : BitVec 8 := 0#8
  /-- correctionField, 2^-16 ns -/
  corr : Int := 0
  /-- the timestamp of the body, ns -/
  ts : Nat := 0
  /-- cumulativeScaledRateOffset of the Follow_Up information TLV -/
  rate : Int := 0
  /-- sourcePortIdentity -/
  port : BitVec 80 := 0#80
  /-- requestingPortIdentity of a peer-delay response -/
  reqPort : BitVec 80 := 0#80
  /-- the bytes after the timestamp: the Follow_Up information TLV -/
  tlv : List (BitVec 8) := []
  /-- ingress timestamp, cell time, ns (R334) -/
  rx : Nat := 0
  deriving DecidableEq, Repr, Inhabited

/-- An error that a CAN controller meets, by what ISO 11898-1 does to its error counters (R358). -/
inductive CanErr where
  /-- as transmitter: TEC + 8 -/
  | tx8
  /-- as transmitter, in a case that leaves TEC unchanged -/
  | tx0
  /-- as receiver: REC + 1 -/
  | rx1
  /-- as receiver: REC + 8 -/
  | rx8
  deriving DecidableEq, Repr, Inhabited

/-- A CAN frame on the bus (R351, R356). -/
structure CanFrame where
  /-- BASE_ID, EXT_ID, XTD and RTR, placed as in word 0 of a message object -/
  id : BitVec 32 := 0#32
  /-- DLC -/
  dlc : BitVec 4 := 0#4
  /-- FDF, BRS and ESI -/
  fdf : Bool := false
  brs : Bool := false
  esi : Bool := false
  /-- data bytes -/
  data : List (BitVec 8) := []
  /-- cell time of the synchronising edge of its start-of-frame bit -/
  sof : BitVec 64 := 0#64
  deriving DecidableEq, Repr, Inhabited

/-- A set-point that a node writes for one axis: position, velocity and torque feed-forward (R104, R134). -/
structure SetPt where
  /-- the axis -/
  axis : Fin 80
  /-- X_SP, 2^-16 count -/
  x : BitVec 64
  /-- V_SP, 2^-16 count/s -/
  v : BitVec 64
  /-- TFF, Q1.30 -/
  tff : BitVec 32
  deriving DecidableEq, Repr

/-- What a node wrote by the time it completed (R99, R103, R104). -/
inductive KernelOut where
  /-- tokens only -/
  | none
  /-- bytes at addresses of the Shared data partition (R90) -/
  | stores (l : List (BitVec 40 × List (BitVec 8)))
  /-- SCATTER_SP: set-points for the next pick -/
  | setPoints (l : List SetPt)
  /-- INTERP_CUBIC: the entries of the arm ITEM, which R199 computes -/
  | interp
  /-- CAPSULE_PUBLISH: placed capsules of an arm, or of the foreign set, in the layout of R233 -/
  | capsules (arm : Option (Fin 8)) (caps : List (Vector (BitVec 32) 8))
  /-- QP_ASSEMBLE: the words of a QP instance (R182) -/
  | instance_ (words : List (BitVec 32))
  /-- DIGEST: the output words that enter the pick digest (R370) -/
  | digest (words : List (BitVec 32))
  /-- TRAJ_EXPORT: the words of a TRAJ object (R400) -/
  | traj (words : List (BitVec 32))
  /-- an input or output value was not finite (R103) -/
  | notFinite
  /-- an uncorrectable error in the Shuttle local memory (R16, R103) -/
  | memError
  deriving DecidableEq, Repr, Inhabited

end Sys2Proof
end

