-- ==== Sys2Proof/Machine/Parts.lean ====
section
/-! DEFINITION. The parts of the state: every register, queue, buffer, counter, mode and pin that the spec names, block by block, and
the objects that the pair link carries. -/
namespace Sys2Proof.Machine

/-- Completion status codes (R8). -/
inductive Status where
  | ok | okLimited | okDeferred | badOpcode | badOperand | length | range | noResource
  | state | flowFenced | notOwner | safetyDenied | aborted | doubleFault | internal
  deriving DecidableEq, Repr, Inhabited

/-- States of a host flow (TR_FLOW_STATUS_n). -/
inductive FlowState where
  | idle | running | waiting | fenced | stopped
  deriving DecidableEq, Repr, Inhabited

/-- What a WAIT instruction in progress waits for (R75). -/
inductive WaitCond where
  /-- until `target` is not newer than the current pick -/
  | pick (target : BitVec 32)
  /-- until `target` is not newer than the current beat -/
  | beat (target : BitVec 32)
  /-- until cell time reaches `t` ns -/
  | time (t : Nat)
  /-- until every operation of the flow before operation `before` has completed -/
  | ops (before : Nat)
  /-- until the operations before `before` on axis `a` have taken effect, and then until the axis rests -/
  | axis (a : Fin 80) (before : Nat)
  deriving DecidableEq, Repr, Inhabited

/-- Device states (R30), coded as in R83. -/
inductive DevState where
  | off | standby | sleep | ready | run | safeHold
  deriving DecidableEq, Repr, Inhabited

/-- Domain states (R418). -/
inductive DomState where
  | off | ret | idle | run
  deriving DecidableEq, Repr, Inhabited

/-- Axis states (R33), coded as in R79. -/
inductive AxisState where
  | disabled | holding | moving | homing | geared | stopping | fault
  deriving DecidableEq, Repr, Inhabited

/-- Feedback channel modes (R116). -/
inductive FbMode where
  | start | normal | test | recovery
  deriving DecidableEq, Repr, Inhabited

/-- Draft slot states (LM_SLOT_d.STATE). -/
inductive SlotState where
  | empty | loaded | bound
  deriving DecidableEq, Repr, Inhabited

/-- Life of a node of a draft instance (R93 to R99). -/
inductive NodePhase where
  | waiting | ready | listed | running | completed | released
  deriving DecidableEq, Repr, Inhabited

/-- Modes of a planner (R159, R162, R167, R172). -/
inductive PlanMode where
  | idle | move | reverse | stop | quick | search | seg
  deriving DecidableEq, Repr, Inhabited

/-- Sources of an axis's set-point (PG_STATUS_a.SOURCE). -/
inductive PgSource where
  | none | hold | move | seg | gear | homing | stop | mpcRef
  deriving DecidableEq, Repr, Inhabited

/-- Reset values of the move parameters: the counts of R156 times 2^16 where the value is one of counts. -/
def pgParamReset : Vector (BitVec 64) 24 :=
  #v[0x3E80000#64, 0x186A00000#64, 0x186A00000#64, 0x186A00000#64, 0x186A00000#64, 0#64, 0#64, 0#64, 0xF42400000#64,
     0x8000000000000000#64, 0x7FFFFFFFFFFFFFFF#64, 0x640000#64, 0x08000000#64, 64#64, 0x10000#64, 16#64, 0xA0000#64,
     0x7FFFFFFFFFFFFFFF#64, 0#64, 0#64, 0#64, 128#64, 64#64, 200#64]

/-- What an accepted operation does at its effect pick (R24, R64, R66). -/
inductive EffKind where
  | enable | disable | clear
  | move (target : Int) (w : Option (Int × Int × Int)) (beat : Bool)
  | stop (quick : Bool)
  | home (method : BitVec 4) (w0 : Int)
  | gear (master : Fin 80) (ratio : Int) (at_ : Option Int)
  | segRun (slot : Fin 8)
  | armMove (arm : Fin 8) (beat : Option (BitVec 32)) (targets : List Int)
  | armStop (arm : Fin 8) (quick : Bool)
  | mpcOn (arm : Fin 8) | mpcOff (arm : Fin 8)
  | param (p : Nat) (v : BitVec 64)
  deriving DecidableEq, Repr, Inhabited

/-- Roles of a device in a pair (R362). -/
inductive PairRole where
  | active | standby | syncing | alone
  deriving DecidableEq, Repr, Inhabited

/-- States of a Selvedge channel (R247). -/
inductive SvState where
  | off | selftest | unsealed | sealed | fault | safeHold
  deriving DecidableEq, Repr, Inhabited

/-- Phases of an OSSD channel (R282). -/
inductive OssdPhase where
  | opened | high | low | on
  deriving DecidableEq, Repr, Inhabited

/-- States of a consumer connection (R302). -/
inductive ConnState where
  | off | wait | running | expired
  deriving DecidableEq, Repr, Inhabited

/-- A SAFE.LOAD that the channels validate (R253). -/
structure SvLoad where
  /-- host flow -/
  flow : Fin 16
  /-- its operation -/
  op : Nat
  /-- the copy of the image -/
  bytes : List (BitVec 8)
  /-- w1: length in bytes -/
  len : Nat
  deriving DecidableEq, Repr, Inhabited

/-- What the switch writes into a frame as it leaves (R318, R319, R332, R333). -/
inductive Stamp where
  /-- nothing -/
  | none
  /-- the residence time is added to correctionField (R318) -/
  | residence
  /-- the egress time is kept as t1 of the port's Pdelay_Req (R332) -/
  | req
  /-- the egress time enters the Pdelay_Resp_Follow_Up that answers this request (R332) -/
  | resp (m : PtpMsg)
  /-- correctionField grows by the residence time at this rate ratio, minus 1, 2^-41 (R333) -/
  | sync (rate : Int)
  deriving DecidableEq, Repr, Inhabited

/-- States of a gPTP domain (R335). -/
inductive NtDomState where
  | none | listening | locked | lost
  deriving DecidableEq, Repr, Inhabited

/-- States of the network time unit (R339). -/
inductive NtState where
  | freerun | locked | holdover | unlocked
  deriving DecidableEq, Repr, Inhabited

/-- States of the ring (R395). -/
inductive RingState where
  | out | down | joining | up
  deriving DecidableEq, Repr, Inhabited


/-- the cell time base, picks and beats (clocks and reset block) (02_time_base.md). -/
structure TimeBase where
  /-- R35, R36: cell time in units of 2^-32 ns (64-bit ns with 32 fractional bits). -/
  timeFix : Nat := 0
  /-- R40: TB_STATUS.RUNNING: picks are running. -/
  running : Bool := false
  /-- R45: period (FRAC:PERIOD) and N captured by APPLY; TB_STATUS.PENDING while some. -/
  pending : Option (BitVec 32 × BitVec 7) := none
  /-- R45: cell time (2^-32 ns) of the last APPLY; its boundary lies strictly after it. The model's own field. -/
  applyTick : Nat := 0
  /-- R40: TB_STATUS.ORIGIN_SHIFT (ST). -/
  originShift : Bool := false
  /-- R46: TB_STATUS.APPLY_REJ (ST). -/
  applyRej : Bool := false
  /-- R40: TB_STATUS.START_REJ (ST). -/
  startRej : Bool := false
  /-- R46: TB_STATUS.RANGE_REJ (ST). -/
  rangeRej : Bool := false
  /-- R38, R45: TB_PICK_PERIOD, FRAC in [31:24], PERIOD in [23:0]. -/
  stagedPeriod : BitVec 32 := 0x80001E84#32
  /-- R42, R45: TB_BEAT.N. -/
  stagedN : BitVec 7 := 16#7
  /-- R38: TB_ACTIVE_PERIOD. -/
  activePeriod : BitVec 32 := 0x80001E84#32
  /-- R42: TB_BEAT.ACTIVE_N. -/
  activeN : BitVec 7 := 16#7
  /-- R39, R40: TB_ORIGIN_LO/HI: T_0 in ns. -/
  origin : BitVec 64 := 0#64
  /-- R41: TB_START_PICK. -/
  startPick : BitVec 32 := 0#32
  /-- R42: TB_START_BEAT. -/
  startBeat : BitVec 32 := 0#32
  /-- R39, R45: origin of the grid in force, 2^-32 ns. The model's own field. -/
  gridOrigin : Nat := 0
  /-- R39: internal 64-bit count of the next pick of the grid. The model's own field. -/
  j : Nat := 0
  /-- R40: the next pick is the first since START. The model's own field. -/
  first : Bool := false
  /-- R40, R41: pick number that the first pick after START carries. The model's own field. -/
  firstPick : BitVec 32 := 0#32
  /-- R40, R42: beat number that the first pick after START carries. The model's own field. -/
  firstBeat : BitVec 32 := 0#32
  /-- R41: TB_PICK_NUM. -/
  pickNum : BitVec 32 := 0#32
  /-- R42: TB_BEAT_NUM. -/
  beatNum : BitVec 32 := 0#32
  /-- R42: TB_BEAT_PHASE. -/
  phase : BitVec 6 := 0#6
  /-- R41: TB_PICK_TIME: t_k of the current pick, ns. -/
  pickTime : BitVec 64 := 0#64
  /-- R36, R338: TB_INC_ADJ, signed, 2^-32 ns per tick. -/
  incAdj : BitVec 32 := 0#32
  /-- R35: high word captured by a read of TB_TIME_LO. -/
  capTimeHi : BitVec 32 := 0#32
  /-- R41: high word of the pick instant captured by a read of TB_PICK_TIME_LO, returned once. -/
  capPickHi : Option (BitVec 32) := none
  /-- R41: pick number captured by a read of TB_PICK_TIME_LO, returned once. -/
  capPickNum : Option (BitVec 32) := none
  deriving DecidableEq, Repr, Inhabited

/-- one device operation passed to the Loom and not completed (R62) (03_treadle.md). -/
structure OpRec where
  /-- R62: identity within the flow. The model's own field. -/
  id : Nat := 0
  /-- R73: INSTR of the instruction. The model's own field. -/
  instr : BitVec 21 := 0#21
  /-- R61: destination register that waits for it. The model's own field. -/
  rd : Option (BitVec 5) := none
  /-- R72: its CQ bit. The model's own field. -/
  cq : Bool := false
  deriving DecidableEq, Repr, Inhabited

/-- one completion entry of a flow, in programme order (R62, R72) (03_treadle.md). -/
structure Post where
  /-- R62: the operation it waits for; none when its result stands. The model's own field. -/
  op : Option Nat := none
  /-- R73: STATUS. The model's own field. -/
  status : Status := .ok
  /-- R74: FLAGS. The model's own field. -/
  flags : BitVec 8 := 0#8
  /-- R73: INSTR. The model's own field. -/
  instr : BitVec 21 := 0#21
  /-- R73: RESULT. The model's own field. -/
  result : BitVec 64 := 0#64
  deriving DecidableEq, Repr, Inhabited

/-- the programme in execution (R51, R52) (03_treadle.md). -/
structure Programme where
  /-- R51: index of the first word. The model's own field. -/
  start : Nat := 0
  /-- R51: words. The model's own field. -/
  len : Nat := 0
  deriving DecidableEq, Repr, Inhabited

/-- one host flow (R50) (03_treadle.md). -/
structure FlowS where
  /-- R50, R60: general registers T0 to T31. -/
  t : Vector (BitVec 64) 32 := Vector.replicate 32 0#64
  /-- R50, R60: predicates P0 to P7 (P0 reads as 1). -/
  p : BitVec 8 := 0#8
  /-- R50: TR_FLOW_PC_n. -/
  pc : BitVec 21 := 0#21
  /-- R67: TR_FLOW_STATUS_n.STATE. -/
  state : FlowState := .idle
  /-- R9: TR_FLOW_STATUS_n.LAST_STATUS. -/
  lastStatus : Status := .ok
  /-- R52: programme in execution. -/
  prog : Option Programme := none
  /-- R62: operations in flight; TR_FLOW_STATUS_n.INFLIGHT is their number. -/
  ops : List OpRec := []
  /-- R62: identity of the next operation. The model's own field. -/
  nextOp : Nat := 0
  /-- R62, R72: completion entries not yet posted, in programme order. -/
  posts : List Post := []
  /-- R54, R75: the WAIT instruction in progress. -/
  wait : Option WaitCond := none
  /-- R72: CQ of the WAIT in progress. The model's own field. -/
  waitCq : Bool := false
  /-- R69: FLOW.RESUME accepted, acts at the next programme boundary. -/
  resumeReq : Bool := false
  /-- R71: FLOW.ABORT executed, acts at the next instruction boundary. -/
  abortReq : Bool := false
  /-- R71: the rest of the current programme completes with ABORTED. -/
  aborting : Bool := false
  deriving DecidableEq, Repr, Inhabited

/-- Treadle (R50 to R83) (03_treadle.md). -/
structure Treadle where
  /-- R50: the host flows. -/
  flow : Vector FlowS 16 := Vector.replicate 16 default
  /-- R67: TR_FENCE_EVT (ST). -/
  fenceEvt : BitVec 16 := 0#16
  /-- R70: TR_STOP_EVT (ST). -/
  stopEvt : BitVec 16 := 0#16
  deriving DecidableEq, Repr, Inhabited

/-- one node of an instance (R93, R99) (04_loom.md). -/
structure NodeRec where
  /-- R93, R99: waiting, ready, listed, running, completed, released. The model's own field. -/
  phase : NodePhase := .waiting
  /-- R103: the node is void. The model's own field. -/
  void : Bool := false
  /-- R99: what the node wrote, held until release. The model's own field. -/
  out : KernelOut := .none
  /-- R102: the node holds a QP instance credit. The model's own field. -/
  credit : Bool := false
  /-- R18, R102: the node is not dispatched and gives no output. The model's own field. -/
  skip : Bool := false
  deriving DecidableEq, Repr, Inhabited

/-- one instance of a draft (R92) (04_loom.md). -/
structure DraftInst where
  /-- R92: pick or beat number at the release. The model's own field. -/
  index : BitVec 32 := 0#32
  /-- R92: sample time of the instance. The model's own field. -/
  stime : BitVec 64 := 0#64
  /-- R90: release count of the instance. The model's own field. -/
  count : Nat := 0
  /-- R93: its nodes by index. The model's own field. -/
  nodes : List NodeRec := []
  /-- R103: the first void node has written its record. The model's own field. -/
  voided : Bool := false
  deriving DecidableEq, Repr, Inhabited

/-- one draft slot (R85, R91) (04_loom.md). -/
structure Slot where
  /-- R91: LM_SLOT_d.STATE. -/
  state : SlotState := .empty
  /-- R86: LM_SLOT_d.NODES. -/
  nodes : BitVec 13 := 0#13
  /-- R91: LM_SLOT_d.GROUP. -/
  group : BitVec 3 := 0#3
  /-- R91: LM_SLOT_d.RATE: false each pick, true each beat. -/
  rate : Bool := false
  /-- R92: LM_SKIP_d, saturating. -/
  skip : BitVec 32 := 0#32
  /-- R103: LM_VOID_d, saturating. -/
  voids : BitVec 32 := 0#32
  /-- R90, R93: releases since binding. The model's own field. -/
  released : Nat := 0
  /-- R92, R101: instances in flight, oldest first, at most two. -/
  insts : List DraftInst := []
  deriving DecidableEq, Repr, Inhabited

/-- one entry of the ready list (R94) (04_loom.md). -/
structure ReadyRec where
  /-- R94: draft slot. The model's own field. -/
  slot : Fin 8 := 0
  /-- R94: release count of the instance. The model's own field. -/
  count : Nat := 0
  /-- R94: node index. The model's own field. -/
  node : Nat := 0
  deriving DecidableEq, Repr, Inhabited

/-- the Loom (R84 to R105) (04_loom.md). -/
structure Loom where
  /-- R96, R97: LM_WEIGHT_g. -/
  weight : Vector (BitVec 8) 8 := Vector.replicate 8 16#8
  /-- R96: LM_DEFICIT_g, signed cycles. -/
  deficit : Vector Int 8 := Vector.replicate 8 0
  /-- R96: group that was served last. DESIGN CHOICE: reset value, log 1. -/
  rr : Fin 8 := 0
  /-- R85: draft slots. -/
  slot : Vector Slot 8 := Vector.replicate 8 default
  /-- R94: the ready list, at most 1,024 entries in order of entry. -/
  ready : List ReadyRec := []
  /-- R94: ready nodes waiting for a free entry, in order. -/
  waiting : List ReadyRec := []
  /-- R94: LM_READY.HWM. -/
  hwm : BitVec 11 := 0#11
  /-- R103: LM_STATUS.VOID (ST). -/
  stVoid : Bool := false
  /-- R94: LM_STATUS.RL_FULL (ST). -/
  rlFull : Bool := false
  /-- R97: LM_STATUS.WEIGHT_REJ (ST). -/
  weightRej : Bool := false
  /-- R95, R98: node selected for the Shuttle; true once it has started. -/
  shuttle : Vector (Option (ReadyRec × Bool)) 16 := Vector.replicate 16 none
  deriving DecidableEq, Repr, Inhabited

/-- values latched at the pick instant (R122) (05_feedback.md). -/
structure FbLatch where
  /-- R122: reported count. -/
  rep : Int := 0
  /-- R122: last edge time, ns. -/
  e : Nat := 0
  /-- R120: speed, 2^-16 count/s. -/
  v : Int := 0
  /-- R120: VALID. -/
  valid : Bool := false
  /-- R120: STANDSTILL. -/
  standstill : Bool := false
  /-- R122: DIR: true negative. -/
  dir : Bool := false
  /-- R122: position x_k, 2^-16 count. -/
  x : Int := 0
  deriving DecidableEq, Repr, Inhabited

/-- one feedback channel (R106 to R128) (05_feedback.md). -/
structure FbCh where
  /-- R106: FB_CFG_c.INMODE. -/
  inmode : BitVec 3 := 0#3
  /-- R106: FB_CFG_c.INV_DIR. -/
  invDir : Bool := false
  /-- R109: FB_CFG_c.FILT. -/
  filt : BitVec 6 := 0#6
  /-- R108: FB_CFG_c.AXIS. -/
  axis : BitVec 7 := 0#7
  /-- R108: FB_CFG_c.MAPPED. -/
  mapped : Bool := false
  /-- R107: accepted FB_CFG_c write waiting for the pick instant. The model's own field. -/
  cfgNext : Option (BitVec 32) := none
  /-- R109: FB_TIMING_c.DEBOUNCE. -/
  debounce : BitVec 16 := 0#16
  /-- R120: FB_TIMING_c.TSS. -/
  tss : BitVec 10 := 20#10
  /-- R107: accepted FB_TIMING_c write waiting for the pick instant. The model's own field. -/
  timingNext : Option (BitVec 32) := none
  /-- R111: FB_SSI_c.DIV. -/
  ssiDiv : BitVec 14 := 600#14
  /-- R111: FB_SSI_c.GRAY. -/
  gray : Bool := false
  /-- R111: FB_SSI_c.PARITY. -/
  parity : BitVec 2 := 0#2
  /-- R111: FB_SSI_c.BITS. -/
  bits : BitVec 6 := 24#6
  /-- R107: accepted FB_SSI_c write waiting for the pick instant. The model's own field. -/
  ssiNext : Option (BitVec 32) := none
  /-- R112: FB_SSI_LEAD_c.JUMP_MAX. -/
  jumpMax : BitVec 16 := 0#16
  /-- R111: FB_SSI_LEAD_c.LEAD. -/
  lead : BitVec 16 := 1875#16
  /-- R107: accepted FB_SSI_LEAD_c write waiting for the pick instant. The model's own field. -/
  leadNext : Option (BitVec 32) := none
  /-- R111: FB_SSI_RTD_c. -/
  rtd : BitVec 11 := 0#11
  /-- R109: accepted level of input A. DESIGN CHOICE: reset value, log 2. -/
  levelA : Bool := false
  /-- R109: accepted level of input B. DESIGN CHOICE: reset value, log 2. -/
  levelB : Bool := false
  /-- R106: cell time at which the level of B was last accepted, ns. The model's own field. -/
  bTime : Nat := 0
  /-- R116: raw count. -/
  raw : Int := 0
  /-- R116, R117: reported count. -/
  rep : Int := 0
  /-- R107, R117: reported direction dir is -1 (FB_STATUS_c.DIR). -/
  dirNeg : Bool := false
  /-- R116: channel mode. -/
  mode : FbMode := .start
  /-- R107, R119: time of the last reported edge, ns. -/
  e : Nat := 0
  /-- R118: time of the last raw edge, ns. The model's own field. -/
  rawE : Nat := 0
  /-- R119: period, ns. -/
  p : Option Nat := none
  /-- R120: count moved in p. -/
  cnt : Nat := 1
  /-- R119: a reported edge stands before with no reversal or standstill since. The model's own field. -/
  lastSame : Bool := false
  /-- R113: last good SSI word. -/
  wPrev : Option Nat := none
  /-- R112: consecutive bad SSI words. -/
  ssiRun : Nat := 0
  /-- R111: start of the transfer in progress, ns, and the pick it was started for. -/
  ssiStart : Option (Nat × BitVec 32) := none
  /-- R113: a further transfer waits for the end of the one in progress. -/
  ssiAgain : Bool := false
  /-- R119: step of the last good word with a non-zero step. The model's own field. -/
  ssiPrevStep : Int := 0
  /-- R119: sample time of that word. The model's own field. -/
  ssiPrevTime : Nat := 0
  /-- R114: an input pair lies below the fail-safe threshold. -/
  wireCond : Bool := false
  /-- R114: SSI words stay bad. -/
  ssiCond : Bool := false
  /-- R122: values latched at the last pick instant. -/
  latch : FbLatch := default
  /-- R369: values adopted from the active device for the present pick. -/
  adopt : Option FbLatch := none
  /-- R122: POS_HI, SPEED and EDGE captured by a read of FB_POS_LO_c. -/
  cap : Option (BitVec 32 × BitVec 64 × BitVec 64) := none
  /-- R128: FB_STICKY_c (ST). -/
  sticky : BitVec 13 := 0#13
  /-- R128: FB_INT_EN_c. -/
  intEn : BitVec 13 := 0#13
  /-- R124: FB_STATUS_c.ARMED. -/
  armed : Bool := false
  /-- R124: FB_CMP_c: w0 of the armed or last armed compare. -/
  cmp : BitVec 64 := 0#64
  /-- R124: trigger output of the armed compare. -/
  cmpTrig : Fin 8 := 0
  /-- R126: FB_CMP_TIME_c. -/
  cmpTime : BitVec 64 := 0#64
  /-- R112: FB_ERRCNT_c.BAD, saturating. -/
  errBad : BitVec 16 := 0#16
  /-- R113: FB_ERRCNT_c.LATE, saturating. -/
  errLate : BitVec 16 := 0#16
  deriving DecidableEq, Repr, Inhabited

/-- one trigger output (R126) (05_feedback.md). -/
structure Trig where
  /-- R126: FB_TRIG_CFG_t.WIDTH. -/
  width : BitVec 16 := 125#16
  /-- R126: FB_TRIG_CFG_t.POL. -/
  pol : Bool := false
  /-- R126: end times (ns) of the pulses in progress; ACTIVE while non-empty. -/
  pulses : List Nat := []
  deriving DecidableEq, Repr, Inhabited

/-- the feedback interface (05_feedback.md). -/
structure Feedback where
  /-- R106: channels. -/
  ch : Vector FbCh 96 := Vector.replicate 96 default
  /-- R126: trigger outputs. -/
  trig : Vector Trig 8 := Vector.replicate 8 default
  /-- R126: FB_TRIG_STATE.TRIG_REJ (ST). -/
  trigRej : Bool := false
  /-- R127: trace buffer, oldest first, at most 256 entries. -/
  trace : List (Vector (BitVec 32) 4) := []
  /-- R127: FB_TRACE_CTRL.OVF (ST). -/
  traceOvf : Bool := false
  /-- R127: words of the entry last popped. -/
  traceCap : Vector (BitVec 32) 4 := Vector.replicate 4 0#32
  deriving DecidableEq, Repr, Inhabited

/-- coefficients of one output filter section (R138) (06_control_engine.md). -/
structure Biquad where
  /-- R144: b0, signed Q3.28. -/
  b0 : BitVec 32 := 0#32
  /-- R144: b1. -/
  b1 : BitVec 32 := 0#32
  /-- R144: b2. -/
  b2 : BitVec 32 := 0#32
  /-- R144: a1. -/
  a1 : BitVec 32 := 0#32
  /-- R144: a2. -/
  a2 : BitVec 32 := 0#32
  deriving DecidableEq, Repr, Inhabited

/-- one coefficient bank (R144); reset bank of the section Coefficient banks (06_control_engine.md). -/
structure CoefBank where
  /-- R144: position gain, Q16.16. -/
  kpp : BitVec 32 := 0#32
  /-- R144: velocity proportional gain. -/
  kvp : BitVec 32 := 0#32
  /-- R144: velocity integral gain. -/
  kvi : BitVec 32 := 0#32
  /-- R144: acceleration feed-forward gain. -/
  kaff : BitVec 32 := 0#32
  /-- R144: shift of KVP. -/
  shv : BitVec 6 := 0#6
  /-- R144: shift of KVI. -/
  shi : BitVec 6 := 0#6
  /-- R144: shift of KAFF. -/
  sha : BitVec 6 := 0#6
  /-- R144: output limit, Q1.30. -/
  tlim : BitVec 32 := 0#32
  /-- R144: integrator contribution limit, Q1.30. -/
  ilim : BitVec 32 := 0#32
  /-- R144: output change per pick, Q1.30. -/
  tslew : BitVec 32 := 0#32
  /-- R144: velocity command limit. -/
  vlim : BitVec 64 := 0x7FFFFFFFFFFFFFFF#64
  /-- R144: following error limit. -/
  ferrMax : BitVec 64 := 0#64
  /-- R144: consecutive picks. -/
  ferrPicks : BitVec 16 := 1#16
  /-- R144: FILT_EN. -/
  filtEn : BitVec 2 := 0#2
  /-- R144: section 0. -/
  f0 : Biquad := default
  /-- R144: section 1. -/
  f1 : Biquad := default
  deriving DecidableEq, Repr, Inhabited

/-- histories of one filter section (R138) (06_control_engine.md). -/
structure FiltHist where
  /-- R138: x1. -/
  x1 : Int := 0
  /-- R138: x2. -/
  x2 : Int := 0
  /-- R138: y1. -/
  y1 : Int := 0
  /-- R138: y2. -/
  y2 : Int := 0
  deriving DecidableEq, Repr, Inhabited

/-- a set-point entry (R134) (06_control_engine.md). -/
structure SpEntry where
  /-- R134: X_SP, 2^-16 count. The model's own field. -/
  x : Int := 0
  /-- R134: V_SP, 2^-16 count/s. The model's own field. -/
  v : Int := 0
  /-- R134: TFF, Q1.30. The model's own field. -/
  tff : Int := 0
  /-- R134: INDEX: pick number. The model's own field. -/
  index : BitVec 32 := 0#32
  /-- R134: STIME. The model's own field. -/
  stime : BitVec 64 := 0#64
  deriving DecidableEq, Repr, Inhabited

/-- outputs computed in the last pick and held for release at the next (R22) (06_control_engine.md). -/
structure Held where
  /-- R22: xr. -/
  xr : Int := 0
  /-- R22: vr. -/
  vr : Int := 0
  /-- R22: velocity command. -/
  vc : Int := 0
  /-- R22: torque output. -/
  y : Int := 0
  /-- R22: TFF of the entry. -/
  tff : Int := 0
  deriving DecidableEq, Repr, Inhabited

/-- one loop slice (R130 to R150) (06_control_engine.md). -/
structure Slice where
  /-- R130: CE_CFG_a.OUTMODE. -/
  outmode : BitVec 2 := 0#2
  /-- R131: CE_CFG_a.SRC. -/
  src : Bool := false
  /-- R131: CE_CFG_a.CH. -/
  ch : BitVec 7 := 0#7
  /-- R132: CE_CFG_a.MISS_MAX. -/
  missMax : BitVec 4 := 3#4
  /-- R133: accepted CE_CFG_a write waiting for the pick instant. The model's own field. -/
  cfgNext : Option (BitVec 32) := none
  /-- R131: POS_OFF, 2^-16 count (CE_POS_OFF_a, CE_FRAC_OFF_a). -/
  posOff : Int := 0
  /-- R131: CE_POS_OFF_HI_a captured by a read of LO. -/
  capPosOffHi : BitVec 32 := 0#32
  /-- R131: measured position x_m. -/
  xm : Int := 0
  /-- R131: measured speed v_m. -/
  vm : Int := 0
  /-- R132: a drive frame has been latched since the configuration took effect (SRC = 1). -/
  known : Bool := false
  /-- R132: consecutive picks without a frame. -/
  missRun : Nat := 0
  /-- R137: ramp position. -/
  xr : Int := 0
  /-- R137: ramp velocity. -/
  vr : Int := 0
  /-- R137: ramp velocity of the pick before. -/
  vrPrev : Int := 0
  /-- R136: remainder of step. -/
  rem : Int := 0
  /-- R137: integrator contribution, Q1.62. -/
  ic : Int := 0
  /-- R137: u of the last pick. -/
  uPrev : Int := 0
  /-- R137: output y of the last pick. -/
  y : Int := 0
  /-- R137: velocity command of the last pick. -/
  vc : Int := 0
  /-- R137: position error of the last pick (CE_FERR). -/
  ep : Int := 0
  /-- R137: satdir of the last pick. -/
  satdir : Int := 0
  /-- R137: ramp is LIMIT (CE_STATUS_a.RAMP). -/
  limit : Bool := false
  /-- R138: histories of section 0. -/
  h0 : FiltHist := default
  /-- R138: histories of section 1. -/
  h1 : FiltHist := default
  /-- R139: consecutive picks beyond FERR_MAX. -/
  ferrRun : Nat := 0
  /-- R144: bank A. -/
  bankA : CoefBank := default
  /-- R144: bank B. -/
  bankB : CoefBank := default
  /-- R146: active bank: false A, true B. -/
  bankSel : Bool := false
  /-- R145: CE_STATUS_a.LOADED. -/
  loaded : Bool := false
  /-- R146: LOOP.SWAP operations pending (flow, operation, cell time of acceptance in 2^-32 ns), first one first. -/
  swapPend : List (Fin 16 × Nat × Nat) := []
  /-- R137: CE_STATUS_a.CLOSED. -/
  closed : Bool := false
  /-- R151: CE_STICKY_a (ST). -/
  sticky : BitVec 11 := 0#11
  /-- R151: CE_INT_EN_a. -/
  intEn : BitVec 11 := 0#11
  /-- R137: CE_VMAX_a in force. -/
  vmax : BitVec 64 := 0x0000010000000000#64
  /-- R143: CE_VMAX_LO_a as last written. -/
  vmaxLo : BitVec 32 := 0#32
  /-- R143: VMAX waiting for the next pick. The model's own field. -/
  vmaxNext : Option (BitVec 64) := none
  /-- R137: CE_AMAX_a in force. -/
  amax : BitVec 64 := 0x0001000000000000#64
  /-- R142: CE_AMAX_LO_a as last written. -/
  amaxLo : BitVec 32 := 0#32
  /-- R142: AMAX waiting for the next pick. The model's own field. -/
  amaxNext : Option (BitVec 64) := none
  /-- R137: CE_KC_a in force. -/
  kc : BitVec 32 := 0x00640000#32
  /-- R24: KC waiting for the next pick. The model's own field. -/
  kcNext : Option (BitVec 32) := none
  /-- R137: CE_LOCK_a.LOCK_X. -/
  lockX : BitVec 16 := 4096#16
  /-- R137: XR_HI, VR_LO, VR_HI, U, INTEG_LO, INTEG_HI, FERR_LO, FERR_HI captured by a read of CE_XR_LO_a. -/
  cap : Option (Vector (BitVec 32) 8) := none
  /-- R22: outputs held for release. -/
  held : Held := default
  /-- R155: X_SP of the entry last used. -/
  usedX : Int := 0
  /-- R155: V_SP of the entry last used. -/
  usedV : Int := 0
  /-- R135: the entry last used came from the interpolation. The model's own field. -/
  usedMpc : Bool := false
  /-- R135: interpolated entry waiting for its pick (SCATTER_SP or INTERP). -/
  mpcEntry : Option SpEntry := none
  deriving DecidableEq, Repr, Inhabited

/-- MPC bypass of one arm (R148) (06_control_engine.md). -/
structure ArmCe where
  /-- R148: CE_MPC_BYPASS bit. -/
  bypass : Bool := false
  /-- R148: CE_BYPASS_CNT_r, saturating. -/
  cnt : BitVec 32 := 0#32
  deriving DecidableEq, Repr, Inhabited

/-- a record as its source delivers it (R403, R404) (19_event_recorder.md). -/
structure Rec where
  /-- R403: SRC. The model's own field. -/
  src : Nat := 0
  /-- R403: CODE. The model's own field. -/
  code : BitVec 12 := 0#12
  /-- R403: payload words; LEN is their number plus 3. The model's own field. -/
  payload : List (BitVec 32) := []
  deriving DecidableEq, Repr, Inhabited

/-- a ring of records in SRAM: the record ring or one safety log (R408, R414) (19_event_recorder.md). -/
structure RecRing where
  /-- R408: word index of the next free word (ER_HEAD). -/
  head : Nat := 0
  /-- R408: word index of the oldest record (ER_TAIL). -/
  tail : Nat := 0
  /-- R408: words from TAIL to HEAD. The model's own field. -/
  used : Nat := 0
  /-- R405, R414: sequence number to be assigned next (ER_SEQ). -/
  seq : BitVec 32 := 0#32
  /-- R406: word index of the newest record of each SRC that may still be merged into. -/
  newest : Vector (Option Nat) 25 := Vector.replicate 25 none
  deriving DecidableEq, Repr, Inhabited

/-- the event recorder and the two safety logs (R403 to R417) (19_event_recorder.md). -/
structure Recorder where
  /-- R408: the record ring. -/
  ring : RecRing := {}
  /-- R411: host read cursor, word index (ER_CUR). -/
  cur : Nat := 0
  /-- R417: words from CUR to HEAD. The model's own field. -/
  unread : Nat := 0
  /-- R407: E (ER_EPOCH), held in PD0. -/
  epoch : BitVec 64 := 0#64
  /-- R407: no record has been admitted since the device reset, so the EPOCH to be written carries E = 0. The model's own field. -/
  first : Bool := true
  /-- R416: high word captured by a read of ER_EPOCH_LO. -/
  capEpochHi : BitVec 32 := 0#32
  /-- R405: staging queue of each source, oldest first, at most 8. -/
  staging : Vector (List Rec) 25 := Vector.replicate 25 []
  /-- R405: records lost since the last LOSS record and the SRC of the first of them. -/
  lostPend : Option (Nat × Nat) := none
  /-- R417: ER_STICKY (ST). -/
  sticky : BitVec 5 := 0#5
  /-- R417: ER_INT_EN. -/
  intEn : BitVec 5 := 0#5
  /-- R417: ER_WMARK. -/
  wmark : BitVec 21 := 524288#21
  /-- R405: ER_CNT_LOST, saturating. -/
  cntLost : BitVec 32 := 0#32
  /-- R409: ER_CNT_OVR, saturating. -/
  cntOvr : BitVec 32 := 0#32
  /-- R414: safety log of channel A; survives every reset but the removal of VDD_SA. -/
  logA : RecRing := {}
  /-- R414: safety log of channel B. -/
  logB : RecRing := {}
  /-- R415: ER_SLOG_SEL.CH. -/
  selB : Bool := false
  /-- R415: ER_SLOG_SEL.SKIPPED. -/
  skipped : Bool := false
  /-- R415: log read position, word index. -/
  logPos : Nat := 0
  /-- R415: words from the read position to the end of the selected log. The model's own field. -/
  logUnread : Nat := 0
  deriving DecidableEq, Repr, Inhabited

/-- one ring of the host interface (R440 to R443) (21_host_boot.md). -/
structure HostRing where
  /-- R442: HI_BASE_LO and HI_BASE_HI. -/
  base : BitVec 64 := 0#64
  /-- R441: HI_CFG.IRQ_EN. -/
  irqEn : Bool := false
  /-- R442: HI_CFG.LOC: true a device address. -/
  loc : Bool := false
  /-- R440: HI_CFG.DEPTH. -/
  depth : BitVec 4 := 1#4
  /-- R442: HI_CFG.EN. -/
  en : Bool := false
  /-- R440: HI_TAIL. -/
  tail : BitVec 12 := 0#12
  /-- R440: HI_HEAD. -/
  head : BitVec 12 := 0#12
  /-- R441: present phase of a completion queue. -/
  phase : Bool := true
  /-- R441: the vector has been sent since the last head write. -/
  irqSent : Bool := false
  deriving DecidableEq, Repr, Inhabited

/-- one entry of the MSI-X table (R437) (21_host_boot.md). -/
structure MsixEntry where
  /-- R437: message address. PRESUMED: log 12. -/
  addr : BitVec 64 := 0#64
  /-- R437: message data. PRESUMED: log 12. -/
  data : BitVec 32 := 0#32
  /-- R437: mask bit. PRESUMED: log 12. -/
  masked : Bool := true
  deriving DecidableEq, Repr, Inhabited

/-- the host interface (R436 to R452) (21_host_boot.md). -/
structure HostIf where
  /-- R439: submission rings. -/
  sub : Vector HostRing 16 := Vector.replicate 16 default
  /-- R441: completion queues. -/
  comp : Vector HostRing 16 := Vector.replicate 16 default
  /-- R443: transmit frame ring of port 7. -/
  tx : HostRing := {}
  /-- R443: receive frame ring of port 7. -/
  rx : HostRing := {}
  /-- R443: buffer addresses that DMA has read ahead from a receive ring with LOC = 0. The model's own field. -/
  rxBufs : List (BitVec 40) := []
  /-- R444: HI_STICKY (ST). -/
  sticky : BitVec 4 := 0#4
  /-- R14: HI_UNAVAIL_CNT, saturating. -/
  unavailCnt : BitVec 32 := 0#32
  /-- R443: HI_RX_NOBUF, saturating. -/
  rxNobuf : BitVec 32 := 0#32
  /-- R14: the UNAVAIL_ACCESS record has been written since the counter was last cleared. -/
  unavailRec : Bool := false
  /-- R437: MSI-X table. PRESUMED: log 12. -/
  msix : Vector MsixEntry 64 := Vector.replicate 64 default
  /-- R437: MSI-X pending bits. PRESUMED: log 12. -/
  pba : BitVec 64 := 0#64
  /-- R438: level of PERST#. DESIGN CHOICE: reset value, log 13. -/
  perstHigh : Bool := false
  /-- R452: the PCIe link is up. -/
  linkUp : Bool := false
  /-- R452: speed of the link, 1 to 4. -/
  linkSpeed : BitVec 3 := 0#3
  /-- R452: width of the link. -/
  linkWidth : BitVec 4 := 0#4
  deriving DecidableEq, Repr, Inhabited

/-- boot controller, OTP and reset registers, held in PD0 (R446 to R450) (21_host_boot.md). -/
structure Boot where
  /-- R448: AON_BOOT_STATUS.REASON. -/
  reason : BitVec 4 := 0#4
  /-- R448: AON_BOOT_STATUS.SVN. -/
  svn : BitVec 16 := 0#16
  /-- R447: AON_BOOT_STATUS.SECOND. -/
  second : Bool := false
  /-- R447: AON_BOOT_STATUS.WAIT_HOST. -/
  waitHost : Bool := false
  /-- R448: AON_BOOT_STATUS.BUSY. -/
  busy : Bool := false
  /-- R448: AON_BOOT_STATUS.DONE. -/
  done : Bool := false
  /-- R447: LEN last written to AON_BOOT_HOST with GO. -/
  hostLen : BitVec 21 := 0#21
  /-- R447: GO has been written in this boot. -/
  hostGo : Bool := false
  /-- R448: sections copied; both channels have yet to leave SELFTEST. The model's own field. -/
  selftest : Bool := false
  /-- R450: AON_RESET_CAUSE: power-on. -/
  resetCause : BitVec 4 := 1#4
  /-- R449: AON_OTP_DATA_i. -/
  otpData : Vector (BitVec 32) 12 := Vector.replicate 12 0#32
  /-- R449: OTP key hash once programmed, byte 0 in the most significant place. DESIGN CHOICE: reset value, log 14. -/
  keyHash : Option (BitVec 384) := none
  /-- R449: OTP minimum SVN. DESIGN CHOICE: reset value, log 14. -/
  minSvn : BitVec 16 := 0#16
  /-- R1, R3: AON_ID.VARIANT: fused. DESIGN CHOICE: reset value, log 14. -/
  variantEB : Bool := false
  /-- R447: strap BOOT_SRC, latched at power-on reset release. DESIGN CHOICE: reset value, log 13. -/
  bootSrc : BitVec 2 := 0#2
  /-- R391: strap CASC_POS, latched at power-on reset release. DESIGN CHOICE: reset value, log 13. -/
  cascPos : BitVec 3 := 0#3
  deriving DecidableEq, Repr, Inhabited

/-- a domain transition in progress (R421) (20_power_health.md). -/
structure DomTrans where
  /-- R421: state to be reached. The model's own field. -/
  target : DomState := .off
  /-- R421: host flow of the PWR.DOMAIN. The model's own field. -/
  flow : Fin 16 := 0
  /-- R421: its operation. The model's own field. -/
  op : Nat := 0
  deriving DecidableEq, Repr, Inhabited

/-- a device-state transition in progress (R423) (20_power_health.md). -/
structure DevTrans where
  /-- R423: state to be reached. The model's own field. -/
  target : DevState := .standby
  /-- R423: flow and operation of the PWR.SET, when one caused it. The model's own field. -/
  op : Option (Fin 16 × Nat) := none
  /-- R435: cause for the PWR_STATE record. The model's own field. -/
  cause : BitVec 2 := 0#2
  /-- R445: the transition includes a boot. The model's own field. -/
  boot : Bool := false
  deriving DecidableEq, Repr, Inhabited

/-- AON and power controller (R418 to R430) (20_power_health.md). -/
structure Power where
  /-- R30, R450: device state (AON_STATE.STATE). -/
  state : DevState := .standby
  /-- R423: transition in progress; AON_STATE.BUSY while some. -/
  trans : Option DevTrans := none
  /-- R418, R419, R450: domain states (AON_DOM_STATE). -/
  dom : Vector DomState 13 := #v[.run, .ret, .ret, .off, .off, .off, .off, .off, .off, .off, .off, .off, .off]
  /-- R421: domain transitions in progress. -/
  domTrans : Vector (Option DomTrans) 13 := Vector.replicate 13 none
  /-- R423: domain states before SLEEP. The model's own field. -/
  domBefore : Vector DomState 13 := Vector.replicate 13 .off
  /-- R425: AON_WAKE_EN.PIN. -/
  wakeEnPin : Bool := false
  /-- R425: AON_WAKE_EN.TIMER. -/
  wakeEnTimer : Bool := false
  /-- R425: AON_WAKE_TIME. -/
  wakeTime : BitVec 64 := 0#64
  /-- R425: AON_WAKE_CAUSE. -/
  wakeCause : BitVec 3 := 0#3
  /-- R425: sources that arrived while BUSY was 1. -/
  wakePend : BitVec 3 := 0#3
  /-- R423: AON_SLEEP_MAP.RET, bit 0 for PD3. -/
  sleepMap : BitVec 10 := 0x3FF#10
  /-- R435: AON_STICKY (ST). -/
  sticky : BitVec 5 := 0#5
  /-- R435: AON_INT_EN. -/
  intEn : BitVec 5 := 0#5
  /-- R428: AON_TEMP.TJ, signed. -/
  tj : BitVec 8 := 0#8
  /-- R428: AON_TEMP.PEAK, signed. -/
  peak : BitVec 8 := 0#8
  /-- R428: AON_TEMP.SENSOR. -/
  hot : BitVec 3 := 0#3
  /-- R428: a sample has been taken since reset. The model's own field. -/
  sampled : Bool := false
  /-- R428: AON_THERM.TWARN. -/
  twarn : BitVec 8 := 110#8
  /-- R428: a warning was given and T_j has not fallen 5 degrees below TWARN. -/
  warned : Bool := false
  /-- R429: the last sample exceeded 125 degrees. -/
  over125 : Bool := false
  /-- R429: the thermal trip acted and SUPPLY_EN falls at this cell time, ns. -/
  tripped : Option Nat := none
  /-- R429, R459: output SUPPLY_EN. -/
  supplyEn : Bool := true
  /-- R456: power-on reset is asserted. -/
  por : Bool := false
  deriving DecidableEq, Repr, Inhabited

/-- clock and reset unit status (R426, R427) (20_power_health.md). -/
structure Clocks where
  /-- R426: CR_PLL_STATUS. -/
  pll : BitVec 18 := 0#18
  /-- R427: CR_CLK_RUN. -/
  clk : BitVec 30 := 0#30
  deriving DecidableEq, Repr, Inhabited

/-- health and wear monitor (R430 to R434) (20_power_health.md). -/
structure Health where
  /-- R435: HW_STICKY (ST). -/
  sticky : BitVec 5 := 0#5
  /-- R435: HW_INT_EN. -/
  intEn : BitVec 5 := 0#5
  /-- R433: HW_STATUS.EOL_ITEM. -/
  eolItem : BitVec 4 := 0#4
  /-- R434: HW_STATUS.RESTORED. -/
  restored : Bool := false
  /-- R433: HW_EOL. -/
  eol : BitVec 32 := 1000000#32
  /-- R433: HW_EOL_WIN.EOL_ALERT. -/
  eolAlert : BitVec 20 := 8760#20
  /-- R433: HW_EOL_WIN.W. -/
  win : BitVec 12 := 168#12
  /-- R433: HW_RATED_i, i = 1 to 9 (entry 0 unused). -/
  rated : Vector (BitVec 32) 10 := Vector.replicate 10 0#32
  /-- R433: F_i (HW_FRAC_i). -/
  frac : Vector Nat 10 := Vector.replicate 10 0
  /-- R433: rho_i (HW_RATE_i), Q16.16. -/
  rate : Vector Int 10 := Vector.replicate 10 0
  /-- R430: HW_DRIFT_j. -/
  drift : Vector (BitVec 32) 16 := Vector.replicate 16 0#32
  /-- R428: HW_TEMP_s. -/
  temp : Vector (BitVec 8) 8 := Vector.replicate 8 0#8
  /-- R431: HW_ECC_p.COR, saturating. -/
  cor : Vector (BitVec 16) 7 := Vector.replicate 7 0#16
  /-- R431: HW_ECC_p.UNC, saturating. -/
  unc : Vector (BitVec 8) 7 := Vector.replicate 7 0#8
  /-- R431: HW_ECC_p.WEAK, saturating. -/
  weak : Vector (BitVec 8) 7 := Vector.replicate 7 0#8
  /-- R431: words corrected in the last scrub pass of the partitions other than Selvedge. -/
  lastPass : List (BitVec 40) := []
  /-- R431: words corrected in the last scrub pass of the Selvedge partition. -/
  lastPassSel : List (BitVec 40) := []
  /-- R433: acc. -/
  acc : Nat := 0
  /-- R432: C_i, i = 1 to 9 (entry 0 unused). -/
  cnt : Vector (BitVec 32) 10 := Vector.replicate 10 0#32
  /-- R434: powered hours. -/
  hours : Nat := 0
  /-- R433: highest T_j of the present second, signed. DESIGN CHOICE: reset value, log 15. -/
  secMax : BitVec 8 := 0x80#8
  /-- R434: wear image captured by a read of HW_IMG_0. -/
  imgCap : Vector (BitVec 32) 24 := Vector.replicate 24 0#32
  /-- R434: words last written to the image registers. -/
  imgIn : Vector (BitVec 32) 24 := Vector.replicate 24 0#32
  deriving DecidableEq, Repr, Inhabited

/-- one axis (R33, R34) (07_profiles.md). -/
structure Axis where
  /-- R33: axis state. -/
  state : AxisState := .disabled
  /-- R82: the axis was brought to FAULT by a category 0 stop. -/
  selFault : Bool := false
  deriving DecidableEq, Repr, Inhabited

/-- one arm as ARM.DEFINE makes it (R79) (07_profiles.md). -/
structure Arm where
  /-- R79: first axis. -/
  first : Nat := 0
  /-- R79: axes owned; 0: not defined. -/
  count : Nat := 0
  /-- R34, R81: the arm is under MPC. -/
  mpc : Bool := false
  deriving DecidableEq, Repr, Inhabited

/-- increments and effective speeds of a plan (R158) (07_profiles.md). -/
structure PlanK where
  /-- R158: da1. The model's own field. -/
  da1 : Int := 1
  /-- R158: da2. The model's own field. -/
  da2 : Int := 1
  /-- R158: dd1. The model's own field. -/
  dd1 : Int := 1
  /-- R158: dd2. The model's own field. -/
  dd2 : Int := 1
  /-- R158: dq. The model's own field. -/
  dq : Int := 1
  /-- R158: VMOVE_eff. The model's own field. -/
  vmove : Int := 1
  /-- R158: VB. The model's own field. -/
  vb : Int := 0
  /-- R158: VSTART_eff. The model's own field. -/
  vstart : Int := 0
  /-- R158: VSTOP_eff. The model's own field. -/
  vstop : Int := 1
  deriving DecidableEq, Repr, Inhabited

/-- a planner (R159, R162, R167, R172) (07_profiles.md). -/
structure Planner where
  /-- R158: increments in force. -/
  k : PlanK := {}
  /-- R159: mode. -/
  mode : PlanMode := .idle
  /-- R159: position of the last sample computed. -/
  x : Int := 0
  /-- R159: speed along dir, or the signed speed of a segment table. -/
  v : Int := 0
  /-- R159: direction. -/
  dir : Int := 1
  /-- R157: T. -/
  target : Int := 0
  /-- R136: remainder of step. -/
  rem : Int := 0
  /-- R159: PG_STATUS_a.PHASE of the last sample. -/
  phase : BitVec 3 := 0#3
  deriving DecidableEq, Repr, Inhabited

/-- one profile sample (R153) (07_profiles.md). -/
structure Sample where
  /-- R153: x. -/
  x : Int := 0
  /-- R153: v. -/
  v : Int := 0
  /-- R159, R162: the sample ends the plan. The model's own field. -/
  ends : Bool := false
  /-- R159: PHASE of the sample. The model's own field. -/
  phase : BitVec 3 := 0#3
  /-- R159: DIR of the sample. The model's own field. -/
  neg : Bool := false
  deriving DecidableEq, Repr, Inhabited

/-- gearing of a slave (R168, R169) (07_profiles.md). -/
structure Gear where
  /-- R169: master axis. -/
  master : Fin 80 := 0
  /-- R168: ratio, signed Q31.32. -/
  ratio : Int := 0
  /-- R168: base_s. -/
  baseS : Int := 0
  /-- R168: base_m. -/
  baseM : Int := 0
  /-- R168: m of the pick before. -/
  mPrev : Int := 0
  /-- R169: the slave is engaged. -/
  engaged : Bool := false
  /-- R168, R169: w1 and the ratio of a change or engagement that awaits its crossing. -/
  pend : Option (Int × Int) := none
  /-- R169: ratio of a change that is rebased at m in this pick. The model's own field. -/
  rebase : Option Int := none
  /-- R169: the gearing has not yet seen a pick. The model's own field. -/
  fresh : Bool := true
  deriving DecidableEq, Repr, Inhabited

/-- homing sequence (R172 to R174) (07_profiles.md). -/
structure Home where
  /-- R172: method. -/
  method : BitVec 4 := 0#4
  /-- R174: position assigned at the home point. -/
  w0 : Int := 0
  /-- R174: the home point has been found; the back-off move runs. -/
  found : Bool := false
  /-- R174: the search travelled HOME_TRAVEL; the axis brakes. -/
  failed : Bool := false
  /-- R173: consecutive picks of a stall. -/
  stall : Nat := 0
  /-- R174: set-point at which the search started. -/
  from_ : Int := 0
  /-- R172: cell time at which the search started, ns. -/
  since : Nat := 0
  deriving DecidableEq, Repr, Inhabited

/-- a segment table in execution (R167) (07_profiles.md). -/
structure SegRun where
  /-- R167: slot. -/
  slot : Fin 8 := 0
  /-- R167: present segment. -/
  idx : Nat := 0
  /-- R167: profile picks left in it. -/
  left : Nat := 0
  /-- R167: loop counter of each segment. -/
  loops : List Nat := []
  deriving DecidableEq, Repr, Inhabited

/-- profile generation of one axis (R153 to R175) (07_profiles.md). -/
structure PgAxis where
  /-- R156: parameters in force (PG_PARAM). -/
  param : Vector (BitVec 64) 24 := pgParamReset
  /-- R161: values that wait for the next move or stop. -/
  deferred : List (Nat × BitVec 64) := []
  /-- R155: source of the set-point. -/
  src : PgSource := .none
  /-- R155: holding position. -/
  hold : Int := 0
  /-- R157: target in force. -/
  target : Int := 0
  /-- R157: w1, w2, w3 of the move in force. -/
  w : Option (Int × Int × Int) := none
  /-- R159: planner. -/
  pl : Planner := {}
  /-- R153, R154: samples from sample j of theta onward. -/
  samples : List Sample := []
  /-- R154: fraction of theta, 15 bits. -/
  phi : Nat := 0
  /-- R153: the planner has produced the last sample of its plan. The model's own field. -/
  done : Bool := false
  /-- R155: X_SP of the last entry. -/
  lastX : Int := 0
  /-- R155: unscaled velocity of the last entry. -/
  lastV : Int := 0
  /-- R153: entry formed for the present pick. -/
  entry : Option SpEntry := none
  /-- R162: a stop runs in real time, outside the scale group. -/
  stopMode : Bool := false
  /-- R162: the stop is a quick stop. -/
  quick : Bool := false
  /-- R34: a Selvedge stop demanded the stop. -/
  safety : Bool := false
  /-- R164, R165: the axis moves under this arm's ARM.MOVE. -/
  inArm : Option (Fin 8) := none
  /-- R164: the axis brakes to rest before the synchronised profile starts. -/
  armBrake : Bool := false
  /-- R168: gearing. -/
  gear : Gear := {}
  /-- R172: homing. -/
  home : Home := {}
  /-- R167: segment table. -/
  seg : SegRun := {}
  /-- R106, R170: sign of the last non-zero set-point speed. DESIGN CHOICE: reset value, log 16. -/
  spDir : Int := 1
  /-- R170: sign of the last non-zero measured speed. -/
  msDir : Int := 1
  /-- R159: PG_STATUS_a.PHASE. -/
  phase : BitVec 3 := 0#3
  /-- R159: PG_STATUS_a.DIR. -/
  neg : Bool := false
  /-- R151: PG_STICKY_a (ST). -/
  sticky : BitVec 9 := 0#9
  /-- R151: PG_INT_EN_a. -/
  intEn : BitVec 9 := 0#9
  deriving DecidableEq, Repr, Inhabited

/-- a synchronised arm move (R164, R469) (07_profiles.md). -/
structure ArmMove where
  /-- R164: the synchronised profile runs. -/
  synced : Bool := false
  /-- R164: axes that take part, in order. -/
  axes : List (Fin 80) := []
  /-- R164: x0_i of the axes that take part. -/
  x0 : List Int := []
  /-- R164: T_i of the axes that take part. -/
  targets : List Int := []
  /-- R164: planner of the normalised coordinate u. -/
  pl : Planner := {}
  /-- R154: samples of u. -/
  samples : List Sample := []
  /-- R154: fraction of theta. -/
  phi : Nat := 0
  /-- R164: the last sample of u has been produced. The model's own field. -/
  done : Bool := false
  /-- R469: u of the last entries. -/
  lastU : Int := 0
  /-- R469: its speed. -/
  lastUd : Int := 0
  /-- R469: the stop of u runs in real time. -/
  stopMode : Bool := false
  deriving DecidableEq, Repr, Inhabited

/-- one segment of a slot (R166) (07_profiles.md). -/
structure Segment where
  /-- R166: ACC. -/
  acc : Int := 0
  /-- R166: PICKS. -/
  picks : Nat := 1
  /-- R166: NEXT. -/
  next : Nat := 0
  /-- R166: JUMP. -/
  jump : Bool := false
  /-- R166: LOOPS. -/
  loops : Nat := 0
  deriving DecidableEq, Repr, Inhabited

/-- profile generator (R153 to R175) (07_profiles.md). -/
structure Profile where
  /-- R153: axes. -/
  ax : Vector PgAxis 80 := Vector.replicate 80 default
  /-- R164: arm moves in progress. -/
  mv : Vector (Option ArmMove) 8 := Vector.replicate 8 none
  /-- R166: segment slots (PG_SLOT_s). -/
  slot : Vector (Option (List Segment)) 8 := Vector.replicate 8 none
  /-- R175: PG_SCALE_UP.DS_UP. -/
  dsUp : BitVec 16 := 33#16
  /-- R175: PG_SIGMA_r.S. -/
  tgt : Vector (BitVec 16) 8 := Vector.replicate 8 32768#16
  /-- R175: PG_SIGMA_r.SIGMA. -/
  sigma : Vector Nat 8 := Vector.replicate 8 32768
  /-- R175: PG_AUX_SIGMA_j.S. -/
  auxTgt : Vector (BitVec 16) 16 := Vector.replicate 16 32768#16
  /-- R175: PG_AUX_SIGMA_j.SIGMA. -/
  auxSigma : Vector Nat 16 := Vector.replicate 16 32768
  /-- R175: effective scale of a joint axis that no arm in use owns. DESIGN CHOICE: reset value, log 17. -/
  freeSigma : Vector Nat 64 := Vector.replicate 64 32768
  deriving DecidableEq, Repr, Inhabited

/-- one stepper link (R176 to R178) (07_profiles.md). -/
structure StlLink where
  /-- R176: STL_CFG_n.AXIS. -/
  axis : BitVec 7 := 64#7
  /-- R176: STL_CFG_n.EN. -/
  en : Bool := false
  /-- R177: STL_CFG_n.INV. -/
  inv : Bool := false
  /-- R178: STL_CFG_n.SUB. -/
  sub : BitVec 5 := 8#5
  /-- R178: STL_CFG_n.DIV. -/
  div : BitVec 8 := 60#8
  /-- R177: STL_SCALE_n. -/
  mscale : BitVec 32 := 0x00010000#32
  /-- R177: STL_ADDR_n.ADDR_OFF. -/
  addrOff : BitVec 10 := 0#10
  /-- R178: STL_ADDR_n.LAST. -/
  last : BitVec 10 := 0#10
  /-- R178: a frame has been sent since the link could send. The model's own field. -/
  sent : Bool := false
  /-- R176: STL_STATUS_n.CFG_REJ (ST). -/
  cfgRej : Bool := false
  /-- R178: STL_STATUS_n.FAST (ST). -/
  fast : Bool := false
  /-- R178: STL_STATUS_n.SUB_REDUCED (ST). -/
  subReduced : Bool := false
  /-- R178: STL_STATUS_n.SUB_ACTIVE. -/
  subActive : BitVec 5 := 8#5
  /-- R177: xr released at the pick before. -/
  xPrev : Int := 0
  /-- R177: xr released at the present pick. -/
  xCur : Int := 0
  /-- R177: next frame of the pick. -/
  frame : Nat := 0
  /-- R177: cell time of the last change of address, ns. -/
  changed : Nat := 0
  deriving DecidableEq, Repr, Inhabited

/-- axes and arms (07_profiles.md). -/
structure Cell where
  /-- R33: axes. -/
  ax : Vector Axis 80 := Vector.replicate 80 default
  /-- R79: arms. -/
  arm : Vector Arm 8 := Vector.replicate 8 default
  deriving DecidableEq, Repr, Inhabited

/-- a QP instance of the forming draft (R17, R196) (08_churn.md). -/
structure ChInst where
  /-- R194: instance buffer. The model's own field. -/
  buf : Bool := false
  /-- R196: INDEX. -/
  index : BitVec 32 := 0#32
  /-- R196: its solve runs. -/
  solving : Bool := false
  deriving DecidableEq, Repr, Inhabited

/-- a QP.SCHED or QP.SUBMIT in execution (R221) (08_churn.md). -/
structure ChJob where
  /-- R221: host flow. The model's own field. -/
  flow : Fin 16 := 0
  /-- R221: its operation. The model's own field. -/
  op : Nat := 0
  /-- R221: QP.SUBMIT; false: QP.SCHED. The model's own field. -/
  submit : Bool := false
  /-- R201, R219: address of the instance or image. The model's own field. -/
  w0 : BitVec 64 := 0#64
  /-- R201, R219: address of the result, or length. The model's own field. -/
  w1 : BitVec 64 := 0#64
  /-- R220: CRC of the checked image. The model's own field. -/
  crc : BitVec 32 := 0#32
  /-- R201: its solve runs. The model's own field. -/
  solving : Bool := false
  deriving DecidableEq, Repr, Inhabited

/-- a cost image that awaits its exchange (R202) (08_churn.md). -/
structure Cost where
  /-- R202: host flow. The model's own field. -/
  flow : Fin 16 := 0
  /-- R202: its operation. The model's own field. -/
  op : Nat := 0
  /-- R202, R222: operations whose image was overwritten; true: one that completes with ABORTED. The model's own field. -/
  overw : List (Fin 16 × Nat × Bool) := []
  /-- R222: no exchange takes place. The model's own field. -/
  dead : Bool := false
  deriving DecidableEq, Repr, Inhabited

/-- Churn (08_churn.md). -/
structure Churn where
  /-- R220: a validated schedule is loaded (CH_STATUS.SCHED). -/
  sched : Bool := false
  /-- R185: planning runs (CH_STATUS.PLANNING). -/
  planning : Bool := false
  /-- R185: forming draft slot. The model's own field. -/
  formSlot : Fin 8 := 0
  /-- R185: QP.START accepted: slot and cell time, 2^-32 ns. -/
  startAt : Option (Fin 8 × Nat) := none
  /-- R185: QP.STOP accepted: flow, operation and cell time. -/
  stopAt : List (Fin 16 × Nat × Nat) := []
  /-- R18, R196: instances queued or solving, oldest first (CH_STATUS.INST). -/
  insts : List ChInst := []
  /-- R221: QP.SCHED and QP.SUBMIT, oldest first. -/
  jobs : List ChJob := []
  /-- R196: CH_STATUS.CUR_VALID. -/
  curValid : Bool := false
  /-- R196: CH_STATUS.CUR_BUF. -/
  curBuf : Bool := false
  /-- R200: CH_STATUS.CUR_EXPIRED. -/
  curExpired : Bool := false
  /-- R196: CH_CUR_INDEX. -/
  curIndex : BitVec 32 := 0#32
  /-- R192: CH_CUR_SIG. -/
  curSig : BitVec 64 := 0#64
  /-- R16, R148: the current solution has been withdrawn. -/
  withdrawn : Bool := false
  /-- R196: complete solution in the other buffer: INDEX and SIG. -/
  waiting : Option (BitVec 32 × BitVec 64) := none
  /-- R202: pending cost image (CH_STATUS.COST_PENDING). -/
  cost : Option Cost := none
  /-- R202: CH_STATUS.COST_SEL. -/
  costSel : Bool := false
  /-- R202: CH_COST_BASE.BLOCK. -/
  costBase : BitVec 8 := 0#8
  /-- R203: CH_STICKY (ST). -/
  sticky : BitVec 9 := 0#9
  /-- R187: CH_TOL_P. -/
  tolP : BitVec 32 := 0x3727C5AC#32
  /-- R187: CH_TOL_D. -/
  tolD : BitVec 32 := 0x3727C5AC#32
  /-- R187: CH_TOL_GAP. -/
  tolGap : BitVec 32 := 0x358637BD#32
  /-- R189: CH_ITER.DREG_EXP. -/
  dregExp : BitVec 6 := 20#6
  /-- R189: CH_ITER.EPIV_EXP. -/
  epivExp : BitVec 6 := 24#6
  /-- R187: CH_ITER.CAP. -/
  cap : BitVec 6 := 40#6
  /-- R192: SIG_eff (CH_SIG). -/
  sig : BitVec 64 := 0#64
  /-- R192: CH_SIG_HI captured by a read of LO. -/
  capSigHi : BitVec 32 := 0#32
  /-- R206: CH_SCHED_HASH_HI captured by a read of LO. -/
  capHashHi : BitVec 32 := 0#32
  /-- R196: CH_LAST.TIME_US. -/
  lastTime : BitVec 16 := 0#16
  /-- R196: CH_LAST.WARM. -/
  lastWarm : Bool := false
  /-- R196: CH_LAST.RESULT. -/
  lastResult : BitVec 3 := 0#3
  /-- R196: CH_LAST.ITER. -/
  lastIter : BitVec 8 := 0#8
  /-- R196: CH_LAST_INDEX. -/
  lastIndex : BitVec 32 := 0#32
  /-- R196: CH_CNT_SOLVED, PUBLISHED, FAILED, LATE, SKIP, PIVREG, REJ. -/
  cnt : Vector (BitVec 32) 7 := Vector.replicate 7 0#32
  /-- R196: cell time at which the running solve started, ns. The model's own field. -/
  solveStart : Nat := 0
  /-- R219: CH_SCHED_ERR. -/
  schedErr : BitVec 32 := 0#32
  /-- R222: NW of the last schedule loaded. The model's own field. -/
  nwLoaded : Option Nat := none
  /-- R199: plan clock of each arm, picks with 15 fractional bits. -/
  psi : Vector Nat 8 := Vector.replicate 8 0
  /-- R199: plan clocks at the last 64 beat boundaries, newest first. -/
  psiAt : List (BitVec 32 × Vector Nat 8) := []
  deriving DecidableEq, Repr, Inhabited

/-- placed capsules of an arm or of the foreign set (R233, R234) (10_reed.md). -/
structure CapSet where
  /-- R20, R234: index of the placement entry. -/
  index : BitVec 32 := 0#32
  /-- R20, R234: sample time, ns. -/
  stime : Nat := 0
  /-- R233: the capsules, in order of identity. -/
  caps : List (Vector (BitVec 32) 8) := []
  deriving DecidableEq, Repr, Inhabited

/-- one snapshot of the capsule ring (R234) (10_reed.md). -/
structure Snap where
  /-- R234: pick number. -/
  pick : BitVec 32 := 0#32
  /-- R234: capsules of each arm. -/
  arms : Vector (Option CapSet) 8 := Vector.replicate 8 none
  /-- R234: foreign capsules. -/
  foreign : Option CapSet := none
  deriving DecidableEq, Repr, Inhabited

/-- one staging slot of a sensor (R232) (10_reed.md). -/
structure ReedSlot where
  /-- R232: a frame arrives or stands in it. -/
  busy : Bool := false
  /-- R231: both checkers have accepted the frame. -/
  accepted : Bool := false
  /-- R229: payload bytes received. The model's own field. -/
  len : Nat := 0
  /-- R298: its last fragment has arrived. The model's own field. -/
  done : Bool := false
  /-- R245: cell time of the last fragment, ns. The model's own field. -/
  lastFrag : Nat := 0
  /-- R229: capture time in cell time, ns. -/
  capture : Nat := 0
  /-- R232: a cycle has used the frame. -/
  used : Bool := false
  deriving DecidableEq, Repr, Inhabited

/-- one sensor (R226, R230) (10_reed.md). -/
structure ReedSensor where
  /-- R226: RD_SENS_CFG_s.PERIOD. -/
  period : BitVec 20 := 10000#20
  /-- R226: RD_SENS_CFG_s.EN. -/
  en : Bool := false
  /-- R230: RD_SENS_ACC_s. -/
  acc : BitVec 32 := 0#32
  /-- R230: RD_SENS_REJ_s.MASK_RANGE. -/
  rejMask : BitVec 8 := 0#8
  /-- R230: RD_SENS_REJ_s.TIME. -/
  rejTime : BitVec 8 := 0#8
  /-- R230: RD_SENS_REJ_s.LENGTH. -/
  rejLen : BitVec 8 := 0#8
  /-- R230: RD_SENS_REJ_s.FORMAT. -/
  rejFmt : BitVec 8 := 0#8
  /-- R231: RD_SENS_DROP_s.CHECK. -/
  check : BitVec 16 := 0#16
  /-- R232: RD_SENS_DROP_s.DROP. -/
  drop : BitVec 16 := 0#16
  /-- R230: RD_SENS_LAST_s. -/
  last : BitVec 64 := 0#64
  /-- R230: RD_SENS_LAST_HI_s captured by a read of LO. -/
  capLastHi : BitVec 32 := 0#32
  /-- R232: staging slots. -/
  slot : Vector ReedSlot 3 := Vector.replicate 3 default
  /-- R232: slots with an accepted frame, oldest first. The model's own field. -/
  order : List (Fin 3) := []
  deriving DecidableEq, Repr, Inhabited

/-- a fusion cycle (R235) (10_reed.md). -/
structure ReedCycle where
  /-- R235: cycle number. -/
  cycle : BitVec 64 := 0#64
  /-- R235: frame set: sensor and slot. -/
  frames : List (Fin 8 × Fin 3) := []
  /-- R235: sample time, ns. -/
  stime : Nat := 0
  /-- R245: latest last fragment of the set, ns. The model's own field. -/
  lastFrag : Nat := 0
  /-- R237: occupancy buffer. -/
  buf : Bool := false
  /-- R240: coarse cells that channel B holds free, by linear index. -/
  free : List Bool := []
  deriving DecidableEq, Repr, Inhabited

/-- a cycle in the pipeline of one channel (R243, R245) (10_reed.md). -/
structure ReedWork where
  /-- R235: the cycle. -/
  cyc : ReedCycle := {}
  /-- R238: channel A: its field is complete. The model's own field. -/
  done : Bool := false
  /-- R243: the snapshot that its queries use. -/
  snap : Option Snap := none
  deriving DecidableEq, Repr, Inhabited

/-- Reed (R224 to R245) (10_reed.md). -/
structure Reed where
  /-- R226, R420: RD_CTRL.RUN. -/
  run : Bool := false
  /-- R224: RD_GRID_DIM.CZ. -/
  cz : BitVec 8 := 16#8
  /-- R224: RD_GRID_DIM.CY. -/
  cy : BitVec 8 := 32#8
  /-- R224: RD_GRID_DIM.CX. -/
  cx : BitVec 8 := 32#8
  /-- R242: RD_GEOM.TOLF. -/
  tolf : BitVec 4 := 3#4
  /-- R236: RD_GEOM.MASK_INFL. -/
  maskInfl : BitVec 10 := 40#10
  /-- R224: RD_GEOM.EDGE. -/
  edge : BitVec 7 := 50#7
  /-- R224: RD_ORG_X, RD_ORG_Y, RD_ORG_Z. -/
  org : Vector (BitVec 32) 3 := Vector.replicate 3 0#32
  /-- R229: RD_GRID_ID. -/
  gridId : BitVec 32 := 0#32
  /-- R227: RD_CYCLE: number of the last cycle started, held in PD0. -/
  cycle : BitVec 64 := 0#64
  /-- R227: RD_CYCLE_HI captured by a read of LO. -/
  capCycleHi : BitVec 32 := 0#32
  /-- R229: sensors. -/
  sens : Vector ReedSensor 8 := Vector.replicate 8 default
  /-- R246: RD_STICKY (ST). -/
  sticky : BitVec 7 := 0#7
  /-- R227: RD_STATUS.WAIT_FIRST. -/
  waitFirst : Bool := false
  /-- R234: newest complete placement of each arm. -/
  place : Vector (Option CapSet) 8 := Vector.replicate 8 none
  /-- R234: newest complete placement of the foreign set. -/
  foreign : Option CapSet := none
  /-- R234: snapshot ring, newest first, at most 224. -/
  snaps : List Snap := []
  /-- R237: occupancy buffer of the next cycle.. The model's own field. -/
  nextBuf : Bool := false
  /-- R235: cycle being fused. -/
  fusing : Option ReedCycle := none
  /-- R243: cycles of channel A, oldest first. -/
  chA : List ReedWork := []
  /-- R243: cycles of channel B, oldest first. -/
  chB : List ReedWork := []
  /-- R243, R244: INDEX and CYCLE of the complete entries in channel A's buffers. -/
  entA : Vector (Option (BitVec 32 × BitVec 64)) 2 := Vector.replicate 2 none
  /-- R243, R244: the same of channel B. -/
  entB : Vector (Option (BitVec 32 × BitVec 64)) 2 := Vector.replicate 2 none
  /-- R243: buffer that channel A writes next. The model's own field. -/
  bufA : Bool := false
  /-- R243: buffer that channel B writes next. The model's own field. -/
  bufB : Bool := false
  /-- R243: RD_A_INDEX. -/
  aIndex : BitVec 32 := 0#32
  /-- R243: RD_B_INDEX. -/
  bIndex : BitVec 32 := 0#32
  /-- R242: RD_DIS_CNT. -/
  disCnt : BitVec 32 := 0#32
  /-- R245: RD_LAT_MAX.A. -/
  latA : BitVec 16 := 0#16
  /-- R245: RD_LAT_MAX.B. -/
  latB : BitVec 16 := 0#16
  deriving DecidableEq, Repr, Inhabited

/-- a drive feedback record (R326) (14_ethernet.md). -/
structure DriveFb where
  /-- R326: POS. -/
  pos : BitVec 64 := 0#64
  /-- R326: VEL. -/
  vel : BitVec 64 := 0#64
  /-- R326: TORQ. -/
  torq : BitVec 32 := 0#32
  /-- R326: ENABLED. -/
  enabled : Bool := false
  /-- R326: FAULT. -/
  fault : Bool := false
  /-- R325, R326: ACK_PICK of its frame. -/
  ack : BitVec 32 := 0#32
  deriving DecidableEq, Repr, Inhabited

/-- set-point last sent for an axis (R323) (14_ethernet.md). -/
structure SentSp where
  /-- R323: POS. -/
  pos : BitVec 64 := 0#64
  /-- R323: VEL. -/
  vel : BitVec 64 := 0#64
  /-- R323: TORQ. -/
  torq : BitVec 32 := 0#32
  deriving DecidableEq, Repr, Inhabited

/-- drive traffic of one axis (14_ethernet.md). -/
structure Drive where
  /-- R323: set-point last sent. -/
  sent : SentSp := {}
  /-- R326: record received for the next pick. -/
  next : Option DriveFb := none
  /-- R43, R326: record latched at the last pick instant. -/
  latched : Option DriveFb := none
  deriving DecidableEq, Repr, Inhabited

/-- what Selvedge publishes for one arm or auxiliary axis (R25, R260, R263) (11_selvedge.md). -/
structure SvArmPub where
  /-- R25, R263: speed scale published in the last pick. DESIGN CHOICE: reset value, log 18. -/
  scale : BitVec 16 := 0#16
  /-- R260: category of the stop that persists for the arm. -/
  stop : Option (Fin 3) := none
  /-- R260: STO is demanded for the arm's axes. -/
  sto : Bool := false
  deriving DecidableEq, Repr, Inhabited

/-- an arm entry of the sealed image (R252) (11_selvedge.md). -/
structure CfgArm where
  /-- R252: COUNT is not 0: the arm is in use. -/
  use : Bool := false
  /-- R252: FIRST. -/
  first : BitVec 7 := 0#7
  /-- R252: COUNT. -/
  count : BitVec 4 := 0#4
  /-- R252: SSM. -/
  ssm : Bool := false
  /-- R252: T_STOP, ms. -/
  tStop : BitVec 16 := 0#16
  /-- R252: A_STOP, mm/s^2. -/
  aStop : BitVec 32 := 0#32
  /-- R252: T_S0, microseconds. -/
  tS0 : BitVec 32 := 0#32
  /-- R252: C, mm. -/
  c : BitVec 16 := 0#16
  /-- R252: ZD, mm. -/
  zd : BitVec 16 := 0#16
  /-- R252: ZR, mm. -/
  zr : BitVec 16 := 0#16
  /-- R252: T_SCALE, ms. -/
  tScale : BitVec 16 := 0#16
  /-- R252: VREF, mm/s. -/
  vref : BitVec 16 := 0#16
  /-- R252: V_TOL, mm/s. -/
  vTol : BitVec 16 := 0#16
  deriving DecidableEq, Repr, Inhabited

/-- a function entry of the sealed image (R251) (11_selvedge.md). -/
structure CfgFn where
  /-- R251: TYPE. -/
  type : BitVec 3 := 0#3
  /-- R251: PAIR0. -/
  pair0 : BitVec 4 := 0#4
  /-- R251: PAIR1. -/
  pair1 : BitVec 4 := 0#4
  /-- R251: CAT. -/
  cat : BitVec 2 := 0#2
  /-- R251: ANTIV. -/
  antiv : Bool := false
  /-- R251: AUTO. -/
  auto : Bool := false
  /-- R251: HOSTRST. -/
  hostrst : Bool := false
  /-- R251: RESET_FN. -/
  resetFn : BitVec 5 := 0#5
  /-- R251: ARMS. -/
  arms : BitVec 8 := 0#8
  /-- R251: OSSD. -/
  ossd : BitVec 8 := 0#8
  /-- R251: AUX. -/
  aux : BitVec 16 := 0#16
  /-- R251: T_DISC, ms. -/
  tDisc : BitVec 9 := 0#9
  deriving DecidableEq, Repr, Inhabited

/-- a joint entry of the sealed image (R252) (11_selvedge.md). -/
structure CfgJoint where
  /-- R252: SRC_A. -/
  srcA : BitVec 8 := 0#8
  /-- R252: SRC_B. -/
  srcB : BitVec 8 := 0#8
  /-- R252: LEVER, Q16.16. -/
  lever : BitVec 32 := 0#32
  /-- R252: JV_MAX, counts/s. -/
  jvMax : BitVec 32 := 0#32
  /-- R252: POS_TOL, counts. -/
  posTol : BitVec 16 := 0#16
  /-- R252: SOS_TOL, counts. -/
  sosTol : BitVec 16 := 0#16
  deriving DecidableEq, Repr, Inhabited

/-- the stop of one arm or auxiliary axis in one channel (R260) (11_selvedge.md). -/
structure SvStop where
  /-- R260: cell time at which the category 1 or 2 stop started, ns. -/
  since : Option Nat := none
  /-- R260: standstill counts as reached for the rest of the stop. -/
  reached : Bool := false
  /-- R260: joint positions at standstill, held in a category 2 stop. -/
  hold : List (Nat × Int) := []
  /-- R260: the stop is escalated to category 0. -/
  esc : Bool := false
  /-- R260: category in force in this channel; 3 none. -/
  cat : Nat := 3
  deriving DecidableEq, Repr, Inhabited

/-- one arm in one channel (R260 to R266) (11_selvedge.md). -/
structure SvArmCh where
  /-- R260: its stop. -/
  stop : SvStop := {}
  /-- R263: v_m, 2^-32 mm/s. -/
  vm : Nat := 0
  /-- R260: v_m is at or below V_TOL. -/
  stand : Bool := false
  /-- R263: scale, Q1.15 (SV_SCALE_r). -/
  scale : BitVec 16 := 0#16
  /-- R263: d, mm (SV_DIST_r). -/
  d : BitVec 16 := 0#16
  /-- R266: SSM fault latched. -/
  ssmFault : Bool := false
  /-- R266: consecutive compared cycles that agreed on every capsule of the arm. -/
  streak : Nat := 0
  /-- R262, R304: a source in channel fault, an expired or faulty safe feedback connection, or an overspeed. -/
  fault0 : Bool := false
  /-- R262: a position disagreement stands. -/
  posFault : Bool := false
  /-- R265: the speed exceeds the allowance. -/
  scaleViol : Bool := false
  /-- R265: v_allow of the evaluations of the last T_SCALE, newest first: time in ns, mm/s. -/
  hist : List (Nat × Nat) := []
  deriving DecidableEq, Repr, Inhabited

/-- one function entry in one channel (R258, R259) (11_selvedge.md). -/
structure SvFn where
  /-- R258: its demand is present. -/
  dem : Bool := false
  /-- R258: light curtain: time since which the pair has not been ON, ns. -/
  off : Option Nat := none
  /-- R259: two-hand: enabled. -/
  en : Bool := false
  /-- R259: two-hand: both hand devices were released. -/
  armed : Bool := false
  /-- R259: two-hand: time at which the first was actuated, ns. -/
  first : Option Nat := none
  /-- R258: reset input: time since which its pair is ON, ns. -/
  on : Option Nat := none
  deriving DecidableEq, Repr, Inhabited

/-- one input pair in one channel (R257) (11_selvedge.md). -/
structure SvPair where
  /-- R257: DISCREPANT since this cell time, ns. -/
  since : Option Nat := none
  /-- R257: pair fault latched. -/
  fault : Bool := false
  /-- R257: it has read OFF since the fault. -/
  clr : Bool := false
  /-- R257: it counts as ON. -/
  on : Bool := false
  /-- R375: the partner device's pair state differs since this cell time, ns. -/
  foreign : Option Nat := none
  deriving DecidableEq, Repr, Inhabited

/-- one Selvedge channel (R247 to R270) (11_selvedge.md). -/
structure SvCh where
  /-- R247: channel state (SV_STATE). -/
  state : SvState := .selftest
  /-- R249: evaluation number since sealing. -/
  evals : Nat := 0
  /-- R248: input levels taken (SV_LEVELS). -/
  levels : BitVec 32 := 0#32
  /-- R244, R248: distance entry used. -/
  entry : Option (List (BitVec 32)) := none
  /-- R263: its age, ns. -/
  age : Option Nat := none
  /-- R264: the age limit is exceeded. -/
  stale : Bool := false
  /-- R266: cell time of the last comparison of a common cycle, ns. -/
  lastCommon : Nat := 0
  /-- R266: cycle compared last. The model's own field. -/
  cmpCycle : Option (BitVec 64) := none
  /-- R249: consecutive messages whose levels or demands differ. -/
  differ : Nat := 0
  /-- R249: consecutive messages with a bad CRC. -/
  badCrc : Nat := 0
  /-- R262: joint positions taken, 2^-16 count. -/
  pos : Vector Int 64 := Vector.replicate 64 0
  /-- R262: consecutive evaluations in which the channels' positions differ. -/
  posBad : Vector Nat 64 := Vector.replicate 64 0
  /-- R262: the joint is in overspeed. -/
  fast : Vector Bool 64 := Vector.replicate 64 false
  /-- R258: function entries (SV_FUNC). -/
  fn : Vector SvFn 32 := Vector.replicate 32 default
  /-- R257: input pairs (SV_PAIR_FAULT). -/
  pair : Vector SvPair 16 := Vector.replicate 16 default
  /-- R260: arms (SV_ARM_STOP). -/
  arm : Vector SvArmCh 8 := Vector.replicate 8 default
  /-- R260: auxiliary axes 64 to 79. -/
  aux : Vector SvStop 16 := Vector.replicate 16 default
  deriving DecidableEq, Repr, Inhabited

/-- Selvedge (11_selvedge.md). -/
structure Selvedge where
  /-- R247: the two channels, A first. -/
  ch : Vector SvCh 2 := Vector.replicate 2 default
  /-- R255: the safety configuration is sealed. -/
  sealed : Bool := false
  /-- R250: V_H of the sealed image, mm/s. -/
  vH : BitVec 32 := 0#32
  /-- R250: T_R0 of the sealed image, microseconds. -/
  tR0 : BitVec 32 := 0#32
  /-- R250: NFUNC of the sealed image. -/
  nfunc : Nat := 0
  /-- R256, R287: the SEAL reading that the sealed image requires. -/
  sealWord : BitVec 24 := 0#24
  /-- R250, R256: REED words of the sealed image. -/
  reed : List (BitVec 32) := []
  /-- R251: function entries of the sealed image. -/
  cfgFn : Vector CfgFn 32 := Vector.replicate 32 default
  /-- R252: arm entries of the sealed image. -/
  cfgArm : Vector CfgArm 8 := Vector.replicate 8 default
  /-- R252: joint entries of the sealed image. -/
  cfgJoint : Vector CfgJoint 64 := Vector.replicate 64 default
  /-- R255: SHA-384 digest of the sealed image (SV_DIGEST); empty: 0. -/
  digest : List (BitVec 8) := []
  /-- R253: SAFE.LOAD operations that the channels validate, oldest first. -/
  loads : List SvLoad := []
  /-- R270: SAFE.RESET operations to be decided: flow, operation, target. -/
  resets : List (Fin 16 × Nat × BitVec 8) := []
  /-- R253: SV_CFG_ERR. -/
  cfgErr : BitVec 32 := 0#32
  /-- R25, R260: published to the arms. -/
  armPub : Vector SvArmPub 8 := Vector.replicate 8 default
  /-- R260: published to the auxiliary axes. -/
  auxPub : Vector SvArmPub 16 := Vector.replicate 16 default
  /-- R268: first device fault: SRC and record code (SV_FAULT.FIRST); the recovery window is open while some. -/
  first : Option (Nat × BitVec 12) := none
  /-- R268: second device fault (SV_FAULT.SECOND). -/
  second : Option (Nat × BitVec 12) := none
  /-- R268: cell time and diagnostic of the last channel fault. The model's own field. -/
  lastFault : Option (Nat × Nat) := none
  /-- R266: SV_CNT_DISAGREE. -/
  disCnt : BitVec 32 := 0#32
  deriving DecidableEq, Repr, Inhabited

/-- one half of the safety I/O block (R272 to R289) (12_safety_io.md). -/
structure SioHalf where
  /-- R272: filtered level of each pin. -/
  level : BitVec 32 := 0#32
  /-- R275: filtered level taken last before the pulse, per pin. -/
  held : BitVec 32 := 0#32
  /-- R276: last sample of each pin before the present pulse. -/
  pre : BitVec 32 := 0#32
  /-- R276: pins of other rails that were high before the present pulse and low at its sample point. -/
  low : BitVec 32 := 0#32
  /-- R277: bit i of entry n: the last test of SI(i) in a pulse of TPn failed. -/
  failed : Vector (BitVec 32) 8 := Vector.replicate 8 0#32
  /-- R277: the last test of SI(i) in a pulse of TPn passed. -/
  passed : Vector (BitVec 32) 8 := Vector.replicate 8 0#32
  /-- R277: the last two passed. -/
  passed2 : Vector (BitVec 32) 8 := Vector.replicate 8 0#32
  /-- R277: SIO_TP_FAULT: pins reported with a test-pulse fault. -/
  report : BitVec 32 := 0#32
  /-- R280: the half's copy of TP_WIDTH. -/
  width : BitVec 10 := 200#10
  /-- R288: debounced reading of SEAL. -/
  sealRd : Option (BitVec 24) := none
  /-- R455: VDDIO_SA or VDDIO_SB is lost: inputs read low, enables fall. -/
  ioLow : Bool := false
  /-- R459: the channel's core supply is below 0.70 V: drives are released. -/
  coreLow : Bool := false
  deriving DecidableEq, Repr, Inhabited

/-- one OSSD channel (R281 to R286) (12_safety_io.md). -/
structure Ossd where
  /-- R282: open, high side closed, low side closed and awaiting its check, conducting. -/
  phase : OssdPhase := .opened
  /-- R282: channel A's high-side switch enable (OSSD_HEN). -/
  high : Bool := false
  /-- R282: channel B's low-side switch enable (OSSD_LEN). -/
  low : Bool := false
  /-- R284: cell time of the last commanded change, ns. -/
  changed : Nat := 0
  /-- R285: a dark test runs: false high side, true low side. -/
  dark : Option Bool := none
  /-- R286: the OSSD is in fault. -/
  fault : Bool := false
  /-- R281: OSSD_P read high by each half, at its last reading. -/
  p : Vector Bool 2 := Vector.replicate 2 false
  /-- R281: OSSD_N read high by each half. -/
  n : Vector Bool 2 := Vector.replicate 2 false
  deriving DecidableEq, Repr, Inhabited

/-- the safety I/O block (subsystem 16) (12_safety_io.md). -/
structure Sio where
  /-- R272: the two halves, A first. -/
  half : Vector SioHalf 2 := Vector.replicate 2 default
  /-- R280: SIO_CFG.TP_WIDTH. -/
  cfgWidth : BitVec 10 := 200#10
  /-- R274: bit n: TPn has its rail switched off. -/
  pulsing : BitVec 8 := 0#8
  /-- R275: bit n: pulse or hold of TPn (SIO_TP_STATUS.PULSING). -/
  holding : BitVec 8 := 0#8
  /-- R278: bit n: TPSn read low while its rail was on. -/
  stuckOff : BitVec 8 := 0#8
  /-- R278: bit n: TPSn read high at the sample point of its own pulse. -/
  stuckOn : BitVec 8 := 0#8
  /-- R281: OSSD channels. -/
  ossd : Vector Ossd 8 := Vector.replicate 8 default
  /-- R285: SIO_DARK_CNT.HIGH, saturating. -/
  darkHigh : BitVec 16 := 0#16
  /-- R285: SIO_DARK_CNT.LOW, saturating. -/
  darkLow : BitVec 16 := 0#16
  deriving DecidableEq, Repr, Inhabited

/-- a connection of which the device is the consumer (R301 to R305) (13_safety_layer.md). -/
structure SlConn where
  /-- R302: SL_STAT_c.STATE. -/
  state : ConnState := .off
  /-- R301: last accepted SEQ. -/
  seq : BitVec 16 := 0#16
  /-- R302: PDUs accepted in WAIT with rising SEQ. -/
  run : Nat := 0
  /-- R303: arrival of the last accepted PDU, ns. -/
  last : Option Nat := none
  /-- R303: SL_STAT_c.EXPIRED. -/
  expired : BitVec 8 := 0#8
  /-- R301: SL_STAT_c.OLD. -/
  old : BitVec 8 := 0#8
  /-- R301: SL_STAT_c.BAD. -/
  bad : BitVec 8 := 0#8
  /-- R301: SL_STAT_c.LAST_CAUSE. -/
  cause : BitVec 3 := 0#3
  deriving DecidableEq, Repr, Inhabited

/-- the content of a feedback PDU (R296) (13_safety_layer.md). -/
structure SafeFb where
  /-- R296: SPOS, 2^-16 count. -/
  spos : Int := 0
  /-- R296: SSPEED, 2^-16 count/s. -/
  sspeed : Int := 0
  /-- R296: TORQUE_OFF. -/
  torqueOff : Bool := false
  /-- R296: DRV_FAULT. -/
  drvFault : Bool := false
  deriving DecidableEq, Repr, Inhabited

/-- the connections of one axis (13_safety_layer.md). -/
structure SlAxis where
  /-- R302: SL_AXIS_a.FB_EN. -/
  fbEn : Bool := false
  /-- R299: SL_AXIS_a.CTRL_EN. -/
  ctrlEn : Bool := false
  /-- R303: SL_AXIS_a.WD, microseconds. -/
  wd : BitVec 16 := 1000#16
  /-- R299: SEQ of the next control PDU. -/
  seqTx : BitVec 16 := 0#16
  /-- R302: feedback connection. -/
  conn : SlConn := {}
  /-- R296: content of the last accepted feedback PDU. -/
  val : SafeFb := {}
  /-- R43, R306: content latched at the last pick instant. -/
  lat : SafeFb := {}
  deriving DecidableEq, Repr, Inhabited

/-- a frame in assembly (R305) (13_safety_layer.md). -/
structure SlAsm where
  /-- R232: staging slot; none: no slot was free. -/
  slot : Option (Fin 3) := none
  /-- R297: FRAME. -/
  frame : BitVec 16 := 0#16
  /-- R297: FIDX of the fragment added last. -/
  fidx : Nat := 0
  /-- R297: FLAST. -/
  flast : Nat := 0
  /-- R298: payload so far. -/
  bytes : List (BitVec 8) := []
  deriving DecidableEq, Repr, Inhabited

/-- the connection of one sensor (13_safety_layer.md). -/
structure SlSens where
  /-- R302: SL_SENS_s.EN. -/
  en : Bool := false
  /-- R303: SL_SENS_s.WD, microseconds. -/
  wd : BitVec 16 := 20000#16
  /-- R302: sensor connection. -/
  conn : SlConn := {}
  /-- R305: frame in assembly. -/
  asm : Option SlAsm := none
  deriving DecidableEq, Repr, Inhabited

/-- the safety layer (R292 to R307) (13_safety_layer.md). -/
structure SafetyLayer where
  /-- R292: connections of the axes. -/
  ax : Vector SlAxis 80 := Vector.replicate 80 default
  /-- R292: connections of the sensors. -/
  sens : Vector SlSens 8 := Vector.replicate 8 default
  deriving DecidableEq, Repr, Inhabited

/-- the partner's safety record of one pick (R373) (17_redundancy.md). -/
structure PairSafe where
  /-- R365, R373: TAG of the record. The model's own field. -/
  pick : BitVec 32 := 0#32
  /-- R373: state of its channel A. The model's own field. -/
  a : SvState := .off
  /-- R373: state of its channel B. The model's own field. -/
  b : SvState := .off
  /-- R373: category of arms 0 to 7 and auxiliary axes 64 to 79. The model's own field. -/
  cat : List Nat := []
  /-- R373: scale of each arm. The model's own field. -/
  scale : List (BitVec 16) := []
  /-- R373: bit n: the pair of function entry n counts as ON. The model's own field. -/
  pairs : BitVec 32 := 0#32
  /-- R373: OSSD switches held closed. The model's own field. -/
  closed : BitVec 8 := 0#8
  /-- R373, R376: OSSDs in the sequence of R282. The model's own field. -/
  inSeq : BitVec 8 := 0#8
  deriving DecidableEq, Repr, Inhabited

/-- a frame in the queue of an egress port (R312, R316) (14_ethernet.md). -/
structure TxFrame where
  /-- R312: destination address to the byte before the FCS. -/
  bytes : List (BitVec 8) := []
  /-- R316: port it came from. -/
  src : Fin 8 := 6
  /-- R318: ingress timestamp, cell time, ns. -/
  inTs : Nat := 0
  /-- R316: launch time, cell time, ns. -/
  launch : Option Nat := none
  /-- R323: PICK of a set-point frame. The model's own field. -/
  pick : Option (BitVec 32) := none
  /-- R318, R319, R332, R333: what the switch writes into the frame at egress. -/
  stamp : Stamp := .none
  /-- R443: index of its transmit descriptor. The model's own field. -/
  desc : Option Nat := none
  deriving DecidableEq, Repr, Inhabited

/-- an entry of the filtering database (R310) (14_ethernet.md). -/
structure FdbEntry where
  /-- R310: address. -/
  mac : BitVec 48 := 0#48
  /-- R310: VID. -/
  vid : BitVec 12 := 0#12
  /-- R310: ports. -/
  ports : BitVec 8 := 0#8
  /-- R310: written through SW_FDB_CMD. -/
  static_ : Bool := false
  /-- R310: cell time of the last frame from the address, ns. -/
  seen : Nat := 0
  deriving DecidableEq, Repr, Inhabited

/-- a stream of the sequence recovery function (R320) (14_ethernet.md). -/
structure CbStream where
  /-- R320: destination address. -/
  mac : BitVec 48 := 0#48
  /-- R320: VID. -/
  vid : BitVec 12 := 0#12
  /-- R320: any sequence number is accepted next. -/
  takeAny : Bool := true
  /-- R320: highest sequence number accepted. -/
  seq : BitVec 16 := 0#16
  /-- R320: sequence history, bit i for seq - i. -/
  hist : BitVec 32 := 0#32
  /-- R320: cell time of the last accepted frame, ns. -/
  last : Nat := 0
  deriving DecidableEq, Repr, Inhabited

/-- one set-point group (R322) (14_ethernet.md). -/
structure DtGroup where
  /-- R322: DT_GRP_CFG_g.EN. -/
  en : Bool := false
  /-- R322: DT_GRP_CFG_g.PORTS. -/
  ports : BitVec 4 := 0#4
  /-- R322: DT_GRP_CFG_g.PCP. -/
  pcp : BitVec 3 := 7#3
  /-- R322: DT_GRP_CFG_g.VID. -/
  vid : BitVec 12 := 0#12
  /-- R322: DT_GRP_CFG_g.FIRST. -/
  first : BitVec 7 := 64#7
  /-- R322: DT_GRP_CFG_g.COUNT. -/
  count : BitVec 4 := 0#4
  /-- R322: DT_GRP_MAC_g, byte 0 in [7:0]. -/
  mac : BitVec 48 := 0#48
  deriving DecidableEq, Repr, Inhabited

/-- cycle of a gate control list (R313) (14_ethernet.md). -/
structure GclCfg where
  /-- R313: LEN. -/
  len : BitVec 9 := 1#9
  /-- R313: SRC. -/
  src : Bool := false
  /-- R313: PT_GCL_CYCLE. -/
  cycle : BitVec 32 := 1000000#32
  /-- R313: PT_GCL_BASE_NS. -/
  baseNs : BitVec 32 := 0#32
  /-- R313: PT_GCL_BASE_S. -/
  baseS : BitVec 32 := 0#32
  deriving DecidableEq, Repr, Inhabited

/-- a gate cycle in progress (R313) (14_ethernet.md). -/
structure GclRun where
  /-- R313: entry in force. -/
  idx : Nat := 0
  /-- R313: cell time at which the entry began, 2^-32 ns. -/
  start : Nat := 0
  /-- R313: cell time at which the cycle began, 2^-32 ns. -/
  cycStart : Nat := 0
  deriving DecidableEq, Repr, Inhabited

/-- one port of the switch (R308 to R316) (14_ethernet.md). -/
structure Port where
  /-- R308: PT_CFG.MODE. -/
  mode : BitVec 3 := 0#3
  /-- R311: PT_CFG.DEF_PCP. -/
  defPcp : BitVec 3 := 0#3
  /-- R328: PT_STATUS.LINK. -/
  link : Bool := false
  /-- R312: PT_STICKY (ST). -/
  sticky : BitVec 5 := 0#5
  /-- R312: PT_INT_EN. -/
  intEn : BitVec 5 := 0#5
  /-- R311: PT_PCP_MAP. -/
  pcpMap : Vector (BitVec 3) 8 := #v[0, 1, 2, 3, 4, 5, 6, 7]
  /-- R313: PT_GCL_CTRL.EN. -/
  gclEn : Bool := false
  /-- R313: LEN, SRC, CYCLE and BASE as the registers hold them. -/
  adm : GclCfg := {}
  /-- R313: PT_GCL_CTRL.OPER: operational bank. -/
  bank : Bool := false
  /-- R314: cycle of the operational list. -/
  oper : GclCfg := {}
  /-- R314: the change that awaits its cycle start (PT_GCL_CTRL.PENDING). -/
  swap : Option GclCfg := none
  /-- R314: cell time of the accepted SWAP, 2^-32 ns. The model's own field. -/
  swapAt : Nat := 0
  /-- R313: gate control lists, word 0 in the low half. DESIGN CHOICE: reset value, log 21. -/
  gcl : Vector (Vector (BitVec 64) 256) 2 := Vector.replicate 2 (Vector.replicate 256 0#64)
  /-- R313: gate cycle in progress. -/
  run : Option GclRun := none
  /-- R315: PT_CBS_c.EN, bit c. -/
  cbsEn : BitVec 8 := 0#8
  /-- R315: PT_CBS_c.IDLE_SLOPE. -/
  slope : Vector (BitVec 24) 8 := Vector.replicate 8 0#24
  /-- R315: shaper credit, 2^-32 * 10^-6 bit. -/
  credit : Vector Int 8 := Vector.replicate 8 0
  /-- R315: cell time up to which the credits are counted, 2^-32 ns. The model's own field. -/
  creditAt : Nat := 0
  /-- R312: egress queues, head first, at most 64 frames each. -/
  q : Vector (List TxFrame) 8 := Vector.replicate 8 []
  /-- R312: cell time at which the transmission in progress ends with its FCS, 2^-32 ns. -/
  txEnd : Nat := 0
  /-- R312: cell time at which the next transmission may start, 2^-32 ns. -/
  txFree : Nat := 0
  /-- R315: class of the transmission in progress. -/
  txClass : Fin 8 := 0
  /-- R309, R312, R316: PT_CNT_RX, TX, DROP, LATE, CRC, OVERSIZE, saturating. -/
  cnt : Vector (BitVec 32) 6 := Vector.replicate 6 0#32
  deriving DecidableEq, Repr, Inhabited

/-- the TSN switch (R308 to R328) (14_ethernet.md). -/
structure Switch where
  /-- R310: SW_CTRL.SW_AGE, seconds. -/
  age : BitVec 16 := 300#16
  /-- R324: SW_CTRL.DT_EN. -/
  dtEn : Bool := false
  /-- R310: SW_CTRL.FWD_EN. -/
  fwdEn : Bool := false
  /-- R321: SW_ETYPE. -/
  etype : BitVec 16 := 0x88B5#16
  /-- R317: SW_OFFSET.O. -/
  offset : BitVec 16 := 4000#16
  /-- R317: O in force since the last pick instant. The model's own field. -/
  offsetNow : BitVec 16 := 4000#16
  /-- R316: SW_LATE_WIN. -/
  lateWin : BitVec 16 := 1000#16
  /-- R310: SW_MAC, byte 0 in [7:0]. -/
  mac : BitVec 48 := 0#48
  /-- R310: DT_FB_MAC, byte 0 in [7:0]. -/
  fbMac : BitVec 48 := 0#48
  /-- R321, R326: SW_STICKY (ST). -/
  sticky : BitVec 4 := 0#4
  /-- R320: SW_CB_CFG.HIST. -/
  cbHist : BitVec 6 := 32#6
  /-- R320: SW_CB_CFG.RESET_MS. -/
  cbReset : BitVec 14 := 10#14
  /-- R320, R326: SW_CB_NOSTREAM, DT_RX_OK, DT_RX_DISC, DT_DUP, saturating. -/
  cnt : Vector (BitVec 32) 4 := Vector.replicate 4 0#32
  /-- R310: SW_FDB_CMD.PORTS. -/
  fdbPorts : BitVec 8 := 0#8
  /-- R310: SW_FDB_CMD.VID. -/
  fdbVid : BitVec 12 := 0#12
  /-- R310: SW_FDB_CMD.FULL. -/
  fdbFull : Bool := false
  /-- R310: SW_FDB_MAC. -/
  fdbMac : BitVec 48 := 0#48
  /-- R310: filtering database, at most 2,048 entries. -/
  fdb : List FdbEntry := []
  /-- R320: allocated streams, at most 64. -/
  cb : List CbStream := []
  /-- R320: further streams that have written CB_FULL. The model's own field. -/
  cbFull : List (BitVec 48 × BitVec 12) := []
  /-- R322: set-point groups. -/
  grp : Vector DtGroup 10 := Vector.replicate 10 default
  /-- R308: ports. -/
  port : Vector Port 8 := Vector.replicate 8 default
  deriving DecidableEq, Repr, Inhabited

/-- peer delay of one external port (R332) (15_network_time.md). -/
structure NtPort where
  /-- R332: NT_PORT_p.AS_CAPABLE. -/
  asCapable : Bool := false
  /-- R332: meanLinkDelay, 2^-16 ns. -/
  delay : Nat := 0
  /-- R332: neighborRateRatio - 1, 2^-41. -/
  nrr : Int := 0
  /-- R332: successive measurements at or below the threshold, up to 3. -/
  good : Nat := 0
  /-- R332: successive requests without a valid response, up to 3. -/
  miss : Nat := 0
  /-- R332: sequenceId of the request that awaits its response. -/
  reqSeq : Option (BitVec 16) := none
  /-- R332: egress time of that request, cell time, ns. -/
  t1 : Option Nat := none
  /-- R332: its Pdelay_Resp, which awaits the follow-up. -/
  resp : Option PtpMsg := none
  /-- R332: t3 (2^-16 ns) and t4 (ns) of the measurement before. -/
  prev : Option (Int × Nat) := none
  deriving DecidableEq, Repr, Inhabited

/-- an accepted Sync as the frequency estimate keeps it (R334) (15_network_time.md). -/
structure NtSync where
  /-- R334: time of the uncorrected oscillator, 2^-32 ns. The model's own field. -/
  osc : Int := 0
  /-- R334: domain time T, 2^-32 ns. -/
  time : Int := 0
  deriving DecidableEq, Repr, Inhabited

/-- one gPTP domain (R331 to R335) (15_network_time.md). -/
structure NtDom where
  /-- R335: NT_DOM_CFG_d.TIMEOUT. -/
  timeout : BitVec 8 := 3#8
  /-- R333: NT_DOM_CFG_d.MASTER_PORTS. -/
  masters : BitVec 6 := 0#6
  /-- R331: NT_DOM_CFG_d.SLAVE_PORT. -/
  slave : BitVec 3 := 0#3
  /-- R335: NT_DOM_CFG_d.EN. -/
  en : Bool := false
  /-- R331: NT_DOM_CFG_d.DOMAIN, d at reset. -/
  domain : BitVec 7 := 0#7
  /-- R335: NT_DOM_STATUS_d.STATE. -/
  state : NtDomState := .none
  /-- R331: NT_DOM_STATUS_d.LOG_INT. -/
  logInt : BitVec 8 := 0#8
  /-- R334: NT_DOM_FREQ_d, LSB of TB_INC_ADJ. -/
  f : Int := 0
  /-- R334: phase, 2^-32 ns. -/
  theta : Int := 0
  /-- R334: cell time for which theta holds, 2^-32 ns. The model's own field. -/
  thetaAt : Nat := 0
  /-- R334: NT_DOM_PHASE_d: phase against OFS at the last servo update, ns. -/
  phase : BitVec 64 := 0#64
  /-- R334: high word captured by a read of NT_DOM_PHASE_LO_d. -/
  capPhaseHi : BitVec 32 := 0#32
  /-- R331: NT_DOM_CNT_d.ACC. -/
  acc : BitVec 16 := 0#16
  /-- R331: NT_DOM_CNT_d.REJ. -/
  rej : BitVec 16 := 0#16
  /-- R331: sequenceId of the last accepted Sync since LISTENING was entered. -/
  seq : Option (BitVec 16) := none
  /-- R331: two-step Sync that awaits its Follow_Up. -/
  pend : Option (Fin 6 × PtpMsg) := none
  /-- R335: cell time of the last accepted Sync, or of the entry into LISTENING, ns. -/
  last : Nat := 0
  /-- R334: accepted Syncs, newest first, at most 8. -/
  hist : List NtSync := []
  /-- R335: consecutive accepted Syncs without a gap, up to 8. -/
  run : Nat := 0
  /-- R331: message count of the Syncs sent. -/
  txSeq : BitVec 64 := 0#64
  deriving DecidableEq, Repr, Inhabited

/-- the network time unit (R329 to R344) (15_network_time.md). -/
structure NetTime where
  /-- R330: NT_CTRL.HOST_COPY. -/
  hostCopy : Bool := false
  /-- R340: NT_CTRL.AUTO. -/
  auto : Bool := true
  /-- R337: NT_CTRL.PREF. -/
  pref : Bool := false
  /-- R332: NT_CTRL.EN. -/
  en : Bool := false
  /-- R339: NT_STATUS.STATE. -/
  state : NtState := .freerun
  /-- R337: NT_STATUS.SEL. -/
  sel : Bool := false
  /-- R342: NT_STATUS.VALID, as the last pick instant set it. -/
  valid : Bool := false
  /-- R337: NT_STATUS.STEPPED. -/
  stepped : Bool := false
  /-- R344: NT_STICKY (ST). -/
  sticky : BitVec 6 := 0#6
  /-- R344: NT_INT_EN. -/
  intEn : BitVec 6 := 0#6
  /-- R338: NT_SERVO.TAU, seconds. -/
  tau : BitVec 8 := 8#8
  /-- R338: NT_SERVO.PULL_MAX, ppm. -/
  pullMax : BitVec 9 := 100#9
  /-- R342: NT_HOLD.ALIGN_NS. -/
  alignNs : BitVec 16 := 1000#16
  /-- R339: NT_HOLD.HOLD_MAX, seconds. -/
  holdMax : BitVec 12 := 60#12
  /-- R332: NT_PDELAY_THRESH. -/
  thresh : BitVec 16 := 800#16
  /-- R336: OFS, ns, 96 bits. -/
  ofs : Int := 0
  /-- R338: NT_PHASE: e of the last update, ns. -/
  e : Int := 0
  /-- R338, R339: f_hold. -/
  fHold : Int := 0
  /-- R339: cell time of the entry into HOLDOVER, ns. -/
  holdAt : Nat := 0
  /-- R340: a host SWITCH awaits the next update. -/
  switch : Bool := false
  /-- R338: number of the last servo update, cell time in ms. The model's own field. -/
  servoMs : Nat := 0
  /-- R343: number of the last TIME_MARK, cell time in s. The model's own field. -/
  markS : Nat := 0
  /-- R334: time of the uncorrected oscillator at oscAt, 2^-32 ns. The model's own field. -/
  osc : Int := 0
  /-- R334: cell time for which osc holds, 2^-32 ns. The model's own field. -/
  oscAt : Nat := 0
  /-- R332: cell time of the last Pdelay_Req, ns. -/
  reqAt : Nat := 0
  /-- R331: message count of the Pdelay_Req sent. -/
  reqCnt : BitVec 64 := 0#64
  /-- R336: NT_OFS_1 and NT_OFS_2 captured by a read of NT_OFS_0. -/
  capOfs : Vector (BitVec 32) 2 := Vector.replicate 2 0#32
  /-- R338: NT_PHASE_HI captured by a read of NT_PHASE_LO. -/
  capPhaseHi : BitVec 32 := 0#32
  /-- R336: NT_NOW_S_LO and _HI captured by a read of NT_NOW_NS. -/
  capNow : Vector (BitVec 32) 2 := Vector.replicate 2 0#32
  /-- R329: the two domains. -/
  dom : Vector NtDom 2 := #v[{}, { domain := 1#7 }]
  /-- R332: external ports. -/
  port : Vector NtPort 6 := Vector.replicate 6 default
  deriving DecidableEq, Repr, Inhabited

/-- a transmission attempt (R354) (16_can_fd.md). -/
structure CanTx where
  /-- R354: its object. -/
  obj : Fin 128 := 0
  /-- R351: cell time of its start of frame. -/
  sof : BitVec 64 := 0#64
  deriving DecidableEq, Repr, Inhabited

/-- one CAN FD controller (R345 to R361) (16_can_fd.md). -/
structure CanCtl where
  /-- R346: CAN_CTRL_n.MODE as written. -/
  mode : BitVec 2 := 0#2
  /-- R346: mode that has taken effect. -/
  modeNow : BitVec 2 := 0#2
  /-- R359: CAN_CTRL_n.AUTO_RECOVER. -/
  autoRec : Bool := false
  /-- R346: CAN_CTRL_n.FD_EN. -/
  fdEn : Bool := false
  /-- R348: CAN_NBT_n. -/
  nbt : BitVec 32 := 0x08081FC1#32
  /-- R348: CAN_DBT_n. -/
  dbt : BitVec 32 := 0x1E8A5741#32
  /-- R358: CAN_STATUS_n.LEC. -/
  lec : BitVec 3 := 0#3
  /-- R359: CAN_STATUS_n.RECOVERING. -/
  recovering : Bool := false
  /-- R358: CAN_STATUS_n.ERRSTATE. -/
  err : BitVec 2 := 0#2
  /-- R358: CAN_ERRCNT_n.TEC, 0 to 256. -/
  tec : Nat := 0
  /-- R358: CAN_ERRCNT_n.REC, 0 to 255. -/
  rec_ : Nat := 0
  /-- R361: CAN_STICKY_n (ST). -/
  sticky : BitVec 9 := 0#9
  /-- R361: CAN_INT_EN_n. -/
  intEn : BitVec 9 := 0#9
  /-- R353: CAN_TXPEND_n. -/
  txPend : BitVec 128 := 0#128
  /-- R355: CAN_TXDONE_n. -/
  txDone : BitVec 128 := 0#128
  /-- R355: CAN_TXCAN_n. -/
  txCan : BitVec 128 := 0#128
  /-- R356: CAN_RXNEW_n. -/
  rxNew : BitVec 128 := 0#128
  /-- R352: CAN_INVALID_n. -/
  invalid : BitVec 128 := 0#128
  /-- R354: attempt in progress (CAN_STATUS_n.TX_BUSY). -/
  tx : Option CanTx := none
  /-- R355: its request ends with the attempt. -/
  cancel : Bool := false
  /-- R361: CAN_CNT_TX, saturating. -/
  cntTx : BitVec 32 := 0#32
  /-- R356: CAN_CNT_RX, saturating. -/
  cntRx : BitVec 32 := 0#32
  /-- R356: CAN_CNT_LOST, saturating. -/
  cntLost : BitVec 32 := 0#32
  deriving DecidableEq, Repr, Inhabited

/-- the CAN FD controllers (16_can_fd.md). -/
structure Can where
  /-- R350: CAN_MEM_BASE. -/
  base : BitVec 32 := 0x03700000#32
  /-- R345: controllers. -/
  ctl : Vector CanCtl 4 := Vector.replicate 4 default
  deriving DecidableEq, Repr, Inhabited

/-- what the device holds of one other logical position (R399) (18_cascade.md). -/
structure RingOrigin where
  /-- R399: pick number of the set; none: withdrawn or never received. -/
  index : Option (BitVec 32) := none
  /-- R399: sample time, cell time, ns. -/
  stime : Nat := 0
  /-- R399: its 128 capsules. -/
  caps : List (Vector (BitVec 32) 8) := []
  /-- R400: newest trajectory: beat index and words. -/
  traj : Option (BitVec 32 × List (BitVec 32)) := none
  deriving DecidableEq, Repr, Inhabited

/-- Warp ring (R390 to R402) (18_cascade.md). -/
structure Ring where
  /-- R391: WR_CTRL.INSERT. -/
  insert : Bool := false
  /-- R391: RING_INSERT, held in PD0. -/
  relay : Bool := false
  /-- R395: WR_STATUS.LINK_IN. -/
  linkIn : Bool := false
  /-- R395: WR_STATUS.LINK_OUT. -/
  linkOut : Bool := false
  /-- R395: WR_STATUS.STATE. -/
  state : RingState := .out
  /-- R397: WR_STATUS.ALIGNED. -/
  aligned : Bool := false
  /-- R400: WR_CFG.STAGES. -/
  stages : BitVec 4 := 0#4
  /-- R399: WR_CFG.FOREIGN_MAX. -/
  foreignMax : BitVec 8 := 16#8
  /-- R397: WR_SKEW, signed ns. -/
  skew : BitVec 32 := 0#32
  /-- R394: WR_HOP_DELAY.IN, ns. -/
  hopIn : BitVec 16 := 0#16
  /-- R394: WR_HOP_DELAY.OUT, ns. -/
  hopOut : BitVec 16 := 0#16
  /-- R393: WR_CNT_CRC, saturating. -/
  cntCrc : BitVec 32 := 0#32
  /-- R392: SEQ of the next frame of the own origin. DESIGN CHOICE: reset value, log 19. -/
  seqTx : BitVec 32 := 0#32
  /-- R393: SEQ of the last 64 frames sent, newest first. -/
  sentSeq : List (BitVec 32) := []
  /-- R392: object in arrival of each position: SEQ of its last fragment, its FRAG, the payload so far. -/
  asm : Vector (Option (BitVec 32 × Nat × List (BitVec 32))) 8 := Vector.replicate 8 none
  /-- R395: cell time of the last ALIGN frame, ns. -/
  alignAt : Nat := 0
  /-- R397: pick number of the last ALIGN frame. -/
  alignPick : BitVec 32 := 0#32
  /-- R395: pick for which the master has sent ALIGN. The model's own field. -/
  alignSent : Option (BitVec 32) := none
  /-- R396: the master is the source of the servo. -/
  follow : Bool := false
  /-- R396: next beat boundary of the master: network time in ns, pick number, beat number. -/
  start : Option (Int × BitVec 32 × BitVec 32) := none
  /-- R397: the device has been UP since it was inserted. The model's own field. -/
  wasUp : Bool := false
  /-- R397: alignment was lost; only a restart through READY rejoins. -/
  lost : Bool := false
  /-- R399: the other logical positions. -/
  origin : Vector RingOrigin 4 := Vector.replicate 4 default
  /-- R398: pick for which CAPS has been sent. The model's own field. -/
  capsSent : Option (BitVec 32) := none
  /-- R400: the TRAJ object last exported. -/
  traj : Option (List (BitVec 32)) := none
  deriving DecidableEq, Repr, Inhabited

/-- the state copy of one pick (R386) (17_redundancy.md). -/
structure CopySet where
  /-- R386: generation G. The model's own field. -/
  gen : BitVec 32 := 0#32
  /-- R386: pick number. The model's own field. -/
  pick : BitVec 32 := 0#32
  /-- R386: axis states and the MPC marks of the arms. The model's own field. -/
  cell : Cell := {}
  /-- R386: MPC bypass. The model's own field. -/
  arm : Vector ArmCe 8 := Vector.replicate 8 default
  /-- R386: loop slices. The model's own field. -/
  sl : Vector Slice 80 := Vector.replicate 80 default
  /-- R386: planners, gearing, homing and scales. The model's own field. -/
  pg : Profile := {}
  /-- R386: feedback channels. The model's own field. -/
  fb : Vector FbCh 96 := Vector.replicate 96 default
  /-- R386: plan clocks. The model's own field. -/
  psi : Vector Nat 8 := Vector.replicate 8 0
  /-- R386: plan clocks at the last 64 boundaries. The model's own field. -/
  psiAt : List (BitVec 32 × Vector Nat 8) := []
  /-- R386: SEQ of every control connection. The model's own field. -/
  seq : List (BitVec 16) := []
  /-- R386: draft carry: buffers read through PREV predecessors, with their addresses. The model's own field. -/
  carry : List (Nat × List (BitVec 8)) := []
  deriving DecidableEq, Repr, Inhabited

/-- a resynchronisation in progress on its requester (R383) (17_redundancy.md). -/
structure PairSync where
  /-- R383: cell time of the acceptance, ns. -/
  at_ : Nat := 0
  /-- R389: step reached: 0 accepted, 1 servo at its source, 2 configuration copied, 3 time base started. -/
  step : BitVec 3 := 0#3
  /-- R383: every block of the configuration set has arrived. -/
  cfg : Bool := false
  /-- R365: block number expected next. -/
  block : BitVec 32 := 0#32
  /-- R383: next beat boundary of the partner: network time in ns, pick number, beat number. -/
  start : Option (Int × BitVec 32 × BitVec 32) := none
  deriving DecidableEq, Repr, Inhabited

/-- pair link and fail-over unit (17_redundancy.md). -/
structure Pair where
  /-- R362: PR_CFG.PAIR_EN. -/
  en : Bool := false
  /-- R366, R382: PR_CFG.UNIT. -/
  unit : Bool := false
  /-- R369: PR_CFG.ADOPT, microseconds. -/
  adopt : BitVec 5 := 6#5
  /-- R362: PR_STATUS.ROLE. -/
  role : PairRole := .alone
  /-- R366: PR_STATUS.PARTNER_ROLE: role in the last partner heartbeat. -/
  partner : PairRole := .alone
  /-- R386: PR_STATUS.STREAK. -/
  streak : BitVec 2 := 0#2
  /-- R367: PR_STATUS.ALIVE. -/
  alive : Bool := false
  /-- R367: PAIR_ALV_OUT. -/
  alvOut : Bool := false
  /-- R367: PAIR_ALV_IN. DESIGN CHOICE: reset value, log 24. -/
  alvIn : Bool := false
  /-- R367: cell time of the last change of PAIR_ALV_IN, ns. The model's own field. -/
  alvAt : Nat := 0
  /-- R364: lanes 0 and 1 are up (PR_STATUS.LANE0, LANE1). -/
  lane : Vector Bool 2 := Vector.replicate 2 false
  /-- R389: PR_STICKY (ST). -/
  sticky : BitVec 9 := 0#9
  /-- R389: PR_INT_EN. -/
  intEn : BitVec 9 := 0#9
  /-- R365: SEQ of the next pair frame sent. DESIGN CHOICE: reset value, log 19. -/
  seqTx : BitVec 32 := 0#32
  /-- R366: cell time of the last heartbeat sent, ns. -/
  hbAt : Nat := 0
  /-- R377, R379: cell time at which the last heartbeat of the partner arrived, ns. -/
  heard : Nat := 0
  /-- R377: cell time at which the last heartbeat with LEASE = 1 arrived, ns. -/
  leaseAt : Nat := 0
  /-- R366: SEQ of the last partner heartbeat (RX_SEQ). -/
  rxSeq : BitVec 32 := 0#32
  /-- R366: network time of its arrival, ns (RX_NS, RX_S). -/
  rxNet : Int := 0
  /-- R366: SEQ and network time of sending of the last 16 heartbeats, newest first. The model's own field. -/
  sent : List (BitVec 32 × Int) := []
  /-- R366: generation of the last complete state copy received (ACK_GEN). -/
  gotGen : BitVec 32 := 0#32
  /-- R366: INDEX of the last complete solution received (ACK_SOL). -/
  gotSol : BitVec 32 := 0#32
  /-- R386: PR_GEN_SENT. -/
  genSent : BitVec 32 := 0#32
  /-- R386: pick whose state copy has been sent. The model's own field. -/
  copyPick : Option (BitVec 32) := none
  /-- R386: PR_GEN_ADOPTED. -/
  genAdopted : BitVec 32 := 0#32
  /-- R366: PR_DELAY, ns. -/
  delay : BitVec 16 := 0#16
  /-- R385: PR_SKEW, signed ns. -/
  skew : BitVec 32 := 0#32
  /-- R378: PR_TAKEOVER_US. -/
  takeoverUs : BitVec 16 := 0#16
  /-- R389: PR_CNT_MISMATCH, PR_CNT_ADOPT_MISS, PR_CNT_CRC, saturating. -/
  cnt : Vector (BitVec 32) 3 := Vector.replicate 3 0#32
  /-- R381: a handover has been requested and is to be named in the next heartbeat. -/
  handReq : Bool := false
  /-- R381: the device releases the lease at the instant of this pick. -/
  handOwn : Option (BitVec 32) := none
  /-- R381: the partner releases the lease at the instant of this pick. -/
  handFrom : Option (BitVec 32) := none
  /-- R369: the present pick waits for its input record. -/
  await : Bool := false
  /-- R369: input record of the next pick, complete before its instant. -/
  early : Option (List (BitVec 32)) := none
  /-- R368: command log of the pick in progress. -/
  log : List (List (BitVec 32)) := []
  /-- R370: words that DIGEST nodes contributed to the present pick. -/
  digest : List (BitVec 32) := []
  /-- R370: words of the set-point groups formed for the present pick that enter its digest. -/
  groups : List (BitVec 32) := []
  /-- R370, R371: digest of the last pick; none when it was unadopted. -/
  digestOwn : Option (BitVec 32) := none
  /-- R371: consecutive unadopted picks. -/
  misses : Nat := 0
  /-- R386: the last complete state copy received. -/
  copy : Option CopySet := none
  /-- R372: last complete solution received that is not yet published: INDEX and words. -/
  solIn : Option (BitVec 32 × List (BitVec 32)) := none
  /-- R372: solution sent to the partner that ACK_SOL does not show yet: INDEX and SIG. -/
  unacked : Option (BitVec 32 × BitVec 64) := none
  /-- R382: cell time at which SYNC_REQ was sent and awaits its answer, ns. -/
  reqAt : Option Nat := none
  /-- R383: resynchronisation in progress as requester. -/
  sync : Option PairSync := none
  /-- R383: cell time at which a failed resynchronisation starts again, ns. -/
  retryAt : Option Nat := none
  /-- R380: the device has stopped sending after a fault of its island. -/
  mute : Bool := false
  /-- R387: pair fault whose recovery window is open: SRC and record code. -/
  own : Option (Nat × BitVec 12) := none
  /-- R387: that fault is the loss of one lane. -/
  ownLane : Bool := false
  /-- R388: fault reported by the partner: SRC and record code. -/
  fault : Option (Nat × BitVec 12) := none
  /-- R374: the partner's safety record of the present pick. -/
  safe : Option PairSafe := none
  /-- R385, R396: servo source outside gPTP: the partner, or the master of the ring. -/
  ext : NtDom := {}
  deriving DecidableEq, Repr, Inhabited

/-- the control engine (06_control_engine.md). -/
structure ControlEngine where
  /-- R130: loop slices. -/
  sl : Vector Slice 80 := Vector.replicate 80 default
  /-- R148: MPC bypass of each arm. -/
  arm : Vector ArmCe 8 := Vector.replicate 8 default
  deriving DecidableEq, Repr, Inhabited

/-- an accepted operation whose effect is still to come (R24, R64, R66) (06_control_engine.md). -/
structure Effect where
  /-- R64: host flow. The model's own field. -/
  flow : Fin 16 := 0
  /-- R64: its operation. The model's own field. -/
  op : Nat := 0
  /-- R66: the axes concerned. The model's own field. -/
  axes : List (Fin 80) := []
  /-- R24: what takes effect. The model's own field. -/
  kind : EffKind := .enable
  /-- R179: OPC of the operation. The model's own field. -/
  opc : BitVec 8 := 0#8
  /-- R179: FN of the operation. The model's own field. -/
  fn : BitVec 4 := 0#4
  /-- R179: OBJ of the operation. The model's own field. -/
  obj : BitVec 7 := 0#7
  /-- R24: cell time of its acceptance, 2^-32 ns. The model's own field. -/
  at_ : Nat := 0
  deriving DecidableEq, Repr, Inhabited

/-- One block of the configuration set of a resynchronisation (R384). -/
inductive CfgPart where
  /-- the configuration registers of a feedback channel -/
  | channel (c : Fin 96) (h : FbCh)
  /-- the configuration registers and both coefficient banks of a loop slice -/
  | slice (a : Fin 80) (l : Slice)
  /-- the move parameters of an axis -/
  | axis (a : Fin 80) (param : Vector (BitVec 64) 24)
  /-- an arm as ARM.DEFINE makes it -/
  | arm (r : Fin 8) (m : Arm)
  /-- a trigger output of the feedback interface -/
  | trig (t : Fin 8) (width : BitVec 16) (pol : Bool)
  /-- PG_SCALE_UP.DS_UP -/
  | scale (dsUp : BitVec 16)
  /-- a segment slot -/
  | segments (k : Fin 8) (t : Option (List Segment))
  /-- the registers of a stepper link -/
  | link (n : Fin 16) (l : StlLink)
  /-- the Loom weights -/
  | weights (w : Vector (BitVec 8) 8)
  /-- a draft slot: its state, group and rate, and the bytes of its image -/
  | draft (d : Fin 8) (x : Slot) (image : List (BitVec 8))
  /-- Churn: its settings, the bytes of the schedule, of both halves of the cost table and of the current solution -/
  | churn (q : Churn) (sched cost solution : List (BitVec 8))
  /-- SW_ETYPE, SW_OFFSET and the DT_GRP registers -/
  | drive (etype offset : BitVec 16) (grp : Vector DtGroup 10)
  /-- the last block: period, beat length, and the next beat boundary: network time in ns, pick number, beat number -/
  | timeBase (period : BitVec 32) (n : BitVec 7) (net : Int) (pick beat : BitVec 32)
  deriving DecidableEq, Repr, Inhabited

/-- What a SYNC_REQ says of its sender (R382). -/
structure SyncReq where
  /-- role of the requester -/
  role : PairRole := .alone
  /-- PR_CFG.UNIT of the requester -/
  unit : Bool := false
  /-- part number -/
  part : BitVec 32 := 0#32
  /-- silicon revision -/
  rev : BitVec 32 := 0#32
  /-- the safety configuration is sealed -/
  sealed : Bool := false
  /-- safety image digest -/
  digest : List (BitVec 8) := []
  /-- every axis is DISABLED -/
  off : Bool := false
  /-- total size of its draft carry, bytes -/
  carry : Nat := 0
  deriving DecidableEq, Repr, Inhabited

/-- What a control frame says (R382, R383, R388). -/
inductive PairCtl where
  /-- SYNC_REQ -/
  | req (r : SyncReq)
  /-- SYNC_ACK -/
  | ack
  /-- a request is refused for a reason -/
  | refused (reason : BitVec 4)
  /-- a fault: SRC and record code -/
  | fault (f : Nat × BitVec 12)
  /-- a double fault: both faults -/
  | double (f g : Nat × BitVec 12)
  deriving DecidableEq, Repr, Inhabited

/-- What a word of SRAM with an uncorrectable error holds, as far as R16 distinguishes it beyond the partition of its address. -/
inductive MemWord where
  /-- nothing that R16 names -/
  | plain
  /-- a staged frame of a sensor in the Reed partition -/
  | reedFrame (i : Fin 8) (j : Fin 3)
  /-- a word that the oldest query cycle of a Reed channel read: false channel A -/
  | reedCycle (b : Bool)
  /-- a word that the running solve reads -/
  | solve
  /-- a word of the published solution -/
  | solution
  /-- a word in the local memory of a Shuttle -/
  | node (sh : Fin 16)
  /-- axis state or the segment table of an axis -/
  | axis (a : Fin 80)
  /-- a CAN message object: controller and object -/
  | can (n : Fin 4) (i : Fin 128)
  /-- a frame in the queue of class c of port p, counted from its head -/
  | frame (p c : Fin 8) (i : Nat)
  /-- the Treadle instruction that a flow executes next -/
  | instr (f : Fin 16) (opc : BitVec 8) (fn : BitVec 4) (w : TWord)
  deriving DecidableEq, Repr, Inhabited

/-- What leaves the chip at its pins and links. -/
inductive Out where
  /-- an MSI-X message (R437) -/
  | msix (vec : Nat) (addr : BitVec 64) (data : BitVec 32)
  /-- a memory write on the PCIe bus (R441, R443) -/
  | dma (addr : BitVec 64) (words : List (BitVec 32))
  /-- an Ethernet frame at a port (R312, R316) -/
  | frame (port : Nat) (bytes : List (BitVec 8))
  /-- a stepper frame (R177) -/
  | stl (link : Nat) (frame : BitVec 32)
  /-- a trigger output changes level (R126) -/
  | trig (t : Nat) (level : Bool)
  /-- an SSI transfer starts (R111) -/
  | ssi (ch : Nat)
  /-- the MISO bytes of an SPI transaction (R445) -/
  | spi (bytes : List (BitVec 8))
  /-- a frame on the pair link: type and body (R365) -/
  | pair (ty : Nat) (body : List (BitVec 32))
  /-- a frame on the ring: type and body (R392) -/
  | ring (ty : Nat) (body : List (BitVec 32))
  /-- a control frame on the pair link (R388) -/
  | pairCtl (c : PairCtl)
  /-- a safety record on the pair link (R373) -/
  | pairSafe (r : PairSafe)
  /-- a state copy on the pair link (R386) -/
  | copy (c : CopySet)
  /-- one block of the configuration set on the pair link: number, last, content (R384) -/
  | cfg (block : BitVec 32) (last : Bool) (part : CfgPart)
  /-- output PAIR_ALV_OUT changes level (R367) -/
  | alv (level : Bool)
  /-- output RING_INSERT changes level (R391) -/
  | insert (level : Bool)
  /-- output SUPPLY_EN falls (R429) -/
  | supplyOff
  /-- a CAN frame starts on controller n (R353) -/
  | can (n : Nat) (words : List (BitVec 32))
  deriving DecidableEq, Repr, Inhabited

end Sys2Proof.Machine
end

