-- ==== Sys2Proof/Syntax.lean ====
section
/-! DEFINITION. The commands the device takes: one constructor for each row of the opcode table. -/
namespace Sys2Proof

open Sys2Proof.Machine (CopySet CfgPart PairSafe PairCtl SyncReq MemWord)


/-- The commands of the device: one constructor for each row of the opcode table. -/
inductive Instr where
  /-- PICK_INSTANT (R44): The time base reaches the pick instant t_k, latches all feedback and drive frames, advances pick and beat numbers, publishes a solution at a boundary, feeds Selvedge and releases pick draft k. -/
  | pickInstant
  /-- STATE_COPY_SEND (R386): Once pick draft k is released and the control engine has completed, the active sends the state copy. -/
  | stateCopySend
  /-- READY_LIST_ENTRY (R94): A ready node waiting for a free ready-list entry enters the list. -/
  | readyListEntry
  /-- NODE_SELECT (R96): A free Shuttle with eligible nodes gets a node chosen by deficit round robin. -/
  | nodeSelect (sh : Fin 16)
  /-- NODE_START (R98): A selected node starts on its Shuttle and its addresses are checked. -/
  | nodeStart (sh : Fin 16) (addrOk : Bool)
  /-- NODE_COMPLETE (R99): A node completes and is released in age order, delivering tokens and completing hand-over entries. -/
  | nodeComplete (sh : Fin 16) (out : KernelOut)
  /-- PLANNER_SAMPLE (R159): A planner with a free credit computes its next profile sample. -/
  | plannerSample (a : Fin 80)
  /-- STL_FRAME (R177): A stepper link sends one microstep address frame at its sub-pick instant. -/
  | stlFrame (n : Fin 16)
  /-- SOLVE_START (R186): Churn checks the next queued instance and starts an interior-point solve. -/
  | solveStart
  /-- SOLVE_END (R196): A solve ends converged, at the iteration cap or on a non-finite value, and its result is written. -/
  | solveEnd
  /-- ECC_UNCORRECTABLE (R16): An uncorrectable SRAM error has the effect assigned to its partition. -/
  | eccUncorrectable (a : BitVec 40) (w : MemWord)
  /-- SCRUB_PASS (R431): The background scrub corrects single-bit errors and finds weak words. -/
  | scrubPass (sel : Bool) (corrected : List (BitVec 40))
  /-- TB_START (R40): A write of TB_CTRL.START starts picks at the origin or the shifted origin. -/
  | tbStart
  /-- TB_APPLY (R46): A write of TB_CTRL.APPLY stages the period and beat change or is rejected. -/
  | tbApply
  /-- TB_TIME_LO_READ (R35): A read of TB_TIME_LO returns the low word and captures the high word. -/
  | tbTimeLoRead
  /-- TB_PICK_TIME_LO_READ (R41): A read of TB_PICK_TIME_LO captures the high word and pick number of the same pick. -/
  | tbPickTimeLoRead
  /-- TB_PICK_NUM_READ (R41): A read of TB_PICK_NUM returns a captured pick number once, or the current one. -/
  | tbPickNumRead
  /-- PROGRAMME_START (R52): A ready flow reads the next submission entry and starts the programme or refuses it. -/
  | programmeStart (f : Fin 16) (entry : Vector (BitVec 32) 4)
  /-- FENCED_WORD_RETIRE (R68): A fenced flow retires one word without executing it, posting FLOW_FENCED entries. -/
  | fencedWordRetire (f : Fin 16) (opc : BitVec 8) (fn : BitVec 4) (xw : BitVec 4) (cq : Bool)
  /-- WAIT_COMPLETE (R75): A waiting flow's WAIT instruction finds its condition met and retires. -/
  | waitComplete (f : Fin 16)
  /-- FLOW_ABORT_EFFECT (R71): At its next instruction boundary an aborted flow withdraws unaccepted operations and aborts the programme. -/
  | flowAbortEffect (f : Fin 16)
  /-- COMPLETION_POST (R441): The host interface writes a completion entry with its phase and signals the vector. -/
  | completionPost (f : Fin 16)
  /-- NOP (R75): No operation. -/
  | nop (f : Fin 16) (w : TWord)
  /-- END (R52): Ends the programme with result T[RA]. -/
  | endProg (f : Fin 16) (w : TWord)
  /-- BR (R75): Unconditional relative branch. -/
  | br (f : Fin 16) (w : TWord)
  /-- BR_T (R75): Branch when the predicate is 1. -/
  | brT (f : Fin 16) (w : TWord)
  /-- BR_F (R75): Branch when the predicate is 0. -/
  | brF (f : Fin 16) (w : TWord)
  /-- BR_LINK (R75): Branch and write the return index to RD. -/
  | brLink (f : Fin 16) (w : TWord)
  /-- BR_REG (R467): Branch to the index held in a register. -/
  | brReg (f : Fin 16) (w : TWord)
  /-- WAIT_PICK (R78): Waits until a pick number is reached. -/
  | waitPick (f : Fin 16) (w : TWord)
  /-- WAIT_BEAT (R78): Waits for a number of beat boundaries. -/
  | waitBeat (f : Fin 16) (w : TWord)
  /-- WAIT_TIME (R75): Waits until cell time reaches a value. -/
  | waitTime (f : Fin 16) (w : TWord)
  /-- WAIT_OPS (R63): Waits until all earlier device operations of the flow have completed. -/
  | waitOps (f : Fin 16) (w : TWord)
  /-- WAIT_AXIS (R64): Waits for operations on an axis to take effect and then for its motion to end. -/
  | waitAxis (f : Fin 16) (w : TWord)
  /-- FLOW_RESUME (R69): Returns a fenced or stopped flow to normal execution at its next programme boundary. -/
  | flowResume (f : Fin 16) (w : TWord)
  /-- FLOW_STATE (R75): Returns the state code of a flow. -/
  | flowState (f : Fin 16) (w : TWord)
  /-- FLOW_ABORT (R71): Requests the abort of another flow. -/
  | flowAbort (f : Fin 16) (w : TWord)
  /-- ADD (R76): Register addition. -/
  | add (f : Fin 16) (w : TWord)
  /-- SUB (R76): Register subtraction. -/
  | sub (f : Fin 16) (w : TWord)
  /-- AND (R76): Register bitwise AND. -/
  | and (f : Fin 16) (w : TWord)
  /-- OR (R76): Register bitwise OR. -/
  | or (f : Fin 16) (w : TWord)
  /-- XOR (R76): Register bitwise XOR. -/
  | xor (f : Fin 16) (w : TWord)
  /-- SHL (R76): Register shift left. -/
  | shl (f : Fin 16) (w : TWord)
  /-- SHR (R76): Register logical shift right. -/
  | shr (f : Fin 16) (w : TWord)
  /-- SAR (R76): Register arithmetic shift right. -/
  | sar (f : Fin 16) (w : TWord)
  /-- MUL (R76): Register multiplication, low 64 bits. -/
  | mul (f : Fin 16) (w : TWord)
  /-- MIN (R76): Signed minimum of registers. -/
  | min (f : Fin 16) (w : TWord)
  /-- MAX (R76): Signed maximum of registers. -/
  | max (f : Fin 16) (w : TWord)
  /-- ADDI (R76): Addition with immediate. -/
  | addi (f : Fin 16) (w : TWord)
  /-- SUBI (R76): Subtraction with immediate. -/
  | subi (f : Fin 16) (w : TWord)
  /-- ANDI (R76): AND with immediate. -/
  | andi (f : Fin 16) (w : TWord)
  /-- ORI (R76): OR with immediate. -/
  | ori (f : Fin 16) (w : TWord)
  /-- XORI (R76): XOR with immediate. -/
  | xori (f : Fin 16) (w : TWord)
  /-- SHLI (R76): Shift left by immediate. -/
  | shli (f : Fin 16) (w : TWord)
  /-- SHRI (R76): Logical shift right by immediate. -/
  | shri (f : Fin 16) (w : TWord)
  /-- SARI (R76): Arithmetic shift right by immediate. -/
  | sari (f : Fin 16) (w : TWord)
  /-- MULI (R76): Multiplication by immediate. -/
  | muli (f : Fin 16) (w : TWord)
  /-- MINI (R76): Signed minimum with immediate. -/
  | mini (f : Fin 16) (w : TWord)
  /-- MAXI (R76): Signed maximum with immediate. -/
  | maxi (f : Fin 16) (w : TWord)
  /-- LI (R75): Load sign-extended immediate. -/
  | li (f : Fin 16) (w : TWord)
  /-- LIH (R75): Load immediate into the upper half of a register. -/
  | lih (f : Fin 16) (w : TWord)
  /-- LI_X (R75): Load a 64-bit extension word into a register. -/
  | liX (f : Fin 16) (w : TWord)
  /-- CMP_EQ (R76): Predicate := registers equal. -/
  | cmpEq (f : Fin 16) (w : TWord)
  /-- CMP_NE (R76): Predicate := registers differ. -/
  | cmpNe (f : Fin 16) (w : TWord)
  /-- CMP_LT (R76): Predicate := signed less than. -/
  | cmpLt (f : Fin 16) (w : TWord)
  /-- CMP_LE (R76): Predicate := signed less or equal. -/
  | cmpLe (f : Fin 16) (w : TWord)
  /-- CMP_LTU (R76): Predicate := unsigned less than. -/
  | cmpLtu (f : Fin 16) (w : TWord)
  /-- CMP_LEU (R76): Predicate := unsigned less or equal. -/
  | cmpLeu (f : Fin 16) (w : TWord)
  /-- CMP_NW32 (R76): Predicate := newer over 32 bits by serial arithmetic. -/
  | cmpNw32 (f : Fin 16) (w : TWord)
  /-- CMP_NW16 (R76): Predicate := newer over 16 bits by serial arithmetic. -/
  | cmpNw16 (f : Fin 16) (w : TWord)
  /-- CMPI_EQ (R76): Predicate := register equals immediate. -/
  | cmpiEq (f : Fin 16) (w : TWord)
  /-- CMPI_NE (R76): Predicate := register differs from immediate. -/
  | cmpiNe (f : Fin 16) (w : TWord)
  /-- CMPI_LT (R76): Predicate := signed less than immediate. -/
  | cmpiLt (f : Fin 16) (w : TWord)
  /-- CMPI_LE (R76): Predicate := signed less or equal to immediate. -/
  | cmpiLe (f : Fin 16) (w : TWord)
  /-- CMPI_LTU (R76): Predicate := unsigned less than immediate. -/
  | cmpiLtu (f : Fin 16) (w : TWord)
  /-- CMPI_LEU (R76): Predicate := unsigned less or equal to immediate. -/
  | cmpiLeu (f : Fin 16) (w : TWord)
  /-- CMPI_NW32 (R76): Predicate := newer than immediate over 32 bits. -/
  | cmpiNw32 (f : Fin 16) (w : TWord)
  /-- CMPI_NW16 (R76): Predicate := newer than immediate over 16 bits. -/
  | cmpiNw16 (f : Fin 16) (w : TWord)
  /-- LD (R77): 64-bit load from the Shared data partition. -/
  | ld (f : Fin 16) (w : TWord)
  /-- ST (R77): 64-bit store to the Shared data partition. -/
  | st (f : Fin 16) (w : TWord)
  /-- LD32 (R77): 32-bit zero-extending load. -/
  | ld32 (f : Fin 16) (w : TWord)
  /-- ST32 (R77): 32-bit store. -/
  | st32 (f : Fin 16) (w : TWord)
  /-- REG_RD (R77): Register read into RD after earlier operations are accepted. -/
  | regRd (f : Fin 16) (w : TWord)
  /-- REG_WR (R77): Register write after earlier operations are accepted. -/
  | regWr (f : Fin 16) (w : TWord)
  /-- AXIS_ENABLE (R140): Closes an axis loop ramped from the measured value, to HOLDING. -/
  | axisEnable (f : Fin 16) (w : TWord)
  /-- AXIS_DISABLE (R79): Opens an axis loop, to DISABLED. -/
  | axisDisable (f : Fin 16) (w : TWord)
  /-- AXIS_MOVE (R157): Starts or replans a profile move to a target. -/
  | axisMove (f : Fin 16) (w : TWord)
  /-- AXIS_STOP (R162): Stops an axis by its stop ramp or quick stop. -/
  | axisStop (f : Fin 16) (w : TWord)
  /-- AXIS_HOME (R172): Runs a homing method on an axis. -/
  | axisHome (f : Fin 16) (w : TWord)
  /-- AXIS_GEAR (R169): Gears a slave to a master or changes its ratio. -/
  | axisGear (f : Fin 16) (w : TWord)
  /-- AXIS_CLEAR (R33): Moves an axis from FAULT to DISABLED. -/
  | axisClear (f : Fin 16) (w : TWord)
  /-- AXIS_SETPOS (R115): Redefines the present position of an axis. -/
  | axisSetpos (f : Fin 16) (w : TWord)
  /-- AXIS_PARAM (R156): Sets one profile or limit parameter, completing at its effect pick. -/
  | axisParam (f : Fin 16) (w : TWord)
  /-- AXIS_READ (R79): Returns an axis state, position, speed or sticky flags item. -/
  | axisRead (f : Fin 16) (w : TWord)
  /-- ARM_DEFINE (R79): Assigns a contiguous range of joint axes to an arm. -/
  | armDefine (f : Fin 16) (w : TWord)
  /-- ARM_ENABLE (R79): Enables every axis of an arm in one tick. -/
  | armEnable (f : Fin 16) (w : TWord)
  /-- ARM_DISABLE (R79): Disables every axis of an arm in one tick. -/
  | armDisable (f : Fin 16) (w : TWord)
  /-- ARM_MOVE (R164): Starts a synchronised move of all axes of an arm at a beat boundary. -/
  | armMove (f : Fin 16) (w : TWord)
  /-- ARM_STOP (R469): Stops every axis of an arm, along the path of an arm move. -/
  | armStop (f : Fin 16) (w : TWord)
  /-- ARM_MPC_ON (R149): Places an arm under MPC. -/
  | armMpcOn (f : Fin 16) (w : TWord)
  /-- ARM_MPC_OFF (R79): Returns an arm from MPC to HOLDING through the profile. -/
  | armMpcOff (f : Fin 16) (w : TWord)
  /-- LOOP_LOAD (R145): Checks and loads a coefficient bank into the inactive bank. -/
  | loopLoad (f : Fin 16) (w : TWord)
  /-- LOOP_SWAP (R146): Requests the exchange of coefficient banks at the next pick. -/
  | loopSwap (f : Fin 16) (w : TWord)
  /-- FB_MODE (R116): Sets a feedback channel to START, NORMAL, TEST or RECOVERY. -/
  | fbMode (f : Fin 16) (w : TWord)
  /-- FB_COMPARE (R124): Arms a position compare on a channel for a trigger output. -/
  | fbCompare (f : Fin 16) (w : TWord)
  /-- FB_UNARM (R126): Disarms the compare of a channel. -/
  | fbUnarm (f : Fin 16) (w : TWord)
  /-- SEG_LOAD (R166): Checks and loads a segment table into a slot. -/
  | segLoad (f : Fin 16) (w : TWord)
  /-- SEG_RUN (R167): Runs a slot's segment table on an axis. -/
  | segRun (f : Fin 16) (w : TWord)
  /-- DRAFT_LOAD (R87): Checks a draft image and makes it resident in a slot. -/
  | draftLoad (f : Fin 16) (w : TWord)
  /-- DRAFT_BIND (R91): Binds a loaded draft to a group and release rate. -/
  | draftBind (f : Fin 16) (w : TWord)
  /-- DRAFT_UNLOAD (R81): Frees a draft slot. -/
  | draftUnload (f : Fin 16) (w : TWord)
  /-- QP_SCHED (R219): Checks a Churn schedule image in full before copying it. -/
  | qpSched (f : Fin 16) (w : TWord)
  /-- QP_SCHED_COPY_DONE (R220): The copied schedule's CRC is rechecked and the schedule is loaded or rejected. -/
  | qpSchedCopyDone
  /-- QP_START (R185): Requests planning from the next beat boundary with a forming draft. -/
  | qpStart (f : Fin 16) (w : TWord)
  /-- QP_STOP (R185): Requests planning to stop at the next beat boundary. -/
  | qpStop (f : Fin 16) (w : TWord)
  /-- QP_SUBMIT (R201): Solves a host-formed instance outside the beat cycle. -/
  | qpSubmit (f : Fin 16) (w : TWord)
  /-- QP_PARAM (R202): Copies a cost image into the inactive cost table half. -/
  | qpParam (f : Fin 16) (w : TWord)
  /-- SAFE_LOAD (R253): Passes a safety configuration image to both Selvedge channels for validation. -/
  | safeLoad (f : Fin 16) (w : TWord)
  /-- SAFE_LOAD_DECIDED (R255): Both channels finish validation and seal the configuration or reject it. -/
  | safeLoadDecided
  /-- SAFE_RESET (R270): Requests a reset of a function entry or of latched SSM faults. -/
  | safeReset (f : Fin 16) (w : TWord)
  /-- REC_READ (R410): Copies whole records from the host read cursor and advances it. -/
  | recRead (f : Fin 16) (w : TWord)
  /-- REC_CLEAR (R412): Clears the recorder ring by setting TAIL and CUR to HEAD. -/
  | recClear (f : Fin 16) (w : TWord)
  /-- REC_MARK (R416): Writes a record with SRC 4, a code and a register payload. -/
  | recMark (f : Fin 16) (w : TWord)
  /-- PWR_SET (R423): Requests a device state transition. -/
  | pwrSet (f : Fin 16) (w : TWord)
  /-- PWR_DOMAIN (R422): Requests a power domain transition. -/
  | pwrDomain (f : Fin 16) (w : TWord)
  /-- PAIR_SYNC (R382): Starts resynchronisation to the partner. -/
  | pairSync (f : Fin 16) (w : TWord)
  /-- DEVICE_TRANSITION_DONE (R423): All domains reach the new device state and the transition completes. -/
  | deviceTransitionDone
  /-- DOMAIN_TRANSITION_DONE (R421): A power domain reaches its target state and PWR.DOMAIN completes. -/
  | domainTransitionDone (d : Fin 13)
  /-- LM_WEIGHT_WRITE (R97): A write of a group weight takes effect from the next quantum or is rejected for 0. -/
  | lmWeightWrite (g : Fin 8) (v : BitVec 32)
  /-- LM_HWM_CLR (R94): Sets the ready-list high-water mark to the present fill. -/
  | lmHwmClr
  /-- LM_CNT_CLR (R103): Clears every skip and void counter of the Loom. -/
  | lmCntClr
  /-- FB_EDGE (R109): A filtered level change on a feedback input is registered and counted. -/
  | fbEdge (c : Fin 96) (a : Option Bool) (b : Option Bool)
  /-- TRIG_PULSE_END (R126): A trigger pulse width expires and the output goes inactive. -/
  | trigPulseEnd (t : Fin 8)
  /-- SSI_TRANSFER_START (R111): An SSI channel starts its clock LEAD ticks before the pick instant. -/
  | ssiTransferStart (c : Fin 96)
  /-- SSI_WORD (R113): A completed SSI word is checked and updates the count. -/
  | ssiWord (c : Fin 96) (raw : BitVec 40) (par : Bool) (startLow : Bool) (rtd : Option (BitVec 16))
  /-- WIRE_FAULT (R114): An input pair stays below the fail-safe threshold for 1 µs and the channel takes a fault. -/
  | wireFault (c : Fin 96)
  /-- FAULT_CONDITION_END (R114): A persisting channel fault condition ends and the edge history is cleared. -/
  | faultConditionEnd (c : Fin 96)
  /-- FB_CFG_WRITE (R107): A channel configuration write is accepted, restarting the channel, or ignored. -/
  | fbCfgWrite (c : Fin 96) (v : BitVec 32)
  /-- FB_TIMING_WRITE (R107): A standstill and debounce write is accepted or ignored. -/
  | fbTimingWrite (c : Fin 96) (v : BitVec 32)
  /-- FB_SSI_WRITE (R107): An SSI format write is accepted or ignored. -/
  | fbSsiWrite (c : Fin 96) (v : BitVec 32)
  /-- FB_SSI_LEAD_WRITE (R107): An SSI lead and jump limit write is accepted or ignored. -/
  | fbSsiLeadWrite (c : Fin 96) (v : BitVec 32)
  /-- FB_TRIG_CFG_WRITE (R126): A trigger width and polarity write, ignored for width 0. -/
  | fbTrigCfgWrite (t : Fin 8) (v : BitVec 32)
  /-- FB_TRACE_W0_READ (R127): Pops the oldest trace entry and captures its other words. -/
  | fbTraceW0Read
  /-- TRACE_CLR (R127): Empties the trace buffer. -/
  | traceClr
  /-- FB_POS_LO_READ (R122): Reads the latched position and captures the other latched values of the same pick. -/
  | fbPosLoRead (c : Fin 96)
  /-- CE_CFG_WRITE (R133): A slice configuration write is accepted for the next pick or ignored. -/
  | ceCfgWrite (a : Fin 80) (v : BitVec 32)
  /-- CE_VMAX_WRITE (R143): VMAX written by LO then HI takes effect as a whole at the next pick. -/
  | ceVmaxWrite (a : Fin 80) (v : BitVec 64)
  /-- CE_AMAX_WRITE (R142): AMAX written by LO then HI takes effect as a whole at the next pick. -/
  | ceAmaxWrite (a : Fin 80) (v : BitVec 64)
  /-- CE_XR_LO_READ (R137): Reads xr and captures the other slice values of the same pick. -/
  | ceXrLoRead (a : Fin 80)
  /-- CE_POS_OFF_LO_READ (R131): Reads the position offset and captures its high word. -/
  | cePosOffLoRead (a : Fin 80)
  /-- CE_BYPASS_CNT_CLEAR (R148): A write of any value clears an arm's bypass pick count. -/
  | ceBypassCntClear (r : Fin 8)
  /-- STL_CFG_WRITE (R176): A stepper link configuration write is accepted or ignored, with SUB reduced to fit. -/
  | stlCfgWrite (n : Fin 16) (v : BitVec 32)
  /-- CH_CNT_CLR (R196): Clears every Churn counter. -/
  | chCntClr
  /-- CH_SIG_LO_READ (R192): Reads the effective signature and captures its high word. -/
  | chSigLoRead
  /-- CH_SCHED_HASH_LO_READ (R206): Reads the structure hash and captures its high word. -/
  | chSchedHashLoRead
  /-- REED_RUN_WRITE (R227): A write of RD_CTRL.RUN starts or stops Reed, or is refused. -/
  | reedRunWrite (v : BitVec 32)
  /-- REED_CNT_CLR (R226): Clears the sensor counters, disagreement count and latency maxima. -/
  | reedCntClr
  /-- REED_CONFIG_WRITE (R226): A grid or sensor configuration write, ignored while Reed runs or after sealing. -/
  | reedConfigWrite (off : BitVec 12) (v : BitVec 32)
  /-- RD_SENS_LAST_LO_READ (R230): Reads the newest capture time and captures its high word. -/
  | rdSensLastLoRead (n : Fin 8)
  /-- RD_CYCLE_LO_READ (R227): Reads the cycle number and captures its high word. -/
  | rdCycleLoRead
  /-- FRAME_CHECK_DONE (R231): Both channel checkers finish checking a reassembled occupancy frame and accept or discard it. -/
  | frameCheckDone (n : Fin 8) (slot : Fin 3) (okA : Bool) (okB : Bool)
  /-- FUSION_CYCLE_START (R235): A fusion cycle starts with the newest frame set and the next cycle number. -/
  | fusionCycleStart
  /-- FUSION_DONE (R237): Fusion and masking of a frame set complete, with channel B coarse bits. -/
  | fusionDone
  /-- CHANNEL_A_FIELD_DONE (R238): Channel A completes its distance field and starts queries on the newest snapshot. -/
  | channelAFieldDone
  /-- CHANNEL_A_ENTRY_DONE (R243): Channel A completes a distance entry. -/
  | channelAEntryDone
  /-- CHANNEL_B_ENTRY_DONE (R243): Channel B completes a distance entry. -/
  | channelBEntryDone
  /-- SELFTEST_DONE (R247): A Selvedge channel ends SELFTEST and enters UNSEALED, SEALED or FAULT. -/
  | selftestDone (ch : Fin 2) (fail : Option (BitVec 8))
  /-- SELVEDGE_EVALUATION (R248): A sealed channel evaluates inputs, joint data and distances into demands, OSSD enables and scales. -/
  | selvedgeEvaluation
  /-- CROSS_LINK_MESSAGE (R249): A channel receives the partner's exchange message and compares it. -/
  | crossLinkMessage (ch : Fin 2) (m : XMsg)
  /-- LOCKSTEP_MISMATCH (R267): The lockstep comparator of Selvedge A detects a core mismatch. -/
  | lockstepMismatch (ch : Fin 2)
  /-- SUPPLY_MONITOR_TRIP (R455): A Selvedge core or I/O supply lies outside its trip limits for 10 µs. -/
  | supplyMonitorTrip (ch : Fin 2) (io : Bool)
  /-- PAIR_DISCREPANCY_TIMEOUT (R257): An input pair stays DISCREPANT longer than T_DISC and its pair fault latches. -/
  | pairDiscrepancyTimeout (ch : Fin 2) (p : Fin 16)
  /-- LIGHT_CURTAIN_TIMEOUT (R258): A light curtain pair is not ON for more than 1 ms and its demand starts. -/
  | lightCurtainTimeout (ch : Fin 2) (i : Fin 32)
  /-- STOP_TIMEOUT (R260): A category 1 or 2 stop is not at standstill after T_STOP or 100 ms and escalates to category 0. -/
  | stopTimeout (ch : Fin 2) (target : Nat)
  /-- TEST_PULSE_START (R274): A test-pulse output switches its rail off for width W and inputs hold their level. -/
  | testPulseStart (n : Fin 8) (a : BitVec 32) (b : BitVec 32)
  /-- TEST_PULSE_SAMPLE (R276): At the pulse sample point each half judges pins and rails. -/
  | testPulseSample (n : Fin 8) (a : BitVec 32) (b : BitVec 32) (tps : BitVec 8)
  /-- TEST_PULSE_END (R274): The pulse width ends and the rail is energised again. -/
  | testPulseEnd (n : Fin 8)
  /-- PULSE_HOLD_END (R275): 100 µs after a pulse the held input levels are released. -/
  | pulseHoldEnd (n : Fin 8) (a : BitVec 32) (b : BitVec 32)
  /-- OSSD_HIGH_SIDE_CHECK (R282): 100 µs after closing the high side both terminals are checked and the low side is closed. -/
  | ossdHighSideCheck (n : Fin 8) (p : Vector Bool 2) (q : Vector Bool 2)
  /-- OSSD_LOW_SIDE_CHECK (R282): 100 µs after closing the low side OSSD_N is checked. -/
  | ossdLowSideCheck (n : Fin 8) (p : Vector Bool 2) (q : Vector Bool 2)
  /-- OSSD_MISMATCH_FAULT (R284): A terminal mismatch persists beyond settling and is an OSSD fault. -/
  | ossdMismatchFault (n : Fin 8) (half : Fin 2) (p : Bool) (q : Bool)
  /-- DARK_TEST_START (R285): A half opens its switch of a conducting OSSD for the dark test. -/
  | darkTestStart (n : Fin 8) (half : Fin 2)
  /-- DARK_TEST_PASS (R285): The terminal reads the expected level and the switch is closed again. -/
  | darkTestPass (n : Fin 8) (half : Fin 2) (p : Bool) (q : Bool)
  /-- DARK_TEST_TIMEOUT (R285): A dark test not passed within 300 µs is an OSSD fault. -/
  | darkTestTimeout (n : Fin 8) (half : Fin 2) (p : Bool) (q : Bool)
  /-- SEAL_DEBOUNCE_CHANGE (R288): Eight equal reads give a new debounced SEAL reading. -/
  | sealDebounceChange (half : Fin 2) (v : BitVec 24)
  /-- SEAL_UNSTABLE_TIMEOUT (R288): No debounced SEAL reading within 100 ms is a channel fault. -/
  | sealUnstableTimeout (half : Fin 2)
  /-- WD_EXPIRE (R303): A connection watchdog expires and the connection enters EXPIRED then WAIT. -/
  | wdExpire (c : Nat)
  /-- FRAME_RECEIVE (R310): An Ethernet frame received at a port is checked, learned and forwarded or delivered. -/
  | frameReceive (p : Fin 6) (frame : List (BitVec 8))
  /-- DRIVE_TRAFFIC_RECEIVE (R326): A drive-traffic frame on port 6 is checked and latched or passed to the safety layer. -/
  | driveTrafficReceive (p : Fin 8) (frame : List (BitVec 8)) (dis : Bool)
  /-- EGRESS_SELECT (R312): A free port selects the highest-class eligible frame and transmits it. -/
  | egressSelect (p : Fin 8)
  /-- LAUNCH_TIME_REACHED (R316): A held frame's launch time is reached and it becomes eligible. -/
  | launchTimeReached (p : Fin 8) (c : Fin 8)
  /-- LATE_FRAME (R316): A frame not started by its launch time plus SW_LATE_WIN is discarded. -/
  | lateFrame (p : Fin 8) (c : Fin 8)
  /-- GCL_ENTRY_ADVANCE (R313): A gate list entry interval ends and the next entry's gates apply. -/
  | gclEntryAdvance (p : Fin 6)
  /-- GCL_CYCLE_START (R313): A gate cycle starts and a pending list becomes operational. -/
  | gclCycleStart (p : Fin 6)
  /-- GCL_SWAP_REQUEST (R314): A write of PT_GCL_CTRL.SWAP requests the bank change or is ignored. -/
  | gclSwapRequest (p : Fin 6) (v : BitVec 32)
  /-- LINK_CHANGE (R328): An Ethernet port link goes up or down. -/
  | linkChange (p : Fin 6) (up : Bool)
  /-- FDB_WRITE (R310): Writes a static filtering database entry. -/
  | fdbWrite (v : BitVec 32)
  /-- FDB_DELETE (R310): Deletes a filtering database entry. -/
  | fdbDelete (v : BitVec 32)
  /-- FDB_AGE_EXPIRE (R310): A learned entry ages out after SW_AGE seconds. -/
  | fdbAgeExpire (i : Nat)
  /-- CB_STREAM_RESET (R320): A recovery stream resets after RESET_MS without an accepted frame. -/
  | cbStreamReset (i : Nat)
  /-- PT_CNT_CLEAR (R312): A write of any value clears a port counter. -/
  | ptCntClear (p : Fin 8) (k : Fin 6)
  /-- SYNC_RECEIVE (R331): A gPTP Sync is accepted or discarded, tracked, and relayed on master ports. -/
  | syncReceive (p : Fin 6) (m : PtpMsg)
  /-- FOLLOW_UP_RECEIVE (R331): A Follow_Up completes a two-step Sync. -/
  | followUpReceive (p : Fin 6) (m : PtpMsg)
  /-- FOLLOW_UP_TIMEOUT (R331): A two-step Sync without Follow_Up within one interval is discarded. -/
  | followUpTimeout (d : Fin 2)
  /-- PDELAY_REQ_SEND (R332): Each enabled port sends Pdelay_Req once per second. -/
  | pdelayReqSend
  /-- PDELAY_REQ_RECEIVE (R332): A received Pdelay_Req is answered with Pdelay_Resp and its follow-up. -/
  | pdelayReqReceive (p : Fin 6) (m : PtpMsg)
  /-- PDELAY_RESP_RECEIVE (R332): A peer-delay response updates the link delay and asCapable state. -/
  | pdelayRespReceive (p : Fin 6) (m : PtpMsg) (fup : PtpMsg)
  /-- DOMAIN_TIMEOUT (R335): TIMEOUT Sync intervals pass without an accepted Sync and the domain becomes LOST. -/
  | domainTimeout (d : Fin 2)
  /-- SERVO_UPDATE (R338): Every 1 ms the rate servo updates TB_INC_ADJ toward the selected domain. -/
  | servoUpdate
  /-- HOLDOVER_TIMEOUT (R339): HOLDOVER lasts HOLD_MAX seconds and the unit becomes UNLOCKED. -/
  | holdoverTimeout
  /-- NT_SWITCH_REQUEST (R340): A write of NT_CTRL.SWITCH requests a domain switch or is ignored. -/
  | ntSwitchRequest (v : BitVec 32)
  /-- TIME_MARK (R343): At each whole second of cell time a record pairs cell time and network time. -/
  | timeMark
  /-- NT_OFS_0_READ (R336): Reads OFS bits and captures the other words. -/
  | ntOfs0Read
  /-- NT_PHASE_LO_READ (R338): Reads the phase error and captures its high word. -/
  | ntPhaseLoRead
  /-- NT_NOW_NS_READ (R336): Reads network time nanoseconds and captures the seconds. -/
  | ntNowNsRead
  /-- NT_DOM_PHASE_LO_READ (R334): Reads a domain phase and captures its high word. -/
  | ntDomPhaseLoRead (d : Fin 2)
  /-- CAN_MODE_WRITE (R346): A write of CAN_CTRL.MODE requests INIT, NORMAL or LISTEN. -/
  | canModeWrite (n : Fin 4) (v : BitVec 32)
  /-- CAN_MODE_EFFECT (R346): A requested mode change takes effect at bus idle. -/
  | canModeEffect (n : Fin 4)
  /-- CAN_RESTART (R359): A write of RESTART starts bus-off recovery. -/
  | canRestart (n : Fin 4) (v : BitVec 32)
  /-- CAN_TXSET_WRITE (R353): A send request passes objects to hardware or is refused. -/
  | canTxsetWrite (n : Fin 4) (w : Fin 4) (v : BitVec 32)
  /-- CAN_TXCANCEL_WRITE (R355): Cancels pending send requests. -/
  | canTxcancelWrite (n : Fin 4) (w : Fin 4) (v : BitVec 32)
  /-- CAN_RXNEW_WRITE (R357): Acknowledges received objects and returns them to hardware. -/
  | canRxnewWrite (n : Fin 4) (w : Fin 4) (v : BitVec 32)
  /-- CAN_INVALID_WRITE (R352): Clears the invalid mark of rewritten objects. -/
  | canInvalidWrite (n : Fin 4) (w : Fin 4) (v : BitVec 32)
  /-- CAN_TX_ATTEMPT (R354): A controller starts a transmission attempt with the smallest-key pending object. -/
  | canTxAttempt (n : Fin 4)
  /-- CAN_TX_COMPLETE (R355): A frame is sent without error, TIME is written and the object returns to host firmware. -/
  | canTxComplete (n : Fin 4)
  /-- CAN_BUS_ERROR (R358): A bus error updates the error counters and possibly the error state. -/
  | canBusError (n : Fin 4) (lec : BitVec 3) (e : CanErr)
  /-- CAN_FRAME_RECEIVE (R356): A received frame is stored in the lowest matching free object or lost. -/
  | canFrameReceive (n : Fin 4) (m : CanFrame)
  /-- CAN_RECOVERY_DONE (R359): After 128 recessive sequences the controller becomes error-active. -/
  | canRecoveryDone (n : Fin 4)
  /-- CAN_CNT_CLEAR (R356): A write of any value clears a CAN counter. -/
  | canCntClear (n : Fin 4) (k : Fin 3)
  /-- HEARTBEAT_SEND (R366): A paired device sends a heartbeat every 4 µs and toggles PAIR_ALV_OUT. -/
  | heartbeatSend
  /-- HEARTBEAT_RECEIVE (R366): A partner heartbeat renews the lease and updates delay and partner state. -/
  | heartbeatReceive (frame : List (BitVec 32))
  /-- PARTNER_SILENT (R367): PAIR_ALV_IN has not changed for 12 µs and the partner counts as silent. -/
  | partnerSilent
  /-- LEASE_EXPIRE (R377): The standby's lease expires and it takes over or declares a link fault. -/
  | leaseExpire (us : Fin 11)
  /-- STANDBY_LOST (R379): An active or syncing device without heartbeats for 30 µs enters ALONE. -/
  | standbyLost
  /-- INPUT_RECORD_RECEIVE (R369): A complete input record is adopted and the digest compared. -/
  | inputRecordReceive (frames : List (List (BitVec 32)))
  /-- ADOPT_LIMIT_EXPIRE (R369): The input record is not complete by ADOPT and the pick runs unadopted. -/
  | adoptLimitExpire
  /-- SAFETY_RECORD_RECEIVE (R374): The partner's safety record is combined with the own values. -/
  | safetyRecordReceive (bad : Bool) (check : Bool) (r : PairSafe)
  /-- STATE_COPY_RECEIVE (R386): A state copy is received and adopted by a syncing device at the next pick. -/
  | stateCopyReceive (bad : Bool) (c : CopySet)
  /-- SOLUTION_COPY_RECEIVE (R372): A solution copy from the active is received and acknowledged. -/
  | solutionCopyReceive (frames : List (List (BitVec 32)))
  /-- CONFIG_FRAME_RECEIVE (R384): A configuration set block is received during resynchronisation. -/
  | configFrameReceive (bad : Bool) (block : BitVec 32) (last : Bool) (part : CfgPart)
  /-- CONTROL_FRAME_RECEIVE (R388): A pair control frame reports a partner fault and may cause a double fault. -/
  | controlFrameReceive (bad : Bool) (c : PairCtl)
  /-- PAIR_LANE_CHANGE (R364): A pair link lane comes up or goes down. -/
  | pairLaneChange (l0 : Bool) (l1 : Bool)
  /-- HANDOVER_REQUEST (R381): A write of PR_CTRL.HANDOVER names the next pick for handing the lease over. -/
  | handoverRequest (v : BitVec 32)
  /-- PAIR_CNT_CLR (R389): Clears the pair counters. -/
  | pairCntClr
  /-- SYNC_REQ_RECEIVE (R382): A resynchronisation request is accepted or refused. -/
  | syncReqReceive (bad : Bool) (r : SyncReq)
  /-- SYNC_ACK_RECEIVE (R383): The requester enters SYNCING and begins resynchronisation steps. -/
  | syncAckReceive (bad : Bool)
  /-- SYNC_FAIL (R383): A requester not in STANDBY 1 s after acceptance fails and retries. -/
  | syncFail
  /-- SYNC_RETRY (R383): 100 ms after a failure resynchronisation starts again. -/
  | syncRetry
  /-- WR_INSERT_WRITE (R391): A write of WR_CTRL.INSERT energises or de-energises the ring relay. -/
  | wrInsertWrite (v : BitVec 32)
  /-- RING_LINK_CHANGE (R395): A ring port link comes up or goes down. -/
  | ringLinkChange (inUp : Bool) (outUp : Bool) (dIn : BitVec 16) (dOut : BitVec 16)
  /-- ALIGN_SEND (R395): The master sends ALIGN at t_k + 2 µs. -/
  | alignSend
  /-- RING_FRAME_RECEIVE (R393): A ring frame is checked and forwarded, or a position conflict is found. -/
  | ringFrameReceive (frame : List (BitVec 32)) (res : BitVec 16)
  /-- CAPS_SEND (R398): A device sends its capsules once CAPSULE_PUBLISH of the pick is released. -/
  | capsSend
  /-- RING_ALIGN_TIMEOUT (R395): No ALIGN frame for 4 pick lengths takes a follower DOWN into holdover. -/
  | ringAlignTimeout
  /-- FOREIGN_STALE (R399): An origin's foreign set older than FOREIGN_MAX picks is withdrawn. -/
  | foreignStale (l : Fin 4)
  /-- WR_CNT_CRC_CLEAR (R393): A write of any value clears the ring CRC discard count. -/
  | wrCntCrcClear (v : BitVec 32)
  /-- RECORD_ADMIT (R405): Staged records are admitted into the ring with sequence numbers, merges and discards. -/
  | recordAdmit
  /-- ER_CUR_WRITE (R411): A write moves the host read cursor or is ignored. -/
  | erCurWrite (v : BitVec 32)
  /-- ER_CNT_CLR (R405): Clears the recorder loss counters. -/
  | erCntClr
  /-- ER_SLOG_SEL_WRITE (R415): Selects a safety log and restarts its read position. -/
  | erSlogSelWrite (v : BitVec 32)
  /-- ER_SLOG_DATA_READ (R415): Returns the next safety log word and advances the position. -/
  | erSlogDataRead
  /-- ER_EPOCH_LO_READ (R407): Reads the epoch count and captures its high word. -/
  | erEpochLoRead
  /-- AON_PWR_CMD_WRITE (R424): A power command through SPI wakes the device or sends it to STANDBY. -/
  | aonPwrCmdWrite (path : Path) (v : BitVec 32)
  /-- WAKE_PIN (R425): A filtered falling edge on WAKE_N wakes the device. -/
  | wakePin
  /-- WAKE_TIMER (R425): Cell time reaches AON_WAKE_TIME and wakes the device. -/
  | wakeTimer
  /-- TEMPERATURE_SAMPLE (R428): The junction sensors are sampled and warnings or the trip are raised. -/
  | temperatureSample (t : Vector (BitVec 8) 8)
  /-- SUPPLY_EN_DROP (R429): After a thermal trip SUPPLY_EN goes low and the device is OFF. -/
  | supplyEnDrop
  /-- CLUSTER_CLOCK_STOP (R427): A cluster stops its fast clock after its idle time. -/
  | clusterClockStop (c : Fin 30)
  /-- PLL_LOCK_LOSS (R426): A required PLL loses lock and the device resets with cause PLL. -/
  | pllLockLoss (l : Fin 18)
  /-- WEAR_SECOND (R433): Each second the acceleration factor of the hottest temperature is accumulated. -/
  | wearSecond
  /-- POWERED_HOUR (R433): Each powered hour ageing sensors are measured and wear figures updated. -/
  | poweredHour (drift : Vector (BitVec 32) 16)
  /-- HW_LOAD (R434): Accepts the written wear image as base or refuses it. -/
  | hwLoad
  /-- HW_CNT_CLR (R431): Clears every ECC count. -/
  | hwCntClr
  /-- HW_IMG_0_READ (R434): Captures all 24 words of the wear image. -/
  | hwImg0Read
  /-- SUBMISSION_TAIL_WRITE (R440): Host firmware advances a submission ring tail or the write is ignored. -/
  | submissionTailWrite (f : Fin 16) (v : BitVec 32)
  /-- COMPLETION_HEAD_WRITE (R441): Host firmware frees completion entries and re-arms the vector. -/
  | completionHeadWrite (f : Fin 16) (v : BitVec 32)
  /-- TX_RING_TAIL_WRITE (R443): Host firmware submits transmit frame descriptors for port 7. -/
  | txRingTailWrite (v : BitVec 32) (ds : List (Vector (BitVec 32) 8 × List (BitVec 8)))
  /-- RX_RING_TAIL_WRITE (R443): Host firmware supplies receive buffers for port 7. -/
  | rxRingTailWrite (v : BitVec 32) (bufs : List (BitVec 40))
  /-- HI_CFG_WRITE (R442): A ring configuration write enables, disables or is ignored. -/
  | hiCfgWrite (ring : Fin 34) (v : BitVec 32)
  /-- HI_COUNTER_CLEAR (R14): A write clears a host interface counter and re-arms the unavailable-access record. -/
  | hiCounterClear (rxNobuf : Bool)
  /-- SPI_WRITE (R445): An 11-byte SPI write transaction performs a register or memory write. -/
  | spiWrite (addr : BitVec 40) (v : BitVec 32)
  /-- SPI_READ (R445): A 15-byte SPI read transaction returns data and status. -/
  | spiRead (addr : BitVec 40)
  /-- SPI_OTHER_COMMAND (R445): An 11-byte transaction with another command returns BAD_OPCODE. -/
  | spiOtherCommand (cmd : BitVec 8)
  /-- HOST_RESET (R450): The key written to AON_RESET resets the device 2 µs later. -/
  | hostReset (key : BitVec 32)
  /-- RESET_N_PIN (R450): RESET_N low for 1 µs resets the device. -/
  | resetNPin
  /-- POWER_ON_RESET (R450): A supply falls below its threshold and is restored, giving a full reset. -/
  | powerOnReset
  /-- POR_RELEASE (R456): Power-on reset is released once supplies and the 32 kHz oscillator are stable. -/
  | porRelease (bootSrc : BitVec 2) (cascPos : BitVec 3)
  /-- PERST (R438): PERST# low resets the endpoint and disables bus-address rings. -/
  | perst (high : Bool)
  /-- PCIE_LINK (R438): The PCIe link trains up or goes down. -/
  | pcieLink (up : Bool) (speed : BitVec 3) (width : BitVec 4)
  /-- BOOT_HOST_GO (R447): Host firmware signals that the boot image is in the staging area. -/
  | bootHostGo (v : BitVec 32)
  /-- BOOT_IMAGE_LOADED (R448): The boot image is loaded, checked and its sections copied, or boot fails. -/
  | bootImageLoaded (first : List (BitVec 8)) (second : List (BitVec 8))
  /-- BOOT_HOST_TIMEOUT (R448): No GO within 10 s fails host boot with reason 1. -/
  | bootHostTimeout
  /-- OTP_PROGRAM_KEY (R449): Programs the OTP key hash when unprogrammed. -/
  | otpProgramKey (path : Path)
  /-- OTP_RAISE_SVN (R449): Raises the OTP minimum SVN to the booted image's SVN. -/
  | otpRaiseSvn (path : Path)
  /-- REGISTER_WRITE (R6): A write to a register without its own row applies its access codes and range checks. -/
  | registerWrite (path : Path) (addr : BitVec 40) (v : BitVec 32)
  /-- UNDEFINED_OPCODE (R57): A flow executes a word whose OPC or FN no instruction table defines, and it completes with BAD_OPCODE. -/
  | undefinedOpcode (f : Fin 16) (opc : BitVec 8) (fn : BitVec 4) (w : TWord)
  /-- UNAVAILABLE_READ (R14): A host BAR0 or BAR2 read that reaches a partition or register of a domain in OFF or RET returns zero, increments the counter and may write an UNAVAIL_ACCESS record. -/
  | unavailableRead (path : Path) (addr : BitVec 40)
  /-- HOST_MEMORY_WRITE (R15): Host firmware writes a word of SRAM through BAR2, serialised by the fabric after any device access to the same word. -/
  | hostMemoryWrite (addr : BitVec 40) (v : BitVec 32)
  /-- SAFETY_INPUT_LEVEL_CHANGE (R272): A half's filtered level of a safety input, TPS or OSSD sense pin changes after three consecutive equal 10 µs samples. -/
  | safetyInputLevelChange (half : Fin 2) (pin : Fin 32) (level : Bool)
  /-- PAIR_ALV_IN_CHANGE (R367): PAIR_ALV_IN changes level, restarting the 12 µs silence timer and setting PR_STATUS.ALIVE. -/
  | pairAlvInChange (level : Bool)
  /-- CORE_SUPPLY_LOW (R459): VDD_SA or VDD_SB falls below 0.70 V, and within 1 µs the test-pulse and OSSD drives of that half are released to their pull-downs. -/
  | coreSupplyLow (half : Fin 2)
  deriving DecidableEq, Repr

end Sys2Proof
end

