-- ==== Sys2Proof/Decode.lean ====
section
/-! DEFINITION. The decoder of the opcode table's words. No row of the table gives bits: a command reaches the device as an
event, not as a word, so no word spells a command. -/
namespace Sys2Proof

/-- The command that a word of `nbits` bits spells by the opcode table. The table gives no row any bits, so there is none. -/
def decodeTableWord (_nbits _w : Nat) : Option Instr := none

end Sys2Proof
end

