-- ==== Sys2Proof/Config.lean ====
section
/-! DEFINITION. What the spec fixes for one implementation, and the values it leaves open (free values: opaque, so that no
proof can see what they are). -/
namespace Sys2Proof.Config

/-- Bytes of on-chip SRAM (R13). -/
def sramBytes : Nat := 0x4000000
/-- First byte of the Shared data partition (R13). -/
def sharedBase : Nat := 0x2C00000
/-- Words of 8 bytes in the Shared data partition (R467). -/
def sharedWords : Nat := 1835008
/-- First byte of the record ring (R408) and its words. -/
def ringBase : Nat := 0x3A00000
/-- Words of the record ring (R408). -/
def ringWords : Nat := 1048576
/-- First byte of the safety log of channel A: the top 256 KiB of its memory (R414). -/
def logBaseA : Nat := 0x3EC0000
/-- First byte of the safety log of channel B (R414). -/
def logBaseB : Nat := 0x3FC0000
/-- Words of one safety log (R414). -/
def logWords : Nat := 65536

/-- Free values of 32 bits: what a value that the spec leaves open reads as, numbered by `State.fresh`. -/
opaque free32 : Nat → BitVec 32

/-- Free choices of a rounding direction that the spec leaves open (R334), numbered by `State.fresh`. -/
opaque roundUp : Nat → Bool

/-- The output buffers that a parameter block names, for a kernel number and the bytes of the block: the addresses of both buffers of a
pair and their size. The spec does not give the formats of parameter blocks (R89, R90): free. -/
opaque outBuffers : Nat → List (BitVec 8) → List (Nat × Nat × Nat)

end Sys2Proof.Config
end

