-- ==== Sys2Proof/Machine/State.lean ====
section
/-! DEFINITION. The state of the device: its parts, what has left the chip, and the commands that wait, as plain data; the outcomes
that stop the machine, and the machine right after power-on reset. -/
namespace Sys2Proof.Machine

/-- Why the machine stops. No command of the spec stops the device for good, so no command of this model raises one (safe). -/
inductive Fault where
  /-- an access to an address outside the map (R436); kept for the interface, raised by no command (safe) -/
  | unmapped (addr : Nat)
  deriving DecidableEq, Repr

/-- Why a command is refused. -/
inductive Refusal where
  /-- a command whose meaning this model does not give yet: raised by exec alone (safe) -/
  | notModelled (mnemonic : String)
  deriving DecidableEq, Repr


/-- the state of the device (01_architecture.md). -/
structure State where
  /-- R35: time base. -/
  tb : TimeBase := {}
  /-- R50: Treadle. -/
  tr : Treadle := {}
  /-- R84: Loom. -/
  lm : Loom := {}
  /-- R106: feedback interface. -/
  fb : Feedback := {}
  /-- R130: control engine. -/
  ce : ControlEngine := {}
  /-- R33: axes and arms. -/
  cell : Cell := {}
  /-- R153: profile generator. -/
  pg : Profile := {}
  /-- R176: stepper links. -/
  stl : Vector StlLink 16 := Vector.replicate 16 default
  /-- R247: Selvedge. -/
  sv : Selvedge := {}
  /-- R272: safety I/O block. -/
  sio : Sio := {}
  /-- R292: safety layer. -/
  sl : SafetyLayer := {}
  /-- R362: pair. -/
  pr : Pair := {}
  /-- R180: Churn. -/
  qp : Churn := {}
  /-- R224: Reed. -/
  rd : Reed := {}
  /-- R308: TSN switch. -/
  sw : Switch := {}
  /-- R329: network time unit. -/
  nt : NetTime := {}
  /-- R345: CAN FD controllers. -/
  can : Can := {}
  /-- R389: Warp ring. -/
  wr : Ring := {}
  /-- R326: drive traffic of each axis. -/
  dr : Vector Drive 80 := Vector.replicate 80 default
  /-- R403: event recorder. -/
  er : Recorder := {}
  /-- R437: host interface. -/
  hi : HostIf := {}
  /-- R446: boot controller. -/
  boot : Boot := {}
  /-- R418: power controller. -/
  pw : Power := {}
  /-- R426: clocks. -/
  cr : Clocks := {}
  /-- R430: health and wear. -/
  hw : Health := {}
  /-- R24, R64: effects to come, in the order of acceptance. -/
  pend : List Effect := []
  /-- R13: on-chip SRAM, 64 MiB: addresses strictly rising, no byte 0 listed; an unlisted byte reads 0. DESIGN CHOICE: reset value, log 1. -/
  mem : List Host.Cell := []
  /-- R22, R444: what has left the chip, newest first. The model's own field. -/
  out : List Out := []
  /-- R6: the words the last read returned. The model's own field. -/
  rdata : List (BitVec 32) := []
  /-- R199: counter that numbers the free values taken. The model's own field. -/
  fresh : Nat := 0
  /-- R44: commands that are waiting, first in, first out. The model's own field. -/
  pending : List Instr := []
  deriving DecidableEq, Repr, Inhabited

/-- The machine right after power-on reset is released: STANDBY, every field at the value the spec states for reset, or at the
value that an entry of the assumption log names. -/
def State.reset : State := {}

end Sys2Proof.Machine
end

