-- ==== Sys2Proof/Machine/Ops.lean ====
section
/-! DEFINITION. The shared operations: tables, bit fields, counters, serial numbers, cell time, memory, records, the safety
logs, interrupt vectors and free values. -/
namespace Sys2Proof.Machine

/-! ### Tables and words -/

/-- A table with entry `i` replaced by `f` of it. -/
def upd {α : Type} {n : Nat} (v : Vector α n) (i : Fin n) (f : α → α) : Vector α n := v.set i.val (f v[i]) i.isLt

/-- A table with entry `i` replaced by `f` of it; unchanged when `i` lies outside. -/
def updN {α : Type} {n : Nat} (v : Vector α n) (i : Nat) (f : α → α) : Vector α n :=
  if h : i < n then upd v ⟨i, h⟩ f else v

/-- Entry `i` of a table, or the default outside it. -/
def getN {α : Type} [Inhabited α] {n : Nat} (v : Vector α n) (i : Nat) : α :=
  if h : i < n then v[i] else default

/-- The numbers 0 to n − 1. -/
def fins (n : Nat) : List (Fin n) := List.finRange n

/-- Bit `i` of a word. -/
def bit {n : Nat} (w : BitVec n) (i : Nat) : Bool := w.getLsbD i

/-- Bits [lo + len − 1 : lo] of a word. -/
def field {n : Nat} (w : BitVec n) (lo len : Nat) : BitVec len := w.extractLsb' lo len

/-- A Boolean placed at bit `i` of a word. -/
def bitAt {n : Nat} (b : Bool) (i : Nat) : BitVec n := if b then BitVec.twoPow n i else 0#n

/-- A field placed at bit `lo` of a 32-bit word. -/
def at32 {n : Nat} (v : BitVec n) (lo : Nat) : BitVec 32 := v.setWidth 32 <<< lo

/-- A natural number placed at bit `lo` of a 32-bit word. -/
def nat32 (v : Nat) (lo : Nat) : BitVec 32 := BitVec.ofNat 32 v <<< lo

/-- Bits [31:0] of a signed number. -/
def int32 (v : Int) : BitVec 32 := BitVec.ofInt 32 v

/-- A word with bit `i` set. -/
def setBit {n : Nat} (w : BitVec n) (i : Nat) : BitVec n := w ||| BitVec.twoPow n i

/-- A word with bit `i` cleared. -/
def clearBit {n : Nat} (w : BitVec n) (i : Nat) : BitVec n := w &&& ~~~(BitVec.twoPow n i)

/-- A word with bit `i` set to `b`. -/
def putBit {n : Nat} (w : BitVec n) (i : Nat) (b : Bool) : BitVec n := if b then setBit w i else clearBit w i

/-- A saturating counter one step on. -/
def satInc {n : Nat} (c : BitVec n) : BitVec n := if c = BitVec.allOnes n then c else c + 1#n

/-- A saturating counter `k` steps on. -/
def satAdd {n : Nat} (c : BitVec n) (k : Nat) : BitVec n :=
  if c.toNat + k < 2 ^ n then BitVec.ofNat n (c.toNat + k) else BitVec.allOnes n

/-- Serial-number arithmetic: `a` is newer than `b` (R47). -/
def newer {n : Nat} (a b : BitVec n) : Bool :=
  let d := (a - b).toNat
  decide (1 ≤ d) && decide (d ≤ 2 ^ (n - 1) - 1)

/-- An integer brought into [lo, hi]. -/
def clampInt (lo hi x : Int) : Int := if x < lo then lo else if hi < x then hi else x

/-- An integer saturated to `n` bits of two's complement. -/
def satInt (n : Nat) (x : Int) : Int := clampInt (-(2 ^ (n - 1))) (2 ^ (n - 1) - 1) x

/-- The sign of an integer. -/
def sgn (x : Int) : Int := if x < 0 then -1 else if 0 < x then 1 else 0

/-- The greatest integer whose square does not exceed `n`. -/
def isqrt (n : Nat) : Nat := Nat.sqrt n

/-! ### Cell time (R35, R36) -/

/-- One nanosecond in the unit of cell time. -/
def nsUnit : Nat := 4294967296

/-- Cell time truncated to whole nanoseconds (R36). -/
def State.now (s : State) : Nat := s.tb.timeFix / nsUnit

/-- Cell time as registers and records report it. -/
def State.now64 (s : State) : BitVec 64 := BitVec.ofNat 64 s.now

/-- Cell time moved forward to `t` ns; it never decreases (R35). -/
def State.reach (s : State) (t : Nat) : State :=
  if s.tb.timeFix < t * nsUnit then { s with tb.timeFix := t * nsUnit } else s

/-! ### Memory (R13) -/

/-- What a byte that is not listed reads as. The spec gives no reset contents for the parts of SRAM that no domain transition
has zeroed (R420 gives zero after OFF). DESIGN CHOICE (log 1), unsafe. -/
def memDefault : Byte := 0#8

/-- The byte at an address. -/
def memRead : List Host.Cell → Nat → Byte
  | [], _ => memDefault
  | (k, v) :: r, a => if k = a then v else memRead r a

/-- The cells with one byte written; a byte equal to the default is not listed. -/
def memWrite : List Host.Cell → Nat → Byte → List Host.Cell
  | [], a, b => if b = memDefault then [] else [(a, b)]
  | (k, v) :: r, a, b =>
    if a < k then (if b = memDefault then (k, v) :: r else (a, b) :: (k, v) :: r)
    else if a = k then (if b = memDefault then r else (a, b) :: r)
    else (k, v) :: memWrite r a b

/-- Every address of `m` lies above `lo`, they rise strictly, and no default byte is listed. -/
def memWfFrom : Option Nat → List Host.Cell → Bool
  | _, [] => true
  | lo, (k, v) :: r => (match lo with | none => true | some l => decide (l < k)) && decide (v ≠ memDefault) && memWfFrom (some k) r

/-- The canonical form of the memory: addresses strictly rising, no default byte listed. -/
def Memory.wf (m : List Host.Cell) : Bool := memWfFrom none m

/-- The cells with a run of bytes written from `a` upward. -/
def memWriteList : List Host.Cell → Nat → List Byte → List Host.Cell
  | m, _, [] => m
  | m, a, b :: bs => memWriteList (memWrite m a b) (a + 1) bs

/-- `n` bytes from `a` upward. -/
def memReadList (m : List Host.Cell) (a : Nat) : Nat → List Byte
  | 0 => []
  | n + 1 => memRead m a :: memReadList m (a + 1) n

/-- The cells with every byte in [lo, hi) back at the default. -/
def memZero (m : List Host.Cell) (lo hi : Nat) : List Host.Cell :=
  m.filter fun c => !(decide (lo ≤ c.1) && decide (c.1 < hi))

/-- The little-endian number that `n` bytes from `a` hold (R5). -/
def memNat (m : List Host.Cell) (a : Nat) : Nat → Nat
  | 0 => 0
  | n + 1 => (memRead m a).toNat + 256 * memNat m (a + 1) n

/-- The `n` bytes of a number, least significant first. -/
def natBytes (v : Nat) : Nat → List Byte
  | 0 => []
  | n + 1 => BitVec.ofNat 8 v :: natBytes (v / 256) n

/-- The number that a list of bytes holds, least significant first. -/
def bytesNat : List Byte → Nat
  | [] => 0
  | b :: r => b.toNat + 256 * bytesNat r

/-- The 32-bit word at an address. -/
def State.rd32 (s : State) (a : Nat) : BitVec 32 := BitVec.ofNat 32 (memNat s.mem a 4)
/-- The 64-bit word at an address. -/
def State.rd64 (s : State) (a : Nat) : BitVec 64 := BitVec.ofNat 64 (memNat s.mem a 8)
/-- A 32-bit word written at an address. -/
def State.wr32 (s : State) (a : Nat) (v : BitVec 32) : State := { s with mem := memWriteList s.mem a (natBytes v.toNat 4) }
/-- A 64-bit word written at an address. -/
def State.wr64 (s : State) (a : Nat) (v : BitVec 64) : State := { s with mem := memWriteList s.mem a (natBytes v.toNat 8) }
/-- Bytes written from an address upward. -/
def State.wrBytes (s : State) (a : Nat) (b : List Byte) : State := { s with mem := memWriteList s.mem a b }
/-- `n` bytes read from an address upward. -/
def State.rdBytes (s : State) (a n : Nat) : List Byte := memReadList s.mem a n

/-- The bytes of a list of 32-bit words (R5). -/
def wordsBytes (ws : List (BitVec 32)) : List Byte := ws.flatMap fun w => natBytes w.toNat 4

/-- The words of a list of bytes, four at a time, the last filled with zeros. -/
def bytesWords : List Byte → List (BitVec 32)
  | a :: b :: c :: d :: r => BitVec.ofNat 32 (bytesNat [a, b, c, d]) :: bytesWords r
  | [] => []
  | r => [BitVec.ofNat 32 (bytesNat r)]

/-- Byte `i` of a list of bytes. -/
def byteAt (l : List Byte) (i : Nat) : Byte := l.getD i 0#8
/-- The little-endian number of `n` bytes of a list from place `i`. -/
def leAt (l : List Byte) (i n : Nat) : Nat := bytesNat ((l.drop i).take n)
/-- The big-endian number of `n` bytes of a list from place `i`. -/
def beAt (l : List Byte) (i n : Nat) : Nat := bytesNat ((l.drop i).take n).reverse

/-- The partitions of R13, in the order of its table. -/
def partitionOf (a : Nat) : Fin 7 :=
  if a < 0x1400000 then 0 else if a < 0x2400000 then 1 else if a < 0x2800000 then 2 else if a < 0x2C00000 then 3
  else if a < 0x3A00000 then 4 else if a < 0x3E00000 then 5 else 6

/-- The power domain that holds a byte of SRAM (R13). -/
def domainOf (a : Nat) : Fin 13 :=
  if a < 0x1400000 then 8 else if a < 0x2400000 then 7 else if a < 0x2800000 then 4
  else if a < 0x2A00000 then 5 else if a < 0x2C00000 then 6 else if a < 0x3A00000 then 4
  else if a < 0x3E00000 then 12 else if a < 0x3F00000 then 1 else 2

/-! ### Power domains and device states -/

/-- A domain is powered for access: IDLE or RUN (R418). -/
def DomState.up : DomState → Bool
  | .idle => true
  | .run => true
  | _ => false

/-- Code of a domain state (R418). -/
def DomState.code : DomState → BitVec 2
  | .off => 0#2 | .ret => 1#2 | .idle => 2#2 | .run => 3#2

/-- The domain state a code names (R418). -/
def DomState.ofCode (c : BitVec 2) : DomState :=
  if c = 0#2 then .off else if c = 1#2 then .ret else if c = 2#2 then .idle else .run

/-- Code of a device state (R83). -/
def DevState.code : DevState → BitVec 3
  | .off => 0#3 | .standby => 1#3 | .sleep => 2#3 | .ready => 3#3 | .run => 4#3 | .safeHold => 5#3

/-- Picks and host flows may run in this state (R32, R75). -/
def DevState.live : DevState → Bool
  | .ready => true | .run => true | .safeHold => true | _ => false

/-- Code of an axis state (R79). -/
def AxisState.code : AxisState → BitVec 3
  | .disabled => 0#3 | .holding => 1#3 | .moving => 2#3 | .homing => 3#3 | .geared => 4#3 | .stopping => 5#3 | .fault => 6#3

/-- The loop of the axis is closed (R33). -/
def AxisState.closed : AxisState → Bool
  | .disabled => false | .fault => false | _ => true

/-- Code of a completion status (R8). -/
def Status.code : Status → BitVec 8
  | .ok => 0x00#8 | .okLimited => 0x01#8 | .okDeferred => 0x02#8 | .badOpcode => 0x10#8 | .badOperand => 0x11#8
  | .length => 0x12#8 | .range => 0x13#8 | .noResource => 0x14#8 | .state => 0x20#8 | .flowFenced => 0x21#8
  | .notOwner => 0x22#8 | .safetyDenied => 0x23#8 | .aborted => 0x30#8 | .doubleFault => 0x31#8 | .internal => 0x3F#8

/-- A status below 0x10: the request took effect (R9). -/
def Status.took (t : Status) : Bool := decide (t.code.toNat < 0x10)

/-- State of domain `d`. -/
def State.domain (s : State) (d : Fin 13) : DomState := s.pw.dom[d]

/-! ### Interrupt vectors (R437, R444) -/

/-- The message of a vector is sent; a masked vector is kept pending. PRESUMED (log 12): the MSI-X table and pending bits of PCI
Express, which R437 names and does not describe. -/
def State.raise (s : State) (v : Fin 64) : State :=
  let e := s.hi.msix[v]
  if s.hi.linkUp then
    if e.masked then { s with hi.pba := setBit s.hi.pba v.val }
    else { s with out := .msix v.val e.addr e.data :: s.out }
  else s

/-- The vector is requested when the level of its source rises from false to true (R128). -/
def irqWatch (v : Fin 64) (level : State → Bool) (s s' : State) : State :=
  if !level s && level s' then s'.raise v else s'

/-! ### Records (R403 to R416) -/

/-- SAFETY is set on the records of SRC 14, 15 and 16 (R404). -/
def Rec.safety (r : Rec) : Bool := decide (r.src = 14) || decide (r.src = 15) || decide (r.src = 16)

/-- LEN of a record in words (R403). -/
def Rec.len (r : Rec) : Nat := r.payload.length + 3

/-- Word 0 of a record as the recorder writes it first (R403, R404). -/
def Rec.word0 (r : Rec) : BitVec 32 :=
  nat32 r.len 0 ||| nat32 r.src 8 ||| at32 r.code 16 ||| bitAt r.safety 28

/-- Records that are never merged: EPOCH, TIME_MARK and the record of a REC.MARK (R406). -/
def Rec.alone (r : Rec) : Bool :=
  (decide (r.src = 22) && decide (r.code = 0x001#12)) || (decide (r.src = 18) && decide (r.code = 0x001#12)) ||
  (decide (r.src = 4) && decide (0x800 ≤ r.code.toNat))

/-- TIME_MARK ends every merge in progress (R406). -/
def Rec.timeMark (r : Rec) : Bool := decide (r.src = 18) && decide (r.code = 0x001#12)

/-- The word of a ring at index `i`. -/
def ringWord (m : List Host.Cell) (base size i : Nat) : BitVec 32 := BitVec.ofNat 32 (memNat m (base + 4 * (i % size)) 4)

/-- A ring with words written from index `i` upward, modulo its size (R408). -/
def ringPut (base size : Nat) : List Host.Cell → Nat → List (BitVec 32) → List Host.Cell
  | m, _, [] => m
  | m, i, w :: ws => ringPut base size (memWriteList m (base + 4 * (i % size)) (natBytes w.toNat 4)) (i + 1) ws

/-- `n` words of a ring from index `i`. -/
def ringGet (m : List Host.Cell) (base size i : Nat) : Nat → List (BitVec 32)
  | 0 => []
  | n + 1 => ringWord m base size i :: ringGet m base size (i + 1) n

/-- The arriving record merges into the record of its SRC at index `p`: word 0 equal apart from FLAGS, and word 3 equal (R406). -/
def mergeable (m : List Host.Cell) (base size p : Nat) (r : Rec) : Bool :=
  !r.alone && decide ((ringWord m base size p).setWidth 28 = r.word0.setWidth 28) &&
  (match r.payload with
   | [] => true
   | w :: _ => decide (ringWord m base size (p + 3) = w))

/-- One more repeat of the record at index `p`, with words 4 onward replaced (R406). -/
def mergeAt (m : List Host.Cell) (base size p : Nat) (r : Rec) : List Host.Cell :=
  let w2 := ringWord m base size (p + 2)
  let m1 :=
    if field w2 0 16 = 0xFFFF#16 then ringPut base size m p [setBit (ringWord m base size p) 29]
    else ringPut base size m (p + 2) [w2 + 1#32]
  ringPut base size m1 (p + 4) (r.payload.drop 1)

/-- The ring without its oldest record. -/
def RecRing.dropOldest (g : RecRing) (m : List Host.Cell) (base size : Nat) : RecRing :=
  let l := (field (ringWord m base size g.tail) 0 8).toNat
  { g with
    tail := (g.tail + l) % size
    used := g.used - l
    newest := g.newest.map fun p => if p = some g.tail then none else p }

/-- Oldest records discarded until `need` words are free; `fuel` bounds the records discarded (R409). -/
def RecRing.makeRoom (m : List Host.Cell) (base size need : Nat) : Nat → RecRing → RecRing
  | 0, g => g
  | fuel + 1, g => if need ≤ size - g.used then g else RecRing.makeRoom m base size need fuel (g.dropOldest m base size)

/-- A record written at HEAD with the sequence number `g.seq` (R405, R408). -/
def RecRing.append (g : RecRing) (base size : Nat) (m : List Host.Cell) (r : Rec) : RecRing × List Host.Cell :=
  ({ g with
      head := (g.head + r.len) % size
      used := g.used + r.len
      seq := g.seq + 1#32
      newest :=
        if r.timeMark then Vector.replicate 25 none
        else updN g.newest r.src fun _ => some g.head },
    ringPut base size m g.head ([r.word0, g.seq, 0#32] ++ r.payload))

/-- A record enters a safety log: merged, or written over the oldest records (R414). -/
def RecRing.logPut (g : RecRing) (base : Nat) (m : List Host.Cell) (r : Rec) : RecRing × List Host.Cell :=
  match getN g.newest r.src with
  | some p =>
    if mergeable m base Config.logWords p r then (g, mergeAt m base Config.logWords p r)
    else (RecRing.makeRoom m base Config.logWords r.len 64 g).append base Config.logWords m r
  | none => (RecRing.makeRoom m base Config.logWords r.len 64 g).append base Config.logWords m r

/-- A record enters the safety log of channel A (`b = false`) or B, which is written in every powered state (R414). -/
def State.logSafety (s : State) (b : Bool) (r : Rec) : State :=
  let g := if b then s.er.logB else s.er.logA
  let res := g.logPut (if b then Config.logBaseB else Config.logBaseA) s.mem r
  let grown := (res.1.head + Config.logWords - g.head) % Config.logWords
  let e1 := if b then { s.er with logB := res.1 } else { s.er with logA := res.1 }
  let e2 :=
    if e1.selB = b then
      let e3 := { e1 with logUnread := e1.logUnread + grown }
      if res.1.used < e3.logUnread then { e3 with logPos := res.1.tail, logUnread := res.1.used, skipped := true } else e3
    else e1
  { s with er := e2, mem := res.2 }

/-- The level of the recorder's interrupt request (R417). -/
def erLevel (s : State) : Bool := decide (s.er.sticky &&& s.er.intEn ≠ 0#5)

/-- A bit of ER_STICKY is set by hardware. -/
def State.erSet (s : State) (i : Nat) : State :=
  irqWatch 16 erLevel s { s with er.sticky := setBit s.er.sticky i }

/-- A record is put into its source's staging queue, whatever the state of PD12; a record that finds the queue full is lost and
counted (R405, R413). -/
def State.stage (s : State) (r : Rec) : State :=
  if (getN s.er.staging r.src).length < 8 then
    { s with er.staging := updN s.er.staging r.src fun q => q ++ [r] }
  else
    ({ s with
        er.cntLost := satInc s.er.cntLost
        er.lostPend := match s.er.lostPend with
          | none => some (1, r.src)
          | some (n, f) => some (n + 1, f) }).erSet 1

/-- A source delivers a record (R404, R405). -/
def State.emit (s : State) (src : Nat) (code : BitVec 12) (payload : List (BitVec 32)) : State :=
  s.stage { src := src, code := code, payload := payload }

/-- A Selvedge channel, or a half of the safety I/O block, delivers a record, which also enters that channel's safety log
(R414). `b` names channel B. -/
def State.emitSafe (s : State) (b : Bool) (src : Nat) (code : BitVec 12) (payload : List (BitVec 32)) : State :=
  let r : Rec := { src := src, code := code, payload := payload }
  (s.logSafety b r).stage r

/-! ### Free values -/

/-- The number of the next free value is taken. -/
def State.takeFresh (s : State) : Nat × State := (s.fresh, { s with fresh := s.fresh + 1 })

/-- A sequence of state changes, one for each entry of a list, first entry first. -/
def State.forEach {α : Type} (s : State) (l : List α) (f : State → α → State) : State := l.foldl f s

end Sys2Proof.Machine
end

