-- ==== Sys2Proof/Machine/Access.lean ====
section
/-! DEFINITION. Accessors shared by the blocks: axes, arms, channels, slices, profile axes, their sticky bits with the
interrupt they request, the lease and what Selvedge publishes. -/
namespace Sys2Proof.Machine

/-- Axis `a`. -/
def State.axis (s : State) (a : Fin 80) : Axis := s.cell.ax[a]
/-- Arm `r` as ARM.DEFINE makes it. -/
def State.armDef (s : State) (r : Fin 8) : Arm := s.cell.arm[r]
/-- Axis `a` changed. -/
def State.modAxis (s : State) (a : Fin 80) (g : Axis → Axis) : State := { s with cell.ax := upd s.cell.ax a g }
/-- Arm `r` changed. -/
def State.modArm (s : State) (r : Fin 8) (g : Arm → Arm) : State := { s with cell.arm := upd s.cell.arm r g }
/-- Feedback channel `c`. -/
def State.ch (s : State) (c : Fin 96) : FbCh := s.fb.ch[c]
/-- Feedback channel `c` changed. -/
def State.modCh (s : State) (c : Fin 96) (g : FbCh → FbCh) : State := { s with fb.ch := upd s.fb.ch c g }
/-- Loop slice `a`. -/
def State.slice (s : State) (a : Fin 80) : Slice := s.ce.sl[a]
/-- Loop slice `a` changed. -/
def State.modSlice (s : State) (a : Fin 80) (g : Slice → Slice) : State := { s with ce.sl := upd s.ce.sl a g }
/-- Profile axis `a`. -/
def State.pax (s : State) (a : Fin 80) : PgAxis := s.pg.ax[a]
/-- Profile axis `a` changed. -/
def State.modPax (s : State) (a : Fin 80) (g : PgAxis → PgAxis) : State := { s with pg.ax := upd s.pg.ax a g }

/-- The device holds the lease: its role is ACTIVE or ALONE (R81, R363). -/
def State.lease (s : State) : Bool := decide (s.pr.role = .active) || decide (s.pr.role = .alone)

/-- The axes of arm `r`, first axis first (R79). -/
def State.armAxes (s : State) (r : Fin 8) : List (Fin 80) :=
  (List.range (s.armDef r).count).map fun i => Fin.ofNat 80 ((s.armDef r).first + i)

/-- The arm that owns axis `a` (R79). -/
def State.armOf (s : State) (a : Fin 80) : Option (Fin 8) := (fins 8).find? fun r => decide (a ∈ s.armAxes r)

/-- The arm of the sealed image that owns joint axis `a`; the images of the safety configuration give the arms in use (R468). -/
def State.safeArm (s : State) (a : Fin 80) : Option (Fin 8) :=
  if s.sv.sealed then (fins 8).find? fun r =>
    let g := s.sv.cfgArm[r]
    g.use && decide (g.first.toNat ≤ a.val) && decide (a.val < g.first.toNat + g.count.toNat)
  else none

/-- A Selvedge stop persists for the axis: of the arm in use that owns it, or of the auxiliary axis itself; a joint axis that no
arm in use of the sealed image owns is under STO at category 0 (R82, R468). -/
def State.stopOf (s : State) (a : Fin 80) : Option (Fin 3) :=
  if h : 64 ≤ a.val then s.sv.auxPub[a.val - 64].stop
  else match s.safeArm a with
    | some r => s.sv.armPub[r].stop
    | none => if s.sv.sealed then some 0 else none

/-- Selvedge demands STO for the axis: for every axis before sealing, and as R260 and R468 state after it (R247). -/
def State.stoOf (s : State) (a : Fin 80) : Bool :=
  if !s.sv.sealed then true
  else if h : 64 ≤ a.val then s.sv.auxPub[a.val - 64].sto
  else match s.safeArm a with
    | some r => s.sv.armPub[r].sto
    | none => s.sv.sealed

/-- The current solution has another structure than the one in force (R26, R192, R193). -/
def State.qpStructChange (s : State) : Bool := s.qp.curValid && decide (s.qp.curSig ≠ s.qp.sig)

/-- A solution of the present structure is current (R149, R196, R200). -/
def State.qpCurrent (s : State) : Bool := s.qp.curValid && decide (s.qp.curSig = s.qp.sig) && !s.qp.curExpired

/-- The host's definition of arm `r` equals its entry in the sealed image (R255). -/
def State.armMatches (s : State) (r : Fin 8) : Bool :=
  let g := s.sv.cfgArm[r]
  g.use && decide (g.first.toNat = (s.armDef r).first) && decide (g.count.toNat = (s.armDef r).count)

/-- The request level of feedback vector `v`: the OR over its six channels (R128). -/
def fbLevel (v : Nat) (s : State) : Bool :=
  (fins 96).any fun c => decide (c.val / 6 = v) && decide ((s.ch c).sticky &&& (s.ch c).intEn ≠ 0#13)

/-- The request level of axis vector `v`: slices and profile axes 5v to 5v + 4 (R151). -/
def axisLevel (v : Nat) (s : State) : Bool :=
  (fins 80).any fun a => decide (a.val / 5 = v) &&
    (decide ((s.slice a).sticky &&& (s.slice a).intEn ≠ 0#11) || decide ((s.pax a).sticky &&& (s.pax a).intEn ≠ 0#9))

/-- Vector of feedback channel `c` (R128). -/
def fbVector (c : Fin 96) : Fin 64 := Fin.ofNat 64 (32 + c.val / 6)
/-- Vector of axis `a` (R151). -/
def axisVector (a : Fin 80) : Fin 64 := Fin.ofNat 64 (48 + a.val / 5)

/-- Bit `i` of FB_STICKY_c is set by hardware (R128). -/
def State.fbSet (s : State) (c : Fin 96) (i : Nat) : State :=
  irqWatch (fbVector c) (fbLevel (c.val / 6)) s (s.modCh c fun h => { h with sticky := setBit h.sticky i })

/-- Bit `i` of CE_STICKY_a is set by hardware (R151). -/
def State.ceSet (s : State) (a : Fin 80) (i : Nat) : State :=
  irqWatch (axisVector a) (axisLevel (a.val / 5)) s (s.modSlice a fun h => { h with sticky := setBit h.sticky i })

/-- Bit `i` of PG_STICKY_a is set by hardware (R151). -/
def State.pgSet (s : State) (a : Fin 80) (i : Nat) : State :=
  irqWatch (axisVector a) (axisLevel (a.val / 5)) s (s.modPax a fun h => { h with sticky := setBit h.sticky i })

/-- V: TB_ACTIVE_PERIOD read as PERIOD × 256 + FRAC; the pick length in ns is V / 32 (R38, R131). -/
def State.pickV (s : State) : Nat :=
  (field s.tb.activePeriod 0 24).toNat * 256 + (field s.tb.activePeriod 24 8).toNat

/-- 32 × 10^9, by which V is divided in step (R136). -/
def stepDiv : Int := 32000000000

/-- rsh(x, n): a right shift that rounds half toward +∞ (R136). -/
def rsh (x : Int) (n : Nat) : Int := if n = 0 then x else (x + 2 ^ (n - 1)) / 2 ^ n

/-- step(v): the position change in one pick and the remainder carried on (R136). -/
def stepRem (v : Int) (vv : Nat) (rem : Int) : Int × Int :=
  let num := v * vv + rem
  let st := num.tdiv stepDiv
  (st, num - st * stepDiv)

/-- step′(v): step without a remainder (R132, R158). -/
def stepNo (v : Int) (vv : Nat) : Int := (v * vv).tdiv stepDiv

/-- sat64 (R136). -/
def sat64 (x : Int) : Int := satInt 64 x
/-- sat32 (R136). -/
def sat32 (x : Int) : Int := satInt 32 x

end Sys2Proof.Machine
end

