-- ==== Sys2Proof/Machine/FbBase.lean ====
section
/-! DEFINITION. Feedback channels: counting with hysteresis, reported edges, compares and triggers, the trace buffer, speed,
latching and configuration (R106 to R128). -/
namespace Sys2Proof.Machine

/-- The reported direction, +1 or −1 (R117). -/
def FbCh.dir (h : FbCh) : Int := if h.dirNeg then -1 else 1

/-- The largest magnitude of a count (R114). -/
def posMax : Int := 140737488355327

/-- Code of a channel mode (FB_STATUS_c.MODE). -/
def FbMode.code : FbMode → BitVec 2
  | .start => 0#2 | .normal => 1#2 | .test => 2#2 | .recovery => 3#2

/-- The channel mode that FB.MODE names (R80). -/
def FbMode.ofCode (c : BitVec 2) : FbMode :=
  if c = 0#2 then .start else if c = 1#2 then .normal else if c = 2#2 then .test else .recovery

/-- The edge history of a channel cleared, with the last edge time set (R107, R114). -/
def FbCh.clearHistory (h : FbCh) (e : Nat) : FbCh :=
  { h with e := e, rawE := e, p := none, cnt := 1, lastSame := false, ssiPrevStep := 0, ssiPrevTime := 0 }

/-- A condition that persists: an input pair below the threshold, or SSI words that stay bad (R114). -/
def FbCh.cond (h : FbCh) : Bool := h.wireCond || h.ssiCond

/-- An entry of the trace buffer, dropped with OVF when the buffer is full (R127). -/
def State.trace (s : State) (c : Fin 96) (kind : BitVec 2) (count : Int) (t : Nat) : State :=
  if (s.ch c).mode = .test then
    if s.fb.trace.length < 256 then
      { s with fb.trace := s.fb.trace ++
          [#v[nat32 c.val 0 ||| at32 kind 8 ||| bitAt true 10, int32 count, BitVec.ofNat 32 t, BitVec.ofNat 32 (t / 2 ^ 32)]] }
    else { s with fb.traceOvf := true }
  else s

/-- Trigger outputs are driven in READY and RUN only (R126). -/
def trigOn (s : State) : Bool := decide (s.pw.state = .ready) || decide (s.pw.state = .run)

/-- A trigger output goes to a level; without the lease it is high-impedance (R126, R363). -/
def State.driveTrig (s : State) (t : Fin 8) (active : Bool) : State :=
  if s.lease then { s with out := .trig t.val (active != (s.fb.trig[t]).pol) :: s.out } else s

/-- A compare fires: it disarms, sets CMP_HIT, stores the time and starts a pulse of WIDTH ticks, three ticks later (R126). -/
def State.fireCompare (s : State) (c : Fin 96) (t : Nat) : State :=
  let o := (s.ch c).cmpTrig
  let s1 := (s.modCh c fun h => { h with armed := false, cmpTime := BitVec.ofNat 64 t }).fbSet c 1
  if trigOn s1 then
    let g := s1.fb.trig[o]
    let s2 := { s1 with fb.trig := upd s1.fb.trig o fun g => { g with pulses := g.pulses ++ [s.now + 24 + 8 * g.width.toNat] } }
    if g.pulses.isEmpty then s2.driveTrig o true else s2
  else s1

/-- The reported count moved from one side of `c` onto it or past it (R124). -/
def crosses (old new c : Int) : Bool :=
  (decide (old < c) && decide (c ≤ new)) || (decide (c < old) && decide (new ≤ c))

/-- The count at which the compare of a channel is armed (R124). -/
def FbCh.cmpCount (h : FbCh) : Int := h.cmp.toInt / 65536

/-- The reported count becomes `rep` by an edge in direction `d` at time `t`; `k` is the count moved in the period. A reversal
sets DIR_CHG and leaves p undefined; so does the first edge after standstill (R117, R119, R121, R124, R127). -/
def State.reportEdge (s : State) (c : Fin 96) (rep : Int) (d : Int) (t : Nat) (k : Nat) : State :=
  let h := s.ch c
  let rev := decide (d ≠ h.dir)
  let still := decide (h.tss.toNat * 1000000 ≤ t - h.e)
  let ssi := decide (h.inmode = 5#3)
  let s1 := s.modCh c fun h =>
    { h with
      rep := rep, dirNeg := decide (d < 0), e := t
      p := if ssi then h.p else if h.lastSame && !rev && !still then some (t - h.e) else none
      cnt := if ssi then h.cnt else k
      lastSame := true }
  let s2 := if rev then s1.fbSet c 0 else s1
  let s3 := s2.trace c 2#2 rep t
  if h.armed && decide (h.inmode ≠ 0#3) && crosses h.rep rep h.cmpCount then s3.fireCompare c t else s3

/-- The reported count follows the raw count: at once in NORMAL, with hysteresis otherwise (R116, R117). `d` is the step and
`t` its time. -/
def State.follow (s : State) (c : Fin 96) (d : Int) (t : Nat) : State :=
  let h := s.ch c
  if h.mode = .normal then
    if h.raw = h.rep then s else s.reportEdge c h.raw (sgn d) t d.natAbs
  else if 1 ≤ (h.raw - h.rep) * h.dir then s.reportEdge c h.raw h.dir t d.natAbs
  else if 2 ≤ (h.rep - h.raw) * h.dir then s.reportEdge c h.raw (-h.dir) t d.natAbs
  else s

/-- A channel enters NORMAL: the reported count takes the raw count in that tick, with the time of the raw edge (R118). -/
def State.enterNormal (s : State) (c : Fin 96) : State :=
  let h := s.ch c
  let s1 := s.modCh c fun h => { h with mode := .normal }
  if h.raw = h.rep then s1 else s1.reportEdge c h.raw (sgn (h.raw - h.rep)) h.rawE 1

/-- The channel mode is set (R116, R118). -/
def State.setFbMode (s : State) (c : Fin 96) (m : FbMode) : State :=
  if m = .normal then s.enterNormal c else s.modCh c fun h => { h with mode := m }

/-- The channels mapped to an axis (R108). -/
def State.mapped (s : State) (a : Fin 80) : List (Fin 96) :=
  (fins 96).filter fun c => (s.ch c).mapped && decide ((s.ch c).axis.toNat = a.val)

/-- A mapped channel in START, TEST or RECOVERY is set to NORMAL when its axis starts to move, with a MODE_AUTO record
(R118, R129). -/
def State.modeAuto (s : State) (a : Fin 80) : State :=
  s.forEach (s.mapped a) fun s c =>
    let m := (s.ch c).mode
    if m = .normal then s
    else ((s.enterNormal c).fbSet c 12).emit 10 0x002#12 [nat32 c.val 0 ||| at32 m.code 8 ||| nat32 a.val 16]

/-- Raw and reported counts of a channel shifted by `n` counts; an armed compare is disarmed (R115). -/
def State.shiftChannel (s : State) (c : Fin 96) (n : Int) : State :=
  let armed := (s.ch c).armed
  let s1 := s.modCh c fun h => { h with raw := h.raw + n, rep := h.rep + n, armed := false }
  if armed then s1.fbSet c 10 else s1

/-! ### Speed and latching (R119 to R122) -/

/-- The period of a channel and the count moved in it (R119, R120). -/
def FbCh.period (h : FbCh) : Option (Nat × Nat) := h.p.map fun p => (p, h.cnt)

/-- Speed, VALID and STANDSTILL at the pick instant `t` ns (R120, R114). -/
def FbCh.speed (h : FbCh) (t : Nat) : Int × Bool × Bool :=
  let dt := t - h.e
  if h.cond then (0, false, false)
  else if h.tss.toNat * 1000000 ≤ dt then (0, true, true)
  else match h.period with
    | none => (0, false, false)
    | some (p, c) =>
      if dt < p then (h.dir * ((c * 65536 * 1000000000 / p : Nat) : Int), true, false)
      else if h.inmode = 5#3 then (h.dir * ((c * 65536 * 1000000000 / p : Nat) : Int), true, false)
      else (h.dir * ((65536 * 1000000000 / dt : Nat) : Int), true, false)

/-- The values latched at the pick instant `t` ns (R122). A channel in INMODE 0 keeps its last state with VALID = 0 (R106). -/
def FbCh.latched (h : FbCh) (t : Nat) : FbLatch :=
  if h.inmode = 0#3 then { h.latch with valid := false }
  else
    let sp := h.speed t
    let lim : Int := (h.cnt : Int) * 65536 - 1
    let f :=
      if sp.2.1 && !sp.2.2 && decide (sp.1 ≠ 0) then clampInt (-lim) lim ((sp.1 * ((t : Int) - h.e)).tdiv 1000000000) else 0
    { rep := h.rep, e := h.e, v := sp.1, valid := sp.2.1, standstill := sp.2.2, dir := h.dirNeg, x := h.rep * 65536 + f }

/-! ### Configuration (R107) -/

/-- The channel after an accepted configuration write has taken effect at cell time `t` ns (R107). -/
def FbCh.restart (h : FbCh) (t : Nat) : FbCh :=
  { h.clearHistory t with
    raw := 0, rep := 0, dirNeg := false, armed := false, mode := .start, wPrev := none, ssiRun := 0, ssiCond := false, wireCond := false,
    ssiStart := none, ssiAgain := false }

/-- FB_CFG_c, FB_TIMING_c, FB_SSI_c and FB_SSI_LEAD_c writes that wait for the pick instant take effect (R24, R107). -/
def FbCh.applyConfig (h : FbCh) (t : Nat) : FbCh :=
  let any := h.cfgNext.isSome || h.timingNext.isSome || h.ssiNext.isSome || h.leadNext.isSome
  let h1 := match h.cfgNext with
    | some v => { h with inmode := field v 0 3, invDir := bit v 3, filt := field v 4 6, axis := field v 10 7, mapped := bit v 17 }
    | none => h
  let h2 := match h.timingNext with
    | some v => { h1 with tss := field v 0 10, debounce := field v 16 16 }
    | none => h1
  let h3 := match h.ssiNext with
    | some v => { h2 with bits := field v 0 6, parity := field v 6 2, gray := bit v 8, ssiDiv := field v 10 14 }
    | none => h2
  let h4 := match h.leadNext with
    | some v => { h3 with lead := field v 0 16, jumpMax := field v 16 16 }
    | none => h3
  let h5 := { h4 with cfgNext := none, timingNext := none, ssiNext := none, leadNext := none }
  if any then h5.restart t else h5

/-- The channel is mapped to an axis that is not DISABLED, so its configuration writes are ignored (R107). -/
def fbLocked (s : State) (c : Fin 96) : Bool :=
  let h := s.ch c
  h.mapped && decide ((s.axis (Fin.ofNat 80 h.axis.toNat)).state ≠ .disabled)

/-- A configuration write of a channel: ignored with CFG_REJ when it is bad, otherwise kept for the pick instant, or applied at
once while picks are not running (R24, R107). -/
def State.fbConfig (s : State) (c : Fin 96) (bad : Bool) (put : FbCh → FbCh) : State :=
  if s.domain 9 = .off ∨ s.domain 9 = .ret then s
  else if bad || fbLocked s c then s.fbSet c 9
  else if s.tb.running then s.modCh c put
  else s.modCh c fun h => (put h).applyConfig s.now

end Sys2Proof.Machine
end

