-- ==== Sys2Proof/Machine/Planner.lean ====
section
/-! DEFINITION. Profile arithmetic: increments and speed functions, the planner's samples, stops, searches, segment tables, the
parameter test and the output stage (R153 to R167). -/
namespace Sys2Proof.Machine

/-- The limits from which a plan takes its increments (R156, R158). -/
structure MoveLimits where
  /-- VMOVE -/
  vmove : Int
  /-- ACC1 -/
  acc1 : Int
  /-- ACC2 -/
  acc2 : Int
  /-- DEC1 -/
  dec1 : Int
  /-- DEC2 -/
  dec2 : Int
  /-- VBREAK -/
  vbreak : Int
  /-- VSTART -/
  vstart : Int
  /-- VSTOP -/
  vstop : Int
  /-- QSTOP_DEC -/
  qdec : Int
  deriving DecidableEq, Repr

/-- An increment per profile pick: acceleration × V / (32 × 10^9), truncated, at least 1 (R158). -/
def increment (vv : Nat) (a : Int) : Int := max 1 ((a * vv).tdiv stepDiv)

/-- The increments and effective speeds of a plan (R158). -/
def MoveLimits.plan (m : MoveLimits) (vv : Nat) : PlanK :=
  let dd1 := increment vv m.dec1
  let dd2 := increment vv m.dec2
  let vb := min m.vbreak m.vmove
  let ddL := if 0 < vb then dd1 else dd2
  { da1 := increment vv m.acc1, da2 := increment vv m.acc2, dd1 := dd1, dd2 := dd2, dq := increment vv m.qdec,
    vmove := m.vmove, vb := vb, vstart := min m.vstart m.vmove, vstop := min (max m.vstop ddL) m.vmove }

/-- Parameter `n` of an axis as a signed number (R156). -/
def PgAxis.par (p : PgAxis) (n : Fin 24) : Int := (p.param[n]).toInt

/-- The limits of the move in force: the parameters, with w1 to w3 in the place of VMOVE, both accelerations and both
decelerations (R157). -/
def PgAxis.limits (p : PgAxis) : MoveLimits :=
  { vmove := match p.w with | some (v, _, _) => v | none => p.par 0
    acc1 := match p.w with | some (_, a, _) => a | none => p.par 1
    acc2 := match p.w with | some (_, a, _) => a | none => p.par 2
    dec2 := match p.w with | some (_, _, d) => d | none => p.par 3
    dec1 := match p.w with | some (_, _, d) => d | none => p.par 4
    vbreak := p.par 5, vstart := p.par 6, vstop := p.par 7, qdec := p.par 8 }

/-- dec(v) (R158). -/
def PlanK.dec (k : PlanK) (v : Int) : Int :=
  if k.vb < v then max (max (v - k.dd2) k.vb) k.vstop else max (v - k.dd1) k.vstop

/-- acc(v) (R158). -/
def PlanK.acc (k : PlanK) (v : Int) : Int :=
  if k.vmove < v then max (k.dec v) k.vmove
  else if v < k.vstart then k.vstart
  else if v < k.vb then min (v + k.da1) k.vb
  else min (v + k.da2) k.vmove

/-- brake(v) along the chain of dec, with at most `fuel` steps (R158). -/
def PlanK.brakeFuel (k : PlanK) (vv : Nat) : Nat → Int → Int
  | 0, _ => 0
  | fuel + 1, v => if v ≤ k.vstop then 0 else stepNo (k.dec v) vv + k.brakeFuel vv fuel (k.dec v)

/-- brake(v): the distance in which the speed falls to VSTOP_eff (R158). Every dec lowers a speed above VSTOP_eff by at least 1,
so `v` steps suffice. -/
def PlanK.brake (k : PlanK) (vv : Nat) (v : Int) : Int := k.brakeFuel vv v.toNat v

/-- A planner that starts a move from position `x` and signed speed `v` (R155, R160). -/
def Planner.startMove (k : PlanK) (vv : Nat) (x v target : Int) : Planner :=
  let dir := if v < 0 then -1 else 1
  let sp := if v < 0 then -v else v
  { k := k, x := x, v := sp, dir := dir, target := target,
    mode := if k.brake vv sp ≤ (target - x) * dir then .move else .reverse }

/-- A planner that starts a stop from position `x` and signed speed `v` (R162). -/
def Planner.startStop (k : PlanK) (x v : Int) (quick : Bool) : Planner :=
  { k := k, x := x, v := if v < 0 then -v else v, dir := if v < 0 then -1 else 1, mode := if quick then .quick else .stop }

/-- A planner that starts a homing search in direction `dir` (R172). -/
def Planner.startSearch (k : PlanK) (x dir : Int) : Planner := { k := k, x := x, v := 0, dir := dir, mode := .search }

/-- The planner moves on at its speed. -/
def Planner.go (p : Planner) (vv : Nat) (phase : BitVec 3) : Planner × Sample :=
  let st := stepRem p.v vv p.rem
  let q := { p with x := p.x + p.dir * st.1, rem := st.2, phase := phase }
  (q, { x := q.x, v := q.dir * q.v, phase := phase, neg := decide (q.dir < 0) })

/-- The plan ends at `x`. -/
def Planner.finish (p : Planner) (x : Int) : Planner × Sample :=
  let q := { p with x := x, v := 0, rem := 0, mode := .idle, phase := 0#3 }
  (q, { x := x, v := 0, ends := true, neg := decide (q.dir < 0) })

/-- One sample in mode MOVE (R159). -/
def Planner.moveSample (p : Planner) (vv : Nat) : Planner × Sample :=
  let r := (p.target - p.x) * p.dir
  let fits := fun w => decide (stepNo w vv + p.k.brake vv w ≤ r)
  let vn0 := p.k.acc p.v
  let vn :=
    if fits vn0 then vn0
    else
      let vn1 := min p.v (p.k.acc p.v)
      let vn2 := if fits vn1 then vn1 else p.k.dec p.v
      if p.v = 0 then min (p.k.acc 0) p.k.vstop else vn2
  let phase := if p.v < vn then 1#3 else if vn = p.v then 2#3 else 3#3
  let q := { p with v := vn }
  if r ≤ (stepRem vn vv p.rem).1 then q.finish p.target else q.go vv phase

/-- The next sample of a planner (R159, R162, R172). -/
def Planner.next (p : Planner) (vv : Nat) : Planner × Sample :=
  match p.mode with
  | .idle => (p, { x := p.x, v := 0, ends := true, neg := decide (p.dir < 0) })
  | .seg => p.go vv 2#3
  | .search =>
    let vn := p.k.acc p.v
    { p with v := vn }.go vv (if p.v < vn then 1#3 else 2#3)
  | .quick =>
    let vn := max 0 (p.v - p.k.dq)
    if vn = 0 then p.finish p.x else { p with v := vn }.go vv 3#3
  | .stop =>
    let vn := if p.k.vstop < p.v then p.k.dec p.v else 0
    if vn = 0 then p.finish p.x else { p with v := vn }.go vv 4#3
  | .reverse =>
    if p.k.vstop < p.v then { p with v := p.k.dec p.v }.go vv 4#3
    else if 0 < p.v then { p with v := 0 }.go vv 4#3
    else
      let d := sgn (p.target - p.x)
      { p with dir := if d = 0 then p.dir else d, mode := .move }.moveSample vv
  | .move => p.moveSample vv

/-! ### The output stage (R154) -/

/-- Samples that the output stage needs beyond the first for a profile time of `theta`. -/
def needed (theta : Nat) : Nat := theta / 32768 + 2

/-- The pair of samples between which the entry of profile time `theta` is formed, the samples from there onward, and whether
the entry carries the sample that ends the plan (R154, R159). -/
def outStage (l : List Sample) (theta : Nat) : Sample × Sample × Nat × List Sample × Bool :=
  let j := theta / 32768
  match ((l.drop 1).take j).find? fun q => q.ends with
  | some q => (q, q, 0, [q], true)
  | none =>
    match l.drop j with
    | a :: b :: r => (a, b, theta % 32768, a :: b :: r, false)
    | [a] => (a, a, 0, [a], false)
    | [] => match l.getLast? with
      | some a => (a, a, 0, [a], false)
      | none => ({}, {}, 0, [], false)

/-- The interpolation of the output stage (R154). -/
def blend (a b : Int) (phi : Nat) : Int := a + rsh ((b - a) * phi) 15

/-- A sample that this pick takes up lies beyond a position limit in its direction of motion: false POS_MIN, true POS_MAX
(R163). -/
def beyond (l : List Sample) (theta : Nat) (lo hi : Int) : Option Bool :=
  (((l.drop 1).take ((theta + 32767) / 32768)).find? fun q =>
    (decide (0 < q.v) && decide (hi < q.x)) || (decide (q.v < 0) && decide (q.x < lo))).map fun q => decide (0 < q.v)

/-! ### Segment tables (R167) -/

/-- The segment run after its present segment has ended: jump while the counter lasts, or always when LOOPS is 0; otherwise
fall through (R166, R167). `none` after the last segment. -/
def SegRun.advance (r : SegRun) (t : List Segment) : Option SegRun :=
  let g := t.getD r.idx {}
  let c := r.loops.getD r.idx 0
  let enter := fun (i : Nat) (loops : List Nat) =>
    if i < t.length then some { r with idx := i, left := (t.getD i {}).picks, loops := loops } else none
  if g.jump && decide (g.loops = 0) then enter g.next r.loops
  else if g.jump && decide (0 < c) then enter g.next (r.loops.set r.idx (c - 1))
  else enter (r.idx + 1) (r.loops.set r.idx g.loops)

/-- The segment run at the start of a table (R167). -/
def SegRun.start (slot : Fin 8) (t : List Segment) : SegRun :=
  { slot := slot, idx := 0, left := (t.getD 0 {}).picks, loops := t.map fun g => g.loops }

/-- One sample of a segment table: dv is added to v and then step(v) to x (R167). -/
def segSample (p : Planner) (r : SegRun) (t : List Segment) (vv : Nat) : Planner × SegRun × Sample :=
  let g := t.getD r.idx {}
  let dv := sat64 ((g.acc * vv).tdiv stepDiv)
  let v := sat64 (p.v + dv)
  let st := stepRem v vv p.rem
  let q := { p with v := v, dir := 1, x := sat64 (p.x + st.1), rem := st.2 }
  let phase : BitVec 3 := if dv = 0 then 2#3 else if 0 ≤ dv * v then 1#3 else 3#3
  let smp : Sample := { x := q.x, v := v, phase := phase, neg := decide (v < 0) }
  if 1 < r.left then (q, { r with left := r.left - 1 }, smp)
  else match r.advance t with
    | some r' => (q, r', smp)
    | none => ({ q with mode := .idle }, { r with left := 0 }, { smp with ends := true })

/-! ### The samples of an axis -/

/-- The next sample of an axis is computed and queued (R153). -/
def PgAxis.sample (p : PgAxis) (vv : Nat) (slots : Vector (Option (List Segment)) 8) : PgAxis :=
  if p.done then p
  else if p.pl.mode = .seg then
    let r := segSample p.pl p.seg ((slots[p.seg.slot]).getD []) vv
    { p with pl := r.1, seg := r.2.1, samples := p.samples ++ [r.2.2], done := r.2.2.ends }
  else
    let r := p.pl.next vv
    { p with pl := r.1, samples := p.samples ++ [r.2], done := r.2.ends }

/-- Samples are computed until `n` stand queued or the plan has ended. -/
def PgAxis.fill (vv : Nat) (slots : Vector (Option (List Segment)) 8) (n : Nat) : Nat → PgAxis → PgAxis
  | 0, p => p
  | fuel + 1, p => if p.done || decide (n ≤ p.samples.length) then p else PgAxis.fill vv slots n fuel (p.sample vv slots)

/-- Samples ahead of profile time (PG_STATUS_a.AHEAD). -/
def PgAxis.ahead (p : PgAxis) : Nat := p.samples.length - 1

/-- The planner restarts: its samples are discarded and the state of the last entry is sample 0 (R155). -/
def PgAxis.restart (p : PgAxis) : PgAxis :=
  { p with samples := [{ x := p.lastX, v := p.lastV, phase := p.phase, neg := p.neg }], phi := 0, done := false }

/-- Values deferred to the next move or stop are applied (R161, R162). -/
def PgAxis.merge (p : PgAxis) : PgAxis :=
  { p with param := p.deferred.foldl (fun v d => updN v d.1 fun _ => d.2) p.param, deferred := [] }

/-- The planner replans toward the target in force, or the stop in force, from the state of the last entry (R155, R158). -/
def PgAxis.replan (p : PgAxis) (vv : Nat) : PgAxis :=
  let k := p.limits.plan vv
  { p.restart with
    pl := if p.src = .stop || p.armBrake then Planner.startStop k p.lastX p.lastV p.quick
          else Planner.startMove k vv p.lastX p.lastV p.target }

/-- The axis holds at `x` (R155). -/
def PgAxis.toHold (p : PgAxis) (x : Int) : PgAxis :=
  { p with
    src := .hold, hold := x, lastX := x, lastV := 0, samples := [], phi := 0, done := true, pl := {}, w := none,
    stopMode := false, quick := false, safety := false, armBrake := false, inArm := none, phase := 0#3,
    home := {}, gear := {} }

/-- The axis has no set-point source (R33, R155). -/
def PgAxis.release (p : PgAxis) : PgAxis :=
  { p with
    src := .none, samples := [], phi := 0, done := true, pl := {}, w := none, entry := none, stopMode := false, quick := false,
    safety := false, armBrake := false, inArm := none, phase := 0#3, home := {}, gear := {} }

end Sys2Proof.Machine
end

