-- ==== Sys2Proof/Machine/Axes.lean ====
section
/-! DEFINITION. Changes of axis state, the starts and ends of motion, and the shift of an axis's positions (R33, R34, R115,
R157 to R174). -/
namespace Sys2Proof.Machine

/-- The effective scale of the axis's group (R175). -/
def State.sigmaOf (s : State) (a : Fin 80) : Nat :=
  if h : 64 ≤ a.val then s.pg.auxSigma[a.val - 64]
  else match s.safeArm a with
    | some r => s.pg.sigma[r]
    | none => if h : a.val < 64 then s.pg.freeSigma[a.val] else 0

/-- The Selvedge scale that acts on the axis's ramp: 32,768 for an auxiliary axis, 0 for a joint axis that no arm in use of the
sealed image owns (R137). -/
def State.rampScale (s : State) (a : Fin 80) : Int :=
  if 64 ≤ a.val then 32768
  else match s.safeArm a with
    | some r => ((s.sv.armPub[r]).scale.toNat : Int)
    | none => 0

/-- The axis leaves the arm move it takes part in; the other axes continue (R165, R469). -/
def State.leaveArm (s : State) (a : Fin 80) : State :=
  match (s.pax a).inArm with
  | none => s
  | some r =>
    let s1 := s.modPax a fun p => { p with inArm := none, armBrake := false }
    { s1 with pg.mv := upd s1.pg.mv r fun m => m.bind fun m =>
        let keep := (m.axes.zip (m.x0.zip m.targets)).filter fun q => decide (q.1 ≠ a)
        if keep.isEmpty then none
        else some { m with axes := keep.map fun q => q.1, x0 := keep.map fun q => q.2.1, targets := keep.map fun q => q.2.2 } }

/-- A single axis starts a stop ramp from its present real speed (R162); an axis under MPC starts it from the interpolated entry
it last used. -/
def State.stopAxis (s : State) (a : Fin 80) (quick safety : Bool) : State :=
  let sg := (s.sigmaOf a : Int)
  let vv := s.pickV
  let l := s.slice a
  let s1 := s.leaveArm a
  (s1.modPax a fun p =>
    let mpc := decide (p.src = .mpcRef) && l.usedMpc
    let v := if mpc then l.usedV else if p.stopMode || p.src = .gear then p.lastV else rsh (p.lastV * sg) 15
    ({ p.merge with
        lastX := if mpc then l.usedX else p.lastX, lastV := v, w := none, src := .stop, quick := quick, stopMode := true, safety := p.safety || safety, gear := {},
        home := {} }).replan vv).modAxis a fun x => { x with state := .stopping }

/-- The slaves of a master that enters DISABLED or FAULT take a quick stop (R171). -/
def State.loseMaster (s : State) (a : Fin 80) : State :=
  s.forEach ((fins 80).filter fun b => decide ((s.axis b).state = .geared) && decide ((s.pax b).gear.master = a)) fun s b =>
    ((s.stopAxis b true false).pgSet b 4).emit 12 0x003#12 [nat32 b.val 0 ||| nat32 a.val 8]

/-- An axis enters a state (R33): its mapped channels go to NORMAL when it starts to move (R118), and an axis that enters
DISABLED or FAULT loses its set-point source and its slaves (R171). -/
def State.setAxis (s : State) (a : Fin 80) (st : AxisState) : State :=
  let s1 := s.modAxis a fun x => { x with state := st, selFault := false }
  match st with
  | .moving => if (s.axis a).state = .moving then s1 else s1.modeAuto a
  | .homing => if (s.axis a).state = .homing then s1 else s1.modeAuto a
  | .geared => if (s.axis a).state = .geared then s1 else s1.modeAuto a
  | .disabled => ((s1.leaveArm a).modPax a PgAxis.release).loseMaster a
  | .fault => ((s1.leaveArm a).modPax a PgAxis.release).loseMaster a
  | _ => s1

/-- The axis enters FAULT (R33); an axis that is in FAULT stays there. -/
def State.faultAxis (s : State) (a : Fin 80) : State :=
  if (s.axis a).state = .fault then s else s.setAxis a .fault

/-- The axis holds at `x` in HOLDING (R33). -/
def State.holdAxis (s : State) (a : Fin 80) (x : Int) : State :=
  ((s.leaveArm a).modPax a fun p => p.toHold x).setAxis a .holding

/-- The positions of an axis are shifted by `d` 2^-16 counts: the counts of its mapped channels by whole counts and POS_OFF by
the rest, or POS_OFF by all of it for a drive frame (R115, R131, R141). -/
def State.shiftAxis (s : State) (a : Fin 80) (d : Int) : State :=
  let l := s.slice a
  if l.src then s.modSlice a fun l => { l with posOff := l.posOff + d, xm := l.xm + d }
  else
    let tot := l.posOff + d
    let n := tot / 65536
    ((s.forEach (s.mapped a) fun s c => s.shiftChannel c n)).modSlice a fun l =>
      { l with posOff := tot % 65536, xm := l.xm + d }

/-- The commanded positions of an axis shifted with it: the ramp, the holding position and the entries (R141). -/
def State.shiftCommand (s : State) (a : Fin 80) (d : Int) : State :=
  (s.modSlice a fun l => { l with xr := l.xr + d }).modPax a fun p =>
    { p with
      hold := p.hold + d, lastX := p.lastX + d, samples := p.samples.map fun q => { q with x := q.x + d }
      entry := p.entry.map fun e => { e with x := e.x + d } }

/-- The target in force: the holding position in HOLDING (R157). -/
def PgAxis.inForce (p : PgAxis) : Int :=
  match p.src with
  | .hold => p.hold
  | .none => p.lastX
  | _ => p.target

/-- The target in force of an axis, that of the arm move when it takes part in one (R157). -/
def State.targetOf (s : State) (a : Fin 80) : Int :=
  match (s.pax a).inArm with
  | some r => match s.pg.mv[r] with
    | some m => ((m.axes.zip m.targets).find? fun q => decide (q.1 = a)).elim (s.pax a).inForce fun q => q.2
    | none => (s.pax a).inForce
  | none => (s.pax a).inForce

/-- A move to `target` starts on an axis (R155, R157, R160). -/
def State.startMove (s : State) (a : Fin 80) (target : Int) (w : Option (Int × Int × Int)) : State :=
  let vv := s.pickV
  ((s.leaveArm a).modPax a fun p =>
    ({ p.merge with
        src := .move, target := target, w := w, stopMode := false, safety := false, quick := false, armBrake := false }).replan
      vv).setAxis a .moving

/-- A segment table starts on an axis from its holding position (R167). -/
def State.startSeg (s : State) (a : Fin 80) (slot : Fin 8) : State :=
  let t := (s.pg.slot[slot]).getD []
  (s.modPax a fun p =>
    { p.merge.restart with
      src := .seg, w := none, stopMode := false, safety := false, quick := false, seg := SegRun.start slot t
      pl := { mode := .seg, x := p.lastX, v := 0 } }).setAxis a .moving

/-- A stop of the whole arm acts on the normalised coordinate of its arm move; all its axes enter STOPPING (R469). -/
def State.stopArmMove (s : State) (r : Fin 8) (quick safety : Bool) : State :=
  match s.pg.mv[r] with
  | none => s
  | some m =>
    let sg := match m.axes with
      | a :: _ => (s.sigmaOf a : Int)
      | [] => 32768
    let ud := if m.stopMode then m.lastUd else rsh (m.lastUd * sg) 15
    let m' : ArmMove := { m with
      pl := Planner.startStop m.pl.k m.lastU ud quick, samples := [{ x := m.lastU, v := ud }], phi := 0, done := false,
      lastUd := ud, stopMode := true }
    ({ s with pg.mv := upd s.pg.mv r fun _ => some m' }).forEach m.axes fun s a =>
      (s.modPax a fun p => { p.merge with src := .stop, quick := quick, stopMode := true, safety := p.safety || safety }).modAxis a
        fun x => { x with state := .stopping }

/-- AXIS.STOP on an axis at its effect pick: it acts in MOVING, HOMING and GEARED (R81, R162). -/
def State.effectStop (s : State) (a : Fin 80) (quick safety : Bool) : State :=
  match (s.axis a).state with
  | .moving => s.stopAxis a quick safety
  | .homing => s.stopAxis a quick safety
  | .geared => s.stopAxis a quick safety
  | .stopping => if safety then s.stopAxis a true true else s
  | _ => s

/-- ARM.STOP, or a stop of the arm that Selvedge demands, at its effect pick (R79, R162, R469). -/
def State.effectArmStop (s : State) (r : Fin 8) (quick safety : Bool) : State :=
  let mv : List (Fin 80) := (s.pg.mv[r]).elim [] fun m => if m.synced then m.axes else []
  let s1 := if mv.isEmpty then s else s.stopArmMove r quick safety
  s1.forEach ((s.armAxes r).filter fun a => !mv.contains a) fun s a => s.effectStop a quick safety

/-- An axis comes to rest at `x` at the end of a stop: FAULT after a failed search, DISABLED after a category 1 stop, HOLDING
otherwise (R34, R162, R174). -/
def State.stopEnded (s : State) (a : Fin 80) (x : Int) : State :=
  let p := s.pax a
  if p.home.failed then s.faultAxis a
  else if p.safety && decide (s.stopOf a = some 1) then s.setAxis a .disabled
  else s.holdAxis a x

/-- A move or a segment table ended at `x` (R159, R167). -/
def State.moveEnded (s : State) (a : Fin 80) (x : Int) : State :=
  if (s.pax a).src = .mpcRef then s.modPax a fun p => { p with hold := x, done := true, samples := [], phi := 0, pl := {}, phase := 0#3 }
  else (s.holdAxis a x).pgSet a 8

end Sys2Proof.Machine
end

