-- ==== Sys2Proof/Machine/Feedback.lean ====
section
/-! DEFINITION. The commands of the feedback interface: edges, SSI words, faults, pulses, configuration writes and reads
(05_feedback.md). -/
namespace Sys2Proof.Machine

/-- The outcome of a command: always a next state. -/
abbrev Res := Host.Outcome State Fault Refusal

/-- PD9 is powered, so the feedback registers are accessible (R418). -/
def axisUp (s : State) : Bool := (s.domain 9).up

/-- Sticky bits that a channel fault of each cause sets beside CH_FAULT (R114, R129). -/
def faultSticky : BitVec 4 → Nat
  | 0#4 => 4 | 1#4 => 3 | 2#4 => 5 | 3#4 => 7 | _ => 8

/-- A channel fault: RECOVERY, VALID 0, CH_FAULT with its cause, the record, and the mapped axis to FAULT (R114, R129). -/
def State.channelFault (s : State) (c : Fin 96) (cause : BitVec 4) : State :=
  let h := s.ch c
  let s1 := s.modCh c fun h => { h with mode := .recovery, latch := { h.latch with valid := false }, p := none, lastSame := false }
  let s2 := ((s1.fbSet c 2).fbSet c (faultSticky cause)).emit 10 0x001#12
    [nat32 c.val 0 ||| at32 cause 8 ||| at32 h.axis 16 ||| bitAt h.mapped 23, int32 h.raw]
  if h.mapped then s2.faultAxis (Fin.ofNat 80 h.axis.toNat) else s2

/-- A raw edge of sign `d` at time `t`: the raw count changes, the trace is written and the reported count follows; a count that
would pass ±(2^47 − 1) is a channel fault instead (R106, R114, R117, R127). -/
def State.rawEdge (s : State) (c : Fin 96) (d : Int) (t : Nat) : State :=
  let h := s.ch c
  if posMax < h.raw + d ∨ h.raw + d < -posMax then s.channelFault c 4#4
  else
    let s1 := (s.modCh c fun h => { h with raw := h.raw + d, rawE := t }).trace c (if d < 0 then 1#2 else 0#2) (h.raw + d) t
    s1.follow c d t

/-- Edge time of a level change accepted in this tick (R109). -/
def edgeTime (s : State) (c : Fin 96) : Nat :=
  let h := s.ch c
  s.now - (h.filt.toNat + 2) * 8 - (if h.inmode = 4#3 then h.debounce.toNat * 1000 else 0)

/-- Sign of a quadrature transition of A (`onA`) or of B to a new level: +1 when A leads B (R106). -/
def quadSign (onA : Bool) (a b : Bool) : Int :=
  if onA then (if a != b then 1 else -1) else (if a == b then 1 else -1)

/-- Sign of a magnetic switch activation: that of the set-point speed of the mapped axis, or of its last non-zero one (R106). -/
def switchSign (s : State) (c : Fin 96) : Int :=
  let h := s.ch c
  if h.mapped then (s.pax (Fin.ofNat 80 h.axis.toNat)).spDir else 1

/-- The count of a level change on a channel: its sign, or the fault or cancellation that takes its place (R106, R110). -/
inductive EdgeKind where
  /-- no count -/
  | none
  /-- one count -/
  | count (d : Int)
  /-- up and down pulses cancel -/
  | coincident
  /-- A and B change together in quadrature -/
  | illegal
  deriving DecidableEq, Repr

/-- What new levels of A and B, where they change, count for (R106, R110). -/
def edgeKind (s : State) (c : Fin 96) (a b : Option Bool) : EdgeKind :=
  let h := s.ch c
  let ra := decide (a = some true) && !h.levelA
  let rb := decide (b = some true) && !h.levelB
  let ca := decide (a = some (!h.levelA))
  let cb := decide (b = some (!h.levelB))
  match h.inmode with
  | 1#3 =>
    let bBefore := if s.now < h.bTime + 16 then !h.levelB else h.levelB
    if ra then .count (if bBefore then -1 else 1) else .none
  | 2#3 => if ra && rb then .coincident else if ra then .count 1 else if rb then .count (-1) else .none
  | 3#3 =>
    if ca && cb then .illegal
    else if ca then .count (quadSign true (!h.levelA) h.levelB)
    else if cb then .count (quadSign false h.levelA (!h.levelB))
    else .none
  | 4#3 => if ra then .count (switchSign s c) else .none
  | _ => .none

/-- FB_EDGE (R106, R109, R110, R117): a level change accepted at the inputs of a channel is registered and counted. -/
def execFbEdge (c : Fin 96) (a b : Option Bool) (s : State) : Res :=
  let h := s.ch c
  if s.domain 9 = .run then
    let k := edgeKind s c a b
    let s1 := s.modCh c fun h =>
      { h with
        levelA := a.getD h.levelA, levelB := b.getD h.levelB
        bTime := if b = some (!h.levelB) then s.now else h.bTime }
    match k with
    | .none => .next s1
    | .count d => .next (if h.wireCond then s1 else s1.rawEdge c (if h.invDir then -d else d) (edgeTime s c))
    | .coincident => .next (s1.fbSet c 11)
    | .illegal => .next (s1.channelFault c 1#4)
  else .next s

/-- TRIG_PULSE_END (R126): the oldest pulse of an output ends; the output goes inactive when no pulse holds it. -/
def execTrigPulseEnd (t : Fin 8) (s : State) : Res :=
  let g := s.fb.trig[t]
  match g.pulses.min? with
  | none => .next s
  | some e =>
    let s1 := s.reach e
    let left := g.pulses.filter fun x => decide (s1.now < x)
    let s2 := { s1 with fb.trig := upd s1.fb.trig t fun g => { g with pulses := left } }
    .next (if left.isEmpty then s2.driveTrig t false else s2)

/-- SSI_TRANSFER_START (R111, R113): the clock of an SSI channel starts; a start that falls before the end of the previous
transfer waits for that end. -/
def execSsiTransferStart (c : Fin 96) (s : State) : Res :=
  let h := s.ch c
  if s.domain 9 = .run && decide (h.inmode = 5#3) && s.tb.running then
    if h.ssiStart.isSome then .next (s.modCh c fun h => { h with ssiAgain := true })
    else
      let s1 := s.modCh c fun h => { h with ssiStart := some (s.now, s.tb.pickNum + 1#32) }
      .next { s1 with out := .ssi c.val :: s1.out }
  else .next s

/-- The bits of a Gray-coded word turned into binary, from bit `n` − 1 downward (R111). -/
def grayDecode (w : Nat) : Nat → Nat → Nat → Nat
  | 0, _, acc => acc
  | n + 1, prev, acc =>
    let b := (w / 2 ^ n + prev) % 2
    grayDecode w n b (acc + b * 2 ^ n)

/-- Parity of a number's low `n` bits. -/
def parityBit (w : Nat) : Nat → Nat
  | 0 => 0
  | n + 1 => (w / 2 ^ n + parityBit w n) % 2

/-- The step of a good word against the last one over `n` bits: none at exactly half the range (R113). -/
def ssiStep (n w prev : Nat) : Option Int :=
  let d := (w + 2 ^ n - prev) % 2 ^ n
  if d < 2 ^ (n - 1) then some d
  else if d = 2 ^ (n - 1) then none
  else some ((d : Int) - 2 ^ n)

/-- A bad SSI word is discarded and counted; the third in a row is a channel fault that persists (R112, R114). -/
def State.ssiBad (s : State) (c : Fin 96) : State :=
  let n := (s.ch c).ssiRun + 1
  let s1 := (s.modCh c fun h => { h with errBad := satInc h.errBad, ssiRun := n }).fbSet c 5
  if n = 3 then (s1.modCh c fun h => { h with ssiCond := true }).channelFault c 2#4 else s1

/-- The condition of a channel fault has ended: the edge history is cleared at this instant (R114). -/
def State.conditionEnd (s : State) (c : Fin 96) : State := s.modCh c fun h => { h.clearHistory s.now with wireCond := false, ssiCond := false }

/-- A good SSI word with value `w` and sample time `t` (R113, R117, R119, R127). -/
def State.ssiGood (s : State) (c : Fin 96) (w t : Nat) (rtd : Nat) : State :=
  let s0 := if (s.ch c).ssiCond then s.conditionEnd c else s
  let h := s0.ch c
  let s1 := s0.modCh c fun h => { h with rtd := BitVec.ofNat 11 rtd, ssiRun := 0, wPrev := some w }
  match h.wPrev with
  | none =>
    let s2 := (s1.modCh c fun h => { h with raw := w, ssiPrevTime := t }).trace c 3#2 w t
    s2.reportEdge c w h.dir t 1
  | some prev =>
    match ssiStep h.bits.toNat w prev with
    | none => s1
    | some d =>
      if posMax < h.raw + d ∨ h.raw + d < -posMax then s1.channelFault c 4#4
      else
        let s2 := s1.modCh c fun h =>
          if d = 0 then h
          else
            { h with
              raw := h.raw + d, rawE := t
              p := if 0 < d * h.ssiPrevStep ∧ ¬ h.tss.toNat * 1000000 ≤ t - h.e then some (t - h.ssiPrevTime) else none
              cnt := d.natAbs, ssiPrevStep := d, ssiPrevTime := t }
        let s3 := s2.trace c 3#2 (h.raw + d) t
        if d = 0 then s3 else s3.follow c d t

/-- SSI_WORD (R111 to R113): the word of a transfer is complete; a bad word is discarded, a good one moves the count. -/
def execSsiWord (c : Fin 96) (raw : BitVec 40) (par startLow : Bool) (rtd : Option (BitVec 16)) (s : State) : Res :=
  let h := s.ch c
  match h.ssiStart with
  | none => .next s
  | some (t0, forPick) =>
    if s.domain 9 = .run && decide (h.inmode = 5#3) then
      let n := h.bits.toNat
      let pos := raw.toNat % 2 ^ n
      let w := if h.gray then grayDecode pos n 0 0 else pos
      let delay : Nat := (rtd.map fun r => r.toNat).getD 0
      let parBad :=
        (decide (h.parity = 1#2) && decide ((parityBit pos n + par.toNat) % 2 ≠ 0)) ||
        (decide (h.parity = 2#2) && decide ((parityBit pos n + par.toNat) % 2 ≠ 1))
      let step := match h.wPrev with
        | some prev => ssiStep n w prev
        | none => some 0
      let jump := decide (h.jumpMax ≠ 0#16) && (match step with
        | some d => decide (h.jumpMax.toNat < d.natAbs)
        | none => decide (h.jumpMax.toNat < 2 ^ (n - 1)))
      let bad := startLow || rtd.isNone || decide (2000 < delay) || parBad || jump
      let s1 := s.modCh c fun h =>
        { h with
          ssiStart := if h.ssiAgain then some (s.now, s.tb.pickNum + 1#32) else none, ssiAgain := false }
      let s2 := if h.ssiAgain then { s1 with out := .ssi c.val :: s1.out } else s1
      let late := !newer forPick s.tb.pickNum
      let s3 := if late then (s2.modCh c fun h => { h with errLate := satInc h.errLate }).fbSet c 6 else s2
      if bad then .next (s3.ssiBad c)
      else if step.isNone then .next (s3.channelFault c 3#4)
      else .next (s3.ssiGood c w (t0 + delay / 2) delay)
    else .next s

/-- WIRE_FAULT (R114): an input pair stays below the fail-safe threshold for 1 µs. -/
def execWireFault (c : Fin 96) (s : State) : Res :=
  let h := s.ch c
  if s.domain 9 = .run && decide (h.inmode ≠ 0#3) && !h.wireCond then
    .next ((s.modCh c fun h => { h with wireCond := true }).channelFault c 0#4)
  else .next s

/-- FAULT_CONDITION_END (R114): the persisting condition of a channel fault ends. -/
def execFaultConditionEnd (c : Fin 96) (s : State) : Res :=
  if s.domain 9 = .run && (s.ch c).cond then .next (s.conditionEnd c) else .next s

/-- FB_CFG_WRITE (R107): INMODE 6 or 7, SSI on a channel above 31 and an AXIS above 79 are ignored. -/
def execFbCfgWrite (c : Fin 96) (v : BitVec 32) (s : State) : Res :=
  let mode := field v 0 3
  let bad := decide (6 ≤ mode.toNat) || (decide (mode = 5#3) && decide (32 ≤ c.val)) || decide (79 < (field v 10 7).toNat)
  .next (s.fbConfig c bad fun h => { h with cfgNext := some v })

/-- FB_TIMING_WRITE (R107): T_SS from 1 to 1,000 ms. -/
def execFbTimingWrite (c : Fin 96) (v : BitVec 32) (s : State) : Res :=
  let tss := (field v 0 10).toNat
  .next (s.fbConfig c (decide (tss = 0) || decide (1000 < tss)) fun h => { h with timingNext := some v })

/-- FB_SSI_WRITE (R107, R111): DIV 120 to 12,000, PARITY 0 to 2, BITS 8 to 40. -/
def execFbSsiWrite (c : Fin 96) (v : BitVec 32) (s : State) : Res :=
  let div := (field v 10 14).toNat
  let bits := (field v 0 6).toNat
  let bad := decide (div < 120) || decide (12000 < div) || decide (field v 6 2 = 3#2) || decide (bits < 8) || decide (40 < bits)
  .next (s.fbConfig c bad fun h => { h with ssiNext := some v })

/-- FB_SSI_LEAD_WRITE (R107). -/
def execFbSsiLeadWrite (c : Fin 96) (v : BitVec 32) (s : State) : Res :=
  .next (s.fbConfig c false fun h => { h with leadNext := some v })

/-- FB_TRIG_CFG_WRITE (R126): a width of 0 is ignored and sets TRIG_REJ. -/
def execFbTrigCfgWrite (t : Fin 8) (v : BitVec 32) (s : State) : Res :=
  if !axisUp s then .next s
  else if field v 0 16 = 0#16 then .next { s with fb.trigRej := true }
  else .next { s with fb.trig := upd s.fb.trig t fun g => { g with width := field v 0 16, pol := bit v 16 } }

/-- FB_TRACE_W0_READ (R127): the oldest entry is popped and its words captured; an empty buffer reads 0. -/
def execFbTraceW0Read (s : State) : Res :=
  if !axisUp s then .next { s with rdata := [0#32] }
  else match s.fb.trace with
    | e :: r => .next { s with fb.trace := r, fb.traceCap := e, rdata := [e[0]] }
    | [] => .next { s with fb.traceCap := Vector.replicate 4 0#32, rdata := [0#32] }

/-- TRACE_CLR: FB_TRACE_CTRL.CLR empties the buffer. -/
def execTraceClr (s : State) : Res := if axisUp s then .next { s with fb.trace := [] } else .next s

/-- A signed number as 64 bits. -/
def int64 (v : Int) : BitVec 64 := BitVec.ofInt 64 v

/-- FB_POS_LO_READ: returns x_k[31:0] and captures POS_HI, SPEED and EDGE of the same pick (R122). -/
def execFbPosLoRead (c : Fin 96) (s : State) : Res :=
  if !axisUp s then .next { s with rdata := [0#32] }
  else
    let l := (s.ch c).latch
    .next { s.modCh c fun h =>
      { h with cap := some ((int64 l.x >>> 32).setWidth 32, int64 l.v, BitVec.ofNat 64 l.e) } with rdata := [int32 l.x] }

end Sys2Proof.Machine
end

