-- ==== Sys2Proof/Machine/ReedGeometry.lean ====
section
/-! DEFINITION. The geometry of Reed: exact distances between a segment and a box, capsules, occupancy frames, the distance field
and the bounds of both channels (R224, R225, R229, R233, R236 to R242). -/
namespace Sys2Proof.Machine

/-! ### Exact distances -/

/-- A point with whole coordinates in mm. -/
abbrev P3 := Int × Int × Int

/-- The three coordinates of a point. -/
def coords (p : P3) : List Int := [p.1, p.2.1, p.2.2]

/-- One axis of a segment against one axis of a box: start, direction, low and high side. -/
abbrev AxisSpan := Int × Int × Int × Int

/-- The segment from `p` to `q` against the box [lo, hi], axis by axis. -/
def spans (p q lo hi : P3) : List AxisSpan :=
  (coords p).zip ((coords q).zip ((coords lo).zip (coords hi))) |>.map fun x => (x.1, x.2.1 - x.1, x.2.2.1, x.2.2.2)

/-- The squared distance along one axis from the point at parameter `t`. -/
def spanSq (t : Rat) (a : AxisSpan) : Rat :=
  let x : Rat := a.1 + t * a.2.1
  if x < a.2.2.1 then (a.2.2.1 - x) * (a.2.2.1 - x) else if (a.2.2.2 : Rat) < x then (x - a.2.2.2) * (x - a.2.2.2) else 0

/-- The squared distance of the segment's point at `t` from the box. -/
def distSqAt (l : List AxisSpan) (t : Rat) : Rat := (l.map fun a => spanSq t a).sum

/-- Parameters at which a coordinate of the segment crosses a side of the box. -/
def crossings (l : List AxisSpan) : List Rat :=
  l.flatMap fun a => if a.2.1 = 0 then [] else [((a.2.2.1 - a.1 : Int) : Rat) / a.2.1, ((a.2.2.2 - a.1 : Int) : Rat) / a.2.1]

/-- For each choice, on every axis, of the low side, the high side or the inside, the parameter at which the squared distance to
the chosen sides is stationary. -/
def stationaries : List AxisSpan → Int → Int → List Rat
  | [], num, den => if den = 0 then [] else [(num : Rat) / den]
  | a :: r, num, den =>
    stationaries r num den ++ stationaries r (num + a.2.1 * (a.2.2.1 - a.1)) (den + a.2.1 * a.2.1) ++
      stationaries r (num + a.2.1 * (a.2.2.2 - a.1)) (den + a.2.1 * a.2.1)

/-- The squared distance between a segment and a closed box, exact: the squared distance along the segment is convex and piecewise
quadratic, so its minimum lies at an end, at a crossing or at a stationary point. -/
def segBoxSq (p q lo hi : P3) : Rat :=
  let l := spans p q lo hi
  ((crossings l ++ stationaries l 0 0).filter fun t => decide (0 ≤ t) && decide (t ≤ 1)).foldl
    (fun m t => min m (distSqAt l t)) (min (distSqAt l 0) (distSqAt l 1))

/-- ⌊√q⌋ of a rational that is not negative. -/
def ratSqrt (q : Rat) : Nat := isqrt q.floor.toNat

/-- The smallest k with k² ≥ n. -/
def ceilSqrt (n : Nat) : Nat := if isqrt n * isqrt n = n then isqrt n else isqrt n + 1

/-! ### Capsules (R233) -/

/-- A signed coordinate of a capsule. -/
def capCoord (q : Vector (BitVec 32) 8) (i : Fin 8) : Int := (q[i]).toInt
/-- P0. -/
def capP0 (q : Vector (BitVec 32) 8) : P3 := (capCoord q 0, capCoord q 1, capCoord q 2)
/-- P1. -/
def capP1 (q : Vector (BitVec 32) 8) : P3 := (capCoord q 3, capCoord q 4, capCoord q 5)
/-- RADIUS. -/
def capRadius (q : Vector (BitVec 32) 8) : Nat := (field q[6] 0 16).toNat
/-- USED. -/
def capUsed (q : Vector (BitVec 32) 8) : Bool := bit q[6] 16
/-- The squared length of the segment. -/
def capLenSq (q : Vector (BitVec 32) 8) : Int := ((coords (capP0 q)).zipWith (fun a b => (a - b) * (a - b)) (coords (capP1 q))).sum

/-- The reason of a capsule error: 0 length, 1 radius, 2 reserved bit (R233, R246). -/
def capErr (q : Vector (BitVec 32) 8) : Option Nat :=
  if !capUsed q then none
  else if 16000000 < capLenSq q then some 0
  else if 2000 < capRadius q then some 1
  else if field q[6] 17 15 ≠ 0#15 ∨ q[7] ≠ 0#32 then some 2
  else none

/-- The capsule masks and is queried: it exists and is not in error. -/
def capGood (c : Vector (BitVec 32) 8) : Bool := capUsed c && (capErr c).isNone

/-! ### The grid (R224) -/

/-- The grid as the registers give it. -/
structure Grid where
  /-- NX -/
  nx : Nat
  /-- NY -/
  ny : Nat
  /-- NZ -/
  nz : Nat
  /-- e, mm -/
  e : Nat
  /-- OX, OY, OZ, mm -/
  o : P3
  deriving DecidableEq, Repr

/-- The grid in the registers. -/
def Reed.grid (r : Reed) : Grid :=
  { nx := 8 * r.cx.toNat, ny := 8 * r.cy.toNat, nz := 8 * r.cz.toNat, e := r.edge.toNat
    o := ((r.org[0]).toInt, (r.org[1]).toInt, (r.org[2]).toInt) }

/-- The grid satisfies R224. -/
def Reed.gridOk (r : Reed) : Bool :=
  let c := [r.cx.toNat, r.cy.toNat, r.cz.toNat]
  c.all (fun n => decide (1 ≤ n) && decide (n ≤ 128) && decide (8 * n * r.edge.toNat ≤ 65535)) &&
  decide (r.cx.toNat * r.cy.toNat * r.cz.toNat ≤ 16384) && decide (10 ≤ r.edge.toNat) && decide (r.edge.toNat ≤ 100)

/-- Voxels of the grid. -/
def Grid.count (g : Grid) : Nat := g.nx * g.ny * g.nz
/-- The coordinates of voxel `v`. -/
def Grid.xyz (g : Grid) (v : Nat) : Nat × Nat × Nat := (v % g.nx, v / g.nx % g.ny, v / (g.nx * g.ny))

/-- The corner of the voxel with indices `p`, in mm. -/
def Grid.corner (g : Grid) (p : Nat × Nat × Nat) : P3 :=
  (g.o.1 + p.1 * g.e, g.o.2.1 + p.2.1 * g.e, g.o.2.2 + p.2.2 * g.e)

/-- The closed box of `k` voxels per side from indices `p`: both corners. -/
def Grid.cube (g : Grid) (p : Nat × Nat × Nat) (k : Nat) : P3 × P3 :=
  (g.corner p, g.corner (p.1 + k, p.2.1 + k, p.2.2 + k))

/-- Both corners of the grid box. -/
def Grid.box (g : Grid) : P3 × P3 := (g.corner (0, 0, 0), g.corner (g.nx, g.ny, g.nz))

/-- The distance of a segment to the outside of the grid box, 0 when any part of it lies outside (R225, R241). The distance of an
inner point to a face is linear along the segment, so the smallest lies at an end. -/
def Grid.toOutside (g : Grid) (p q : P3) : Nat :=
  let b := g.box
  let m := fun (x : P3) => ((coords x).zip ((coords b.1).zip (coords b.2))).foldl
    (fun m a => min m (min (a.1 - a.2.1) (a.2.2 - a.1))) (65535 : Int)
  (min (m p) (m q)).toNat

/-- A part of the segment lies outside the grid (R225). -/
def Grid.leaves (g : Grid) (p q : P3) : Bool :=
  let b := g.box
  let out := fun (x : P3) => ((coords x).zip ((coords b.1).zip (coords b.2))).any fun a => decide (a.1 < a.2.1) || decide (a.2.2 < a.1)
  out p || out q

/-! ### Occupancy frames (R229, R230) -/

/-- The first byte of staging slot `j` of sensor `s` (R228). -/
def stageBase (s : Fin 8) (j : Fin 3) : Nat := 0xC00000 + (3 * s.val + j.val) * 0x14000

/-- Word `n` of the frame in a staging slot. -/
def frameWord (m : List Host.Cell) (s : Fin 8) (j : Fin 3) (n : Nat) : BitVec 32 := BitVec.ofNat 32 (memNat m (stageBase s j + 4 * n) 4)

/-- The lower corner of the reported box. -/
def frameLow (m : List Host.Cell) (s : Fin 8) (j : Fin 3) : Nat × Nat × Nat :=
  let w := frameWord m s j 5
  ((field w 0 10).toNat, (field w 10 10).toNat, (field w 20 10).toNat)
/-- The upper corner, inclusive. -/
def frameHigh (m : List Host.Cell) (s : Fin 8) (j : Fin 3) : Nat × Nat × Nat :=
  let w := frameWord m s j 6
  ((field w 0 10).toNat, (field w 10 10).toNat, (field w 20 10).toNat)

/-- NRUN. -/
def frameRuns (m : List Host.Cell) (s : Fin 8) (j : Fin 3) : Nat := (field (frameWord m s j 7) 0 24).toNat

/-- The runs as far as a staging slot holds them: LENGTH and STATE. -/
def runList (m : List Host.Cell) (s : Fin 8) (j : Fin 3) : List (Nat × Nat) :=
  (List.range (min (frameRuns m s j) 40944)).map fun i =>
    let x := memNat m (stageBase s j + 32 + 2 * i) 2
    (x % 16384, x / 16384)

/-- The voxels of the box. -/
def frameVolume (m : List Host.Cell) (s : Fin 8) (j : Fin 3) : Nat :=
  let a := frameLow m s j
  let b := frameHigh m s j
  (b.1 + 1 - a.1) * (b.2.1 + 1 - a.2.1) * (b.2.2 + 1 - a.2.2)

/-- The state of the run that holds place `i` of the box. -/
def runAt : List (Nat × Nat) → Nat → Nat
  | [], _ => 3
  | (n, st) :: r, i => if i < n then st else runAt r (i - n)

/-- What the frame in a staging slot reports for the voxel (x, y, z): 0 FREE, 1 OCCUPIED, 2 UNKNOWN, 3 OUT (R229). -/
def report (m : List Host.Cell) (s : Fin 8) (j : Fin 3) (runs : List (Nat × Nat)) (p : Nat × Nat × Nat) : Nat :=
  let a := frameLow m s j
  let b := frameHigh m s j
  if a.1 ≤ p.1 ∧ p.1 ≤ b.1 ∧ a.2.1 ≤ p.2.1 ∧ p.2.1 ≤ b.2.1 ∧ a.2.2 ≤ p.2.2 ∧ p.2.2 ≤ b.2.2 then
    runAt runs ((p.1 - a.1) + (b.1 + 1 - a.1) * ((p.2.1 - a.2.1) + (b.2.1 + 1 - a.2.1) * (p.2.2 - a.2.2)))
  else 3

/-- The voxel is masked by a capsule of `caps` (R236). -/
def masked (g : Grid) (infl : Nat) (caps : List (Vector (BitVec 32) 8)) (p : Nat × Nat × Nat) : Bool :=
  let b := g.cube p 1
  caps.any fun c => capGood c &&
    let r : Nat := capRadius c + infl
    decide (segBoxSq (capP0 c) (capP1 c) b.1 b.2 ≤ ((r * r : Nat) : Rat))

/-- The report after masking: in a masked voxel everything but OUT counts as FREE (R236). -/
def maskedReport (r : Nat) (mask : Bool) : Nat := if mask && decide (r ≠ 3) then 0 else r

/-- The contribution of a masked report to the fused state: UNSEEN 0, UNKNOWN 1, FREE 2, OCCUPIED 3 (R237). -/
def contribution (r : Nat) : Nat := if r = 0 then 2 else if r = 1 then 3 else if r = 2 then 1 else 0

/-! ### Channel A (R238, R239) -/

/-- The first byte of an occupancy buffer (R228). -/
def occBase (b : Bool) : Nat := if b then 0x200000 else 0

/-- The fused state of voxel `v` in an occupancy buffer (R237). -/
def fusedAt (m : List Host.Cell) (b : Bool) (v : Nat) : Nat := memNat m (occBase b + 4 * (v / 16)) 4 / 2 ^ (2 * (v % 16)) % 4

/-- D²(v): the smallest squared distance to a voxel of O or to a voxel just outside the grid (R238). -/
def dSquared (g : Grid) (occ : List (Nat × Nat × Nat)) (p : Nat × Nat × Nat) : Nat :=
  let sq := fun (a b : Nat) => if a < b then (b - a) * (b - a) else (a - b) * (a - b)
  let side := fun (x n : Nat) => min ((x + 1) * (x + 1)) ((n - x) * (n - x))
  occ.foldl (fun m q => min m (sq p.1 q.1 + sq p.2.1 q.2.1 + sq p.2.2 q.2.2))
    (min (side p.1 g.nx) (min (side p.2.1 g.ny) (side p.2.2 g.nz)))

/-- The non-free voxels of an occupancy buffer (R237). -/
def nonFree (m : List Host.Cell) (g : Grid) (b : Bool) : List (Nat × Nat × Nat) :=
  ((List.range g.count).filter fun v => decide (fusedAt m b v ≠ 2)).map g.xyz

/-- The field bytes of the whole grid (R238). -/
def fieldBytes (m : List Host.Cell) (g : Grid) (b : Bool) : List Byte :=
  let occ := nonFree m g b
  (List.range g.count).map fun v => BitVec.ofNat 8 (min 255 (isqrt (16 * dSquared g occ (g.xyz v))))

/-- K3 (R239). -/
def k3 (e : Nat) : Nat := ceilSqrt (3 * e * e)

/-- T_AG (R242). -/
def tAg (tolf e : Nat) : Nat := ceilSqrt (48 * tolf * tolf * e * e)

/-- The smallest field byte over the voxels whose cubes the segment touches (R239). -/
def fMin (m : List Host.Cell) (g : Grid) (p q : P3) : Nat :=
  (List.range g.count).foldl
    (fun f v => let b := g.cube (g.xyz v) 1
      if segBoxSq p q b.1 b.2 = 0 then min f (memRead m (0x400000 + v)).toNat else f) 255

/-- A channel A query: the distance and SAT (R225, R233, R239). -/
def queryA (m : List Host.Cell) (g : Grid) (c : Vector (BitVec 32) 8) : Nat × Bool :=
  if !capGood c || g.leaves (capP0 c) (capP1 c) then (0, false)
  else
    let f := fMin m g (capP0 c) (capP1 c)
    (f * g.e / 4 - k3 g.e - capRadius c, decide (f = 255))

/-! ### Channel B (R240, R241) -/

/-- The indices of the first voxel of coarse cell `b`. -/
def Grid.coarse (g : Grid) (b : Nat) : Nat × Nat × Nat :=
  let cx := g.nx / 8
  let cy := g.ny / 8
  (8 * (b % cx), 8 * (b / cx % cy), 8 * (b / (cx * cy)))

/-- Coarse cells of the grid. -/
def Grid.coarseCount (g : Grid) : Nat := g.count / 512

/-- The voxels of a coarse cell. -/
def Grid.coarseVoxels (g : Grid) (b : Nat) : List (Nat × Nat × Nat) :=
  let c := g.coarse b
  (List.range 512).map fun i => (c.1 + i % 8, c.2.1 + i / 8 % 8, c.2.2 + i / 64)

/-- A channel B query (R225, R233, R241): the distance to every non-free coarse cell box and to the outside of the grid. -/
def queryB (g : Grid) (free : List Bool) (c : Vector (BitVec 32) 8) : Nat :=
  if !capGood c || g.leaves (capP0 c) (capP1 c) then 0
  else
    let d := ((List.range g.coarseCount).zip free).foldl
      (fun d x => if x.2 then d else let b := g.cube (g.coarse x.1) 8
        min d (ratSqrt (segBoxSq (capP0 c) (capP1 c) b.1 b.2)))
      (g.toOutside (capP0 c) (capP1 c))
    min 65535 (d - capRadius c)

end Sys2Proof.Machine
end

