-- ==== Sys2Proof/Machine/Reed.lean ====
section
/-! DEFINITION. Reed: frames, snapshots, fusion cycles, both channels, the diagnostic comparator and the commands of its registers
(R226, R227, R230 to R246). -/
namespace Sys2Proof.Machine

/-- Reed changed. -/
def State.modRd (s : State) (g : Reed → Reed) : State := { s with rd := g s.rd }
/-- Sensor `i` changed. -/
def State.modSens (s : State) (i : Fin 8) (g : ReedSensor → ReedSensor) : State := { s with rd.sens := upd s.rd.sens i g }
/-- A bit of RD_STICKY is set. -/
def State.rdSet (s : State) (i : Nat) : State := s.modRd fun r => { r with sticky := setBit r.sticky i }

/-- Reed runs (R227). -/
def reedRuns (s : State) : Bool := s.rd.run && decide (s.domain 8 = .run) && s.tb.running && s.pw.state.live

/-- Every cycle in progress is abandoned (R227). -/
def State.reedStop (s : State) : State := s.modRd fun r => { r with fusing := none, chA := [], chB := [] }

/-- A cycle in progress uses the frame in slot `j` of sensor `i`. -/
def frameInUse (r : Reed) (i : Fin 8) (j : Fin 3) : Bool :=
  ((r.fusing.toList ++ r.chA.map fun w => w.cyc) ++ r.chB.map fun w => w.cyc).any fun c => c.frames.contains (i, j)

/-- Slots of older accepted frames are released once a cycle with a newer frame of the sensor has started and no cycle in progress
uses them (R232). -/
def State.reedRelease (s : State) : State :=
  s.forEach (fins 8) fun s i =>
    let t := s.rd.sens[i]
    let newest := t.order.getLast?
    let newUsed := newest.elim false fun j => (t.slot[j]).used
    let gone : List (Fin 3) := t.order.filter fun j => decide (some j ≠ newest) && newUsed && !frameInUse s.rd i j
    s.modSens i fun t =>
      { t with order := t.order.filter fun j => !gone.contains j, slot := Vector.ofFn fun j => if j ∈ gone then {} else t.slot[j] }

/-! ### Arriving frames (R230 to R232) -/

/-- A slot for a frame of sensor `i` that begins to arrive: a free one, or the one of the oldest accepted frame that no cycle has
used; the drop is counted (R232). -/
def State.reedSlot (s : State) (i : Fin 8) : Option (Fin 3) × State :=
  let t := s.rd.sens[i]
  let dropped := fun (s : State) => ((s.modSens i fun t => { t with drop := satInc t.drop }).rdSet 1).emit 9 0x002#12 [nat32 i.val 0]
  match (fins 3).find? fun j => !(t.slot[j]).busy with
  | some j => (some j, s.modSens i fun t => { t with slot := upd t.slot j fun _ => ({ busy := true } : ReedSlot) })
  | none =>
    match t.order.dropLast.find? fun j => !(t.slot[j]).used with
    | some j =>
      (some j, dropped (s.modSens i fun t =>
        { t with order := t.order.filter fun k => decide (k ≠ j), slot := upd t.slot j fun _ => ({ busy := true } : ReedSlot) }))
    | none => (none, dropped s)

/-- An arm is in use: one of its placed capsules has USED = 1 (R233). -/
def CapSet.inUse (c : CapSet) : Bool := c.caps.any capUsed

/-- The frame was captured before the placements of the oldest snapshot held, for an arm in use or for the foreign set (R230). -/
def beforeRing (r : Reed) (capture : Nat) : Bool :=
  match r.snaps.getLast? with
  | none => false
  | some o =>
    ((fins 8).any fun a => (o.arms[a]).elim false fun c => c.inUse && decide (capture < c.stime)) ||
      o.foreign.elim false fun c => c.inUse && decide (capture < c.stime)

/-- The first failing check of R230: cause 0 FORMAT, 1 LENGTH, 2 TIME, 3 MASK_RANGE, 4 DISABLED. -/
def frameCause (s : State) (i : Fin 8) (j : Fin 3) : Option Nat :=
  let t := s.rd.sens[i]
  let l := t.slot[j]
  let m := s.mem
  let w := frameWord m i j
  let g := s.rd.grid
  let a := frameLow m i j
  let b := frameHigh m i j
  let runs := runList m i j
  let total := (runs.map fun r => r.1).sum
  let size := 32 + 2 * frameRuns m i j
  if !t.en then some 4
  else if field (w 0) 0 16 ≠ 1#16 ∨ (field (w 0) 16 3).toNat ≠ i.val ∨ field (w 0) 19 13 ≠ 0#13 ∨ w 1 ≠ s.rd.gridId ∨
      field (w 4) 16 16 ≠ 0#16 ∨ field (w 5) 30 2 ≠ 0#2 ∨ field (w 6) 30 2 ≠ 0#2 ∨ field (w 7) 24 8 ≠ 0#8 ∨ b.1 < a.1 ∨
      b.2.1 < a.2.1 ∨ b.2.2 < a.2.2 ∨ g.nx ≤ b.1 ∨ g.ny ≤ b.2.1 ∨ g.nz ≤ b.2.2 ∨ (runs.any fun r => decide (r.1 = 0)) = true then some 0
  else if l.len < size ∨ 81920 < size ∨ frameVolume m i j < total then some 1
  else if total < frameVolume m i j then some 0
  else if s.now + 100000 < l.capture ∨ l.capture ≤ t.last.toNat then some 2
  else if beforeRing s.rd l.capture then some 3
  else none

/-- One checker rejects a frame: its cause is counted and recorded (R230, R246). -/
def State.rejectFrame (s : State) (i : Fin 8) (cause : Nat) (chB : Bool) (cap : BitVec 32) : State :=
  let s1 := s.modSens i fun t =>
    if cause = 1 then { t with rejLen := satInc t.rejLen } else if cause = 2 then { t with rejTime := satInc t.rejTime }
    else if cause = 3 then { t with rejMask := satInc t.rejMask } else { t with rejFmt := satInc t.rejFmt }
  let s2 := s1.rdSet 0
  (if cause = 3 then s2.rdSet 2 else s2).emit 9 0x001#12 [nat32 i.val 0 ||| nat32 cause 8 ||| bitAt chB 12, cap]

/-- A slot is free again. -/
def State.freeSlot (s : State) (i : Fin 8) (j : Fin 3) : State :=
  s.modSens i fun t => { t with slot := upd t.slot j fun _ => ({} : ReedSlot) }

/-- FRAME_CHECK_DONE (R230, R231): both checkers finish. `okA` and `okB` say that the checker's own verification of the fragments
and the digest holds. -/
def execFrameCheckDone (i : Fin 8) (j : Fin 3) (okA okB : Bool) (s : State) : Res :=
  let l := (s.rd.sens[i]).slot[j]
  if !(reedRuns s && l.busy && l.done && !l.accepted) then .next s
  else
    let cap := frameWord s.mem i j 2
    match frameCause s i j with
    | some c =>
      let s1 := if okA then s.rejectFrame i c false cap else s
      let s2 := if okB then s1.rejectFrame i c true cap else s1
      .next (s2.freeSlot i j)
    | none =>
      if okA && okB then
        .next ((s.modSens i fun t =>
          { t with acc := satInc t.acc, last := BitVec.ofNat 64 l.capture, order := t.order ++ [j]
                   slot := upd t.slot j fun l => { l with accepted := true } }).reedRelease)
      else if okA || okB then
        .next ((((s.modSens i fun t => { t with check := satInc t.check }).rdSet 4).emit 9 0x001#12
          [nat32 i.val 0 ||| nat32 5 8, cap]).freeSlot i j)
      else .next (s.freeSlot i j)

/-! ### Snapshots (R233, R234) -/

/-- The erroneous capsules of a set: place in the set and reason. -/
def capErrors (c : Option CapSet) : List (Nat × Nat) :=
  c.elim [] fun c => ((List.range c.caps.length).zip c.caps).filterMap fun q => (capErr q.2).map fun e => (q.1, e)

/-- Snapshot of pick `k` (R234); capsules in error are recorded (R233). -/
def State.reedSnapshot (s : State) (k : BitVec 32) : State :=
  if reedRuns s then
    let sn : Snap := { pick := k, arms := s.rd.place, foreign := s.rd.foreign }
    let errs : List (Nat × Nat) :=
      ((fins 8).flatMap fun r => (capErrors s.rd.place[r]).map fun q => (16 * r.val + q.1, q.2)) ++
        (capErrors s.rd.foreign).map fun q => (128 + q.1, q.2)
    (s.modRd fun r => { r with snaps := (sn :: r.snaps).take 224 }).forEach errs fun s q =>
      (s.rdSet 3).emit 9 0x004#12 [nat32 q.1 0 ||| nat32 q.2 12, k]
  else s

/-- The newest complete snapshot: a snapshot is complete 4 µs after its pick instant (R234). -/
def newestSnap (s : State) : Option Snap :=
  if s.tb.pickTime.toNat + 4000 ≤ s.now then s.rd.snaps.head? else s.rd.snaps.tail.head?

/-- The capsules that mask a frame captured at `t`: of each arm and of the foreign set, those of the snapshot whose placement sample
time is the latest not after `t` (R236). -/
def maskCaps (r : Reed) (t : Nat) : List (Vector (BitVec 32) 8) :=
  let best := fun (get : Snap → Option CapSet) =>
    ((r.snaps.filterMap get).filter fun c => decide (c.stime ≤ t)).foldl
      (fun (m : Option CapSet) c => match m with
        | none => some c
        | some x => if x.stime < c.stime then some c else some x) none
  (((fins 8).flatMap fun a => ((best fun sn => sn.arms[a]).toList.flatMap fun c => c.caps))) ++
    ((best fun sn => sn.foreign).toList.flatMap fun c => c.caps)

/-! ### Fusion (R235 to R237, R240) -/

/-- Channel A reads an occupancy buffer until its field is complete. -/
def occRead (r : Reed) (b : Bool) : Bool := r.chA.any fun w => !w.done && decide (w.cyc.buf = b)

/-- The enabled sensors. -/
def enabledSensors (r : Reed) : List (Fin 8) := (fins 8).filter fun i => (r.sens[i]).en

/-- A fusion cycle may start (R235). -/
def fusionReady (s : State) : Bool :=
  let r := s.rd
  reedRuns s && r.fusing.isNone && !occRead r r.nextBuf && !(enabledSensors r).isEmpty &&
  ((enabledSensors r).all fun i => !(r.sens[i]).order.isEmpty) &&
  (fins 8).any fun i => (r.sens[i]).order.any fun j => !((r.sens[i]).slot[j]).used

/-- FUSION_CYCLE_START (R235): the newest accepted frame of every enabled sensor and the next cycle number. -/
def execFusionCycleStart (s : State) : Res :=
  if fusionReady s then
    let set_ : List (Fin 8 × Fin 3) := (enabledSensors s.rd).filterMap fun i => ((s.rd.sens[i]).order.getLast?).map fun j => (i, j)
    let slots : List ReedSlot := set_.map fun q => (s.rd.sens[q.1]).slot[q.2]
    let st := slots.foldl (fun m l => min m l.capture) ((slots.head?.map fun l => l.capture).getD 0)
    let lf := slots.foldl (fun m l => max m l.lastFrag) 0
    let c : ReedCycle := { cycle := s.rd.cycle + 1#64, frames := set_, stime := st, lastFrag := lf, buf := s.rd.nextBuf }
    let s1 := s.forEach set_ fun s q => s.modSens q.1 fun t => { t with slot := upd t.slot q.2 fun l => { l with used := true } }
    let clk := { s1 with cr.clk := setBit (setBit s1.cr.clk 24) 25 }
    .next ((clk.modRd fun r => { r with fusing := some c, cycle := c.cycle, waitFirst := false, nextBuf := !r.nextBuf }).reedRelease)
  else .next s

/-- The frames of a set with their runs and masking capsules. -/
def fuseInputs (s : State) (c : ReedCycle) : List ((Fin 8 × Fin 3) × List (Nat × Nat) × List (Vector (BitVec 32) 8)) :=
  c.frames.map fun q => (q, runList s.mem q.1 q.2, maskCaps s.rd ((s.rd.sens[q.1]).slot[q.2]).capture)

/-- The masked report of one frame for a voxel (R236). -/
def fuseReport (s : State) (f : (Fin 8 × Fin 3) × List (Nat × Nat) × List (Vector (BitVec 32) 8)) (p : Nat × Nat × Nat) : Nat :=
  maskedReport (report s.mem f.1.1 f.1.2 f.2.1 p) (masked s.rd.grid s.rd.maskInfl.toNat f.2.2 p)

/-- The fused state of a voxel (R237). -/
def fuse (s : State) (c : ReedCycle) (p : Nat × Nat × Nat) : Nat :=
  (fuseInputs s c).foldl (fun m f => max m (contribution (fuseReport s f p))) 0

/-- The words of an occupancy buffer (R237). -/
def occupancy (s : State) (c : ReedCycle) : List (BitVec 32) :=
  let g := s.rd.grid
  (List.range (g.count / 16)).map fun i =>
    (List.range 16).foldl (fun w k => w ||| nat32 (fuse s c (g.xyz (16 * i + k))) (2 * k)) 0#32

/-- Coarse cell `b` is free (R240). -/
def coarseFree (s : State) (c : ReedCycle) (b : Nat) : Bool :=
  let vs := s.rd.grid.coarseVoxels b
  ((fuseInputs s c).any fun f => vs.all fun p => decide (fuseReport s f p = 0)) &&
    !((fuseInputs s c).any fun f => vs.any fun p => decide (fuseReport s f p = 1))

/-- The oldest cycle of channel B starts its queries on the newest complete snapshot when it has none yet (R243). -/
def State.startB (s : State) : State :=
  s.modRd fun r => { r with chB := match r.chB with
    | w :: l => (if w.snap.isNone then { w with snap := newestSnap s } else w) :: l
    | [] => [] }

/-- FUSION_DONE (R237, R240): the occupancy buffer and channel B's coarse cells of the cycle are complete. -/
def execFusionDone (s : State) : Res :=
  match s.rd.fusing with
  | some c =>
    if reedRuns s then
      let free := (List.range s.rd.grid.coarseCount).map fun b => coarseFree s c b
      let w : ReedWork := { cyc := { c with free := free } }
      let s1 := s.wrBytes (occBase c.buf) (wordsBytes (occupancy s c))
      .next ((s1.modRd fun r => { r with fusing := none, chA := r.chA ++ [w], chB := r.chB ++ [w] }).startB)
    else .next s
  | none => .next s

/-! ### Distance entries (R238 to R244) -/

/-- Capsule `c` (0 to 127) of a snapshot (R233). -/
def Snap.capsule (sn : Snap) (c : Fin 128) : Option (Vector (BitVec 32) 8) :=
  (sn.arms[Fin.ofNat 8 (c.val / 16)]).bind fun q => q.caps[c.val % 16]?

/-- Bits by capsule, 32 to a word (R243). -/
def capBits (f : Fin 128 → Bool) : List (BitVec 32) :=
  (List.range 4).map fun w => (List.range 32).foldl (fun x i => if f (Fin.ofNat 128 (32 * w + i)) then setBit x i else x) 0#32

/-- The 88 words of a distance entry (R243); `d` is the distance and SAT of a used capsule. -/
def entryWords88 (s : State) (chB : Bool) (c : ReedCycle) (sn : Snap) (d : Vector (BitVec 32) 8 → Nat × Bool) : List (BitVec 32) :=
  let q : Vector (Nat × Bool) 128 := Vector.ofFn fun i =>
    match sn.capsule i with
    | some k => if capUsed k then (if capGood k then d k else (0, false)) else (0, false)
    | none => (0, false)
  let used := fun i => (sn.capsule i).elim false capUsed
  let dist := fun (i : Nat) => (q[Fin.ofNat 128 i]).1
  let armMin := fun (r : Nat) => ((List.range 16).map fun i => Fin.ofNat 128 (16 * r + i)).foldl
    (fun m i => if used i then min m (q[i]).1 else m) 65535
  [bitAt chB 0, sn.pick, BitVec.ofNat 32 c.stime, BitVec.ofNat 32 (c.stime / 4294967296), c.cycle.setWidth 32,
   (c.cycle >>> 32).setWidth 32, c.frames.foldl (fun w f => setBit w f.1.val) 0#32, nat32 (tAg s.rd.tolf.toNat s.rd.edge.toNat) 0] ++
  ((List.range 64).map fun i => nat32 (dist (2 * i)) 0 ||| nat32 (dist (2 * i + 1)) 16) ++
  ((List.range 4).map fun i => nat32 (armMin (2 * i)) 0 ||| nat32 (armMin (2 * i + 1)) 16) ++
  capBits used ++ (capBits fun i => (sn.capsule i).elim false fun k => (capErr k).isSome) ++
  (capBits fun i => !chB && (q[i]).2)

/-- The first byte of an entry (R228): channel, buffer. -/
def entryBase (chB b : Bool) : Nat := 0x1380000 + (if chB then 0x400 else 0) + (if b then 0x200 else 0)

/-- Word `n` of a distance entry in memory. -/
def distWord (m : List Host.Cell) (chB b : Bool) (n : Nat) : BitVec 32 := BitVec.ofNat 32 (memNat m (entryBase chB b + 4 * n) 4)
/-- DIST of capsule `c` in an entry. -/
def distOf (m : List Host.Cell) (chB b : Bool) (c : Nat) : Nat := memNat m (entryBase chB b + 32 + 2 * c) 2
/-- A bit of an entry: USED at word 76, FLAG at 80, SAT at 84. -/
def distBit (m : List Host.Cell) (chB b : Bool) (w c : Nat) : Bool := bit (distWord m chB b (w + c / 32)) (c % 32)

/-- Two distances of one capsule in one cycle disagree (R242). -/
def distDisagree (dA dB : Nat) (sat : Bool) (t : Nat) : Bool :=
  if sat then decide (dB + t < dA) else decide (t < (if dA < dB then dB - dA else dA - dB))

/-- The diagnostic comparator over the entries in buffers `a` of channel A and `b` of channel B (R242). -/
def State.compareEntries (s : State) (a b : Bool) (cycle : BitVec 64) : State :=
  let t := tAg s.rd.tolf.toNat s.rd.edge.toNat
  s.forEach (List.range 128) fun s c =>
    let ok := fun chB k => distBit s.mem chB k 76 c && !distBit s.mem chB k 80 c
    let dA := distOf s.mem false a c
    let dB := distOf s.mem true b c
    if ok false a && ok true b && distDisagree dA dB (distBit s.mem false a 84 c) t then
      ((s.modRd fun r => { r with disCnt := satInc r.disCnt }).rdSet 5).emit 9 0x003#12
        [nat32 c 0, nat32 dA 0 ||| nat32 dB 16, cycle.setWidth 32, (cycle >>> 32).setWidth 32]
    else s

/-- The buffer of a channel's entries that holds the entry of a cycle. -/
def entryOf (v : Vector (Option (BitVec 32 × BitVec 64)) 2) (cycle : BitVec 64) : Option Bool :=
  if (v[0]).elim false fun e => decide (e.2 = cycle) then some false
  else if (v[1]).elim false fun e => decide (e.2 = cycle) then some true else none

/-- The index of a buffer. -/
def bufIx (b : Bool) : Fin 2 := if b then 1 else 0

/-- Microseconds from the last fragment of the set to now, saturating (R245). -/
def entryLatency (s : State) (c : ReedCycle) : BitVec 16 := BitVec.ofNat 16 (min 0xFFFF ((s.now - c.lastFrag) / 1000))

/-- An entry is complete: it is written, registered, compared and its latency taken (R242 to R245). -/
def State.putEntry (s : State) (chB : Bool) (c : ReedCycle) (sn : Snap) (ws : List (BitVec 32)) : State :=
  let b := if chB then s.rd.bufB else s.rd.bufA
  let e := some (sn.pick, c.cycle)
  let l := entryLatency s c
  let s1 := s.wrBytes (entryBase chB b) (wordsBytes ws)
  let s2 := s1.modRd fun r =>
    if chB then
      { r with entB := upd r.entB (bufIx b) fun _ => e, bufB := !b, bIndex := sn.pick, chB := r.chB.drop 1
               latB := if r.latB.toNat < l.toNat then l else r.latB }
    else
      { r with entA := upd r.entA (bufIx b) fun _ => e, bufA := !b, aIndex := sn.pick, chA := r.chA.drop 1
               latA := if r.latA.toNat < l.toNat then l else r.latA }
  let s3 := match (if chB then entryOf s2.rd.entA c.cycle else entryOf s2.rd.entB c.cycle) with
    | some o => if chB then s2.compareEntries o b c.cycle else s2.compareEntries b o c.cycle
    | none => s2
  s3.reedRelease

/-- CHANNEL_A_FIELD_DONE (R238, R243): the field is complete and the queries start on the newest complete snapshot. -/
def execChannelAFieldDone (s : State) : Res :=
  match s.rd.chA with
  | w :: rest =>
    if reedRuns s && !w.done then
      let s1 := s.wrBytes 0x400000 (fieldBytes s.mem s.rd.grid w.cyc.buf)
      .next (s1.modRd fun r => { r with chA := { w with done := true, snap := newestSnap s } :: rest })
    else .next s
  | [] => .next s

/-- CHANNEL_A_ENTRY_DONE (R239, R243). -/
def execChannelAEntryDone (s : State) : Res :=
  match s.rd.chA with
  | w :: _ =>
    match w.done, w.snap with
    | true, some sn =>
      if reedRuns s then
        .next (s.putEntry false w.cyc sn (entryWords88 s false w.cyc sn (queryA s.mem s.rd.grid)))
      else .next s
    | _, _ => .next s
  | [] => .next s

/-- CHANNEL_B_ENTRY_DONE (R241, R243). -/
def execChannelBEntryDone (s : State) : Res :=
  match s.rd.chB with
  | w :: _ =>
    match w.snap with
    | some sn =>
      if reedRuns s then
        .next ((s.putEntry true w.cyc sn
          (entryWords88 s true w.cyc sn fun k => (queryB s.rd.grid w.cyc.free k, false))).startB)
      else .next s
    | none => .next s.startB
  | [] => .next s

/-! ### Registers -/

/-- REED_RUN_WRITE (R226, R227): RD_CTRL.RUN starts or stops Reed, or a write of 1 is refused. -/
def execReedRunWrite (v : BitVec 32) (s : State) : Res :=
  if bit v 0 then
    if s.rd.run then .next s
    else if !s.rd.gridOk || (enabledSensors s.rd).isEmpty || decide (s.domain 8 ≠ .run) then .next (s.rdSet 6)
    else
      .next (s.modRd fun r =>
        { r with run := true, waitFirst := true, sens := r.sens.map fun t => { t with slot := Vector.replicate 3 {}, order := [] } })
  else .next ((s.modRd fun r => { r with run := false }).reedStop)

/-- PD8 is powered, so the Reed registers other than those held in PD0 are accessible (R226). -/
def rdUp (s : State) : Bool := (s.domain 8).up

/-- REED_CNT_CLR: RD_CTRL.CNT_CLR clears the sensor counters, RD_DIS_CNT and RD_LAT_MAX. -/
def execReedCntClr (s : State) : Res :=
  if rdUp s then
    .next (s.modRd fun r =>
      { r with
        disCnt := 0#32, latA := 0#16, latB := 0#16
        sens := r.sens.map fun t => { t with acc := 0#32, rejMask := 0#8, rejTime := 0#8, rejLen := 0#8, rejFmt := 0#8,
                                             check := 0#16, drop := 0#16 } })
  else .next s

/-- An LK register of Reed takes a value (R226). -/
def Reed.setCfg (r : Reed) (off : Nat) (v : BitVec 32) : Reed :=
  if off = 0x10 then { r with cx := field v 0 8, cy := field v 8 8, cz := field v 16 8 }
  else if off = 0x14 then { r with edge := field v 0 7, maskInfl := field v 16 10, tolf := field v 28 4 }
  else if off = 0x18 then { r with org := upd r.org 0 fun _ => v }
  else if off = 0x1C then { r with org := upd r.org 1 fun _ => v }
  else if off = 0x20 then { r with org := upd r.org 2 fun _ => v }
  else if off = 0x24 then { r with gridId := v }
  else if 0x100 ≤ off ∧ off < 0x200 ∧ off % 0x20 = 0 then
    { r with sens := updN r.sens ((off - 0x100) / 0x20) fun t => { t with en := bit v 0, period := field v 12 20 } }
  else r

/-- REED_CONFIG_WRITE (R226): a grid or sensor configuration write, ignored while Reed runs or after sealing. -/
def execReedConfigWrite (off : BitVec 12) (v : BitVec 32) (s : State) : Res :=
  if s.rd.run then .next (s.rdSet 6)
  else if s.sv.sealed then .next s
  else .next (s.modRd fun r => r.setCfg off.toNat v)

/-- RD_SENS_LAST_LO_READ (R230): the newest capture time; its high word is captured. -/
def execRdSensLastLoRead (i : Fin 8) (s : State) : Res :=
  if rdUp s then
    let v := (s.rd.sens[i]).last
    .next { s.modSens i fun t => { t with capLastHi := (v >>> 32).setWidth 32 } with rdata := [v.setWidth 32] }
  else .next { s with rdata := [0#32] }

/-- RD_CYCLE_LO_READ (R227): the cycle number, held in PD0; its high word is captured. -/
def execRdCycleLoRead (s : State) : Res :=
  .next { s.modRd fun r => { r with capCycleHi := (r.cycle >>> 32).setWidth 32 } with rdata := [s.rd.cycle.setWidth 32] }

end Sys2Proof.Machine
end

