-- ==== Sys2Proof/Machine/Engine.lean ====
section
/-! DEFINITION. The control engine: measurement, the soft-start ramp, position and velocity loops, filters, coefficient banks,
MPC bypass, and the engine's register commands (06_control_engine.md). -/
namespace Sys2Proof.Machine

/-! ### Measurement (R131, R132) -/

/-- The slice forms x_m and v_m from its measurement source at the pick instant (R131, R132). -/
def Slice.measure (l : Slice) (vv : Nat) (latch : FbLatch) (fr : Option DriveFb) : Slice :=
  if l.src then
    match fr with
    | some d => { l with xm := d.pos.toInt + l.posOff, vm := d.vel.toInt, known := true }
    | none => if l.known then { l with xm := l.xm + stepNo l.vm vv } else l
  else
    let x := latch.x + l.posOff
    { l with
      xm := x
      vm := if latch.valid || latch.standstill then latch.v else ((x - l.xm) * stepDiv).tdiv vv
      known := true }

/-- x_m is unknown: SRC = 1 and no frame has been latched since the configuration took effect (R132). -/
def Slice.unknown (l : Slice) : Bool := l.src && !l.known

/-! ### Update of one slice (R137 to R139) -/

/-- Saturation with the OVF flag (R136). -/
def satFlag (n : Nat) (x : Int) : Int × Bool := (satInt n x, decide (satInt n x ≠ x))

/-- One biquad section (R138). -/
def Biquad.run (b : Biquad) (en : Bool) (h : FiltHist) (x : Int) : Int × FiltHist × Bool :=
  if en then
    let acc := b.b0.toInt * x + b.b1.toInt * h.x1 + b.b2.toInt * h.x2 - b.a1.toInt * h.y1 - b.a2.toInt * h.y2
    let y := satFlag 32 (rsh acc 28)
    (y.1, { x1 := x, x2 := h.x1, y1 := y.1, y2 := h.y1 }, y.2)
  else (x, { x1 := x, x2 := x, y1 := x, y2 := x }, false)

/-- The active coefficient bank (R144). -/
def Slice.bank (l : Slice) : CoefBank := if l.bankSel then l.bankB else l.bankA

/-- The ramp after its decision between TRACK and LIMIT, with the flags it sets (R137, R142). -/
def Slice.ramp (l : Slice) (vv : Nat) (sc : Int) (e : SpEntry) : Slice × BitVec 11 :=
  let vlim := rsh (l.vmax.toInt * sc) 15
  let dvmax := max 1 ((l.amax.toInt * vv).tdiv stepDiv)
  let lock : Int := l.lockX.toNat
  let leave := decide (vlim < (e.v.natAbs : Int)) || decide (dvmax < ((e.v - l.vr).natAbs : Int)) ||
    decide (lock < ((e.x - (l.xr + (stepRem e.v vv l.rem).1)).natAbs : Int))
  if !l.limit && !leave then ({ l with xr := e.x, vrPrev := l.vr, vr := e.v, rem := 0 }, 0#11)
  else
    let er := satFlag 64 (e.x - l.xr)
    let q := vlim / 8
    let catchUp := clampInt (-q) q (rsh (er.1 * l.kc.toNat) 16)
    let vd := satFlag 64 (e.v + catchUp)
    let vdes := clampInt (-vlim) vlim vd.1
    let vr := l.vr + clampInt (-dvmax) dvmax (vdes - l.vr)
    let st := stepRem vr vv l.rem
    let xr := satFlag 64 (l.xr + st.1)
    let fl := bitAt true 0 ||| bitAt (er.2 || vd.2 || xr.2) 5
    if decide (((e.x - xr.1).natAbs : Int) ≤ lock) && decide (((e.v - vr).natAbs : Int) ≤ dvmax) then
      ({ l with xr := e.x, vrPrev := l.vr, vr := e.v, rem := 0, limit := false }, fl)
    else ({ l with xr := xr.1, vrPrev := l.vr, vr := vr, rem := st.2, limit := true }, fl)

/-- The position loop (R137). -/
def Slice.posLoop (l : Slice) : Slice × BitVec 11 :=
  let b := l.bank
  let ep := satFlag 64 (l.xr - l.xm)
  let raw := satFlag 64 (l.vr + rsh (ep.1 * b.kpp.toNat) 16)
  let lim := b.vlim.toInt
  let vc := clampInt (-lim) lim raw.1
  ({ l with ep := ep.1, vc := vc }, bitAt (ep.2 || raw.2) 5 ||| bitAt (decide (vc ≠ raw.1)) 1)

/-- The velocity loop and the output filters (R137, R138). `tl` is the output limit in force (R173). -/
def Slice.velLoop (l : Slice) (tff : Int) (tl : Int) : Slice × BitVec 11 :=
  let b := l.bank
  let ev := satFlag 64 (l.vc - l.vm)
  let pt := satFlag 32 (rsh (ev.1 * b.kvp.toNat) b.shv.toNat)
  let di0 := satFlag 64 (rsh (ev.1 * b.kvi.toNat) b.shi.toNat)
  let di := if sgn di0.1 = l.satdir then 0 else di0.1
  let ic0 := satFlag 64 (l.ic + di)
  let il : Int := b.ilim.toNat * 4294967296
  let icClamp := decide (il < (ic0.1.natAbs : Int))
  let ic := if icClamp then sgn ic0.1 * il else ic0.1
  let dv := satFlag 64 (l.vr - l.vrPrev)
  let acf := satFlag 32 (rsh (dv.1 * b.kaff.toNat) b.sha.toNat)
  let u0 := pt.1 + rsh ic 32 + acf.1 + tff
  let u1 := clampInt (-tl) tl u0
  let sd1 := if tl < u0 then 1 else if u0 < -tl then -1 else 0
  let slew : Int := b.tslew.toNat
  let du := u1 - l.uPrev
  let slewing := decide (slew ≠ 0) && decide (slew < (du.natAbs : Int))
  let u2 := if slewing then l.uPrev + sgn du * slew else u1
  let sd2 := if slewing then sgn du else sd1
  let f0 := b.f0.run (bit b.filtEn 0) l.h0 u2
  let f1 := b.f1.run (bit b.filtEn 1) l.h1 f0.1
  let y := clampInt (-tl) tl f1.1
  ({ l with ic := ic, satdir := sd2, uPrev := u2, h0 := f0.2.1, h1 := f1.2.1, y := y },
    bitAt (ev.2 || pt.2 || di0.2 || ic0.2 || dv.2 || acf.2 || f0.2.2 || f1.2.2) 5 ||| bitAt icClamp 2 |||
    bitAt (decide (u1 ≠ u0) || decide (y ≠ f1.1)) 3 ||| bitAt slewing 4)

/-- The following-error check: the run of consecutive picks and whether the axis faults (R139). -/
def Slice.follow (l : Slice) (computed : Bool) : Slice × Bool :=
  let b := l.bank
  if !computed then (l, false)
  else if b.ferrMax ≠ 0#64 ∧ b.ferrMax.toInt < (l.ep.natAbs : Int) then
    ({ l with ferrRun := l.ferrRun + 1 }, decide (b.ferrPicks.toNat ≤ l.ferrRun + 1))
  else ({ l with ferrRun := 0 }, false)

/-- The update of one slice in one pick: the slice, the sticky bits it sets and whether it faults for the following error
(R137, R139). `fr` says that a drive frame was latched, `tl` is a further output limit (R173). -/
def Slice.update (l : Slice) (vv : Nat) (sc : Int) (e : SpEntry) (fr : Bool) (tlHome : Option Int) : Slice × BitVec 11 × Bool :=
  let r := l.ramp vv sc e
  let tl0 : Int := r.1.bank.tlim.toNat
  let tl := match tlHome with
    | some t => min tl0 t
    | none => tl0
  let byMode : Slice × BitVec 11 :=
    match l.outmode with
    | 1#2 => r.1.posLoop
    | 2#2 =>
      let p := r.1.posLoop
      let q := p.1.velLoop e.tff tl
      (q.1, p.2 ||| q.2)
    | _ =>
      if !l.src || fr then
        let ep := satFlag 64 (r.1.xr - r.1.xm)
        ({ r.1 with ep := ep.1 }, bitAt ep.2 5)
      else (r.1, 0#11)
  let computed := decide (l.outmode = 1#2) || decide (l.outmode = 2#2) || !l.src || fr
  let f := byMode.1.follow computed
  ({ f.1 with closed := true, held := { xr := f.1.xr, vr := f.1.vr, vc := f.1.vc, y := f.1.y, tff := e.tff } },
    r.2 ||| byMode.2, f.2)

/-- The state of a slice when its loop closes: ramped from the measured value (R140). -/
def Slice.enable (l : Slice) : Slice :=
  { l with
    xr := l.xm, vr := l.vm, vrPrev := l.vm, limit := true, ic := 0, uPrev := 0, satdir := 0, rem := 0, h0 := {}, h1 := {},
    ferrRun := 0, missRun := 0 }

/-- Sticky bits of a slice set by hardware (R151). -/
def State.ceSetMany (s : State) (a : Fin 80) (m : BitVec 11) : State :=
  if m = 0#11 then s
  else irqWatch (axisVector a) (axisLevel (a.val / 5)) s (s.modSlice a fun l => { l with sticky := l.sticky ||| m })

/-! ### Coefficient banks (R144 to R147) -/

/-- The exchange of the banks: ic is clamped to the new ILIM (R146, R147). -/
def Slice.swap (l : Slice) : Slice × Bool :=
  let l1 := { l with bankSel := !l.bankSel, loaded := false }
  let il : Int := l1.bank.ilim.toNat * 4294967296
  let ic := clampInt (-il) il l.ic
  ({ l1 with ic := ic }, decide (ic ≠ l.ic))

/-- A bank swap of a slice takes effect, with SWAP_DONE and its record (R146, R147, R152). -/
def State.swapBank (s : State) (a : Fin 80) : State :=
  let r := (s.slice a).swap
  let s1 := (s.modSlice a fun _ => r.1).ceSetMany a (bitAt true 10 ||| bitAt r.2 2)
  s1.emit 11 0x006#12 [nat32 a.val 0 ||| bitAt r.1.bankSel 8 ||| bitAt r.2 9]

/-- A word of a coefficient bank image. -/
def imgWord (b : List Byte) (i : Nat) : BitVec 32 := BitVec.ofNat 32 (leAt b (4 * i) 4)

/-- A non-zero reserved bit of a bank image (R144). -/
def bankReserved (b : List Byte) : Bool :=
  decide (imgWord b 4 &&& 0xFFC0C0C0#32 ≠ 0#32) || decide (imgWord b 12 &&& 0xFFFC0000#32 ≠ 0#32) ||
  decide (imgWord b 23 ≠ 0#32)

/-- The five coefficients of a filter section from word `i` (R144). -/
def imgBiquad (b : List Byte) (i : Nat) : Biquad :=
  { b0 := imgWord b i, b1 := imgWord b (i + 1), b2 := imgWord b (i + 2), a1 := imgWord b (i + 3), a2 := imgWord b (i + 4) }

/-- A coefficient bank read from its image (R144). -/
def imgBank (b : List Byte) : CoefBank :=
  { kpp := imgWord b 0, kvp := imgWord b 1, kvi := imgWord b 2, kaff := imgWord b 3
    shv := field (imgWord b 4) 0 6, shi := field (imgWord b 4) 8 6, sha := field (imgWord b 4) 16 6
    tlim := imgWord b 5, ilim := imgWord b 6, tslew := imgWord b 7
    vlim := BitVec.ofNat 64 (leAt b 32 8), ferrMax := BitVec.ofNat 64 (leAt b 40 8)
    ferrPicks := field (imgWord b 12) 0 16, filtEn := field (imgWord b 12) 16 2
    f0 := imgBiquad b 13, f1 := imgBiquad b 18 }

/-- A field of a bank outside its range (R144, R145). -/
def CoefBank.outOfRange (k : CoefBank) : Bool :=
  decide (0x40000000 < k.tlim.toNat) || decide (k.tlim.toNat < k.ilim.toNat) || decide (0x40000000 < k.tslew.toNat) ||
  decide (k.vlim.toInt < 1) || decide (k.ferrMax.toInt < 0) || decide (k.ferrPicks = 0#16)

/-! ### MPC bypass (R148) -/

/-- The slice has its complete interpolated entry for pick `k` (R135). -/
def Slice.interpolated (l : Slice) (k : BitVec 32) : Bool := l.mpcEntry.elim false fun e => decide (e.index = k)

/-- The cause for which an arm runs pick `k` in MPC bypass, the first that holds (R148). -/
def bypassCause (s : State) (r : Fin 8) (k : BitVec 32) : Option (BitVec 2) :=
  if (s.armAxes r).any fun a => !(s.slice a).interpolated k then some 0#2
  else if s.qpStructChange then some 1#2
  else if s.qp.withdrawn then some 2#2
  else none

/-- An arm under MPC enters, stays in or leaves MPC bypass in pick `k` (R148, R152). -/
def State.armBypass (s : State) (r : Fin 8) (k : BitVec 32) : State :=
  let put := fun (s : State) (g : ArmCe → ArmCe) => { s with ce.arm := upd s.ce.arm r g }
  if (s.armDef r).mpc then
    match bypassCause s r k with
    | some c =>
      let s1 := if (s.ce.arm[r]).bypass then s else s.emit 11 0x004#12 [nat32 r.val 0 ||| at32 c 8, k]
      (put s1 fun g => { bypass := true, cnt := satInc g.cnt }).forEach (s.armAxes r) fun s a => s.ceSet a 8
    | none =>
      if (s.ce.arm[r]).bypass then
        (put s fun g => { g with bypass := false }).emit 11 0x005#12 [nat32 r.val 0, k]
      else s
  else put s fun g => { g with bypass := false }

/-- The set-point entry a slice uses in pick `k`: the interpolated one of an arm under MPC outside bypass, else the profile
generator's (R135, R148). -/
def entryFor (s : State) (a : Fin 80) (k : BitVec 32) : Option SpEntry :=
  match s.armOf a with
  | some r =>
    if (s.armDef r).mpc && !(s.ce.arm[r]).bypass then (s.slice a).mpcEntry.filter fun e => decide (e.index = k)
    else (s.pax a).entry
  | none => (s.pax a).entry

/-! ### Register commands -/

/-- CE_CFG_WRITE (R133): ignored with CFG_REJ while the axis is not DISABLED, for a channel that is not mapped to it, or for
MISS_MAX 0; an accepted write takes effect at the next pick instant. -/
def ceCfgBad (s : State) (a : Fin 80) (v : BitVec 32) : Bool :=
  let ch := (field v 4 7).toNat
  let notMapped :=
    if h : ch < 96 then !((s.ch ⟨ch, h⟩).mapped && decide ((s.ch ⟨ch, h⟩).axis.toNat = a.val)) else true
  decide ((s.axis a).state ≠ .disabled) || (!bit v 2 && notMapped) || decide (field v 16 4 = 0#4)

/-- An accepted CE_CFG_a value takes effect; a change of SRC clears POS_OFF (R131, R132, R133). -/
def Slice.configure (l : Slice) (v : BitVec 32) : Slice :=
  { l with
    outmode := field v 0 2, src := bit v 2, ch := field v 4 7, missMax := field v 16 4, cfgNext := none
    posOff := if bit v 2 = l.src then l.posOff else 0
    known := false, xm := if bit v 2 then 0 else l.xm, vm := if bit v 2 then 0 else l.vm, missRun := 0 }

/-- CE_CFG_WRITE (R24, R133). -/
def execCeCfgWrite (a : Fin 80) (v : BitVec 32) (s : State) : Res :=
  if !axisUp s then .next s
  else if ceCfgBad s a v then .next (s.ceSet a 9)
  else if s.tb.running then .next (s.modSlice a fun l => { l with cfgNext := some v })
  else .next (s.modSlice a fun l => l.configure v)

/-- CE_VMAX_WRITE: LO then HI; the value takes effect as a whole at the next pick; a zero or negative one is ignored. -/
def execCeVmaxWrite (a : Fin 80) (v : BitVec 64) (s : State) : Res :=
  if !axisUp s then .next s
  else
    let s1 := s.modSlice a fun l => { l with vmaxLo := v.setWidth 32 }
    if v.toInt < 1 then .next (s1.ceSet a 9)
    else if s.tb.running then .next (s1.modSlice a fun l => { l with vmaxNext := some v })
    else .next (s1.modSlice a fun l => { l with vmax := v })

/-- CE_AMAX_WRITE: written and checked as CE_VMAX. -/
def execCeAmaxWrite (a : Fin 80) (v : BitVec 64) (s : State) : Res :=
  if !axisUp s then .next s
  else
    let s1 := s.modSlice a fun l => { l with amaxLo := v.setWidth 32 }
    if v.toInt < 1 then .next (s1.ceSet a 9)
    else if s.tb.running then .next (s1.modSlice a fun l => { l with amaxNext := some v })
    else .next (s1.modSlice a fun l => { l with amax := v })

/-- CE_U_a: y in CST, vc[31:0] in CSV, 0 otherwise. -/
def Slice.uReg (l : Slice) : BitVec 32 :=
  match l.outmode with
  | 1#2 => int32 l.vc
  | 2#2 => int32 l.y
  | _ => 0#32

/-- CE_XR_LO_READ: returns xr[31:0] and captures XR_HI, VR, U, INTEG and FERR of the same pick. -/
def execCeXrLoRead (a : Fin 80) (s : State) : Res :=
  if !axisUp s then .next { s with rdata := [0#32] }
  else
    let l := s.slice a
    let hi := fun (v : Int) => (int64 v >>> 32).setWidth 32
    .next { s.modSlice a fun l =>
      { l with cap := some #v[hi l.xr, int32 l.vr, hi l.vr, l.uReg, int32 l.ic, hi l.ic, int32 l.ep, hi l.ep] } with
      rdata := [int32 l.xr] }

/-- CE_POS_OFF_LO_READ: returns POS_OFF[31:0] and captures POS_OFF[63:32]. -/
def execCePosOffLoRead (a : Fin 80) (s : State) : Res :=
  if !axisUp s then .next { s with rdata := [0#32] }
  else
    let l := s.slice a
    .next { s.modSlice a fun l => { l with capPosOffHi := (int64 l.posOff >>> 32).setWidth 32 } with rdata := [int32 l.posOff] }

/-- CE_BYPASS_CNT_CLEAR: a write of any value clears the count of the arm (R148). -/
def execCeBypassCntClear (r : Fin 8) (s : State) : Res :=
  if axisUp s then .next { s with ce.arm := upd s.ce.arm r fun g => { g with cnt := 0#32 } } else .next s

/-- Values that wait for the pick take effect: configuration, ramp limits and the catch-up gain (R24, R133, R142). -/
def Slice.takeNext (l : Slice) : Slice :=
  let l1 := match l.cfgNext with
    | some v => l.configure v
    | none => l
  { l1 with
    vmax := l1.vmaxNext.getD l1.vmax, vmaxNext := none, amax := l1.amaxNext.getD l1.amax, amaxNext := none,
    kc := l1.kcNext.getD l1.kc, kcNext := none }

end Sys2Proof.Machine
end

