-- ==== Sys2Proof/Machine/Operands.lean ====
section
/-! DEFINITION. The operand forms of Treadle instructions: registers, predicates, immediates, objects, extension words and
addresses (R55 to R61, R77). -/
namespace Sys2Proof

/-- sext(IMM[31:0]) (R75). -/
def TWord.simm (w : TWord) : W64 := w.imm.signExtend 64
/-- IMM[31:0] without sign (R75). -/
def TWord.uimm (w : TWord) : W64 := w.imm.setWidth 64
/-- Extension word i (R56). -/
def TWord.x (w : TWord) (i : Nat) : W64 := w.ext.getD i 0#64

/-- IMM has a bit outside the mask `m` (R57). -/
def TWord.immOutside (w : TWord) (m : BitVec 32) : Bool := decide (w.imm &&& ~~~m ≠ 0#32)

end Sys2Proof

namespace Sys2Proof.Machine

/-- Host flow `f`. -/
def State.flow (s : State) (f : Fin 16) : FlowS := s.tr.flow[f]

/-- Host flow `f` changed by `g`. -/
def State.modFlow (s : State) (f : Fin 16) (g : FlowS → FlowS) : State :=
  { s with tr.flow := upd s.tr.flow f g }

/-- T[r]; T0 reads as zero (R60). -/
def FlowS.reg (fl : FlowS) (r : BitVec 5) : W64 := if r = 0#5 then 0#64 else fl.t[r.toNat]

/-- T[r] written; writes to T0 are ignored (R60). -/
def FlowS.setReg (fl : FlowS) (r : BitVec 5) (v : W64) : FlowS :=
  if r = 0#5 then fl else { fl with t := fl.t.set r.toNat v }

/-- P[r]; P0 reads as 1 (R60). -/
def FlowS.pred (fl : FlowS) (r : BitVec 5) : Bool := if r = 0#5 then true else bit fl.p r.toNat

/-- P[r] written (R60, R76). -/
def FlowS.setPred (fl : FlowS) (r : BitVec 5) (b : Bool) : FlowS := { fl with p := putBit fl.p r.toNat b }

/-- A predicate field that names no predicate (R60). -/
def badPred (r : BitVec 5) : Bool := decide (8 ≤ r.toNat)

/-- A predicate field that names no destination: P0 or none (R60). -/
def badPredDest (r : BitVec 5) : Bool := decide (r = 0#5) || badPred r

/-- OBJ = T[RA] + IMM[6:0], an unsigned 64-bit sum (R58). -/
def FlowS.obj (fl : FlowS) (w : TWord) : W64 := fl.reg w.ra + (w.imm.setWidth 7).setWidth 64

/-- The address T[RA] + sext(IMM[31:0]) (R75, R77). -/
def FlowS.addr (fl : FlowS) (w : TWord) : W64 := fl.reg w.ra + w.simm

/-- An address of `size` bytes that lies in the Shared data partition, aligned to the size (R77, R80). -/
def sharedOk (a : W64) (size : Nat) : Bool :=
  decide (Config.sharedBase ≤ a.toNat) && decide (a.toNat + size ≤ Config.sharedBase + 8 * Config.sharedWords) &&
  decide (a.toNat % size = 0)

/-- An address of a register that REG.RD and REG.WR may reach (R77). -/
def regAddrOk (a : W64) : Bool :=
  decide (0x100000000 ≤ a.toNat) && decide (a.toNat ≤ 0x1012FFFFF) && decide (a.toNat % 4 = 0)

/-- An operation in flight of the flow will write register r (R61). -/
def FlowS.awaits (fl : FlowS) (r : BitVec 5) : Bool := !decide (r = 0#5) && fl.ops.any fun o => decide (o.rd = some r)

/-- Index of the last word of the programme that stepping can reach from `pc`: the last word of the submitted range, or the
last word of the partition when execution has passed the range by a branch (R52, R467). -/
def FlowS.lastWord (fl : FlowS) : Nat :=
  match fl.prog with
  | some g => if fl.pc.toNat ≤ g.start + g.len - 1 then g.start + g.len - 1 else Config.sharedWords - 1
  | none => Config.sharedWords - 1

/-- Words left in the programme after the instruction word at `pc` (R56). -/
def FlowS.wordsLeft (fl : FlowS) : Nat := fl.lastWord - fl.pc.toNat

end Sys2Proof.Machine
end

