-- ==== Sys2Proof/Machine/Flags.lean ====
section
/-! DEFINITION. Completion flags, condition codes, the ALU and the choice of the status that is reported (R10, R74, R76). -/
namespace Sys2Proof.Machine

/-- FLAGS of a completion entry (R74). -/
def flagAccDeferred : BitVec 8 := 0x01#8
/-- CMP_BEHIND (R74). -/
def flagCmpBehind : BitVec 8 := 0x02#8
/-- GEAR_BEHIND (R74). -/
def flagGearBehind : BitVec 8 := 0x04#8
/-- SP_LIMITED (R74). -/
def flagSpLimited : BitVec 8 := 0x08#8
/-- WARM_REJECT (R74). -/
def flagWarmReject : BitVec 8 := 0x10#8
/-- MPC_BYPASS (R74). -/
def flagMpcBypass : BitVec 8 := 0x20#8
/-- TRUNCATED (R74). -/
def flagTruncated : BitVec 8 := 0x40#8
/-- NO_EFFECT (R74). -/
def flagNoEffect : BitVec 8 := 0x80#8

/-- The first faulty condition of a list in the order of R10. -/
def firstFault (l : List (Bool × Status)) : Option Status := (l.find? fun c => c.1).map fun c => c.2

/-- The functions of the ALU (R76). -/
inductive AluOp where
  | add | sub | and | or | xor | shl | shr | sar | mul | min | max
  deriving DecidableEq, Repr

/-- The condition codes (R76). -/
inductive Cond where
  | eq | ne | lt | le | ltu | leu | nw32 | nw16
  deriving DecidableEq, Repr

/-- FN of an ALU function (R76). -/
def AluOp.fn : AluOp → BitVec 4
  | .add => 0#4 | .sub => 1#4 | .and => 2#4 | .or => 3#4 | .xor => 4#4 | .shl => 5#4 | .shr => 6#4 | .sar => 7#4
  | .mul => 8#4 | .min => 9#4 | .max => 10#4

/-- FN of a condition code (R76). -/
def Cond.fn : Cond → BitVec 4
  | .eq => 0#4 | .ne => 1#4 | .lt => 2#4 | .le => 3#4 | .ltu => 4#4 | .leu => 5#4 | .nw32 => 6#4 | .nw16 => 7#4

/-- ADD, SUB and MUL give the low 64 bits; shifts use bits [5:0] of the second operand; MIN and MAX are signed (R76). -/
def AluOp.eval (op : AluOp) (a b : W64) : W64 :=
  match op with
  | .add => a + b
  | .sub => a - b
  | .and => a &&& b
  | .or => a ||| b
  | .xor => a ^^^ b
  | .shl => a <<< (b.setWidth 6).toNat
  | .shr => a >>> (b.setWidth 6).toNat
  | .sar => a.sshiftRight (b.setWidth 6).toNat
  | .mul => a * b
  | .min => if a.slt b then a else b
  | .max => if a.slt b then b else a

/-- The condition codes over the two operands (R76, R47). -/
def Cond.eval (c : Cond) (a b : W64) : Bool :=
  match c with
  | .eq => decide (a = b)
  | .ne => decide (a ≠ b)
  | .lt => a.slt b
  | .le => a.sle b
  | .ltu => a.ult b
  | .leu => a.ule b
  | .nw32 => newer (a.setWidth 32) (b.setWidth 32)
  | .nw16 => newer (a.setWidth 16) (b.setWidth 16)

end Sys2Proof.Machine
end

