-- ==== Sys2Proof/Machine/TreadleCore.lean ====
section
/-! DEFINITION. The life of a host flow: readiness, retiring, fencing, stopping, aborting, the end of a programme and the
operations in flight (R50 to R74). -/
namespace Sys2Proof.Machine

/-- Entries that a ring of the host interface holds: D = 2^DEPTH (R440). -/
def HostRing.size (r : HostRing) : Nat := 2 ^ r.depth.toNat

/-- Entries between head and tail of a ring. -/
def HostRing.fill (r : HostRing) : Nat := (r.tail.toNat + r.size - r.head.toNat) % r.size

/-- Entries that a completion queue can still take: it is full when advancing the tail would make it equal to the head (R441). -/
def HostRing.free (r : HostRing) : Nat := r.size - 1 - r.fill

/-- Completion entries of the flow whose results stand and that are not yet posted. -/
def FlowS.standing (fl : FlowS) : Nat := (fl.posts.filter fun p => p.op.isNone).length

/-- The completion queue leaves the flow not ready: it is full, or a flow that must post finds it disabled (R54, R72, R438). -/
def compBlocked (s : State) (f : Fin 16) : Bool :=
  let r := s.hi.comp[f]
  let n := (s.flow f).standing
  if r.en then decide (r.free ≤ n) else decide (0 < n)

/-- Host flows execute: READY, RUN or SAFE_HOLD with PD3 in RUN (R75, R81, R418). -/
def flowsRun (s : State) : Bool := s.pw.state.live && decide (s.domain 3 = .run)

/-- The flow is executing a programme and may take its next instruction, its completion queue allowing (R54). -/
def flowTakes (s : State) (f : Fin 16) : Bool :=
  let fl := s.flow f
  flowsRun s && fl.prog.isSome && fl.wait.isNone && !compBlocked s f

/-- The flow has a Loom credit (R18, R54). -/
def loomCredit (s : State) (f : Fin 16) : Bool := decide ((s.flow f).ops.length < 32)

/-- Treadle core `f mod 4` is clocked (R427). -/
def State.coreClock (s : State) (f : Fin 16) : State := { s with cr.clk := setBit s.cr.clk (26 + f.val % 4) }

/-- An instruction posts a completion entry (R72). -/
def mustPost (cq : Bool) (st : Status) : Bool := cq || (!st.took && !decide (st = .flowFenced))

/-- A completion entry enters the flow's list in programme order. -/
def FlowS.post (fl : FlowS) (p : Post) : FlowS := { fl with posts := fl.posts ++ [p] }

/-- Status with which the words of the flow retire when they are not executed: FLOW_FENCED while fenced, ABORTED while
stopped or aborting (R67, R70, R71). -/
def FlowS.idleStatus (fl : FlowS) : Option Status :=
  if fl.aborting then some .aborted
  else match fl.state with
    | .fenced => some .flowFenced
    | .stopped => some .aborted
    | _ => none

/-- The programme ends: its entry is posted, and a resume or an abort takes effect at this boundary (R52, R69, R71, R72). -/
def FlowS.endProgramme (fl : FlowS) (st : Status) (instr : BitVec 21) (result : W64) : FlowS :=
  let fl1 := { fl.post { status := st, instr := instr, result := result } with prog := none, lastStatus := st, wait := none }
  if fl1.aborting then { fl1 with aborting := false, resumeReq := false, state := .idle }
  else match fl1.state with
    | .fenced => if fl1.resumeReq then { fl1 with resumeReq := false, state := .idle } else fl1
    | .stopped => if fl1.resumeReq then { fl1 with resumeReq := false, state := .idle } else fl1
    | _ => { fl1 with state := .idle }

/-- Sequential execution goes on `1 + xw` words further; a step past the last word of the range or of the partition ends the
programme as an END with RA = 0 (R52, R56). -/
def FlowS.advance (fl : FlowS) (xw : BitVec 4) : FlowS :=
  let next := fl.pc.toNat + 1 + xw.toNat
  let past := decide (fl.lastWord < next)
  let fl1 := { fl with pc := BitVec.ofNat 21 (if past then fl.lastWord + 1 else next) }
  if past then fl1.endProgramme (fl1.idleStatus.getD .ok) fl1.pc 0#64 else fl1

/-- An instruction of the flow completes with a status and retires (R62, R72, R73); the place after it is left to the caller. -/
def FlowS.complete (fl : FlowS) (cq : Bool) (st : Status) (flags : BitVec 8) (result : W64) : FlowS :=
  let fl1 := { fl with lastStatus := st }
  if mustPost cq st then fl1.post { status := st, flags := flags, instr := fl.pc, result := result } else fl1

/-- A local instruction retires OK and execution goes on at the next word. -/
def State.retireOk (s : State) (f : Fin 16) (w : TWord) (result : W64) (g : FlowS → FlowS) : State :=
  s.modFlow f fun fl => ((g fl).complete w.cq .ok 0#8 result).advance w.xw

/-- An instruction that completes with STATE: the STATE_REJECT record is written and the flow is fenced (R67, R83). -/
def State.fence (s : State) (f : Fin 16) (opc : BitVec 8) (fn : BitVec 4) (obj : BitVec 7) (code : BitVec 8) : State :=
  let instr := (s.flow f).pc
  let s1 := s.emit 4 0x001#12
    [nat32 f.val 0 ||| at32 fn 8 ||| at32 opc 16, instr.setWidth 32, at32 obj 0 ||| at32 code 8 ||| at32 s.pw.state.code 16]
  { (s1.modFlow f fun fl => { fl with state := .fenced }) with tr.fenceEvt := setBit s1.tr.fenceEvt f.val }

/-- An instruction that completes with INTERNAL: the FLOW_STOPPED record is written and the flow stops (R70, R83). -/
def State.stopFlow (s : State) (f : Fin 16) (instr : BitVec 21) : State :=
  let s1 := s.emit 4 0x004#12 [nat32 f.val 0, instr.setWidth 32]
  { (s1.modFlow f fun fl => { fl with state := .stopped, wait := none }) with tr.stopEvt := setBit s1.tr.stopEvt f.val }

/-- An instruction completes with a status of 0x10 or above and has no effect; execution goes on at the word after its
extension words (R56, R57, R67). -/
def State.retireBad (s : State) (f : Fin 16) (w : TWord) (st : Status) (opc : BitVec 8) (fn : BitVec 4) (obj : BitVec 7)
    (code : BitVec 8) : State :=
  let s1 := if st = .state then s.fence f opc fn obj code else s
  s1.modFlow f fun fl => (fl.complete w.cq st 0#8 0#64).advance w.xw

/-- An instruction that is not executed: it retires with FLOW_FENCED or ABORTED, and an END ends the programme (R68, R70,
R71). -/
def FlowS.skipWord (fl : FlowS) (st : Status) (opc : BitVec 8) (fn : BitVec 4) (xw : BitVec 4) (cq : Bool) : FlowS :=
  if opc = 0x00#8 ∧ fn = 1#4 then fl.endProgramme st fl.pc 0#64
  else (fl.complete cq st 0#8 0#64).advance xw

/-- A FLOW.ABORT acts at an instruction boundary of the target: the WAIT in progress completes with ABORTED, and the rest of
the current programme will; FENCED and STOPPED are left at its end (R71). -/
def FlowS.abortEffect (fl : FlowS) : FlowS :=
  let fl1 := { fl with abortReq := false }
  let fl2 := match fl1.wait with
    | some _ => { (fl1.complete fl1.waitCq .aborted 0#8 0#64) with wait := none, state := .running }
    | none => fl1
  let fl3 := { fl2 with aborting := true, resumeReq := false }
  if fl3.prog.isSome then (if fl1.wait.isSome then fl3.advance 0#4 else fl3) else { fl3 with aborting := false, state := .idle }

/-- A Treadle instruction of flow `f` is taken up: nothing happens while the flow is not ready; an abort acts first; a word of
a fenced, stopped or aborting flow retires unexecuted; otherwise `run` executes it (R54, R67, R70, R71). -/
def State.take (s : State) (f : Fin 16) (opc : BitVec 8) (fn : BitVec 4) (w : TWord) (uses : List (BitVec 5))
    (run : State → State) : State :=
  if !flowTakes s f then s
  else if uses.any fun r => (s.flow f).awaits r then s
  else
    let s1 := (if (s.flow f).abortReq then s.modFlow f FlowS.abortEffect else s).coreClock f
    if (s1.flow f).prog.isNone then s1
    else match (s1.flow f).idleStatus with
      | some st => s1.modFlow f fun fl => fl.skipWord st opc fn w.xw w.cq
      | none => run (s1.modFlow f fun fl => { fl with state := .running })

/-- A local instruction: the faulty conditions are examined in order, and with none of them `run` executes it (R10, R56,
R57). -/
def State.local_ (s : State) (f : Fin 16) (opc : BitVec 8) (fn : BitVec 4) (w : TWord) (xw : BitVec 4) (mask : BitVec 32)
    (uses : List (BitVec 5)) (bad : State → List (Bool × Status)) (run : State → State) : State :=
  s.take f opc fn w uses fun s1 =>
    match firstFault ([(decide (w.xw ≠ xw), .badOperand), (w.immOutside mask, .badOperand)] ++
        (bad s1).filter (fun c => decide (c.2 = .badOperand)) ++
        [(decide ((s1.flow f).wordsLeft < w.xw.toNat), .length)] ++ (bad s1).filter (fun c => decide (c.2 ≠ .badOperand))) with
    | some st => s1.retireBad f w st opc fn 0#7 0#8
    | none => run s1

/-! ### Device operations -/

/-- A device operation that completes at its acceptance: it retires with its status, its flags and its result (R61, R62). -/
def State.opAccept (s : State) (f : Fin 16) (w : TWord) (st : Status) (flags : BitVec 8) (result : Option W64) : State :=
  s.modFlow f fun fl =>
    let fl1 := match result with
      | some v => fl.setReg w.rd v
      | none => fl
    (({ fl1 with nextOp := fl1.nextOp + 1 }).complete w.cq st flags (result.getD 0#64)).advance w.xw

/-- A device operation is accepted and completes later: it stands in flight under its number (R62, R72). -/
def State.opIssue (s : State) (f : Fin 16) (w : TWord) (rd : Bool) : State :=
  s.modFlow f fun fl =>
    let fl1 := { fl with
      ops := fl.ops ++ [({ id := fl.nextOp, instr := fl.pc, rd := if rd then some w.rd else none, cq := w.cq } : OpRec)]
      posts := fl.posts ++ [({ op := some fl.nextOp, instr := fl.pc } : Post)]
      nextOp := fl.nextOp + 1 }
    fl1.advance w.xw

/-- The number that the next device operation of the flow takes. -/
def State.opId (s : State) (f : Fin 16) : Nat := (s.flow f).nextOp

/-- An operation in flight completes: RD is written when the status is below 0x10, and its completion entry stands or falls
away (R61, R62, R72). -/
def FlowS.opDone (fl : FlowS) (id : Nat) (st : Status) (flags : BitVec 8) (result : Option W64) : FlowS :=
  match fl.ops.find? fun o => decide (o.id = id) with
  | none => fl
  | some o =>
    let fl1 := match result, o.rd with
      | some v, some r => if st.took then fl.setReg r v else fl
      | _, _ => fl
    let val := if st.took then result.getD 0#64 else 0#64
    { fl1 with
      lastStatus := st
      ops := fl.ops.filter fun o => decide (o.id ≠ id)
      posts :=
        if mustPost o.cq st then
          fl.posts.map fun p => if p.op = some id then { p with op := none, status := st, flags := flags, result := val } else p
        else fl.posts.filter fun p => decide (p.op ≠ some id) }

/-- An operation in flight completes (R62); one that completes with INTERNAL stops its flow (R70). -/
def State.opDone (s : State) (f : Fin 16) (id : Nat) (st : Status) (flags : BitVec 8) (result : Option W64) : State :=
  match (s.flow f).ops.find? fun o => decide (o.id = id) with
  | none => s
  | some o =>
    let s1 := s.modFlow f fun fl => fl.opDone id st flags result
    if st = .internal then s1.stopFlow f o.instr else s1

/-! ### The commands of a flow -/

/-- The address of a submission entry or of a completion entry. -/
def HostRing.entryAddr (r : HostRing) (i : Nat) (size : Nat) : Nat := (r.base.toNat / 4096) * 4096 + size * i

/-- The submission entry at the head of the ring: from the Shared data partition (LOC = 1) or as DMA delivers it (LOC = 0). -/
def subEntry (s : State) (f : Fin 16) (entry : Vector (BitVec 32) 4) : Vector (BitVec 32) 4 :=
  let r := s.hi.sub[f]
  if r.loc then
    let a := r.entryAddr r.head.toNat 16
    #v[s.rd32 a, s.rd32 (a + 4), s.rd32 (a + 8), s.rd32 (a + 12)]
  else entry

/-- The next index of a ring. -/
def HostRing.next (r : HostRing) (i : BitVec 12) : BitVec 12 := BitVec.ofNat 12 ((i.toNat + 1) % r.size)

/-- A non-zero reserved bit of a submission entry (R439). -/
def subReserved (e : Vector (BitVec 32) 4) : Bool :=
  decide (e[1] >>> 8 ≠ 0#32) || decide (e[2] >>> 16 ≠ 0#32) || decide (e[3] ≠ 0#32)

/-- Status of a submission: BAD_OPERAND for a misaligned or foreign address or a reserved bit, LENGTH past the end of the
partition (R51, R439). -/
def subStatus (e : Vector (BitVec 32) 4) : Option Status :=
  let a := e[0].toNat + 2 ^ 32 * (field e[1] 0 8).toNat
  let len := (field e[2] 0 16).toNat + 1
  firstFault
    [(subReserved e, .badOperand), (!sharedOk (BitVec.ofNat 64 a) 8, .badOperand),
     (decide (Config.sharedWords < (a - Config.sharedBase) / 8 + len), .length)]

/-- PROGRAMME_START (R51, R52, R440): a flow with no programme reads the next submission entry and starts it, or refuses it
with one completion entry. -/
def execProgrammeStart (f : Fin 16) (entry : Vector (BitVec 32) 4) (s : State) : Host.Outcome State Fault Refusal :=
  let r := s.hi.sub[f]
  let fl := s.flow f
  if flowsRun s && fl.prog.isNone && fl.wait.isNone && r.en && decide (r.head ≠ r.tail) && !compBlocked s f then
    let e := subEntry s f entry
    let a := e[0].toNat + 2 ^ 32 * (field e[1] 0 8).toNat
    let s1 := { s with hi.sub := upd s.hi.sub f fun r => { r with head := r.next r.head } }
    match subStatus e with
    | some st =>
      .next (s1.modFlow f fun fl => { fl.post { status := st, result := BitVec.ofNat 64 a } with lastStatus := st })
    | none =>
      .next (s1.modFlow f fun fl =>
        { fl with
          prog := some { start := (a - Config.sharedBase) / 8, len := (field e[2] 0 16).toNat + 1 }
          pc := BitVec.ofNat 21 ((a - Config.sharedBase) / 8)
          state := if fl.state = .idle then .running else fl.state })
  else .next s

/-- FENCED_WORD_RETIRE (R68): a word of a fenced, stopped or aborting flow retires; of it only OPC, FN, XW and CQ are
examined. -/
def execFencedWordRetire (f : Fin 16) (opc : BitVec 8) (fn : BitVec 4) (xw : BitVec 4) (cq : Bool) (s : State) :
    Host.Outcome State Fault Refusal :=
  if flowTakes s f then
    match (s.flow f).idleStatus with
    | some st => .next ((s.coreClock f).modFlow f fun fl => fl.skipWord st opc fn xw cq)
    | none => .next s
  else .next s

/-- The axis rests: it is in none of MOVING, HOMING and STOPPING (R64). The axis states stand beside. -/
def AxisState.rests : AxisState → Bool
  | .moving => false | .homing => false | .stopping => false | _ => true

/-- FLOW_ABORT_EFFECT (R71): a FLOW.ABORT acts on its target at the target's instruction boundary. -/
def execFlowAbortEffect (f : Fin 16) (s : State) : Host.Outcome State Fault Refusal :=
  if flowsRun s && (s.flow f).abortReq then .next (s.modFlow f FlowS.abortEffect) else .next s

/-- The four words of a completion entry (R73). -/
def entryWords (f : Fin 16) (phase : Bool) (p : Post) : List (BitVec 32) :=
  [at32 p.status.code 0 ||| nat32 f.val 8 ||| bitAt phase 15 ||| at32 p.flags 16, p.instr.setWidth 32,
   p.result.setWidth 32, (p.result >>> 32).setWidth 32]

/-- Words go to a place of a ring or a buffer: the Shared data partition (LOC = 1; nothing outside it is written) or the PCIe bus
(R439, R443). -/
def State.busWrite (s : State) (loc : Bool) (a : Nat) (ws : List (BitVec 32)) : State :=
  if loc then
    (if Config.sharedBase ≤ a ∧ a + 4 * ws.length ≤ Config.sharedBase + 8 * Config.sharedWords then s.wrBytes a (wordsBytes ws) else s)
  else { s with out := .dma (BitVec.ofNat 64 a) ws :: s.out }

/-- A completion entry is written at the tail of queue `f`, and vector `f` follows it when it is due (R441). -/
def State.postEntry (s : State) (f : Fin 16) (p : Post) : State :=
  let r := s.hi.comp[f]
  let ws := entryWords f r.phase p
  let a := r.entryAddr r.tail.toNat 16
  let s1 := s.busWrite r.loc a ws
  let t := r.next r.tail
  let fire := r.irqEn && !r.irqSent
  let s2 := { s1 with hi.comp := upd s1.hi.comp f fun r =>
    { r with tail := t, phase := if t = 0#12 then !r.phase else r.phase, irqSent := r.irqSent || fire } }
  if fire then s2.raise (f.castLE (by decide)) else s2

/-- COMPLETION_POST (R62, R72, R441): the oldest completion entry of the flow is posted once its result stands and the queue
is enabled and not full. -/
def execCompletionPost (f : Fin 16) (s : State) : Host.Outcome State Fault Refusal :=
  let r := s.hi.comp[f]
  match (s.flow f).posts with
  | p :: rest =>
    if p.op.isNone && r.en && decide (0 < r.free) && decide (s.domain 3 = .run) then
      .next ((s.postEntry f p).modFlow f fun fl => { fl with posts := rest })
    else .next s
  | [] => .next s

end Sys2Proof.Machine
end

