-- ==== Sys2Proof/Machine/Profile.lean ====
section
/-! DEFINITION. The profile generator at a pick: effects of accepted operations, scale groups, arm moves, the entry of every axis,
gearing, homing, and the parameter rules (07_profiles.md; R24, R64, R66). -/
namespace Sys2Proof.Machine

/-! ### Speed scaling (R175) -/

/-- The effective scale of the next pick from the target, the present scale, the largest rise and the steepest fall allowed
(R175). -/
def nextSigma (target sigma up : Nat) (fall : Option Nat) : Nat :=
  if sigma ≤ target then min target (sigma + up)
  else match fall with
    | some d => max target (sigma - d)
    | none => target

/-- Δ over the axes of a group: the least ⌊dq × 32,768 / |v|⌋ of those that move (R175). -/
def groupFall (s : State) (l : List (Fin 80)) : Option Nat :=
  (l.filterMap fun a =>
    let p := s.pax a
    let v := (p.lastV).natAbs
    if p.stopMode || decide (p.src = .gear) || decide (v = 0) then none
    else some (((increment s.pickV (p.par 8)).toNat * 32768) / v)).min?

/-- The least scale published to an arm that holds a slave geared to an axis of the group (R175). -/
def slaveScale (s : State) (l : List (Fin 80)) : Nat :=
  ((fins 80).filterMap fun b =>
    if (s.axis b).state = .geared ∧ l.contains (s.pax b).gear.master then
      (s.safeArm b).map fun r => (s.sv.armPub[r]).scale.toNat
    else none).foldl min 32768

/-- The axes of scale group "arm r" (R175). -/
def groupArm (s : State) (r : Fin 8) : List (Fin 80) := (fins 80).filter fun a => decide (s.safeArm a = some r)

/-- Scales S and σ of the pick, for arms, auxiliary axes and joint axes that no arm in use owns (R175). -/
def State.scaleUpdate (s : State) : State :=
  let up := s.pg.dsUp.toNat
  let s1 := s.forEach (fins 8) fun s r =>
    let g := groupArm s r
    let t := min (s.sv.armPub[r]).scale.toNat (slaveScale s g)
    { s with
      pg.tgt := upd s.pg.tgt r fun _ => BitVec.ofNat 16 t
      pg.sigma := upd s.pg.sigma r fun x => nextSigma t x up (groupFall s g) }
  let s2 := s1.forEach (fins 16) fun s j =>
    let a : Fin 80 := Fin.ofNat 80 (64 + j.val)
    let t := min 32768 (slaveScale s [a])
    { s with
      pg.auxTgt := upd s.pg.auxTgt j fun _ => BitVec.ofNat 16 t
      pg.auxSigma := upd s.pg.auxSigma j fun x => nextSigma t x up (groupFall s [a]) }
  s2.forEach (fins 64) fun s j =>
    { s with pg.freeSigma := upd s.pg.freeSigma j fun x => nextSigma 0 x up (groupFall s [Fin.ofNat 80 j.val]) }

/-! ### Homing (R172 to R174) -/

/-- Search direction of a homing method (R172). -/
def homeDir (m : BitVec 4) : Int := if m = 3#4 ∨ m = 4#4 then 1 else -1

/-- The limits of a homing move: HOME_SPEED in the place of VMOVE (R172, R174). -/
def PgAxis.homeLimits (p : PgAxis) : MoveLimits := { p.limits with vmove := p.par 11 }

/-- Homing starts at its effect pick; method 0 assigns the measured position and holds (R172, R174). -/
def State.startHome (s : State) (a : Fin 80) (m : BitVec 4) (w0 : Int) : State :=
  if m = 0#4 then
    let d := w0 - (s.slice a).xm
    ((s.shiftAxis a d).shiftCommand a d).pgSet a 5
  else
    let vv := s.pickV
    let t := s.now
    (s.modPax a fun p0 =>
      let p := { p0.merge with w := none }
      { p.restart with
        src := .homing, stopMode := false, safety := false, quick := false
        pl := Planner.startSearch (p.homeLimits.plan vv) p.lastX (homeDir m)
        home := { method := m, w0 := w0, from_ := p.lastX, since := t } }).setAxis a .homing

/-- The home point `h` has been found: the positions are shifted so that it reads w0, and the axis moves to its end position
(R174). A stall sets xr to x_m (R173). -/
def State.homeFound (s : State) (a : Fin 80) (h : Int) (stall : Bool) : State :=
  let vv := s.pickV
  let p := s.pax a
  let d := p.home.w0 - h
  let s1 := if stall then
      let xm := (s.slice a).xm
      (s.modSlice a fun l => { l with xr := xm, rem := 0 }).modPax a fun p => { p with lastX := xm, lastV := 0 }
    else s
  let s2 := (s1.shiftAxis a d).shiftCommand a d
  s2.modPax a fun p =>
    { p.restart with
      pl := Planner.startMove (p.homeLimits.plan vv) vv p.lastX p.lastV (p.home.w0 - p.par 18 * homeDir p.home.method)
      target := p.home.w0 - p.par 18 * homeDir p.home.method
      home := { p.home with found := true, stall := 0 } }

/-- A stall search is in progress on the axis (R173). -/
def stallSearch (s : State) (a : Fin 80) : Bool :=
  let p := s.pax a
  decide ((s.axis a).state = .homing) && !p.home.found &&
    (decide (p.home.method = 2#4) || decide (p.home.method = 4#4))

/-- Homing of an axis after the slices of the pick at `t` ns are computed: the switch edge, or the count of stall picks
(R172, R173). -/
def State.homePick (s : State) (a : Fin 80) (t : Nat) : State :=
  let p := s.pax a
  if (s.axis a).state = .homing ∧ p.home.found = false then
    if p.home.method = 1#4 ∨ p.home.method = 3#4 then
      let c : Fin 96 := Fin.ofNat 96 (p.par 19).toNat
      let e := ((s.ch c).adopt.getD (s.ch c).latch).e
      if p.home.since < e then
        s.homeFound a ((s.slice a).xm - ((s.slice a).vm * ((t : Int) - e)).tdiv 1000000000) false
      else s
    else
      let l := s.slice a
      let still := decide ((l.vm.natAbs : Int) ≤ p.par 16) && decide (p.par 14 ≤ (l.ep.natAbs : Int))
      let n := if still then p.home.stall + 1 else 0
      let s1 := s.modPax a fun p => { p with home := { p.home with stall := n } }
      if still && decide (p.par 15 ≤ (n : Int)) then s1.homeFound a l.xm true else s1
  else s

/-- The search has travelled HOME_TRAVEL without finding the home point: the axis brakes and will enter FAULT (R174, R179). -/
def State.homeTravel (s : State) (a : Fin 80) (x : Int) : State :=
  let p := s.pax a
  if (s.axis a).state = .homing ∧ p.home.found = false ∧ p.par 17 ≤ ((x - p.home.from_).natAbs : Int) then
    let m := p.home.method
    (((s.stopAxis a false false).modPax a fun p => { p with home := { method := m, failed := true } }).pgSet a 6).emit 12 0x001#12
      [nat32 a.val 0 ||| at32 m 8]
  else s

/-! ### Entries (R153, R154, R163) -/

/-- A set-point entry of the profile generator: TFF is 0 (R134, R153). -/
def mkEntry (x v : Int) (k : BitVec 32) (t : Nat) : SpEntry := { x := x, v := v, tff := 0, index := k, stime := BitVec.ofNat 64 t }

/-- The entry of an axis is set, and the sign of its last non-zero speed kept (R106, R153, R155). -/
def PgAxis.put (p : PgAxis) (x vu v : Int) (k : BitVec 32) (t : Nat) : PgAxis :=
  { p with entry := some (mkEntry x v k t), lastX := x, lastV := vu, spDir := if v = 0 then p.spDir else sgn v }

/-- LIMIT_STOP is set and recorded (R163, R179). -/
def State.limitStop (s : State) (a : Fin 80) (hi : Bool) (k : BitVec 32) : State :=
  (s.pgSet a 3).emit 12 0x002#12 [nat32 a.val 0 ||| bitAt hi 8, k]

/-- What follows from the end of the plan of an axis (R34, R159, R162, R164, R167, R174). -/
def State.planEnded (s : State) (a : Fin 80) (x : Int) : State :=
  let p := s.pax a
  if p.armBrake then s.modPax a fun p => { p with armBrake := false, stopMode := false, samples := [], done := true, pl := {} }
  else match p.src with
    | .stop => s.stopEnded a x
    | .homing => (s.holdAxis a x).pgSet a 5
    | _ => s.moveEnded a x

/-- The entry of an axis whose samples run: θ advances by the scale and the entry is formed between two samples (R154). -/
def State.runEntry (s : State) (a : Fin 80) (k : BitVec 32) (t : Nat) : State :=
  let p := s.pax a
  let sg := if p.stopMode then 32768 else s.sigmaOf a
  let vv := s.pickV
  let n := needed (p.phi + sg)
  let r := outStage (PgAxis.fill vv s.pg.slot n n p).samples (p.phi + sg)
  let x := blend r.1.x r.2.1.x r.2.2.1
  let vu := blend r.1.v r.2.1.v r.2.2.1
  let show_ := if r.2.2.1 = 0 then r.1 else r.2.1
  let s1 := s.modPax a fun p =>
    { (PgAxis.fill vv s.pg.slot n n p).put x vu (rsh (vu * sg) 15) k t with
      samples := r.2.2.2.1, phi := r.2.2.1, phase := show_.phase, neg := show_.neg }
  if r.2.2.2.2 then s1.planEnded a x else s1.homeTravel a x

/-- The limit that the samples taken up in this pick would pass (R163). Stops, homing and references ignore it. -/
def limitAhead (s : State) (a : Fin 80) : Option Bool :=
  let p := s.pax a
  if (p.src = .move ∨ p.src = .seg) ∧ p.armBrake = false then
    let th := p.phi + s.sigmaOf a
    beyond (PgAxis.fill s.pickV s.pg.slot (needed th) (needed th) p).samples th (p.par 9) (p.par 10)
  else none

/-- The entry with INDEX k of an axis that follows neither a master nor an arm move (R153 to R155, R163). -/
def State.axisEntry (s : State) (a : Fin 80) (k : BitVec 32) (t : Nat) : State :=
  let p := s.pax a
  if p.src = .hold then s.modPax a fun p => p.put p.hold 0 0 k t
  else if p.samples.isEmpty then s.modPax a fun p => p.put p.lastX 0 0 k t
  else match limitAhead s a with
    | some hi => ((s.stopAxis a true false).limitStop a hi k).runEntry a k t
    | none => s.runEntry a k t

/-! ### Arm moves (R164, R165, R469) -/

/-- The normalised limits of an arm move (R164). -/
def normLimits (s : State) (axes : List (Fin 80)) (d : List Int) : MoveLimits :=
  let q := (axes.zip d).filter fun x => decide (x.2 ≠ 0)
  let n := fun (g : PgAxis → Int) =>
    min (2 ^ 63 - 1) ((q.map fun x => g (s.pax x.1) * 2 ^ 48 / (x.2.natAbs : Int)).min?.getD (2 ^ 63 - 1))
  let acc := n fun p => min (p.par 1) (p.par 2)
  let dec := n fun p => min (p.par 4) (p.par 3)
  { vmove := n fun p => p.par 0, acc1 := acc, acc2 := acc, dec1 := dec, dec2 := dec, vbreak := 0,
    vstart := n fun p => p.par 6, vstop := n fun p => p.par 7, qdec := n fun p => p.par 8 }

/-- Position and speed of an axis of an arm move at a sample of u (R164). -/
def armPoint (x0 target : Int) (q : Sample) : Int × Int := (x0 + rsh ((target - x0) * q.x) 48, rsh ((target - x0) * q.v) 48)

/-- Samples of u are computed until `n` stand queued or the plan has ended. -/
def ArmMove.fill (vv : Nat) (n : Nat) : Nat → ArmMove → ArmMove
  | 0, m => m
  | fuel + 1, m =>
    if m.done || decide (n ≤ m.samples.length) then m
    else
      let r := m.pl.next vv
      ArmMove.fill vv n fuel { m with pl := r.1, samples := m.samples ++ [r.2], done := r.2.ends }

/-- The synchronised profile starts once every axis of the move is at rest (R164). -/
def State.armSync (s : State) (r : Fin 8) (m : ArmMove) : State :=
  let x0 := m.axes.map fun a => (s.pax a).lastX
  let d := (m.targets.zip x0).map fun q => q.1 - q.2
  if d.all fun x => decide (x = 0) then
    s.forEach (m.axes.zip m.targets) fun s q => s.moveEnded q.1 q.2
  else
    let k := (normLimits s m.axes d).plan s.pickV
    let m' : ArmMove := { m with
      synced := true, x0 := x0, pl := Planner.startMove k s.pickV 0 0 (2 ^ 48), samples := [{}], phi := 0, done := false,
      lastU := 0, lastUd := 0, stopMode := false }
    { s with pg.mv := upd s.pg.mv r fun _ => some m' }

/-- The axes of an arm move that the samples taken up in this pick would carry beyond a limit, with the limit (R163, R469). -/
def armLimits (s : State) (m : ArmMove) (th : Nat) : List (Fin 80 × Bool) :=
  (m.axes.zip (m.x0.zip m.targets)).filterMap fun q =>
    let l := m.samples.map fun u => { u with x := (armPoint q.2.1 q.2.2 u).1, v := (armPoint q.2.1 q.2.2 u).2 }
    (beyond l th ((s.pax q.1).par 9) ((s.pax q.1).par 10)).map fun hi => (q.1, hi)

/-- The entries of the axes of a running arm move (R154, R164, R469). -/
def State.armRun (s : State) (r : Fin 8) (k : BitVec 32) (t : Nat) : State :=
  match s.pg.mv[r] with
  | none => s
  | some m0 =>
    let sg := if m0.stopMode then 32768 else m0.axes.head?.elim 32768 s.sigmaOf
    let n := needed (m0.phi + sg)
    let m := m0.fill s.pickV n n
    let g := outStage m.samples (m.phi + sg)
    let phi := g.2.2.1
    let m' : ArmMove := { m with
      samples := g.2.2.2.1, phi := phi, lastU := blend g.1.x g.2.1.x phi, lastUd := blend g.1.v g.2.1.v phi }
    let show_ := if phi = 0 then g.1 else g.2.1
    let s1 := ({ s with pg.mv := upd s.pg.mv r fun _ => some m' }).forEach (m.axes.zip (m.x0.zip m.targets)) fun s q =>
      let a := armPoint q.2.1 q.2.2 g.1
      let b := armPoint q.2.1 q.2.2 g.2.1
      let vu := blend a.2 b.2 phi
      s.modPax q.1 fun p =>
        { p.put (blend a.1 b.1 phi) vu (rsh (vu * sg) 15) k t with
          phase := show_.phase, neg := decide (q.2.2 < q.2.1) }
    if g.2.2.2.2 then
      let s2 := s1.forEach m.axes fun s a => if m.stopMode then s.stopEnded a (s.pax a).lastX else s.moveEnded a (s.pax a).lastX
      { s2 with pg.mv := upd s2.pg.mv r fun _ => none }
    else s1

/-- One arm move at a pick: it synchronises, stops at a limit, or runs (R163, R164, R469). -/
def State.armPick (s : State) (r : Fin 8) (k : BitVec 32) (t : Nat) : State :=
  match s.pg.mv[r] with
  | none => s
  | some m =>
    if m.synced then
      let sg := m.axes.head?.elim 32768 s.sigmaOf
      let n := needed (m.phi + sg)
      let hit := if m.stopMode then [] else armLimits s (m.fill s.pickV n n) (m.phi + sg)
      let s1 := if hit.isEmpty then s
        else (s.stopArmMove r true false).forEach hit fun s q => s.limitStop q.1 q.2 k
      s1.armRun r k t
    else if m.axes.all fun a => !(s.pax a).armBrake then (s.armSync r m).armRun r k t
    else s

/-- The axes whose entries an arm move forms. -/
def armDriven (s : State) (a : Fin 80) : Bool :=
  (s.pax a).inArm.elim false fun r => (s.pg.mv[r]).elim false fun m => m.synced && m.axes.contains a

/-- An ARM.MOVE takes over its arm at its start boundary: axes that still move brake as under AXIS.STOP (R164, R165). -/
def State.startArmMove (s : State) (r : Fin 8) (targets : List Int) : State :=
  let axes := s.armAxes r
  let vv := s.pickV
  let s1 := s.forEach axes fun s a => s.leaveArm a
  let s2 := s1.forEach axes fun s a =>
    let sg := (s.sigmaOf a : Int)
    (s.modPax a fun p0 =>
      let p := p0.merge
      let rest := decide (p.src = .hold) || (p.done && decide (p.lastV = 0)) || p.samples.isEmpty
      if rest then
        { p with
          src := .move, w := none, inArm := some r, armBrake := false, samples := [], phi := 0, done := true, pl := {}
          stopMode := false, quick := false, safety := false }
      else
        ({ p with
            src := .move, w := none, inArm := some r, armBrake := true, stopMode := true, quick := false, safety := false
            lastV := if p.stopMode then p.lastV else rsh (p.lastV * sg) 15 }).replan vv).setAxis a .moving
  let m : ArmMove := { axes := axes, x0 := axes.map fun _ => 0, targets := targets }
  { s2 with pg.mv := upd s2.pg.mv r fun _ => some m }

/-! ### Gearing (R168 to R171) -/

/-- Position and velocity of the master of a slave in pick k: its entry, or its measurement (R168). -/
def masterOf (s : State) (b : Fin 80) : Int × Int :=
  let p := s.pax b
  let m := p.gear.master
  if p.par 20 = 1 then ((s.slice m).xm, (s.slice m).vm)
  else match (s.pax m).entry with
    | some e => (e.x, e.v)
    | none => ((s.pax m).lastX, 0)

/-- One pick of the gear law: the gearing, X_SP, V_SP and whether a pending change fired (R168, R169). -/
def Gear.run (g : Gear) (hold m vm : Int) : Gear × Int × Int × Bool :=
  let g0 := if g.fresh then
      { g with
        fresh := false, mPrev := m, baseS := hold
        engaged := g.pend.isNone, baseM := if g.pend.isNone then m else g.baseM }
    else g
  let g1 := match g0.rebase with
    | some q =>
      if g0.engaged then
        { g0 with baseS := g0.baseS + rsh (g0.ratio * (m - g0.baseM)) 32, baseM := m, ratio := q, rebase := none }
      else { g0 with engaged := true, baseM := m, ratio := q, pend := none, rebase := none }
    | none => g0
  let g2 : Gear × Bool := match g1.pend with
    | some (w1, q) =>
      if sgn (g1.mPrev - w1) ≠ 0 ∧ sgn (m - w1) ≠ sgn (g1.mPrev - w1) then
        ({ g1 with
            baseS := if g1.engaged then g1.baseS + rsh (g1.ratio * (w1 - g1.baseM)) 32 else g1.baseS
            baseM := w1, ratio := q, pend := none, engaged := true }, true)
      else (g1, false)
    | none => (g1, false)
  let x := if g2.1.engaged then sat64 (g2.1.baseS + sat64 (rsh (g2.1.ratio * (m - g2.1.baseM)) 32)) else g2.1.baseS
  let v := if g2.1.engaged then sat64 (rsh (g2.1.ratio * vm) 32) else 0
  ({ g2.1 with mPrev := m }, x, v, g2.2)

/-- The entry of a slave (R163, R168). -/
def State.gearEntry (s : State) (b : Fin 80) (k : BitVec 32) (t : Nat) : State :=
  let p := s.pax b
  let mm := masterOf s b
  let r := p.gear.run p.hold mm.1 mm.2
  let x := r.2.1
  let v := r.2.2.1
  let lim := if 0 < v ∧ p.par 10 < x then some true else if v < 0 ∧ x < p.par 9 then some false else none
  match lim with
  | some hi => ((s.stopAxis b true false).limitStop b hi k).runEntry b k t
  | none =>
    let s1 := s.modPax b fun p => { p with gear := r.1 }.put x v v k t
    if r.2.2.2 then (s1.pgSet b 2).emit 12 0x004#12 [nat32 b.val 0, k] else s1

/-- How many masters stand above a slave; at most 8 (R169). -/
def gearDepth (s : State) : Nat → Fin 80 → Nat
  | 0, _ => 0
  | fuel + 1, a => if (s.axis a).state = .geared then 1 + gearDepth s fuel (s.pax a).gear.master else 0

/-- The entries with INDEX k of all axes, masters before their slaves (R153, R155). -/
def State.formEntries (s : State) (k : BitVec 32) (t : Nat) : State :=
  let s0 := s.forEach (fins 80) fun s a => s.modPax a fun p => { p with entry := none }
  let s1 := s0.forEach (fins 8) fun s r => s.armPick r k t
  let s2 := s1.forEach (fins 80) fun s a =>
    if (s.axis a).state.closed && decide ((s.axis a).state ≠ .geared) && (s.pax a).entry.isNone then s.axisEntry a k t else s
  s2.forEach (List.range 9) fun s d =>
    s.forEach ((fins 80).filter fun a => decide ((s.axis a).state = .geared) && decide (gearDepth s 9 a = d) && (s.pax a).entry.isNone)
      fun s a => s.gearEntry a k t

/-! ### AXIS.PARAM at its effect pick (R156, R161, R162) -/

/-- Ranges of the parameters (R156). -/
def paramRange (p : Nat) : Int × Int :=
  match p with
  | 5 => (0, 2 ^ 63 - 1) | 6 => (0, 2 ^ 63 - 1) | 7 => (0, 2 ^ 63 - 1)
  | 9 => (-2 ^ 63, 2 ^ 63 - 2) | 10 => (-2 ^ 63 + 1, 2 ^ 63 - 1)
  | 12 => (0, 0x40000000) | 13 => (0, 255) | 15 => (1, 65535) | 16 => (0, 2 ^ 63 - 1) | 18 => (0, 2 ^ 63 - 1)
  | 19 => (0, 95) | 20 => (0, 1) | 21 => (0, 255) | 22 => (0, 255) | 23 => (0, 65535)
  | _ => (1, 2 ^ 63 - 1)

/-- A parameter value outside its range, or a limit that would leave POS_MIN ≥ POS_MAX (R156). -/
def paramBad (q : PgAxis) (p : Nat) (v : BitVec 64) : Bool :=
  let r := paramRange p
  decide (v.toInt < r.1) || decide (r.2 < v.toInt) || (decide (p = 9) && decide (q.par 10 ≤ v.toInt)) ||
    (decide (p = 10) && decide (v.toInt ≤ q.par 9))

/-- Distance of a quick stop from speed `v` by `dq` per sample (R161, R162). -/
def quickDistance (dq : Int) (vv : Nat) : Nat → Int → Int
  | 0, _ => 0
  | fuel + 1, v => if v ≤ dq then 0 else stepNo (v - dq) vv + quickDistance dq vv fuel (v - dq)

/-- Parameter `p` of an axis set to `v`. -/
def PgAxis.setParam (q : PgAxis) (p : Nat) (v : BitVec 64) : PgAxis :=
  { q with param := updN q.param p fun _ => v, deferred := q.deferred.filter fun d => decide (d.1 ≠ p) }

/-- A new braking value passes its test at the effect pick (R161): in MODE move the target is still met; while braking without a
target the distance does not grow. -/
def PgAxis.brakingOk (q : PgAxis) (p : Nat) (v : BitVec 64) (vv : Nat) : Bool :=
  let sp := if q.lastV < 0 then -q.lastV else q.lastV
  let dir : Int := if q.lastV < 0 then -1 else 1
  let kOld := q.limits.plan vv
  let kNew := (q.setParam p v).limits.plan vv
  let r := (q.target - q.lastX) * dir
  if (q.src = .stop || q.armBrake) && q.quick then
    decide (quickDistance kNew.dq vv sp.toNat sp ≤ quickDistance kOld.dq vv sp.toNat sp)
  else if q.src = .stop || q.armBrake || decide (r < kOld.brake vv sp) then decide (kNew.brake vv sp ≤ kOld.brake vv sp)
  else decide (kNew.brake vv sp ≤ r)

/-- The planner of the axis brakes or moves with its own parameters (R161). -/
def PgAxis.planned (q : PgAxis) : Bool :=
  (decide (q.src = .move) || decide (q.src = .stop) || decide (q.src = .mpcRef)) && (q.inArm.isNone || q.armBrake) &&
    !decide (q.pl.mode = .idle)

/-- A parameter that enters the braking in use (R161, R162). -/
def PgAxis.inBraking (q : PgAxis) (p : Nat) : Bool :=
  let plain := decide (p = 3) || decide (p = 4) || decide (p = 5) || decide (p = 7)
  if (q.src = .stop || q.armBrake) && q.quick then decide (p = 8) else plain

/-- AXIS.PARAM at its effect pick: the axis, its status and its flags; `running` says that picks run (R156, R161). -/
def PgAxis.paramEffect (q : PgAxis) (p : Nat) (v : BitVec 64) (vv : Nat) (running : Bool) : PgAxis × Status × BitVec 8 :=
  if running && q.planned && q.w.isSome && decide (q.src ≠ .stop) && decide (p ≤ 4) then
    ({ q with deferred := (q.deferred.filter fun d => decide (d.1 ≠ p)) ++ [(p, v)] }, .okDeferred, 0#8)
  else if running && q.planned && q.inBraking p && !q.brakingOk p v vv then
    ({ q with deferred := (q.deferred.filter fun d => decide (d.1 ≠ p)) ++ [(p, v)] }, .okDeferred, flagAccDeferred)
  else
    let q1 := q.setParam p v
    (if running && q.planned && decide (p ≤ 8) then q1.replan vv else q1, .ok, 0#8)

end Sys2Proof.Machine
end

