-- ==== Sys2Proof/Machine/DeviceOps.lean ====
section
/-! DEFINITION. How a device operation is checked and accepted, and how an accepted operation takes effect at its pick (R10, R24,
R56 to R66, R81, R82, R165). -/
namespace Sys2Proof.Machine

/-! ### The command log of a pair (R368) -/

/-- The instruction word with its register operands resolved: RA and RB are T0, and IMM[6:0] is the object (R55, R368). -/
def logWord (opc : BitVec 8) (fn : BitVec 4) (w : TWord) (obj : BitVec 7) : W64 :=
  (opc ++ fn ++ w.xw ++ w.rd ++ (0#10 ++ bitAt (n := 1) w.cq 0) ++ (field w.imm 7 25 ++ obj) : BitVec 64)

/-- The two words of a 64-bit value. -/
def words64 (v : W64) : List (BitVec 32) := [v.setWidth 32, (v >>> 32).setWidth 32]

/-- A log entry: LEN and FLOW, the instruction word, OBJ, and what follows (R368). -/
def logEntry (f : Fin 16) (instr : W64) (obj : BitVec 32) (rest : List (BitVec 32)) : List (BitVec 32) :=
  (nat32 (4 + rest.length) 0 ||| nat32 f.val 8) :: (words64 instr ++ [obj] ++ rest)

/-- The operations that change what a pair copies: those of axes, arms, loops, channels, segment tables, drafts and Churn, but not
AXIS.READ and QP.SUBMIT (R368, R384). -/
def loggedOp (opc : BitVec 8) (fn : BitVec 4) : Bool :=
  decide (0x20 ≤ opc.toNat) && decide (opc.toNat ≤ 0x31) && !(decide (opc = 0x20#8) && decide (fn = 9#4)) &&
  !(decide (opc = 0x31#8) && decide (fn = 3#4))

/-- An accepted operation enters the command log of a device that leads a pair (R368); w0 of an ARM.MOVE takes the value of RB. -/
def State.logOp (s : State) (f : Fin 16) (opc : BitVec 8) (fn : BitVec 4) (w : TWord) (obj : BitVec 7) (rb : W64) : State :=
  let lead := decide (s.pr.role = .active) && (decide (s.pr.partner = .standby) || decide (s.pr.partner = .syncing))
  if lead && loggedOp opc fn then
    let ext := if opc = 0x21#8 ∧ fn = 3#4 then (w.x 0 + rb) :: w.ext.drop 1 else w.ext
    { s with pr.log := s.pr.log ++ [logEntry f (logWord opc fn w obj) (at32 obj 0) (ext.flatMap words64)] }
  else s

/-! ### The checks of a device operation (R10) -/

/-- A device operation of flow `f`: it is issued, presented to its owning block and accepted or rejected in one step. `early`
are the conditions up to RANGE, in any order; `gate` are the conditions from the device state onward, in their order, each with
the object state code that a STATE_REJECT record shows. A flow without a Loom credit is not ready (R10, R18, R54, R56 to R58,
R62). -/
def State.devOp (s : State) (f : Fin 16) (opc : BitVec 8) (fn : BitVec 4) (w : TWord) (uses : List (BitVec 5))
    (mask : BitVec 32) (objMax : Option Nat) (early : State → List (Bool × Status))
    (gate : State → List (Bool × Status × BitVec 8)) (run : State → State) : State :=
  s.take f opc fn w uses fun s1 =>
    let ob := (s1.flow f).obj w
    let obj : BitVec 7 := if objMax.isSome then ob.setWidth 7 else 0#7
    if !loomCredit s1 f then s
    else
      let e := early s1
      let first := [(w.immOutside mask, Status.badOperand),
          (match objMax with | some n => decide (n ≤ ob.toNat) | none => false, .badOperand)] ++
        e.filter (fun c => decide (c.2 = .badOperand)) ++
        [(decide ((s1.flow f).wordsLeft < w.xw.toNat), .length)] ++ e.filter (fun c => decide (c.2 = .length)) ++
        e.filter (fun c => decide (c.2 = .range))
      match firstFault first with
      | some st => s1.retireBad f w st opc fn obj 0#8
      | none =>
        match (gate s1).find? fun c => c.1 with
        | some (_, st, code) => s1.retireBad f w st opc fn obj code
        | none => run (s1.logOp f opc fn w obj ((s1.flow f).reg w.rb))

/-- The device-state column of R81, with the domain of the owning block in RUN. -/
def stateGate (s : State) (ok : List DevState) (d : Fin 13) (code : BitVec 8) : Bool × Status × BitVec 8 :=
  (!ok.contains s.pw.state || decide (s.domain d ≠ .run), .state, code)

/-- The Lease column of R81. -/
def leaseGate (s : State) : Bool × Status × BitVec 8 := (!s.lease, .notOwner, 0#8)

/-- R82: an unsealed configuration, or a stop that persists for one of the axes. -/
def deniedAxes (s : State) (axes : List (Fin 80)) : Bool := !s.sv.sealed || axes.any fun a => (s.stopOf a).isSome

/-- R82: an unsealed configuration, or a stop that persists for the arm. -/
def deniedArm (s : State) (r : Fin 8) : Bool := !s.sv.sealed || (s.sv.armPub[r]).stop.isSome

/-- R255, R468: a joint axis whose arm differs from its sealed entry, or that belongs to no arm in use. -/
def deniedEnable (s : State) (a : Fin 80) : Bool :=
  decide (a.val < 64) && !(match s.armOf a with
    | some r => s.armMatches r
    | none => false)

/-- R82, R255: AXIS.CLEAR is denied while unsealed, and for an axis faulted by a category 0 stop while the stop persists. -/
def deniedClear (s : State) (a : Fin 80) : Bool := !s.sv.sealed || ((s.axis a).selFault && (s.stopOf a).isSome)

/-- The axis belongs to an arm under MPC (R79). -/
def underMpc (s : State) (a : Fin 80) : Bool :=
  match s.armOf a with
  | some r => (s.armDef r).mpc
  | none => false

/-- A move may start: HOLDING or MOVING (R81). -/
def AxisState.movable : AxisState → Bool
  | .holding => true | .moving => true | _ => false

/-- A stop acts: MOVING, HOMING or GEARED (R81). -/
def AxisState.stoppable : AxisState → Bool
  | .moving => true | .homing => true | .geared => true | _ => false

/-- Object state code of an axis operation (R83). -/
def axCode (s : State) (a : Fin 80) : BitVec 8 := (s.axis a).state.code.setWidth 8

/-- The axis that an operation names, once OBJ lies in range. -/
def State.opAxis (s : State) (f : Fin 16) (w : TWord) : Fin 80 := Fin.ofNat 80 ((s.flow f).obj w).toNat
/-- The arm that an operation names. -/
def State.opArm (s : State) (f : Fin 16) (w : TWord) : Fin 8 := Fin.ofNat 8 ((s.flow f).obj w).toNat
/-- The feedback channel that an operation names. -/
def State.opCh (s : State) (f : Fin 16) (w : TWord) : Fin 96 := Fin.ofNat 96 ((s.flow f).obj w).toNat

/-! ### Effects (R24, R64, R66, R165) -/

/-- Device states in which the effect may start (R66, R81). -/
def EffKind.states : EffKind → List DevState
  | .disable => [.ready, .run] | .clear => [.ready, .run] | .param .. => [.ready, .run]
  | .stop _ => [.ready, .run, .safeHold] | .armStop .. => [.ready, .run, .safeHold]
  | _ => [.run]

/-- The object condition of R81 holds at the effect pick, and no stop or unsealed configuration denies the effect (R66,
R82, R132). -/
def effectOk (s : State) (e : Effect) : Bool :=
  e.kind.states.contains s.pw.state && decide (s.domain 9 = .run) &&
  (match e.kind with
   | .enable => !deniedAxes s e.axes && !(e.axes.any fun a => deniedEnable s a) &&
       e.axes.all fun a => decide ((s.axis a).state = .disabled) && !(s.slice a).unknown
   | .disable => e.axes.all fun a => decide ((s.axis a).state ≠ .fault)
   | .clear => e.axes.all fun a => !deniedClear s a && decide ((s.axis a).state = .fault)
   | .move .. => !deniedAxes s e.axes && e.axes.all fun a => (s.axis a).state.movable
   | .stop _ => true
   | .home .. => !deniedAxes s e.axes && e.axes.all fun a => decide ((s.axis a).state = .holding)
   | .gear m _ _ => !deniedAxes s e.axes && e.axes.all fun a =>
       decide ((s.axis a).state = .holding) || (decide ((s.axis a).state = .geared) && decide ((s.pax a).gear.master = m))
   | .segRun slot => !deniedAxes s e.axes && (s.pg.slot[slot]).isSome &&
       e.axes.all fun a => decide ((s.axis a).state = .holding)
   | .armMove r _ _ => !deniedArm s r && e.axes.all fun a => (s.axis a).state.movable
   | .armStop .. => true
   | .mpcOn r => !deniedArm s r && s.qp.planning && e.axes.all fun a => (s.axis a).state.movable
   | .mpcOff r => (s.armDef r).mpc
   | .param .. => true)

/-- MOVE_DROPPED and its record for an effect that is dropped; AXIS.PARAM reports ABORTED (R66, R165, R179). `k` is the pick and
`b` the beat of the boundary. -/
def State.dropEffect (s : State) (e : Effect) (k b : BitVec 32) : State :=
  let s1 := s.forEach e.axes fun s a => s.pgSet a 7
  let at_ := match e.kind with
    | .move _ _ beat => if beat then b else k
    | .armMove _ b' _ => b'.getD b
    | _ => k
  let isMove := match e.kind with
    | .armMove .. => true
    | _ => false
  let s2 := s1.emit 12 0x005#12 [at32 e.obj 0 ||| bitAt isMove 8 ||| at32 e.opc 16 ||| at32 e.fn 24, at_]
  match e.kind with
  | .param .. => s2.opDone e.flow e.op .aborted 0#8 none
  | _ => s2

/-- The loop of an axis closes at its measured position, ramped from there (R33, R140). -/
def State.enableAxis (s : State) (a : Fin 80) : State :=
  let s1 := s.modSlice a Slice.enable
  s1.holdAxis a (s1.slice a).xm

/-- A gearing starts on a slave, or its ratio changes (R169). -/
def State.startGear (s : State) (a : Fin 80) (m : Fin 80) (ratio : Int) (w1 : Option Int) : State :=
  if (s.axis a).state = .geared then
    s.modPax a fun p => { p with gear := match w1 with
      | some x => { p.gear with pend := some (x, ratio) }
      | none => { p.gear with rebase := some ratio } }
  else
    (s.modPax a fun p =>
      { p.merge with
        src := .gear, samples := [], phi := 0, done := true, pl := {}, w := none
        gear := { master := m, ratio := ratio, baseS := p.hold, pend := w1.map fun x => (x, ratio), fresh := true } }).setAxis a
      .geared

/-- An arm goes under MPC: its axes are in MOVING and the profile generator keeps the reference (R34, R155). -/
def State.startMpc (s : State) (r : Fin 8) : State :=
  (s.forEach (s.armAxes r) fun s a => (s.modPax a fun p => { p with src := .mpcRef }).setAxis a .moving).modArm r
    fun m => { m with mpc := true }

/-- An arm leaves MPC: an axis whose reference stands enters HOLDING, and one whose reference still moves goes on with it as
its profile (R34, R79, R155). -/
def State.endMpc (s : State) (r : Fin 8) : State :=
  (s.forEach (s.armAxes r) fun s a =>
    let p := s.pax a
    if p.src = .mpcRef then
      if p.done && p.samples.isEmpty && p.inArm.isNone then s.holdAxis a p.lastX else s.modPax a fun p => { p with src := .move }
    else s).modArm r fun m => { m with mpc := false }

/-- An arm stays under MPC only while every one of its axes is in MOVING with the interpolation as its source (R34). -/
def State.mpcSweep (s : State) : State :=
  s.forEach (fins 8) fun s r =>
    if (s.armDef r).mpc &&
        !((s.armAxes r).all fun a => decide ((s.axis a).state = .moving) && decide ((s.pax a).src = .mpcRef)) then s.endMpc r
    else s

/-- What an effect does (R33, R79, R80). -/
def State.doEffect (s : State) (e : Effect) : State :=
  match e.kind with
  | .enable => s.forEach e.axes fun s a => s.enableAxis a
  | .disable => s.forEach e.axes fun s a => if (s.axis a).state = .disabled then s else s.setAxis a .disabled
  | .clear => s.forEach e.axes fun s a => s.setAxis a .disabled
  | .move t w _ => s.forEach e.axes fun s a => s.startMove a t w
  | .stop q => s.forEach e.axes fun s a => s.effectStop a q false
  | .home m w0 => s.forEach e.axes fun s a => s.startHome a m w0
  | .gear m q w1 => s.forEach e.axes fun s a => s.startGear a m q w1
  | .segRun slot => s.forEach e.axes fun s a => s.startSeg a slot
  | .armMove r _ ts => s.startArmMove r ts
  | .armStop r q => s.effectArmStop r q false
  | .mpcOn r => s.startMpc r
  | .mpcOff r => s.endMpc r
  | .param p v =>
    match e.axes with
    | a :: _ =>
      let res := (s.pax a).paramEffect p v s.pickV s.tb.running
      let s1 := s.modPax a fun _ => res.1
      let s2 := if res.2.2 = flagAccDeferred then s1.pgSet a 0 else s1
      s2.opDone e.flow e.op res.2.1 res.2.2 none
    | [] => s

/-- An effect is checked again and applied or dropped (R66, R165). -/
def State.applyEffect (s : State) (e : Effect) (k b : BitVec 32) : State :=
  if effectOk s e then (s.doEffect e).mpcSweep else s.dropEffect e k b

/-- The effect starts at a pick whose instant is `t` (2^-32 ns) and whose beat is `b`, a boundary when `edge` (R24, R79,
R157, R164). -/
def Effect.due (e : Effect) (t : Nat) (b : BitVec 32) (edge : Bool) : Bool :=
  decide (e.at_ < t) &&
  (match e.kind with
   | .move _ _ beat => !beat || edge
   | .armMove _ (some b') _ => edge && !newer b' b
   | .armMove _ none _ => edge
   | _ => true)

/-- The effects that start at a pick, in the order of acceptance. -/
def State.applyEffects (s : State) (k b : BitVec 32) (edge : Bool) : State :=
  let due : List Effect := s.pend.filter fun e => e.due s.tb.timeFix b edge
  ({ s with pend := s.pend.filter fun e => !e.due s.tb.timeFix b edge }).forEach due fun s e => s.applyEffect e k b

/-- An accepted operation is given its effect pick, or has its effect at once while picks are not running (R24). -/
def State.defer (s : State) (e : Effect) : State :=
  if s.tb.running then { s with pend := s.pend ++ [e] } else s.applyEffect e s.tb.pickNum s.tb.beatNum

/-- An operation on axes is accepted: it completes OK and its effect is to come (R24, R64). -/
def State.acceptEffect (s : State) (f : Fin 16) (w : TWord) (opc : BitVec 8) (fn : BitVec 4) (axes : List (Fin 80)) (k : EffKind)
    (flags : BitVec 8) : State :=
  let e : Effect := { flow := f, op := s.opId f, axes := axes, kind := k, opc := opc, fn := fn,
                      obj := ((s.flow f).obj w).setWidth 7, at_ := s.tb.timeFix }
  (s.opAccept f w .ok flags none).defer e

end Sys2Proof.Machine
end

