-- ==== Sys2Proof/Machine/AxisCmds.lean ====
section
/-! DEFINITION. The device operations on axes, arms, loops, feedback channels and segment slots, and the planner's samples
(R79, R80, R81, R82, R124 to R126, R145, R146, R153, R156, R157, R166 to R170). -/
namespace Sys2Proof.Machine

/-! ### Axes (R79) -/

/-- XW is not one of the forms of the instruction (R56). -/
def xwNot (w : TWord) (l : List (BitVec 4)) : Bool × Status := (!l.contains w.xw, .badOperand)

/-- AXIS.ENABLE: close the loop, ramped from the measured value. -/
def execAxisEnable (f : Fin 16) (w : TWord) (s : State) : Res :=
  .next (s.devOp f 0x20#8 0#4 w [w.ra] 0x7F#32 (some 80) (fun _ => [xwNot w [0#4]])
    (fun s => let a := s.opAxis f w
      [stateGate s [.run] 9 (axCode s a), leaseGate s, (deniedAxes s [a] || deniedEnable s a, .safetyDenied, 0#8),
       (decide ((s.axis a).state ≠ .disabled), .state, axCode s a)])
    fun s => s.acceptEffect f w 0x20#8 0#4 [s.opAxis f w] .enable 0#8)

/-- AXIS.DISABLE: open the loop. -/
def execAxisDisable (f : Fin 16) (w : TWord) (s : State) : Res :=
  .next (s.devOp f 0x20#8 1#4 w [w.ra] 0x7F#32 (some 80) (fun _ => [xwNot w [0#4]])
    (fun s => let a := s.opAxis f w
      [stateGate s [.ready, .run] 9 (axCode s a), leaseGate s, (decide ((s.axis a).state = .fault), .state, axCode s a)])
    fun s => s.acceptEffect f w 0x20#8 1#4 [s.opAxis f w] .disable 0#8)

/-- The target that an AXIS.MOVE fixes: w0, or w0 plus the target in force when REL is 1 (R157). -/
def moveTarget (s : State) (f : Fin 16) (w : TWord) : Int :=
  (w.x 0).toInt + if bit w.imm 8 then s.targetOf (s.opAxis f w) else 0

/-- w1 to w3 of an AXIS.MOVE with XW = 4 (R157). -/
def moveLimits (w : TWord) : Option (Int × Int × Int) :=
  if w.xw = 4#4 then some ((w.x 1).toInt, (w.x 2).toInt, (w.x 3).toInt) else none

/-- The conditions that give RANGE for an AXIS.MOVE (R157). -/
def moveRange (s : State) (f : Fin 16) (w : TWord) : Bool :=
  let p := s.pax (s.opAxis f w)
  let t := moveTarget s f w
  decide (sat64 t ≠ t) || decide (t < p.par 9) || decide (p.par 10 < t) ||
    (match moveLimits w with
     | some (v, a, d) => decide (v < 1) || decide (a < 1) || decide (d < 1)
     | none => false)

/-- AXIS.MOVE: a profile move to the target, from the next pick or the next beat boundary. -/
def execAxisMove (f : Fin 16) (w : TWord) (s : State) : Res :=
  .next (s.devOp f 0x20#8 2#4 w [w.ra] 0x37F#32 (some 80) (fun s => [xwNot w [1#4, 4#4], (moveRange s f w, .range)])
    (fun s => let a := s.opAxis f w
      [stateGate s [.run] 9 (axCode s a), leaseGate s, (deniedAxes s [a], .safetyDenied, 0#8),
       (!(s.axis a).state.movable, .state, axCode s a), (underMpc s a, .notOwner, 0#8)])
    fun s => s.acceptEffect f w 0x20#8 2#4 [s.opAxis f w] (.move (moveTarget s f w) (moveLimits w) (bit w.imm 9)) 0#8)

/-- AXIS.STOP: a stop ramp; NO_EFFECT unless the axis is in MOVING, HOMING or GEARED. -/
def execAxisStop (f : Fin 16) (w : TWord) (s : State) : Res :=
  .next (s.devOp f 0x20#8 3#4 w [w.ra] 0x17F#32 (some 80) (fun _ => [xwNot w [0#4]])
    (fun s => let a := s.opAxis f w
      [stateGate s [.ready, .run, .safeHold] 9 (axCode s a), leaseGate s])
    fun s =>
      let a := s.opAxis f w
      if (s.axis a).state.stoppable then s.acceptEffect f w 0x20#8 3#4 [a] (.stop (bit w.imm 8)) 0#8
      else s.opAccept f w .ok flagNoEffect none)

/-- The axis's measurement is invalid for a stall search: SRC = 0 and the channel's INMODE is 0 (R172). -/
def measureInvalid (s : State) (a : Fin 80) : Bool :=
  let l := s.slice a
  !l.src && decide ((s.ch (Fin.ofNat 96 l.ch.toNat)).inmode = 0#3)

/-- AXIS.HOME: a homing sequence. -/
def execAxisHome (f : Fin 16) (w : TWord) (s : State) : Res :=
  .next (s.devOp f 0x20#8 4#4 w [w.ra] 0xF7F#32 (some 80)
    (fun s => let m := field w.imm 8 4
      [xwNot w [1#4], (decide (4 < m.toNat), .range),
       ((decide (m = 2#4) || decide (m = 4#4)) && measureInvalid s (s.opAxis f w), .range)])
    (fun s => let a := s.opAxis f w
      [stateGate s [.run] 9 (axCode s a), leaseGate s, (deniedAxes s [a], .safetyDenied, 0#8),
       (decide ((s.axis a).state ≠ .holding), .state, axCode s a), (underMpc s a, .notOwner, 0#8)])
    fun s => s.acceptEffect f w 0x20#8 4#4 [s.opAxis f w] (.home (field w.imm 8 4) (w.x 0).toInt) 0#8)

/-- Slaves that stand below an axis in the chain of gearings; at most 9 (R169). -/
def gearHeight (s : State) : Nat → Fin 80 → Nat
  | 0, _ => 0
  | fuel + 1, a =>
    ((fins 80).filter fun b => decide ((s.axis b).state = .geared) && decide ((s.pax b).gear.master = a)).foldl
      (fun n b => max n (1 + gearHeight s fuel b)) 0

/-- The masters above an axis (R169). -/
def gearChain (s : State) : Nat → Fin 80 → List (Fin 80)
  | 0, _ => []
  | fuel + 1, a => if (s.axis a).state = .geared then (s.pax a).gear.master :: gearChain s fuel (s.pax a).gear.master else []

/-- Position and velocity of axis `m` as slave `b` takes its master: the entry or the measurement of the present pick, and the
sign of its last non-zero velocity (R168, R170). -/
def masterNow (s : State) (b m : Fin 80) : Int × Int × Int :=
  if (s.pax b).par 20 = 1 then ((s.slice m).xm, (s.slice m).vm, (s.pax m).msDir)
  else match (s.pax m).entry with
    | some e => (e.x, e.v, (s.pax m).spDir)
    | none => ((s.pax m).lastX, 0, (s.pax m).spDir)

/-- w1 lies behind the master (R170). -/
def gearBehind (s : State) (b m : Fin 80) (w1 : Int) : Bool :=
  let q := masterNow s b m
  let d := if q.2.1 = 0 then q.2.2 else sgn q.2.1
  decide (0 ≤ (q.1 - w1) * d)

/-- AXIS.GEAR: gear to the master, or change the ratio, at w1 when AT. -/
def execAxisGear (f : Fin 16) (w : TWord) (s : State) : Res :=
  let m := field w.imm 8 7
  let mm : Fin 80 := Fin.ofNat 80 m.toNat
  let at_ := bit w.imm 15
  .next (s.devOp f 0x20#8 5#4 w [w.ra] 0xFF7F#32 (some 80)
    (fun s => let a := s.opAxis f w
      [(decide (w.xw ≠ if at_ then 2#4 else 1#4), .badOperand), (decide (79 < m.toNat), .range), (decide (mm = a), .range),
       ((gearChain s 9 mm).contains a, .range),
       (decide (8 < 1 + (gearChain s 9 mm).length + gearHeight s 9 a), .range)])
    (fun s => let a := s.opAxis f w
      [stateGate s [.run] 9 (axCode s a), leaseGate s, (deniedAxes s [a], .safetyDenied, 0#8),
       (!(decide ((s.axis a).state = .holding) ||
          (decide ((s.axis a).state = .geared) && decide ((s.pax a).gear.master = mm))), .state, axCode s a),
       (!(s.axis mm).state.closed, .state, axCode s a), (underMpc s a, .notOwner, 0#8)])
    fun s =>
      let a := s.opAxis f w
      let w1 := if at_ then some (w.x 1).toInt else none
      let behind := match w1 with
        | some x => gearBehind s a mm x
        | none => false
      let s1 := if behind then s.pgSet a 1 else s
      s1.acceptEffect f w 0x20#8 5#4 [a] (.gear mm (w.x 0).toInt w1) (if behind then flagGearBehind else 0#8))

/-- AXIS.CLEAR: FAULT to DISABLED. -/
def execAxisClear (f : Fin 16) (w : TWord) (s : State) : Res :=
  .next (s.devOp f 0x20#8 6#4 w [w.ra] 0x7F#32 (some 80) (fun _ => [xwNot w [0#4]])
    (fun s => let a := s.opAxis f w
      [stateGate s [.ready, .run] 9 (axCode s a), leaseGate s, (deniedClear s a, .safetyDenied, 0#8),
       (decide ((s.axis a).state ≠ .fault), .state, axCode s a)])
    fun s => s.acceptEffect f w 0x20#8 6#4 [s.opAxis f w] .clear 0#8)

/-- AXIS.SETPOS: the present position is redefined as w0 in the tick of acceptance; in HOLDING the ramp and the holding
position shift with it (R115, R131, R141). -/
def execAxisSetpos (f : Fin 16) (w : TWord) (s : State) : Res :=
  .next (s.devOp f 0x20#8 7#4 w [w.ra] 0x7F#32 (some 80) (fun _ => [xwNot w [1#4]])
    (fun s => let a := s.opAxis f w
      [stateGate s [.ready, .run] 9 (axCode s a), leaseGate s,
       (!(decide ((s.axis a).state = .disabled) || decide ((s.axis a).state = .holding)), .state, axCode s a)])
    fun s =>
      let a := s.opAxis f w
      let d := (w.x 0).toInt - (s.slice a).xm
      let s1 := s.shiftAxis a d
      (if (s.axis a).state = .holding then s1.shiftCommand a d else s1).opAccept f w .ok 0#8 none)

/-- AXIS.PARAM: one parameter is set at its effect pick, where the operation completes (R156, R161). -/
def execAxisParam (f : Fin 16) (w : TWord) (s : State) : Res :=
  let p := (field w.imm 8 8).toNat
  .next (s.devOp f 0x20#8 8#4 w [w.ra] 0xFF7F#32 (some 80)
    (fun s => [xwNot w [1#4], (decide (23 < p), .badOperand), (paramBad (s.pax (s.opAxis f w)) p (w.x 0), .range)])
    (fun s => [stateGate s [.ready, .run] 9 (axCode s (s.opAxis f w))])
    fun s =>
      let a := s.opAxis f w
      let e : Effect := { flow := f, op := s.opId f, axes := [a], kind := .param p (w.x 0), opc := 0x20#8, fn := 8#4,
                          obj := BitVec.ofNat 7 a.val, at_ := s.tb.timeFix }
      (s.opIssue f w false).defer e)

/-- The items of AXIS.READ (R79). -/
def axisItem (s : State) (a : Fin 80) (i : BitVec 8) : W64 :=
  let l := s.slice a
  match i with
  | 0#8 => (s.axis a).state.code.setWidth 64
  | 1#8 => int64 l.xr
  | 2#8 => if l.unknown then 0#64 else int64 l.xm
  | 3#8 => if l.unknown then 0#64 else int64 l.vm
  | _ => l.sticky.setWidth 64 ||| ((s.pax a).sticky.setWidth 64 <<< 32)

/-- AXIS.READ: RD := item. -/
def execAxisRead (f : Fin 16) (w : TWord) (s : State) : Res :=
  let i := field w.imm 8 8
  .next (s.devOp f 0x20#8 9#4 w [w.ra, w.rd] 0xFF7F#32 (some 80)
    (fun _ => [xwNot w [0#4], (decide (4 < i.toNat), .range)])
    (fun s => [stateGate s [.ready, .run, .safeHold] 9 (axCode s (s.opAxis f w))])
    fun s => s.opAccept f w .ok 0#8 (some (axisItem s (s.opAxis f w) i)))

/-! ### Arms (R79) -/

/-- ARM.DEFINE: the arm owns axes first … first + count − 1. -/
def execArmDefine (f : Fin 16) (w : TWord) (s : State) : Res :=
  let first := (field w.imm 8 7).toNat
  let count := (field w.imm 16 4).toNat
  let new : List (Fin 80) := (List.range count).map fun i => Fin.ofNat 80 (first + i)
  .next (s.devOp f 0x21#8 0#4 w [w.ra] 0xF7F7F#32 (some 8)
    (fun _ => [xwNot w [0#4], (decide (count = 0) || decide (8 < count) || decide (64 < first + count), .range)])
    (fun s => let r := s.opArm f w
      [stateGate s [.ready] 9 0#8,
       (!((new ++ s.armAxes r).all fun a => decide ((s.axis a).state = .disabled)), .state, 0#8),
       (new.any fun a => (s.armOf a).elim false fun q => decide (q ≠ r), .notOwner, 0#8)])
    fun s => (s.modArm (s.opArm f w) fun _ => { first := first, count := count }).opAccept f w .ok 0#8 none)

/-- The object condition of an arm operation: the arm has axes and each meets `ok` (R81). -/
def armAll (s : State) (r : Fin 8) (ok : AxisState → Bool) : Bool :=
  !(s.armAxes r).isEmpty && (s.armAxes r).all fun a => ok (s.axis a).state

/-- ARM.ENABLE: AXIS.ENABLE on every axis in one tick. -/
def execArmEnable (f : Fin 16) (w : TWord) (s : State) : Res :=
  .next (s.devOp f 0x21#8 1#4 w [w.ra] 0x7F#32 (some 8) (fun _ => [xwNot w [0#4]])
    (fun s => let r := s.opArm f w
      [stateGate s [.run] 9 0#8, leaseGate s, (deniedArm s r || !s.armMatches r, .safetyDenied, 0#8),
       (!armAll s r fun x => decide (x = .disabled), .state, 0#8)])
    fun s => s.acceptEffect f w 0x21#8 1#4 (s.armAxes (s.opArm f w)) .enable 0#8)

/-- ARM.DISABLE: AXIS.DISABLE on every axis in one tick. -/
def execArmDisable (f : Fin 16) (w : TWord) (s : State) : Res :=
  .next (s.devOp f 0x21#8 2#4 w [w.ra] 0x7F#32 (some 8) (fun _ => [xwNot w [0#4]])
    (fun s => let r := s.opArm f w
      [stateGate s [.ready, .run] 9 0#8, leaseGate s, (!armAll s r fun x => decide (x ≠ .fault), .state, 0#8)])
    fun s => s.acceptEffect f w 0x21#8 2#4 (s.armAxes (s.opArm f w)) .disable 0#8)

/-- The start beat of an ARM.MOVE with AT (R79). -/
def armStart (s : State) (f : Fin 16) (w : TWord) : BitVec 32 := ((s.flow f).reg w.rb).setWidth 32 + (w.x 0).setWidth 32

/-- ARM.MOVE: a synchronised move of all axes from a beat boundary. -/
def execArmMove (f : Fin 16) (w : TWord) (s : State) : Res :=
  let at_ := bit w.imm 8
  .next (s.devOp f 0x21#8 3#4 w [w.ra, w.rb] 0x17F#32 (some 8)
    (fun s => let d := armStart s f w - s.tb.beatNum
      [(decide (w.xw.toNat ≠ 1 + (s.armDef (s.opArm f w)).count), .badOperand),
       (at_ && (!newer (armStart s f w) s.tb.beatNum || decide (2 ^ 30 < d.toNat)), .range)])
    (fun s => let r := s.opArm f w
      [stateGate s [.run] 9 0#8, leaseGate s, (deniedArm s r, .safetyDenied, 0#8),
       (!armAll s r AxisState.movable, .state, 0#8), ((s.armDef r).mpc, .notOwner, 0#8)])
    fun s =>
      let r := s.opArm f w
      let ts := (List.range (s.armDef r).count).map fun i => (w.x (1 + i)).toInt
      s.acceptEffect f w 0x21#8 3#4 (s.armAxes r) (.armMove r (if at_ then some (armStart s f w) else none) ts) 0#8)

/-- ARM.STOP: AXIS.STOP on every axis in one tick. -/
def execArmStop (f : Fin 16) (w : TWord) (s : State) : Res :=
  .next (s.devOp f 0x21#8 4#4 w [w.ra] 0x17F#32 (some 8) (fun _ => [xwNot w [0#4]])
    (fun s => [stateGate s [.ready, .run, .safeHold] 9 0#8, leaseGate s])
    fun s =>
      let r := s.opArm f w
      if (s.armAxes r).any fun a => (s.axis a).state.stoppable then
        s.acceptEffect f w 0x21#8 4#4 (s.armAxes r) (.armStop r (bit w.imm 8)) 0#8
      else s.opAccept f w .ok flagNoEffect none)

/-- ARM.MPC with ON: the arm goes under MPC; it starts in bypass while no solution of the present structure is current (R149). -/
def execArmMpcOn (f : Fin 16) (w : TWord) (s : State) : Res :=
  .next (s.devOp f 0x21#8 5#4 w [w.ra] 0x17F#32 (some 8) (fun _ => [xwNot w [0#4]])
    (fun s => let r := s.opArm f w
      [stateGate s [.run] 9 0#8, leaseGate s, (deniedArm s r, .safetyDenied, 0#8),
       (!(armAll s r AxisState.movable && s.qp.planning), .state, 0#8)])
    fun s =>
      let r := s.opArm f w
      s.acceptEffect f w 0x21#8 5#4 (s.armAxes r) (.mpcOn r) (if s.qpCurrent then 0#8 else flagMpcBypass))

/-- ARM.MPC with ON = 0: the arm returns to HOLDING through the profile. -/
def execArmMpcOff (f : Fin 16) (w : TWord) (s : State) : Res :=
  .next (s.devOp f 0x21#8 5#4 w [w.ra] 0x17F#32 (some 8) (fun _ => [xwNot w [0#4]])
    (fun s => [stateGate s [.run] 9 0#8, leaseGate s, (!(s.armDef (s.opArm f w)).mpc, .state, 0#8)])
    fun s => s.acceptEffect f w 0x21#8 5#4 (s.armAxes (s.opArm f w)) (.mpcOff (s.opArm f w)) 0#8)

/-! ### Loop slices (R80, R145, R146) -/

/-- The first byte after the Shared data partition. -/
def sharedEnd : Nat := Config.sharedBase + 8 * Config.sharedWords

/-- The bytes of an image of `n` bytes at an extension word's address, as far as the partition reaches. -/
def State.image (s : State) (a : W64) (n : Nat) : List Byte := s.rdBytes a.toNat (min n (sharedEnd - a.toNat))

/-- LOOP.LOAD: the inactive bank is filled from the image once all of it has passed its checks. -/
def execLoopLoad (f : Fin 16) (w : TWord) (s : State) : Res :=
  .next (s.devOp f 0x22#8 0#4 w [w.ra] 0x7F#32 (some 80)
    (fun s => let b := s.image (w.x 0) 96
      [xwNot w [1#4], (!sharedOk (w.x 0) 8, .badOperand), (bankReserved b, .badOperand),
       (decide (sharedEnd < (w.x 0).toNat + 96), .length), ((imgBank b).outOfRange, .range)])
    (fun s => let a := s.opAxis f w
      [stateGate s [.ready, .run] 9 (axCode s a), (!(s.slice a).swapPend.isEmpty, .state, axCode s a)])
    fun s =>
      let k := imgBank (s.image (w.x 0) 96)
      (s.modSlice (s.opAxis f w) fun l =>
        if l.bankSel then { l with bankA := k, loaded := true } else { l with bankB := k, loaded := true }).opAccept f w .ok 0#8 none)

/-- LOOP.SWAP: the banks are exchanged at the next pick, or at once while picks are stopped (R146). -/
def execLoopSwap (f : Fin 16) (w : TWord) (s : State) : Res :=
  .next (s.devOp f 0x22#8 1#4 w [w.ra] 0x7F#32 (some 80) (fun _ => [xwNot w [0#4]])
    (fun s => let a := s.opAxis f w
      [stateGate s [.ready, .run] 9 (axCode s a), leaseGate s, (decide ((s.axis a).state = .fault), .state, axCode s a)])
    fun s =>
      let a := s.opAxis f w
      if s.tb.running then
        let id := s.opId f
        (s.opIssue f w false).modSlice a fun l => { l with swapPend := l.swapPend ++ [(f, id, s.tb.timeFix)] }
      else (s.swapBank a).opAccept f w .ok 0#8 none)

/-! ### Feedback channels (R80, R116, R118, R124 to R126) -/

/-- FB.MODE: set the channel mode. -/
def execFbMode (f : Fin 16) (w : TWord) (s : State) : Res :=
  .next (s.devOp f 0x23#8 0#4 w [w.ra] 0x37F#32 (some 96) (fun _ => [xwNot w [0#4]])
    (fun s => let h := s.ch (s.opCh f w)
      let st := (s.axis (Fin.ofNat 80 h.axis.toNat)).state
      [stateGate s [.ready, .run] 9 0#8,
       (h.mapped && !(decide (st = .disabled) || decide (st = .holding)), .state, 0#8)])
    fun s => (s.setFbMode (s.opCh f w) (.ofCode (field w.imm 8 2))).opAccept f w .ok 0#8 none)

/-- The count lies behind the channel: at or beyond it in the reported direction (R125). -/
def cmpBehind (h : FbCh) (c : Int) : Bool := decide (0 ≤ (h.rep - c) * h.dir)

/-- FB.COMPARE: arm a compare on a trigger output. -/
def execFbCompare (f : Fin 16) (w : TWord) (s : State) : Res :=
  .next (s.devOp f 0x23#8 1#4 w [w.ra] 0x77F#32 (some 96)
    (fun _ => [xwNot w [1#4], (decide ((w.x 0).setWidth 16 ≠ 0#16), .range)])
    (fun s => [stateGate s [.ready, .run] 9 0#8, leaseGate s])
    fun s =>
      let c := s.opCh f w
      let fl := if cmpBehind (s.ch c) ((w.x 0).toInt / 65536) then flagCmpBehind else 0#8
      (s.modCh c fun h => { h with armed := true, cmp := w.x 0, cmpTrig := Fin.ofNat 8 (field w.imm 8 3).toNat }).opAccept f w
        .ok fl none)

/-- FB.UNARM: disarm the channel's compare; NO_EFFECT when none is armed. -/
def execFbUnarm (f : Fin 16) (w : TWord) (s : State) : Res :=
  .next (s.devOp f 0x23#8 2#4 w [w.ra] 0x7F#32 (some 96) (fun _ => [xwNot w [0#4]])
    (fun s => [stateGate s [.ready, .run] 9 0#8, leaseGate s])
    fun s =>
      let c := s.opCh f w
      let fl := if (s.ch c).armed then 0#8 else flagNoEffect
      (s.modCh c fun h => { h with armed := false }).opAccept f w .ok fl none)

/-! ### Segment tables (R80, R166, R167) -/

/-- Segment `i` of an image (R166). -/
def imgSegment (b : List Byte) (i : Nat) : Segment :=
  let x := BitVec.ofNat 32 (leAt b (16 * i + 12) 4)
  { acc := (BitVec.ofNat 64 (leAt b (16 * i) 8)).toInt, picks := leAt b (16 * i + 8) 4, next := (field x 0 10).toNat,
    jump := bit x 10, loops := (field x 16 16).toNat }

/-- A non-zero reserved bit in one of `n` segments of an image (R166). -/
def segReserved (b : List Byte) (n : Nat) : Bool :=
  (List.range n).any fun i => decide (field (BitVec.ofNat 32 (leAt b (16 * i + 12) 4)) 11 5 ≠ 0#5)

/-- A segment that gives RANGE: PICKS = 0, or NEXT outside the table with JUMP = 1 (R166). -/
def Segment.bad (g : Segment) (n : Nat) : Bool := decide (g.picks = 0) || (g.jump && decide (n ≤ g.next))

/-- An axis runs the slot, or is about to (R81, PG_SLOT_s.USERS). -/
def slotUsers (s : State) (k : Fin 8) : Nat :=
  ((fins 80).filter fun a => decide ((s.pax a).src = .seg) && decide ((s.pax a).seg.slot = k)).length

/-- The segments that an image of `n` segments at `a` holds, at most 1,024. -/
def State.segments (s : State) (a : W64) (n : Nat) : List Segment :=
  let b := s.image a (16 * min n 1024)
  (List.range (min n 1024)).map fun i => imgSegment b i

/-- SEG.LOAD: the table is copied once all of it has passed its checks. -/
def execSegLoad (f : Fin 16) (w : TWord) (s : State) : Res :=
  let n := (w.x 1).toNat
  .next (s.devOp f 0x24#8 0#4 w [w.ra] 0x7F#32 (some 8)
    (fun s =>
      [xwNot w [2#4], (!sharedOk (w.x 0) 8, .badOperand),
       (segReserved (s.image (w.x 0) (16 * min n 1024)) (min n 1024), .badOperand),
       (decide (1024 < n) || decide (sharedEnd < (w.x 0).toNat + 16 * n), .length),
       (decide (n = 0) || (s.segments (w.x 0) n).any fun g => g.bad n, .range)])
    (fun s => [stateGate s [.ready, .run] 9 0#8, (decide (0 < slotUsers s (s.opArm f w)), .state, 0#8)])
    fun s =>
      let t := s.segments (w.x 0) n
      ({ s with pg.slot := upd s.pg.slot (s.opArm f w) fun _ => some t }).opAccept f w .ok 0#8 none)

/-- SEG.RUN: the slot's table runs on the axis from its effect pick. -/
def execSegRun (f : Fin 16) (w : TWord) (s : State) : Res :=
  let k : Fin 8 := Fin.ofNat 8 (field w.imm 8 3).toNat
  .next (s.devOp f 0x24#8 1#4 w [w.ra] 0x77F#32 (some 80) (fun _ => [xwNot w [0#4]])
    (fun s => let a := s.opAxis f w
      [stateGate s [.run] 9 (axCode s a), leaseGate s, (deniedAxes s [a], .safetyDenied, 0#8),
       (!(decide ((s.axis a).state = .holding) && (s.pg.slot[k]).isSome), .state, axCode s a)])
    fun s => s.acceptEffect f w 0x24#8 1#4 [s.opAxis f w] (.segRun k) 0#8)

/-! ### The planner (R153) -/

/-- PLANNER_SAMPLE: the planner of an axis computes one sample more, at most 64 ahead of the output stage. -/
def execPlannerSample (a : Fin 80) (s : State) : Res :=
  let p := s.pax a
  if axisUp s && s.tb.running && !p.samples.isEmpty && decide (p.ahead < 64) then
    .next (s.modPax a fun p => p.sample s.pickV s.pg.slot)
  else .next s

end Sys2Proof.Machine
end

