-- ==== Sys2Proof/Machine/Sha.lean ====
section
/-! DEFINITION. SHA-384 (R250, R446). The spec names the hash and does not define it; the definition is that of FIPS 180-4.
PRESUMED (log 20). -/
namespace Sys2Proof.Machine

/-- Round constants of SHA-384, part 0. -/
def shaK0 : List W64 :=
  [0x428A2F98D728AE22#64, 0x7137449123EF65CD#64, 0xB5C0FBCFEC4D3B2F#64, 0xE9B5DBA58189DBBC#64,
   0x3956C25BF348B538#64, 0x59F111F1B605D019#64, 0x923F82A4AF194F9B#64, 0xAB1C5ED5DA6D8118#64,
   0xD807AA98A3030242#64, 0x12835B0145706FBE#64, 0x243185BE4EE4B28C#64, 0x550C7DC3D5FFB4E2#64,
   0x72BE5D74F27B896F#64, 0x80DEB1FE3B1696B1#64, 0x9BDC06A725C71235#64, 0xC19BF174CF692694#64,
   0xE49B69C19EF14AD2#64, 0xEFBE4786384F25E3#64, 0x0FC19DC68B8CD5B5#64, 0x240CA1CC77AC9C65#64]

/-- Round constants of SHA-384, part 1. -/
def shaK1 : List W64 :=
  [0x2DE92C6F592B0275#64, 0x4A7484AA6EA6E483#64, 0x5CB0A9DCBD41FBD4#64, 0x76F988DA831153B5#64,
   0x983E5152EE66DFAB#64, 0xA831C66D2DB43210#64, 0xB00327C898FB213F#64, 0xBF597FC7BEEF0EE4#64,
   0xC6E00BF33DA88FC2#64, 0xD5A79147930AA725#64, 0x06CA6351E003826F#64, 0x142929670A0E6E70#64,
   0x27B70A8546D22FFC#64, 0x2E1B21385C26C926#64, 0x4D2C6DFC5AC42AED#64, 0x53380D139D95B3DF#64,
   0x650A73548BAF63DE#64, 0x766A0ABB3C77B2A8#64, 0x81C2C92E47EDAEE6#64, 0x92722C851482353B#64]

/-- Round constants of SHA-384, part 2. -/
def shaK2 : List W64 :=
  [0xA2BFE8A14CF10364#64, 0xA81A664BBC423001#64, 0xC24B8B70D0F89791#64, 0xC76C51A30654BE30#64,
   0xD192E819D6EF5218#64, 0xD69906245565A910#64, 0xF40E35855771202A#64, 0x106AA07032BBD1B8#64,
   0x19A4C116B8D2D0C8#64, 0x1E376C085141AB53#64, 0x2748774CDF8EEB99#64, 0x34B0BCB5E19B48A8#64,
   0x391C0CB3C5C95A63#64, 0x4ED8AA4AE3418ACB#64, 0x5B9CCA4F7763E373#64, 0x682E6FF3D6B2B8A3#64,
   0x748F82EE5DEFB2FC#64, 0x78A5636F43172F60#64, 0x84C87814A1F0AB72#64, 0x8CC702081A6439EC#64]

/-- Round constants of SHA-384, part 3. -/
def shaK3 : List W64 :=
  [0x90BEFFFA23631E28#64, 0xA4506CEBDE82BDE9#64, 0xBEF9A3F7B2C67915#64, 0xC67178F2E372532B#64,
   0xCA273ECEEA26619C#64, 0xD186B8C721C0C207#64, 0xEADA7DD6CDE0EB1E#64, 0xF57D4F7FEE6ED178#64,
   0x06F067AA72176FBA#64, 0x0A637DC5A2C898A6#64, 0x113F9804BEF90DAE#64, 0x1B710B35131C471B#64,
   0x28DB77F523047D84#64, 0x32CAAB7B40C72493#64, 0x3C9EBE0A15C9BEBC#64, 0x431D67C49C100D4C#64,
   0x4CC5D4BECB3E42B6#64, 0x597F299CFC657E2A#64, 0x5FCB6FAB3AD6FAEC#64, 0x6C44198C4A475817#64]

/-- Round constants of SHA-384. -/
def shaK : List W64 := shaK0 ++ shaK1 ++ shaK2 ++ shaK3

/-- Initial hash value of SHA-384. -/
def shaInit : List W64 :=
  [0xCBBB9D5DC1059ED8#64, 0x629A292A367CD507#64, 0x9159015A3070DD17#64, 0x152FECD8F70E5939#64,
   0x67332667FFC00B31#64, 0x8EB44A8768581511#64, 0xDB0C2E0D64F98FA7#64, 0x47B5481DBEFA4FA4#64]

/-- The big-endian 64-bit words of a list of bytes. -/
def beWords64 : Nat → List Byte → List W64
  | 0, _ => []
  | k + 1, b => BitVec.ofNat 64 (bytesNat (b.take 8).reverse) :: beWords64 k (b.drop 8)

/-- The small sigma functions of the message schedule. -/
def shaS0 (x : W64) : W64 := x.rotateRight 1 ^^^ x.rotateRight 8 ^^^ (x >>> 7)
/-- The second of them. -/
def shaS1 (x : W64) : W64 := x.rotateRight 19 ^^^ x.rotateRight 61 ^^^ (x >>> 6)

/-- The message schedule: the last 16 words, newest first, and the words so far, newest first. -/
def shaSchedule : Nat → List W64 → List W64
  | 0, w => w
  | k + 1, w => shaSchedule k ((shaS1 (w.getD 1 0#64) + w.getD 6 0#64 + shaS0 (w.getD 14 0#64) + w.getD 15 0#64) :: w)

/-- One round. -/
def shaRound (h : Vector W64 8) (kw : W64) : Vector W64 8 :=
  let e := h[4]
  let a := h[0]
  let t1 := h[7] + (e.rotateRight 14 ^^^ e.rotateRight 18 ^^^ e.rotateRight 41) + ((e &&& h[5]) ^^^ (~~~e &&& h[6])) + kw
  let t2 := (a.rotateRight 28 ^^^ a.rotateRight 34 ^^^ a.rotateRight 39) + ((a &&& h[1]) ^^^ (a &&& h[2]) ^^^ (h[1] &&& h[2]))
  #v[t1 + t2, a, h[1], h[2], h[3] + t1, e, h[5], h[6]]

/-- One block of 128 bytes. -/
def shaBlock (h : Vector W64 8) (b : List Byte) : Vector W64 8 :=
  let w := (shaSchedule 64 (beWords64 16 b).reverse).reverse
  let r := (List.zipWith (fun k x => k + x) shaK w).foldl shaRound h
  Vector.zipWith (fun x y => x + y) h r

/-- The blocks of a padded message. -/
def shaBlocks : Nat → Vector W64 8 → List Byte → Vector W64 8
  | 0, h, _ => h
  | k + 1, h, b => shaBlocks k (shaBlock h (b.take 128)) (b.drop 128)

/-- The message with its padding: a 1 bit, zeros, and its length in bits. -/
def shaPad (m : List Byte) : List Byte :=
  m ++ [0x80#8] ++ List.replicate ((239 - m.length % 128) % 128) 0#8 ++ (natBytes (8 * m.length) 16).reverse

/-- SHA-384 over a list of bytes. -/
def sha384 (m : List Byte) : List Byte :=
  let p := shaPad m
  let h := shaBlocks (p.length / 128) (Vector.ofFn fun i => shaInit.getD i.val 0#64) p
  (h.toList.take 6).flatMap fun x => (natBytes x.toNat 8).reverse

end Sys2Proof.Machine
end

