-- ==== Sys2Proof/Machine/P384.lean ====
section
/-! DEFINITION. ECDSA over P-384 (R250, R446). The spec names the signature and does not define it; the curve and the
verification are those of FIPS 186-5. PRESUMED (log 20). -/
namespace Sys2Proof.Machine

/-- The field prime of P-384. -/
def p384P : Nat := 2 ^ 384 - 2 ^ 128 - 2 ^ 96 + 2 ^ 32 - 1
/-- The order of its base point. -/
def p384N : Nat := 0xffffffffffffffffffffffffffffffffffffffffffffffffc7634d81f4372ddf581a0db248b0a77aecec196accc52973
/-- The coefficient b; a is −3. -/
def p384B : Nat := 0xb3312fa7e23ee7e4988e056be3f82d19181d9c6efe8141120314088f5013875ac656398d8a2ed19d2a85c8edd3ec2aef
/-- The base point. -/
def p384G : Nat × Nat × Nat :=
  (0xaa87ca22be8b05378eb1c71ef320ad746e1d3b628ba79b9859f741e082542a385502f25dbf55296c3a545e3872760ab7,
   0x3617de4a96262c6f5d9e98bf9292dc29f8f41dbd289a147ce9da3113b5f0b8c00a60b1ce1d7e819d7a431d7c90ea0e5f, 1)

/-- a − b in the field. -/
def fpSub (a b : Nat) : Nat := (a + p384P - b % p384P) % p384P
/-- a × b in the field. -/
def fpMul (a b : Nat) : Nat := a * b % p384P

/-- Twice a point in Jacobian coordinates; Z = 0 is the point at infinity. -/
def ptDouble (q : Nat × Nat × Nat) : Nat × Nat × Nat :=
  let x := q.1
  let y := q.2.1
  let z := q.2.2
  let d := fpMul z z
  let g := fpMul y y
  let be := fpMul x g
  let al := fpMul 3 (fpMul (fpSub x d) ((x + d) % p384P))
  let x3 := fpSub (fpMul al al) (8 * be)
  (x3, fpSub (fpMul al (fpSub (4 * be) x3)) (8 * fpMul g g), 2 * fpMul y z % p384P)

/-- The sum of two points in Jacobian coordinates. -/
def ptAdd (q r : Nat × Nat × Nat) : Nat × Nat × Nat :=
  if q.2.2 = 0 then r
  else if r.2.2 = 0 then q
  else
    let z1 := fpMul q.2.2 q.2.2
    let z2 := fpMul r.2.2 r.2.2
    let u1 := fpMul q.1 z2
    let u2 := fpMul r.1 z1
    let s1 := fpMul q.2.1 (fpMul r.2.2 z2)
    let s2 := fpMul r.2.1 (fpMul q.2.2 z1)
    let h := fpSub u2 u1
    let w := fpSub s2 s1
    if h = 0 then (if w = 0 then ptDouble q else (1, 1, 0))
    else
      let hh := fpMul h h
      let hhh := fpMul h hh
      let v := fpMul u1 hh
      let x3 := fpSub (fpMul w w) (hhh + 2 * v)
      (x3, fpSub (fpMul w (fpSub v x3)) (fpMul s1 hhh), fpMul (fpMul q.2.2 r.2.2) h)

/-- k times a point, the `i` lowest bits of k still to come. -/
def ptMulFrom (q : Nat × Nat × Nat) (k : Nat) : Nat → (Nat × Nat × Nat) → (Nat × Nat × Nat)
  | 0, acc => acc
  | i + 1, acc =>
    let d := ptDouble acc
    ptMulFrom q k i (if k.testBit i then ptAdd d q else d)

/-- k times a point. -/
def ptMul (k : Nat) (q : Nat × Nat × Nat) : Nat × Nat × Nat := ptMulFrom q k 384 (1, 1, 0)

/-- x ^ e modulo m, by the `i` lowest bits of e. -/
def powModFrom (m x e : Nat) : Nat → Nat → Nat
  | 0, acc => acc
  | i + 1, acc => powModFrom m x e i (let s := acc * acc % m; if e.testBit i then s * x % m else s)

/-- The inverse of x modulo a prime m below 2^384. -/
def invMod (m x : Nat) : Nat := powModFrom m x (m - 2) 384 1

/-- The big-endian number that bytes hold. -/
def beNat (l : List Byte) : Nat := bytesNat l.reverse

/-- The signature (r then s) of a digest verifies under a public key (X then Y). -/
def ecdsaVerify (pub dig sig : List Byte) : Bool :=
  let x := beNat (pub.take 48)
  let y := beNat ((pub.drop 48).take 48)
  let r := beNat (sig.take 48)
  let t := beNat ((sig.drop 48).take 48)
  let onCurve := decide (x < p384P) && decide (y < p384P) &&
    decide (fpMul y y = (fpMul x (fpMul x x) + (p384P - 3) * x + p384B) % p384P)
  if !onCurve || decide (r = 0) || decide (p384N ≤ r) || decide (t = 0) || decide (p384N ≤ t) then false
  else
    let w := invMod p384N t
    let q := ptAdd (ptMul (beNat dig * w % p384N) p384G) (ptMul (r * w % p384N) (x, y, 1))
    if q.2.2 = 0 then false
    else
      let zi := invMod p384P q.2.2
      decide (fpMul q.1 (fpMul zi zi) % p384N = r)

end Sys2Proof.Machine
end

