-- ==== Sys2Proof/Machine/SoftFloat.lean ====
section
/-! DEFINITION. IEEE 754 binary32 and binary64 arithmetic with rounding to nearest even, subnormals kept, overflow to infinity
and canonical quiet NaNs (R214). -/
namespace Sys2Proof.Machine

/-- A binary format: bits of the significand and of the exponent field. -/
structure Fmt where
  /-- significand bits, the hidden one included -/
  prec : Nat
  /-- bits of the exponent field -/
  ew : Nat
  deriving DecidableEq, Repr

/-- binary32. -/
def fmt32 : Fmt := { prec := 24, ew := 8 }
/-- binary64. -/
def fmt64 : Fmt := { prec := 53, ew := 11 }

/-- Exponent bias. -/
def Fmt.bias (f : Fmt) : Int := 2 ^ (f.ew - 1) - 1
/-- Exponent of the unit of a subnormal significand. -/
def Fmt.emin (f : Fmt) : Int := 2 - f.bias - f.prec
/-- The canonical quiet NaN (R214). -/
def Fmt.qnan (f : Fmt) : Nat := (2 ^ f.ew - 1) * 2 ^ (f.prec - 1) + 2 ^ (f.prec - 2)
/-- The code of an infinity. -/
def Fmt.inf (f : Fmt) (neg : Bool) : Nat := (if neg then 2 ^ (f.prec + f.ew - 1) else 0) + (2 ^ f.ew - 1) * 2 ^ (f.prec - 1)

/-- A floating-point value: a finite one is (−1)^neg × m × 2^e. -/
inductive FNum where
  /-- not a number -/
  | nan
  /-- an infinity -/
  | inf (neg : Bool)
  /-- a finite value; zeros keep their sign -/
  | fin (neg : Bool) (m : Nat) (e : Int)
  deriving DecidableEq, Repr

/-- The value that a code stands for. -/
def Fmt.decode (f : Fmt) (w : Nat) : FNum :=
  let neg := decide (w / 2 ^ (f.prec + f.ew - 1) % 2 = 1)
  let ex := w / 2 ^ (f.prec - 1) % 2 ^ f.ew
  let fr := w % 2 ^ (f.prec - 1)
  if ex = 2 ^ f.ew - 1 then (if fr = 0 then .inf neg else .nan)
  else if ex = 0 then .fin neg fr f.emin
  else .fin neg (2 ^ (f.prec - 1) + fr) (f.emin + ex - 1)

/-- num × 2^sh, or its floor division, as a pair of numerator and denominator. -/
def shifted (num den : Nat) (sh : Int) : Nat × Nat :=
  if 0 ≤ sh then (num * 2 ^ sh.toNat, den) else (num, den * 2 ^ (-sh).toNat)

/-- The integer nearest to a quotient, ties to even. -/
def nearestEven (num den : Nat) : Nat :=
  let q := num / den
  let r := num % den
  if 2 * r > den ∨ (2 * r = den ∧ q % 2 = 1) then q + 1 else q

/-- The exponent of the leading bit of num / den. -/
def leadExp (num den : Nat) : Int :=
  let l : Int := (Nat.log2 num : Int) - Nat.log2 den
  let c := shifted num den (-l)
  if c.2 ≤ c.1 then l else l - 1

/-- The code nearest to (−1)^neg × num / den × 2^e, ties to even (R214). -/
def Fmt.round (f : Fmt) (neg : Bool) (num den : Nat) (e : Int) : Nat :=
  let sg := if neg then 2 ^ (f.prec + f.ew - 1) else 0
  if num = 0 then sg
  else
    let q := max f.emin (e + leadExp num den - (f.prec - 1))
    let c := shifted num den (e - q)
    let m := nearestEven c.1 c.2
    -- a carry out of the significand raises the exponent by itself in the code
    let code : Int := (q - f.emin) * 2 ^ (f.prec - 1) + m
    if (2 ^ f.ew - 1) * 2 ^ (f.prec - 1) ≤ code then f.inf neg else sg + code.toNat

/-- A finite sum with its sign: the exact sum of opposite values is +0, and the sum of two −0 is −0 (R214). -/
def Fmt.roundInt (f : Fmt) (v e : Int) (negZero : Bool) : Nat :=
  if v = 0 then f.round negZero 0 1 0 else f.round (decide (v < 0)) v.natAbs 1 e

/-- The sum of two values. -/
def Fmt.addN (f : Fmt) : FNum → FNum → Nat
  | .nan, _ => f.qnan
  | _, .nan => f.qnan
  | .inf a, .inf b => if a = b then f.inf a else f.qnan
  | .inf a, _ => f.inf a
  | _, .inf b => f.inf b
  | .fin sa ma ea, .fin sb mb eb =>
    let e := min ea eb
    let va : Int := (if sa then -1 else 1) * (ma * 2 ^ (ea - e).toNat : Nat)
    let vb : Int := (if sb then -1 else 1) * (mb * 2 ^ (eb - e).toNat : Nat)
    f.roundInt (va + vb) e (sa && sb)

/-- The product of two values. -/
def Fmt.mulN (f : Fmt) : FNum → FNum → Nat
  | .nan, _ => f.qnan
  | _, .nan => f.qnan
  | .inf a, .inf b => f.inf (a != b)
  | .inf a, .fin b m _ => if m = 0 then f.qnan else f.inf (a != b)
  | .fin a m _, .inf b => if m = 0 then f.qnan else f.inf (a != b)
  | .fin a ma ea, .fin b mb eb => f.round (a != b) (ma * mb) 1 (ea + eb)

/-- The quotient of two values. -/
def Fmt.divN (f : Fmt) : FNum → FNum → Nat
  | .nan, _ => f.qnan
  | _, .nan => f.qnan
  | .inf _, .inf _ => f.qnan
  | .inf a, .fin b _ _ => f.inf (a != b)
  | .fin a _ _, .inf b => f.round (a != b) 0 1 0
  | .fin a ma ea, .fin b mb eb =>
    if mb = 0 then (if ma = 0 then f.qnan else f.inf (a != b)) else f.round (a != b) ma mb (ea - eb)

/-- The opposite value. -/
def FNum.neg : FNum → FNum
  | .nan => .nan
  | .inf a => .inf (!a)
  | .fin a m e => .fin (!a) m e

/-- x < y; false when either is not a number. -/
def FNum.lt : FNum → FNum → Bool
  | .nan, _ => false
  | _, .nan => false
  | .inf a, .inf b => a && !b
  | .inf a, _ => a
  | _, .inf b => !b
  | .fin sa ma ea, .fin sb mb eb =>
    let e := min ea eb
    let va : Int := (if sa then -1 else 1) * (ma * 2 ^ (ea - e).toNat : Nat)
    let vb : Int := (if sb then -1 else 1) * (mb * 2 ^ (eb - e).toNat : Nat)
    decide (va < vb)

/-- The value is finite. -/
def FNum.finite : FNum → Bool
  | .fin .. => true
  | _ => false

/-- The integer nearest to the value, ties to even; not a number gives 0 and an infinity saturates through `sat` (R104). -/
def FNum.toInt (lim : Int) : FNum → Int
  | .nan => 0
  | .inf a => if a then -lim else lim
  | .fin a m e =>
    let c := shifted m 1 e
    let v : Int := nearestEven c.1 c.2
    if a then -v else v

/-! ### binary64 -/

/-- The value of a binary64 code. -/
def dec64 (x : W64) : FNum := fmt64.decode x.toNat
/-- r64(a + b). -/
def fadd (a b : W64) : W64 := BitVec.ofNat 64 (fmt64.addN (dec64 a) (dec64 b))
/-- r64(a − b). -/
def fsub (a b : W64) : W64 := BitVec.ofNat 64 (fmt64.addN (dec64 a) (dec64 b).neg)
/-- r64(a × b). -/
def fmul (a b : W64) : W64 := BitVec.ofNat 64 (fmt64.mulN (dec64 a) (dec64 b))
/-- r64(a / b). -/
def fdiv (a b : W64) : W64 := BitVec.ofNat 64 (fmt64.divN (dec64 a) (dec64 b))
/-- r64(√a): the square root of a number that is not negative, correctly rounded; of any other value, not a number. -/
def fsqrt (a : W64) : W64 :=
  match dec64 a with
  | .fin neg m e =>
    if m = 0 then a
    else if neg then BitVec.ofNat 64 fmt64.qnan
    else
      let sh : Nat := if e % 2 = 0 then 128 else 129
      let n := m * 2 ^ sh
      let r := Nat.sqrt n
      BitVec.ofNat 64 (fmt64.round false (2 * r + (if r * r = n then 0 else 1)) 1 ((e - sh) / 2 - 1))
  | .inf false => a
  | _ => BitVec.ofNat 64 fmt64.qnan
/-- The whole part of a finite number that is not negative; 0 of any other value. -/
def ffloor (a : W64) : Nat :=
  match dec64 a with
  | .fin false m e => let c := shifted m 1 e; c.1 / c.2
  | _ => 0
/-- −a. -/
def fneg (a : W64) : W64 := if dec64 a = .nan then a else a ^^^ 0x8000000000000000#64
/-- |a|. -/
def fabs (a : W64) : W64 := a &&& 0x7FFFFFFFFFFFFFFF#64
/-- a < b. -/
def flt (a b : W64) : Bool := (dec64 a).lt (dec64 b)
/-- a ≤ b. -/
def fle (a b : W64) : Bool := flt a b || (!flt b a && !decide (dec64 a = .nan) && !decide (dec64 b = .nan))
/-- The larger of two values; a NaN operand gives NaN. -/
def fmax (a b : W64) : W64 := if dec64 a = .nan then a else if dec64 b = .nan then b else if flt a b then b else a
/-- The smaller of two values; a NaN operand gives NaN. -/
def fmin (a b : W64) : W64 := if dec64 a = .nan then a else if dec64 b = .nan then b else if flt b a then b else a
/-- The value is finite. -/
def ffinite (a : W64) : Bool := (dec64 a).finite
/-- 1.0 in binary64. -/
def fone : W64 := 0x3FF0000000000000#64
/-- +0.0 in binary64. -/
def fzero : W64 := 0#64
/-- An integer in binary64. -/
def fofInt (v : Int) : W64 := BitVec.ofNat 64 (fmt64.roundInt v 0 false)

/-! ### binary32 -/

/-- f64: a binary32 value widened exactly (R212). -/
def f64 (x : BitVec 32) : W64 :=
  match fmt32.decode x.toNat with
  | .nan => BitVec.ofNat 64 fmt64.qnan
  | .inf a => BitVec.ofNat 64 (fmt64.inf a)
  | .fin a m e => BitVec.ofNat 64 (fmt64.round a m 1 e)

/-- r32: a binary64 value rounded to binary32 (R212). -/
def r32 (x : W64) : BitVec 32 :=
  match dec64 x with
  | .nan => BitVec.ofNat 32 fmt32.qnan
  | .inf a => BitVec.ofNat 32 (fmt32.inf a)
  | .fin a m e => BitVec.ofNat 32 (fmt32.round a m 1 e)

/-- A binary32 value is finite. -/
def finite32 (x : BitVec 32) : Bool := (fmt32.decode x.toNat).finite

/-- A binary32 value is positive and finite. -/
def posFinite32 (x : BitVec 32) : Bool := finite32 x && flt fzero (f64 x)

/-- The result of adding terms t ≡ j (mod 8) in ascending t into eight partial sums. -/
def partials : Nat → List W64 → Vector W64 8 → Vector W64 8
  | _, [], p => p
  | t, x :: r, p => partials (t + 1) r (updN p (t % 8) fun s => fadd s x)

/-- Σ: a reduction in eight partial sums, combined in a fixed tree (R214). -/
def fsum (l : List W64) : W64 :=
  let p := partials 0 l (Vector.replicate 8 fzero)
  fadd (fadd (fadd p[0] p[1]) (fadd p[2] p[3])) (fadd (fadd p[4] p[5]) (fadd p[6] p[7]))

/-- A dot product (R214, R216). -/
def fdot (a b : List W64) : W64 := fsum (List.zipWith fmul a b)

/-- The maximum norm, exact (R216). -/
def fnorm (l : List W64) : W64 := l.foldl (fun m x => fmax m (fabs x)) fzero

end Sys2Proof.Machine
end

