-- ==== Sys2Proof/Machine/ChurnMicro.lean ====
section
/-! DEFINITION. The Churn microinstructions and the run of one section of a microprogram (R207 to R215). -/
namespace Sys2Proof.Machine

/-! ### The memory of Churn (R194, R207) -/

/-- First byte of the Churn partition, where the schedule image stands. -/
def chBase : Nat := 0x1400000
/-- First byte of the factor region. -/
def chFactor : Nat := 0x1600000
/-- First byte of slot `n` of the work region. -/
def chSlot (n : Nat) : Nat := 0x1E00000 + n * 0x40000
/-- First byte of instance buffer `i`. -/
def chInst (i : Bool) : Nat := if i then 0x2200000 else 0x2100000
/-- First byte of solution buffer `i`. -/
def chSol (i : Bool) : Nat := if i then 0x2380000 else 0x2300000

/-- The 32-bit word at byte address `a` of the memory. -/
def g32 (m : List Host.Cell) (a : Nat) : BitVec 32 := BitVec.ofNat 32 (memNat m a 4)
/-- The 64-bit word at byte address `a` of the memory. -/
def g64 (m : List Host.Cell) (a : Nat) : W64 := BitVec.ofNat 64 (memNat m a 8)
/-- A 32-bit word written at byte address `a`. -/
def p32 (m : List Host.Cell) (a : Nat) (v : BitVec 32) : List Host.Cell := memWriteList m a (natBytes v.toNat 4)
/-- A 64-bit word written at byte address `a`. -/
def p64 (m : List Host.Cell) (a : Nat) (v : W64) : List Host.Cell := memWriteList m a (natBytes v.toNat 8)
/-- `n` binary32 entries from byte address `a`. -/
def vec32 (m : List Host.Cell) (a n : Nat) : List (BitVec 32) := (List.range n).map fun i => g32 m (a + 4 * i)
/-- `n` binary64 entries from byte address `a`. -/
def vec64 (m : List Host.Cell) (a n : Nat) : List W64 := (List.range n).map fun i => g64 m (a + 8 * i)
/-- binary32 entries written from byte address `a`. -/
def putVec32 : List Host.Cell → Nat → List (BitVec 32) → List Host.Cell
  | m, _, [] => m
  | m, a, v :: r => putVec32 (p32 m a v) (a + 4) r
/-- binary64 entries written from byte address `a`. -/
def putVec64 : List Host.Cell → Nat → List W64 → List Host.Cell
  | m, _, [] => m
  | m, a, v :: r => putVec64 (p64 m a v) (a + 8) r

/-! ### Microinstructions (R209 to R214) -/

/-- What a section takes from the instance, the schedule and the registers (R189, R210, R212). -/
structure MicroEnv where
  /-- first byte of the instance being solved -/
  inst : Nat
  /-- ρ -/
  rho : BitVec 32
  /-- δ -/
  delta : BitVec 32
  /-- pivots are tested: class S or M -/
  test : Bool
  /-- EPIV_EXP -/
  epiv : Nat
  /-- DREG_EXP -/
  dreg : Nat
  /-- first byte of the RS array -/
  rs : Nat
  deriving DecidableEq, Repr

/-- The accumulator of one cluster with the shape set by its last ACLR (R211, R212). -/
structure Cluster where
  /-- NR -/
  nr : Nat := 0
  /-- w -/
  w : Nat := 0
  /-- ACC[0 … NR × w − 1] -/
  acc : List W64 := []
  deriving DecidableEq, Repr, Inhabited

/-- What a section changes: the memory, the accumulators and the pivot count. -/
structure Micro where
  /-- the memory -/
  mem : List Host.Cell
  /-- the clusters -/
  cl : Vector Cluster 8 := Vector.replicate 8 {}
  /-- pivots replaced -/
  pivots : Nat := 0

/-- The four words of a microinstruction (R209). -/
structure MicroWord where
  /-- word 0 -/
  w0 : BitVec 32
  /-- word 1 -/
  w1 : BitVec 32
  /-- word 2 -/
  w2 : BitVec 32
  /-- word 3 -/
  w3 : BitVec 32
  deriving DecidableEq, Repr

/-- OP (R209). -/
def MicroWord.op (i : MicroWord) : Nat := (field i.w0 0 8).toNat
/-- SUB. -/
def MicroWord.sub (i : MicroWord) : Nat := (field i.w0 8 4).toNat
/-- CL. -/
def MicroWord.clu (i : MicroWord) : Fin 8 := (field i.w0 12 3).toFin
/-- N. -/
def MicroWord.n (i : MicroWord) : Nat := (field i.w0 16 16).toNat
/-- X. -/
def MicroWord.x (i : MicroWord) : BitVec 24 := field i.w1 0 24
/-- K. -/
def MicroWord.k (i : MicroWord) : Nat := (field i.w1 24 8).toNat
/-- Y. -/
def MicroWord.y (i : MicroWord) : BitVec 24 := field i.w2 0 24
/-- L. -/
def MicroWord.l (i : MicroWord) : BitVec 24 := field i.w3 0 24

/-- The byte address that an address field names (R210). -/
def MicroEnv.addr (e : MicroEnv) (a : BitVec 24) : Nat :=
  (if field a 22 2 = 1#2 then e.inst else chBase) + 4 * (field a 0 22).toNat

/-- Microinstruction `i` of the microprogram at byte address `code`. -/
def microAt (m : List Host.Cell) (code i : Nat) : MicroWord :=
  { w0 := g32 m (code + 16 * i), w1 := g32 m (code + 16 * i + 4), w2 := g32 m (code + 16 * i + 8), w3 := g32 m (code + 16 * i + 12) }

/-- ACC before the first ACLR of a section is undefined (R211): a free value for each entry. -/
def accFree (i : Nat) : W64 := Config.free32 (2 * i + 1) ++ Config.free32 (2 * i)

/-- ACC[c, i]. -/
def Cluster.at (k : Cluster) (c i : Nat) : W64 := k.acc.getD (c * k.nr + i) (accFree (c * k.nr + i))
/-- ACC[c, i] changed. -/
def Cluster.put (k : Cluster) (c i : Nat) (f : W64 → W64) : Cluster :=
  { k with acc := k.acc.set (c * k.nr + i) (f (k.at c i)) }
/-- Cluster `c` changed. -/
def Micro.modCl (s : Micro) (c : Fin 8) (f : Cluster → Cluster) : Micro := { s with cl := upd s.cl c f }

/-- ASCAT: values, ρ or δ scattered into ACC. -/
def opAscat (e : MicroEnv) (i : MicroWord) (s : Micro) : Micro :=
  (List.range i.n).foldl (fun s t =>
    let p := e.addr i.l + 8 * t
    let a := field (g32 s.mem p) 0 24
    let c := (g32 s.mem (p + 4)).toNat
    let v := f64 (g32 s.mem (e.addr a))
    let g := fun (o : W64) =>
      match i.sub with
      | 0 => fadd o v
      | 1 => fsub o v
      | 2 => fadd o (f64 e.rho)
      | _ => fsub o (f64 e.delta)
    s.modCl i.clu fun k => { k with acc := k.acc.set c (g (k.acc.getD c (accFree c))) }) s

/-- One row record of AOUTER at byte address `p`: the pairs' outer product, scaled by W of the row. -/
def outerRow (e : MicroEnv) (c : Fin 8) (s : Micro) (p : Nat) : Micro :=
  let h := g32 s.mem p
  let om := f64 (g32 s.mem (chSlot 6 + 4 * (field h 0 16).toNat))
  let k := (field h 16 16).toNat
  let val := fun a => f64 (g32 s.mem (e.addr (field (g32 s.mem (p + 4 + 8 * a)) 0 24)))
  let pc := fun a => g32 s.mem (p + 8 + 8 * a)
  (List.range k).foldl (fun s' a =>
    (List.range k).foldl (fun s' b =>
      let pa := (field (pc a) 0 12).toNat
      let cb := (field (pc b) 16 7).toNat
      if cb ≠ 0x7F ∧ cb ≤ pa then
        s'.modCl c fun q => q.put cb pa fun o => fadd o (fmul (fmul om (val a)) (val b))
      else s') s') s

/-- AOUTER over `n` row records from byte address `p`. -/
def opAouter (e : MicroEnv) (c : Fin 8) : Nat → Nat → Micro → Micro
  | 0, _, s => s
  | n + 1, p, s => opAouter e c n (p + 4 + 8 * (field (g32 s.mem p) 16 16).toNat) (outerRow e c s p)

/-- AUPD: the update of a panel by an earlier one. -/
def opAupd (e : MicroEnv) (i : MicroWord) (s : Micro) : Micro :=
  let ls := fun (r k : Nat) => f64 (g32 s.mem (e.addr i.y + 4 * (k * i.n + r)))
  let p := e.addr i.l
  let q := (field (g32 s.mem p) 0 12).toNat
  let m := (field (g32 s.mem p) 16 12).toNat
  let f := (g32 s.mem (p + 4)).toNat
  let tgt := fun a => g32 s.mem (p + 8 + 4 * a)
  (List.range m).foldl (fun s' a =>
    (List.range q).foldl (fun s' b =>
      let tr := (field (tgt a) 0 12).toNat
      let tc := (field (tgt b) 16 7).toNat
      if tc ≤ tr then
        let sum := fsum ((List.range i.k).map fun k => fmul (fmul (ls (f + a) k) (ls k k)) (ls (f + b) k))
        s'.modCl i.clu fun c => c.put tc tr fun o => fsub o sum
      else s') s') s

/-- 2^−n × r in binary64. -/
def scaleDown (n : Nat) (r : W64) : W64 := fmul (BitVec.ofNat 64 ((1023 - n) * 2 ^ 52)) r

/-- The pivot rule of classes S and M (R189, R213): the stored pivot and whether it was replaced. -/
def pivotRule (e : MicroEnv) (map : BitVec 32) (rs : W64) (d : BitVec 32) : BitVec 32 × Bool :=
  let r := if map = 0xFFFFFFFF#32 then fone else rs
  if e.test && flt (fabs (f64 d)) (scaleDown e.epiv r) then
    (r32 (if flt (f64 d) fzero then fneg (scaleDown e.dreg r) else scaleDown e.dreg r), true)
  else (d, false)

/-- Column `j` of AFACT (R213). -/
def factCol (e : MicroEnv) (i : MicroWord) (s : Micro) (j : Nat) : Micro :=
  let k := s.cl[i.clu]
  let x := e.addr i.x
  let map := g32 s.mem (e.addr i.y + 4 * j)
  let pv := pivotRule e map (f64 (g32 s.mem (e.rs + 4 * map.toNat))) (r32 (k.at j j))
  let d := f64 pv.1
  let l := fun r => r32 (fdiv (k.at j r) d)
  let m1 := p32 s.mem (x + 4 * (j * k.nr + j)) pv.1
  let m2 := (List.range j).foldl (fun m r => p32 m (x + 4 * (j * k.nr + r)) 0#32) m1
  let m3 := ((List.range k.nr).drop (j + 1)).foldl (fun m r => p32 m (x + 4 * (j * k.nr + r)) (l r)) m2
  let k' := ((List.range k.w).drop (j + 1)).foldl (fun q c =>
    ((List.range k.nr).drop c).foldl (fun q r =>
      q.put c r fun o => fsub o (fmul (fmul (f64 (l r)) d) (f64 (l c)))) q) k
  { (s.modCl i.clu fun _ => k') with mem := m3, pivots := s.pivots + if pv.2 then 1 else 0 }

/-- PERM: a permutation, with widening or rounding. -/
def opPerm (e : MicroEnv) (i : MicroWord) (m0 : List Host.Cell) : List Host.Cell :=
  (List.range i.n).foldl (fun m t =>
    let p := (g32 m (e.addr i.l + 4 * t)).toNat
    match i.sub with
    | 0 => p64 m (e.addr i.x + 8 * t) (f64 (g32 m (e.addr i.y + 4 * p)))
    | 1 => p32 m (e.addr i.x + 4 * t) (r32 (g64 m (e.addr i.y + 8 * p)))
    | _ => p64 m (e.addr i.x + 8 * t) (g64 m (e.addr i.y + 8 * p))) m0

/-- SPMV over the row records from byte address `p`; `t` numbers the output. -/
def opSpmv (e : MicroEnv) (i : MicroWord) : Nat → Nat → Nat → List Host.Cell → List Host.Cell
  | 0, _, _, m => m
  | n + 1, t, p, m =>
    let cnt := (g32 m p).toNat
    let sum := fsum ((List.range cnt).map fun u =>
      fmul (f64 (g32 m (e.addr (field (g32 m (p + 4 + 8 * u)) 0 24)))) (g64 m (e.addr i.y + 8 * (g32 m (p + 8 + 8 * u)).toNat)))
    let wide := decide (i.sub / 2 % 2 = 1)
    let old := if wide then g64 m (e.addr i.x + 8 * t) else f64 (g32 m (e.addr i.x + 4 * t))
    let v := if i.sub % 2 = 1 then fadd sum old else sum
    let m' := if wide then p64 m (e.addr i.x + 8 * t) v else p32 m (e.addr i.x + 4 * t) (r32 v)
    opSpmv e i n (t + 1) (p + 4 + 8 * cnt) m'

/-- L(i, j) of the panel at Y (R208). -/
def panelAt (e : MicroEnv) (i : MicroWord) (m : List Host.Cell) (r c : Nat) : W64 := f64 (g32 m (e.addr i.y + 4 * (c * i.n + r)))
/-- Byte address of x[g_i]. -/
def xAddr (e : MicroEnv) (i : MicroWord) (m : List Host.Cell) (r : Nat) : Nat :=
  e.addr i.x + 8 * (g32 m (e.addr i.l + 4 * r)).toNat

/-- FWD: forward substitution with one panel. -/
def opFwd (e : MicroEnv) (i : MicroWord) (m0 : List Host.Cell) : List Host.Cell :=
  (List.range i.k).foldl (fun m j =>
    ((List.range i.n).drop (j + 1)).foldl (fun m r =>
      p64 m (xAddr e i m r) (fsub (g64 m (xAddr e i m r)) (fmul (panelAt e i m r j) (g64 m (xAddr e i m j))))) m) m0

/-- DIAG: division by the pivots. -/
def opDiag (e : MicroEnv) (i : MicroWord) (m0 : List Host.Cell) : List Host.Cell :=
  (List.range i.k).foldl (fun m j => p64 m (xAddr e i m j) (fdiv (g64 m (xAddr e i m j)) (panelAt e i m j j))) m0

/-- BWD: backward substitution with one panel. -/
def opBwd (e : MicroEnv) (i : MicroWord) (m0 : List Host.Cell) : List Host.Cell :=
  (List.range i.k).reverse.foldl (fun m j =>
    let sum := fsum (((List.range i.n).drop (j + 1)).map fun r => fmul (panelAt e i m r j) (g64 m (xAddr e i m r)))
    p64 m (xAddr e i m j) (fsub (g64 m (xAddr e i m j)) sum)) m0

/-- VSET: a constant vector. -/
def opVset (e : MicroEnv) (i : MicroWord) (m0 : List Host.Cell) : List Host.Cell :=
  (List.range i.n).foldl (fun m t =>
    if i.sub = 0 then p32 m (e.addr i.x + 4 * t) i.w2 else p64 m (e.addr i.x + 8 * t) (f64 i.w2)) m0

/-- ASTORE: ACC rounded into memory. -/
def opAstore (e : MicroEnv) (i : MicroWord) (s : Micro) : Micro :=
  let put := fun (m : List Host.Cell) (t : Nat) => p32 m (e.addr i.x + 4 * t) (r32 ((s.cl[i.clu]).acc.getD t (accFree t)))
  { s with mem := (List.range i.n).foldl put s.mem }

/-- One microinstruction other than END (R212). The clusters of one section may be taken in index order, since between two
barriers their footprints are disjoint (R211). -/
def microStep (e : MicroEnv) (i : MicroWord) (s : Micro) : Micro :=
  match i.op with
  | 0x02 => s.modCl i.clu fun _ => { nr := i.n, w := i.k, acc := List.replicate (i.n * i.k) fzero }
  | 0x03 => opAscat e i s
  | 0x04 => opAouter e i.clu i.n (e.addr i.l) s
  | 0x05 => opAupd e i s
  | 0x06 => (List.range i.k).foldl (fun s j => factCol e i s j) s
  | 0x07 => opAstore e i s
  | 0x08 => { s with mem := opPerm e i s.mem }
  | 0x09 => { s with mem := opSpmv e i i.n 0 (e.addr i.l) s.mem }
  | 0x0A => { s with mem := opFwd e i s.mem }
  | 0x0B => { s with mem := opDiag e i s.mem }
  | 0x0C => { s with mem := opBwd e i s.mem }
  | 0x0D => { s with mem := opVset e i s.mem }
  | _ => s

/-- Microinstructions from index `i` until END, at most `fuel` of them. -/
def runFrom (e : MicroEnv) (code : Nat) : Nat → Nat → Micro → Micro
  | 0, _, s => s
  | fuel + 1, i, s =>
    let w := microAt s.mem code i
    if w.op = 0 then s else runFrom e code fuel (i + 1) (microStep e w s)

/-- Byte address of word `n` of the resident schedule's header (R204). -/
def schWord (m : List Host.Cell) (n : Nat) : BitVec 32 := g32 m (chBase + 4 * n)

/-- One section of the resident microprogram (R215): the memory after it and the pivots it replaced. -/
def runSection (e : MicroEnv) (sec : Nat) (m : List Host.Cell) : List Host.Cell × Nat :=
  let code := chBase + (schWord m 21).toNat
  let s := runFrom e code (schWord m 22).toNat ((schWord m (24 + sec)).setWidth 16).toNat { mem := m }
  (s.mem, s.pivots)

end Sys2Proof.Machine
end

