-- ==== Sys2Proof/Machine/ChurnSolve.lean ====
section
/-! DEFINITION. The check of a QP instance and the interior-point solve of the fixed sequencer (R182, R183, R186 to R191, R195,
R214 to R218). -/
namespace Sys2Proof.Machine

/-! ### Dimensions and instances -/

/-- NVAR, NEQ and NINEQ of the resident schedule (R204). -/
structure QpDims where
  /-- NVAR -/
  nvar : Nat
  /-- NEQ -/
  neq : Nat
  /-- NINEQ -/
  nineq : Nat
  deriving DecidableEq, Repr

/-- The dimensions in the resident schedule's header. -/
def qpDims (m : List Host.Cell) : QpDims :=
  { nvar := (field (schWord m 1) 0 16).toNat, neq := (field (schWord m 1) 16 16).toNat, nineq := (field (schWord m 2) 0 16).toNat }

/-- Word `n` of the instance at byte address `a` (R182). -/
def iWord (m : List Host.Cell) (a n : Nat) : BitVec 32 := g32 m (a + 4 * n)

/-- The arrays of an instance by their offset words: P, Q, A, B, G, H, RS and WS, with their entries (R182). -/
def instArrays (m : List Host.Cell) (a : Nat) : List (Nat × Nat) :=
  let d := qpDims m
  let off := fun i => (iWord m a (12 + i)).toNat
  let n := fun i => (schWord m i).toNat
  [(off 0, n 4), (off 1, d.nvar), (off 2, n 5), (off 3, d.neq), (off 4, n 6), (off 5, d.nineq), (off 6, d.neq + d.nineq)] ++
    if bit (iWord m a 0) 18 then [(off 7, d.nvar + d.neq + 2 * d.nineq)] else []

/-- The array `i` of an instance: its first byte. -/
def instArr (m : List Host.Cell) (a i : Nat) : Nat := a + (iWord m a (12 + i)).toNat

/-- The check of an instance before its solve (R183): the first failure in the order of R10. `sig` is SIG_eff and `sched` says
that a validated schedule is loaded (R201). -/
def instCheck (m : List Host.Cell) (a : Nat) (sig : BitVec 64) (sched : Bool) : Option Status :=
  let d := qpDims m
  let w := iWord m a
  let len := (w 8).toNat
  let l := instArrays m a
  let offs := (List.range (if bit (w 0) 18 then 8 else 7)).map fun i => (w (12 + i)).toNat
  if !sched then some .badOperand
  else if field (w 0) 0 16 ≠ 1#16 ∨ field (w 0) 19 13 ≠ 0#13 ∨ w 9 ≠ 0#32 ∨ field (w 0) 16 2 ≠ field (schWord m 0) 16 2 ∨
      w 1 ≠ schWord m 1 ∨ w 2 ≠ schWord m 2 ∨ g64 m (a + 16) ≠ sig ∨ (offs.any fun o => decide (o % 8 ≠ 0) || decide (o < 592)) = true
  then some .badOperand
  else if len < 592 ∨ 1048576 < len ∨ (l.any fun q => decide (len < q.1 + 4 * q.2)) = true then some .length
  else if ((vec32 m (instArr m a 6) (d.neq + d.nineq)).any fun x => finite32 x && fle (f64 x) fzero) = true then some .range
  else none

/-- Every value of the instance is finite (R191). -/
def instFinite (m : List Host.Cell) (a : Nat) : Bool :=
  (instArrays m a).all fun q => (vec32 m (a + q.1) q.2).all finite32

/-! ### The sequencer -/

/-- Tolerances and exponents that a solve takes from the registers (R187, R189). -/
structure QpCfg where
  /-- ε_p -/
  tolP : BitVec 32
  /-- ε_d -/
  tolD : BitVec 32
  /-- ε_gap -/
  tolGap : BitVec 32
  /-- ITER_CAP -/
  cap : Nat
  /-- EPIV_EXP -/
  epiv : Nat
  /-- DREG_EXP -/
  dreg : Nat
  deriving DecidableEq, Repr

/-- How a solve ends by itself (R186, R188, R191). -/
inductive QpEnd where
  | converged | iterCap | nanAbort
  deriving DecidableEq, Repr, Inhabited

/-- What a solve leaves (R195). -/
structure QpResult where
  /-- the memory, with the iterates and the factor -/
  mem : List Host.Cell
  /-- how the solve ended -/
  how : QpEnd
  /-- iterations performed -/
  iter : Nat
  /-- pivots replaced -/
  pivots : Nat
  /-- GAP, RP and RD of the last convergence test; none before the first -/
  norms : Option (BitVec 32 × BitVec 32 × BitVec 32)

/-- The environment of the sections (R210, R213). -/
def qpEnv (m : List Host.Cell) (c : QpCfg) (a : Nat) : MicroEnv :=
  { inst := a, rho := schWord m 12, delta := schWord m 13, test := decide (field (schWord m 0) 16 2 ≠ 2#2)
    epiv := c.epiv, dreg := c.dreg, rs := instArr m a 6 }

/-- A product section: TMP0 := x, the section, and `n` entries of TMP1 (R215). -/
def mulSec (e : MicroEnv) (sec n : Nat) (m : List Host.Cell) (x : List W64) : List Host.Cell × List W64 :=
  let m1 := (runSection e sec (putVec64 m (chSlot 10) x)).1
  (m1, vec64 m1 (chSlot 11) n)

/-- Elementwise binary64 expressions over lists. -/
def zip64 (f : W64 → W64 → W64) (a b : List W64) : List W64 := List.zipWith f a b
/-- Widened lists. -/
def wide (l : List (BitVec 32)) : List W64 := l.map f64
/-- Rounded lists. -/
def narrow (l : List W64) : List (BitVec 32) := l.map r32

/-- RHS := r; SOLVE; the solution from RHS, also in X0, with the right-hand side in RES (R217). -/
def ksolve (e : MicroEnv) (n : Nat) (m : List Host.Cell) (r : List W64) : List Host.Cell × List W64 :=
  let m1 := putVec64 (putVec64 m (chSlot 7) r) (chSlot 8) r
  let m2 := (runSection e 1 m1).1
  let x := vec64 m2 (chSlot 7) n
  (putVec64 m2 (chSlot 9) x, x)

/-- K₀ x, where K₀ is K without ρ and δ (R217). -/
def applyK0 (e : MicroEnv) (d : QpDims) (w : List W64) (m : List Host.Cell) (x : List W64) : List Host.Cell × List W64 :=
  let z := x.take d.nvar
  let y := x.drop d.nvar
  let p := mulSec e 2 d.nvar m z
  let g := mulSec e 5 d.nineq p.1 z
  let gt := mulSec e 6 d.nvar g.1 (zip64 fmul w g.2)
  let at_ := mulSec e 4 d.nvar gt.1 y
  let ax := mulSec e 3 d.neq at_.1 z
  (ax.1, zip64 fadd (zip64 fadd p.2 gt.2) at_.2 ++ ax.2)

/-- The corrector solve with its refinement step (R217). -/
def refined (e : MicroEnv) (d : QpDims) (w : List W64) (m : List Host.Cell) (r : List W64) : List Host.Cell × List W64 :=
  let n := d.nvar + d.neq
  let s := ksolve e n m r
  let k := applyK0 e d w s.1 s.2
  let res := zip64 fsub r k.2
  let m1 := putVec64 (putVec64 k.1 (chSlot 8) res) (chSlot 7) res
  let m2 := (runSection e 1 m1).1
  (m2, zip64 fadd s.2 (vec64 m2 (chSlot 7) n))

/-- −v / Δv over the elements with Δv < 0, at most 1.0 (R186, R216). -/
def stepTo (v dv : List W64) : W64 :=
  ((v.zip dv).filter fun q => flt q.2 fzero).foldl (fun a q => fmin a (fdiv (fneg q.1) q.2)) fone

/-- 0.99 in binary64. -/
def f099 : W64 := 0x3FEFAE147AE147AE#64
/-- ½ in binary64. -/
def fhalf : W64 := 0x3FE0000000000000#64
/-- κ = 2^−10 in binary64. -/
def fkappa : W64 := 0x3F50000000000000#64

/-- The diagonal entries of every panel (R218). -/
def panelDiag (m : List Host.Cell) : List (BitVec 32) :=
  let sn := chBase + (schWord m 20).toNat
  (List.range (field (schWord m 7) 0 16).toNat).flatMap fun j =>
    let w1 := g32 m (sn + 16 * j + 4)
    let nr := (field (g32 m (sn + 16 * j + 8)) 0 13).toNat
    let a := chBase + 4 * (field (g32 m (sn + 16 * j)) 0 22).toNat
    (List.range (field w1 16 7).toNat).map fun c => g32 m (a + 4 * (c * nr + c))

/-- The iterates z, y, λ and s in slots 0 to 3. -/
def putIter (m : List Host.Cell) (z y l s : List (BitVec 32)) : List Host.Cell :=
  putVec32 (putVec32 (putVec32 (putVec32 m (chSlot 0) z) (chSlot 1) y) (chSlot 2) l) (chSlot 3) s

/-- The iteration of R186 from the iterates in memory, with at most `fuel` passes. `it` counts iterations. -/
def iterate (e : MicroEnv) (c : QpCfg) (d : QpDims) (a : Nat) : Nat → Nat → Nat → List Host.Cell → QpResult
  | 0, it, piv, m => { mem := m, how := .iterCap, iter := it, pivots := piv, norms := none }
  | fuel + 1, it, piv, m =>
    let z32 := vec32 m (chSlot 0) d.nvar
    let y32 := vec32 m (chSlot 1) d.neq
    let l32 := vec32 m (chSlot 2) d.nineq
    let s32 := vec32 m (chSlot 3) d.nineq
    let z := wide z32
    let y := wide y32
    let l := wide l32
    let s := wide s32
    let q := wide (vec32 m (instArr m a 1) d.nvar)
    let b := wide (vec32 m (instArr m a 3) d.neq)
    let h := wide (vec32 m (instArr m a 5) d.nineq)
    -- residuals
    let pz := mulSec e 2 d.nvar m z
    let aty := mulSec e 4 d.nvar pz.1 y
    let gtl := mulSec e 6 d.nvar aty.1 l
    let az := mulSec e 3 d.neq gtl.1 z
    let gz := mulSec e 5 d.nineq az.1 z
    let m0 := gz.1
    let rd := wide (narrow (zip64 fadd (zip64 fadd (zip64 fadd pz.2 q) aty.2) gtl.2))
    let rp := wide (narrow (zip64 fsub az.2 b))
    let ri := wide (narrow (zip64 fsub (zip64 fadd gz.2 s) h))
    let sl := fdot s l
    let mm := fofInt d.nineq
    let mu := fdiv sl mm
    -- convergence (R187)
    let np := fmax (fnorm rp) (fnorm ri)
    let nd := fnorm rd
    let bp := fmul (f64 c.tolP)
      (fadd fone (fmax (fmax (fmax (fmax (fnorm az.2) (fnorm b)) (fnorm gz.2)) (fnorm s)) (fnorm h)))
    let bd := fmul (f64 c.tolD) (fadd fone (fmax (fmax (fmax (fnorm pz.2) (fnorm aty.2)) (fnorm gtl.2)) (fnorm q)))
    let bg := fmul (f64 c.tolGap) (fadd fone (fabs (fadd (fmul fhalf (fdot z pz.2)) (fdot q z))))
    let norms := some (r32 sl, r32 np, r32 nd)
    if fle np bp && fle nd bd && fle sl bg then { mem := m0, how := .converged, iter := it, pivots := piv, norms := norms }
    else if it = c.cap then { mem := m0, how := .iterCap, iter := it, pivots := piv, norms := norms }
    else
      let w32 := narrow (zip64 fdiv l s)
      let w := wide w32
      let f := runSection e 0 (putVec32 m0 (chSlot 6) w32)
      -- predictor
      let nrp := rp.map fneg
      let t1 := mulSec e 6 d.nvar f.1 (zip64 fsub (zip64 fmul w ri) l)
      let k1 := ksolve e (d.nvar + d.neq) t1.1 (zip64 fsub (rd.map fneg) t1.2 ++ nrp)
      let dz1 := wide (narrow (k1.2.take d.nvar))
      let g1 := mulSec e 5 d.nineq k1.1 dz1
      let dl1 := wide (narrow (zip64 fsub (zip64 fmul w (zip64 fadd g1.2 ri)) l))
      let ds1 := wide (narrow (zip64 fsub (ri.map fneg) g1.2))
      let a1 := fmin (stepTo s ds1) (stepTo l dl1)
      let muAff := fdiv (fdot (zip64 fadd s (ds1.map (fmul a1))) (zip64 fadd l (dl1.map (fmul a1)))) mm
      let ra := fdiv muAff mu
      let sm := fmul (fmul (fmul ra ra) ra) mu
      -- corrector
      let rc := wide (narrow ((zip64 fadd (zip64 fmul s l) (zip64 fmul ds1 dl1)).map fun x => fsub x sm))
      let rcs := zip64 fdiv rc s
      let t2 := mulSec e 6 d.nvar g1.1 (zip64 fsub (zip64 fmul w ri) rcs)
      let k2 := refined e d w t2.1 (zip64 fsub (rd.map fneg) t2.2 ++ nrp)
      let dz := wide (narrow (k2.2.take d.nvar))
      let dy := wide (narrow (k2.2.drop d.nvar))
      let g2 := mulSec e 5 d.nineq k2.1 dz
      let dl32 := narrow (zip64 fsub (zip64 fmul w (zip64 fadd g2.2 ri)) rcs)
      let ds32 := narrow (zip64 fsub (ri.map fneg) g2.2)
      let dl := wide dl32
      let ds := wide ds32
      let st := fmin fone (fmul f099 (fmin (stepTo s ds) (stepTo l dl)))
      let upd_ := fun (x dx : List W64) => narrow (zip64 fadd x (dx.map (fmul st)))
      let z' := upd_ z dz
      let y' := upd_ y dy
      let l' := upd_ l dl
      let s' := upd_ s ds
      let m1 := putIter (putVec32 (putVec32 g2.1 (chSlot 4) dl32) (chSlot 5) ds32) z' y' l' s'
      if (z' ++ y' ++ l' ++ s' ++ panelDiag m1).all finite32 && ffinite mu then
        iterate e c d a fuel (it + 1) (piv + f.2) m1
      else { mem := m1, how := .nanAbort, iter := it + 1, pivots := piv + f.2, norms := norms }

/-- The WS array is used: WARM = 1 and WSIG = SIG (R186, R193). -/
def warmOk (m : List Host.Cell) (a : Nat) : Bool := bit (iWord m a 0) 18 && decide (g64 m (a + 24) = g64 m (a + 16))
/-- A warm start is rejected (R193). -/
def warmReject (m : List Host.Cell) (a : Nat) : Bool := bit (iWord m a 0) 18 && !warmOk m a

/-- The start of the iterates (R186). -/
def startIter (m : List Host.Cell) (a : Nat) (d : QpDims) : List Host.Cell :=
  if warmOk m a then
    let o := instArr m a 7
    let lift := fun x => r32 (fmax (f64 x) fkappa)
    putIter m (vec32 m o d.nvar) (vec32 m (o + 4 * d.nvar) d.neq)
      ((vec32 m (o + 4 * (d.nvar + d.neq)) d.nineq).map lift)
      ((vec32 m (o + 4 * (d.nvar + d.neq + d.nineq)) d.nineq).map lift)
  else
    putIter m (List.replicate d.nvar 0#32) (List.replicate d.neq 0#32) (List.replicate d.nineq 0x3F800000#32)
      (List.replicate d.nineq 0x3F800000#32)

/-- The solve of the instance at byte address `a` (R186 to R191). -/
def qpSolve (c : QpCfg) (a : Nat) (m : List Host.Cell) : QpResult :=
  let d := qpDims m
  if instFinite m a then iterate (qpEnv m c a) c d a (c.cap + 1) 0 0 (startIter m a d)
  else { mem := m, how := .nanAbort, iter := 0, pivots := 0, norms := none }

/-! ### The solution (R195) -/

/-- The header words of a solution and, unless it was aborted, its arrays in the units of the unscaled problem. `nan` stands for
GAP, RP and RD where no convergence test was made. -/
def solutionWords (m0 : List Host.Cell) (a : Nat) (r : QpResult) (nan : BitVec 32 × BitVec 32 × BitVec 32) : List (BitVec 32) :=
  let d := qpDims m0
  let w := iWord m0 a
  let n := r.norms.getD nan
  let abort := decide (r.how = .nanAbort)
  let rs := wide (vec32 m0 (instArr m0 a 6) (d.neq + d.nineq))
  let y := wide (vec32 r.mem (chSlot 1) d.neq)
  let l := wide (vec32 r.mem (chSlot 2) d.nineq)
  let s := wide (vec32 r.mem (chSlot 3) d.nineq)
  [nat32 1 0 ||| at32 (field (w 0) 16 2) 16 ||| bitAt (warmReject m0 a) 18 ||| bitAt (decide (0 < r.pivots)) 19 |||
     bitAt (decide (r.how = .iterCap)) 20 ||| bitAt abort 21,
   w 3, w 4, w 5, nat32 r.iter 0, BitVec.ofNat 32 r.pivots, w 10, w 11, n.1, n.2.1, n.2.2, w 1, (w 2) &&& 0xFFFF#32, 0#32, 0#32, 0#32] ++
  (List.range 128).map (fun i => w (20 + i)) ++
  if abort then []
  else vec32 r.mem (chSlot 0) d.nvar ++ narrow (zip64 fdiv y (rs.take d.neq)) ++ narrow (zip64 fdiv l (rs.drop d.neq)) ++
    narrow (zip64 fmul s (rs.drop d.neq))

/-- The bytes that a result occupies (R201). -/
def solutionBytes (d : QpDims) : Nat := 576 + 4 * (d.nvar + d.neq + 2 * d.nineq)

end Sys2Proof.Machine
end

