-- ==== Sys2Proof/Machine/Interp.lean ====
section
/-! DEFINITION. The interpolation of the current solution: the plan clock and the entries of an arm (R198, R199). -/
namespace Sys2Proof.Machine

/-- The word index, within a stage, of the variable of joint `j` with role `r`, by the resident schedule's role map (R181,
R205). -/
def roleIndex (m : List Host.Cell) (j r : Nat) : Option Nat :=
  let nw := (field (schWord m 3) 16 16).toNat
  let base := chBase + (schWord m 16).toNat
  (List.range nw).find? fun i =>
    let x := g32 m (base + 4 * i)
    decide ((field x 0 2).toNat = r) && decide ((field x 2 6).toNat = j)

/-- The variable `o` of stage `t` of the current solution; stages beyond the last repeat it (R198). -/
def stageVar (m : List Host.Cell) (sol t o : Nat) : W64 :=
  let h := (field (schWord m 3) 0 7).toNat
  let nw := (field (schWord m 3) 16 16).toNat
  f64 (g32 m (sol + 576 + 4 * (min t (h - 1) * nw + o)))

/-- The plan picks since the boundary of the current solution at pick k+1, in 15 fractional bits (R199). -/
def planSince (s : State) (r : Fin 8) : Option Nat :=
  (s.qp.psiAt.find? fun q => decide (q.1 = s.qp.curIndex)).map fun q =>
    s.qp.psi[r] + (s.scaleUpdate).pg.sigma[r] - (q.2)[r]

/-- The cubic of R199 between the stages `t` and t + 1: position and velocity, as written from left to right. -/
def cubic (tau d q0 q1 v0 v1 : W64) : W64 × W64 :=
  let c := fun (n : Nat) => fofInt (n : Int)
  let t2 := fmul tau tau
  let t3 := fmul t2 tau
  let h00 := fadd (fsub (fmul (c 2) t3) (fmul (c 3) t2)) fone
  let h10 := fadd (fsub t3 (fmul (c 2) t2)) tau
  let h01 := fadd (fneg (fmul (c 2) t3)) (fmul (c 3) t2)
  let h11 := fsub t3 t2
  let pos := fadd (fadd (fadd (fmul h00 q0) (fmul (fmul h10 d) v0)) (fmul h01 q1)) (fmul (fmul h11 d) v1)
  let a := fdiv (fmul (fsub (fmul (c 6) t2) (fmul (c 6) tau)) (fsub q0 q1)) d
  let b := fmul (fadd (fsub (fmul (c 3) t2) (fmul (c 4) tau)) fone) v0
  let e := fmul (fsub (fmul (c 3) t2) (fmul (c 2) tau)) v1
  (pos, fadd (fadd a b) e)

/-- The interpolated entry of joint axis `j` for pick `k1`, from `psi` plan picks since the boundary of the current solution
(R199). -/
def interpEntry (s : State) (r : Fin 8) (j : Nat) (psi : Nat) (k1 : BitVec 32) (st : BitVec 64) : Option SpEntry :=
  let sol := chSol s.qp.curBuf
  let n := s.tb.activeN.toNat
  match roleIndex s.mem j 0, roleIndex s.mem j 1 with
  | some op, some ov =>
    let p := fdiv (fofInt s.pickV) (fofInt 32000000000)
    let u := fdiv (fdiv (fofInt psi) (fofInt 32768)) (fofInt n)
    let t := ffloor u
    let c := cubic (fsub u (fofInt t)) (fmul (fofInt n) p) (stageVar s.mem sol t op) (stageVar s.mem sol (t + 1) op)
      (stageVar s.mem sol t ov) (stageVar s.mem sol (t + 1) ov)
    let sg := (s.scaleUpdate).pg.sigma[r]
    let k16 := fofInt 65536
    let lim : Int := 2 ^ 64
    some
      { x := sat64 ((g64 s.mem (sol + 64 + 8 * j)).toInt + sat64 ((dec64 (fmul k16 c.1)).toInt lim))
        v := sat64 ((dec64 (fdiv (fmul (fmul k16 c.2) (fofInt sg)) (fofInt 32768))).toInt lim)
        tff := 0, index := k1, stime := st }
  | _, _ => none

/-- INTERP_CUBIC: the entries of every axis of an arm for the next pick, from the current solution; none from an expired,
withdrawn or foreign-structure one (R193, R199, R200). -/
def State.interpArm (s : State) (r : Fin 8) (k1 : BitVec 32) (st : BitVec 64) : State :=
  if s.qpCurrent && !s.qp.withdrawn then
    match planSince s r with
    | some psi => s.forEach (s.armAxes r) fun s a =>
        match interpEntry s r a.val psi k1 st with
        | some e => s.modSlice a fun l => { l with mpcEntry := some e }
        | none => s
    | none => s
  else s

end Sys2Proof.Machine
end

