-- ==== Sys2Proof/Machine/Crc.lean ====
section
/-! DEFINITION. The checksums of the spec: CRC-32C (R294) and the CRC-64 of the structure hash (R206). -/
namespace Sys2Proof.Machine

/-- One bit of a reflected CRC: shift right, and XOR with the reflected polynomial when a 1 falls out. -/
def crcBit {n : Nat} (poly c : BitVec n) : BitVec n := if c.getLsbD 0 then (c >>> 1) ^^^ poly else c >>> 1

/-- `k` bits of a reflected CRC. -/
def crcBits {n : Nat} (poly : BitVec n) : Nat → BitVec n → BitVec n
  | 0, c => c
  | k + 1, c => crcBits poly k (crcBit poly c)

/-- A reflected CRC over bytes in ascending order. -/
def crcFold {n : Nat} (poly : BitVec n) : BitVec n → List Byte → BitVec n
  | c, [] => c
  | c, b :: r => crcFold poly (crcBits poly 8 (c ^^^ b.setWidth n)) r

/-- CRC-32C: polynomial 0x1EDC_6F41 reflected, initial value and final XOR 0xFFFF_FFFF (R294). -/
def crc32c (l : List Byte) : BitVec 32 := ~~~(crcFold 0x82F63B78#32 0xFFFFFFFF#32 l)

/-- CRC-64 over the polynomial 0x42F0_E1EB_A9EA_3693, reflected, with initial value and final XOR of all ones (R206). -/
def crc64 (l : List Byte) : BitVec 64 := ~~~(crcFold 0xC96C5795D7870F42#64 0xFFFFFFFFFFFFFFFF#64 l)

end Sys2Proof.Machine
end

