-- ==== Sys2Proof/Machine/Kernels.lean ====
section
/-! DEFINITION. Draft images: node descriptors, the kernel table with its costs and limits, and the check of an image
(R85 to R89, R104). -/
namespace Sys2Proof.Machine

/-- ⌈a / b⌉. -/
def ceilDiv (a b : Nat) : Nat := (a + b - 1) / b

/-- Cycles of kernel `k` for the item count `n` and the second dimension `d` (R104). -/
def kernelCost (k n d : Nat) : Nat :=
  match k with
  | 0 => 12 | 1 => 24 + ceilDiv n 8 | 2 => 24 + 12 * n | 3 => 24 + 12 * n | 4 => 12 | 5 => 12 | 6 => 24 + 24 * n
  | 7 => 16 + ceilDiv n 8 | 8 => 48 + 192 * n | 9 => 120 | 10 => 36 + 60 * n | 11 => 48 + 96 * n | 12 => 36 + 72 * n
  | 13 => 600 | 14 => 24 + 48 * n | 15 => 24 + 36 * n | 16 => 96 | 17 => 24 + 24 * n | 18 => 24 + 24 * n
  | 19 => 24 + 12 * n | 20 => 60 + 240 * n | 21 => 60 + 36 * n * n | 22 => 48 + 120 * n | 23 => 60 + 180 * n
  | 24 => 24 + 24 * n | 25 => 24 + 12 * n | 26 => 120 + 96 * n * n | 27 => 24 + 12 * n * n | 28 => 36 + 96 * n
  | 29 => 24 + 48 * n | 30 => 24 + 84 * n | 31 => 24 + 120 * n | 32 => 24 + 48 * n | 33 => 24 + 12 * n
  | 34 => 24 + 12 * n | 35 => 24 + 36 * n | 36 => 24 + 24 * n | 37 => 24 + 8 * n | 38 => 24 + 12 * n
  | 39 => 24 + 24 * n | 40 => 24 + 24 * n | 41 => 36 + 144 * n | 42 => 24 + 12 * n | 43 => 24 + 12 * n
  | 44 => 48 + 36 * n * d * d | 45 => 48 + 24 * n * d | 46 => 48 + 48 * n | 47 => 48 + 12 * n | 48 => 48 + 24 * n
  | 49 => 24 + ceilDiv n 8 | 50 => 24 + 4 * n | 51 => 96 + ceilDiv n 8 | 52 => 24 + 12 * n | 53 => 24 + ceilDiv n 4
  | 54 => 48 + 36 * n | 55 => 24 + ceilDiv n 8 | 56 => 24 + 24 * n | 57 => 24 + 12 * n | 58 => 36 + 24 * n
  | 59 => 24 + 12 * n | 60 => 24 + ceilDiv n 8 | 61 => 16 + ceilDiv n 8 | 62 => 24 + ceilDiv (d * n) 8
  | _ => 24 + ceilDiv n 8

/-- The limit of the item count of kernel `k` (R104). -/
def kernelLimit (k : Nat) : Nat :=
  match k with
  | 0 => 0 | 1 => 65535 | 2 => 80 | 3 => 80 | 4 => 0 | 5 => 8 | 6 => 64 | 7 => 65535 | 8 => 8 | 9 => 0 | 10 => 8 | 11 => 8
  | 12 => 16 | 13 => 0 | 14 => 64 | 15 => 64 | 16 => 0 | 17 => 8 | 18 => 8 | 19 => 80 | 20 => 8 | 21 => 8 | 22 => 8
  | 23 => 8 | 24 => 80 | 25 => 80 | 26 => 8 | 27 => 8 | 28 => 16 | 29 => 16 | 30 => 2048 | 31 => 2048 | 32 => 384
  | 33 => 128 | 34 => 8192 | 35 => 128 | 36 => 80 | 37 => 80 | 38 => 80 | 39 => 96 | 40 => 96 | 41 => 80 | 42 => 80
  | 43 => 96 | 44 => 64 | 45 => 64 | 46 => 2048 | 47 => 16384 | 48 => 64 | 49 => 16384 | 50 => 32768 | 51 => 2097152
  | 52 => 64 | 53 => 65535 | 54 => 8 | 55 => 16384 | 56 => 80 | 57 => 80 | 58 => 80 | 59 => 64 | 60 => 65535
  | 61 => 65535 | 62 => 65535 | _ => 65535

/-- The kernel takes a second dimension in bits [47:32] of parameter word 0 (R104). -/
def kernelDim2 (k : Nat) : Bool := decide (k = 44) || decide (k = 45) || decide (k = 62)

/-- A node descriptor (R88). -/
structure NodeDesc where
  /-- KERNEL -/
  kernel : Nat
  /-- LANE -/
  lane : Nat
  /-- NPRED -/
  npred : Nat
  /-- PREV -/
  prev : BitVec 4
  /-- PLACE -/
  place : BitVec 2
  /-- SHUTTLE -/
  shuttle : Nat
  /-- OUTQ -/
  outq : Bool
  /-- PRED0 to PRED3 -/
  pred : Vector Nat 4
  /-- ITEM -/
  item : Nat
  /-- POFF, 8-byte words -/
  poff : Nat
  /-- PLEN, 8-byte words -/
  plen : Nat
  /-- a reserved bit is non-zero -/
  reserved : Bool
  deriving DecidableEq, Repr

/-- The descriptor of node `i` of the draft image at byte address `a` (R86, R88). -/
def nodeDesc (m : List Host.Cell) (a i : Nat) : NodeDesc :=
  let w := fun j => BitVec.ofNat 32 (memNat m (a + 32 + 16 * i + 4 * j) 4)
  { kernel := (field (w 0) 0 6).toNat, lane := (field (w 0) 6 3).toNat, npred := (field (w 0) 9 3).toNat, prev := field (w 0) 12 4
    place := field (w 0) 16 2, shuttle := (field (w 0) 18 4).toNat, outq := bit (w 0) 22
    pred := #v[(field (w 1) 0 12).toNat, (field (w 1) 12 12).toNat, (field (w 2) 0 12).toNat, (field (w 2) 12 12).toNat]
    item := (field (w 1) 24 8).toNat, poff := (field (w 3) 0 16).toNat, plen := (field (w 3) 16 8).toNat
    reserved := decide (field (w 0) 23 9 ≠ 0#9) || decide (field (w 2) 24 8 ≠ 0#8) || decide (field (w 3) 24 8 ≠ 0#8) }

/-- Word 0 of the parameter block of a node of the image at `a` (R89). -/
def NodeDesc.word0 (n : NodeDesc) (m : List Host.Cell) (a : Nat) : Nat := memNat m (a + 8 * n.poff) 8

/-- The cost of a node in cycles, from its item count (R96, R104). -/
def NodeDesc.cost (n : NodeDesc) (m : List Host.Cell) (a : Nat) : Nat :=
  let w := if n.plen = 0 then 0 else n.word0 m a
  kernelCost n.kernel (w % 2 ^ 32) (w / 2 ^ 32 % 2 ^ 16)

/-- Descriptor `i` of `nodes` violates R89; its parameter word is examined when the block lies inside `len`. -/
def NodeDesc.bad (n : NodeDesc) (m : List Host.Cell) (a i nodes len : Nat) : Bool :=
  let w := n.word0 m a
  n.reserved || decide (5 < n.lane) || decide (4 < n.npred) ||
  ((fins 4).any fun j =>
    if j.val < n.npred then decide (nodes ≤ n.pred[j]) || (!bit n.prev j.val && decide (i ≤ n.pred[j]))
    else decide (n.pred[j] ≠ 0) || bit n.prev j.val) ||
  (decide (n.place ≠ 3#2) && decide (n.shuttle ≠ 0)) || (decide (n.plen = 0) && decide (n.kernel ≠ 0)) ||
  (decide (0 < n.plen) && decide (8 * (n.poff + 1) ≤ len) &&
    (decide (kernelLimit n.kernel < w % 2 ^ 32) || decide (w / 2 ^ 48 ≠ 0) ||
      (!kernelDim2 n.kernel && decide (w / 2 ^ 32 % 2 ^ 16 ≠ 0))))

/-- First byte of the region of draft slot `d` (R85). -/
def slotBase (d : Fin 8) : Nat := 0x2400000 + d.val * 0x70000

/-- Word `n` of the header of the draft image at `a` (R86). -/
def draftWord (m : List Host.Cell) (a n : Nat) : BitVec 32 := BitVec.ofNat 32 (memNat m (a + 4 * n) 4)

/-- The conditions of R87 other than the CRC, for an image at `a` and w1 nodes. -/
def draftBad (m : List Host.Cell) (a w1 : Nat) : List (Bool × Status) :=
  let w := draftWord m a
  let nodes := (field (w 1) 0 13).toNat
  let len := (field (w 2) 0 19).toNat
  let inside := (List.range (min nodes 4096)).filter fun i => decide (32 + 16 * (i + 1) ≤ len)
  [(decide (field (w 0) 0 16 ≠ 1#16) || decide (field (w 0) 16 16 ≠ 0#16) || decide (field (w 1) 13 19 ≠ 0#19) ||
      decide (field (w 2) 19 13 ≠ 0#13) || ((List.range 4).any fun i => decide (w (4 + i) ≠ 0#32)) || decide (w1 ≠ nodes) ||
      decide (len % 8 ≠ 0), .badOperand),
   (inside.any fun i => (nodeDesc m a i).bad m a i nodes len, .badOperand),
   (decide (458752 < len) || decide (Config.sharedBase + 8 * Config.sharedWords < a + len) || decide (len < 32 + 16 * nodes) ||
      (inside.any fun i => decide (len < 8 * ((nodeDesc m a i).poff + (nodeDesc m a i).plen))), .length),
   (decide (nodes = 0) || decide (4096 < nodes), .range)]

/-- The CRC of a draft image matches (R86). -/
def draftCrcOk (m : List Host.Cell) (a : Nat) : Bool :=
  let len := (field (draftWord m a 2) 0 19).toNat
  decide (crc32c (memReadList m a 12 ++ [0#8, 0#8, 0#8, 0#8] ++ memReadList m (a + 16) (len - 16)) = draftWord m a 3)

end Sys2Proof.Machine
end

