-- ==== Sys2Proof/Machine/PairBase.lean ====
section
/-! DEFINITION. Frames of the pair link as they leave the device (R364, R365). -/
namespace Sys2Proof.Machine

/-- The pair unit changed. -/
def State.modPr (s : State) (g : Pair → Pair) : State := { s with pr := g s.pr }

/-- The pair link is up while at least one lane is (R364). -/
def pairUp (s : State) : Bool := s.pr.lane[0] || s.pr.lane[1]

/-- The request level of the pair unit (R389). -/
def prLevel (s : State) : Bool := decide (s.pr.sticky &&& s.pr.intEn ≠ 0#9)

/-- Bit `i` of PR_STICKY is set (R389). -/
def State.prSet (s : State) (i : Nat) : State := irqWatch 18 prLevel s (s.modPr fun p => { p with sticky := setBit p.sticky i })

/-- A payload cut into pieces of at most 4,095 words (R365). -/
def pairPieces : Nat → List (BitVec 32) → List (List (BitVec 32))
  | 0, _ => []
  | fuel + 1, p => if p.length ≤ 4095 then [p] else p.take 4095 :: pairPieces fuel (p.drop 4095)

/-- One frame (R365). -/
def pairFrame (ty : Nat) (last : Bool) (seq tag : BitVec 32) (frag : Nat) (p : List (BitVec 32)) : List (BitVec 32) :=
  let w := [nat32 ty 0 ||| bitAt last 4 ||| nat32 p.length 8, seq, tag, nat32 frag 0] ++ p
  w ++ [crc32c (wordsBytes w)]

/-- The frames of one object are sent, with consecutive SEQ and FRAG, while the link is up (R364, R365). -/
def State.pairSend (s : State) (ty : Nat) (tag : BitVec 32) (p : List (BitVec 32)) : State :=
  if pairUp s then
    let ps := pairPieces p.length p
    let n := ps.length
    s.forEach (ps.zip (List.range n)) fun s q =>
      { s with
        out := .pair ty (pairFrame ty (decide (q.2 + 1 = n)) s.pr.seqTx tag q.2 q.1) :: s.out
        pr.seqTx := s.pr.seqTx + 1#32 }
  else s

/-- The device works in a pair: its role is not ALONE (R362). -/
def paired (s : State) : Bool := decide (s.pr.role ≠ .alone)

/-- The partner follows this device: it is in STANDBY or SYNCING, and this device is ACTIVE (R372, R384). -/
def leads (s : State) : Bool := decide (s.pr.role = .active) && (decide (s.pr.partner = .standby) || decide (s.pr.partner = .syncing))

/-- The device follows its partner: STANDBY or SYNCING (R369). -/
def follows (s : State) : Bool := decide (s.pr.role = .standby) || decide (s.pr.role = .syncing)

/-- Code of a role (R362). -/
def PairRole.code : PairRole → BitVec 2
  | .active => 0#2 | .standby => 1#2 | .syncing => 2#2 | .alone => 3#2

/-- The role of a code (R362). -/
def PairRole.ofCode (c : BitVec 2) : PairRole :=
  if c = 0#2 then .active else if c = 1#2 then .standby else if c = 2#2 then .syncing else .alone

/-- A control frame is sent while the link is up (R388). -/
def State.pairCtl (s : State) (c : PairCtl) : State :=
  if pairUp s then { s with out := .pairCtl c :: s.out, pr.seqTx := s.pr.seqTx + 1#32 } else s

/-- Every pair frame but a control frame is kept back after a fault of the island (R380). -/
def pairSends (s : State) : Bool := pairUp s && !s.pr.mute

/-- The fault whose recovery window is open on this device or, in a pair, on either (R268, R388). -/
def windowOf (s : State) : Option (Nat × BitVec 12) :=
  match s.sv.first, s.pr.own with
  | some f, _ => some f
  | none, some f => some f
  | none, none => if paired s then s.pr.fault else none

/-- A network time in ns as three words: ns, seconds [31:0], seconds [47:32] (R366, R394). -/
def netWords (n : Int) : List (BitVec 32) :=
  let q := n / 1000000000
  [int32 (n % 1000000000), int32 q, int32 ((q / 4294967296) % 65536)]

/-- The network time that three words from place `i` hold. -/
def wordsNet (w : List (BitVec 32)) (i : Nat) : Int :=
  ((w.getD (i + 1) 0#32).toNat + 4294967296 * ((w.getD (i + 2) 0#32).toNat % 65536)) * 1000000000 + (w.getD i 0#32).toNat

/-- Both Selvedge channels are SEALED without fault (R366). -/
def islandOk (s : State) : Bool := decide ((s.sv.ch[0]).state = .sealed) && decide ((s.sv.ch[1]).state = .sealed)

/-- The payload of a heartbeat (R366). Word 1 names the pick of a handover. -/
def heartbeatWords (s : State) : List (BitVec 32) :=
  [at32 s.pr.role.code 0 ||| bitAt s.lease 2 ||| bitAt (islandOk s) 3 ||| bitAt s.pr.handOwn.isSome 4 |||
     bitAt s.sv.second.isSome 5 ||| bitAt s.pr.unit 6, s.pr.handOwn.getD s.tb.pickNum] ++
    netWords (s.now + s.nt.ofs) ++ netWords s.pr.rxNet ++ [s.pr.rxSeq, s.pr.gotGen, s.pr.gotSol]

/-- A heartbeat is sent, and PAIR_ALV_OUT changes level (R366, R367). -/
def State.sendHeartbeat (s : State) : State :=
  let s1 := (s.modPr fun p => { p with
    sent := ((p.seqTx, (s.now : Int) + s.nt.ofs) :: p.sent).take 16, hbAt := s.now, alvOut := !p.alvOut }).pairSend 0 s.tb.pickNum
      (heartbeatWords s)
  { s1 with out := .alv s1.pr.alvOut :: s1.out }

/-- PAIR_ALV_OUT is low while no heartbeat is sent (R367). -/
def State.alvLow (s : State) : State :=
  if s.pr.alvOut then { s with pr.alvOut := false, out := .alv false :: s.out } else s

/-- The parts of a pair or ring frame (R365, R392). -/
structure LinkFrame where
  /-- word 0 -/
  head : BitVec 32
  /-- SEQ -/
  seq : BitVec 32
  /-- TAG -/
  tag : BitVec 32
  /-- FRAG -/
  frag : Nat
  /-- PAYLOAD -/
  body : List (BitVec 32)
  deriving DecidableEq, Repr

/-- TYPE of a frame. -/
def LinkFrame.ty (x : LinkFrame) : Nat := (field x.head 0 4).toNat

/-- A frame with its CRC checked; `none` for a bad CRC or a LEN that runs past the end of the frame (R365). -/
def linkParse (w : List (BitVec 32)) : Option LinkFrame :=
  let h := w.getD 0 0#32
  let n := (field h 8 12).toNat
  if w.length < n + 5 then none
  else if crc32c (wordsBytes (w.take (n + 4))) ≠ w.getD (n + 4) 0#32 then none
  else some { head := h, seq := w.getD 1 0#32, tag := w.getD 2 0#32, frag := (field (w.getD 3 0#32) 0 12).toNat
              body := (w.drop 4).take n }

/-- Frames that make one object: fragments 0 to the one with LAST = 1, with consecutive FRAG and SEQ (R365). -/
def linkWhole (ty : Nat) : List LinkFrame → Bool
  | [] => false
  | x :: r =>
    let ok := ((List.range (r.length + 1)).zip (x :: r)).all fun q =>
      decide (q.2.ty = ty) && decide (q.2.frag = q.1) && decide (q.2.seq = x.seq + BitVec.ofNat 32 q.1) &&
        decide (q.2.tag = x.tag) && (bit q.2.head 4 == decide (q.1 = r.length))
    ok

/-- The frames of an object: how many fail their checks, and the TAG and payload of the object when it is complete (R365). -/
def linkObject (ty : Nat) (fs : List (List (BitVec 32))) : Nat × Option (BitVec 32 × List (BitVec 32)) :=
  let ps := fs.map linkParse
  let bad := (ps.filter Option.isNone).length
  let l := ps.filterMap id
  (bad, if bad = 0 && linkWhole ty l then some ((l.head?.map fun x => x.tag).getD 0#32, l.flatMap fun x => x.body) else none)

/-- Frames discarded for their CRC or length are counted in PR_CNT_CRC (R365). -/
def State.pairBad (s : State) (n : Nat) : State :=
  s.modPr fun p => { p with cnt := upd p.cnt 2 fun c => satAdd c n }

/-- A fault as SRC and code in one word (R271, R389). -/
def faultWord (f : Nat × BitVec 12) : BitVec 32 := nat32 f.1 0 ||| at32 f.2 16

end Sys2Proof.Machine
end

