-- ==== Sys2Proof/Machine/Loom.lean ====
section
/-! DEFINITION. The Loom: draft slots, instances, the ready list, deficit round robin, the ordering guarantee, void nodes and the
commands of the Loom (R84 to R105). -/
namespace Sys2Proof.Machine

/-- Draft slot `d` changed. -/
def State.modSlot (s : State) (d : Fin 8) (g : Slot → Slot) : State := { s with lm.slot := upd s.lm.slot d g }

/-- Draft slot `d`. -/
def State.draft (s : State) (d : Fin 8) : Slot := s.lm.slot[d]

/-- The descriptor of node `i` of the draft in slot `d`. -/
def State.desc (s : State) (d : Fin 8) (i : Nat) : NodeDesc := nodeDesc s.mem (slotBase d) i

/-- Node `i` of the instance of slot `d` with release count `c`. -/
def State.node (s : State) (d : Fin 8) (c i : Nat) : Option NodeRec :=
  ((s.draft d).insts.find? fun x => decide (x.count = c)).bind fun x => x.nodes[i]?

/-- That node changed. -/
def State.modNode (s : State) (d : Fin 8) (c i : Nat) (g : NodeRec → NodeRec) : State :=
  s.modSlot d fun x => { x with insts := x.insts.map fun q =>
    if q.count = c then { q with nodes := q.nodes.modify i g } else q }

/-- The node has left the Loom or has been released: its token has been delivered (R93, R99). -/
def tokenOf (s : State) (d : Fin 8) (c i : Nat) : Bool :=
  match s.node d c i with
  | some n => decide (n.phase = .released)
  | none => true

/-- The release count of the instance before `c` that is still in flight, if any (R93). -/
def prevCount (s : State) (d : Fin 8) (c : Nat) : Option Nat :=
  (((s.draft d).insts.filter fun x => decide (x.count < c)).getLast?).map fun x => x.count

/-- Every predecessor of the node has delivered its token (R93). -/
def nodeReady (s : State) (d : Fin 8) (c i : Nat) : Bool :=
  let n := s.desc d i
  (fins 4).all fun j =>
    if j.val < n.npred then
      if bit n.prev j.val then (prevCount s d c).elim true fun p => tokenOf s d p n.pred[j]
      else tokenOf s d c n.pred[j]
    else true

/-- A predecessor of the same instance is void (R103). -/
def predVoid (s : State) (d : Fin 8) (c i : Nat) : Bool :=
  let n := s.desc d i
  (fins 4).any fun j => decide (j.val < n.npred) && !bit n.prev j.val && ((s.node d c n.pred[j]).elim false fun q => q.void)

/-- QP instance credits in use: instances queued or solving, and nodes that hold one (R18, R102). -/
def qpCredits (s : State) : Nat :=
  s.qp.insts.length + ((fins 8).map fun d =>
    ((s.draft d).insts.map fun x => (x.nodes.filter fun n => n.credit).length).sum).sum

/-- The node forms a QP instance: QP_ASSEMBLE with OUTQ = 1 (R102). -/
def NodeDesc.forms (n : NodeDesc) : Bool := decide (n.kernel = 51) && n.outq

/-! ### Hand-over at release (R20, R99) -/

/-- A free instance buffer: the one that no queued instance uses (R194). -/
def freeInstBuf (s : State) : Bool := (s.qp.insts.head?.map fun i => !i.buf).getD false

/-- The hand-over entry that a node wrote is complete with the index and the sample time of its instance (R20, R99). -/
def State.handOver (s : State) (x : DraftInst) (rate : Bool) (item : Nat) (out : KernelOut) (credit : Bool) : State :=
  let k := if rate then s.tb.pickNum else x.index
  match out with
  | .setPoints l => s.forEach l fun s p => s.modSlice p.axis fun q =>
      { q with mpcEntry := some { x := p.x.toInt, v := p.v.toInt, tff := p.tff.toInt, index := k + 1#32, stime := x.stime } }
  | .interp => s.interpArm (Fin.ofNat 8 item) (k + 1#32) x.stime
  | .capsules (some r) l =>
    let e : CapSet := { index := x.index, stime := x.stime.toNat, caps := l.take 16 }
    { s with rd.place := upd s.rd.place r fun _ => some e }
  | .capsules none l =>
    let e : CapSet := { index := x.index, stime := x.stime.toNat, caps := l.take 384 }
    { s with rd.foreign := some e }
  | .instance_ ws =>
    if credit && !follows s then
      let b := freeInstBuf s
      { s with
        mem := memWriteList s.mem (chInst b) (wordsBytes (ws.take 262144))
        qp.insts := s.qp.insts ++ [({ buf := b, index := x.index } : ChInst)] }
    else s
  | .digest ws => { s with pr.digest := s.pr.digest ++ ws }
  | .traj ws => { s with wr.traj := some ws }
  | _ => s

/-! ### Release in age order and readiness (R93, R94, R99, R103) -/

/-- A node is void: it is counted, and the first of its instance writes a NODE_VOID record (R103, R105). -/
def State.voidNode (s : State) (d : Fin 8) (c i : Nat) (reason : Nat) : State :=
  let n := s.desc d i
  let x := (s.draft d).insts.find? fun q => decide (q.count = c)
  let s1 := s.modNode d c i fun r => { r with void := true, out := .none }
  let s2 := s1.modSlot d fun q =>
    { q with voids := satInc q.voids, insts := q.insts.map fun y => if y.count = c then { y with voided := true } else y }
  let s3 := { s2 with lm.stVoid := true }
  match x with
  | some y =>
    if y.voided then s3
    else s3.emit 5 0x002#12 [nat32 d.val 0 ||| nat32 n.lane 4 ||| nat32 n.kernel 8 ||| nat32 reason 16, nat32 i 0, y.index]
  | none => s3

/-- The nodes of a lane of a slot in age order: release count and index (R95). -/
def laneNodes (s : State) (d : Fin 8) (lane : Nat) : List (Nat × Nat × NodeRec) :=
  (s.draft d).insts.flatMap fun x =>
    ((List.range x.nodes.length).zip x.nodes).filterMap fun q =>
      if (s.desc d q.1).lane = lane then some (x.count, q.1, q.2) else none

/-- The nodes of a lane that are released now: completed, with every older node released (R99). -/
def laneReleases (l : List (Nat × Nat × NodeRec)) : List (Nat × Nat × NodeRec) :=
  (l.dropWhile fun q => decide (q.2.2.phase = .released)).takeWhile fun q => decide (q.2.2.phase = .completed)

/-- One node is released: its token is delivered and its entry handed over (R99). -/
def State.releaseNode (s : State) (d : Fin 8) (c i : Nat) (n : NodeRec) : State :=
  let s1 := s.modNode d c i fun r => { r with phase := .released, out := .none, credit := false }
  match (s.draft d).insts.find? fun q => decide (q.count = c) with
  | some x => if n.void then s1 else s1.handOver x (s.draft d).rate (s.desc d i).item n.out n.credit
  | none => s1

/-- The flows 16 to 63 in order: slot and lane (R84). -/
def draftFlows : List (Fin 8 × Nat) := (fins 8).flatMap fun d => (List.range 6).map fun l => (d, l)

/-- Every node that may be released is released, flow by flow (R99). -/
def State.releaseAll (s : State) : State :=
  s.forEach draftFlows fun s f =>
    s.forEach (laneReleases (laneNodes s f.1 f.2)) fun s q => s.releaseNode f.1 q.1 q.2.1 q.2.2

/-- Instances all of whose nodes have been released leave the slot (R101). -/
def State.dropInsts (s : State) : State :=
  s.forEach (fins 8) fun s d => s.modSlot d fun x =>
    { x with insts := x.insts.filter fun q => q.nodes.any fun n => decide (n.phase ≠ .released) }

/-- Waiting nodes whose predecessors have all delivered their tokens, by flow number and then by age (R94). -/
def newlyReady (s : State) : List (Fin 8 × Nat × Nat) :=
  draftFlows.flatMap fun f =>
    ((laneNodes s f.1 f.2).filter fun q => decide (q.2.2.phase = .waiting) && nodeReady s f.1 q.1 q.2.1).map fun q =>
      (f.1, q.1, q.2.1)

/-- A node has become ready: a void or skipped one completes at once; any other enters the ready list, or waits for a free entry
of it (R94, R102, R103). -/
def State.becomeReady (s : State) (d : Fin 8) (c i : Nat) : State :=
  if predVoid s d c i then (s.voidNode d c i 0).modNode d c i fun n => { n with phase := .completed }
  else if (s.node d c i).elim false fun n => n.skip then s.modNode d c i fun n => { n with phase := .completed }
  else
    let r : ReadyRec := { slot := d, count := c, node := i }
    if s.lm.ready.length < 1024 ∧ s.lm.waiting.isEmpty then
      let s1 := s.modNode d c i fun n => { n with phase := .listed }
      { s1 with lm.ready := s1.lm.ready ++ [r], lm.hwm := BitVec.ofNat 11 (max s1.lm.hwm.toNat (s1.lm.ready.length + 1)) }
    else
      let s1 := s.modNode d c i fun n => { n with phase := .ready }
      { s1 with lm.waiting := s1.lm.waiting ++ [r], lm.rlFull := true }

/-- Releases and readiness until nothing more happens, at most `fuel` rounds (R93, R99). -/
def State.loomAdvance : Nat → State → State
  | 0, s => s
  | fuel + 1, s =>
    let s1 := s.releaseAll
    let s2 := s1.dropInsts
    if (newlyReady s2).isEmpty then s2
    else State.loomAdvance fuel (s2.forEach (newlyReady s2) fun s q => s.becomeReady q.1 q.2.1 q.2.2)

/-- Rounds that suffice: each completes or lists at least one of the nodes in flight. -/
def loomFuel (s : State) : Nat := ((fins 8).map fun d => ((s.draft d).insts.map fun x => x.nodes.length).sum).sum + 1

/-- The Loom moves on after a node has completed or an instance has been created. -/
def State.loomRun (s : State) : State := s.loomAdvance (loomFuel s)

/-! ### Release of instances (R91, R92) -/

/-- The draft of a slot is released: an instance is created, or the release is skipped and counted (R92, R102). -/
def State.releaseDraft (s : State) (d : Fin 8) (index : BitVec 32) (t : Nat) : State :=
  let x := s.draft d
  if 2 ≤ x.insts.length then
    (s.modSlot d fun x => { x with skip := satInc x.skip }).emit 5 0x001#12 [nat32 d.val 0, index]
  else
    let forming := s.qp.planning && decide (s.qp.formSlot = d)
    let dry := forming && decide (2 ≤ qpCredits s)
    let recs : List NodeRec := (List.range x.nodes.toNat).map fun i =>
      if (s.desc d i).forms then ({ skip := !forming || dry } : NodeRec) else ({} : NodeRec)
    let i : DraftInst := { index := index, stime := BitVec.ofNat 64 t, count := x.released, nodes := recs }
    let s1 := s.modSlot d fun x => { x with released := x.released + 1, insts := x.insts ++ [i] }
    if dry && ((List.range x.nodes.toNat).any fun i => (s.desc d i).forms) then
      { s1 with qp.cnt := upd s1.qp.cnt 4 satInc, qp.sticky := setBit s1.qp.sticky 6 }
    else s1

/-- The drafts bound to the pick, and at a boundary those bound to the beat, are released in slot order (R91, R92). -/
def State.releaseDrafts (s : State) (k b : BitVec 32) (edge : Bool) (t : Nat) : State :=
  (s.forEach (fins 8) fun s d =>
    let x := s.draft d
    if x.state = .bound then
      if x.rate then (if edge then s.releaseDraft d b t else s) else s.releaseDraft d k t
    else s).loomRun

/-- Every draft is unbound: its instances in flight are withdrawn with their credits (R91, R102). -/
def State.unbindDrafts (s : State) : State :=
  let s1 := s.forEach (fins 8) fun s d => s.modSlot d fun x =>
    if x.state = .bound then { x with state := .loaded, insts := [], released := 0 } else x
  { s1 with lm.ready := [], lm.waiting := [], lm.shuttle := Vector.replicate 16 none }

/-! ### Group selection (R95, R96) -/

/-- The power domain of a Shuttle. -/
def shuttleDomain (sh : Fin 16) : Fin 13 := if sh.val < 8 then 5 else 6

/-- The Shuttle is allowed by PLACE and SHUTTLE (R95). -/
def NodeDesc.allows (n : NodeDesc) (sh : Fin 16) : Bool :=
  if n.place = 0#2 then true
  else if n.place = 1#2 then decide (sh.val < 8)
  else if n.place = 2#2 then decide (8 ≤ sh.val)
  else decide (n.shuttle = sh.val)

/-- Older nodes of the node's flow that are dispatched and not released (R95). -/
def olderInFlight (s : State) (r : ReadyRec) : Nat :=
  let n := s.desc r.slot r.node
  (((laneNodes s r.slot n.lane).takeWhile fun q => !(decide (q.1 = r.count) && decide (q.2.1 = r.node))).filter fun q =>
    decide (q.2.2.phase = .running) || decide (q.2.2.phase = .completed)).length

/-- A ready entry is eligible for Shuttle `sh` (R95). -/
def eligible (s : State) (sh : Fin 16) (r : ReadyRec) : Bool :=
  let n := s.desc r.slot r.node
  n.allows sh && decide (olderInFlight s r < 32) && (!n.forms || decide (qpCredits s < 2))

/-- The head of group `g` for Shuttle `sh`: the eligible entry that entered the list first (R95). -/
def groupHead (s : State) (g : Fin 8) (sh : Fin 16) : Option ReadyRec :=
  s.lm.ready.find? fun r => decide ((s.draft r.slot).group.toNat = g.val) && eligible s sh r

/-- Group `g` has no entry in the ready list. -/
def groupEmpty (s : State) (g : Fin 8) : Bool := !s.lm.ready.any fun r => decide ((s.draft r.slot).group.toNat = g.val)

/-- The cost of a ready entry (R96). -/
def readyCost (s : State) (r : ReadyRec) : Nat := (s.desc r.slot r.node).cost s.mem (slotBase r.slot)

/-- The selection loop of R96: the group that is served, the deficits and the node. -/
def drr (s : State) (sh : Fin 16) : Nat → Fin 8 → Vector Int 8 → Option (Fin 8 × Vector Int 8 × ReadyRec)
  | 0, _, _ => none
  | fuel + 1, rr, df =>
    let next := fun (_ : Unit) =>
      let r' := rr + 1
      let df' :=
        if groupEmpty s r' then upd df r' fun _ => 0
        else if (groupHead s r' sh).isSome then upd df r' fun d => d + ((s.lm.weight[r']).toNat : Int) * 256
        else df
      drr s sh fuel r' df'
    match groupHead s rr sh with
    | some n => if (readyCost s n : Int) ≤ df[rr] then some (rr, upd df rr fun d => d - readyCost s n, n) else next ()
    | none => next ()

/-- Passes that suffice for the loop to end: each round of eight adds at least 256 cycles to a group with a head. -/
def drrFuel (s : State) (sh : Fin 16) : Nat :=
  let c := ((fins 8).map fun g => ((groupHead s g sh).map fun n => (readyCost s n + (s.lm.deficit[g]).natAbs)).getD 0).foldl max 0
  8 * (c / 256 + 3)

/-- The Loom and its Shuttles work: PD4 and the Shuttle's domain are in RUN. -/
def loomOn (s : State) (sh : Fin 16) : Bool := decide (s.domain 4 = .run) && decide (s.domain (shuttleDomain sh) = .run)

/-! ### Commands -/

/-- READY_LIST_ENTRY (R94): the first ready node that waits enters the list when an entry is free. -/
def execReadyListEntry (s : State) : Res :=
  match s.lm.waiting with
  | r :: rest =>
    if s.lm.ready.length < 1024 && decide (s.domain 4 = .run) then
      let s1 := s.modNode r.slot r.count r.node fun n => { n with phase := .listed }
      .next { s1 with
        lm.ready := s1.lm.ready ++ [r], lm.waiting := rest
        lm.hwm := BitVec.ofNat 11 (max s1.lm.hwm.toNat (s1.lm.ready.length + 1)) }
    else .next s
  | [] => .next s

/-- NODE_SELECT (R95, R96): a free Shuttle gets a node chosen by deficit round robin. -/
def execNodeSelect (sh : Fin 16) (s : State) : Res :=
  if loomOn s sh && (s.lm.shuttle[sh]).isNone && ((fins 8).any fun g => (groupHead s g sh).isSome) then
    match drr s sh (drrFuel s sh) s.lm.rr s.lm.deficit with
    | some (rr, df, n) =>
      let s1 := s.modNode n.slot n.count n.node fun r => { r with phase := .running }
      .next { s1 with
        lm.rr := rr, lm.deficit := df, lm.ready := s1.lm.ready.filter fun r => decide (r ≠ n)
        lm.shuttle := upd s1.lm.shuttle sh fun _ => some (n, false) }
    | none => .next s
  else .next s

/-- A node completes: void with its reason, or with what it wrote (R99, R103). The Shuttle is free again. -/
def State.completeNode (s : State) (sh : Fin 16) (r : ReadyRec) (out : KernelOut) (reason : Option Nat) : State :=
  let s1 := { s with lm.shuttle := upd s.lm.shuttle sh fun _ => none }
  let s2 := match reason with
    | some q => s1.voidNode r.slot r.count r.node q
    | none =>
      let s3 := s1.modNode r.slot r.count r.node fun n => { n with out := out }
      match out with
      | .stores l => s3.forEach l fun s q =>
          if Config.sharedBase ≤ q.1.toNat ∧ q.1.toNat + q.2.length ≤ Config.sharedBase + 8 * Config.sharedWords then
            s.wrBytes q.1.toNat q.2
          else s
      | _ => s3
  (s2.modNode r.slot r.count r.node fun n => { n with phase := .completed }).loomRun

/-- NODE_START (R90, R98, R102, R103): a selected node starts, takes its QP credit, and is void when an address lies outside the
regions that a kernel may use. -/
def execNodeStart (sh : Fin 16) (addrOk : Bool) (s : State) : Res :=
  match s.lm.shuttle[sh] with
  | some (r, false) =>
    if loomOn s sh then
      let clk := { s with cr.clk := setBit s.cr.clk sh.val }
      if addrOk then
        let s1 := { clk with lm.shuttle := upd clk.lm.shuttle sh fun _ => some (r, true) }
        .next (if (s.desc r.slot r.node).forms then s1.modNode r.slot r.count r.node fun n => { n with credit := true } else s1)
      else .next (clk.completeNode sh r .none (some 0))
    else .next s
  | _ => .next s

/-- NODE_COMPLETE (R99, R103): a running node completes; it and every node that waited only for it are released in age order. -/
def execNodeComplete (sh : Fin 16) (out : KernelOut) (s : State) : Res :=
  match s.lm.shuttle[sh] with
  | some (r, true) =>
    if loomOn s sh then
      match out with
      | .notFinite => .next (s.completeNode sh r .none (some 1))
      | .memError => .next (s.completeNode sh r .none (some 2))
      | o => .next (s.completeNode sh r o none)
    else .next s
  | _ => .next s

/-- DRAFT.LOAD (R87): the image is checked whole and copied into the slot. -/
def execDraftLoad (f : Fin 16) (w : TWord) (s : State) : Res :=
  .next (s.devOp f 0x30#8 0#4 w [w.ra] 0x7F#32 (some 8)
    (fun s => [xwNot w [2#4], (!sharedOk (w.x 0) 8, .badOperand)] ++ draftBad s.mem (w.x 0).toNat (w.x 1).toNat)
    (fun s => [stateGate s [.ready, .run] 4 0#8,
      (decide ((s.draft (Fin.ofNat 8 ((s.flow f).obj w).toNat)).state = .bound), .state, 0#8)])
    fun s =>
      let d : Fin 8 := Fin.ofNat 8 ((s.flow f).obj w).toNat
      let a := (w.x 0).toNat
      if draftCrcOk s.mem a then
        let len := (field (draftWord s.mem a 2) 0 19).toNat
        let n := field (draftWord s.mem a 1) 0 13
        ((s.wrBytes (slotBase d) (s.rdBytes a len)).modSlot d fun x => { x with state := .loaded, nodes := n }).opAccept f w .ok 0#8
          none
      else
        let id := s.opId f
        (s.opIssue f w false).opDone f id .internal 0#8 none)

/-! ### Draft carry (R382, R386) -/

/-- The nodes of a slot that PREV predecessors read. -/
def prevRead (s : State) (d : Fin 8) : List Nat :=
  ((List.range (s.draft d).nodes.toNat).flatMap fun i =>
    let n := s.desc d i
    ((fins 4).filter fun j => decide (j.val < n.npred) && bit n.prev j.val).map fun j => n.pred[j]).eraseDups

/-- The buffers of a slot's draft that PREV predecessors read. -/
def slotCarry (s : State) (d : Fin 8) : List (Nat × Nat × Nat) :=
  (prevRead s d).flatMap fun i =>
    let n := s.desc d i
    Config.outBuffers n.kernel (s.rdBytes (slotBase d + 8 * n.poff) (8 * n.plen))

/-- Size of a slot's carry, bytes. -/
def slotCarrySize (s : State) (d : Fin 8) : Nat := ((slotCarry s d).map fun q => q.2.2).sum

/-- The draft carry: the output buffers of all bound drafts that PREV predecessors read, bytes (R382). -/
def draftCarry (s : State) : Nat :=
  (((fins 8).filter fun d => decide ((s.draft d).state = .bound)).map (slotCarrySize s)).sum

/-- The contents of the draft carry: the buffers of the last instances (R90, R386). -/
def carryBytes (s : State) : List (Nat × List Byte) :=
  ((fins 8).filter fun d => decide ((s.draft d).state = .bound)).flatMap fun d =>
    (slotCarry s d).map fun q =>
      let a := if (s.draft d).released % 2 = 1 then q.1 else q.2.1
      (a, s.rdBytes a q.2.2)

/-- DRAFT.BIND (R91): a loaded slot is bound to a group and a release rate. -/
def execDraftBind (f : Fin 16) (w : TWord) (s : State) : Res :=
  .next (s.devOp f 0x30#8 1#4 w [w.ra] 0x377F#32 (some 8)
    (fun _ => [xwNot w [0#4], (bit w.imm 13, .badOperand)])
    (fun s => [stateGate s [.ready] 4 0#8,
      (decide ((s.draft (Fin.ofNat 8 ((s.flow f).obj w).toNat)).state ≠ .loaded), .state, 0#8),
      (leads s && decide (14784 < draftCarry s + slotCarrySize s (Fin.ofNat 8 ((s.flow f).obj w).toNat)), .noResource, 0#8)])
    fun s =>
      let d : Fin 8 := Fin.ofNat 8 ((s.flow f).obj w).toNat
      (s.modSlot d fun x =>
        { x with state := .bound, group := field w.imm 8 3, rate := bit w.imm 12, released := 0, insts := [] }).opAccept f w .ok 0#8
        none)

/-- DRAFT.UNLOAD: the slot is freed. -/
def execDraftUnload (f : Fin 16) (w : TWord) (s : State) : Res :=
  .next (s.devOp f 0x30#8 2#4 w [w.ra] 0x7F#32 (some 8) (fun _ => [xwNot w [0#4]])
    (fun s => [stateGate s [.ready, .run] 4 0#8,
      (decide ((s.draft (Fin.ofNat 8 ((s.flow f).obj w).toNat)).state = .bound), .state, 0#8)])
    fun s =>
      (s.modSlot (Fin.ofNat 8 ((s.flow f).obj w).toNat) fun x => { x with state := .empty, nodes := 0#13 }).opAccept f w .ok 0#8 none)

/-- PD4 is powered, so the Loom registers are accessible (R418). -/
def loomUp (s : State) : Bool := (s.domain 4).up

/-- LM_WEIGHT_WRITE (R97): a weight of 0 is ignored and sets WEIGHT_REJ. -/
def execLmWeightWrite (g : Fin 8) (v : BitVec 32) (s : State) : Res :=
  if !loomUp s then .next s
  else if field v 0 8 = 0#8 then .next { s with lm.weightRej := true }
  else .next { s with lm.weight := upd s.lm.weight g fun _ => field v 0 8 }

/-- LM_HWM_CLR: the high-water mark takes the present fill. -/
def execLmHwmClr (s : State) : Res :=
  if loomUp s then .next { s with lm.hwm := BitVec.ofNat 11 s.lm.ready.length } else .next s

/-- LM_CNT_CLR: every skip and void counter is cleared. -/
def execLmCntClr (s : State) : Res :=
  if loomUp s then .next { s with lm.slot := s.lm.slot.map fun x => { x with skip := 0#32, voids := 0#32 } } else .next s

end Sys2Proof.Machine
end

