-- ==== Sys2Proof/Machine/ServoBase.lean ====
section
/-! DEFINITION. The parts of the network time servo that a change of device or ring state needs: its state, the phase of a domain,
holdover and the return to the gPTP domains (R337 to R341, R378). -/
namespace Sys2Proof.Machine

/-- The network time unit changed. -/
def State.modNt (s : State) (g : NetTime → NetTime) : State := { s with nt := g s.nt }

/-- The request level of the unit (R344). -/
def ntLevel (s : State) : Bool := decide (s.nt.sticky &&& s.nt.intEn ≠ 0#6)
/-- A bit of NT_STICKY is set: 0 STEP, 1 DOM_CHG, 2 SWITCHED, 3 STATE_CHG, 4 SYNC_REJ, 5 CFG_REJ. -/
def State.ntSet (s : State) (i : Nat) : State := irqWatch 19 ntLevel s (s.modNt fun n => { n with sticky := setBit n.sticky i })

/-- Code of a unit state (R339). -/
def NtState.code : NtState → Nat
  | .freerun => 0 | .locked => 1 | .holdover => 2 | .unlocked => 3

/-- Number of a domain. -/
def domNat (b : Bool) : Fin 2 := if b then 1 else 0

/-- LSB of TB_INC_ADJ in one tick of 8 ns. -/
def tickLsb : Int := 8 * 4294967296

/-- The phase of a domain extrapolated to a cell time in 2^-32 ns, with its frequency minus the correction in force (R334). -/
def NtDom.thetaTo (d : NtDom) (adj : Int) (t : Nat) : Int :=
  d.theta + ((t : Int) - d.thetaAt) * (d.f - adj) / (tickLsb + adj)

/-- The unit enters a state; the change is recorded (R344). -/
def State.ntState (s : State) (st : NtState) : State :=
  if s.nt.state = st then s
  else ((s.modNt fun n => { n with state := st }).ntSet 3).emit 18 0x005#12 [nat32 st.code 0]

/-- A phase in 2^-32 ns rounded to the nearest ns. -/
def nearestNs (x : Int) : Int := (x + 2147483648) / 4294967296

/-- Phase of a domain against OFS at the present cell time, ns. -/
def State.phaseOf (s : State) (d : Fin 2) : Int :=
  nearestNs ((s.nt.dom[d]).thetaTo s.tb.incAdj.toInt s.tb.timeFix - s.nt.ofs * nsUnit)

/-- Domain `d` is LOCKED. -/
def domLocked (s : State) (d : Fin 2) : Bool := decide ((s.nt.dom[d]).state = .locked)

/-- The unit has lost its source: it holds over at the last frequency, and later is UNLOCKED (R339). -/
def State.ntHold (s : State) (f : Int) : State :=
  if s.nt.state = .locked then (s.modNt fun n => { n with fHold := f, holdAt := s.now }).ntState .holdover
  else if s.nt.state = .holdover && decide (s.nt.holdAt + s.nt.holdMax.toNat * 1000000000 ≤ s.now) then s.ntState .unlocked
  else s

/-- A switch of the domain, recorded with e (R340, R344). Cause 0 automatic, 1 re-acquisition, 2 host. -/
def State.ntSwitch (s : State) (cause : Nat) : State :=
  let d := !s.nt.sel
  let e := BitVec.ofInt 64 (s.phaseOf (domNat d))
  ((s.modNt fun n => { n with sel := d }).ntSet 2).emit 18 0x004#12
    [nat32 (domNat d).val 0 ||| nat32 cause 4, e.setWidth 32, (e >>> 32).setWidth 32]

/-- The source outside gPTP is left: a LOCKED domain is selected without a step; otherwise the unit holds over at the present rate
(R340, R378). -/
def State.ntReturn (s : State) : State :=
  let s0 := s.modPr fun p => { p with ext := {} }
  if !s0.nt.stepped then s0
  else if domLocked s0 (domNat s0.nt.sel) then s0.ntState .locked
  else if domLocked s0 (domNat !s0.nt.sel) then (s0.ntSwitch 0).ntState .locked
  else (s0.modNt fun n => { n with fHold := s0.tb.incAdj.toInt, holdAt := s0.now }).ntState .holdover

end Sys2Proof.Machine
end

