-- ==== Sys2Proof/Machine/RingBase.lean ====
section
/-! DEFINITION. The ring relay and the ring states, which follow the device state (R390, R391, R395, R402, R432). -/
namespace Sys2Proof.Machine

/-- The ring changed. -/
def State.modWr (s : State) (g : Ring → Ring) : State := { s with wr := g s.wr }

/-- The logical position (R390). -/
def ringL (s : State) : Nat := s.boot.cascPos.toNat / 2

/-- The device is master: it stands at position 0, or holds the lease of the pair at logical position 0 (R390). -/
def ringMaster (s : State) : Bool := decide (ringL s = 0) && s.lease && (s.pr.en || decide (s.boot.cascPos = 0#3))

/-- Code of a ring state (R395). -/
def RingState.code : RingState → BitVec 2
  | .out => 0#2 | .down => 1#2 | .joining => 2#2 | .up => 3#2

/-- A ring state is entered and recorded (R395, R402). Outside the ring the servo returns to the gPTP domains. -/
def State.ringState (s : State) (st : RingState) : State :=
  if s.wr.state = st then s
  else
    let s1 := (s.modWr fun r => { r with state := st, aligned := r.aligned && decide (st = .up), wasUp := r.wasUp || decide (st = .up) }).emit
      21 0x001#12 [at32 st.code 0 ||| at32 s.wr.state.code 4]
    if st = .out then
      let s2 := s1.modWr fun r => { r with follow := false, start := none, wasUp := false, lost := false }
      if s.wr.follow && !follows s then s2.ntReturn else s2
    else s1

/-- RING_INSERT may be energised (R391). -/
def relayOn (s : State) : Bool :=
  s.wr.insert && decide (s.domain 11 = .run) && (decide (s.pw.state = .ready) || decide (s.pw.state = .run))

/-- The relay follows its conditions, and the ring state the relay and the links (R391, R395); an energisation is counted (R432). -/
def State.ringRelay (s : State) : State :=
  let on := relayOn s
  let s1 := if s.wr.relay = on then s else
    { s with wr.relay := on, out := .insert on :: s.out, hw.cnt := if on then updN s.hw.cnt 9 satInc else s.hw.cnt }
  if !on then s1.ringState .out
  else if !(s1.wr.linkIn && s1.wr.linkOut) then
    (if s1.wr.state = .up && s1.wr.follow && !follows s1 then s1.ntHold s1.pr.ext.f else s1).ringState .down
  else if ringMaster s1 then s1.ringState .up
  else if s1.wr.state = .out then s1.ringState .down
  else s1

end Sys2Proof.Machine
end

