-- ==== Sys2Proof/Machine/SelvedgeBase.lean ====
section
/-! DEFINITION. The state of the safety island that its commands share: channel states and faults, the recovery window, what both
channels publish, the stops of the axes, the opening of OSSD switches and SAFE_HOLD (R30 to R34, R247, R260, R261, R267 to R269,
R374, R388). -/
namespace Sys2Proof.Machine

/-! ### Device state -/

/-- The request level of the AON and power controller (R435). -/
def aonLevel (s : State) : Bool := decide (s.pw.sticky &&& s.pw.intEn ≠ 0#5)

/-- Bit `i` of AON_STICKY is set (R435). -/
def State.aonSet (s : State) (i : Nat) : State :=
  irqWatch 31 aonLevel s { s with pw.sticky := setBit s.pw.sticky i }

/-- The device enters a state (R30, R435): cause 0 command, 1 wake, 2 hardware, 3 thermal. The ring relay follows it (R391). -/
def State.setDevState (s : State) (st : DevState) (cause : Nat) : State :=
  if s.pw.state = st then s
  else
    let s1 := (({ s with pw.state := st }).aonSet 0).emit 1 0x001#12 [at32 st.code 0 ||| at32 s.pw.state.code 4 ||| nat32 cause 8]
    s1.ringRelay

/-! ### Channels -/

/-- Selvedge changed. -/
def State.modSv (s : State) (g : Selvedge → Selvedge) : State := { s with sv := g s.sv }
/-- Channel `c` of Selvedge. -/
def State.svCh (s : State) (c : Fin 2) : SvCh := s.sv.ch[c]
/-- Channel `c` of Selvedge changed. -/
def State.modSvCh (s : State) (c : Fin 2) (g : SvCh → SvCh) : State := { s with sv.ch := upd s.sv.ch c g }
/-- The other channel. -/
def otherCh (c : Fin 2) : Fin 2 := if c = 0 then 1 else 0
/-- The domain of a channel: PD1 or PD2. -/
def chDomain (c : Fin 2) : Fin 13 := if c = 0 then 1 else 2

/-- Code of a channel state (R247). -/
def SvState.code : SvState → BitVec 3
  | .off => 0#3 | .selftest => 1#3 | .unsealed => 2#3 | .sealed => 3#3 | .fault => 4#3 | .safeHold => 5#3

/-- SV_STATE (R247). -/
def svStateWord (s : State) : BitVec 32 :=
  at32 (s.svCh 0).state.code 0 ||| at32 (s.svCh 1).state.code 4 ||| bitAt s.sv.sealed 8 |||
  bitAt (windowOf s).isSome 9

/-- Any change of SV_STATE sets SV_CHG of HI_STICKY and requests vector 17 (R444). -/
def svWatch (s s' : State) : State :=
  if svStateWord s = svStateWord s' then s' else ({ s' with hi.sticky := setBit s'.hi.sticky 0 }).raise 17

/-- Channel `c` delivers a record (R271): Selvedge A has SRC 14, Selvedge B SRC 15. -/
def State.svRec (s : State) (c : Fin 2) (code : BitVec 12) (p : List (BitVec 32)) : State :=
  s.emitSafe (decide (c = 1)) (14 + c.val) code p

/-- A channel in FAULT or SAFE_HOLD stops every axis at category 0 (R247, R267, R269). -/
def SvCh.forced (c : SvCh) : Bool := decide (c.state = .fault) || decide (c.state = .safeHold)

/-- Category that a channel has in force for an arm; 3 none (R260). -/
def SvCh.armCat (c : SvCh) (r : Fin 8) : Nat :=
  if c.forced then 0 else if c.state = .sealed then (c.arm[r]).stop.cat else 3
/-- The same for auxiliary axis 64 + j. -/
def SvCh.auxCat (c : SvCh) (j : Fin 16) : Nat :=
  if c.forced then 0 else if c.state = .sealed then (c.aux[j]).cat else 3
/-- STO of a stop: at category 0, and at category 1 from standstill on (R260). -/
def SvStop.sto (t : SvStop) : Bool := decide (t.cat = 0) || (decide (t.cat = 1) && t.reached)
/-- A channel demands STO for an arm: always outside SEALED (R247, R260). -/
def SvCh.armSto (c : SvCh) (r : Fin 8) : Bool := decide (c.state ≠ .sealed) || (c.arm[r]).stop.sto
/-- The same for an auxiliary axis. -/
def SvCh.auxSto (c : SvCh) (j : Fin 16) : Bool := decide (c.state ≠ .sealed) || (c.aux[j]).sto

/-- The scale that a channel has for an arm (R263, R264, R266). -/
def svScale (s : State) (c : Fin 2) (r : Fin 8) : BitVec 16 :=
  let g := s.sv.cfgArm[r]
  if (s.svCh c).state ≠ .sealed || !g.use then 0#16
  else if !g.ssm then 32768#16
  else if ((s.svCh c).arm[r]).ssmFault then 0#16
  else ((s.svCh c).arm[r]).scale

/-- A category as a stop that persists. -/
def catStop (n : Nat) : Option (Fin 3) := if n = 0 then some 0 else if n = 1 then some 1 else if n = 2 then some 2 else none

/-- The partner's record of this pick counts (R374). -/
def partnerSafe (s : State) : Option PairSafe := if paired s then s.pr.safe.filter fun p => decide (p.a = .sealed) && decide (p.b = .sealed) else none

/-- The category in force: the lower of both channels and of the partner's record (R249, R374). -/
def armCatNow (s : State) (r : Fin 8) : Nat :=
  let own := min ((s.svCh 0).armCat r) ((s.svCh 1).armCat r)
  (partnerSafe s).elim own fun p => min own (p.cat.getD r.val 3)
/-- The same for auxiliary axis 64 + j. -/
def auxCatNow (s : State) (j : Fin 16) : Nat :=
  let own := min ((s.svCh 0).auxCat j) ((s.svCh 1).auxCat j)
  (partnerSafe s).elim own fun p => min own (p.cat.getD (8 + j.val) 3)
/-- The published scale: the smaller of both channels' and of the partner's (R248, R374). -/
def scaleNow (s : State) (r : Fin 8) : BitVec 16 :=
  let a := svScale s 0 r
  let b := svScale s 1 r
  let own := if a.toNat ≤ b.toNat then a else b
  (partnerSafe s).elim own fun p => let q := p.scale.getD r.val 0#16; if own.toNat ≤ q.toNat then own else q

/-- The axes of an arm in use of the sealed image (R252). -/
def sealedAxes (s : State) (r : Fin 8) : List (Fin 80) :=
  let g := s.sv.cfgArm[r]
  if g.use then (List.range g.count.toNat).map fun i => Fin.ofNat 80 (g.first.toNat + i) else []

/-- A category 0 stop brings an axis to FAULT (R33, R82). -/
def State.svFaultAxis (s : State) (a : Fin 80) : State := (s.faultAxis a).modAxis a fun x => { x with selFault := true }

/-- Both channels pass on what they have decided: stops, STO, and in picks the scales; category 0 acts at once (R248, R260). -/
def State.svPublish (s : State) : State :=
  let s1 := { s with
    sv.armPub := Vector.ofFn fun r =>
      { scale := if s.tb.running then scaleNow s r else (s.sv.armPub[r]).scale
        stop := catStop (armCatNow s r)
        sto := (s.svCh 0).armSto r || (s.svCh 1).armSto r || decide (armCatNow s r = 0) }
    sv.auxPub := Vector.ofFn fun j =>
      { scale := (s.sv.auxPub[j]).scale
        stop := catStop (auxCatNow s j)
        sto := (s.svCh 0).auxSto j || (s.svCh 1).auxSto j || decide (auxCatNow s j = 0) } }
  let s2 :=
    if (s.svCh 0).forced || (s.svCh 1).forced then s1.forEach (fins 80) State.svFaultAxis
    else
      (s1.forEach ((fins 8).filter fun r => decide (armCatNow s r = 0)) fun s r => s.forEach (sealedAxes s r) State.svFaultAxis).forEach
        ((fins 16).filter fun j => decide (auxCatNow s j = 0)) fun s j => s.svFaultAxis (Fin.ofNat 80 (64 + j.val))
  s2.mpcSweep

/-- The axis is in motion and its safety stop has not begun. -/
def toStop (s : State) (a : Fin 80) : Bool :=
  (s.axis a).state.stoppable || (decide ((s.axis a).state = .stopping) && !(s.pax a).safety)

/-- Category 1 and 2 stops act at a pick instant: a quick stop, and DISABLED for an axis that holds once STO is demanded at
category 1 (R34, R260, R469). -/
def State.svMotion (s : State) : State :=
  let s1 := s.forEach (fins 8) fun s r =>
    match (s.sv.armPub[r]).stop with
    | none => s
    | some c =>
      let ax := sealedAxes s r
      let t :=
        if ax.any (toStop s) then
          (if s.armMatches r then s.effectArmStop r true true else s.forEach ax fun s a => s.effectStop a true true)
        else s
      if c = 1 && (s.sv.armPub[r]).sto then
        t.forEach (ax.filter fun a => decide ((t.axis a).state = .holding)) fun s a => s.setAxis a .disabled
      else t
  let s2 := s1.forEach (fins 16) fun s j =>
    let a : Fin 80 := Fin.ofNat 80 (64 + j.val)
    match (s.sv.auxPub[j]).stop with
    | none => s
    | some c =>
      let t := if toStop s a then s.effectStop a true true else s
      if c = 1 && (s.sv.auxPub[j]).sto && decide ((t.axis a).state = .holding) then t.setAxis a .disabled else t
  s2.mpcSweep

/-! ### OSSD switches -/

/-- The safety I/O block changed. -/
def State.modSio (s : State) (g : Sio → Sio) : State := { s with sio := g s.sio }

/-- The terminal levels of the commanded state, which both halves read back (R281): OSSD_P is high while the high side is closed,
OSSD_N while the high side is closed and the low side open. -/
def Ossd.settle (o : Ossd) : Ossd := { o with p := Vector.replicate 2 o.high, n := Vector.replicate 2 (o.high && !o.low) }

/-- Both switches of an OSSD opened (R283, R286). -/
def Ossd.openBoth (o : Ossd) (t : Nat) : Ossd :=
  Ossd.settle { o with phase := .opened, dark := none, high := false, low := false, changed := if o.high || o.low then t else o.changed }

/-- One switch of an OSSD opened by its channel; a switch-on sequence is aborted with both (R283). -/
def Ossd.openOne (o : Ossd) (c : Fin 2) (t : Nat) : Ossd :=
  if o.phase = .high || o.phase = .low then o.openBoth t
  else
    let was := if c = 0 then o.high else o.low
    let o1 := if c = 0 then { o with high := false } else { o with low := false }
    Ossd.settle { o1 with phase := .opened, dark := none, changed := if was then t else o.changed }

/-- Channel `c` opens its switch of every OSSD (R261, R267). -/
def State.ossdOpenCh (s : State) (c : Fin 2) : State :=
  s.modSio fun q => { q with ossd := q.ossd.map fun o => o.openOne c s.now }

/-! ### SAFE_HOLD, channel faults and the recovery window -/

/-- The device enters SAFE_HOLD (R30, R31, R269): every axis in FAULT, drafts unbound, both channels in SAFE_HOLD, every OSSD
open. Picks go on (R32). -/
def State.enterSafeHold (s : State) (cause : Nat) : State :=
  if s.pw.state = .safeHold || s.pw.state = .off then s
  else
    let s1 := (s.setDevState .safeHold cause).forEach (fins 80) State.faultAxis
    let s2 := s1.unbindDrafts.modSv fun v => { v with ch := v.ch.map fun c => if c.state = .off then c else { c with state := .safeHold } }
    ((s2.ossdOpenCh 0).ossdOpenCh 1).svPublish

/-- The device stops sending drive traffic: the set-point frames that wait are dropped (R371, R380). -/
def State.dropSetpoints (s : State) : State :=
  { s with sw.port := s.sw.port.map fun p => { p with q := p.q.map fun l => l.filter fun f => f.pick.isNone } }

/-- A double fault (R268, R388): both channels record it, the island and the device enter SAFE_HOLD; in a pair the partner is
told. -/
def State.doubleFault (s : State) (f g : Nat × BitVec 12) : State :=
  let s1 := s.modSv fun v => { v with first := some f, second := some g }
  let s2 := (s1.svRec 0 0x00E#12 [faultWord f, faultWord g]).svRec 1 0x00E#12 [faultWord f, faultWord g]
  let s3 := s2.enterSafeHold 2
  if paired s3 then
    let s4 := (((s3.dropSetpoints.sendHeartbeat).emit 20 0x008#12 [0x31#32, faultWord f, faultWord g]).prSet 7).pairCtl (.double f g)
    (s4.modPr fun p => { p with
      mute := decide (p.role = .active) || decide (p.role = .standby) || p.mute, handOwn := none, handReq := false
      handFrom := none }).alvLow
  else s3

/-- A device fault opens a recovery window; a second one inside a window, which in a pair spans both devices, is a double
fault (R268, R388). -/
def State.deviceFault (s : State) (f : Nat × BitVec 12) : State :=
  if s.pw.state = .safeHold then s
  else
    match windowOf s with
    | some g => s.doubleFault g f
    | none =>
      let s1 := s.modSv fun v => { v with first := some f }
      if paired s1 then (s1.modPr fun p => { p with handOwn := none, handReq := false, handFrom := none }).pairCtl (.fault f) else s1

/-- A device of a pair whose island enters FAULT stops sending (R380). -/
def State.pairMute (s : State) : State :=
  if s.pr.role = .active || s.pr.role = .standby then ((s.modPr fun p => { p with mute := true }).alvLow).dropSetpoints else s

/-- Channel `c` declares a channel fault with diagnostic `diag`, numbered as the rows of R267 (R267, R268): the channel enters
FAULT, every axis stops at category 0, its switches open, and a recovery window opens unless the channel learns the fault from its
partner or detects the same one at the same time. -/
def State.svFault (s : State) (c : Fin 2) (diag : Nat) : State :=
  let st := (s.svCh c).state
  if st = .off || st = .safeHold then s
  else if st = .fault then
    (if diag = 1 || diag = 2 || diag = 5 || diag = 6 then svWatch s (s.deviceFault (14 + c.val, 0x00C#12)) else s)
  else
    let follow := (s.svCh (otherCh c)).forced && (decide (diag = 3) || decide (s.sv.lastFault = some (s.now, diag)))
    let s1 := ((s.modSvCh c fun h => { h with state := .fault }).modSv fun v => { v with lastFault := some (s.now, diag) }).svRec c 0x00C#12
      [nat32 diag 0]
    let s2 := if follow then s1 else s1.deviceFault (14 + c.val, 0x00C#12)
    svWatch s ((s2.ossdOpenCh c).svPublish.pairMute)

/-- A fault of the safety I/O block is a device fault: both channels enter FAULT and every OSSD opens (R286). -/
def State.ossdDeviceFault (s : State) : State :=
  let s1 := s.forEach (fins 2) fun s c =>
    let st := (s.svCh c).state
    if st = .off || st = .fault || st = .safeHold then s
    else (s.modSvCh c fun h => { h with state := .fault }).svRec c 0x00C#12 [9#32]
  svWatch s (((s1.deviceFault (16, 0x003#12)).ossdOpenCh 0).ossdOpenCh 1).svPublish.pairMute

end Sys2Proof.Machine
end

