-- ==== Sys2Proof/Machine/SelvedgeImage.lean ====
section
/-! DEFINITION. The safety configuration image: its layout, its checks, SAFE.LOAD and sealing, and the end of SELFTEST (R247, R250
to R255). -/
namespace Sys2Proof.Machine

/-- The little-endian word of an image at a byte offset; bytes past its end read as 0 (R250). -/
def imgW (b : List Byte) (o : Nat) : BitVec 32 := BitVec.ofNat 32 (leAt b o 4)

/-- The Reed registers as the image copies them (R250). -/
def reedWords (s : State) : List (BitVec 32) :=
  let r := s.rd
  [at32 r.cz 16 ||| at32 r.cy 8 ||| at32 r.cx 0, at32 r.tolf 28 ||| at32 r.maskInfl 16 ||| at32 r.edge 0, r.org[0], r.org[1], r.org[2],
   r.gridId] ++ r.sens.toList.map fun n => at32 n.period 12 ||| bitAt n.en 0

/-- A function entry (R251). -/
def imgFn (b : List Byte) (o : Nat) : CfgFn :=
  let w0 := imgW b o
  let w1 := imgW b (o + 4)
  let w2 := imgW b (o + 8)
  { type := field w0 0 3, pair0 := field w0 4 4, pair1 := field w0 8 4, cat := field w0 12 2, antiv := bit w0 14
    auto := bit w0 15, hostrst := bit w0 16, resetFn := field w0 17 5, arms := field w1 0 8, ossd := field w1 8 8
    aux := field w2 0 16, tDisc := field w2 16 9 }

/-- An arm entry (R252). -/
def imgArm (b : List Byte) (o : Nat) : CfgArm :=
  let w0 := imgW b o
  let w3 := imgW b (o + 12)
  let w4 := imgW b (o + 16)
  let w5 := imgW b (o + 20)
  { use := decide (field w0 8 4 ≠ 0#4), first := field w0 0 7, count := field w0 8 4, ssm := bit w0 12, tStop := field w0 16 16
    aStop := imgW b (o + 4), tS0 := imgW b (o + 8), c := field w3 0 16, zd := field w3 16 16, zr := field w4 0 16
    tScale := field w4 16 16, vref := field w5 0 16, vTol := field w5 16 16 }

/-- A joint entry (R252). -/
def imgJoint (b : List Byte) (o : Nat) : CfgJoint :=
  let w0 := imgW b o
  let w3 := imgW b (o + 12)
  { srcA := field w0 0 8, srcB := field w0 8 8, lever := imgW b (o + 4), jvMax := imgW b (o + 8), posTol := field w3 0 16
    sosTol := field w3 16 16 }

/-- NFUNC of an image (R250). -/
def imgNf (b : List Byte) : Nat := (field (imgW b 12) 0 6).toNat
/-- Offset of function entry i. -/
def fnAt (i : Nat) : Nat := 128 + 16 * i
/-- Offset of arm entry r of an image with `n` function entries. -/
def armAt (n r : Nat) : Nat := 128 + 16 * n + 32 * r
/-- Offset of joint entry j. -/
def jointAt (n j : Nat) : Nat := 384 + 16 * n + 16 * j

/-- The reserved bits of every word of an image after LEN: offset and mask, in ascending order of offset (R250 to R252). -/
def imgReserved (n : Nat) : List (Nat × BitVec 32) :=
  [(8, 0xFFFFC000#32), (12, 0xFFFFFFC0#32)] ++ ((List.range 8).map fun i => (24 + 4 * i, 0xFFFFFFFF#32)) ++
  ((List.range 4).map fun i => (112 + 4 * i, 0xFFFFFFFF#32)) ++
  ((List.range n).flatMap fun i => [(fnAt i, 0xFFC00008#32), (fnAt i + 4, 0xFFFF0000#32), (fnAt i + 8, 0xFE000000#32),
    (fnAt i + 12, 0xFFFFFFFF#32)]) ++
  ((List.range 8).flatMap fun r => [(armAt n r, 0x0000E080#32), (armAt n r + 24, 0xFFFFFFFF#32), (armAt n r + 28, 0xFFFFFFFF#32)]) ++
  (List.range 64).map fun j => (jointAt n j, 0xFFFF0000#32)

/-- The first word that fails reason 1: VERSION, LEN against w1 and R250, reserved bits (R253). -/
def imgForm (b : List Byte) (len : Nat) : Option Nat :=
  if imgW b 0 ≠ 1#32 then some 0
  else if (imgW b 4).toNat ≠ len || decide (len ≠ 1600 + 16 * imgNf b) then some 4
  else ((imgReserved (imgNf b)).find? fun q => decide (imgW b q.1 &&& q.2 ≠ 0#32)).map fun q => q.1

/-- The joint axes that an arm entry owns (R252). -/
def CfgArm.axes (g : CfgArm) : List Nat := if g.use then (List.range g.count.toNat).map fun i => g.first.toNat + i else []

/-- x lies in [lo, hi]. -/
def inRange (x lo hi : Nat) : Bool := decide (lo ≤ x) && decide (x ≤ hi)

/-- The offset of the first of several conditions that fails, in ascending order of offset. -/
def firstBad (l : List (Bool × Nat)) : Option Nat :=
  (l.filter fun q => !q.1).foldl (fun m q => match m with
    | none => some q.2
    | some x => some (min x q.2)) none

/-- Reason 10: the first word whose field lies outside its range (R250 to R252). -/
def imgRange (b : List Byte) : Option Nat :=
  let n := imgNf b
  let arms : List (Nat × CfgArm) := (List.range 8).map fun r => (armAt n r, imgArm b (armAt n r))
  let owned : List Nat := arms.flatMap fun g => g.2.axes
  firstBad
    ([(inRange n 1 32, 12), (inRange (imgW b 16).toNat 1600 4000, 16), (inRange (imgW b 20).toNat 1 1000000, 20)] ++
    ((List.range n).flatMap fun i =>
      let f := imgFn b (fnAt i)
      [(decide (f.type.toNat ≤ 4) && decide (f.cat ≠ 3#2) && (decide (f.type = 2#3) || decide (f.pair1 = 0#4)), fnAt i),
       (inRange f.tDisc.toNat 10 500, fnAt i + 8)]) ++
    (arms.flatMap fun q =>
      let g := q.2
      if g.use then
        [(decide (g.count.toNat ≤ 8) && decide (g.tStop ≠ 0#16), q.1), (inRange g.aStop.toNat 1 1000000, q.1 + 4),
         (inRange g.tS0.toNat 1 10000000, q.1 + 8), (decide (g.tScale ≠ 0#16), q.1 + 16), (decide (g.vref ≠ 0#16), q.1 + 20)]
      else []) ++
    (List.range 64).flatMap fun j =>
      let o := jointAt n j
      let q := imgJoint b o
      if owned.contains j then
        [((decide (q.srcA.toNat ≤ 95) || decide (q.srcA = 0xFF#8)) && (decide (q.srcB.toNat ≤ 95) || decide (q.srcB = 0xFF#8)), o),
         (inRange q.jvMax.toNat 1 0x7FFFFFFF, o + 8), (decide (q.posTol ≠ 0#16) && decide (q.sosTol ≠ 0#16), o + 12)]
      else [((List.range 4).all fun k => decide (imgW b (o + 4 * k) = 0#32), o)])

/-- The pairs that a function entry uses (R251). -/
def CfgFn.pairs (f : CfgFn) : List (Fin 16) :=
  if f.type = 2#3 then [Fin.ofNat 16 f.pair0.toNat, Fin.ofNat 16 f.pair1.toNat] else [Fin.ofNat 16 f.pair0.toNat]

/-- The bit of FUNC_MASK that enables a function type (R250). -/
def fnEnable (t : BitVec 3) : BitVec 4 := if t = 1#3 then 8#4 else if t = 2#3 then 2#4 else if t = 3#3 then 4#4 else 0#4

/-- The rules of R254 on function entry i. -/
def fnConsistent (fs : List CfgFn) (mask : BitVec 4) (i : Nat) : Bool :=
  let f := fs.getD i default
  let before := (fs.take i).flatMap CfgFn.pairs
  decide (fnEnable f.type &&& ~~~mask = 0#4) && f.pairs.all (fun p => !before.contains p) && (decide (f.type ≠ 2#3) || f.antiv) &&
  (!(decide (f.type = 0#3) || decide (f.type = 1#3) || decide (f.type = 3#3)) ||
    (decide (f.cat.toNat ≤ 1) &&
      (f.auto || f.hostrst || (decide (f.resetFn.toNat < fs.length) && decide ((fs.getD f.resetFn.toNat default).type = 4#3))))) &&
  (decide (f.type ≠ 0#3) || (!f.auto && !f.hostrst))

/-- Reason 11: the first entry that breaks a rule of R254; 0 for the rule on emergency stops. -/
def imgConsistent (b : List Byte) : Option Nat :=
  let n := imgNf b
  let fs : List CfgFn := (List.range n).map fun i => imgFn b (fnAt i)
  let mask := field (imgW b 8) 10 4
  let arms : List (Nat × CfgArm) := (List.range 8).map fun r => (r, imgArm b (armAt n r))
  let infl := (field (imgW b 60) 16 10).toNat
  firstBad
    ([(fs.any fun f => decide (f.type = 0#3), 0)] ++ ((List.range n).map fun i => (fnConsistent fs mask i, fnAt i)) ++
    (arms.map fun q =>
      let g := q.2
      let before : List Nat := (arms.take q.1).flatMap fun h => h.2.axes
      (g.axes.all (fun a => decide (a ≤ 63) && !before.contains a) &&
        (!g.use || !g.ssm || (bit mask 0 && decide (infl ≤ g.c.toNat) && decide (1000 * g.tScale.toNat ≤ g.tS0.toNat))), armAt n q.1)) ++
    ((arms.flatMap fun q => q.2.axes).filter fun a => decide (a < 64)).map fun j =>
      let q := imgJoint b (jointAt n j)
      (decide (q.srcA ≠ q.srcB) || decide (q.srcA = 0xFF#8), jointAt n j))

/-- Bytes as one number, the first in the most significant place. -/
def beBits384 (l : List Byte) : BitVec 384 := BitVec.ofNat 384 (beNat l)

/-- The first difference between two lists of words. -/
def firstDiff : List (BitVec 32) → List (BitVec 32) → Nat → Option Nat
  | a :: r, b :: t, i => if a = b then firstDiff r t (i + 1) else some i
  | _, _, _ => none

/-- The SEAL reading that an image requires (R287). -/
def imgSeal (b dig : List Byte) : BitVec 24 :=
  let w := imgW b 8
  (field w 0 10).setWidth 24 ||| (byteAt dig 0).setWidth 24 <<< 10 ||| (field w 10 4).setWidth 24 <<< 18 ||| 2#24 <<< 22

/-- A field of SEAL reads as required in both halves (R289). -/
def sealField (s : State) (need : BitVec 24) (lo len : Nat) : Bool :=
  (fins 2).all fun h => match (s.sio.half[h]).sealRd with
    | none => false
    | some v => decide (field v lo len = field need lo len)

/-- The first failing check of an image: reason and offset (R253). Both channels copy one image, so reasons 4 and 12 never arise. -/
def validate (s : State) (b : List Byte) (len : Nat) : Option (Nat × Nat) :=
  match imgForm b len with
  | some o => some (1, o)
  | none =>
    let n := imgNf b
    let pub := (b.drop (1408 + 16 * n)).take 96
    let sig := (b.drop (1504 + 16 * n)).take 96
    let dig := sha384 (b.take (len - 96))
    let need := imgSeal b dig
    if s.boot.keyHash ≠ some (beBits384 (sha384 pub)) then some (2, 1408 + 16 * n)
    else if !ecdsaVerify pub dig sig then some (3, 1504 + 16 * n)
    else if !sealField s need 22 2 then some (5, 0)
    else if !sealField s need 0 10 then some (6, 8)
    else if !sealField s need 18 4 then some (7, 8)
    else if !sealField s need 10 8 then some (8, 0)
    else match firstDiff ((List.range 14).map fun i => imgW b (56 + 4 * i)) (reedWords s) 0 with
      | some i => some (9, 56 + 4 * i)
      | none => match imgRange b with
        | some o => some (10, o)
        | none => (imgConsistent b).map fun o => (11, o)

/-- A channel that enters SEALED: no demand and no history from before (R258). -/
def SvCh.enterSealed (now : Nat) : SvCh := { ({} : SvCh) with state := .sealed, lastCommon := now }

/-- The half's copy of TP_WIDTH is taken (R280). -/
def State.copyWidth (s : State) (c : Fin 2) : State :=
  s.modSio fun q => { q with half := upd q.half c fun h => { h with width := q.cfgWidth } }

/-- Both channels enter SEALED with an image (R255). -/
def State.sealWith (s : State) (b : List Byte) (len : Nat) : State :=
  let n := imgNf b
  let dig := sha384 (b.take (len - 96))
  let s1 := s.modSv fun v =>
    { v with
      sealed := true, vH := imgW b 16, tR0 := imgW b 20, nfunc := n, sealWord := imgSeal b dig
      reed := (List.range 14).map fun i => imgW b (56 + 4 * i)
      cfgFn := Vector.ofFn fun i => if i.val < n then imgFn b (fnAt i.val) else {}
      cfgArm := Vector.ofFn fun r => imgArm b (armAt n r.val)
      cfgJoint := Vector.ofFn fun j => imgJoint b (jointAt n j.val)
      digest := dig, ch := Vector.replicate 2 (SvCh.enterSealed s.now) }
  let w := BitVec.ofNat 32 (leAt dig 0 4)
  (((s1.copyWidth 0).copyWidth 1).svRec 0 0x001#12 [w]).svRec 1 0x001#12 [w]

/-- SAFE.LOAD (R80, R253): the image is passed to both channels, which copy it. -/
def execSafeLoad (f : Fin 16) (w : TWord) (s : State) : Res :=
  .next (s.devOp f 0x32#8 0#4 w [] 0#32 none
    (fun _ => [xwNot w [2#4], (!sharedOk (w.x 0) 8, .badOperand), (decide (sharedEnd < (w.x 0).toNat + (w.x 1).toNat), .length)])
    (fun s => [stateGate s [.ready] 1 0#8, (s.sv.sealed, .safetyDenied, 0#8)])
    fun s =>
      let l : SvLoad := { flow := f, op := s.opId f, bytes := s.image (w.x 0) (min (w.x 1).toNat 2624), len := (w.x 1).toNat }
      (s.opIssue f w false).modSv fun v => { v with loads := v.loads ++ [l] })

/-- SAFE_LOAD_DECIDED (R253, R255): the channels end the validation of the oldest image: they seal it, or show and record the
reason. Only channels in UNSEALED accept an image (R247). -/
def execSafeLoadDecided (s : State) : Res :=
  match s.sv.loads with
  | [] => .next s
  | l :: r =>
    let s1 := s.modSv fun v => { v with loads := r }
    if s.sv.sealed || !((fins 2).all fun c => decide ((s.svCh c).state = .unsealed)) then
      .next (s1.opDone l.flow l.op .safetyDenied 0#8 none)
    else match validate s1 l.bytes l.len with
      | some q =>
        let w := nat32 q.1 0 ||| nat32 q.2 16
        let s2 := s1.modSv fun v => { v with cfgErr := w }
        .next (((s2.svRec 0 0x002#12 [w]).svRec 1 0x002#12 [w]).opDone l.flow l.op .safetyDenied 0#8 none)
      | none => .next (svWatch s ((s1.sealWith l.bytes l.len).svPublish.opDone l.flow l.op .ok 0#8 none))

/-- SAFE.RESET (R80, R270): a target that names neither a function entry nor the SSM faults completes with RANGE; the rest is for
both channels to decide. -/
def execSafeReset (f : Fin 16) (w : TWord) (s : State) : Res :=
  let t := field w.imm 0 8
  .next (s.devOp f 0x32#8 1#4 w [] 0xFF#32 none
    (fun _ => [xwNot w [0#4], (!(decide (t.toNat ≤ 0x1F) || decide (t = 0xF0#8)), .range)])
    (fun s => [stateGate s [.ready, .run] 1 0#8, leaseGate s])
    fun s =>
      let q : Fin 16 × Nat × BitVec 8 := (f, s.opId f, t)
      (s.opIssue f w false).modSv fun v => { v with resets := v.resets ++ [q] })

end Sys2Proof.Machine
end

