-- ==== Sys2Proof/Machine/SelvedgeEval.lean ====
section
/-! DEFINITION. One evaluation of the two Selvedge channels: levels, pairs, functions, joint data, separation monitoring, the
comparison of the channels, stops, SAFE.RESET, the OSSD enables and the safety record of a pair (R244, R248, R249, R256 to R266,
R270, R373 to R376). -/
namespace Sys2Proof.Machine

/-- One millisecond in ns. -/
def msNs : Nat := 1000000

/-- The instant that an evaluation uses: t_k while picks run, else cell time (R248). -/
def evalTime (s : State) : Nat := if s.tb.running then s.tb.pickTime.toNat else s.now

/-! ### Input levels (R248, R273, R275) -/

/-- The function entries of the sealed image. -/
def svFns (s : State) : List (Fin 32) := if s.sv.sealed then (fins 32).filter fun i => decide (i.val < s.sv.nfunc) else []

/-- The entry that names pair `p` (R251). -/
def pairFn (s : State) (p : Fin 16) : Option CfgFn :=
  ((svFns s).find? fun i => (s.sv.cfgFn[i]).pairs.contains p).map fun i => s.sv.cfgFn[i]

/-- SI(i) is pulsed: its pair is named, and not by a light curtain entry (R273). -/
def pinPulsed (s : State) (i : Nat) : Bool := (pairFn s (Fin.ofNat 16 (i / 2))).elim false fun f => decide (f.type ≠ 3#3)

/-- The levels that the half of channel `c` gives an evaluation (R272, R275, R455). -/
def sioTaken (s : State) (c : Fin 2) : BitVec 32 :=
  let h := s.sio.half[c]
  if h.ioLow then 0#32
  else (List.range 32).foldl (fun w i =>
    putBit w i (if bit s.sio.holding (i % 8) && pinPulsed s i then bit h.held i else bit h.level i)) 0#32

/-! ### Distance entry (R244) -/

/-- INDEX and CYCLE of an entry of 88 words. -/
def entryKey (e : List (BitVec 32)) : BitVec 32 × BitVec 64 :=
  (e.getD 1 0#32, (e.getD 4 0#32).setWidth 64 ||| (e.getD 5 0#32).setWidth 64 <<< 32)
/-- STIME of an entry. -/
def entryTime (e : List (BitVec 32)) : Nat := (e.getD 2 0#32).toNat + 4294967296 * (e.getD 3 0#32).toNat
/-- A bit of an entry: USED at word 76, FLAG at 80, SAT at 84. -/
def entryBit (e : List (BitVec 32)) (w c : Nat) : Bool := bit (e.getD (w + c / 32) 0#32) (c % 32)
/-- DIST of capsule `c`. -/
def entryDist (e : List (BitVec 32)) (c : Nat) : Nat := (field (e.getD (8 + c / 2) 0#32) (16 * (c % 2)) 16).toNat
/-- ARM_MIN of arm `r`. -/
def entryArmMin (e : List (BitVec 32)) (r : Nat) : Nat := (field (e.getD (72 + r / 2) 0#32) (16 * (r % 2)) 16).toNat
/-- T_AG of an entry. -/
def entryTag (e : List (BitVec 32)) : Nat := (field (e.getD 7 0#32) 0 16).toNat

/-- One key is newer than another: INDEX by R47, at equal INDEX the higher CYCLE (R244). -/
def keyNewer (a b : BitVec 32 × BitVec 64) : Bool := newer a.1 b.1 || (decide (a.1 = b.1) && decide (b.2.toNat < a.2.toNat))

/-- The newest complete entry of the channel's own Reed channel (R244). -/
def newestEntry (s : State) (c : Fin 2) : Option (List (BitVec 32)) :=
  let v := if c = 0 then s.rd.entA else s.rd.entB
  [false, true].foldl (fun (best : Option (List (BitVec 32))) b =>
    match v[bufIx b] with
    | none => best
    | some k =>
      let e : List (BitVec 32) := (List.range 88).map fun n => distWord s.mem (decide (c = 1)) b n
      match best with
      | none => some e
      | some o => if keyNewer k (entryKey o) then some e else best) (s.svCh c).entry

/-! ### Joint data (R262) -/

/-- Position, speed, invalid, category 0 demanded: what the source of joint `a` gives channel `c` (R262, R303, R304). -/
def svSource (s : State) (c : Fin 2) (a : Fin 64) : Int × Int × Bool × Bool :=
  let j := s.sv.cfgJoint[a]
  let src := if c = 0 then j.srcA else j.srcB
  if src = 0xFF#8 then
    let x := s.sl.ax[Fin.ofNat 80 a.val]
    if x.conn.state = .running then (x.lat.spos, x.lat.sspeed, false, x.lat.drvFault) else (x.lat.spos, 0, true, true)
  else
    let h := s.ch (Fin.ofNat 96 src.toNat)
    (h.latch.x, h.latch.v, (!h.latch.valid && !h.latch.standstill) || decide (h.mode = .recovery), h.cond)

/-- The joint axes of an arm of the sealed image, as 0 to 63. -/
def armJoints (s : State) (r : Fin 8) : List (Fin 64) := (s.sv.cfgArm[r]).axes.map (Fin.ofNat 64)

/-- Channel `c` takes the joint data of arm `r`: positions, v_m, standstill and the faults of R262. -/
def State.svJoints (s : State) (c : Fin 2) (r : Fin 8) : State :=
  let js := armJoints s r
  let one (a : Fin 64) : Int × Nat × Bool × Bool :=
    let q := svSource s c a
    let j := s.sv.cfgJoint[a]
    let lim := j.jvMax.toNat * 65536
    let fast := !q.2.2.1 && decide (lim < q.2.1.natAbs)
    (q.1, (if q.2.2.1 then lim else q.2.1.natAbs) * j.lever.toNat, q.2.2.2, fast)
  let vm := js.foldl (fun t a => t + (one a).2.1) 0
  let s1 := s.forEach js fun s a =>
    let o := one a
    let was := (s.svCh c).fast[a]
    let s' := s.modSvCh c fun h => { h with pos := upd h.pos a fun _ => o.1, fast := upd h.fast a fun _ => o.2.2.2 }
    if o.2.2.2 && !was then s'.svRec c 0x007#12 [nat32 a.val 0] else s'
  s1.modSvCh c fun h => { h with
    arm := upd h.arm r fun m => { m with
      vm := vm, stand := decide (vm ≤ (s.sv.cfgArm[r]).vTol.toNat * 4294967296), fault0 := js.any fun a => (one a).2.2.1 || (one a).2.2.2 } }

/-! ### Pairs and functions (R257 to R259) -/

/-- The state of a pair from its two levels: some true ON, some false OFF, none DISCREPANT (R257). -/
def pairRaw (antiv a b : Bool) : Option Bool :=
  if antiv then (if a && !b then some true else if b && !a then some false else none)
  else if a && b then some true else if !a && !b then some false else none

/-- A pair fault is latched and recorded (R257, R271). -/
def State.pairFault (s : State) (c : Fin 2) (p : Fin 16) : State :=
  if ((s.svCh c).pair[p]).fault then s
  else
    let lv := (s.svCh c).levels
    (s.modSvCh c fun h => { h with pair := upd h.pair p fun q => { q with fault := true, clr := false, on := false } }).svRec c 0x004#12
      [nat32 p.val 0 ||| bitAt (bit lv (2 * p.val)) 4 ||| bitAt (bit lv (2 * p.val + 1)) 5]

/-- Channel `c` forms the state of a named pair at time `t` (R257, R277, R375). -/
def State.svPair (s : State) (c : Fin 2) (t : Nat) (p : Fin 16) : State :=
  match pairFn s p with
  | none => s
  | some f =>
    let lv := (s.svCh c).levels
    let raw := pairRaw f.antiv (bit lv (2 * p.val)) (bit lv (2 * p.val + 1))
    let rep := bit (s.sio.half[c]).report (2 * p.val) || bit (s.sio.half[c]).report (2 * p.val + 1)
    let q := (s.svCh c).pair[p]
    let since := if raw = none then some (q.since.getD t) else none
    let s1 := s.modSvCh c fun h => { h with pair := upd h.pair p fun q => { q with since := since } }
    let late := since.elim false fun t0 => decide (f.tDisc.toNat * msNs < t - t0)
    let s2 := if rep || late then s1.pairFault c p else s1
    s2.modSvCh c fun h => { h with
      pair := upd h.pair p fun q =>
        let clr := q.fault && !rep && (q.clr || decide (raw = some false))
        let fault := q.fault && !(clr && decide (raw = some true))
        { q with clr := clr && fault, fault := fault, on := decide (raw = some true) && !fault } }

/-- The pair counts as ON in channel `c`. -/
def pairOn (s : State) (c : Fin 2) (p : BitVec 4) : Bool := ((s.svCh c).pair[Fin.ofNat 16 p.toNat]).on

/-- The pair state of a function entry: a two-hand entry is ON when both its pairs are (R373). -/
def fnPairOn (s : State) (c : Fin 2) (i : Fin 32) : Bool :=
  let f := s.sv.cfgFn[i]
  pairOn s c f.pair0 && (decide (f.type ≠ 2#3) || pairOn s c f.pair1)

/-- A demand starts or ends (R258, R271). -/
def State.setDemand (s : State) (c : Fin 2) (i : Fin 32) (d : Bool) : State :=
  if ((s.svCh c).fn[i]).dem = d then s
  else
    (s.modSvCh c fun h => { h with fn := upd h.fn i fun e => { e with dem := d } }).svRec c 0x003#12
      [nat32 i.val 0 ||| at32 (s.sv.cfgFn[i]).cat 8 ||| bitAt d 12]

/-- The two-hand sequence (R259). -/
def SvFn.twoHand (e : SvFn) (a b : Bool) (t : Nat) : SvFn :=
  if e.en then (if a && b then e else { e with en := false, armed := !a && !b, first := none })
  else if !a && !b then { e with armed := true, first := none }
  else if a && b then
    { e with en := e.armed && e.first.elim true (fun t0 => decide (t - t0 ≤ 500 * msNs)), armed := false }
  else if e.armed && e.first.isNone then { e with first := some t } else e

/-- One function entry at time `t`: its new state, the demand, and whether a reset input was operated (R258, R259). -/
def fnStep (f : CfgFn) (e : SvFn) (on0 on1 : Bool) (t : Nat) (first : Bool) : SvFn × Bool × Bool :=
  if f.type = 4#3 then
    if on0 then ({ e with on := some (e.on.getD t) }, false, false)
    else ({ e with on := none }, false, e.on.elim false fun t0 => decide (100 * msNs ≤ t - t0) && decide (t - t0 ≤ 5000 * msNs))
  else if f.type = 2#3 then
    let e1 := e.twoHand on0 on1 t
    (e1, !e1.en, false)
  else if on0 then ({ e with off := none }, e.dem && !(f.auto && decide (f.type ≠ 0#3)), false)
  else if f.type = 3#3 then
    let t0 := e.off.getD t
    ({ e with off := some t0 }, e.dem || first || decide (msNs < t - t0), false)
  else (e, true, false)

/-- Channel `c` takes every function entry through one evaluation; resets act at the end (R258). -/
def State.svFunctions (s : State) (c : Fin 2) (t : Nat) : State :=
  let first := decide ((s.svCh c).evals ≤ 1)
  let res : List (Fin 32 × SvFn × Bool × Bool) := (svFns s).map fun i =>
    let f := s.sv.cfgFn[i]
    (i, fnStep f ((s.svCh c).fn[i]) (pairOn s c f.pair0) (pairOn s c f.pair1) t first)
  let s1 := s.forEach res fun s q =>
    let keep := ((s.svCh c).fn[q.1]).dem
    let s' := s.modSvCh c fun h => { h with fn := upd h.fn q.1 fun _ => { q.2.1 with dem := keep } }
    if (s.sv.cfgFn[q.1]).type = 4#3 then s' else s'.setDemand c q.1 q.2.2.1
  let ops : List (Fin 32) := (res.filter fun q => q.2.2.2).map fun q => q.1
  s1.forEach (svFns s1) fun s i =>
    let f := s.sv.cfgFn[i]
    if ops.any (fun o => decide (o.val = f.resetFn.toNat)) && (decide (f.type = 0#3) || decide (f.type = 1#3) || decide (f.type = 3#3)) &&
        pairOn s c f.pair0 then s.setDemand c i false else s

/-! ### Separation monitoring (R263 to R266) -/

/-- The maximum distance age, ns (R264). -/
def maxAge (s : State) : Nat :=
  3 * 1000 * ((s.sv.reed.drop 6).foldl (fun m w => if bit w 0 then max m (field w 12 20).toNat else m) 0)

/-- v_allow of channel A, in FP64 (R263). -/
def vAllowA (s : State) (g : CfgArm) (d age : Nat) : Nat :=
  let i (n : Nat) : W64 := fofInt (Int.ofNat n)
  let tr := fadd (fdiv (i s.sv.tR0.toNat) (i 1000000)) (fdiv (i age) (i 1000000000))
  let k0 := fadd (fmul (i s.sv.vH.toNat) (fadd tr (fdiv (i g.tS0.toNat) (i 1000000)))) (i (g.c.toNat + g.zd.toNat + g.zr.toNat))
  let a := i (max 1 g.aStop.toNat)
  if fle (i d) k0 then 0
  else
    let b := fadd (fdiv (i s.sv.vH.toNat) a) tr
    ffloor (fmul a (fsub (fsqrt (fadd (fmul b b) (fdiv (fmul (i 2) (fsub (i d) k0)) a))) b))

/-- v_allow of channel B, in integers with times in µs (R263). -/
def vAllowB (s : State) (g : CfgArm) (d age : Nat) : Nat :=
  let tr := s.sv.tR0.toNat + age / 1000
  let k0 := s.sv.vH.toNat * (tr + g.tS0.toNat) + (g.c.toNat + g.zd.toNat + g.zr.toNat) * 1000000
  let a := max 1 g.aStop.toNat
  if d * 1000000 ≤ k0 then 0
  else
    let ab := s.sv.vH.toNat * 1000000 + a * tr
    (Nat.sqrt (ab * ab + 2 * a * (d * 1000000 - k0) * 1000000) - ab) / 1000000

/-- Channel `c` judges the age of its entry (R263, R264, R266). -/
def State.svAge (s : State) (c : Fin 2) (t : Nat) : State :=
  let h := s.svCh c
  let age := h.entry.map fun e => t - entryTime e
  let stale := age.elim true (fun a => decide (maxAge s < a)) || decide (maxAge s < t - h.lastCommon)
  let s1 := s.modSvCh c fun h => { h with age := age, stale := stale }
  if stale && !h.stale && ((fins 8).any fun r => (s.sv.cfgArm[r]).use && (s.sv.cfgArm[r]).ssm) then
    s1.svRec c 0x00B#12 [BitVec.ofNat 32 (age.elim 0xFFFFFFFF fun a => min 0xFFFFFFFF (a / 1000))]
  else s1

/-- Channel `c` computes the scale of arm `r` in a pick and checks compliance (R263 to R265). -/
def State.svSsm (s : State) (c : Fin 2) (t : Nat) (r : Fin 8) : State :=
  let g := s.sv.cfgArm[r]
  let h := s.svCh c
  let d := match h.entry with
    | none => 0
    | some e => if (List.range 16).any fun i => entryBit e 76 (16 * r.val + i) && entryBit e 80 (16 * r.val + i) then 0 else entryArmMin e r.val
  let dw := BitVec.ofNat 16 d
  if !g.ssm then s.modSvCh c fun h => { h with arm := upd h.arm r fun m => { m with d := dw, scale := 32768#16, scaleViol := false, hist := [] } }
  else
    let va := if h.stale then 0 else if c = 0 then vAllowA s g d (h.age.getD 0) else vAllowB s g d (h.age.getD 0)
    let sc := min 32768 (32768 * va / max 1 g.vref.toNat)
    let hist := ((t, va) :: (h.arm[r]).hist).filter fun q => decide (t - q.1 ≤ g.tScale.toNat * msNs)
    let lim := hist.foldl (fun m q => max m q.2) 0 + g.vTol.toNat
    let viol := decide (lim * 4294967296 < (h.arm[r]).vm)
    let s1 := s.modSvCh c fun h => { h with
      arm := upd h.arm r fun m => { m with d := dw, scale := BitVec.ofNat 16 sc, scaleViol := viol, hist := hist } }
    if viol && !(h.arm[r]).scaleViol then
      s1.svRec c 0x009#12 [nat32 r.val 0, nat32 (min 0xFFFF ((h.arm[r]).vm / 4294967296)) 0 ||| nat32 (min 0xFFFF lim) 16]
    else s1

/-- The arms in use. -/
def svArms (s : State) : List (Fin 8) := (fins 8).filter fun r => (s.sv.cfgArm[r]).use

/-- Channel `c` takes its inputs and judges what follows from them alone (R248). -/
def State.svLocal (s : State) (c : Fin 2) (t : Nat) : State :=
  let e := newestEntry s c
  let lv := sioTaken s c
  let s1 := s.modSvCh c fun h => { h with evals := h.evals + 1, levels := lv, entry := e }
  let s2 := s1.forEach (svArms s1) fun s r => s.svJoints c r
  let s3 := (s2.forEach (fins 16) fun s p => s.svPair c t p).svFunctions c t
  if s3.tb.running then (s3.svAge c t).forEach (svArms s3) fun s r => s.svSsm c t r else s3

/-- Channel `c` compares the joint positions with its partner's (R262). -/
def State.svPositions (s : State) (c : Fin 2) : State :=
  s.forEach (svArms s) fun s r =>
    let js := armJoints s r
    let s1 := s.forEach js fun s a =>
      let d := (s.svCh c).pos[a] - (s.svCh (otherCh c)).pos[a]
      let n := if decide ((s.sv.cfgJoint[a]).posTol.toNat * 65536 < d.natAbs) then (s.svCh c).posBad[a] + 1 else 0
      let s' := s.modSvCh c fun h => { h with posBad := upd h.posBad a fun _ => n }
      if n = 2 then s'.svRec c 0x008#12 [nat32 a.val 0] else s'
    s1.modSvCh c fun h => { h with arm := upd h.arm r fun m => { m with posFault := js.any fun a => decide (2 ≤ h.posBad[a]) } }

/-- Channel `c` compares the distances of a common cycle with its partner's (R242, R266). -/
def State.svDistances (s : State) (c : Fin 2) (t : Nat) : State :=
  match (s.svCh c).entry, (s.svCh (otherCh c)).entry with
  | some e, some o =>
    if (entryKey e).2 ≠ (entryKey o).2 then s
    else
      let s1 := s.modSvCh c fun h => { h with lastCommon := t }
      if (s.svCh c).cmpCycle = some (entryKey e).2 then s1
      else
        let ea := if c = 0 then e else o
        let eb := if c = 0 then o else e
        let bad : List (Fin 128) := (fins 128).filter fun i =>
          entryBit ea 76 i.val && entryBit eb 76 i.val && !entryBit ea 80 i.val && !entryBit eb 80 i.val &&
          distDisagree (entryDist ea i.val) (entryDist eb i.val) (entryBit ea 84 i.val) (entryTag e)
        let s2 := (s1.modSvCh c fun h => { h with cmpCycle := some (entryKey e).2 }).forEach bad fun s i =>
          let s' := if c = 0 then s.modSv fun v => { v with disCnt := satInc v.disCnt } else s
          s'.svRec c 0x00A#12 [nat32 i.val 0, nat32 (entryDist e i.val) 0 ||| nat32 (entryDist o i.val) 16]
        s2.forEach ((svArms s2).filter fun r => (s.sv.cfgArm[r]).ssm) fun s r =>
          let hit := bad.any fun i => decide (i.val / 16 = r.val)
          s.modSvCh c fun h => { h with
            arm := upd h.arm r fun m => if hit then { m with ssmFault := true, streak := 0 } else { m with streak := m.streak + 1 } }
  | _, _ => s

/-! ### Stops (R260) -/

/-- A stop at time `t`: `base` is the lowest of the category 1 and 2 demands present (3 none), `zero` says that a category 0
demand is present, `joints` are the positions of the joints and `tol` says that one of them has left its tolerance. Returns the
stop, and whether it escalated by time (1) or by drift (2, with the joint). -/
def SvStop.next (m : SvStop) (base : Nat) (zero stand : Bool) (t tMax : Nat) (joints : List (Nat × Int)) (tol : Nat → Nat) :
    SvStop × Option (Option Nat) :=
  if 3 ≤ base then ({ cat := if zero then 0 else 3 }, none)
  else
    let since := m.since.getD t
    let reached := m.reached || stand
    let hold := if base = 2 && reached && m.hold.isEmpty then joints else m.hold
    let late := !reached && decide (tMax ≤ t - since)
    let drift := if base = 2 && reached then
        (hold.find? fun q => (joints.find? fun j => decide (j.1 = q.1)).elim false fun j => decide (tol q.1 < (j.2 - q.2).natAbs))
      else none
    let esc := m.esc || late || drift.isSome
    ({ since := some since, reached := reached, hold := hold, esc := esc, cat := if zero || esc then 0 else base },
      if m.esc then none else if late then some none else drift.map fun q => some q.1)

/-- The lowest category 1 or 2 demand, 3 for none, and whether one of category 0 is present, among the entries `sel` (R260). -/
def svDemand (s : State) (c : Fin 2) (sel : CfgFn → Bool) : Nat × Bool :=
  (svFns s).foldl (fun m i =>
    let f := s.sv.cfgFn[i]
    if ((s.svCh c).fn[i]).dem && sel f then (if f.cat = 0#2 then (m.1, true) else (min m.1 f.cat.toNat, m.2)) else m) (3, false)

/-- Channel `c` decides the stop of arm `r` (R260, R262, R265, R266). -/
def State.svArmStop (s : State) (c : Fin 2) (t : Nat) (r : Fin 8) : State :=
  let g := s.sv.cfgArm[r]
  let m := (s.svCh c).arm[r]
  let d := svDemand s c fun f => bit f.arms r.val
  let base := if m.ssmFault then min d.1 1 else d.1
  let js : List (Nat × Int) := (armJoints s r).map fun a => (a.val, (s.svCh c).pos[a])
  let n := m.stop.next base (d.2 || m.fault0 || m.posFault || m.scaleViol) m.stand t (g.tStop.toNat * msNs) js
    fun a => (s.sv.cfgJoint[Fin.ofNat 64 a]).sosTol.toNat * 65536
  let s1 := s.modSvCh c fun h => { h with arm := upd h.arm r fun m => { m with stop := n.1 } }
  match n.2 with
  | none => s1
  | some none => s1.svRec c 0x005#12 [nat32 r.val 0]
  | some (some a) => s1.svRec c 0x006#12 [nat32 a 0]

/-- An auxiliary axis is at standstill (R260). -/
def auxStand (s : State) (j : Fin 16) : Bool :=
  let a : Fin 80 := Fin.ofNat 80 (64 + j.val)
  let x := s.sl.ax[a]
  if x.fbEn then decide (x.conn.state = .running) && decide (x.lat.sspeed = 0)
  else !(s.slice a).src && (s.ch (Fin.ofNat 96 (s.slice a).ch.toNat)).latch.standstill

/-- Channel `c` decides the stop of auxiliary axis 64 + j (R260, R304). -/
def State.svAuxStop (s : State) (c : Fin 2) (t : Nat) (j : Fin 16) : State :=
  let x := s.sl.ax[Fin.ofNat 80 (64 + j.val)]
  let m := (s.svCh c).aux[j]
  let d := svDemand s c fun f => bit f.aux j.val
  let zero := d.2 || (x.fbEn && (decide (x.conn.state ≠ .running) || x.lat.drvFault))
  let n := m.next d.1 zero (auxStand s j) t (100 * msNs) [] fun _ => 0
  let s1 := s.modSvCh c fun h => { h with aux := upd h.aux j fun _ => n.1 }
  match n.2 with
  | none => s1
  | some _ => s1.svRec c 0x005#12 [nat32 (64 + j.val) 16 ||| bitAt true 23]

/-- Channel `c` decides every stop. -/
def State.svStops (s : State) (c : Fin 2) (t : Nat) : State :=
  (s.forEach (svArms s) fun s r => s.svArmStop c t r).forEach (fins 16) fun s j => s.svAuxStop c t j

/-! ### SAFE.RESET (R270) -/

/-- How channel `c` judges a target: status, flags, and whether demands end. -/
def resetJudge (s : State) (c : Fin 2) (t : BitVec 8) : Status × BitVec 8 × Bool :=
  if t = 0xF0#8 then
    let l : List (Fin 8) := (fins 8).filter fun r => ((s.svCh c).arm[r]).ssmFault
    if l.isEmpty then (.ok, flagNoEffect, false)
    else if l.any fun r => decide (((s.svCh c).arm[r]).streak < 3) then (.safetyDenied, 0#8, false)
    else (.ok, 0#8, true)
  else if s.sv.nfunc ≤ t.toNat then (.range, 0#8, false)
  else
    let i : Fin 32 := Fin.ofNat 32 t.toNat
    let f := s.sv.cfgFn[i]
    if f.type = 0#3 || f.type = 2#3 || f.type = 4#3 || !f.hostrst || !pairOn s c f.pair0 then (.safetyDenied, 0#8, false)
    else if ((s.svCh c).fn[i]).dem then (.ok, 0#8, true) else (.ok, flagNoEffect, false)

/-- Channel `c` ends the demands of an accepted target. -/
def State.resetDo (s : State) (c : Fin 2) (t : BitVec 8) : State :=
  let s1 :=
    if t = 0xF0#8 then s.modSvCh c fun h => { h with arm := h.arm.map fun m => { m with ssmFault := false } }
    else s.setDemand c (Fin.ofNat 32 t.toNat) false
  s1.svRec c 0x00D#12 [at32 t 0]

/-- Every SAFE.RESET waiting is decided: both channels must accept it (R270). -/
def State.svResets (s : State) : State :=
  let both := decide ((s.svCh 0).state = .sealed) && decide ((s.svCh 1).state = .sealed)
  ({ s with sv.resets := [] }).forEach s.sv.resets fun s q =>
    if !both then s.opDone q.1 q.2.1 .safetyDenied 0#8 none
    else
      let a := resetJudge s 0 q.2.2
      if a ≠ resetJudge s 1 q.2.2 then s.opDone q.1 q.2.1 .safetyDenied 0#8 none
      else (if a.2.2 then (s.resetDo 0 q.2.2).resetDo 1 q.2.2 else s).opDone q.1 q.2.1 a.1 a.2.1 none

/-! ### OSSD enables (R261, R282, R283, R374) -/

/-- The OSSDs that a demand present in channel `c` names (R258). -/
def ossdDemand (s : State) (c : Fin 2) : BitVec 8 :=
  (svFns s).foldl (fun m i => if ((s.svCh c).fn[i]).dem then m ||| (s.sv.cfgFn[i]).ossd else m) 0#8

/-- The OSSDs that a function entry names whose pair is not ON at the partner device (R374). -/
def ossdPartner (s : State) : BitVec 8 :=
  match partnerSafe s with
  | none => 0#8
  | some p => (svFns s).foldl (fun m i =>
      if (s.sv.cfgFn[i]).type ≠ 4#3 && !bit p.pairs i.val then m ||| (s.sv.cfgFn[i]).ossd else m) 0#8

/-- Channel `c` would close its switch of OSSD `n` (R261). -/
def ossdClose (s : State) (c : Fin 2) (n : Nat) : Bool :=
  decide ((s.svCh c).state = .sealed) && decide (s.pw.state = .run) && !(s.sio.half[c]).ioLow && !(s.sio.half[c]).coreLow &&
  !bit (ossdDemand s c ||| ossdPartner s) n

/-- Every OSSD follows the enables: the switch-on sequence starts, or switches open (R282, R283). -/
def State.ossdUpdate (s : State) : State :=
  s.modSio fun q => { q with
    ossd := Vector.ofFn fun n =>
      let o := q.ossd[n]
      let a := ossdClose s 0 n.val
      let b := ossdClose s 1 n.val
      if o.fault then o
      else if a && b then
        (if o.phase = .opened then Ossd.settle { o with phase := .high, high := true, low := false, changed := s.now } else o)
      else
        let o1 := if a then o else o.openOne 0 s.now
        if b then o1 else o1.openOne 1 s.now }

/-- An OSSD conducts: both switches are closed from step 3 of R282 on (R261). -/
def Ossd.conducts (o : Ossd) : Bool := (decide (o.phase = .low) || decide (o.phase = .on)) && o.high && o.low

/-! ### The pair (R373, R375) -/

/-- The safety record of the pick (R373): channel states, categories, scales, pair states and OSSD switches. Each channel adds its own
CRC. -/
def safetyRecord (s : State) : PairSafe :=
  { pick := s.tb.pickNum, a := (s.svCh 0).state, b := (s.svCh 1).state
    cat := ((fins 8).map fun r => min ((s.svCh 0).armCat r) ((s.svCh 1).armCat r)) ++
      (fins 16).map fun j => min ((s.svCh 0).auxCat j) ((s.svCh 1).auxCat j)
    scale := (fins 8).map fun r => if (svScale s 0 r).toNat ≤ (svScale s 1 r).toNat then svScale s 0 r else svScale s 1 r
    pairs := (svFns s).foldl (fun w i => putBit w i.val (fnPairOn s 0 i && fnPairOn s 1 i)) 0#32
    closed := (fins 8).foldl (fun w n => putBit w n.val ((s.sio.ossd[n]).high && (s.sio.ossd[n]).low)) 0#8
    inSeq := (fins 8).foldl (fun w n =>
      putBit w n.val (decide ((s.sio.ossd[n]).phase = .high) || decide ((s.sio.ossd[n]).phase = .low))) 0#8 }

/-- The safety record of the present pick is sent (R373). -/
def State.sendSafety (s : State) : State :=
  if paired s && s.tb.running && pairSends s then
    { s with out := .pairSafe (safetyRecord s) :: s.out, pr.seqTx := s.pr.seqTx + 1#32 }
  else s

/-- The pair states of the two devices are compared; a difference longer than T_DISC latches the pair fault (R375). -/
def State.svForeign (s : State) (t : Nat) : State :=
  match partnerSafe s with
  | none => s
  | some p => s.forEach (fins 2) fun s c => s.forEach (svFns s) fun s i =>
      let f := s.sv.cfgFn[i]
      let q : Fin 16 := Fin.ofNat 16 f.pair0.toNat
      let since := if fnPairOn s c i = bit p.pairs i.val then none else some ((((s.svCh c).pair[q]).foreign).getD t)
      let s1 := s.modSvCh c fun h => { h with pair := upd h.pair q fun x => { x with foreign := since } }
      if since.elim false fun t0 => decide (f.tDisc.toNat * msNs < t - t0) then s1.pairFault c q else s1

/-! ### The evaluation (R248) -/

/-- The configuration check: the Reed LK registers and the debounced SEAL reading against the sealed image (R256). -/
def configBad (s : State) (c : Fin 2) : Bool :=
  decide (reedWords s ≠ s.sv.reed) || (s.sio.half[c]).sealRd.elim false fun v => decide (v ≠ s.sv.sealWord)

/-- SELVEDGE_EVALUATION (R248): both channels that are SEALED evaluate once. -/
def execSelvedgeEvaluation (s : State) : Res :=
  if !(s.domain 1).up || !(s.domain 2).up then .next s
  else
    let t := evalTime s
    let on (s : State) : List (Fin 2) := (fins 2).filter fun c => decide ((s.svCh c).state = .sealed)
    let s1 := s.forEach (on s) fun s c => if configBad s c then s.svFault c 7 else s
    let s2 := s1.forEach (on s1) fun s c => s.svLocal c t
    let s3 := if (on s2).length = 2 then (s2.forEach (fins 2) fun s c => (s.svPositions c).svDistances c t) else s2
    let s4 := ((s3.svForeign t).svResets).forEach (on s3) fun s c => s.svStops c t
    let s5 := s4.svPublish.ossdUpdate
    .next (svWatch s s5.sendSafety)

end Sys2Proof.Machine
end

