-- ==== Sys2Proof/Machine/Selvedge.lean ====
section
/-! DEFINITION. The events of the safety island between evaluations: the exchange message, the monitors of the channels and the
timeouts of pairs, light curtains and stops (R249, R257, R258, R260, R267, R455). -/
namespace Sys2Proof.Machine

/-- The pins of the pairs that the sealed image names (R272). -/
def namedPins (s : State) : BitVec 32 :=
  (fins 16).foldl (fun m p => if (pairFn s p).isSome then m ||| (3#32 <<< (2 * p.val)) else m) 0#32

/-- The demands of a channel's function entries, one bit each (SV_FUNC). -/
def demandBits (s : State) (c : Fin 2) : BitVec 32 := (svFns s).foldl (fun w i => putBit w i.val ((s.svCh c).fn[i]).dem) 0#32

/-- The levels or the demands of the two channels differ (R249, R281). -/
def channelsDiffer (s : State) : Bool :=
  decide (((s.svCh 0).levels ^^^ (s.svCh 1).levels) &&& namedPins s ≠ 0#32) || decide (demandBits s 0 ≠ demandBits s 1) ||
  s.sio.ossd.toList.any fun o => (o.p[0] != o.p[1]) || (o.n[0] != o.n[1])

/-- Both channels declare a fault of the cross link (R249). -/
def State.crossFault (s : State) (c : Fin 2) (diag : Nat) : State := (s.svFault c diag).svFault (otherCh c) diag

/-- CROSS_LINK_MESSAGE (R249, R267): a SEALED channel takes the partner's message of the last evaluation, or misses it. -/
def execCrossLinkMessage (c : Fin 2) (m : XMsg) (s : State) : Res :=
  if (s.svCh c).state ≠ .sealed || !(s.domain (chDomain c)).up then .next s
  else match m with
    | .missing => .next (s.crossFault c 3)
    | .clockOff => .next (s.crossFault c 4)
    | .badCrc =>
      if (s.svCh c).badCrc = 0 then .next (s.modSvCh c fun h => { h with badCrc := 1 }) else .next (s.crossFault c 3)
    | .ok =>
      if (s.svCh (otherCh c)).forced then .next (s.crossFault c 3)
      else
        let d := if channelsDiffer s then (s.svCh c).differ + 1 else 0
        let s1 := s.modSvCh c fun h => { h with badCrc := 0, differ := d }
        .next (if 2 ≤ d then s1.crossFault c 3 else s1)

/-- LOCKSTEP_MISMATCH (R267): the lockstep comparator of channel A, or the checker of channel B, finds a difference. -/
def execLockstepMismatch (c : Fin 2) (s : State) : Res :=
  if (s.domain (chDomain c)).up then .next (s.svFault c (1 + c.val)) else .next s

/-- SUPPLY_MONITOR_TRIP (R267, R455): the core supply of a channel, or with `io` its I/O supply, lies outside its trip limits. -/
def execSupplyMonitorTrip (c : Fin 2) (io : Bool) (s : State) : Res :=
  if (s.domain (chDomain c)).up then
    let s1 := if io then (s.modSio fun q => { q with half := upd q.half c fun h => { h with ioLow := true } }).ossdOpenCh c else s
    .next (s1.svFault c 5)
  else .next s

/-- What a change between evaluations brings about: the stops of channel `c` are decided again and passed on. -/
def State.svAgain (s : State) (c : Fin 2) (t : Nat) : State := (s.svStops c t).svPublish.ossdUpdate

/-- PAIR_DISCREPANCY_TIMEOUT (R257): a pair has been DISCREPANT for longer than T_DISC. -/
def execPairDiscrepancyTimeout (c : Fin 2) (p : Fin 16) (s : State) : Res :=
  match pairFn s p, ((s.svCh c).pair[p]).since with
  | some f, some t0 =>
    if (s.svCh c).state = .sealed && !((s.svCh c).pair[p]).fault then
      .next ((s.reach (t0 + f.tDisc.toNat * msNs)).pairFault c p)
    else .next s
  | _, _ => .next s

/-- LIGHT_CURTAIN_TIMEOUT (R258): a light curtain pair has not been ON for more than 1 ms. -/
def execLightCurtainTimeout (c : Fin 2) (i : Fin 32) (s : State) : Res :=
  match ((s.svCh c).fn[i]).off with
  | some t0 =>
    if (s.svCh c).state = .sealed && decide (i.val < s.sv.nfunc) && decide ((s.sv.cfgFn[i]).type = 3#3) && !((s.svCh c).fn[i]).dem then
      let s1 := (s.reach (t0 + msNs)).setDemand c i true
      .next (s1.svAgain c s1.now)
    else .next s
  | none => .next s

/-- STOP_TIMEOUT (R260): a category 1 or 2 stop of arm `target` (0 to 7) or auxiliary axis `target` (64 to 79) is not at standstill at
its time limit. -/
def execStopTimeout (c : Fin 2) (target : Nat) (s : State) : Res :=
  let m : Option (SvStop × Nat) :=
    if h : target < 8 then some (((s.svCh c).arm[target]).stop, (s.sv.cfgArm[target]).tStop.toNat * msNs)
    else if h : 64 ≤ target ∧ target < 80 then some ((s.svCh c).aux[target - 64]'(by omega), 100 * msNs)
    else none
  match m with
  | none => .next s
  | some (m, lim) =>
    match m.since with
    | none => .next s
    | some t0 =>
      if (s.svCh c).state = .sealed && !m.reached && !m.esc then
        let s1 := s.reach (t0 + lim)
        let t := max s1.now (t0 + lim)
        let s2 := if target < 8 then s1.svArmStop c t (Fin.ofNat 8 target) else s1.svAuxStop c t (Fin.ofNat 16 (target - 64))
        .next s2.svPublish.ossdUpdate
      else .next s

end Sys2Proof.Machine
end

