-- ==== Sys2Proof/Machine/SafetyIo.lean ====
section
/-! DEFINITION. The safety I/O block: pins and their filtered levels, test pulses, OSSD sequences, static checks and dark tests, SEAL
readings (R272 to R291). -/
namespace Sys2Proof.Machine

/-- Half `h` of the block changed. -/
def State.modHalf (s : State) (h : Fin 2) (g : SioHalf → SioHalf) : State := s.modSio fun q => { q with half := upd q.half h g }

/-- A half delivers a record of SRC 16; bit 31 of word 3 names the half (R291). -/
def State.sioRec (s : State) (h : Fin 2) (code : BitVec 12) (w : BitVec 32) : State :=
  s.emitSafe (decide (h = 1)) 16 code [w ||| bitAt (decide (h = 1)) 31]

/-! ### Levels -/

/-- SAFETY_INPUT_LEVEL_CHANGE (R272): three equal samples give a pin a new filtered level in one half. -/
def execSafetyInputLevelChange (half : Fin 2) (pin : Fin 32) (level : Bool) (s : State) : Res :=
  if (s.domain (chDomain half)).up then .next (s.modHalf half fun h => { h with level := putBit h.level pin.val level })
  else .next s

/-! ### Test pulses (R274 to R278) -/

/-- The half that drives TPn: even numbers channel A, odd numbers channel B (R274). -/
def tpHalf (n : Fin 8) : Fin 2 := if n.val % 2 = 0 then 0 else 1

/-- The pins fed from the rail of TPn (R274). -/
def railPins (n : Fin 8) : BitVec 32 := 0x01010101#32 <<< n.val

/-- The pulsed pins (R273). -/
def pulsedPins (s : State) : BitVec 32 := (List.range 32).foldl (fun w i => putBit w i (pinPulsed s i)) 0#32

/-- TEST_PULSE_START (R274, R275): TPn switches its rail off; the pins fed from it hold their levels. `a` and `b` are the last samples
that the two halves took before the pulse. -/
def execTestPulseStart (n : Fin 8) (a b : BitVec 32) (s : State) : Res :=
  let d := tpHalf n
  let st := (s.svCh d).state
  if !(s.domain (chDomain d)).up || st = .off || st = .fault || st = .safeHold || (s.sio.half[d]).ioLow || (s.sio.half[d]).coreLow ||
      bit s.sio.holding n.val then .next s
  else
    let start (x : BitVec 32) (h : SioHalf) : SioHalf :=
      { h with held := (h.held &&& ~~~(railPins n)) ||| (h.level &&& railPins n), pre := x, low := 0#32 }
    .next (((s.modHalf 0 (start a)).modHalf 1 (start b)).modSio fun q =>
      { q with pulsing := setBit q.pulsing n.val, holding := setBit q.holding n.val })

/-- A pin is reported with a test-pulse fault; the tests passed before count no more (R277). -/
def SioHalf.reportPin (h : SioHalf) (i : Nat) : SioHalf :=
  { h with report := setBit h.report i, passed := h.passed.map fun w => clearBit w i, passed2 := h.passed2.map fun w => clearBit w i }

/-- One test of pin `i` in a pulse of TPn: the second failure in a row reports it, two passes in a row of every test end the report
(R277). -/
def SioHalf.test (h : SioHalf) (n : Fin 8) (i : Nat) (fail : Bool) : SioHalf :=
  let again := fail && bit (h.failed[n]) i
  let h1 := { h with
    failed := upd h.failed n fun w => putBit w i fail
    passed2 := upd h.passed2 n fun w => putBit w i (!fail && bit (h.passed[n]) i)
    passed := upd h.passed n fun w => putBit w i (!fail) }
  if again then h1.reportPin i
  else if h1.passed2.toList.all fun w => bit w i then { h1 with report := clearBit h1.report i } else h1

/-- A test of pin `i` by half `c`, with its TP_FAIL record when the pin is newly reported (R277, R291). -/
def State.tpTest (s : State) (c : Fin 2) (n : Fin 8) (kind : Bool) (i : Nat) (fail : Bool) : State :=
  let s1 := s.modHalf c fun h => h.test n i fail
  if bit (s1.sio.half[c]).report i && !bit (s.sio.half[c]).report i then
    s1.sioRec c 0x001#12 (nat32 i 0 ||| nat32 n.val 8 ||| bitAt kind 12)
  else s1

/-- A rail in fault: the half that drives it records it, and its pulsed pins are reported at once (R278). -/
def State.railFault (s : State) (n : Fin 8) (stuckOn : Bool) : State :=
  let s1 := s.sioRec (tpHalf n) 0x002#12 (nat32 n.val 0 ||| bitAt stuckOn 4)
  let pins : List Nat := (List.range 32).filter fun i => bit (railPins n &&& pulsedPins s) i
  s1.forEach (fins 2) fun s c => s.forEach pins fun s i => s.modHalf c fun h => h.reportPin i

/-- TEST_PULSE_SAMPLE (R276, R278): at the sample point of TPn's pulse both halves judge the pins, and the rails are read back at
TPS0 to TPS7. -/
def execTestPulseSample (n : Fin 8) (a b : BitVec 32) (tps : BitVec 8) (s : State) : Res :=
  if !bit s.sio.pulsing n.val then .next s
  else
    let pins := pulsedPins s
    let own := pins &&& railPins n
    let s1 := s.forEach (fins 2) fun s c =>
      let x := if c = 0 then a else b
      let s' := s.forEach ((List.range 32).filter fun i => bit own i) fun s i => s.tpTest c n false i (bit x i)
      s'.modHalf c fun h => { h with low := h.pre &&& ~~~x &&& pins &&& ~~~(railPins n) }
    let off : BitVec 8 := (~~~tps) &&& ~~~s1.sio.pulsing
    let newOff := off &&& ~~~s1.sio.stuckOff
    let newOn := bit tps n.val && !bit s1.sio.stuckOn n.val
    let s2 := s1.modSio fun q =>
      { q with stuckOff := off ||| (q.stuckOff &&& q.pulsing), stuckOn := putBit q.stuckOn n.val (bit tps n.val) }
    let s3 := s2.forEach ((fins 8).filter fun m => bit newOff m.val) fun s m => s.railFault m false
    .next (if newOn then s3.railFault n true else s3)

/-- TEST_PULSE_END (R274): the rail is energised again; the levels stay held. -/
def execTestPulseEnd (n : Fin 8) (s : State) : Res := .next (s.modSio fun q => { q with pulsing := clearBit q.pulsing n.val })

/-- PULSE_HOLD_END (R275, R276): the held levels are released, and the pins of other rails that followed the pulse are judged by the
first samples `a` and `b` after it. -/
def execPulseHoldEnd (n : Fin 8) (a b : BitVec 32) (s : State) : Res :=
  if !bit s.sio.holding n.val || bit s.sio.pulsing n.val then .next s
  else
    let pins : List Nat := (List.range 32).filter fun i => bit (pulsedPins s &&& ~~~(railPins n)) i
    let s1 := s.forEach (fins 2) fun s c =>
      let x := if c = 0 then a else b
      s.forEach pins fun s i => s.tpTest c n true i (bit (s.sio.half[c]).low i && bit x i)
    .next (s1.modSio fun q => { q with holding := clearBit q.holding n.val })

/-! ### OSSD channels (R281 to R286) -/

/-- OSSD `n` changed. -/
def State.modOssd (s : State) (n : Fin 8) (g : Ossd → Ossd) : State := s.modSio fun q => { q with ossd := upd q.ossd n g }

/-- An OSSD fault with its cause, found by some halves: both switches open at once, records, and a device fault (R282, R286). -/
def State.ossdFault (s : State) (n : Fin 8) (cause : Nat) (halves : List (Fin 2)) : State :=
  let o := s.sio.ossd[n]
  let s1 := s.modOssd n fun o => { o.openBoth s.now with fault := true, p := o.p, n := o.n }
  (s1.forEach halves fun s h =>
    s.sioRec h 0x003#12 (nat32 n.val 0 ||| nat32 cause 8 ||| bitAt (o.p[h]) 12 ||| bitAt (o.n[h]) 13)).ossdDeviceFault

/-- The halves that read anything: those with their I/O supply (R455). -/
def liveHalves (s : State) : List (Fin 2) := (fins 2).filter fun h => !(s.sio.half[h]).ioLow

/-- OSSD_HIGH_SIDE_CHECK (R282): 100 µs after the high side has closed both halves require OSSD_P and OSSD_N to read high; then the
low side closes, which counts as a switch-on (R432). -/
def execOssdHighSideCheck (n : Fin 8) (p q : Vector Bool 2) (s : State) : Res :=
  let o := s.sio.ossd[n]
  if o.phase ≠ .high then .next s
  else
    let s1 := (s.reach (o.changed + 100000)).modOssd n fun o => { o with p := p, n := q }
    let bad : List (Fin 2) := (liveHalves s).filter fun h => !p[h] || !q[h]
    if bad.isEmpty then
      let s2 := s1.modOssd n fun o => Ossd.settle { o with phase := .low, low := true, changed := s1.now }
      .next { s2 with hw.cnt := updN s2.hw.cnt (n.val + 1) satInc }
    else .next (s1.ossdFault n 0 bad)

/-- OSSD_LOW_SIDE_CHECK (R282): a further 100 µs later both halves require OSSD_N to read low. -/
def execOssdLowSideCheck (n : Fin 8) (p q : Vector Bool 2) (s : State) : Res :=
  let o := s.sio.ossd[n]
  if o.phase ≠ .low then .next s
  else
    let s1 := (s.reach (o.changed + 100000)).modOssd n fun o => { o with p := p, n := q }
    let bad : List (Fin 2) := (liveHalves s).filter fun h => q[h]
    if bad.isEmpty then .next (s1.modOssd n fun o => Ossd.settle { o with phase := .on }) else .next (s1.ossdFault n 0 bad)

/-- The levels of an OSSD differ from the row of R281 for the commanded state; the check of OSSD_N is suspended while the own chain is
open and the partner device switches on (R284, R376). -/
def ossdMismatch (s : State) (n : Fin 8) (p q : Bool) : Bool :=
  let o := s.sio.ossd[n]
  let susp := !o.high && (partnerSafe s).elim false fun r => bit r.inSeq n.val
  (p != o.high) || (!susp && (q != (o.high && !o.low)))

/-- OSSD_MISMATCH_FAULT (R284): outside sequences and dark tests, a mismatch has persisted for 1 ms after the last commanded change, or
in three samples after it. -/
def execOssdMismatchFault (n : Fin 8) (half : Fin 2) (p q : Bool) (s : State) : Res :=
  let o := s.sio.ossd[n]
  if o.fault || o.phase = .high || o.phase = .low || o.dark.isSome || (s.sio.half[half]).ioLow || !(s.domain (chDomain half)).up ||
      !ossdMismatch s n p q then .next s
  else
    .next (((s.reach (o.changed + msNs)).modOssd n fun o => { o with p := o.p.set half.val p, n := o.n.set half.val q }).ossdFault n 1 [half])

/-- DARK_TEST_START (R285): a half opens its own switch of a conducting OSSD. -/
def execDarkTestStart (n : Fin 8) (half : Fin 2) (s : State) : Res :=
  let o := s.sio.ossd[n]
  if o.phase ≠ .on || o.dark.isSome || o.fault || (s.svCh half).state ≠ .sealed then .next s
  else .next (s.modOssd n fun o =>
    if half = 0 then { o with high := false, dark := some false } else { o with low := false, dark := some true })

/-- DARK_TEST_PASS (R285): the terminal reads as the open switch makes it, and the switch is closed again. -/
def execDarkTestPass (n : Fin 8) (half : Fin 2) (p q : Bool) (s : State) : Res :=
  let o := s.sio.ossd[n]
  if o.dark ≠ some (decide (half = 1)) then .next s
  else if half = 0 then
    (if p then .next s
    else .next ((s.modOssd n fun o => { o with high := true, dark := none }).modSio fun q => { q with darkHigh := satInc q.darkHigh }))
  else if q then
    .next ((s.modOssd n fun o => { o with low := true, dark := none }).modSio fun q => { q with darkLow := satInc q.darkLow })
  else .next s

/-- DARK_TEST_TIMEOUT (R285): a dark test that has not passed within 300 µs is an OSSD fault. -/
def execDarkTestTimeout (n : Fin 8) (half : Fin 2) (p q : Bool) (s : State) : Res :=
  let o := s.sio.ossd[n]
  if o.dark ≠ some (decide (half = 1)) then .next s
  else
    .next ((s.modOssd n fun o => { o with p := o.p.set half.val p, n := o.n.set half.val q }).ossdFault n (2 + half.val) [half])

/-! ### SEAL (R287 to R289) -/

/-- SEAL_DEBOUNCE_CHANGE (R288, R289): eight equal reads give a half a new debounced reading. -/
def execSealDebounceChange (half : Fin 2) (v : BitVec 24) (s : State) : Res :=
  if !(s.domain (chDomain half)).up || (s.sio.half[half]).sealRd = some v then .next s
  else .next ((s.modHalf half fun h => { h with sealRd := some v }).sioRec half 0x004#12 (at32 v 0))

/-- SEAL_UNSTABLE_TIMEOUT (R288): no debounced reading within 100 ms after reset, or 100 ms in SEALED without eight equal reads. -/
def execSealUnstableTimeout (half : Fin 2) (s : State) : Res :=
  if (s.domain (chDomain half)).up && ((s.sio.half[half]).sealRd.isNone || decide ((s.svCh half).state = .sealed)) then
    .next (s.svFault half 7)
  else .next s

/-- CORE_SUPPLY_LOW (R459): with its channel's core supply below 0.70 V a half's test-pulse and OSSD drives are released to their
pull-downs. -/
def execCoreSupplyLow (half : Fin 2) (s : State) : Res :=
  let mask : BitVec 8 := if half = 0 then 0x55#8 else 0xAA#8
  let s1 := s.modHalf half fun h => { h with coreLow := true }
  .next ((s1.modSio fun q => { q with pulsing := q.pulsing &&& ~~~mask, holding := q.holding &&& ~~~mask }).ossdOpenCh half)

end Sys2Proof.Machine
end

