-- ==== Sys2Proof/Machine/SafetyLayer.lean ====
section
/-! DEFINITION. The safety layer over black channels: identities, the checks of a PDU, the states of a consumer connection with its
watchdog, and the control PDUs (R292 to R307). -/
namespace Sys2Proof.Machine

/-- NODE: of the sealed image; before sealing, of the SEAL reading (R292). -/
def slNode (s : State) : BitVec 10 := field (if s.sv.sealed then s.sv.sealWord else ((s.sio.half[0]).sealRd).getD 0#24) 0 10

/-- Identity of a connection: kind 0 control, 1 feedback, 2 sensor (R292). -/
def slIdent (s : State) (kind obj : Nat) : BitVec 32 := at32 (slNode s) 22 ||| nat32 kind 20 ||| nat32 obj 0

/-- A connection: the feedback connection of an axis or that of a sensor. -/
inductive ConnId where
  | fb (a : Fin 80) | sens (i : Fin 8)
  deriving DecidableEq, Repr

/-- Connection number of the status registers (R307). -/
def ConnId.num : ConnId → Nat
  | .fb a => 80 + a.val
  | .sens i => 160 + i.val

/-- Identity of a consumer connection. -/
def ConnId.ident (s : State) : ConnId → BitVec 32
  | .fb a => slIdent s 1 a.val
  | .sens i => slIdent s 2 i.val

/-- The connection. -/
def State.conn (s : State) : ConnId → SlConn
  | .fb a => (s.sl.ax[a]).conn
  | .sens i => (s.sl.sens[i]).conn

/-- The connection changed. -/
def State.modConn (s : State) (c : ConnId) (g : SlConn → SlConn) : State :=
  match c with
  | .fb a => { s with sl.ax := upd s.sl.ax a fun x => { x with conn := g x.conn } }
  | .sens i => { s with sl.sens := upd s.sl.sens i fun x => { x with conn := g x.conn } }

/-- The watchdog of a connection, µs. -/
def State.connWd (s : State) : ConnId → Nat
  | .fb a => (s.sl.ax[a]).wd.toNat
  | .sens i => (s.sl.sens[i]).wd.toNat

/-- Both channels write a record (R307). -/
def State.slRec (s : State) (code : BitVec 12) (w : BitVec 32) : State := (s.svRec 0 code [w]).svRec 1 code [w]

/-! ### PDUs (R295 to R298, R301) -/

/-- TYPE of a PDU. -/
def pduType (w : List (BitVec 32)) : Nat := (field (w.getD 0 0#32) 16 2).toNat
/-- SEQ of a PDU. -/
def pduSeq (w : List (BitVec 32)) : BitVec 16 := field (w.getD 0 0#32) 0 16
/-- PLEN of a control or feedback PDU. -/
def pduPlen (w : List (BitVec 32)) : Nat := (field (w.getD 0 0#32) 18 6).toNat
/-- FLEN of a fragment PDU. -/
def pduFlen (w : List (BitVec 32)) : Nat := (field (w.getD 0 0#32) 18 11).toNat
/-- FRAME, FIDX and FLAST of a fragment PDU. -/
def pduFrame (w : List (BitVec 32)) : BitVec 16 := field (w.getD 1 0#32) 0 16
/-- FIDX. -/
def pduFidx (w : List (BitVec 32)) : Nat := (field (w.getD 1 0#32) 16 6).toNat
/-- FLAST. -/
def pduFlast (w : List (BitVec 32)) : Nat := (field (w.getD 1 0#32) 22 6).toNat
/-- Words before the CRC. -/
def pduWords (w : List (BitVec 32)) : Nat := if pduType w = 1 then 2 + (pduFlen w + 3) / 4 else 1 + (pduPlen w + 3) / 4

/-- Bytes `n` onward of a payload of `k` words that starts at word `o` are zero. -/
def padZero (w : List (BitVec 32)) (o k n : Nat) : Bool := ((wordsBytes ((w.drop o).take k)).drop n).all fun b => decide (b = 0#8)

/-- The first failing check: 0 CRC, 1 LENGTH, 2 FORMAT, 3 OLD (R301). -/
def pduCause (s : State) (c : ConnId) (w : List (BitVec 32)) : Option Nat :=
  let n := pduWords w
  let k := s.conn c
  let w0 := w.getD 0 0#32
  let drive := match c with
    | .fb _ => true
    | .sens _ => false
  let frag := decide (pduType w = 1)
  if w.length < n + 1 then some 1
  else if crc32c (wordsBytes (c.ident s :: w.take n)) ≠ w.getD n 0#32 then some 0
  else if (if frag then decide (1440 < pduFlen w) || decide (56 < pduFlast w) else decide (32 < pduPlen w)) then some 1
  else if 2 ≤ pduType w || (drive && frag) then some 2
  else if frag then
    (if field w0 29 3 ≠ 0#3 || field (w.getD 1 0#32) 28 4 ≠ 0#4 || pduFlen w = 0 || pduFlen w % 4 ≠ 0 || pduFlast w < pduFidx w then some 2
    else if k.state = .running && !newer (pduSeq w) k.seq then some 3 else none)
  else if field w0 24 8 ≠ 0#8 || !padZero w 1 ((pduPlen w + 3) / 4) (pduPlen w) ||
      (drive && (pduPlen w ≠ 20 || decide ((w.getD 5 0#32) >>> 2 ≠ 0#32))) then some 2
  else if k.state = .running && !newer (pduSeq w) k.seq then some 3 else none

/-- A discard: counted, with its cause, and recorded by both channels (R301). -/
def State.pduDiscard (s : State) (c : ConnId) (cause : Nat) : State :=
  (s.modConn c fun k =>
    let k1 := { k with cause := BitVec.ofNat 3 cause }
    if cause = 3 then { k1 with old := satInc k1.old } else { k1 with bad := satInc k1.bad }).slRec 0x010#12
      (nat32 c.num 0 ||| nat32 cause 8)

/-- A PDU is accepted: SEQ and arrival are kept, and the third in a row in WAIT brings the connection to RUNNING (R302, R303). -/
def State.pduAccept (s : State) (c : ConnId) (seq : BitVec 16) : State :=
  let k := s.conn c
  if k.state = .wait then
    let run := if 0 < k.run && newer seq k.seq then k.run + 1 else 1
    let s1 := s.modConn c fun k => { k with seq := seq, last := some s.now, run := run, state := if 3 ≤ run then .running else .wait }
    if 3 ≤ run then s1.slRec 0x012#12 (nat32 c.num 0) else s1
  else s.modConn c fun k => { k with seq := seq, last := some s.now }

/-- The content of a feedback PDU (R296). -/
def pduFb (w : List (BitVec 32)) : SafeFb :=
  { spos := ((w.getD 2 0#32) ++ (w.getD 1 0#32)).toInt, sspeed := ((w.getD 4 0#32) ++ (w.getD 3 0#32)).toInt
    torqueOff := bit (w.getD 5 0#32) 0, drvFault := bit (w.getD 5 0#32) 1 }

/-- A feedback PDU of axis `a`; `dis` says that only one channel accepts it (R301, R302). A PDU of a connection that is not enabled is
not consumed. `late` says that it belongs to the pick just latched (R43). -/
def State.fbPdu (s : State) (a : Fin 80) (w : List (BitVec 32)) (dis late : Bool) : State :=
  if !(s.sl.ax[a]).fbEn then s
  else
    match (if dis then some 4 else pduCause s (.fb a) w) with
    | some k => s.pduDiscard (.fb a) k
    | none =>
      let s1 := s.pduAccept (.fb a) (pduSeq w)
      { s1 with sl.ax := upd s1.sl.ax a fun x => { x with val := pduFb w, lat := if late then pduFb w else x.lat } }

/-- The safe feedback is latched at a pick instant (R43, R44, R306). -/
def State.latchSafe (s : State) : State := { s with sl.ax := s.sl.ax.map fun x => { x with lat := x.val } }

/-! ### Enables and watchdogs (R302, R303) -/

/-- A connection is enabled or disabled: it enters WAIT when enabled, and is OFF when not (R302). -/
def SlConn.enable (k : SlConn) (was on : Bool) : SlConn :=
  if on then (if was then k else { k with state := .wait, run := 0, last := none }) else { k with state := .off, run := 0, last := none }

/-- SL_AXIS_a is written (R299, R302); a watchdog outside 100 to 65,535 is ignored with the whole write. -/
def State.setSlAxis (s : State) (a : Fin 80) (v : BitVec 32) : State :=
  if (field v 0 16).toNat < 100 then s
  else { s with
    sl.ax := upd s.sl.ax a fun x =>
      { x with
        wd := field v 0 16, fbEn := bit v 17, ctrlEn := bit v 16, conn := x.conn.enable x.fbEn (bit v 17)
        seqTx := if bit v 16 && !x.ctrlEn then 0#16 else x.seqTx } }

/-- SL_SENS_s is written (R302). -/
def State.setSlSens (s : State) (i : Fin 8) (v : BitVec 32) : State :=
  if (field v 0 16).toNat < 100 then s
  else { s with
    sl.sens := upd s.sl.sens i fun x => { x with wd := field v 0 16, en := bit v 16, conn := x.conn.enable x.en (bit v 16) } }

/-- A frame in assembly is given up, and its staging slot is free again (R305). -/
def State.asmDrop (s : State) (i : Fin 8) : State :=
  match (s.sl.sens[i]).asm with
  | none => s
  | some m =>
    let s1 := match m.slot with
      | some j => s.freeSlot i j
      | none => s
    { s1 with sl.sens := upd s1.sl.sens i fun x => { x with asm := none } }

/-- The consumer connection of a number, when it is one. -/
def connOf (c : Nat) : Option ConnId :=
  if h : 80 ≤ c ∧ c < 160 then some (.fb ⟨c - 80, by omega⟩)
  else if h : 160 ≤ c ∧ c < 168 then some (.sens ⟨c - 160, by omega⟩) else none

/-- WD_EXPIRE (R303): the check finds that more than WD µs have passed since the last accepted PDU: EXPIRED, and WAIT in the same
check. -/
def execWdExpire (c : Nat) (s : State) : Res :=
  match connOf c with
  | none => .next s
  | some k =>
    match (s.conn k).last with
    | none => .next s
    | some t0 =>
      if !(s.domain 1).up then .next s
      else
        let s1 := (s.reach (t0 + 1000 * s.connWd k + 1)).modConn k fun q =>
          { q with expired := satInc q.expired, state := .wait, run := 0, last := none }
        let s2 := s1.slRec 0x011#12 (nat32 k.num 0)
        .next (match k with
          | .sens i => s2.asmDrop i
          | .fb _ => s2)

/-! ### Control PDUs (R295, R296, R299) -/

/-- CAT of a control PDU: the category in force of the arm or auxiliary axis; 0 for a joint axis that no arm in use owns; 3 none
(R296, R299, R468). -/
def catOf (s : State) (a : Fin 80) : Nat :=
  if (s.svCh 0).forced || (s.svCh 1).forced then 0 else ((s.stopOf a).map fun c => c.val).getD 3

/-- The control PDU of axis `a`, with its CRC: both channels compute equal CRCs, so it is released (R295, R299). -/
def controlPdu (s : State) (a : Fin 80) : List (BitVec 32) :=
  let w := [at32 (s.sl.ax[a]).seqTx 0 ||| nat32 4 18, bitAt (s.stoOf a) 0 ||| nat32 (catOf s a) 1]
  w ++ [crc32c (wordsBytes (slIdent s 0 a.val :: w))]

/-- The control PDU has been sent: SEQ goes on (R299). -/
def State.pduSent (s : State) (a : Fin 80) : State :=
  { s with sl.ax := upd s.sl.ax a fun x => { x with seqTx := x.seqTx + 1#16 } }

end Sys2Proof.Machine
end

