-- ==== Sys2Proof/Machine/Can.lean ====
section
/-! DEFINITION. The CAN FD controllers: modes, message objects, sending, receiving and error states (R345 to R361). -/
namespace Sys2Proof.Machine

/-- Controller `n` changed. -/
def State.modCan (s : State) (n : Fin 4) (g : CanCtl → CanCtl) : State := { s with can.ctl := upd s.can.ctl n g }

/-- The request level of controller `n` (R361). -/
def canLevel (n : Fin 4) (s : State) : Bool := decide ((s.can.ctl[n]).sticky &&& (s.can.ctl[n]).intEn ≠ 0#9)

/-- A bit of CAN_STICKY_n is set: 0 TXDONE, 1 RXNEW, 2 RX_LOST, 3 ERR_PASSIVE, 4 BUS_OFF, 5 RECOVERED, 6 TXREQ_REJ, 7 CFG_REJ,
8 MEM_ERR. -/
def State.canSet (s : State) (n : Fin 4) (i : Nat) : State :=
  irqWatch (Fin.ofNat 64 (20 + n.val)) (canLevel n) s (s.modCan n fun c => { c with sticky := setBit c.sticky i })

/-- PD11 is in RUN. -/
def canRuns (s : State) : Bool := decide (s.domain 11 = .run)

/-- The effective mode (R347). -/
def canEff (s : State) (n : Fin 4) : BitVec 2 :=
  let m := (s.can.ctl[n]).modeNow
  if !s.pw.state.live then 0#2
  else if m = 1#2 ∧ (s.pw.state = .safeHold ∨ s.pr.role = .standby ∨ s.pr.role = .syncing) then 2#2
  else m

/-! ### Message objects (R350, R351) -/

/-- Address of object `j` of controller `n` (R350). -/
def canObj (s : State) (n : Fin 4) (j : Nat) : Nat := s.can.base.toNat + (128 * n.val + j) * 96
/-- Word `k` of an object. -/
def canWord (s : State) (n : Fin 4) (j k : Nat) : BitVec 32 := s.rd32 (canObj s n j + 4 * k)
/-- DIR, EN, XTD and RTR of an object. -/
def canSend (s : State) (n : Fin 4) (j : Nat) : Bool := bit (canWord s n j 2) 8
/-- EN. -/
def canEn (s : State) (n : Fin 4) (j : Nat) : Bool := bit (canWord s n j 2) 9

/-- The 32-bit key by which pending objects are ordered (R354). -/
def canKey (w : BitVec 32) : BitVec 32 :=
  let xtd := bit w 29
  let rtr := bit w 30
  at32 (field w 18 11) 21 ||| bitAt (xtd || rtr) 20 ||| bitAt xtd 19 ||| at32 (field w 0 18) 1 ||| bitAt (xtd && rtr) 0

/-- The pending object with the smallest key, the lowest number among equals (R354). -/
def canChoice (s : State) (n : Fin 4) : Option (Fin 128) :=
  (fins 128).foldl (fun b j =>
    if !bit (s.can.ctl[n]).txPend j.val then b
    else match b with
      | none => some j
      | some i => if (canKey (canWord s n j.val 0)).toNat < (canKey (canWord s n i.val 0)).toNat then some j else b) none

/-- Data bytes of a DLC (ISO 11898-1; R351). -/
def dlcBytes (fdf : Bool) (d : BitVec 4) : Nat :=
  let n := d.toNat
  if n ≤ 8 then n else if !fdf then 8 else [12, 16, 20, 24, 32, 48, 64].getD (n - 9) 64

/-! ### Error states (R358, R359) -/

/-- The error state that the counters give (R358). -/
def errOf (tec rec : Nat) : BitVec 2 := if 255 < tec then 2#2 else if 128 ≤ tec ∨ 128 ≤ rec then 1#2 else 0#2

/-- The counters take new values; a change of the error state is recorded (R358 to R360). -/
def State.canCounters (s : State) (n : Fin 4) (tec rec : Nat) : State :=
  let c := s.can.ctl[n]
  let e := errOf tec rec
  let s1 := s.modCan n fun c => { c with tec := min 256 tec, rec_ := min 255 rec, err := e }
  if e = c.err then s1
  else
    let s2 := if e = 1#2 then s1.canSet n 3 else if e = 2#2 then s1.canSet n 4 else if c.err = 2#2 then s1.canSet n 5 else s1
    let s3 := if e = 2#2 && c.autoRec then s2.modCan n fun c => { c with recovering := true } else s2
    let ch := canChoice s3 n
    s3.emit 19 0x001#12
      [nat32 n.val 0 ||| at32 e 4 ||| at32 c.err 8 ||| nat32 (s3.can.ctl[n]).tec 16,
       nat32 (s3.can.ctl[n]).rec_ 0 ||| nat32 (ch.elim 0 fun j => j.val) 16 ||| bitAt ch.isSome 23]

/-- The attempt in progress ends without success: a request whose cancel was written ends with it (R355). -/
def State.canEndTx (s : State) (n : Fin 4) : State :=
  s.modCan n fun c =>
    match c.tx with
    | none => c
    | some t =>
      if c.cancel then
        { c with tx := none, cancel := false, txPend := clearBit c.txPend t.obj.val, txCan := setBit c.txCan t.obj.val }
      else { c with tx := none }

/-! ### Modes (R346, R347) -/

/-- A write of CAN_CTRL_n (R346, R359). -/
def State.setCanCtrl (s : State) (n : Fin 4) (v : BitVec 32) : State :=
  let c := s.can.ctl[n]
  let m := field v 0 2
  if m = 3#2 then s.canSet n 7
  else
    let held := c.mode ≠ 0#2 && (bit v 2 != c.fdEn || bit v 3 != c.autoRec)
    let s1 := if held then s.canSet n 7
      else if c.mode = 0#2 then s.modCan n fun c => { c with fdEn := bit v 2, autoRec := bit v 3 } else s
    let s2 := if m = 0#2 then (s1.canEndTx n).modCan n fun c => { c with mode := m, modeNow := m } else s1.modCan n fun c => { c with mode := m }
    if bit v 4 && (s2.can.ctl[n]).err = 2#2 && !(s2.can.ctl[n]).autoRec then s2.modCan n fun c => { c with recovering := true } else s2

/-- CAN_MODE_WRITE (R346): a write of CAN_CTRL_n. -/
def execCanModeWrite (n : Fin 4) (v : BitVec 32) (s : State) : Res := if (s.domain 11).up then .next (s.setCanCtrl n v) else .next s

/-- CAN_RESTART (R359): a write of CAN_CTRL_n with RESTART = 1. -/
def execCanRestart (n : Fin 4) (v : BitVec 32) (s : State) : Res :=
  if (s.domain 11).up then .next (s.setCanCtrl n (setBit v 4)) else .next s

/-- CAN_MODE_EFFECT (R346): the bus is idle, and the mode written takes effect. -/
def execCanModeEffect (n : Fin 4) (s : State) : Res :=
  if canRuns s && (s.can.ctl[n]).tx.isNone then .next (s.modCan n fun c => { c with modeNow := c.mode }) else .next s

/-! ### Sending (R353 to R355) -/

/-- A send request for object `j` is refused (R353). -/
def canRefused (s : State) (n : Fin 4) (j : Nat) : Bool :=
  let w0 := canWord s n j 0
  let w1 := canWord s n j 1
  let w2 := canWord s n j 2
  let c := s.can.ctl[n]
  !bit w2 8 || !bit w2 9 || bit c.invalid j || (bit w2 4 && (bit w0 30 || !c.fdEn)) || (!bit w2 4 && bit w2 5) || bit w0 31 ||
    decide (field w1 30 2 ≠ 0#2) || bit w2 7 || decide (w2 >>> 10 ≠ 0#32) || decide (canWord s n j 3 ≠ 0#32)

/-- The objects of bitmap word `w` whose bits are 1. -/
def bitmap (w : Fin 4) (v : BitVec 32) : List Nat := ((List.range 32).filter fun i => bit v i).map fun i => 32 * w.val + i

/-- CAN_TXSET_WRITE (R353): send requests. -/
def execCanTxsetWrite (n w : Fin 4) (v : BitVec 32) (s : State) : Res :=
  if !(s.domain 11).up then .next s
  else .next (s.forEach (bitmap w v) fun s j =>
    if bit (s.can.ctl[n]).txPend j then s
    else if canRefused s n j then s.canSet n 6
    else s.modCan n fun c =>
      { c with txPend := setBit c.txPend j, txDone := clearBit c.txDone j, txCan := clearBit c.txCan j })

/-- CAN_TXCANCEL_WRITE (R355): a request without an attempt in progress ends at once; another ends with its attempt. -/
def execCanTxcancelWrite (n w : Fin 4) (v : BitVec 32) (s : State) : Res :=
  if !(s.domain 11).up then .next s
  else .next (s.forEach (bitmap w v) fun s j =>
    let c := s.can.ctl[n]
    if !bit c.txPend j then s
    else if c.tx.elim false fun t => decide (t.obj.val = j) then s.modCan n fun c => { c with cancel := true }
    else s.modCan n fun c => { c with txPend := clearBit c.txPend j, txCan := setBit c.txCan j })

/-- CAN_RXNEW_WRITE (R357): received objects return to hardware. -/
def execCanRxnewWrite (n w : Fin 4) (v : BitVec 32) (s : State) : Res :=
  if !(s.domain 11).up then .next s
  else .next (s.modCan n fun c => { c with rxNew := c.rxNew &&& ~~~(v.setWidth 128 <<< (32 * w.val)) })

/-- CAN_INVALID_WRITE (R352): the marks of rewritten objects are cleared. -/
def execCanInvalidWrite (n w : Fin 4) (v : BitVec 32) (s : State) : Res :=
  if !(s.domain 11).up then .next s
  else .next (s.modCan n fun c => { c with invalid := c.invalid &&& ~~~(v.setWidth 128 <<< (32 * w.val)) })

/-- CAN_TX_ATTEMPT (R354): the controller starts to send the pending object with the smallest key. -/
def execCanTxAttempt (n : Fin 4) (s : State) : Res :=
  let c := s.can.ctl[n]
  if canRuns s && decide (canEff s n = 1#2) && decide (c.err ≠ 2#2) && c.tx.isNone then
    match canChoice s n with
    | none => .next s
    | some j =>
      let words := (List.range 16).map fun k => canWord s n j.val (8 + k)
      .next ({ s with out := .can n.val ([canWord s n j.val 0, canWord s n j.val 2] ++ words) :: s.out }.modCan n fun c =>
        { c with tx := some { obj := j, sof := s.now64 }, cancel := false })
  else .next s

/-- CAN_TX_COMPLETE (R355): the frame is sent without error; TIME is written and the object returns to host firmware. -/
def execCanTxComplete (n : Fin 4) (s : State) : Res :=
  match (s.can.ctl[n]).tx with
  | none => .next s
  | some t =>
    if !canRuns s then .next s
    else
      let s1 := (s.wr64 (canObj s n t.obj.val + 16) t.sof).modCan n fun c =>
        { c with tx := none, cancel := false, txPend := clearBit c.txPend t.obj.val, txDone := setBit c.txDone t.obj.val, cntTx := satInc c.cntTx }
      .next ((s1.canSet n 0).canCounters n ((s1.can.ctl[n]).tec - 1) (s1.can.ctl[n]).rec_)

/-! ### Errors (R358, R359) -/

/-- An error on the bus: the attempt in progress fails, and the counters follow unless the controller only listens (R346, R358). -/
def State.canError (s : State) (n : Fin 4) (lec : BitVec 3) (e : CanErr) : State :=
  let s1 := (s.canEndTx n).modCan n fun c => { c with lec := lec }
  let c := s1.can.ctl[n]
  if canEff s n = 2#2 then s1
  else match e with
    | .tx8 => s1.canCounters n (c.tec + 8) c.rec_
    | .tx0 => s1
    | .rx1 => s1.canCounters n c.tec (c.rec_ + 1)
    | .rx8 => s1.canCounters n c.tec (c.rec_ + 8)

/-- CAN_BUS_ERROR (R358): LEC and what the error does to the counters are those of ISO 11898-1. -/
def execCanBusError (n : Fin 4) (lec : BitVec 3) (e : CanErr) (s : State) : Res :=
  if canRuns s && decide (canEff s n ≠ 0#2) && decide ((s.can.ctl[n]).err ≠ 2#2) then .next (s.canError n lec e) else .next s

/-- CAN_RECOVERY_DONE (R359): 128 sequences of 11 recessive bits have passed. -/
def execCanRecoveryDone (n : Fin 4) (s : State) : Res :=
  if canRuns s && (s.can.ctl[n]).recovering && decide (canEff s n ≠ 0#2) then
    .next ((s.modCan n fun c => { c with recovering := false }).canCounters n 0 0)
  else .next s

/-! ### Receiving (R356) -/

/-- The frame matches receive object `j` (R356). -/
def canMatches (s : State) (n : Fin 4) (m : CanFrame) (j : Nat) : Bool :=
  let w0 := canWord s n j 0
  let w1 := canWord s n j 1
  canEn s n j && !canSend s n j && !bit (s.can.ctl[n]).invalid j && decide (field ((m.id ^^^ w0) &&& w1) 0 29 = 0#29) &&
    (!bit w1 29 || (bit m.id 29 == bit w0 29)) && (bit m.id 30 == bit w0 30)

/-- REC after a frame received without error: one less, and a value from 119 to 127 that the standard leaves open when it was above 127
(R358). -/
def recAfter (s : State) (rec : Nat) : Nat × State :=
  if rec = 0 then (0, s)
  else if rec ≤ 127 then (rec - 1, s)
  else
    let r := s.takeFresh
    (119 + (Config.free32 r.1).toNat % 9, r.2)

/-- The frame is stored in object `j`, which passes to host firmware (R351, R356). -/
def State.canStore (s : State) (n : Fin 4) (m : CanFrame) (j : Nat) : State :=
  let a := canObj s n j
  let len := if bit m.id 30 then 0 else dlcBytes m.fdf m.dlc
  let w2 := (canWord s n j 2 &&& 0xFFFFFF80#32) ||| at32 m.dlc 0 ||| bitAt m.fdf 4 ||| bitAt m.brs 5 ||| bitAt m.esi 6
  let s1 := (((s.wr32 a (m.id &&& 0x7FFFFFFF#32)).wr32 (a + 8) w2).wr64 (a + 16) m.sof).wrBytes (a + 32)
    ((m.data ++ List.replicate 64 0#8).take len)
  (s1.modCan n fun c => { c with rxNew := setBit c.rxNew j, cntRx := satInc c.cntRx }).canSet n 1

/-- CAN_FRAME_RECEIVE (R345, R356): a frame of another node has been received without error; an attempt in progress has lost arbitration.
A CAN FD frame while FD_EN is 0 is a form error. -/
def execCanFrameReceive (n : Fin 4) (m : CanFrame) (s : State) : Res :=
  if !canRuns s || canEff s n = 0#2 || (s.can.ctl[n]).err = 2#2 then .next s
  else if m.fdf && !(s.can.ctl[n]).fdEn then .next (s.canError n 2 .rx1)
  else
    let s0 := s.canEndTx n
    let s1 := if canEff s n = 2#2 then s0
      else
        let r := recAfter s0 (s0.can.ctl[n]).rec_
        r.2.canCounters n (r.2.can.ctl[n]).tec r.1
    let hits := (List.range 128).filter fun j => canMatches s1 n m j
    match hits.find? fun j => !bit (s1.can.ctl[n]).rxNew j with
    | some j => .next (s1.canStore n m j)
    | none =>
      if hits.isEmpty then .next s1
      else .next ((s1.modCan n fun c => { c with cntLost := satInc c.cntLost }).canSet n 2)

/-- CAN_CNT_CLEAR: a write of any value clears a counter: 0 TX, 1 RX, 2 LOST. -/
def execCanCntClear (n : Fin 4) (k : Fin 3) (s : State) : Res :=
  if !(s.domain 11).up then .next s
  else .next (s.modCan n fun c =>
    if k = 0 then { c with cntTx := 0#32 } else if k = 1 then { c with cntRx := 0#32 } else { c with cntLost := 0#32 })

/-! ### Configuration (R348, R350) -/

/-- A write of CAN_NBT_n is accepted (R348). -/
def nbtOk (v : BitVec 32) : Bool :=
  let sjw := (field v 22 8).toNat
  let t2 := (field v 14 8).toNat
  let t1 := (field v 6 8).toNat
  let brp := (field v 0 6).toNat
  decide (1 ≤ sjw) && decide (sjw ≤ 128) && decide (1 ≤ t2) && decide (t2 ≤ 128) && decide (1 ≤ t1) && decide (1 ≤ brp) &&
    decide (brp ≤ 32) && decide (sjw ≤ t2) && decide (80 ≤ brp * (1 + t1 + t2))

/-- A write of CAN_DBT_n is accepted (R348). -/
def dbtOk (v : BitVec 32) : Bool :=
  let sjw := (field v 16 5).toNat
  let t2 := (field v 11 5).toNat
  let t1 := (field v 6 5).toNat
  let brp := (field v 0 6).toNat
  decide (1 ≤ sjw) && decide (sjw ≤ 16) && decide (1 ≤ t2) && decide (t2 ≤ 16) && decide (1 ≤ t1) && decide (1 ≤ brp) &&
    decide (brp ≤ 32) && decide (sjw ≤ t2) && decide (10 ≤ brp * (1 + t1 + t2))

/-- CAN_NBT_n is written (R346, R348). -/
def State.setNbt (s : State) (n : Fin 4) (v : BitVec 32) : State :=
  if (s.can.ctl[n]).mode = 0#2 && nbtOk v then s.modCan n fun c => { c with nbt := v &&& 0x3FFFFFFF#32 } else s.canSet n 7

/-- CAN_DBT_n is written (R346, R348). -/
def State.setDbt (s : State) (n : Fin 4) (v : BitVec 32) : State :=
  if (s.can.ctl[n]).mode = 0#2 && dbtOk v then s.modCan n fun c => { c with dbt := v &&& 0x7F9FFFFF#32 } else s.canSet n 7

/-- CAN_MEM_BASE is written (R350); the CFG_REJ of an ignored write is set in every controller. DESIGN CHOICE (log 22). -/
def State.setCanBase (s : State) (v : BitVec 32) : State :=
  let ok := (fins 4).all fun n => decide ((s.can.ctl[n]).mode = 0#2)
  if ok && decide (v.toNat % 4096 = 0) && decide (Config.sharedBase ≤ v.toNat) &&
      decide (v.toNat + 49152 ≤ Config.sharedBase + 8 * Config.sharedWords) then { s with can.base := v }
  else s.forEach (fins 4) fun s n => s.canSet n 7

end Sys2Proof.Machine
end

