-- ==== Sys2Proof/Machine/ChurnSchedule.lean ====
section
/-! DEFINITION. The check of a schedule image in full: header, tables, hash, microprogram with its lists and footprints, limits
and CRC (R204 to R212, R219). -/
namespace Sys2Proof.Machine

/-- A schedule image in memory, by the byte address of its first word. -/
structure SchImg where
  /-- the memory -/
  mem : List Host.Cell
  /-- first byte -/
  at_ : Nat

/-- The 32-bit word at byte offset `o` of the image. -/
def SchImg.at (g : SchImg) (o : Nat) : BitVec 32 := g32 g.mem (g.at_ + o)
/-- Header word `n`. -/
def SchImg.w (g : SchImg) (n : Nat) : BitVec 32 := g.at (4 * n)
/-- Bits [15:0] of header word `n`. -/
def SchImg.lo (g : SchImg) (n : Nat) : Nat := (field (g.w n) 0 16).toNat
/-- Bits [31:16] of header word `n`. -/
def SchImg.hi (g : SchImg) (n : Nat) : Nat := (field (g.w n) 16 16).toNat
/-- Header word `n` as a number. -/
def SchImg.n (g : SchImg) (n : Nat) : Nat := (g.w n).toNat

/-- NVAR, NEQ, NINEQ, H, NW and LEN of the header. -/
def SchImg.nvar (g : SchImg) : Nat := g.lo 1
/-- NEQ. -/
def SchImg.neq (g : SchImg) : Nat := g.hi 1
/-- NINEQ. -/
def SchImg.nineq (g : SchImg) : Nat := g.lo 2
/-- H. -/
def SchImg.h (g : SchImg) : Nat := (field (g.w 3) 0 7).toNat
/-- NW. -/
def SchImg.nw (g : SchImg) : Nat := g.hi 3
/-- LEN. -/
def SchImg.len (g : SchImg) : Nat := g.n 10

/-- A failing check: its status and the byte offset of the failing word. -/
abbrev SchBad := Status × Nat

/-- `b` fails with BAD_OPERAND at offset `o`. -/
def bad (b : Bool) (o : Nat) : List SchBad := if b then [(.badOperand, o)] else []

/-! ### Header (R204) -/

/-- The header conditions that give BAD_OPERAND. -/
def SchImg.headerBad (g : SchImg) (w1 : Nat) : List SchBad :=
  bad (decide (g.lo 0 ≠ 1) || decide (field (g.w 0) 18 14 ≠ 0#14) || decide (field (g.w 0) 16 2 = 3#2)) 0 ++
  bad (decide (g.nvar ≠ g.h * g.nw)) 4 ++ bad (decide (field (g.w 3) 7 9 ≠ 0#9)) 12 ++ bad (decide (g.hi 7 ≠ 0)) 28 ++
  bad (decide (g.hi 9 ≠ 0) || decide (g.nineq < g.lo 9)) 36 ++ bad (decide (g.len ≠ w1) || decide (g.len % 16 ≠ 0)) 40 ++
  (List.range 5).flatMap (fun i => bad (decide (g.n (16 + i) % 4 ≠ 0)) (64 + 4 * i)) ++
  bad (decide (g.n 21 % 16 ≠ 0)) 84 ++ bad (decide (g.n 22 = 0) || decide (65536 < g.n 22)) 88 ++ bad (decide (g.n 23 ≠ 0)) 92 ++
  (List.range 7).flatMap (fun i => bad (decide (g.hi (24 + i) ≠ 0)) (96 + 4 * i)) ++ bad (decide (g.n 31 ≠ 0)) 124

/-! ### Tables (R205, R208) -/

/-- The tables by their offset and words: role map, coupling list, slot table, pattern, supernode table. -/
def SchImg.tables (g : SchImg) : List (Nat × Nat) :=
  [(g.n 16, g.nw), (g.n 17, g.hi 2), (g.n 18, g.lo 9), (g.n 19, g.n 4 + g.n 5 + g.n 6), (g.n 20, 4 * g.lo 7)]

/-- The offsets of the entries of a table that lie inside LEN. -/
def SchImg.entries (g : SchImg) (t n : Nat) : List Nat :=
  ((List.range n).map fun i => g.n t + 4 * i).filter fun o => decide (o + 4 ≤ g.len)

/-- A role map entry violates R205. -/
def roleBad (x : BitVec 32) : Bool :=
  decide (field x 8 24 ≠ 0#24) || (decide (field x 0 2 = 3#2) && decide (field x 2 6 ≠ 0#6))

/-- A coupling list entry violates R205. -/
def couplingBad (nineq : Nat) (x : BitVec 32) : Bool := decide (field x 15 17 ≠ 0#17) || decide (nineq ≤ (field x 0 15).toNat)

/-- A slot table entry violates R205; `others` are the entries before it. -/
def slotBad (nineq h : Nat) (others : List (BitVec 32)) (x : BitVec 32) : Bool :=
  let b := (field x 24 4).toNat
  decide (field x 28 4 ≠ 0#4) || decide (nineq ≤ (field x 0 15).toNat) || decide (h ≤ (field x 15 6).toNat) ||
  (decide (7 < b) && decide (b ≠ 15)) || decide ((field x 21 3).toNat = b) ||
  others.any fun y => decide (field y 0 15 = field x 0 15)

/-- Row and column of a pattern entry. -/
def patRC (x : BitVec 32) : Nat × Nat := ((field x 0 16).toNat, (field x 16 16).toNat)

/-- Pattern entry `i` violates R205: out of range, or not after its predecessor in its group. -/
def SchImg.patBad (g : SchImg) (i : Nat) : Bool :=
  let q := patRC (g.at (g.n 19 + 4 * i))
  let p := patRC (g.at (g.n 19 + 4 * (i - 1)))
  let np := g.n 4
  let na := g.n 5
  if i < np then
    decide (q.2 < q.1) || decide (g.nvar ≤ q.2) || (decide (0 < i) && !(decide (p.2 < q.2) || (decide (p.2 = q.2) && decide (p.1 < q.1))))
  else
    let first := if i < np + na then np else np + na
    let rows := if i < np + na then g.neq else g.nineq
    decide (rows ≤ q.1) || decide (g.nvar ≤ q.2) ||
      (decide (first < i) && !(decide (p.1 < q.1) || (decide (p.1 = q.1) && decide (p.2 < q.2))))

/-- A supernode: panel word offset, first column, width, rows and list word offset. -/
structure SuperNode where
  /-- panel address field -/
  panel : BitVec 32
  /-- first column -/
  col : Nat
  /-- width -/
  w : Nat
  /-- NR -/
  nr : Nat
  /-- list address field -/
  list : BitVec 32
  deriving DecidableEq, Repr

/-- Supernode `j` of the table. -/
def SchImg.sn (g : SchImg) (j : Nat) : SuperNode :=
  let o := g.n 20 + 16 * j
  { panel := g.at o, col := (field (g.at (o + 4)) 0 16).toNat, w := (field (g.at (o + 4)) 16 7).toNat
    nr := (field (g.at (o + 8)) 0 13).toNat, list := g.at (o + 12) }

/-- The word offset, from the Churn partition, of an address field with BASE 0 and bits [31:24] zero. -/
def base0 (x : BitVec 32) : Option Nat := if field x 22 10 = 0#10 then some (field x 0 22).toNat else none

/-- A run of words lies in the factor region (R207). -/
def inFactor (o n : Nat) : Bool := decide (0x80000 ≤ o) && decide (o + n ≤ 0x280000)
/-- A run of words lies in slots 7 to 11 of the work region (R207). -/
def inSlots (o n : Nat) : Bool := decide (0x280000 + 7 * 0x10000 ≤ o) && decide (o + n ≤ 0x280000 + 12 * 0x10000)

/-- Supernode `j` violates R205 or R208. -/
def SchImg.snBad (g : SchImg) (j : Nat) : Bool :=
  let s := g.sn j
  let o := g.n 20 + 16 * j
  decide (field (g.at (o + 4)) 23 9 ≠ 0#9) || decide (field (g.at (o + 8)) 13 19 ≠ 0#19) ||
  decide (s.w = 0) || decide (64 < s.w) || decide (4096 < s.nr * s.w) || decide (s.nr < s.w) ||
  (match base0 s.panel with
   | some p => !inFactor p (s.nr * s.w) || ((List.range j).any fun i =>
       match base0 (g.sn i).panel with
       | some q => decide (q < p + s.nr * s.w) && decide (p < q + (g.sn i).nr * (g.sn i).w)
       | none => false)
   | none => true) ||
  (match base0 s.list with
   | some l => (List.range s.nr).any fun i =>
       decide (4 * (l + i) + 4 ≤ g.len) &&
       (let x := (g.at (4 * (l + i))).toNat
        decide (g.nvar + g.neq ≤ x) || (decide (i < s.w) && decide (x ≠ s.col + i)))
   | none => true)

/-- Bytes of `n` words from offset `o`. -/
def SchImg.bytes (g : SchImg) (o n : Nat) : List Byte := memReadList g.mem (g.at_ + o) (4 * n)

/-- H_s (R206). -/
def SchImg.hash (g : SchImg) : BitVec 64 :=
  crc64 (g.bytes 0 7 ++ g.bytes 36 1 ++ (g.tables.take 4).flatMap fun t => g.bytes t.1 t.2)

/-- The table conditions that give BAD_OPERAND. -/
def SchImg.tablesBad (g : SchImg) : List SchBad :=
  (g.entries 16 g.nw).flatMap (fun o => bad (roleBad (g.at o)) o) ++
  (g.entries 17 (g.hi 2)).flatMap (fun o => bad (couplingBad g.nineq (g.at o)) o) ++
  (g.entries 18 (g.lo 9)).flatMap (fun o =>
    bad (slotBad g.nineq g.h (((g.entries 18 (g.lo 9)).filter fun q => decide (q < o)).map g.at) (g.at o)) o) ++
  ((List.range (g.n 4 + g.n 5 + g.n 6)).filter fun i => decide (g.n 19 + 4 * i + 4 ≤ g.len)).flatMap (fun i =>
    bad (g.patBad i) (g.n 19 + 4 * i)) ++
  ((List.range (g.lo 7)).filter fun j => decide (g.n 20 + 16 * j + 16 ≤ g.len)).flatMap (fun j =>
    bad (g.snBad j) (g.n 20 + 16 * j)) ++
  bad (decide (g.n 8 ≠ ((List.range (g.lo 7)).map fun j => (g.sn j).nr * (g.sn j).w).sum)) 32 ++
  bad (decide (g.hash ≠ BitVec.ofNat 64 (memNat g.mem (g.at_ + 56) 8))) 56

/-! ### The microprogram (R209 to R212) -/

/-- What a microinstruction reads and writes, in words, and whether it is valid: a word number below 2^22 counts over the Churn
partition, one from 2^22 over the instance. -/
structure Foot where
  /-- a field or a list entry is invalid -/
  invalid : Bool := false
  /-- a list runs past LEN -/
  past : Bool := false
  /-- words read -/
  reads : List Nat := []
  /-- words written -/
  writes : List Nat := []

/-- Two footprints together. -/
def Foot.and (a b : Foot) : Foot :=
  { invalid := a.invalid || b.invalid, past := a.past || b.past, reads := a.reads ++ b.reads, writes := a.writes ++ b.writes }

/-- `n` words read through an address field. -/
def readFoot (x : BitVec 32) (n : Nat) : Foot :=
  let o := (field x 0 22).toNat
  let b := field x 22 2
  { invalid := decide (field x 24 8 ≠ 0#8) || decide (1 < b.toNat) || (decide (b = 0#2) && decide (2 ^ 22 < o + n)) ||
      (decide (b = 1#2) && decide (262144 < o + n))
    reads := (List.range n).map fun i => (if b = 1#2 then 2 ^ 22 else 0) + o + i }

/-- `n` words written through an address field: the factor region or slots 7 to 11 (R210). -/
def writeFoot (x : BitVec 32) (n : Nat) : Foot :=
  match base0 x with
  | some o => { invalid := !(inFactor o n || inSlots o n), writes := (List.range n).map fun i => o + i }
  | none => { invalid := true }

/-- An FP64 vector address must be even (R210). -/
def oddFoot (x : BitVec 32) : Foot := { invalid := decide (x.toNat % 2 = 1) }

/-- `n` words of a list at word offset `o` lie inside LEN. -/
def SchImg.listFoot (g : SchImg) (o n : Nat) : Foot := { past := decide (g.len < 4 * (o + n)) }

/-- The word offset of the list of a microinstruction. -/
def listAt (i : MicroWord) : Option Nat := base0 i.w3

/-- Word `o` of the image. -/
def SchImg.lw (g : SchImg) (o : Nat) : BitVec 32 := g.at (4 * o)

/-- The footprint of the row records of AOUTER from word offset `o` (R212). -/
def SchImg.outerFoot (g : SchImg) (nr w : Nat) : Nat → Nat → Foot
  | 0, _ => {}
  | n + 1, o =>
    if g.len < 4 * (o + 1) then { past := true }
    else
      let h := g.lw o
      let k := (field h 16 16).toNat
      let r := (field h 0 16).toNat
      let body := (List.range k).foldl (fun f a =>
        let x := g.lw (o + 2 + 2 * a)
        let c := (field x 16 7).toNat
        (f.and (readFoot (g.lw (o + 1 + 2 * a)) 1)).and
          { invalid := decide (field x 12 4 ≠ 0#4) || decide (field x 23 9 ≠ 0#9) || decide (nr ≤ (field x 0 12).toNat) ||
              (decide (c ≠ 0x7F) && decide (w ≤ c)) })
        ({ invalid := decide (k = 0) || decide (64 < k) || decide (g.nineq ≤ r), reads := [0x280000 + 6 * 0x10000 + r] } : Foot)
      if g.len < 4 * (o + 1 + 2 * k) then { past := true, invalid := decide (k = 0) || decide (64 < k) }
      else body.and (g.outerFoot nr w n (o + 1 + 2 * k))

/-- The footprint of the row records of SPMV from word offset `o` (R212). -/
def SchImg.spmvFoot (g : SchImg) (y : BitVec 32) : Nat → Nat → Foot
  | 0, _ => {}
  | n + 1, o =>
    if g.len < 4 * (o + 1) then { past := true }
    else
      let k := (g.lw o).toNat
      if 4096 < k then { invalid := true }
      else if g.len < 4 * (o + 1 + 2 * k) then { past := true }
      else
        let body := (List.range k).foldl (fun f u =>
          (f.and (readFoot (g.lw (o + 1 + 2 * u)) 1)).and (readFoot (y + 2#32 * g.lw (o + 2 + 2 * u)) 2)) ({} : Foot)
        body.and (g.spmvFoot y n (o + 1 + 2 * k))

/-- The footprint of AUPD (R212). -/
def SchImg.updFoot (g : SchImg) (i : MicroWord) (nr w o : Nat) : Foot :=
  let h := g.lw o
  let q := (field h 0 12).toNat
  let m := (field h 16 12).toNat
  let f := (g.lw (o + 1)).toNat
  if g.len < 4 * (o + 2 + m) then { past := true }
  else
    ((readFoot (i.w2) (i.n * i.k)).and
      { invalid := decide (field h 12 4 ≠ 0#4) || decide (field h 28 4 ≠ 0#4) || decide (f < i.k) || decide (m < q) ||
          decide (i.n < f + m) || decide (i.sub ≠ 0) || decide (i.k = 0) || decide (64 < i.k) }).and
    ((List.range m).foldl (fun p a =>
      let t := g.lw (o + 2 + a)
      p.and { invalid := decide (nr ≤ (field t 0 12).toNat) || (decide (a < q) && decide (w ≤ (field t 16 7).toNat)) })
      ({} : Foot))

/-- The footprint of one microinstruction, with the shape of its cluster's last ACLR, if any (R209 to R213). -/
def SchImg.foot (g : SchImg) (i : MicroWord) (shape : Option (Nat × Nat)) : Foot :=
  let lst := (listAt i).getD 0
  let noList : Foot := { invalid := (listAt i).isNone }
  let nr := (shape.map fun s => s.1).getD 0
  let w := (shape.map fun s => s.2).getD 0
  let needK := decide (i.op = 2) || decide (i.op = 5) || decide (i.op = 6) || decide (i.op = 10) || decide (i.op = 11) ||
    decide (i.op = 12)
  let aOp := decide (3 ≤ i.op) && decide (i.op ≤ 7)
  let common : Foot :=
    { invalid := bit i.w0 15 || decide (13 < i.op) || (decide (i.op ≤ 1) && decide (i.n ≠ 0)) || (decide (1 < i.op) && decide (i.n = 0)) ||
        (if needK then decide (i.k = 0) || decide (64 < i.k) else decide (i.k ≠ 0)) || (aOp && shape.isNone) ||
        (decide (i.op ≠ 13) && decide (field i.w2 24 8 ≠ 0#8)) || decide (field i.w3 24 8 ≠ 0#8) }
  let x := i.w1 &&& 0xFFFFFF#32
  let y := i.w2
  common.and
    (match i.op with
     | 2 => { invalid := decide (4096 < i.n * i.k) }
     | 3 =>
       (noList.and (g.listFoot lst (2 * i.n))).and
       (((List.range i.n).filter fun t => decide (4 * (lst + 2 * t + 2) ≤ g.len)).foldl (fun f t =>
         let a := g.lw (lst + 2 * t)
         let c := (g.lw (lst + 2 * t + 1)).toNat
         (f.and (if i.sub < 2 then readFoot a 1 else { invalid := decide (a ≠ 0#32) })).and
           { invalid := decide (nr * w ≤ c) || decide (3 < i.sub) }) ({} : Foot))
     | 4 => (noList.and { invalid := decide (i.sub ≠ 0) }).and (g.outerFoot nr w i.n lst)
     | 5 => noList.and (g.updFoot i nr w lst)
     | 6 =>
       let mp := base0 y
       (({ invalid := decide (i.n ≠ nr) || decide (i.k ≠ w) || mp.isNone || decide (i.sub ≠ 0)
           past := decide (g.len < 4 * (mp.getD 0 + i.k)) } : Foot).and (writeFoot x (i.n * i.k))).and
       ((List.range i.k).foldl (fun f t =>
         let e := g.lw (mp.getD 0 + t)
         f.and { invalid := decide (4 * (mp.getD 0 + t + 1) ≤ g.len) && decide (e ≠ 0xFFFFFFFF#32) && decide (g.neq ≤ e.toNat) })
         ({} : Foot))
     | 7 => ({ invalid := decide (nr * w < i.n) || decide (i.sub ≠ 0) } : Foot).and (writeFoot x i.n)
     | 8 =>
       ((noList.and (g.listFoot lst i.n)).and
         ((writeFoot x (if i.sub = 1 then i.n else 2 * i.n)).and
           ((if i.sub = 1 then {} else oddFoot x).and (if i.sub = 0 then {} else oddFoot y)))).and
       (((List.range i.n).filter fun t => decide (4 * (lst + t + 1) ≤ g.len)).foldl (fun f t =>
         let p := g.lw (lst + t)
         f.and (if i.sub = 0 then readFoot (y + p) 1 else readFoot (y + 2#32 * p) 2)) ({ invalid := decide (2 < i.sub) } : Foot))
     | 9 =>
       let wide := decide (i.sub / 2 % 2 = 1)
       ((noList.and (oddFoot y)).and ((writeFoot x (if wide then 2 * i.n else i.n)).and (if wide then oddFoot x else {}))).and
       (({ invalid := decide (3 < i.sub)
           reads := if i.sub % 2 = 1 then (writeFoot x (if wide then 2 * i.n else i.n)).writes else [] } : Foot).and
         (g.spmvFoot y i.n lst))
     | 13 =>
       (writeFoot x (if i.sub = 0 then i.n else 2 * i.n)).and
         (({ invalid := decide (1 < i.sub) } : Foot).and (if i.sub = 0 then {} else oddFoot x))
     | 0 => { invalid := decide (i.sub ≠ 0) }
     | 1 => { invalid := decide (i.sub ≠ 0) }
     | _ =>
       ((noList.and (g.listFoot lst i.n)).and ((readFoot y (i.n * i.k)).and (oddFoot x))).and
       (((List.range i.n).filter fun t => decide (4 * (lst + t + 1) ≤ g.len)).foldl (fun f t =>
         let p := g.lw (lst + t)
         (f.and (readFoot (x + 2#32 * p) 2)).and
           ((writeFoot (x + 2#32 * p) 2).and { invalid := decide (g.nvar + g.neq ≤ p.toNat) }))
         ({ invalid := decide (i.sub ≠ 0) || decide (i.n < i.k) } : Foot)))

/-- Two footprints of different clusters may meet: one writes a word that the other reads or writes (R211). -/
def Foot.meets (a b : Foot) : Bool :=
  (a.writes.any fun x => b.writes.contains x || b.reads.contains x) || (b.writes.any fun x => a.reads.contains x)

/-- The failures of a section from microinstruction `i`: `since` are the footprints since the last barrier with their clusters
and `shape` the shapes of the clusters' last ACLR (R211, R212, R219). -/
def SchImg.sectionBad (g : SchImg) : Nat → Nat → List (Fin 8 × Foot) → Vector (Option (Nat × Nat)) 8 → List SchBad
  | 0, i, _, _ => [(.badOperand, g.n 21 + 16 * i)]
  | fuel + 1, i, since, shape =>
    let o := g.n 21 + 16 * i
    if g.n 22 ≤ i then [(.badOperand, o)]
    else if g.len < o + 16 then []
    else
      let u := microAt g.mem (g.at_ + g.n 21) i
      let f := g.foot u shape[u.clu]
      let clash := since.any fun q => decide (q.1 ≠ u.clu) && q.2.meets f
      let here := bad (f.invalid || clash) o ++ if f.past then [(.length, o)] else []
      if u.op = 0 then here
      else if u.op = 1 then here ++ g.sectionBad fuel (i + 1) [] shape
      else
        here ++ g.sectionBad fuel (i + 1) ((u.clu, f) :: since)
          (if u.op = 2 then upd shape u.clu fun _ => some (u.n, u.k) else shape)

/-- The failures of the microprogram: every microinstruction's OP and every section from its entry. -/
def SchImg.codeBad (g : SchImg) : List SchBad :=
  ((List.range (g.n 22)).filter fun i => decide (g.n 21 + 16 * i + 16 ≤ g.len)).flatMap (fun i =>
    bad (decide (13 < (microAt g.mem (g.at_ + g.n 21) i).op)) (g.n 21 + 16 * i)) ++
  (List.range 7).flatMap fun s => g.sectionBad (g.n 22 + 1) (g.lo (24 + s)) [] (Vector.replicate 8 none)

/-! ### Limits (R181, R219) -/

/-- The limits of a class: NVAR, NINEQ, NEQ, coupling rows and factor nonzeros (R181). -/
def classLimits (c : BitVec 2) : Nat × Nat × Nat × Nat × Nat :=
  if c = 0#2 then (1024, 2048, 512, 256, 131072) else if c = 1#2 then (4096, 8192, 2048, 1024, 524288)
  else (16384, 32768, 8192, 2048, 2097152)

/-- The conditions that give LENGTH. -/
def SchImg.lengthBad (g : SchImg) (w1 : Nat) : List SchBad :=
  let l := fun (b : Bool) (o : Nat) => if b then [((.length, o) : SchBad)] else []
  l (decide (2097152 < w1) || decide (Config.sharedBase + 8 * Config.sharedWords < g.at_ + w1)) 40 ++
  ((List.range 5).zip g.tables).flatMap (fun q => l (decide (g.len < q.2.1 + 4 * q.2.2)) (64 + 4 * q.1)) ++
  l (decide (g.len < g.n 21 + 16 * g.n 22)) 84 ++
  (List.range (g.lo 7)).flatMap (fun j =>
    l (decide (g.len < 4 * ((base0 (g.sn j).list).getD 0 + (g.sn j).nr))) (g.n 20 + 16 * j + 12))

/-- The conditions that give RANGE. -/
def SchImg.rangeBad (g : SchImg) : List SchBad :=
  let r := fun (b : Bool) (o : Nat) => if b then [((.range, o) : SchBad)] else []
  let c := classLimits (field (g.w 0) 16 2)
  r (decide (c.1 < g.nvar) || decide (c.2.2.1 < g.neq)) 4 ++ r (decide (c.2.1 < g.nineq) || decide (c.2.2.2.1 < g.hi 2)) 8 ++
  r (decide (g.h < 4) || decide (64 < g.h)) 12 ++ r (decide (g.lo 7 = 0) || decide (16384 < g.lo 7)) 28 ++
  r (decide (c.2.2.2.2 < g.n 8)) 32 ++ r (!posFinite32 (g.w 12)) 48 ++ r (!posFinite32 (g.w 13)) 52

/-- The image with its CRC word taken as zero has the CRC of its header (R204). -/
def SchImg.crcOk (g : SchImg) : Bool :=
  decide (crc32c (memReadList g.mem g.at_ 44 ++ [0#8, 0#8, 0#8, 0#8] ++ memReadList g.mem (g.at_ + 48) (g.len - 48)) = g.w 11)

/-- The first failure of a schedule image of `w1` bytes, in the order of R10, with the CRC last (R219). -/
def SchImg.check (g : SchImg) (w1 : Nat) : Option SchBad :=
  let op := g.headerBad w1 ++ g.tablesBad ++ g.codeBad ++ g.lengthBad w1 ++ g.rangeBad
  let pick := fun st => op.find? fun q => decide (q.1 = st)
  match pick .badOperand with
  | some q => some q
  | none =>
    match pick .length with
    | some q => some q
    | none =>
      match pick .range with
      | some q => some q
      | none => if g.crcOk then none else some (.internal, 44)

end Sys2Proof.Machine
end

