-- ==== Sys2Proof/Machine/Churn.lean ====
section
/-! DEFINITION. Churn as the rest of the device sees it: schedules, planning, publication, host-formed solves and the cost table
(R18, R183, R185, R191 to R203, R219 to R223). -/
namespace Sys2Proof.Machine

/-- PD7 is in RUN, so Churn works. -/
def qpOn (s : State) : Bool := decide (s.domain 7 = .run)

/-- Churn changed. -/
def State.modQp (s : State) (g : Churn → Churn) : State := { s with qp := g s.qp }

/-- A bit of CH_STICKY is set (R203). -/
def State.qpSet (s : State) (i : Nat) : State := s.modQp fun q => { q with sticky := setBit q.sticky i }

/-- A counter of CH_CNT goes up by `k`: SOLVED, PUBLISHED, FAILED, LATE, SKIP, PIVREG, REJ. -/
def State.qpCount (s : State) (i : Fin 7) (k : Nat) : State := s.modQp fun q => { q with cnt := upd q.cnt i fun c => satAdd c k }

/-- ⌊H/2⌋ of the resident schedule (R197, R200). -/
def halfH (s : State) : Nat := (field (schWord s.mem 3) 0 7).toNat / 2

/-- The index `b` lies more than ⌊H/2⌋ beats before `c` (R197, R200). -/
def tooOld (s : State) (c b : BitVec 32) : Bool := decide (halfH s < (c - b).toNat)

/-- SIG_eff of the loaded schedule for the beat length in force (R192). -/
def State.qpSig (s : State) : State :=
  if s.qp.sched then
    s.modQp fun q => { q with sig := g64 s.mem (chBase + 56) ^^^ (BitVec.ofNat 64 (s.tb.activeN.toNat * 0x9E3779B97F4A7C15)) }
  else s

/-- Planning is stopped and none is about to start. -/
def planStopped (s : State) : Bool := !s.qp.planning && s.qp.startAt.isNone

/-! ### Solves -/

/-- What the registers give a solve (R187, R189). -/
def qpCfgOf (s : State) : QpCfg :=
  { tolP := s.qp.tolP, tolD := s.qp.tolD, tolGap := s.qp.tolGap, cap := s.qp.cap.toNat, epiv := s.qp.epivExp.toNat
    dreg := s.qp.dregExp.toNat }

/-- A solve starts at `now` on clocked eighths (R427); a rejected warm start is recorded (R193). `a` is the instance. -/
def State.beginSolve (s : State) (a : Nat) : State :=
  let s0 := { s with cr.clk := s.cr.clk ||| 0x00FF0000#30 }
  let s1 := s0.modQp fun q => { q with solveStart := s.now, lastWarm := warmOk s.mem a }
  if warmReject s.mem a then (s1.qpSet 2).emit 8 0x003#12 [iWord s.mem a 3] else s1

/-- CH_LAST after a solve has ended with a RESULT code after `it` iterations. -/
def State.lastSolve (s : State) (res : BitVec 3) (it : BitVec 8) (index : BitVec 32) : State :=
  s.modQp fun q => { q with
    lastTime := BitVec.ofNat 16 (min ((s.now - q.solveStart) / 1000) 0xFFFF), lastResult := res, lastIter := it
    lastIndex := index }

/-- A running solve is abandoned with a cause of R203: 1 LATE, 3 STOPPED. The iteration it had reached is not stated: a free
value. -/
def State.abandon (s : State) (cause : BitVec 2) (index : BitVec 32) : State :=
  let k := s.takeFresh
  let it := (Config.free32 k.1).setWidth 8
  let res : BitVec 3 := if cause = 1#2 then 3#3 else 5#3
  (k.2.lastSolve res it index).emit 8 0x002#12 [at32 cause 0 ||| at32 it 8, index]

/-- The next job of Churn begins when it is a QP.SCHED: SCHED is cleared (R220, R221). -/
def State.nextJob (s : State) : State :=
  match s.qp.jobs with
  | j :: _ => if j.submit then s else s.modQp fun q => { q with sched := false }
  | [] => s

/-- SOLVE_START (R183, R186, R196, R201, R221): Churn checks the next queued instance and starts its solve; an instance that
fails its check is rejected. -/
def execSolveStart (s : State) : Res :=
  if !qpOn s then .next s
  else
    match s.qp.insts with
    | i :: rest =>
      if i.solving || !s.qp.planning then .next s
      else
        let a := chInst i.buf
        match instCheck s.mem a s.qp.sig s.qp.sched with
        | some st =>
          .next ((((s.modQp fun q => { q with insts := rest }).qpCount 6 1).qpSet 5).emit 8 0x001#12
            [(st.code).setWidth 32, i.index])
        | none => .next ((s.modQp fun q => { q with insts := { i with solving := true } :: rest }).beginSolve a)
    | [] =>
      match s.qp.jobs with
      | j :: rest =>
        if j.submit && !j.solving then
          let a := j.w0.toNat
          match instCheck s.mem a s.qp.sig s.qp.sched with
          | some st => .next (((s.modQp fun q => { q with jobs := rest }).opDone j.flow j.op st 0#8 none).nextJob)
          | none =>
            if sharedEnd < j.w1.toNat + solutionBytes (qpDims s.mem) then
              .next (((s.modQp fun q => { q with jobs := rest }).opDone j.flow j.op .length 0#8 none).nextJob)
            else .next ((s.modQp fun q => { q with jobs := { j with solving := true } :: rest }).beginSolve a)
        else .next s
      | [] => .next s

/-- What every ended solve counts and records (R188, R189, R191). -/
def State.countSolve (s : State) (r : QpResult) (index : BitVec 32) : State :=
  let it := BitVec.ofNat 8 r.iter
  let s1 :=
    if r.pivots = 0 then s
    else ((s.qpCount 5 r.pivots).qpSet 0).emit 8 0x006#12 [BitVec.ofNat 32 r.pivots, index]
  match r.how with
  | .converged => (s1.qpCount 0 1).lastSolve 0#3 it index
  | .iterCap => (((s1.qpCount 2 1).qpSet 3).emit 8 0x005#12 [index]).lastSolve 1#3 it index
  | .nanAbort => (((s1.qpCount 2 1).qpSet 1).emit 8 0x002#12 [at32 it 8, index]).lastSolve 2#3 it index

/-- GAP, RP and RD of a result in which no convergence test was made: free values. -/
def State.freeNorms (s : State) : (BitVec 32 × BitVec 32 × BitVec 32) × State :=
  ((Config.free32 s.fresh, Config.free32 (s.fresh + 1), Config.free32 (s.fresh + 2)), { s with fresh := s.fresh + 3 })

/-- A converged solve of the forming draft is complete: it waits in the solution buffer that is not current, over an earlier one
that still waits there; while the partner follows, it is sent and completes with its acknowledgement (R196, R372). -/
def State.completeSolution (s : State) (index : BitVec 32) (sig : BitVec 64) (ws : List (BitVec 32)) : State :=
  let s1 := match s.qp.waiting, s.pr.unacked with
    | some (b, _), _ => (s.qpSet 8).emit 8 0x004#12 [1#32, b]
    | none, some (b, _) => (s.qpSet 8).emit 8 0x004#12 [1#32, b]
    | none, none => s
  let s2 := { s1 with mem := memWriteList s1.mem (chSol (!s1.qp.curBuf)) (wordsBytes ws) }
  if leads s2 then
    ({ s2 with qp := { s2.qp with waiting := none }, pr := { s2.pr with unacked := some (index, sig) } }).pairSend 4 index ws
  else { s2 with qp := { s2.qp with waiting := some (index, sig) } }

/-- The solution that waited for the partner is complete: ACK_SOL shows it, or the partner no longer follows (R372). -/
def State.solutionAcked (s : State) : State :=
  match s.pr.unacked with
  | some q => { s with qp := { s.qp with waiting := some q }, pr := { s.pr with unacked := none } }
  | none => s

/-- SOLVE_END (R186, R188, R191, R195, R196, R201): a solve ends converged, at the iteration cap or on a non-finite value, and its
result is written. -/
def execSolveEnd (s : State) : Res :=
  if !qpOn s then .next s
  else
    match s.qp.insts with
    | i :: rest =>
      if i.solving then
        let a := chInst i.buf
        let r := qpSolve (qpCfgOf s) a s.mem
        let n := s.freeNorms
        let ws := solutionWords s.mem a r n.1
        let s1 := ({ n.2 with mem := r.mem }.modQp fun q => { q with insts := rest }).countSolve r i.index
        .next (if r.how = .converged then s1.completeSolution i.index (g64 s.mem (a + 16)) ws else s1)
      else .next s
    | [] =>
      match s.qp.jobs with
      | j :: rest =>
        if j.submit && j.solving then
          let a := j.w0.toNat
          let r := qpSolve (qpCfgOf s) a s.mem
          let n := s.freeNorms
          let ws := solutionWords s.mem a r n.1
          let s1 := ({ n.2 with mem := r.mem }.modQp fun q => { q with jobs := rest }).countSolve r (iWord s.mem a 3)
          let st := match r.how with
            | .converged => Status.ok
            | .iterCap => .okLimited
            | .nanAbort => .aborted
          let fl := if warmReject s.mem a then flagWarmReject else 0#8
          .next (((s1.wrBytes j.w1.toNat (wordsBytes ws)).opDone j.flow j.op st fl (some (BitVec.ofNat 64 r.iter))).nextJob)
        else .next s
      | [] => .next s

/-! ### The beat boundary (R185, R196, R197, R200, R202) -/

/-- The waiting solution becomes current at boundary `c`, or is discarded (R19, R196). -/
def State.publish (s : State) (c : BitVec 32) : State :=
  match s.qp.waiting with
  | none => s
  | some (b, sig) =>
    let drop := fun (reason : BitVec 32) (s : State) => (s.modQp fun q => { q with waiting := none }).emit 8 0x004#12 [reason, b]
    if sig ≠ s.qp.sig then drop 2#32 s
    else if tooOld s c b then drop 0#32 ((s.qpCount 3 1).qpSet 4)
    else
      (s.modQp fun q => { q with
        waiting := none, curValid := true, curBuf := !q.curBuf, curIndex := b, curSig := sig, curExpired := false
        withdrawn := false }).qpCount 1 1

/-- A follower publishes the solution that the input record names (R372). -/
def State.publishNamed (s : State) (b : BitVec 32) : State :=
  match s.pr.solIn with
  | some (i, ws) =>
    if i = b && !(s.qp.curValid && decide (s.qp.curIndex = b)) then
      let m := memWriteList s.mem (chSol (!s.qp.curBuf)) (wordsBytes ws)
      ({ s with
        mem := m, pr := { s.pr with solIn := none }
        qp := { s.qp with
          curValid := true, curBuf := !s.qp.curBuf, curIndex := b, curSig := g64 m (chSol (!s.qp.curBuf) + 8), curExpired := false
          withdrawn := false } }).qpCount 1 1
    else s
  | none => s

/-- Solves and queued instances that have become too old end (R197). -/
def State.endLate (s : State) (c : BitVec 32) : State :=
  let old : List ChInst := s.qp.insts.filter fun i => tooOld s c i.index
  (s.modQp fun q => { q with insts := q.insts.filter fun i => !tooOld s c i.index }).forEach old fun s i =>
    let s1 := (s.qpCount 3 1).qpSet 4
    if i.solving then s1.abandon 1#2 i.index else s1

/-- The current solution expires (R200). -/
def State.expire (s : State) (c : BitVec 32) : State :=
  if s.qp.curValid && tooOld s c s.qp.curIndex then s.modQp fun q => { q with curExpired := true } else s

/-- Planning stops: a solve in progress is abandoned and queued instances are discarded (R185). -/
def State.stopPlanning (s : State) : State :=
  let run : List ChInst := s.qp.insts.filter fun i => i.solving
  (s.modQp fun q => { q with planning := false, insts := [] }).forEach run fun s i => s.abandon 3#2 i.index

/-- The QP.STOP operations accepted before this instant take effect (R185). -/
def State.qpStops (s : State) : State :=
  let due : List (Fin 16 × Nat × Nat) := s.qp.stopAt.filter fun q => decide (q.2.2 < s.tb.timeFix)
  if due.isEmpty then s
  else
    ((s.stopPlanning).modQp fun q => { q with stopAt := q.stopAt.filter fun q => !decide (q.2.2 < s.tb.timeFix) }).forEach due
      fun s q => s.opDone q.1 q.2.1 .ok 0#8 none

/-- A QP.START accepted strictly before this instant takes effect (R185). -/
def State.qpStarts (s : State) : State :=
  match s.qp.startAt with
  | some (d, t) =>
    if t < s.tb.timeFix then s.modQp fun q => { q with planning := true, formSlot := d, startAt := none } else s
  | none => s

/-- The pending cost image takes effect: the halves are exchanged and the operations complete (R202, R222). -/
def State.costExchange (s : State) : State :=
  match s.qp.cost with
  | none => s
  | some c =>
    let s1 := s.modQp fun q => { q with cost := none, costSel := if c.dead then q.costSel else !q.costSel }
    let s2 := s1.forEach c.overw fun s q =>
      if c.dead || q.2.2 then s.opDone q.1 q.2.1 .aborted 0#8 none else s.opDone q.1 q.2.1 .ok flagNoEffect none
    if c.dead then s2.opDone c.flow c.op .aborted 0#8 none else s2.opDone c.flow c.op .ok 0#8 none

/-- What Churn does at the boundary of beat `c` (R44, R185, R196, R197, R200, R202). -/
def State.qpBoundary (s : State) (c : BitVec 32) : State :=
  ((((((if follows s then s else s.publish c)).endLate c).expire c).qpStops).qpStarts).costExchange

/-- The plan clocks of the arms under MPC advance by one pick (R199). -/
def State.psiPick (s : State) : State :=
  s.modQp fun q => { q with psi := Vector.ofFn fun r => if (s.armDef r).mpc then q.psi[r] + s.pg.sigma[r] else q.psi[r] }

/-- The plan clocks at the boundary of beat `b` are kept with those of the 63 boundaries before (R199). -/
def State.psiBeat (s : State) (b : BitVec 32) : State :=
  s.modQp fun q => { q with psiAt := ((b, q.psi) :: q.psiAt).take 64 }

/-! ### Schedules (R219 to R222) -/

/-- The image that a QP.SCHED names. -/
def schImg (s : State) (w : TWord) : SchImg := { mem := s.mem, at_ := (w.x 0).toNat }

/-- The CRC of the `len` bytes of a schedule at `a`, its CRC word taken as zero (R204). -/
def schCrc (m : List Host.Cell) (a len : Nat) : BitVec 32 :=
  crc32c (memReadList m a 44 ++ [0#8, 0#8, 0#8, 0#8] ++ memReadList m (a + 48) (len - 48))

/-- A failed QP.SCHED leaves its status and the offset of the first failing word, and writes SCHED_REJECT (R219, R223). -/
def State.schedFail (s : State) (st : Status) (off : Nat) : State :=
  (s.modQp fun q => { q with schedErr := (st.code).setWidth 32 ||| nat32 off 8 }).emit 8 0x008#12
    [(st.code).setWidth 32, BitVec.ofNat 32 off]

/-- A failure of the image other than of its CRC. -/
def schBad (s : State) (w : TWord) : Option SchBad :=
  match (schImg s w).check (w.x 1).toNat with
  | some q => if q.1 = .internal then none else some q
  | none => none

/-- QP.SCHED (R219, R220): the image is checked in full; one that passes is queued for its copy. -/
def execQpSched (f : Fin 16) (w : TWord) (s : State) : Res :=
  .next (s.devOp f 0x31#8 0#4 w [] 0#32 none
    (fun _ => [xwNot w [2#4], (!sharedOk (w.x 0) 16, .badOperand)])
    (fun s =>
      let ok := (schBad s w).isNone
      let g := stateGate s [.ready, .run] 7 0#8
      [(ok && g.1, g.2.1, g.2.2), (ok && !planStopped s, .state, 0#8)])
    fun s =>
      match schBad s w with
      | some q =>
        (if qpOn s then s.schedFail q.1 q.2 else s).retireBad f w q.1 0x31#8 0#4 0#7 0#8
      | none =>
        let id := s.opId f
        let s1 := s.opIssue f w false
        if (schImg s w).crcOk then
          let j : ChJob := { flow := f, op := id, w0 := w.x 0, w1 := w.x 1, crc := (schImg s w).w 11 }
          s1.modQp fun q => { q with jobs := q.jobs ++ [j], sched := q.sched && !q.jobs.isEmpty }
        else (s1.schedFail .internal 44).opDone f id .internal 0#8 none)

/-- A cost table half with every weight 1.0 (R222). -/
def costOnes (nw : Nat) : List (BitVec 32) :=
  [1#32, BitVec.ofNat 32 nw, BitVec.ofNat 32 (16 + 8 * nw), 0#32] ++ List.replicate (2 * nw) 0x3F800000#32

/-- The first byte of half `h` of the cost table (R202). -/
def costHalf (s : State) (h : Bool) : Nat := Config.sharedBase + s.qp.costBase.toNat * 0x10000 + (if h then 0x10000 else 0)

/-- A schedule is loaded whose NW differs from that of the one before: the cost table is set to ones and a pending image is
dropped at its exchange (R222). -/
def State.costReset (s : State) (nw : Nat) : State :=
  if s.qp.nwLoaded = some nw then s
  else
    let b := wordsBytes (costOnes nw)
    let m := memWriteList (memWriteList s.mem (costHalf s false) b) (costHalf s true) b
    { s with mem := m, qp := { s.qp with nwLoaded := some nw, cost := s.qp.cost.map fun c => { c with dead := true } } }

/-- QP_SCHED_COPY_DONE (R220, R222): the image has been copied; with a matching CRC the schedule is loaded. -/
def execQpSchedCopyDone (s : State) : Res :=
  match s.qp.jobs with
  | j :: rest =>
    if qpOn s && !j.submit then
      let len := j.w1.toNat
      let m := memWriteList s.mem chBase (s.rdBytes j.w0.toNat len)
      let s1 := { s with mem := m, qp := { s.qp with jobs := rest } }
      if schCrc m chBase len = j.crc then
        let s2 := ((s1.modQp fun q => { q with sched := true }).qpSig).emit 8 0x007#12
          [(schWord m 0 >>> 16) &&& 3#32 ||| at32 (field (schWord m 7) 0 16) 16, schWord m 14, schWord m 15]
        .next (((s2.costReset (field (schWord m 3) 16 16).toNat).opDone j.flow j.op .ok 0#8 none).nextJob)
      else .next (((s1.schedFail .internal 44).opDone j.flow j.op .internal 0#8 none).nextJob)
    else .next s
  | [] => .next s

/-! ### Planning and host-formed solves (R185, R201, R202) -/

/-- The slot holds a draft bound at rate 1 that ends in its one QP_ASSEMBLE node with OUTQ = 1 (R185). -/
def formingDraft (s : State) (d : Fin 8) : Bool :=
  let x := s.draft d
  let n := x.nodes.toNat
  decide (x.state = .bound) && x.rate && ((List.range n).filter fun i => (s.desc d i).forms) == [n - 1] && decide (0 < n)

/-- QP.START: planning starts at the next beat boundary. -/
def execQpStart (f : Fin 16) (w : TWord) (s : State) : Res :=
  .next (s.devOp f 0x31#8 1#4 w [w.ra] 0x7F#32 (some 8) (fun _ => [xwNot w [0#4]])
    (fun s =>
      [stateGate s [.run] 7 0#8, leaseGate s,
       (!s.qp.sched || !formingDraft s (Fin.ofNat 8 ((s.flow f).obj w).toNat) || !planStopped s, .state, 0#8)])
    fun s =>
      (s.modQp fun q => { q with startAt := some (Fin.ofNat 8 ((s.flow f).obj w).toNat, s.tb.timeFix) }).opAccept f w .ok 0#8 none)

/-- QP.STOP: planning stops at the next beat boundary, and the operation completes there. -/
def execQpStop (f : Fin 16) (w : TWord) (s : State) : Res :=
  .next (s.devOp f 0x31#8 2#4 w [] 0#32 none (fun _ => [xwNot w [0#4]])
    (fun s =>
      [stateGate s [.ready, .run] 7 0#8, leaseGate s, ((fins 8).any fun r => (s.armDef r).mpc, .state, 0#8)])
    fun s =>
      let id := s.opId f
      (s.opIssue f w false).modQp fun q => { q with stopAt := q.stopAt ++ [(f, id, s.tb.timeFix)] })

/-- QP.SUBMIT (R201, R221): the instance is checked, or waits for the QP.SCHED before it, and is queued. -/
def execQpSubmit (f : Fin 16) (w : TWord) (s : State) : Res :=
  .next (s.devOp f 0x31#8 3#4 w [w.rd] 0#32 none
    (fun s =>
      let a := (w.x 0).toNat
      let now := s.qp.jobs.isEmpty
      let c := instCheck s.mem a s.qp.sig s.qp.sched
      [xwNot w [2#4], (!sharedOk (w.x 0) 8 || !sharedOk (w.x 1) 8, .badOperand),
       (now && decide (c = some .badOperand), .badOperand),
       (now && (decide (c = some .length) || decide (sharedEnd < a + (iWord s.mem a 8).toNat) ||
         decide (sharedEnd < (w.x 1).toNat + solutionBytes (qpDims s.mem))), .length),
       (now && decide (c = some .range), .range)])
    (fun s => [stateGate s [.ready, .run] 7 0#8, (!planStopped s, .state, 0#8)])
    fun s =>
      let j : ChJob := { flow := f, op := s.opId f, submit := true, w0 := w.x 0, w1 := w.x 1 }
      (s.opIssue f w true).modQp fun q => { q with jobs := q.jobs ++ [j] })

/-- The words of a cost image (R202). -/
def costWord (s : State) (a : W64) (n : Nat) : BitVec 32 := g32 s.mem (a.toNat + 4 * n)

/-- QP.PARAM (R202): the image goes into the inactive half, and the halves are exchanged at the next boundary. -/
def execQpParam (f : Fin 16) (w : TWord) (s : State) : Res :=
  .next (s.devOp f 0x31#8 4#4 w [] 0#32 none
    (fun s =>
      let a := w.x 0
      let nw := (costWord s a 1).toNat
      let len := (costWord s a 2).toNat
      [xwNot w [2#4], (!sharedOk a 8, .badOperand),
       (decide (field (costWord s a 0) 0 16 ≠ 1#16) || decide (field (costWord s a 0) 16 16 ≠ 0#16) ||
         decide (costWord s a 3 ≠ 0#32) || (s.qp.sched && decide (nw ≠ (field (schWord s.mem 3) 16 16).toNat)), .badOperand),
       (decide ((w.x 1).toNat < len) || decide (65536 < len) || decide (len < 16 + 8 * nw) || decide (sharedEnd < a.toNat + len),
         .length),
       ((List.range (2 * min nw 8192)).any fun i =>
         let x := costWord s a (4 + i)
         !finite32 x || flt (f64 x) fzero, .range)])
    (fun s => [stateGate s [.ready, .run] 7 0#8, (!s.qp.sched, .state, 0#8)])
    fun s =>
      let a := (w.x 0).toNat
      let id := s.opId f
      let ow := match s.qp.cost with
        | some c => (c.overw.map fun q => (q.1, q.2.1, q.2.2 || c.dead)) ++ [(c.flow, c.op, c.dead)]
        | none => []
      let e : Cost := { flow := f, op := id, overw := ow }
      let s1 := (s.opIssue f w false).wrBytes (costHalf s (!s.qp.costSel)) (s.rdBytes a (costWord s (w.x 0) 2).toNat)
      let s2 := s1.modQp fun q => { q with cost := some e }
      if s.tb.running then s2 else s2.costExchange)

/-! ### Registers -/

/-- PD7 is powered, so the Churn registers are accessible. -/
def qpUp (s : State) : Bool := (s.domain 7).up

/-- CH_CNT_CLR: CH_CTRL.CNT_CLR clears every CH_CNT counter. -/
def execChCntClr (s : State) : Res :=
  if qpUp s then .next (s.modQp fun q => { q with cnt := Vector.replicate 7 0#32 }) else .next s

/-- CH_SIG_LO_READ: returns SIG_eff[31:0] and captures SIG_eff[63:32]. -/
def execChSigLoRead (s : State) : Res :=
  if qpUp s then
    .next { s with qp := { s.qp with capSigHi := (s.qp.sig >>> 32).setWidth 32 }, rdata := [s.qp.sig.setWidth 32] }
  else .next { s with rdata := [0#32] }

/-- H_s of the loaded schedule; 0 while none is loaded. -/
def schHash (s : State) : BitVec 64 := if s.qp.sched then g64 s.mem (chBase + 56) else 0#64

/-- CH_SCHED_HASH_LO_READ: returns H_s[31:0] and captures H_s[63:32]. -/
def execChSchedHashLoRead (s : State) : Res :=
  if qpUp s then
    .next { s with qp := { s.qp with capHashHi := (schHash s >>> 32).setWidth 32 }, rdata := [(schHash s).setWidth 32] }
  else .next { s with rdata := [0#32] }

end Sys2Proof.Machine
end

