-- ==== Sys2Proof/Machine/StepperLinks.lean ====
section
/-! DEFINITION. The stepper links: configuration, the fit of SUB to the pick, and the frames (R176 to R178). -/
namespace Sys2Proof.Machine

/-- Stepper link `n` changed. -/
def State.modStl (s : State) (n : Fin 16) (g : StlLink → StlLink) : State := { s with stl := upd s.stl n g }

/-- The axis that a link serves (R176). -/
def StlLink.theAxis (l : StlLink) : Fin 80 := Fin.ofNat 80 l.axis.toNat

/-- The largest SUB, at most `n`, whose frame periods fit the pick: 36 × DIV / 1.2 GHz × SUB is at most V / 32 ns (R178). -/
def subFit (vv div : Nat) : Nat → Nat
  | 0 => 1
  | n + 1 => if 960 * div * (n + 1) ≤ vv then n + 1 else subFit vv div n

/-- SUB_ACTIVE follows from SUB, DIV and the pick; a SUB that does not fit sets SUB_REDUCED and writes its record (R178). -/
def State.stlFit (s : State) (n : Fin 16) : State :=
  let l := s.stl[n]
  let a := subFit s.pickV l.div.toNat l.sub.toNat
  let s1 := s.modStl n fun l => { l with subActive := BitVec.ofNat 5 a, subReduced := l.subReduced || decide (a ≠ l.sub.toNat) }
  if a = l.sub.toNat then s1 else s1.emit 13 0x002#12 [nat32 n.val 0 ||| nat32 a 8]

/-- A write to STL_CFG_n is ignored (R176). -/
def stlCfgBad (s : State) (n : Fin 16) (v : BitVec 32) : Bool :=
  let ax := (field v 0 7).toNat
  let sub := (field v 9 5).toNat
  let div := (field v 24 8).toNat
  let a : Fin 80 := Fin.ofNat 80 ax
  decide (ax < 64) || decide (79 < ax) || decide (sub = 0) || decide (16 < sub) || decide (div < 24) || decide (240 < div) ||
  decide ((s.axis (s.stl[n]).theAxis).state ≠ .disabled) || decide ((s.axis a).state ≠ .disabled) ||
  (bit v 7 && (decide ((s.slice a).outmode ≠ 3#2) ||
    (fins 16).any fun m => decide (m ≠ n) && (s.stl[m]).en && decide ((s.stl[m]).axis.toNat = ax)))

/-- STL_CFG_WRITE (R176, R178): a link configuration write is accepted, with SUB reduced to fit, or ignored with CFG_REJ. -/
def execStlCfgWrite (n : Fin 16) (v : BitVec 32) (s : State) : Res :=
  if !axisUp s then .next s
  else if stlCfgBad s n v then .next (s.modStl n fun l => { l with cfgRej := true })
  else
    let x := if field v 0 7 = (s.stl[n]).axis then none else some (s.slice (Fin.ofNat 80 (field v 0 7).toNat)).held.xr
    .next ((s.modStl n fun l =>
      { l with
        xPrev := x.getD l.xPrev, xCur := x.getD l.xCur
        axis := field v 0 7, en := bit v 7, inv := bit v 8, sub := field v 9 5, div := field v 24 8
        sent := l.sent && bit v 7 && decide (field v 0 7 = l.axis) }).stlFit n)

/-- The microstep table address at a position (R177). -/
def StlLink.addr (l : StlLink) (x : Int) : BitVec 10 :=
  let d := rsh (x * l.mscale.toNat) 32
  BitVec.ofInt 10 ((l.addrOff.toNat : Int) + if l.inv then -d else d)

/-- The check byte of a frame (R177). -/
def stlChk (v : BitVec 32) : BitVec 8 := 0xFF#8 ^^^ field v 0 8 ^^^ field v 8 8 ^^^ field v 16 8

/-- The frame of a link: ADDR, CURRENT, EN, MARK and CHK (R177). -/
def stlWord (addr : BitVec 10) (current : BitVec 8) (en : Bool) : BitVec 32 :=
  let v : BitVec 32 := at32 addr 0 ||| at32 current 10 ||| bitAt en 18 ||| nat32 10 20
  v ||| at32 (stlChk v) 24

/-- The current scale of a frame sent at `t` ns (R177). -/
def stlCurrent (s : State) (a : Fin 80) (t changed : Nat) : BitVec 8 :=
  let p := s.pax a
  let n := if stallSearch s a then p.par 13 else if t ≤ changed + (p.par 23).toNat * 1000000 then p.par 21 else p.par 22
  if (s.axis a).state.closed then BitVec.ofInt 8 n else 0#8

/-- Two consecutive addresses differ by more than 255, compared as 10-bit values (R47, R178). -/
def stlFar (a b : BitVec 10) : Bool := decide (255 < (a - b).toInt.natAbs)

/-- STL_FRAME (R177, R178): the link sends the next frame of the pick at its sub-pick instant. -/
def execStlFrame (n : Fin 16) (s : State) : Res :=
  let l := s.stl[n]
  let sub := l.subActive.toNat
  let can := decide (s.pw.state = .ready) || decide (s.pw.state = .run)
  if can && l.en && s.tb.running && decide (l.frame < sub) then
    let s0 := s.reach (s.tb.pickTime.toNat + 8 * (l.frame * s.pickV / (256 * sub)))
    let a := l.theAxis
    let x := l.xPrev + ((l.xCur - l.xPrev) * (l.frame + 1)).tdiv sub
    let ad := l.addr x
    let changed := if l.sent && decide (ad = l.last) then l.changed else s0.now
    let fr := stlWord ad (stlCurrent s0 a s0.now changed) (s.axis a).state.closed
    let s1 := s0.modStl n fun l => { l with last := ad, sent := true, frame := l.frame + 1, changed := changed }
    let s2 := { s1 with out := .stl n.val fr :: s1.out }
    if l.sent && stlFar ad l.last then
      .next (((s2.modStl n fun l => { l with fast := true }).emit 13 0x001#12 [nat32 n.val 0 ||| nat32 a.val 8]).faultAxis a)
    else .next s2
  else .next s

end Sys2Proof.Machine
end

