-- ==== Sys2Proof/Machine/Tick.lean ====
section
/-! DEFINITION. What one step does when no command waits: cell time advances by one period of the clock that moves it (R36). -/
namespace Sys2Proof.Machine

/-- The advance of cell time per 8 ns tick while PLL_NET runs: 8 ns plus the rate correction (R36). -/
def tickInc (s : State) : Int := 8 * nsUnit + s.tb.incAdj.toInt

/-- The advance per period of the 32.768 kHz oscillator: 30,517.578125 ns plus the same rate correction (R36). -/
def slowInc (s : State) : Int := 131072000000000 + (s.tb.incAdj.toInt * 131072000000000).tdiv (8 * nsUnit)

/-- One tick with nothing waiting: cell time advances and nothing else happens; it stands in OFF (R35, R36). DESIGN CHOICE
(log 2). -/
def idleTick (s : State) : State :=
  match s.pw.state with
  | .off => s
  | .standby => { s with tb.timeFix := s.tb.timeFix + (slowInc s).toNat }
  | .sleep => { s with tb.timeFix := s.tb.timeFix + (slowInc s).toNat }
  | _ => { s with tb.timeFix := s.tb.timeFix + (tickInc s).toNat }

end Sys2Proof.Machine
end

