-- ==== Sys2Proof/Machine/TimeBase.lean ====
section
/-! DEFINITION. The cell time base: START, APPLY, the stop of picks and the reads with captures (R35, R38 to R46). -/
namespace Sys2Proof.Machine

/-- The time base changed. -/
def State.modTb (s : State) (g : TimeBase → TimeBase) : State := { s with tb := g s.tb }

/-- V of a period word: PERIOD × 256 + FRAC (R38). -/
def periodV (w : BitVec 32) : Nat := (field w 0 24).toNat * 256 + (field w 24 8).toNat

/-- The staged period and beat length lie in their ranges (R38, R42). -/
def stagedOk (t : TimeBase) : Bool :=
  decide (1000000 ≤ periodV t.stagedPeriod) && decide (periodV t.stagedPeriod ≤ 32000000) && decide (1 ≤ t.stagedN.toNat) &&
  decide (t.stagedN.toNat ≤ 64)

/-- P in units of 2^-32 ns: V / 32 ns (R38). -/
def periodFix (w : BitVec 32) : Nat := periodV w * 134217728

/-- The nominal instant τ_j of the grid in force, in 2^-32 ns (R39). -/
def TimeBase.nominal (t : TimeBase) (j : Nat) : Nat := t.gridOrigin + j * periodFix t.activePeriod

/-- The cell time, in 2^-32 ns, of the first tick at which cell time is at least `t` (R36, R39). -/
def State.tickAt (s : State) (t : Nat) : Nat :=
  if t ≤ s.tb.timeFix then s.tb.timeFix
  else
    let inc := (tickInc s).toNat
    s.tb.timeFix + ((t - s.tb.timeFix + inc - 1) / inc) * inc

/-- The next pick instant, in 2^-32 ns, while picks run (R39). -/
def State.nextPickFix (s : State) : Option Nat :=
  if s.tb.running then some (s.tickAt (s.tb.nominal s.tb.j)) else none

/-- The first multiple of `n` at which the nominal instant from `org` under period `p` is at least `lo` (R40). -/
def firstJ (org p n lo : Nat) : Nat := if lo ≤ org then 0 else ((lo - org + p * n - 1) / (p * n)) * n

/-- TB_START (R40): picks start at the origin, or at the first later nominal instant that is a beat boundary. START_REJ is set
outside READY, whether or not picks run. -/
def execTbStart (s : State) : Res :=
  if s.pw.state = .off then .next s
  else if s.pw.state ≠ .ready then .next (s.modTb fun t => { t with startRej := true })
  else if s.tb.running then .next s
  else if !stagedOk s.tb then .next (s.modTb fun t => { t with rangeRej := true })
  else
    let org := s.tb.origin.toNat * nsUnit
    let lo := s.tb.timeFix + 1000 * nsUnit
    let n := s.tb.stagedN.toNat
    let j := firstJ org (periodFix s.tb.stagedPeriod) n lo
    let s1 := s.modTb fun t =>
      { t with running := true, activePeriod := t.stagedPeriod, activeN := t.stagedN, gridOrigin := org, j := j, first := true
               originShift := t.originShift || decide (org < lo), firstPick := t.startPick + BitVec.ofNat 32 j
               firstBeat := t.startBeat + BitVec.ofNat 32 (j / n), pending := none }
    .next (s1.forEach (fins 16) fun s l => s.stlFit l)

/-- TB_APPLY (R45, R46): the staged values wait for the next beat boundary, or the APPLY is refused. -/
def execTbApply (s : State) : Res :=
  if s.pw.state ≠ .ready || !s.tb.running then
    .next ((s.modTb fun t => { t with applyRej := true }).emit 2 0x001#12
      [at32 s.pw.state.code 0 ||| bitAt s.tb.running 4])
  else if !stagedOk s.tb then .next (s.modTb fun t => { t with rangeRej := true })
  else .next (s.modTb fun t => { t with pending := some (t.stagedPeriod, t.stagedN), applyTick := t.timeFix })

/-- Picks stop: the device has entered a state other than READY, RUN and SAFE_HOLD (R40). -/
def State.stopPicks (s : State) : State := (s.modTb fun t => { t with running := false, pending := none }).reedStop

/-- TB_TIME_LO_READ: the low word of cell time; the high word is captured. -/
def execTbTimeLoRead (s : State) : Res :=
  .next { s.modTb fun t => { t with capTimeHi := (s.now64 >>> 32).setWidth 32 } with rdata := [s.now64.setWidth 32] }

/-- TB_PICK_TIME_LO_READ: the low word of the pick instant; its high word and the pick number are captured. -/
def execTbPickTimeLoRead (s : State) : Res :=
  .next { s.modTb fun t => { t with capPickHi := some ((t.pickTime >>> 32).setWidth 32), capPickNum := some t.pickNum } with
    rdata := [s.tb.pickTime.setWidth 32] }

/-- TB_PICK_NUM_READ: the pick number captured by a read of TB_PICK_TIME_LO, once, or the current one. -/
def execTbPickNumRead (s : State) : Res :=
  .next { s.modTb fun t => { t with capPickNum := none } with rdata := [s.tb.capPickNum.getD s.tb.pickNum] }

end Sys2Proof.Machine
end

