-- ==== Sys2Proof/Machine/SwitchBase.lean ====
section
/-! DEFINITION. The TSN switch: frames, egress queues, gates, shapers and their clocks (R308 to R319). -/
namespace Sys2Proof.Machine

/-! ### Access -/

/-- The switch changed. -/
def State.modSw (s : State) (g : Switch → Switch) : State := { s with sw := g s.sw }
/-- Port `p` changed. -/
def State.modPort (s : State) (p : Fin 8) (g : Port → Port) : State := { s with sw.port := upd s.sw.port p g }
/-- An external port as a port. -/
def extPort (p : Fin 6) : Fin 8 := ⟨p.val, by omega⟩
/-- A port is external (R308). -/
def isExt (p : Fin 8) : Bool := decide (p.val < 6)

/-- The request level of an external port's vector: PT_STICKY under PT_INT_EN (R128). -/
def ptLevel (p : Fin 8) (s : State) : Bool := decide ((s.sw.port[p]).sticky &&& (s.sw.port[p]).intEn ≠ 0#5)

/-- A bit of PT_STICKY is set; ports 0 to 5 have vectors 24 to 29. -/
def State.ptSet (s : State) (p : Fin 8) (i : Nat) : State :=
  let s' := s.modPort p fun t => { t with sticky := setBit t.sticky i }
  if isExt p then irqWatch (Fin.ofNat 64 (24 + p.val)) (ptLevel p) s s' else s'

/-- A port counter one step on: 0 RX, 1 TX, 2 DROP, 3 LATE, 4 CRC, 5 OVERSIZE. -/
def State.ptCount (s : State) (p : Fin 8) (k : Fin 6) : State := s.modPort p fun t => { t with cnt := upd t.cnt k satInc }

/-- A bit of SW_STICKY is set: 0 DT_FORMAT, 1 DT_LENGTH, 2 CB_FULL, 3 CFG_REJ. -/
def State.swSet (s : State) (i : Nat) : State := s.modSw fun w => { w with sticky := setBit w.sticky i }

/-- A switch counter one step on: 0 SW_CB_NOSTREAM, 1 DT_RX_OK, 2 DT_RX_DISC, 3 DT_DUP. -/
def State.swCount (s : State) (k : Fin 4) : State := s.modSw fun w => { w with cnt := upd w.cnt k satInc }

/-- The switch runs: PD10 is in RUN and the device is in READY, RUN or SAFE_HOLD (R310). -/
def swRuns (s : State) : Bool := s.pw.state.live && decide (s.domain 10 = .run)

/-- Forwarding runs: READY or RUN (R310). -/
def swForwards (s : State) : Bool := swRuns s && decide (s.pw.state ≠ .safeHold)

/-- Network time of a cell time in ns (R336). -/
def State.netTime (s : State) (c : Nat) : Int := (c : Int) + s.nt.ofs

/-- Cell time of a network time; a time before the start of cell time counts as 0 (R336). -/
def State.cellTime (s : State) (n : Int) : Nat := (n - s.nt.ofs).toNat

/-! ### Frames -/

/-- The bytes of a MAC address register, byte 0 first. -/
def macBytes (m : BitVec 48) : List Byte := natBytes m.toNat 6
/-- The big-endian bytes of a number. -/
def beBytes (v n : Nat) : List Byte := (natBytes v n).reverse
/-- Destination address of a frame. -/
def frDa (f : List Byte) : BitVec 48 := BitVec.ofNat 48 (leAt f 0 6)
/-- Source address of a frame. -/
def frSa (f : List Byte) : BitVec 48 := BitVec.ofNat 48 (leAt f 6 6)
/-- The frame carries a VLAN tag. -/
def frTagged (f : List Byte) : Bool := decide (beAt f 12 2 = 0x8100)
/-- VID of a frame; an untagged frame has VID 0. DESIGN CHOICE (log 22). -/
def frVid (f : List Byte) : BitVec 12 := if frTagged f then BitVec.ofNat 12 (beAt f 14 2) else 0#12
/-- PCP of a frame's tag. -/
def frPcp (f : List Byte) : Option (Fin 8) := if frTagged f then some (Fin.ofNat 8 (beAt f 14 2 / 8192)) else none
/-- Place of the EtherType after the VLAN tag. -/
def frBody (f : List Byte) : Nat := if frTagged f then 16 else 12
/-- The frame carries an R-TAG (R320). -/
def frRtag (f : List Byte) : Bool := decide (beAt f (frBody f) 2 = 0xF1C1)
/-- Sequence number of an R-TAG. -/
def frRseq (f : List Byte) : BitVec 16 := BitVec.ofNat 16 (beAt f (frBody f + 4) 2)
/-- The frame without its R-TAG (R320). -/
def frStrip (f : List Byte) : List Byte := if frRtag f then f.take (frBody f) ++ f.drop (frBody f + 6) else f
/-- EtherType after the VLAN tag and the R-TAG. -/
def frType (f : List Byte) : BitVec 16 := BitVec.ofNat 16 (beAt (frStrip f) (frBody f) 2)
/-- The bytes after that EtherType. -/
def frData (f : List Byte) : List Byte := (frStrip f).drop (frBody f + 2)
/-- Group bit of an address. -/
def macGroup (m : BitVec 48) : Bool := bit m 0

/-- The FCS of IEEE 802.3 (R309). -/
def frFcs (f : List Byte) : List Byte := natBytes (~~~(crcFold 0xEDB88320#32 0xFFFFFFFF#32 f)).toNat 4

/-- A frame built by the device: addresses, optional tag, EtherType and data, filled with zeros to 60 bytes. -/
def mkFrame (da sa : BitVec 48) (vid : BitVec 12) (pcp : BitVec 3) (ty : Nat) (data : List Byte) : List Byte :=
  let tag := if vid = 0#12 then [] else beBytes 0x8100 2 ++ beBytes (pcp.toNat * 8192 + vid.toNat) 2
  let f := macBytes da ++ macBytes sa ++ tag ++ beBytes ty 2 ++ data
  f ++ List.replicate (60 - f.length) 0#8

/-- 01-80-C2-00-00-00 to -0F (R310). -/
def macReserved (m : BitVec 48) : Bool := decide (m.setWidth 40 = 0x0000C28001#40) && decide (m.toNat / 2 ^ 44 = 0)

/-! ### Port rate and transmission time -/

/-- Rate of a port in kbit/s by MODE; 0 while disabled (R308). -/
def modeRate (m : BitVec 3) : Nat :=
  if m = 1#3 ∨ m = 2#3 then 1000000 else if m = 3#3 then 2500000 else if m = 4#3 then 10000000 else 0

/-- Time that `n` bytes take at a rate, in 2^-32 ns. -/
def bytesTime (n rate : Nat) : Nat := if rate = 0 then 0 else n * 8 * 1000000 * nsUnit / rate

/-! ### Gates (R312 to R314) -/

/-- Entry `i` of the operational list. -/
def Port.entry (t : Port) (bank : Bool) (i : Nat) : BitVec 64 := getN (t.gcl[if bank then (1 : Fin 2) else 0]) i
/-- The gates of entry `i`. -/
def Port.gates (t : Port) (bank : Bool) (i : Nat) : BitVec 8 := (t.entry bank i).setWidth 8
/-- INTERVAL of entry `i`, in 2^-32 ns. -/
def Port.interval (t : Port) (bank : Bool) (i : Nat) : Nat := ((t.entry bank i) >>> 32).toNat * nsUnit

/-- The gate of class `c` is open: EN is 0, no cycle has begun yet, or the entry in force opens it (R313). The gates before the
first cycle start: DESIGN CHOICE (log 22). -/
def Port.gateOpen (t : Port) (c : Nat) : Bool :=
  !t.gclEn || (match t.run with
    | none => true
    | some r => bit (t.gates t.bank r.idx) c)

/-- Base time of a cycle, network ns (R313). -/
def GclCfg.base (g : GclCfg) : Int := g.baseS.toNat * 1000000000 + g.baseNs.toNat

/-- First instant base + k × cycle (k ≥ 0), in cell time 2^-32 ns, that is not before `t`; `strict` asks for one after it. -/
def gclStart (s : State) (g : GclCfg) (t : Nat) (strict : Bool) : Nat :=
  let b := (g.base - s.nt.ofs) * nsUnit
  let c : Int := g.cycle.toNat * nsUnit
  let d : Int := t - b
  if c ≤ 0 then t
  else if d < 0 || (d = 0 && !strict) then b.toNat
  else
    let k := if strict then d / c + 1 else (d + c - 1) / c
    (b + k * c).toNat

/-- End of the gate cycle in progress, when it is known (R313). -/
def cycleEnd (s : State) (t : Port) (r : GclRun) : Option Nat :=
  if t.oper.src then s.nextPickFix else some (gclStart s t.oper r.cycStart true)

/-- The cycle start at which a pending change becomes operational (R314). -/
def swapTime (s : State) (t : Port) : Option Nat :=
  match t.swap with
  | none => none
  | some g => if g.src then s.nextPickFix else some (gclStart s g t.swapAt false)

/-- The instant at which the gate of class `c` closes, looking from entry `i` that ends at `e` to the end of the list, bounded by the
cycle end: `none` when it stays open to the cycle end. -/
def closesInList (t : Port) (bank : Bool) (len c : Nat) (cyc : Option Nat) : Nat → Nat → Nat → Option Nat
  | 0, _, _ => none
  | fuel + 1, i, e =>
    if len ≤ i + 1 then none
    else if cyc.elim false fun x => decide (x ≤ e) then none
    else if bit (t.gates bank (i + 1)) c then closesInList t bank len c cyc fuel (i + 1) (e + t.interval bank (i + 1))
    else some e

/-- The next closing of the gate of class `c` that is open now, as far as the lists in force and pending show it (R312). -/
def gateCloses (s : State) (t : Port) (c : Nat) : Option Nat :=
  if !t.gclEn then none
  else match t.run with
    | none => none
    | some r =>
      let sw := swapTime s t
      let ce := cycleEnd s t r
      let endAt := match ce, sw with
        | some a, some b => some (min a b)
        | some a, none => some a
        | none, b => b
      match closesInList t t.bank t.oper.len.toNat c endAt 256 r.idx (r.start + t.interval t.bank r.idx) with
      | some x => some x
      | none =>
        match endAt with
        | none => none
        | some x =>
          let swapped := decide (sw = some x)
          let bank := if swapped then !t.bank else t.bank
          let len := if swapped then (t.swap.getD {}).len.toNat else t.oper.len.toNat
          if bit (t.gates bank 0) c then closesInList t bank len c none 256 0 (x + t.interval bank 0) else some x

/-! ### Credit-based shaper (R315) -/

/-- Credit after `d` units of time at a slope in kbit/s, bounded. -/
def creditStep (cr : Int) (slope : Int) (d : Nat) (lo hi : Int) : Int := clampInt lo hi (cr + slope * d)

/-- One credit brought from `a` to `b`, during which the condition of the class does not change: transmitting, waiting, or idle; held
while its gate is closed (R315). hiCredit and loCredit are those of a frame of 1,522 bytes. PRESUMED (log 23): IEEE 802.1Qav. -/
def Port.creditOver (t : Port) (c : Fin 8) (a b : Nat) (sending : Bool) : Int :=
  let rate := modeRate t.mode
  let cr := t.credit[c]
  let idle : Int := (t.slope[c]).toNat
  let unit : Int := 1522 * 8 * 1000000 * nsUnit
  let hi := if rate = 0 then 0 else unit * idle / rate
  let lo := if rate = 0 then 0 else -(unit * (rate - idle) / rate)
  let sent := sending && decide (t.txClass = c)
  if !t.gateOpen c.val && !sent then cr
  else if sent then creditStep cr (idle - rate) (b - a) lo hi
  else if (t.q[c]).isEmpty then (if 0 < cr then 0 else creditStep cr idle (b - a) lo 0)
  else creditStep cr idle (b - a) lo hi

/-- All credits of a port brought to the present cell time. -/
def Port.credits (t : Port) (now : Nat) : Port :=
  if now ≤ t.creditAt then t
  else
    let m := min now (max t.creditAt t.txEnd)
    let t1 := if t.creditAt < m then { t with credit := Vector.ofFn fun c => t.creditOver c t.creditAt m true, creditAt := m } else t
    if m < now then { t1 with credit := Vector.ofFn fun c => t1.creditOver c m now false, creditAt := now } else t1

/-- The credits of port `p` are brought to the present. -/
def State.cbsNow (s : State) (p : Fin 8) : State := s.modPort p fun t => t.credits s.tb.timeFix

/-! ### Queues (R312, R316) -/

/-- A transmit descriptor of port 7 is written back: DONE, and DISCARDED when the frame was not sent (R443). With LOC = 0 the word
goes to the PCIe bus. -/
def State.txDone (s : State) (i : Nat) (discarded : Bool) : State :=
  let r := s.hi.tx
  let a := r.entryAddr i 32 + 8
  let len := BitVec.ofNat 32 0x01000000 ||| bitAt discarded 25
  s.busWrite r.loc a [if r.loc then (s.rd32 a &&& 0x00FFFFFF#32) ||| len else len]

/-- No queue holds a copy of the frame of this descriptor. -/
def descGone (s : State) (d : Nat) : Bool := s.sw.port.all fun t => t.q.all fun q => q.all fun f => decide (f.desc ≠ some d)

/-- A frame has left its queue: its descriptor is written back when no copy is left (R443). -/
def State.frameGone (s : State) (f : TxFrame) (discarded : Bool) : State :=
  match f.desc with
  | none => s
  | some d => if discarded || descGone s d then s.txDone d discarded else s

/-- A frame is discarded for its launch time: counted and recorded (R316). -/
def State.lateFrame (s : State) (p c : Fin 8) (f : TxFrame) : State :=
  (((s.ptCount p 3).ptSet p 1).emit 17 0x002#12
    [nat32 p.val 0 ||| nat32 c.val 4 ||| nat32 f.src.val 8, f.pick.getD 0#32]).frameGone f true

/-- A frame is put into the queue of class `c` of port `p` (R312, R316). -/
def State.enqueue (s : State) (p c : Fin 8) (f : TxFrame) : State :=
  let s := s.cbsNow p
  if f.launch.elim false fun t => decide (s.now + 1000000 < t) then s.lateFrame p c f
  else if 64 ≤ ((s.sw.port[p]).q[c]).length then
    ((s.ptCount p 2).ptSet p 2).emit 17 0x004#12 [nat32 p.val 0 ||| nat32 c.val 4]
  else s.modPort p fun t => { t with q := upd t.q c fun q => q ++ [f] }

/-- The frame at the head of a queue is taken off. -/
def State.dequeue (s : State) (p c : Fin 8) : State := s.modPort p fun t => { t with q := upd t.q c fun q => q.drop 1 }

/-- A frame has missed its launch window (R316). -/
def isLate (s : State) (f : TxFrame) : Bool :=
  f.launch.elim false fun t => decide ((t + s.sw.lateWin.toNat) * nsUnit < s.tb.timeFix)

/-- Frames at the head of the queue that have missed their launch window are discarded; `fuel` bounds their number. -/
def State.dropLate (p c : Fin 8) : Nat → State → State
  | 0, s => s
  | fuel + 1, s =>
    match ((s.sw.port[p]).q[c]).head? with
    | some f => if isLate s f then State.dropLate p c fuel ((s.dequeue p c).lateFrame p c f) else s
    | none => s

end Sys2Proof.Machine
end

