-- ==== Sys2Proof/Machine/NetTime.lean ====
section
/-! DEFINITION. The network time unit: peer delay, tracking of two gPTP domains, network time, the rate servo and the selection of the
domain (R329 to R344). -/
namespace Sys2Proof.Machine

/-- Domain `d` changed. -/
def State.modDom (s : State) (d : Fin 2) (g : NtDom → NtDom) : State := { s with nt.dom := upd s.nt.dom d g }
/-- Peer delay of port `p` changed. -/
def State.modNtPort (s : State) (p : Fin 6) (g : NtPort → NtPort) : State := { s with nt.port := upd s.nt.port p g }

/-- The unit works: the switch runs and NT_CTRL.EN is 1 (R332). -/
def ntRuns (s : State) : Bool := swRuns s && s.nt.en

/-- Code of a domain state (R335). -/
def NtDomState.code : NtDomState → Nat
  | .none => 0 | .listening => 1 | .locked => 2 | .lost => 3

/-! ### Phase and frequency (R334) -/

/-- Time of the uncorrected oscillator at the present cell time: each span counts with the correction in force (R334). -/
def oscNow (s : State) : Int :=
  s.nt.osc + ((s.tb.timeFix : Int) - s.nt.oscAt) * tickLsb / (tickLsb + s.tb.incAdj.toInt)

/-- Oscillator time and phases are brought to the present, before the correction changes. -/
def State.ntAdvance (s : State) : State :=
  let o := oscNow s
  let t := s.tb.timeFix
  let a := s.tb.incAdj.toInt
  (s.modNt fun n => { n with osc := o, oscAt := t, dom := n.dom.map fun d => { d with theta := d.thetaTo a t, thetaAt := t } }).modPr
    fun p => { p with ext := { p.ext with theta := p.ext.thetaTo a t, thetaAt := t } }

/-- The frequency of a domain against the uncorrected oscillator: the slope of a least-squares line through its Syncs, in LSB of
TB_INC_ADJ; the spec does not say how it is rounded (R334). -/
def ntFit (s : State) (h : List NtSync) : Int × State :=
  match h with
  | [] => (0, s)
  | a :: _ =>
    let pts := h.map fun q => (q.osc - a.osc, (q.time - a.time) - (q.osc - a.osc))
    let n : Int := pts.length
    let sx := (pts.map fun q => q.1).sum
    let sy := (pts.map fun q => q.2).sum
    let sxx := (pts.map fun q => q.1 * q.1).sum
    let sxy := (pts.map fun q => q.1 * q.2).sum
    let den := n * sxx - sx * sx
    let num := (n * sxy - sx * sy) * tickLsb
    if den = 0 then (0, s)
    else
      let q := num / den
      if num % den = 0 then (q, s)
      else
        let r := s.takeFresh
        (if Config.roundUp r.1 then q + 1 else q, r.2)

/-! ### Domain states (R335) -/

/-- A domain enters a state; the change is recorded (R344). -/
def State.domState (s : State) (d : Fin 2) (st : NtDomState) : State :=
  let old := (s.nt.dom[d]).state
  if old = st then s
  else
    let s1 := s.modDom d fun x => { x with state := st, run := 0 }
    let s2 := if st = .listening then s1.modDom d fun x => { x with hist := [], seq := none, last := s.now, pend := none } else s1
    (s2.ntSet 1).emit 18 0x003#12 [nat32 d.val 0 ||| nat32 st.code 4 ||| nat32 old.code 8]

/-- The domain is tracked: in LISTENING or LOCKED. -/
def NtDom.tracked (x : NtDom) : Bool := decide (x.state = .listening) || decide (x.state = .locked)

/-- Sync interval of a domain in ns: 2 to the power of its logMessageInterval seconds (R331). -/
def syncInterval (l : BitVec 8) : Nat := 1000000000 / 2 ^ l.toInt.natAbs

/-- The instant at which a tracked domain is lost, ns (R335). -/
def NtDom.lostAt (x : NtDom) : Nat := x.last + x.timeout.toNat * syncInterval x.logInt

/-- Domains whose Syncs have stayed away too long are lost (R335). -/
def State.ntTimeouts (s : State) : State :=
  s.forEach (fins 2) fun s d =>
    if (s.nt.dom[d]).tracked && decide ((s.nt.dom[d]).lostAt ≤ s.now) then s.domState d .lost else s

/-- DOMAIN_TIMEOUT (R335): TIMEOUT Sync intervals have passed without an accepted Sync. -/
def execDomainTimeout (d : Fin 2) (s : State) : Res :=
  if ntRuns s && (s.nt.dom[d]).tracked then .next ((s.reach (s.nt.dom[d]).lostAt).domState d .lost) else .next s

/-- A port becomes asCapable or ceases to be; a domain whose slave port ceases to be asCapable is lost (R332, R335). -/
def State.asCapable (s : State) (p : Fin 6) (b : Bool) : State :=
  let s1 := s.modNtPort p fun t => { t with asCapable := b }
  if b then s1
  else s1.forEach (fins 2) fun s d =>
    if (s.nt.dom[d]).tracked && decide ((s.nt.dom[d]).slave.toNat = p.val) then s.domState d .lost else s

/-! ### Messages of the unit (R330 to R333). PRESUMED (log 23): message formats of IEEE 802.1AS-2020. -/

/-- Identity of port `p`: the clock identity made from SW_MAC, and the port number. -/
def portIdent (s : State) (p : Fin 6) : List Byte :=
  let m := macBytes s.sw.mac
  m.take 3 ++ [0xFF#8, 0xFE#8] ++ m.drop 3 ++ beBytes (p.val + 1) 2

/-- The number that such an identity is. -/
def identNat (l : List Byte) : BitVec 80 := BitVec.ofNat 80 (beAt l 0 10)

/-- A timestamp of 48-bit seconds and 32-bit ns. -/
def stampBytes (n : Int) : List Byte :=
  beBytes (n / 1000000000 % 2 ^ 48).toNat 6 ++ beBytes (n % 1000000000).toNat 4

/-- A gPTP frame: type, domain, flags, correctionField, sequenceId, logMessageInterval, body. -/
def ptpFrame (s : State) (p : Fin 6) (ty : Nat) (domain : BitVec 8) (twoStep : Bool) (corr : Int) (seq : BitVec 16) (logInt : BitVec 8)
    (body : List Byte) : List Byte :=
  let h := [BitVec.ofNat 8 (0x10 + ty), 0x12#8] ++ beBytes (34 + body.length) 2 ++ [domain, 0#8, if twoStep then 0x02#8 else 0#8, 0x08#8] ++
    beBytes (corr % 2 ^ 64).toNat 8 ++ beBytes 0 4 ++ portIdent s p ++ beBytes seq.toNat 2 ++ [0#8, logInt]
  mkFrame 0x0E0000C28001#48 s.sw.mac 0#12 0#3 0x88F7 (h ++ body)

/-- The unit sends a frame through port 6 to external port `p`, at class 6; it sends nothing in SAFE_HOLD (R311, R324, R330). -/
def State.ntSend (s : State) (p : Fin 6) (f : List Byte) (inTs : Nat) (st : Stamp) : State :=
  if s.pw.state = .safeHold then s else s.enqueue (extPort p) 6 { bytes := f, src := 6, inTs := inTs, stamp := st }

/-- PDELAY_REQ_SEND (R332): once per second, every external port whose MODE is not 0 sends a request; three requests in a row without
a valid response end asCapable. -/
def execPdelayReqSend (s : State) : Res :=
  if !ntRuns s then .next s
  else
    let s1 := s.reach ((s.nt.reqAt / 1000000000 + 1) * 1000000000)
    let s2 := s1.modNt fun n => { n with reqAt := s1.now, reqCnt := n.reqCnt + 1#64 }
    let seq : BitVec 16 := s2.nt.reqCnt.setWidth 16
    .next (s2.forEach (fins 6) fun s p =>
      if (s.sw.port[extPort p]).mode = 0#3 then s
      else
        let m := if (s.nt.port[p]).reqSeq.isSome then min 3 ((s.nt.port[p]).miss + 1) else (s.nt.port[p]).miss
        let sa := s.modNtPort p fun t => { t with miss := m, good := if m = 0 then t.good else 0, reqSeq := some seq, t1 := none, resp := none }
        let sb := if 3 ≤ m then sa.asCapable p false else sa
        sb.ntSend p (ptpFrame sb p 2 0#8 false 0 seq 0#8 (List.replicate 20 0#8)) sb.now .req)

/-- A request is answered with a response that names its receipt time; the egress time of the response enters the follow-up inside the
switch (R332). -/
def State.pdelayAnswer (s : State) (p : Fin 6) (m : PtpMsg) : State :=
  s.ntSend p (ptpFrame s p 3 m.domain true 0 m.seq 0x7F#8 (stampBytes (s.netTime m.rx) ++ beBytes m.port.toNat 10)) m.rx (.resp m)

/-- PDELAY_REQ_RECEIVE (R332): every request is answered. -/
def execPdelayReqReceive (p : Fin 6) (m : PtpMsg) (s : State) : Res := if ntRuns s then .next (s.pdelayAnswer p m) else .next s

/-- A measurement of port `p` from the response `m` and its follow-up (R332): meanLinkDelay, neighborRateRatio and asCapable. -/
def State.pdelayDone (s : State) (p : Fin 6) (m fup : PtpMsg) : State :=
  let t := s.nt.port[p]
  match t.t1 with
  | none => s
  | some t1 =>
    if t.reqSeq ≠ some m.seq ∨ fup.seq ≠ m.seq ∨ fup.port ≠ m.port ∨ m.reqPort ≠ identNat (portIdent s p) ∨ fup.reqPort ≠ m.reqPort then s
    else
      let t2 : Int := m.ts * 65536 + m.corr
      let t3 : Int := fup.ts * 65536 + fup.corr
      let nrr := match t.prev with
        | some (q3, q4) => if m.rx ≤ q4 then t.nrr else (t3 - q3) * 2 ^ 41 / (((m.rx : Int) - q4) * 65536) - 2 ^ 41
        | none => t.nrr
      let turn := ((m.rx : Int) - t1) * 65536
      let d := ((turn + turn * nrr / 2 ^ 41 - (t3 - t2)) / 2).toNat
      let ok := decide (d ≤ s.nt.thresh.toNat * 65536)
      let good := if ok then min 3 (t.good + 1) else 0
      let s1 := s.modNtPort p fun x => { x with delay := d, nrr := nrr, good := good, miss := 0, reqSeq := none, resp := none, prev := some (t3, m.rx) }
      if !ok then s1.asCapable p false else if 3 ≤ good then s1.asCapable p true else s1

/-- PDELAY_RESP_RECEIVE (R332): a response and its follow-up give a measurement when they are valid. -/
def execPdelayRespReceive (p : Fin 6) (m fup : PtpMsg) (s : State) : Res := if ntRuns s then .next (s.pdelayDone p m fup) else .next s

/-! ### Sync (R331, R333 to R335) -/

/-- The enabled domain of a domainNumber (R331). -/
def domOf (s : State) (n : BitVec 8) : Option (Fin 2) :=
  (fins 2).find? fun d => (s.nt.dom[d]).en && decide (((s.nt.dom[d]).domain).setWidth 8 = n)

/-- A Sync or Follow_Up of domain `d` is discarded and counted (R331). -/
def State.syncReject (s : State) (d : Fin 2) : State := (s.modDom d fun x => { x with rej := satInc x.rej }).ntSet 4

/-- The conditions of R331 on a Sync of domain `d` at port `p`. -/
def syncOk (s : State) (d : Fin 2) (p : Fin 6) (m : PtpMsg) : Bool :=
  let x := s.nt.dom[d]
  decide (x.slave.toNat = p.val) && (s.nt.port[p]).asCapable && decide (-7 ≤ m.logInt.toInt) && decide (m.logInt.toInt ≤ 0) &&
    (match x.seq with
     | none => true
     | some q => newer m.seq q)

/-- rateRatio of a domain minus 1, 2^-41: the cumulative ratio of the message and the neighbour's ratio (R333). -/
def rateOf (s : State) (p : Fin 6) (m : PtpMsg) : Int := m.rate + (s.nt.port[p]).nrr

/-- Domain time at the ingress timestamp, 2^-16 ns: origin, correction and link delay (R334). -/
def domainTime (s : State) (p : Fin 6) (m : PtpMsg) : Int :=
  let d : Int := (s.nt.port[p]).delay
  m.ts * 65536 + m.corr + d + d * m.rate / 2 ^ 41

/-- A Sync is accepted: the phase is taken, the frequency estimated and the state of the domain follows (R334, R335). -/
def State.syncTrack (s : State) (d : Fin 2) (p : Fin 6) (m : PtpMsg) : State :=
  let s1 := if (s.nt.dom[d]).state = .lost then s.domState d .listening else s
  let x := s1.nt.dom[d]
  let t : Int := domainTime s1 p m * 65536
  let c := m.rx * nsUnit
  let a := s1.tb.incAdj.toInt
  let th := t - c
  let stepped := x.tracked && !x.hist.isEmpty && decide (1000000 * nsUnit < (th - x.thetaTo a c).natAbs)
  let s2 := if stepped then (s1.domState d .listening).modDom d fun y => { y with hist := [], run := 0 } else s1
  let y := s2.nt.dom[d]
  let gap := !y.hist.isEmpty && decide (3 * syncInterval m.logInt < 2 * (m.rx - y.last))
  let run := if gap then 1 else min 8 (y.run + 1)
  let osc := oscNow s2 - ((s2.tb.timeFix : Int) - c) * tickLsb / (tickLsb + a)
  let h := ({ osc := osc, time := t } :: y.hist).take 8
  let fit := ntFit s2 h
  let near := decide ((fit.1 - y.f).natAbs ≤ 3436)
  let s3 := fit.2.modDom d fun z =>
    { z with theta := th, thetaAt := c, hist := h, run := run, f := if h.length < 2 then z.f else fit.1, seq := some m.seq, last := m.rx
             logInt := m.logInt, acc := satInc z.acc, pend := none }
  if y.state = .listening && 8 ≤ run && near then s3.domState d .locked else s3

/-- The Sync that master port `q` of domain `d` sends for an accepted Sync; the switch adds the residence time at egress (R333). -/
def State.syncRelay (s : State) (d : Fin 2) (p q : Fin 6) (m : PtpMsg) : State :=
  if bit (s.nt.dom[d]).masters q.val && (s.nt.port[q]).asCapable then
    let r := rateOf s p m
    let s1 := s.modDom d fun x => { x with txSeq := x.txSeq + 1#64 }
    let tlv := m.tlv.take 10 ++ beBytes (r % 2 ^ 32).toNat 4 ++ m.tlv.drop 14
    s1.ntSend q (ptpFrame s1 q 0 (((s1.nt.dom[d]).domain).setWidth 8) false (m.corr + (s1.nt.port[p]).delay)
      ((s1.nt.dom[d]).txSeq.setWidth 16) m.logInt (stampBytes m.ts ++ (if m.tlv.length < 14 then m.tlv else tlv))) m.rx (.sync r)
  else s

/-- An accepted Sync is tracked and relayed. -/
def State.syncAccept (s : State) (d : Fin 2) (p : Fin 6) (m : PtpMsg) : State :=
  (s.syncTrack d p m).forEach (fins 6) fun s q => s.syncRelay d p q m

/-- A one-step Sync is accepted or discarded; a two-step one waits for its Follow_Up. A Sync that still waits is discarded (R331). -/
def State.syncMsg (s : State) (p : Fin 6) (m : PtpMsg) : State :=
  match domOf s m.domain with
  | none => s
  | some d =>
    let s1 := if (s.nt.dom[d]).pend.isSome then (s.syncReject d).modDom d fun x => { x with pend := none } else s
    if !syncOk s1 d p m then s1.syncReject d
    else if m.twoStep then s1.modDom d fun x => { x with pend := some (p, m) }
    else s1.syncAccept d p m

/-- SYNC_RECEIVE (R331). -/
def execSyncReceive (p : Fin 6) (m : PtpMsg) (s : State) : Res := if ntRuns s then .next (s.syncMsg p m) else .next s

/-- A Follow_Up completes the Sync with the same sequenceId, within one Sync interval; any other is discarded (R331). -/
def State.followUpMsg (s : State) (p : Fin 6) (m : PtpMsg) : State :=
  match domOf s m.domain with
  | none => s
  | some d =>
    match (s.nt.dom[d]).pend with
    | none => s.syncReject d
    | some (q, y) =>
      if q = p ∧ y.seq = m.seq ∧ m.rx ≤ y.rx + syncInterval y.logInt then
        s.syncAccept d p { y with ts := m.ts, corr := y.corr + m.corr, rate := m.rate, tlv := m.tlv }
      else s.syncReject d

/-- FOLLOW_UP_RECEIVE (R331). -/
def execFollowUpReceive (p : Fin 6) (m : PtpMsg) (s : State) : Res := if ntRuns s then .next (s.followUpMsg p m) else .next s

/-- FOLLOW_UP_TIMEOUT (R331): one interval has passed, and the Sync that waits is discarded. -/
def execFollowUpTimeout (d : Fin 2) (s : State) : Res :=
  match (s.nt.dom[d]).pend with
  | some (_, y) =>
    if ntRuns s then
      .next (((s.reach (y.rx + syncInterval y.logInt + 1)).modDom d fun x => { x with pend := none }).syncReject d)
    else .next s
  | none => .next s

/-! ### Servo (R337 to R342) -/

/-- The servo takes its source outside gPTP: the partner in STANDBY and SYNCING (R385), the master of the ring on a follower that holds
the lease (R396). -/
def extOn (s : State) : Bool := decide (s.pr.role = .standby) || decide (s.pr.role = .syncing) || s.wr.follow

/-- That source is LOCKED: its heartbeats, or its ALIGN frames, arrive (R385, R396). -/
def extLocked (s : State) : Bool :=
  decide (s.pr.ext.state = .locked) &&
    decide (s.now ≤ s.pr.ext.last + if s.wr.follow && !follows s then 4 * (s.pickV / 32) else 30000)

/-- Phase of the source in force: the selected domain, or the one outside gPTP, against OFS, ns (R338, R385). -/
def srcPhase (s : State) : Int :=
  if extOn s then nearestNs (s.pr.ext.thetaTo s.tb.incAdj.toInt s.tb.timeFix - s.nt.ofs * nsUnit) else s.phaseOf (domNat s.nt.sel)

/-- Frequency of the source in force (R338). -/
def srcF (s : State) : Int := if extOn s then s.pr.ext.f else (s.nt.dom[domNat s.nt.sel]).f

/-- The source outside gPTP gives the phase `th` (2^-32 ns) at cell time `c` ns: phase, history and frequency as for an accepted Sync
(R334, R385, R396). -/
def State.extTrack (s : State) (th : Int) (c : Nat) : State :=
  let fresh := decide (s.pr.ext.state ≠ .locked)
  let osc := oscNow s - ((s.tb.timeFix : Int) - c * nsUnit) * tickLsb / (tickLsb + s.tb.incAdj.toInt)
  let h := ({ osc := osc, time := th + c * nsUnit } :: if fresh then [] else s.pr.ext.hist).take 8
  let fit := ntFit s h
  fit.2.modPr fun p => { p with
    ext := { p.ext with
      state := .locked, theta := th, thetaAt := c * nsUnit, hist := h, last := c, f := if h.length < 2 then s.tb.incAdj.toInt else fit.1 } }

/-- First lock of the source outside gPTP: OFS is set to its phase (R337, R383, R396). -/
def State.extFirst (s : State) : State :=
  let o := nearestNs (s.pr.ext.thetaTo s.tb.incAdj.toInt s.tb.timeFix)
  let s2 := s.modNt fun n => { n with ofs := o, stepped := true, e := 0 }
  let w := BitVec.ofInt 96 o
  ((s2.ntSet 0).emit 18 0x002#12 [bitAt s.nt.sel 0, w.setWidth 32, (w >>> 32).setWidth 32, (w >>> 64).setWidth 32]).ntState .locked

/-- First lock (R337): the domain is selected and OFS set to its phase. -/
def State.ntFirst (s : State) : State :=
  let d := if domLocked s 0 && domLocked s 1 then s.nt.pref else domLocked s 1
  let s1 := s.modNt fun n => { n with sel := d, switch := false }
  let o := nearestNs ((s1.nt.dom[domNat d]).thetaTo s1.tb.incAdj.toInt s1.tb.timeFix)
  let s2 := s1.modNt fun n => { n with ofs := o, stepped := true, e := 0 }
  let w := BitVec.ofInt 96 o
  ((s2.ntSet 0).emit 18 0x002#12
    [nat32 (domNat d).val 0, w.setWidth 32, (w >>> 32).setWidth 32, (w >>> 64).setWidth 32]).ntState .locked

/-- The automatic switch, a host SWITCH and the state of the unit, in the order of R341. -/
def State.ntSelect (s : State) : State :=
  let lost := !domLocked s (domNat s.nt.sel)
  let other := domLocked s (domNat !s.nt.sel)
  let held := decide (s.nt.state = .holdover) || decide (s.nt.state = .unlocked)
  let lastF := (s.nt.dom[domNat s.nt.sel]).f
  let s1 :=
    if lost && other && held then s.ntSwitch 1
    else if lost && other && s.nt.auto then s.ntSwitch 0
    else if s.nt.switch && other then s.ntSwitch 2 else s
  let s2 := s1.modNt fun n => { n with switch := false }
  if domLocked s2 (domNat s2.nt.sel) then s2.ntState .locked else s2.ntHold lastF

/-- The state of the unit while its source lies outside gPTP (R339, R385, R396). -/
def State.extSelect (s : State) : State := if extLocked s then s.ntState .locked else s.ntHold s.pr.ext.f

/-- The servo computation (R338). -/
def State.ntServo (s : State) : State :=
  let e := srcPhase s
  let a := s.tb.incAdj.toInt
  let lim := s.nt.pullMax.toNat * 34359
  let target :=
    if s.nt.state = .locked then
      let pull := clampInt (-lim) lim ((e * tickLsb).tdiv (1000000000 * (max 1 s.nt.tau.toNat)))
      srcF s + pull
    else s.nt.fHold
  let t := clampInt (-17179869) 17179869 target
  { s.modNt fun n => { n with e := e } with tb.incAdj := BitVec.ofInt 32 (a + clampInt (-343) 343 (t - a)) }

/-! ### Aligned starts of the time base (R383, R385, R396) -/

/-- The servo has taken its source outside gPTP, and |e| ≤ 1,000 ns (R383, R396). -/
def extAligned (s : State) : Bool :=
  extOn s && extLocked s && s.nt.stepped && decide (s.nt.state = .locked) && decide (s.nt.e.natAbs ≤ 1000)

/-- Picks, if any run, stop, and start on the grid of a leader: at its beat boundary at network time `net`, which has the numbers
`pick` and `beat`, or at a later one (R383, R385, R396). -/
def State.alignStart (s : State) (net : Int) (pick beat : BitVec 32) : State :=
  let s0 := s.stopPicks
  let org := s0.cellTime net * nsUnit
  let n := s0.tb.activeN.toNat
  let j := firstJ org (periodFix s0.tb.activePeriod) n (s0.tb.timeFix + 1000 * nsUnit)
  let s1 := s0.modTb fun t =>
    { t with running := true, gridOrigin := org, j := j, first := true, firstPick := pick + BitVec.ofNat 32 j
             firstBeat := beat + BitVec.ofNat 32 (j / n), pending := none }
  s1.forEach (fins 16) fun s l => s.stlFit l

/-- A step of a resynchronisation, or of joining the ring, that has become possible: the servo has its source; the configuration is
copied; the time base starts (R383, R396). -/
def syncAdvance (s : State) : State :=
  let s1 :=
    match s.pr.role, s.pr.sync with
    | .syncing, some y =>
      if 3 ≤ y.step.toNat || !s.pw.state.live || !extAligned s then s
      else
        match (if y.cfg then y.start else none) with
        | some (net, pick, beat) =>
          (s.alignStart net pick beat).modPr fun p => { p with sync := some { y with step := 3#3 }, streak := 0#2 }
        | none => s.modPr fun p => { p with sync := some { y with step := 1#3 } }
    | _, _ => s
  match s1.wr.start with
  | some (net, pick, beat) =>
    if decide (s1.wr.state = .joining) && s1.wr.follow && !follows s1 && extAligned s1 then
      let s2 := (s1.modTb fun t => { t with activePeriod := t.stagedPeriod, activeN := t.stagedN }).alignStart net pick beat
      let s3 := { s2 with wr := { s2.wr with state := .up, start := none } }
      s3.emit 21 0x001#12 [3#32 ||| nat32 2 4]
    else s1
  | none => s1

/-- SERVO_UPDATE (R337, R338, R341): at the next whole millisecond of cell time. -/
def execServoUpdate (s : State) : Res :=
  if !swRuns s then .next s
  else
    let n := max s.now ((s.nt.servoMs + 1) * 1000000)
    let s1 := (s.reach n)
    let s2 := ((s1.modNt fun t => { t with servoMs := s1.now / 1000000 }).ntAdvance).ntTimeouts
    let s3 :=
      if extOn s2 then
        (if s2.nt.stepped then s2.extSelect.ntServo else if extLocked s2 then s2.extFirst else s2)
      else if s2.nt.stepped then s2.ntSelect.ntServo
      else if domLocked s2 0 || domLocked s2 1 then s2.ntFirst else s2
    .next (syncAdvance (s3.forEach (fins 2) fun s d => s.modDom d fun x => { x with phase := BitVec.ofInt 64 (s.phaseOf d) }))

/-- HOLDOVER_TIMEOUT (R339): HOLDOVER has lasted HOLD_MAX seconds. -/
def execHoldoverTimeout (s : State) : Res :=
  if swRuns s && decide (s.nt.state = .holdover) then
    .next ((s.reach (s.nt.holdAt + s.nt.holdMax.toNat * 1000000000)).ntState .unlocked)
  else .next s

/-- A write of NT_CTRL with its other fields (R332, R340): SWITCH is kept for the next update while the other domain is LOCKED. -/
def State.setNtCtrl (s : State) (v : BitVec 32) : State :=
  let s1 := s.modNt fun n => { n with en := bit v 0, pref := bit v 1, auto := bit v 2, hostCopy := bit v 3 }
  if !bit v 4 then s1
  else if domLocked s1 (domNat !s1.nt.sel) then s1.modNt fun n => { n with switch := true }
  else s1.ntSet 5

/-- NT_SWITCH_REQUEST (R340): a write of NT_CTRL with SWITCH = 1. -/
def execNtSwitchRequest (v : BitVec 32) (s : State) : Res :=
  if (s.domain 10).up then .next (s.setNtCtrl (setBit v 4)) else .next s

/-- A write of NT_DOM_CFG_d (R333, R335): ignored, with CFG_REJ, when the slave port is also a master port, when two enabled domains
would have the same number, or when a field is out of range. -/
def State.setNtDom (s : State) (d : Fin 2) (v : BitVec 32) : State :=
  let x := s.nt.dom[d]
  let o := s.nt.dom[d + 1]
  let slave := field v 8 3
  let en := bit v 7
  if bit (field v 16 6) slave.toNat || (en && o.en && decide (field v 0 7 = o.domain)) || decide (5 < slave.toNat) ||
      decide ((field v 24 8).toNat < 2) then s.ntSet 5
  else
    let s1 := s.modDom d fun x =>
      { x with timeout := field v 24 8, masters := field v 16 6, slave := slave, en := en, domain := field v 0 7 }
    if en && !x.en then s1.domState d .listening else if !en then s1.domState d .none else s1

/-- NT_STATUS.ALIGNED (R342). -/
def ntAligned (s : State) : Bool := decide (s.nt.state = .locked) && decide (s.nt.e.natAbs ≤ s.nt.alignNs.toNat)

/-- Network time is valid, as the next pick instant publishes it (R342). -/
def ntValid (s : State) : Bool := decide (s.nt.state = .locked) || decide (s.nt.state = .holdover)

/-- TIME_MARK (R343): at every whole second of cell time. -/
def execTimeMark (s : State) : Res :=
  if !swRuns s then .next s
  else
    let s1 := s.reach ((s.nt.markS + 1) * 1000000000)
    let k := s1.now / 1000000000
    let c := k * 1000000000
    let n := s1.netTime c
    let sec := BitVec.ofInt 48 (n / 1000000000)
    .next ((s1.modNt fun t => { t with markS := k }).emit 18 0x001#12
      [nat32 c 0, BitVec.ofNat 32 (c / 2 ^ 32), int32 (n % 1000000000), sec.setWidth 32,
       at32 (field sec 32 16) 0 ||| nat32 s1.nt.state.code 16 ||| bitAt s1.nt.sel 20 ||| bitAt s1.nt.valid 21])

/-! ### Reads with captures -/

/-- NT_OFS_0_READ: OFS bits [31:0]; the other words are captured. -/
def execNtOfs0Read (s : State) : Res :=
  if !(s.domain 10).up then .next { s with rdata := [0#32] }
  else
    let w := BitVec.ofInt 96 s.nt.ofs
    .next { s.modNt fun n => { n with capOfs := #v[(w >>> 32).setWidth 32, (w >>> 64).setWidth 32] } with rdata := [w.setWidth 32] }

/-- NT_PHASE_LO_READ: e of the last update; the high word is captured. -/
def execNtPhaseLoRead (s : State) : Res :=
  if !(s.domain 10).up then .next { s with rdata := [0#32] }
  else
    let w := BitVec.ofInt 64 s.nt.e
    .next { s.modNt fun n => { n with capPhaseHi := (w >>> 32).setWidth 32 } with rdata := [w.setWidth 32] }

/-- NT_NOW_NS_READ: nanoseconds of network time; the seconds are captured. -/
def execNtNowNsRead (s : State) : Res :=
  if !(s.domain 10).up then .next { s with rdata := [0#32] }
  else
    let n := s.netTime s.now
    let sec := BitVec.ofInt 48 (n / 1000000000)
    .next { s.modNt fun t => { t with capNow := #v[sec.setWidth 32, at32 (field sec 32 16) 0] } with rdata := [int32 (n % 1000000000)] }

/-- NT_DOM_PHASE_LO_READ: phase of a domain at the last update; the high word is captured. -/
def execNtDomPhaseLoRead (d : Fin 2) (s : State) : Res :=
  if !(s.domain 10).up then .next { s with rdata := [0#32] }
  else
    let w := (s.nt.dom[d]).phase
    .next { s.modDom d fun x => { x with capPhaseHi := (w >>> 32).setWidth 32 } with rdata := [w.setWidth 32] }

/-! ### Frames taken at the egress of port 7 (R330) -/

/-- A gPTP message parsed from the bytes after the EtherType. -/
def parsePtp (b : List Byte) (rx : Nat) : PtpMsg :=
  let ci := beAt b 8 8
  let rate := (BitVec.ofNat 32 (beAt b 54 4)).toInt
  let kind := beAt b 0 1 % 16
  { domain := byteAt b 4, twoStep := bit (byteAt b 6) 1, seq := BitVec.ofNat 16 (beAt b 30 2), logInt := byteAt b 33
    corr := (BitVec.ofNat 64 ci).toInt, ts := beAt b 34 6 * 1000000000 + beAt b 40 4
    rate := if (kind = 0 ∨ kind = 8) ∧ 58 ≤ b.length then rate else 0
    port := identNat (b.drop 20), reqPort := identNat (b.drop 44), tlv := (b.drop 44).take 32, rx := rx }

/-- The unit consumes a gPTP frame: kinds 0 Sync, 2 Pdelay_Req, 3 Pdelay_Resp, 8 Follow_Up, 10 Pdelay_Resp_Follow_Up (R330). Answers
whether it does, and the state after. -/
def State.ntTake (s : State) (p : Fin 6) (f : List Byte) (rx : Nat) : Bool × State :=
  let b := frData f
  let m := parsePtp b rx
  let kind := beAt b 0 1 % 16
  if frDa f ≠ 0x0E0000C28001#48 ∨ frType f ≠ 0x88F7#16 ∨ !ntRuns s then (false, s)
  else if kind = 2 then (true, s.pdelayAnswer p m)
  else if kind = 3 then (true, s.modNtPort p fun t => { t with resp := some m })
  else if kind = 10 then
    (true, match (s.nt.port[p]).resp with
      | some r => s.pdelayDone p r m
      | none => s)
  else if (domOf s m.domain).isNone then (false, s)
  else if kind = 0 then (true, s.syncMsg p m)
  else if kind = 8 then (true, s.followUpMsg p m)
  else (false, s)

end Sys2Proof.Machine
end

