-- ==== Sys2Proof/Machine/DriveTraffic.lean ====
section
/-! DEFINITION. Drive traffic received on port 6: the checks of a frame, feedback records, and sensor fragments (R297, R298, R305, R321,
R325, R326). -/
namespace Sys2Proof.Machine

/-- KIND, GROUP and NREC of word 0 (R321). -/
def dtKind (w : BitVec 32) : Nat := (field w 4 4).toNat
/-- GROUP. -/
def dtGroup (w : BitVec 32) : BitVec 4 := field w 8 4
/-- NREC. -/
def dtNrec (w : BitVec 32) : Nat := (field w 12 4).toNat

/-- Word `j` of record `i` of a feedback frame. -/
def dtRec (ws : List (BitVec 32)) (i j : Nat) : BitVec 32 := ws.getD (2 + 16 * i + j) 0#32

/-- Cause of a discard: 0 FORMAT, 1 LENGTH (R326). -/
def dtCause (data : List Byte) : Option Nat :=
  let ws := bytesWords data
  let w := ws.getD 0 0#32
  let k := dtKind w
  let n := dtNrec w
  let badRec := (List.range n).any fun i =>
    field (dtRec ws i 0) 10 22 ≠ 0#22 || bit (dtRec ws i 0) 7 || decide (79 < (field (dtRec ws i 0) 0 7).toNat) ||
      dtRec ws i 13 ≠ 0#32 || dtRec ws i 14 ≠ 0#32 || dtRec ws i 15 ≠ 0#32
  if field w 0 4 ≠ 1#4 ∨ k = 0 ∨ 2 < k ∨ w >>> 17 ≠ 0#32 ∨ (k = 1 ∧ (n = 0 ∨ badRec = true)) then some 0
  else if k = 1 ∧ data.length < 8 + 64 * n then some 1
  else if k = 2 ∧ data.length < 4 + 4 * (pduWords (ws.drop 1) + 1) then some 1
  else none

/-- A record of a feedback frame: latched for its axis at the next pick instant; a record it replaces is counted (R326). -/
def State.driveRec (s : State) (ws : List (BitVec 32)) (dis : Bool) (i : Nat) : State :=
  let r := dtRec ws i
  let a : Fin 80 := Fin.ofNat 80 (field (r 0) 0 7).toNat
  let fb : DriveFb :=
    { torq := r 1, pos := r 3 ++ r 2, vel := r 5 ++ r 4, enabled := bit (r 0) 8, fault := bit (r 0) 9, ack := ws.getD 1 0#32 }
  let s1 := if (s.dr[a]).next.isSome then s.swCount 3 else s
  ({ s1 with dr := upd s1.dr a fun d => { d with next := some fb } }).fbPdu a ((List.range 7).map fun j => r (6 + j)) dis false

/-! ### Fragments (R298, R305) -/

/-- A fragment is kept in assembly; the last one completes the frame, whose digest decides (R298, R305). -/
def State.asmAdd (s : State) (i : Fin 8) (m : SlAsm) : State :=
  if m.fidx < m.flast then { s with sl.sens := upd s.sl.sens i fun x => { x with asm := some m } }
  else
    let n := m.bytes.length - 4
    let b := m.bytes.take n
    let s0 := { s with sl.sens := upd s.sl.sens i fun x => { x with asm := some m } }
    if crc32c (wordsBytes [slIdent s 2 i.val, m.frame.setWidth 32] ++ b) ≠ BitVec.ofNat 32 (leAt m.bytes n 4) then
      (s0.pduDiscard (.sens i) 5).asmDrop i
    else
      let s1 := { s with sl.sens := upd s.sl.sens i fun x => { x with asm := none } }
      match m.slot with
      | none => s1
      | some j =>
        let w : Nat → BitVec 32 := fun k => BitVec.ofNat 32 (leAt b (4 * k) 4)
        let cap : Nat := ((field (w 4) 0 16).toNat * 2 ^ 32 + (w 3).toNat) * 1000000000 + (w 2).toNat
        (s1.wrBytes (stageBase i j) (b.take 81920)).modSens i fun t =>
          { t with slot := upd t.slot j fun l =>
              { l with len := n, done := true, lastFrag := s.now, capture := s.cellTime cap } }

/-- A fragment of an accepted PDU; `prev` is the SEQ accepted before it (R305). -/
def State.fragment (s : State) (i : Fin 8) (w : List (BitVec 32)) (prev : BitVec 16) : State :=
  let pay := (wordsBytes (w.drop 2)).take (pduFlen w)
  if (s.sl.sens[i]).conn.state ≠ .running then s
  else if pduFidx w = 0 then
    let r := (s.asmDrop i).reedSlot i
    r.2.asmAdd i { slot := r.1, frame := pduFrame w, fidx := 0, flast := pduFlast w, bytes := pay }
  else
    match (s.sl.sens[i]).asm with
    | none => s
    | some m =>
      if pduFrame w = m.frame ∧ pduFidx w = m.fidx + 1 ∧ pduFlast w = m.flast ∧ pduSeq w = prev + 1#16 then
        s.asmAdd i { m with fidx := m.fidx + 1, bytes := m.bytes ++ pay }
      else (s.pduDiscard (.sens i) 6).asmDrop i

/-- A PDU of sensor `i`; `dis` says that only one channel accepts it (R301 to R305). -/
def State.sensPdu (s : State) (i : Fin 8) (w : List (BitVec 32)) (dis : Bool) : State :=
  if !(s.sl.sens[i]).en then s
  else
    match (if dis then some 4 else pduCause s (.sens i) w) with
    | some k => s.pduDiscard (.sens i) k
    | none =>
      let prev := (s.sl.sens[i]).conn.seq
      let s1 := s.pduAccept (.sens i) (pduSeq w)
      if pduType w = 1 then s1.fragment i w prev
      else if (s1.sl.sens[i]).asm.isSome then (s1.pduDiscard (.sens i) 6).asmDrop i else s1

/-- A drive-traffic frame is checked and its content passed on (R326). `data` are the bytes after the EtherType, `p` its ingress port. -/
def State.driveTraffic (s : State) (p : Fin 8) (data : List Byte) (dis : Bool) : State :=
  let ws := bytesWords data
  let w := ws.getD 0 0#32
  match dtCause data with
  | some c => ((s.swCount 2).swSet c).emit 17 0x003#12 [nat32 p.val 0 ||| nat32 (dtKind w) 4 ||| nat32 c 8]
  | none =>
    let s1 := s.swCount 1
    if dtKind w = 1 then s1.forEach (List.range (dtNrec w)) fun s i => s.driveRec ws dis i
    else s1.sensPdu ((dtGroup w).setWidth 3).toFin (ws.drop 1) dis

/-- DRIVE_TRAFFIC_RECEIVE (R326): a drive-traffic frame arrives on port 6 from ingress port `p`; frames of another EtherType have no
effect there. -/
def execDriveTrafficReceive (p : Fin 8) (frame : List Byte) (dis : Bool) (s : State) : Res :=
  if swRuns s && decide (frType frame = s.sw.etype) then .next (s.driveTraffic p (frData frame) dis) else .next s

end Sys2Proof.Machine
end

