-- ==== Sys2Proof/Machine/Switch.lean ====
section
/-! DEFINITION. The TSN switch: reception, forwarding, sequence recovery, egress, gate lists, the filtering database and the commands of
its registers (R308 to R320). -/
namespace Sys2Proof.Machine

/-! ### Delivery to the host (R443) -/

/-- The buffer address of the receive descriptor at the head: read from SRAM, or as DMA delivered it when the tail was written. -/
def rxBuf (s : State) : Nat :=
  let r := s.hi.rx
  if r.loc then
    let a := r.entryAddr r.head.toNat 32
    (s.rd32 a).toNat + 2 ^ 32 * (field (s.rd32 (a + 4)) 0 8).toNat
  else (s.hi.rxBufs.headD 0#40).toNat

/-- A frame is delivered to host firmware through the receive ring; with no buffer supplied it is dropped and counted (R443). -/
def State.hostRx (s : State) (f : TxFrame) : State :=
  let r := s.hi.rx
  if !r.en || r.head = r.tail then
    { s with hi.rxNobuf := satInc s.hi.rxNobuf, hi.sticky := setBit s.hi.sticky 2 }
  else
    let n := s.netTime f.inTs
    let sec := BitVec.ofInt 48 (n / 1000000000)
    let buf := rxBuf s
    let s1 := s.busWrite r.loc buf (bytesWords f.bytes)
    let s2 := s1.busWrite r.loc (r.entryAddr r.head.toNat 32 + 8)
      [nat32 f.bytes.length 0 ||| nat32 f.src.val 20 ||| nat32 1 24, 0#32, int32 (n % 1000000000), sec.setWidth 32, at32 (field sec 32 16) 0]
    { s2 with hi.rx := { s2.hi.rx with head := r.next r.head }, hi.rxBufs := s2.hi.rxBufs.drop 1 }

/-! ### Filtering database (R310) -/

/-- The entry of an address and VID. -/
def fdbFind (s : State) (mac : BitVec 48) (vid : BitVec 12) : Option FdbEntry :=
  s.sw.fdb.find? fun e => decide (e.mac = mac) && decide (e.vid = vid)

/-- The source address of a frame is learned; a static entry stays as it is, and a full database learns nothing (R310). -/
def State.fdbLearn (s : State) (p : Fin 8) (f : List Byte) : State :=
  let m := frSa f
  let v := frVid f
  if macGroup m then s
  else match fdbFind s m v with
    | some e =>
      if e.static_ then s
      else s.modSw fun w => { w with fdb := w.fdb.map fun x =>
        if x.mac = m ∧ x.vid = v then { x with ports := BitVec.twoPow 8 p.val, seen := s.now } else x }
    | none =>
      if 2048 ≤ s.sw.fdb.length then s
      else s.modSw fun w => { w with fdb := w.fdb ++ [{ mac := m, vid := v, ports := BitVec.twoPow 8 p.val, seen := s.now }] }

/-- A learned entry has aged out. -/
def fdbOld (s : State) (e : FdbEntry) : Bool := !e.static_ && decide (e.seen + s.sw.age.toNat * 1000000000 ≤ s.now)

/-- The port takes frames: a port of the device, or an external port that is not disabled. -/
def portOn (s : State) (p : Fin 8) : Bool := !isExt p || decide ((s.sw.port[p]).mode ≠ 0#3)

/-- The egress ports of a frame from port `p` (R310). Ports 6 and 7 receive what R310 directs to them; a flooded frame goes to port 7
and to the external ports, not to port 6, and FWD_EN governs frames between external ports. DESIGN CHOICE (log 22). -/
def egressPorts (s : State) (p : Fin 8) (f : List Byte) : List (Fin 8) :=
  let da := frDa f
  let ty := frType f
  let ext := fun (q : Fin 8) => !(isExt p && isExt q) || s.sw.fwdEn
  let others := (fins 8).filter fun q => decide (q ≠ p) && portOn s q
  let entry := (fdbFind s da (frVid f)).filter fun e => !fdbOld s e
  let named := fun (m : BitVec 8) => others.filter fun q => bit m q.val && ext q
  if macReserved da then (if p = 7 then [] else [7])
  else if da = s.sw.mac then
    let q : Fin 8 := if ty = s.sw.etype ∨ ty = 0x88F7#16 then 6 else 7
    if q = p then [] else [q]
  else if da = s.sw.fbMac ∧ ty = s.sw.etype then
    let m : BitVec 8 := match entry with
      | some e => if e.static_ then e.ports else 0#8
      | none => 0#8
    (6 : Fin 8) :: (named m).filter isExt
  else match entry with
    | some e => (named e.ports).filter fun q => decide (q ≠ 6)
    | none => (others.filter fun q => ext q).filter fun q => decide (q ≠ 6)

/-! ### Sequence recovery (R320) -/

/-- The vector recovery algorithm on one stream: whether the frame is accepted, and the stream after (IEEE 802.1CB, log 23). -/
def CbStream.recover (t : CbStream) (hist : Nat) (now reset : Nat) (seq : BitVec 16) : Bool × CbStream :=
  let t := if t.last + reset * 1000000 ≤ now then { t with takeAny := true, hist := 0#32 } else t
  let d := (seq - t.seq).toInt
  if t.takeAny then (true, { t with takeAny := false, seq := seq, hist := 1#32, last := now })
  else if d ≤ -(hist : Int) ∨ (hist : Int) ≤ d then (false, t)
  else if d ≤ 0 then
    if bit t.hist d.natAbs then (false, t) else (true, { t with hist := setBit t.hist d.natAbs, last := now })
  else (true, { t with seq := seq, hist := setBit (t.hist <<< d.natAbs) 0, last := now })

/-- The recovery function on a frame for port 6: whether it is delivered (R320). -/
def State.cbCheck (s : State) (p : Fin 8) (f : List Byte) : Bool × State :=
  let m := frDa f
  let v := frVid f
  if !frRtag f || !isExt p then (true, s)
  else
    let key := fun (t : CbStream) => decide (t.mac = m) && decide (t.vid = v)
    match s.sw.cb.find? key with
    | some t =>
      let r := t.recover s.sw.cbHist.toNat s.now s.sw.cbReset.toNat (frRseq f)
      (r.1, s.modSw fun w => { w with cb := w.cb.map fun x => if key x then r.2 else x })
    | none =>
      if s.sw.cb.length < 64 then
        (true, s.modSw fun w => { w with cb := w.cb ++
          [{ mac := m, vid := v, takeAny := false, seq := frRseq f, hist := 1#32, last := s.now }] })
      else
        let s1 := (s.swCount 0).swSet 2
        if s.sw.cbFull.contains (m, v) then (true, s1)
        else (true, (s1.modSw fun w => { w with cbFull := (m, v) :: w.cbFull }).emit 17 0x006#12 [nat32 p.val 0])

/-! ### Forwarding (R310, R311) -/

/-- Traffic class of a frame from port `p` (R311). -/
def frClass (s : State) (p : Fin 8) (f : List Byte) : Fin 8 :=
  let pcp : Fin 8 := (frPcp f).getD ((s.sw.port[p]).defPcp).toFin
  if p = 6 then 0 else ((s.sw.port[p]).pcpMap[pcp]).toFin

/-- A PTP event message carried directly over Ethernet (R318). -/
def ptpEvent (f : List Byte) : Bool := decide (frType f = 0x88F7#16) && decide (beAt (frData f) 0 1 % 16 < 4)

/-- A frame from port `p` is put into the queues of its egress ports (R310 to R312). -/
def State.forward (s : State) (p : Fin 8) (f : TxFrame) : State :=
  let c := frClass s p f.bytes
  (egressPorts s p f.bytes).foldl (fun s q =>
    if q = 6 then
      let r := s.cbCheck p f.bytes
      if r.1 then r.2.enqueue 6 c { f with bytes := frStrip f.bytes } else r.2
    else s.enqueue q c { f with stamp := if isExt p && isExt q && ptpEvent f.bytes then .residence else .none }) s

/-- FRAME_RECEIVE (R309, R310): a frame has arrived at an external port, FCS included; it is checked, its source address is learned, and
it is forwarded. A frame too short for its addresses and FCS counts as one with a wrong FCS. In SAFE_HOLD only frames for port 6 go on. -/
def execFrameReceive (p : Fin 6) (frame : List Byte) (s : State) : Res :=
  let q := extPort p
  if !swRuns s || (s.sw.port[q]).mode = 0#3 || !(s.sw.port[q]).link then .next s
  else if 1522 < frame.length then .next (s.ptCount q 5)
  else
    let n := frame.length - 4
    let f := frame.take n
    if frame.length < 18 || frFcs f ≠ frame.drop n then .next (s.ptCount q 4)
    else
      let inFix := s.tb.timeFix - bytesTime frame.length (modeRate (s.sw.port[q]).mode)
      let t : TxFrame := { bytes := f, src := q, inTs := inFix / nsUnit }
      let s1 := s.ptCount q 0
      if swForwards s then .next ((s1.fdbLearn q f).forward q t)
      else if (egressPorts s q f).contains 6 then
        let r := s1.cbCheck q f
        .next (if r.1 then r.2.enqueue 6 (frClass s q f) { t with bytes := frStrip f } else r.2)
      else .next s1

/-! ### Egress (R312, R318, R319) -/

/-- `n` bytes of a frame replaced from place `o`. -/
def putBytes (f : List Byte) (o : Nat) (b : List Byte) : List Byte := f.take o ++ b ++ f.drop (o + b.length)

/-- correctionField of a PTP frame plus `d` (2^-16 ns). -/
def addCorr (f : List Byte) (d : Int) : List Byte :=
  let o := frBody f + 2 + 8
  putBytes f o (beBytes ((beAt f o 8 + d) % 2 ^ 64).toNat 8)

/-- The frame as it leaves at egress timestamp `t`, ns (R318, R319, R333). -/
def TxFrame.stamped (f : TxFrame) (t : Nat) : List Byte :=
  let d : Int := ((t : Int) - f.inTs) * 65536
  match f.stamp with
  | .residence => addCorr f.bytes d
  | .sync r => addCorr f.bytes (d + d * r / 2 ^ 41)
  | _ => f.bytes

/-- What the egress timestamp of a message of the network time unit does there (R332). -/
def State.egressStamp (s : State) (p : Fin 6) (f : TxFrame) (t : Nat) : State :=
  match f.stamp with
  | .req => s.modNtPort p fun x => { x with t1 := some t }
  | .resp m =>
    s.ntSend p (ptpFrame s p 10 m.domain false 0 m.seq 0x7F#8 (stampBytes (s.netTime t) ++ beBytes m.port.toNat 10)) t .none
  | _ => s

/-- The frame at the head of class `c` of an external port may be selected (R312, R315). -/
def mayStart (s : State) (t : Port) (c : Fin 8) (f : TxFrame) : Bool :=
  let stop := s.tb.timeFix + bytesTime (8 + f.bytes.length + 4) (modeRate t.mode)
  t.gateOpen c.val && (!bit t.cbsEn c.val || decide (0 ≤ t.credit[c])) &&
    (f.launch.elim true fun l => decide (l * nsUnit ≤ s.tb.timeFix)) && (gateCloses s t c.val).elim true fun e => decide (stop ≤ e)

/-- The class whose head frame is sent: the highest that may start. -/
def egressPick (ok : Fin 8 → TxFrame → Bool) (t : Port) : Option (Fin 8 × TxFrame) :=
  (fins 8).reverse.findSome? fun c => (t.q[c]).head?.bind fun f => if ok c f then some (c, f) else none

/-- In SAFE_HOLD an external port sends set-point frames only: the other frames of its queues are discarded (R310, R324). -/
def State.purge (s : State) (p : Fin 8) : State :=
  if s.pw.state = .safeHold && isExt p then s.modPort p fun t => { t with q := t.q.map fun q => q.filter fun f => f.pick.isSome } else s

/-- A frame leaves an external port. -/
def State.transmit (s : State) (p : Fin 6) (c : Fin 8) (f : TxFrame) : State :=
  let q := extPort p
  let rate := modeRate (s.sw.port[q]).mode
  let t0 := s.tb.timeFix
  let stamp := (t0 + bytesTime 8 rate) / nsUnit
  let b := f.stamped stamp
  let s1 := (s.dequeue q c).modPort q fun t =>
    { t with txClass := c, txEnd := t0 + bytesTime (b.length + 12) rate, txFree := t0 + bytesTime (b.length + 24) rate }
  let s2 := { (s1.ptCount q 1) with out := .frame p.val (b ++ frFcs b) :: s1.out }
  (s2.egressStamp p f stamp).frameGone f false

/-- A frame leaves port 6 or 7: port 6 takes drive traffic, port 7 passes the frames of the network time unit to it and the others to
host firmware (R310, R326, R330). -/
def State.deliver (s : State) (p c : Fin 8) (f : TxFrame) : State :=
  let s1 := ((s.dequeue p c).ptCount p 1).frameGone f false
  if p = 6 then (if frType f.bytes = s.sw.etype then s1.driveTraffic f.src (frData f.bytes) false else s1)
  else if h : f.src.val < 6 then
    let r := s1.ntTake ⟨f.src.val, h⟩ f.bytes f.inTs
    if r.1 && !s.nt.hostCopy then r.2 else r.2.hostRx f
  else s1.hostRx f

/-- EGRESS_SELECT (R312): a free port sends the frame of the highest class that may start. -/
def execEgressSelect (p : Fin 8) (s : State) : Res :=
  if !swRuns s then .next s
  else
    let s1 := ((s.purge p).cbsNow p).forEach (fins 8) fun s c => State.dropLate p c 65 s
    let t := s1.sw.port[p]
    if h : p.val < 6 then
      if t.mode = 0#3 || !t.link || decide (s1.tb.timeFix < t.txFree) then .next s1
      else match egressPick (mayStart s1 t) t with
        | some (c, f) => .next (s1.transmit ⟨p.val, h⟩ c f)
        | none => .next s1
    else if p = 7 && decide (s.pw.state = .safeHold) then .next s1
    else match egressPick (fun _ f => f.launch.elim true fun l => decide (l * nsUnit ≤ s1.tb.timeFix)) t with
      | some (c, f) => .next (s1.deliver p c f)
      | none => .next s1

/-- LAUNCH_TIME_REACHED (R316): cell time reaches the launch time of the frame at the head, which may now be selected. -/
def execLaunchTimeReached (p c : Fin 8) (s : State) : Res :=
  match ((s.sw.port[p]).q[c]).head?.bind fun f => f.launch with
  | some t => if swRuns s then .next (s.reach t) else .next s
  | none => .next s

/-- LATE_FRAME (R316): the frame at the head has not started by its launch time plus SW_LATE_WIN and is discarded. -/
def execLateFrame (p c : Fin 8) (s : State) : Res :=
  match ((s.sw.port[p]).q[c]).head? with
  | some f =>
    match f.launch with
    | some t =>
      if swRuns s then .next ((((s.reach (t + s.sw.lateWin.toNat)).cbsNow p).dequeue p c).lateFrame p c f) else .next s
    | none => .next s
  | none => .next s

/-! ### Gate control lists (R313, R314) -/

/-- Cell time moved forward to `t`, in 2^-32 ns. -/
def State.reachFix (s : State) (t : Nat) : State := if s.tb.timeFix < t then { s with tb.timeFix := t } else s

/-- A gate cycle begins at `t`, with the pending list when `swap` says so (R313, R314). -/
def State.gclBegin (s : State) (p : Fin 8) (t : Nat) (swap : Bool) : State :=
  let s1 := s.cbsNow p
  let s2 := match (s1.sw.port[p]).swap with
    | some g =>
      if swap then
        let sa := (s1.modPort p fun x => { x with oper := g, bank := !x.bank, swap := none }).ptSet p 3
        sa.emit 17 0x005#12 [nat32 p.val 0 ||| bitAt (sa.sw.port[p]).bank 4]
      else s1
    | none => s1
  s2.modPort p fun x => { x with run := some { idx := 0, start := t, cycStart := t } }

/-- A pick instant begins the cycle of a list with SRC = 1 (R313, R314). -/
def State.gclPick (s : State) (p : Fin 8) (t : Nat) : State :=
  let x := s.sw.port[p]
  let sw := x.swap.elim false fun g => g.src
  if sw || x.oper.src then s.gclBegin p t sw else s

/-- GCL_ENTRY_ADVANCE (R313): the interval of the entry in force ends, and the next entry of the list applies. -/
def execGclEntryAdvance (p : Fin 6) (s : State) : Res :=
  let q := extPort p
  let x := s.sw.port[q]
  match x.run with
  | some r =>
    let e := r.start + x.interval x.bank r.idx
    if swRuns s && decide (r.idx + 1 < x.oper.len.toNat) && ((cycleEnd s x r).elim true fun c => decide (e < c)) then
      .next (((s.reachFix e).cbsNow q).modPort q fun x => { x with run := some { r with idx := r.idx + 1, start := e } })
    else .next s
  | none => .next s

/-- GCL_CYCLE_START (R313, R314): the next cycle starts, of the operational list or of the pending one. A cycle with SRC = 1 starts at
the pick instant. -/
def execGclCycleStart (p : Fin 6) (s : State) : Res :=
  let q := extPort p
  let x := s.sw.port[q]
  if !swRuns s then .next s
  else
    let own := if x.oper.src then none else some (match x.run with
      | some r => gclStart s x.oper r.cycStart true
      | none => gclStart s x.oper s.tb.timeFix false)
    let sw := if x.swap.elim false fun g => !g.src then swapTime s x else none
    let t := match own, sw with
      | some a, some b => some (min a b)
      | some a, none => some a
      | none, b => b
    match t with
    | some t => .next ((s.reachFix t).gclBegin q t (decide (sw = some t)))
    | none =>
      let tk := s.tb.pickTime.toNat * nsUnit
      if s.tb.running && !s.tb.first && (x.run.elim true fun r => decide (r.cycStart < tk)) then .next (s.gclPick q tk) else .next s

/-- The administrative list may become operational (R314). -/
def gclOk (t : Port) : Bool :=
  let n := t.adm.len.toNat
  decide (1 ≤ n) && decide (n ≤ 256) && (List.range n).all fun i =>
    decide (t.entry (!t.bank) i >>> 32 ≠ 0#64) && decide (field (t.entry (!t.bank) i) 8 24 = 0#24)

/-- A write of PT_GCL_CTRL (R313, R314). -/
def State.setGclCtrl (s : State) (p : Fin 8) (v : BitVec 32) : State :=
  let s1 := (s.cbsNow p).modPort p fun t => { t with gclEn := bit v 0, adm := { t.adm with src := bit v 1, len := field v 3 9 } }
  if !bit v 12 then s1
  else if gclOk (s1.sw.port[p]) then s1.modPort p fun t => { t with swap := some t.adm, swapAt := s.tb.timeFix }
  else s1.ptSet p 4

/-- GCL_SWAP_REQUEST (R314): a write of PT_GCL_CTRL with SWAP = 1. -/
def execGclSwapRequest (p : Fin 6) (v : BitVec 32) (s : State) : Res :=
  if (s.domain 10).up then .next (s.setGclCtrl (extPort p) (setBit v 12)) else .next s

/-! ### Links, the database and counters -/

/-- The link of an enabled external port goes up or down (R328). -/
def State.linkChange (s : State) (p : Fin 6) (up : Bool) : State :=
  let q := extPort p
  let t := s.sw.port[q]
  if !swRuns s || t.mode = 0#3 || t.link == up then s
  else ((s.modPort q fun t => { t with link := up }).ptSet q 0).emit 17 0x001#12 [nat32 q.val 0 ||| bitAt up 4 ||| at32 t.mode 8]

/-- LINK_CHANGE (R328). -/
def execLinkChange (p : Fin 6) (up : Bool) (s : State) : Res := .next (s.linkChange p up)

/-- A write of SW_FDB_CMD: OP 1 writes a static entry, 2 deletes an entry (R310). -/
def State.setFdbCmd (s : State) (v : BitVec 32) : State :=
  let vid := field v 0 12
  let ports := field v 21 8
  let s1 := s.modSw fun w => { w with fdbPorts := ports, fdbVid := vid }
  let key := fun (e : FdbEntry) => decide (e.mac = s.sw.fdbMac) && decide (e.vid = vid)
  if field v 30 2 = 1#2 then
    let e : FdbEntry := { mac := s.sw.fdbMac, vid := vid, ports := ports, static_ := true }
    if s1.sw.fdb.any key then s1.modSw fun w => { w with fdb := w.fdb.map (fun x => if key x then e else x), fdbFull := false }
    else if 2048 ≤ s1.sw.fdb.length then s1.modSw fun w => { w with fdbFull := true }
    else s1.modSw fun w => { w with fdb := w.fdb ++ [e], fdbFull := false }
  else if field v 30 2 = 2#2 then s1.modSw fun w => { w with fdb := w.fdb.filter fun x => !key x }
  else s1

/-- FDB_WRITE (R310): a write of SW_FDB_CMD with OP = 1. -/
def execFdbWrite (v : BitVec 32) (s : State) : Res :=
  if (s.domain 10).up then .next (s.setFdbCmd (at32 (field v 0 30) 0 ||| nat32 1 30)) else .next s

/-- FDB_DELETE (R310): a write of SW_FDB_CMD with OP = 2. -/
def execFdbDelete (v : BitVec 32) (s : State) : Res :=
  if (s.domain 10).up then .next (s.setFdbCmd (at32 (field v 0 30) 0 ||| nat32 2 30)) else .next s

/-- FDB_AGE_EXPIRE (R310): learned entry `i` has not been seen for SW_AGE seconds. -/
def execFdbAgeExpire (i : Nat) (s : State) : Res :=
  match s.sw.fdb[i]? with
  | some e =>
    if swRuns s && !e.static_ then
      .next ((s.reach (e.seen + s.sw.age.toNat * 1000000000)).modSw fun w => { w with fdb := w.fdb.eraseIdx i })
    else .next s
  | none => .next s

/-- CB_STREAM_RESET (R320): stream `i` has accepted no frame for RESET_MS. -/
def execCbStreamReset (i : Nat) (s : State) : Res :=
  match s.sw.cb[i]? with
  | some t =>
    if swRuns s then
      .next ((s.reach (t.last + s.sw.cbReset.toNat * 1000000)).modSw fun w =>
        { w with cb := w.cb.set i { t with takeAny := true, hist := 0#32 } })
    else .next s
  | none => .next s

/-- PT_CNT_CLEAR: a write of any value clears a port counter. -/
def execPtCntClear (p : Fin 8) (k : Fin 6) (s : State) : Res :=
  if (s.domain 10).up then .next (s.modPort p fun t => { t with cnt := upd t.cnt k fun _ => 0#32 }) else .next s

end Sys2Proof.Machine
end

