-- ==== Sys2Proof/Machine/Pair.lean ====
section
/-! DEFINITION. The pair link: heartbeats, roles and the lease, takeover, handover, resynchronisation, control and safety frames, and
the recovery window of a pair (R362 to R367, R372 to R389). -/
namespace Sys2Proof.Machine

/-! ### Roles -/

/-- A role is taken (R362, R389): cause 0 command, 1 sync, 2 takeover, 3 partner lost, 4 link fault, 5 divergence, 6 handover. A
device that gains the lease drives its trigger outputs (R363, R378); one that stops following returns to its own domains (R340, R378);
one that no longer leads completes the solution that waited for the partner (R372). -/
def State.setRole (s : State) (r : PairRole) (cause : Nat) : State :=
  if s.pr.role = r then s
  else
    let s1 := ((s.modPr fun p => { p with role := r }).prSet 0).emit 20 0x001#12
      [at32 r.code 0 ||| at32 s.pr.role.code 4 ||| nat32 cause 8]
    let s2 := if follows s && !follows s1 then s1.ntReturn else if follows s1 && !follows s then s1.modPr fun p => { p with ext := {} } else s1
    let s3 := if s.pr.role = .active then s2.solutionAcked else s2
    if !s.lease && s3.lease then
      s3.forEach (fins 8) fun s t => if (s.fb.trig[t]).pulses.isEmpty then s else s.driveTrig t true
    else s3

/-- The request for resynchronisation (R382). -/
def syncReq (s : State) : SyncReq :=
  { role := s.pr.role, unit := s.pr.unit, part := 0x0880#32, rev := 0x12#32
    sealed := s.sv.sealed, digest := s.sv.digest, off := s.cell.ax.all fun x => decide (x.state = .disabled), carry := draftCarry s }

/-- SYNC_REQ is sent (R382). -/
def State.requestSync (s : State) : State := (s.modPr fun p => { p with reqAt := some s.now }).pairCtl (.req (syncReq s))

/-- A refused request is recorded, with its reason and whether the partner refused it (R382, R389). -/
def State.syncRefused (s : State) (reason : BitVec 4) (byPartner : Bool) : State :=
  (s.emit 20 0x005#12 [at32 reason 0 ||| bitAt byPartner 4]).prSet 5

/-! ### Pair faults and their windows (R387, R388) -/

/-- A pair fault opens a window that spans both devices; a second fault inside one is a double fault. -/
def State.pairFaultFound (s : State) (code : BitVec 12) (lane : Bool) : State :=
  if s.pw.state = .safeHold then s
  else match windowOf s with
    | some g => s.doubleFault g (20, code)
    | none => (s.modPr fun p => { p with
        own := some (20, code), ownLane := lane, handOwn := none, handReq := false, handFrom := none }).pairCtl (.fault (20, code))

/-- A window on this device, or one for a pair fault that the partner reported (R388). A fault of the partner's island is the same
fault as the loss of the partner that follows it (R387). -/
def openWindow (s : State) : Option (Nat × BitVec 12) :=
  match s.sv.first, s.pr.own, s.pr.fault with
  | some f, _, _ => some f
  | none, some f, _ => some f
  | none, none, some f => if f.1 = 20 then some f else none
  | none, none, none => none

/-- The windows of pair faults close once one device is ACTIVE and the other in STANDBY (R387). -/
def State.pairClose (s : State) : State :=
  if (s.pr.role = .active ∧ s.pr.partner = .standby) ∨ (s.pr.role = .standby ∧ s.pr.partner = .active) then
    s.modPr fun p => { p with
      own := if p.ownLane then p.own else none
      fault := p.fault.bind fun f => if f.1 = 20 then none else some f }
  else s

/-! ### Heartbeats (R366, R367) -/

/-- The device sends heartbeats: pairing is enabled, PD11 is in RUN and the island is SEALED without fault (R366, R380). -/
def beats (s : State) : Bool :=
  s.pr.en && decide (s.domain 11 = .run) && s.pw.state.live && islandOk s && !s.pr.mute

/-- HEARTBEAT_SEND (R366, R367, R381): at the end of 4 µs a heartbeat is sent; it names the pick instant of a handover. -/
def execHeartbeatSend (s : State) : Res :=
  if beats s then
    let s1 := s.reach (s.pr.hbAt + 4000)
    let s2 := if s1.pr.handReq then s1.modPr fun p => { p with handOwn := some (s1.tb.pickNum + 1#32), handReq := false } else s1
    .next s2.sendHeartbeat
  else .next s.alvLow

/-- The link delay from a heartbeat that arrives at network time `t4`: its RX words answer the own heartbeat with SEQ RX_SEQ
(R366). -/
def pairDelay (s : State) (w : List (BitVec 32)) (t4 : Int) : BitVec 16 :=
  match s.pr.sent.find? fun q => decide (q.1 = w.getD 8 0#32) with
  | some q =>
    let d := ((t4 - q.2) - (wordsNet w 2 - wordsNet w 5)) / 2
    BitVec.ofNat 16 (min 65535 d.toNat)
  | none => s.pr.delay

/-- A partner heartbeat is taken (R366, R372, R377, R381, R385, R387, R388). PR_SKEW: the heartbeat does not carry the partner's pick
instant, so its value is free. -/
def State.heartbeat (s : State) (x : LinkFrame) : State :=
  let w := x.body
  let h := w.getD 0 0#32
  let t4 : Int := (s.now : Int) + s.nt.ofs
  let d := pairDelay s w t4
  let s1 := s.modPr fun p => { p with
    partner := .ofCode (field h 0 2), heard := s.now, leaseAt := if bit h 2 then s.now else p.leaseAt, rxSeq := x.seq, rxNet := t4
    delay := d, handFrom := if bit h 4 then some (w.getD 1 0#32) else none }
  let s2 := if follows s1 then
      let f := s1.takeFresh
      (f.2.modPr fun p => { p with skew := Config.free32 f.1 }).extTrack ((wordsNet w 2 + d.toNat - s1.now) * nsUnit) s1.now
    else s1
  let s3 := if (s2.pr.unacked.map fun q => q.1) = some (w.getD 10 0#32) || !leads s2 then s2.solutionAcked else s2
  let s4 := s3.pairClose
  if bit h 5 && decide (s4.pw.state ≠ .safeHold) then
    let a := s4.takeFresh
    let b := a.2.takeFresh
    (((b.2.emit 20 0x008#12 [0x31#32, Config.free32 a.1, Config.free32 b.1]).prSet 7).enterSafeHold 2).pairMute
  else s4

/-- HEARTBEAT_RECEIVE (R365, R366). -/
def execHeartbeatReceive (frame : List (BitVec 32)) (s : State) : Res :=
  if !s.pr.en || !pairUp s then .next s
  else match linkParse frame with
    | none => .next (s.pairBad 1)
    | some x => .next (if x.ty = 0 then s.heartbeat x else s)

/-- PAIR_ALV_IN_CHANGE (R367). -/
def execPairAlvInChange (level : Bool) (s : State) : Res :=
  if level = s.pr.alvIn then .next s
  else .next (s.modPr fun p => { p with alvIn := level, alvAt := s.now, alive := true })

/-- PARTNER_SILENT (R367): PAIR_ALV_IN has not changed for 12 µs. -/
def execPartnerSilent (s : State) : Res :=
  if s.pr.alive then .next ((s.reach (s.pr.alvAt + 12000)).modPr fun p => { p with alive := false }) else .next s

/-! ### Loss of the partner (R377 to R379, R387) -/

/-- The takeover (R378): the device holds the lease as ALONE, and the window of the loss closes with it; a window that was open makes
it a double fault (R388). `us` is the time from expiry to its completion. -/
def State.takeOver (s : State) (us : Nat) : State :=
  match openWindow s with
  | some g => s.doubleFault g (20, 0x002#12)
  | none =>
    let s1 := (s.reach (s.now + 1000 * us)).setRole .alone 2
    let t := min 65535 ((s1.now - s.pr.heard) / 1000)
    ((s1.modPr fun p => { p with fault := none, solIn := none, takeoverUs := BitVec.ofNat 16 t, sync := none }).emit 20 0x002#12
      [s1.tb.pickNum, BitVec.ofNat 32 t]).prSet 1

/-- A link fault is declared: the link is lost and both devices live (R377, R379, R387). -/
def State.linkFault (s : State) (cause : Nat) : State :=
  (s.emit 20 0x003#12 [nat32 cause 0 ||| bitAt (!s.pr.alive) 8]).prSet 2

/-- LEASE_EXPIRE (R377, R378): 30 µs after the last heartbeat with LEASE = 1. -/
def execLeaseExpire (us : Fin 11) (s : State) : Res :=
  if s.pr.role ≠ .standby then .next s
  else
    let s1 := s.reach (s.pr.leaseAt + 30000)
    if s1.pr.alive then .next (((s1.setRole .syncing 4).linkFault 0).pairFaultFound 0x003#12 false)
    else .next (s1.takeOver us.val)

/-- STANDBY_LOST (R379, R387, R388): 30 µs without a heartbeat in ACTIVE, or a lost partner in SYNCING. -/
def execStandbyLost (s : State) : Res :=
  if s.pr.role = .active then
    let s1 := s.reach (s.pr.heard + 30000)
    if s1.pr.alive then .next (((s1.linkFault 0).pairFaultFound 0x003#12 false).setRole .alone 4)
    else match openWindow s1 with
      | some g => .next ((s1.doubleFault g (20, 0x001#12)).setRole .alone 3)
      | none => .next ((s1.setRole .alone 3).modPr fun p => { p with fault := none })
  else if s.pr.role = .syncing && !s.pr.alive then
    let s1 := s.reach (s.pr.heard + 30000)
    match windowOf s1 with
    | some _ => .next ((s1.enterSafeHold 2).pairMute)
    | none => .next (((s1.setRole .alone 3).modPr fun p => { p with sync := none, retryAt := none }).forEach (fins 80) State.svFaultAxis)
  else .next s

/-- The levels of both lanes after a change (R364, R377, R382, R387). -/
def State.laneChange (s : State) (l0 l1 : Bool) : State :=
  let was := pairUp s
  let s1 := s.modPr fun p => { p with lane := #v[l0, l1] }
  let lost0 := s.pr.lane[0] && !l0
  let lost1 := s.pr.lane[1] && !l1
  if !s.pr.en then s1
  else if (lost0 && l1) || (lost1 && l0) then
    let s2 := s1.linkFault (if lost0 then 1 else 2)
    if paired s2 then s2.pairFaultFound 0x003#12 true else s2
  else
    let s2 := if l0 && l1 && s1.pr.ownLane then s1.modPr fun p => { p with own := none, ownLane := false } else s1
    if !was && pairUp s2 && decide (s2.pr.role = .syncing) then s2.requestSync else s2

/-- PAIR_LANE_CHANGE (R364, R377, R382, R387). -/
def execPairLaneChange (l0 l1 : Bool) (s : State) : Res := .next (s.laneChange l0 l1)

/-! ### Handover (R381) -/

/-- A write of PR_CTRL: HANDOVER asks for the lease to be handed over; CNT_CLR clears the counters. -/
def State.setPairCtrl (s : State) (v : BitVec 32) : State :=
  let s1 := if bit v 1 then s.modPr fun p => { p with cnt := Vector.replicate 3 0#32 } else s
  if !bit v 0 then s1
  else if s1.pr.role = .active ∧ s1.pr.partner = .standby then s1.modPr fun p => { p with handReq := true }
  else s1.prSet 8

/-- HANDOVER_REQUEST (R381). -/
def execHandoverRequest (v : BitVec 32) (s : State) : Res :=
  if (s.domain 11).up then .next (s.setPairCtrl (setBit v 0)) else .next s

/-- PAIR_CNT_CLR: the PR_CNT counters are cleared. -/
def execPairCntClr (s : State) : Res :=
  if (s.domain 11).up then .next (s.modPr fun p => { p with cnt := Vector.replicate 3 0#32 }) else .next s

/-- The handover at its pick instant `k` (R381). -/
def State.handOverAt (s : State) (k : BitVec 32) : State :=
  let s1 := if s.pr.role = .active ∧ s.pr.handOwn = some k then s.setRole .standby 6 else s
  let s2 := if s.pr.role = .standby ∧ s.pr.handFrom = some k then s1.setRole .active 6 else s1
  if s2.pr.role = s.pr.role then s2
  else s2.modPr fun p => { p with handOwn := none, handFrom := none, partner := if p.role = .active then .standby else .active
                                  leaseAt := s.now, heard := s.now }

/-! ### Resynchronisation (R382, R383) -/

/-- The blocks of the configuration set, the time base last (R383, R384). -/
def configParts (s : State) : List CfgPart :=
  (fins 96).map (fun c => .channel c (s.ch c)) ++ (fins 80).map (fun a => .slice a (s.slice a)) ++
  (fins 80).map (fun a => .axis a (s.pax a).param) ++ (fins 8).map (fun r => .arm r (s.armDef r)) ++
  (fins 8).map (fun t => .trig t (s.fb.trig[t]).width (s.fb.trig[t]).pol) ++ [.scale s.pg.dsUp] ++
  (fins 8).map (fun k => .segments k s.pg.slot[k]) ++ (fins 16).map (fun n => .link n s.stl[n]) ++ [.weights s.lm.weight] ++
  (fins 8).map (fun d => .draft d { s.draft d with insts := [] }
    (if (s.draft d).state = .empty then [] else s.rdBytes (slotBase d) (field (draftWord s.mem (slotBase d) 2) 0 19).toNat)) ++
  [.churn s.qp (if s.qp.sched then s.rdBytes chBase (schWord s.mem 10).toNat else []) (s.rdBytes (costHalf s false) 131072)
    (s.rdBytes (chSol s.qp.curBuf) (solutionBytes (qpDims s.mem))),
   .drive s.sw.etype s.sw.offset s.sw.grp]

/-- The next beat boundary of this device: network time, pick number and beat number (R383). -/
def nextBoundary (s : State) : Int × BitVec 32 × BitVec 32 :=
  let t := s.tb
  let n := t.activeN.toNat
  let left := n - t.phase.toNat
  let k := t.pickNum + BitVec.ofNat 32 left
  (s.netTime (t.nominal (t.j + left - 1) / nsUnit), k, t.beatNum + 1#32)

/-- The configuration set is sent in frames of type 5 (R383, R384). -/
def State.sendConfig (s : State) : State :=
  let ps := configParts s ++ [let b := nextBoundary s; .timeBase s.tb.activePeriod s.tb.activeN b.1 b.2.1 b.2.2]
  let n := ps.length
  s.forEach ((List.range n).zip ps) fun s q =>
    { s with out := .cfg (BitVec.ofNat 32 q.1) (decide (q.1 + 1 = n)) q.2 :: s.out, pr.seqTx := s.pr.seqTx + 1#32 }

/-- The reason for which a request is refused here, if any; a request of UNIT 0 that crosses the own one of UNIT 1 (R382). -/
def syncRefuse (s : State) (r : SyncReq) : Option (BitVec 4) :=
  let own := syncReq s
  let crossed := s.pr.reqAt.elim false fun t => decide (s.now - t < 4000)
  if crossed && s.pr.unit then some 6#4
  else if s.pr.role ≠ .alone ∨ (r.role ≠ .alone ∧ r.role ≠ .syncing) then some 1#4
  else if !own.sealed || !r.sealed || decide (own.digest ≠ r.digest) then some 2#4
  else if own.part ≠ r.part ∨ own.rev ≠ r.rev then some 3#4
  else if !r.off then some 4#4
  else if 14784 < own.carry then some 5#4
  else none

/-- A request is accepted, with the configuration set to follow, or refused (R382, R383). -/
def State.syncReqTake (s : State) (r : SyncReq) : State :=
  match syncRefuse s r with
  | some n => (s.syncRefused n false).pairCtl (.refused n)
  | none =>
    let s1 := if s.pr.reqAt.isSome then (s.modPr fun p => { p with reqAt := none }).syncRefused 6#4 false else s
    (((s1.setRole .active 1).modPr fun p => { p with partner := .syncing, heard := s1.now }).pairCtl .ack).sendConfig

/-- The answer to the own request (R383). -/
def State.syncAckTake (s : State) : State :=
  if s.pr.reqAt.isSome then
    (s.setRole .syncing 1).modPr fun p => { p with
      reqAt := none, retryAt := none, sync := some { at_ := s.now }, partner := .active, heard := s.now, streak := 0#2, misses := 0 }
  else s

/-- SYNC_REQ_RECEIVE (R382, R383). -/
def execSyncReqReceive (bad : Bool) (r : SyncReq) (s : State) : Res :=
  if !s.pr.en || !pairUp s then .next s else if bad then .next (s.pairBad 1) else .next (s.syncReqTake r)

/-- SYNC_ACK_RECEIVE (R383). -/
def execSyncAckReceive (bad : Bool) (s : State) : Res :=
  if !s.pr.en || !pairUp s then .next s else if bad then .next (s.pairBad 1) else .next s.syncAckTake

/-- SYNC_FAIL (R383): the requester is not in STANDBY 1 s after acceptance. -/
def execSyncFail (s : State) : Res :=
  match s.pr.role, s.pr.sync with
  | .syncing, some y =>
    let s1 := s.reach (y.at_ + 1000000000)
    .next (((s1.modPr fun p => { p with sync := none, retryAt := some (s1.now + 100000000), streak := 0#2 }).emit 20 0x007#12
      [at32 y.step 0]).prSet 5)
  | _, _ => .next s

/-- SYNC_RETRY (R383): 100 ms after a failure the resynchronisation starts again: its steps with a partner that is ACTIVE, the request
otherwise. -/
def execSyncRetry (s : State) : Res :=
  match s.pr.role, s.pr.retryAt with
  | .syncing, some t =>
    let s1 := (s.reach t).modPr fun p => { p with retryAt := none }
    .next (if s1.pr.partner = .active then s1.modPr fun p => { p with sync := some { at_ := s1.now } } else s1.requestSync)
  | _, _ => .next s

/-- PAIR.SYNC (R382): on a device in ALONE with the link up, SYNC_REQ is sent and the operation completes. -/
def execPairSync (f : Fin 16) (w : TWord) (s : State) : Res :=
  .next (s.devOp f 0x42#8 0#4 w [] 0#32 none (fun _ => [xwNot w [0#4]])
    (fun s => [stateGate s [.ready, .run] 11 0#8, (!(s.pr.en && decide (s.pr.role = .alone) && pairUp s), .state, 0#8)])
    fun s => (s.opAccept f w .ok 0#8 none).requestSync)

/-! ### Control, safety and solution frames -/

/-- CONTROL_FRAME_RECEIVE (R382, R388). A fault of the link that both devices detect is one fault. -/
def execControlFrameReceive (bad : Bool) (c : PairCtl) (s : State) : Res :=
  if !s.pr.en || !pairUp s then .next s
  else if bad then .next (s.pairBad 1)
  else match c with
    | .req r => .next (s.syncReqTake r)
    | .ack => .next s.syncAckTake
    | .refused n => .next ((s.modPr fun p => { p with reqAt := none }).syncRefused n true)
    | .fault f =>
      if !paired s || s.pw.state = .safeHold || decide (s.pr.own = some f) then .next s
      else
        let s1 := s.modPr fun p => { p with handOwn := none, handReq := false, handFrom := none }
        .next (match windowOf s1 with
          | some g => s1.doubleFault g f
          | none => svWatch s1 (s1.modPr fun p => { p with fault := some f }))
    | .double f g =>
      if s.pw.state = .safeHold then .next s
      else .next ((((s.emit 20 0x008#12 [0x31#32, faultWord f, faultWord g]).prSet 7).enterSafeHold 2).pairMute)

/-- SAFETY_RECORD_RECEIVE (R373, R374): a record whose two CRCs check, complete by t_k + 20 µs, is combined with the own values. -/
def execSafetyRecordReceive (bad check : Bool) (r : PairSafe) (s : State) : Res :=
  if !s.pr.en || !pairUp s then .next s
  else if bad then .next (s.pairBad 1)
  else if check && paired s && s.tb.running && decide (r.pick = s.tb.pickNum) && decide (s.now ≤ s.tb.pickTime.toNat + 20000) then
    .next (svWatch s ((s.modPr fun p => { p with safe := some r }).svPublish.ossdUpdate))
  else .next s

/-- SOLUTION_COPY_RECEIVE (R372): a complete solution is kept until the input record names it, and acknowledged. -/
def execSolutionCopyReceive (frames : List (List (BitVec 32))) (s : State) : Res :=
  if !s.pr.en || !pairUp s then .next s
  else
    let o := linkObject 4 frames
    let s1 := s.pairBad o.1
    match o.2 with
    | some (i, ws) => .next (if follows s1 then s1.modPr fun p => { p with solIn := some (i, ws), gotSol := i } else s1)
    | none => .next s1

end Sys2Proof.Machine
end

