-- ==== Sys2Proof/Machine/Ring.lean ====
section
/-! DEFINITION. The Warp ring: the relay, ring frames, ring states and alignment, capsules and trajectories of the other devices (R390
to R402). -/
namespace Sys2Proof.Machine

/-- RING_LINK_CHANGE (R394, R395): the levels of both lanes, and their measured link delays in ns. -/
def execRingLinkChange (inUp outUp : Bool) (dIn dOut : BitVec 16) (s : State) : Res :=
  .next (s.modWr fun r => { r with linkIn := inUp, linkOut := outUp, hopIn := dIn, hopOut := dOut }).ringRelay

/-! ### Frames (R392, R393) -/

/-- One ring frame. -/
def ringFrame (ty : Nat) (last : Bool) (hops origin : Nat) (seq tag : BitVec 32) (frag : Nat) (p : List (BitVec 32)) : List (BitVec 32) :=
  let w := [nat32 ty 0 ||| bitAt last 4 ||| nat32 hops 5 ||| nat32 p.length 8 ||| nat32 origin 20, seq, tag, nat32 frag 0] ++ p
  w ++ [crc32c (wordsBytes w)]

/-- An object of the own origin is sent, with HOPS 7 (R392). -/
def State.ringSend (s : State) (ty : Nat) (tag : BitVec 32) (p : List (BitVec 32)) : State :=
  if s.wr.relay && s.wr.linkOut then
    let ps := pairPieces p.length p
    let n := ps.length
    s.forEach (ps.zip (List.range n)) fun s q =>
      { s with
        out := .ring ty (ringFrame ty (decide (q.2 + 1 = n)) 7 s.boot.cascPos.toNat s.wr.seqTx tag q.2 q.1) :: s.out
        wr := { s.wr with seqTx := s.wr.seqTx + 1#32, sentSeq := (s.wr.seqTx :: s.wr.sentSeq).take 64 } }
  else s

/-- CORR of an ALIGN payload, 2^-16 ns (R394). -/
def alignCorr (b : List (BitVec 32)) : Nat := (b.getD 9 0#32).toNat + 4294967296 * (b.getD 10 0#32).toNat

/-- An ALIGN payload with `ns` added to CORR (R394). -/
def alignAdd (b : List (BitVec 32)) (ns : Nat) : List (BitVec 32) :=
  let c := alignCorr b + 65536 * ns
  (b.take 9) ++ [BitVec.ofNat 32 c, BitVec.ofNat 32 (c / 4294967296)] ++ b.drop 11

/-- A frame is forwarded by cut-through with HOPS reduced by 1 (R393). `res` is the residence time in ns. -/
def State.ringForward (s : State) (x : LinkFrame) (res : Nat) : State :=
  let hops := (field x.head 5 3).toNat
  if hops = 0 ∨ s.wr.linkOut = false then s
  else
    let b : List (BitVec 32) := if x.ty = 0 then alignAdd x.body (res + s.wr.hopIn.toNat) else x.body
    { s with out := .ring x.ty (ringFrame x.ty (bit x.head 4) (hops - 1) (field x.head 20 3).toNat x.seq x.tag x.frag b) :: s.out }

/-! ### Alignment (R396, R397) -/

/-- The reason for which a follower refuses to join: 0 V, 1 N, 2 device state (R396). -/
def joinRefuse (s : State) (b : List (BitVec 32)) : Option Nat :=
  if b.getD 6 0#32 ≠ BitVec.ofNat 32 (periodV s.tb.stagedPeriod) then some 0
  else if field (b.getD 7 0#32) 0 7 ≠ s.tb.stagedN then some 1
  else if s.pw.state ≠ .ready then some 2
  else none

/-- The master's instant PT minus the own pick instant in network time, ns (R397). -/
def ringSkew (s : State) (b : List (BitVec 32)) : Int := wordsNet b 3 - s.netTime s.tb.pickTime.toNat

/-- The master's next beat boundary: network time, pick number and beat number (R396). -/
def masterBoundary (x : LinkFrame) : Int × BitVec 32 × BitVec 32 :=
  let b := x.body
  let n := (field (b.getD 7 0#32) 0 7).toNat
  let left := n - (field (b.getD 7 0#32) 8 6).toNat
  (wordsNet b 3 + ((b.getD 6 0#32).toNat * left / 32 : Nat), x.tag + BitVec.ofNat 32 left, b.getD 8 0#32 + 1#32)

/-- The master is tracked as the servo's source by a device that holds the lease (R396). -/
def State.ringTrack (s : State) (b : List (BitVec 32)) : State :=
  if s.lease then
    (s.modWr fun r => { r with follow := true }).extTrack ((wordsNet b 0 + (alignCorr b / 65536 : Nat) - s.now) * nsUnit) s.now
  else s

/-- One ALIGN frame in JOINING (R396): a device without the lease is aligned by its partner. -/
def State.ringJoin (s : State) (x : LinkFrame) (same : Bool) : State :=
  if !s.lease then (if same then s.ringState .up else s)
  else match joinRefuse s x.body with
    | some c => (s.modWr fun r => { r with start := none }).emit 21 0x002#12 [nat32 c 0]
    | none => (s.ringTrack x.body).modWr fun r => { r with start := some (masterBoundary x) }

/-- An ALIGN frame at a follower (R395 to R397). -/
def State.alignTake (s : State) (x : LinkFrame) : State :=
  let b := x.body
  let last := s.wr.alignPick
  let s1 := s.modWr fun r => { r with alignAt := s.now, alignPick := x.tag }
  let same := s.tb.running && decide (x.tag = s.tb.pickNum) && decide ((ringSkew s b).natAbs ≤ 1000)
  match s.wr.state with
  | .out => s
  | .up =>
    let s2 := s1.ringTrack b
    if x.tag = s.tb.pickNum then
      s2.modWr fun r => { r with skew := int32 (ringSkew s b), aligned := decide ((ringSkew s b).natAbs ≤ 20) }
    else s2
  | .joining => s1.ringJoin x same
  | .down =>
    if !(s.wr.linkIn && s.wr.linkOut) || s.wr.lost then s
    else if s.wr.wasUp then
      (if same then (s1.ringTrack b).ringState .up
      else (s1.modWr fun r => { r with lost := true }).emit 21 0x003#12 [last, x.tag])
    else (s1.ringState .joining).ringJoin x same

/-! ### Capsules and trajectories (R398 to R400) -/

/-- A list of words in groups of eight. -/
def octets : Nat → List (BitVec 32) → List (Vector (BitVec 32) 8)
  | 0, _ => []
  | n + 1, w => Vector.ofFn (fun i => w.getD i.val 0#32) :: octets n (w.drop 8)

/-- The part of the foreign set that belongs to logical position `l` (R399). -/
def foreignPart (s : State) (l : Nat) : Nat := (l + 7 - ringL s) % 4

/-- The foreign set with one origin's part replaced; it carries the index and the sample time of that part (R234, R399). -/
def State.setForeign (s : State) (m : Nat) (index : BitVec 32) (stime : Nat) (caps : List (Vector (BitVec 32) 8)) : State :=
  let old := (s.rd.foreign.map fun c => c.caps).getD []
  let pad := old ++ List.replicate (384 - old.length) (Vector.replicate 8 0#32)
  { s with rd.foreign := some { index := index, stime := stime, caps := pad.take (128 * m) ++ caps ++ pad.drop (128 * m + 128) } }

/-- A complete CAPS object of a position (R398, R399). -/
def State.capsTake (s : State) (pos : Nat) (tag : BitVec 32) (w : List (BitVec 32)) : State :=
  let l := pos / 2
  if l = ringL s ∨ 4 ≤ l then s
  else
    let t := s.cellTime (wordsNet w 0)
    let caps := octets 128 (w.drop 3)
    (s.modWr fun r => { r with origin := updN r.origin l fun o => { o with index := some tag, stime := t, caps := caps } }).setForeign
      (foreignPart s l) tag t caps

/-- A complete TRAJ object of a position (R400). -/
def State.trajTake (s : State) (pos : Nat) (tag : BitVec 32) (w : List (BitVec 32)) : State :=
  if pos / 2 = ringL s then s else s.modWr fun r => { r with origin := updN r.origin (pos / 2) fun o => { o with traj := some (tag, w) } }

/-- A fragment joins the object of its origin; the last one completes it, and a gap discards the object (R365, R392). -/
def State.ringAdd (s : State) (x : LinkFrame) (pos : Fin 8) : State :=
  let prev := s.wr.asm[pos]
  let body : Option (List (BitVec 32)) :=
    if x.frag = 0 then some x.body
    else match prev with
      | some (q, f, b) => if x.seq = q + 1#32 ∧ x.frag = f + 1 then some (b ++ x.body) else none
      | none => none
  let keep := fun (v : Option (BitVec 32 × Nat × List (BitVec 32))) => s.modWr fun r => { r with asm := upd r.asm pos fun _ => v }
  match body with
  | none => keep none
  | some b =>
    if !bit x.head 4 then keep (some (x.seq, x.frag, b))
    else if x.ty = 1 then (keep none).capsTake pos.val x.tag b else (keep none).trajTake pos.val x.tag b

/-- RING_FRAME_RECEIVE (R393, R394, R396, R397, R399, R400): a frame at WR_IN. -/
def execRingFrameReceive (frame : List (BitVec 32)) (res : BitVec 16) (s : State) : Res :=
  if !s.wr.relay || !s.wr.linkIn then .next s
  else match linkParse frame with
    | none => .next (s.modWr fun r => { r with cntCrc := satInc r.cntCrc })
    | some x =>
      let pos : Fin 8 := Fin.ofNat 8 (field x.head 20 3).toNat
      if 3 ≤ x.ty then .next s
      else if pos.val = s.boot.cascPos.toNat then
        (if s.wr.sentSeq.contains x.seq then .next s
        else
          let s1 := s.modWr fun r => { r with insert := false }
          .next ((s1.emit 21 0x004#12 [nat32 pos.val 0]).ringRelay))
      else
        let s1 := s.ringForward x res.toNat
        .next (if x.ty = 0 then (if ringMaster s1 then s1 else s1.alignTake x) else s1.ringAdd x pos)

/-- ALIGN_SEND (R394, R395): the master sends ALIGN once per pick, 2 µs after its instant. -/
def execAlignSend (s : State) : Res :=
  if ringMaster s && decide (s.wr.state = .up) && s.tb.running && decide (s.wr.alignSent ≠ some s.tb.pickNum) then
    let s1 := (s.reach (s.tb.pickTime.toNat + 2000)).modWr fun r => { r with alignSent := some s.tb.pickNum }
    let p := netWords (s1.netTime s1.now) ++ netWords (s1.netTime s1.tb.pickTime.toNat) ++
      [BitVec.ofNat 32 s1.pickV, at32 s1.tb.activeN 0 ||| at32 s1.tb.phase 8, s1.tb.beatNum, 0#32, 0#32]
    .next (s1.ringSend 0 s1.tb.pickNum p)
  else .next s

/-- CAPS_SEND (R398): a device in UP with an active ring duty sends its capsules once those of the pick are placed. -/
def execCapsSend (s : State) : Res :=
  let newest := s.rd.place.toList.filterMap id
  if decide (s.wr.state = .up) && s.lease && s.tb.running && decide (s.wr.capsSent ≠ some s.tb.pickNum) &&
      newest.any fun c => decide (c.index = s.tb.pickNum) then
    let t := (newest.map fun c => c.stime).foldl max 0
    let caps := (fins 8).flatMap fun r =>
      let c := (s.rd.place[r].map fun c => c.caps).getD []
      (List.range 16).map fun i => c.getD i (Vector.replicate 8 0#32)
    .next ((s.modWr fun r => { r with capsSent := some s.tb.pickNum }).ringSend 1 s.tb.pickNum
      (netWords (s.netTime t) ++ caps.flatMap fun c => c.toList))
  else .next s

/-- The TRAJ object of the published solution is sent at a beat boundary (R400). -/
def State.trajSend (s : State) : State :=
  match s.wr.traj with
  | some w =>
    if decide (s.wr.state = .up) && s.lease && decide (s.wr.stages ≠ 0#4) && s.qp.curValid then
      s.ringSend 2 s.qp.curIndex (w.take (1024 * s.wr.stages.toNat))
    else s
  | none => s

/-- RING_ALIGN_TIMEOUT (R395, R397): no ALIGN frame for 4 pick lengths takes a follower to DOWN and its network time into HOLDOVER. -/
def execRingAlignTimeout (s : State) : Res :=
  if !ringMaster s && (decide (s.wr.state = .joining) || decide (s.wr.state = .up)) then
    let s1 := s.reach (s.wr.alignAt + s.pickV / 8 + 1)
    .next ((if s1.wr.follow && !follows s1 then s1.ntHold s1.pr.ext.f else s1).ringState .down)
  else .next s

/-- FOREIGN_STALE (R399): the part of an origin whose index is older than FOREIGN_MAX picks is withdrawn. -/
def execForeignStale (l : Fin 4) (s : State) : Res :=
  match (s.wr.origin[l]).index with
  | some i =>
    let d := (s.tb.pickNum - i).toNat
    if s.wr.foreignMax.toNat < d ∧ d < 2 ^ 31 then
      let s1 := s.modWr fun r => { r with origin := upd r.origin l fun o => { o with index := none, caps := [] } }
      .next ((s1.setForeign (foreignPart s l.val) i (s.wr.origin[l]).stime (List.replicate 128 (Vector.replicate 8 0#32))).emit 21 0x005#12
        [nat32 l.val 0])
    else .next s
  | none => .next s

/-- WR_CNT_CRC_CLEAR: a write of any value clears the count. -/
def execWrCntCrcClear (_v : BitVec 32) (s : State) : Res :=
  if (s.domain 11).up then .next (s.modWr fun r => { r with cntCrc := 0#32 }) else .next s

end Sys2Proof.Machine
end

