-- ==== Sys2Proof/Machine/SetPoints.lean ====
section
/-! DEFINITION. The release of the outputs of a pick: the set-point frames of every group, the stepper links, and the digest of a pair
(R22, R177, R321 to R324, R370). -/
namespace Sys2Proof.Machine

/-! ### Set-point frames (R321 to R324) -/

/-- The axes of a group in OUTMODE 0 to 2: groups 0 to 7 are the arms, 8 and 9 ranges of auxiliary axes (R322). -/
def groupAxes (s : State) (g : Fin 10) : List (Fin 80) :=
  let l := if h : g.val < 8 then s.armAxes ⟨g.val, h⟩
    else (List.range (s.sw.grp[g]).count.toNat).map fun i => Fin.ofNat 80 ((s.sw.grp[g]).first.toNat + i)
  l.filter fun a => decide ((s.slice a).outmode ≠ 3#2)

/-- EN of a record: the axis is in a closed-loop state and the device in RUN (R323). -/
def spEnabled (s : State) (a : Fin 80) : Bool := (s.axis a).state.closed && decide (s.pw.state = .run)

/-- POS, VEL and TORQ of a record: the outputs held for release, or the last values sent while EN is 0 (R323). -/
def spValues (s : State) (a : Fin 80) : SentSp :=
  let h := (s.slice a).held
  if spEnabled s a then
    match (s.slice a).outmode with
    | 0#2 => { pos := int64 h.xr, vel := int64 h.vr, torq := int32 h.tff }
    | 1#2 => { pos := 0#64, vel := int64 h.vc, torq := int32 h.tff }
    | _ => { pos := 0#64, vel := 0#64, torq := int32 h.y }
  else (s.dr[a]).sent

/-- TLIM of a record: that of the active bank, lowered to HOME_TLIM in a stall search (R173, R323). -/
def spLimit (s : State) (a : Fin 80) : BitVec 32 :=
  let t := (s.slice a).bank.tlim
  if stallSearch s a then int32 (min (t.toNat : Int) ((s.pax a).par 12)) else t

/-- One record of a set-point frame (R323). -/
def spRecord (s : State) (a : Fin 80) : List (BitVec 32) :=
  let v := spValues s a
  let safe := if (s.sl.ax[a]).ctrlEn then controlPdu s a else [0#32, 0#32, 0#32]
  [nat32 a.val 0 ||| at32 (s.slice a).outmode 8 ||| bitAt (spEnabled s a) 10, spLimit s a] ++ words64 v.pos ++ words64 v.vel ++
    [v.torq, 0#32] ++ safe ++ [0#32]

/-- An axis's record has been formed: its values are the last sent, and SEQ of its control PDU goes on (R299, R323). -/
def State.spSent (s : State) (a : Fin 80) : State :=
  let v := spValues s a
  let s1 := { s with dr := upd s.dr a fun d => { d with sent := v } }
  if (s.sl.ax[a]).ctrlEn then s1.pduSent a else s1

/-- The device sends set-point frames: not in SYNCING, nor after it has stopped sending (R362, R380). -/
def sendsDrive (s : State) : Bool := decide (s.pr.role ≠ .syncing) && !s.pr.mute

/-- Words 0 and 1 and the TREF words of the frame of group `g` with `n` records for pick `k`, whose TREF is the network time `net`
(R321, R323). -/
def spHead (g : Fin 10) (n : Nat) (valid : Bool) (k : BitVec 32) (net : Int) : List (BitVec 32) × List (BitVec 32) :=
  ([1#32 ||| nat32 g.val 8 ||| nat32 n 12 ||| bitAt valid 16, k],
    if valid then [int32 (net % 1000000000), int32 (net / 1000000000)] else [0#32, 0#32])

/-- The set-point frame of group `g` for pick `k` is formed and queued with its launch time (ns) (R316, R317, R321 to R324). -/
def State.spGroup (s : State) (k : BitVec 32) (launch : Nat) (g : Fin 10) : State :=
  let x := s.sw.grp[g]
  let axes := groupAxes s g
  if !x.en || axes.isEmpty then s
  else
    let h := spHead g axes.length s.nt.valid k (s.netTime launch)
    let recs := axes.flatMap (spRecord s)
    let fr := mkFrame x.mac s.sw.mac x.vid x.pcp s.sw.etype.toNat (wordsBytes (h.1 ++ h.2 ++ recs))
    let s1 := s.forEach axes State.spSent
    let s2 := s1.modPr fun p => { p with groups := p.groups ++ h.1 ++ recs }
    if sendsDrive s then
      s2.forEach ((fins 8).filter fun p => decide (p.val < 4) && bit x.ports p.val) fun s p =>
        s.enqueue p 7 { bytes := fr, src := 6, inTs := s.now, launch := some launch, pick := some k }
    else s2

/-! ### Digest (R370) -/

/-- The stepper links in use, in ascending order. -/
def linksInUse (s : State) : List (Fin 16) := (fins 16).filter fun n => (s.stl[n]).en

/-- The digest of pick `k`, from the groups sent, the stepper links in use and the DIGEST nodes released (R370). -/
def pickDigest (s : State) (k : BitVec 32) : BitVec 32 :=
  crc32c (wordsBytes ([k] ++ s.pr.groups ++
    ((linksInUse s).flatMap fun n => words64 (int64 (s.slice (s.stl[n]).theAxis).held.xr)) ++ s.pr.digest))

/-! ### Release (R22) -/

/-- The stepper links take the xr released at this instant (R177). -/
def State.stlRelease (s : State) : State :=
  { s with stl := s.stl.map fun l => { l with xPrev := l.xCur, xCur := (s.slice l.theAxis).held.xr, frame := 0 } }

/-- Before the first pick the links have nothing to send, and start from the present xr. -/
def State.stlFirst (s : State) : State :=
  { s with stl := s.stl.map fun l =>
      { l with xPrev := (s.slice l.theAxis).held.xr, xCur := (s.slice l.theAxis).held.xr, frame := 16 } }

/-- The outputs of pick `k` are released at `t` ns: set-point frames, stepper links and digest; a pick that was unadopted has no digest
to compare (R22, R317, R322, R324, R370, R371). -/
def State.release (s : State) (k : BitVec 32) (t : Nat) : State :=
  let s1 := if swRuns s && s.sw.dtEn then s.forEach (fins 10) fun s g => s.spGroup k (t + s.sw.offsetNow.toNat) g else s
  let d := pickDigest s1 k
  s1.stlRelease.modPr fun p => { p with
    digestOwn := if follows s && decide (0 < s.pr.misses) then none else some d, digest := [], groups := [] }

end Sys2Proof.Machine
end

