-- ==== Sys2Proof/Machine/PickBase.lean ====
section
/-! DEFINITION. The start of a pick: latches, numbers, a change of period, and the gate cycles that begin (R40 to R45, R107, R122, R306,
R313, R326). -/
namespace Sys2Proof.Machine

/-- The axis engine runs: PD9 in RUN (R418). -/
def axisRuns (s : State) : Bool := decide (s.domain 9 = .run)

/-- A channel at the pick instant `t` ns: an accepted configuration takes effect, then the latch (R107, R122). -/
def FbCh.atPick (h : FbCh) (t : Nat) : FbCh :=
  let g := h.applyConfig t
  { g with latch := g.latched t, adopt := none }

/-- Every feedback channel and every drive feedback frame is latched at `t` ns; accepted channel configurations take effect first (R44,
R107, R122, R306, R326). -/
def State.latchAll (s : State) (t : Nat) : State :=
  let s1 := if axisRuns s then
      { s with fb.ch := s.fb.ch.map fun h => h.atPick t }
    else s
  ({ s1 with dr := s1.dr.map fun (d : Drive) => { d with latched := d.next, next := none } }).latchSafe

/-- The pick becomes current: pick number, beat number, phase and instant (R40, R41, R42). -/
def TimeBase.advance (t : TimeBase) : TimeBase :=
  let edge := t.first || decide (t.activeN.toNat ≤ t.phase.toNat + 1)
  { t with
    first := false, j := t.j + 1, pickTime := BitVec.ofNat 64 (t.timeFix / nsUnit)
    pickNum := if t.first then t.firstPick else t.pickNum + 1#32
    phase := if edge then 0#6 else t.phase + 1#6
    beatNum := if t.first then t.firstBeat else if edge then t.beatNum + 1#32 else t.beatNum }

/-- At a boundary after the tick of APPLY the staged period and beat length take effect, and the grid starts anew there (R45). -/
def TimeBase.takePending (t : TimeBase) : TimeBase :=
  match t.pending with
  | some (p, n) =>
    if t.phase = 0#6 && decide (t.applyTick < t.timeFix) then
      { t with activePeriod := p, activeN := n, pending := none, gridOrigin := t.timeFix, j := 1 }
    else t
  | none => t

/-- The numbers of the pick, with what follows from a change of the period: SUB of the stepper links and SIG_eff (R45, R178, R192). -/
def State.newPick (s : State) : State :=
  let s1 := s.modTb fun t => t.advance.takePending
  if s.tb.pending.isSome && s1.tb.pending.isNone then (s1.forEach (fins 16) fun s n => s.stlFit n).qpSig else s1

/-- The cell time at which the next pick starts (R39). -/
def State.toPick (s : State) : State := s.reachFix (s.tickAt (s.tb.nominal s.tb.j))

/-- What happens at a pick instant before the computation of the pick (R22, R43, R44, R313, R342, R381). -/
def State.startPick (s : State) : State :=
  let s0 := s.toPick
  let t := s0.now
  let s1 := (s0.modNt fun n => { n with valid := ntValid s0 }).modSw fun w => { w with offsetNow := w.offset }
  let s2 := if s1.tb.first then s1.stlFirst else s1.release s1.tb.pickNum t
  let s3 := (s2.latchAll t).newPick
  let s4 := if swRuns s3 then s3.forEach (fins 6) fun s p => s.gclPick (extPort p) s.tb.timeFix else s3
  let s5 := s4.handOverAt s4.tb.pickNum
  s5.modPr fun p => { p with safe := p.safe.filter fun r => decide (r.pick = s5.tb.pickNum) }

/-- The present pick is a beat boundary (R42). -/
def atBoundary (s : State) : Bool := decide (s.tb.phase = 0#6)

/-! ### Slices (R131, R132, R135, R137, R139, R146) -/

/-- The values of channel `c` that the pick computes with: those adopted, or the own latch (R122, R369). -/
def FbCh.used (h : FbCh) : FbLatch := h.adopt.getD h.latch

/-- Accepted values take effect, and each slice forms its measurement (R24, R131, R132, R133). -/
def State.measureAll (s : State) : State :=
  let vv := s.pickV
  let sl : Vector Slice 80 := Vector.ofFn fun a =>
    let l := (s.slice a).takeNext
    l.measure vv (s.ch (Fin.ofNat 96 l.ch.toNat)).used (s.dr[a]).latched
  { s with ce.sl := sl }

/-- The pending bank swaps of an axis accepted before `t` (2^-32 ns) take effect: the first completes OK, the others with NO_EFFECT
(R146). -/
def State.swapPick (s : State) (t : Nat) (a : Fin 80) : State :=
  let due : List (Fin 16 × Nat × Nat) := (s.slice a).swapPend.filter fun q => decide (q.2.2 < t)
  match due with
  | [] => s
  | q :: r =>
    let s1 := (s.modSlice a fun l => { l with swapPend := l.swapPend.filter fun q => !decide (q.2.2 < t) }).swapBank a
    (s1.opDone q.1 q.2.1 .ok 0#8 none).forEach r fun s q => s.opDone q.1 q.2.1 .ok flagNoEffect none

/-- A drive in fault puts its axis into FAULT at the pick instant (R326). -/
def State.driveFaults (s : State) : State :=
  s.forEach ((fins 80).filter fun a => (s.dr[a]).latched.elim false fun d => d.fault) State.faultAxis

/-- A closed-loop axis with SRC = 1 counts the picks without a frame; the result says whether it faults (R132). -/
def State.missPick (s : State) (a : Fin 80) : State × Bool :=
  let l := s.slice a
  if !l.src then (s, false)
  else if (s.dr[a]).latched.isSome then (s.modSlice a fun l => { l with missRun := 0 }, false)
  else
    let n := l.missRun + 1
    let s1 := (s.modSlice a fun l => { l with missRun := n }).ceSet a 7
    if l.missMax.toNat ≤ n then (s1.emit 11 0x002#12 [nat32 a.val 0 ||| at32 l.missMax 8], true) else (s1, false)

/-- One slice in pick `k`, and whether its axis enters FAULT when all slices are complete (R132, R135, R137, R139). -/
def State.sliceOne (s : State) (k : BitVec 32) (a : Fin 80) : State × Bool :=
  if !(s.axis a).state.closed then (s.modSlice a fun l => { l with closed := false }, false)
  else
    let m := s.missPick a
    match entryFor m.1 a k with
    | none => (m.1.emit 11 0x003#12 [nat32 a.val 0, k], true)
    | some e =>
      let s1 := m.1
      let mpc := (s1.armOf a).elim false fun r => (s1.armDef r).mpc && !(s1.ce.arm[r]).bypass
      let tl := if stallSearch s1 a then some ((s1.pax a).par 12) else none
      let u := (s1.slice a).update s1.pickV (s1.rampScale a) e (s1.dr[a]).latched.isSome tl
      let s2 := (s1.modSlice a fun _ => { u.1 with usedX := e.x, usedV := e.v, usedMpc := mpc }).ceSetMany a
        (u.2.1 ||| bitAt u.2.2 6)
      if u.2.2 then (s2.emit 11 0x001#12 (nat32 a.val 0 :: words64 (int64 u.1.ep)), true) else (s2, m.2)

/-- The 80 slices of pick `k` in ascending order; the FAULT transitions follow when all are complete (R137, R150). -/
def State.slicesAll (s : State) (k : BitVec 32) : State :=
  let r := (fins 80).foldl (fun (r : State × List (Fin 80)) a =>
    let q := r.1.sliceOne k a
    (q.1, if q.2 then r.2 ++ [a] else r.2)) (s, [])
  (r.1.forEach r.2 State.faultAxis).mpcSweep

/-- The sign of the last non-zero measured speed of every axis (R170). -/
def State.signsAll (s : State) : State :=
  let sign := fun (a : Fin 80) => if (s.slice a).vm = 0 then (s.pax a).msDir else sgn (s.slice a).vm
  { s with pg.ax := Vector.ofFn fun a => { s.pax a with msDir := sign a } }

/-! ### The input record (R368) -/

/-- The words of a channel in the record. -/
def recChannel (h : FbCh) : List (BitVec 32) :=
  let l := h.latch
  words64 (int64 l.x) ++ words64 (int64 l.v) ++ words64 (BitVec.ofNat 64 l.e) ++
    [bitAt l.valid 0 ||| bitAt l.standstill 1 ||| bitAt l.dir 2 ||| bitAt (decide (h.mode = .recovery)) 3, 0#32]

/-- The words of an axis's drive feedback in the record. -/
def recDrive (d : Drive) : List (BitVec 32) :=
  let f := d.latched.getD {}
  words64 f.pos ++ words64 f.vel ++
    [f.torq, bitAt d.latched.isSome 0 ||| bitAt f.enabled 1 ||| bitAt f.fault 2, 0#32, 0#32]

/-- The input record of the present pick; `pub` is the INDEX of the solution published at it (R368). -/
def inputRecord (s : State) (pub : Option (BitVec 32)) : List (BitVec 32) :=
  [s.tb.pickNum, s.tb.beatNum, s.tb.phase.setWidth 32, s.pr.digestOwn.getD 0#32, pub.getD 0#32,
    bitAt pub.isSome 0 ||| bitAt s.pr.digestOwn.isSome 1, s.pr.genSent, BitVec.ofNat 32 s.pr.log.length] ++
    (s.fb.ch.toList.flatMap recChannel) ++ (s.dr.toList.flatMap recDrive) ++ s.pr.log.flatten

/-- A device in ACTIVE sends the input record of the pick with TAG = k; the command log starts anew (R368). -/
def State.sendRecord (s : State) (pub : Option (BitVec 32)) : State :=
  let s1 := if decide (s.pr.role = .active) && pairSends s then s.pairSend 1 s.tb.pickNum (inputRecord s pub) else s
  s1.modPr fun p => { p with log := [] }

/-! ### The computation of a pick -/

/-- The axes in pick `k` of beat `b`: scales, stops, measurements, swaps, effects, entries, loops and homing (R24, R25, R44, R64, R66,
R131 to R175). -/
def State.axesPick (s : State) (k b : BitVec 32) (edge : Bool) (t : Nat) : State :=
  if axisRuns s then
    let s1 := s.scaleUpdate.psiPick
    let s2 := (if edge then s1.psiBeat b else s1).svMotion.measureAll
    let s3 := (s2.forEach (fins 80) fun s a => s.swapPick s.tb.timeFix a).driveFaults
    let s4 := (s3.applyEffects k b edge).formEntries k t
    let s5 := (s4.forEach (fins 8) fun s r => s.armBypass r k).slicesAll k
    (s5.forEach (fins 80) fun s a => s.homePick a t).signsAll
  else s

/-- Churn at a boundary of beat `b`; a device that follows publishes the solution that the input record names (R44, R196, R372). -/
def State.churnPick (s : State) (b : BitVec 32) (named : Option (BitVec 32)) : State :=
  if qpOn s then
    (match (if follows s then named else none) with
     | some i => s.publishNamed i
     | none => s).qpBoundary b
  else s

/-- What is computed in a pick from its latches; `named` is the INDEX that an adopted record names (R44, R368, R400). Cell time stands at
the pick instant meanwhile. -/
def State.pickWork (s : State) (named : Option (BitVec 32)) : State :=
  let now := s.tb.timeFix
  let t := s.tb.pickTime.toNat
  let k := s.tb.pickNum
  let b := s.tb.beatNum
  let edge := atBoundary s
  let s0 := s.modTb fun x => { x with timeFix := t * nsUnit }
  let s1 := if edge then s0.churnPick b named else s0
  let pub := if s1.qp.curBuf = s0.qp.curBuf then none else some s1.qp.curIndex
  let s2 := (s1.sendRecord pub).axesPick k b edge t
  let s3 := if decide (s2.domain 4 = .run) then s2.releaseDrafts k b edge t else s2
  let s4 := s3.reedSnapshot k
  (if edge then s4.trajSend else s4).modTb fun x => { x with timeFix := now }

end Sys2Proof.Machine
end

