-- ==== Sys2Proof/Machine/Recorder.lean ====
section
/-! DEFINITION. The event recorder: admission, the ring and its window, the read cursor and the safety log window
(19_event_recorder.md). -/
namespace Sys2Proof.Machine

/-- The record at index `p` lies at or after the host read cursor (R406, R409). -/
def Recorder.afterCur (e : Recorder) (p : Nat) : Bool :=
  decide ((p + Config.ringWords - e.cur) % Config.ringWords < e.unread)

/-- The oldest record is discarded; the cursor moves to the new TAIL when the record lay at or after it (R409). -/
def Recorder.discard (e : Recorder) (m : List Host.Cell) : Recorder × Bool :=
  let l := (field (ringWord m Config.ringBase Config.ringWords e.ring.tail) 0 8).toNat
  let g := e.ring.dropOldest m Config.ringBase Config.ringWords
  if 0 < e.unread ∧ e.unread = e.ring.used then
    ({ e with ring := g, cur := g.tail, unread := e.unread - l }, true)
  else ({ e with ring := g }, false)

/-- Whole records are discarded at TAIL until `need` words are free; counts the records that the cursor skipped (R409). -/
def Recorder.makeRoom (m : List Host.Cell) (need : Nat) : Nat → Recorder → Nat → Recorder × Nat
  | 0, e, k => (e, k)
  | fuel + 1, e, k =>
    if need ≤ Config.ringWords - e.ring.used then (e, k)
    else
      let d := e.discard m
      Recorder.makeRoom m need fuel d.1 (if d.2 then k + 1 else k)

/-- WMARK is set when the number of unread words reaches ER_WMARK (R417). -/
def State.erMark (s : State) (before : Nat) : State :=
  if before < s.er.wmark.toNat ∧ s.er.wmark.toNat ≤ s.er.unread then s.erSet 3 else s

/-- A record is written at HEAD, after room has been made for it; OVERRUN is recorded when the cursor was moved (R405, R408,
R409). -/
def State.erWrite (s : State) (r : Rec) : State :=
  let mr := s.er.makeRoom s.mem r.len 64 0
  let e := mr.1
  let a := e.ring.append Config.ringBase Config.ringWords s.mem r
  let s1 := { s with er := { e with ring := a.1, unread := e.unread + r.len, cntOvr := satAdd e.cntOvr mr.2 }, mem := a.2 }
  let s2 := if mr.2 = 0 then s1 else (s1.erSet 2).emit 22 0x003#12 [BitVec.ofNat 32 mr.2]
  (s2.erMark e.unread).erSet 0

/-- The EPOCH record that stands before each sequence number that is a multiple of 2^31 (R407). -/
def State.erEpoch (s : State) : State :=
  if s.er.ring.seq.setWidth 31 = 0#31 then
    let e := if s.er.first then s.er.epoch else s.er.epoch + 1#64
    ({ s with er.epoch := e, er.first := false }).erWrite
      { src := 22, code := 0x001#12, payload := [e.setWidth 32, (e >>> 32).setWidth 32] }
  else s

/-- One staged record is admitted: merged into the newest record of its SRC, or written with the next sequence number
(R405, R406). -/
def State.admitRec (s : State) (r : Rec) : State :=
  match getN s.er.ring.newest r.src with
  | some p =>
    if s.er.afterCur p && mergeable s.mem Config.ringBase Config.ringWords p r then
      { s with mem := mergeAt s.mem Config.ringBase Config.ringWords p r }
    else (s.erEpoch).erWrite r
  | none => (s.erEpoch).erWrite r

/-- The staging queue of one source is admitted, oldest first. -/
def State.admitSrc (s : State) (k : Nat) : State :=
  let q := getN s.er.staging k
  ({ s with er.staging := updN s.er.staging k fun _ => [] }).forEach q State.admitRec

/-- The LOSS record that reports the records lost since the last one (R405, R416). -/
def State.erLoss (s : State) : State :=
  match s.er.lostPend with
  | some (n, f) =>
    ({ s with er.lostPend := none }).emit 22 0x002#12 [BitVec.ofNat 32 (min n 0xFFFFFF) ||| nat32 f 24]
  | none => s

/-- RECORD_ADMIT (R405): in ascending SRC, the staged records are admitted while PD12 is in RUN or IDLE (R413). -/
def execRecordAdmit (s : State) : Host.Outcome State Fault Refusal :=
  if (s.domain 12).up then
    .next (((s.forEach (List.range 22) State.admitSrc).erLoss).forEach [22, 23] State.admitSrc)
  else .next s

/-- The first words of the records of the window, from index `i`, `left` words before HEAD; `fuel` bounds the records. -/
def recStarts (m : List Host.Cell) : Nat → Nat → Nat → List Nat
  | 0, _, _ => []
  | fuel + 1, i, left =>
    if left = 0 then []
    else
      let l := max 1 (field (ringWord m Config.ringBase Config.ringWords i) 0 8).toNat
      i :: recStarts m fuel ((i + l) % Config.ringWords) (left - l)

/-- ER_CUR_WRITE (R411): the cursor moves to the first word of a record of the window or to HEAD; any other value is ignored
and sets CFG_REJ. -/
def execErCurWrite (v : BitVec 32) (s : State) : Host.Outcome State Fault Refusal :=
  let i := (field v 0 20).toNat
  if !(s.domain 12).up then .next s
  else if i = s.er.ring.head ∧ (s.er.ring.used = 0 ∨ i ≠ s.er.ring.tail) then
    .next { s with er.cur := i, er.unread := 0 }
  else if i ∈ recStarts s.mem s.er.ring.used s.er.ring.tail s.er.ring.used then
    .next (State.erMark
      { s with er.cur := i, er.unread := s.er.ring.used - (i + Config.ringWords - s.er.ring.tail) % Config.ringWords } s.er.unread)
  else .next (s.erSet 4)

/-- ER_CNT_CLR: ER_CTRL.CNT_CLR clears ER_CNT_LOST and ER_CNT_OVR. -/
def execErCntClr (s : State) : Host.Outcome State Fault Refusal :=
  if (s.domain 12).up then .next { s with er.cntLost := 0#32, er.cntOvr := 0#32 } else .next s

/-- The safety log that ER_SLOG_SEL names. -/
def Recorder.selLog (e : Recorder) : RecRing := if e.selB then e.logB else e.logA

/-- ER_SLOG_SEL_WRITE (R415): the read position goes to the first word of the oldest record of the channel named. -/
def execErSlogSelWrite (v : BitVec 32) (s : State) : Host.Outcome State Fault Refusal :=
  if (s.domain 12).up then
    let e := { s.er with selB := bit v 0, skipped := false }
    .next { s with er := { e with logPos := e.selLog.tail, logUnread := e.selLog.used } }
  else .next s

/-- The next word of the selected safety log, and the state with the read position advanced (R415). -/
def slogNext (s : State) : BitVec 32 × State :=
  if s.er.logUnread = 0 then (0#32, s)
  else
    (ringWord s.mem (if s.er.selB then Config.logBaseB else Config.logBaseA) Config.logWords s.er.logPos,
      { s with er.logPos := (s.er.logPos + 1) % Config.logWords, er.logUnread := s.er.logUnread - 1 })

/-- ER_SLOG_DATA_READ (R415): the next word of the log; 0 after the newest record. -/
def execErSlogDataRead (s : State) : Host.Outcome State Fault Refusal :=
  if (s.domain 12).up then
    let r := slogNext s
    .next { r.2 with rdata := [r.1] }
  else .next { s with rdata := [0#32] }

/-- ER_EPOCH_LO_READ: returns E[31:0] and captures E[63:32]. -/
def execErEpochLoRead (s : State) : Host.Outcome State Fault Refusal :=
  if (s.domain 12).up then
    .next { s with er.capEpochHi := (s.er.epoch >>> 32).setWidth 32, rdata := [s.er.epoch.setWidth 32] }
  else .next { s with rdata := [0#32] }

/-- Whole records copied from the cursor to `dst` while the words copied stay within `max`; returns the words copied
(R410). -/
def recCopy : Nat → State → Nat → Nat → Nat → Nat × State
  | 0, s, _, _, done => (done, s)
  | fuel + 1, s, dst, max, done =>
    let l := Nat.max 1 (field (ringWord s.mem Config.ringBase Config.ringWords s.er.cur) 0 8).toNat
    if s.er.unread = 0 ∨ max < done + l then (done, s)
    else
      let ws := ringGet s.mem Config.ringBase Config.ringWords s.er.cur l
      recCopy fuel
        { s.wrBytes (dst + 4 * done) (wordsBytes ws) with
          er := { s.er with cur := (s.er.cur + l) % Config.ringWords, unread := s.er.unread - l } }
        dst max (done + l)

/-- Records in the window. -/
def State.erCount (s : State) : Nat := (recStarts s.mem s.er.ring.used s.er.ring.tail s.er.ring.used).length

/-- The recorder is cleared: TAIL and CUR go to HEAD and a CLEARED record follows (R412). -/
def State.erClear (s : State) : State :=
  let n := s.erCount
  ({ s with er := { s.er with
      ring := { s.er.ring with tail := s.er.ring.head, used := 0, newest := Vector.replicate 25 none }
      cur := s.er.ring.head
      unread := 0 } }).emit 22 0x004#12 [BitVec.ofNat 32 n]

end Sys2Proof.Machine
end

