-- ==== Sys2Proof/Machine/RecorderOps.lean ====
section
/-! DEFINITION. The recorder's device operations: REC.READ, REC.CLEAR and REC.MARK (R80, R410, R412, R416). -/
namespace Sys2Proof.Machine

/-- REC.READ (R80, R410): whole records are copied from the cursor while they fit in the maximum. -/
def execRecRead (f : Fin 16) (w : TWord) (s : State) : Res :=
  let mx := (field w.imm 0 16).toNat
  .next (s.devOp f 0x40#8 0#4 w [w.rd, w.ra] 0xFFFF#32 none
    (fun s =>
      let d := (s.flow f).reg w.ra
      [xwNot w [0#4], (!sharedOk d 4, .badOperand), (decide (sharedEnd < d.toNat + 4 * mx), .length), (decide (mx < 64), .range)])
    (fun s => [stateGate s [.ready, .run, .safeHold] 12 0#8])
    fun s =>
      let r := recCopy mx s ((s.flow f).reg w.ra).toNat mx 0
      if r.2.er.unread = 0 then r.2.opAccept f w .ok 0#8 (some (BitVec.ofNat 64 r.1))
      else r.2.opAccept f w .okLimited flagTruncated (some (BitVec.ofNat 64 r.1)))

/-- REC.CLEAR (R412): the recorder is cleared. -/
def execRecClear (f : Fin 16) (w : TWord) (s : State) : Res :=
  .next (s.devOp f 0x40#8 1#4 w [] 0#32 none (fun _ => [xwNot w [0#4]])
    (fun s => [stateGate s [.ready, .run, .safeHold] 12 0#8])
    fun s => s.erClear.opAccept f w .ok 0#8 none)

/-- REC.MARK (R416): a record with SRC 4, the code given and the payload T[RA]. -/
def execRecMark (f : Fin 16) (w : TWord) (s : State) : Res :=
  let code := field w.imm 0 12
  .next (s.devOp f 0x40#8 2#4 w [w.ra] 0xFFF#32 none
    (fun _ => [xwNot w [0#4], (decide (code.toNat < 0x800), .range)])
    (fun s => [stateGate s [.ready, .run, .safeHold] 12 0#8])
    fun s =>
      let v := (s.flow f).reg w.ra
      (s.emit 4 code [v.setWidth 32, (v >>> 32).setWidth 32]).opAccept f w .ok 0#8 none)

end Sys2Proof.Machine
end

