-- ==== Sys2Proof/Machine/Power.lean ====
section
/-! DEFINITION. Power domains, device states, clocks, resets and the thermal trip (R418 to R429, R435, R450, R456). -/
namespace Sys2Proof.Machine

/-! ### What a domain loses and keeps (R413, R420) -/

/-- The SRAM that a domain supplies, as byte ranges (R13). -/
def domainRanges (d : Fin 13) : List (Nat × Nat) :=
  match d.val with
  | 1 => [(0x3E00000, 0x3F00000)] | 2 => [(0x3F00000, 0x4000000)] | 4 => [(0x2400000, 0x2800000), (0x2C00000, 0x3A00000)]
  | 5 => [(0x2800000, 0x2A00000)] | 6 => [(0x2A00000, 0x2C00000)] | 7 => [(0x1400000, 0x2400000)] | 8 => [(0, 0x1400000)]
  | 12 => [(0x3A00000, 0x3E00000)] | _ => []

/-- The Reed block after its domain was OFF: the LK registers and the cycle number stand in PD0 (R420). -/
def Reed.lose (r : Reed) : Reed :=
  { cz := r.cz, cy := r.cy, cx := r.cx, tolf := r.tolf, maskInfl := r.maskInfl, edge := r.edge, org := r.org, gridId := r.gridId
    cycle := r.cycle, sens := r.sens.map fun x => { period := x.period, en := x.en } }

/-- The recorder after its domain was OFF: the ring is empty; sequence number and E stand in PD0, the staging queues with their
sources, the safety logs in their channels (R413, R414). -/
def Recorder.lose (e : Recorder) : Recorder :=
  { ring := { seq := e.ring.seq }, epoch := e.epoch, first := e.first, staging := e.staging, lostPend := e.lostPend
    logA := e.logA, logB := e.logB }

/-- The monitor after its domain was OFF: the account of wear goes on in the always-on domain, the rest is lost (R420, R434). -/
def Health.lose (h : Health) : Health :=
  { acc := h.acc, cnt := h.cnt, hours := h.hours, rate := h.rate, frac := h.frac, eol := h.eol, eolItem := h.eolItem
    restored := h.restored, secMax := h.secMax }

/-- The host interface after its domain was OFF: pin levels stay. -/
def HostIf.lose (h : HostIf) : HostIf := { perstHigh := h.perstHigh }

/-- What a domain without supply has lost: the registers hold their reset values, the partition zeros (R420). The axis states and the
arm definitions stand in the Shared data partition (R13), so they do not go with PD9. -/
def State.domainLose (s : State) (d : Fin 13) : State :=
  let s1 := { s with mem := (domainRanges d).foldl (fun m r => memZero m r.1 r.2) s.mem }
  match d.val with
  | 1 => { s1 with sv := {}, sio := {}, sl := {} }
  | 3 => { s1 with tr := {}, hi := s.hi.lose }
  | 4 => { s1 with lm := {}, hw := s.hw.lose }
  | 7 => { s1 with qp := {} }
  | 8 => { s1 with rd := s.rd.lose }
  | 9 => { s1 with fb := {}, ce := {}, pg := {}, stl := Vector.replicate 16 default }
  | 10 => { s1 with sw := {}, nt := {}, dr := Vector.replicate 80 default }
  | 11 => { s1 with can := {}, pr := { alvIn := s.pr.alvIn }, wr := { relay := s.wr.relay } }
  | 12 => { s1 with er := s.er.lose }
  | _ => s1

/-! ### Clocks (R426, R427) -/

/-- Any of some domains is in IDLE or RUN. -/
def anyUp (s : State) (l : List (Fin 13)) : Bool := l.any fun d => (s.domain d).up

/-- The PLL that bit `l` of CR_PLL_STATUS shows is required (R426). -/
def pllNeeded (s : State) (l : Nat) : Bool :=
  match l with
  | 0 => anyUp s [3, 4, 5, 6, 8, 9, 12]
  | 1 => anyUp s [7]
  | 2 => s.pw.state.live
  | 3 => decide (s.domain 1 = .run)
  | _ =>
    if l < 8 then s.hi.perstHigh && decide (s.domain 3 = .run)
    else if h : l < 14 then s.pw.state.live && decide (s.domain 10 = .run) && decide ((s.sw.port[l - 8]'(by omega)).mode ≠ 0#3)
    else if l < 16 then s.pr.en && decide (s.domain 11 = .run)
    else s.wr.insert && decide (s.domain 11 = .run)

/-- Every PLL that has come to be required is locked, and every other is off: `before` is the state before the change (R426). -/
def State.pllFollow (s before : State) : State :=
  { s with cr.pll := (List.range 18).foldl (fun w l =>
      if pllNeeded s l then (if pllNeeded before l then w else setBit w l) else clearBit w l) s.cr.pll }

/-- WR_INSERT_WRITE (R391, R426): the relay and the PLLs of the ring lanes follow WR_CTRL.INSERT. -/
def execWrInsertWrite (v : BitVec 32) (s : State) : Res :=
  if (s.domain 11).up then .next ((s.modWr fun r => { r with insert := bit v 0 }).ringRelay.pllFollow s) else .next s

/-- Domain of the cluster that bit `c` of CR_CLK_RUN shows (R427). -/
def clusterDomain (c : Nat) : Fin 13 := if c < 8 then 5 else if c < 16 then 6 else if c < 24 then 7 else if c < 26 then 8 else 3

/-- Only clusters of domains in IDLE or RUN may be clocked. -/
def State.clkFollow (s : State) : State :=
  { s with cr.clk := (List.range 30).foldl (fun w c => if (s.domain (clusterDomain c)).up then w else clearBit w c) s.cr.clk }

/-- The cluster has no work (R427). -/
def clusterIdle (s : State) (c : Fin 30) : Bool :=
  if h : c.val < 16 then !((s.lm.shuttle[c.val]).elim false fun q => q.2)
  else if c.val < 24 then (s.qp.insts.all fun i => !i.solving) && s.qp.jobs.all fun j => !j.solving
  else if c.val < 26 then s.rd.fusing.isNone && (if c.val = 24 then s.rd.chA.isEmpty else s.rd.chB.isEmpty)
  else (fins 16).all fun f => decide (f.val % 4 ≠ c.val - 26) || decide ((s.flow f).state ≠ .running)

/-- CLUSTER_CLOCK_STOP (R12, R427): a cluster without work stops its clock. -/
def execClusterClockStop (c : Fin 30) (s : State) : Res :=
  if clusterIdle s c then .next { s with cr.clk := clearBit s.cr.clk c.val } else .next s

/-! ### Domain states (R418 to R422) -/

/-- A domain takes a state. -/
def State.putDomain (s : State) (d : Fin 13) (t : DomState) : State := { s with pw.dom := upd s.pw.dom d fun _ => t }

/-- The PCIe link goes down: PD3 has left RUN, or PERST# is low (R438, R452). -/
def State.pcieDown (s : State) : State :=
  if s.hi.linkUp then
    ({ s with hi := { s.hi with linkUp := false, linkSpeed := 0#3, linkWidth := 0#4 } }).emit 3 0x002#12
      [bitAt s.hi.perstHigh 1 ||| at32 s.hi.linkSpeed 4 ||| at32 s.hi.linkWidth 8]
  else s

/-- A domain reaches a state: a domain that loses or regains its supply holds nothing; clocks, links and the relay follow. -/
def State.domainTo (s : State) (d : Fin 13) (t : DomState) : State :=
  if s.domain d = t then s
  else
    let s0 := if d = 3 && decide (t ≠ .run) then s.pcieDown else s
    let s1 := if t = .off || s.domain d = .off then s0.domainLose d else s0
    (((s1.putDomain d t).pllFollow s).clkFollow).ringRelay

/-- The domains take states one after another. -/
def State.domainsTo (s : State) (l : List (Fin 13 × DomState)) : State := s.forEach l fun s q => s.domainTo q.1 q.2

/-- A draft of the slot has a node whose PLACE allows only Shuttles of domain `d`. -/
def placedOnly (s : State) (k : Fin 8) (d : Fin 13) : Bool :=
  (List.range (s.draft k).nodes.toNat).any fun i =>
    (fins 16).all fun sh => decide (shuttleDomain sh = d) || !(s.desc k i).allows sh

/-- A domain in RUN may leave it (R422). -/
def mayLeave (s : State) (d : Fin 13) : Bool :=
  let bound : List (Fin 8) := (fins 8).filter fun k => decide ((s.draft k).state = .bound)
  let shuttles (other : Fin 13) : Bool := bound.isEmpty || (decide (s.domain other = .run) && !(bound.any fun k => placedOnly s k d))
  match d.val with
  | 3 => decide (s.pw.state ≠ .ready) && decide (s.pw.state ≠ .run)
  | 4 => decide (s.pw.state ≠ .ready) && decide (s.pw.state ≠ .run)
  | 5 => shuttles 6
  | 6 => shuttles 5
  | 7 => planStopped s && s.qp.jobs.isEmpty
  | 8 => !s.rd.run
  | 9 => !s.tb.running
  | 10 => !s.sw.dtEn && !s.sw.fwdEn && !s.nt.en
  | 11 => (s.can.ctl.all fun g => decide (g.modeNow = 0#2)) && !s.wr.insert && !s.pr.en
  | _ => true

/-- PWR.DOMAIN may bring the domain from its present state to `t` (R421, R422). -/
def domainOk (s : State) (d : Fin 13) (t : DomState) : Bool :=
  !(decide (s.domain d = .off) && decide (t = .ret)) && !(decide (s.domain d = .run) && decide (t ≠ .run) && !mayLeave s d) &&
  !(t.up && decide (5 ≤ d.val) && decide (s.domain 4 ≠ .run)) && (s.pw.domTrans[d]).isNone

/-- PWR.DOMAIN (R80, R421, R422). -/
def execPwrDomain (f : Fin 16) (w : TWord) (s : State) : Res :=
  let t := DomState.ofCode (field w.imm 8 2)
  let dom (s : State) : Fin 13 := Fin.ofNat 13 ((s.flow f).obj w).toNat
  .next (s.devOp f 0x41#8 1#4 w [w.ra] 0x37F#32 (some 13)
    (fun s => [xwNot w [0#4], (decide (((s.flow f).obj w).toNat ≤ 2), .badOperand)])
    (fun s => [stateGate s [.ready, .run] 0 0#8,
      (decide (s.domain (dom s) ≠ t) && !domainOk s (dom s) t, .state, (s.domain (dom s)).code.setWidth 8)])
    fun s =>
      let d := dom s
      if s.domain d = t then s.opAccept f w .ok flagNoEffect none
      else
        let r : DomTrans := { target := t, flow := f, op := s.opId f }
        let s1 := s.opIssue f w false
        { s1 with pw.domTrans := upd s1.pw.domTrans d fun _ => some r })

/-- DOMAIN_TRANSITION_DONE (R420, R421): the domain has reached its target, and PWR.DOMAIN completes. -/
def execDomainTransitionDone (d : Fin 13) (s : State) : Res :=
  match s.pw.domTrans[d] with
  | none => .next s
  | some r =>
    let was := s.domain d
    let s1 := ({ s with pw.domTrans := upd s.pw.domTrans d fun _ => none }).domainTo d r.target
    .next ((s1.emit 1 0x002#12 [nat32 d.val 0 ||| at32 r.target.code 4 ||| at32 was.code 8]).opDone r.flow r.op .ok 0#8 none)

/-! ### Device states (R423) -/

/-- On every entry to READY the axes that are not in FAULT are DISABLED (R32); the ring forgets what it lost (R395). -/
def State.enterReady (s : State) (cause : Nat) : State :=
  let s1 := s.forEach (fins 80) fun s a => if (s.axis a).state = .fault then s else s.setAxis a .disabled
  let s2 := (s1.modWr fun r => { r with lost := false }).setDevState .ready cause
  ((s2.mpcSweep).ossdUpdate).pllFollow s

/-- What a device-state transition by PWR.SET requires (R423). `f` is the flow of the PWR.SET. -/
def quiet (s : State) (f : Fin 16) : Bool :=
  !s.tb.running && ((fins 16).all fun g => (s.flow g).ops.isEmpty) &&
  (fins 16).all fun g => decide (g = f) || (decide ((s.flow g).state ≠ .running) && decide ((s.flow g).state ≠ .waiting))

/-- The state of a domain in SLEEP: RET or OFF by AON_SLEEP_MAP; what is OFF stays OFF (R421, R423). -/
def sleepState (s : State) (d : Fin 13) : DomState :=
  if s.domain d = .off then .off else if bit s.pw.sleepMap (d.val - 3) then .ret else .off

/-- The domains PD3 to PD12. -/
def mainDomains : List (Fin 13) := (fins 13).filter fun d => decide (3 ≤ d.val)

/-- Every domain that leaves RUN on entry to SLEEP may do so; PD5 and PD6 leave it together (R422). -/
def sleepOk (s : State) : Bool :=
  (mainDomains.all fun d => decide (d.val < 5) || decide (s.domain d ≠ .run) || mayLeave s d) &&
  ((decide (s.domain 5 ≠ .run) && decide (s.domain 6 ≠ .run)) || (fins 8).all fun k => decide ((s.draft k).state ≠ .bound))

/-- The transition that a PWR.SET names is allowed (R423). -/
def setOk (s : State) (f : Fin 16) (t : DevState) : Bool :=
  s.pw.trans.isNone &&
  match s.pw.state, t with
  | .ready, .run => s.tb.running && decide (s.domain 3 = .run) && decide (s.domain 4 = .run) && decide (s.domain 9 = .run)
  | .run, .ready => true
  | .ready, .sleep => quiet s f && sleepOk s
  | .ready, .standby => quiet s f
  | _, _ => false

/-- The device state that a PWR.SET target names (R80). -/
def setTarget (v : BitVec 3) : DevState :=
  if v = 1#3 then .standby else if v = 2#3 then .sleep else if v = 3#3 then .ready else .run

/-- PWR.SET (R80, R81, R423): READY and RUN are entered at once; for STANDBY and SLEEP the completion entry is posted first. -/
def execPwrSet (f : Fin 16) (w : TWord) (s : State) : Res :=
  let v := field w.imm 0 3
  let t := setTarget v
  .next (s.devOp f 0x41#8 0#4 w [] 7#32 none
    (fun _ => [xwNot w [0#4], (decide (v = 0#3) || decide (5 ≤ v.toNat), .range)])
    (fun s => [stateGate s [.ready, .run] 0 0#8, leaseGate s, (decide (s.pw.state ≠ t) && !setOk s f t, .state, 0#8)])
    fun s =>
      if s.pw.state = t then s.opAccept f w .ok flagNoEffect none
      else
        let s1 := s.opAccept f w .ok 0#8 none
        match t with
        | .run => (s1.setDevState .run 0).ossdUpdate
        | .ready => (s1.enterReady 0).unbindDrafts
        | _ =>
          let r : DevTrans := { target := t, op := some (f, s.opId f) }
          { s1 with pw.trans := some r })

/-! ### Wake (R424, R425) -/

/-- PD1 and PD2 leave retention; every channel that is not held in FAULT or SAFE_HOLD enters SELFTEST (R247, R419). -/
def State.wakeIsland (s : State) : State :=
  (s.domainsTo [(1, .run), (2, .run)]).modSv fun v => { v with
    ch := v.ch.map fun c => if c.forced then c else { ({} : SvCh) with state := .selftest } }

/-- A boot ends without an image: PD3 and PD4 are OFF, PD1 and PD2 in RET, and the device stays in STANDBY (R448). -/
def State.bootFail (s : State) (reason : BitVec 4) : State :=
  let s1 := s.domainsTo [(3, .off), (4, .off), (1, .ret), (2, .ret)]
  { s1 with pw.trans := none, boot := { s1.boot with reason := reason, done := false, busy := false, waitHost := false, selftest := false } }

/-- The boot controller starts: PD1 to PD4 come to RUN; source 3 fails at once (R447, R448). -/
def State.startBoot (s : State) : State :=
  let s1 := s.domainsTo [(1, .run), (2, .run), (3, .run), (4, .run)]
  let s2 := { s1 with boot := { s1.boot with
    busy := true, waitHost := decide (s1.boot.bootSrc = 2#2), hostGo := false, selftest := false } }
  if s2.boot.bootSrc = 3#2 then s2.bootFail 1#4 else s2

/-- A wake: the transition to READY starts, from STANDBY with a boot (R423, R425). -/
def State.wake (s : State) (src : BitVec 3) : State :=
  let boot := decide (s.pw.state = .standby)
  let r : DevTrans := { target := .ready, cause := 1#2, boot := boot }
  let s1 := ({ s with pw.trans := some r, pw.wakeCause := src, pw.wakePend := 0#3 }).aonSet 1
  if boot then s1.startBoot else s1

/-- A wake source arrives; while BUSY is 1 it is recorded and acts when BUSY clears (R425). -/
def State.wakeSource (s : State) (src : BitVec 3) : State :=
  match s.pw.trans with
  | none => if s.pw.state = .sleep ∨ s.pw.state = .standby then s.wake src else s
  | some r =>
    if r.target = .ready then { s with pw.wakeCause := s.pw.wakeCause ||| src }
    else { s with pw.wakePend := s.pw.wakePend ||| src }

/-- BUSY has cleared: a wake source that arrived meanwhile acts (R425). -/
def State.wakeAgain (s : State) : State :=
  if s.pw.wakePend ≠ 0#3 && s.pw.trans.isNone && (decide (s.pw.state = .sleep) || decide (s.pw.state = .standby)) then
    s.wake s.pw.wakePend
  else s

/-- The device is in a low-power state with supply. -/
def asleep (s : State) : Bool := decide (s.pw.state = .sleep) || decide (s.pw.state = .standby)

/-- WAKE_PIN (R425): a filtered falling edge on WAKE_N. -/
def execWakePin (s : State) : Res := if s.pw.wakeEnPin then .next (s.wakeSource 1#3) else .next s

/-- WAKE_TIMER (R425): cell time reaches AON_WAKE_TIME. -/
def execWakeTimer (s : State) : Res :=
  if s.pw.wakeEnTimer && decide (s.pw.state ≠ .off) && decide (s.now ≤ s.pw.wakeTime.toNat) then
    .next ((s.reach s.pw.wakeTime.toNat).wakeSource 2#3)
  else .next s

/-- A write of AON_PWR_CMD (R424): it acts only in SLEEP and STANDBY, with no transition in progress. -/
def State.pwrCmd (s : State) (path : Path) (v : BitVec 32) : State :=
  let t := field v 0 3
  if !asleep s || s.pw.trans.isSome || decide (path ≠ .spi) then s.aonSet 4
  else if t = 3#3 then s.wakeSource 4#3
  else if t = 1#3 && decide (s.pw.state = .sleep) then
    { s with pw.trans := some { target := .standby } }
  else s.aonSet 4

/-- AON_PWR_CMD_WRITE (R424). -/
def execAonPwrCmdWrite (path : Path) (v : BitVec 32) (s : State) : Res :=
  if s.pw.state = .off then .next s else .next (s.pwrCmd path v)

/-- The completion entry of the PWR.SET has been written (R423). -/
def entryWritten (s : State) (r : DevTrans) : Bool := r.op.elim true fun q => (s.flow q.1).posts.isEmpty

/-- The device enters SLEEP: the states of the domains are kept for the wake (R423). -/
def State.enterSleep (s : State) (cause : Nat) : State :=
  let before := s.pw.dom
  let l : List (Fin 13 × DomState) := mainDomains.map fun d => (d, sleepState s d)
  let s1 := ({ s with pw.domBefore := before }).domainsTo l
  let s2 := s1.domainsTo [(1, .ret), (2, .ret)]
  ((s2.setDevState .sleep cause).stopPicks).pllFollow s2

/-- The device enters STANDBY: PD3 to PD12 to OFF, PD1 and PD2 to RET (R419, R423). -/
def State.enterStandby (s : State) (cause : Nat) : State :=
  let l : List (Fin 13 × DomState) := mainDomains.map fun d => (d, .off)
  let s1 := (s.domainsTo l).domainsTo [(1, .ret), (2, .ret)]
  let s2 := (s1.setDevState .standby cause).stopPicks
  ({ s2 with pend := [] }).pllFollow s1

/-- The device wakes from SLEEP: every domain returns to its state before, and Selvedge runs SELFTEST (R247, R423). -/
def State.leaveSleep (s : State) : State :=
  let l : List (Fin 13 × DomState) := mainDomains.map fun d => (d, s.pw.domBefore[d])
  ((s.domainsTo l).wakeIsland).enterReady 1

/-- DEVICE_TRANSITION_DONE (R423): every domain has reached its new state. A boot ends with SELFTEST instead (R448). -/
def execDeviceTransitionDone (s : State) : Res :=
  match s.pw.trans with
  | none => .next s
  | some r =>
    if r.boot || !entryWritten s r then .next s
    else
      let s1 := { s with pw.trans := none }
      let s2 := match r.target with
        | .sleep => s1.enterSleep r.cause.toNat
        | .standby => s1.enterStandby r.cause.toNat
        | _ => s1.leaveSleep
      .next (svWatch s s2.wakeAgain)

/-! ### Resets (R429, R450, R456) -/

/-- The machine after a device reset: every register as at reset; what is fused, strapped or survives a reset stays: AON_RESET_CAUSE,
OTP, the straps, the level of SUPPLY_EN, the pins, and the safety logs, which PD1 and PD2 retain (R414, R450). -/
def State.deviceReset (s : State) (cause : Fin 4) : State :=
  let z : State := State.reset
  { z with
    er := { z.er with logA := s.er.logA, logB := s.er.logB }
    mem := memZero s.mem 0 0x3E00000
    boot := { z.boot with
      keyHash := s.boot.keyHash, minSvn := s.boot.minSvn, variantEB := s.boot.variantEB, bootSrc := s.boot.bootSrc
      cascPos := s.boot.cascPos, resetCause := setBit s.boot.resetCause cause.val }
    pw := { z.pw with supplyEn := s.pw.supplyEn }
    hi := { z.hi with perstHigh := s.hi.perstHigh }
    pr := { z.pr with alvIn := s.pr.alvIn }
    out := (if s.wr.relay then [.insert false] else []) ++ s.out
    rdata := s.rdata, fresh := s.fresh, pending := s.pending }

/-- The device has no supply: OFF, with nothing kept but what is fused (R30, R429). -/
def State.powerOff (s : State) : State :=
  let z : State := State.reset
  { z with
    boot := { z.boot with keyHash := s.boot.keyHash, minSvn := s.boot.minSvn, variantEB := s.boot.variantEB, resetCause := 0#4 }
    pw := { z.pw with state := .off, dom := Vector.replicate 13 .off, supplyEn := false }
    sv := { z.sv with ch := Vector.replicate 2 { ({} : SvCh) with state := .off } }
    hi := { z.hi with perstHigh := s.hi.perstHigh }
    pr := { z.pr with alvIn := s.pr.alvIn }
    out := (if s.pw.supplyEn then [.supplyOff] else []) ++ (if s.wr.relay then [.insert false] else []) ++ s.out
    rdata := s.rdata, fresh := s.fresh, pending := s.pending }

/-- A write of AON_RESET (R450). -/
def State.hostReset (s : State) (key : BitVec 32) : State := if key = 0x5EB00001#32 then s.deviceReset 3 else s

/-- HOST_RESET (R450): the key resets the device. -/
def execHostReset (key : BitVec 32) (s : State) : Res := if s.pw.state = .off then .next s else .next (s.hostReset key)

/-- RESET_N_PIN (R450): the pin has been low for 1 µs. -/
def execResetNPin (s : State) : Res := if s.pw.state = .off then .next s else .next (s.deviceReset 1)

/-- POWER_ON_RESET (R450, R456): a supply has fallen below its threshold. -/
def execPowerOnReset (s : State) : Res :=
  let z := s.powerOff
  .next { z with pw.por := true }

/-- POR_RELEASE (R423, R450, R456, R459): power-on reset is released with the straps read, and the device is in STANDBY. -/
def execPorRelease (bootSrc : BitVec 2) (cascPos : BitVec 3) (s : State) : Res :=
  if s.pw.por then
    let z : State := State.reset
    .next { z with
      boot := { z.boot with
        keyHash := s.boot.keyHash, minSvn := s.boot.minSvn, variantEB := s.boot.variantEB, bootSrc := bootSrc, cascPos := cascPos }
      hi := { z.hi with perstHigh := s.hi.perstHigh }
      pr := { z.pr with alvIn := s.pr.alvIn }
      out := s.out, rdata := s.rdata, fresh := s.fresh, pending := s.pending }
  else .next s

/-- PLL_LOCK_LOSS (R426, R450, R458): the PLL of bit `l` of CR_PLL_STATUS loses lock. A required core PLL resets the device; a SerDes
PLL takes its lanes down. -/
def execPllLockLoss (l : Fin 18) (s : State) : Res :=
  if !pllNeeded s l.val then .next s
  else if l.val < 3 then .next (s.deviceReset 2)
  else
    let s1 := { s with cr.pll := clearBit s.cr.pll l.val }
    if l.val = 3 then .next s1
    else if l.val < 8 then .next s1.pcieDown
    else if l.val < 14 then .next (s1.linkChange (Fin.ofNat 6 (l.val - 8)) false)
    else if l.val = 14 then .next (s1.laneChange false s1.pr.lane[1])
    else if l.val = 15 then .next (s1.laneChange s1.pr.lane[0] false)
    else if l.val = 16 then .next (s1.modWr fun r => { r with linkIn := false }).ringRelay
    else .next (s1.modWr fun r => { r with linkOut := false }).ringRelay

/-! ### Temperature (R428, R429) -/

/-- The hottest of eight readings: the reading and the lowest sensor that shows it. -/
def hottest (t : Vector (BitVec 8) 8) : BitVec 8 × Fin 8 :=
  (fins 8).foldl (fun (m : BitVec 8 × Fin 8) i => if m.1.slt t[i] then (t[i], i) else m) (t[0], 0)

/-- The thermal trip acts (R429): SUPPLY_EN falls 10 ms later, or in the next tick when the device was in SLEEP or STANDBY. -/
def State.trip (s : State) (w : BitVec 32) : State :=
  let delay := if asleep s then 8 else 10000000
  let s1 := (s.aonSet 3).emit 1 0x004#12 [w]
  let s2 := { s1 with pw.tripped := some (s1.now + delay) }
  svWatch s (s2.enterSafeHold 3)

/-- TEMPERATURE_SAMPLE (R428, R429): the eight sensors are sampled, in whole °C rounded up. -/
def execTemperatureSample (t : Vector (BitVec 8) 8) (s : State) : Res :=
  if s.pw.state = .off then .next s
  else
    let h := hottest t
    let tj := h.1
    let w := at32 tj 0 ||| nat32 h.2.val 8
    let hot := decide (125 < tj.toInt)
    let s1 := { s with
      hw := { s.hw with temp := t, secMax := if s.hw.secMax.slt tj then tj else s.hw.secMax }
      pw := { s.pw with
        tj := tj, hot := BitVec.ofNat 3 h.2.val, peak := if !s.pw.sampled || s.pw.peak.slt tj then tj else s.pw.peak, sampled := true
        warned := s.pw.warned && decide (s.pw.twarn.toInt - 5 < tj.toInt), over125 := hot } }
    let s2 :=
      if !s1.pw.warned && decide (s1.pw.twarn.toInt ≤ tj.toInt) then
        (({ s1 with pw.warned := true }).aonSet 2).emit 1 0x003#12 [w]
      else s1
    .next (if hot && s.pw.over125 && s.pw.tripped.isNone then s2.trip w else s2)

/-- SUPPLY_EN_DROP (R429): SUPPLY_EN falls and the device is OFF. -/
def execSupplyEnDrop (s : State) : Res := if s.pw.tripped.isSome then .next s.powerOff else .next s

end Sys2Proof.Machine
end

