-- ==== Sys2Proof/Machine/HostRings.lean ====
section
/-! DEFINITION. The rings of the host interface, port 7, the PCIe link and the accesses that meet an unavailable block (R14, R437 to
R444, R452). -/
namespace Sys2Proof.Machine

/-- The host interface changed. -/
def State.modHi (s : State) (g : HostIf → HostIf) : State := { s with hi := g s.hi }
/-- Bit `i` of HI_STICKY is set. -/
def State.hiSet (s : State) (i : Nat) : State := s.modHi fun h => { h with sticky := setBit h.sticky i }
/-- The registers of the host interface can be reached. -/
def hiUp (s : State) : Bool := (s.domain 3).up

/-- Ring `k`: 0 to 15 submission rings, 16 to 31 completion queues, 32 transmit and 33 receive frame ring. -/
def hostRing (s : State) (k : Fin 34) : HostRing :=
  if h : k.val < 16 then s.hi.sub[k.val] else if h : k.val < 32 then s.hi.comp[k.val - 16]'(by omega)
  else if k.val = 32 then s.hi.tx else s.hi.rx

/-- Ring `k` changed. -/
def State.modRing (s : State) (k : Fin 34) (g : HostRing → HostRing) : State :=
  s.modHi fun h =>
    if k.val < 16 then { h with sub := updN h.sub k.val g } else if k.val < 32 then { h with comp := updN h.comp (k.val - 16) g }
    else if k.val = 32 then { h with tx := g h.tx } else { h with rx := g h.rx }

/-- The index of a tail or head write, when it lies below D (R440). -/
def ringIndex (r : HostRing) (v : BitVec 32) : Option (BitVec 12) :=
  let i := field v 0 12
  if i.toNat < r.size then some i else none

/-- A write of the index that host firmware owns: the tail, or with `head` the head, which re-arms the vector (R440, R441). -/
def State.setIndex (s : State) (k : Fin 34) (head : Bool) (v : BitVec 32) : State :=
  match ringIndex (hostRing s k) v with
  | none => s.hiSet 3
  | some i => s.modRing k fun r => if head then { r with head := i, irqSent := false } else { r with tail := i }

/-- SUBMISSION_TAIL_WRITE (R440). -/
def execSubmissionTailWrite (f : Fin 16) (v : BitVec 32) (s : State) : Res :=
  if hiUp s then .next (s.setIndex (Fin.ofNat 34 f.val) false v) else .next s

/-- COMPLETION_HEAD_WRITE (R441). -/
def execCompletionHeadWrite (f : Fin 16) (v : BitVec 32) (s : State) : Res :=
  if hiUp s then .next (s.setIndex (Fin.ofNat 34 (16 + f.val)) true v) else .next s

/-- A write of HI_CFG (R440, R442). -/
def State.setRingCfg (s : State) (k : Fin 34) (v : BitVec 32) : State :=
  let r := hostRing s k
  let depth := field v 1 4
  if r.en then
    (if bit v 0 then s.hiSet 3
     else
       let s1 := s.modRing k fun r => { r with en := false }
       if depth ≠ r.depth ∨ bit v 5 ≠ r.loc ∨ bit v 6 ≠ r.irqEn then s1.hiSet 3 else s1)
  else if depth = 0#4 ∨ 12 < depth.toNat then s.hiSet 3
  else
    let s1 := s.modRing k fun r => { r with depth := depth, loc := bit v 5, irqEn := bit v 6 }
    if bit v 0 then
      let s2 := s1.modRing k fun r => { r with en := true, head := 0#12, tail := 0#12, phase := true, irqSent := false }
      if k.val = 33 then s2.modHi fun h => { h with rxBufs := [] } else s2
    else s1

/-- HI_CFG_WRITE (R440, R442). -/
def execHiCfgWrite (ring : Fin 34) (v : BitVec 32) (s : State) : Res := if hiUp s then .next (s.setRingCfg ring v) else .next s

/-- A write of HI_BASE_LO, or with `hi` of HI_BASE_HI; refused while the ring is enabled (R442). -/
def State.setRingBase (s : State) (k : Fin 34) (hi : Bool) (v : BitVec 32) : State :=
  if (hostRing s k).en then s.hiSet 3
  else s.modRing k fun r =>
    { r with base := if hi then (v ++ field r.base 0 32 : BitVec 64) else (field r.base 32 32 ++ v : BitVec 64) }

/-! ### Port 7 (R443) -/

/-- A reserved bit of a transmit descriptor is set. -/
def txReserved (d : Vector (BitVec 32) 8) : Bool :=
  decide (d[1] >>> 8 ≠ 0#32) || decide (d[2] &&& ~~~0xFF0107FF#32 ≠ 0#32) || decide (d[3] ≠ 0#32) || decide (d[6] ≠ 0#32) ||
  decide (d[7] ≠ 0#32)

/-- A descriptor and its frame of which nothing is known: DMA read them, and the command that moved the tail does not say what it read
(R443): free values. -/
def freeTx (n : Nat) : Vector (BitVec 32) 8 × List Byte :=
  (Vector.ofFn fun j => Config.free32 (n + j.val), (List.range 1518).map fun j => (Config.free32 (n + 8 + j)).setWidth 8)

/-- The descriptor at index `i` and its frame: from SRAM, or as DMA delivered them. -/
def txEntry (s : State) (i : Nat) (given : Option (Vector (BitVec 32) 8 × List Byte)) : Vector (BitVec 32) 8 × List Byte :=
  let r := s.hi.tx
  if r.loc then
    let a := r.entryAddr i 32
    let d : Vector (BitVec 32) 8 := Vector.ofFn fun j => s.rd32 (a + 4 * j.val)
    (d, s.rdBytes (d[0].toNat + 4294967296 * (field d[1] 0 8).toNat) (field d[2] 0 11).toNat)
  else given.getD (freeTx s.fresh)

/-- One submitted frame is checked and handed to the switch; its descriptor is written back at once when it is not sent (R316, R443). -/
def State.txOne (s : State) (i : Nat) (q : Vector (BitVec 32) 8 × List Byte) : State :=
  let d := q.1
  let len := (field d[2] 0 11).toNat
  let launch := if bit d[2] 16 then some (d[4].toNat + 4294967296 * d[5].toNat) else none
  if txReserved d || decide (len < 60) || decide (1518 < len) || decide (q.2.length < len) || !swForwards s then s.txDone i true
  else
    let f : TxFrame := { bytes := q.2.take len, src := 7, inTs := s.now, launch := launch, desc := some i }
    let s1 := s.forward 7 f
    if launch.elim false fun t => decide (s.now + 1000000 < t) then s1
    else if descGone s1 i then s1.txDone i false else s1

/-- The submitted descriptors are taken from the head up to the tail; `given` holds what DMA delivered for them. -/
def State.txRun : Nat → List (Vector (BitVec 32) 8 × List Byte) → State → State
  | 0, _, s => s
  | fuel + 1, given, s =>
    let r := s.hi.tx
    if !r.en || r.head = r.tail || !swRuns s then s
    else
      let s1 := s.txOne r.head.toNat (txEntry s r.head.toNat given.head?)
      let s2 := s1.modHi fun h => { h with tx := { h.tx with head := r.next r.head } }
      State.txRun fuel (given.drop 1) (if given.isEmpty && !r.loc then { s2 with fresh := s2.fresh + 1526 } else s2)

/-- TX_RING_TAIL_WRITE (R440, R443): the descriptors up to the new tail are submitted; with LOC = 0 `ds` is what DMA reads for them. -/
def execTxRingTailWrite (v : BitVec 32) (ds : List (Vector (BitVec 32) 8 × List (BitVec 8))) (s : State) : Res :=
  if hiUp s then .next (State.txRun 4096 ds (s.setIndex 32 false v)) else .next s

/-- A write of the tail of the receive ring: buffers up to the new tail are supplied; with LOC = 0 `bufs` is what DMA reads for them, and
a buffer that it does not state is free. -/
def State.supplyRx (s : State) (v : BitVec 32) (bufs : List (BitVec 40)) : State :=
  let r := s.hi.rx
  let s1 := s.setIndex 33 false v
  match ringIndex r v with
  | none => s1
  | some i =>
    if r.loc then s1
    else
      let n := (i.toNat + r.size - r.tail.toNat) % r.size
      let l : List (BitVec 40) := (List.range n).map fun j => bufs.getD j ((Config.free32 (s.fresh + j)).setWidth 40)
      { (s1.modHi fun h => { h with rxBufs := h.rxBufs ++ l }) with fresh := s.fresh + (n - bufs.length) }

/-- RX_RING_TAIL_WRITE (R440, R443). -/
def execRxRingTailWrite (v : BitVec 32) (bufs : List (BitVec 40)) (s : State) : Res :=
  if hiUp s then .next (s.supplyRx v bufs) else .next s

/-! ### Accesses to what is not available (R14, R420) -/

/-- The access paths of an UNAVAIL_ACCESS record (R452). -/
def pathCode : Path → Nat
  | .bar0 => 0 | .bar2 => 1 | .spi => 2 | .treadle => 3

/-- An access that met an unavailable block or partition is counted; the first one since the counter was cleared is recorded (R14,
R452). -/
def State.unavail (s : State) (path : Path) (write : Bool) (addr : BitVec 40) : State :=
  if !hiUp s then s
  else
    let s1 := (s.modHi fun h => { h with unavailCnt := satInc h.unavailCnt, unavailRec := true }).hiSet 1
    if s.hi.unavailRec then s1
    else s1.emit 3 0x001#12 [nat32 (pathCode path) 0 ||| bitAt write 4, addr.setWidth 32]

/-- A write of HI_RX_NOBUF, or of HI_UNAVAIL_CNT, which re-arms the record (R14). -/
def State.hiCounterClear (s : State) (rxNobuf : Bool) : State :=
  s.modHi fun h => if rxNobuf then { h with rxNobuf := 0#32 } else { h with unavailCnt := 0#32, unavailRec := false }

/-- HI_COUNTER_CLEAR (R14). -/
def execHiCounterClear (rxNobuf : Bool) (s : State) : Res := if hiUp s then .next (s.hiCounterClear rxNobuf) else .next s

/-! ### The PCIe link (R438, R452) -/

/-- PERST (R438): the level of PERST#; low resets the endpoint and its MSI-X table, and disables every ring whose LOC is 0. -/
def execPerst (high : Bool) (s : State) : Res :=
  if high then .next ((s.modHi fun h => { h with perstHigh := true }).pllFollow s)
  else
    let off (r : HostRing) : HostRing := if r.loc then r else { r with en := false }
    let s1 := s.modHi fun h => { h with
      perstHigh := false, sub := h.sub.map off, comp := h.comp.map off, tx := off h.tx, rx := off h.rx
      msix := Vector.replicate 64 default, pba := 0#64 }
    .next ((s1.pcieDown).pllFollow s)

/-- PCIE_LINK (R438, R452): the link has trained, or has gone down; it trains only with PERST# high and PD3 in RUN. -/
def execPcieLink (up : Bool) (speed : BitVec 3) (width : BitVec 4) (s : State) : Res :=
  if !up then .next s.pcieDown
  else if s.hi.perstHigh && decide (s.domain 3 = .run) then
    .next ((s.modHi fun h => { h with linkUp := true, linkSpeed := speed, linkWidth := width }).emit 3 0x002#12
      [1#32 ||| bitAt s.hi.perstHigh 1 ||| at32 speed 4 ||| at32 width 8])
  else .next s

end Sys2Proof.Machine
end

