-- ==== Sys2Proof/Machine/Wear.lean ====
section
/-! DEFINITION. The health and wear monitor: the acceleration account, powered hours, the wear image and the scrub (R430 to R435). -/
namespace Sys2Proof.Machine

/-- The request level of the health monitor (R435). -/
def hwLevel (s : State) : Bool := decide (s.hw.sticky &&& s.hw.intEn ≠ 0#5)
/-- Bit `i` of HW_STICKY is set (R435). -/
def State.hwSet (s : State) (i : Nat) : State := irqWatch 30 hwLevel s { s with hw.sticky := setBit s.hw.sticky i }

/-- The greatest number below 2^n whose tenth power does not exceed `x`, bit by bit from `acc`. -/
def root10 (x : Nat) : Nat → Nat → Nat
  | 0, acc => acc
  | n + 1, acc => root10 x n (if (acc + 2 ^ n) ^ 10 ≤ x then acc + 2 ^ n else acc)

/-- AF(T) = round(65,536 × 2^((T − 105) / 10)) (R433): half of the floor of twice the value, plus one. -/
def accel (t : Int) : Nat := if t < -65 then 0 else (root10 (2 ^ (t + 65).toNat) 21 0 + 1) / 2

/-- WEAR_SECOND (R433): each second the account grows by AF of the hottest T_j of that second. -/
def execWearSecond (s : State) : Res :=
  if s.pw.state = .off then .next s
  else .next { s with hw := { s.hw with acc := s.hw.acc + accel s.hw.secMax.toInt, secMax := 0x80#8 } }

/-- Domains of the ageing sensors (R430). -/
def ageingDomain : Vector (Fin 13) 16 := #v[5, 5, 6, 6, 7, 7, 8, 9, 3, 4, 10, 11, 12, 0, 1, 2]

/-- F_i in ppm: the stress of the silicon, or the used cycles of a switching item (R433). -/
def Health.used (h : Health) (i : Fin 10) : Nat :=
  let f :=
    if i = 0 then
      max (h.acc * 1000000 / (65536 * 3600 * 87600)) ((h.drift.toList.foldl (fun m d => max m d.toNat) 0) * 1000000 / 50000)
    else if h.rated[i] = 0#32 then 0 else (h.cnt[i]).toNat * 1000000 / (h.rated[i]).toNat
  min f 4294967295

/-- ρ_i after the hour (R433). -/
def Health.rho (h : Health) (i : Fin 10) : Int :=
  let df : Int := (h.used i : Int) - (h.frac[i] : Int)
  h.rate[i] + (df * 65536 - h.rate[i]).tdiv h.win.toNat

/-- R_i in hours, of a monitor whose F and ρ are updated (R433). -/
def Health.left (h : Health) (i : Fin 10) : Nat :=
  if 1000000 ≤ h.frac[i] then 0
  else if h.rate[i] ≤ 0 ∨ (h.rated[i] = 0#32 ∧ i ≠ 0) then 1000000
  else min 1000000 ((1000000 - h.frac[i]) * 65536 / (h.rate[i]).toNat)

/-- The figures of every item after an hour: F, ρ, EOL and EOL_ITEM (R433). -/
def Health.update (h : Health) : Health :=
  let h1 := { h with rate := Vector.ofFn fun i => h.rho i, frac := Vector.ofFn fun i => h.used i }
  let m := (fins 10).foldl (fun (m : Nat × Nat) i => if h1.left i < m.1 then (h1.left i, i.val) else m) (h1.left 0, 0)
  { h1 with eol := BitVec.ofNat 32 m.1, eolItem := BitVec.ofNat 4 m.2 }

/-- POWERED_HOUR (R430, R433): the ageing sensors of supplied domains are measured and the figures updated; `drift` is what each sensor
shows, in ppm. -/
def execPoweredHour (drift : Vector (BitVec 32) 16) (s : State) : Res :=
  if s.pw.state = .off then .next s
  else
    let d : Vector (BitVec 32) 16 := Vector.ofFn fun j => if (s.domain ageingDomain[j]).up then drift[j] else s.hw.drift[j]
    let h := ({ s.hw with drift := d, hours := s.hw.hours + 1 }).update
    let s1 := { s with hw := h }
    let s2 :=
      if s.hw.eolAlert.toNat ≤ s.hw.eol.toNat ∧ h.eol.toNat < s.hw.eolAlert.toNat then
        (s1.hwSet 1).emit 23 0x002#12 [at32 h.eolItem 0, h.eol]
      else s1
    .next (if (fins 10).any fun i => decide (s.hw.frac[i] < 1000000) && decide (1000000 ≤ h.frac[i]) then s2.hwSet 2 else s2)

/-! ### The wear image (R434) -/

/-- The 24 words of the wear image. -/
def Health.image (h : Health) : List (BitVec 32) :=
  let w : List (BitVec 32) := [1#32, BitVec.ofNat 32 h.acc, BitVec.ofNat 32 (h.acc / 4294967296)] ++
    (List.range 9).map (fun i => getN h.cnt (i + 1)) ++ (fins 10).map (fun i => int32 h.rate[i]) ++ [BitVec.ofNat 32 h.hours]
  w ++ [crc32c (wordsBytes w)]

/-- A read of HW_IMG_0 captures the whole image (R434). -/
def State.wearCapture (s : State) : State := { s with hw.imgCap := Vector.ofFn fun i => s.hw.image.getD i.val 0#32 }

/-- HW_IMG_0_READ (R434). -/
def execHwImg0Read (s : State) : Res :=
  if (s.domain 4).up then
    let t := s.wearCapture
    .next { t with rdata := [t.hw.imgCap[0]] }
  else .next { s with rdata := [0#32] }

/-- The image written is accepted: its VERSION and CRC are right, and no base was accepted since the device reset (R434). -/
def loadOk (h : Health) : Bool :=
  let w := h.imgIn.toList
  !h.restored && decide (h.imgIn[0] = 1#32) && decide (h.imgIn[23] = crc32c (wordsBytes (w.take 23)))

/-- A monitor with the written image as its base: the counts add up, and ρ and the F it started from are those of the base (R434). -/
def Health.withBase (h : Health) : Health :=
  let g (i : Nat) : BitVec 32 := getN h.imgIn i
  let h1 := { h with
    acc := h.acc + (g 1).toNat + 4294967296 * (g 2).toNat
    cnt := Vector.ofFn fun i => if i.val = 0 then h.cnt[i] else satAdd h.cnt[i] (g (i.val + 2)).toNat
    rate := Vector.ofFn fun i => ((g (12 + i.val)).toNat : Int)
    hours := h.hours + (g 22).toNat, restored := true }
  { h1 with frac := Vector.ofFn fun i => h1.used i }

/-- A write of HW_CTRL (R431, R434): CNT_CLR clears the ECC counts, LOAD accepts the written image or refuses it. -/
def State.setHwCtrl (s : State) (v : BitVec 32) : State :=
  let s1 := if bit v 1 then { s with hw := { s.hw with
      cor := Vector.replicate 7 0#16, unc := Vector.replicate 7 0#8, weak := Vector.replicate 7 0#8 } } else s
  if !bit v 0 then s1
  else if loadOk s1.hw then ({ s1 with hw := s1.hw.withBase }).emit 23 0x003#12 [1#32]
  else (s1.hwSet 3).emit 23 0x003#12 [0#32]

/-- HW_LOAD (R434). -/
def execHwLoad (s : State) : Res := if (s.domain 4).up then .next (s.setHwCtrl 1#32) else .next s

/-- HW_CNT_CLR (R431). -/
def execHwCntClr (s : State) : Res := if (s.domain 4).up then .next (s.setHwCtrl 2#32) else .next s

/-! ### The scrub (R16, R431) -/

/-- A word was corrected by a pass: counted for its partition, and as weak when the pass before corrected it too. -/
def State.scrubWord (s : State) (before : List (BitVec 40)) (a : BitVec 40) : State :=
  let p := partitionOf a.toNat
  let s1 := { s with hw.cor := upd s.hw.cor p satInc }
  if a ∈ before then
    (({ s1 with hw.weak := upd s1.hw.weak p satInc }).hwSet 0).emit 23 0x001#12 [nat32 p.val 0, a.setWidth 32]
  else s1

/-- SCRUB_PASS (R431): a pass over the Selvedge partition (`sel`) or over the others has corrected the words listed. -/
def execScrubPass (sel : Bool) (corrected : List (BitVec 40)) (s : State) : Res :=
  if !(s.domain 4).up then .next s
  else
    let l : List (BitVec 40) := corrected.filter fun a =>
      decide (a.toNat < Config.sramBytes) && decide (decide (partitionOf a.toNat = 6) = sel) && (s.domain (domainOf a.toNat)).up
    let before := if sel then s.hw.lastPassSel else s.hw.lastPass
    let s1 := s.forEach l fun s a => s.scrubWord before a
    .next { s1 with hw := if sel then { s1.hw with lastPassSel := l } else { s1.hw with lastPass := l } }

end Sys2Proof.Machine
end

