-- ==== Sys2Proof/Machine/Boot.lean ====
section
/-! DEFINITION. The boot controller, OTP and the end of SELFTEST (R247, R446 to R449, R451). -/
namespace Sys2Proof.Machine

/-! ### The firmware image (R446, R448) -/

/-- First byte of the staging area, and its size (R446). -/
def stagingBase : Nat := 0x3800000
/-- A section of a firmware image: TARGET, OFFSET, DEST, SIZE (R446). -/
structure FwSection where
  /-- reserved bits of word 0 are 0 -/
  ok : Bool
  /-- TARGET -/
  target : Nat
  /-- OFFSET -/
  off : Nat
  /-- DEST -/
  dest : Nat
  /-- SIZE -/
  size : Nat
  deriving DecidableEq, Repr

/-- Section `i` of an image. -/
def fwSection (b : List Byte) (i : Nat) : FwSection :=
  let w (k : Nat) : BitVec 32 := imgW b (32 + 16 * i + 4 * k)
  { ok := decide (w 0 >>> 2 = 0#32), target := (field (w 0) 0 2).toNat, off := (w 1).toNat, dest := (w 2).toNat, size := (w 3).toNat }

/-- The sections of an image. -/
def fwSections (b : List Byte) : List FwSection := (List.range (imgW b 12).toNat).map (fwSection b)

/-- LEN of a firmware image (R446). -/
def fwLen (b : List Byte) : Nat := (imgW b 4).toNat
/-- SVN of a firmware image (R446). -/
def fwSvn (b : List Byte) : BitVec 16 := field (imgW b 8) 0 16

/-- VERSION, LEN, NSEC and the reserved bits are as R446 gives them, and all of the image is there. -/
def fwForm (b : List Byte) : Bool :=
  let n := (imgW b 12).toNat
  decide (imgW b 0 = 1#32) && decide (fwLen b % 16 = 0) && decide (4096 ≤ fwLen b) && decide (fwLen b ≤ 1048576) &&
  decide (b.length = fwLen b) && decide (imgW b 8 >>> 16 = 0#32) && decide (2 ≤ n) && decide (n ≤ 8) &&
  (List.range 4).all (fun i => decide (imgW b (16 + 4 * i) = 0#32)) && (fwSections b).all (fun t => t.ok)

/-- A section lies within the image and within its target: below the safety log, or outside the staging area (R446, R448). -/
def FwSection.fits (t : FwSection) (len : Nat) : Bool :=
  decide (t.off % 16 = 0) && decide (t.dest % 16 = 0) && decide (t.size % 16 = 0) && decide (t.off + t.size ≤ len) &&
  (if t.target = 2 then
     decide (t.dest + t.size ≤ 8 * Config.sharedWords) && (decide (t.dest + t.size ≤ 0xC00000) || decide (0xD00000 ≤ t.dest))
   else decide (t.target < 2) && decide (t.dest + t.size ≤ 786432))

/-- Two sections overlap in their target. -/
def FwSection.meets (t u : FwSection) : Bool :=
  decide (t.target = u.target) && decide (t.dest < u.dest + u.size) && decide (u.dest < t.dest + t.size)

/-- No section overlaps a later one. -/
def fwApart : List FwSection → Bool
  | [] => true
  | t :: r => !(r.any t.meets) && fwApart r

/-- The first failing check of an image (R448): 0 when all pass. -/
def fwCheck (s : State) (b : List Byte) : BitVec 4 :=
  let len := fwLen b
  if !fwForm b then 2#4
  else
    let pub := (b.drop (len - 192)).take 96
    let sig := (b.drop (len - 96)).take 96
    let l := fwSections b
    if s.boot.keyHash ≠ some (beBits384 (sha384 pub)) then 3#4
    else if !ecdsaVerify pub (sha384 (b.take (len - 96))) sig then 4#4
    else if (fwSvn b).toNat < s.boot.minSvn.toNat then 5#4
    else if !(l.all fun t => t.fits len) || !fwApart l || !(l.any fun t => decide (t.target = 0)) || !(l.any fun t => decide (t.target = 1))
    then 6#4
    else 0#4

/-- First byte of the target of a section. -/
def FwSection.base (t : FwSection) : Nat := if t.target = 0 then 0x3E00000 else if t.target = 1 then 0x3F00000 else Config.sharedBase

/-- The image has passed: its sections are copied and SELFTEST starts with nothing sealed (R247, R448). -/
def State.bootPass (s : State) (b : List Byte) (second : Bool) : State :=
  let s1 := s.forEach (fwSections b) fun s t => s.wrBytes (t.base + t.dest) ((b.drop t.off).take t.size)
  let s2 := { s1 with boot := { s1.boot with svn := fwSvn b, second := second, waitHost := false, selftest := true } }
  let v : Selvedge := { first := s.sv.first, second := s.sv.second }
  let s3 := { s2 with sv := { v with ch := s.sv.ch.map fun c => if c.forced then c else {} } }
  svWatch s s3

/-- An image that lies in the staging area is checked; `second` names the image at 0x0040_0000. -/
def State.bootTry (s : State) (b : List Byte) (second : Bool) : Bool × State :=
  let r := fwCheck s b
  if r = 0#4 then (true, s.bootPass b second) else (false, { s with boot := { s.boot with reason := r } })

/-- The bytes of a flash image that the controller reads: LEN of them, and none when LEN lies outside its range (R447). -/
def flashBytes (b : List Byte) : List Byte := if fwLen b ≤ 1048576 then b.take (fwLen b) else b.take 16

/-- BOOT_IMAGE_LOADED (R447, R448): the images of the flash, at 0 and at 0x0040_0000, are read and checked in turn. -/
def execBootImageLoaded (first second : List (BitVec 8)) (s : State) : Res :=
  if s.boot.busy && !s.boot.selftest && decide (s.boot.bootSrc.toNat < 2) then
    let a := flashBytes first
    let r1 := (s.wrBytes stagingBase a).bootTry a false
    if r1.1 then .next r1.2
    else
      let b := flashBytes second
      let r2 := (r1.2.wrBytes stagingBase b).bootTry b true
      .next (if r2.1 then r2.2 else (r2.2.bootFail r2.2.boot.reason).wakeAgain)
  else .next s

/-- A write of AON_BOOT_HOST: GO while the controller waits for it (R447). -/
def State.bootGo (s : State) (v : BitVec 32) : State :=
  if bit v 31 && s.boot.busy && s.boot.waitHost then
    let len := field v 0 21
    let s1 := { s with boot := { s.boot with hostLen := len, hostGo := true, waitHost := false } }
    let r := s1.bootTry (s1.rdBytes stagingBase len.toNat) false
    if r.1 then r.2 else (r.2.bootFail r.2.boot.reason).wakeAgain
  else s

/-- BOOT_HOST_GO (R447). -/
def execBootHostGo (v : BitVec 32) (s : State) : Res := .next (s.bootGo v)

/-- BOOT_HOST_TIMEOUT (R448): no GO within 10 s. -/
def execBootHostTimeout (s : State) : Res :=
  if s.boot.busy && s.boot.waitHost then .next (s.bootFail 1#4).wakeAgain else .next s

/-! ### OTP (R449) -/

/-- The key hash that AON_OTP_DATA spells, byte 0 in the most significant place. -/
def otpHash (s : State) : BitVec 384 := beBits384 (wordsBytes s.boot.otpData.toList)

/-- A write of AON_OTP_CMD (R449): OTP is written only in STANDBY through the SPI port. -/
def State.otpCmd (s : State) (path : Path) (v : BitVec 32) : State :=
  if s.pw.state ≠ .standby || decide (path ≠ .spi) then s.aonSet 4
  else if v = 0x0B700001#32 then
    (if s.boot.keyHash.isNone then { s with boot := { s.boot with keyHash := some (otpHash s) } } else s)
  else if v = 0x0B700002#32 then
    (if s.boot.minSvn.toNat < s.boot.svn.toNat then { s with boot := { s.boot with minSvn := s.boot.svn } } else s)
  else s.aonSet 4

/-- OTP_PROGRAM_KEY (R449). -/
def execOtpProgramKey (path : Path) (s : State) : Res :=
  if s.pw.state = .off then .next s else .next (s.otpCmd path 0x0B700001#32)

/-- OTP_RAISE_SVN (R449). -/
def execOtpRaiseSvn (path : Path) (s : State) : Res :=
  if s.pw.state = .off then .next s else .next (s.otpCmd path 0x0B700002#32)

/-! ### SELFTEST (R247) -/

/-- The retained image still passes the checks of SEAL (R253 reasons 5 to 8) in its channel's half. -/
def sealStands (s : State) (c : Fin 2) : Bool := decide ((s.sio.half[c]).sealRd = some s.sv.sealWord)

/-- The channel has a retained sealed image: the device woke from SLEEP (R247). -/
def retained (s : State) : Bool := s.sv.sealed && !s.boot.busy

/-- Both channels have left SELFTEST, so a boot ends in READY (R448). -/
def State.bootEnd (s : State) : State :=
  if s.boot.selftest && (fins 2).all fun c => decide ((s.svCh c).state ≠ .selftest) then
    let s1 := { s with pw.trans := none, boot := { s.boot with selftest := false, busy := false, done := true } }
    s1.enterReady 1
  else s

/-- SELFTEST_DONE (R247, R280, R448): SELFTEST of a channel ends, with the diagnostic that failed or none; after a wake from SLEEP a
retained sealed image stands while the half's SEAL reading is the one it requires. -/
def execSelftestDone (ch : Fin 2) (fail : Option (BitVec 8)) (s : State) : Res :=
  if (s.svCh ch).state ≠ .selftest || !(s.domain (chDomain ch)).up then .next s
  else match fail with
    | some d => .next (s.svFault ch d.toNat).bootEnd
    | none =>
      if retained s then
        (if sealStands s ch then
           .next (svWatch s (((s.modSvCh ch fun _ => SvCh.enterSealed s.now).copyWidth ch).svPublish))
         else .next (s.svFault ch 7))
      else .next (svWatch s ((s.modSvCh ch fun c => { c with state := .unsealed }).copyWidth ch).bootEnd)

end Sys2Proof.Machine
end

