-- ==== Sys2Proof/Machine/RegsA.lean ====
section
/-! DEFINITION. The register map, first part: AON and power, clocks and reset, host interface, Treadle, Loom, event recorder, health and
wear (R6, R7, R436). A register that has a command of its own is read or written by that command's meaning. -/
namespace Sys2Proof.Machine

/-- The state that a command answers. -/
def rowState (r : Res) (s : State) : State :=
  match r with
  | .next t => t
  | _ => s

/-- A read that a command describes: the word it returns and the state after it. -/
def rowRead (r : Res) (s : State) : BitVec 32 × State := let t := rowState r s; (t.rdata.headD 0#32, t)

/-- The low or the high half of a 64-bit value. -/
def half64 (v : BitVec 64) (hi : Bool) : BitVec 32 := if hi then field v 32 32 else field v 0 32

/-- A 64-bit value with one half replaced. -/
def putHalf (v : BitVec 64) (hi : Bool) (w : BitVec 32) : BitVec 64 :=
  if hi then (w ++ field v 0 32 : BitVec 64) else (field v 32 32 ++ w : BitVec 64)

/-- The index of offset `o` in a table of `n` registers from `base`, `step` bytes apart. -/
def regIndex (o base n step : Nat) : Option Nat :=
  if base ≤ o ∧ o < base + n * step ∧ (o - base) % step = 0 then some ((o - base) / step) else none

/-- The index of the element whose registers hold offset `o`, of `n` elements from `base` with `size` bytes each. -/
def regArray (o base n size : Nat) : Option (Nat × Nat) :=
  if base ≤ o ∧ o < base + n * size then some ((o - base) / size, (o - base) % size) else none

/-- A write of 1 to sticky bits clears them (R6). -/
def w1c {n : Nat} (w : BitVec n) (v : BitVec 32) : BitVec n := w &&& ~~~(v.setWidth n)

/-- The LK registers take writes (R6). -/
def unlocked (s : State) : Bool := !s.sv.sealed

/-! ### AON and power (20_power_health.md, 21_host_boot.md) -/

/-- AON_DOM_STATE. -/
def domWord (s : State) : BitVec 32 := (fins 13).foldl (fun w d => w ||| at32 (s.domain d).code (2 * d.val)) 0#32

/-- A read of the AON and power block. -/
def aonRead (s : State) (o : Nat) : BitVec 32 :=
  let p := s.pw
  let b := s.boot
  if o = 0x00 then at32 p.state.code 0 ||| bitAt p.trans.isSome 3
  else if o = 0x08 then bitAt p.wakeEnPin 0 ||| bitAt p.wakeEnTimer 1
  else if o = 0x0C then half64 p.wakeTime false
  else if o = 0x10 then half64 p.wakeTime true
  else if o = 0x14 then at32 p.wakeCause 0
  else if o = 0x18 then domWord s
  else if o = 0x1C then at32 p.sleepMap 3
  else if o = 0x20 then at32 p.sticky 0
  else if o = 0x24 then at32 p.intEn 0
  else if o = 0x28 then at32 p.tj 0 ||| at32 p.peak 8 ||| at32 p.hot 16
  else if o = 0x2C then at32 p.twarn 0
  else if o = 0x100 then 0x0880#32 ||| bitAt b.variantEB 16 ||| nat32 2 20 ||| nat32 1 24
  else if o = 0x104 then
    bitAt b.done 0 ||| bitAt b.busy 1 ||| bitAt b.waitHost 2 ||| bitAt b.second 3 ||| at32 b.svn 4 ||| at32 b.reason 20
  else if o = 0x108 then at32 b.resetCause 0
  else if o = 0x154 then at32 b.minSvn 0 ||| bitAt b.keyHash.isSome 16
  else if o = 0x800 then at32 s.sio.cfgWidth 0
  else match regIndex o 0x120 12 4 with
  | some i => getN b.otpData i
  | none => match regIndex o 0x900 80 4 with
  | some i => let x := getN s.sl.ax i; at32 x.wd 0 ||| bitAt x.ctrlEn 16 ||| bitAt x.fbEn 17
  | none => match regIndex o 0xA40 8 4 with
  | some i => let x := getN s.sl.sens i; at32 x.wd 0 ||| bitAt x.en 16
  | none => 0#32

/-- The power controller's registers written. -/
def State.modPw (s : State) (g : Power → Power) : State := { s with pw := g s.pw }

/-- A write to the AON and power block. -/
def State.aonWrite (s : State) (path : Path) (o : Nat) (v : BitVec 32) : State :=
  if o = 0x04 then s.pwrCmd path v
  else if o = 0x08 then s.modPw fun p => { p with wakeEnPin := bit v 0, wakeEnTimer := bit v 1 }
  else if o = 0x0C then s.modPw fun p => { p with wakeTime := putHalf p.wakeTime false v }
  else if o = 0x10 then s.modPw fun p => { p with wakeTime := putHalf p.wakeTime true v }
  else if o = 0x1C then s.modPw fun p => { p with sleepMap := field v 3 10 }
  else if o = 0x20 then s.modPw fun p => { p with sticky := w1c p.sticky v }
  else if o = 0x24 then irqWatch 31 aonLevel s (s.modPw fun p => { p with intEn := field v 0 5 })
  else if o = 0x2C then
    let t := field v 0 8
    if 60 ≤ t.toNat ∧ t.toNat ≤ 124 then s.modPw fun p => { p with twarn := t } else s.aonSet 4
  else if o = 0x108 then { s with boot := { s.boot with resetCause := w1c s.boot.resetCause v } }
  else if o = 0x10C then (if path = .treadle then s else s.hostReset v)
  else if o = 0x110 then s.bootGo v
  else if o = 0x150 then s.otpCmd path v
  else if o = 0x800 then
    let w := field v 0 10
    if unlocked s && decide (100 ≤ w.toNat) && decide (w.toNat ≤ 1000) then { s with sio := { s.sio with cfgWidth := w } } else s
  else match regIndex o 0x120 12 4 with
  | some i => { s with boot := { s.boot with otpData := updN s.boot.otpData i fun _ => v } }
  | none => match regIndex o 0x900 80 4 with
  | some i => if unlocked s then s.setSlAxis (Fin.ofNat 80 i) v else s
  | none => match regIndex o 0xA40 8 4 with
  | some i => if unlocked s then s.setSlSens (Fin.ofNat 8 i) v else s
  | none => s

/-! ### Clocks and reset (02_time_base.md, 20_power_health.md) -/

/-- A read of the clocks and reset block. -/
def crRead (s : State) (o : Nat) : BitVec 32 × State :=
  let t := s.tb
  if o = 0x0000 then (at32 s.cr.pll 0, s)
  else if o = 0x0004 then (at32 s.cr.clk 0, s)
  else if o = 0x1004 then
    (bitAt t.running 0 ||| bitAt t.pending.isSome 1 ||| bitAt t.originShift 2 ||| bitAt t.applyRej 3 ||| bitAt t.startRej 4 |||
      bitAt t.rangeRej 5, s)
  else if o = 0x1008 then (t.stagedPeriod, s)
  else if o = 0x100C then (at32 t.stagedN 0 ||| at32 t.activeN 16, s)
  else if o = 0x1010 then (half64 t.origin false, s)
  else if o = 0x1014 then (half64 t.origin true, s)
  else if o = 0x1018 then (t.startPick, s)
  else if o = 0x101C then (t.startBeat, s)
  else if o = 0x1020 then rowRead (execTbTimeLoRead s) s
  else if o = 0x1024 then (t.capTimeHi, s)
  else if o = 0x1028 then rowRead (execTbPickNumRead s) s
  else if o = 0x102C then (t.beatNum, s)
  else if o = 0x1030 then rowRead (execTbPickTimeLoRead s) s
  else if o = 0x1034 then (t.capPickHi.getD (half64 t.pickTime true), s.modTb fun t => { t with capPickHi := none })
  else if o = 0x1038 then (at32 t.phase 0, s)
  else if o = 0x103C then (t.activePeriod, s)
  else if o = 0x1040 then (t.incAdj, s)
  else (0#32, s)

/-- A write to the clocks and reset block. -/
def State.crWrite (s : State) (o : Nat) (v : BitVec 32) : State :=
  if o = 0x1000 then
    let s1 := if bit v 0 then rowState (execTbStart s) s else s
    if bit v 1 then rowState (execTbApply s1) s1 else s1
  else if o = 0x1004 then
    s.modTb fun t =>
      { t with originShift := t.originShift && !bit v 2, applyRej := t.applyRej && !bit v 3, startRej := t.startRej && !bit v 4,
               rangeRej := t.rangeRej && !bit v 5 }
  else if o = 0x1008 then s.modTb fun t => { t with stagedPeriod := v }
  else if o = 0x100C then s.modTb fun t => { t with stagedN := field v 0 7 }
  else if o = 0x1010 then s.modTb fun t => { t with origin := putHalf t.origin false v }
  else if o = 0x1014 then s.modTb fun t => { t with origin := putHalf t.origin true v }
  else if o = 0x1018 then s.modTb fun t => { t with startPick := v }
  else if o = 0x101C then s.modTb fun t => { t with startBeat := v }
  else s

/-! ### Host interface (21_host_boot.md) -/

/-- The ring whose registers hold offset `o`, and the offset in it: 0x20 bytes each. -/
def ringAt (o : Nat) : Option (Fin 34 × Nat) := 
  match regArray o 0 16 0x20 with
  | some q => some (Fin.ofNat 34 q.1, q.2)
  | none => match regArray o 0x200 18 0x20 with
  | some q => some (Fin.ofNat 34 (16 + q.1), q.2)
  | none => none

/-- A word of the MSI-X table: address, data and vector control. PRESUMED (log 12): the layout of PCI Express. -/
def MsixEntry.word (e : MsixEntry) (k : Nat) : BitVec 32 :=
  if k = 0 then half64 e.addr false else if k = 1 then half64 e.addr true else if k = 2 then e.data else bitAt e.masked 0

/-- A word of the MSI-X table written. -/
def MsixEntry.put (e : MsixEntry) (k : Nat) (v : BitVec 32) : MsixEntry :=
  if k = 0 then { e with addr := putHalf e.addr false (v &&& ~~~3#32) }
  else if k = 1 then { e with addr := putHalf e.addr true v }
  else if k = 2 then { e with data := v } else { e with masked := bit v 0 }

/-- A read of the host interface block. -/
def hiRead (s : State) (o : Nat) : BitVec 32 :=
  match ringAt o with
  | some (k, q) =>
    let r := hostRing s k
    if q = 0x00 then half64 r.base false &&& ~~~0xFFF#32
    else if q = 0x04 then half64 r.base true
    else if q = 0x08 then bitAt r.en 0 ||| at32 r.depth 1 ||| bitAt r.loc 5 ||| bitAt (r.irqEn && decide (16 ≤ k.val) && decide (k.val < 32)) 6
    else if q = 0x0C then at32 r.tail 0
    else if q = 0x10 then at32 r.head 0
    else 0#32
  | none =>
    if o = 0x500 then at32 s.hi.sticky 0
    else if o = 0x504 then s.hi.unavailCnt
    else if o = 0x508 then s.hi.rxNobuf
    else match regArray o 0x8000 64 16 with
    | some q => (getN s.hi.msix q.1).word (q.2 / 4)
    | none => if o = 0x9000 then half64 s.hi.pba false else if o = 0x9004 then half64 s.hi.pba true else 0#32

/-- An entry of the MSI-X table written: a vector that is unmasked while it is pending sends its message. PRESUMED (log 12). -/
def State.msixWrite (s : State) (n : Nat) (k : Nat) (v : BitVec 32) : State :=
  let s1 := s.modHi fun h => { h with msix := updN h.msix n fun e => e.put k v }
  if k = 3 && !bit v 0 && bit s.hi.pba n then
    (s1.modHi fun h => { h with pba := clearBit h.pba n }).raise (Fin.ofNat 64 n)
  else s1

/-- A write to the host interface block. -/
def State.hiWrite (s : State) (o : Nat) (v : BitVec 32) : State :=
  match ringAt o with
  | some (k, q) =>
    if q = 0x00 then s.setRingBase k false v
    else if q = 0x04 then s.setRingBase k true v
    else if q = 0x08 then s.setRingCfg k v
    else if q = 0x0C then
      (if k.val = 33 then s.supplyRx v []
       else if k.val = 32 then State.txRun 4096 [] (s.setIndex 32 false v)
       else if k.val < 16 then s.setIndex k false v else s)
    else if q = 0x10 && decide (16 ≤ k.val) && decide (k.val < 32) then s.setIndex k true v
    else s
  | none =>
    if o = 0x500 then s.modHi fun h => { h with sticky := w1c h.sticky v }
    else if o = 0x504 then s.hiCounterClear false
    else if o = 0x508 then s.hiCounterClear true
    else match regArray o 0x8000 64 16 with
    | some q => s.msixWrite q.1 (q.2 / 4) v
    | none => s

/-! ### Treadle and Loom (03_treadle.md, 04_loom.md) -/

/-- Code of a flow state (TR_FLOW_STATUS_n.STATE). -/
def flowBit (s : State) (st : FlowState) : BitVec 32 :=
  (fins 16).foldl (fun w f => if (s.flow f).state = st then setBit w f.val else w) 0#32

/-- TR_FLOW_STATUS_n.STATE. -/
def FlowState.word : FlowState → BitVec 32
  | .idle => 0#32 | .running => 1#32 | .waiting => 2#32 | .fenced => 3#32 | .stopped => 4#32

/-- A read of the Treadle block. -/
def trRead (s : State) (o : Nat) : BitVec 32 :=
  if o = 0 then flowBit s .fenced
  else if o = 4 then at32 s.tr.fenceEvt 0
  else if o = 8 then at32 s.tr.stopEvt 0
  else match regIndex o 0x100 16 4 with
  | some i => let fl := getN s.tr.flow i; fl.state.word ||| nat32 fl.ops.length 8 ||| at32 fl.lastStatus.code 24
  | none => match regIndex o 0x140 16 4 with
  | some i => at32 (getN s.tr.flow i).pc 0
  | none => 0#32

/-- A write to the Treadle block. -/
def State.trWrite (s : State) (o : Nat) (v : BitVec 32) : State :=
  if o = 4 then { s with tr.fenceEvt := w1c s.tr.fenceEvt v }
  else if o = 8 then { s with tr.stopEvt := w1c s.tr.stopEvt v }
  else s

/-- Code of a slot state (LM_SLOT_d.STATE). -/
def SlotState.word : SlotState → BitVec 32
  | .empty => 0#32 | .loaded => 1#32 | .bound => 2#32

/-- A read of the Loom block. -/
def lmRead (s : State) (o : Nat) : BitVec 32 :=
  let m := s.lm
  if o = 0xA0 then nat32 m.ready.length 0 ||| at32 m.hwm 16
  else if o = 0xA4 then bitAt m.weightRej 0 ||| bitAt m.rlFull 1 ||| bitAt m.stVoid 2
  else match regIndex o 0x00 8 4 with
  | some i => at32 (getN m.weight i) 0
  | none => match regIndex o 0x20 8 4 with
  | some i => int32 (getN m.deficit i)
  | none => match regIndex o 0x40 8 4 with
  | some i =>
    let x := getN m.slot i
    x.state.word ||| nat32 x.insts.length 2 ||| bitAt x.rate 4 ||| at32 x.group 5 ||| at32 x.nodes 16
  | none => match regIndex o 0x60 8 4 with
  | some i => (getN m.slot i).skip
  | none => match regIndex o 0x80 8 4 with
  | some i => (getN m.slot i).voids
  | none => 0#32

/-- A write to the Loom block. -/
def State.lmWrite (s : State) (o : Nat) (v : BitVec 32) : State :=
  if o = 0xA4 then
    { s with lm := { s.lm with weightRej := s.lm.weightRej && !bit v 0, rlFull := s.lm.rlFull && !bit v 1, stVoid := s.lm.stVoid && !bit v 2 } }
  else if o = 0xA8 then
    let s1 := if bit v 0 then rowState (execLmCntClr s) s else s
    if bit v 1 then rowState (execLmHwmClr s1) s1 else s1
  else match regIndex o 0x00 8 4 with
  | some i => rowState (execLmWeightWrite (Fin.ofNat 8 i) v s) s
  | none => s

/-! ### Event recorder (19_event_recorder.md) -/

/-- A read of the event recorder block. -/
def erRead (s : State) (o : Nat) : BitVec 32 × State :=
  let e := s.er
  if o = 0x04 then (at32 e.sticky 0, s)
  else if o = 0x08 then (at32 e.intEn 0, s)
  else if o = 0x0C then (nat32 e.ring.head 0, s)
  else if o = 0x10 then (nat32 e.ring.tail 0, s)
  else if o = 0x14 then (nat32 e.cur 0, s)
  else if o = 0x18 then (e.ring.seq, s)
  else if o = 0x1C then rowRead (execErEpochLoRead s) s
  else if o = 0x20 then (e.capEpochHi, s)
  else if o = 0x24 then (at32 e.wmark 0, s)
  else if o = 0x28 then (e.cntLost, s)
  else if o = 0x2C then (e.cntOvr, s)
  else if o = 0x30 then (bitAt e.selB 0 ||| bitAt e.skipped 1, s)
  else if o = 0x34 then rowRead (execErSlogDataRead s) s
  else (0#32, s)

/-- A write to the event recorder block. -/
def State.erWriteReg (s : State) (o : Nat) (v : BitVec 32) : State :=
  if o = 0x00 then (if bit v 0 then rowState (execErCntClr s) s else s)
  else if o = 0x04 then { s with er.sticky := w1c s.er.sticky v }
  else if o = 0x08 then irqWatch 16 erLevel s { s with er.intEn := field v 0 5 }
  else if o = 0x14 then rowState (execErCurWrite v s) s
  else if o = 0x24 then
    let w := field v 0 21
    if 1 ≤ w.toNat ∧ w.toNat ≤ 1048576 then State.erMark { s with er.wmark := w } (min s.er.unread (w.toNat - 1)) else s.erSet 4
  else if o = 0x30 then rowState (execErSlogSelWrite v s) s
  else s

/-! ### Health and wear (20_power_health.md) -/

/-- A read of the health and wear block. -/
def hwRead (s : State) (o : Nat) : BitVec 32 × State :=
  let h := s.hw
  if o = 0x00 then (at32 h.sticky 0, s)
  else if o = 0x04 then (at32 h.intEn 0, s)
  else if o = 0x0C then (bitAt h.restored 0 ||| at32 h.eolItem 4, s)
  else if o = 0x10 then (h.eol, s)
  else if o = 0x14 then (at32 h.win 0 ||| at32 h.eolAlert 12, s)
  else if o = 0x200 then rowRead (execHwImg0Read s) s
  else match regIndex o 0x20 10 4 with
  | some i => (if i = 0 then 0#32 else getN h.rated i, s)
  | none => match regIndex o 0x50 10 4 with
  | some i => (BitVec.ofNat 32 (getN h.frac i), s)
  | none => match regIndex o 0x80 10 4 with
  | some i => (int32 (getN h.rate i), s)
  | none => match regIndex o 0xC0 16 4 with
  | some i => (getN h.drift i, s)
  | none => match regIndex o 0x100 8 4 with
  | some i => (at32 (getN h.temp i) 0, s)
  | none => match regIndex o 0x120 7 4 with
  | some i => (at32 (getN h.cor i) 0 ||| at32 (getN h.unc i) 16 ||| at32 (getN h.weak i) 24, s)
  | none => match regIndex o 0x200 24 4 with
  | some i => (getN h.imgCap i, s)
  | none => (0#32, s)

/-- A write to the health and wear block. -/
def State.hwWrite (s : State) (o : Nat) (v : BitVec 32) : State :=
  if o = 0x00 then { s with hw := { s.hw with sticky := w1c s.hw.sticky v } }
  else if o = 0x04 then irqWatch 30 hwLevel s { s with hw := { s.hw with intEn := field v 0 5 } }
  else if o = 0x08 then s.setHwCtrl v
  else if o = 0x14 then
    let a := field v 12 20
    let w := field v 0 12
    if 1 ≤ a.toNat ∧ a.toNat ≤ 1000000 ∧ 24 ≤ w.toNat then { s with hw := { s.hw with eolAlert := a, win := w } } else s.hwSet 4
  else match regIndex o 0x20 10 4 with
  | some i => if i = 0 then s else { s with hw := { s.hw with rated := updN s.hw.rated i fun _ => v } }
  | none => match regIndex o 0x200 24 4 with
  | some i => { s with hw := { s.hw with imgIn := updN s.hw.imgIn i fun _ => v } }
  | none => s

end Sys2Proof.Machine
end

