-- ==== Sys2Proof/Machine/RegsB.lean ====
section
/-! DEFINITION. The register map, second part: feedback, control engine, profile generator and stepper links, Churn, Reed, the Selvedge
status window (R6, R7, R436). -/
namespace Sys2Proof.Machine

/-! ### Feedback (05_feedback.md) -/

/-- A read of a register of feedback channel `c`. A configuration register reads as last accepted, also before it takes effect (R107). -/
def fbChRead (s : State) (c : Fin 96) (o : Nat) : BitVec 32 × State :=
  let h := s.ch c
  let cap := h.cap.getD (half64 (int64 h.latch.x) true, int64 h.latch.v, BitVec.ofNat 64 h.latch.e)
  if o = 0x20 then rowRead (execFbPosLoRead c s) s
  else
    (if o = 0x00 then
       (h.cfgNext.map fun v => v &&& 0x3FFFF#32).getD
         (at32 h.inmode 0 ||| bitAt h.invDir 3 ||| at32 h.filt 4 ||| at32 h.axis 10 ||| bitAt h.mapped 17)
     else if o = 0x04 then (h.timingNext.map fun v => v &&& 0xFFFF03FF#32).getD (at32 h.tss 0 ||| at32 h.debounce 16)
     else if o = 0x08 then
       (h.ssiNext.map fun v => v &&& 0xFFFDFF#32).getD (at32 h.bits 0 ||| at32 h.parity 6 ||| bitAt h.gray 8 ||| at32 h.ssiDiv 10)
     else if o = 0x0C then h.leadNext.getD (at32 h.lead 0 ||| at32 h.jumpMax 16)
     else if o = 0x10 then at32 h.rtd 0
     else if o = 0x14 then
       bitAt h.latch.valid 0 ||| bitAt h.latch.standstill 1 ||| bitAt h.dirNeg 2 ||| at32 h.mode.code 3 ||| bitAt h.armed 5 |||
         bitAt (decide (h.raw ≠ h.rep)) 6 ||| bitAt h.cond 7
     else if o = 0x18 then at32 h.sticky 0
     else if o = 0x1C then at32 h.intEn 0
     else if o = 0x24 then cap.1
     else if o = 0x28 then half64 cap.2.1 false
     else if o = 0x2C then half64 cap.2.1 true
     else if o = 0x30 then half64 cap.2.2 false
     else if o = 0x34 then half64 cap.2.2 true
     else if o = 0x38 then half64 h.cmp false
     else if o = 0x3C then half64 h.cmp true
     else if o = 0x40 then half64 h.cmpTime false
     else if o = 0x44 then half64 h.cmpTime true
     else if o = 0x48 then at32 h.errBad 0 ||| at32 h.errLate 16
     else 0#32, s)

/-- A read of the feedback block. -/
def fbRead (s : State) (o : Nat) : BitVec 32 × State :=
  match regArray o 0 96 0x80 with
  | some q => fbChRead s (Fin.ofNat 96 q.1) q.2
  | none => match regIndex o 0x3000 8 4 with
  | some t => let g := getN s.fb.trig t; (at32 g.width 0 ||| bitAt g.pol 16, s)
  | none =>
    if o = 0x3020 then
      ((fins 8).foldl (fun w t => if (s.fb.trig[t]).pulses.isEmpty then w else setBit w t.val) (bitAt s.fb.trigRej 8), s)
    else if o = 0x3030 then (nat32 s.fb.trace.length 0 ||| bitAt s.fb.traceOvf 9, s)
    else if o = 0x3034 then rowRead (execFbTraceW0Read s) s
    else match regIndex o 0x3034 4 4 with
    | some i => (getN s.fb.traceCap i, s)
    | none => (0#32, s)

/-- A write to the feedback block. -/
def State.fbWrite (s : State) (o : Nat) (v : BitVec 32) : State :=
  match regArray o 0 96 0x80 with
  | some q =>
    let c : Fin 96 := Fin.ofNat 96 q.1
    if q.2 = 0x00 then rowState (execFbCfgWrite c v s) s
    else if q.2 = 0x04 then rowState (execFbTimingWrite c v s) s
    else if q.2 = 0x08 then rowState (execFbSsiWrite c v s) s
    else if q.2 = 0x0C then rowState (execFbSsiLeadWrite c v s) s
    else if q.2 = 0x18 then s.modCh c fun h => { h with sticky := w1c h.sticky v }
    else if q.2 = 0x1C then irqWatch (fbVector c) (fbLevel (c.val / 6)) s (s.modCh c fun h => { h with intEn := field v 0 13 })
    else s
  | none => match regIndex o 0x3000 8 4 with
  | some t => rowState (execFbTrigCfgWrite (Fin.ofNat 8 t) v s) s
  | none =>
    if o = 0x3020 then { s with fb.trigRej := s.fb.trigRej && !bit v 8 }
    else if o = 0x3030 then
      let s1 := { s with fb.traceOvf := s.fb.traceOvf && !bit v 9 }
      if bit v 31 then rowState (execTraceClr s1) s1 else s1
    else s

/-! ### Control engine (06_control_engine.md) -/

/-- CE_STATUS_a. -/
def ceStatus (s : State) (a : Fin 80) : BitVec 32 :=
  let l := s.slice a
  bitAt l.bankSel 0 ||| bitAt (!l.swapPend.isEmpty) 1 ||| bitAt l.loaded 2 ||| bitAt l.limit 3 |||
    bitAt ((s.armOf a).elim false fun r => (s.ce.arm[r]).bypass) 4 ||| bitAt l.closed 5 |||
    nat32 (if 0 < l.satdir then 1 else if l.satdir < 0 then 2 else 0) 6

/-- XR_HI, VR, U, INTEG and FERR: the words captured by the last read of CE_XR_LO_a, or the present ones before any. -/
def ceCap (l : Slice) : Vector (BitVec 32) 8 :=
  let hi := fun (v : Int) => half64 (int64 v) true
  l.cap.getD #v[hi l.xr, int32 l.vr, hi l.vr, l.uReg, int32 l.ic, hi l.ic, int32 l.ep, hi l.ep]

/-- A read of a register of slice `a`. -/
def ceSliceRead (s : State) (a : Fin 80) (o : Nat) : BitVec 32 × State :=
  let l := s.slice a
  if o = 0x28 then rowRead (execCeXrLoRead a s) s
  else if o = 0x50 then rowRead (execCePosOffLoRead a s) s
  else
    (if o = 0x00 then
       (l.cfgNext.map fun v => v &&& 0xF07F7#32).getD (at32 l.outmode 0 ||| bitAt l.src 2 ||| at32 l.ch 4 ||| at32 l.missMax 16)
     else if o = 0x04 then ceStatus s a
     else if o = 0x08 then at32 l.sticky 0
     else if o = 0x0C then at32 l.intEn 0
     else if o = 0x10 then half64 (l.vmaxNext.getD l.vmax) false
     else if o = 0x14 then half64 (l.vmaxNext.getD l.vmax) true
     else if o = 0x18 then half64 (l.amaxNext.getD l.amax) false
     else if o = 0x1C then half64 (l.amaxNext.getD l.amax) true
     else if o = 0x20 then l.kcNext.getD l.kc
     else if o = 0x24 then at32 l.lockX 0
     else if o = 0x4C then at32 (BitVec.ofInt 16 l.posOff) 0
     else if o = 0x54 then l.capPosOffHi
     else match regIndex o 0x2C 8 4 with
     | some i => getN (ceCap l) i
     | none => 0#32, s)

/-- A read of the control engine block. -/
def ceRead (s : State) (o : Nat) : BitVec 32 × State :=
  match regArray o 0 80 0x100 with
  | some q => ceSliceRead s (Fin.ofNat 80 q.1) q.2
  | none =>
    if o = 0x5000 then ((fins 8).foldl (fun w r => if (s.ce.arm[r]).bypass then setBit w r.val else w) 0#32, s)
    else match regIndex o 0x5010 8 4 with
    | some r => ((getN s.ce.arm r).cnt, s)
    | none => (0#32, s)

/-- A write to the control engine block. -/
def State.ceWrite (s : State) (o : Nat) (v : BitVec 32) : State :=
  match regArray o 0 80 0x100 with
  | some q =>
    let a : Fin 80 := Fin.ofNat 80 q.1
    if q.2 = 0x00 then rowState (execCeCfgWrite a v s) s
    else if q.2 = 0x08 then s.modSlice a fun l => { l with sticky := w1c l.sticky v }
    else if q.2 = 0x0C then irqWatch (axisVector a) (axisLevel (a.val / 5)) s (s.modSlice a fun l => { l with intEn := field v 0 11 })
    else if q.2 = 0x10 then s.modSlice a fun l => { l with vmaxLo := v }
    else if q.2 = 0x14 then rowState (execCeVmaxWrite a (v ++ (s.slice a).vmaxLo) s) s
    else if q.2 = 0x18 then s.modSlice a fun l => { l with amaxLo := v }
    else if q.2 = 0x1C then rowState (execCeAmaxWrite a (v ++ (s.slice a).amaxLo) s) s
    else if q.2 = 0x20 then s.modSlice a fun l => if s.tb.running then { l with kcNext := some v } else { l with kc := v }
    else if q.2 = 0x24 then
      if field v 0 16 = 0#16 then s.ceSet a 9 else s.modSlice a fun l => { l with lockX := field v 0 16 }
    else s
  | none => match regIndex o 0x5010 8 4 with
  | some r => rowState (execCeBypassCntClear (Fin.ofNat 8 r) s) s
  | none => s

/-! ### Profile generator and stepper links (07_profiles.md) -/

/-- PG_STATUS_a.SOURCE. -/
def PgSource.code : PgSource → BitVec 3
  | .none => 0#3 | .hold => 1#3 | .move => 2#3 | .seg => 3#3 | .gear => 4#3 | .homing => 5#3 | .stop => 6#3 | .mpcRef => 7#3

/-- PG_STATUS_a. -/
def pgStatus (s : State) (a : Fin 80) : BitVec 32 :=
  let p := s.pax a
  let g := decide (p.src = .gear) && (p.gear.pend.isSome || !p.gear.engaged)
  let n := match p.inArm with
    | some r => (s.pg.mv[r]).elim 0 fun m => m.samples.length - 1
    | none => p.ahead
  at32 p.src.code 0 ||| at32 p.phase 4 ||| bitAt p.neg 7 ||| bitAt g 8 ||| bitAt (!p.deferred.isEmpty) 9 ||| nat32 n 16

/-- A read of the profile generator block. -/
def pgRead (s : State) (o : Nat) : BitVec 32 :=
  match regArray o 0 80 0x100 with
  | some q =>
    let a : Fin 80 := Fin.ofNat 80 q.1
    let p := s.pax a
    if q.2 < 0xC0 then half64 (getN p.param (q.2 / 8)) (decide (q.2 % 8 = 4))
    else if q.2 = 0xC0 then pgStatus s a
    else if q.2 = 0xC4 then at32 p.sticky 0
    else if q.2 = 0xC8 then at32 p.intEn 0
    else 0#32
  | none =>
    if o = 0x5000 then at32 s.pg.dsUp 0
    else match regIndex o 0x5010 8 4 with
    | some r => nat32 (getN s.pg.sigma r) 0 ||| at32 (getN s.pg.tgt r) 16
    | none => match regIndex o 0x5030 16 4 with
    | some j => nat32 (getN s.pg.auxSigma j) 0 ||| at32 (getN s.pg.auxTgt j) 16
    | none => match regIndex o 0x5070 8 4 with
    | some k =>
      (match getN s.pg.slot k with
       | some t => nat32 t.length 0 ||| bitAt true 16 ||| nat32 (slotUsers s (Fin.ofNat 8 k)) 24
       | none => 0#32)
    | none => match regArray o 0x6000 16 0x20 with
    | some q =>
      let l := getN s.stl q.1
      if q.2 = 0 then at32 l.axis 0 ||| bitAt l.en 7 ||| bitAt l.inv 8 ||| at32 l.sub 9 ||| at32 l.div 24
      else if q.2 = 4 then l.mscale
      else if q.2 = 8 then at32 l.addrOff 0 ||| at32 l.last 16
      else if q.2 = 12 then at32 l.subActive 0 ||| bitAt l.subReduced 8 ||| bitAt l.fast 9 ||| bitAt l.cfgRej 10
      else 0#32
    | none => 0#32

/-- A write to the profile generator block. -/
def State.pgWrite (s : State) (o : Nat) (v : BitVec 32) : State :=
  match regArray o 0 80 0x100 with
  | some q =>
    let a : Fin 80 := Fin.ofNat 80 q.1
    if q.2 = 0xC4 then s.modPax a fun p => { p with sticky := w1c p.sticky v }
    else if q.2 = 0xC8 then irqWatch (axisVector a) (axisLevel (a.val / 5)) s (s.modPax a fun p => { p with intEn := field v 0 9 })
    else s
  | none =>
    if o = 0x5000 then
      let d := field v 0 16
      if d.toNat = 0 ∨ 32768 < d.toNat then s else { s with pg := { s.pg with dsUp := d } }
    else match regArray o 0x6000 16 0x20 with
    | some q =>
      let n : Fin 16 := Fin.ofNat 16 q.1
      if q.2 = 0 then rowState (execStlCfgWrite n v s) s
      else if q.2 = 4 then (if v = 0#32 then s.modStl n fun l => { l with cfgRej := true } else s.modStl n fun l => { l with mscale := v })
      else if q.2 = 8 then s.modStl n fun l => { l with addrOff := field v 0 10 }
      else if q.2 = 12 then
        s.modStl n fun l =>
          { l with subReduced := l.subReduced && !bit v 8, fast := l.fast && !bit v 9, cfgRej := l.cfgRej && !bit v 10 }
      else s
    | none => s

/-! ### Churn (08_churn.md, 09_churn_schedules.md) -/

/-- A word of the header of the loaded schedule; 0 while none is loaded. -/
def schHead (s : State) (n : Nat) : BitVec 32 := if s.qp.sched then schWord s.mem n else 0#32

/-- A read of the Churn block. -/
def chRead (s : State) (o : Nat) : BitVec 32 × State :=
  let q := s.qp
  if o = 0x18 then rowRead (execChSigLoRead s) s
  else if o = 0x84 then rowRead (execChSchedHashLoRead s) s
  else
    (if o = 0x00 then
       bitAt q.sched 0 ||| bitAt q.planning 1 ||| bitAt ((q.insts.any fun i => i.solving) || q.jobs.any fun j => j.solving) 2 |||
         at32 (field (schHead s 0) 16 2) 3 ||| bitAt q.curValid 5 ||| bitAt q.curExpired 6 ||| bitAt q.curBuf 7 ||| bitAt q.costSel 8 |||
         bitAt q.cost.isSome 9 ||| nat32 q.insts.length 10
     else if o = 0x04 then at32 q.sticky 0
     else if o = 0x08 then q.tolP
     else if o = 0x0C then q.tolD
     else if o = 0x10 then q.tolGap
     else if o = 0x14 then at32 q.cap 0 ||| at32 q.epivExp 8 ||| at32 q.dregExp 16
     else if o = 0x1C then q.capSigHi
     else if o = 0x20 then q.curIndex
     else if o = 0x24 then half64 q.curSig false
     else if o = 0x28 then half64 q.curSig true
     else if o = 0x2C then at32 q.lastIter 0 ||| at32 q.lastResult 8 ||| bitAt q.lastWarm 12 ||| at32 q.lastTime 16
     else if o = 0x30 then q.lastIndex
     else if o = 0x60 then at32 q.costBase 0
     else if o = 0x80 then at32 (field (schHead s 0) 16 2) 0 ||| at32 (field (schHead s 3) 0 7) 2 ||| at32 (field (schHead s 7) 0 16) 16
     else if o = 0x88 then q.capHashHi
     else if o = 0x8C then q.schedErr
     else if o = 0x90 then at32 (field (schHead s 8) 0 22) 0
     else match regIndex o 0x40 7 4 with
     | some i => getN q.cnt i
     | none => 0#32, s)

/-- An FP32 value that is positive and finite. -/
def positiveFp (v : BitVec 32) : Bool := !bit v 31 && decide (v.toNat ≠ 0) && decide (v.toNat < 0x7F800000)

/-- A write to the Churn block; one that is ignored sets CFG_REJ. -/
def State.chWrite (s : State) (o : Nat) (v : BitVec 32) : State :=
  let no := s.qpSet 7
  if o = 0x04 then s.modQp fun q => { q with sticky := w1c q.sticky v }
  else if o = 0x08 then (if positiveFp v then s.modQp fun q => { q with tolP := v } else no)
  else if o = 0x0C then (if positiveFp v then s.modQp fun q => { q with tolD := v } else no)
  else if o = 0x10 then (if positiveFp v then s.modQp fun q => { q with tolGap := v } else no)
  else if o = 0x14 then
    let cap := field v 0 6
    let ep := field v 8 6
    let dr := field v 16 6
    if 1 ≤ cap.toNat ∧ 8 ≤ ep.toNat ∧ ep.toNat ≤ 40 ∧ 8 ≤ dr.toNat ∧ dr.toNat ≤ 40 then
      s.modQp fun q => { q with cap := cap, epivExp := ep, dregExp := dr }
    else no
  else if o = 0x60 then
    if planStopped s && decide ((field v 0 8).toNat ≤ 222) then s.modQp fun q => { q with costBase := field v 0 8 } else no
  else if o = 0x64 then (if bit v 0 then rowState (execChCntClr s) s else s)
  else s

/-! ### Reed (10_reed.md) -/

/-- A register of Reed held in PD0: the LK registers, RD_TOL and RD_CYCLE (R420). -/
def reedHeld (o : Nat) : Bool :=
  (decide (0x10 ≤ o) && decide (o ≤ 0x28)) || (regIndex o 0x100 8 0x20).isSome || decide (o = 0x200) || decide (o = 0x204)

/-- A register of Reed with access LK (R226). -/
def reedLk (o : Nat) : Bool := (decide (0x10 ≤ o) && decide (o ≤ 0x24)) || (regIndex o 0x100 8 0x20).isSome

/-- A read of the Reed block. -/
def rdRead (s : State) (o : Nat) : BitVec 32 × State :=
  let r := s.rd
  if o = 0x200 then rowRead (execRdCycleLoRead s) s
  else match regArray o 0x100 8 0x20 with
  | some q =>
    let t := getN r.sens q.1
    if q.2 = 0x10 then rowRead (execRdSensLastLoRead (Fin.ofNat 8 q.1) s) s
    else
      (if q.2 = 0x00 then bitAt t.en 0 ||| at32 t.period 12
       else if q.2 = 0x04 then t.acc
       else if q.2 = 0x08 then at32 t.rejFmt 0 ||| at32 t.rejLen 8 ||| at32 t.rejTime 16 ||| at32 t.rejMask 24
       else if q.2 = 0x0C then at32 t.drop 0 ||| at32 t.check 16
       else if q.2 = 0x14 then t.capLastHi
       else 0#32, s)
  | none =>
    (if o = 0x00 then bitAt r.run 0
     else if o = 0x04 then
       bitAt r.run 0 ||| bitAt r.waitFirst 1 ||| bitAt r.fusing.isSome 2 ||| bitAt (!r.chA.isEmpty) 3 ||| bitAt (!r.chB.isEmpty) 4
     else if o = 0x08 then at32 r.sticky 0
     else if o = 0x10 then at32 r.cx 0 ||| at32 r.cy 8 ||| at32 r.cz 16
     else if o = 0x14 then at32 r.edge 0 ||| at32 r.maskInfl 16 ||| at32 r.tolf 28
     else if o = 0x18 then r.org[0]
     else if o = 0x1C then r.org[1]
     else if o = 0x20 then r.org[2]
     else if o = 0x24 then r.gridId
     else if o = 0x28 then nat32 (tAg r.tolf.toNat r.edge.toNat) 0 ||| nat32 (k3 r.edge.toNat) 16
     else if o = 0x204 then r.capCycleHi
     else if o = 0x208 then r.aIndex
     else if o = 0x20C then r.bIndex
     else if o = 0x210 then r.disCnt
     else if o = 0x214 then at32 r.latA 0 ||| at32 r.latB 16
     else 0#32, s)

/-- A write to the Reed block. -/
def State.rdWrite (s : State) (o : Nat) (v : BitVec 32) : State :=
  if o = 0x00 then
    let s1 := if bit v 1 then rowState (execReedCntClr s) s else s
    rowState (execReedRunWrite v s1) s1
  else if o = 0x08 then s.modRd fun r => { r with sticky := w1c r.sticky v }
  else if reedLk o then rowState (execReedConfigWrite (BitVec.ofNat 12 o) v s) s
  else s

/-! ### Selvedge status window (11_selvedge.md, 12_safety_io.md, 13_safety_layer.md) -/

/-- A 32-bit word with bit `i` as `f` says. -/
def bitsOf (n : Nat) (f : Fin n → Bool) : BitVec 32 := (fins n).foldl (fun w i => if f i then setBit w i.val else w) 0#32

/-- SV_ARM_STOP (R260): the category of Selvedge A; 0 outside SEALED. -/
def armStopWord (s : State) : BitVec 32 :=
  let c := s.svCh 0
  (fins 8).foldl (fun w r =>
    let cat := if c.state = .sealed then c.armCat r else 0
    w ||| nat32 cat (4 * r.val) ||| bitAt (c.stale && decide (c.state = .sealed)) (4 * r.val + 2) ||| bitAt (c.arm[r]).ssmFault (4 * r.val + 3)) 0#32

/-- An age of SV_AGE: µs, saturating; 0xFFFF with no entry. -/
def ageWord (c : SvCh) : BitVec 16 := BitVec.ofNat 16 (c.age.elim 0xFFFF fun a => min 0xFFFF (a / 1000))

/-- The safety I/O registers of the window (12_safety_io.md). -/
def sioRead (s : State) (o : Nat) : BitVec 32 :=
  let q := s.sio
  let os := fun (f : Ossd → Bool) => bitsOf 8 fun n => f q.ossd[n]
  if o = 0x100 then at32 (q.pulsing ||| q.holding) 0 ||| at32 (q.stuckOff ||| q.stuckOn) 8
  else if o = 0x104 then (q.half[0]).report
  else if o = 0x108 then
    os (fun x => x.p[0]) ||| (os (fun x => x.n[0]) <<< 8) ||| (os Ossd.conducts <<< 16) ||| (os (fun x => x.n[1]) <<< 24)
  else if o = 0x10C then os fun x => x.fault
  else if o = 0x110 then
    at32 ((q.half[0]).sealRd.getD 0#24) 0 ||| bitAt (q.half[0]).sealRd.isSome 24 |||
      bitAt (decide ((q.half[1]).sealRd ≠ (q.half[0]).sealRd)) 25
  else if o = 0x114 then at32 q.darkHigh 0 ||| at32 q.darkLow 16
  else 0#32

/-- SL_STAT_c (13_safety_layer.md). -/
def slStat (s : State) (c : Nat) : BitVec 32 :=
  if c < 80 then (if (getN s.sl.ax c).ctrlEn then 2#32 else 0#32)
  else
    let k := if c < 160 then (getN s.sl.ax (c - 80)).conn else (getN s.sl.sens (c - 160)).conn
    let st : Nat := match k.state with
      | .off => 0 | .wait => 1 | .running => 2 | .expired => 3
    nat32 st 0 ||| at32 k.cause 2 ||| at32 k.bad 8 ||| at32 k.old 16 ||| at32 k.expired 24

/-- A read of the Selvedge status window. -/
def svRead (s : State) (o : Nat) : BitVec 32 :=
  let a := s.svCh 0
  let b := s.svCh 1
  if o = 0x00 then svStateWord s
  else if o = 0x04 then armStopWord s
  else if o = 0x50 then at32 (ageWord a) 0 ||| at32 (ageWord b) 16
  else if o = 0x70 then demandBits s 0
  else if o = 0x74 then bitsOf 16 fun p => (a.pair[p]).fault
  else if o = 0x78 then a.levels
  else if o = 0x7C then b.levels
  else if o = 0x80 then (bitsOf 8 fun n => (s.sio.ossd[n]).high) ||| ((bitsOf 8 fun n => (s.sio.ossd[n]).low) <<< 8)
  else if o = 0x84 then s.sv.cfgErr
  else if o = 0xC0 then
    at32 (s.sv.first.elim 0#12 fun f => f.2) 0 ||| at32 (s.sv.second.elim 0#12 fun f => f.2) 16
  else if o = 0xC4 then s.sv.disCnt
  else match regIndex o 0x10 8 4 with
  | some r => at32 (svScale s 0 (Fin.ofNat 8 r)) 0 ||| at32 (svScale s 1 (Fin.ofNat 8 r)) 16
  | none => match regIndex o 0x30 8 4 with
  | some r => at32 (getN a.arm r).d 0 ||| at32 (getN b.arm r).d 16
  | none => match regIndex o 0x90 12 4 with
  | some i => BitVec.ofNat 32 (leAt s.sv.digest (4 * i) 4)
  | none => match regIndex o 0x200 168 4 with
  | some c => slStat s c
  | none => sioRead s o

end Sys2Proof.Machine
end

