-- ==== Sys2Proof/Machine/RegsC.lean ====
section
/-! DEFINITION. The register map, third part: TSN switch, network time, CAN FD, pair link, Warp ring (R6, R7, R436). -/
namespace Sys2Proof.Machine

/-! ### TSN switch (14_ethernet.md) -/

/-- A 48-bit address with its low 32 or its high 16 bits replaced. -/
def putMac (m : BitVec 48) (hi : Bool) (v : BitVec 32) : BitVec 48 :=
  if hi then (field v 0 16 ++ field m 0 32 : BitVec 48) else (field m 32 16 ++ v : BitVec 48)
/-- The low 32 or the high 16 bits of an address. -/
def macHalf (m : BitVec 48) (hi : Bool) : BitVec 32 := if hi then at32 (field m 32 16) 0 else field m 0 32

/-- A set-point group as its register shows it: the range of a group of an arm is the arm's (R322). -/
def grpWord (s : State) (g : Nat) : BitVec 32 :=
  let x := getN s.sw.grp g
  let first := if g < 8 then BitVec.ofNat 7 (getN s.cell.arm g).first else x.first
  let count := if g < 8 then BitVec.ofNat 4 (getN s.cell.arm g).count else x.count
  bitAt x.en 0 ||| at32 x.ports 1 ||| at32 x.pcp 5 ||| at32 x.vid 8 ||| at32 first 20 ||| at32 count 27

/-- A read of a register of port `p`. -/
def portRead (s : State) (p : Nat) (o : Nat) : BitVec 32 :=
  let t := getN s.sw.port p
  if o = 0x00 then at32 t.mode 0 ||| at32 t.defPcp 4
  else if o = 0x04 then bitAt t.link 0
  else if o = 0x08 then at32 t.sticky 0
  else if o = 0x0C then at32 t.intEn 0
  else if o = 0x10 then (fins 8).foldl (fun w n => w ||| at32 (t.pcpMap[n]) (3 * n.val)) 0#32
  else if o = 0x14 then bitAt t.gclEn 0 ||| bitAt t.adm.src 1 ||| at32 t.adm.len 3 ||| bitAt t.swap.isSome 13 ||| bitAt t.bank 14
  else if o = 0x18 then t.adm.cycle
  else if o = 0x1C then t.adm.baseNs
  else if o = 0x20 then t.adm.baseS
  else match regIndex o 0x40 8 4 with
  | some c => at32 (getN t.slope c) 0 ||| bitAt (bit t.cbsEn c) 31
  | none => match regIndex o 0x80 6 4 with
  | some k => getN t.cnt k
  | none => 0#32

/-- A read of the switch block. -/
def swRead (s : State) (o : Nat) : BitVec 32 :=
  let w := s.sw
  if o = 0x00 then bitAt w.fwdEn 0 ||| bitAt w.dtEn 1 ||| at32 w.age 2
  else if o = 0x04 then at32 w.etype 0
  else if o = 0x08 then at32 w.offset 0
  else if o = 0x0C then at32 w.lateWin 0
  else if o = 0x10 then macHalf w.mac false
  else if o = 0x14 then macHalf w.mac true
  else if o = 0x18 then macHalf w.fbMac false
  else if o = 0x1C then macHalf w.fbMac true
  else if o = 0x20 then at32 w.sticky 0
  else if o = 0x24 then at32 w.cbHist 0 ||| at32 w.cbReset 8
  else if o = 0x40 then at32 w.fdbVid 0 ||| at32 w.fdbPorts 21 ||| bitAt w.fdbFull 29
  else if o = 0x44 then macHalf w.fdbMac false
  else if o = 0x48 then macHalf w.fdbMac true
  else match regIndex o 0x28 4 4 with
  | some k => getN w.cnt k
  | none => match regArray o 0x100 10 0x10 with
  | some q =>
    if q.2 = 0 then grpWord s q.1
    else if q.2 = 4 then macHalf (getN w.grp q.1).mac false
    else if q.2 = 8 then macHalf (getN w.grp q.1).mac true else 0#32
  | none => match regArray o 0x1000 8 0x100 with
  | some q => portRead s q.1 q.2
  | none => match regArray o 0x4000 6 0x1000 with
  | some q =>
    half64 ((getN w.port q.1).entry (decide (0x800 ≤ q.2)) (q.2 % 0x800 / 8)) (decide (q.2 % 8 = 4))
  | none => 0#32

/-- A value that SW_ETYPE takes (R321). -/
def etypeOk (v : BitVec 16) : Bool :=
  decide (0x600 ≤ v.toNat) && decide (v ≠ 0x8100#16) && decide (v ≠ 0x88F7#16) && decide (v ≠ 0xF1C1#16)

/-- A mode that port `p` supports (R308). -/
def modeOk (p : Nat) (m : BitVec 3) : Bool := decide (m.toNat ≤ (if p < 4 then 3 else if p < 6 then 4 else 0))

/-- PT_CFG is written (R308, R328): the mode changes only while the port is disabled, or to disable it. -/
def State.setPortCfg (s : State) (p : Fin 8) (v : BitVec 32) : State :=
  let t := s.sw.port[p]
  let m := field v 0 3
  let s1 := s.modPort p fun t => { t with defPcp := field v 4 3 }
  if m = t.mode then s1
  else if !modeOk p.val m || (decide (t.mode ≠ 0#3) && decide (m ≠ 0#3)) then s1.ptSet p 4
  else if m = 0#3 then
    let s2 := if h : p.val < 6 then s1.linkChange ⟨p.val, h⟩ false else s1
    (s2.modPort p fun t => { t with mode := m }).pllFollow s2
  else (s1.modPort p fun t => { t with mode := m }).pllFollow s1

/-- A write to a register of port `p`. -/
def State.portWrite (s : State) (p : Fin 8) (o : Nat) (v : BitVec 32) : State :=
  if o = 0x00 then s.setPortCfg p v
  else if o = 0x08 then s.modPort p fun t => { t with sticky := w1c t.sticky v }
  else if o = 0x0C then
    let s1 := s.modPort p fun t => { t with intEn := field v 0 5 }
    if p.val < 6 then irqWatch (Fin.ofNat 64 (24 + p.val)) (ptLevel p) s s1 else s1
  else if o = 0x10 then s.modPort p fun t => { t with pcpMap := Vector.ofFn fun n => field v (3 * n.val) 3 }
  else match regIndex o 0x80 6 4 with
  | some k => rowState (execPtCntClear p (Fin.ofNat 6 k) s) s
  | none =>
    if 6 ≤ p.val then s
    else if o = 0x14 then s.setGclCtrl p v
    else if o = 0x18 then
      (if 1000 ≤ v.toNat ∧ v.toNat ≤ 1000000000 then s.modPort p fun t => { t with adm := { t.adm with cycle := v } } else s.ptSet p 4)
    else if o = 0x1C then s.modPort p fun t => { t with adm := { t.adm with baseNs := v } }
    else if o = 0x20 then s.modPort p fun t => { t with adm := { t.adm with baseS := v } }
    else match regIndex o 0x40 8 4 with
    | some c =>
      let sl := field v 0 24
      if modeRate (s.sw.port[p]).mode < sl.toNat then s.ptSet p 4
      else (s.cbsNow p).modPort p fun t => { t with slope := updN t.slope c fun _ => sl, cbsEn := putBit t.cbsEn c (bit v 31) }
    | none => s

/-- A set-point group's register written: the range of a group of an arm is read only (R322). -/
def State.setGrp (s : State) (g : Nat) (v : BitVec 32) : State :=
  let count := field v 27 4
  let first := field v 20 7
  if 8 ≤ g ∧ (count.toNat = 0 ∨ 8 < count.toNat ∨ first.toNat < 64 ∨ 80 < first.toNat + count.toNat) ∧ bit v 0 then s.swSet 3
  else s.modSw fun w =>
    { w with grp := updN w.grp g fun x =>
        let y := { x with en := bit v 0, ports := field v 1 4, pcp := field v 5 3, vid := field v 8 12 }
        if g < 8 then y else { y with first := first, count := count } }

/-- A write to the switch block. -/
def State.swWrite (s : State) (o : Nat) (v : BitVec 32) : State :=
  let no := s.swSet 3
  if o = 0x00 then
    let age := field v 2 16
    let s1 := s.modSw fun w => { w with fwdEn := bit v 0, dtEn := bit v 1 }
    if age.toNat < 10 then s1.swSet 3 else s1.modSw fun w => { w with age := age }
  else if o = 0x04 then (if etypeOk (field v 0 16) then s.modSw fun w => { w with etype := field v 0 16 } else no)
  else if o = 0x08 then
    let f := field v 0 16
    if 2000 ≤ f.toNat ∧ f.toNat ≤ 15625 then s.modSw fun w => { w with offset := f } else no
  else if o = 0x0C then s.modSw fun w => { w with lateWin := field v 0 16 }
  else if o = 0x10 then s.modSw fun w => { w with mac := putMac w.mac false v }
  else if o = 0x14 then s.modSw fun w => { w with mac := putMac w.mac true v }
  else if o = 0x18 then s.modSw fun w => { w with fbMac := putMac w.fbMac false v }
  else if o = 0x1C then s.modSw fun w => { w with fbMac := putMac w.fbMac true v }
  else if o = 0x20 then s.modSw fun w => { w with sticky := w1c w.sticky v }
  else if o = 0x24 then
    let h := field v 0 6
    let r := field v 8 14
    if 1 ≤ h.toNat ∧ h.toNat ≤ 32 ∧ 1 ≤ r.toNat then s.modSw fun w => { w with cbHist := h, cbReset := r } else no
  else if o = 0x40 then s.setFdbCmd v
  else if o = 0x44 then s.modSw fun w => { w with fdbMac := putMac w.fdbMac false v }
  else if o = 0x48 then s.modSw fun w => { w with fdbMac := putMac w.fdbMac true v }
  else match regArray o 0x100 10 0x10 with
  | some q =>
    if q.2 = 0 then s.setGrp q.1 v
    else if q.2 = 4 then s.modSw fun w => { w with grp := updN w.grp q.1 fun x => { x with mac := putMac x.mac false v } }
    else if q.2 = 8 then s.modSw fun w => { w with grp := updN w.grp q.1 fun x => { x with mac := putMac x.mac true v } }
    else s
  | none => match regArray o 0x1000 8 0x100 with
  | some q => s.portWrite (Fin.ofNat 8 q.1) q.2 v
  | none => match regArray o 0x4000 6 0x1000 with
  | some q =>
    let b := if 0x800 ≤ q.2 then (1 : Fin 2) else 0
    s.modPort (Fin.ofNat 8 q.1) fun t =>
      { t with gcl := upd t.gcl b fun l => updN l (q.2 % 0x800 / 8) fun e => putHalf e (decide (q.2 % 8 = 4)) v }
  | none => s

/-! ### Network time (15_network_time.md) -/

/-- A read of the network time block. -/
def ntRead (s : State) (o : Nat) : BitVec 32 × State :=
  let n := s.nt
  if o = 0x18 then rowRead (execNtOfs0Read s) s
  else if o = 0x24 then rowRead (execNtPhaseLoRead s) s
  else if o = 0x2C then rowRead (execNtNowNsRead s) s
  else match regArray o 0x100 2 0x40 with
  | some q =>
    let d : Fin 2 := Fin.ofNat 2 q.1
    let x := n.dom[d]
    if q.2 = 0x0C then rowRead (execNtDomPhaseLoRead d s) s
    else
      (if q.2 = 0x00 then at32 x.domain 0 ||| bitAt x.en 7 ||| at32 x.slave 8 ||| at32 x.masters 16 ||| at32 x.timeout 24
       else if q.2 = 0x04 then nat32 x.state.code 0 ||| at32 x.logInt 8
       else if q.2 = 0x08 then int32 x.f
       else if q.2 = 0x10 then x.capPhaseHi
       else if q.2 = 0x14 then at32 x.acc 0 ||| at32 x.rej 16
       else 0#32, s)
  | none =>
    (if o = 0x00 then bitAt n.en 0 ||| bitAt n.pref 1 ||| bitAt n.auto 2 ||| bitAt n.hostCopy 3
     else if o = 0x04 then
       nat32 n.state.code 0 ||| bitAt n.sel 4 ||| bitAt n.valid 5 ||| bitAt (ntAligned s) 6 ||| bitAt n.stepped 7
     else if o = 0x08 then at32 n.sticky 0
     else if o = 0x0C then at32 n.intEn 0
     else if o = 0x10 then at32 n.pullMax 0 ||| at32 n.tau 24
     else if o = 0x14 then at32 n.holdMax 0 ||| at32 n.alignNs 16
     else if o = 0x1C then n.capOfs[0]
     else if o = 0x20 then n.capOfs[1]
     else if o = 0x28 then n.capPhaseHi
     else if o = 0x30 then n.capNow[0]
     else if o = 0x34 then n.capNow[1]
     else if o = 0x38 then at32 n.thresh 0
     else match regIndex o 0x200 6 4 with
     | some p => let t := getN n.port p; nat32 (min 0xFFFF (t.delay / 65536)) 0 ||| bitAt t.asCapable 16
     | none => 0#32, s)

/-- A write to the network time block. -/
def State.ntWrite (s : State) (o : Nat) (v : BitVec 32) : State :=
  let no := s.ntSet 5
  if o = 0x00 then s.setNtCtrl v
  else if o = 0x08 then s.modNt fun n => { n with sticky := w1c n.sticky v }
  else if o = 0x0C then irqWatch 19 ntLevel s (s.modNt fun n => { n with intEn := field v 0 6 })
  else if o = 0x10 then
    let t := field v 24 8
    let m := field v 0 9
    if 1 ≤ t.toNat ∧ 1 ≤ m.toNat ∧ m.toNat ≤ 490 then s.modNt fun n => { n with tau := t, pullMax := m } else no
  else if o = 0x14 then
    let a := field v 16 16
    let h := field v 0 12
    if 1 ≤ a.toNat ∧ 1 ≤ h.toNat ∧ h.toNat ≤ 3600 then s.modNt fun n => { n with alignNs := a, holdMax := h } else no
  else if o = 0x38 then (if field v 0 16 = 0#16 then no else s.modNt fun n => { n with thresh := field v 0 16 })
  else match regArray o 0x100 2 0x40 with
  | some q => if q.2 = 0 then s.setNtDom (Fin.ofNat 2 q.1) v else s
  | none => s

/-! ### CAN FD (16_can_fd.md) -/

/-- Word `w` of an object bitmap. -/
def bitmapWord (m : BitVec 128) (w : Nat) : BitVec 32 := field m (32 * w) 32

/-- A read of the CAN FD block. -/
def canRead (s : State) (o : Nat) : BitVec 32 :=
  if o = 0x1000 then s.can.base
  else match regArray o 0 4 0x400 with
  | some q =>
    let n : Fin 4 := Fin.ofNat 4 q.1
    let c := s.can.ctl[n]
    let w := q.2 % 16 / 4
    if q.2 = 0x00 then at32 c.mode 0 ||| bitAt c.fdEn 2 ||| bitAt c.autoRec 3
    else if q.2 = 0x04 then
      at32 c.err 0 ||| bitAt c.recovering 4 ||| bitAt c.tx.isSome 5 ||| at32 (canEff s n) 6 ||| at32 c.lec 8
    else if q.2 = 0x08 then nat32 c.tec 0 ||| nat32 c.rec_ 16
    else if q.2 = 0x0C then c.nbt
    else if q.2 = 0x10 then c.dbt
    else if q.2 = 0x14 then at32 c.sticky 0
    else if q.2 = 0x18 then at32 c.intEn 0
    else if q.2 / 16 = 4 then bitmapWord c.txPend w
    else if q.2 / 16 = 5 then bitmapWord c.txDone w
    else if q.2 / 16 = 6 then bitmapWord c.txCan w
    else if q.2 / 16 = 7 then bitmapWord c.rxNew w
    else if q.2 / 16 = 8 then bitmapWord c.invalid w
    else if q.2 = 0x90 then c.cntTx
    else if q.2 = 0x94 then c.cntRx
    else if q.2 = 0x98 then c.cntLost
    else 0#32
  | none => 0#32

/-- A bitmap with the bits of word `w` that are written 1 cleared (R6). -/
def w1cMap (m : BitVec 128) (w : Nat) (v : BitVec 32) : BitVec 128 := m &&& ~~~(v.setWidth 128 <<< (32 * w))

/-- A write to the CAN FD block. -/
def State.canWrite (s : State) (o : Nat) (v : BitVec 32) : State :=
  if o = 0x1000 then s.setCanBase v
  else match regArray o 0 4 0x400 with
  | some q =>
    let n : Fin 4 := Fin.ofNat 4 q.1
    let w : Fin 4 := Fin.ofNat 4 (q.2 % 16 / 4)
    if q.2 = 0x00 then s.setCanCtrl n v
    else if q.2 = 0x0C then s.setNbt n v
    else if q.2 = 0x10 then s.setDbt n v
    else if q.2 = 0x14 then s.modCan n fun c => { c with sticky := w1c c.sticky v }
    else if q.2 = 0x18 then irqWatch (Fin.ofNat 64 (20 + n.val)) (canLevel n) s (s.modCan n fun c => { c with intEn := field v 0 9 })
    else if q.2 / 16 = 2 then rowState (execCanTxsetWrite n w v s) s
    else if q.2 / 16 = 3 then rowState (execCanTxcancelWrite n w v s) s
    else if q.2 / 16 = 5 then s.modCan n fun c => { c with txDone := w1cMap c.txDone w.val v }
    else if q.2 / 16 = 6 then s.modCan n fun c => { c with txCan := w1cMap c.txCan w.val v }
    else if q.2 / 16 = 7 then rowState (execCanRxnewWrite n w v s) s
    else if q.2 / 16 = 8 then rowState (execCanInvalidWrite n w v s) s
    else match regIndex q.2 0x90 3 4 with
    | some k => rowState (execCanCntClear n (Fin.ofNat 3 k) s) s
    | none => s
  | none => s

/-! ### Pair link (17_redundancy.md) -/

/-- A read of the pair link block. -/
def prRead (s : State) (o : Nat) : BitVec 32 :=
  let p := s.pr
  if o = 0x00 then bitAt p.en 0 ||| bitAt p.unit 1 ||| at32 p.adopt 8
  else if o = 0x08 then
    at32 p.role.code 0 ||| bitAt s.lease 2 ||| bitAt p.lane[0] 3 ||| bitAt p.lane[1] 4 ||| bitAt p.alive 5 |||
      bitAt (windowOf s).isSome 6 ||| at32 p.streak 8 ||| at32 p.partner.code 12
  else if o = 0x0C then at32 p.sticky 0
  else if o = 0x10 then at32 p.intEn 0
  else if o = 0x14 then p.genSent
  else if o = 0x18 then p.genAdopted
  else if o = 0x1C then at32 p.delay 0
  else if o = 0x20 then p.skew
  else if o = 0x24 then at32 p.takeoverUs 0
  else match regIndex o 0x30 3 4 with
  | some k => getN p.cnt k
  | none => 0#32

/-- PR_CFG is written (R362, R369): PAIR_EN changes only in READY with picks stopped; a device whose PAIR_EN is 0 is ALONE. -/
def State.setPairCfg (s : State) (v : BitVec 32) : State :=
  let a := field v 8 5
  let en := bit v 0
  if a.toNat < 2 ∨ 16 < a.toNat ∨ (en ≠ s.pr.en ∧ (s.pw.state ≠ .ready ∨ s.tb.running = true)) then s.prSet 8
  else
    let s1 := s.modPr fun p => { p with en := en, unit := bit v 1, adopt := a }
    let s2 := if en then s1 else ((s1.setRole .alone 0).modPr fun p => { p with sync := none, reqAt := none, retryAt := none }).alvLow
    s2.pllFollow s

/-- A write to the pair link block. -/
def State.prWrite (s : State) (o : Nat) (v : BitVec 32) : State :=
  if o = 0x00 then s.setPairCfg v
  else if o = 0x04 then s.setPairCtrl v
  else if o = 0x0C then s.modPr fun p => { p with sticky := w1c p.sticky v }
  else if o = 0x10 then irqWatch 18 prLevel s (s.modPr fun p => { p with intEn := field v 0 9 })
  else s

/-! ### Warp ring (18_cascade.md) -/

/-- A read of the Warp ring block. -/
def wrRead (s : State) (o : Nat) : BitVec 32 :=
  let r := s.wr
  if o = 0x00 then bitAt r.insert 0
  else if o = 0x04 then
    at32 r.state.code 0 ||| at32 s.boot.cascPos 2 ||| bitAt r.linkIn 8 ||| bitAt r.linkOut 9 ||| bitAt (ringMaster s) 10 |||
      bitAt r.aligned 11 ||| (fins 4).foldl (fun w l => if (r.origin[l]).index.isSome then setBit w (12 + l.val) else w) 0#32
  else if o = 0x08 then at32 r.foreignMax 0 ||| at32 r.stages 8
  else if o = 0x0C then r.skew
  else if o = 0x10 then at32 r.hopIn 0 ||| at32 r.hopOut 16
  else if o = 0x14 then r.cntCrc
  else 0#32

/-- A write to the Warp ring block. -/
def State.wrWrite (s : State) (o : Nat) (v : BitVec 32) : State :=
  if o = 0x00 then rowState (execWrInsertWrite v s) s
  else if o = 0x08 then
    let f := field v 0 8
    let st := field v 8 4
    if f.toNat = 0 ∨ 224 < f.toNat ∨ 8 < st.toNat then s
    else s.modWr fun r => { r with foreignMax := f, stages := st }
  else if o = 0x14 then rowState (execWrCntCrcClear v s) s
  else s

end Sys2Proof.Machine
end

