-- ==== Sys2Proof/Machine/Regs.lean ====
section
/-! DEFINITION. The address map: accesses of the host, the SPI port and Treadle to registers and to SRAM (R13 to R15, R77, R420, R436,
R445). -/
namespace Sys2Proof.Machine

/-- First device address of the register blocks, 1 MiB each (R436). -/
def regBase : Nat := 0x100000000

/-- The power domain of each register block, in the order of R436. -/
def blockDomain : Vector (Fin 13) 19 := #v[0, 0, 3, 3, 4, 4, 7, 8, 9, 9, 9, 1, 10, 10, 11, 11, 11, 12, 4]

/-- The register block of a device address, and the offset in it. -/
def regBlock (a : BitVec 40) : Option (Fin 19 × Nat) :=
  let x := a.toNat - regBase
  if h : regBase ≤ a.toNat ∧ x / 0x100000 < 19 then some (⟨x / 0x100000, h.2⟩, x % 0x100000) else none

/-- The register can be reached: its domain is in IDLE or RUN, or it is one that Reed holds in PD0 (R418, R420). -/
def regUp (s : State) (b : Fin 19) (o : Nat) : Bool := (s.domain blockDomain[b]).up || (decide (b = 7) && reedHeld o)

/-- A read of a register (R6, R436). -/
def regRead (s : State) (b : Fin 19) (o : Nat) : BitVec 32 × State :=
  match b with
  | 0 => (aonRead s o, s)
  | 1 => crRead s o
  | 2 => (hiRead s o, s)
  | 3 => (trRead s o, s)
  | 4 => (lmRead s o, s)
  | 6 => chRead s o
  | 7 => rdRead s o
  | 8 => fbRead s o
  | 9 => ceRead s o
  | 10 => (pgRead s o, s)
  | 11 => (svRead s o, s)
  | 12 => (swRead s o, s)
  | 13 => ntRead s o
  | 14 => (canRead s o, s)
  | 15 => (prRead s o, s)
  | 16 => (wrRead s o, s)
  | 17 => erRead s o
  | 18 => hwRead s o
  | _ => (0#32, s)

/-- A write to a register (R6, R436). -/
def State.regWrite (s : State) (path : Path) (b : Fin 19) (o : Nat) (v : BitVec 32) : State :=
  match b with
  | 0 => s.aonWrite path o v
  | 1 => s.crWrite o v
  | 2 => s.hiWrite o v
  | 3 => s.trWrite o v
  | 4 => s.lmWrite o v
  | 6 => s.chWrite o v
  | 7 => s.rdWrite o v
  | 8 => s.fbWrite o v
  | 9 => s.ceWrite o v
  | 10 => s.pgWrite o v
  | 12 => s.swWrite o v
  | 13 => s.ntWrite o v
  | 14 => s.canWrite o v
  | 15 => s.prWrite o v
  | 16 => s.wrWrite o v
  | 17 => s.erWriteReg o v
  | 18 => s.hwWrite o v
  | _ => s

/-- A word of SRAM that a host may not reach: in the Selvedge partition, or in one whose domain is OFF or RET (R14). -/
def memShut (s : State) (a : Nat) : Bool := decide (partitionOf a = 6) || !(s.domain (domainOf a)).up

/-- A read at a device address: a register, a word of SRAM, or 0 elsewhere; one that meets what is not available returns 0 and is
counted (R14, R420). -/
def busRead (s : State) (path : Path) (a : BitVec 40) : BitVec 32 × State :=
  match regBlock a with
  | some (b, o) => if regUp s b o then regRead s b o else (0#32, s.unavail path false a)
  | none =>
    if a.toNat < Config.sramBytes then
      (if memShut s a.toNat then (0#32, s.unavail path false a) else (s.rd32 a.toNat, s))
    else (0#32, s)

/-- A write at a device address (R14, R15, R420). -/
def State.busPut (s : State) (path : Path) (a : BitVec 40) (v : BitVec 32) : State :=
  match regBlock a with
  | some (b, o) => if regUp s b o then s.regWrite path b o v else s.unavail path true a
  | none =>
    if a.toNat < Config.sramBytes then (if memShut s a.toNat then s.unavail path true a else s.wr32 a.toNat v) else s

/-- The path can reach the address: BAR0 maps the registers and BAR2 the SRAM while PD3 is in RUN, the SPI port both while the device
has supply; 4-byte aligned (R436 to R438, R445). -/
def pathOk (s : State) (path : Path) (a : BitVec 40) : Bool :=
  decide (a.toNat % 4 = 0) &&
  (match path with
   | .bar0 => decide (s.domain 3 = .run) && decide (regBase ≤ a.toNat)
   | .bar2 => decide (s.domain 3 = .run) && decide (a.toNat < Config.sramBytes)
   | .spi => decide (s.pw.state ≠ .off)
   | .treadle => decide (s.domain 3 = .run) && decide (regBase ≤ a.toNat))

/-- REGISTER_WRITE (R6, R14, R420, R436). -/
def execRegisterWrite (path : Path) (addr : BitVec 40) (v : BitVec 32) (s : State) : Res :=
  if pathOk s path addr then .next (s.busPut path addr v) else .next s

/-- UNAVAILABLE_READ (R14, R420): a read through a path; what is available returns its value. -/
def execUnavailableRead (path : Path) (addr : BitVec 40) (s : State) : Res :=
  if pathOk s path addr then
    let r := busRead s path addr
    .next { r.2 with rdata := [r.1] }
  else .next s

/-- HOST_MEMORY_WRITE (R14, R15): a word written through BAR2. -/
def execHostMemoryWrite (addr : BitVec 40) (v : BitVec 32) (s : State) : Res :=
  if pathOk s .bar2 addr then .next (s.busPut .bar2 addr v) else .next s

/-! ### SPI management port (R445) -/

/-- The address is aligned and mapped. -/
def spiMapped (a : BitVec 40) : Bool :=
  decide (a.toNat % 4 = 0) && (decide (a.toNat < Config.sramBytes) || (regBlock a).isSome)

/-- The MISO bytes of a transaction. -/
def State.miso (s : State) (l : List Byte) : State := { s with out := .spi (List.replicate 10 0#8 ++ l) :: s.out }

/-- SPI_WRITE (R445): status OK, or BAD_OPERAND with no effect. -/
def execSpiWrite (addr : BitVec 40) (v : BitVec 32) (s : State) : Res :=
  if s.pw.state = .off then .next s
  else if spiMapped addr then .next ((s.busPut .spi addr v).miso [Status.ok.code])
  else .next (s.miso [Status.badOperand.code])

/-- SPI_READ (R445): four data bytes, least significant first, and the status. -/
def execSpiRead (addr : BitVec 40) (s : State) : Res :=
  if s.pw.state = .off then .next s
  else if spiMapped addr then
    let r := busRead s .spi addr
    .next (({ r.2 with rdata := [r.1] }).miso (natBytes r.1.toNat 4 ++ [Status.ok.code]))
  else .next (s.miso [0#8, 0#8, 0#8, 0#8, Status.badOperand.code])

/-- SPI_OTHER_COMMAND (R445): 11 bytes with another command are answered with BAD_OPCODE. The command bytes of a write and of a read are
not other commands. -/
def execSpiOtherCommand (cmd : BitVec 8) (s : State) : Res :=
  if s.pw.state = .off || decide (cmd = 0x02#8) || decide (cmd = 0x0B#8) then .next s
  else .next (s.miso [Status.badOpcode.code])

/-! ### Treadle (R63, R77) -/

/-- Registers whose RW fields a pair copies (R384). -/
def pairCopied (a : BitVec 40) : Bool :=
  match regBlock a with
  | some (4, o) => decide (o < 0x20)
  | some (6, o) => decide (0x08 ≤ o ∧ o ≤ 0x14) || decide (o = 0x60)
  | some (8, _) => true
  | some (9, _) => true
  | some (10, _) => true
  | some (12, o) => decide (o = 4) || decide (o = 8) || decide (0x100 ≤ o ∧ o < 0x1A0)
  | _ => false

/-- The device address that a word of the flow names (R77). -/
def regAddr (s : State) (f : Fin 16) (w : TWord) : BitVec 40 := ((s.flow f).addr w).setWidth 40

/-- REG.RD (R14, R75, R77): every earlier operation of the flow has been accepted by the time it is performed (R63). -/
def execRegRd (f : Fin 16) (w : TWord) (s : State) : Res :=
  .next (s.local_ f 0x16#8 0#4 w 0#4 0xFFFFFFFF#32 [w.ra, w.rd]
    (fun s => [(!regAddrOk ((s.flow f).addr w), .badOperand)]) fun s =>
    let r := busRead s .treadle (regAddr s f w)
    let v : W64 := r.1.setWidth 64
    r.2.retireOk f w v fun fl => fl.setReg w.rd v)

/-- REG.WR (R14, R75, R77): a write to a register that a pair copies enters the command log (R368). -/
def execRegWr (f : Fin 16) (w : TWord) (s : State) : Res :=
  .next (s.local_ f 0x16#8 1#4 w 0#4 0xFFFFFFFF#32 [w.ra, w.rb]
    (fun s => [(!regAddrOk ((s.flow f).addr w), .badOperand)]) fun s =>
    let a := regAddr s f w
    let v : BitVec 32 := ((s.flow f).reg w.rb).setWidth 32
    let s1 := if leads s && pairCopied a then
        { s with pr.log := s.pr.log ++ [logEntry f (logWord 0x16#8 1#4 { w with rd := 0#5, imm := 0#32 } 0#7) 0#32
            (words64 (a.setWidth 64) ++ [v])] }
      else s
    (s1.retireOk f w 0#64 id).busPut .treadle a v)

end Sys2Proof.Machine
end

