-- ==== Sys2Proof/Machine/Replay.lean ====
section
/-! DEFINITION. The command log of an input record, applied on a device that follows (R368, R369). -/
namespace Sys2Proof.Machine

/-- The 64-bit values of a list of words, low word first. -/
def pairs64 : List (BitVec 32) → List W64
  | a :: b :: r => (b ++ a) :: pairs64 r
  | _ => []

/-- The fields of an instruction word of the log, with its extension words (R55). -/
def logFields (i : W64) (ext : List W64) : TWord :=
  { xw := field i 48 4, rd := field i 43 5, cq := bit i 32, imm := field i 0 32, ext := ext }

/-- The operation that an entry names, for flow 0 (R79, R80). -/
def loggedExec (opc : BitVec 8) (fn : BitVec 4) (w : TWord) (s : State) : Res :=
  match opc.toNat, fn.toNat with
  | 0x20, 0 => execAxisEnable 0 w s
  | 0x20, 1 => execAxisDisable 0 w s
  | 0x20, 2 => execAxisMove 0 w s
  | 0x20, 3 => execAxisStop 0 w s
  | 0x20, 4 => execAxisHome 0 w s
  | 0x20, 5 => execAxisGear 0 w s
  | 0x20, 6 => execAxisClear 0 w s
  | 0x20, 7 => execAxisSetpos 0 w s
  | 0x20, 8 => execAxisParam 0 w s
  | 0x21, 0 => execArmDefine 0 w s
  | 0x21, 1 => execArmEnable 0 w s
  | 0x21, 2 => execArmDisable 0 w s
  | 0x21, 3 => execArmMove 0 w s
  | 0x21, 4 => execArmStop 0 w s
  | 0x21, 5 => if bit w.imm 8 then execArmMpcOn 0 w s else execArmMpcOff 0 w s
  | 0x22, 0 => execLoopLoad 0 w s
  | 0x22, 1 => execLoopSwap 0 w s
  | 0x23, 0 => execFbMode 0 w s
  | 0x23, 1 => execFbCompare 0 w s
  | 0x23, 2 => execFbUnarm 0 w s
  | 0x24, 0 => execSegLoad 0 w s
  | 0x24, 1 => execSegRun 0 w s
  | 0x30, 0 => execDraftLoad 0 w s
  | 0x30, 1 => execDraftBind 0 w s
  | 0x30, 2 => execDraftUnload 0 w s
  | 0x31, 0 => execQpSched 0 w s
  | 0x31, 1 => execQpStart 0 w s
  | 0x31, 2 => execQpStop 0 w s
  | 0x31, 4 => execQpParam 0 w s
  | _, _ => .next s

/-- The state that a command leaves; `s` where there is none. -/
def outState (r : Res) (s : State) : State :=
  match r with
  | .next t => t
  | _ => s

/-- The flow in which an entry runs: it holds no register and nothing in flight, and its operations take numbers that no flow of the
device has. -/
def logFlow : FlowS := { state := .running, prog := some { start := 0, len := Config.sharedWords }, nextOp := 2 ^ 64 }

/-- The state in which the log is applied: as on the active, accepted in the pick before, with the lease (R24, R369). -/
def State.logFrame (s : State) : State :=
  { s with
    tr.flow := upd s.tr.flow 0 fun _ => logFlow
    hi.comp := upd s.hi.comp 0 fun _ => {}
    pw.dom := upd s.pw.dom 3 fun _ => .run
    pr.role := .alone
    tb.timeFix := s.tb.pickTime.toNat * nsUnit - 1
    tb.pickNum := s.tb.pickNum - 1#32
    tb.beatNum := if atBoundary s then s.tb.beatNum - 1#32 else s.tb.beatNum }

/-- One entry of the log is applied; what belongs to the device's own flows, its lease, power and time stays as it was (R368, R369). -/
def State.logApply (s : State) (opc : BitVec 8) (fn : BitVec 4) (body : List (BitVec 32)) : State :=
  if opc = 0x16#8 then
    s.busPut .treadle ((body.getD 4 0#32 ++ body.getD 3 0#32).setWidth 40) (body.getD 5 0#32)
  else
    let i : W64 := body.getD 1 0#32 ++ body.getD 0 0#32
    let t := outState (loggedExec opc fn (logFields i (pairs64 (body.drop 3))) s.logFrame) s
    { t with
      tr := s.tr, cr := s.cr, hi.comp := s.hi.comp, pw := s.pw, pr.role := s.pr.role
      tb := s.tb }

/-- The entries of the log in their order; `fuel` bounds their number (R368, R369). -/
def State.logReplay : Nat → List (BitVec 32) → State → State
  | 0, _, s => s
  | n + 1, l, s =>
    match l with
    | [] => s
    | h :: r =>
      let len := (field h 0 6).toNat
      let i := r.getD 1 0#32
      State.logReplay n (r.drop (len - 1)) (s.logApply (field i 24 8) (field i 20 4) (r.take (len - 1)))

end Sys2Proof.Machine
end

