-- ==== Sys2Proof/Machine/Adopt.lean ====
section
/-! DEFINITION. Adoption on a device that follows: input records, state copies, the digest, and the configuration set (R369 to R372,
R383 to R386). -/
namespace Sys2Proof.Machine

/-! ### Latches of an input record (R368, R369) -/

/-- The signed number that two words from place `i` hold. -/
def recInt (w : List (BitVec 32)) (i : Nat) : Int := (w.getD (i + 1) 0#32 ++ w.getD i 0#32 : BitVec 64).toInt

/-- The latch of channel `c` in a record (R368). -/
def recLatch (w : List (BitVec 32)) (c : Nat) : FbLatch :=
  let i := 8 + 8 * c
  let f := w.getD (i + 6) 0#32
  { x := recInt w i, v := recInt w (i + 2), e := (w.getD (i + 5) 0#32 ++ w.getD (i + 4) 0#32 : BitVec 64).toNat, valid := bit f 0
    standstill := bit f 1, dir := bit f 2 }

/-- A channel takes its values from the record; a channel fault of the active reaches the mapped axis here (R114, R369). -/
def State.adoptChannel (s : State) (w : List (BitVec 32)) (c : Fin 96) : State :=
  let l := recLatch w c.val
  let h := s.ch c
  let s1 := s.modCh c fun h => { h with adopt := some { l with rep := h.latch.rep } }
  if bit (w.getD (8 + 8 * c.val + 6) 0#32) 3 && decide (h.mode ≠ .recovery) then
    let s2 := s1.modCh c fun h => { h with mode := .recovery }
    if h.mapped then s2.faultAxis (Fin.ofNat 80 h.axis.toNat) else s2
  else s1

/-- The drive feedback of an axis in a record (R368). -/
def recDriveFb (w : List (BitVec 32)) (a : Nat) (own : Option DriveFb) : Option DriveFb :=
  let i := 776 + 8 * a
  let f := w.getD (i + 5) 0#32
  if bit f 0 then
    some { pos := w.getD (i + 1) 0#32 ++ w.getD i 0#32, vel := w.getD (i + 3) 0#32 ++ w.getD (i + 2) 0#32, torq := w.getD (i + 4) 0#32
           enabled := bit f 1, fault := bit f 2, ack := (own.map fun d => d.ack).getD 0#32 }
  else none

/-- The latches of a record replace the device's own, but for Selvedge (R369). -/
def State.adoptLatches (s : State) (w : List (BitVec 32)) : State :=
  let s1 := s.forEach (fins 96) fun s c => s.adoptChannel w c
  let dr : Vector Drive 80 := Vector.ofFn fun a => { s1.dr[a] with latched := recDriveFb w a.val (s1.dr[a]).latched }
  { s1 with dr := dr }

/-! ### State copies (R386) -/

/-- The state copy of the present pick (R386). -/
def copyOf (s : State) : CopySet :=
  { gen := s.pr.genSent + 1#32, pick := s.tb.pickNum, cell := s.cell, arm := s.ce.arm, sl := s.ce.sl, pg := s.pg, fb := s.fb.ch
    psi := s.qp.psi, psiAt := s.qp.psiAt, seq := s.sl.ax.toList.map fun x => x.seqTx, carry := carryBytes s }

/-- A loop slice with the state that a copy holds (R386). -/
def Slice.adopt (l c : Slice) : Slice :=
  { l with
    xr := c.xr, vr := c.vr, vrPrev := c.vrPrev, rem := c.rem, ic := c.ic, uPrev := c.uPrev, satdir := c.satdir, limit := c.limit
    h0 := c.h0, h1 := c.h1, bankSel := c.bankSel }

/-- A feedback channel with the state that a copy holds (R386). -/
def FbCh.takeCopy (h c : FbCh) : FbCh :=
  { h with
    raw := c.raw, rep := c.rep, dirNeg := c.dirNeg, p := c.p, cnt := c.cnt, lastSame := c.lastSame, e := c.e, rawE := c.rawE
    armed := c.armed, cmp := c.cmp, cmpTrig := c.cmpTrig, cmpTime := c.cmpTime, mode := c.mode }

/-- A state copy is adopted (R386). -/
def State.adoptCopy (s : State) (c : CopySet) : State :=
  let sl : Vector Slice 80 := Vector.ofFn fun a => (s.slice a).adopt c.sl[a]
  let ax : Vector PgAxis 80 := Vector.ofFn fun a =>
    { c.pg.ax[a] with param := (s.pax a).param, sticky := (s.pax a).sticky, intEn := (s.pax a).intEn }
  let arms : Vector Arm 8 := Vector.ofFn fun r => { s.armDef r with mpc := (c.cell.arm[r]).mpc }
  let seq : Vector SlAxis 80 := Vector.ofFn fun a => { s.sl.ax[a] with seqTx := c.seq.getD a.val 0#16 }
  let s1 : State := { s with
    cell := { ax := c.cell.ax, arm := arms }, ce := { sl := sl, arm := c.arm }
    pg := { s.pg with
      ax := ax, mv := c.pg.mv, sigma := c.pg.sigma, tgt := c.pg.tgt, auxSigma := c.pg.auxSigma, auxTgt := c.pg.auxTgt
      freeSigma := c.pg.freeSigma }
    fb.ch := Vector.ofFn fun i => (s.ch i).takeCopy c.fb[i]
    qp.psi := c.psi, qp.psiAt := c.psiAt, sl.ax := seq, pr.genAdopted := c.gen }
  s1.forEach c.carry fun s q => s.wrBytes q.1 q.2

/-- The copy that a device in SYNCING adopts with a record: newer than the last one adopted, and the one that the record names (R386). -/
def copyFor (s : State) (prevGen : BitVec 32) : Option CopySet :=
  s.pr.copy.filter fun c => newer c.gen s.pr.genAdopted && decide (c.gen = prevGen)

/-! ### Divergence (R371, R387) -/

/-- A divergence: SYNCING, no more sending, the record and the counter; resynchronisation goes on from the state copies (R371, R387). -/
def State.diverge (s : State) (k own other : BitVec 32) : State :=
  let s1 := ((s.setRole .syncing 5).emit 20 0x004#12 [k, own, other]).prSet 3
  let s2 := (s1.modPr fun p => { p with
    cnt := upd p.cnt 0 satInc, streak := 0#2, misses := 0, sync := some { at_ := s1.now, step := 3#3 } }).dropSetpoints
  s2.pairFaultFound 0x004#12 false

/-- A match in SYNCING; the third in a row makes the device STANDBY (R383, R386, R387). -/
def State.streakUp (s : State) : State :=
  let n := s.pr.streak + 1#2
  let s1 := s.modPr fun p => { p with streak := n }
  if n = 3#2 then
    ((((s1.setRole .standby 1).emit 20 0x006#12 [s.tb.pickNum]).prSet 6).modPr fun p => { p with sync := none, retryAt := none }).pairClose
  else s1

/-- The digest of the pick before is compared with that of the record, when both devices adopted that pick; `copied` says that a copy
was adopted (R371, R386). -/
def State.compareDigest (s : State) (w : List (BitVec 32)) (copied : Bool) : State :=
  let other := w.getD 3 0#32
  match (if bit (w.getD 5 0#32) 1 then s.pr.digestOwn else none) with
  | some own =>
    if s.pr.role = .standby then (if own = other then s else s.diverge (s.tb.pickNum - 1#32) own other)
    else if s.pr.role = .syncing then
      (if own = other && copied then s.streakUp else s.modPr fun p => { p with streak := 0#2 })
    else s
  | none => if s.pr.role = .syncing && !copied then s.modPr fun p => { p with streak := 0#2 } else s

/-! ### The pick of a device that follows (R369) -/

/-- The pick is adopted from its input record (R369 to R372, R386). -/
def State.adoptPick (s : State) (w : List (BitVec 32)) : State :=
  let c := if s.pr.role = .syncing then copyFor s (w.getD 6 0#32) else none
  let s1 := match c with
    | some c => s.adoptCopy c
    | none => s
  let s2 := State.logReplay (w.getD 7 0#32).toNat (w.drop 1416) s1
  let s3 := (s2.adoptLatches w).compareDigest w c.isSome
  (s3.pickWork (if bit (w.getD 5 0#32) 0 then some (w.getD 4 0#32) else none)).modPr fun p => { p with
    await := false, early := none, misses := 0 }

/-- The pick is unadopted (R369, R371). A second one in a row while heartbeats arrive is treated as a divergence; the digests of its
record are free values. -/
def State.missPickRecord (s : State) : State :=
  let n := s.pr.misses + 1
  let s1 := ((s.modPr fun p => { p with misses := n, cnt := upd p.cnt 1 satInc, await := false, early := none }).emit 20 0x009#12
    [s.tb.pickNum]).prSet 4
  let s2 :=
    if s1.pr.role = .standby && decide (2 ≤ n) && decide (s1.now < s1.pr.heard + 30000) then
      let a := s1.takeFresh
      let b := a.2.takeFresh
      b.2.diverge s.tb.pickNum (Config.free32 a.1) (Config.free32 b.1)
    else if s1.pr.role = .syncing then s1.modPr fun p => { p with streak := 0#2 } else s1
  s2.pickWork none

/-- ADOPT_LIMIT_EXPIRE (R369, R371): the record is not complete by t_k + ADOPT. -/
def State.adoptLimit (s : State) : State :=
  if s.pr.await then (s.reach (s.tb.pickTime.toNat + 1000 * s.pr.adopt.toNat)).missPickRecord else s

/-- ADOPT_LIMIT_EXPIRE (R369, R371). -/
def execAdoptLimitExpire (s : State) : Res := .next s.adoptLimit

/-- INPUT_RECORD_RECEIVE (R365, R369): a complete input record of the present pick is adopted; one of the next pick is kept for it. -/
def execInputRecordReceive (frames : List (List (BitVec 32))) (s : State) : Res :=
  if !s.pr.en || !pairUp s then .next s
  else
    let o := linkObject 1 frames
    let s1 := s.pairBad o.1
    match o.2 with
    | some (k, ws) =>
      if !follows s1 || !s1.tb.running then .next s1
      else if k = s1.tb.pickNum && s1.pr.await then .next (s1.adoptPick ws)
      else if k = s1.tb.pickNum + 1#32 then .next (s1.modPr fun p => { p with early := some ws })
      else .next s1
    | none => .next s1

/-- STATE_COPY_SEND (R386): the active sends the state copy of the present pick, once. -/
def execStateCopySend (s : State) : Res :=
  if leads s && pairSends s && s.tb.running && decide (s.pr.copyPick ≠ some s.tb.pickNum) then
    let c := copyOf s
    let s1 := s.modPr fun p => { p with genSent := c.gen, copyPick := some s.tb.pickNum, seqTx := p.seqTx + 1#32 }
    .next { s1 with out := .copy c :: s1.out }
  else .next s

/-- STATE_COPY_RECEIVE (R365, R386): a complete copy is kept for the next pick, and acknowledged. -/
def execStateCopyReceive (bad : Bool) (c : CopySet) (s : State) : Res :=
  if !s.pr.en || !pairUp s then .next s
  else if bad then .next (s.pairBad 1)
  else if follows s then .next (s.modPr fun p => { p with copy := some c, gotGen := c.gen })
  else .next s

/-! ### The configuration set (R383, R384) -/

/-- A feedback channel with copied configuration registers; its count starts anew (R107, R384). -/
def FbCh.copyCfg (h c : FbCh) (t : Nat) : FbCh :=
  ({ h with
      inmode := c.inmode, invDir := c.invDir, filt := c.filt, axis := c.axis, mapped := c.mapped, debounce := c.debounce, tss := c.tss
      ssiDiv := c.ssiDiv, gray := c.gray, parity := c.parity, bits := c.bits, jumpMax := c.jumpMax, lead := c.lead
      cfgNext := none, timingNext := none, ssiNext := none, leadNext := none, intEn := c.intEn }).restart t

/-- A slice with copied registers and banks (R384). -/
def Slice.copyCfg (l c : Slice) : Slice :=
  { l with
    outmode := c.outmode, src := c.src, ch := c.ch, missMax := c.missMax, cfgNext := c.cfgNext, posOff := c.posOff
    vmax := c.vmax, vmaxLo := c.vmaxLo, vmaxNext := c.vmaxNext, amax := c.amax, amaxLo := c.amaxLo, amaxNext := c.amaxNext
    kc := c.kc, kcNext := c.kcNext, lockX := c.lockX, intEn := c.intEn
    bankA := c.bankA, bankB := c.bankB, bankSel := c.bankSel, loaded := c.loaded }

/-- A stepper link with copied registers (R384). -/
def StlLink.copyCfg (l c : StlLink) : StlLink :=
  { l with axis := c.axis, en := c.en, inv := c.inv, sub := c.sub, div := c.div, mscale := c.mscale, addrOff := c.addrOff
           subActive := c.subActive, sent := false }

/-- Churn with copied settings (R384). -/
def Churn.copyCfg (q c : Churn) : Churn :=
  { q with
    sched := c.sched, planning := c.planning, formSlot := c.formSlot, startAt := none, stopAt := [], insts := [], curValid := c.curValid
    curBuf := c.curBuf, curExpired := c.curExpired, curIndex := c.curIndex, curSig := c.curSig, withdrawn := c.withdrawn, waiting := none
    costSel := c.costSel, costBase := c.costBase, tolP := c.tolP, tolD := c.tolD, tolGap := c.tolGap
    dregExp := c.dregExp, epivExp := c.epivExp, cap := c.cap, sig := c.sig, nwLoaded := c.nwLoaded }

/-- One block of the configuration set is taken over (R384). -/
def State.cfgTake (s : State) (p : CfgPart) : State :=
  match p with
  | .channel c h => s.modCh c fun x => x.copyCfg h s.now
  | .slice a l => s.modSlice a fun x => x.copyCfg l
  | .axis a v => s.modPax a fun x => { x with param := v, deferred := [] }
  | .arm r m => s.modArm r fun x => { x with first := m.first, count := m.count }
  | .trig t w pol => { s with fb.trig := upd s.fb.trig t fun g => { g with width := w, pol := pol } }
  | .scale d => { s with pg.dsUp := d }
  | .segments k t => { s with pg.slot := upd s.pg.slot k fun _ => t }
  | .link n l => s.modStl n fun x => x.copyCfg l
  | .weights w => { s with lm.weight := w }
  | .draft d x img => (s.wrBytes (slotBase d) img).modSlot d fun _ => { x with insts := [] }
  | .churn q sched cost sol =>
    let s1 := { s with qp := s.qp.copyCfg q }
    ((s1.wrBytes chBase sched).wrBytes (costHalf s1 false) cost).wrBytes (chSol q.curBuf) sol
  | .drive ty o g => s.modSw fun w => { w with etype := ty, offset := o, grp := g }
  | .timeBase per n net pick beat =>
    (s.modTb fun t => { t with activePeriod := per, activeN := n }).modPr fun p =>
      { p with sync := p.sync.map fun y => { y with start := some (net, pick, beat) } }

/-- CONFIG_FRAME_RECEIVE (R365, R383, R384): the blocks arrive in order; the last one completes step 2. -/
def execConfigFrameReceive (bad : Bool) (block : BitVec 32) (last : Bool) (part : CfgPart) (s : State) : Res :=
  if !s.pr.en || !pairUp s then .next s
  else if bad then .next (s.pairBad 1)
  else
    match s.pr.role, s.pr.sync with
    | .syncing, some y =>
      if block = y.block then
        let s1 := (s.cfgTake part).modPr fun p => { p with sync := p.sync.map fun y =>
          { y with block := y.block + 1#32, cfg := y.cfg || last, step := if last && decide (y.step.toNat < 2) then 2#3 else y.step } }
        .next (syncAdvance s1)
      else .next s
    | _, _ => .next s

end Sys2Proof.Machine
end

