-- ==== Sys2Proof/Machine/Ecc.lean ====
section
/-! DEFINITION. Uncorrectable memory errors: their counts, their records and their effects (R16, R103, R191, R352, R413, R431). -/
namespace Sys2Proof.Machine

/-- The record of an uncorrectable error where no chapter gives its CODE: SRC is the owner of the word, CODE is free, and it has no
payload (R16). DESIGN CHOICE (log 33). -/
def State.eccRecord (s : State) (src : Nat) : State :=
  let k := s.takeFresh
  k.2.emit src ((Config.free32 k.1).setWidth 12) []

/-- Reed: the frame of a staging slot is lost, and a fusion cycle that uses it publishes nothing (R16, R232). -/
def State.eccFrame (s : State) (i : Fin 8) (j : Fin 3) : State :=
  let s1 := (s.modSens i fun t => { t with order := t.order.filter fun k => decide (k ≠ j) }).freeSlot i j
  s1.modRd fun r => { r with fusing := r.fusing.filter fun c => !c.frames.contains (i, j) }

/-- Reed: the cycle that read the word publishes nothing: the oldest query cycle of the channel, or with none in channel A the cycle
being fused (R16). -/
def State.eccCycle (s : State) (chB : Bool) : State :=
  s.modRd fun r =>
    if chB then { r with chB := r.chB.drop 1 }
    else if r.chA.isEmpty then { r with fusing := none }
    else { r with chA := r.chA.drop 1 }

/-- Churn: the running solve ends with a memory error, which counts as a failed one; a QP.SUBMIT completes with ABORTED and only the
header of its result (R16, R191, R201). The iteration and the pivots reached are not stated: free values. -/
def State.eccSolve (s : State) : State :=
  let k := s.takeFresh
  let it := (Config.free32 k.1).setWidth 8
  let ends := fun (s : State) (index : BitVec 32) =>
    ((s.qpCount 2 1).lastSolve 4#3 it index).emit 8 0x002#12 [2#32 ||| at32 it 8, index]
  match s.qp.insts with
  | i :: rest => if i.solving then ends (k.2.modQp fun q => { q with insts := rest }) i.index else s.eccRecord 8
  | [] =>
    match s.qp.jobs with
    | j :: rest =>
      if j.submit && j.solving then
        let a := j.w0.toNat
        let n := k.2.freeNorms
        let p := n.2.takeFresh
        let r : QpResult := { mem := s.mem, how := .nanAbort, iter := it.toNat, pivots := (Config.free32 p.1).toNat, norms := none }
        let ws := (solutionWords s.mem a r n.1).modify 0 fun w => clearBit w 21
        let s1 := ends (p.2.modQp fun q => { q with jobs := rest }) (iWord s.mem a 3)
        ((s1.wrBytes j.w1.toNat (wordsBytes ws)).opDone j.flow j.op .aborted 0#8 none).nextJob
      else s.eccRecord 8
    | [] => s.eccRecord 8

/-- Loom: the device enters SAFE_HOLD (R16); in a pair it is a pair fault of this device (R387, R388). -/
def State.eccLoom (s : State) : State :=
  let k := s.takeFresh
  let f : Nat × BitVec 12 := (5, (Config.free32 k.1).setWidth 12)
  let s1 := k.2.emit f.1 f.2 []
  match paired s1, windowOf s1 with
  | true, some g => s1.doubleFault g f
  | true, none => ((s1.pairCtl (.fault f)).enterSafeHold 2).pairMute
  | false, _ => s1.enterSafeHold 2

/-- CAN: the object is marked invalid, its pending request ends, and it passes to host firmware (R352). -/
def State.eccCan (s : State) (n : Fin 4) (j : Fin 128) : State :=
  (s.modCan n fun c =>
    let mine := c.tx.elim false fun t => decide (t.obj = j)
    { c with
      invalid := setBit c.invalid j.val, txPend := clearBit c.txPend j.val
      tx := if mine then none else c.tx, cancel := c.cancel && !mine }).canSet n 8

/-- Switch: the frame is discarded and counted (R16). -/
def State.eccTx (s : State) (p c : Fin 8) (i : Nat) : State :=
  match ((s.sw.port[p]).q[c])[i]? with
  | some f => ((s.modPort p fun t => { t with q := upd t.q c fun q => q.eraseIdx i }).ptCount p 2).frameGone f true
  | none => s

/-- Treadle: the instruction that a running flow executes next completes with INTERNAL, and the flow stops (R16, R70). -/
def State.eccInstr (s : State) (f : Fin 16) (opc : BitVec 8) (fn : BitVec 4) (w : TWord) : State :=
  if !flowTakes s f then s.eccRecord 4
  else s.take f opc fn w [] fun s1 =>
    let pc := (s1.flow f).pc
    (s1.stopFlow f pc).modFlow f fun fl => (fl.complete w.cq .internal 0#8 0#64).advance w.xw

/-- The record that holds word `i` of the ring: its first word and its length, searched from index `p` with `left` words before HEAD;
`fuel` bounds the records. -/
def recHolding (m : List Host.Cell) (i : Nat) : Nat → Nat → Nat → Option (Nat × Nat)
  | 0, _, _ => none
  | fuel + 1, p, left =>
    if left = 0 then none
    else
      let l := Nat.max 1 (field (ringWord m Config.ringBase Config.ringWords p) 0 8).toNat
      if (i + Config.ringWords - p) % Config.ringWords < l then some (p, l)
      else recHolding m i fuel ((p + l) % Config.ringWords) (left - l)

/-- Event recorder: the record that holds the word leaves the ring, the records after it close up, and it is counted as lost (R413).
That the ring closes up is a DESIGN CHOICE (log 33): the spec does not say where the words of the record go. -/
def State.eccRing (s : State) (a : Nat) : State :=
  let i := (a - Config.ringBase) / 4
  let size := Config.ringWords
  let g := s.er.ring
  match recHolding s.mem i g.used g.tail g.used with
  | none => s
  | some (p, l) =>
    let after := (g.head + size - p) % size - l
    let ws := ringGet s.mem Config.ringBase size (p + l) after
    let later := fun (q : Nat) => decide ((q + size - g.tail) % size > (p + size - g.tail) % size)
    let back := fun (q : Nat) => (q + size - l) % size
    let unread := decide ((p + size - g.tail) % size ≥ g.used - s.er.unread)
    { s with
      mem := ringPut Config.ringBase size s.mem p ws
      er := { s.er with
        cntLost := satInc s.er.cntLost
        cur := if unread then s.er.cur else back s.er.cur
        unread := if unread then s.er.unread - l else s.er.unread
        ring := { g with
          head := back g.head, used := g.used - l
          newest := g.newest.map fun q => q.bind fun q => if q = p then none else some (if later q then back q else q) } } }

/-- Selvedge: the channel that owns the word declares a channel fault, or logs the error in the state it is in (R16, R267). -/
def State.eccSelvedge (s : State) (a : Nat) : State :=
  let c : Fin 2 := if a < 0x3F00000 then 0 else 1
  if (s.svCh c).forced then (s.svRec c 0x00C#12 [6#32]).svFault c 6 else s.svFault c 6

/-- The effect of an uncorrectable error in the word at `a` (R16). `w` says what the word holds; a word that holds nothing in use has
no effect beyond its count and record. -/
def State.eccEffect (s : State) (a : Nat) (w : MemWord) : State :=
  match partitionOf a, w with
  | 0, .reedFrame i j => (s.eccFrame i j).eccRecord 9
  | 0, .reedCycle b => (s.eccCycle b).eccRecord 9
  | 0, _ => s.eccRecord 9
  | 1, .solve => s.eccSolve
  | 1, .solution => (s.modQp fun q => { q with withdrawn := q.withdrawn || q.curValid }).eccRecord 8
  | 1, _ => s.eccRecord 8
  | 2, _ => s.eccLoom
  | 3, .node sh =>
    match s.lm.shuttle[sh] with
    | some (r, true) => (s.completeNode sh r .none (some 2)).eccRecord 6
    | _ => s.eccRecord 6
  | 3, _ => s.eccRecord 6
  | 4, .axis x => (s.faultAxis x).eccRecord 12
  | 4, .can n j => (s.eccCan n j).eccRecord 19
  | 4, .frame p c i => (s.eccTx p c i).eccRecord 17
  | 4, .instr f opc fn x => s.eccInstr f opc fn x
  | 4, _ => s.eccRecord 7
  | 5, _ => (s.eccRing a).eccRecord 22
  | 6, _ => s.eccSelvedge a

/-- ECC_UNCORRECTABLE (R16, R431): an uncorrectable error is found in a word of a powered partition. -/
def execEccUncorrectable (a : BitVec 40) (w : MemWord) (s : State) : Res :=
  if a.toNat < Config.sramBytes ∧ (s.domain (domainOf a.toNat)).up then
    .next ({ s with hw.unc := upd s.hw.unc (partitionOf a.toNat) satInc }.eccEffect a.toNat w)
  else .next s

end Sys2Proof.Machine
end

