-- ==== Sys2Proof/Machine/Pick.lean ====
section
/-! DEFINITION. The pick instant (R22, R39 to R45, R369). -/
namespace Sys2Proof.Machine

/-- The pick after its latches: at once on a device that uses its own; after its input record on a device that follows; not at all in
SYNCING while the link is down (R362, R369). -/
def State.runPick (s : State) : State :=
  if follows s then
    if s.pr.role = .syncing && !pairUp s then s
    else
      match s.pr.early with
      | some ws => (s.modPr fun p => { p with early := none }).adoptPick ws
      | none => s.modPr fun p => { p with await := true }
  else s.pickWork none

/-- PICK_INSTANT (R44): cell time moves on to the next pick instant, with what R44, R22 and R369 place there. -/
def execPickInstant (s : State) : Res :=
  if s.tb.running && s.pw.state.live then .next (s.adoptLimit.startPick.runPick) else .next s

end Sys2Proof.Machine
end

