-- ==== Sys2Proof/Machine/TreadleLocal.lean ====
section
/-! DEFINITION. The local instructions of Treadle but for register accesses: no operation, end, branches, waits, flow control,
arithmetic, comparisons, immediates, loads and stores (R75 to R78). -/
namespace Sys2Proof.Machine


/-- NOP: no effect (R75). -/
def execNop (f : Fin 16) (w : TWord) (s : State) : Res :=
  .next (s.local_ f 0x00#8 0#4 w 0#4 0#32 [] (fun _ => []) fun s => s.retireOk f w 0#64 id)

/-- END: the programme ends with the result T[RA] (R52, R72, R75). -/
def execEndProg (f : Fin 16) (w : TWord) (s : State) : Res :=
  .next (s.local_ f 0x00#8 1#4 w 0#4 0#32 [w.ra] (fun _ => []) fun s =>
    s.modFlow f fun fl => fl.endProgramme .ok fl.pc (fl.reg w.ra))

/-! ### Branches -/

/-- Target of a relative branch: PC + sext(IMM) words, counted from the branch (R75). -/
def branchTarget (fl : FlowS) (w : TWord) : Int := (fl.pc.toNat : Int) + w.imm.toInt

/-- A branch target outside the Shared data partition (R467). -/
def badTarget (t : Int) : Bool := decide (t < 0) || decide ((Config.sharedWords : Int) ≤ t)

/-- A branch retires and execution goes on at word `t`. -/
def State.branchTo (s : State) (f : Fin 16) (w : TWord) (t : Nat) (result : W64) (g : FlowS → FlowS) : State :=
  s.modFlow f fun fl => { (g fl).complete w.cq .ok 0#8 result with pc := BitVec.ofNat 21 t }

/-- A relative branch, taken when `take` holds (R75, R467). -/
def relBranch (f : Fin 16) (fn : BitVec 4) (w : TWord) (bad : Bool) (take : FlowS → Bool) (s : State) : State :=
  s.local_ f 0x01#8 fn w 0#4 0xFFFFFFFF#32 []
    (fun s => [(bad, .badOperand), (badTarget (branchTarget (s.flow f) w), .badOperand)]) fun s =>
    if take (s.flow f) then s.branchTo f w (branchTarget (s.flow f) w).toNat 0#64 id else s.retireOk f w 0#64 id

/-- BR (R75). -/
def execBr (f : Fin 16) (w : TWord) (s : State) : Res := .next (relBranch f 0#4 w false (fun _ => true) s)

/-- BR.T: as BR when P[RB] is 1 (R75). -/
def execBrT (f : Fin 16) (w : TWord) (s : State) : Res := .next (relBranch f 1#4 w (badPred w.rb) (fun fl => fl.pred w.rb) s)

/-- BR.F: as BR when P[RB] is 0 (R75). -/
def execBrF (f : Fin 16) (w : TWord) (s : State) : Res := .next (relBranch f 2#4 w (badPred w.rb) (fun fl => !fl.pred w.rb) s)

/-- BR.LINK: RD takes the index of the word after the branch; then as BR (R75, R467). -/
def execBrLink (f : Fin 16) (w : TWord) (s : State) : Res :=
  .next (s.local_ f 0x01#8 3#4 w 0#4 0xFFFFFFFF#32 [w.rd]
    (fun s => [(badTarget (branchTarget (s.flow f) w), .badOperand)]) fun s =>
    let link := BitVec.ofNat 64 ((s.flow f).pc.toNat + 1)
    s.branchTo f w (branchTarget (s.flow f) w).toNat link fun fl => fl.setReg w.rd link)

/-- BR.REG: the programme counter takes T[RA][20:0] (R75, R467). -/
def execBrReg (f : Fin 16) (w : TWord) (s : State) : Res :=
  .next (s.local_ f 0x01#8 4#4 w 0#4 0#32 [w.ra]
    (fun s => [(badTarget (((s.flow f).reg w.ra).setWidth 21).toNat, .badOperand)]) fun s =>
    s.branchTo f w (((s.flow f).reg w.ra).setWidth 21).toNat 0#64 id)

/-! ### Waits -/

/-- A WAIT instruction begins (R54, R75). -/
def State.beginWait (s : State) (f : Fin 16) (w : TWord) (c : WaitCond) : State :=
  s.modFlow f fun fl => { fl with wait := some c, waitCq := w.cq, state := .waiting }

/-- The target lies more than 2^30 steps ahead of the present number (R78). -/
def farAhead (target present : BitVec 32) : Bool :=
  newer target present && decide (2 ^ 30 < (target - present).toNat)

/-- WAIT.PICK (R75, R78): until pick number T[RA] + IMM is not newer than the current pick. -/
def execWaitPick (f : Fin 16) (w : TWord) (s : State) : Res :=
  .next (s.local_ f 0x02#8 0#4 w 0#4 0xFFFFFFFF#32 [w.ra]
    (fun s => [(farAhead (((s.flow f).reg w.ra).setWidth 32 + w.imm) s.tb.pickNum, .range), (!s.tb.running, .state)]) fun s =>
    let target := ((s.flow f).reg w.ra).setWidth 32 + w.imm
    if newer target s.tb.pickNum then s.beginWait f w (.pick target) else s.retireOk f w 0#64 id)

/-- WAIT.BEAT (R75, R78): until IMM further beat boundaries have passed. -/
def execWaitBeat (f : Fin 16) (w : TWord) (s : State) : Res :=
  .next (s.local_ f 0x02#8 1#4 w 0#4 0xFFFFFFFF#32 []
    (fun s => [(decide (2 ^ 30 < w.imm.toNat), .range), (!s.tb.running, .state)]) fun s =>
    if w.imm = 0#32 then s.retireOk f w 0#64 id else s.beginWait f w (.beat (s.tb.beatNum + w.imm)))

/-- WAIT.TIME (R75): until cell time reaches T[RA] + IMM ns. -/
def execWaitTime (f : Fin 16) (w : TWord) (s : State) : Res :=
  .next (s.local_ f 0x02#8 2#4 w 0#4 0xFFFFFFFF#32 [w.ra] (fun _ => []) fun s =>
    let t := ((s.flow f).reg w.ra + w.uimm).toNat
    if t ≤ s.now then s.retireOk f w 0#64 id else s.beginWait f w (.time t))

/-- WAIT.OPS (R63): until every earlier device operation of the flow has completed. -/
def execWaitOps (f : Fin 16) (w : TWord) (s : State) : Res :=
  .next (s.local_ f 0x02#8 3#4 w 0#4 0#32 [] (fun _ => []) fun s =>
    if (s.flow f).ops.isEmpty then s.retireOk f w 0#64 id else s.beginWait f w (.ops (s.flow f).nextOp))

/-- Earlier operations of the flow on the axis whose effect pick is still to come (R64). -/
def axisPending (s : State) (f : Fin 16) (a : Fin 80) (before : Nat) : Bool :=
  s.pend.any fun e => decide (e.flow = f) && decide (e.op < before) && decide (a ∈ e.axes)

/-- The wait condition of the flow holds (R63, R64, R75). -/
def waitHolds (s : State) (f : Fin 16) : WaitCond → Bool
  | .pick t => !newer t s.tb.pickNum
  | .beat t => !newer t s.tb.beatNum
  | .time t => decide (t ≤ s.now)
  | .ops before => !(s.flow f).ops.any fun o => decide (o.id < before)
  | .axis a before => !axisPending s f a before && (s.axis a).state.rests

/-- WAIT.AXIS (R64, R75): until the flow's earlier operations on the axis have taken effect, and then until the axis rests. -/
def execWaitAxis (f : Fin 16) (w : TWord) (s : State) : Res :=
  .next (s.local_ f 0x02#8 4#4 w 0#4 0x7F#32 [w.ra]
    (fun s => [(decide (80 ≤ ((s.flow f).obj w).toNat), .badOperand)]) fun s =>
    let c := WaitCond.axis (Fin.ofNat 80 ((s.flow f).obj w).toNat) (s.flow f).nextOp
    if waitHolds s f c then s.retireOk f w 0#64 id else s.beginWait f w c)

/-- A WAIT instruction of the flow completes with a status and the flow goes on at the next word. -/
def FlowS.endWait (fl : FlowS) (st : Status) : FlowS :=
  ({ fl with wait := none, state := .running }.complete fl.waitCq st 0#8 0#64).advance 0#4

/-- WAIT_COMPLETE (R54, R63, R64, R75): a WAIT whose condition holds completes. -/
def execWaitComplete (f : Fin 16) (s : State) : Res :=
  match (s.flow f).wait with
  | some c => if flowsRun s && waitHolds s f c && !compBlocked s f then .next ((s.coreClock f).modFlow f fun fl => fl.endWait .ok) else .next s
  | none => .next s

/-- Every WAIT.PICK and WAIT.BEAT in progress completes with ABORTED when picks stop (R78). -/
def State.abortPickWaits (s : State) : State :=
  s.forEach (fins 16) fun s f =>
    match (s.flow f).wait with
    | some (.pick _) => s.modFlow f fun fl => fl.endWait .aborted
    | some (.beat _) => s.modFlow f fun fl => fl.endWait .aborted
    | _ => s

/-! ### Flow control -/

/-- Code of a flow state (TR_FLOW_STATUS_n). -/
def FlowState.code : FlowState → BitVec 3
  | .idle => 0#3 | .running => 1#3 | .waiting => 2#3 | .fenced => 3#3 | .stopped => 4#3

/-- The flow that OBJ names. -/
def objFlow (s : State) (f : Fin 16) (w : TWord) : Fin 16 := Fin.ofNat 16 ((s.flow f).obj w).toNat

/-- OBJ names no host flow, or the instruction's own flow where that is refused (R58, R69, R71). -/
def badFlow (s : State) (f : Fin 16) (w : TWord) (own : Bool) : Bool :=
  decide (16 ≤ ((s.flow f).obj w).toNat) || (own && decide (((s.flow f).obj w).toNat = f.val))

/-- The state of a flow as 64 bits. -/
def flowCode (s : State) (g : Fin 16) : W64 := ((s.flow g).state.code).setWidth 64

/-- FLOW.RESUME (R69): a flow in FENCED or STOPPED returns to normal execution at its next programme boundary. -/
def execFlowResume (f : Fin 16) (w : TWord) (s : State) : Res :=
  .next (s.local_ f 0x03#8 0#4 w 0#4 0x7F#32 [w.ra, w.rd] (fun s => [(badFlow s f w true, .badOperand)]) fun s =>
    let g := objFlow s f w
    let prior := flowCode s g
    if (s.flow g).state = .fenced ∨ (s.flow g).state = .stopped then
      let s1 := s.emit 4 0x002#12 [nat32 g.val 0 ||| nat32 f.val 4]
      let s2 := s1.modFlow g fun fl => if fl.prog.isNone then { fl with state := .idle } else { fl with resumeReq := true }
      s2.retireOk f w prior fun fl => fl.setReg w.rd prior
    else
      s.modFlow f fun fl => ((fl.setReg w.rd prior).complete w.cq .ok flagNoEffect prior).advance w.xw)

/-- FLOW.STATE (R75): RD takes the state code of the flow. -/
def execFlowState (f : Fin 16) (w : TWord) (s : State) : Res :=
  .next (s.local_ f 0x03#8 1#4 w 0#4 0x7F#32 [w.ra, w.rd] (fun s => [(badFlow s f w false, .badOperand)]) fun s =>
    let v := flowCode s (objFlow s f w)
    s.retireOk f w v fun fl => fl.setReg w.rd v)

/-- FLOW.ABORT (R71): a WAIT in progress on the target completes with ABORTED at once; the rest follows at the target's next
instruction boundary. -/
def execFlowAbort (f : Fin 16) (w : TWord) (s : State) : Res :=
  .next (s.local_ f 0x03#8 2#4 w 0#4 0x7F#32 [w.ra] (fun s => [(badFlow s f w true, .badOperand)]) fun s =>
    let g := objFlow s f w
    let s1 := s.emit 4 0x003#12 [nat32 g.val 0 ||| nat32 f.val 4]
    let s2 := s1.modFlow g fun fl => if fl.wait.isSome || fl.prog.isNone then fl.abortEffect else { fl with abortReq := true }
    s2.retireOk f w 0#64 id)

/-! ### Arithmetic and comparison -/

/-- An ALU instruction on two registers (R75, R76). -/
def aluReg (op : AluOp) (f : Fin 16) (w : TWord) (s : State) : State :=
  s.local_ f 0x10#8 op.fn w 0#4 0#32 [w.ra, w.rb, w.rd] (fun _ => []) fun s =>
    let v := op.eval ((s.flow f).reg w.ra) ((s.flow f).reg w.rb)
    s.retireOk f w v fun fl => fl.setReg w.rd v

/-- An ALU instruction on a register and sext(IMM) (R75, R76). -/
def aluImm (op : AluOp) (f : Fin 16) (w : TWord) (s : State) : State :=
  s.local_ f 0x11#8 op.fn w 0#4 0xFFFFFFFF#32 [w.ra, w.rd] (fun _ => []) fun s =>
    let v := op.eval ((s.flow f).reg w.ra) w.simm
    s.retireOk f w v fun fl => fl.setReg w.rd v

/-- A comparison of two registers into a predicate (R60, R75, R76). -/
def cmpReg (c : Cond) (f : Fin 16) (w : TWord) (s : State) : State :=
  s.local_ f 0x13#8 c.fn w 0#4 0#32 [w.ra, w.rb] (fun _ => [(badPredDest w.rd, .badOperand)]) fun s =>
    let v := c.eval ((s.flow f).reg w.ra) ((s.flow f).reg w.rb)
    s.retireOk f w 0#64 fun fl => fl.setPred w.rd v

/-- A comparison of a register with sext(IMM) into a predicate (R60, R75, R76). -/
def cmpImm (c : Cond) (f : Fin 16) (w : TWord) (s : State) : State :=
  s.local_ f 0x14#8 c.fn w 0#4 0xFFFFFFFF#32 [w.ra] (fun _ => [(badPredDest w.rd, .badOperand)]) fun s =>
    let v := c.eval ((s.flow f).reg w.ra) w.simm
    s.retireOk f w 0#64 fun fl => fl.setPred w.rd v

/-- ADD (R76). -/
def execAdd (f : Fin 16) (w : TWord) (s : State) : Res := .next (aluReg .add f w s)

/-- SUB (R76). -/
def execSub (f : Fin 16) (w : TWord) (s : State) : Res := .next (aluReg .sub f w s)

/-- AND (R76). -/
def execAnd (f : Fin 16) (w : TWord) (s : State) : Res := .next (aluReg .and f w s)

/-- OR (R76). -/
def execOr (f : Fin 16) (w : TWord) (s : State) : Res := .next (aluReg .or f w s)

/-- XOR (R76). -/
def execXor (f : Fin 16) (w : TWord) (s : State) : Res := .next (aluReg .xor f w s)

/-- SHL (R76). -/
def execShl (f : Fin 16) (w : TWord) (s : State) : Res := .next (aluReg .shl f w s)

/-- SHR (R76). -/
def execShr (f : Fin 16) (w : TWord) (s : State) : Res := .next (aluReg .shr f w s)

/-- SAR (R76). -/
def execSar (f : Fin 16) (w : TWord) (s : State) : Res := .next (aluReg .sar f w s)

/-- MUL (R76). -/
def execMul (f : Fin 16) (w : TWord) (s : State) : Res := .next (aluReg .mul f w s)

/-- MIN (R76). -/
def execMin (f : Fin 16) (w : TWord) (s : State) : Res := .next (aluReg .min f w s)

/-- MAX (R76). -/
def execMax (f : Fin 16) (w : TWord) (s : State) : Res := .next (aluReg .max f w s)

/-- ADDI: ADD with sext(IMM) (R76). -/
def execAddi (f : Fin 16) (w : TWord) (s : State) : Res := .next (aluImm .add f w s)

/-- SUBI: SUB with sext(IMM) (R76). -/
def execSubi (f : Fin 16) (w : TWord) (s : State) : Res := .next (aluImm .sub f w s)

/-- ANDI: AND with sext(IMM) (R76). -/
def execAndi (f : Fin 16) (w : TWord) (s : State) : Res := .next (aluImm .and f w s)

/-- ORI: OR with sext(IMM) (R76). -/
def execOri (f : Fin 16) (w : TWord) (s : State) : Res := .next (aluImm .or f w s)

/-- XORI: XOR with sext(IMM) (R76). -/
def execXori (f : Fin 16) (w : TWord) (s : State) : Res := .next (aluImm .xor f w s)

/-- SHLI: SHL with sext(IMM) (R76). -/
def execShli (f : Fin 16) (w : TWord) (s : State) : Res := .next (aluImm .shl f w s)

/-- SHRI: SHR with sext(IMM) (R76). -/
def execShri (f : Fin 16) (w : TWord) (s : State) : Res := .next (aluImm .shr f w s)

/-- SARI: SAR with sext(IMM) (R76). -/
def execSari (f : Fin 16) (w : TWord) (s : State) : Res := .next (aluImm .sar f w s)

/-- MULI: MUL with sext(IMM) (R76). -/
def execMuli (f : Fin 16) (w : TWord) (s : State) : Res := .next (aluImm .mul f w s)

/-- MINI: MIN with sext(IMM) (R76). -/
def execMini (f : Fin 16) (w : TWord) (s : State) : Res := .next (aluImm .min f w s)

/-- MAXI: MAX with sext(IMM) (R76). -/
def execMaxi (f : Fin 16) (w : TWord) (s : State) : Res := .next (aluImm .max f w s)

/-- CMP.EQ (R76). -/
def execCmpEq (f : Fin 16) (w : TWord) (s : State) : Res := .next (cmpReg .eq f w s)

/-- CMP.NE (R76). -/
def execCmpNe (f : Fin 16) (w : TWord) (s : State) : Res := .next (cmpReg .ne f w s)

/-- CMP.LT (R76). -/
def execCmpLt (f : Fin 16) (w : TWord) (s : State) : Res := .next (cmpReg .lt f w s)

/-- CMP.LE (R76). -/
def execCmpLe (f : Fin 16) (w : TWord) (s : State) : Res := .next (cmpReg .le f w s)

/-- CMP.LTU (R76). -/
def execCmpLtu (f : Fin 16) (w : TWord) (s : State) : Res := .next (cmpReg .ltu f w s)

/-- CMP.LEU (R76). -/
def execCmpLeu (f : Fin 16) (w : TWord) (s : State) : Res := .next (cmpReg .leu f w s)

/-- CMP.NW32 (R76). -/
def execCmpNw32 (f : Fin 16) (w : TWord) (s : State) : Res := .next (cmpReg .nw32 f w s)

/-- CMP.NW16 (R76). -/
def execCmpNw16 (f : Fin 16) (w : TWord) (s : State) : Res := .next (cmpReg .nw16 f w s)

/-- CMPI.EQ (R76). -/
def execCmpiEq (f : Fin 16) (w : TWord) (s : State) : Res := .next (cmpImm .eq f w s)

/-- CMPI.NE (R76). -/
def execCmpiNe (f : Fin 16) (w : TWord) (s : State) : Res := .next (cmpImm .ne f w s)

/-- CMPI.LT (R76). -/
def execCmpiLt (f : Fin 16) (w : TWord) (s : State) : Res := .next (cmpImm .lt f w s)

/-- CMPI.LE (R76). -/
def execCmpiLe (f : Fin 16) (w : TWord) (s : State) : Res := .next (cmpImm .le f w s)

/-- CMPI.LTU (R76). -/
def execCmpiLtu (f : Fin 16) (w : TWord) (s : State) : Res := .next (cmpImm .ltu f w s)

/-- CMPI.LEU (R76). -/
def execCmpiLeu (f : Fin 16) (w : TWord) (s : State) : Res := .next (cmpImm .leu f w s)

/-- CMPI.NW32 (R76). -/
def execCmpiNw32 (f : Fin 16) (w : TWord) (s : State) : Res := .next (cmpImm .nw32 f w s)

/-- CMPI.NW16 (R76). -/
def execCmpiNw16 (f : Fin 16) (w : TWord) (s : State) : Res := .next (cmpImm .nw16 f w s)

/-! ### Immediates -/

/-- LI: RD := sext(IMM) (R75). -/
def execLi (f : Fin 16) (w : TWord) (s : State) : Res :=
  .next (s.local_ f 0x12#8 0#4 w 0#4 0xFFFFFFFF#32 [w.rd] (fun _ => []) fun s =>
    s.retireOk f w w.simm fun fl => fl.setReg w.rd w.simm)

/-- LIH: RD[63:32] := IMM; RD[31:0] unchanged (R75). -/
def execLih (f : Fin 16) (w : TWord) (s : State) : Res :=
  .next (s.local_ f 0x12#8 1#4 w 0#4 0xFFFFFFFF#32 [w.rd] (fun _ => []) fun s =>
    let v : W64 := w.imm ++ ((s.flow f).reg w.rd).setWidth 32
    s.retireOk f w v fun fl => fl.setReg w.rd v)

/-- LI.X: RD := w0 (R75). -/
def execLiX (f : Fin 16) (w : TWord) (s : State) : Res :=
  .next (s.local_ f 0x12#8 2#4 w 1#4 0#32 [w.rd] (fun _ => []) fun s =>
    s.retireOk f w (w.x 0) fun fl => fl.setReg w.rd (w.x 0))

/-! ### Loads and stores -/

/-- LD: a 64-bit load from the Shared data partition (R75, R77). -/
def execLd (f : Fin 16) (w : TWord) (s : State) : Res :=
  .next (s.local_ f 0x15#8 0#4 w 0#4 0xFFFFFFFF#32 [w.ra, w.rd]
    (fun s => [(!sharedOk ((s.flow f).addr w) 8, .badOperand)]) fun s =>
    let v := s.rd64 ((s.flow f).addr w).toNat
    s.retireOk f w v fun fl => fl.setReg w.rd v)

/-- ST: a 64-bit store of T[RB] (R75, R77). -/
def execSt (f : Fin 16) (w : TWord) (s : State) : Res :=
  .next (s.local_ f 0x15#8 1#4 w 0#4 0xFFFFFFFF#32 [w.ra, w.rb]
    (fun s => [(!sharedOk ((s.flow f).addr w) 8, .badOperand)]) fun s =>
    (s.wr64 ((s.flow f).addr w).toNat ((s.flow f).reg w.rb)).retireOk f w 0#64 id)

/-- LD32: a 32-bit load, zero-extended (R75, R77). -/
def execLd32 (f : Fin 16) (w : TWord) (s : State) : Res :=
  .next (s.local_ f 0x15#8 2#4 w 0#4 0xFFFFFFFF#32 [w.ra, w.rd]
    (fun s => [(!sharedOk ((s.flow f).addr w) 4, .badOperand)]) fun s =>
    let v : W64 := (s.rd32 ((s.flow f).addr w).toNat).setWidth 64
    s.retireOk f w v fun fl => fl.setReg w.rd v)

/-- ST32: a 32-bit store of T[RB] (R75, R77). -/
def execSt32 (f : Fin 16) (w : TWord) (s : State) : Res :=
  .next (s.local_ f 0x15#8 3#4 w 0#4 0xFFFFFFFF#32 [w.ra, w.rb]
    (fun s => [(!sharedOk ((s.flow f).addr w) 4, .badOperand)]) fun s =>
    (s.wr32 ((s.flow f).addr w).toNat (((s.flow f).reg w.rb).setWidth 32)).retireOk f w 0#64 id)

/-- UNDEFINED_OPCODE (R57): an OPC or FN that the tables do not define completes with BAD_OPCODE, and its extension words are
skipped. -/
def execUndefinedOpcode (f : Fin 16) (opc : BitVec 8) (fn : BitVec 4) (w : TWord) (s : State) : Res :=
  .next (s.take f opc fn w [] fun s => s.retireBad f w .badOpcode opc fn 0#7 0#8)

end Sys2Proof.Machine
end

