-- ==== Sys2Proof/Machine/Dispatch.lean ====
section
/-! DEFINITION. The dispatch of commands to their meanings: one arm for each row of the opcode table. -/
namespace Sys2Proof.Machine

def exec (i : Instr) (s : State) : Host.Outcome State Fault Refusal :=
  match i with
  | .pickInstant => Sys2Proof.Machine.execPickInstant s
  | .stateCopySend => Sys2Proof.Machine.execStateCopySend s
  | .readyListEntry => Sys2Proof.Machine.execReadyListEntry s
  | .nodeSelect sh => Sys2Proof.Machine.execNodeSelect sh s
  | .nodeStart sh addrOk => Sys2Proof.Machine.execNodeStart sh addrOk s
  | .nodeComplete sh out => Sys2Proof.Machine.execNodeComplete sh out s
  | .plannerSample a => Sys2Proof.Machine.execPlannerSample a s
  | .stlFrame n => Sys2Proof.Machine.execStlFrame n s
  | .solveStart => Sys2Proof.Machine.execSolveStart s
  | .solveEnd => Sys2Proof.Machine.execSolveEnd s
  | .eccUncorrectable a w => Sys2Proof.Machine.execEccUncorrectable a w s
  | .scrubPass sel corrected => Sys2Proof.Machine.execScrubPass sel corrected s
  | .tbStart => Sys2Proof.Machine.execTbStart s
  | .tbApply => Sys2Proof.Machine.execTbApply s
  | .tbTimeLoRead => Sys2Proof.Machine.execTbTimeLoRead s
  | .tbPickTimeLoRead => Sys2Proof.Machine.execTbPickTimeLoRead s
  | .tbPickNumRead => Sys2Proof.Machine.execTbPickNumRead s
  | .programmeStart f entry => Sys2Proof.Machine.execProgrammeStart f entry s
  | .fencedWordRetire f opc fn xw cq => Sys2Proof.Machine.execFencedWordRetire f opc fn xw cq s
  | .waitComplete f => Sys2Proof.Machine.execWaitComplete f s
  | .flowAbortEffect f => Sys2Proof.Machine.execFlowAbortEffect f s
  | .completionPost f => Sys2Proof.Machine.execCompletionPost f s
  | .nop f w => Sys2Proof.Machine.execNop f w s
  | .endProg f w => Sys2Proof.Machine.execEndProg f w s
  | .br f w => Sys2Proof.Machine.execBr f w s
  | .brT f w => Sys2Proof.Machine.execBrT f w s
  | .brF f w => Sys2Proof.Machine.execBrF f w s
  | .brLink f w => Sys2Proof.Machine.execBrLink f w s
  | .brReg f w => Sys2Proof.Machine.execBrReg f w s
  | .waitPick f w => Sys2Proof.Machine.execWaitPick f w s
  | .waitBeat f w => Sys2Proof.Machine.execWaitBeat f w s
  | .waitTime f w => Sys2Proof.Machine.execWaitTime f w s
  | .waitOps f w => Sys2Proof.Machine.execWaitOps f w s
  | .waitAxis f w => Sys2Proof.Machine.execWaitAxis f w s
  | .flowResume f w => Sys2Proof.Machine.execFlowResume f w s
  | .flowState f w => Sys2Proof.Machine.execFlowState f w s
  | .flowAbort f w => Sys2Proof.Machine.execFlowAbort f w s
  | .add f w => Sys2Proof.Machine.execAdd f w s
  | .sub f w => Sys2Proof.Machine.execSub f w s
  | .and f w => Sys2Proof.Machine.execAnd f w s
  | .or f w => Sys2Proof.Machine.execOr f w s
  | .xor f w => Sys2Proof.Machine.execXor f w s
  | .shl f w => Sys2Proof.Machine.execShl f w s
  | .shr f w => Sys2Proof.Machine.execShr f w s
  | .sar f w => Sys2Proof.Machine.execSar f w s
  | .mul f w => Sys2Proof.Machine.execMul f w s
  | .min f w => Sys2Proof.Machine.execMin f w s
  | .max f w => Sys2Proof.Machine.execMax f w s
  | .addi f w => Sys2Proof.Machine.execAddi f w s
  | .subi f w => Sys2Proof.Machine.execSubi f w s
  | .andi f w => Sys2Proof.Machine.execAndi f w s
  | .ori f w => Sys2Proof.Machine.execOri f w s
  | .xori f w => Sys2Proof.Machine.execXori f w s
  | .shli f w => Sys2Proof.Machine.execShli f w s
  | .shri f w => Sys2Proof.Machine.execShri f w s
  | .sari f w => Sys2Proof.Machine.execSari f w s
  | .muli f w => Sys2Proof.Machine.execMuli f w s
  | .mini f w => Sys2Proof.Machine.execMini f w s
  | .maxi f w => Sys2Proof.Machine.execMaxi f w s
  | .li f w => Sys2Proof.Machine.execLi f w s
  | .lih f w => Sys2Proof.Machine.execLih f w s
  | .liX f w => Sys2Proof.Machine.execLiX f w s
  | .cmpEq f w => Sys2Proof.Machine.execCmpEq f w s
  | .cmpNe f w => Sys2Proof.Machine.execCmpNe f w s
  | .cmpLt f w => Sys2Proof.Machine.execCmpLt f w s
  | .cmpLe f w => Sys2Proof.Machine.execCmpLe f w s
  | .cmpLtu f w => Sys2Proof.Machine.execCmpLtu f w s
  | .cmpLeu f w => Sys2Proof.Machine.execCmpLeu f w s
  | .cmpNw32 f w => Sys2Proof.Machine.execCmpNw32 f w s
  | .cmpNw16 f w => Sys2Proof.Machine.execCmpNw16 f w s
  | .cmpiEq f w => Sys2Proof.Machine.execCmpiEq f w s
  | .cmpiNe f w => Sys2Proof.Machine.execCmpiNe f w s
  | .cmpiLt f w => Sys2Proof.Machine.execCmpiLt f w s
  | .cmpiLe f w => Sys2Proof.Machine.execCmpiLe f w s
  | .cmpiLtu f w => Sys2Proof.Machine.execCmpiLtu f w s
  | .cmpiLeu f w => Sys2Proof.Machine.execCmpiLeu f w s
  | .cmpiNw32 f w => Sys2Proof.Machine.execCmpiNw32 f w s
  | .cmpiNw16 f w => Sys2Proof.Machine.execCmpiNw16 f w s
  | .ld f w => Sys2Proof.Machine.execLd f w s
  | .st f w => Sys2Proof.Machine.execSt f w s
  | .ld32 f w => Sys2Proof.Machine.execLd32 f w s
  | .st32 f w => Sys2Proof.Machine.execSt32 f w s
  | .regRd f w => Sys2Proof.Machine.execRegRd f w s
  | .regWr f w => Sys2Proof.Machine.execRegWr f w s
  | .axisEnable f w => Sys2Proof.Machine.execAxisEnable f w s
  | .axisDisable f w => Sys2Proof.Machine.execAxisDisable f w s
  | .axisMove f w => Sys2Proof.Machine.execAxisMove f w s
  | .axisStop f w => Sys2Proof.Machine.execAxisStop f w s
  | .axisHome f w => Sys2Proof.Machine.execAxisHome f w s
  | .axisGear f w => Sys2Proof.Machine.execAxisGear f w s
  | .axisClear f w => Sys2Proof.Machine.execAxisClear f w s
  | .axisSetpos f w => Sys2Proof.Machine.execAxisSetpos f w s
  | .axisParam f w => Sys2Proof.Machine.execAxisParam f w s
  | .axisRead f w => Sys2Proof.Machine.execAxisRead f w s
  | .armDefine f w => Sys2Proof.Machine.execArmDefine f w s
  | .armEnable f w => Sys2Proof.Machine.execArmEnable f w s
  | .armDisable f w => Sys2Proof.Machine.execArmDisable f w s
  | .armMove f w => Sys2Proof.Machine.execArmMove f w s
  | .armStop f w => Sys2Proof.Machine.execArmStop f w s
  | .armMpcOn f w => Sys2Proof.Machine.execArmMpcOn f w s
  | .armMpcOff f w => Sys2Proof.Machine.execArmMpcOff f w s
  | .loopLoad f w => Sys2Proof.Machine.execLoopLoad f w s
  | .loopSwap f w => Sys2Proof.Machine.execLoopSwap f w s
  | .fbMode f w => Sys2Proof.Machine.execFbMode f w s
  | .fbCompare f w => Sys2Proof.Machine.execFbCompare f w s
  | .fbUnarm f w => Sys2Proof.Machine.execFbUnarm f w s
  | .segLoad f w => Sys2Proof.Machine.execSegLoad f w s
  | .segRun f w => Sys2Proof.Machine.execSegRun f w s
  | .draftLoad f w => Sys2Proof.Machine.execDraftLoad f w s
  | .draftBind f w => Sys2Proof.Machine.execDraftBind f w s
  | .draftUnload f w => Sys2Proof.Machine.execDraftUnload f w s
  | .qpSched f w => Sys2Proof.Machine.execQpSched f w s
  | .qpSchedCopyDone => Sys2Proof.Machine.execQpSchedCopyDone s
  | .qpStart f w => Sys2Proof.Machine.execQpStart f w s
  | .qpStop f w => Sys2Proof.Machine.execQpStop f w s
  | .qpSubmit f w => Sys2Proof.Machine.execQpSubmit f w s
  | .qpParam f w => Sys2Proof.Machine.execQpParam f w s
  | .safeLoad f w => Sys2Proof.Machine.execSafeLoad f w s
  | .safeLoadDecided => Sys2Proof.Machine.execSafeLoadDecided s
  | .safeReset f w => Sys2Proof.Machine.execSafeReset f w s
  | .recRead f w => Sys2Proof.Machine.execRecRead f w s
  | .recClear f w => Sys2Proof.Machine.execRecClear f w s
  | .recMark f w => Sys2Proof.Machine.execRecMark f w s
  | .pwrSet f w => Sys2Proof.Machine.execPwrSet f w s
  | .pwrDomain f w => Sys2Proof.Machine.execPwrDomain f w s
  | .pairSync f w => Sys2Proof.Machine.execPairSync f w s
  | .deviceTransitionDone => Sys2Proof.Machine.execDeviceTransitionDone s
  | .domainTransitionDone d => Sys2Proof.Machine.execDomainTransitionDone d s
  | .lmWeightWrite g v => Sys2Proof.Machine.execLmWeightWrite g v s
  | .lmHwmClr => Sys2Proof.Machine.execLmHwmClr s
  | .lmCntClr => Sys2Proof.Machine.execLmCntClr s
  | .fbEdge c a b => Sys2Proof.Machine.execFbEdge c a b s
  | .trigPulseEnd t => Sys2Proof.Machine.execTrigPulseEnd t s
  | .ssiTransferStart c => Sys2Proof.Machine.execSsiTransferStart c s
  | .ssiWord c raw par startLow rtd => Sys2Proof.Machine.execSsiWord c raw par startLow rtd s
  | .wireFault c => Sys2Proof.Machine.execWireFault c s
  | .faultConditionEnd c => Sys2Proof.Machine.execFaultConditionEnd c s
  | .fbCfgWrite c v => Sys2Proof.Machine.execFbCfgWrite c v s
  | .fbTimingWrite c v => Sys2Proof.Machine.execFbTimingWrite c v s
  | .fbSsiWrite c v => Sys2Proof.Machine.execFbSsiWrite c v s
  | .fbSsiLeadWrite c v => Sys2Proof.Machine.execFbSsiLeadWrite c v s
  | .fbTrigCfgWrite t v => Sys2Proof.Machine.execFbTrigCfgWrite t v s
  | .fbTraceW0Read => Sys2Proof.Machine.execFbTraceW0Read s
  | .traceClr => Sys2Proof.Machine.execTraceClr s
  | .fbPosLoRead c => Sys2Proof.Machine.execFbPosLoRead c s
  | .ceCfgWrite a v => Sys2Proof.Machine.execCeCfgWrite a v s
  | .ceVmaxWrite a v => Sys2Proof.Machine.execCeVmaxWrite a v s
  | .ceAmaxWrite a v => Sys2Proof.Machine.execCeAmaxWrite a v s
  | .ceXrLoRead a => Sys2Proof.Machine.execCeXrLoRead a s
  | .cePosOffLoRead a => Sys2Proof.Machine.execCePosOffLoRead a s
  | .ceBypassCntClear r => Sys2Proof.Machine.execCeBypassCntClear r s
  | .stlCfgWrite n v => Sys2Proof.Machine.execStlCfgWrite n v s
  | .chCntClr => Sys2Proof.Machine.execChCntClr s
  | .chSigLoRead => Sys2Proof.Machine.execChSigLoRead s
  | .chSchedHashLoRead => Sys2Proof.Machine.execChSchedHashLoRead s
  | .reedRunWrite v => Sys2Proof.Machine.execReedRunWrite v s
  | .reedCntClr => Sys2Proof.Machine.execReedCntClr s
  | .reedConfigWrite off v => Sys2Proof.Machine.execReedConfigWrite off v s
  | .rdSensLastLoRead n => Sys2Proof.Machine.execRdSensLastLoRead n s
  | .rdCycleLoRead => Sys2Proof.Machine.execRdCycleLoRead s
  | .frameCheckDone n slot okA okB => Sys2Proof.Machine.execFrameCheckDone n slot okA okB s
  | .fusionCycleStart => Sys2Proof.Machine.execFusionCycleStart s
  | .fusionDone => Sys2Proof.Machine.execFusionDone s
  | .channelAFieldDone => Sys2Proof.Machine.execChannelAFieldDone s
  | .channelAEntryDone => Sys2Proof.Machine.execChannelAEntryDone s
  | .channelBEntryDone => Sys2Proof.Machine.execChannelBEntryDone s
  | .selftestDone ch fail => Sys2Proof.Machine.execSelftestDone ch fail s
  | .selvedgeEvaluation => Sys2Proof.Machine.execSelvedgeEvaluation s
  | .crossLinkMessage ch m => Sys2Proof.Machine.execCrossLinkMessage ch m s
  | .lockstepMismatch ch => Sys2Proof.Machine.execLockstepMismatch ch s
  | .supplyMonitorTrip ch io => Sys2Proof.Machine.execSupplyMonitorTrip ch io s
  | .pairDiscrepancyTimeout ch p => Sys2Proof.Machine.execPairDiscrepancyTimeout ch p s
  | .lightCurtainTimeout ch ix => Sys2Proof.Machine.execLightCurtainTimeout ch ix s
  | .stopTimeout ch target => Sys2Proof.Machine.execStopTimeout ch target s
  | .testPulseStart n a b => Sys2Proof.Machine.execTestPulseStart n a b s
  | .testPulseSample n a b tps => Sys2Proof.Machine.execTestPulseSample n a b tps s
  | .testPulseEnd n => Sys2Proof.Machine.execTestPulseEnd n s
  | .pulseHoldEnd n a b => Sys2Proof.Machine.execPulseHoldEnd n a b s
  | .ossdHighSideCheck n p q => Sys2Proof.Machine.execOssdHighSideCheck n p q s
  | .ossdLowSideCheck n p q => Sys2Proof.Machine.execOssdLowSideCheck n p q s
  | .ossdMismatchFault n half p q => Sys2Proof.Machine.execOssdMismatchFault n half p q s
  | .darkTestStart n half => Sys2Proof.Machine.execDarkTestStart n half s
  | .darkTestPass n half p q => Sys2Proof.Machine.execDarkTestPass n half p q s
  | .darkTestTimeout n half p q => Sys2Proof.Machine.execDarkTestTimeout n half p q s
  | .sealDebounceChange half v => Sys2Proof.Machine.execSealDebounceChange half v s
  | .sealUnstableTimeout half => Sys2Proof.Machine.execSealUnstableTimeout half s
  | .wdExpire c => Sys2Proof.Machine.execWdExpire c s
  | .frameReceive p frame => Sys2Proof.Machine.execFrameReceive p frame s
  | .driveTrafficReceive p frame dis => Sys2Proof.Machine.execDriveTrafficReceive p frame dis s
  | .egressSelect p => Sys2Proof.Machine.execEgressSelect p s
  | .launchTimeReached p c => Sys2Proof.Machine.execLaunchTimeReached p c s
  | .lateFrame p c => Sys2Proof.Machine.execLateFrame p c s
  | .gclEntryAdvance p => Sys2Proof.Machine.execGclEntryAdvance p s
  | .gclCycleStart p => Sys2Proof.Machine.execGclCycleStart p s
  | .gclSwapRequest p v => Sys2Proof.Machine.execGclSwapRequest p v s
  | .linkChange p up => Sys2Proof.Machine.execLinkChange p up s
  | .fdbWrite v => Sys2Proof.Machine.execFdbWrite v s
  | .fdbDelete v => Sys2Proof.Machine.execFdbDelete v s
  | .fdbAgeExpire ix => Sys2Proof.Machine.execFdbAgeExpire ix s
  | .cbStreamReset ix => Sys2Proof.Machine.execCbStreamReset ix s
  | .ptCntClear p k => Sys2Proof.Machine.execPtCntClear p k s
  | .syncReceive p m => Sys2Proof.Machine.execSyncReceive p m s
  | .followUpReceive p m => Sys2Proof.Machine.execFollowUpReceive p m s
  | .followUpTimeout d => Sys2Proof.Machine.execFollowUpTimeout d s
  | .pdelayReqSend => Sys2Proof.Machine.execPdelayReqSend s
  | .pdelayReqReceive p m => Sys2Proof.Machine.execPdelayReqReceive p m s
  | .pdelayRespReceive p m fup => Sys2Proof.Machine.execPdelayRespReceive p m fup s
  | .domainTimeout d => Sys2Proof.Machine.execDomainTimeout d s
  | .servoUpdate => Sys2Proof.Machine.execServoUpdate s
  | .holdoverTimeout => Sys2Proof.Machine.execHoldoverTimeout s
  | .ntSwitchRequest v => Sys2Proof.Machine.execNtSwitchRequest v s
  | .timeMark => Sys2Proof.Machine.execTimeMark s
  | .ntOfs0Read => Sys2Proof.Machine.execNtOfs0Read s
  | .ntPhaseLoRead => Sys2Proof.Machine.execNtPhaseLoRead s
  | .ntNowNsRead => Sys2Proof.Machine.execNtNowNsRead s
  | .ntDomPhaseLoRead d => Sys2Proof.Machine.execNtDomPhaseLoRead d s
  | .canModeWrite n v => Sys2Proof.Machine.execCanModeWrite n v s
  | .canModeEffect n => Sys2Proof.Machine.execCanModeEffect n s
  | .canRestart n v => Sys2Proof.Machine.execCanRestart n v s
  | .canTxsetWrite n w v => Sys2Proof.Machine.execCanTxsetWrite n w v s
  | .canTxcancelWrite n w v => Sys2Proof.Machine.execCanTxcancelWrite n w v s
  | .canRxnewWrite n w v => Sys2Proof.Machine.execCanRxnewWrite n w v s
  | .canInvalidWrite n w v => Sys2Proof.Machine.execCanInvalidWrite n w v s
  | .canTxAttempt n => Sys2Proof.Machine.execCanTxAttempt n s
  | .canTxComplete n => Sys2Proof.Machine.execCanTxComplete n s
  | .canBusError n lec e => Sys2Proof.Machine.execCanBusError n lec e s
  | .canFrameReceive n m => Sys2Proof.Machine.execCanFrameReceive n m s
  | .canRecoveryDone n => Sys2Proof.Machine.execCanRecoveryDone n s
  | .canCntClear n k => Sys2Proof.Machine.execCanCntClear n k s
  | .heartbeatSend => Sys2Proof.Machine.execHeartbeatSend s
  | .heartbeatReceive frame => Sys2Proof.Machine.execHeartbeatReceive frame s
  | .partnerSilent => Sys2Proof.Machine.execPartnerSilent s
  | .leaseExpire us => Sys2Proof.Machine.execLeaseExpire us s
  | .standbyLost => Sys2Proof.Machine.execStandbyLost s
  | .inputRecordReceive frames => Sys2Proof.Machine.execInputRecordReceive frames s
  | .adoptLimitExpire => Sys2Proof.Machine.execAdoptLimitExpire s
  | .safetyRecordReceive bad check r => Sys2Proof.Machine.execSafetyRecordReceive bad check r s
  | .stateCopyReceive bad c => Sys2Proof.Machine.execStateCopyReceive bad c s
  | .solutionCopyReceive frames => Sys2Proof.Machine.execSolutionCopyReceive frames s
  | .configFrameReceive bad block last part => Sys2Proof.Machine.execConfigFrameReceive bad block last part s
  | .controlFrameReceive bad c => Sys2Proof.Machine.execControlFrameReceive bad c s
  | .pairLaneChange l0 l1 => Sys2Proof.Machine.execPairLaneChange l0 l1 s
  | .handoverRequest v => Sys2Proof.Machine.execHandoverRequest v s
  | .pairCntClr => Sys2Proof.Machine.execPairCntClr s
  | .syncReqReceive bad r => Sys2Proof.Machine.execSyncReqReceive bad r s
  | .syncAckReceive bad => Sys2Proof.Machine.execSyncAckReceive bad s
  | .syncFail => Sys2Proof.Machine.execSyncFail s
  | .syncRetry => Sys2Proof.Machine.execSyncRetry s
  | .wrInsertWrite v => Sys2Proof.Machine.execWrInsertWrite v s
  | .ringLinkChange inUp outUp dIn dOut => Sys2Proof.Machine.execRingLinkChange inUp outUp dIn dOut s
  | .alignSend => Sys2Proof.Machine.execAlignSend s
  | .ringFrameReceive frame res => Sys2Proof.Machine.execRingFrameReceive frame res s
  | .capsSend => Sys2Proof.Machine.execCapsSend s
  | .ringAlignTimeout => Sys2Proof.Machine.execRingAlignTimeout s
  | .foreignStale l => Sys2Proof.Machine.execForeignStale l s
  | .wrCntCrcClear v => Sys2Proof.Machine.execWrCntCrcClear v s
  | .recordAdmit => Sys2Proof.Machine.execRecordAdmit s
  | .erCurWrite v => Sys2Proof.Machine.execErCurWrite v s
  | .erCntClr => Sys2Proof.Machine.execErCntClr s
  | .erSlogSelWrite v => Sys2Proof.Machine.execErSlogSelWrite v s
  | .erSlogDataRead => Sys2Proof.Machine.execErSlogDataRead s
  | .erEpochLoRead => Sys2Proof.Machine.execErEpochLoRead s
  | .aonPwrCmdWrite path v => Sys2Proof.Machine.execAonPwrCmdWrite path v s
  | .wakePin => Sys2Proof.Machine.execWakePin s
  | .wakeTimer => Sys2Proof.Machine.execWakeTimer s
  | .temperatureSample t => Sys2Proof.Machine.execTemperatureSample t s
  | .supplyEnDrop => Sys2Proof.Machine.execSupplyEnDrop s
  | .clusterClockStop c => Sys2Proof.Machine.execClusterClockStop c s
  | .pllLockLoss l => Sys2Proof.Machine.execPllLockLoss l s
  | .wearSecond => Sys2Proof.Machine.execWearSecond s
  | .poweredHour drift => Sys2Proof.Machine.execPoweredHour drift s
  | .hwLoad => Sys2Proof.Machine.execHwLoad s
  | .hwCntClr => Sys2Proof.Machine.execHwCntClr s
  | .hwImg0Read => Sys2Proof.Machine.execHwImg0Read s
  | .submissionTailWrite f v => Sys2Proof.Machine.execSubmissionTailWrite f v s
  | .completionHeadWrite f v => Sys2Proof.Machine.execCompletionHeadWrite f v s
  | .txRingTailWrite v ds => Sys2Proof.Machine.execTxRingTailWrite v ds s
  | .rxRingTailWrite v bufs => Sys2Proof.Machine.execRxRingTailWrite v bufs s
  | .hiCfgWrite ring v => Sys2Proof.Machine.execHiCfgWrite ring v s
  | .hiCounterClear rxNobuf => Sys2Proof.Machine.execHiCounterClear rxNobuf s
  | .spiWrite addr v => Sys2Proof.Machine.execSpiWrite addr v s
  | .spiRead addr => Sys2Proof.Machine.execSpiRead addr s
  | .spiOtherCommand cmd => Sys2Proof.Machine.execSpiOtherCommand cmd s
  | .hostReset key => Sys2Proof.Machine.execHostReset key s
  | .resetNPin => Sys2Proof.Machine.execResetNPin s
  | .powerOnReset => Sys2Proof.Machine.execPowerOnReset s
  | .porRelease bootSrc cascPos => Sys2Proof.Machine.execPorRelease bootSrc cascPos s
  | .perst high => Sys2Proof.Machine.execPerst high s
  | .pcieLink up speed width => Sys2Proof.Machine.execPcieLink up speed width s
  | .bootHostGo v => Sys2Proof.Machine.execBootHostGo v s
  | .bootImageLoaded first second => Sys2Proof.Machine.execBootImageLoaded first second s
  | .bootHostTimeout => Sys2Proof.Machine.execBootHostTimeout s
  | .otpProgramKey path => Sys2Proof.Machine.execOtpProgramKey path s
  | .otpRaiseSvn path => Sys2Proof.Machine.execOtpRaiseSvn path s
  | .registerWrite path addr v => Sys2Proof.Machine.execRegisterWrite path addr v s
  | .undefinedOpcode f opc fn w => Sys2Proof.Machine.execUndefinedOpcode f opc fn w s
  | .unavailableRead path addr => Sys2Proof.Machine.execUnavailableRead path addr s
  | .hostMemoryWrite addr v => Sys2Proof.Machine.execHostMemoryWrite addr v s
  | .safetyInputLevelChange half pin level => Sys2Proof.Machine.execSafetyInputLevelChange half pin level s
  | .pairAlvInChange level => Sys2Proof.Machine.execPairAlvInChange level s
  | .coreSupplyLow half => Sys2Proof.Machine.execCoreSupplyLow half s

end Sys2Proof.Machine
end

