-- ==== Sys2Proof/Machine/Step.lean ====
section
/-! DEFINITION. One step: the command at the front of the queue, or one tick of the clock when the queue is empty. -/
namespace Sys2Proof.Machine

/-- One step of the device. With a command waiting, the one at the front is taken off the queue and has its effect; with none
waiting, one period of the clock that moves cell time passes (R36). -/
def step (s : State) : Host.Outcome State Fault Refusal :=
  match s.pending with
  | c :: rest => exec c { s with pending := rest }
  | [] => .next (Sys2Proof.Machine.idleTick s)

/-- `s` with the command that the word `w` spells put at the front of the queue. No row of the opcode table has bits, so no
word spells a command. -/
def State.withFetchWord (s : State) (nbits w : Nat) : State :=
  match Sys2Proof.decodeTableWord nbits w with
  | some c => { s with pending := c :: s.pending }
  | none => s

end Sys2Proof.Machine
end

