-- ==== Sys2Proof/Safety.lean ====
section
/-! DEFINITION. What a safe run is, and when a command completes, in the terms the claims use: the canonical form of memory, a flow
that is ready for an instruction, an instruction that retires, and the conditions under which a device operation is accepted. -/
namespace Sys2Proof.Machine

/-- The outcome is a next state. -/
def outcomeIsNext {σ φ ρ : Type} : Host.Outcome σ φ ρ → Bool
  | .next _ => true
  | _ => false

/-- A state whose memory is in canonical form (R13). -/
def Safe (s : State) : Prop := Memory.wf s.mem = true

/-- Flow `f` is ready for an instruction that reads or writes the registers `uses` (R54, R61), and executes it: no abort is
requested (R71) and it is neither fenced nor stopped (R67, R70). -/
def FlowReady (s : State) (f : Fin 16) (uses : List (BitVec 5)) : Prop :=
  flowTakes s f = true ∧ (uses.any fun r => (s.flow f).awaits r) = false ∧ (s.flow f).abortReq = false ∧
    (s.flow f).idleStatus = none

/-- The instruction's form is the table's: XW is `xw`, no bit of IMM outside `mask` is set, and the extension words fit in what is
left of the programme (R56, R57). -/
def FormOk (s : State) (f : Fin 16) (w : TWord) (xw : Nat) (mask : BitVec 32) : Prop :=
  w.xw.toNat = xw ∧ w.imm &&& ~~~mask = 0#32 ∧ xw ≤ (s.flow f).wordsLeft

/-- Nothing but the Treadle block and the clock of its core differs, and of the Treadle block nothing but flow `f` (R50, R427). -/
def OnlyFlow (s t : State) (f : Fin 16) : Prop :=
  t = { s with tr := t.tr, cr := t.cr } ∧ t.cr = { s.cr with clk := setBit s.cr.clk (26 + f.val % 4) } ∧
    t.tr = { s.tr with flow := t.tr.flow } ∧ ∀ g : Fin 16, g ≠ f → t.flow g = s.flow g

/-- The entry that an instruction of a flow posts when it retires with OK: its place and its result (R73). -/
def okEntry (fl : FlowS) (result : W64) : Post := { status := .ok, instr := fl.pc, result := result }

/-- The instruction of flow `f` retires with OK and `result`: TR_FLOW_STATUS shows the status, an entry is posted when CQ is set
and nothing else is (R72, R73); the operations in flight stay. Execution goes on behind the extension words (R56), or the programme
ends there as with END and RA = 0 when that is past its last word (R52). -/
def Retires (s t : State) (f : Fin 16) (w : TWord) (result : W64) : Prop :=
  let fl := s.flow f
  let posted := fl.posts ++ (if w.cq then [okEntry fl result] else [])
  (t.flow f).lastStatus = .ok ∧ (t.flow f).ops = fl.ops ∧ (t.flow f).nextOp = fl.nextOp ∧ (t.flow f).wait = none ∧
    (fl.pc.toNat + 1 + w.xw.toNat ≤ fl.lastWord →
      (t.flow f).pc = BitVec.ofNat 21 (fl.pc.toNat + 1 + w.xw.toNat) ∧ (t.flow f).prog = fl.prog ∧ (t.flow f).state = .running ∧
        (t.flow f).posts = posted) ∧
    (fl.lastWord < fl.pc.toNat + 1 + w.xw.toNat →
      (t.flow f).prog = none ∧ (t.flow f).state = .idle ∧
        (t.flow f).posts = posted ++ [{ status := .ok, instr := BitVec.ofNat 21 (fl.lastWord + 1), result := 0#64 }])

/-- The registers and predicates of flow `f` are as before, but for register `rd`, which holds `v`; T0 discards it (R60). -/
def RegWritten (s t : State) (f : Fin 16) (rd : BitVec 5) (v : W64) : Prop :=
  (t.flow f).reg rd = (if rd = 0#5 then 0#64 else v) ∧ (∀ r, r ≠ rd → (t.flow f).reg r = (s.flow f).reg r) ∧
    (t.flow f).p = (s.flow f).p

/-- The registers and predicates of flow `f` are as before. -/
def RegsKept (s t : State) (f : Fin 16) : Prop := (t.flow f).t = (s.flow f).t ∧ (t.flow f).p = (s.flow f).p

/-- The command answers a next state in which flow `f` has retired the instruction with OK and `v`, `v` is in T[RD], and nothing
outside the flow has changed. -/
def WritesReg (c : Instr) (s : State) (f : Fin 16) (w : TWord) (v : W64) : Prop :=
  ∃ t, exec c s = .next t ∧ OnlyFlow s t f ∧ Retires s t f w v ∧ RegWritten s t f w.rd v

/-- What an ALU function gives (R76): ADD, SUB and MUL the low 64 bits of the two's-complement result, shifts by bits [5:0] of the
second operand, MIN and MAX by sign. -/
def aluValue (op : AluOp) (a b : W64) : W64 :=
  match op with
  | .add => BitVec.ofInt 64 (a.toInt + b.toInt)
  | .sub => BitVec.ofInt 64 (a.toInt - b.toInt)
  | .mul => BitVec.ofInt 64 (a.toInt * b.toInt)
  | .and => a &&& b
  | .or => a ||| b
  | .xor => a ^^^ b
  | .shl => BitVec.ofNat 64 (a.toNat * 2 ^ (b.toNat % 64))
  | .shr => BitVec.ofNat 64 (a.toNat / 2 ^ (b.toNat % 64))
  | .sar => BitVec.ofInt 64 (a.toInt / 2 ^ (b.toNat % 64))
  | .min => if a.toInt ≤ b.toInt then a else b
  | .max => if a.toInt ≤ b.toInt then b else a

/-- When a condition code holds (R76, R47): signed, unsigned, and newer over the low 32 or 16 bits. -/
def condHolds (c : Cond) (a b : W64) : Prop :=
  match c with
  | .eq => a = b
  | .ne => a ≠ b
  | .lt => a.toInt < b.toInt
  | .le => a.toInt ≤ b.toInt
  | .ltu => a.toNat < b.toNat
  | .leu => a.toNat ≤ b.toNat
  | .nw32 => 1 ≤ (a.toNat - b.toNat : Int) % 2 ^ 32 ∧ (a.toNat - b.toNat : Int) % 2 ^ 32 ≤ 2 ^ 31 - 1
  | .nw16 => 1 ≤ (a.toNat - b.toNat : Int) % 2 ^ 16 ∧ (a.toNat - b.toNat : Int) % 2 ^ 16 ≤ 2 ^ 15 - 1

/-- The command answers a next state in which flow `f` has retired the instruction with OK, P[RD] tells whether `h` holds, and nothing
else of the registers and predicates, and nothing outside the flow, has changed. -/
def WritesPred (c : Instr) (s : State) (f : Fin 16) (w : TWord) (h : Prop) : Prop :=
  ∃ t, exec c s = .next t ∧ OnlyFlow s t f ∧ Retires s t f w 0#64 ∧ (t.flow f).t = (s.flow f).t ∧
    ((t.flow f).pred w.rd = true ↔ h) ∧ ∀ r, r ≠ w.rd → (t.flow f).pred r = (s.flow f).pred r

/-- The instruction retires with a status of 0x10 or above and without effect: the status is shown, an entry is posted whatever CQ
says (R72), registers, predicates and the operations in flight stay, and execution goes on behind the extension words (R56). -/
def RetiresBad (s t : State) (f : Fin 16) (w : TWord) (st : Status) : Prop :=
  let fl := s.flow f
  let entry : Post := { status := st, instr := fl.pc, result := 0#64 }
  RegsKept s t f ∧ (t.flow f).ops = fl.ops ∧ (t.flow f).nextOp = fl.nextOp ∧
    (fl.pc.toNat + 1 + w.xw.toNat ≤ fl.lastWord →
      (t.flow f).pc = BitVec.ofNat 21 (fl.pc.toNat + 1 + w.xw.toNat) ∧ (t.flow f).prog = fl.prog ∧ (t.flow f).lastStatus = st ∧
        (t.flow f).posts = fl.posts ++ [entry]) ∧
    (fl.lastWord < fl.pc.toNat + 1 + w.xw.toNat → (t.flow f).prog = none ∧ entry ∈ (t.flow f).posts)

/-! ### Device operations -/

/-- The device operation can be taken up: its flow is ready, it has a Loom credit (R18), no bit of IMM outside `mask` is set, and the
extension words fit in what is left of the programme (R56, R57). -/
def OpForm (s : State) (f : Fin 16) (w : TWord) (uses : List (BitVec 5)) (mask : BitVec 32) : Prop :=
  FlowReady s f uses ∧ (s.flow f).ops.length < 32 ∧ w.imm &&& ~~~mask = 0#32 ∧ w.xw.toNat ≤ (s.flow f).wordsLeft

/-- The device is in one of the states in which the operation is legal (R81), with the domain of the owning block in RUN (R418). -/
def OpLegal (s : State) (states : List DevState) (d : Fin 13) : Prop := s.pw.state ∈ states ∧ s.domain d = .run

/-- The flow goes on after a device operation: `posted` are its entries then, behind the extension words or at the end of the programme
(R52, R56, R62). -/
def GoesOn (s t : State) (f : Fin 16) (w : TWord) (posted : List Post) : Prop :=
  let fl := s.flow f
  (t.flow f).nextOp = fl.nextOp + 1 ∧ (t.flow f).wait = none ∧
    (fl.pc.toNat + 1 + w.xw.toNat ≤ fl.lastWord →
      (t.flow f).pc = BitVec.ofNat 21 (fl.pc.toNat + 1 + w.xw.toNat) ∧ (t.flow f).prog = fl.prog ∧ (t.flow f).state = .running ∧
        (t.flow f).posts = posted) ∧
    (fl.lastWord < fl.pc.toNat + 1 + w.xw.toNat →
      (t.flow f).prog = none ∧ (t.flow f).state = .idle ∧
        (t.flow f).posts = posted ++ [{ status := .ok, instr := BitVec.ofNat 21 (fl.lastWord + 1), result := 0#64 }])

/-- The device operation completes at its acceptance with OK, `flags` and `result` (R62, R72 to R74). -/
def Accepted (s t : State) (f : Fin 16) (w : TWord) (flags : BitVec 8) (result : W64) : Prop :=
  let entry : Post := { status := .ok, flags := flags, instr := (s.flow f).pc, result := result }
  (t.flow f).lastStatus = .ok ∧ (t.flow f).ops = (s.flow f).ops ∧
    GoesOn s t f w ((s.flow f).posts ++ (if w.cq then [entry] else []))

/-- The device operation is accepted and completes later: it stands in flight, last, with its place kept among the entries (R62). -/
def InFlight (s t : State) (f : Fin 16) (w : TWord) (rd : Option (BitVec 5)) : Prop :=
  let fl := s.flow f
  (t.flow f).ops = fl.ops ++ [{ id := fl.nextOp, instr := fl.pc, rd := rd, cq := w.cq }] ∧
    GoesOn s t f w (fl.posts ++ [{ op := some fl.nextOp, instr := fl.pc }])

/-- What an accepted operation may always touch: its own flow, the clock of its core, and the command log of a device that leads a
pair (R368, R427). -/
def OpFrame (s t : State) (f : Fin 16) : Prop :=
  t = { s with tr := t.tr, cr := t.cr, pr := t.pr } ∧ t.cr = { s.cr with clk := setBit s.cr.clk (26 + f.val % 4) } ∧
    t.tr = { s.tr with flow := t.tr.flow } ∧ (∀ g : Fin 16, g ≠ f → t.flow g = s.flow g) ∧
    t.pr = { s.pr with log := t.pr.log } ∧ (leads s = false → t.pr = s.pr)

/-- The command is a device operation on axes that is accepted: it completes with OK and `flags`, registers and predicates stay, and its
effect waits for its effect pick (R24, R64), or happens at once while picks are stopped; `r` is the state in which the operation is
accepted. -/
def TakesEffect (c : Instr) (s r : State) (f : Fin 16) (w : TWord) (flags : BitVec 8) (e : Effect) : Prop :=
  ∃ u, OpFrame r u f ∧ Accepted s u f w flags 0#64 ∧ RegsKept s u f ∧
    exec c s = .next (if s.tb.running then { u with pend := u.pend ++ [e] } else u.applyEffect e s.tb.pickNum s.tb.beatNum)

end Sys2Proof.Machine
end

