-- ==== Sys2Proof/WellFormed.lean ====
section
/-! DEFINITION. Which commands are well formed: what the types of the operands leave open and the source of the command always
meets. -/
namespace Sys2Proof

/-- An instruction word comes with exactly the extension words that its XW counts (R55, R56). -/
def TWord.wf (w : TWord) : Bool := decide (w.ext.length = w.xw.toNat)

/-- A CAN frame carries at most 64 data bytes, and at most 8 without FDF; BRS and ESI belong to FDF (R351). -/
def CanFrame.wf (m : CanFrame) : Bool :=
  if m.fdf then decide (m.data.length ≤ 64) else decide (m.data.length ≤ 8) && !m.brs && !m.esi

/-- A byte of the on-chip SRAM (R13). -/
def sramByte (a : BitVec 40) : Bool := decide (a.toNat < Config.sramBytes)

/-- An arm, or an auxiliary axis 64 to 79 (R260). -/
def stopTarget (n : Nat) : Bool := decide (n < 8) || (decide (64 ≤ n) && decide (n < 80))

/-- The check of each command. -/
def Instr.wf : Instr → Bool
  | .pickInstant => true
  | .stateCopySend => true
  | .readyListEntry => true
  | .nodeSelect _ => true
  | .nodeStart _ _ => true
  | .nodeComplete _ _ => true
  | .plannerSample _ => true
  | .stlFrame _ => true
  | .solveStart => true
  | .solveEnd => true
  | .eccUncorrectable a _ => sramByte a
  | .scrubPass _ corrected => corrected.all sramByte
  | .tbStart => true
  | .tbApply => true
  | .tbTimeLoRead => true
  | .tbPickTimeLoRead => true
  | .tbPickNumRead => true
  | .programmeStart _ _ => true
  | .fencedWordRetire _ _ _ _ _ => true
  | .waitComplete _ => true
  | .flowAbortEffect _ => true
  | .completionPost _ => true
  | .nop _ w => w.wf
  | .endProg _ w => w.wf
  | .br _ w => w.wf
  | .brT _ w => w.wf
  | .brF _ w => w.wf
  | .brLink _ w => w.wf
  | .brReg _ w => w.wf
  | .waitPick _ w => w.wf
  | .waitBeat _ w => w.wf
  | .waitTime _ w => w.wf
  | .waitOps _ w => w.wf
  | .waitAxis _ w => w.wf
  | .flowResume _ w => w.wf
  | .flowState _ w => w.wf
  | .flowAbort _ w => w.wf
  | .add _ w => w.wf
  | .sub _ w => w.wf
  | .and _ w => w.wf
  | .or _ w => w.wf
  | .xor _ w => w.wf
  | .shl _ w => w.wf
  | .shr _ w => w.wf
  | .sar _ w => w.wf
  | .mul _ w => w.wf
  | .min _ w => w.wf
  | .max _ w => w.wf
  | .addi _ w => w.wf
  | .subi _ w => w.wf
  | .andi _ w => w.wf
  | .ori _ w => w.wf
  | .xori _ w => w.wf
  | .shli _ w => w.wf
  | .shri _ w => w.wf
  | .sari _ w => w.wf
  | .muli _ w => w.wf
  | .mini _ w => w.wf
  | .maxi _ w => w.wf
  | .li _ w => w.wf
  | .lih _ w => w.wf
  | .liX _ w => w.wf
  | .cmpEq _ w => w.wf
  | .cmpNe _ w => w.wf
  | .cmpLt _ w => w.wf
  | .cmpLe _ w => w.wf
  | .cmpLtu _ w => w.wf
  | .cmpLeu _ w => w.wf
  | .cmpNw32 _ w => w.wf
  | .cmpNw16 _ w => w.wf
  | .cmpiEq _ w => w.wf
  | .cmpiNe _ w => w.wf
  | .cmpiLt _ w => w.wf
  | .cmpiLe _ w => w.wf
  | .cmpiLtu _ w => w.wf
  | .cmpiLeu _ w => w.wf
  | .cmpiNw32 _ w => w.wf
  | .cmpiNw16 _ w => w.wf
  | .ld _ w => w.wf
  | .st _ w => w.wf
  | .ld32 _ w => w.wf
  | .st32 _ w => w.wf
  | .regRd _ w => w.wf
  | .regWr _ w => w.wf
  | .axisEnable _ w => w.wf
  | .axisDisable _ w => w.wf
  | .axisMove _ w => w.wf
  | .axisStop _ w => w.wf
  | .axisHome _ w => w.wf
  | .axisGear _ w => w.wf
  | .axisClear _ w => w.wf
  | .axisSetpos _ w => w.wf
  | .axisParam _ w => w.wf
  | .axisRead _ w => w.wf
  | .armDefine _ w => w.wf
  | .armEnable _ w => w.wf
  | .armDisable _ w => w.wf
  | .armMove _ w => w.wf
  | .armStop _ w => w.wf
  | .armMpcOn _ w => w.wf
  | .armMpcOff _ w => w.wf
  | .loopLoad _ w => w.wf
  | .loopSwap _ w => w.wf
  | .fbMode _ w => w.wf
  | .fbCompare _ w => w.wf
  | .fbUnarm _ w => w.wf
  | .segLoad _ w => w.wf
  | .segRun _ w => w.wf
  | .draftLoad _ w => w.wf
  | .draftBind _ w => w.wf
  | .draftUnload _ w => w.wf
  | .qpSched _ w => w.wf
  | .qpSchedCopyDone => true
  | .qpStart _ w => w.wf
  | .qpStop _ w => w.wf
  | .qpSubmit _ w => w.wf
  | .qpParam _ w => w.wf
  | .safeLoad _ w => w.wf
  | .safeLoadDecided => true
  | .safeReset _ w => w.wf
  | .recRead _ w => w.wf
  | .recClear _ w => w.wf
  | .recMark _ w => w.wf
  | .pwrSet _ w => w.wf
  | .pwrDomain _ w => w.wf
  | .pairSync _ w => w.wf
  | .deviceTransitionDone => true
  | .domainTransitionDone _ => true
  | .lmWeightWrite _ _ => true
  | .lmHwmClr => true
  | .lmCntClr => true
  | .fbEdge _ _ _ => true
  | .trigPulseEnd _ => true
  | .ssiTransferStart _ => true
  | .ssiWord _ _ _ _ _ => true
  | .wireFault _ => true
  | .faultConditionEnd _ => true
  | .fbCfgWrite _ _ => true
  | .fbTimingWrite _ _ => true
  | .fbSsiWrite _ _ => true
  | .fbSsiLeadWrite _ _ => true
  | .fbTrigCfgWrite _ _ => true
  | .fbTraceW0Read => true
  | .traceClr => true
  | .fbPosLoRead _ => true
  | .ceCfgWrite _ _ => true
  | .ceVmaxWrite _ _ => true
  | .ceAmaxWrite _ _ => true
  | .ceXrLoRead _ => true
  | .cePosOffLoRead _ => true
  | .ceBypassCntClear _ => true
  | .stlCfgWrite _ _ => true
  | .chCntClr => true
  | .chSigLoRead => true
  | .chSchedHashLoRead => true
  | .reedRunWrite _ => true
  | .reedCntClr => true
  | .reedConfigWrite off _ => decide (off.toNat % 4 = 0)
  | .rdSensLastLoRead _ => true
  | .rdCycleLoRead => true
  | .frameCheckDone _ _ _ _ => true
  | .fusionCycleStart => true
  | .fusionDone => true
  | .channelAFieldDone => true
  | .channelAEntryDone => true
  | .channelBEntryDone => true
  | .selftestDone _ _ => true
  | .selvedgeEvaluation => true
  | .crossLinkMessage _ _ => true
  | .lockstepMismatch _ => true
  | .supplyMonitorTrip _ _ => true
  | .pairDiscrepancyTimeout _ _ => true
  | .lightCurtainTimeout _ _ => true
  | .stopTimeout _ target => stopTarget target
  | .testPulseStart _ _ _ => true
  | .testPulseSample _ _ _ _ => true
  | .testPulseEnd _ => true
  | .pulseHoldEnd _ _ _ => true
  | .ossdHighSideCheck _ _ _ => true
  | .ossdLowSideCheck _ _ _ => true
  | .ossdMismatchFault _ _ _ _ => true
  | .darkTestStart _ _ => true
  | .darkTestPass _ _ _ _ => true
  | .darkTestTimeout _ _ _ _ => true
  | .sealDebounceChange _ _ => true
  | .sealUnstableTimeout _ => true
  | .wdExpire _ => true
  | .frameReceive _ _ => true
  | .driveTrafficReceive _ _ _ => true
  | .egressSelect _ => true
  | .launchTimeReached _ _ => true
  | .lateFrame _ _ => true
  | .gclEntryAdvance _ => true
  | .gclCycleStart _ => true
  | .gclSwapRequest _ _ => true
  | .linkChange _ _ => true
  | .fdbWrite _ => true
  | .fdbDelete _ => true
  | .fdbAgeExpire _ => true
  | .cbStreamReset _ => true
  | .ptCntClear _ _ => true
  | .syncReceive _ _ => true
  | .followUpReceive _ _ => true
  | .followUpTimeout _ => true
  | .pdelayReqSend => true
  | .pdelayReqReceive _ _ => true
  | .pdelayRespReceive _ _ _ => true
  | .domainTimeout _ => true
  | .servoUpdate => true
  | .holdoverTimeout => true
  | .ntSwitchRequest _ => true
  | .timeMark => true
  | .ntOfs0Read => true
  | .ntPhaseLoRead => true
  | .ntNowNsRead => true
  | .ntDomPhaseLoRead _ => true
  | .canModeWrite _ _ => true
  | .canModeEffect _ => true
  | .canRestart _ _ => true
  | .canTxsetWrite _ _ _ => true
  | .canTxcancelWrite _ _ _ => true
  | .canRxnewWrite _ _ _ => true
  | .canInvalidWrite _ _ _ => true
  | .canTxAttempt _ => true
  | .canTxComplete _ => true
  | .canBusError _ _ _ => true
  | .canFrameReceive _ m => m.wf
  | .canRecoveryDone _ => true
  | .canCntClear _ _ => true
  | .heartbeatSend => true
  | .heartbeatReceive _ => true
  | .partnerSilent => true
  | .leaseExpire _ => true
  | .standbyLost => true
  | .inputRecordReceive _ => true
  | .adoptLimitExpire => true
  | .safetyRecordReceive _ _ _ => true
  | .stateCopyReceive _ _ => true
  | .solutionCopyReceive _ => true
  | .configFrameReceive _ _ _ _ => true
  | .controlFrameReceive _ _ => true
  | .pairLaneChange _ _ => true
  | .handoverRequest _ => true
  | .pairCntClr => true
  | .syncReqReceive _ _ => true
  | .syncAckReceive _ => true
  | .syncFail => true
  | .syncRetry => true
  | .wrInsertWrite _ => true
  | .ringLinkChange _ _ _ _ => true
  | .alignSend => true
  | .ringFrameReceive _ _ => true
  | .capsSend => true
  | .ringAlignTimeout => true
  | .foreignStale _ => true
  | .wrCntCrcClear _ => true
  | .recordAdmit => true
  | .erCurWrite _ => true
  | .erCntClr => true
  | .erSlogSelWrite _ => true
  | .erSlogDataRead => true
  | .erEpochLoRead => true
  | .aonPwrCmdWrite _ _ => true
  | .wakePin => true
  | .wakeTimer => true
  | .temperatureSample _ => true
  | .supplyEnDrop => true
  | .clusterClockStop _ => true
  | .pllLockLoss _ => true
  | .wearSecond => true
  | .poweredHour _ => true
  | .hwLoad => true
  | .hwCntClr => true
  | .hwImg0Read => true
  | .submissionTailWrite _ _ => true
  | .completionHeadWrite _ _ => true
  | .txRingTailWrite _ _ => true
  | .rxRingTailWrite _ _ => true
  | .hiCfgWrite _ _ => true
  | .hiCounterClear _ => true
  | .spiWrite _ _ => true
  | .spiRead _ => true
  | .spiOtherCommand _ => true
  | .hostReset _ => true
  | .resetNPin => true
  | .powerOnReset => true
  | .porRelease _ _ => true
  | .perst _ => true
  | .pcieLink _ _ _ => true
  | .bootHostGo _ => true
  | .bootImageLoaded _ _ => true
  | .bootHostTimeout => true
  | .otpProgramKey _ => true
  | .otpRaiseSvn _ => true
  | .registerWrite _ _ _ => true
  | .undefinedOpcode _ _ _ w => w.wf
  | .unavailableRead _ _ => true
  | .hostMemoryWrite _ _ => true
  | .safetyInputLevelChange _ _ _ => true
  | .pairAlvInChange _ => true
  | .coreSupplyLow _ => true

end Sys2Proof
end

