-- ==== Sys2Proof/Certificates/Slice0/Obligations.lean ====
section
/-! DEFINITION. What is claimed of the device: one proposition for each obligation, for the provers. -/
open Sys2Proof Sys2Proof.Machine
/-! ### The machine as a whole -/

/-- A step with a command in front of the queue is that command's meaning on the state with the rest of the queue. The queue is the
model's own field (R44 lists what happens at a pick instant; the order of commands is the sender's). -/
def Obligations.StepTakesFrontCommand : Prop :=
  ∀ (c : Instr) (rest : List Instr) (s : State),
    step { s with pending := c :: rest } = exec c { s with pending := rest }

/-- An empty queue: cell time moves on by one tick, 8 ns and the rate correction, and nothing else happens; in OFF nothing happens
at all. That a step without a command is one tick is the model's choice (log 2). -/
def Obligations.IdleStepMovesCellTime : Prop :=
  ∀ s : State, s.pending = [] →
    (s.pw.state = .off → step s = .next s) ∧
    (s.pw.state.live = true →
      step s = .next { s with tb.timeFix := s.tb.timeFix + (8 * 4294967296 + s.tb.incAdj.toInt).toNat })

/-- No command faults and none is refused, whatever its operands and whatever the state. -/
def Obligations.NoCommandStopsTheDevice : Prop :=
  ∀ (c : Instr) (s : State), ∃ t, exec c s = .next t

/-- At reset the memory is in canonical form; that every byte then reads as 0 is the model's choice (log 1). -/
def Obligations.ResetMemoryIsCanonical : Prop :=
  Memory.wf State.reset.mem = true ∧ ∀ a, memRead State.reset.mem a = 0#8

/-- Every step keeps the canonical form of the memory: addresses strictly rising, no default byte listed. -/
def Obligations.StepKeepsMemoryCanonical : Prop :=
  ∀ s t : State, Memory.wf s.mem = true → step s = .next t → Memory.wf t.mem = true

/-- No step takes cell time back (R35), but one that resets the device (R450): there cell time is 0 and the device is in STANDBY or OFF. -/
def Obligations.CellTimeNeverDecreases : Prop :=
  ∀ s t : State, step s = .next t →
    s.tb.timeFix ≤ t.tb.timeFix ∨ (t.tb.timeFix = 0 ∧ (t.pw.state = .standby ∨ t.pw.state = .off))

/-- Whatever command runs, the queue is as before, nothing that has left the chip is taken back, and the one-time-programmable memory
only ever gains: a programmed key hash stays, the minimum security version never falls (R449). -/
def Obligations.CommandsLeaveTheQueue : Prop :=
  ∀ (c : Instr) (s t : State), exec c s = .next t →
    t.pending = s.pending ∧ s.out <:+ t.out ∧ (∀ k, s.boot.keyHash = some k → t.boot.keyHash = some k) ∧
      s.boot.minSvn.toNat ≤ t.boot.minSvn.toNat

/-! ### Local instructions of Treadle (R50 to R78) -/

/-- R76: the ALU instructions, on two registers and on a register and sext(IMM). -/
def Obligations.AluInstructions : Prop :=
  ∀ (f : Fin 16) (w : TWord) (s : State),
    (FlowReady s f [w.ra, w.rb, w.rd] → FormOk s f w 0 0#32 →
      ∀ q ∈ ([(.add f w, .add), (.sub f w, .sub), (.and f w, .and), (.or f w, .or), (.xor f w, .xor), (.shl f w, .shl),
          (.shr f w, .shr), (.sar f w, .sar), (.mul f w, .mul), (.min f w, .min), (.max f w, .max)] : List (Instr × AluOp)),
        WritesReg q.1 s f w (aluValue q.2 ((s.flow f).reg w.ra) ((s.flow f).reg w.rb))) ∧
    (FlowReady s f [w.ra, w.rd] → FormOk s f w 0 0xFFFFFFFF#32 →
      ∀ q ∈ ([(.addi f w, .add), (.subi f w, .sub), (.andi f w, .and), (.ori f w, .or), (.xori f w, .xor), (.shli f w, .shl),
          (.shri f w, .shr), (.sari f w, .sar), (.muli f w, .mul), (.mini f w, .min), (.maxi f w, .max)] : List (Instr × AluOp)),
        WritesReg q.1 s f w (aluValue q.2 ((s.flow f).reg w.ra) (BitVec.ofInt 64 w.imm.toInt)))

/-- R76: the comparisons, over two registers and over a register and sext(IMM). -/
def Obligations.Comparisons : Prop :=
  ∀ (f : Fin 16) (w : TWord) (s : State), 1 ≤ w.rd.toNat → w.rd.toNat ≤ 7 →
    (FlowReady s f [w.ra, w.rb] → FormOk s f w 0 0#32 →
      ∀ q ∈ ([(.cmpEq f w, .eq), (.cmpNe f w, .ne), (.cmpLt f w, .lt), (.cmpLe f w, .le), (.cmpLtu f w, .ltu),
          (.cmpLeu f w, .leu), (.cmpNw32 f w, .nw32), (.cmpNw16 f w, .nw16)] : List (Instr × Cond)),
        WritesPred q.1 s f w (condHolds q.2 ((s.flow f).reg w.ra) ((s.flow f).reg w.rb))) ∧
    (FlowReady s f [w.ra] → FormOk s f w 0 0xFFFFFFFF#32 →
      ∀ q ∈ ([(.cmpiEq f w, .eq), (.cmpiNe f w, .ne), (.cmpiLt f w, .lt), (.cmpiLe f w, .le), (.cmpiLtu f w, .ltu),
          (.cmpiLeu f w, .leu), (.cmpiNw32 f w, .nw32), (.cmpiNw16 f w, .nw16)] : List (Instr × Cond)),
        WritesPred q.1 s f w (condHolds q.2 ((s.flow f).reg w.ra) (BitVec.ofInt 64 w.imm.toInt)))

/-- R75: the immediates, FLOW.STATE and NOP. -/
def Obligations.ImmediatesAndFlowState : Prop :=
  ∀ (f : Fin 16) (w : TWord) (s : State),
    (FlowReady s f [w.rd] → FormOk s f w 0 0xFFFFFFFF#32 →
      WritesReg (.li f w) s f w (BitVec.ofInt 64 w.imm.toInt) ∧
      ∃ v, WritesReg (.lih f w) s f w v ∧ v.toNat / 2 ^ 32 = w.imm.toNat ∧ v.toNat % 2 ^ 32 = ((s.flow f).reg w.rd).toNat % 2 ^ 32) ∧
    (FlowReady s f [w.rd] → FormOk s f w 1 0#32 → WritesReg (.liX f w) s f w (w.ext.getD 0 0#64)) ∧
    (FlowReady s f [w.ra, w.rd] → FormOk s f w 0 0x7F#32 → ∀ g : Fin 16, ((s.flow f).obj w).toNat = g.val →
      WritesReg (.flowState f w) s f w
        (BitVec.ofNat 64 (match (if g = f then FlowState.running else (s.flow g).state) with
          | .idle => 0 | .running => 1 | .waiting => 2 | .fenced => 3 | .stopped => 4))) ∧
    (FlowReady s f [] → FormOk s f w 0 0#32 →
      ∃ t, exec (.nop f w) s = .next t ∧ OnlyFlow s t f ∧ Retires s t f w 0#64 ∧ RegsKept s t f)

/-- R75, R77: loads and stores. The address is the one that the meaning uses, `FlowS.addr`. -/
def Obligations.LoadsAndStores : Prop :=
  ∀ (f : Fin 16) (w : TWord) (s : State), let a := ((s.flow f).addr w).toNat
    (∀ n ∈ [4, 8], Config.sharedBase ≤ a → a + n ≤ Config.sharedBase + 8 * Config.sharedWords → a % n = 0 → FormOk s f w 0 0xFFFFFFFF#32 →
      (FlowReady s f [w.ra, w.rd] → ∃ v : W64, WritesReg (if n = 8 then .ld f w else .ld32 f w) s f w v ∧
        ∀ i < 8, BitVec.extractLsb' (8 * i) 8 v = if i < n then memRead s.mem (a + i) else 0#8) ∧
      (FlowReady s f [w.ra, w.rb] → Memory.wf s.mem = true →
        ∃ t, exec (if n = 8 then .st f w else .st32 f w) s = .next t ∧
          OnlyFlow { s with mem := t.mem } t f ∧ Retires s t f w 0#64 ∧ RegsKept s t f ∧
          (∀ i < n, memRead t.mem (a + i) = BitVec.extractLsb' (8 * i) 8 ((s.flow f).reg w.rb)) ∧
          (∀ x, x < a ∨ a + n ≤ x → memRead t.mem x = memRead s.mem x)))

/-- R57, R60, R77, R467: what is illegal in form retires with its status and has no effect. -/
def Obligations.IllegalLocalInstructions : Prop :=
  ∀ (f : Fin 16) (w : TWord) (s : State), FlowReady s f [w.ra, w.rb, w.rd] →
    let retires := fun (c : Instr) (st : Status) => ∃ t, exec c s = .next t ∧ OnlyFlow s t f ∧ RetiresBad s t f w st
    (∀ opc fn, retires (.undefinedOpcode f opc fn w) .badOpcode) ∧
    (w.imm ≠ 0#32 ∨ w.xw ≠ 0#4 → retires (.add f w) .badOperand) ∧
    (w.rd.toNat = 0 ∨ 8 ≤ w.rd.toNat → retires (.cmpEq f w) .badOperand) ∧
    (((s.flow f).addr w).toNat < Config.sharedBase ∨ Config.sharedBase + 8 * Config.sharedWords ≤ ((s.flow f).addr w).toNat ∨
        ((s.flow f).addr w).toNat % 8 ≠ 0 → retires (.ld f w) .badOperand ∧ retires (.st f w) .badOperand) ∧
    ((s.flow f).pc.toNat + w.imm.toInt < 0 ∨ (Config.sharedWords : Int) ≤ (s.flow f).pc.toNat + w.imm.toInt →
      retires (.br f w) .badOperand)

/-- R75, R467: branches and END. -/
def Obligations.Branches : Prop :=
  ∀ (f : Fin 16) (w : TWord) (s : State), let fl := s.flow f
    let goes := fun (c : Instr) (pc : Nat) => ∃ t, exec c s = .next t ∧ OnlyFlow s t f ∧ (t.flow f).pc = BitVec.ofNat 21 pc ∧
      (t.flow f).prog = fl.prog ∧ (t.flow f).lastStatus = .ok ∧ (t.flow f).state = .running ∧ (t.flow f).p = fl.p ∧
      (t.flow f).ops = fl.ops ∧ (t.flow f).posts = fl.posts ++
        (if w.cq then [okEntry fl (if c = .brLink f w then BitVec.ofNat 64 (fl.pc.toNat + 1) else 0#64)] else []) ∧
      (∀ r, r ≠ w.rd → (t.flow f).reg r = fl.reg r) ∧
      (c = .brLink f w → (t.flow f).reg w.rd = if w.rd = 0#5 then 0#64 else BitVec.ofNat 64 (fl.pc.toNat + 1)) ∧
      (c ≠ .brLink f w → (t.flow f).t = fl.t)
    (∀ p : Nat, (p : Int) = fl.pc.toNat + w.imm.toInt → p < Config.sharedWords → FormOk s f w 0 0xFFFFFFFF#32 →
      (FlowReady s f [] → goes (.br f w) p ∧
        (w.rb.toNat < 8 → fl.pc.toNat + 1 ≤ fl.lastWord →
          goes (.brT f w) (if fl.pred w.rb then p else fl.pc.toNat + 1) ∧
          goes (.brF f w) (if fl.pred w.rb then fl.pc.toNat + 1 else p))) ∧
      (FlowReady s f [w.rd] → goes (.brLink f w) p)) ∧
    (FormOk s f w 0 0#32 → FlowReady s f [w.ra] →
      ((fl.reg w.ra).toNat % 2 ^ 21 < Config.sharedWords → goes (.brReg f w) ((fl.reg w.ra).toNat % 2 ^ 21)) ∧
      ∃ t, exec (.endProg f w) s = .next t ∧ OnlyFlow s t f ∧ RegsKept s t f ∧ (t.flow f).ops = fl.ops ∧ (t.flow f).prog = none ∧
        (t.flow f).state = .idle ∧ (t.flow f).lastStatus = .ok ∧ (t.flow f).posts = fl.posts ++ [okEntry fl (fl.reg w.ra)])

/-- R75, R78, R63, R64: the waits. The sum of WAIT.TIME is taken modulo 2^64 (log 45). -/
def Obligations.Waits : Prop :=
  ∀ (f : Fin 16) (w : TWord) (s : State), let fl := s.flow f
    let done := fun (c : Instr) => ∃ t, exec c s = .next t ∧ OnlyFlow s t f ∧ Retires s t f w 0#64 ∧ RegsKept s t f
    let waits := fun (c : Instr) (x : WaitCond) => ∃ t, exec c s = .next t ∧ OnlyFlow s t f ∧
      t.flow f = { fl with state := .waiting, wait := some x, waitCq := w.cq }
    let wp := (fl.reg w.ra).setWidth 32 + w.imm
    let wt := ((fl.reg w.ra).toNat + w.imm.toNat) % 2 ^ 64
    (FormOk s f w 0 0xFFFFFFFF#32 →
      (FlowReady s f [w.ra] → s.tb.running = true →
        (newer wp s.tb.pickNum = false → done (.waitPick f w)) ∧
        (newer wp s.tb.pickNum = true → (wp - s.tb.pickNum).toNat ≤ 2 ^ 30 → waits (.waitPick f w) (.pick wp))) ∧
      (FlowReady s f [] → s.tb.running = true →
        (w.imm = 0#32 → done (.waitBeat f w)) ∧
        (w.imm ≠ 0#32 → w.imm.toNat ≤ 2 ^ 30 → waits (.waitBeat f w) (.beat (s.tb.beatNum + w.imm)))) ∧
      (FlowReady s f [w.ra] →
        (wt ≤ s.now → done (.waitTime f w)) ∧ (s.now < wt → waits (.waitTime f w) (.time wt)))) ∧
    (FormOk s f w 0 0#32 → FlowReady s f [] →
      (fl.ops = [] → done (.waitOps f w)) ∧ (fl.ops ≠ [] → waits (.waitOps f w) (.ops fl.nextOp))) ∧
    (FormOk s f w 0 0x7F#32 → FlowReady s f [w.ra] → ∀ a : Fin 80, (fl.obj w).toNat = a.val →
      let still := (∃ e ∈ s.pend, e.flow = f ∧ e.op < fl.nextOp ∧ a ∈ e.axes) ∨ (s.axis a).state ∈ [.moving, .homing, .stopping]
      (¬still → done (.waitAxis f w)) ∧ (still → waits (.waitAxis f w) (.axis a fl.nextOp))) ∧
    (∀ x, fl.wait = some x → fl.state = .waiting → flowsRun s = true → compBlocked s f = false → waitHolds s f x = true →
      ∃ t, exec (.waitComplete f) s = .next t ∧ OnlyFlow s t f ∧ RegsKept s t f ∧ (t.flow f).wait = none ∧
        (fl.pc.toNat + 1 ≤ fl.lastWord → (t.flow f).state = .running ∧ (t.flow f).lastStatus = .ok ∧
          (t.flow f).pc = BitVec.ofNat 21 (fl.pc.toNat + 1)) ∧
        (fl.aborting = false → fl.lastWord < fl.pc.toNat + 1 → (t.flow f).state = .idle ∧ (t.flow f).prog = none))

/-! ### Flows, programmes and completion entries (R51, R52, R67 to R73) -/

/-- R67, R83: what is not legal in the present state completes with STATE and fences its flow. -/
def Obligations.FenceOnState : Prop :=
  ∀ (f : Fin 16) (w : TWord) (s : State), s.tb.running = false → FormOk s f w 0 0xFFFFFFFF#32 →
    let fl := s.flow f
    let target := (fl.reg w.ra).setWidth 32 + w.imm
    let fences := fun (c : Instr) (fn : BitVec 32) => ∃ t, exec c s = .next t ∧ RegsKept s t f ∧ (t.flow f).ops = fl.ops ∧
      (∀ g : Fin 16, g ≠ f → t.flow g = s.flow g) ∧ bit t.tr.fenceEvt f.val = true ∧
      { t with tr := s.tr, cr := s.cr } = s.emit 4 0x001#12
        [BitVec.ofNat 32 f.val ||| fn <<< 8 ||| 0x02#32 <<< 16, fl.pc.setWidth 32, s.pw.state.code.setWidth 32 <<< 16] ∧
      (fl.pc.toNat + 1 ≤ fl.lastWord → (t.flow f).state = .fenced ∧ (t.flow f).lastStatus = .state ∧
        (t.flow f).pc = BitVec.ofNat 21 (fl.pc.toNat + 1) ∧
        (t.flow f).posts = fl.posts ++ [{ status := .state, instr := fl.pc, result := 0#64 }])
    (FlowReady s f [w.ra] → ¬(newer target s.tb.pickNum = true ∧ 2 ^ 30 < (target - s.tb.pickNum).toNat) →
      fences (.waitPick f w) 0#32) ∧
    (FlowReady s f [] → w.imm.toNat ≤ 2 ^ 30 → fences (.waitBeat f w) 1#32)

/-- R68, R70, R71: words that retire unexecuted. -/
def Obligations.FencedFlowsSkip : Prop :=
  ∀ (f : Fin 16) (opc : BitVec 8) (fn xw : BitVec 4) (cq : Bool) (s : State) (st : Status), let fl := s.flow f
    flowTakes s f = true →
    (fl.aborting = false ∧ fl.state = .fenced ∧ st = .flowFenced ∨ fl.aborting = false ∧ fl.state = .stopped ∧ st = .aborted ∨
      fl.aborting = true ∧ st = .aborted) →
    ∃ t, exec (.fencedWordRetire f opc fn xw cq) s = .next t ∧ OnlyFlow s t f ∧ RegsKept s t f ∧ (t.flow f).ops = fl.ops ∧
      (opc = 0x00#8 ∧ fn = 1#4 → (t.flow f).prog = none ∧
        (t.flow f).posts = fl.posts ++ [{ status := st, instr := fl.pc, result := 0#64 }]) ∧
      (¬(opc = 0x00#8 ∧ fn = 1#4) → fl.pc.toNat + 1 + xw.toNat ≤ fl.lastWord →
        (t.flow f).pc = BitVec.ofNat 21 (fl.pc.toNat + 1 + xw.toNat) ∧ (t.flow f).prog = fl.prog ∧
        (t.flow f).state = fl.state ∧ (t.flow f).aborting = fl.aborting ∧
        (st = .flowFenced ∨ st = .aborted) ∧
        (t.flow f).posts = fl.posts ++ (if cq ∨ st = .aborted then [{ status := st, instr := fl.pc, result := 0#64 }] else []))

/-- R69, R71: resuming and aborting another flow. -/
def Obligations.ResumeAndAbort : Prop :=
  (∀ (f g : Fin 16) (w : TWord) (s : State), g ≠ f → ((s.flow f).obj w).toNat = g.val → FormOk s f w 0 0x7F#32 →
    let code : W64 := match (s.flow g).state with
      | .idle => 0#64 | .running => 1#64 | .waiting => 2#64 | .fenced => 3#64 | .stopped => 4#64
    let stopped := (s.flow g).state = .fenced ∨ (s.flow g).state = .stopped
    (FlowReady s f [w.ra, w.rd] →
      (stopped → ∃ t, exec (.flowResume f w) s = .next t ∧ Retires s t f w code ∧ RegWritten s t f w.rd code ∧
        t.flow g = (if (s.flow g).prog = none then { s.flow g with state := .idle } else { s.flow g with resumeReq := true }) ∧
        (∀ h : Fin 16, h ≠ f → h ≠ g → t.flow h = s.flow h) ∧
        { t with tr := s.tr, cr := s.cr } = s.emit 4 0x002#12 [BitVec.ofNat 32 g.val ||| BitVec.ofNat 32 f.val <<< 4]) ∧
      (¬stopped → ∃ t, exec (.flowResume f w) s = .next t ∧ OnlyFlow s t f ∧ RegWritten s t f w.rd code ∧
        (t.flow f).lastStatus = .ok ∧
        (w.cq = true → ({ status := .ok, flags := 0x80#8, instr := (s.flow f).pc, result := code } : Post) ∈ (t.flow f).posts))) ∧
    (FlowReady s f [w.ra] → (s.flow g).wait = none →
      ∃ t, exec (.flowAbort f w) s = .next t ∧ Retires s t f w 0#64 ∧ RegsKept s t f ∧
        t.flow g = (if (s.flow g).prog = none then
            { s.flow g with abortReq := false, aborting := false, resumeReq := false, state := .idle }
          else { s.flow g with abortReq := true }) ∧ (∀ h : Fin 16, h ≠ f → h ≠ g → t.flow h = s.flow h) ∧
        { t with tr := s.tr, cr := s.cr } = s.emit 4 0x003#12 [BitVec.ofNat 32 g.val ||| BitVec.ofNat 32 f.val <<< 4])) ∧
  (∀ (g : Fin 16) (s : State), let fl := s.flow g
    flowsRun s = true → fl.abortReq = true → fl.wait = none →
    exec (.flowAbortEffect g) s = .next { s with
      tr.flow := upd s.tr.flow g fun _ => { fl with
        abortReq := false, resumeReq := false, aborting := fl.prog.isSome, state := if fl.prog.isSome then fl.state else .idle } })

/-- R51, R439, R440: the start of a programme. -/
def Obligations.ProgrammesStart : Prop :=
  ∀ (f : Fin 16) (e0 : Vector (BitVec 32) 4) (s : State), let fl := s.flow f; let r := s.hi.sub[f]
    flowsRun s = true → fl.prog = none → fl.wait = none → r.en = true → r.head ≠ r.tail → compBlocked s f = false →
    let at_ := r.base.toNat / 4096 * 4096 + 16 * r.head.toNat
    let e : Vector (BitVec 32) 4 :=
      if r.loc then #v[s.rd32 at_, s.rd32 (at_ + 4), s.rd32 (at_ + 8), s.rd32 (at_ + 12)] else e0
    let a := e[0].toNat + 2 ^ 32 * (e[1].toNat % 256)
    let len := e[2].toNat % 65536 + 1
    let first := (a - 0x2C00000) / 8
    let reserved := e[1].toNat / 256 ≠ 0 ∨ e[2].toNat / 65536 ≠ 0 ∨ e[3] ≠ 0#32
    let placed := Config.sharedBase ≤ a ∧ a + 8 ≤ Config.sharedBase + 8 * Config.sharedWords ∧ a % 8 = 0
    let after := { s with hi.sub := upd s.hi.sub f fun r => { r with head := BitVec.ofNat 12 ((r.head.toNat + 1) % 2 ^ r.depth.toNat) } }
    let refuses := fun (st : Status) => exec (.programmeStart f e0) s = .next { after with
      tr.flow := upd s.tr.flow f fun fl => { fl with
        lastStatus := st, posts := fl.posts ++ [{ status := st, result := BitVec.ofNat 64 a }] } }
    (¬reserved → placed → first + len ≤ Config.sharedWords →
      exec (.programmeStart f e0) s = .next { after with
        tr.flow := upd s.tr.flow f fun fl => { fl with
          prog := some { start := first, len := len }, pc := BitVec.ofNat 21 first
          state := if fl.state = .idle then .running else fl.state } }) ∧
    (reserved ∨ ¬placed → refuses .badOperand) ∧
    (¬reserved → placed → Config.sharedWords < first + len → refuses .length)

/-- R73, R441: a completion entry is written. -/
def Obligations.CompletionEntriesArePosted : Prop :=
  ∀ (f : Fin 16) (p : Post) (rest : List Post) (s : State), let r := s.hi.comp[f]
    (s.flow f).posts = p :: rest → p.op = none → r.en = true → s.domain 3 = .run →
    r.head.toNat < 2 ^ r.depth.toNat → r.tail.toNat < 2 ^ r.depth.toNat → (r.tail.toNat + 1) % 2 ^ r.depth.toNat ≠ r.head.toNat →
    let tail := BitVec.ofNat 12 ((r.tail.toNat + 1) % 2 ^ r.depth.toNat)
    let a := r.base.toNat / 4096 * 4096 + 16 * r.tail.toNat
    let words : List (BitVec 32) := [p.status.code.setWidth 32 ||| BitVec.ofNat 32 f.val <<< 8 |||
      (if r.phase then 0x8000#32 else 0#32) ||| p.flags.setWidth 32 <<< 16, p.instr.setWidth 32, p.result.setWidth 32,
      (p.result >>> 32).setWidth 32]
    let fire := r.irqEn && !r.irqSent
    ∃ u : State,
      (r.loc = false → u = { s with out := .dma (BitVec.ofNat 64 a) words :: s.out }) ∧
      (r.loc = true → Memory.wf s.mem = true → Config.sharedBase ≤ a → a + 16 ≤ Config.sharedBase + 8 * Config.sharedWords →
        u = { s with mem := u.mem } ∧ (∀ x, x < a ∨ a + 16 ≤ x → memRead u.mem x = memRead s.mem x) ∧
        ∀ i < 4, ∀ j < 4, memRead u.mem (a + 4 * i + j) = BitVec.extractLsb' (8 * j) 8 (words.getD i 0#32)) ∧
      let t := { u with
        tr.flow := upd s.tr.flow f fun fl => { fl with posts := rest }
        hi.comp := upd s.hi.comp f fun r => { r with
          tail := tail, phase := if tail = 0#12 then !r.phase else r.phase, irqSent := r.irqSent || fire } }
      exec (.completionPost f) s = .next (if fire then t.raise (f.castLE (by decide)) else t)

/-- R75, R77, R368: register accesses of a flow. What a read or a write of a register does is stated with its block. -/
def Obligations.RegisterAccessByFlows : Prop :=
  ∀ (f : Fin 16) (w : TWord) (s : State), let a := (s.flow f).addr w
    0x100000000 ≤ a.toNat → a.toNat ≤ 0x1012FFFFF → a.toNat % 4 = 0 → FormOk s f w 0 0xFFFFFFFF#32 →
    let u := (s.coreClock f).modFlow f fun fl => { fl with state := .running }
    (FlowReady s f [w.ra, w.rd] →
      ∃ t, exec (.regRd f w) s = .next t ∧
        { t with tr := (busRead u .treadle (a.setWidth 40)).2.tr } = (busRead u .treadle (a.setWidth 40)).2 ∧
        ((busRead u .treadle (a.setWidth 40)).2.tr = u.tr →
          Retires s t f w ((busRead u .treadle (a.setWidth 40)).1.setWidth 64) ∧
          RegWritten s t f w.rd ((busRead u .treadle (a.setWidth 40)).1.setWidth 64))) ∧
    (FlowReady s f [w.ra, w.rb] →
      let value : BitVec 32 := ((s.flow f).reg w.rb).setWidth 32
      let log := if leads s && pairCopied (a.setWidth 40) then
          [logEntry f (logWord 0x16#8 1#4 { w with rd := 0#5, imm := 0#32 } 0#7) 0#32 (words64 a ++ [value])]
        else []
      ∃ v, exec (.regWr f w) s = .next (v.busPut .treadle (a.setWidth 40) value) ∧
        OnlyFlow { s with pr.log := s.pr.log ++ log } v f ∧ Retires s v f w 0#64 ∧ RegsKept s v f)

/-! ### Device operations on axes, arms, loops, channels and segment tables (R79 to R82) -/

/-- R79, R81: the operations on one axis. The effect is applied at once while picks are stopped, else at its effect pick. -/
def Obligations.AxisOperations : Prop :=
  ∀ (f : Fin 16) (w : TWord) (s : State) (a : Fin 80), ((s.flow f).obj w).toNat = a.val →
    let eff := fun (opc : BitVec 8) (fn : BitVec 4) (k : EffKind) => ({
      flow := f, op := (s.flow f).nextOp, axes := [a], kind := k
      opc := opc, fn := fn, obj := BitVec.ofNat 7 a.val, at_ := s.tb.timeFix } : Effect)
    let free := s.sv.sealed = true ∧ s.stopOf a = none
    let st := (s.axis a).state
    (OpForm s f w [w.ra] 0x7F#32 → w.xw = 0#4 → s.lease = true →
      (OpLegal s [.run] 9 → free → (a.val < 64 → ∃ r, s.armOf a = some r ∧ s.armMatches r = true) → st = .disabled →
        TakesEffect (.axisEnable f w) s s f w 0#8 (eff 0x20#8 0#4 .enable)) ∧
      (OpLegal s [.ready, .run] 9 → st ≠ .fault → TakesEffect (.axisDisable f w) s s f w 0#8 (eff 0x20#8 1#4 .disable)) ∧
      (OpLegal s [.ready, .run] 9 → s.sv.sealed = true → ¬((s.axis a).selFault = true ∧ s.stopOf a ≠ none) → st = .fault →
        TakesEffect (.axisClear f w) s s f w 0#8 (eff 0x20#8 6#4 .clear))) ∧
    (OpForm s f w [w.ra] 0x37F#32 → w.xw = 1#4 ∨ w.xw = 4#4 → s.lease = true → OpLegal s [.run] 9 → free → st = .holding ∨ st = .moving →
      underMpc s a = false →
      let target := (w.x 0).toInt + (if w.imm.getLsbD 8 then s.targetOf a else 0);
      sat64 target = target → (s.pax a).par 9 ≤ target → target ≤ (s.pax a).par 10 →
      (w.xw = 4#4 → 1 ≤ (w.x 1).toInt ∧ 1 ≤ (w.x 2).toInt ∧ 1 ≤ (w.x 3).toInt) →
      TakesEffect (.axisMove f w) s s f w 0#8 (eff 0x20#8 2#4 (.move target
        (if w.xw = 4#4 then some ((w.x 1).toInt, (w.x 2).toInt, (w.x 3).toInt) else none) (w.imm.getLsbD 9)))) ∧
    (OpForm s f w [w.ra] 0x17F#32 → w.xw = 0#4 → s.lease = true → OpLegal s [.ready, .run, .safeHold] 9 →
      (st ∈ [.moving, .homing, .geared] → TakesEffect (.axisStop f w) s s f w 0#8 (eff 0x20#8 3#4 (.stop (w.imm.getLsbD 8)))) ∧
      (st ∉ [.moving, .homing, .geared] → ∃ t, exec (.axisStop f w) s = .next t ∧ OpFrame s t f ∧ Accepted s t f w 0x80#8 0#64 ∧
        RegsKept s t f)) ∧
    (OpForm s f w [w.ra] 0xF7F#32 → w.xw = 1#4 → s.lease = true → OpLegal s [.run] 9 → free → st = .holding → underMpc s a = false →
      let m := BitVec.extractLsb' 8 4 w.imm
      m.toNat ≤ 4 → (m = 2#4 ∨ m = 4#4 → measureInvalid s a = false) →
      TakesEffect (.axisHome f w) s s f w 0#8 (eff 0x20#8 4#4 (.home m (w.x 0).toInt))) ∧
    (OpForm s f w [w.ra] 0x77F#32 → w.xw = 0#4 → s.lease = true → OpLegal s [.run] 9 → free → st = .holding →
      ∀ k : Fin 8, k.val = (BitVec.extractLsb' 8 3 w.imm).toNat → s.pg.slot[k] ≠ none →
        TakesEffect (.segRun f w) s s f w 0#8 (eff 0x24#8 1#4 (.segRun k)))

/-- R79: gearing, redefining a position, setting a parameter, reading an item. -/
def Obligations.GearSetposParamRead : Prop :=
  ∀ (f : Fin 16) (w : TWord) (s : State) (a : Fin 80), ((s.flow f).obj w).toNat = a.val →
    let eff := fun (fn : BitVec 4) (k : EffKind) => ({
      flow := f, op := (s.flow f).nextOp, axes := [a], kind := k
      opc := 0x20#8, fn := fn, obj := BitVec.ofNat 7 a.val, at_ := s.tb.timeFix } : Effect)
    let st := (s.axis a).state
    (∀ m : Fin 80, m.val = (BitVec.extractLsb' 8 7 w.imm).toNat → OpForm s f w [w.ra] 0xFF7F#32 →
      w.xw = (if w.imm.getLsbD 15 then 2#4 else 1#4) → s.lease = true → OpLegal s [.run] 9 → s.sv.sealed = true → s.stopOf a = none →
      st = .holding ∨ (st = .geared ∧ (s.pax a).gear.master = m) → (s.axis m).state.closed = true → underMpc s a = false →
      m ≠ a → a ∉ gearChain s 9 m → 1 + (gearChain s 9 m).length + gearHeight s 9 a ≤ 8 →
      let w1 := if w.imm.getLsbD 15 then some (w.x 1).toInt else none
      let behind := w.imm.getLsbD 15 && gearBehind s a m (w.x 1).toInt
      TakesEffect (.axisGear f w) s (if behind then s.pgSet a 1 else s) f w (if behind then 0x04#8 else 0#8)
        (eff 5#4 (.gear m (w.x 0).toInt w1))) ∧
    (OpForm s f w [w.ra] 0x7F#32 → w.xw = 1#4 → s.lease = true → OpLegal s [.ready, .run] 9 → st = .disabled ∨ st = .holding →
      let d := (w.x 0).toInt - (s.slice a).xm
      ∃ t, exec (.axisSetpos f w) s = .next t ∧ Accepted s t f w 0#8 0#64 ∧ RegsKept s t f ∧
        OpFrame { s with fb := t.fb, ce := t.ce, pg := t.pg, hi := t.hi, out := t.out } t f ∧
        (t.slice a).xm = (w.x 0).toInt ∧ (st = .disabled → t.pg = s.pg) ∧
        (st = .holding → (t.slice a).xr = (s.slice a).xr + d ∧ (t.pax a).hold = (s.pax a).hold + d) ∧
        (∀ b, b ≠ a → t.slice b = s.slice b ∧ t.pax b = s.pax b) ∧ (∀ c, c ∉ s.mapped a → t.ch c = s.ch c)) ∧
    (OpForm s f w [w.ra] 0xFF7F#32 → w.xw = 1#4 → OpLegal s [.ready, .run] 9 →
      ∀ p : Nat, p = (BitVec.extractLsb' 8 8 w.imm).toNat → p ≤ 23 → paramBad (s.pax a) p (w.x 0) = false → s.tb.running = true →
        ∃ t, exec (.axisParam f w) s = .next t ∧ OpFrame { s with pend := s.pend ++ [eff 8#4 (.param p (w.x 0))] } t f ∧
          InFlight s t f w none ∧ RegsKept s t f) ∧
    (OpForm s f w [w.ra, w.rd] 0xFF7F#32 → w.xw = 0#4 → OpLegal s [.ready, .run, .safeHold] 9 →
      let i := (BitVec.extractLsb' 8 8 w.imm).toNat
      i ≤ 4 →
      let l := s.slice a
      let v : W64 := if i = 0 then BitVec.setWidth 64 (st.code) else if i = 1 then BitVec.ofInt 64 l.xr
        else if i = 2 then (if l.unknown then 0#64 else BitVec.ofInt 64 l.xm)
        else if i = 3 then (if l.unknown then 0#64 else BitVec.ofInt 64 l.vm)
        else l.sticky.setWidth 64 ||| (s.pax a).sticky.setWidth 64 <<< 32
      ∃ t, exec (.axisRead f w) s = .next t ∧ OpFrame s t f ∧ Accepted s t f w 0#8 v ∧ RegWritten s t f w.rd v)

/-- R79, R81: the operations on an arm. -/
def Obligations.ArmOperations : Prop :=
  ∀ (f : Fin 16) (w : TWord) (s : State) (r : Fin 8), ((s.flow f).obj w).toNat = r.val →
    let axes := s.armAxes r
    let eff := fun (fn : BitVec 4) (k : EffKind) => ({
      flow := f, op := (s.flow f).nextOp, axes := axes, kind := k
      opc := 0x21#8, fn := fn, obj := BitVec.ofNat 7 r.val, at_ := s.tb.timeFix } : Effect)
    let free := s.sv.sealed = true ∧ (s.sv.armPub[r]).stop = none
    (OpForm s f w [w.ra] 0xF7F7F#32 → w.xw = 0#4 → OpLegal s [.ready] 9 →
      ∀ first count : Nat, first = (BitVec.extractLsb' 8 7 w.imm).toNat → count = (BitVec.extractLsb' 16 4 w.imm).toNat →
        1 ≤ count → count ≤ 8 → first + count ≤ 64 →
        (∀ a : Fin 80, (first ≤ a.val ∧ a.val < first + count) ∨ a ∈ axes → (s.axis a).state = .disabled) →
        (∀ a : Fin 80, first ≤ a.val → a.val < first + count → s.armOf a = none ∨ s.armOf a = some r) →
        ∃ t, exec (.armDefine f w) s = .next t ∧ Accepted s t f w 0#8 0#64 ∧ RegsKept s t f ∧
          OpFrame { s with cell.arm := upd s.cell.arm r fun _ => { first := first, count := count } } t f) ∧
    (OpForm s f w [w.ra] 0x7F#32 → w.xw = 0#4 → s.lease = true → axes ≠ [] →
      (OpLegal s [.run] 9 → free → s.armMatches r = true → (∀ a ∈ axes, (s.axis a).state = .disabled) →
        TakesEffect (.armEnable f w) s s f w 0#8 (eff 1#4 .enable)) ∧
      (OpLegal s [.ready, .run] 9 → (∀ a ∈ axes, (s.axis a).state ≠ .fault) →
        TakesEffect (.armDisable f w) s s f w 0#8 (eff 2#4 .disable))) ∧
    (OpForm s f w [w.ra, w.rb] 0x17F#32 → w.xw.toNat = 1 + (s.armDef r).count → s.lease = true → OpLegal s [.run] 9 → free →
      axes ≠ [] → (∀ a ∈ axes, (s.axis a).state = .holding ∨ (s.axis a).state = .moving) → (s.armDef r).mpc = false →
      let start := ((s.flow f).reg w.rb).setWidth 32 + (w.x 0).setWidth 32
      (w.imm.getLsbD 8 = true → newer start s.tb.beatNum = true ∧ (start - s.tb.beatNum).toNat ≤ 2 ^ 30) →
      TakesEffect (.armMove f w) s s f w 0#8 (eff 3#4 (.armMove r (if w.imm.getLsbD 8 then some start else none)
        ((List.range (s.armDef r).count).map fun i => (w.x (1 + i)).toInt)))) ∧
    (OpForm s f w [w.ra] 0x17F#32 → w.xw = 0#4 → s.lease = true →
      (OpLegal s [.ready, .run, .safeHold] 9 →
        ((∃ a ∈ axes, (s.axis a).state ∈ [.moving, .homing, .geared]) →
          TakesEffect (.armStop f w) s s f w 0#8 (eff 4#4 (.armStop r (w.imm.getLsbD 8)))) ∧
        ((∀ a ∈ axes, (s.axis a).state ∉ [.moving, .homing, .geared]) →
          ∃ t, exec (.armStop f w) s = .next t ∧ OpFrame s t f ∧ Accepted s t f w 0x80#8 0#64 ∧ RegsKept s t f)) ∧
      (OpLegal s [.run] 9 → free → axes ≠ [] → (∀ a ∈ axes, (s.axis a).state = .holding ∨ (s.axis a).state = .moving) →
        s.qp.planning = true →
        TakesEffect (.armMpcOn f w) s s f w (if s.qpCurrent then 0#8 else 0x20#8) (eff 5#4 (.mpcOn r))) ∧
      (OpLegal s [.run] 9 → (s.armDef r).mpc = true → TakesEffect (.armMpcOff f w) s s f w 0#8 (eff 5#4 (.mpcOff r))))

/-- R64, R66: what the effects do to the state of one axis, and that an effect whose condition fails is dropped. -/
def Obligations.EffectsOnAxes : Prop :=
  ∀ (s : State) (e : Effect) (a : Fin 80) (k b : BitVec 32), e.axes = [a] → s.pw.state = .run → s.domain 9 = .run →
    (∀ r, (s.armDef r).mpc = false) →
    let st := (s.axis a).state
    let after := (s.applyEffect e k b).axis a
    let free := s.sv.sealed = true ∧ s.stopOf a = none
    (e.kind = .enable → free → deniedEnable s a = false → (s.slice a).unknown = false → st = .disabled → after.state = .holding) ∧
    (e.kind = .disable → st ≠ .fault → after.state = .disabled) ∧
    (e.kind = .clear → s.sv.sealed = true → (s.axis a).selFault = false → st = .fault → after.state = .disabled) ∧
    (∀ t l beat, e.kind = .move t l beat → free → st = .holding ∨ st = .moving →
      after.state = .moving ∧ ((s.applyEffect e k b).pax a).target = t) ∧
    (∀ q, e.kind = .stop q → st ∈ [.moving, .homing, .geared] → after.state = .stopping) ∧
    (∀ n, e.kind = .segRun n → free → s.pg.slot[n] ≠ none → st = .holding → after.state = .moving) ∧
    (e.kind = .enable → st ≠ .disabled → after.state = st ∧ ((s.applyEffect e k b).pax a).sticky.getLsbD 7 = true)

/-- R80, R81: loops, feedback channels and segment tables. -/
def Obligations.LoopsChannelsTables : Prop :=
  ∀ (f : Fin 16) (w : TWord) (s : State), let obj := ((s.flow f).obj w).toNat; let a0 := (w.x 0).toNat
    let placed := Config.sharedBase ≤ a0 ∧ a0 < Config.sharedBase + 8 * Config.sharedWords ∧ a0 % 8 = 0
    (∀ a : Fin 80, obj = a.val → OpForm s f w [w.ra] 0x7F#32 → OpLegal s [.ready, .run] 9 →
      (w.xw = 1#4 → placed → a0 + 96 ≤ Config.sharedBase + 8 * Config.sharedWords → (s.slice a).swapPend = [] →
        let image := memReadList s.mem a0 96
        bankReserved image = false → (imgBank image).outOfRange = false →
        ∃ t, exec (.loopLoad f w) s = .next t ∧ Accepted s t f w 0#8 0#64 ∧ RegsKept s t f ∧
          OpFrame { s with ce.sl := upd s.ce.sl a fun l =>
            if l.bankSel then { l with bankA := imgBank image, loaded := true } else { l with bankB := imgBank image, loaded := true } } t f) ∧
      (w.xw = 0#4 → s.lease = true → (s.axis a).state ≠ .fault →
        (s.tb.running = true → ∃ t, exec (.loopSwap f w) s = .next t ∧ InFlight s t f w none ∧ RegsKept s t f ∧
          OpFrame { s with ce.sl := upd s.ce.sl a fun l =>
            { l with swapPend := l.swapPend ++ [(f, (s.flow f).nextOp, s.tb.timeFix)] } } t f) ∧
        (s.tb.running = false → ∃ t, exec (.loopSwap f w) s = .next t ∧ Accepted s t f w 0#8 0#64 ∧ RegsKept s t f ∧
          OpFrame (s.swapBank a) t f ∧ (t.slice a).bankSel = !(s.slice a).bankSel ∧ (t.slice a).bankA = (s.slice a).bankA ∧
          (t.slice a).bankB = (s.slice a).bankB ∧ (t.slice a).loaded = false))) ∧
    (∀ c : Fin 96, obj = c.val → OpLegal s [.ready, .run] 9 →
      (OpForm s f w [w.ra] 0x37F#32 → w.xw = 0#4 →
        ((s.ch c).mapped = true → ∀ a : Fin 80, a.val = (s.ch c).axis.toNat % 80 → (s.axis a).state = .disabled ∨ (s.axis a).state = .holding) →
        let m := BitVec.extractLsb' 8 2 w.imm
        ∃ t, exec (.fbMode f w) s = .next t ∧ Accepted s t f w 0#8 0#64 ∧ RegsKept s t f ∧
          (t.ch c).mode = (if m = 0#2 then .start else if m = 1#2 then .normal else if m = 2#2 then .test else .recovery) ∧
          (m = 1#2 → (t.ch c).rep = (s.ch c).raw) ∧
          (m ≠ 1#2 ∨ (s.ch c).raw = (s.ch c).rep → OpFrame { s with fb.ch := t.fb.ch } t f ∧ ∀ d, d ≠ c → t.ch d = s.ch d)) ∧
      (OpForm s f w [w.ra] 0x77F#32 → w.xw = 1#4 → s.lease = true → a0 % 65536 = 0 →
        ∃ t, exec (.fbCompare f w) s = .next t ∧ RegsKept s t f ∧
          Accepted s t f w (if 0 ≤ ((s.ch c).rep - (w.x 0).toInt / 65536) * (s.ch c).dir then 0x02#8 else 0#8) 0#64 ∧
          OpFrame { s with fb.ch := upd s.fb.ch c fun h =>
            { h with armed := true, cmp := w.x 0, cmpTrig := Fin.ofNat 8 (BitVec.extractLsb' 8 3 w.imm).toNat } } t f) ∧
      (OpForm s f w [w.ra] 0x7F#32 → w.xw = 0#4 → s.lease = true →
        ∃ t, exec (.fbUnarm f w) s = .next t ∧ Accepted s t f w (if (s.ch c).armed then 0#8 else 0x80#8) 0#64 ∧ RegsKept s t f ∧
          OpFrame { s with fb.ch := upd s.fb.ch c fun h => { h with armed := false } } t f)) ∧
    (∀ k : Fin 8, obj = k.val → OpForm s f w [w.ra] 0x7F#32 → w.xw = 2#4 → OpLegal s [.ready, .run] 9 → placed →
      let n := (w.x 1).toNat
      let image := memReadList s.mem a0 (16 * n)
      let table := (List.range n).map fun i => imgSegment image i
      1 ≤ n → n ≤ 1024 → a0 + 16 * n ≤ Config.sharedBase + 8 * Config.sharedWords → segReserved image n = false →
      (∀ g ∈ table, g.picks ≠ 0 ∧ (g.jump = true → g.next < n)) →
      (∀ a, ¬((s.pax a).src = .seg ∧ (s.pax a).seg.slot = k)) →
      ∃ t, exec (.segLoad f w) s = .next t ∧ Accepted s t f w 0#8 0#64 ∧ RegsKept s t f ∧
        OpFrame { s with pg.slot := upd s.pg.slot k fun _ => some table } t f)

/-! ### Device operations on drafts, Churn, Selvedge, the recorder, power and the pair (R80, R81) -/

/-- R80, R87, R91: drafts. -/
def Obligations.DraftOperations : Prop :=
  ∀ (f : Fin 16) (w : TWord) (s : State) (d : Fin 8), ((s.flow f).obj w).toNat = d.val →
    let st := (s.draft d).state
    let a := (w.x 0).toNat
    (OpForm s f w [w.ra] 0x7F#32 → w.xw = 2#4 → OpLegal s [.ready, .run] 4 → st ≠ .bound → sharedOk (w.x 0) 8 = true →
      (∀ c ∈ draftBad s.mem a (w.x 1).toNat, c.1 = false) → draftCrcOk s.mem a = true → Memory.wf s.mem = true →
      let len := (BitVec.extractLsb' 0 19 (draftWord s.mem a 2)).toNat
      ∃ t, exec (.draftLoad f w) s = .next t ∧ Accepted s t f w 0#8 0#64 ∧ RegsKept s t f ∧
        OpFrame { s with mem := t.mem, lm.slot := upd s.lm.slot d fun x =>
          { x with state := .loaded, nodes := BitVec.extractLsb' 0 13 (draftWord s.mem a 1) } } t f ∧
        (∀ i < len, memRead t.mem (slotBase d + i) = memRead s.mem (a + i)) ∧
        (∀ x, x < slotBase d ∨ slotBase d + len ≤ x → memRead t.mem x = memRead s.mem x)) ∧
    (OpForm s f w [w.ra] 0x377F#32 → w.xw = 0#4 → w.imm.getLsbD 13 = false → OpLegal s [.ready] 4 → st = .loaded →
      (leads s = true → draftCarry s + slotCarrySize s d ≤ 14784) →
      ∃ t, exec (.draftBind f w) s = .next t ∧ Accepted s t f w 0#8 0#64 ∧ RegsKept s t f ∧
        OpFrame { s with lm.slot := upd s.lm.slot d fun x =>
          { x with state := .bound, group := BitVec.extractLsb' 8 3 w.imm, rate := w.imm.getLsbD 12, released := 0, insts := [] } } t f) ∧
    (OpForm s f w [w.ra] 0x7F#32 → w.xw = 0#4 → OpLegal s [.ready, .run] 4 → st ≠ .bound →
      ∃ t, exec (.draftUnload f w) s = .next t ∧ Accepted s t f w 0#8 0#64 ∧ RegsKept s t f ∧
        OpFrame { s with lm.slot := upd s.lm.slot d fun x => { x with state := .empty, nodes := 0#13 } } t f)

/-- R80, R185, R201, R202, R220: the operations of Churn. -/
def Obligations.ChurnOperations : Prop :=
  (∀ (f : Fin 16) (w : TWord) (s : State),
    let job : ChJob := { flow := f, op := (s.flow f).nextOp, w0 := w.x 0, w1 := w.x 1 }
    (∀ d : Fin 8, ((s.flow f).obj w).toNat = d.val → OpForm s f w [w.ra] 0x7F#32 → w.xw = 0#4 → s.lease = true → OpLegal s [.run] 7 →
      s.qp.sched = true → formingDraft s d = true → planStopped s = true →
      ∃ t, exec (.qpStart f w) s = .next t ∧ Accepted s t f w 0#8 0#64 ∧ RegsKept s t f ∧
        OpFrame { s with qp.startAt := some (d, s.tb.timeFix) } t f) ∧
    (OpForm s f w [] 0#32 → w.xw = 0#4 → s.lease = true → OpLegal s [.ready, .run] 7 → (∀ r, (s.armDef r).mpc = false) →
      ∃ t, exec (.qpStop f w) s = .next t ∧ InFlight s t f w none ∧ RegsKept s t f ∧
        OpFrame { s with qp.stopAt := s.qp.stopAt ++ [(f, (s.flow f).nextOp, s.tb.timeFix)] } t f) ∧
    (OpForm s f w [] 0#32 → w.xw = 2#4 → OpLegal s [.ready, .run] 7 → planStopped s = true → sharedOk (w.x 0) 16 = true →
      schBad s w = none → (schImg s w).crcOk = true →
      ∃ t, exec (.qpSched f w) s = .next t ∧ InFlight s t f w none ∧ RegsKept s t f ∧
        OpFrame { s with qp := { s.qp with
          jobs := s.qp.jobs ++ [{ job with crc := (schImg s w).w 11 }], sched := s.qp.sched && !s.qp.jobs.isEmpty } } t f) ∧
    (OpForm s f w [w.rd] 0#32 → w.xw = 2#4 → OpLegal s [.ready, .run] 7 → planStopped s = true →
      sharedOk (w.x 0) 8 = true → sharedOk (w.x 1) 8 = true →
      s.qp.jobs ≠ [] ∨ instCheck s.mem (w.x 0).toNat s.qp.sig s.qp.sched = none ∧
        (w.x 0).toNat + (iWord s.mem (w.x 0).toNat 8).toNat ≤ Config.sharedBase + 8 * Config.sharedWords ∧
        (w.x 1).toNat + solutionBytes (qpDims s.mem) ≤ Config.sharedBase + 8 * Config.sharedWords →
      ∃ t, exec (.qpSubmit f w) s = .next t ∧ InFlight s t f w (some w.rd) ∧ RegsKept s t f ∧
        OpFrame { s with qp.jobs := s.qp.jobs ++ [{ job with submit := true }] } t f) ∧
    (OpForm s f w [] 0#32 → w.xw = 2#4 → OpLegal s [.ready, .run] 7 → s.qp.sched = true → s.qp.cost = none → sharedOk (w.x 0) 8 = true →
      let a := (w.x 0).toNat
      let word := fun n => s.rd32 (a + 4 * n)
      let nw := (word 1).toNat
      let len := (word 2).toNat
      word 0 = 1#32 → word 3 = 0#32 → nw = (BitVec.extractLsb' 16 16 (schWord s.mem 3)).toNat → len ≤ (w.x 1).toNat → len ≤ 65536 →
      16 + 8 * nw ≤ len → a + len ≤ Config.sharedBase + 8 * Config.sharedWords →
      (∀ i < 2 * nw, finite32 (word (4 + i)) = true ∧ flt (f64 (word (4 + i))) fzero = false) →
      let half := costHalf s (!s.qp.costSel)
      ∃ u, exec (.qpParam f w) s = .next (if s.tb.running then u else u.costExchange) ∧ InFlight s u f w none ∧ RegsKept s u f ∧
        OpFrame { s with
          mem := memWriteList s.mem half (memReadList s.mem a len)
          qp.cost := some { flow := f, op := (s.flow f).nextOp } } u f)) ∧
  (∀ (s : State) (j : ChJob) (rest : List ChJob), s.qp.jobs = j :: rest → j.submit = false → qpOn s = true →
    let m := memWriteList s.mem chBase (memReadList s.mem j.w0.toNat j.w1.toNat)
    ∃ t, exec .qpSchedCopyDone s = .next t ∧ t.qp.jobs = rest ∧ ((t.flow j.flow).ops.find? fun o => decide (o.id = j.op)) = none ∧
      (schCrc m chBase j.w1.toNat = j.crc → t.qp.sched = ((rest.map fun k => k.submit).headD true)) ∧
      (schCrc m chBase j.w1.toNat ≠ j.crc → t.qp.sched = (s.qp.sched && (rest.map fun k => k.submit).headD true)))

/-- R80, R253, R270, R410, R412, R416: Selvedge's loads and resets, and the recorder. -/
def Obligations.SafetyAndRecorderOperations : Prop :=
  (∀ (f : Fin 16) (w : TWord) (s : State),
    (OpForm s f w [] 0#32 → w.xw = 2#4 → OpLegal s [.ready] 1 → s.sv.sealed = false → sharedOk (w.x 0) 8 = true →
      (w.x 0).toNat + (w.x 1).toNat ≤ Config.sharedBase + 8 * Config.sharedWords →
      ∃ t, exec (.safeLoad f w) s = .next t ∧ InFlight s t f w none ∧ RegsKept s t f ∧
        let load : SvLoad :=
          { flow := f, op := (s.flow f).nextOp, bytes := memReadList s.mem (w.x 0).toNat (min (w.x 1).toNat 2624), len := (w.x 1).toNat };
        OpFrame { s with sv.loads := s.sv.loads ++ [load] } t f) ∧
    (OpForm s f w [] 0xFF#32 → w.xw = 0#4 → s.lease = true → OpLegal s [.ready, .run] 1 →
      let target := BitVec.extractLsb' 0 8 w.imm
      target.toNat ≤ 31 ∨ target = 0xF0#8 →
      ∃ t, exec (.safeReset f w) s = .next t ∧ InFlight s t f w none ∧ RegsKept s t f ∧
        OpFrame { s with sv.resets := s.sv.resets ++ [(f, (s.flow f).nextOp, target)] } t f) ∧
    (OpForm s f w [w.ra] 0xFFF#32 → w.xw = 0#4 → OpLegal s [.ready, .run, .safeHold] 12 →
      let code := BitVec.extractLsb' 0 12 w.imm
      let v := (s.flow f).reg w.ra
      0x800 ≤ code.toNat →
      ∃ t, exec (.recMark f w) s = .next t ∧ Accepted s t f w 0#8 0#64 ∧ RegsKept s t f ∧
        OpFrame (s.emit 4 code [v.setWidth 32, (v >>> 32).setWidth 32]) t f) ∧
    (OpForm s f w [] 0#32 → w.xw = 0#4 → OpLegal s [.ready, .run, .safeHold] 12 →
      ∃ t, exec (.recClear f w) s = .next t ∧ Accepted s t f w 0#8 0#64 ∧ RegsKept s t f ∧
        OpFrame (({ s with er := { s.er with
          ring := { s.er.ring with tail := s.er.ring.head, used := 0, newest := Vector.replicate 25 none }
          cur := s.er.ring.head, unread := 0 } }).emit 22 0x004#12 [BitVec.ofNat 32 s.erCount]) t f) ∧
    (OpForm s f w [w.rd, w.ra] 0xFFFF#32 → w.xw = 0#4 → OpLegal s [.ready, .run, .safeHold] 12 → Memory.wf s.mem = true →
      let mx := (BitVec.extractLsb' 0 16 w.imm).toNat
      let a := ((s.flow f).reg w.ra).toNat
      sharedOk ((s.flow f).reg w.ra) 4 = true → 64 ≤ mx → a + 4 * mx ≤ Config.sharedBase + 8 * Config.sharedWords →
      ∃ t n, exec (.recRead f w) s = .next t ∧ n ≤ mx ∧ RegWritten s t f w.rd (BitVec.ofNat 64 n) ∧ t.er.ring = s.er.ring ∧
        (∀ x, x < a ∨ a + 4 * n ≤ x → memRead t.mem x = memRead s.mem x) ∧
        (∀ i < n, t.rd32 (a + 4 * i) = ringWord s.mem Config.ringBase Config.ringWords (s.er.cur + i)) ∧
        (s.er.unread = 0 → n = 0 ∧ Accepted s t f w 0#8 0#64) ∧
        ((s.flow f).pc.toNat + 1 + w.xw.toNat ≤ (s.flow f).lastWord →
          (t.flow f).lastStatus = if t.er.unread = 0 then .ok else .okLimited) ∧
        OpFrame { s with mem := t.mem, er := { s.er with cur := t.er.cur, unread := t.er.unread } } t f)) ∧
  (∀ (s : State) (l : SvLoad) (rest : List SvLoad), s.sv.loads = l :: rest →
    let open_ := s.sv.sealed = false ∧ ∀ c, (s.svCh c).state = .unsealed
    let v := validate { s with sv.loads := rest } l.bytes l.len
    ∃ t, exec .safeLoadDecided s = .next t ∧ t.sv.loads = rest ∧
      (¬open_ → t.sv = { s.sv with loads := rest }) ∧
      (open_ → ∀ q, v = some q → t.sv = { s.sv with loads := rest, cfgErr := BitVec.ofNat 32 q.1 ||| BitVec.ofNat 32 q.2 <<< 16 }) ∧
      (open_ → v = none → t.sv.sealed = true ∧ ∀ c, (t.svCh c).state = .sealed))

/-- R80, R421 to R423, R382: power and pair. -/
def Obligations.PowerAndPairOperations : Prop :=
  ∀ (f : Fin 16) (w : TWord) (s : State), w.xw = 0#4 →
    (OpForm s f w [] 7#32 → s.lease = true → OpLegal s [.ready, .run] 0 →
      let v := BitVec.extractLsb' 0 3 w.imm
      (v = 4#3 → s.pw.state = .ready → setOk s f .run = true →
        ∃ t, exec (.pwrSet f w) s = .next t ∧ Accepted s t f w 0#8 0#64 ∧ RegsKept s t f ∧ t.pw.state = .run ∧
          t.pw = { s.pw with state := .run, sticky := t.pw.sticky } ∧ t.tb = s.tb ∧ t.mem = s.mem ∧ t.cell = s.cell) ∧
      (v = 3#3 → s.pw.state = .run → setOk s f .ready = true →
        ∃ t, exec (.pwrSet f w) s = .next t ∧ Accepted s t f w 0#8 0#64 ∧ RegsKept s t f ∧ t.pw.state = .ready ∧ t.tb = s.tb ∧
          t.mem = s.mem ∧ ∀ a, (s.axis a).state ≠ .fault → (t.axis a).state = .disabled) ∧
      (∀ d, (v = 1#3 ∧ d = DevState.standby ∨ v = 2#3 ∧ d = DevState.sleep) → setOk s f d = true → s.pw.state = .ready →
        ∃ t, exec (.pwrSet f w) s = .next t ∧ Accepted s t f w 0#8 0#64 ∧ RegsKept s t f ∧
          OpFrame { s with pw.trans := some { target := d, op := some (f, (s.flow f).nextOp) } } t f) ∧
      ((v = 3#3 ∧ s.pw.state = .ready ∨ v = 4#3 ∧ s.pw.state = .run) →
        ∃ t, exec (.pwrSet f w) s = .next t ∧ Accepted s t f w 0x80#8 0#64 ∧ RegsKept s t f ∧ OpFrame s t f)) ∧
    (OpForm s f w [w.ra] 0x37F#32 → OpLegal s [.ready, .run] 0 → ∀ d : Fin 13, ((s.flow f).obj w).toNat = d.val → 3 ≤ d.val →
      let target := DomState.ofCode (BitVec.extractLsb' 8 2 w.imm)
      (s.domain d = target → ∃ t, exec (.pwrDomain f w) s = .next t ∧ Accepted s t f w 0x80#8 0#64 ∧ RegsKept s t f ∧ OpFrame s t f) ∧
      (s.domain d ≠ target → domainOk s d target = true →
        ∃ t, exec (.pwrDomain f w) s = .next t ∧ InFlight s t f w none ∧ RegsKept s t f ∧
          let trans : DomTrans := { target := target, flow := f, op := (s.flow f).nextOp };
          OpFrame { s with pw.domTrans := upd s.pw.domTrans d fun _ => some trans } t f)) ∧
    (OpForm s f w [] 0#32 → OpLegal s [.ready, .run] 11 → s.pr.en = true → s.pr.role = .alone → pairUp s = true →
      ∃ t, exec (.pairSync f w) s = .next t ∧ Accepted s t f w 0#8 0#64 ∧ RegsKept s t f ∧
        OpFrame { s with out := .pairCtl (.req (syncReq s)) :: s.out, pr.reqAt := some s.now, pr.seqTx := s.pr.seqTx + 1#32 } t f)

/-! ### Cell time, picks, captured reads, counters (R35 to R46) -/

/-- R46, with R38 to R40 and R45: START and APPLY. -/
def Obligations.PicksStartOnTheGrid : Prop :=
  ∀ s : State,
    let v := (BitVec.extractLsb' 0 24 s.tb.stagedPeriod).toNat * 256 + (BitVec.extractLsb' 24 8 s.tb.stagedPeriod).toNat
    let n := s.tb.stagedN.toNat
    let ok := 1000000 ≤ v ∧ v ≤ 32000000 ∧ 1 ≤ n ∧ n ≤ 64
    let org := s.tb.origin.toNat * 2 ^ 32
    let nominal := fun (j : Nat) => org + j * (v * 2 ^ 27)
    let lo := s.tb.timeFix + 1000 * 2 ^ 32
    (s.pw.state ≠ .off → s.pw.state ≠ .ready → exec .tbStart s = .next { s with tb.startRej := true }) ∧
    (s.pw.state = .ready → s.tb.running = true → exec .tbStart s = .next s) ∧
    (s.tb.running = false → s.pw.state = .ready → ¬ok → exec .tbStart s = .next { s with tb.rangeRej := true }) ∧
    (s.tb.running = false → s.pw.state = .ready → ok →
      ∃ t j, exec .tbStart s = .next t ∧ j % n = 0 ∧ lo ≤ nominal j ∧ (∀ i, i % n = 0 → lo ≤ nominal i → j ≤ i) ∧
        t.tb = { s.tb with
          running := true, activePeriod := s.tb.stagedPeriod, activeN := s.tb.stagedN, gridOrigin := org, j := j, first := true
          originShift := s.tb.originShift || decide (org < lo), firstPick := s.tb.startPick + BitVec.ofNat 32 j
          firstBeat := s.tb.startBeat + BitVec.ofNat 32 (j / n), pending := none } ∧
        { t with tb := s.tb, stl := s.stl, er := s.er, hi := s.hi, out := s.out } = s) ∧
    (s.pw.state = .ready → s.tb.running = true → ok →
      exec .tbApply s = .next { s with tb.pending := some (s.tb.stagedPeriod, s.tb.stagedN), tb.applyTick := s.tb.timeFix }) ∧
    (s.pw.state = .ready → s.tb.running = true → ¬ok → exec .tbApply s = .next { s with tb.rangeRej := true }) ∧
    (s.pw.state ≠ .ready ∨ s.tb.running = false →
      exec .tbApply s = .next (({ s with tb.applyRej := true } : State).emit 2 0x001#12
        [s.pw.state.code.setWidth 32 ||| (if s.tb.running then 0x10#32 else 0#32)]))

/-- R22, R39 to R44, R122, R369: the start of a pick. -/
def Obligations.PickStartsWithItsLatches : Prop :=
  ∀ s : State, s.tb.running = true → s.pw.state = .ready ∨ s.pw.state = .run ∨ s.pw.state = .safeHold → s.pr.await = false →
    s.tb.pending = none → 0 < (tickInc s).toNat →
    ∃ u, let edge := s.tb.first = true ∨ s.tb.activeN.toNat ≤ s.tb.phase.toNat + 1
      let nominal := s.tb.gridOrigin + s.tb.j * (s.pickV * 2 ^ 27)
      nominal ≤ u.tb.timeFix ∧ s.tb.timeFix ≤ u.tb.timeFix ∧
      (s.tb.timeFix < nominal → u.tb.timeFix < nominal + (tickInc s).toNat ∧ (u.tb.timeFix - s.tb.timeFix) % (tickInc s).toNat = 0) ∧
      (nominal ≤ s.tb.timeFix → u.tb.timeFix = s.tb.timeFix) ∧
      u.tb.j = s.tb.j + 1 ∧ u.tb.first = false ∧ u.tb.pickTime = BitVec.ofNat 64 (u.tb.timeFix / 2 ^ 32) ∧
      u.tb.pickNum = (if s.tb.first then s.tb.firstPick else s.tb.pickNum + 1#32) ∧
      (edge → u.tb.phase = 0#6 ∧ u.tb.beatNum = if s.tb.first then s.tb.firstBeat else s.tb.beatNum + 1#32) ∧
      (¬edge → u.tb.phase = s.tb.phase + 1#6 ∧ u.tb.beatNum = s.tb.beatNum) ∧
      (s.domain 9 = .run → ∀ c, (s.ch c).cfgNext = none → (s.ch c).timingNext = none → (s.ch c).ssiNext = none → (s.ch c).leadNext = none →
        (u.ch c).latch = (s.ch c).latched (u.tb.timeFix / 2 ^ 32) ∧ (u.ch c).adopt = none) ∧
      (follows u = false → exec .pickInstant s = .next (u.pickWork none)) ∧
      (follows u = true → u.pr.role = .syncing → pairUp u = false → exec .pickInstant s = .next u) ∧
      (follows u = true → ¬(u.pr.role = .syncing ∧ pairUp u = false) →
        (u.pr.early = none → exec .pickInstant s = .next { u with pr.await := true }) ∧
        (∀ ws, u.pr.early = some ws → exec .pickInstant s = .next (({ u with pr.early := none } : State).adoptPick ws)))

/-- Reads with captures: position, time, sensor, safety and wear words that belong together; clears of counters. -/
def Obligations.ReadsCaptureAndClearsZero : Prop :=
  ∀ s : State,
    let hi := fun (v : Int) => (BitVec.ofInt 64 v >>> 32).setWidth 32
    let lo := fun (v : Int) => BitVec.ofInt 32 v
    exec .tbTimeLoRead s =
      .next { s with tb.capTimeHi := (s.now64 >>> 32).setWidth 32, rdata := [s.now64.setWidth 32] } ∧
    exec .tbPickTimeLoRead s =
      .next { s with
        tb := { s.tb with capPickHi := some ((s.tb.pickTime >>> 32).setWidth 32), capPickNum := some s.tb.pickNum }
        rdata := [s.tb.pickTime.setWidth 32] } ∧
    exec .tbPickNumRead s =
      .next { s with tb.capPickNum := none, rdata := [s.tb.capPickNum.getD s.tb.pickNum] } ∧
    exec .rdCycleLoRead s =
      .next { s with rd.capCycleHi := (s.rd.cycle >>> 32).setWidth 32, rdata := [s.rd.cycle.setWidth 32] } ∧
    ((s.domain 9).up = true →
      (∀ c : Fin 96, let l := (s.ch c).latch
        exec (.fbPosLoRead c) s = .next { s with
          fb.ch := upd s.fb.ch c fun h => { h with cap := some (hi l.x, BitVec.ofInt 64 l.v, BitVec.ofNat 64 l.e) }, rdata := [lo l.x] }) ∧
      (∀ a : Fin 80, let l := s.slice a
        exec (.ceXrLoRead a) s = .next { s with
          ce.sl := upd s.ce.sl a fun q => { q with
            cap := some #v[hi l.xr, lo l.vr, hi l.vr, l.uReg, lo l.ic, hi l.ic, lo l.ep, hi l.ep] }
          rdata := [lo l.xr] } ∧
        exec (.cePosOffLoRead a) s = .next { s with
          ce.sl := upd s.ce.sl a fun q => { q with capPosOffHi := hi l.posOff }, rdata := [lo l.posOff] }) ∧
      (s.fb.trace = [] →
        exec .fbTraceW0Read s = .next { s with fb.traceCap := Vector.replicate 4 0#32, rdata := [0#32] }) ∧
      (∀ e r, s.fb.trace = e :: r →
        exec .fbTraceW0Read s = .next { s with fb := { s.fb with trace := r, traceCap := e }, rdata := [e[0]] })) ∧
    ((s.domain 7).up = true →
      exec .chSigLoRead s =
        .next { s with qp.capSigHi := (s.qp.sig >>> 32).setWidth 32, rdata := [s.qp.sig.setWidth 32] } ∧
      exec .chSchedHashLoRead s =
        .next { s with qp.capHashHi := (schHash s >>> 32).setWidth 32, rdata := [(schHash s).setWidth 32] }) ∧
    ((s.domain 8).up = true → ∀ n : Fin 8, let v := (s.rd.sens[n]).last
      exec (.rdSensLastLoRead n) s = .next { s with
        rd.sens := upd s.rd.sens n fun t => { t with capLastHi := (v >>> 32).setWidth 32 }, rdata := [v.setWidth 32] }) ∧
    ((s.domain 12).up = true →
      exec .erEpochLoRead s =
        .next { s with er.capEpochHi := (s.er.epoch >>> 32).setWidth 32, rdata := [s.er.epoch.setWidth 32] }) ∧
    ((s.domain 10).up = true →
      (let w := BitVec.ofInt 96 s.nt.ofs
       exec .ntOfs0Read s = .next { s with
         nt.capOfs := #v[(w >>> 32).setWidth 32, (w >>> 64).setWidth 32], rdata := [w.setWidth 32] }) ∧
      exec .ntPhaseLoRead s = .next { s with nt.capPhaseHi := hi s.nt.e, rdata := [(BitVec.ofInt 64 s.nt.e).setWidth 32] } ∧
      (∀ d : Fin 2, let w := (s.nt.dom[d]).phase
        exec (.ntDomPhaseLoRead d) s = .next { s with
          nt.dom := upd s.nt.dom d fun x => { x with capPhaseHi := (w >>> 32).setWidth 32 }, rdata := [w.setWidth 32] }) ∧
      (let n := s.netTime s.now
       let sec := BitVec.ofInt 48 (n / 1000000000)
       exec .ntNowNsRead s = .next { s with
         nt.capNow := #v[sec.setWidth 32, (BitVec.extractLsb' 32 16 sec).setWidth 32], rdata := [lo (n % 1000000000)] })) ∧
    ((s.domain 4).up = true → ∃ t, exec .hwImg0Read s = .next t ∧ t.rdata = [t.hw.imgCap[0]] ∧
      t.hw = { s.hw with imgCap := t.hw.imgCap } ∧ { t with hw := s.hw, rdata := s.rdata } = s) ∧
    (∀ path addr, (pathOk s path addr = false → exec (.unavailableRead path addr) s = .next s) ∧
      (pathOk s path addr = true → exec (.unavailableRead path addr) s =
        .next { (busRead s path addr).2 with rdata := [(busRead s path addr).1] })) ∧
    ((s.domain 9).up = true →
      exec .traceClr s = .next { s with fb.trace := [] } ∧
      ∀ r : Fin 8, exec (.ceBypassCntClear r) s = .next { s with ce.arm := upd s.ce.arm r fun g => { g with cnt := 0#32 } }) ∧
    ((s.domain 4).up = true →
      exec .lmCntClr s = .next { s with lm.slot := s.lm.slot.map fun x => { x with skip := 0#32, voids := 0#32 } } ∧
      exec .lmHwmClr s = .next { s with lm.hwm := BitVec.ofNat 11 s.lm.ready.length } ∧
      exec .hwCntClr s = .next { s with hw := { s.hw with
        cor := Vector.replicate 7 0#16, unc := Vector.replicate 7 0#8, weak := Vector.replicate 7 0#8 } }) ∧
    ((s.domain 7).up = true → exec .chCntClr s = .next { s with qp.cnt := Vector.replicate 7 0#32 }) ∧
    ((s.domain 8).up = true → ∃ t, exec .reedCntClr s = .next t ∧ { t with rd := s.rd } = s ∧
      t.rd.disCnt = 0#32 ∧ t.rd.latA = 0#16 ∧ t.rd.latB = 0#16 ∧
      t.rd = { s.rd with disCnt := 0#32, latA := 0#16, latB := 0#16, sens := t.rd.sens } ∧
      ∀ n : Fin 8, t.rd.sens[n] = { s.rd.sens[n] with
        acc := 0#32, rejMask := 0#8, rejTime := 0#8, rejLen := 0#8, rejFmt := 0#8, check := 0#16, drop := 0#16 }) ∧
    ((s.domain 12).up = true → exec .erCntClr s = .next { s with er := { s.er with cntLost := 0#32, cntOvr := 0#32 } }) ∧
    ((s.domain 11).up = true →
      exec .pairCntClr s = .next { s with pr.cnt := Vector.replicate 3 0#32 } ∧
      (∀ v, exec (.wrCntCrcClear v) s = .next { s with wr.cntCrc := 0#32 }) ∧
      ∀ n : Fin 4,
        exec (.canCntClear n 0) s = .next { s with can.ctl := upd s.can.ctl n fun c => { c with cntTx := 0#32 } } ∧
        exec (.canCntClear n 1) s = .next { s with can.ctl := upd s.can.ctl n fun c => { c with cntRx := 0#32 } } ∧
        exec (.canCntClear n 2) s = .next { s with can.ctl := upd s.can.ctl n fun c => { c with cntLost := 0#32 } }) ∧
    ((s.domain 10).up = true → ∀ (p : Fin 8) (k : Fin 6),
      exec (.ptCntClear p k) s =
        .next { s with sw.port := upd s.sw.port p fun t => { t with cnt := upd t.cnt k fun _ => 0#32 } }) ∧
    (hiUp s = true →
      exec (.hiCounterClear true) s = .next { s with hi.rxNobuf := 0#32 } ∧
      exec (.hiCounterClear false) s = .next { s with hi := { s.hi with unavailCnt := 0#32, unavailRec := false } })

/-! ### Feedback, trigger outputs, configuration, stepper links (R106 to R129, R131 to R133, R176 to R178) -/

/-- R106, R110, R116, R118: counting. -/
def Obligations.EdgesCount : Prop :=
  ∀ (c : Fin 96) (a b : Option Bool) (s : State), s.domain 9 = .run → let h := s.ch c
    let onA := a = some (!h.levelA)
    let onB := b = some (!h.levelB)
    let riseA := a = some true ∧ h.levelA = false
    let riseB := b = some true ∧ h.levelB = false
    let counts := fun (d : Int) => let e := if h.invDir then -d else d
      (h.raw + e).natAbs ≤ 140737488355327 → h.wireCond = false →
      ∃ t, exec (.fbEdge c a b) s = .next t ∧ (t.ch c).raw = h.raw + e ∧ (h.mode = .normal → (t.ch c).rep = h.raw + e) ∧
        (t.ch c).levelA = a.getD h.levelA ∧ (t.ch c).levelB = b.getD h.levelB ∧
        (∀ i : Fin 96, i ≠ c → t.ch i = s.ch i) ∧ { t with fb := s.fb, hi := s.hi, out := s.out } = s
    let faults := fun (t : State) => (t.ch c).mode = .recovery ∧ (t.ch c).latch.valid = false ∧ (t.ch c).raw = h.raw ∧
      (h.mapped = true → (t.axis (Fin.ofNat 80 h.axis.toNat)).state = .fault)
    (h.inmode = 1#3 → riseA → b = none → h.bTime + 16 ≤ s.now → counts (if h.levelB then -1 else 1)) ∧
    (h.inmode = 2#3 → riseA → ¬riseB → counts 1) ∧ (h.inmode = 2#3 → riseB → ¬riseA → counts (-1)) ∧
    (h.inmode = 2#3 → riseA → riseB → ∃ t, exec (.fbEdge c a b) s = .next t ∧ (t.ch c).raw = h.raw ∧ (t.ch c).rep = h.rep ∧
      (t.ch c).sticky = h.sticky ||| 0x800#13) ∧
    (h.inmode = 3#3 → onA → ¬onB → counts (if h.levelA = h.levelB then 1 else -1)) ∧
    (h.inmode = 3#3 → onB → ¬onA → counts (if h.levelA = h.levelB then -1 else 1)) ∧
    (h.inmode = 3#3 → onA → onB → ∃ t, exec (.fbEdge c a b) s = .next t ∧ faults t) ∧
    (h.inmode = 4#3 → riseA → counts (if h.mapped then (s.pax (Fin.ofNat 80 h.axis.toNat)).spDir else 1)) ∧
    (h.inmode ≠ 0#3 → h.wireCond = false → ∃ t, exec (.wireFault c) s = .next t ∧ faults t ∧ (t.ch c).wireCond = true) ∧
    (h.wireCond = true ∨ h.ssiCond = true → exec (.faultConditionEnd c) s = .next { s with fb.ch := upd s.fb.ch c fun q => { q with
      e := s.now, rawE := s.now, p := none, cnt := 1, lastSame := false, ssiPrevStep := 0, ssiPrevTime := 0
      wireCond := false, ssiCond := false } })

/-- R111 to R113: SSI words. -/
def Obligations.SerialWordsCount : Prop :=
  (∀ (c : Fin 96) (raw : BitVec 40) (par startLow : Bool) (rtd : Option (BitVec 16)) (s : State), s.domain 9 = .run →
     let h := s.ch c
     h.inmode = 5#3 →
     (s.tb.running = true → h.ssiStart = none → exec (.ssiTransferStart c) s = .next { s with
       fb.ch := upd s.fb.ch c fun q => { q with ssiStart := some (s.now, s.tb.pickNum + 1#32) }, out := .ssi c.val :: s.out }) ∧
     (s.tb.running = true → h.ssiStart ≠ none →
       exec (.ssiTransferStart c) s = .next { s with fb.ch := upd s.fb.ch c fun q => { q with ssiAgain := true } }) ∧
     (∀ t0 pick, h.ssiStart = some (t0, pick) → h.ssiAgain = false → 8 ≤ h.bits.toNat → h.bits.toNat ≤ 40 →
       let n := h.bits.toNat
       let pos := raw.toNat % 2 ^ n
       let word := exec (.ssiWord c raw par startLow rtd) s
       (∀ (w : Nat) (r : BitVec 16), startLow = false → rtd = some r → r.toNat ≤ 2000 → h.ssiCond = false → w < 2 ^ n →
         (if h.gray then w ^^^ (w / 2) else w) = pos →
         (h.parity = 1#2 → (parityBit pos n + par.toNat) % 2 = 0) → (h.parity = 2#2 → (parityBit pos n + par.toNat) % 2 = 1) →
         (h.wPrev = none → ∃ t, word = .next t ∧ (t.ch c).raw = w ∧ (t.ch c).rep = w ∧ (t.ch c).wPrev = some w ∧
           (t.ch c).ssiStart = none ∧ ∀ i : Fin 96, i ≠ c → t.ch i = s.ch i) ∧
         (∀ prev (d : Int), h.wPrev = some prev → prev < 2 ^ n → ((w : Int) - prev - d) % 2 ^ n = 0 →
           -(2 ^ (n - 1)) ≤ d → d < 2 ^ (n - 1) → (h.jumpMax ≠ 0#16 → d.natAbs ≤ h.jumpMax.toNat) →
           (-(2 ^ (n - 1)) < d → (h.raw + d).natAbs ≤ 140737488355327 →
             ∃ t, word = .next t ∧ (t.ch c).raw = h.raw + d ∧ (h.mode = .normal → h.rep = h.raw → (t.ch c).rep = h.raw + d) ∧
               (t.ch c).wPrev = some w ∧ (t.ch c).ssiRun = 0 ∧ (t.ch c).ssiStart = none ∧ ∀ i : Fin 96, i ≠ c → t.ch i = s.ch i) ∧
           (d = -(2 ^ (n - 1)) → ∃ t, word = .next t ∧ (t.ch c).mode = .recovery ∧ (t.ch c).raw = h.raw))) ∧
       (startLow = true ∨ rtd = none ∨ (∃ r, rtd = some r ∧ 2000 < r.toNat) →
         ∃ t, word = .next t ∧ (t.ch c).raw = h.raw ∧ (t.ch c).wPrev = h.wPrev ∧ (t.ch c).ssiRun = h.ssiRun + 1 ∧
           (t.ch c).errBad = satInc h.errBad ∧ (t.ch c).ssiStart = none ∧
           (h.ssiRun = 2 → (t.ch c).mode = .recovery ∧ (t.ch c).ssiCond = true) ∧ (h.ssiRun ≠ 2 → (t.ch c).mode = h.mode)))) ∧
  (∀ (t : Fin 8) (s : State) (e : Nat), e ∈ (s.fb.trig[t]).pulses → (∀ x ∈ (s.fb.trig[t]).pulses, e ≤ x) →
     ∃ u, exec (.trigPulseEnd t) s = .next u ∧ u.tb = { s.tb with timeFix := max s.tb.timeFix (e * 2 ^ 32) } ∧
       u.fb = { s.fb with trig := upd s.fb.trig t fun g => { g with pulses := g.pulses.filter fun x => decide (u.now < x) } } ∧
       { u with tb := s.tb, fb := s.fb, out := s.out } = s ∧
       u.out = (if (u.fb.trig[t]).pulses = [] ∧ (s.pr.role = .active ∨ s.pr.role = .alone) then .trig t.val (s.fb.trig[t]).pol :: s.out
         else s.out))

/-- R24, R107: configuration of channels and trigger outputs. -/
def Obligations.ChannelConfiguration : Prop :=
  ∀ (c : Fin 96) (v : BitVec 32) (s : State), (s.domain 9).up = true → let h := s.ch c
    let inUse := h.mapped = true ∧ (s.axis (Fin.ofNat 80 h.axis.toNat)).state ≠ .disabled
    let accepts := fun (i : Instr) (keep now : FbCh → FbCh) =>
      (s.tb.running = true → exec i s = .next { s with fb.ch := upd s.fb.ch c keep }) ∧
      (s.tb.running = false → h.cfgNext = none → h.timingNext = none → h.ssiNext = none → h.leadNext = none →
        exec i s = .next { s with fb.ch := upd s.fb.ch c fun q => { now q with
          raw := 0, rep := 0, dirNeg := false, armed := false, mode := .start, e := s.now, rawE := s.now, p := none, cnt := 1
          lastSame := false, wPrev := none, ssiRun := 0, ssiCond := false, wireCond := false, ssiStart := none, ssiAgain := false, ssiPrevStep := 0
          ssiPrevTime := 0 } })
    let refuses := fun (i : Instr) => ∃ t, exec i s = .next t ∧
      t.fb = { s.fb with ch := upd s.fb.ch c fun q => { q with sticky := q.sticky ||| 0x200#13 } } ∧
      { t with fb := s.fb, hi := s.hi, out := s.out } = s
    let cfgOk := (BitVec.extractLsb' 0 3 v).toNat ≤ 5 ∧ ((BitVec.extractLsb' 0 3 v) = 5#3 → c.val ≤ 31) ∧
      (BitVec.extractLsb' 10 7 v).toNat ≤ 79
    let tssOk := 1 ≤ (BitVec.extractLsb' 0 10 v).toNat ∧ (BitVec.extractLsb' 0 10 v).toNat ≤ 1000
    let ssiOk := 120 ≤ (BitVec.extractLsb' 10 14 v).toNat ∧ (BitVec.extractLsb' 10 14 v).toNat ≤ 12000 ∧
      BitVec.extractLsb' 6 2 v ≠ 3#2 ∧ 8 ≤ (BitVec.extractLsb' 0 6 v).toNat ∧ (BitVec.extractLsb' 0 6 v).toNat ≤ 40
    (¬inUse → cfgOk → accepts (.fbCfgWrite c v) (fun q => { q with cfgNext := some v }) fun q => { q with
      inmode := BitVec.extractLsb' 0 3 v, invDir := v.getLsbD 3, filt := BitVec.extractLsb' 4 6 v
      axis := BitVec.extractLsb' 10 7 v, mapped := v.getLsbD 17 }) ∧
    (¬inUse → tssOk → accepts (.fbTimingWrite c v) (fun q => { q with timingNext := some v }) fun q => { q with
      tss := BitVec.extractLsb' 0 10 v, debounce := BitVec.extractLsb' 16 16 v }) ∧
    (¬inUse → ssiOk → accepts (.fbSsiWrite c v) (fun q => { q with ssiNext := some v }) fun q => { q with
      bits := BitVec.extractLsb' 0 6 v, parity := BitVec.extractLsb' 6 2 v, gray := v.getLsbD 8, ssiDiv := BitVec.extractLsb' 10 14 v }) ∧
    (¬inUse → accepts (.fbSsiLeadWrite c v) (fun q => { q with leadNext := some v }) fun q => { q with
      lead := BitVec.extractLsb' 0 16 v, jumpMax := BitVec.extractLsb' 16 16 v }) ∧
    (inUse ∨ ¬cfgOk → refuses (.fbCfgWrite c v)) ∧ (inUse ∨ ¬tssOk → refuses (.fbTimingWrite c v)) ∧
    (inUse ∨ ¬ssiOk → refuses (.fbSsiWrite c v)) ∧ (inUse → refuses (.fbSsiLeadWrite c v)) ∧
    (∀ t : Fin 8,
      (BitVec.extractLsb' 0 16 v = 0#16 → exec (.fbTrigCfgWrite t v) s = .next { s with fb.trigRej := true }) ∧
      (BitVec.extractLsb' 0 16 v ≠ 0#16 → exec (.fbTrigCfgWrite t v) s = .next { s with
        fb.trig := upd s.fb.trig t fun g => { g with width := BitVec.extractLsb' 0 16 v, pol := v.getLsbD 16 } }))

/-- R24, R97, R133, R226, R227: configuration of slices, weights and Reed. -/
def Obligations.AxisConfiguration : Prop :=
  (∀ (a : Fin 80) (v : BitVec 32) (s : State), (s.domain 9).up = true →
    let ch := (BitVec.extractLsb' 4 7 v).toNat
    let ok := (s.axis a).state = .disabled ∧ BitVec.extractLsb' 16 4 v ≠ 0#4 ∧
      (v.getLsbD 2 = true ∨ ∃ c : Fin 96, c.val = ch ∧ (s.ch c).mapped = true ∧ (s.ch c).axis.toNat = a.val)
    (ok → s.tb.running = true → exec (.ceCfgWrite a v) s = .next { s with ce.sl := upd s.ce.sl a fun l => { l with cfgNext := some v } }) ∧
    (ok → s.tb.running = false → exec (.ceCfgWrite a v) s = .next { s with ce.sl := upd s.ce.sl a fun l => { l with
      outmode := BitVec.extractLsb' 0 2 v, src := v.getLsbD 2, ch := BitVec.extractLsb' 4 7 v, missMax := BitVec.extractLsb' 16 4 v
      cfgNext := none, posOff := if v.getLsbD 2 = l.src then l.posOff else 0, known := false
      xm := if v.getLsbD 2 then 0 else l.xm, vm := if v.getLsbD 2 then 0 else l.vm, missRun := 0 } }) ∧
    (¬ok → ∃ t, exec (.ceCfgWrite a v) s = .next t ∧
      t.ce = { s.ce with sl := upd s.ce.sl a fun l => { l with sticky := l.sticky ||| 0x200#11 } } ∧
      { t with ce := s.ce, hi := s.hi, out := s.out } = s)) ∧
  (∀ (a : Fin 80) (v : BitVec 64) (s : State), (s.domain 9).up = true → 1 ≤ v.toInt →
    (s.tb.running = true →
      exec (.ceVmaxWrite a v) s =
        .next { s with ce.sl := upd s.ce.sl a fun l => { l with vmaxLo := v.setWidth 32, vmaxNext := some v } } ∧
      exec (.ceAmaxWrite a v) s =
        .next { s with ce.sl := upd s.ce.sl a fun l => { l with amaxLo := v.setWidth 32, amaxNext := some v } }) ∧
    (s.tb.running = false →
      exec (.ceVmaxWrite a v) s = .next { s with ce.sl := upd s.ce.sl a fun l => { l with vmaxLo := v.setWidth 32, vmax := v } } ∧
      exec (.ceAmaxWrite a v) s = .next { s with ce.sl := upd s.ce.sl a fun l => { l with amaxLo := v.setWidth 32, amax := v } })) ∧
  (∀ (g : Fin 8) (v : BitVec 32) (s : State), (s.domain 4).up = true →
    (BitVec.extractLsb' 0 8 v ≠ 0#8 →
      exec (.lmWeightWrite g v) s = .next { s with lm.weight := upd s.lm.weight g fun _ => BitVec.extractLsb' 0 8 v }) ∧
    (BitVec.extractLsb' 0 8 v = 0#8 → exec (.lmWeightWrite g v) s = .next { s with lm.weightRej := true })) ∧
  (∀ (off : BitVec 12) (v : BitVec 32) (s : State), s.rd.run = false →
    (s.sv.sealed = true → exec (.reedConfigWrite off v) s = .next s) ∧
    (s.sv.sealed = false →
      exec (.reedConfigWrite 0x10#12 v) s = .next { s with rd := { s.rd with
        cx := BitVec.extractLsb' 0 8 v, cy := BitVec.extractLsb' 8 8 v, cz := BitVec.extractLsb' 16 8 v } } ∧
      exec (.reedConfigWrite 0x14#12 v) s = .next { s with rd := { s.rd with
        edge := BitVec.extractLsb' 0 7 v, maskInfl := BitVec.extractLsb' 16 10 v, tolf := BitVec.extractLsb' 28 4 v } } ∧
      (∀ i : Fin 3, exec (.reedConfigWrite (BitVec.ofNat 12 (0x18 + 4 * i.val)) v) s =
        .next { s with rd.org := upd s.rd.org i fun _ => v }) ∧
      exec (.reedConfigWrite 0x24#12 v) s = .next { s with rd.gridId := v } ∧
      ∀ n : Fin 8, exec (.reedConfigWrite (BitVec.ofNat 12 (0x100 + 0x20 * n.val)) v) s =
        .next { s with rd.sens := upd s.rd.sens n fun t => { t with en := v.getLsbD 0, period := BitVec.extractLsb' 12 20 v } })) ∧
  (∀ (v : BitVec 32) (s : State),
    (v.getLsbD 0 = false →
      exec (.reedRunWrite v) s = .next { s with rd := { s.rd with run := false, fusing := none, chA := [], chB := [] } }) ∧
    (v.getLsbD 0 = true → s.rd.run = false → s.rd.gridOk = true → (∃ n : Fin 8, (s.rd.sens[n]).en = true) → s.domain 8 = .run →
      ∃ t, exec (.reedRunWrite v) s = .next t ∧ { t with rd := s.rd } = s ∧ t.rd = { s.rd with run := true, waitFirst := true, sens := t.rd.sens } ∧
        ∀ n : Fin 8, t.rd.sens[n] = { s.rd.sens[n] with slot := Vector.replicate 3 {}, order := [] }))

/-- R153, R176 to R178: stepper links and the planner. -/
def Obligations.StepperFrames : Prop :=
  (∀ (n : Fin 16) (s : State), let l := s.stl[n]
    let a : Fin 80 := Fin.ofNat 80 l.axis.toNat
    s.pw.state = .ready ∨ s.pw.state = .run → l.en = true → s.tb.running = true → l.frame < l.subActive.toNat →
    ∃ t w, exec (.stlFrame n) s = .next t ∧ .stl n.val w :: s.out <:+ t.out ∧
      let x := l.xPrev + ((l.xCur - l.xPrev) * (l.frame + 1)).tdiv l.subActive.toNat
      let ad := l.addr x
      let far := l.sent = true ∧ 255 < (ad - l.last).toInt.natAbs
      BitVec.extractLsb' 0 10 w = ad ∧ w.getLsbD 18 = (s.axis a).state.closed ∧ BitVec.extractLsb' 20 4 w = 10#4 ∧
      BitVec.extractLsb' 0 8 w ^^^ BitVec.extractLsb' 8 8 w ^^^ BitVec.extractLsb' 16 8 w ^^^ BitVec.extractLsb' 24 8 w = 0xFF#8 ∧
      ((t.stl[n]).frame = l.frame + 1 ∧ (t.stl[n]).last = ad ∧ (t.stl[n]).sent = true) ∧
      (∀ m : Fin 16, m ≠ n → t.stl[m] = s.stl[m]) ∧
      s.tb.pickTime.toNat + 8 * (l.frame * s.pickV / (256 * l.subActive.toNat)) ≤ t.now ∧
      (far → (t.stl[n]).fast = true ∧ (t.axis a).state = .fault) ∧
      (¬far → (t.stl[n]).fast = l.fast ∧ { t with tb := s.tb, stl := s.stl, out := s.out } = s)) ∧
  (∀ (n : Fin 16) (v : BitVec 32) (s : State), (s.domain 9).up = true → let l := s.stl[n]
    let ax := BitVec.extractLsb' 0 7 v
    let sub := BitVec.extractLsb' 9 5 v
    let div := BitVec.extractLsb' 24 8 v
    let a : Fin 80 := Fin.ofNat 80 ax.toNat
    64 ≤ ax.toNat → ax.toNat ≤ 79 → 1 ≤ sub.toNat → sub.toNat ≤ 16 → 24 ≤ div.toNat → div.toNat ≤ 240 →
    (s.axis (Fin.ofNat 80 l.axis.toNat)).state = .disabled → (s.axis a).state = .disabled →
    (v.getLsbD 7 = true → (s.slice a).outmode = 3#2 ∧ ∀ m : Fin 16, m ≠ n → (s.stl[m]).en = true → (s.stl[m]).axis ≠ ax) →
    ∃ t, exec (.stlCfgWrite n v) s = .next t ∧ (∀ m : Fin 16, m ≠ n → t.stl[m] = s.stl[m]) ∧
      { t with stl := s.stl, er := s.er, hi := s.hi, out := s.out } = s ∧
      let q := t.stl[n]
      q.axis = ax ∧ q.en = v.getLsbD 7 ∧ q.inv = v.getLsbD 8 ∧ q.sub = sub ∧ q.div = div ∧
      q.subActive.toNat ≤ sub.toNat ∧ 1 ≤ q.subActive.toNat ∧ (960 * div.toNat ≤ s.pickV → 960 * div.toNat * q.subActive.toNat ≤ s.pickV) ∧
      (∀ k ≤ sub.toNat, 1 ≤ k → 960 * div.toNat * k ≤ s.pickV → k ≤ q.subActive.toNat)) ∧
  (∀ (a : Fin 80) (s : State), (s.domain 9).up = true → s.tb.running = true → let p := s.pax a
    p.samples ≠ [] → p.samples.length ≤ 64 → p.done = false →
    ∃ t x, exec (.plannerSample a) s = .next t ∧ (t.pax a).samples = p.samples ++ [x] ∧ (t.pax a).done = x.ends ∧
      t.pax a = { p with pl := (t.pax a).pl, seg := (t.pax a).seg, samples := p.samples ++ [x], done := x.ends } ∧
      (∀ b : Fin 80, b ≠ a → t.pax b = s.pax b) ∧ { t with pg := s.pg } = s)

/-! ### Loom, Churn, Reed (R84 to R105, R182 to R246) -/

/-- R94 to R103: dispatch, start and completion of nodes. -/
def Obligations.LoomDispatches : Prop :=
  ∀ (s : State), s.domain 4 = .run →
    (∀ r rest, s.lm.waiting = r :: rest → s.lm.ready.length < 1024 →
      ∃ t, exec .readyListEntry s = .next t ∧ t.lm.ready = s.lm.ready ++ [r] ∧ t.lm.waiting = rest ∧
        s.lm.ready.length + 1 ≤ t.lm.hwm.toNat ∧ t.lm.shuttle = s.lm.shuttle ∧ { t with lm := s.lm } = s) ∧
    (∀ sh : Fin 16, s.domain (if sh.val < 8 then 5 else 6) = .run →
      (s.lm.shuttle[sh] = none → (∀ g : Fin 8, s.lm.weight[g] ≠ 0#8) → (∃ g, groupHead s g sh ≠ none) →
        ∃ t g n, exec (.nodeSelect sh) s = .next t ∧ groupHead s g sh = some n ∧ n ∈ s.lm.ready ∧ t.lm.rr = g ∧
          0 ≤ t.lm.deficit[g] ∧ t.lm.ready = s.lm.ready.filter (fun r => decide (r ≠ n)) ∧ t.lm.shuttle[sh] = some (n, false) ∧
          (∀ k : Fin 16, k ≠ sh → t.lm.shuttle[k] = s.lm.shuttle[k]) ∧ { t with lm := s.lm } = s) ∧
      (∀ r, s.lm.shuttle[sh] = some (r, false) →
        (∃ t, exec (.nodeStart sh true) s = .next t ∧ t.lm.shuttle = (upd s.lm.shuttle sh fun _ => some (r, true)) ∧
          t.cr.clk.getLsbD sh.val = true ∧ ((s.desc r.slot r.node).forms = false → t.lm = { s.lm with shuttle := t.lm.shuttle }) ∧
          ((s.desc r.slot r.node).forms = true → ∀ n, t.node r.slot r.count r.node = some n → n.credit = true) ∧
          { t with lm := s.lm, cr := s.cr } = s) ∧
        ∃ t, exec (.nodeStart sh false) s = .next t ∧ t.lm.shuttle[sh] = none ∧ t.lm.stVoid = true) ∧
      (∀ r out, s.lm.shuttle[sh] = some (r, true) →
        ∃ t, exec (.nodeComplete sh out) s = .next t ∧ t.lm.shuttle[sh] = none ∧
          (∀ n, t.node r.slot r.count r.node = some n → n.phase = .completed ∨ n.phase = .released) ∧
          (out = .notFinite ∨ out = .memError → t.lm.stVoid = true) ∧
          (∀ a b, out = .stores [(a, b)] → Memory.wf s.mem = true → Config.sharedBase ≤ a.toNat →
            a.toNat + b.length ≤ Config.sharedBase + 8 * Config.sharedWords → ∀ i (h : i < b.length), memRead t.mem (a.toNat + i) = b[i])))

/-- R183 to R201: solves. -/
def Obligations.SolvesStartAndEnd : Prop :=
  ∀ (s : State), s.domain 7 = .run →
    (∀ i rest, s.qp.insts = i :: rest → i.solving = false → s.qp.planning = true →
      let chk := instCheck s.mem (chInst i.buf) s.qp.sig s.qp.sched
      (chk = none → ∃ t, exec .solveStart s = .next t ∧ t.qp.insts = { i with solving := true } :: rest ∧ t.qp.solveStart = s.now ∧
        { t with qp := s.qp, cr := s.cr, er := s.er, hi := s.hi, out := s.out } = s) ∧
      (∀ e, chk = some e → ∃ t, exec .solveStart s = .next t ∧ t.qp.insts = rest ∧ t.qp.cnt[(6 : Fin 7)] = satAdd s.qp.cnt[(6 : Fin 7)] 1 ∧
        { t with qp := s.qp, er := s.er, hi := s.hi, out := s.out } = s)) ∧
    (∀ i rest, s.qp.insts = i :: rest → i.solving = true →
      let r := qpSolve (qpCfgOf s) (chInst i.buf) s.mem
      ∃ t, exec .solveEnd s = .next t ∧ t.qp.insts = rest ∧ t.qp.lastIter = BitVec.ofNat 8 r.iter ∧ t.qp.lastIndex = i.index ∧
        (r.how = .converged → t.qp.lastResult = 0#3 ∧ t.qp.cnt[(0 : Fin 7)] = satAdd s.qp.cnt[(0 : Fin 7)] 1 ∧
          (leads s = false → t.qp.waiting = some (i.index, g64 s.mem (chInst i.buf + 16)))) ∧
        (r.how ≠ .converged → t.qp.lastResult = (if r.how = .iterCap then 1#3 else 2#3) ∧ t.qp.waiting = s.qp.waiting ∧
          t.qp.cnt[(2 : Fin 7)] = satAdd s.qp.cnt[(2 : Fin 7)] 1)) ∧
    (∀ j rest, s.qp.insts = [] → s.qp.jobs = j :: rest → j.submit = true →
      (j.solving = false → instCheck s.mem j.w0.toNat s.qp.sig s.qp.sched = none →
        j.w1.toNat + solutionBytes (qpDims s.mem) ≤ Config.sharedBase + 8 * Config.sharedWords →
        ∃ t, exec .solveStart s = .next t ∧ t.qp.jobs = { j with solving := true } :: rest ∧ t.qp.solveStart = s.now) ∧
      (j.solving = true → ∃ t, exec .solveEnd s = .next t ∧ t.qp.jobs = rest ∧ t.qp.waiting = s.qp.waiting ∧
        ((t.flow j.flow).ops.find? fun o => decide (o.id = j.op)) = none))

/-- R230 to R237: frames and fusion. -/
def Obligations.FramesAndFusion : Prop :=
  ∀ (s : State), reedRuns s = true →
    (∀ (i : Fin 8) (j : Fin 3), let q := s.rd.sens[i]
      let l := q.slot[j]
      l.busy = true → l.done = true → l.accepted = false →
      (l.used = false → frameCause s i j = none → ∃ t, exec (.frameCheckDone i j true true) s = .next t ∧
        t.rd.sens[i] = { q with acc := satInc q.acc, last := BitVec.ofNat 64 l.capture, order := q.order ++ [j]
                                slot := upd q.slot j fun x => { x with accepted := true } } ∧
        { t with rd := s.rd } = s) ∧
      (∀ c, frameCause s i j = some c → ∃ t, exec (.frameCheckDone i j true true) s = .next t ∧ (t.rd.sens[i]).slot[j] = {} ∧
        (t.rd.sens[i]).acc = q.acc ∧ (t.rd.sens[i]).order = q.order ∧
        (c = 1 → (t.rd.sens[i]).rejLen = satInc (satInc q.rejLen)) ∧ (c = 2 → (t.rd.sens[i]).rejTime = satInc (satInc q.rejTime)) ∧
        (c = 3 → (t.rd.sens[i]).rejMask = satInc (satInc q.rejMask)) ∧
        (c = 0 ∨ c = 4 → (t.rd.sens[i]).rejFmt = satInc (satInc q.rejFmt)) ∧ (∀ k : Fin 8, k ≠ i → t.rd.sens[k] = s.rd.sens[k]) ∧
        { t with rd := s.rd, er := s.er, hi := s.hi, out := s.out } = s) ∧
      (∀ okA okB, okA ≠ okB → frameCause s i j = none → ∃ t, exec (.frameCheckDone i j okA okB) s = .next t ∧
        (t.rd.sens[i]).slot[j] = {} ∧ (t.rd.sens[i]).check = satInc q.check ∧ (t.rd.sens[i]).acc = q.acc ∧
        (∀ k : Fin 8, k ≠ i → t.rd.sens[k] = s.rd.sens[k]) ∧ { t with rd := s.rd, er := s.er, hi := s.hi, out := s.out } = s)) ∧
    (fusionReady s = true → ∃ t c, exec .fusionCycleStart s = .next t ∧ t.rd.fusing = some c ∧ c.cycle = s.rd.cycle + 1#64 ∧
      t.rd.cycle = c.cycle ∧ c.buf = s.rd.nextBuf ∧ t.rd.nextBuf = !s.rd.nextBuf ∧
      (c.frames.map fun q => q.1) = (fins 8).filter (fun i => (s.rd.sens[i]).en) ∧
      (∀ q ∈ c.frames, (s.rd.sens[q.1]).order.getLast? = some q.2 ∧ c.stime ≤ ((s.rd.sens[q.1]).slot[q.2]).capture) ∧
      (∃ q ∈ c.frames, c.stime = ((s.rd.sens[q.1]).slot[q.2]).capture) ∧
      { t with rd := s.rd, cr := s.cr } = s) ∧
    (∀ c, s.rd.fusing = some c → Memory.wf s.mem = true →
      let g := s.rd.grid
      let n := g.count / 16
      ∃ t, exec .fusionDone s = .next t ∧ t.rd.fusing = none ∧ t.rd.chA.length = s.rd.chA.length + 1 ∧
        t.rd.chB.length = s.rd.chB.length + 1 ∧
        (∀ i < n, ∀ k < 16, BitVec.extractLsb' (2 * k) 2 (t.rd32 (occBase c.buf + 4 * i)) = BitVec.ofNat 2 (fuse s c (g.xyz (16 * i + k)))) ∧
        (∀ x, x < occBase c.buf ∨ occBase c.buf + 4 * n ≤ x → memRead t.mem x = memRead s.mem x) ∧
        { t with mem := s.mem, rd := s.rd } = s)

/-- R234, R238 to R244: the two channels. -/
def Obligations.DistanceEntries : Prop :=
  ∀ (s : State) (w : ReedWork) (rest : List ReedWork), reedRuns s = true → Memory.wf s.mem = true →
    let wrote := fun (t : State) (base : Nat) (ws : List (BitVec 32)) => ws.length = 88 ∧
      (∀ n (h : n < ws.length), t.rd32 (base + 4 * n) = ws[n]) ∧
      ∀ x, x < base ∨ base + 352 ≤ x → memRead t.mem x = memRead s.mem x
    (s.rd.chA = w :: rest → w.done = false → ∃ t, exec .channelAFieldDone s = .next t ∧
      t.rd = { s.rd with chA := { w with done := true, snap := newestSnap s } :: rest } ∧
      (∀ x, x < 0x400000 ∨ 0x400000 + (fieldBytes s.mem s.rd.grid w.cyc.buf).length ≤ x → memRead t.mem x = memRead s.mem x) ∧
      { t with mem := s.mem, rd := s.rd } = s) ∧
    (∀ sn, s.rd.chA = w :: rest → w.done = true → w.snap = some sn → ∃ t, exec .channelAEntryDone s = .next t ∧
      wrote t (0x1380000 + if s.rd.bufA then 0x200 else 0) (entryWords88 s false w.cyc sn (queryA s.mem s.rd.grid)) ∧
      t.rd.chA = rest ∧ t.rd.bufA = (!s.rd.bufA) ∧ t.rd.aIndex = sn.pick ∧
      t.rd.entA[bufIx s.rd.bufA] = some (sn.pick, w.cyc.cycle)) ∧
    (∀ sn, s.rd.chB = w :: rest → w.snap = some sn → ∃ t, exec .channelBEntryDone s = .next t ∧
      wrote t (0x1380400 + if s.rd.bufB then 0x200 else 0)
        (entryWords88 s true w.cyc sn fun k => (queryB s.rd.grid w.cyc.free k, false)) ∧
      t.rd.chB.length = rest.length ∧ t.rd.bufB = (!s.rd.bufB) ∧ t.rd.bIndex = sn.pick ∧
      t.rd.entB[bufIx s.rd.bufB] = some (sn.pick, w.cyc.cycle))

/-! ### Selvedge and the safety I/O block (R247 to R291) -/

/-- R247, R249, R267, R268: channel states and faults. -/
def Obligations.ChannelsSelftestAndFault : Prop :=
  ∀ (c : Fin 2) (s : State), (s.domain (if c = 0 then 1 else 2)).up = true →
    let h := s.svCh c
    let o : Fin 2 := if c = 0 then 1 else 0
    let calm := windowOf s = none ∧ s.pw.state ≠ .safeHold ∧ (s.svCh o).state ≠ .fault ∧ (s.svCh o).state ≠ .safeHold
    let able := h.state = .selftest ∨ h.state = .unsealed ∨ h.state = .sealed
    let faulted := fun (t : State) => (t.svCh c).state = .fault ∧ (∀ a, (s.axis a).state ≠ .fault → (t.axis a).state = .fault) ∧
      (∀ n : Fin 8, if c = 0 then (t.sio.ossd[n]).high = false else (t.sio.ossd[n]).low = false)
    let fails := fun (i : Instr) => ∃ t, exec i s = .next t ∧ faulted t ∧ t.sv.first = some (14 + c.val, 0x00C#12)
    (h.state = .selftest →
      (retained s = false → ∃ t, exec (.selftestDone c none) s = .next t ∧ (t.svCh c).state = .unsealed) ∧
      (retained s = true → (s.sio.half[c]).sealRd = some s.sv.sealWord →
        ∃ t, exec (.selftestDone c none) s = .next t ∧ (t.svCh c).state = .sealed) ∧
      (calm → ∀ d, ∃ t, exec (.selftestDone c (some d)) s = .next t ∧ (t.svCh c).state = .fault)) ∧
    (calm → able → fails (.lockstepMismatch c) ∧ fails (.supplyMonitorTrip c false) ∧ fails (.supplyMonitorTrip c true) ∧
      (h.state = .sealed ∨ (s.sio.half[c]).sealRd = none → fails (.sealUnstableTimeout c))) ∧
    (calm → h.state = .sealed →
      (channelsDiffer s = false → exec (.crossLinkMessage c .ok) s = .next { s with
        sv.ch := upd s.sv.ch c fun q => { q with badCrc := 0, differ := 0 } }) ∧
      (h.badCrc = 0 → exec (.crossLinkMessage c .badCrc) s = .next { s with sv.ch := upd s.sv.ch c fun q => { q with badCrc := 1 } }) ∧
      (∀ m, m = XMsg.missing ∨ m = .clockOff ∨ (m = .badCrc ∧ h.badCrc ≠ 0) → (s.svCh o).state ≠ .off →
        ∃ t, exec (.crossLinkMessage c m) s = .next t ∧ faulted t ∧ (t.svCh o).state = .fault))

/-- R248 to R261, R270, R303: evaluations, and what times out between them. -/
def Obligations.EvaluationsDecide : Prop :=
  (∀ (s : State), (s.domain 1).up = true → (s.domain 2).up = true → (∀ c, (s.svCh c).state = .sealed ∧ configBad s c = false) →
    ∃ t, exec .selvedgeEvaluation s = .next t ∧ t.sv.resets = [] ∧
      (∀ c, (t.svCh c).evals = (s.svCh c).evals + 1 ∧ (t.svCh c).levels = sioTaken s c ∧ (t.svCh c).entry = newestEntry s c) ∧
      (∀ r : Fin 8, (t.sv.armPub[r]).stop = catStop (armCatNow t r) ∧
        (s.tb.running = true → (t.sv.armPub[r]).scale = scaleNow t r) ∧
        (armCatNow t r = 0 → ∀ a ∈ sealedAxes s r, (s.axis a).state ≠ .fault → (t.axis a).state = .fault)) ∧
      (∀ n : Fin 8, (s.sio.ossd[n]).fault = false → (ossdClose t 0 n.val = false → (t.sio.ossd[n]).high = false) ∧
        (ossdClose t 1 n.val = false → (t.sio.ossd[n]).low = false))) ∧
  (∀ (c : Fin 2) (s : State), (s.svCh c).state = .sealed →
    (∀ (p : Fin 16) f t0, pairFn s p = some f → ((s.svCh c).pair[p]).since = some t0 → ((s.svCh c).pair[p]).fault = false →
      ∃ t, exec (.pairDiscrepancyTimeout c p) s = .next t ∧ ((t.svCh c).pair[p]).fault = true ∧ ((t.svCh c).pair[p]).on = false ∧
        t0 + f.tDisc.toNat * 1000000 ≤ t.now ∧ (∀ q : Fin 16, q ≠ p → (t.svCh c).pair[q] = (s.svCh c).pair[q])) ∧
    (∀ (i : Fin 32) t0, ((s.svCh c).fn[i]).off = some t0 → i.val < s.sv.nfunc → (s.sv.cfgFn[i]).type = 3#3 →
      ((s.svCh c).fn[i]).dem = false →
      ∃ t, exec (.lightCurtainTimeout c i) s = .next t ∧ ((t.svCh c).fn[i]).dem = true ∧ t0 + 1000000 ≤ t.now) ∧
    (∀ (r : Fin 8) t0, let m := (s.svCh c).arm[r]
      m.stop.since = some t0 → m.stop.reached = false → m.stop.esc = false → m.stand = false →
      (m.ssmFault = true ∨ (svDemand s c fun f => f.arms.getLsbD r.val).1 < 3) →
      ∃ t, exec (.stopTimeout c r.val) s = .next t ∧ ((t.svCh c).arm[r]).stop.cat = 0 ∧ ((t.svCh c).arm[r]).stop.esc = true) ∧
    (∀ (j : Fin 16) t0, let m := (s.svCh c).aux[j]
      m.since = some t0 → m.reached = false → m.esc = false → (svDemand s c fun f => f.aux.getLsbD j.val).1 < 3 →
      (∀ tt, auxStand { s with tb.timeFix := tt } j = false) →
      ∃ t, exec (.stopTimeout c (64 + j.val)) s = .next t ∧ ((t.svCh c).aux[j]).cat = 0 ∧ ((t.svCh c).aux[j]).esc = true)) ∧
  (∀ (k : ConnId) (s : State) (t0 : Nat), (s.domain 1).up = true → (s.conn k).last = some t0 →
    ∃ t, exec (.wdExpire k.num) s = .next t ∧ (t.conn k).state = .wait ∧ (t.conn k).last = none ∧
      (t.conn k).expired = satInc (s.conn k).expired ∧ t0 + 1000 * s.connWd k < t.now ∧ ∀ j, j ≠ k → t.conn j = s.conn j)

/-- R272 to R278, R288, R289, R459: levels, pulses and readings. -/
def Obligations.PulsesAndLevels : Prop :=
  ∀ (s : State),
    (∀ half : Fin 2, (s.domain (if half = 0 then 1 else 2)).up = true →
      (∀ (pin : Fin 32) (b : Bool), exec (.safetyInputLevelChange half pin b) s = .next { s with
        sio.half := upd s.sio.half half fun q => { q with
          level := if b then q.level ||| BitVec.twoPow 32 pin.val else q.level &&& ~~~(BitVec.twoPow 32 pin.val) } }) ∧
      (∀ v, (s.sio.half[half]).sealRd ≠ some v → ∃ t, exec (.sealDebounceChange half v) s = .next t ∧
        t.sio = { s.sio with half := upd s.sio.half half fun q => { q with sealRd := some v } } ∧
        { t with sio := s.sio, er := s.er, mem := s.mem, hi := s.hi, out := s.out } = s)) ∧
    (∀ half : Fin 2, let mask : BitVec 8 := if half = 0 then 0x55#8 else 0xAA#8
      ∃ t, exec (.coreSupplyLow half) s = .next t ∧ (t.sio.half[half]).coreLow = true ∧ t.sio.pulsing = s.sio.pulsing &&& ~~~mask ∧
        t.sio.holding = s.sio.holding &&& ~~~mask ∧ { t with sio := s.sio } = s ∧
        ∀ n : Fin 8, if half = 0 then (t.sio.ossd[n]).high = false else (t.sio.ossd[n]).low = false) ∧
    (∀ (n : Fin 8) (a b : BitVec 32), let d : Fin 2 := if n.val % 2 = 0 then 0 else 1
      let st := (s.svCh d).state
      let rail := fun (i : Fin 32) => i.val % 8 = n.val
      let held := fun (t : State) (h : Fin 2) (x : BitVec 32) => (t.sio.half[h]).pre = x ∧ (t.sio.half[h]).low = 0#32 ∧
        (t.sio.half[h]).level = (s.sio.half[h]).level ∧ ∀ i : Fin 32,
        (t.sio.half[h]).held.getLsbD i.val = if rail i then (s.sio.half[h]).level.getLsbD i.val else (s.sio.half[h]).held.getLsbD i.val
      ((s.domain (if d = 0 then 1 else 2)).up = true → st = .selftest ∨ st = .unsealed ∨ st = .sealed → (s.sio.half[d]).ioLow = false →
        (s.sio.half[d]).coreLow = false → s.sio.holding.getLsbD n.val = false →
        ∃ t, exec (.testPulseStart n a b) s = .next t ∧ t.sio.pulsing = s.sio.pulsing ||| BitVec.twoPow 8 n.val ∧
          t.sio.holding = s.sio.holding ||| BitVec.twoPow 8 n.val ∧ held t 0 a ∧ held t 1 b ∧ { t with sio := s.sio } = s) ∧
      (∀ tps : BitVec 8, s.sio.pulsing.getLsbD n.val = true → tps.getLsbD n.val = false →
        (∀ m : Fin 8, s.sio.pulsing.getLsbD m.val = false → tps.getLsbD m.val = true) →
        ∃ t, exec (.testPulseSample n a b tps) s = .next t ∧ t.sio.pulsing = s.sio.pulsing ∧ t.sio.holding = s.sio.holding ∧
          t.sio.ossd = s.sio.ossd ∧ { t with sio := s.sio, er := s.er, mem := s.mem, hi := s.hi, out := s.out } = s ∧
          ∀ (h : Fin 2) (i : Fin 32), let x := if h = 0 then a else b
            let was := ((s.sio.half[h]).failed[n]).getLsbD i.val
            (rail i ∧ pinPulsed s i.val = true → ((t.sio.half[h]).failed[n]).getLsbD i.val = x.getLsbD i.val ∧
              (x.getLsbD i.val = true → was = true → (t.sio.half[h]).report.getLsbD i.val = true) ∧
              (x.getLsbD i.val = true → was = false → (t.sio.half[h]).report.getLsbD i.val = (s.sio.half[h]).report.getLsbD i.val)) ∧
            (¬(rail i ∧ pinPulsed s i.val = true) → ((t.sio.half[h]).failed[n]).getLsbD i.val = was)) ∧
      exec (.testPulseEnd n) s = .next { s with sio.pulsing := s.sio.pulsing &&& ~~~(BitVec.twoPow 8 n.val) } ∧
      (s.sio.holding.getLsbD n.val = true → s.sio.pulsing.getLsbD n.val = false →
        ∃ t, exec (.pulseHoldEnd n a b) s = .next t ∧ t.sio.holding = s.sio.holding &&& ~~~(BitVec.twoPow 8 n.val) ∧
          t.sio.pulsing = s.sio.pulsing ∧ t.sio.ossd = s.sio.ossd ∧
          { t with sio := s.sio, er := s.er, mem := s.mem, hi := s.hi, out := s.out } = s))

/-- R281 to R286: OSSD sequences, dark tests and faults. -/
def Obligations.SwitchesAreChecked : Prop :=
  ∀ (n : Fin 8) (s : State), let o := s.sio.ossd[n]
    let calm := windowOf s = none ∧ s.pw.state ≠ .safeHold
    let faults := fun (i : Instr) => ∃ t, exec i s = .next t ∧ (t.sio.ossd[n]).fault = true ∧
      (∀ k : Fin 8, (t.sio.ossd[k]).high = false ∧ (t.sio.ossd[k]).low = false) ∧
      ∀ c, (s.svCh c).state = .selftest ∨ (s.svCh c).state = .unsealed ∨ (s.svCh c).state = .sealed → (t.svCh c).state = .fault
    let live := fun (h : Fin 2) => (s.sio.half[h]).ioLow = false
    (∀ p q : Vector Bool 2,
      (o.phase = .high → (∀ h, live h → p[h] = true ∧ q[h] = true) →
        ∃ t, exec (.ossdHighSideCheck n p q) s = .next t ∧ (t.sio.ossd[n]).phase = .low ∧ (t.sio.ossd[n]).low = true ∧
          (t.sio.ossd[n]).high = o.high ∧ o.changed + 100000 ≤ t.now ∧ (∀ k : Fin 8, k ≠ n → t.sio.ossd[k] = s.sio.ossd[k]) ∧
          t.hw = { s.hw with cnt := updN s.hw.cnt (n.val + 1) satInc } ∧ { t with tb := s.tb, sio := s.sio, hw := s.hw } = s) ∧
      (o.phase = .low → (∀ h, live h → q[h] = false) →
        ∃ t, exec (.ossdLowSideCheck n p q) s = .next t ∧ (t.sio.ossd[n]).phase = .on ∧ (t.sio.ossd[n]).low = o.low ∧
          (t.sio.ossd[n]).high = o.high ∧ (∀ k : Fin 8, k ≠ n → t.sio.ossd[k] = s.sio.ossd[k]) ∧ { t with tb := s.tb, sio := s.sio } = s) ∧
      (calm → o.phase = .high → (∃ h, live h ∧ (p[h] = false ∨ q[h] = false)) → faults (.ossdHighSideCheck n p q)) ∧
      (calm → o.phase = .low → (∃ h, live h ∧ q[h] = true) → faults (.ossdLowSideCheck n p q))) ∧
    (∀ (h : Fin 2) (p q : Bool),
      (calm → o.fault = false → o.phase = .opened ∨ o.phase = .on → o.dark = none → live h →
        (s.domain (if h = 0 then 1 else 2)).up = true → p ≠ o.high ∨ (q ≠ (o.high && !o.low) ∧ o.high = true) →
        faults (.ossdMismatchFault n h p q)) ∧
      (o.phase = .on → o.dark = none → o.fault = false → (s.svCh h).state = .sealed →
        exec (.darkTestStart n h) s = .next { s with sio.ossd := upd s.sio.ossd n fun x =>
          if h = 0 then { x with high := false, dark := some false } else { x with low := false, dark := some true } }) ∧
      (o.dark = some (decide (h = 1)) →
        (h = 0 → p = false → exec (.darkTestPass n h p q) s = .next { s with sio := { s.sio with
          ossd := upd s.sio.ossd n fun x => { x with high := true, dark := none }, darkHigh := satInc s.sio.darkHigh } }) ∧
        (h = 1 → q = true → exec (.darkTestPass n h p q) s = .next { s with sio := { s.sio with
          ossd := upd s.sio.ossd n fun x => { x with low := true, dark := none }, darkLow := satInc s.sio.darkLow } }) ∧
        (calm → faults (.darkTestTimeout n h p q))))

/-! ### Switch and network time (R308 to R344) -/

/-- R309 to R311, R320, R326, R328: reception. -/
def Obligations.FramesEnterTheSwitch : Prop :=
  ∀ s : State, swRuns s = true →
    (∀ (p : Fin 6) (frame : List (BitVec 8)), let q : Fin 8 := extPort p
      let port := s.sw.port[q]
      let count := fun (k : Fin 6) => ({ s with sw.port := upd s.sw.port q fun x => { x with cnt := upd x.cnt k satInc } } : State)
      let f := frame.take (frame.length - 4)
      port.mode ≠ 0#3 → port.link = true →
      (1522 < frame.length → exec (.frameReceive p frame) s = .next (count 5)) ∧
      (frame.length ≤ 1522 → frame.length < 18 ∨ frFcs f ≠ frame.drop (frame.length - 4) →
        exec (.frameReceive p frame) s = .next (count 4)) ∧
      (18 ≤ frame.length → frame.length ≤ 1522 → frFcs f = frame.drop (frame.length - 4) → s.pw.state ≠ .safeHold →
        frDa f = s.sw.mac → macReserved (frDa f) = false → frType f ≠ s.sw.etype → frType f ≠ 0x88F7#16 →
        ((s.sw.port[(7 : Fin 8)]).q[frClass s q f]).length < 64 →
        ∃ t x, exec (.frameReceive p frame) s = .next t ∧ x.bytes = f ∧ x.src = q ∧ (t.sw.port[q]).cnt[(0 : Fin 6)] = satInc port.cnt[(0 : Fin 6)] ∧
          (t.sw.port[(7 : Fin 8)]).q[frClass s q f] = (s.sw.port[(7 : Fin 8)]).q[frClass s q f] ++ [x] ∧
          (∀ i c : Fin 8, ¬(i = 7 ∧ c = frClass s q f) → (t.sw.port[i]).q[c] = (s.sw.port[i]).q[c]) ∧ { t with sw := s.sw } = s)) ∧
    (∀ (p : Fin 8) (frame : List (BitVec 8)), frType frame = s.sw.etype →
      let data := frData frame
      let ws := bytesWords data
      (∀ k, dtCause data = some k → ∃ t, exec (.driveTrafficReceive p frame false) s = .next t ∧
        t.sw.cnt[(2 : Fin 4)] = satInc s.sw.cnt[(2 : Fin 4)] ∧ t.sw.sticky = setBit s.sw.sticky k ∧
        { t with sw := s.sw, er := s.er, hi := s.hi, out := s.out } = s) ∧
      (dtCause data = none → dtKind (ws.getD 0 0#32) = 1 → dtNrec (ws.getD 0 0#32) = 1 → ∀ a : Fin 80,
        (BitVec.extractLsb' 0 7 (ws.getD 2 0#32)).toNat = a.val →
        ∃ t r, exec (.driveTrafficReceive p frame false) s = .next t ∧ (t.dr[a]).next = some r ∧ r.torq = ws.getD 3 0#32 ∧
          r.pos = ws.getD 5 0#32 ++ ws.getD 4 0#32 ∧ r.vel = ws.getD 7 0#32 ++ ws.getD 6 0#32 ∧
          r.enabled = (ws.getD 2 0#32).getLsbD 8 ∧ r.fault = (ws.getD 2 0#32).getLsbD 9 ∧ r.ack = ws.getD 1 0#32 ∧
          t.sw.cnt[(1 : Fin 4)] = satInc s.sw.cnt[(1 : Fin 4)] ∧ ∀ b : Fin 80, b ≠ a → t.dr[b] = s.dr[b])) ∧
    (∀ (p : Fin 6) (up : Bool), let q : Fin 8 := extPort p
      (s.sw.port[q]).mode ≠ 0#3 → (s.sw.port[q]).link ≠ up → ∃ t, exec (.linkChange p up) s = .next t ∧
        t.sw = { s.sw with port := upd s.sw.port q fun x => { x with link := up, sticky := x.sticky ||| 1#5 } } ∧
        { t with sw := s.sw, er := s.er, hi := s.hi, out := s.out } = s) ∧
    (∀ v : BitVec 32, let vid := BitVec.extractLsb' 0 12 v
      let key := fun (m : BitVec 48) (w : BitVec 12) => m = s.sw.fdbMac ∧ w = vid
      (s.sw.fdb.length < 2048 → ∃ t, exec (.fdbWrite v) s = .next t ∧
        fdbFind t s.sw.fdbMac vid =
          some { mac := s.sw.fdbMac, vid := vid, ports := BitVec.extractLsb' 21 8 v, static_ := true } ∧
        (∀ m w, ¬key m w → fdbFind t m w = fdbFind s m w) ∧ t.sw.fdbFull = false ∧ { t with sw := s.sw } = s) ∧
      ∃ t, exec (.fdbDelete v) s = .next t ∧ fdbFind t s.sw.fdbMac vid = none ∧ (∀ m w, ¬key m w → fdbFind t m w = fdbFind s m w) ∧
        { t with sw := s.sw } = s) ∧
    (∀ (i : Nat) (e : FdbEntry), s.sw.fdb[i]? = some e → e.static_ = false → ∃ t, exec (.fdbAgeExpire i) s = .next t ∧
      t.sw = { s.sw with fdb := s.sw.fdb.eraseIdx i } ∧ e.seen + s.sw.age.toNat * 1000000000 ≤ t.now ∧ { t with sw := s.sw, tb := s.tb } = s) ∧
    (∀ (i : Nat) (x : CbStream), s.sw.cb[i]? = some x → ∃ t, exec (.cbStreamReset i) s = .next t ∧
      t.sw = { s.sw with cb := s.sw.cb.set i { x with takeAny := true, hist := 0#32 } } ∧
      x.last + s.sw.cbReset.toNat * 1000000 ≤ t.now ∧ { t with sw := s.sw, tb := s.tb } = s)

/-- R312 to R316: egress. -/
def Obligations.FramesLeaveThroughTheirGates : Prop :=
  ∀ s : State, swRuns s = true →
    (∀ (p : Fin 6), let q : Fin 8 := extPort p
      let z := s.cbsNow q
      let port := z.sw.port[q]
      s.pw.state ≠ .safeHold → (∀ c : Fin 8, ∀ f, (port.q[c]).head? = some f → isLate s f = false) → port.mode ≠ 0#3 → port.link = true →
      port.txFree ≤ s.tb.timeFix →
      (∀ (c : Fin 8) f, (port.q[c]).head? = some f → mayStart z port c f = true →
        (∀ d : Fin 8, c < d → ∀ g, (port.q[d]).head? = some g → mayStart z port d g = false) →
        ∃ t, exec (.egressSelect q) s = .next t ∧
          (let b := f.stamped ((s.tb.timeFix + bytesTime 8 (modeRate port.mode)) / 4294967296)
           .frame p.val (b ++ frFcs b) :: s.out <:+ t.out ∧
           (t.sw.port[q]).txFree = s.tb.timeFix + bytesTime (b.length + 24) (modeRate port.mode)) ∧
          (t.sw.port[q]).cnt[(1 : Fin 6)] = satInc port.cnt[(1 : Fin 6)] ∧ t.tb = s.tb ∧
          (f.stamp = .none → (t.sw.port[q]).q[c] = (port.q[c]).drop 1 ∧ ∀ d : Fin 8, d ≠ c → (t.sw.port[q]).q[d] = port.q[d])) ∧
      ((∀ (c : Fin 8) f, (port.q[c]).head? = some f → mayStart z port c f = false) → exec (.egressSelect q) s = .next z)) ∧
    (∀ p : Fin 8, p = 6 ∨ p = 7 → s.pw.state ≠ .safeHold →
      (∀ c : Fin 8, ∀ f, ((s.sw.port[p]).q[c]).head? = some f → isLate s f = false) →
      ∀ (c : Fin 8) f, ((s.sw.port[p]).q[c]).head? = some f → (∀ l, f.launch = some l → l * 4294967296 ≤ s.tb.timeFix) →
        (∀ d : Fin 8, c < d → ∀ g, ((s.sw.port[p]).q[d]).head? = some g → ∃ l, g.launch = some l ∧ s.tb.timeFix < l * 4294967296) →
        ∃ t, exec (.egressSelect p) s = .next t ∧ (t.sw.port[p]).cnt[(1 : Fin 6)] = satInc (s.sw.port[p]).cnt[(1 : Fin 6)] ∧
          (t.sw.port[p]).q[c] = ((s.sw.port[p]).q[c]).drop 1 ∧ ∀ d : Fin 8, d ≠ c → (t.sw.port[p]).q[d] = (s.sw.port[p]).q[d]) ∧
    (∀ (p c : Fin 8) f l, ((s.sw.port[p]).q[c]).head? = some f → f.launch = some l →
      exec (.launchTimeReached p c) s = .next { s with tb.timeFix := max s.tb.timeFix (l * 4294967296) } ∧
      ∃ t, exec (.lateFrame p c) s = .next t ∧ (t.sw.port[p]).q[c] = ((s.sw.port[p]).q[c]).drop 1 ∧
        (t.sw.port[p]).cnt[(3 : Fin 6)] = satInc (s.sw.port[p]).cnt[(3 : Fin 6)] ∧ l + s.sw.lateWin.toNat ≤ t.now ∧
        ∀ i d : Fin 8, ¬(i = p ∧ d = c) → (t.sw.port[i]).q[d] = (s.sw.port[i]).q[d]) ∧
    (∀ (p : Fin 6) r, let q : Fin 8 := extPort p
      let x := s.sw.port[q]
      x.run = some r →
      (let e := r.start + x.interval x.bank r.idx
       r.idx + 1 < x.oper.len.toNat → (∀ c, cycleEnd s x r = some c → e < c) →
        ∃ t, exec (.gclEntryAdvance p) s = .next t ∧ (t.sw.port[q]).run = some { r with idx := r.idx + 1, start := e } ∧
          t.tb.timeFix = max s.tb.timeFix e ∧ { t with sw := s.sw, tb := s.tb } = s) ∧
      (x.oper.src = false → x.swap = none → 0 < x.oper.cycle.toNat → 0 ≤ x.oper.base - s.nt.ofs →
        ∃ t b, exec (.gclCycleStart p) s = .next t ∧ (t.sw.port[q]).run = some { idx := 0, start := b, cycStart := b } ∧ r.cycStart < b ∧
          (∃ k : Nat, (b : Int) = (x.oper.base - s.nt.ofs + k * x.oper.cycle.toNat) * 4294967296) ∧
          (∀ k : Nat, r.cycStart < (x.oper.base - s.nt.ofs + k * x.oper.cycle.toNat) * 4294967296 →
            (b : Int) ≤ (x.oper.base - s.nt.ofs + k * x.oper.cycle.toNat) * 4294967296) ∧
          { t with sw := s.sw, tb := s.tb } = s)) ∧
    (∀ (p : Fin 6) (v : BitVec 32), let q : Fin 8 := extPort p
      let adm : GclCfg := { (s.sw.port[q]).adm with src := v.getLsbD 1, len := BitVec.extractLsb' 3 9 v }
      ∀ ok, ok = gclOk { s.sw.port[q] with adm := adm } →
      ∃ t, exec (.gclSwapRequest p v) s = .next t ∧ (t.sw.port[q]).gclEn = v.getLsbD 0 ∧ (t.sw.port[q]).adm = adm ∧
        (ok = true → (t.sw.port[q]).swap = some adm ∧ (t.sw.port[q]).swapAt = s.tb.timeFix) ∧
        (ok = false → (t.sw.port[q]).swap = (s.sw.port[q]).swap ∧ (t.sw.port[q]).sticky.getLsbD 4 = true))

/-- R331 to R343: network time. -/
def Obligations.NetworkTimeFollows : Prop :=
  ∀ s : State, swRuns s = true →
    (s.nt.en = true →
      (∀ (p : Fin 6) (m : PtpMsg) (d : Fin 2), domOf s m.domain = some d → let x := s.nt.dom[d]
        let o : Fin 2 := if d = 0 then 1 else 0
        let accepted := fun (t : State) (y : PtpMsg) => (t.nt.dom[d]).seq = some y.seq ∧ (t.nt.dom[d]).last = y.rx ∧
          (t.nt.dom[d]).acc = satInc x.acc ∧ (t.nt.dom[d]).pend = none ∧ t.nt.dom[o] = s.nt.dom[o] ∧
          (t.nt.dom[d]).theta = domainTime s p y * 65536 - y.rx * 4294967296 ∧ t.nt.ofs = s.nt.ofs ∧ t.tb = s.tb
        let rejected := fun (i : Instr) => ∃ t, exec i s = .next t ∧ (t.nt.dom[d]).rej = satInc x.rej ∧ (t.nt.dom[d]).acc = x.acc ∧
          t.nt.dom[o] = s.nt.dom[o] ∧ { t with nt := s.nt, hi := s.hi, out := s.out } = s
        (x.pend = none → syncOk s d p m = false → rejected (.syncReceive p m)) ∧
        (x.pend = none → syncOk s d p m = true → m.twoStep = true → exec (.syncReceive p m) s = .next { s with
          nt.dom := upd s.nt.dom d fun y => { y with pend := some (p, m) } }) ∧
        (x.pend = none → syncOk s d p m = true → m.twoStep = false → ∃ t, exec (.syncReceive p m) s = .next t ∧ accepted t m) ∧
        (x.pend = none → rejected (.followUpReceive p m)) ∧
        (∀ y, x.pend = some (p, y) → y.seq = m.seq → m.rx ≤ y.rx + syncInterval y.logInt →
          ∃ t, exec (.followUpReceive p m) s = .next t ∧
            accepted t { y with ts := m.ts, corr := y.corr + m.corr, rate := m.rate, tlv := m.tlv }) ∧
        (∀ y, x.pend = some y → ∃ t, exec (.followUpTimeout d) s = .next t ∧ (t.nt.dom[d]).pend = none ∧
          (t.nt.dom[d]).rej = satInc x.rej ∧ y.2.rx + syncInterval y.2.logInt < t.now)) ∧
      (∃ t, exec .pdelayReqSend s = .next t ∧ t.nt.reqCnt = s.nt.reqCnt + 1#64 ∧ s.now ≤ t.now ∧
        ∀ p : Fin 6, (s.sw.port[extPort p]).mode ≠ 0#3 →
          (t.nt.port[p]).reqSeq = some ((s.nt.reqCnt + 1#64).setWidth 16) ∧ (t.nt.port[p]).t1 = none) ∧
      (∀ (p : Fin 6) (m : PtpMsg), s.pw.state ≠ .safeHold → ((s.sw.port[extPort p]).q[(6 : Fin 8)]).length < 64 →
        ∃ t f, exec (.pdelayReqReceive p m) s = .next t ∧ f.stamp = .resp m ∧
          (t.sw.port[extPort p]).q[(6 : Fin 8)] = (s.sw.port[extPort p]).q[(6 : Fin 8)] ++ [f] ∧ { t with sw := s.sw } = s) ∧
      (∀ (p : Fin 6) (m g : PtpMsg) t1, let x := s.nt.port[p]
        x.t1 = some t1 → x.reqSeq = some m.seq → g.seq = m.seq → g.port = m.port → m.reqPort = identNat (portIdent s p) →
        g.reqPort = m.reqPort → x.prev = none →
        let turn := ((m.rx : Int) - t1) * 65536
        let d := ((turn + turn * x.nrr / 2 ^ 41 - ((g.ts * 65536 + g.corr) - (m.ts * 65536 + m.corr))) / 2).toNat
        ∃ t, exec (.pdelayRespReceive p m g) s = .next t ∧ (t.nt.port[p]).delay = d ∧ (t.nt.port[p]).reqSeq = none ∧
          (s.nt.thresh.toNat * 65536 < d → (t.nt.port[p]).asCapable = false) ∧
          (d ≤ s.nt.thresh.toNat * 65536 → 2 ≤ x.good → (t.nt.port[p]).asCapable = true) ∧
          (∀ q : Fin 6, q ≠ p → t.nt.port[q] = s.nt.port[q])) ∧
      (∀ d : Fin 2, (s.nt.dom[d]).state = .listening ∨ (s.nt.dom[d]).state = .locked →
        ∃ t, exec (.domainTimeout d) s = .next t ∧ (t.nt.dom[d]).state = .lost ∧ (s.nt.dom[d]).lostAt ≤ t.now)) ∧
    (s.tb.incAdj.toInt.natAbs ≤ 17179869 → ∃ t, exec .servoUpdate s = .next t ∧ t.nt.servoMs = t.now / 1000000 ∧
      (t.tb.incAdj.toInt - s.tb.incAdj.toInt).natAbs ≤ 343 ∧ t.tb.incAdj.toInt.natAbs ≤ 17179869 ∧
      (s.nt.stepped = true → t.nt.ofs = s.nt.ofs ∧ t.nt.stepped = true)) ∧
    (s.nt.state = .holdover → ∃ t, exec .holdoverTimeout s = .next t ∧ t.nt.state = .unlocked ∧
      s.nt.holdAt + s.nt.holdMax.toNat * 1000000000 ≤ t.now) ∧
    (∀ v : BitVec 32, let other : Fin 2 := if s.nt.sel then 0 else 1
      ∃ t, exec (.ntSwitchRequest v) s = .next t ∧ t.nt.en = v.getLsbD 0 ∧ t.nt.pref = v.getLsbD 1 ∧ t.nt.auto = v.getLsbD 2 ∧
        t.nt.hostCopy = v.getLsbD 3 ∧ ((s.nt.dom[other]).state = .locked → t.nt.switch = true) ∧
        ((s.nt.dom[other]).state ≠ .locked → t.nt.switch = s.nt.switch ∧ t.nt.sticky.getLsbD 5 = true) ∧
        { t with nt := s.nt, hi := s.hi, out := s.out } = s) ∧
    (∃ t, exec .timeMark s = .next t ∧ t.nt.markS = t.now / 1000000000 ∧ s.nt.markS < t.nt.markS ∧
      t.nt = { s.nt with markS := t.nt.markS } ∧ { t with tb := s.tb, nt := s.nt, er := s.er, hi := s.hi, out := s.out } = s)

/-! ### CAN FD (R345 to R361) -/

/-- R346 to R359: the controllers. -/
def Obligations.CanControllersSendAndReceive : Prop :=
  ∀ (n : Fin 4) (s : State), s.domain 11 = .run → let c := s.can.ctl[n]
    let only := fun (t : State) => ∀ k : Fin 4, k ≠ n → t.can.ctl[k] = s.can.ctl[k]
    let put := fun (g : CanCtl → CanCtl) => ({ s with can.ctl := upd s.can.ctl n g } : State)
    let word := fun (w : Fin 4) (v : BitVec 32) (j : Fin 128) => j.val / 32 = w.val ∧ v.getLsbD (j.val % 32) = true
    (∀ v : BitVec 32, let m := BitVec.extractLsb' 0 2 v
      (m = 3#2 → ∃ t, exec (.canModeWrite n v) s = .next t ∧ t.can.ctl[n] = { c with sticky := c.sticky ||| 0x80#9 } ∧ only t) ∧
      (m ≠ 3#2 → m ≠ 0#2 → c.mode = 0#2 → v.getLsbD 4 = false → exec (.canModeWrite n v) s = .next (put fun x => { x with
        fdEn := v.getLsbD 2, autoRec := v.getLsbD 3, mode := m })) ∧
      (m = 0#2 → c.tx = none → v.getLsbD 4 = false → ∃ t, exec (.canModeWrite n v) s = .next t ∧ (t.can.ctl[n]).mode = 0#2 ∧
        (t.can.ctl[n]).modeNow = 0#2 ∧ only t) ∧
      (m = c.mode → m ≠ 3#2 → c.mode ≠ 0#2 → v.getLsbD 2 = c.fdEn → v.getLsbD 3 = c.autoRec → c.autoRec = false → c.err = 2#2 →
        exec (.canRestart n v) s = .next (put fun x => { x with recovering := true }))) ∧
    (c.tx = none → exec (.canModeEffect n) s = .next (put fun x => { x with modeNow := x.mode })) ∧
    (∀ (w : Fin 4) (v : BitVec 32),
      (∃ t, exec (.canTxsetWrite n w v) s = .next t ∧ only t ∧
        (∀ j : Fin 128, (t.can.ctl[n]).txPend.getLsbD j.val = true ↔
          c.txPend.getLsbD j.val = true ∨ word w v j ∧ canRefused s n j.val = false) ∧
        ((∃ j, word w v j ∧ c.txPend.getLsbD j.val = false ∧ canRefused s n j.val = true) → (t.can.ctl[n]).sticky.getLsbD 6 = true) ∧
        { t with can := s.can, hi := s.hi, out := s.out } = s) ∧
      (∃ t, exec (.canTxcancelWrite n w v) s = .next t ∧ only t ∧
        (∀ j : Fin 128, let busy := ∃ a, c.tx = some a ∧ a.obj = j
          ((t.can.ctl[n]).txPend.getLsbD j.val = true ↔ c.txPend.getLsbD j.val = true ∧ ¬(word w v j ∧ ¬busy)) ∧
          (word w v j → c.txPend.getLsbD j.val = true → busy → (t.can.ctl[n]).cancel = true) ∧
          (word w v j → c.txPend.getLsbD j.val = true → ¬busy → (t.can.ctl[n]).txCan.getLsbD j.val = true)) ∧ { t with can := s.can } = s) ∧
      exec (.canRxnewWrite n w v) s = .next (put fun x => { x with rxNew := x.rxNew &&& ~~~(v.setWidth 128 <<< (32 * w.val)) }) ∧
      exec (.canInvalidWrite n w v) s = .next (put fun x => { x with invalid := x.invalid &&& ~~~(v.setWidth 128 <<< (32 * w.val)) })) ∧
    (canEff s n = 1#2 → c.err ≠ 2#2 → c.tx = none → c.txPend ≠ 0#128 →
      ∃ t j, exec (.canTxAttempt n) s = .next t ∧ c.txPend.getLsbD j.val = true ∧
        (∀ i : Fin 128, c.txPend.getLsbD i.val = true → (canKey (canWord s n j.val 0)).toNat ≤ (canKey (canWord s n i.val 0)).toNat) ∧
        t.can.ctl[n] = { c with tx := some { obj := j, sof := s.now64 }, cancel := false } ∧ only t ∧
        t.out = .can n.val ([canWord s n j.val 0, canWord s n j.val 2] ++ (List.range 16).map fun k => canWord s n j.val (8 + k)) :: s.out ∧
        { t with can := s.can, out := s.out } = s) ∧
    (∀ a, c.tx = some a → ∃ t, exec (.canTxComplete n) s = .next t ∧ (t.can.ctl[n]).tx = none ∧
      (t.can.ctl[n]).txPend = clearBit c.txPend a.obj.val ∧ (t.can.ctl[n]).txDone = setBit c.txDone a.obj.val ∧
      (t.can.ctl[n]).cntTx = satInc c.cntTx ∧ (t.can.ctl[n]).tec = min 256 (c.tec - 1) ∧ only t ∧
      (Memory.wf s.mem = true → t.rd64 (canObj s n a.obj.val + 16) = a.sof)) ∧
    (canEff s n = 1#2 → c.err ≠ 2#2 → ∀ lec (e : CanErr),
      ∃ t, exec (.canBusError n lec e) s = .next t ∧ (t.can.ctl[n]).lec = lec ∧ (t.can.ctl[n]).tx = none ∧ only t ∧ t.mem = s.mem ∧
        (e = .tx8 → (t.can.ctl[n]).tec = min 256 (c.tec + 8)) ∧ (e = .rx1 → (t.can.ctl[n]).rec_ = min 255 (c.rec_ + 1)) ∧
        (e = .rx8 → (t.can.ctl[n]).rec_ = min 255 (c.rec_ + 8)) ∧ (e = .tx0 → (t.can.ctl[n]).tec = c.tec ∧ (t.can.ctl[n]).rec_ = c.rec_)) ∧
    (canEff s n ≠ 0#2 → c.err ≠ 2#2 → ∀ m : CanFrame, (m.fdf = true → c.fdEn = true) →
      let free := fun (j : Fin 128) => canMatches s n m j.val = true ∧ c.rxNew.getLsbD j.val = false
      (∀ j, free j → (∀ i : Fin 128, i < j → ¬free i) → ∃ t, exec (.canFrameReceive n m) s = .next t ∧
        (t.can.ctl[n]).rxNew = setBit c.rxNew j.val ∧ (t.can.ctl[n]).cntRx = satInc c.cntRx ∧ (t.can.ctl[n]).cntLost = c.cntLost ∧ only t ∧
        (Memory.wf s.mem = true → t.rd32 (canObj s n j.val) = m.id &&& 0x7FFFFFFF#32 ∧ t.rd64 (canObj s n j.val + 16) = m.sof ∧
          ∀ x, x < canObj s n j.val ∨ canObj s n j.val + 96 ≤ x → memRead t.mem x = memRead s.mem x)) ∧
      ((∀ j, ¬free j) → (∃ j : Fin 128, canMatches s n m j.val = true) → ∃ t, exec (.canFrameReceive n m) s = .next t ∧
        (t.can.ctl[n]).cntLost = satInc c.cntLost ∧ (t.can.ctl[n]).rxNew = c.rxNew ∧ t.mem = s.mem ∧ only t)) ∧
    (c.recovering = true → canEff s n ≠ 0#2 → ∃ t, exec (.canRecoveryDone n) s = .next t ∧ (t.can.ctl[n]).recovering = false ∧
      (t.can.ctl[n]).err = 0#2 ∧ (t.can.ctl[n]).tec = 0 ∧ (t.can.ctl[n]).rec_ = 0 ∧ only t)

/-! ### Active and standby pairs (R362 to R389) -/

/-- R364 to R367, R377 to R381, R387, R388: heartbeats and the loss of a partner. -/
def Obligations.PartnersWatchEachOther : Prop :=
  ∀ s : State,
    (beats s = true → ∃ t, exec .heartbeatSend s = .next t ∧ t.pr.alvOut = !s.pr.alvOut ∧ t.pr.hbAt = t.now ∧ s.pr.hbAt + 4000 ≤ t.now ∧
      t.pr.handOwn = (if s.pr.handReq then some (s.tb.pickNum + 1#32) else s.pr.handOwn) ∧ t.pr.handReq = false ∧
      (s.pr.lane[0] = true ∨ s.pr.lane[1] = true → ∃ f, t.out = .alv (!s.pr.alvOut) :: .pair 0 f :: s.out ∧ f.length = 16 ∧
        f.getD 1 0#32 = s.pr.seqTx ∧ f.getD 2 0#32 = s.tb.pickNum ∧ BitVec.extractLsb' 0 2 (f.getD 4 0#32) = s.pr.role.code ∧
        (f.getD 4 0#32).getLsbD 2 = s.lease ∧ (f.getD 4 0#32).getLsbD 4 = t.pr.handOwn.isSome ∧
        f.getD 15 0#32 = crc32c (wordsBytes (f.take 15)) ∧ t.pr.seqTx = s.pr.seqTx + 1#32) ∧
      { t with tb := s.tb, pr := s.pr, out := s.out } = s) ∧
    (beats s = false → ∃ t, exec .heartbeatSend s = .next t ∧ t.pr = { s.pr with alvOut := false } ∧
      { t with pr := s.pr, out := s.out } = s) ∧
    (∀ frame : List (BitVec 32), let n := (BitVec.extractLsb' 8 12 (frame.getD 0 0#32)).toNat
      let h := frame.getD 4 0#32
      let good := n + 5 ≤ frame.length ∧ crc32c (wordsBytes (frame.take (n + 4))) = frame.getD (n + 4) 0#32
      s.pr.en = true → s.pr.lane[0] = true ∨ s.pr.lane[1] = true →
      (¬good → exec (.heartbeatReceive frame) s = .next { s with pr.cnt := upd s.pr.cnt 2 satInc }) ∧
      (good → BitVec.extractLsb' 0 4 (frame.getD 0 0#32) = 0#4 → 11 ≤ n → ∃ t, exec (.heartbeatReceive frame) s = .next t ∧
        t.pr.partner = .ofCode (BitVec.extractLsb' 0 2 h) ∧ t.pr.heard = s.now ∧ t.pr.rxSeq = frame.getD 1 0#32 ∧
        t.pr.leaseAt = (if h.getLsbD 2 then s.now else s.pr.leaseAt) ∧ t.pr.role = s.pr.role ∧
        t.pr.handFrom = (if h.getLsbD 4 then some (frame.getD 5 0#32) else none) ∧
        (h.getLsbD 5 = true → s.pw.state ≠ .off → t.pw.state = .safeHold) ∧ (h.getLsbD 5 = false → t.pw = s.pw))) ∧
    (∀ b : Bool, b ≠ s.pr.alvIn → exec (.pairAlvInChange b) s = .next { s with
      pr := { s.pr with alvIn := b, alvAt := s.now, alive := true } }) ∧
    (s.pr.alive = true → ∃ t, exec .partnerSilent s = .next t ∧ t.pr = { s.pr with alive := false } ∧ s.pr.alvAt + 12000 ≤ t.now ∧
      { t with tb := s.tb, pr := s.pr } = s) ∧
    (let open_ := s.sv.first.isSome ∨ s.pr.own.isSome ∨ ∃ c, s.pr.fault = some (20, c)
     (s.pr.role = .standby → ∀ us : Fin 11,
      (s.pr.alive = true → ∃ t, exec (.leaseExpire us) s = .next t ∧ t.pr.role = .syncing ∧ t.lease = false ∧
        t.pr.sticky.getLsbD 2 = true ∧ s.pr.leaseAt + 30000 ≤ t.now) ∧
      (s.pr.alive = false → ¬open_ → ∃ t, exec (.leaseExpire us) s = .next t ∧ t.pr.role = .alone ∧ t.lease = true ∧
        t.pr.sticky.getLsbD 1 = true ∧ s.pr.leaseAt + 30000 + 1000 * us.val ≤ t.now ∧ t.pr.fault = none ∧ t.pr.sync = none ∧
        t.pr.takeoverUs = BitVec.ofNat 16 (min 65535 ((t.now - s.pr.heard) / 1000))) ∧
      (s.pr.alive = false → open_ → s.pw.state ≠ .off → ∃ t, exec (.leaseExpire us) s = .next t ∧ t.pw.state = .safeHold ∧
        t.pr.role = .standby)) ∧
     (s.pr.role = .active → ∃ t, exec .standbyLost s = .next t ∧ t.pr.role = .alone ∧ t.lease = true ∧ s.pr.heard + 30000 ≤ t.now ∧
       (s.pr.alive = true → t.pr.sticky.getLsbD 2 = true) ∧ (s.pr.alive = false → ¬open_ → t.pr.fault = none ∧ t.pw = s.pw)) ∧
     (s.pr.role = .syncing → s.pr.alive = false →
       (windowOf s = none → ∃ t, exec .standbyLost s = .next t ∧ t.pr.role = .alone ∧ t.pr.sync = none ∧
         ∀ a, (s.axis a).state ≠ .fault → (t.axis a).state = .fault) ∧
       (windowOf s ≠ none → s.pw.state ≠ .off → ∃ t, exec .standbyLost s = .next t ∧ t.pw.state = .safeHold))) ∧
    (s.pr.en = true →
      (s.pr.lane = #v[true, true] → windowOf s = none → s.pw.state ≠ .safeHold → paired s = true →
        ∃ t, exec (.pairLaneChange false true) s = .next t ∧ t.pr.lane = #v[false, true] ∧ t.pr.sticky.getLsbD 2 = true ∧
          t.pr.own = some (20, 0x003#12) ∧ t.pr.ownLane = true ∧ t.pr.role = s.pr.role) ∧
      (s.pr.ownLane = true → ∃ t, exec (.pairLaneChange true true) s = .next t ∧ t.pr.lane = #v[true, true] ∧ t.pr.own = none ∧
        t.pr.role = s.pr.role)) ∧
    (∀ v : BitVec 32, (s.domain 11).up = true → v.getLsbD 1 = false →
      (s.pr.role = .active → s.pr.partner = .standby → exec (.handoverRequest v) s = .next { s with pr.handReq := true }) ∧
      (¬(s.pr.role = .active ∧ s.pr.partner = .standby) → ∃ t, exec (.handoverRequest v) s = .next t ∧
        t.pr = { s.pr with sticky := setBit s.pr.sticky 8 } ∧ { t with pr := s.pr, hi := s.hi, out := s.out } = s))

/-- R365, R368 to R374, R383, R384, R386: objects on the pair link. -/
def Obligations.FollowersTakeWhatIsSent : Prop :=
  (∀ (ty : Nat) (seq tag : BitVec 32) (p : List (BitVec 32)), ty < 16 → p ≠ [] → p.length ≤ 4095 * 4096 →
    let ps := pairPieces p.length p
    let frames := (ps.zip (List.range ps.length)).map fun q =>
      pairFrame ty (decide (q.2 + 1 = ps.length)) (seq + BitVec.ofNat 32 q.2) tag q.2 q.1
    linkObject ty frames = (0, some (tag, p)) ∧
    ∀ s : State, pairUp s = true → s.pr.seqTx = seq →
      (s.pairSend ty tag p).out = (frames.map (Out.pair ty)).reverse ++ s.out ∧
      (s.pairSend ty tag p).pr.seqTx = seq + BitVec.ofNat 32 frames.length) ∧
  ∀ s : State, s.pr.en = true → pairUp s = true →
    (follows s = true → s.tb.running = true → ∀ (frames : List (List (BitVec 32))) (k : BitVec 32) (ws : List (BitVec 32)),
      linkObject 1 frames = (0, some (k, ws)) →
      (k = s.tb.pickNum + 1#32 → exec (.inputRecordReceive frames) s = .next { s with pr.early := some ws }) ∧
      (k ≠ s.tb.pickNum + 1#32 → k ≠ s.tb.pickNum ∨ s.pr.await = false → exec (.inputRecordReceive frames) s = .next s) ∧
      (k = s.tb.pickNum → s.pr.await = true → ∃ t, exec (.inputRecordReceive frames) s = .next t ∧ t.pr.await = false ∧
        t.pr.misses = 0 ∧ t.pr.early = none ∧
        (s.pr.role = .standby → ∀ own, s.pr.digestOwn = some own → (ws.getD 5 0#32).getLsbD 1 = true → own ≠ ws.getD 3 0#32 →
          ws.getD 7 0#32 = 0#32 → t.pr.role = .syncing))) ∧
    (∀ (frames : List (List (BitVec 32))) (n : Nat), linkObject 1 frames = (n, none) →
      exec (.inputRecordReceive frames) s = .next { s with pr.cnt := upd s.pr.cnt 2 fun c => satAdd c n }) ∧
    (s.pr.await = true → ∃ t, exec .adoptLimitExpire s = .next t ∧ t.pr.await = false ∧ t.pr.early = none ∧
      t.pr.cnt[1] = satInc s.pr.cnt[1] ∧ t.pr.sticky.getLsbD 4 = true ∧ s.tb.pickTime.toNat + 1000 * s.pr.adopt.toNat ≤ t.now) ∧
    (leads s = true → s.pr.mute = false → s.tb.running = true → s.pr.copyPick ≠ some s.tb.pickNum →
      ∃ t c, exec .stateCopySend s = .next t ∧ t.out = .copy c :: s.out ∧ c.gen = s.pr.genSent + 1#32 ∧ c.pick = s.tb.pickNum ∧
        c.cell = s.cell ∧ c.sl = s.ce.sl ∧ c.fb = s.fb.ch ∧ c.pg = s.pg ∧ t.pr.genSent = c.gen ∧ { t with pr := s.pr, out := s.out } = s ∧
        exec .stateCopySend t = .next t) ∧
    (∀ c : CopySet, exec (.stateCopyReceive true c) s = .next { s with pr.cnt := upd s.pr.cnt 2 satInc } ∧
      exec (.stateCopyReceive false c) s = .next (if follows s then { s with pr := { s.pr with copy := some c, gotGen := c.gen } } else s)) ∧
    (∀ (frames : List (List (BitVec 32))) (i : BitVec 32) (ws : List (BitVec 32)), linkObject 4 frames = (0, some (i, ws)) →
      exec (.solutionCopyReceive frames) s = .next
        (if follows s then { s with pr := { s.pr with solIn := some (i, ws), gotSol := i } } else s)) ∧
    (∀ r : PairSafe, exec (.safetyRecordReceive true true r) s = .next { s with pr.cnt := upd s.pr.cnt 2 satInc } ∧
      exec (.safetyRecordReceive false false r) s = .next s ∧
      (paired s = true → s.tb.running = true → r.pick = s.tb.pickNum → s.now ≤ s.tb.pickTime.toNat + 20000 →
        ∃ t, exec (.safetyRecordReceive false true r) s = .next t ∧ t.pr = { s.pr with safe := some r } ∧
          (r.a = .sealed → r.b = .sealed → ∀ q : Fin 8,
            let own := min ((s.svCh 0).armCat q) ((s.svCh 1).armCat q)
            (t.sv.armPub[q]).stop = catStop (min own (r.cat.getD q.val 3)) ∧
            (t.sv.armPub[q]).scale.toNat =
              min (min (svScale s 0 q).toNat (svScale s 1 q).toNat) (r.scale.getD q.val 0#16).toNat) ∧
          (r.a ≠ .sealed ∨ r.b ≠ .sealed → ∀ q : Fin 8,
            (t.sv.armPub[q]).stop = catStop (min ((s.svCh 0).armCat q) ((s.svCh 1).armCat q))))) ∧
    (∀ (b : BitVec 32) (last : Bool) (part : CfgPart),
      exec (.configFrameReceive true b last part) s = .next { s with pr.cnt := upd s.pr.cnt 2 satInc } ∧
      ∀ y, s.pr.role = .syncing → s.pr.sync = some y →
        (b ≠ y.block → exec (.configFrameReceive false b last part) s = .next s) ∧
        (b = y.block → ∃ t z, exec (.configFrameReceive false b last part) s = .next t ∧ t.pr.role = .syncing ∧ t.pr.sync = some z ∧
          z.block = b + 1#32 ∧ (last = true → z.cfg = true) ∧ ∀ d, part = .scale d → t.pg.dsUp = d))

/-- R382, R383, R387, R388: resynchronisation and control frames. -/
def Obligations.PairsFormAgain : Prop :=
  ∀ s : State, s.pr.en = true → pairUp s = true →
    (∀ r : SyncReq, s.pr.reqAt = none →
      let fits := s.pr.role = .alone ∧ (r.role = .alone ∨ r.role = .syncing) ∧ s.sv.sealed = true ∧ r.sealed = true ∧
        s.sv.digest = r.digest ∧ r.part = 0x0880#32 ∧ r.rev = 0x12#32 ∧ r.off = true ∧ draftCarry s ≤ 14784
      (fits → ∃ t, exec (.syncReqReceive false r) s = .next t ∧ t.pr.role = .active ∧ t.pr.partner = .syncing ∧ .pairCtl .ack ∈ t.out ∧
        (∃ n net pick beat, .cfg n true (.timeBase s.tb.activePeriod s.tb.activeN net pick beat) ∈ t.out) ∧
        exec (.controlFrameReceive false (.req r)) s = .next t) ∧
      (¬fits → ∃ t n, exec (.syncReqReceive false r) s = .next t ∧ t.pr.role = s.pr.role ∧ t.pr.sticky = setBit s.pr.sticky 5 ∧
        t.out.head? = some (.pairCtl (.refused n)) ∧ n ≠ 0#4 ∧ exec (.controlFrameReceive false (.req r)) s = .next t)) ∧
    (∀ r : SyncReq, exec (.syncReqReceive true r) s = .next { s with pr.cnt := upd s.pr.cnt 2 satInc }) ∧
    (s.pr.reqAt.isSome = true → ∃ t, exec (.syncAckReceive false) s = .next t ∧ t.pr.role = .syncing ∧ t.pr.partner = .active ∧
      t.pr.sync = some { at_ := s.now } ∧ t.pr.streak = 0#2 ∧ t.pr.reqAt = none ∧ exec (.controlFrameReceive false .ack) s = .next t) ∧
    (s.pr.reqAt = none → exec (.syncAckReceive false) s = .next s) ∧
    (s.pr.role = .syncing →
      (∀ y, s.pr.sync = some y → ∃ t, exec .syncFail s = .next t ∧ t.pr.role = .syncing ∧ t.pr.sync = none ∧ y.at_ + 1000000000 ≤ t.now ∧
        t.pr.retryAt = some (t.now + 100000000) ∧ t.pr.sticky.getLsbD 5 = true) ∧
      (∀ w, s.pr.retryAt = some w → ∃ t, exec .syncRetry s = .next t ∧ t.pr.retryAt = none ∧ w ≤ t.now ∧ t.pr.role = .syncing ∧
        (s.pr.partner = .active → t.pr.sync = some { at_ := t.now }) ∧
        (s.pr.partner ≠ .active → t.pr.reqAt = some t.now ∧ ∃ r, r.role = .syncing ∧ t.out.head? = some (.pairCtl (.req r))))) ∧
    (∀ n, ∃ t, exec (.controlFrameReceive false (.refused n)) s = .next t ∧ t.pr.reqAt = none ∧ t.pr.role = s.pr.role ∧
      t.pr.sticky = setBit s.pr.sticky 5) ∧
    (∀ c, exec (.controlFrameReceive true c) s = .next { s with pr.cnt := upd s.pr.cnt 2 satInc }) ∧
    (paired s = true → s.pw.state ≠ .safeHold → s.pw.state ≠ .off → ∀ f, s.pr.own ≠ some f →
      (windowOf s = none → ∃ t, exec (.controlFrameReceive false (.fault f)) s = .next t ∧ t.pr.fault = some f ∧ windowOf t = some f ∧
        t.pr.handOwn = none ∧ t.pw = s.pw) ∧
      (windowOf s ≠ none → ∃ t, exec (.controlFrameReceive false (.fault f)) s = .next t ∧ t.pw.state = .safeHold ∧
        t.pr.sticky.getLsbD 7 = true) ∧
      ∀ g, ∃ t, exec (.controlFrameReceive false (.double f g)) s = .next t ∧ t.pw.state = .safeHold ∧ t.pr.sticky.getLsbD 7 = true)

/-! ### The Warp ring (R390 to R402) -/

/-- R390 to R399, R432: the ring. -/
def Obligations.RingRelaysAndAligns : Prop :=
  ∀ s : State,
    (∀ v : BitVec 32, (s.domain 11).up = true → ∃ t, exec (.wrInsertWrite v) s = .next t ∧ t.wr.insert = v.getLsbD 0 ∧
      (t.wr.relay = true ↔ v.getLsbD 0 = true ∧ s.domain 11 = .run ∧ (s.pw.state = .ready ∨ s.pw.state = .run)) ∧
      (t.wr.relay = false → t.wr.state = .out) ∧
      (t.wr.relay = true → s.wr.relay = false → t.hw.cnt = updN s.hw.cnt 9 satInc) ∧ (t.wr.relay = s.wr.relay → t.hw = s.hw)) ∧
    (relayOn s = true → ∀ (i o : Bool) (di do_ : BitVec 16), ∃ t, exec (.ringLinkChange i o di do_) s = .next t ∧ t.wr.linkIn = i ∧
      t.wr.linkOut = o ∧ t.wr.hopIn = di ∧ t.wr.hopOut = do_ ∧ t.wr.relay = true ∧ ((i && o) = false → t.wr.state = .down) ∧
      ((i && o) = true → ringMaster s = true → t.wr.state = .up) ∧
      ((i && o) = true → ringMaster s = false → s.wr.state = .out → t.wr.state = .down)) ∧
    (s.wr.relay = true → s.wr.linkIn = true → ∀ res : BitVec 16,
      (∀ frame, linkParse frame = none → exec (.ringFrameReceive frame res) s = .next { s with wr.cntCrc := satInc s.wr.cntCrc }) ∧
      ∀ (ty hops origin frag : Nat) (last : Bool) (seq tag : BitVec 32) (p : List (BitVec 32)),
        ty < 16 → hops < 8 → origin < 8 → frag < 4096 → p.length ≤ 4095 →
        let frame := ringFrame ty last hops origin seq tag frag p
        (3 ≤ ty → exec (.ringFrameReceive frame res) s = .next s) ∧
        (ty < 3 → origin = s.boot.cascPos.toNat →
          (seq ∈ s.wr.sentSeq → exec (.ringFrameReceive frame res) s = .next s) ∧
          (seq ∉ s.wr.sentSeq → ∃ t, exec (.ringFrameReceive frame res) s = .next t ∧ t.wr.insert = false ∧ t.wr.relay = false ∧
            t.wr.state = .out)) ∧
        (ty < 3 → origin ≠ s.boot.cascPos.toNat → ∃ t, exec (.ringFrameReceive frame res) s = .next t ∧
          (hops ≠ 0 → s.wr.linkOut = true → ∃ q, .ring ty (ringFrame ty last (hops - 1) origin seq tag frag q) ∈ t.out ∧
            (ty ≠ 0 → q = p) ∧ (ty = 0 → 11 ≤ p.length → q.take 9 = p.take 9 ∧ q.length = p.length ∧
              alignCorr q = (alignCorr p + 65536 * (res.toNat + s.wr.hopIn.toNat)) % 2 ^ 64)) ∧
          (ty = 2 → hops = 0 ∨ s.wr.linkOut = false → t.out = s.out) ∧
          (ty = 1 → last = true → frag = 0 → ∀ l : Fin 4, l.val = origin / 2 → l.val ≠ s.boot.cascPos.toNat / 2 →
            (t.wr.origin[l]).index = some tag) ∧
          (ty = 0 → ringMaster s = false → s.wr.state = .up → t.wr.state = .up ∧ t.wr.alignAt = s.now ∧ t.wr.alignPick = tag) ∧
          (ty = 0 → ringMaster s = false → s.wr.state = .joining → s.lease = true →
            p.getD 6 0#32 ≠ BitVec.ofNat 32 (periodV s.tb.stagedPeriod) → t.wr.state = .joining ∧ t.wr.start = none))) ∧
    (s.wr.state = .up → s.tb.running = true → s.wr.relay = true → s.wr.linkOut = true →
      (ringMaster s = true → s.wr.alignSent ≠ some s.tb.pickNum → ∃ t f, exec .alignSend s = .next t ∧ t.out = .ring 0 f :: s.out ∧
        f.length = 16 ∧ f.getD 1 0#32 = s.wr.seqTx ∧ f.getD 2 0#32 = s.tb.pickNum ∧ f.getD 10 0#32 = BitVec.ofNat 32 s.pickV ∧
        f.getD 12 0#32 = s.tb.beatNum ∧ BitVec.extractLsb' 5 3 (f.getD 0 0#32) = 7#3 ∧
        BitVec.extractLsb' 20 3 (f.getD 0 0#32) = s.boot.cascPos ∧ s.tb.pickTime.toNat + 2000 ≤ t.now ∧ t.wr.seqTx = s.wr.seqTx + 1#32 ∧
        exec .alignSend t = .next t) ∧
      (s.lease = true → s.wr.capsSent ≠ some s.tb.pickNum → (∃ (r : Fin 8) (c : CapSet), s.rd.place[r] = some c ∧ c.index = s.tb.pickNum) →
        ∃ t f, exec .capsSend s = .next t ∧ t.out = .ring 1 f :: s.out ∧ f.length = 1032 ∧ f.getD 1 0#32 = s.wr.seqTx ∧
          f.getD 2 0#32 = s.tb.pickNum ∧ { t with wr := s.wr, out := s.out } = s ∧ exec .capsSend t = .next t)) ∧
    (ringMaster s = false → s.wr.state = .joining ∨ s.wr.state = .up → ∃ t, exec .ringAlignTimeout s = .next t ∧ t.wr.state = .down ∧
      8 * s.wr.alignAt + s.pickV < 8 * t.now ∧ t.tb.running = s.tb.running ∧ t.tb.pickNum = s.tb.pickNum) ∧
    (∀ (l : Fin 4) (i : BitVec 32), (s.wr.origin[l]).index = some i → s.wr.foreignMax.toNat < (s.tb.pickNum - i).toNat →
      (s.tb.pickNum - i).toNat < 2 ^ 31 → ∃ t g, exec (.foreignStale l) s = .next t ∧ (t.wr.origin[l]).index = none ∧
        t.rd.foreign = some g ∧
        ∀ c : Nat, c < 128 → g.caps[128 * foreignPart s l.val + c]? = some (Vector.replicate 8 0#32))

/-! ### The event recorder (R403 to R417) -/

/-- R404 to R413: admission and the cursor. -/
def Obligations.RecordsAreAdmitted : Prop :=
  ∀ s : State,
    (∀ (k : Fin 25) (code : BitVec 12) (p : List (BitVec 32)),
      ((s.er.staging[k]).length < 8 → s.emit k.val code p = { s with
        er.staging := upd s.er.staging k fun q => q ++ [{ src := k.val, code := code, payload := p }] }) ∧
      (8 ≤ (s.er.staging[k]).length → let t := s.emit k.val code p
        t.er.cntLost = satInc s.er.cntLost ∧ t.er.sticky.getLsbD 1 = true ∧ t.er.staging = s.er.staging ∧ t.er.ring = s.er.ring ∧
        t.er.lostPend.isSome = true ∧ { t with er := s.er, hi := s.hi, out := s.out } = s)) ∧
    ((s.domain 12).up = false → exec .recordAdmit s = .next s) ∧
    ((s.domain 12).up = true →
      (∃ t, exec .recordAdmit s = .next t ∧ (∀ k : Fin 25, k.val < 22 → t.er.staging[k] = []) ∧
        { t with er := s.er, mem := s.mem, hi := s.hi, out := s.out } = s) ∧
      (∀ (k : Fin 25) (r : Rec), k.val < 24 → r.src = k.val → r.len < 256 → s.er.staging[k] = [r] →
        (∀ j : Fin 25, j ≠ k → s.er.staging[j] = []) → s.er.lostPend = none → Memory.wf s.mem = true →
        (s.er.ring.newest[k] = none → s.er.ring.seq.setWidth 31 ≠ 0#31 → s.er.ring.used + r.len ≤ 1048576 → s.er.ring.head < 1048576 →
          ∃ t, exec .recordAdmit s = .next t ∧ t.er.ring.head = (s.er.ring.head + r.len) % 1048576 ∧
            t.er.ring.used = s.er.ring.used + r.len ∧ t.er.ring.seq = s.er.ring.seq + 1#32 ∧ t.er.ring.tail = s.er.ring.tail ∧
            t.er.cur = s.er.cur ∧ t.er.unread = s.er.unread + r.len ∧
            ringGet t.mem 0x3A00000 1048576 s.er.ring.head r.len = [r.word0, s.er.ring.seq, 0#32] ++ r.payload ∧
            t.er.epoch = s.er.epoch ∧ t.er.cntLost = s.er.cntLost) ∧
        (∀ p, s.er.ring.newest[k] = some p → p < 1048576 → s.er.afterCur p = true → mergeable s.mem 0x3A00000 1048576 p r = true →
          (ringWord s.mem 0x3A00000 1048576 (p + 2)).setWidth 16 ≠ 0xFFFF#16 →
          ∃ t, exec .recordAdmit s = .next t ∧ t.er.ring = s.er.ring ∧ t.er.unread = s.er.unread ∧
            ringWord t.mem 0x3A00000 1048576 (p + 2) = ringWord s.mem 0x3A00000 1048576 (p + 2) + 1#32 ∧
            ringGet t.mem 0x3A00000 1048576 (p + 4) (r.payload.length - 1) = r.payload.drop 1)) ∧
      (∀ v : BitVec 32, let i := (BitVec.extractLsb' 0 20 v).toNat
        let g := s.er.ring
        (i = g.head → g.used = 0 ∨ i ≠ g.tail → exec (.erCurWrite v) s = .next { s with er.cur := i, er.unread := 0 }) ∧
        (i = g.tail → g.used ≠ 0 → ∃ t, exec (.erCurWrite v) s = .next t ∧ t.er.cur = i ∧
          t.er.unread = g.used ∧ t.er.ring = g ∧ t.mem = s.mem) ∧
        (i ≠ g.head → i ∉ recStarts s.mem g.used g.tail g.used → ∃ t, exec (.erCurWrite v) s = .next t ∧
          t.er = { s.er with sticky := setBit s.er.sticky 4 } ∧ { t with er := s.er, hi := s.hi, out := s.out } = s)))

/-- R415: the safety log read through its window. -/
def Obligations.SafetyLogReadsThrough : Prop :=
  ∀ (s : State) (v : BitVec 32), (s.domain 12).up = true →
    let read : State → State := fun t => match exec .erSlogDataRead t with
      | .next u => u
      | _ => t
    let log := if v.getLsbD 0 then s.er.logB else s.er.logA
    (∃ t, exec (.erSlogSelWrite v) s = .next t ∧ t.er.selB = v.getLsbD 0 ∧ t.er.logPos = log.tail ∧ t.er.skipped = false ∧
      { t with er := s.er } = s ∧
      ∀ n : Nat, let u := read^[n + 1] t
        (exec .erSlogDataRead (read^[n] t) = .next u) ∧
        (n < log.used →
          u.rdata = [ringWord s.mem (if v.getLsbD 0 then 0x3FC0000 else 0x3EC0000) 65536 (log.tail + n)]) ∧
        (log.used ≤ n → u.rdata = [0#32]) ∧ u.mem = s.mem ∧ u.er.logA = s.er.logA ∧ u.er.logB = s.er.logB) ∧
    (s.er.logUnread = 0 → exec .erSlogDataRead s = .next { s with rdata := [0#32] }) ∧
    (s.er.logUnread ≠ 0 → exec .erSlogDataRead s = .next { s with
      er := { s.er with logPos := (s.er.logPos + 1) % 65536, logUnread := s.er.logUnread - 1 }
      rdata := [ringWord s.mem (if s.er.selB then 0x3FC0000 else 0x3EC0000) 65536 s.er.logPos] }) ∧
    ∀ (h : Fin 2) (x : BitVec 24), (s.domain (chDomain h)).up = true → (s.sio.half[h]).sealRd ≠ some x →
      ∃ t, exec (.sealDebounceChange h x) s = .next t ∧ t.er.selB = s.er.selB ∧
        let old := if h = 1 then s.er.logB else s.er.logA
        let new := if h = 1 then t.er.logB else t.er.logA
        let left := s.er.logUnread + (new.head + 65536 - old.head) % 65536
        (s.er.selB = decide (h = 1) → new.used < left →
          t.er.logPos = new.tail ∧ t.er.logUnread = new.used ∧ t.er.skipped = true) ∧
        (s.er.selB = decide (h = 1) → left ≤ new.used →
          t.er.logPos = s.er.logPos ∧ t.er.logUnread = left ∧ t.er.skipped = s.er.skipped) ∧
        (s.er.selB ≠ decide (h = 1) →
          t.er.logPos = s.er.logPos ∧ t.er.logUnread = s.er.logUnread ∧ t.er.skipped = s.er.skipped)

/-! ### Power domains, device states, clocks (R418 to R427) -/

/-- R419 to R427: domains, device states and clocks. -/
def Obligations.PowerStatesFollowTheirTable : Prop :=
  ∀ s : State,
    (∀ (d : Fin 13) (r : DomTrans), s.pw.domTrans[d] = some r → ∃ t, exec (.domainTransitionDone d) s = .next t ∧
      t.domain d = r.target ∧ (∀ e, e ≠ d → t.domain e = s.domain e) ∧ t.pw.domTrans = upd s.pw.domTrans d (fun _ => none) ∧
      (∀ o ∈ (t.flow r.flow).ops, o.id ≠ r.op) ∧
      (r.target = .off → s.domain d ≠ .off → ∀ a, a < 0x4000000 →
        memRead t.mem a = if domainOf a = d then 0#8 else memRead s.mem a) ∧
      (r.target ≠ .off → s.domain d ≠ .off → t.mem = s.mem)) ∧
    (∀ r : DevTrans, s.pw.trans = some r → r.boot = false → s.pw.wakePend = 0#3 →
      (∀ f id, r.op = some (f, id) → (s.flow f).posts ≠ [] → exec .deviceTransitionDone s = .next s) ∧
      ((∀ f id, r.op = some (f, id) → (s.flow f).posts = []) → ∃ t, exec .deviceTransitionDone s = .next t ∧ t.pw.trans = none ∧
        (r.target = .sleep → t.pw.state = .sleep ∧ t.domain 1 = .ret ∧ t.domain 2 = .ret ∧ t.tb.running = false ∧
          ∀ d : Fin 13, 3 ≤ d.val → t.domain d =
            (if s.domain d = .off then .off else if s.pw.sleepMap.getLsbD (d.val - 3) then .ret else .off)) ∧
        (r.target = .standby → t.pw.state = .standby ∧ t.domain 1 = .ret ∧ t.domain 2 = .ret ∧ t.tb.running = false ∧
          ∀ d : Fin 13, 3 ≤ d.val → t.domain d = .off) ∧
        (r.target = .ready → t.pw.state = .ready ∧ t.domain 1 = .run ∧ t.domain 2 = .run ∧
          ∀ d : Fin 13, 3 ≤ d.val → t.domain d = s.pw.domBefore[d]))) ∧
    (let wakes := fun (t : State) (src : BitVec 3) => t.pw.state = s.pw.state ∧ t.pw.wakeCause = src ∧ t.pw.sticky.getLsbD 1 = true ∧
       (s.pw.state = .sleep → t.pw.trans = some { target := .ready, cause := 1#2 } ∧ t.pw.dom = s.pw.dom) ∧
       (s.pw.state = .standby → s.boot.bootSrc ≠ 3#2 → t.boot.busy = true ∧ t.pw.trans.isSome = true ∧
         ∀ d : Fin 13, 1 ≤ d.val → d.val ≤ 4 → t.domain d = .run)
     (s.pw.state = .sleep ∨ s.pw.state = .standby → s.pw.trans = none →
       (s.pw.wakeEnPin = true → ∃ t, exec .wakePin s = .next t ∧ wakes t 1#3) ∧
       (s.pw.wakeEnTimer = true → s.now ≤ s.pw.wakeTime.toNat →
         ∃ t, exec .wakeTimer s = .next t ∧ wakes t 2#3 ∧ t.now = s.pw.wakeTime.toNat) ∧
       ∀ v : BitVec 32, BitVec.extractLsb' 0 3 v = 3#3 → ∃ t, exec (.aonPwrCmdWrite .spi v) s = .next t ∧ wakes t 4#3) ∧
     (s.pw.wakeEnPin = false → exec .wakePin s = .next s) ∧
     (∀ r : DevTrans, s.pw.trans = some r → r.target ≠ .ready → s.pw.wakeEnPin = true →
       exec .wakePin s = .next { s with pw.wakePend := s.pw.wakePend ||| 1#3 })) ∧
    (∀ (path : Path) (v : BitVec 32), let k := BitVec.extractLsb' 0 3 v
      let acts := (s.pw.state = .sleep ∨ s.pw.state = .standby) ∧ s.pw.trans = none ∧ path = .spi
      (acts → k = 1#3 → s.pw.state = .sleep →
        exec (.aonPwrCmdWrite path v) s = .next { s with pw.trans := some { target := .standby } }) ∧
      (s.pw.state ≠ .off → ¬acts ∨ (k ≠ 3#3 ∧ ¬(k = 1#3 ∧ s.pw.state = .sleep)) → ∃ t, exec (.aonPwrCmdWrite path v) s = .next t ∧
        t.pw = { s.pw with sticky := setBit s.pw.sticky 4 } ∧ { t with pw := s.pw, hi := s.hi, out := s.out } = s)) ∧
    (∀ c : Fin 30, (clusterIdle s c = true → exec (.clusterClockStop c) s = .next { s with cr.clk := clearBit s.cr.clk c.val }) ∧
      (clusterIdle s c = false → exec (.clusterClockStop c) s = .next s)) ∧
    (∀ l : Fin 18, (pllNeeded s l.val = false → exec (.pllLockLoss l) s = .next s) ∧
      (pllNeeded s l.val = true → ∃ t, exec (.pllLockLoss l) s = .next t ∧
        (l.val < 3 → t.pw.state = .standby ∧ t.boot.resetCause = setBit s.boot.resetCause 2) ∧
        (3 ≤ l.val → t.cr.pll.getLsbD l.val = false) ∧ (3 ≤ l.val → l.val ≠ 14 → l.val ≠ 15 → t.pw.state = s.pw.state) ∧
        (4 ≤ l.val → l.val < 8 → t.hi.linkUp = false) ∧
        (∀ p : Fin 6, l.val = p.val + 8 → (t.sw.port[extPort p]).link = false) ∧ (l.val = 14 → t.pr.lane[0] = false) ∧
        (l.val = 15 → t.pr.lane[1] = false) ∧ (l.val = 16 → t.wr.linkIn = false) ∧ (l.val = 17 → t.wr.linkOut = false)))

/-! ### Resets and the thermal trip (R428, R429, R450, R456) -/

/-- R428, R429, R450, R456: resets and temperature. -/
def Obligations.ResetsKeepWhatSurvives : Prop :=
  ∀ s : State,
    (let fused := fun (t : State) => t.boot.keyHash = s.boot.keyHash ∧ t.boot.minSvn = s.boot.minSvn ∧ t.boot.variantEB = s.boot.variantEB
     let reset := fun (i : Instr) (cause : Nat) => ∃ t, exec i s = .next t ∧ t.pw.state = .standby ∧
       (∀ d : Fin 13, t.domain d = if d = 0 then .run else if d.val < 3 then .ret else .off) ∧
       t.boot.resetCause = setBit s.boot.resetCause cause ∧ t.boot.bootSrc = s.boot.bootSrc ∧ t.boot.cascPos = s.boot.cascPos ∧
       fused t ∧ t.pw.supplyEn = s.pw.supplyEn ∧ t.er.logA = s.er.logA ∧ t.er.logB = s.er.logB ∧ t.er.ring = {} ∧
       t.pr.role = .alone ∧ t.wr.relay = false ∧
       ∀ a, memRead t.mem a = if a < 0x3E00000 then 0#8 else memRead s.mem a
     let off := fun (i : Instr) => ∃ t, exec i s = .next t ∧ t.pw.state = .off ∧ (∀ d : Fin 13, t.domain d = .off) ∧ fused t ∧
       t.pw.supplyEn = false ∧ t.mem = [] ∧ (s.pw.supplyEn = true → .supplyOff ∈ t.out) ∧ (t.pw.por = true ↔ i = .powerOnReset)
     (s.pw.state ≠ .off → reset .resetNPin 1 ∧ reset (.hostReset 0x5EB00001#32) 3 ∧
       ∀ k, k ≠ 0x5EB00001#32 → exec (.hostReset k) s = .next s) ∧
     off .powerOnReset ∧ (s.pw.tripped.isSome = true → off .supplyEnDrop) ∧ (s.pw.tripped = none → exec .supplyEnDrop s = .next s) ∧
     (∀ (src : BitVec 2) (pos : BitVec 3),
       (s.pw.por = true → ∃ t, exec (.porRelease src pos) s = .next t ∧ t.pw.state = .standby ∧ t.domain 0 = .run ∧ t.domain 1 = .ret ∧
         t.domain 2 = .ret ∧ t.boot.bootSrc = src ∧ t.boot.cascPos = pos ∧ t.boot.resetCause = 1#4 ∧ t.pw.supplyEn = true ∧
         t.pw.por = false ∧ fused t ∧ t.er.logA = {} ∧ t.er.logB = {} ∧ t.mem = []) ∧
       (s.pw.por = false → exec (.porRelease src pos) s = .next s))) ∧
    (s.pw.state ≠ .off → ∀ v : Vector (BitVec 8) 8, ∃ t, exec (.temperatureSample v) s = .next t ∧
      let tj := t.pw.tj.toInt
      t.hw.temp = v ∧ (∀ i : Fin 8, (v[i]).toInt ≤ tj) ∧ (∃ i : Fin 8, v[i] = t.pw.tj ∧ t.pw.hot.toNat = i.val) ∧
      (s.pw.warned = false → s.pw.twarn.toInt ≤ tj → t.pw.warned = true ∧ t.pw.sticky.getLsbD 2 = true) ∧
      (tj ≤ s.pw.twarn.toInt - 5 → t.pw.warned = false) ∧ t.pw.over125 = decide (125 < tj) ∧
      (125 < tj → s.pw.over125 = true → s.pw.tripped = none → t.pw.state = .safeHold ∧ t.pw.sticky.getLsbD 3 = true ∧
        t.pw.tripped = some (s.now + if s.pw.state = .sleep ∨ s.pw.state = .standby then 8 else 10000000)) ∧
      (¬(125 < tj ∧ s.pw.over125 = true ∧ s.pw.tripped = none) → t.pw.state = s.pw.state ∧ t.pw.tripped = s.pw.tripped))

/-! ### Health and wear (R16, R430 to R434) -/

/-- R16, R430 to R434: health and wear. -/
def Obligations.HealthIsAccounted : Prop :=
  (∀ T : Int, -65 ≤ T → T ≤ 127 →
    (2 * accel T - 1) ^ 10 ≤ 2 ^ (T + 65).toNat ∧ 2 ^ (T + 65).toNat < (2 * accel T + 1) ^ 10 ∧ 1 ≤ accel T) ∧
  ∀ s : State,
    (s.pw.state ≠ .off → exec .wearSecond s = .next { s with
      hw := { s.hw with acc := s.hw.acc + accel s.hw.secMax.toInt, secMax := 0x80#8 } }) ∧
    (s.pw.state ≠ .off → ∀ drift : Vector (BitVec 32) 16, ∃ t, exec (.poweredHour drift) s = .next t ∧ t.hw.hours = s.hw.hours + 1 ∧
      t.hw.cnt = s.hw.cnt ∧ t.hw.acc = s.hw.acc ∧
      (∀ i : Fin 10, i ≠ 0 → t.hw.frac[i] =
        if s.hw.rated[i] = 0#32 then 0 else min ((s.hw.cnt[i]).toNat * 1000000 / (s.hw.rated[i]).toNat) 4294967295) ∧
      s.hw.acc * 1000000 / (65536 * 3600 * 87600) ⊓ 4294967295 ≤ t.hw.frac[0] ∧
      (∀ i : Fin 10, t.hw.rate[i] =
        s.hw.rate[i] + (((t.hw.frac[i] : Int) - s.hw.frac[i]) * 65536 - s.hw.rate[i]).tdiv s.hw.win.toNat) ∧
      t.hw.eol.toNat ≤ 1000000 ∧ (∀ i : Fin 10, 1000000 ≤ t.hw.frac[i] → t.hw.eol = 0#32) ∧
      (∀ i : Fin 10, t.hw.frac[i] < 1000000 → 0 < t.hw.rate[i] → i = 0 ∨ s.hw.rated[i] ≠ 0#32 →
        t.hw.eol.toNat ≤ (1000000 - t.hw.frac[i]) * 65536 / (t.hw.rate[i]).toNat) ∧
      (s.hw.eolAlert.toNat ≤ s.hw.eol.toNat → t.hw.eol.toNat < s.hw.eolAlert.toNat → t.hw.sticky.getLsbD 1 = true) ∧
      (∀ i : Fin 10, s.hw.frac[i] < 1000000 → 1000000 ≤ t.hw.frac[i] → t.hw.sticky.getLsbD 2 = true)) ∧
    ((s.domain 4).up = true →
      let w := s.hw.imgIn
      let ok := s.hw.restored = false ∧ w[0] = 1#32 ∧ w[23] = crc32c (wordsBytes (w.toList.take 23))
      (ok → ∃ t, exec .hwLoad s = .next t ∧ t.hw.restored = true ∧ t.hw.acc = s.hw.acc + (w[1]).toNat + 4294967296 * (w[2]).toNat ∧
        t.hw.hours = s.hw.hours + (w[22]).toNat ∧ t.hw.cnt[1] = satAdd s.hw.cnt[1] (w[3]).toNat ∧
        t.hw.cnt[9] = satAdd s.hw.cnt[9] (w[11]).toNat ∧ t.hw.rate[0] = ((w[12]).toNat : Int) ∧ t.hw.sticky = s.hw.sticky) ∧
      (¬ok → ∃ t, exec .hwLoad s = .next t ∧ t.hw = { s.hw with sticky := setBit s.hw.sticky 3 } ∧
        { t with hw := s.hw, er := s.er, hi := s.hi, out := s.out } = s) ∧
      ∀ (sel : Bool) (a : BitVec 40), a.toNat < 0x4000000 → (0x3E00000 ≤ a.toNat ↔ sel = true) → (s.domain (domainOf a.toNat)).up = true →
        let p := partitionOf a.toNat
        let before := if sel then s.hw.lastPassSel else s.hw.lastPass
        ∃ t, exec (.scrubPass sel [a]) s = .next t ∧ t.hw.cor = upd s.hw.cor p satInc ∧
          (if sel then t.hw.lastPassSel else t.hw.lastPass) = [a] ∧
          (if sel then t.hw.lastPass else t.hw.lastPassSel) = (if sel then s.hw.lastPass else s.hw.lastPassSel) ∧
          (a ∈ before → t.hw.weak = upd s.hw.weak p satInc ∧ t.hw.sticky = setBit s.hw.sticky 0) ∧
          (a ∉ before → t.hw.weak = s.hw.weak ∧ t.hw.sticky = s.hw.sticky)) ∧
    (∀ (a : BitVec 40) (w : MemWord),
      (¬(a.toNat < 0x4000000 ∧ (s.domain (domainOf a.toNat)).up = true) → exec (.eccUncorrectable a w) s = .next s) ∧
      (a.toNat < 0x4000000 → (s.domain (domainOf a.toNat)).up = true → ∃ t, exec (.eccUncorrectable a w) s = .next t ∧
        t.hw.unc = upd s.hw.unc (partitionOf a.toNat) satInc ∧
        (0x2400000 ≤ a.toNat → a.toNat < 0x2800000 → s.pw.state ≠ .off → t.pw.state = .safeHold) ∧
        (0x2C00000 ≤ a.toNat → a.toNat < 0x3A00000 →
          (∀ x, w = .axis x → (t.axis x).state = .fault ∧ (∀ y, y ≠ x → (s.axis y).state ≠ .geared → t.axis y = s.axis y) ∧ t.pw.state = s.pw.state) ∧
          (∀ n j, w = .can n j → (t.can.ctl[n]).invalid.getLsbD j.val = true ∧ (t.can.ctl[n]).txPend.getLsbD j.val = false ∧
            ∀ m : Fin 4, m ≠ n → t.can.ctl[m] = s.can.ctl[m]))))

/-! ### Host interface (R14, R436 to R445) -/

/-- R14, R436 to R445: rings, PERST#, address map and SPI. -/
def Obligations.HostReachesTheDevice : Prop :=
  ∀ s : State,
    ((s.domain 3).up = true → ∀ v : BitVec 32, let i := BitVec.extractLsb' 0 12 v
      let rejects := fun (c : Instr) => exec c s = .next { s with hi.sticky := setBit s.hi.sticky 3 }
      (∀ f : Fin 16, let r := s.hi.sub[f]
        let q := s.hi.comp[f]
        (i.toNat < 2 ^ r.depth.toNat →
          exec (.submissionTailWrite f v) s = .next { s with hi.sub := upd s.hi.sub f fun r => { r with tail := i } }) ∧
        (2 ^ r.depth.toNat ≤ i.toNat → rejects (.submissionTailWrite f v)) ∧
        (i.toNat < 2 ^ q.depth.toNat →
          exec (.completionHeadWrite f v) s = .next { s with
            hi.comp := upd s.hi.comp f fun r => { r with head := i, irqSent := false } }) ∧
        (2 ^ q.depth.toNat ≤ i.toNat → rejects (.completionHeadWrite f v))) ∧
      (∀ bufs : List (BitVec 40), let r := s.hi.rx
        let size := 2 ^ r.depth.toNat
        (size ≤ i.toNat → rejects (.rxRingTailWrite v bufs)) ∧
        (i.toNat < size → r.loc = true → exec (.rxRingTailWrite v bufs) s = .next { s with hi.rx.tail := i }) ∧
        (i.toNat < size → r.loc = false → bufs.length = (i.toNat + size - r.tail.toNat) % size →
          exec (.rxRingTailWrite v bufs) s = .next { s with hi := { s.hi with rx.tail := i, rxBufs := s.hi.rxBufs ++ bufs } })) ∧
      (∀ ds : List (Vector (BitVec 32) 8 × List (BitVec 8)), let r := s.hi.tx
        let size := 2 ^ r.depth.toNat
        (i.toNat < size → r.en = false → exec (.txRingTailWrite v ds) s = .next { s with hi.tx.tail := i }) ∧
        (i.toNat < size → r.en = true → swRuns s = true → r.depth.toNat ≤ 12 → r.head.toNat < size →
          ∃ t, exec (.txRingTailWrite v ds) s = .next t ∧ t.hi.tx = { r with tail := i, head := i } ∧ t.hi.rx = s.hi.rx ∧
            t.hi.sub = s.hi.sub ∧ t.hi.comp = s.hi.comp)) ∧
      (∀ k : Fin 34, let r := hostRing s k
        let depth := BitVec.extractLsb' 1 4 v
        let same := depth = r.depth ∧ v.getLsbD 5 = r.loc ∧ v.getLsbD 6 = r.irqEn
        let sets := fun (q : HostRing) (w : BitVec 4) => ∃ t, exec (.hiCfgWrite k v) s = .next t ∧ hostRing t k = q ∧
          (∀ j, j ≠ k → hostRing t j = hostRing s j) ∧ t.hi.sticky = w ∧ { t with hi := s.hi } = s
        (r.en = true → v.getLsbD 0 = true → rejects (.hiCfgWrite k v)) ∧
        (r.en = true → v.getLsbD 0 = false → same → sets { r with en := false } s.hi.sticky) ∧
        (r.en = true → v.getLsbD 0 = false → ¬same → sets { r with en := false } (setBit s.hi.sticky 3)) ∧
        (r.en = false → depth = 0#4 ∨ 12 < depth.toNat → rejects (.hiCfgWrite k v)) ∧
        (r.en = false → 1 ≤ depth.toNat → depth.toNat ≤ 12 → v.getLsbD 0 = false →
          sets { r with depth := depth, loc := v.getLsbD 5, irqEn := v.getLsbD 6 } s.hi.sticky) ∧
        (r.en = false → 1 ≤ depth.toNat → depth.toNat ≤ 12 → v.getLsbD 0 = true →
          sets { r with depth := depth, loc := v.getLsbD 5, irqEn := v.getLsbD 6, en := true, head := 0#12, tail := 0#12, phase := true
                        irqSent := false } s.hi.sticky))) ∧
    (∃ t, exec (.perst true) s = .next t ∧ t.hi = { s.hi with perstHigh := true } ∧ { t with hi := s.hi, cr := s.cr } = s) ∧
    (∃ t, exec (.perst false) s = .next t ∧ t.hi.perstHigh = false ∧ t.hi.linkUp = false ∧
      t.hi.msix = Vector.replicate 64 default ∧ t.hi.pba = 0#64 ∧ t.hi.sticky = s.hi.sticky ∧
      (∀ k, hostRing t k = if (hostRing s k).loc then hostRing s k else { hostRing s k with en := false }) ∧
      { t with hi := s.hi, cr := s.cr, er := s.er, out := s.out } = s) ∧
    (∀ (speed : BitVec 3) (width : BitVec 4),
      (s.hi.perstHigh = true → s.domain 3 = .run → ∃ t, exec (.pcieLink true speed width) s = .next t ∧ t.hi.linkUp = true ∧
        t.hi.linkSpeed = speed ∧ t.hi.linkWidth = width ∧ t.hi.sub = s.hi.sub ∧ t.hi.comp = s.hi.comp) ∧
      (s.hi.perstHigh = false ∨ s.domain 3 ≠ .run → exec (.pcieLink true speed width) s = .next s) ∧
      ∃ t, exec (.pcieLink false speed width) s = .next t ∧ t.hi.linkUp = false ∧ t.hi.sub = s.hi.sub ∧ t.hi.comp = s.hi.comp) ∧
    (∀ (a : BitVec 40) (v : BitVec 32), a.toNat % 4 = 0 →
      let sram := a.toNat < 0x4000000
      let shut := 0x3E00000 ≤ a.toNat ∨ (s.domain (domainOf a.toNat)).up = false
      let stored := fun (t : State) => { t with mem := s.mem, out := s.out } = s ∧ (Memory.wf s.mem = true → t.rd32 a.toNat = v ∧
        ∀ b, b < a.toNat ∨ a.toNat + 4 ≤ b → memRead t.mem b = memRead s.mem b)
      let counted := fun (t : State) => t.mem = s.mem ∧ ((s.domain 3).up = true →
        t.hi.unavailCnt = satInc s.hi.unavailCnt ∧ t.hi.sticky = setBit s.hi.sticky 1) ∧
        { t with hi := s.hi, er := s.er, out := s.out } = s
      (s.domain 3 = .run → sram →
        (¬shut → ∃ t, exec (.hostMemoryWrite a v) s = .next t ∧ stored t ∧ t.out = s.out ∧
          exec (.registerWrite .bar2 a v) s = .next t) ∧
        (shut → ∃ t, exec (.hostMemoryWrite a v) s = .next t ∧ counted t ∧ exec (.registerWrite .bar2 a v) s = .next t) ∧
        exec (.registerWrite .bar0 a v) s = .next s) ∧
      (s.pw.state ≠ .off →
        (sram → ¬shut → (∃ t, exec (.spiWrite a v) s = .next t ∧ stored t ∧ t.out = .spi (List.replicate 10 0#8 ++ [0x00#8]) :: s.out) ∧
          exec (.spiRead a) s = .next { s with
            rdata := [s.rd32 a.toNat], out := .spi (List.replicate 10 0#8 ++ natBytes (s.rd32 a.toNat).toNat 4 ++ [0x00#8]) :: s.out }) ∧
        (sram → shut → ∃ t, exec (.spiWrite a v) s = .next t ∧ counted t ∧
          t.out.head? = some (.spi (List.replicate 10 0#8 ++ [0x00#8]))) ∧
        (0x4000000 ≤ a.toNat → a.toNat < 0x100000000 ∨ 0x101300000 ≤ a.toNat →
          exec (.spiWrite a v) s = .next { s with out := .spi (List.replicate 10 0#8 ++ [0x11#8]) :: s.out } ∧
          exec (.spiRead a) s = .next { s with out := .spi (List.replicate 14 0#8 ++ [0x11#8]) :: s.out }) ∧
        (∀ cmd : BitVec 8, cmd ≠ 0x02#8 → cmd ≠ 0x0B#8 →
          exec (.spiOtherCommand cmd) s = .next { s with out := .spi (List.replicate 10 0#8 ++ [0x10#8]) :: s.out }))) ∧
    (∀ v : BitVec 32, s.domain 3 = .run → (s.domain 0).up = true →
      exec (.registerWrite .bar0 0x10000000C#40 v) s =
        .next { s with pw.wakeTime := BitVec.extractLsb' 32 32 s.pw.wakeTime ++ v })

/-! ### Boot and one-time-programmable memory (R446 to R449) -/

/-- R446 to R449: boot and OTP. -/
def Obligations.BootsAndFuses : Prop :=
  (∀ (s : State) (b : List Byte), fwCheck s b = 0#4 →
    let len := fwLen b
    let pub := (b.drop (len - 192)).take 96
    b.length = len ∧ 4096 ≤ len ∧ len ≤ 1048576 ∧ s.boot.keyHash = some (beBits384 (sha384 pub)) ∧
      ecdsaVerify pub (sha384 (b.take (len - 96))) ((b.drop (len - 96)).take 96) = true ∧
      s.boot.minSvn.toNat ≤ (fwSvn b).toNat ∧ (∃ t ∈ fwSections b, t.target = 0) ∧ (∃ t ∈ fwSections b, t.target = 1) ∧
      (∀ t ∈ fwSections b, t.off + t.size ≤ len ∧ t.target ≠ 3)) ∧
  ∀ s : State,
    (let passes := fun (t : State) (b : List Byte) (second : Bool) => t.boot.selftest = true ∧ t.boot.busy = true ∧
       t.boot.svn = fwSvn b ∧ t.boot.second = second ∧ t.sv.sealed = false ∧ t.pw = s.pw ∧
       ∀ c, (s.svCh c).state ≠ .fault → (s.svCh c).state ≠ .safeHold → (t.svCh c).state = .selftest
     let fails := fun (t : State) (reason : BitVec 4) => t.boot.reason = reason ∧ t.boot.busy = false ∧ t.boot.done = false ∧
       t.pw.state = s.pw.state ∧ t.pw.trans = none ∧ t.domain 1 = .ret ∧ t.domain 2 = .ret ∧ t.domain 3 = .off ∧ t.domain 4 = .off
     s.boot.busy = true → s.pw.wakePend = 0#3 →
      (s.boot.waitHost = true →
        (∀ v : BitVec 32, v.getLsbD 31 = true →
          let b := s.rdBytes 0x3800000 (BitVec.extractLsb' 0 21 v).toNat
          (fwCheck s b = 0#4 → ∃ t, exec (.bootHostGo v) s = .next t ∧ passes t b false) ∧
          (fwCheck s b ≠ 0#4 → ∃ t, exec (.bootHostGo v) s = .next t ∧ fails t (fwCheck s b))) ∧
        (∀ v : BitVec 32, v.getLsbD 31 = false → exec (.bootHostGo v) s = .next s) ∧
        ∃ t, exec .bootHostTimeout s = .next t ∧ fails t 1#4) ∧
      (s.boot.selftest = false → s.boot.bootSrc.toNat < 2 → ∀ x y : List (BitVec 8),
        let a := if fwLen x ≤ 1048576 then x.take (fwLen x) else x.take 16
        let b := if fwLen y ≤ 1048576 then y.take (fwLen y) else y.take 16
        (fwCheck s a = 0#4 → ∃ t, exec (.bootImageLoaded x y) s = .next t ∧ passes t a false) ∧
        (fwCheck s a ≠ 0#4 → fwCheck s b = 0#4 → ∃ t, exec (.bootImageLoaded x y) s = .next t ∧ passes t b true) ∧
        (fwCheck s a ≠ 0#4 → fwCheck s b ≠ 0#4 → ∃ t, exec (.bootImageLoaded x y) s = .next t ∧ fails t (fwCheck s b)))) ∧
    (s.pw.state = .standby →
      (s.boot.keyHash = none → exec (.otpProgramKey .spi) s = .next { s with
        boot.keyHash := some (beBits384 (wordsBytes s.boot.otpData.toList)) }) ∧
      (s.boot.keyHash.isSome = true → exec (.otpProgramKey .spi) s = .next s) ∧
      ∃ t, exec (.otpRaiseSvn .spi) s = .next t ∧ t.boot = { s.boot with minSvn := t.boot.minSvn } ∧
        t.boot.minSvn.toNat = max s.boot.minSvn.toNat s.boot.svn.toNat ∧ { t with boot := s.boot } = s) ∧
    (∀ path : Path, s.pw.state ≠ .off → s.pw.state ≠ .standby ∨ path ≠ .spi → ∀ i, i = Instr.otpProgramKey path ∨ i = .otpRaiseSvn path →
      ∃ t, exec i s = .next t ∧ t.pw = { s.pw with sticky := setBit s.pw.sticky 4 } ∧ { t with pw := s.pw, hi := s.hi, out := s.out } = s)
end

