-- ==== Sys2Proof/Laws/Tables.lean ====
section
/-! SUPPORT. What the shared table and bit operations do: reading back an entry that was replaced, and the bits of a word in which
one bit was set or cleared. -/
namespace Sys2Proof.Machine

/-- Entry `j` of a table in which entry `i` was replaced. -/
theorem upd_get {α : Type} {n : Nat} (v : Vector α n) (i : Fin n) (g : α → α) (j : Nat) (hj : j < n) :
    (upd v i g)[j] = if i.val = j then g (v[i.val]'i.isLt) else v[j] := by
  simp only [upd, Fin.getElem_fin, Vector.getElem_set]

@[simp] theorem upd_get_same {α : Type} {n : Nat} (v : Vector α n) (i : Fin n) (g : α → α) :
    (upd v i g)[i.val]'i.isLt = g (v[i.val]'i.isLt) := by
  simp [upd_get]

theorem upd_get_ne {α : Type} {n : Nat} (v : Vector α n) (i : Fin n) (g : α → α) (j : Nat) (hj : j < n) (h : i.val ≠ j) :
    (upd v i g)[j] = v[j] := by
  simp [upd_get, h]

theorem updN_lt {α : Type} {n : Nat} (v : Vector α n) (i : Nat) (g : α → α) (h : i < n) : updN v i g = upd v ⟨i, h⟩ g := by
  simp [updN, h]

theorem updN_ge {α : Type} {n : Nat} (v : Vector α n) (i : Nat) (g : α → α) (h : n ≤ i) : updN v i g = v := by
  simp [updN, Nat.not_lt.mpr h]

theorem getN_lt {α : Type} [Inhabited α] {n : Nat} (v : Vector α n) (i : Nat) (h : i < n) : getN v i = v[i] := by
  simp [getN, h]

theorem getN_updN {α : Type} [Inhabited α] {n : Nat} (v : Vector α n) (i j : Nat) (g : α → α) (hj : j < n) :
    getN (updN v i g) j = if i = j then g (getN v j) else getN v j := by
  by_cases hi : i < n
  · simp only [updN, hi, getN, hj, dif_pos, upd_get]
    split
    · next h => subst h; rfl
    · rfl
  · have : i ≠ j := by omega
    simp [updN, hi, this]

@[simp] theorem bit_setBit_same {n : Nat} (w : BitVec n) (i : Nat) (h : i < n) : bit (setBit w i) i = true := by
  simp [bit, setBit, h]

theorem bit_setBit_ne {n : Nat} (w : BitVec n) (i j : Nat) (h : i ≠ j) : bit (setBit w i) j = bit w j := by
  simp [bit, setBit, h]

@[simp] theorem bit_clearBit_same {n : Nat} (w : BitVec n) (i : Nat) : bit (clearBit w i) i = false := by
  by_cases h : i < n
  · simp [bit, clearBit, h]
  · simp [bit, clearBit, BitVec.getLsbD_of_ge w i (by omega)]

theorem bit_clearBit_ne {n : Nat} (w : BitVec n) (i j : Nat) (h : i ≠ j) : bit (clearBit w i) j = bit w j := by
  by_cases hj : j < n
  · simp only [bit, clearBit, BitVec.getLsbD_and, BitVec.getLsbD_not, BitVec.getLsbD_twoPow, hj, h, decide_true, decide_false,
      Bool.and_false, Bool.not_false, Bool.and_true]
  · simp [bit, clearBit, BitVec.getLsbD_of_ge w j (by omega)]

/-- A saturating counter never falls. -/
theorem satInc_ge {n : Nat} (c : BitVec n) : c.toNat ≤ (satInc c).toNat := by
  unfold satInc
  split
  · exact Nat.le_refl _
  · next h =>
    have hlt : c.toNat + 1 < 2 ^ n := by
      have h1 : c.toNat ≠ 2 ^ n - 1 := by
        intro h2
        exact h (BitVec.eq_of_toNat_eq (by simp [BitVec.toNat_allOnes, h2]))
      have := c.isLt
      omega
    have hn : 1 < 2 ^ n := by omega
    simp only [BitVec.toNat_add, BitVec.toNat_ofNat, Nat.mod_eq_of_lt hn, Nat.mod_eq_of_lt hlt]
    omega

/-- A property that every entry's change keeps holds after all of them. -/
theorem forEach_induct {α : Type} (P : State → Prop) (l : List α) (g : State → α → State)
    (step : ∀ s a, a ∈ l → P s → P (g s a)) (s : State) (h : P s) : P (s.forEach l g) := by
  unfold State.forEach
  induction l generalizing s with
  | nil => exact h
  | cons a r ih =>
    exact ih (fun s b hb hs => step s b (List.mem_cons_of_mem _ hb) hs) (g s a) (step s a List.mem_cons_self h)

end Sys2Proof.Machine
end

