-- ==== Sys2Proof/Laws/Memory.lean ====
section
/-! SUPPORT. The laws of memory: a byte reads back as written, every other byte is as before, and every operation keeps the
canonical form. -/
namespace Sys2Proof.Machine

/-- A byte that the canonical form places below every listed address reads as the default. -/
theorem memRead_below (m : List Host.Cell) (lo : Option Nat) (a : Nat) (h : memWfFrom lo m = true)
    (ha : ∀ c ∈ m, a < c.1) : memRead m a = memDefault := by
  cases m with
  | nil => rfl
  | cons c r =>
    have hc := ha c List.mem_cons_self
    simp only [memRead]
    rw [if_neg (by omega)]
    simp only [memWfFrom, Bool.and_eq_true] at h
    exact memRead_below r (some c.1) a h.2 (fun d hd => ha d (List.mem_cons_of_mem _ hd))

theorem memWfFrom_lower (m : List Host.Cell) (lo lo' : Option Nat)
    (h : memWfFrom lo m = true) (hl : ∀ b, lo' = some b → ∃ a, lo = some a ∧ b ≤ a) : memWfFrom lo' m = true := by
  cases m with
  | nil => rfl
  | cons c r =>
    simp only [memWfFrom, Bool.and_eq_true] at h ⊢
    refine ⟨⟨?_, h.1.2⟩, h.2⟩
    cases lo' with
    | none => rfl
    | some b =>
      obtain ⟨a, rfl, hba⟩ := hl b rfl
      simpa using Nat.lt_of_le_of_lt hba (by simpa using h.1.1)

theorem memWf_above (m : List Host.Cell) (k : Nat) (h : memWfFrom (some k) m = true) : ∀ c ∈ m, k < c.1 := by
  induction m generalizing k with
  | nil => simp
  | cons d r ih =>
    simp only [memWfFrom, Bool.and_eq_true, decide_eq_true_eq] at h
    intro c hc
    rcases List.mem_cons.mp hc with rfl | hc
    · exact h.1.1
    · exact Nat.lt_trans h.1.1 (ih d.1 h.2 c hc)

theorem memLo_lt (lo : Option Nat) (a : Nat) :
    (∀ l, lo = some l → l < a) → (match lo with | none => true | some l => decide (l < a)) = true := by
  cases lo with
  | none => exact fun _ => rfl
  | some l => exact fun h => by simpa using h l rfl

/-- A byte written keeps the canonical form above every bound that lies below its address. -/
theorem memWrite_wfFrom (m : List Host.Cell) (lo : Option Nat) (a : Nat) (b : Byte) (h : memWfFrom lo m = true)
    (hlo : ∀ l, lo = some l → l < a) : memWfFrom lo (memWrite m a b) = true := by
  have hb := memLo_lt lo a hlo
  induction m generalizing lo with
  | nil =>
    unfold memWrite
    split
    · rfl
    · next hd => simp only [memWfFrom, Bool.and_eq_true, decide_eq_true_eq]; exact ⟨⟨hb, hd⟩, trivial⟩
  | cons c r ih =>
    obtain ⟨k, v⟩ := c
    have hc := h
    simp only [memWfFrom, Bool.and_eq_true] at hc
    simp only [memWrite]
    split
    · next hk =>
      split
      · exact h
      · next hd =>
        simp only [memWfFrom, Bool.and_eq_true, decide_eq_true_eq]
        exact ⟨⟨hb, hd⟩, ⟨hk, by simpa using hc.1.2⟩, hc.2⟩
    · next hk =>
      split
      · next he =>
        subst he
        split
        · exact memWfFrom_lower r (some a) lo hc.2 (fun l hl => ⟨a, rfl, Nat.le_of_lt (hlo l hl)⟩)
        · next hd => simp only [memWfFrom, Bool.and_eq_true, decide_eq_true_eq]; exact ⟨⟨hb, hd⟩, hc.2⟩
      · next he =>
        have hka : k < a := by omega
        simp only [memWfFrom, Bool.and_eq_true]
        exact ⟨hc.1, ih (some k) hc.2 (fun l hl => by cases hl; exact hka) (memLo_lt (some k) a fun l hl => by cases hl; exact hka)⟩

/-- A byte written keeps the canonical form. -/
theorem memWrite_wf (m : List Host.Cell) (a : Nat) (b : Byte) (h : Memory.wf m = true) : Memory.wf (memWrite m a b) = true :=
  memWrite_wfFrom m none a b h (by simp)

/-- A run of bytes written keeps the canonical form. -/
theorem memWriteList_wf (bs : List Byte) (m : List Host.Cell) (a : Nat) (h : Memory.wf m = true) :
    Memory.wf (memWriteList m a bs) = true := by
  induction bs generalizing m a with
  | nil => exact h
  | cons b r ih => exact ih _ _ (memWrite_wf m a b h)

theorem filter_wfFrom (m : List Host.Cell) (p : Host.Cell → Bool) (lo : Option Nat) (h : memWfFrom lo m = true) :
    memWfFrom lo (m.filter p) = true := by
  induction m generalizing lo with
  | nil => rfl
  | cons c r ih =>
    have hc := h
    simp only [memWfFrom, Bool.and_eq_true] at hc
    rw [List.filter_cons]
    split
    · simp only [memWfFrom, Bool.and_eq_true]; exact ⟨hc.1, ih _ hc.2⟩
    · refine ih lo (memWfFrom_lower r (some c.1) lo hc.2 fun l hl => ⟨c.1, rfl, ?_⟩)
      subst hl
      exact Nat.le_of_lt (by simpa using hc.1.1)

/-- A range zeroed keeps the canonical form. -/
theorem memZero_wf (m : List Host.Cell) (lo hi : Nat) (h : Memory.wf m = true) : Memory.wf (memZero m lo hi) = true :=
  filter_wfFrom m _ none h

/-- Words written into a ring keep the canonical form. -/
theorem ringPut_wf (base size : Nat) (ws : List (BitVec 32)) (m : List Host.Cell) (i : Nat) (h : Memory.wf m = true) :
    Memory.wf (ringPut base size m i ws) = true := by
  induction ws generalizing m i with
  | nil => exact h
  | cons w r ih => exact ih _ _ (memWriteList_wf _ _ _ h)

/-- A byte reads back as written, and every other byte is as before. -/
theorem memRead_memWrite (m : List Host.Cell) (a : Nat) (b : Byte) (h : Memory.wf m = true) (x : Nat) :
    memRead (memWrite m a b) x = if x = a then b else memRead m x := by
  have key : ∀ (m : List Host.Cell) (lo : Option Nat), memWfFrom lo m = true →
      memRead (memWrite m a b) x = if x = a then b else memRead m x := by
    intro m
    induction m with
    | nil =>
      intro _ _
      unfold memWrite
      split
      · next hd => simp [memRead, hd]
      · simp only [memRead, eq_comm]
    | cons c r ih =>
      obtain ⟨k, v⟩ := c
      intro lo hw
      simp only [memWfFrom, Bool.and_eq_true] at hw
      have hab := memWf_above r k hw.2
      simp only [memWrite]
      split
      · next hk =>
        split
        · next hd =>
          split
          · next hx =>
            subst hx
            rw [hd]
            simp only [memRead]
            rw [if_neg (by omega)]
            exact memRead_below r (some k) x hw.2 (fun c hc => Nat.lt_trans hk (hab c hc))
          · rfl
        · simp only [memRead, eq_comm (a := a)]
      · next hk =>
        split
        · next he =>
          subst he
          split
          · next hd =>
            split
            · next hx =>
              subst hx
              rw [hd]
              exact memRead_below r (some x) x hw.2 hab
            · next hx => simp only [memRead]; rw [if_neg (by omega)]
          · simp only [memRead]
            split
            · next hx => rw [if_pos hx.symm]
            · next hx => rw [if_neg (fun q => hx q.symm)]
        · next he =>
          simp only [memRead]
          rw [ih (some k) hw.2]
          split
          · next hx => rw [if_neg (by omega)]
          · rfl
  exact key m none h

/-- A run of bytes written leaves every byte outside it as before. -/
theorem memRead_memWriteList_outside (bs : List Byte) (m : List Host.Cell) (a x : Nat) (h : Memory.wf m = true)
    (hx : x < a ∨ a + bs.length ≤ x) : memRead (memWriteList m a bs) x = memRead m x := by
  induction bs generalizing m a with
  | nil => rfl
  | cons b r ih =>
    simp only [List.length_cons] at hx
    rw [memWriteList, ih _ _ (memWrite_wf m a b h) (by omega), memRead_memWrite m a b h, if_neg (by omega)]

/-- A run of bytes written reads back byte by byte. -/
theorem memRead_memWriteList_inside (bs : List Byte) (m : List Host.Cell) (a i : Nat) (h : Memory.wf m = true)
    (hi : i < bs.length) : memRead (memWriteList m a bs) (a + i) = bs[i] := by
  induction bs generalizing m a i with
  | nil => simp at hi
  | cons b r ih =>
    rw [memWriteList]
    cases i with
    | zero =>
      rw [memRead_memWriteList_outside r _ _ _ (memWrite_wf m a b h) (by omega), memRead_memWrite m a b h, if_pos (by omega)]
      rfl
    | succ j =>
      have : a + (j + 1) = (a + 1) + j := by omega
      rw [this, ih _ _ _ (memWrite_wf m a b h) (by simpa using hi)]
      rfl

/-- A range zeroed reads as zero, and every other byte is as before. -/
theorem memRead_memZero (m : List Host.Cell) (lo hi x : Nat) (h : Memory.wf m = true) :
    memRead (memZero m lo hi) x = if lo ≤ x ∧ x < hi then memDefault else memRead m x := by
  have key : ∀ (m : List Host.Cell) (b : Option Nat), memWfFrom b m = true →
      memRead (memZero m lo hi) x = if lo ≤ x ∧ x < hi then memDefault else memRead m x := by
    intro m
    induction m with
    | nil => intro _ _; simp [memZero, memRead]
    | cons c r ih =>
      obtain ⟨k, v⟩ := c
      intro b hw
      simp only [memWfFrom, Bool.and_eq_true] at hw
      have ih' := ih (some k) hw.2
      simp only [memZero] at ih' ⊢
      rw [List.filter_cons]
      split
      · next hp =>
        simp only [Bool.not_eq_true', Bool.and_eq_false_iff, decide_eq_false_iff_not] at hp
        simp only [memRead]
        split
        · next hk => subst hk; rw [if_neg (by omega)]
        · exact ih'
      · next hp =>
        simp only [Bool.not_eq_true', Bool.and_eq_false_iff, decide_eq_false_iff_not, not_or, not_not] at hp
        rw [ih']
        simp only [memRead]
        split
        · rfl
        · next hx => rw [if_neg (fun he : k = x => hx (he ▸ hp))]
  exact key m none h

/-- Reset's memory is in canonical form. -/
theorem reset_wf : Memory.wf State.reset.mem = true := rfl

end Sys2Proof.Machine
end

