-- ==== Sys2Proof/Laws/State.lean ====
section
/-! SUPPORT. What each update of one part of the state leaves in every field of State: one lemma for each field of each update, all true
by unfolding. -/
namespace Sys2Proof.Machine

/-! `State.modFlow` changes `tr` alone. -/

@[simp] theorem State.modFlow_tb (s : State) (f : Fin 16) (g : FlowS → FlowS) : (s.modFlow f g).tb = s.tb := rfl
@[simp] theorem State.modFlow_tr (s : State) (f : Fin 16) (g : FlowS → FlowS) : (s.modFlow f g).tr = { s.tr with flow := upd s.tr.flow f g } := rfl
@[simp] theorem State.modFlow_lm (s : State) (f : Fin 16) (g : FlowS → FlowS) : (s.modFlow f g).lm = s.lm := rfl
@[simp] theorem State.modFlow_fb (s : State) (f : Fin 16) (g : FlowS → FlowS) : (s.modFlow f g).fb = s.fb := rfl
@[simp] theorem State.modFlow_ce (s : State) (f : Fin 16) (g : FlowS → FlowS) : (s.modFlow f g).ce = s.ce := rfl
@[simp] theorem State.modFlow_cell (s : State) (f : Fin 16) (g : FlowS → FlowS) : (s.modFlow f g).cell = s.cell := rfl
@[simp] theorem State.modFlow_pg (s : State) (f : Fin 16) (g : FlowS → FlowS) : (s.modFlow f g).pg = s.pg := rfl
@[simp] theorem State.modFlow_stl (s : State) (f : Fin 16) (g : FlowS → FlowS) : (s.modFlow f g).stl = s.stl := rfl
@[simp] theorem State.modFlow_sv (s : State) (f : Fin 16) (g : FlowS → FlowS) : (s.modFlow f g).sv = s.sv := rfl
@[simp] theorem State.modFlow_sio (s : State) (f : Fin 16) (g : FlowS → FlowS) : (s.modFlow f g).sio = s.sio := rfl
@[simp] theorem State.modFlow_sl (s : State) (f : Fin 16) (g : FlowS → FlowS) : (s.modFlow f g).sl = s.sl := rfl
@[simp] theorem State.modFlow_pr (s : State) (f : Fin 16) (g : FlowS → FlowS) : (s.modFlow f g).pr = s.pr := rfl
@[simp] theorem State.modFlow_qp (s : State) (f : Fin 16) (g : FlowS → FlowS) : (s.modFlow f g).qp = s.qp := rfl
@[simp] theorem State.modFlow_rd (s : State) (f : Fin 16) (g : FlowS → FlowS) : (s.modFlow f g).rd = s.rd := rfl
@[simp] theorem State.modFlow_sw (s : State) (f : Fin 16) (g : FlowS → FlowS) : (s.modFlow f g).sw = s.sw := rfl
@[simp] theorem State.modFlow_nt (s : State) (f : Fin 16) (g : FlowS → FlowS) : (s.modFlow f g).nt = s.nt := rfl
@[simp] theorem State.modFlow_can (s : State) (f : Fin 16) (g : FlowS → FlowS) : (s.modFlow f g).can = s.can := rfl
@[simp] theorem State.modFlow_wr (s : State) (f : Fin 16) (g : FlowS → FlowS) : (s.modFlow f g).wr = s.wr := rfl
@[simp] theorem State.modFlow_dr (s : State) (f : Fin 16) (g : FlowS → FlowS) : (s.modFlow f g).dr = s.dr := rfl
@[simp] theorem State.modFlow_er (s : State) (f : Fin 16) (g : FlowS → FlowS) : (s.modFlow f g).er = s.er := rfl
@[simp] theorem State.modFlow_hi (s : State) (f : Fin 16) (g : FlowS → FlowS) : (s.modFlow f g).hi = s.hi := rfl
@[simp] theorem State.modFlow_boot (s : State) (f : Fin 16) (g : FlowS → FlowS) : (s.modFlow f g).boot = s.boot := rfl
@[simp] theorem State.modFlow_pw (s : State) (f : Fin 16) (g : FlowS → FlowS) : (s.modFlow f g).pw = s.pw := rfl
@[simp] theorem State.modFlow_cr (s : State) (f : Fin 16) (g : FlowS → FlowS) : (s.modFlow f g).cr = s.cr := rfl
@[simp] theorem State.modFlow_hw (s : State) (f : Fin 16) (g : FlowS → FlowS) : (s.modFlow f g).hw = s.hw := rfl
@[simp] theorem State.modFlow_pend (s : State) (f : Fin 16) (g : FlowS → FlowS) : (s.modFlow f g).pend = s.pend := rfl
@[simp] theorem State.modFlow_mem (s : State) (f : Fin 16) (g : FlowS → FlowS) : (s.modFlow f g).mem = s.mem := rfl
@[simp] theorem State.modFlow_out (s : State) (f : Fin 16) (g : FlowS → FlowS) : (s.modFlow f g).out = s.out := rfl
@[simp] theorem State.modFlow_rdata (s : State) (f : Fin 16) (g : FlowS → FlowS) : (s.modFlow f g).rdata = s.rdata := rfl
@[simp] theorem State.modFlow_fresh (s : State) (f : Fin 16) (g : FlowS → FlowS) : (s.modFlow f g).fresh = s.fresh := rfl
@[simp] theorem State.modFlow_pending (s : State) (f : Fin 16) (g : FlowS → FlowS) : (s.modFlow f g).pending = s.pending := rfl

/-! `State.modAxis` changes `cell` alone. -/

@[simp] theorem State.modAxis_tb (s : State) (a : Fin 80) (g : Axis → Axis) : (s.modAxis a g).tb = s.tb := rfl
@[simp] theorem State.modAxis_tr (s : State) (a : Fin 80) (g : Axis → Axis) : (s.modAxis a g).tr = s.tr := rfl
@[simp] theorem State.modAxis_lm (s : State) (a : Fin 80) (g : Axis → Axis) : (s.modAxis a g).lm = s.lm := rfl
@[simp] theorem State.modAxis_fb (s : State) (a : Fin 80) (g : Axis → Axis) : (s.modAxis a g).fb = s.fb := rfl
@[simp] theorem State.modAxis_ce (s : State) (a : Fin 80) (g : Axis → Axis) : (s.modAxis a g).ce = s.ce := rfl
@[simp] theorem State.modAxis_cell (s : State) (a : Fin 80) (g : Axis → Axis) : (s.modAxis a g).cell = { s.cell with ax := upd s.cell.ax a g } := rfl
@[simp] theorem State.modAxis_pg (s : State) (a : Fin 80) (g : Axis → Axis) : (s.modAxis a g).pg = s.pg := rfl
@[simp] theorem State.modAxis_stl (s : State) (a : Fin 80) (g : Axis → Axis) : (s.modAxis a g).stl = s.stl := rfl
@[simp] theorem State.modAxis_sv (s : State) (a : Fin 80) (g : Axis → Axis) : (s.modAxis a g).sv = s.sv := rfl
@[simp] theorem State.modAxis_sio (s : State) (a : Fin 80) (g : Axis → Axis) : (s.modAxis a g).sio = s.sio := rfl
@[simp] theorem State.modAxis_sl (s : State) (a : Fin 80) (g : Axis → Axis) : (s.modAxis a g).sl = s.sl := rfl
@[simp] theorem State.modAxis_pr (s : State) (a : Fin 80) (g : Axis → Axis) : (s.modAxis a g).pr = s.pr := rfl
@[simp] theorem State.modAxis_qp (s : State) (a : Fin 80) (g : Axis → Axis) : (s.modAxis a g).qp = s.qp := rfl
@[simp] theorem State.modAxis_rd (s : State) (a : Fin 80) (g : Axis → Axis) : (s.modAxis a g).rd = s.rd := rfl
@[simp] theorem State.modAxis_sw (s : State) (a : Fin 80) (g : Axis → Axis) : (s.modAxis a g).sw = s.sw := rfl
@[simp] theorem State.modAxis_nt (s : State) (a : Fin 80) (g : Axis → Axis) : (s.modAxis a g).nt = s.nt := rfl
@[simp] theorem State.modAxis_can (s : State) (a : Fin 80) (g : Axis → Axis) : (s.modAxis a g).can = s.can := rfl
@[simp] theorem State.modAxis_wr (s : State) (a : Fin 80) (g : Axis → Axis) : (s.modAxis a g).wr = s.wr := rfl
@[simp] theorem State.modAxis_dr (s : State) (a : Fin 80) (g : Axis → Axis) : (s.modAxis a g).dr = s.dr := rfl
@[simp] theorem State.modAxis_er (s : State) (a : Fin 80) (g : Axis → Axis) : (s.modAxis a g).er = s.er := rfl
@[simp] theorem State.modAxis_hi (s : State) (a : Fin 80) (g : Axis → Axis) : (s.modAxis a g).hi = s.hi := rfl
@[simp] theorem State.modAxis_boot (s : State) (a : Fin 80) (g : Axis → Axis) : (s.modAxis a g).boot = s.boot := rfl
@[simp] theorem State.modAxis_pw (s : State) (a : Fin 80) (g : Axis → Axis) : (s.modAxis a g).pw = s.pw := rfl
@[simp] theorem State.modAxis_cr (s : State) (a : Fin 80) (g : Axis → Axis) : (s.modAxis a g).cr = s.cr := rfl
@[simp] theorem State.modAxis_hw (s : State) (a : Fin 80) (g : Axis → Axis) : (s.modAxis a g).hw = s.hw := rfl
@[simp] theorem State.modAxis_pend (s : State) (a : Fin 80) (g : Axis → Axis) : (s.modAxis a g).pend = s.pend := rfl
@[simp] theorem State.modAxis_mem (s : State) (a : Fin 80) (g : Axis → Axis) : (s.modAxis a g).mem = s.mem := rfl
@[simp] theorem State.modAxis_out (s : State) (a : Fin 80) (g : Axis → Axis) : (s.modAxis a g).out = s.out := rfl
@[simp] theorem State.modAxis_rdata (s : State) (a : Fin 80) (g : Axis → Axis) : (s.modAxis a g).rdata = s.rdata := rfl
@[simp] theorem State.modAxis_fresh (s : State) (a : Fin 80) (g : Axis → Axis) : (s.modAxis a g).fresh = s.fresh := rfl
@[simp] theorem State.modAxis_pending (s : State) (a : Fin 80) (g : Axis → Axis) : (s.modAxis a g).pending = s.pending := rfl

/-! `State.modArm` changes `cell` alone. -/

@[simp] theorem State.modArm_tb (s : State) (r : Fin 8) (g : Arm → Arm) : (s.modArm r g).tb = s.tb := rfl
@[simp] theorem State.modArm_tr (s : State) (r : Fin 8) (g : Arm → Arm) : (s.modArm r g).tr = s.tr := rfl
@[simp] theorem State.modArm_lm (s : State) (r : Fin 8) (g : Arm → Arm) : (s.modArm r g).lm = s.lm := rfl
@[simp] theorem State.modArm_fb (s : State) (r : Fin 8) (g : Arm → Arm) : (s.modArm r g).fb = s.fb := rfl
@[simp] theorem State.modArm_ce (s : State) (r : Fin 8) (g : Arm → Arm) : (s.modArm r g).ce = s.ce := rfl
@[simp] theorem State.modArm_cell (s : State) (r : Fin 8) (g : Arm → Arm) : (s.modArm r g).cell = { s.cell with arm := upd s.cell.arm r g } := rfl
@[simp] theorem State.modArm_pg (s : State) (r : Fin 8) (g : Arm → Arm) : (s.modArm r g).pg = s.pg := rfl
@[simp] theorem State.modArm_stl (s : State) (r : Fin 8) (g : Arm → Arm) : (s.modArm r g).stl = s.stl := rfl
@[simp] theorem State.modArm_sv (s : State) (r : Fin 8) (g : Arm → Arm) : (s.modArm r g).sv = s.sv := rfl
@[simp] theorem State.modArm_sio (s : State) (r : Fin 8) (g : Arm → Arm) : (s.modArm r g).sio = s.sio := rfl
@[simp] theorem State.modArm_sl (s : State) (r : Fin 8) (g : Arm → Arm) : (s.modArm r g).sl = s.sl := rfl
@[simp] theorem State.modArm_pr (s : State) (r : Fin 8) (g : Arm → Arm) : (s.modArm r g).pr = s.pr := rfl
@[simp] theorem State.modArm_qp (s : State) (r : Fin 8) (g : Arm → Arm) : (s.modArm r g).qp = s.qp := rfl
@[simp] theorem State.modArm_rd (s : State) (r : Fin 8) (g : Arm → Arm) : (s.modArm r g).rd = s.rd := rfl
@[simp] theorem State.modArm_sw (s : State) (r : Fin 8) (g : Arm → Arm) : (s.modArm r g).sw = s.sw := rfl
@[simp] theorem State.modArm_nt (s : State) (r : Fin 8) (g : Arm → Arm) : (s.modArm r g).nt = s.nt := rfl
@[simp] theorem State.modArm_can (s : State) (r : Fin 8) (g : Arm → Arm) : (s.modArm r g).can = s.can := rfl
@[simp] theorem State.modArm_wr (s : State) (r : Fin 8) (g : Arm → Arm) : (s.modArm r g).wr = s.wr := rfl
@[simp] theorem State.modArm_dr (s : State) (r : Fin 8) (g : Arm → Arm) : (s.modArm r g).dr = s.dr := rfl
@[simp] theorem State.modArm_er (s : State) (r : Fin 8) (g : Arm → Arm) : (s.modArm r g).er = s.er := rfl
@[simp] theorem State.modArm_hi (s : State) (r : Fin 8) (g : Arm → Arm) : (s.modArm r g).hi = s.hi := rfl
@[simp] theorem State.modArm_boot (s : State) (r : Fin 8) (g : Arm → Arm) : (s.modArm r g).boot = s.boot := rfl
@[simp] theorem State.modArm_pw (s : State) (r : Fin 8) (g : Arm → Arm) : (s.modArm r g).pw = s.pw := rfl
@[simp] theorem State.modArm_cr (s : State) (r : Fin 8) (g : Arm → Arm) : (s.modArm r g).cr = s.cr := rfl
@[simp] theorem State.modArm_hw (s : State) (r : Fin 8) (g : Arm → Arm) : (s.modArm r g).hw = s.hw := rfl
@[simp] theorem State.modArm_pend (s : State) (r : Fin 8) (g : Arm → Arm) : (s.modArm r g).pend = s.pend := rfl
@[simp] theorem State.modArm_mem (s : State) (r : Fin 8) (g : Arm → Arm) : (s.modArm r g).mem = s.mem := rfl
@[simp] theorem State.modArm_out (s : State) (r : Fin 8) (g : Arm → Arm) : (s.modArm r g).out = s.out := rfl
@[simp] theorem State.modArm_rdata (s : State) (r : Fin 8) (g : Arm → Arm) : (s.modArm r g).rdata = s.rdata := rfl
@[simp] theorem State.modArm_fresh (s : State) (r : Fin 8) (g : Arm → Arm) : (s.modArm r g).fresh = s.fresh := rfl
@[simp] theorem State.modArm_pending (s : State) (r : Fin 8) (g : Arm → Arm) : (s.modArm r g).pending = s.pending := rfl

/-! `State.modCh` changes `fb` alone. -/

@[simp] theorem State.modCh_tb (s : State) (c : Fin 96) (g : FbCh → FbCh) : (s.modCh c g).tb = s.tb := rfl
@[simp] theorem State.modCh_tr (s : State) (c : Fin 96) (g : FbCh → FbCh) : (s.modCh c g).tr = s.tr := rfl
@[simp] theorem State.modCh_lm (s : State) (c : Fin 96) (g : FbCh → FbCh) : (s.modCh c g).lm = s.lm := rfl
@[simp] theorem State.modCh_fb (s : State) (c : Fin 96) (g : FbCh → FbCh) : (s.modCh c g).fb = { s.fb with ch := upd s.fb.ch c g } := rfl
@[simp] theorem State.modCh_ce (s : State) (c : Fin 96) (g : FbCh → FbCh) : (s.modCh c g).ce = s.ce := rfl
@[simp] theorem State.modCh_cell (s : State) (c : Fin 96) (g : FbCh → FbCh) : (s.modCh c g).cell = s.cell := rfl
@[simp] theorem State.modCh_pg (s : State) (c : Fin 96) (g : FbCh → FbCh) : (s.modCh c g).pg = s.pg := rfl
@[simp] theorem State.modCh_stl (s : State) (c : Fin 96) (g : FbCh → FbCh) : (s.modCh c g).stl = s.stl := rfl
@[simp] theorem State.modCh_sv (s : State) (c : Fin 96) (g : FbCh → FbCh) : (s.modCh c g).sv = s.sv := rfl
@[simp] theorem State.modCh_sio (s : State) (c : Fin 96) (g : FbCh → FbCh) : (s.modCh c g).sio = s.sio := rfl
@[simp] theorem State.modCh_sl (s : State) (c : Fin 96) (g : FbCh → FbCh) : (s.modCh c g).sl = s.sl := rfl
@[simp] theorem State.modCh_pr (s : State) (c : Fin 96) (g : FbCh → FbCh) : (s.modCh c g).pr = s.pr := rfl
@[simp] theorem State.modCh_qp (s : State) (c : Fin 96) (g : FbCh → FbCh) : (s.modCh c g).qp = s.qp := rfl
@[simp] theorem State.modCh_rd (s : State) (c : Fin 96) (g : FbCh → FbCh) : (s.modCh c g).rd = s.rd := rfl
@[simp] theorem State.modCh_sw (s : State) (c : Fin 96) (g : FbCh → FbCh) : (s.modCh c g).sw = s.sw := rfl
@[simp] theorem State.modCh_nt (s : State) (c : Fin 96) (g : FbCh → FbCh) : (s.modCh c g).nt = s.nt := rfl
@[simp] theorem State.modCh_can (s : State) (c : Fin 96) (g : FbCh → FbCh) : (s.modCh c g).can = s.can := rfl
@[simp] theorem State.modCh_wr (s : State) (c : Fin 96) (g : FbCh → FbCh) : (s.modCh c g).wr = s.wr := rfl
@[simp] theorem State.modCh_dr (s : State) (c : Fin 96) (g : FbCh → FbCh) : (s.modCh c g).dr = s.dr := rfl
@[simp] theorem State.modCh_er (s : State) (c : Fin 96) (g : FbCh → FbCh) : (s.modCh c g).er = s.er := rfl
@[simp] theorem State.modCh_hi (s : State) (c : Fin 96) (g : FbCh → FbCh) : (s.modCh c g).hi = s.hi := rfl
@[simp] theorem State.modCh_boot (s : State) (c : Fin 96) (g : FbCh → FbCh) : (s.modCh c g).boot = s.boot := rfl
@[simp] theorem State.modCh_pw (s : State) (c : Fin 96) (g : FbCh → FbCh) : (s.modCh c g).pw = s.pw := rfl
@[simp] theorem State.modCh_cr (s : State) (c : Fin 96) (g : FbCh → FbCh) : (s.modCh c g).cr = s.cr := rfl
@[simp] theorem State.modCh_hw (s : State) (c : Fin 96) (g : FbCh → FbCh) : (s.modCh c g).hw = s.hw := rfl
@[simp] theorem State.modCh_pend (s : State) (c : Fin 96) (g : FbCh → FbCh) : (s.modCh c g).pend = s.pend := rfl
@[simp] theorem State.modCh_mem (s : State) (c : Fin 96) (g : FbCh → FbCh) : (s.modCh c g).mem = s.mem := rfl
@[simp] theorem State.modCh_out (s : State) (c : Fin 96) (g : FbCh → FbCh) : (s.modCh c g).out = s.out := rfl
@[simp] theorem State.modCh_rdata (s : State) (c : Fin 96) (g : FbCh → FbCh) : (s.modCh c g).rdata = s.rdata := rfl
@[simp] theorem State.modCh_fresh (s : State) (c : Fin 96) (g : FbCh → FbCh) : (s.modCh c g).fresh = s.fresh := rfl
@[simp] theorem State.modCh_pending (s : State) (c : Fin 96) (g : FbCh → FbCh) : (s.modCh c g).pending = s.pending := rfl

/-! `State.modSlice` changes `ce` alone. -/

@[simp] theorem State.modSlice_tb (s : State) (a : Fin 80) (g : Slice → Slice) : (s.modSlice a g).tb = s.tb := rfl
@[simp] theorem State.modSlice_tr (s : State) (a : Fin 80) (g : Slice → Slice) : (s.modSlice a g).tr = s.tr := rfl
@[simp] theorem State.modSlice_lm (s : State) (a : Fin 80) (g : Slice → Slice) : (s.modSlice a g).lm = s.lm := rfl
@[simp] theorem State.modSlice_fb (s : State) (a : Fin 80) (g : Slice → Slice) : (s.modSlice a g).fb = s.fb := rfl
@[simp] theorem State.modSlice_ce (s : State) (a : Fin 80) (g : Slice → Slice) : (s.modSlice a g).ce = { s.ce with sl := upd s.ce.sl a g } := rfl
@[simp] theorem State.modSlice_cell (s : State) (a : Fin 80) (g : Slice → Slice) : (s.modSlice a g).cell = s.cell := rfl
@[simp] theorem State.modSlice_pg (s : State) (a : Fin 80) (g : Slice → Slice) : (s.modSlice a g).pg = s.pg := rfl
@[simp] theorem State.modSlice_stl (s : State) (a : Fin 80) (g : Slice → Slice) : (s.modSlice a g).stl = s.stl := rfl
@[simp] theorem State.modSlice_sv (s : State) (a : Fin 80) (g : Slice → Slice) : (s.modSlice a g).sv = s.sv := rfl
@[simp] theorem State.modSlice_sio (s : State) (a : Fin 80) (g : Slice → Slice) : (s.modSlice a g).sio = s.sio := rfl
@[simp] theorem State.modSlice_sl (s : State) (a : Fin 80) (g : Slice → Slice) : (s.modSlice a g).sl = s.sl := rfl
@[simp] theorem State.modSlice_pr (s : State) (a : Fin 80) (g : Slice → Slice) : (s.modSlice a g).pr = s.pr := rfl
@[simp] theorem State.modSlice_qp (s : State) (a : Fin 80) (g : Slice → Slice) : (s.modSlice a g).qp = s.qp := rfl
@[simp] theorem State.modSlice_rd (s : State) (a : Fin 80) (g : Slice → Slice) : (s.modSlice a g).rd = s.rd := rfl
@[simp] theorem State.modSlice_sw (s : State) (a : Fin 80) (g : Slice → Slice) : (s.modSlice a g).sw = s.sw := rfl
@[simp] theorem State.modSlice_nt (s : State) (a : Fin 80) (g : Slice → Slice) : (s.modSlice a g).nt = s.nt := rfl
@[simp] theorem State.modSlice_can (s : State) (a : Fin 80) (g : Slice → Slice) : (s.modSlice a g).can = s.can := rfl
@[simp] theorem State.modSlice_wr (s : State) (a : Fin 80) (g : Slice → Slice) : (s.modSlice a g).wr = s.wr := rfl
@[simp] theorem State.modSlice_dr (s : State) (a : Fin 80) (g : Slice → Slice) : (s.modSlice a g).dr = s.dr := rfl
@[simp] theorem State.modSlice_er (s : State) (a : Fin 80) (g : Slice → Slice) : (s.modSlice a g).er = s.er := rfl
@[simp] theorem State.modSlice_hi (s : State) (a : Fin 80) (g : Slice → Slice) : (s.modSlice a g).hi = s.hi := rfl
@[simp] theorem State.modSlice_boot (s : State) (a : Fin 80) (g : Slice → Slice) : (s.modSlice a g).boot = s.boot := rfl
@[simp] theorem State.modSlice_pw (s : State) (a : Fin 80) (g : Slice → Slice) : (s.modSlice a g).pw = s.pw := rfl
@[simp] theorem State.modSlice_cr (s : State) (a : Fin 80) (g : Slice → Slice) : (s.modSlice a g).cr = s.cr := rfl
@[simp] theorem State.modSlice_hw (s : State) (a : Fin 80) (g : Slice → Slice) : (s.modSlice a g).hw = s.hw := rfl
@[simp] theorem State.modSlice_pend (s : State) (a : Fin 80) (g : Slice → Slice) : (s.modSlice a g).pend = s.pend := rfl
@[simp] theorem State.modSlice_mem (s : State) (a : Fin 80) (g : Slice → Slice) : (s.modSlice a g).mem = s.mem := rfl
@[simp] theorem State.modSlice_out (s : State) (a : Fin 80) (g : Slice → Slice) : (s.modSlice a g).out = s.out := rfl
@[simp] theorem State.modSlice_rdata (s : State) (a : Fin 80) (g : Slice → Slice) : (s.modSlice a g).rdata = s.rdata := rfl
@[simp] theorem State.modSlice_fresh (s : State) (a : Fin 80) (g : Slice → Slice) : (s.modSlice a g).fresh = s.fresh := rfl
@[simp] theorem State.modSlice_pending (s : State) (a : Fin 80) (g : Slice → Slice) : (s.modSlice a g).pending = s.pending := rfl

/-! `State.modPax` changes `pg` alone. -/

@[simp] theorem State.modPax_tb (s : State) (a : Fin 80) (g : PgAxis → PgAxis) : (s.modPax a g).tb = s.tb := rfl
@[simp] theorem State.modPax_tr (s : State) (a : Fin 80) (g : PgAxis → PgAxis) : (s.modPax a g).tr = s.tr := rfl
@[simp] theorem State.modPax_lm (s : State) (a : Fin 80) (g : PgAxis → PgAxis) : (s.modPax a g).lm = s.lm := rfl
@[simp] theorem State.modPax_fb (s : State) (a : Fin 80) (g : PgAxis → PgAxis) : (s.modPax a g).fb = s.fb := rfl
@[simp] theorem State.modPax_ce (s : State) (a : Fin 80) (g : PgAxis → PgAxis) : (s.modPax a g).ce = s.ce := rfl
@[simp] theorem State.modPax_cell (s : State) (a : Fin 80) (g : PgAxis → PgAxis) : (s.modPax a g).cell = s.cell := rfl
@[simp] theorem State.modPax_pg (s : State) (a : Fin 80) (g : PgAxis → PgAxis) : (s.modPax a g).pg = { s.pg with ax := upd s.pg.ax a g } := rfl
@[simp] theorem State.modPax_stl (s : State) (a : Fin 80) (g : PgAxis → PgAxis) : (s.modPax a g).stl = s.stl := rfl
@[simp] theorem State.modPax_sv (s : State) (a : Fin 80) (g : PgAxis → PgAxis) : (s.modPax a g).sv = s.sv := rfl
@[simp] theorem State.modPax_sio (s : State) (a : Fin 80) (g : PgAxis → PgAxis) : (s.modPax a g).sio = s.sio := rfl
@[simp] theorem State.modPax_sl (s : State) (a : Fin 80) (g : PgAxis → PgAxis) : (s.modPax a g).sl = s.sl := rfl
@[simp] theorem State.modPax_pr (s : State) (a : Fin 80) (g : PgAxis → PgAxis) : (s.modPax a g).pr = s.pr := rfl
@[simp] theorem State.modPax_qp (s : State) (a : Fin 80) (g : PgAxis → PgAxis) : (s.modPax a g).qp = s.qp := rfl
@[simp] theorem State.modPax_rd (s : State) (a : Fin 80) (g : PgAxis → PgAxis) : (s.modPax a g).rd = s.rd := rfl
@[simp] theorem State.modPax_sw (s : State) (a : Fin 80) (g : PgAxis → PgAxis) : (s.modPax a g).sw = s.sw := rfl
@[simp] theorem State.modPax_nt (s : State) (a : Fin 80) (g : PgAxis → PgAxis) : (s.modPax a g).nt = s.nt := rfl
@[simp] theorem State.modPax_can (s : State) (a : Fin 80) (g : PgAxis → PgAxis) : (s.modPax a g).can = s.can := rfl
@[simp] theorem State.modPax_wr (s : State) (a : Fin 80) (g : PgAxis → PgAxis) : (s.modPax a g).wr = s.wr := rfl
@[simp] theorem State.modPax_dr (s : State) (a : Fin 80) (g : PgAxis → PgAxis) : (s.modPax a g).dr = s.dr := rfl
@[simp] theorem State.modPax_er (s : State) (a : Fin 80) (g : PgAxis → PgAxis) : (s.modPax a g).er = s.er := rfl
@[simp] theorem State.modPax_hi (s : State) (a : Fin 80) (g : PgAxis → PgAxis) : (s.modPax a g).hi = s.hi := rfl
@[simp] theorem State.modPax_boot (s : State) (a : Fin 80) (g : PgAxis → PgAxis) : (s.modPax a g).boot = s.boot := rfl
@[simp] theorem State.modPax_pw (s : State) (a : Fin 80) (g : PgAxis → PgAxis) : (s.modPax a g).pw = s.pw := rfl
@[simp] theorem State.modPax_cr (s : State) (a : Fin 80) (g : PgAxis → PgAxis) : (s.modPax a g).cr = s.cr := rfl
@[simp] theorem State.modPax_hw (s : State) (a : Fin 80) (g : PgAxis → PgAxis) : (s.modPax a g).hw = s.hw := rfl
@[simp] theorem State.modPax_pend (s : State) (a : Fin 80) (g : PgAxis → PgAxis) : (s.modPax a g).pend = s.pend := rfl
@[simp] theorem State.modPax_mem (s : State) (a : Fin 80) (g : PgAxis → PgAxis) : (s.modPax a g).mem = s.mem := rfl
@[simp] theorem State.modPax_out (s : State) (a : Fin 80) (g : PgAxis → PgAxis) : (s.modPax a g).out = s.out := rfl
@[simp] theorem State.modPax_rdata (s : State) (a : Fin 80) (g : PgAxis → PgAxis) : (s.modPax a g).rdata = s.rdata := rfl
@[simp] theorem State.modPax_fresh (s : State) (a : Fin 80) (g : PgAxis → PgAxis) : (s.modPax a g).fresh = s.fresh := rfl
@[simp] theorem State.modPax_pending (s : State) (a : Fin 80) (g : PgAxis → PgAxis) : (s.modPax a g).pending = s.pending := rfl

/-! `State.modCan` changes `can` alone. -/

@[simp] theorem State.modCan_tb (s : State) (n : Fin 4) (g : CanCtl → CanCtl) : (s.modCan n g).tb = s.tb := rfl
@[simp] theorem State.modCan_tr (s : State) (n : Fin 4) (g : CanCtl → CanCtl) : (s.modCan n g).tr = s.tr := rfl
@[simp] theorem State.modCan_lm (s : State) (n : Fin 4) (g : CanCtl → CanCtl) : (s.modCan n g).lm = s.lm := rfl
@[simp] theorem State.modCan_fb (s : State) (n : Fin 4) (g : CanCtl → CanCtl) : (s.modCan n g).fb = s.fb := rfl
@[simp] theorem State.modCan_ce (s : State) (n : Fin 4) (g : CanCtl → CanCtl) : (s.modCan n g).ce = s.ce := rfl
@[simp] theorem State.modCan_cell (s : State) (n : Fin 4) (g : CanCtl → CanCtl) : (s.modCan n g).cell = s.cell := rfl
@[simp] theorem State.modCan_pg (s : State) (n : Fin 4) (g : CanCtl → CanCtl) : (s.modCan n g).pg = s.pg := rfl
@[simp] theorem State.modCan_stl (s : State) (n : Fin 4) (g : CanCtl → CanCtl) : (s.modCan n g).stl = s.stl := rfl
@[simp] theorem State.modCan_sv (s : State) (n : Fin 4) (g : CanCtl → CanCtl) : (s.modCan n g).sv = s.sv := rfl
@[simp] theorem State.modCan_sio (s : State) (n : Fin 4) (g : CanCtl → CanCtl) : (s.modCan n g).sio = s.sio := rfl
@[simp] theorem State.modCan_sl (s : State) (n : Fin 4) (g : CanCtl → CanCtl) : (s.modCan n g).sl = s.sl := rfl
@[simp] theorem State.modCan_pr (s : State) (n : Fin 4) (g : CanCtl → CanCtl) : (s.modCan n g).pr = s.pr := rfl
@[simp] theorem State.modCan_qp (s : State) (n : Fin 4) (g : CanCtl → CanCtl) : (s.modCan n g).qp = s.qp := rfl
@[simp] theorem State.modCan_rd (s : State) (n : Fin 4) (g : CanCtl → CanCtl) : (s.modCan n g).rd = s.rd := rfl
@[simp] theorem State.modCan_sw (s : State) (n : Fin 4) (g : CanCtl → CanCtl) : (s.modCan n g).sw = s.sw := rfl
@[simp] theorem State.modCan_nt (s : State) (n : Fin 4) (g : CanCtl → CanCtl) : (s.modCan n g).nt = s.nt := rfl
@[simp] theorem State.modCan_can (s : State) (n : Fin 4) (g : CanCtl → CanCtl) : (s.modCan n g).can = { s.can with ctl := upd s.can.ctl n g } := rfl
@[simp] theorem State.modCan_wr (s : State) (n : Fin 4) (g : CanCtl → CanCtl) : (s.modCan n g).wr = s.wr := rfl
@[simp] theorem State.modCan_dr (s : State) (n : Fin 4) (g : CanCtl → CanCtl) : (s.modCan n g).dr = s.dr := rfl
@[simp] theorem State.modCan_er (s : State) (n : Fin 4) (g : CanCtl → CanCtl) : (s.modCan n g).er = s.er := rfl
@[simp] theorem State.modCan_hi (s : State) (n : Fin 4) (g : CanCtl → CanCtl) : (s.modCan n g).hi = s.hi := rfl
@[simp] theorem State.modCan_boot (s : State) (n : Fin 4) (g : CanCtl → CanCtl) : (s.modCan n g).boot = s.boot := rfl
@[simp] theorem State.modCan_pw (s : State) (n : Fin 4) (g : CanCtl → CanCtl) : (s.modCan n g).pw = s.pw := rfl
@[simp] theorem State.modCan_cr (s : State) (n : Fin 4) (g : CanCtl → CanCtl) : (s.modCan n g).cr = s.cr := rfl
@[simp] theorem State.modCan_hw (s : State) (n : Fin 4) (g : CanCtl → CanCtl) : (s.modCan n g).hw = s.hw := rfl
@[simp] theorem State.modCan_pend (s : State) (n : Fin 4) (g : CanCtl → CanCtl) : (s.modCan n g).pend = s.pend := rfl
@[simp] theorem State.modCan_mem (s : State) (n : Fin 4) (g : CanCtl → CanCtl) : (s.modCan n g).mem = s.mem := rfl
@[simp] theorem State.modCan_out (s : State) (n : Fin 4) (g : CanCtl → CanCtl) : (s.modCan n g).out = s.out := rfl
@[simp] theorem State.modCan_rdata (s : State) (n : Fin 4) (g : CanCtl → CanCtl) : (s.modCan n g).rdata = s.rdata := rfl
@[simp] theorem State.modCan_fresh (s : State) (n : Fin 4) (g : CanCtl → CanCtl) : (s.modCan n g).fresh = s.fresh := rfl
@[simp] theorem State.modCan_pending (s : State) (n : Fin 4) (g : CanCtl → CanCtl) : (s.modCan n g).pending = s.pending := rfl

/-! `State.modQp` changes `qp` alone. -/

@[simp] theorem State.modQp_tb (s : State) (g : Churn → Churn) : (s.modQp g).tb = s.tb := rfl
@[simp] theorem State.modQp_tr (s : State) (g : Churn → Churn) : (s.modQp g).tr = s.tr := rfl
@[simp] theorem State.modQp_lm (s : State) (g : Churn → Churn) : (s.modQp g).lm = s.lm := rfl
@[simp] theorem State.modQp_fb (s : State) (g : Churn → Churn) : (s.modQp g).fb = s.fb := rfl
@[simp] theorem State.modQp_ce (s : State) (g : Churn → Churn) : (s.modQp g).ce = s.ce := rfl
@[simp] theorem State.modQp_cell (s : State) (g : Churn → Churn) : (s.modQp g).cell = s.cell := rfl
@[simp] theorem State.modQp_pg (s : State) (g : Churn → Churn) : (s.modQp g).pg = s.pg := rfl
@[simp] theorem State.modQp_stl (s : State) (g : Churn → Churn) : (s.modQp g).stl = s.stl := rfl
@[simp] theorem State.modQp_sv (s : State) (g : Churn → Churn) : (s.modQp g).sv = s.sv := rfl
@[simp] theorem State.modQp_sio (s : State) (g : Churn → Churn) : (s.modQp g).sio = s.sio := rfl
@[simp] theorem State.modQp_sl (s : State) (g : Churn → Churn) : (s.modQp g).sl = s.sl := rfl
@[simp] theorem State.modQp_pr (s : State) (g : Churn → Churn) : (s.modQp g).pr = s.pr := rfl
@[simp] theorem State.modQp_qp (s : State) (g : Churn → Churn) : (s.modQp g).qp = g s.qp := rfl
@[simp] theorem State.modQp_rd (s : State) (g : Churn → Churn) : (s.modQp g).rd = s.rd := rfl
@[simp] theorem State.modQp_sw (s : State) (g : Churn → Churn) : (s.modQp g).sw = s.sw := rfl
@[simp] theorem State.modQp_nt (s : State) (g : Churn → Churn) : (s.modQp g).nt = s.nt := rfl
@[simp] theorem State.modQp_can (s : State) (g : Churn → Churn) : (s.modQp g).can = s.can := rfl
@[simp] theorem State.modQp_wr (s : State) (g : Churn → Churn) : (s.modQp g).wr = s.wr := rfl
@[simp] theorem State.modQp_dr (s : State) (g : Churn → Churn) : (s.modQp g).dr = s.dr := rfl
@[simp] theorem State.modQp_er (s : State) (g : Churn → Churn) : (s.modQp g).er = s.er := rfl
@[simp] theorem State.modQp_hi (s : State) (g : Churn → Churn) : (s.modQp g).hi = s.hi := rfl
@[simp] theorem State.modQp_boot (s : State) (g : Churn → Churn) : (s.modQp g).boot = s.boot := rfl
@[simp] theorem State.modQp_pw (s : State) (g : Churn → Churn) : (s.modQp g).pw = s.pw := rfl
@[simp] theorem State.modQp_cr (s : State) (g : Churn → Churn) : (s.modQp g).cr = s.cr := rfl
@[simp] theorem State.modQp_hw (s : State) (g : Churn → Churn) : (s.modQp g).hw = s.hw := rfl
@[simp] theorem State.modQp_pend (s : State) (g : Churn → Churn) : (s.modQp g).pend = s.pend := rfl
@[simp] theorem State.modQp_mem (s : State) (g : Churn → Churn) : (s.modQp g).mem = s.mem := rfl
@[simp] theorem State.modQp_out (s : State) (g : Churn → Churn) : (s.modQp g).out = s.out := rfl
@[simp] theorem State.modQp_rdata (s : State) (g : Churn → Churn) : (s.modQp g).rdata = s.rdata := rfl
@[simp] theorem State.modQp_fresh (s : State) (g : Churn → Churn) : (s.modQp g).fresh = s.fresh := rfl
@[simp] theorem State.modQp_pending (s : State) (g : Churn → Churn) : (s.modQp g).pending = s.pending := rfl

/-! `State.modHi` changes `hi` alone. -/

@[simp] theorem State.modHi_tb (s : State) (g : HostIf → HostIf) : (s.modHi g).tb = s.tb := rfl
@[simp] theorem State.modHi_tr (s : State) (g : HostIf → HostIf) : (s.modHi g).tr = s.tr := rfl
@[simp] theorem State.modHi_lm (s : State) (g : HostIf → HostIf) : (s.modHi g).lm = s.lm := rfl
@[simp] theorem State.modHi_fb (s : State) (g : HostIf → HostIf) : (s.modHi g).fb = s.fb := rfl
@[simp] theorem State.modHi_ce (s : State) (g : HostIf → HostIf) : (s.modHi g).ce = s.ce := rfl
@[simp] theorem State.modHi_cell (s : State) (g : HostIf → HostIf) : (s.modHi g).cell = s.cell := rfl
@[simp] theorem State.modHi_pg (s : State) (g : HostIf → HostIf) : (s.modHi g).pg = s.pg := rfl
@[simp] theorem State.modHi_stl (s : State) (g : HostIf → HostIf) : (s.modHi g).stl = s.stl := rfl
@[simp] theorem State.modHi_sv (s : State) (g : HostIf → HostIf) : (s.modHi g).sv = s.sv := rfl
@[simp] theorem State.modHi_sio (s : State) (g : HostIf → HostIf) : (s.modHi g).sio = s.sio := rfl
@[simp] theorem State.modHi_sl (s : State) (g : HostIf → HostIf) : (s.modHi g).sl = s.sl := rfl
@[simp] theorem State.modHi_pr (s : State) (g : HostIf → HostIf) : (s.modHi g).pr = s.pr := rfl
@[simp] theorem State.modHi_qp (s : State) (g : HostIf → HostIf) : (s.modHi g).qp = s.qp := rfl
@[simp] theorem State.modHi_rd (s : State) (g : HostIf → HostIf) : (s.modHi g).rd = s.rd := rfl
@[simp] theorem State.modHi_sw (s : State) (g : HostIf → HostIf) : (s.modHi g).sw = s.sw := rfl
@[simp] theorem State.modHi_nt (s : State) (g : HostIf → HostIf) : (s.modHi g).nt = s.nt := rfl
@[simp] theorem State.modHi_can (s : State) (g : HostIf → HostIf) : (s.modHi g).can = s.can := rfl
@[simp] theorem State.modHi_wr (s : State) (g : HostIf → HostIf) : (s.modHi g).wr = s.wr := rfl
@[simp] theorem State.modHi_dr (s : State) (g : HostIf → HostIf) : (s.modHi g).dr = s.dr := rfl
@[simp] theorem State.modHi_er (s : State) (g : HostIf → HostIf) : (s.modHi g).er = s.er := rfl
@[simp] theorem State.modHi_hi (s : State) (g : HostIf → HostIf) : (s.modHi g).hi = g s.hi := rfl
@[simp] theorem State.modHi_boot (s : State) (g : HostIf → HostIf) : (s.modHi g).boot = s.boot := rfl
@[simp] theorem State.modHi_pw (s : State) (g : HostIf → HostIf) : (s.modHi g).pw = s.pw := rfl
@[simp] theorem State.modHi_cr (s : State) (g : HostIf → HostIf) : (s.modHi g).cr = s.cr := rfl
@[simp] theorem State.modHi_hw (s : State) (g : HostIf → HostIf) : (s.modHi g).hw = s.hw := rfl
@[simp] theorem State.modHi_pend (s : State) (g : HostIf → HostIf) : (s.modHi g).pend = s.pend := rfl
@[simp] theorem State.modHi_mem (s : State) (g : HostIf → HostIf) : (s.modHi g).mem = s.mem := rfl
@[simp] theorem State.modHi_out (s : State) (g : HostIf → HostIf) : (s.modHi g).out = s.out := rfl
@[simp] theorem State.modHi_rdata (s : State) (g : HostIf → HostIf) : (s.modHi g).rdata = s.rdata := rfl
@[simp] theorem State.modHi_fresh (s : State) (g : HostIf → HostIf) : (s.modHi g).fresh = s.fresh := rfl
@[simp] theorem State.modHi_pending (s : State) (g : HostIf → HostIf) : (s.modHi g).pending = s.pending := rfl

/-! `State.modSlot` changes `lm` alone. -/

@[simp] theorem State.modSlot_tb (s : State) (d : Fin 8) (g : Slot → Slot) : (s.modSlot d g).tb = s.tb := rfl
@[simp] theorem State.modSlot_tr (s : State) (d : Fin 8) (g : Slot → Slot) : (s.modSlot d g).tr = s.tr := rfl
@[simp] theorem State.modSlot_lm (s : State) (d : Fin 8) (g : Slot → Slot) : (s.modSlot d g).lm = { s.lm with slot := upd s.lm.slot d g } := rfl
@[simp] theorem State.modSlot_fb (s : State) (d : Fin 8) (g : Slot → Slot) : (s.modSlot d g).fb = s.fb := rfl
@[simp] theorem State.modSlot_ce (s : State) (d : Fin 8) (g : Slot → Slot) : (s.modSlot d g).ce = s.ce := rfl
@[simp] theorem State.modSlot_cell (s : State) (d : Fin 8) (g : Slot → Slot) : (s.modSlot d g).cell = s.cell := rfl
@[simp] theorem State.modSlot_pg (s : State) (d : Fin 8) (g : Slot → Slot) : (s.modSlot d g).pg = s.pg := rfl
@[simp] theorem State.modSlot_stl (s : State) (d : Fin 8) (g : Slot → Slot) : (s.modSlot d g).stl = s.stl := rfl
@[simp] theorem State.modSlot_sv (s : State) (d : Fin 8) (g : Slot → Slot) : (s.modSlot d g).sv = s.sv := rfl
@[simp] theorem State.modSlot_sio (s : State) (d : Fin 8) (g : Slot → Slot) : (s.modSlot d g).sio = s.sio := rfl
@[simp] theorem State.modSlot_sl (s : State) (d : Fin 8) (g : Slot → Slot) : (s.modSlot d g).sl = s.sl := rfl
@[simp] theorem State.modSlot_pr (s : State) (d : Fin 8) (g : Slot → Slot) : (s.modSlot d g).pr = s.pr := rfl
@[simp] theorem State.modSlot_qp (s : State) (d : Fin 8) (g : Slot → Slot) : (s.modSlot d g).qp = s.qp := rfl
@[simp] theorem State.modSlot_rd (s : State) (d : Fin 8) (g : Slot → Slot) : (s.modSlot d g).rd = s.rd := rfl
@[simp] theorem State.modSlot_sw (s : State) (d : Fin 8) (g : Slot → Slot) : (s.modSlot d g).sw = s.sw := rfl
@[simp] theorem State.modSlot_nt (s : State) (d : Fin 8) (g : Slot → Slot) : (s.modSlot d g).nt = s.nt := rfl
@[simp] theorem State.modSlot_can (s : State) (d : Fin 8) (g : Slot → Slot) : (s.modSlot d g).can = s.can := rfl
@[simp] theorem State.modSlot_wr (s : State) (d : Fin 8) (g : Slot → Slot) : (s.modSlot d g).wr = s.wr := rfl
@[simp] theorem State.modSlot_dr (s : State) (d : Fin 8) (g : Slot → Slot) : (s.modSlot d g).dr = s.dr := rfl
@[simp] theorem State.modSlot_er (s : State) (d : Fin 8) (g : Slot → Slot) : (s.modSlot d g).er = s.er := rfl
@[simp] theorem State.modSlot_hi (s : State) (d : Fin 8) (g : Slot → Slot) : (s.modSlot d g).hi = s.hi := rfl
@[simp] theorem State.modSlot_boot (s : State) (d : Fin 8) (g : Slot → Slot) : (s.modSlot d g).boot = s.boot := rfl
@[simp] theorem State.modSlot_pw (s : State) (d : Fin 8) (g : Slot → Slot) : (s.modSlot d g).pw = s.pw := rfl
@[simp] theorem State.modSlot_cr (s : State) (d : Fin 8) (g : Slot → Slot) : (s.modSlot d g).cr = s.cr := rfl
@[simp] theorem State.modSlot_hw (s : State) (d : Fin 8) (g : Slot → Slot) : (s.modSlot d g).hw = s.hw := rfl
@[simp] theorem State.modSlot_pend (s : State) (d : Fin 8) (g : Slot → Slot) : (s.modSlot d g).pend = s.pend := rfl
@[simp] theorem State.modSlot_mem (s : State) (d : Fin 8) (g : Slot → Slot) : (s.modSlot d g).mem = s.mem := rfl
@[simp] theorem State.modSlot_out (s : State) (d : Fin 8) (g : Slot → Slot) : (s.modSlot d g).out = s.out := rfl
@[simp] theorem State.modSlot_rdata (s : State) (d : Fin 8) (g : Slot → Slot) : (s.modSlot d g).rdata = s.rdata := rfl
@[simp] theorem State.modSlot_fresh (s : State) (d : Fin 8) (g : Slot → Slot) : (s.modSlot d g).fresh = s.fresh := rfl
@[simp] theorem State.modSlot_pending (s : State) (d : Fin 8) (g : Slot → Slot) : (s.modSlot d g).pending = s.pending := rfl

/-! `State.modDom` changes `nt` alone. -/

@[simp] theorem State.modDom_tb (s : State) (d : Fin 2) (g : NtDom → NtDom) : (s.modDom d g).tb = s.tb := rfl
@[simp] theorem State.modDom_tr (s : State) (d : Fin 2) (g : NtDom → NtDom) : (s.modDom d g).tr = s.tr := rfl
@[simp] theorem State.modDom_lm (s : State) (d : Fin 2) (g : NtDom → NtDom) : (s.modDom d g).lm = s.lm := rfl
@[simp] theorem State.modDom_fb (s : State) (d : Fin 2) (g : NtDom → NtDom) : (s.modDom d g).fb = s.fb := rfl
@[simp] theorem State.modDom_ce (s : State) (d : Fin 2) (g : NtDom → NtDom) : (s.modDom d g).ce = s.ce := rfl
@[simp] theorem State.modDom_cell (s : State) (d : Fin 2) (g : NtDom → NtDom) : (s.modDom d g).cell = s.cell := rfl
@[simp] theorem State.modDom_pg (s : State) (d : Fin 2) (g : NtDom → NtDom) : (s.modDom d g).pg = s.pg := rfl
@[simp] theorem State.modDom_stl (s : State) (d : Fin 2) (g : NtDom → NtDom) : (s.modDom d g).stl = s.stl := rfl
@[simp] theorem State.modDom_sv (s : State) (d : Fin 2) (g : NtDom → NtDom) : (s.modDom d g).sv = s.sv := rfl
@[simp] theorem State.modDom_sio (s : State) (d : Fin 2) (g : NtDom → NtDom) : (s.modDom d g).sio = s.sio := rfl
@[simp] theorem State.modDom_sl (s : State) (d : Fin 2) (g : NtDom → NtDom) : (s.modDom d g).sl = s.sl := rfl
@[simp] theorem State.modDom_pr (s : State) (d : Fin 2) (g : NtDom → NtDom) : (s.modDom d g).pr = s.pr := rfl
@[simp] theorem State.modDom_qp (s : State) (d : Fin 2) (g : NtDom → NtDom) : (s.modDom d g).qp = s.qp := rfl
@[simp] theorem State.modDom_rd (s : State) (d : Fin 2) (g : NtDom → NtDom) : (s.modDom d g).rd = s.rd := rfl
@[simp] theorem State.modDom_sw (s : State) (d : Fin 2) (g : NtDom → NtDom) : (s.modDom d g).sw = s.sw := rfl
@[simp] theorem State.modDom_nt (s : State) (d : Fin 2) (g : NtDom → NtDom) : (s.modDom d g).nt = { s.nt with dom := upd s.nt.dom d g } := rfl
@[simp] theorem State.modDom_can (s : State) (d : Fin 2) (g : NtDom → NtDom) : (s.modDom d g).can = s.can := rfl
@[simp] theorem State.modDom_wr (s : State) (d : Fin 2) (g : NtDom → NtDom) : (s.modDom d g).wr = s.wr := rfl
@[simp] theorem State.modDom_dr (s : State) (d : Fin 2) (g : NtDom → NtDom) : (s.modDom d g).dr = s.dr := rfl
@[simp] theorem State.modDom_er (s : State) (d : Fin 2) (g : NtDom → NtDom) : (s.modDom d g).er = s.er := rfl
@[simp] theorem State.modDom_hi (s : State) (d : Fin 2) (g : NtDom → NtDom) : (s.modDom d g).hi = s.hi := rfl
@[simp] theorem State.modDom_boot (s : State) (d : Fin 2) (g : NtDom → NtDom) : (s.modDom d g).boot = s.boot := rfl
@[simp] theorem State.modDom_pw (s : State) (d : Fin 2) (g : NtDom → NtDom) : (s.modDom d g).pw = s.pw := rfl
@[simp] theorem State.modDom_cr (s : State) (d : Fin 2) (g : NtDom → NtDom) : (s.modDom d g).cr = s.cr := rfl
@[simp] theorem State.modDom_hw (s : State) (d : Fin 2) (g : NtDom → NtDom) : (s.modDom d g).hw = s.hw := rfl
@[simp] theorem State.modDom_pend (s : State) (d : Fin 2) (g : NtDom → NtDom) : (s.modDom d g).pend = s.pend := rfl
@[simp] theorem State.modDom_mem (s : State) (d : Fin 2) (g : NtDom → NtDom) : (s.modDom d g).mem = s.mem := rfl
@[simp] theorem State.modDom_out (s : State) (d : Fin 2) (g : NtDom → NtDom) : (s.modDom d g).out = s.out := rfl
@[simp] theorem State.modDom_rdata (s : State) (d : Fin 2) (g : NtDom → NtDom) : (s.modDom d g).rdata = s.rdata := rfl
@[simp] theorem State.modDom_fresh (s : State) (d : Fin 2) (g : NtDom → NtDom) : (s.modDom d g).fresh = s.fresh := rfl
@[simp] theorem State.modDom_pending (s : State) (d : Fin 2) (g : NtDom → NtDom) : (s.modDom d g).pending = s.pending := rfl

/-! `State.modNtPort` changes `nt` alone. -/

@[simp] theorem State.modNtPort_tb (s : State) (p : Fin 6) (g : NtPort → NtPort) : (s.modNtPort p g).tb = s.tb := rfl
@[simp] theorem State.modNtPort_tr (s : State) (p : Fin 6) (g : NtPort → NtPort) : (s.modNtPort p g).tr = s.tr := rfl
@[simp] theorem State.modNtPort_lm (s : State) (p : Fin 6) (g : NtPort → NtPort) : (s.modNtPort p g).lm = s.lm := rfl
@[simp] theorem State.modNtPort_fb (s : State) (p : Fin 6) (g : NtPort → NtPort) : (s.modNtPort p g).fb = s.fb := rfl
@[simp] theorem State.modNtPort_ce (s : State) (p : Fin 6) (g : NtPort → NtPort) : (s.modNtPort p g).ce = s.ce := rfl
@[simp] theorem State.modNtPort_cell (s : State) (p : Fin 6) (g : NtPort → NtPort) : (s.modNtPort p g).cell = s.cell := rfl
@[simp] theorem State.modNtPort_pg (s : State) (p : Fin 6) (g : NtPort → NtPort) : (s.modNtPort p g).pg = s.pg := rfl
@[simp] theorem State.modNtPort_stl (s : State) (p : Fin 6) (g : NtPort → NtPort) : (s.modNtPort p g).stl = s.stl := rfl
@[simp] theorem State.modNtPort_sv (s : State) (p : Fin 6) (g : NtPort → NtPort) : (s.modNtPort p g).sv = s.sv := rfl
@[simp] theorem State.modNtPort_sio (s : State) (p : Fin 6) (g : NtPort → NtPort) : (s.modNtPort p g).sio = s.sio := rfl
@[simp] theorem State.modNtPort_sl (s : State) (p : Fin 6) (g : NtPort → NtPort) : (s.modNtPort p g).sl = s.sl := rfl
@[simp] theorem State.modNtPort_pr (s : State) (p : Fin 6) (g : NtPort → NtPort) : (s.modNtPort p g).pr = s.pr := rfl
@[simp] theorem State.modNtPort_qp (s : State) (p : Fin 6) (g : NtPort → NtPort) : (s.modNtPort p g).qp = s.qp := rfl
@[simp] theorem State.modNtPort_rd (s : State) (p : Fin 6) (g : NtPort → NtPort) : (s.modNtPort p g).rd = s.rd := rfl
@[simp] theorem State.modNtPort_sw (s : State) (p : Fin 6) (g : NtPort → NtPort) : (s.modNtPort p g).sw = s.sw := rfl
@[simp] theorem State.modNtPort_nt (s : State) (p : Fin 6) (g : NtPort → NtPort) : (s.modNtPort p g).nt = { s.nt with port := upd s.nt.port p g } := rfl
@[simp] theorem State.modNtPort_can (s : State) (p : Fin 6) (g : NtPort → NtPort) : (s.modNtPort p g).can = s.can := rfl
@[simp] theorem State.modNtPort_wr (s : State) (p : Fin 6) (g : NtPort → NtPort) : (s.modNtPort p g).wr = s.wr := rfl
@[simp] theorem State.modNtPort_dr (s : State) (p : Fin 6) (g : NtPort → NtPort) : (s.modNtPort p g).dr = s.dr := rfl
@[simp] theorem State.modNtPort_er (s : State) (p : Fin 6) (g : NtPort → NtPort) : (s.modNtPort p g).er = s.er := rfl
@[simp] theorem State.modNtPort_hi (s : State) (p : Fin 6) (g : NtPort → NtPort) : (s.modNtPort p g).hi = s.hi := rfl
@[simp] theorem State.modNtPort_boot (s : State) (p : Fin 6) (g : NtPort → NtPort) : (s.modNtPort p g).boot = s.boot := rfl
@[simp] theorem State.modNtPort_pw (s : State) (p : Fin 6) (g : NtPort → NtPort) : (s.modNtPort p g).pw = s.pw := rfl
@[simp] theorem State.modNtPort_cr (s : State) (p : Fin 6) (g : NtPort → NtPort) : (s.modNtPort p g).cr = s.cr := rfl
@[simp] theorem State.modNtPort_hw (s : State) (p : Fin 6) (g : NtPort → NtPort) : (s.modNtPort p g).hw = s.hw := rfl
@[simp] theorem State.modNtPort_pend (s : State) (p : Fin 6) (g : NtPort → NtPort) : (s.modNtPort p g).pend = s.pend := rfl
@[simp] theorem State.modNtPort_mem (s : State) (p : Fin 6) (g : NtPort → NtPort) : (s.modNtPort p g).mem = s.mem := rfl
@[simp] theorem State.modNtPort_out (s : State) (p : Fin 6) (g : NtPort → NtPort) : (s.modNtPort p g).out = s.out := rfl
@[simp] theorem State.modNtPort_rdata (s : State) (p : Fin 6) (g : NtPort → NtPort) : (s.modNtPort p g).rdata = s.rdata := rfl
@[simp] theorem State.modNtPort_fresh (s : State) (p : Fin 6) (g : NtPort → NtPort) : (s.modNtPort p g).fresh = s.fresh := rfl
@[simp] theorem State.modNtPort_pending (s : State) (p : Fin 6) (g : NtPort → NtPort) : (s.modNtPort p g).pending = s.pending := rfl

/-! `State.modPr` changes `pr` alone. -/

@[simp] theorem State.modPr_tb (s : State) (g : Pair → Pair) : (s.modPr g).tb = s.tb := rfl
@[simp] theorem State.modPr_tr (s : State) (g : Pair → Pair) : (s.modPr g).tr = s.tr := rfl
@[simp] theorem State.modPr_lm (s : State) (g : Pair → Pair) : (s.modPr g).lm = s.lm := rfl
@[simp] theorem State.modPr_fb (s : State) (g : Pair → Pair) : (s.modPr g).fb = s.fb := rfl
@[simp] theorem State.modPr_ce (s : State) (g : Pair → Pair) : (s.modPr g).ce = s.ce := rfl
@[simp] theorem State.modPr_cell (s : State) (g : Pair → Pair) : (s.modPr g).cell = s.cell := rfl
@[simp] theorem State.modPr_pg (s : State) (g : Pair → Pair) : (s.modPr g).pg = s.pg := rfl
@[simp] theorem State.modPr_stl (s : State) (g : Pair → Pair) : (s.modPr g).stl = s.stl := rfl
@[simp] theorem State.modPr_sv (s : State) (g : Pair → Pair) : (s.modPr g).sv = s.sv := rfl
@[simp] theorem State.modPr_sio (s : State) (g : Pair → Pair) : (s.modPr g).sio = s.sio := rfl
@[simp] theorem State.modPr_sl (s : State) (g : Pair → Pair) : (s.modPr g).sl = s.sl := rfl
@[simp] theorem State.modPr_pr (s : State) (g : Pair → Pair) : (s.modPr g).pr = g s.pr := rfl
@[simp] theorem State.modPr_qp (s : State) (g : Pair → Pair) : (s.modPr g).qp = s.qp := rfl
@[simp] theorem State.modPr_rd (s : State) (g : Pair → Pair) : (s.modPr g).rd = s.rd := rfl
@[simp] theorem State.modPr_sw (s : State) (g : Pair → Pair) : (s.modPr g).sw = s.sw := rfl
@[simp] theorem State.modPr_nt (s : State) (g : Pair → Pair) : (s.modPr g).nt = s.nt := rfl
@[simp] theorem State.modPr_can (s : State) (g : Pair → Pair) : (s.modPr g).can = s.can := rfl
@[simp] theorem State.modPr_wr (s : State) (g : Pair → Pair) : (s.modPr g).wr = s.wr := rfl
@[simp] theorem State.modPr_dr (s : State) (g : Pair → Pair) : (s.modPr g).dr = s.dr := rfl
@[simp] theorem State.modPr_er (s : State) (g : Pair → Pair) : (s.modPr g).er = s.er := rfl
@[simp] theorem State.modPr_hi (s : State) (g : Pair → Pair) : (s.modPr g).hi = s.hi := rfl
@[simp] theorem State.modPr_boot (s : State) (g : Pair → Pair) : (s.modPr g).boot = s.boot := rfl
@[simp] theorem State.modPr_pw (s : State) (g : Pair → Pair) : (s.modPr g).pw = s.pw := rfl
@[simp] theorem State.modPr_cr (s : State) (g : Pair → Pair) : (s.modPr g).cr = s.cr := rfl
@[simp] theorem State.modPr_hw (s : State) (g : Pair → Pair) : (s.modPr g).hw = s.hw := rfl
@[simp] theorem State.modPr_pend (s : State) (g : Pair → Pair) : (s.modPr g).pend = s.pend := rfl
@[simp] theorem State.modPr_mem (s : State) (g : Pair → Pair) : (s.modPr g).mem = s.mem := rfl
@[simp] theorem State.modPr_out (s : State) (g : Pair → Pair) : (s.modPr g).out = s.out := rfl
@[simp] theorem State.modPr_rdata (s : State) (g : Pair → Pair) : (s.modPr g).rdata = s.rdata := rfl
@[simp] theorem State.modPr_fresh (s : State) (g : Pair → Pair) : (s.modPr g).fresh = s.fresh := rfl
@[simp] theorem State.modPr_pending (s : State) (g : Pair → Pair) : (s.modPr g).pending = s.pending := rfl

/-! `State.modRd` changes `rd` alone. -/

@[simp] theorem State.modRd_tb (s : State) (g : Reed → Reed) : (s.modRd g).tb = s.tb := rfl
@[simp] theorem State.modRd_tr (s : State) (g : Reed → Reed) : (s.modRd g).tr = s.tr := rfl
@[simp] theorem State.modRd_lm (s : State) (g : Reed → Reed) : (s.modRd g).lm = s.lm := rfl
@[simp] theorem State.modRd_fb (s : State) (g : Reed → Reed) : (s.modRd g).fb = s.fb := rfl
@[simp] theorem State.modRd_ce (s : State) (g : Reed → Reed) : (s.modRd g).ce = s.ce := rfl
@[simp] theorem State.modRd_cell (s : State) (g : Reed → Reed) : (s.modRd g).cell = s.cell := rfl
@[simp] theorem State.modRd_pg (s : State) (g : Reed → Reed) : (s.modRd g).pg = s.pg := rfl
@[simp] theorem State.modRd_stl (s : State) (g : Reed → Reed) : (s.modRd g).stl = s.stl := rfl
@[simp] theorem State.modRd_sv (s : State) (g : Reed → Reed) : (s.modRd g).sv = s.sv := rfl
@[simp] theorem State.modRd_sio (s : State) (g : Reed → Reed) : (s.modRd g).sio = s.sio := rfl
@[simp] theorem State.modRd_sl (s : State) (g : Reed → Reed) : (s.modRd g).sl = s.sl := rfl
@[simp] theorem State.modRd_pr (s : State) (g : Reed → Reed) : (s.modRd g).pr = s.pr := rfl
@[simp] theorem State.modRd_qp (s : State) (g : Reed → Reed) : (s.modRd g).qp = s.qp := rfl
@[simp] theorem State.modRd_rd (s : State) (g : Reed → Reed) : (s.modRd g).rd = g s.rd := rfl
@[simp] theorem State.modRd_sw (s : State) (g : Reed → Reed) : (s.modRd g).sw = s.sw := rfl
@[simp] theorem State.modRd_nt (s : State) (g : Reed → Reed) : (s.modRd g).nt = s.nt := rfl
@[simp] theorem State.modRd_can (s : State) (g : Reed → Reed) : (s.modRd g).can = s.can := rfl
@[simp] theorem State.modRd_wr (s : State) (g : Reed → Reed) : (s.modRd g).wr = s.wr := rfl
@[simp] theorem State.modRd_dr (s : State) (g : Reed → Reed) : (s.modRd g).dr = s.dr := rfl
@[simp] theorem State.modRd_er (s : State) (g : Reed → Reed) : (s.modRd g).er = s.er := rfl
@[simp] theorem State.modRd_hi (s : State) (g : Reed → Reed) : (s.modRd g).hi = s.hi := rfl
@[simp] theorem State.modRd_boot (s : State) (g : Reed → Reed) : (s.modRd g).boot = s.boot := rfl
@[simp] theorem State.modRd_pw (s : State) (g : Reed → Reed) : (s.modRd g).pw = s.pw := rfl
@[simp] theorem State.modRd_cr (s : State) (g : Reed → Reed) : (s.modRd g).cr = s.cr := rfl
@[simp] theorem State.modRd_hw (s : State) (g : Reed → Reed) : (s.modRd g).hw = s.hw := rfl
@[simp] theorem State.modRd_pend (s : State) (g : Reed → Reed) : (s.modRd g).pend = s.pend := rfl
@[simp] theorem State.modRd_mem (s : State) (g : Reed → Reed) : (s.modRd g).mem = s.mem := rfl
@[simp] theorem State.modRd_out (s : State) (g : Reed → Reed) : (s.modRd g).out = s.out := rfl
@[simp] theorem State.modRd_rdata (s : State) (g : Reed → Reed) : (s.modRd g).rdata = s.rdata := rfl
@[simp] theorem State.modRd_fresh (s : State) (g : Reed → Reed) : (s.modRd g).fresh = s.fresh := rfl
@[simp] theorem State.modRd_pending (s : State) (g : Reed → Reed) : (s.modRd g).pending = s.pending := rfl

/-! `State.modSens` changes `rd` alone. -/

@[simp] theorem State.modSens_tb (s : State) (i : Fin 8) (g : ReedSensor → ReedSensor) : (s.modSens i g).tb = s.tb := rfl
@[simp] theorem State.modSens_tr (s : State) (i : Fin 8) (g : ReedSensor → ReedSensor) : (s.modSens i g).tr = s.tr := rfl
@[simp] theorem State.modSens_lm (s : State) (i : Fin 8) (g : ReedSensor → ReedSensor) : (s.modSens i g).lm = s.lm := rfl
@[simp] theorem State.modSens_fb (s : State) (i : Fin 8) (g : ReedSensor → ReedSensor) : (s.modSens i g).fb = s.fb := rfl
@[simp] theorem State.modSens_ce (s : State) (i : Fin 8) (g : ReedSensor → ReedSensor) : (s.modSens i g).ce = s.ce := rfl
@[simp] theorem State.modSens_cell (s : State) (i : Fin 8) (g : ReedSensor → ReedSensor) : (s.modSens i g).cell = s.cell := rfl
@[simp] theorem State.modSens_pg (s : State) (i : Fin 8) (g : ReedSensor → ReedSensor) : (s.modSens i g).pg = s.pg := rfl
@[simp] theorem State.modSens_stl (s : State) (i : Fin 8) (g : ReedSensor → ReedSensor) : (s.modSens i g).stl = s.stl := rfl
@[simp] theorem State.modSens_sv (s : State) (i : Fin 8) (g : ReedSensor → ReedSensor) : (s.modSens i g).sv = s.sv := rfl
@[simp] theorem State.modSens_sio (s : State) (i : Fin 8) (g : ReedSensor → ReedSensor) : (s.modSens i g).sio = s.sio := rfl
@[simp] theorem State.modSens_sl (s : State) (i : Fin 8) (g : ReedSensor → ReedSensor) : (s.modSens i g).sl = s.sl := rfl
@[simp] theorem State.modSens_pr (s : State) (i : Fin 8) (g : ReedSensor → ReedSensor) : (s.modSens i g).pr = s.pr := rfl
@[simp] theorem State.modSens_qp (s : State) (i : Fin 8) (g : ReedSensor → ReedSensor) : (s.modSens i g).qp = s.qp := rfl
@[simp] theorem State.modSens_rd (s : State) (i : Fin 8) (g : ReedSensor → ReedSensor) : (s.modSens i g).rd = { s.rd with sens := upd s.rd.sens i g } := rfl
@[simp] theorem State.modSens_sw (s : State) (i : Fin 8) (g : ReedSensor → ReedSensor) : (s.modSens i g).sw = s.sw := rfl
@[simp] theorem State.modSens_nt (s : State) (i : Fin 8) (g : ReedSensor → ReedSensor) : (s.modSens i g).nt = s.nt := rfl
@[simp] theorem State.modSens_can (s : State) (i : Fin 8) (g : ReedSensor → ReedSensor) : (s.modSens i g).can = s.can := rfl
@[simp] theorem State.modSens_wr (s : State) (i : Fin 8) (g : ReedSensor → ReedSensor) : (s.modSens i g).wr = s.wr := rfl
@[simp] theorem State.modSens_dr (s : State) (i : Fin 8) (g : ReedSensor → ReedSensor) : (s.modSens i g).dr = s.dr := rfl
@[simp] theorem State.modSens_er (s : State) (i : Fin 8) (g : ReedSensor → ReedSensor) : (s.modSens i g).er = s.er := rfl
@[simp] theorem State.modSens_hi (s : State) (i : Fin 8) (g : ReedSensor → ReedSensor) : (s.modSens i g).hi = s.hi := rfl
@[simp] theorem State.modSens_boot (s : State) (i : Fin 8) (g : ReedSensor → ReedSensor) : (s.modSens i g).boot = s.boot := rfl
@[simp] theorem State.modSens_pw (s : State) (i : Fin 8) (g : ReedSensor → ReedSensor) : (s.modSens i g).pw = s.pw := rfl
@[simp] theorem State.modSens_cr (s : State) (i : Fin 8) (g : ReedSensor → ReedSensor) : (s.modSens i g).cr = s.cr := rfl
@[simp] theorem State.modSens_hw (s : State) (i : Fin 8) (g : ReedSensor → ReedSensor) : (s.modSens i g).hw = s.hw := rfl
@[simp] theorem State.modSens_pend (s : State) (i : Fin 8) (g : ReedSensor → ReedSensor) : (s.modSens i g).pend = s.pend := rfl
@[simp] theorem State.modSens_mem (s : State) (i : Fin 8) (g : ReedSensor → ReedSensor) : (s.modSens i g).mem = s.mem := rfl
@[simp] theorem State.modSens_out (s : State) (i : Fin 8) (g : ReedSensor → ReedSensor) : (s.modSens i g).out = s.out := rfl
@[simp] theorem State.modSens_rdata (s : State) (i : Fin 8) (g : ReedSensor → ReedSensor) : (s.modSens i g).rdata = s.rdata := rfl
@[simp] theorem State.modSens_fresh (s : State) (i : Fin 8) (g : ReedSensor → ReedSensor) : (s.modSens i g).fresh = s.fresh := rfl
@[simp] theorem State.modSens_pending (s : State) (i : Fin 8) (g : ReedSensor → ReedSensor) : (s.modSens i g).pending = s.pending := rfl

/-! `State.modPw` changes `pw` alone. -/

@[simp] theorem State.modPw_tb (s : State) (g : Power → Power) : (s.modPw g).tb = s.tb := rfl
@[simp] theorem State.modPw_tr (s : State) (g : Power → Power) : (s.modPw g).tr = s.tr := rfl
@[simp] theorem State.modPw_lm (s : State) (g : Power → Power) : (s.modPw g).lm = s.lm := rfl
@[simp] theorem State.modPw_fb (s : State) (g : Power → Power) : (s.modPw g).fb = s.fb := rfl
@[simp] theorem State.modPw_ce (s : State) (g : Power → Power) : (s.modPw g).ce = s.ce := rfl
@[simp] theorem State.modPw_cell (s : State) (g : Power → Power) : (s.modPw g).cell = s.cell := rfl
@[simp] theorem State.modPw_pg (s : State) (g : Power → Power) : (s.modPw g).pg = s.pg := rfl
@[simp] theorem State.modPw_stl (s : State) (g : Power → Power) : (s.modPw g).stl = s.stl := rfl
@[simp] theorem State.modPw_sv (s : State) (g : Power → Power) : (s.modPw g).sv = s.sv := rfl
@[simp] theorem State.modPw_sio (s : State) (g : Power → Power) : (s.modPw g).sio = s.sio := rfl
@[simp] theorem State.modPw_sl (s : State) (g : Power → Power) : (s.modPw g).sl = s.sl := rfl
@[simp] theorem State.modPw_pr (s : State) (g : Power → Power) : (s.modPw g).pr = s.pr := rfl
@[simp] theorem State.modPw_qp (s : State) (g : Power → Power) : (s.modPw g).qp = s.qp := rfl
@[simp] theorem State.modPw_rd (s : State) (g : Power → Power) : (s.modPw g).rd = s.rd := rfl
@[simp] theorem State.modPw_sw (s : State) (g : Power → Power) : (s.modPw g).sw = s.sw := rfl
@[simp] theorem State.modPw_nt (s : State) (g : Power → Power) : (s.modPw g).nt = s.nt := rfl
@[simp] theorem State.modPw_can (s : State) (g : Power → Power) : (s.modPw g).can = s.can := rfl
@[simp] theorem State.modPw_wr (s : State) (g : Power → Power) : (s.modPw g).wr = s.wr := rfl
@[simp] theorem State.modPw_dr (s : State) (g : Power → Power) : (s.modPw g).dr = s.dr := rfl
@[simp] theorem State.modPw_er (s : State) (g : Power → Power) : (s.modPw g).er = s.er := rfl
@[simp] theorem State.modPw_hi (s : State) (g : Power → Power) : (s.modPw g).hi = s.hi := rfl
@[simp] theorem State.modPw_boot (s : State) (g : Power → Power) : (s.modPw g).boot = s.boot := rfl
@[simp] theorem State.modPw_pw (s : State) (g : Power → Power) : (s.modPw g).pw = g s.pw := rfl
@[simp] theorem State.modPw_cr (s : State) (g : Power → Power) : (s.modPw g).cr = s.cr := rfl
@[simp] theorem State.modPw_hw (s : State) (g : Power → Power) : (s.modPw g).hw = s.hw := rfl
@[simp] theorem State.modPw_pend (s : State) (g : Power → Power) : (s.modPw g).pend = s.pend := rfl
@[simp] theorem State.modPw_mem (s : State) (g : Power → Power) : (s.modPw g).mem = s.mem := rfl
@[simp] theorem State.modPw_out (s : State) (g : Power → Power) : (s.modPw g).out = s.out := rfl
@[simp] theorem State.modPw_rdata (s : State) (g : Power → Power) : (s.modPw g).rdata = s.rdata := rfl
@[simp] theorem State.modPw_fresh (s : State) (g : Power → Power) : (s.modPw g).fresh = s.fresh := rfl
@[simp] theorem State.modPw_pending (s : State) (g : Power → Power) : (s.modPw g).pending = s.pending := rfl

/-! `State.modWr` changes `wr` alone. -/

@[simp] theorem State.modWr_tb (s : State) (g : Ring → Ring) : (s.modWr g).tb = s.tb := rfl
@[simp] theorem State.modWr_tr (s : State) (g : Ring → Ring) : (s.modWr g).tr = s.tr := rfl
@[simp] theorem State.modWr_lm (s : State) (g : Ring → Ring) : (s.modWr g).lm = s.lm := rfl
@[simp] theorem State.modWr_fb (s : State) (g : Ring → Ring) : (s.modWr g).fb = s.fb := rfl
@[simp] theorem State.modWr_ce (s : State) (g : Ring → Ring) : (s.modWr g).ce = s.ce := rfl
@[simp] theorem State.modWr_cell (s : State) (g : Ring → Ring) : (s.modWr g).cell = s.cell := rfl
@[simp] theorem State.modWr_pg (s : State) (g : Ring → Ring) : (s.modWr g).pg = s.pg := rfl
@[simp] theorem State.modWr_stl (s : State) (g : Ring → Ring) : (s.modWr g).stl = s.stl := rfl
@[simp] theorem State.modWr_sv (s : State) (g : Ring → Ring) : (s.modWr g).sv = s.sv := rfl
@[simp] theorem State.modWr_sio (s : State) (g : Ring → Ring) : (s.modWr g).sio = s.sio := rfl
@[simp] theorem State.modWr_sl (s : State) (g : Ring → Ring) : (s.modWr g).sl = s.sl := rfl
@[simp] theorem State.modWr_pr (s : State) (g : Ring → Ring) : (s.modWr g).pr = s.pr := rfl
@[simp] theorem State.modWr_qp (s : State) (g : Ring → Ring) : (s.modWr g).qp = s.qp := rfl
@[simp] theorem State.modWr_rd (s : State) (g : Ring → Ring) : (s.modWr g).rd = s.rd := rfl
@[simp] theorem State.modWr_sw (s : State) (g : Ring → Ring) : (s.modWr g).sw = s.sw := rfl
@[simp] theorem State.modWr_nt (s : State) (g : Ring → Ring) : (s.modWr g).nt = s.nt := rfl
@[simp] theorem State.modWr_can (s : State) (g : Ring → Ring) : (s.modWr g).can = s.can := rfl
@[simp] theorem State.modWr_wr (s : State) (g : Ring → Ring) : (s.modWr g).wr = g s.wr := rfl
@[simp] theorem State.modWr_dr (s : State) (g : Ring → Ring) : (s.modWr g).dr = s.dr := rfl
@[simp] theorem State.modWr_er (s : State) (g : Ring → Ring) : (s.modWr g).er = s.er := rfl
@[simp] theorem State.modWr_hi (s : State) (g : Ring → Ring) : (s.modWr g).hi = s.hi := rfl
@[simp] theorem State.modWr_boot (s : State) (g : Ring → Ring) : (s.modWr g).boot = s.boot := rfl
@[simp] theorem State.modWr_pw (s : State) (g : Ring → Ring) : (s.modWr g).pw = s.pw := rfl
@[simp] theorem State.modWr_cr (s : State) (g : Ring → Ring) : (s.modWr g).cr = s.cr := rfl
@[simp] theorem State.modWr_hw (s : State) (g : Ring → Ring) : (s.modWr g).hw = s.hw := rfl
@[simp] theorem State.modWr_pend (s : State) (g : Ring → Ring) : (s.modWr g).pend = s.pend := rfl
@[simp] theorem State.modWr_mem (s : State) (g : Ring → Ring) : (s.modWr g).mem = s.mem := rfl
@[simp] theorem State.modWr_out (s : State) (g : Ring → Ring) : (s.modWr g).out = s.out := rfl
@[simp] theorem State.modWr_rdata (s : State) (g : Ring → Ring) : (s.modWr g).rdata = s.rdata := rfl
@[simp] theorem State.modWr_fresh (s : State) (g : Ring → Ring) : (s.modWr g).fresh = s.fresh := rfl
@[simp] theorem State.modWr_pending (s : State) (g : Ring → Ring) : (s.modWr g).pending = s.pending := rfl

/-! `State.modSv` changes `sv` alone. -/

@[simp] theorem State.modSv_tb (s : State) (g : Selvedge → Selvedge) : (s.modSv g).tb = s.tb := rfl
@[simp] theorem State.modSv_tr (s : State) (g : Selvedge → Selvedge) : (s.modSv g).tr = s.tr := rfl
@[simp] theorem State.modSv_lm (s : State) (g : Selvedge → Selvedge) : (s.modSv g).lm = s.lm := rfl
@[simp] theorem State.modSv_fb (s : State) (g : Selvedge → Selvedge) : (s.modSv g).fb = s.fb := rfl
@[simp] theorem State.modSv_ce (s : State) (g : Selvedge → Selvedge) : (s.modSv g).ce = s.ce := rfl
@[simp] theorem State.modSv_cell (s : State) (g : Selvedge → Selvedge) : (s.modSv g).cell = s.cell := rfl
@[simp] theorem State.modSv_pg (s : State) (g : Selvedge → Selvedge) : (s.modSv g).pg = s.pg := rfl
@[simp] theorem State.modSv_stl (s : State) (g : Selvedge → Selvedge) : (s.modSv g).stl = s.stl := rfl
@[simp] theorem State.modSv_sv (s : State) (g : Selvedge → Selvedge) : (s.modSv g).sv = g s.sv := rfl
@[simp] theorem State.modSv_sio (s : State) (g : Selvedge → Selvedge) : (s.modSv g).sio = s.sio := rfl
@[simp] theorem State.modSv_sl (s : State) (g : Selvedge → Selvedge) : (s.modSv g).sl = s.sl := rfl
@[simp] theorem State.modSv_pr (s : State) (g : Selvedge → Selvedge) : (s.modSv g).pr = s.pr := rfl
@[simp] theorem State.modSv_qp (s : State) (g : Selvedge → Selvedge) : (s.modSv g).qp = s.qp := rfl
@[simp] theorem State.modSv_rd (s : State) (g : Selvedge → Selvedge) : (s.modSv g).rd = s.rd := rfl
@[simp] theorem State.modSv_sw (s : State) (g : Selvedge → Selvedge) : (s.modSv g).sw = s.sw := rfl
@[simp] theorem State.modSv_nt (s : State) (g : Selvedge → Selvedge) : (s.modSv g).nt = s.nt := rfl
@[simp] theorem State.modSv_can (s : State) (g : Selvedge → Selvedge) : (s.modSv g).can = s.can := rfl
@[simp] theorem State.modSv_wr (s : State) (g : Selvedge → Selvedge) : (s.modSv g).wr = s.wr := rfl
@[simp] theorem State.modSv_dr (s : State) (g : Selvedge → Selvedge) : (s.modSv g).dr = s.dr := rfl
@[simp] theorem State.modSv_er (s : State) (g : Selvedge → Selvedge) : (s.modSv g).er = s.er := rfl
@[simp] theorem State.modSv_hi (s : State) (g : Selvedge → Selvedge) : (s.modSv g).hi = s.hi := rfl
@[simp] theorem State.modSv_boot (s : State) (g : Selvedge → Selvedge) : (s.modSv g).boot = s.boot := rfl
@[simp] theorem State.modSv_pw (s : State) (g : Selvedge → Selvedge) : (s.modSv g).pw = s.pw := rfl
@[simp] theorem State.modSv_cr (s : State) (g : Selvedge → Selvedge) : (s.modSv g).cr = s.cr := rfl
@[simp] theorem State.modSv_hw (s : State) (g : Selvedge → Selvedge) : (s.modSv g).hw = s.hw := rfl
@[simp] theorem State.modSv_pend (s : State) (g : Selvedge → Selvedge) : (s.modSv g).pend = s.pend := rfl
@[simp] theorem State.modSv_mem (s : State) (g : Selvedge → Selvedge) : (s.modSv g).mem = s.mem := rfl
@[simp] theorem State.modSv_out (s : State) (g : Selvedge → Selvedge) : (s.modSv g).out = s.out := rfl
@[simp] theorem State.modSv_rdata (s : State) (g : Selvedge → Selvedge) : (s.modSv g).rdata = s.rdata := rfl
@[simp] theorem State.modSv_fresh (s : State) (g : Selvedge → Selvedge) : (s.modSv g).fresh = s.fresh := rfl
@[simp] theorem State.modSv_pending (s : State) (g : Selvedge → Selvedge) : (s.modSv g).pending = s.pending := rfl

/-! `State.modSvCh` changes `sv` alone. -/

@[simp] theorem State.modSvCh_tb (s : State) (c : Fin 2) (g : SvCh → SvCh) : (s.modSvCh c g).tb = s.tb := rfl
@[simp] theorem State.modSvCh_tr (s : State) (c : Fin 2) (g : SvCh → SvCh) : (s.modSvCh c g).tr = s.tr := rfl
@[simp] theorem State.modSvCh_lm (s : State) (c : Fin 2) (g : SvCh → SvCh) : (s.modSvCh c g).lm = s.lm := rfl
@[simp] theorem State.modSvCh_fb (s : State) (c : Fin 2) (g : SvCh → SvCh) : (s.modSvCh c g).fb = s.fb := rfl
@[simp] theorem State.modSvCh_ce (s : State) (c : Fin 2) (g : SvCh → SvCh) : (s.modSvCh c g).ce = s.ce := rfl
@[simp] theorem State.modSvCh_cell (s : State) (c : Fin 2) (g : SvCh → SvCh) : (s.modSvCh c g).cell = s.cell := rfl
@[simp] theorem State.modSvCh_pg (s : State) (c : Fin 2) (g : SvCh → SvCh) : (s.modSvCh c g).pg = s.pg := rfl
@[simp] theorem State.modSvCh_stl (s : State) (c : Fin 2) (g : SvCh → SvCh) : (s.modSvCh c g).stl = s.stl := rfl
@[simp] theorem State.modSvCh_sv (s : State) (c : Fin 2) (g : SvCh → SvCh) : (s.modSvCh c g).sv = { s.sv with ch := upd s.sv.ch c g } := rfl
@[simp] theorem State.modSvCh_sio (s : State) (c : Fin 2) (g : SvCh → SvCh) : (s.modSvCh c g).sio = s.sio := rfl
@[simp] theorem State.modSvCh_sl (s : State) (c : Fin 2) (g : SvCh → SvCh) : (s.modSvCh c g).sl = s.sl := rfl
@[simp] theorem State.modSvCh_pr (s : State) (c : Fin 2) (g : SvCh → SvCh) : (s.modSvCh c g).pr = s.pr := rfl
@[simp] theorem State.modSvCh_qp (s : State) (c : Fin 2) (g : SvCh → SvCh) : (s.modSvCh c g).qp = s.qp := rfl
@[simp] theorem State.modSvCh_rd (s : State) (c : Fin 2) (g : SvCh → SvCh) : (s.modSvCh c g).rd = s.rd := rfl
@[simp] theorem State.modSvCh_sw (s : State) (c : Fin 2) (g : SvCh → SvCh) : (s.modSvCh c g).sw = s.sw := rfl
@[simp] theorem State.modSvCh_nt (s : State) (c : Fin 2) (g : SvCh → SvCh) : (s.modSvCh c g).nt = s.nt := rfl
@[simp] theorem State.modSvCh_can (s : State) (c : Fin 2) (g : SvCh → SvCh) : (s.modSvCh c g).can = s.can := rfl
@[simp] theorem State.modSvCh_wr (s : State) (c : Fin 2) (g : SvCh → SvCh) : (s.modSvCh c g).wr = s.wr := rfl
@[simp] theorem State.modSvCh_dr (s : State) (c : Fin 2) (g : SvCh → SvCh) : (s.modSvCh c g).dr = s.dr := rfl
@[simp] theorem State.modSvCh_er (s : State) (c : Fin 2) (g : SvCh → SvCh) : (s.modSvCh c g).er = s.er := rfl
@[simp] theorem State.modSvCh_hi (s : State) (c : Fin 2) (g : SvCh → SvCh) : (s.modSvCh c g).hi = s.hi := rfl
@[simp] theorem State.modSvCh_boot (s : State) (c : Fin 2) (g : SvCh → SvCh) : (s.modSvCh c g).boot = s.boot := rfl
@[simp] theorem State.modSvCh_pw (s : State) (c : Fin 2) (g : SvCh → SvCh) : (s.modSvCh c g).pw = s.pw := rfl
@[simp] theorem State.modSvCh_cr (s : State) (c : Fin 2) (g : SvCh → SvCh) : (s.modSvCh c g).cr = s.cr := rfl
@[simp] theorem State.modSvCh_hw (s : State) (c : Fin 2) (g : SvCh → SvCh) : (s.modSvCh c g).hw = s.hw := rfl
@[simp] theorem State.modSvCh_pend (s : State) (c : Fin 2) (g : SvCh → SvCh) : (s.modSvCh c g).pend = s.pend := rfl
@[simp] theorem State.modSvCh_mem (s : State) (c : Fin 2) (g : SvCh → SvCh) : (s.modSvCh c g).mem = s.mem := rfl
@[simp] theorem State.modSvCh_out (s : State) (c : Fin 2) (g : SvCh → SvCh) : (s.modSvCh c g).out = s.out := rfl
@[simp] theorem State.modSvCh_rdata (s : State) (c : Fin 2) (g : SvCh → SvCh) : (s.modSvCh c g).rdata = s.rdata := rfl
@[simp] theorem State.modSvCh_fresh (s : State) (c : Fin 2) (g : SvCh → SvCh) : (s.modSvCh c g).fresh = s.fresh := rfl
@[simp] theorem State.modSvCh_pending (s : State) (c : Fin 2) (g : SvCh → SvCh) : (s.modSvCh c g).pending = s.pending := rfl

/-! `State.modSio` changes `sio` alone. -/

@[simp] theorem State.modSio_tb (s : State) (g : Sio → Sio) : (s.modSio g).tb = s.tb := rfl
@[simp] theorem State.modSio_tr (s : State) (g : Sio → Sio) : (s.modSio g).tr = s.tr := rfl
@[simp] theorem State.modSio_lm (s : State) (g : Sio → Sio) : (s.modSio g).lm = s.lm := rfl
@[simp] theorem State.modSio_fb (s : State) (g : Sio → Sio) : (s.modSio g).fb = s.fb := rfl
@[simp] theorem State.modSio_ce (s : State) (g : Sio → Sio) : (s.modSio g).ce = s.ce := rfl
@[simp] theorem State.modSio_cell (s : State) (g : Sio → Sio) : (s.modSio g).cell = s.cell := rfl
@[simp] theorem State.modSio_pg (s : State) (g : Sio → Sio) : (s.modSio g).pg = s.pg := rfl
@[simp] theorem State.modSio_stl (s : State) (g : Sio → Sio) : (s.modSio g).stl = s.stl := rfl
@[simp] theorem State.modSio_sv (s : State) (g : Sio → Sio) : (s.modSio g).sv = s.sv := rfl
@[simp] theorem State.modSio_sio (s : State) (g : Sio → Sio) : (s.modSio g).sio = g s.sio := rfl
@[simp] theorem State.modSio_sl (s : State) (g : Sio → Sio) : (s.modSio g).sl = s.sl := rfl
@[simp] theorem State.modSio_pr (s : State) (g : Sio → Sio) : (s.modSio g).pr = s.pr := rfl
@[simp] theorem State.modSio_qp (s : State) (g : Sio → Sio) : (s.modSio g).qp = s.qp := rfl
@[simp] theorem State.modSio_rd (s : State) (g : Sio → Sio) : (s.modSio g).rd = s.rd := rfl
@[simp] theorem State.modSio_sw (s : State) (g : Sio → Sio) : (s.modSio g).sw = s.sw := rfl
@[simp] theorem State.modSio_nt (s : State) (g : Sio → Sio) : (s.modSio g).nt = s.nt := rfl
@[simp] theorem State.modSio_can (s : State) (g : Sio → Sio) : (s.modSio g).can = s.can := rfl
@[simp] theorem State.modSio_wr (s : State) (g : Sio → Sio) : (s.modSio g).wr = s.wr := rfl
@[simp] theorem State.modSio_dr (s : State) (g : Sio → Sio) : (s.modSio g).dr = s.dr := rfl
@[simp] theorem State.modSio_er (s : State) (g : Sio → Sio) : (s.modSio g).er = s.er := rfl
@[simp] theorem State.modSio_hi (s : State) (g : Sio → Sio) : (s.modSio g).hi = s.hi := rfl
@[simp] theorem State.modSio_boot (s : State) (g : Sio → Sio) : (s.modSio g).boot = s.boot := rfl
@[simp] theorem State.modSio_pw (s : State) (g : Sio → Sio) : (s.modSio g).pw = s.pw := rfl
@[simp] theorem State.modSio_cr (s : State) (g : Sio → Sio) : (s.modSio g).cr = s.cr := rfl
@[simp] theorem State.modSio_hw (s : State) (g : Sio → Sio) : (s.modSio g).hw = s.hw := rfl
@[simp] theorem State.modSio_pend (s : State) (g : Sio → Sio) : (s.modSio g).pend = s.pend := rfl
@[simp] theorem State.modSio_mem (s : State) (g : Sio → Sio) : (s.modSio g).mem = s.mem := rfl
@[simp] theorem State.modSio_out (s : State) (g : Sio → Sio) : (s.modSio g).out = s.out := rfl
@[simp] theorem State.modSio_rdata (s : State) (g : Sio → Sio) : (s.modSio g).rdata = s.rdata := rfl
@[simp] theorem State.modSio_fresh (s : State) (g : Sio → Sio) : (s.modSio g).fresh = s.fresh := rfl
@[simp] theorem State.modSio_pending (s : State) (g : Sio → Sio) : (s.modSio g).pending = s.pending := rfl

/-! `State.modHalf` changes `sio` alone. -/

@[simp] theorem State.modHalf_tb (s : State) (h : Fin 2) (g : SioHalf → SioHalf) : (s.modHalf h g).tb = s.tb := rfl
@[simp] theorem State.modHalf_tr (s : State) (h : Fin 2) (g : SioHalf → SioHalf) : (s.modHalf h g).tr = s.tr := rfl
@[simp] theorem State.modHalf_lm (s : State) (h : Fin 2) (g : SioHalf → SioHalf) : (s.modHalf h g).lm = s.lm := rfl
@[simp] theorem State.modHalf_fb (s : State) (h : Fin 2) (g : SioHalf → SioHalf) : (s.modHalf h g).fb = s.fb := rfl
@[simp] theorem State.modHalf_ce (s : State) (h : Fin 2) (g : SioHalf → SioHalf) : (s.modHalf h g).ce = s.ce := rfl
@[simp] theorem State.modHalf_cell (s : State) (h : Fin 2) (g : SioHalf → SioHalf) : (s.modHalf h g).cell = s.cell := rfl
@[simp] theorem State.modHalf_pg (s : State) (h : Fin 2) (g : SioHalf → SioHalf) : (s.modHalf h g).pg = s.pg := rfl
@[simp] theorem State.modHalf_stl (s : State) (h : Fin 2) (g : SioHalf → SioHalf) : (s.modHalf h g).stl = s.stl := rfl
@[simp] theorem State.modHalf_sv (s : State) (h : Fin 2) (g : SioHalf → SioHalf) : (s.modHalf h g).sv = s.sv := rfl
@[simp] theorem State.modHalf_sio (s : State) (h : Fin 2) (g : SioHalf → SioHalf) : (s.modHalf h g).sio = { s.sio with half := upd s.sio.half h g } := rfl
@[simp] theorem State.modHalf_sl (s : State) (h : Fin 2) (g : SioHalf → SioHalf) : (s.modHalf h g).sl = s.sl := rfl
@[simp] theorem State.modHalf_pr (s : State) (h : Fin 2) (g : SioHalf → SioHalf) : (s.modHalf h g).pr = s.pr := rfl
@[simp] theorem State.modHalf_qp (s : State) (h : Fin 2) (g : SioHalf → SioHalf) : (s.modHalf h g).qp = s.qp := rfl
@[simp] theorem State.modHalf_rd (s : State) (h : Fin 2) (g : SioHalf → SioHalf) : (s.modHalf h g).rd = s.rd := rfl
@[simp] theorem State.modHalf_sw (s : State) (h : Fin 2) (g : SioHalf → SioHalf) : (s.modHalf h g).sw = s.sw := rfl
@[simp] theorem State.modHalf_nt (s : State) (h : Fin 2) (g : SioHalf → SioHalf) : (s.modHalf h g).nt = s.nt := rfl
@[simp] theorem State.modHalf_can (s : State) (h : Fin 2) (g : SioHalf → SioHalf) : (s.modHalf h g).can = s.can := rfl
@[simp] theorem State.modHalf_wr (s : State) (h : Fin 2) (g : SioHalf → SioHalf) : (s.modHalf h g).wr = s.wr := rfl
@[simp] theorem State.modHalf_dr (s : State) (h : Fin 2) (g : SioHalf → SioHalf) : (s.modHalf h g).dr = s.dr := rfl
@[simp] theorem State.modHalf_er (s : State) (h : Fin 2) (g : SioHalf → SioHalf) : (s.modHalf h g).er = s.er := rfl
@[simp] theorem State.modHalf_hi (s : State) (h : Fin 2) (g : SioHalf → SioHalf) : (s.modHalf h g).hi = s.hi := rfl
@[simp] theorem State.modHalf_boot (s : State) (h : Fin 2) (g : SioHalf → SioHalf) : (s.modHalf h g).boot = s.boot := rfl
@[simp] theorem State.modHalf_pw (s : State) (h : Fin 2) (g : SioHalf → SioHalf) : (s.modHalf h g).pw = s.pw := rfl
@[simp] theorem State.modHalf_cr (s : State) (h : Fin 2) (g : SioHalf → SioHalf) : (s.modHalf h g).cr = s.cr := rfl
@[simp] theorem State.modHalf_hw (s : State) (h : Fin 2) (g : SioHalf → SioHalf) : (s.modHalf h g).hw = s.hw := rfl
@[simp] theorem State.modHalf_pend (s : State) (h : Fin 2) (g : SioHalf → SioHalf) : (s.modHalf h g).pend = s.pend := rfl
@[simp] theorem State.modHalf_mem (s : State) (h : Fin 2) (g : SioHalf → SioHalf) : (s.modHalf h g).mem = s.mem := rfl
@[simp] theorem State.modHalf_out (s : State) (h : Fin 2) (g : SioHalf → SioHalf) : (s.modHalf h g).out = s.out := rfl
@[simp] theorem State.modHalf_rdata (s : State) (h : Fin 2) (g : SioHalf → SioHalf) : (s.modHalf h g).rdata = s.rdata := rfl
@[simp] theorem State.modHalf_fresh (s : State) (h : Fin 2) (g : SioHalf → SioHalf) : (s.modHalf h g).fresh = s.fresh := rfl
@[simp] theorem State.modHalf_pending (s : State) (h : Fin 2) (g : SioHalf → SioHalf) : (s.modHalf h g).pending = s.pending := rfl

/-! `State.modOssd` changes `sio` alone. -/

@[simp] theorem State.modOssd_tb (s : State) (n : Fin 8) (g : Ossd → Ossd) : (s.modOssd n g).tb = s.tb := rfl
@[simp] theorem State.modOssd_tr (s : State) (n : Fin 8) (g : Ossd → Ossd) : (s.modOssd n g).tr = s.tr := rfl
@[simp] theorem State.modOssd_lm (s : State) (n : Fin 8) (g : Ossd → Ossd) : (s.modOssd n g).lm = s.lm := rfl
@[simp] theorem State.modOssd_fb (s : State) (n : Fin 8) (g : Ossd → Ossd) : (s.modOssd n g).fb = s.fb := rfl
@[simp] theorem State.modOssd_ce (s : State) (n : Fin 8) (g : Ossd → Ossd) : (s.modOssd n g).ce = s.ce := rfl
@[simp] theorem State.modOssd_cell (s : State) (n : Fin 8) (g : Ossd → Ossd) : (s.modOssd n g).cell = s.cell := rfl
@[simp] theorem State.modOssd_pg (s : State) (n : Fin 8) (g : Ossd → Ossd) : (s.modOssd n g).pg = s.pg := rfl
@[simp] theorem State.modOssd_stl (s : State) (n : Fin 8) (g : Ossd → Ossd) : (s.modOssd n g).stl = s.stl := rfl
@[simp] theorem State.modOssd_sv (s : State) (n : Fin 8) (g : Ossd → Ossd) : (s.modOssd n g).sv = s.sv := rfl
@[simp] theorem State.modOssd_sio (s : State) (n : Fin 8) (g : Ossd → Ossd) : (s.modOssd n g).sio = { s.sio with ossd := upd s.sio.ossd n g } := rfl
@[simp] theorem State.modOssd_sl (s : State) (n : Fin 8) (g : Ossd → Ossd) : (s.modOssd n g).sl = s.sl := rfl
@[simp] theorem State.modOssd_pr (s : State) (n : Fin 8) (g : Ossd → Ossd) : (s.modOssd n g).pr = s.pr := rfl
@[simp] theorem State.modOssd_qp (s : State) (n : Fin 8) (g : Ossd → Ossd) : (s.modOssd n g).qp = s.qp := rfl
@[simp] theorem State.modOssd_rd (s : State) (n : Fin 8) (g : Ossd → Ossd) : (s.modOssd n g).rd = s.rd := rfl
@[simp] theorem State.modOssd_sw (s : State) (n : Fin 8) (g : Ossd → Ossd) : (s.modOssd n g).sw = s.sw := rfl
@[simp] theorem State.modOssd_nt (s : State) (n : Fin 8) (g : Ossd → Ossd) : (s.modOssd n g).nt = s.nt := rfl
@[simp] theorem State.modOssd_can (s : State) (n : Fin 8) (g : Ossd → Ossd) : (s.modOssd n g).can = s.can := rfl
@[simp] theorem State.modOssd_wr (s : State) (n : Fin 8) (g : Ossd → Ossd) : (s.modOssd n g).wr = s.wr := rfl
@[simp] theorem State.modOssd_dr (s : State) (n : Fin 8) (g : Ossd → Ossd) : (s.modOssd n g).dr = s.dr := rfl
@[simp] theorem State.modOssd_er (s : State) (n : Fin 8) (g : Ossd → Ossd) : (s.modOssd n g).er = s.er := rfl
@[simp] theorem State.modOssd_hi (s : State) (n : Fin 8) (g : Ossd → Ossd) : (s.modOssd n g).hi = s.hi := rfl
@[simp] theorem State.modOssd_boot (s : State) (n : Fin 8) (g : Ossd → Ossd) : (s.modOssd n g).boot = s.boot := rfl
@[simp] theorem State.modOssd_pw (s : State) (n : Fin 8) (g : Ossd → Ossd) : (s.modOssd n g).pw = s.pw := rfl
@[simp] theorem State.modOssd_cr (s : State) (n : Fin 8) (g : Ossd → Ossd) : (s.modOssd n g).cr = s.cr := rfl
@[simp] theorem State.modOssd_hw (s : State) (n : Fin 8) (g : Ossd → Ossd) : (s.modOssd n g).hw = s.hw := rfl
@[simp] theorem State.modOssd_pend (s : State) (n : Fin 8) (g : Ossd → Ossd) : (s.modOssd n g).pend = s.pend := rfl
@[simp] theorem State.modOssd_mem (s : State) (n : Fin 8) (g : Ossd → Ossd) : (s.modOssd n g).mem = s.mem := rfl
@[simp] theorem State.modOssd_out (s : State) (n : Fin 8) (g : Ossd → Ossd) : (s.modOssd n g).out = s.out := rfl
@[simp] theorem State.modOssd_rdata (s : State) (n : Fin 8) (g : Ossd → Ossd) : (s.modOssd n g).rdata = s.rdata := rfl
@[simp] theorem State.modOssd_fresh (s : State) (n : Fin 8) (g : Ossd → Ossd) : (s.modOssd n g).fresh = s.fresh := rfl
@[simp] theorem State.modOssd_pending (s : State) (n : Fin 8) (g : Ossd → Ossd) : (s.modOssd n g).pending = s.pending := rfl

/-! `State.modNt` changes `nt` alone. -/

@[simp] theorem State.modNt_tb (s : State) (g : NetTime → NetTime) : (s.modNt g).tb = s.tb := rfl
@[simp] theorem State.modNt_tr (s : State) (g : NetTime → NetTime) : (s.modNt g).tr = s.tr := rfl
@[simp] theorem State.modNt_lm (s : State) (g : NetTime → NetTime) : (s.modNt g).lm = s.lm := rfl
@[simp] theorem State.modNt_fb (s : State) (g : NetTime → NetTime) : (s.modNt g).fb = s.fb := rfl
@[simp] theorem State.modNt_ce (s : State) (g : NetTime → NetTime) : (s.modNt g).ce = s.ce := rfl
@[simp] theorem State.modNt_cell (s : State) (g : NetTime → NetTime) : (s.modNt g).cell = s.cell := rfl
@[simp] theorem State.modNt_pg (s : State) (g : NetTime → NetTime) : (s.modNt g).pg = s.pg := rfl
@[simp] theorem State.modNt_stl (s : State) (g : NetTime → NetTime) : (s.modNt g).stl = s.stl := rfl
@[simp] theorem State.modNt_sv (s : State) (g : NetTime → NetTime) : (s.modNt g).sv = s.sv := rfl
@[simp] theorem State.modNt_sio (s : State) (g : NetTime → NetTime) : (s.modNt g).sio = s.sio := rfl
@[simp] theorem State.modNt_sl (s : State) (g : NetTime → NetTime) : (s.modNt g).sl = s.sl := rfl
@[simp] theorem State.modNt_pr (s : State) (g : NetTime → NetTime) : (s.modNt g).pr = s.pr := rfl
@[simp] theorem State.modNt_qp (s : State) (g : NetTime → NetTime) : (s.modNt g).qp = s.qp := rfl
@[simp] theorem State.modNt_rd (s : State) (g : NetTime → NetTime) : (s.modNt g).rd = s.rd := rfl
@[simp] theorem State.modNt_sw (s : State) (g : NetTime → NetTime) : (s.modNt g).sw = s.sw := rfl
@[simp] theorem State.modNt_nt (s : State) (g : NetTime → NetTime) : (s.modNt g).nt = g s.nt := rfl
@[simp] theorem State.modNt_can (s : State) (g : NetTime → NetTime) : (s.modNt g).can = s.can := rfl
@[simp] theorem State.modNt_wr (s : State) (g : NetTime → NetTime) : (s.modNt g).wr = s.wr := rfl
@[simp] theorem State.modNt_dr (s : State) (g : NetTime → NetTime) : (s.modNt g).dr = s.dr := rfl
@[simp] theorem State.modNt_er (s : State) (g : NetTime → NetTime) : (s.modNt g).er = s.er := rfl
@[simp] theorem State.modNt_hi (s : State) (g : NetTime → NetTime) : (s.modNt g).hi = s.hi := rfl
@[simp] theorem State.modNt_boot (s : State) (g : NetTime → NetTime) : (s.modNt g).boot = s.boot := rfl
@[simp] theorem State.modNt_pw (s : State) (g : NetTime → NetTime) : (s.modNt g).pw = s.pw := rfl
@[simp] theorem State.modNt_cr (s : State) (g : NetTime → NetTime) : (s.modNt g).cr = s.cr := rfl
@[simp] theorem State.modNt_hw (s : State) (g : NetTime → NetTime) : (s.modNt g).hw = s.hw := rfl
@[simp] theorem State.modNt_pend (s : State) (g : NetTime → NetTime) : (s.modNt g).pend = s.pend := rfl
@[simp] theorem State.modNt_mem (s : State) (g : NetTime → NetTime) : (s.modNt g).mem = s.mem := rfl
@[simp] theorem State.modNt_out (s : State) (g : NetTime → NetTime) : (s.modNt g).out = s.out := rfl
@[simp] theorem State.modNt_rdata (s : State) (g : NetTime → NetTime) : (s.modNt g).rdata = s.rdata := rfl
@[simp] theorem State.modNt_fresh (s : State) (g : NetTime → NetTime) : (s.modNt g).fresh = s.fresh := rfl
@[simp] theorem State.modNt_pending (s : State) (g : NetTime → NetTime) : (s.modNt g).pending = s.pending := rfl

/-! `State.modStl` changes `stl` alone. -/

@[simp] theorem State.modStl_tb (s : State) (n : Fin 16) (g : StlLink → StlLink) : (s.modStl n g).tb = s.tb := rfl
@[simp] theorem State.modStl_tr (s : State) (n : Fin 16) (g : StlLink → StlLink) : (s.modStl n g).tr = s.tr := rfl
@[simp] theorem State.modStl_lm (s : State) (n : Fin 16) (g : StlLink → StlLink) : (s.modStl n g).lm = s.lm := rfl
@[simp] theorem State.modStl_fb (s : State) (n : Fin 16) (g : StlLink → StlLink) : (s.modStl n g).fb = s.fb := rfl
@[simp] theorem State.modStl_ce (s : State) (n : Fin 16) (g : StlLink → StlLink) : (s.modStl n g).ce = s.ce := rfl
@[simp] theorem State.modStl_cell (s : State) (n : Fin 16) (g : StlLink → StlLink) : (s.modStl n g).cell = s.cell := rfl
@[simp] theorem State.modStl_pg (s : State) (n : Fin 16) (g : StlLink → StlLink) : (s.modStl n g).pg = s.pg := rfl
@[simp] theorem State.modStl_stl (s : State) (n : Fin 16) (g : StlLink → StlLink) : (s.modStl n g).stl = upd s.stl n g := rfl
@[simp] theorem State.modStl_sv (s : State) (n : Fin 16) (g : StlLink → StlLink) : (s.modStl n g).sv = s.sv := rfl
@[simp] theorem State.modStl_sio (s : State) (n : Fin 16) (g : StlLink → StlLink) : (s.modStl n g).sio = s.sio := rfl
@[simp] theorem State.modStl_sl (s : State) (n : Fin 16) (g : StlLink → StlLink) : (s.modStl n g).sl = s.sl := rfl
@[simp] theorem State.modStl_pr (s : State) (n : Fin 16) (g : StlLink → StlLink) : (s.modStl n g).pr = s.pr := rfl
@[simp] theorem State.modStl_qp (s : State) (n : Fin 16) (g : StlLink → StlLink) : (s.modStl n g).qp = s.qp := rfl
@[simp] theorem State.modStl_rd (s : State) (n : Fin 16) (g : StlLink → StlLink) : (s.modStl n g).rd = s.rd := rfl
@[simp] theorem State.modStl_sw (s : State) (n : Fin 16) (g : StlLink → StlLink) : (s.modStl n g).sw = s.sw := rfl
@[simp] theorem State.modStl_nt (s : State) (n : Fin 16) (g : StlLink → StlLink) : (s.modStl n g).nt = s.nt := rfl
@[simp] theorem State.modStl_can (s : State) (n : Fin 16) (g : StlLink → StlLink) : (s.modStl n g).can = s.can := rfl
@[simp] theorem State.modStl_wr (s : State) (n : Fin 16) (g : StlLink → StlLink) : (s.modStl n g).wr = s.wr := rfl
@[simp] theorem State.modStl_dr (s : State) (n : Fin 16) (g : StlLink → StlLink) : (s.modStl n g).dr = s.dr := rfl
@[simp] theorem State.modStl_er (s : State) (n : Fin 16) (g : StlLink → StlLink) : (s.modStl n g).er = s.er := rfl
@[simp] theorem State.modStl_hi (s : State) (n : Fin 16) (g : StlLink → StlLink) : (s.modStl n g).hi = s.hi := rfl
@[simp] theorem State.modStl_boot (s : State) (n : Fin 16) (g : StlLink → StlLink) : (s.modStl n g).boot = s.boot := rfl
@[simp] theorem State.modStl_pw (s : State) (n : Fin 16) (g : StlLink → StlLink) : (s.modStl n g).pw = s.pw := rfl
@[simp] theorem State.modStl_cr (s : State) (n : Fin 16) (g : StlLink → StlLink) : (s.modStl n g).cr = s.cr := rfl
@[simp] theorem State.modStl_hw (s : State) (n : Fin 16) (g : StlLink → StlLink) : (s.modStl n g).hw = s.hw := rfl
@[simp] theorem State.modStl_pend (s : State) (n : Fin 16) (g : StlLink → StlLink) : (s.modStl n g).pend = s.pend := rfl
@[simp] theorem State.modStl_mem (s : State) (n : Fin 16) (g : StlLink → StlLink) : (s.modStl n g).mem = s.mem := rfl
@[simp] theorem State.modStl_out (s : State) (n : Fin 16) (g : StlLink → StlLink) : (s.modStl n g).out = s.out := rfl
@[simp] theorem State.modStl_rdata (s : State) (n : Fin 16) (g : StlLink → StlLink) : (s.modStl n g).rdata = s.rdata := rfl
@[simp] theorem State.modStl_fresh (s : State) (n : Fin 16) (g : StlLink → StlLink) : (s.modStl n g).fresh = s.fresh := rfl
@[simp] theorem State.modStl_pending (s : State) (n : Fin 16) (g : StlLink → StlLink) : (s.modStl n g).pending = s.pending := rfl

/-! `State.modSw` changes `sw` alone. -/

@[simp] theorem State.modSw_tb (s : State) (g : Switch → Switch) : (s.modSw g).tb = s.tb := rfl
@[simp] theorem State.modSw_tr (s : State) (g : Switch → Switch) : (s.modSw g).tr = s.tr := rfl
@[simp] theorem State.modSw_lm (s : State) (g : Switch → Switch) : (s.modSw g).lm = s.lm := rfl
@[simp] theorem State.modSw_fb (s : State) (g : Switch → Switch) : (s.modSw g).fb = s.fb := rfl
@[simp] theorem State.modSw_ce (s : State) (g : Switch → Switch) : (s.modSw g).ce = s.ce := rfl
@[simp] theorem State.modSw_cell (s : State) (g : Switch → Switch) : (s.modSw g).cell = s.cell := rfl
@[simp] theorem State.modSw_pg (s : State) (g : Switch → Switch) : (s.modSw g).pg = s.pg := rfl
@[simp] theorem State.modSw_stl (s : State) (g : Switch → Switch) : (s.modSw g).stl = s.stl := rfl
@[simp] theorem State.modSw_sv (s : State) (g : Switch → Switch) : (s.modSw g).sv = s.sv := rfl
@[simp] theorem State.modSw_sio (s : State) (g : Switch → Switch) : (s.modSw g).sio = s.sio := rfl
@[simp] theorem State.modSw_sl (s : State) (g : Switch → Switch) : (s.modSw g).sl = s.sl := rfl
@[simp] theorem State.modSw_pr (s : State) (g : Switch → Switch) : (s.modSw g).pr = s.pr := rfl
@[simp] theorem State.modSw_qp (s : State) (g : Switch → Switch) : (s.modSw g).qp = s.qp := rfl
@[simp] theorem State.modSw_rd (s : State) (g : Switch → Switch) : (s.modSw g).rd = s.rd := rfl
@[simp] theorem State.modSw_sw (s : State) (g : Switch → Switch) : (s.modSw g).sw = g s.sw := rfl
@[simp] theorem State.modSw_nt (s : State) (g : Switch → Switch) : (s.modSw g).nt = s.nt := rfl
@[simp] theorem State.modSw_can (s : State) (g : Switch → Switch) : (s.modSw g).can = s.can := rfl
@[simp] theorem State.modSw_wr (s : State) (g : Switch → Switch) : (s.modSw g).wr = s.wr := rfl
@[simp] theorem State.modSw_dr (s : State) (g : Switch → Switch) : (s.modSw g).dr = s.dr := rfl
@[simp] theorem State.modSw_er (s : State) (g : Switch → Switch) : (s.modSw g).er = s.er := rfl
@[simp] theorem State.modSw_hi (s : State) (g : Switch → Switch) : (s.modSw g).hi = s.hi := rfl
@[simp] theorem State.modSw_boot (s : State) (g : Switch → Switch) : (s.modSw g).boot = s.boot := rfl
@[simp] theorem State.modSw_pw (s : State) (g : Switch → Switch) : (s.modSw g).pw = s.pw := rfl
@[simp] theorem State.modSw_cr (s : State) (g : Switch → Switch) : (s.modSw g).cr = s.cr := rfl
@[simp] theorem State.modSw_hw (s : State) (g : Switch → Switch) : (s.modSw g).hw = s.hw := rfl
@[simp] theorem State.modSw_pend (s : State) (g : Switch → Switch) : (s.modSw g).pend = s.pend := rfl
@[simp] theorem State.modSw_mem (s : State) (g : Switch → Switch) : (s.modSw g).mem = s.mem := rfl
@[simp] theorem State.modSw_out (s : State) (g : Switch → Switch) : (s.modSw g).out = s.out := rfl
@[simp] theorem State.modSw_rdata (s : State) (g : Switch → Switch) : (s.modSw g).rdata = s.rdata := rfl
@[simp] theorem State.modSw_fresh (s : State) (g : Switch → Switch) : (s.modSw g).fresh = s.fresh := rfl
@[simp] theorem State.modSw_pending (s : State) (g : Switch → Switch) : (s.modSw g).pending = s.pending := rfl

/-! `State.modPort` changes `sw` alone. -/

@[simp] theorem State.modPort_tb (s : State) (p : Fin 8) (g : Port → Port) : (s.modPort p g).tb = s.tb := rfl
@[simp] theorem State.modPort_tr (s : State) (p : Fin 8) (g : Port → Port) : (s.modPort p g).tr = s.tr := rfl
@[simp] theorem State.modPort_lm (s : State) (p : Fin 8) (g : Port → Port) : (s.modPort p g).lm = s.lm := rfl
@[simp] theorem State.modPort_fb (s : State) (p : Fin 8) (g : Port → Port) : (s.modPort p g).fb = s.fb := rfl
@[simp] theorem State.modPort_ce (s : State) (p : Fin 8) (g : Port → Port) : (s.modPort p g).ce = s.ce := rfl
@[simp] theorem State.modPort_cell (s : State) (p : Fin 8) (g : Port → Port) : (s.modPort p g).cell = s.cell := rfl
@[simp] theorem State.modPort_pg (s : State) (p : Fin 8) (g : Port → Port) : (s.modPort p g).pg = s.pg := rfl
@[simp] theorem State.modPort_stl (s : State) (p : Fin 8) (g : Port → Port) : (s.modPort p g).stl = s.stl := rfl
@[simp] theorem State.modPort_sv (s : State) (p : Fin 8) (g : Port → Port) : (s.modPort p g).sv = s.sv := rfl
@[simp] theorem State.modPort_sio (s : State) (p : Fin 8) (g : Port → Port) : (s.modPort p g).sio = s.sio := rfl
@[simp] theorem State.modPort_sl (s : State) (p : Fin 8) (g : Port → Port) : (s.modPort p g).sl = s.sl := rfl
@[simp] theorem State.modPort_pr (s : State) (p : Fin 8) (g : Port → Port) : (s.modPort p g).pr = s.pr := rfl
@[simp] theorem State.modPort_qp (s : State) (p : Fin 8) (g : Port → Port) : (s.modPort p g).qp = s.qp := rfl
@[simp] theorem State.modPort_rd (s : State) (p : Fin 8) (g : Port → Port) : (s.modPort p g).rd = s.rd := rfl
@[simp] theorem State.modPort_sw (s : State) (p : Fin 8) (g : Port → Port) : (s.modPort p g).sw = { s.sw with port := upd s.sw.port p g } := rfl
@[simp] theorem State.modPort_nt (s : State) (p : Fin 8) (g : Port → Port) : (s.modPort p g).nt = s.nt := rfl
@[simp] theorem State.modPort_can (s : State) (p : Fin 8) (g : Port → Port) : (s.modPort p g).can = s.can := rfl
@[simp] theorem State.modPort_wr (s : State) (p : Fin 8) (g : Port → Port) : (s.modPort p g).wr = s.wr := rfl
@[simp] theorem State.modPort_dr (s : State) (p : Fin 8) (g : Port → Port) : (s.modPort p g).dr = s.dr := rfl
@[simp] theorem State.modPort_er (s : State) (p : Fin 8) (g : Port → Port) : (s.modPort p g).er = s.er := rfl
@[simp] theorem State.modPort_hi (s : State) (p : Fin 8) (g : Port → Port) : (s.modPort p g).hi = s.hi := rfl
@[simp] theorem State.modPort_boot (s : State) (p : Fin 8) (g : Port → Port) : (s.modPort p g).boot = s.boot := rfl
@[simp] theorem State.modPort_pw (s : State) (p : Fin 8) (g : Port → Port) : (s.modPort p g).pw = s.pw := rfl
@[simp] theorem State.modPort_cr (s : State) (p : Fin 8) (g : Port → Port) : (s.modPort p g).cr = s.cr := rfl
@[simp] theorem State.modPort_hw (s : State) (p : Fin 8) (g : Port → Port) : (s.modPort p g).hw = s.hw := rfl
@[simp] theorem State.modPort_pend (s : State) (p : Fin 8) (g : Port → Port) : (s.modPort p g).pend = s.pend := rfl
@[simp] theorem State.modPort_mem (s : State) (p : Fin 8) (g : Port → Port) : (s.modPort p g).mem = s.mem := rfl
@[simp] theorem State.modPort_out (s : State) (p : Fin 8) (g : Port → Port) : (s.modPort p g).out = s.out := rfl
@[simp] theorem State.modPort_rdata (s : State) (p : Fin 8) (g : Port → Port) : (s.modPort p g).rdata = s.rdata := rfl
@[simp] theorem State.modPort_fresh (s : State) (p : Fin 8) (g : Port → Port) : (s.modPort p g).fresh = s.fresh := rfl
@[simp] theorem State.modPort_pending (s : State) (p : Fin 8) (g : Port → Port) : (s.modPort p g).pending = s.pending := rfl

/-! `State.modTb` changes `tb` alone. -/

@[simp] theorem State.modTb_tb (s : State) (g : TimeBase → TimeBase) : (s.modTb g).tb = g s.tb := rfl
@[simp] theorem State.modTb_tr (s : State) (g : TimeBase → TimeBase) : (s.modTb g).tr = s.tr := rfl
@[simp] theorem State.modTb_lm (s : State) (g : TimeBase → TimeBase) : (s.modTb g).lm = s.lm := rfl
@[simp] theorem State.modTb_fb (s : State) (g : TimeBase → TimeBase) : (s.modTb g).fb = s.fb := rfl
@[simp] theorem State.modTb_ce (s : State) (g : TimeBase → TimeBase) : (s.modTb g).ce = s.ce := rfl
@[simp] theorem State.modTb_cell (s : State) (g : TimeBase → TimeBase) : (s.modTb g).cell = s.cell := rfl
@[simp] theorem State.modTb_pg (s : State) (g : TimeBase → TimeBase) : (s.modTb g).pg = s.pg := rfl
@[simp] theorem State.modTb_stl (s : State) (g : TimeBase → TimeBase) : (s.modTb g).stl = s.stl := rfl
@[simp] theorem State.modTb_sv (s : State) (g : TimeBase → TimeBase) : (s.modTb g).sv = s.sv := rfl
@[simp] theorem State.modTb_sio (s : State) (g : TimeBase → TimeBase) : (s.modTb g).sio = s.sio := rfl
@[simp] theorem State.modTb_sl (s : State) (g : TimeBase → TimeBase) : (s.modTb g).sl = s.sl := rfl
@[simp] theorem State.modTb_pr (s : State) (g : TimeBase → TimeBase) : (s.modTb g).pr = s.pr := rfl
@[simp] theorem State.modTb_qp (s : State) (g : TimeBase → TimeBase) : (s.modTb g).qp = s.qp := rfl
@[simp] theorem State.modTb_rd (s : State) (g : TimeBase → TimeBase) : (s.modTb g).rd = s.rd := rfl
@[simp] theorem State.modTb_sw (s : State) (g : TimeBase → TimeBase) : (s.modTb g).sw = s.sw := rfl
@[simp] theorem State.modTb_nt (s : State) (g : TimeBase → TimeBase) : (s.modTb g).nt = s.nt := rfl
@[simp] theorem State.modTb_can (s : State) (g : TimeBase → TimeBase) : (s.modTb g).can = s.can := rfl
@[simp] theorem State.modTb_wr (s : State) (g : TimeBase → TimeBase) : (s.modTb g).wr = s.wr := rfl
@[simp] theorem State.modTb_dr (s : State) (g : TimeBase → TimeBase) : (s.modTb g).dr = s.dr := rfl
@[simp] theorem State.modTb_er (s : State) (g : TimeBase → TimeBase) : (s.modTb g).er = s.er := rfl
@[simp] theorem State.modTb_hi (s : State) (g : TimeBase → TimeBase) : (s.modTb g).hi = s.hi := rfl
@[simp] theorem State.modTb_boot (s : State) (g : TimeBase → TimeBase) : (s.modTb g).boot = s.boot := rfl
@[simp] theorem State.modTb_pw (s : State) (g : TimeBase → TimeBase) : (s.modTb g).pw = s.pw := rfl
@[simp] theorem State.modTb_cr (s : State) (g : TimeBase → TimeBase) : (s.modTb g).cr = s.cr := rfl
@[simp] theorem State.modTb_hw (s : State) (g : TimeBase → TimeBase) : (s.modTb g).hw = s.hw := rfl
@[simp] theorem State.modTb_pend (s : State) (g : TimeBase → TimeBase) : (s.modTb g).pend = s.pend := rfl
@[simp] theorem State.modTb_mem (s : State) (g : TimeBase → TimeBase) : (s.modTb g).mem = s.mem := rfl
@[simp] theorem State.modTb_out (s : State) (g : TimeBase → TimeBase) : (s.modTb g).out = s.out := rfl
@[simp] theorem State.modTb_rdata (s : State) (g : TimeBase → TimeBase) : (s.modTb g).rdata = s.rdata := rfl
@[simp] theorem State.modTb_fresh (s : State) (g : TimeBase → TimeBase) : (s.modTb g).fresh = s.fresh := rfl
@[simp] theorem State.modTb_pending (s : State) (g : TimeBase → TimeBase) : (s.modTb g).pending = s.pending := rfl

/-! `State.coreClock` changes `cr` alone. -/

@[simp] theorem State.coreClock_tb (s : State) (f : Fin 16) : (s.coreClock f).tb = s.tb := rfl
@[simp] theorem State.coreClock_tr (s : State) (f : Fin 16) : (s.coreClock f).tr = s.tr := rfl
@[simp] theorem State.coreClock_lm (s : State) (f : Fin 16) : (s.coreClock f).lm = s.lm := rfl
@[simp] theorem State.coreClock_fb (s : State) (f : Fin 16) : (s.coreClock f).fb = s.fb := rfl
@[simp] theorem State.coreClock_ce (s : State) (f : Fin 16) : (s.coreClock f).ce = s.ce := rfl
@[simp] theorem State.coreClock_cell (s : State) (f : Fin 16) : (s.coreClock f).cell = s.cell := rfl
@[simp] theorem State.coreClock_pg (s : State) (f : Fin 16) : (s.coreClock f).pg = s.pg := rfl
@[simp] theorem State.coreClock_stl (s : State) (f : Fin 16) : (s.coreClock f).stl = s.stl := rfl
@[simp] theorem State.coreClock_sv (s : State) (f : Fin 16) : (s.coreClock f).sv = s.sv := rfl
@[simp] theorem State.coreClock_sio (s : State) (f : Fin 16) : (s.coreClock f).sio = s.sio := rfl
@[simp] theorem State.coreClock_sl (s : State) (f : Fin 16) : (s.coreClock f).sl = s.sl := rfl
@[simp] theorem State.coreClock_pr (s : State) (f : Fin 16) : (s.coreClock f).pr = s.pr := rfl
@[simp] theorem State.coreClock_qp (s : State) (f : Fin 16) : (s.coreClock f).qp = s.qp := rfl
@[simp] theorem State.coreClock_rd (s : State) (f : Fin 16) : (s.coreClock f).rd = s.rd := rfl
@[simp] theorem State.coreClock_sw (s : State) (f : Fin 16) : (s.coreClock f).sw = s.sw := rfl
@[simp] theorem State.coreClock_nt (s : State) (f : Fin 16) : (s.coreClock f).nt = s.nt := rfl
@[simp] theorem State.coreClock_can (s : State) (f : Fin 16) : (s.coreClock f).can = s.can := rfl
@[simp] theorem State.coreClock_wr (s : State) (f : Fin 16) : (s.coreClock f).wr = s.wr := rfl
@[simp] theorem State.coreClock_dr (s : State) (f : Fin 16) : (s.coreClock f).dr = s.dr := rfl
@[simp] theorem State.coreClock_er (s : State) (f : Fin 16) : (s.coreClock f).er = s.er := rfl
@[simp] theorem State.coreClock_hi (s : State) (f : Fin 16) : (s.coreClock f).hi = s.hi := rfl
@[simp] theorem State.coreClock_boot (s : State) (f : Fin 16) : (s.coreClock f).boot = s.boot := rfl
@[simp] theorem State.coreClock_pw (s : State) (f : Fin 16) : (s.coreClock f).pw = s.pw := rfl
@[simp] theorem State.coreClock_cr (s : State) (f : Fin 16) : (s.coreClock f).cr = { s.cr with clk := setBit s.cr.clk (26 + f.val % 4) } := rfl
@[simp] theorem State.coreClock_hw (s : State) (f : Fin 16) : (s.coreClock f).hw = s.hw := rfl
@[simp] theorem State.coreClock_pend (s : State) (f : Fin 16) : (s.coreClock f).pend = s.pend := rfl
@[simp] theorem State.coreClock_mem (s : State) (f : Fin 16) : (s.coreClock f).mem = s.mem := rfl
@[simp] theorem State.coreClock_out (s : State) (f : Fin 16) : (s.coreClock f).out = s.out := rfl
@[simp] theorem State.coreClock_rdata (s : State) (f : Fin 16) : (s.coreClock f).rdata = s.rdata := rfl
@[simp] theorem State.coreClock_fresh (s : State) (f : Fin 16) : (s.coreClock f).fresh = s.fresh := rfl
@[simp] theorem State.coreClock_pending (s : State) (f : Fin 16) : (s.coreClock f).pending = s.pending := rfl

/-! `State.wr32` changes `mem` alone. -/

@[simp] theorem State.wr32_tb (s : State) (a : Nat) (v : BitVec 32) : (s.wr32 a v).tb = s.tb := rfl
@[simp] theorem State.wr32_tr (s : State) (a : Nat) (v : BitVec 32) : (s.wr32 a v).tr = s.tr := rfl
@[simp] theorem State.wr32_lm (s : State) (a : Nat) (v : BitVec 32) : (s.wr32 a v).lm = s.lm := rfl
@[simp] theorem State.wr32_fb (s : State) (a : Nat) (v : BitVec 32) : (s.wr32 a v).fb = s.fb := rfl
@[simp] theorem State.wr32_ce (s : State) (a : Nat) (v : BitVec 32) : (s.wr32 a v).ce = s.ce := rfl
@[simp] theorem State.wr32_cell (s : State) (a : Nat) (v : BitVec 32) : (s.wr32 a v).cell = s.cell := rfl
@[simp] theorem State.wr32_pg (s : State) (a : Nat) (v : BitVec 32) : (s.wr32 a v).pg = s.pg := rfl
@[simp] theorem State.wr32_stl (s : State) (a : Nat) (v : BitVec 32) : (s.wr32 a v).stl = s.stl := rfl
@[simp] theorem State.wr32_sv (s : State) (a : Nat) (v : BitVec 32) : (s.wr32 a v).sv = s.sv := rfl
@[simp] theorem State.wr32_sio (s : State) (a : Nat) (v : BitVec 32) : (s.wr32 a v).sio = s.sio := rfl
@[simp] theorem State.wr32_sl (s : State) (a : Nat) (v : BitVec 32) : (s.wr32 a v).sl = s.sl := rfl
@[simp] theorem State.wr32_pr (s : State) (a : Nat) (v : BitVec 32) : (s.wr32 a v).pr = s.pr := rfl
@[simp] theorem State.wr32_qp (s : State) (a : Nat) (v : BitVec 32) : (s.wr32 a v).qp = s.qp := rfl
@[simp] theorem State.wr32_rd (s : State) (a : Nat) (v : BitVec 32) : (s.wr32 a v).rd = s.rd := rfl
@[simp] theorem State.wr32_sw (s : State) (a : Nat) (v : BitVec 32) : (s.wr32 a v).sw = s.sw := rfl
@[simp] theorem State.wr32_nt (s : State) (a : Nat) (v : BitVec 32) : (s.wr32 a v).nt = s.nt := rfl
@[simp] theorem State.wr32_can (s : State) (a : Nat) (v : BitVec 32) : (s.wr32 a v).can = s.can := rfl
@[simp] theorem State.wr32_wr (s : State) (a : Nat) (v : BitVec 32) : (s.wr32 a v).wr = s.wr := rfl
@[simp] theorem State.wr32_dr (s : State) (a : Nat) (v : BitVec 32) : (s.wr32 a v).dr = s.dr := rfl
@[simp] theorem State.wr32_er (s : State) (a : Nat) (v : BitVec 32) : (s.wr32 a v).er = s.er := rfl
@[simp] theorem State.wr32_hi (s : State) (a : Nat) (v : BitVec 32) : (s.wr32 a v).hi = s.hi := rfl
@[simp] theorem State.wr32_boot (s : State) (a : Nat) (v : BitVec 32) : (s.wr32 a v).boot = s.boot := rfl
@[simp] theorem State.wr32_pw (s : State) (a : Nat) (v : BitVec 32) : (s.wr32 a v).pw = s.pw := rfl
@[simp] theorem State.wr32_cr (s : State) (a : Nat) (v : BitVec 32) : (s.wr32 a v).cr = s.cr := rfl
@[simp] theorem State.wr32_hw (s : State) (a : Nat) (v : BitVec 32) : (s.wr32 a v).hw = s.hw := rfl
@[simp] theorem State.wr32_pend (s : State) (a : Nat) (v : BitVec 32) : (s.wr32 a v).pend = s.pend := rfl
@[simp] theorem State.wr32_mem (s : State) (a : Nat) (v : BitVec 32) : (s.wr32 a v).mem = memWriteList s.mem a (natBytes v.toNat 4) := rfl
@[simp] theorem State.wr32_out (s : State) (a : Nat) (v : BitVec 32) : (s.wr32 a v).out = s.out := rfl
@[simp] theorem State.wr32_rdata (s : State) (a : Nat) (v : BitVec 32) : (s.wr32 a v).rdata = s.rdata := rfl
@[simp] theorem State.wr32_fresh (s : State) (a : Nat) (v : BitVec 32) : (s.wr32 a v).fresh = s.fresh := rfl
@[simp] theorem State.wr32_pending (s : State) (a : Nat) (v : BitVec 32) : (s.wr32 a v).pending = s.pending := rfl

/-! `State.wr64` changes `mem` alone. -/

@[simp] theorem State.wr64_tb (s : State) (a : Nat) (v : BitVec 64) : (s.wr64 a v).tb = s.tb := rfl
@[simp] theorem State.wr64_tr (s : State) (a : Nat) (v : BitVec 64) : (s.wr64 a v).tr = s.tr := rfl
@[simp] theorem State.wr64_lm (s : State) (a : Nat) (v : BitVec 64) : (s.wr64 a v).lm = s.lm := rfl
@[simp] theorem State.wr64_fb (s : State) (a : Nat) (v : BitVec 64) : (s.wr64 a v).fb = s.fb := rfl
@[simp] theorem State.wr64_ce (s : State) (a : Nat) (v : BitVec 64) : (s.wr64 a v).ce = s.ce := rfl
@[simp] theorem State.wr64_cell (s : State) (a : Nat) (v : BitVec 64) : (s.wr64 a v).cell = s.cell := rfl
@[simp] theorem State.wr64_pg (s : State) (a : Nat) (v : BitVec 64) : (s.wr64 a v).pg = s.pg := rfl
@[simp] theorem State.wr64_stl (s : State) (a : Nat) (v : BitVec 64) : (s.wr64 a v).stl = s.stl := rfl
@[simp] theorem State.wr64_sv (s : State) (a : Nat) (v : BitVec 64) : (s.wr64 a v).sv = s.sv := rfl
@[simp] theorem State.wr64_sio (s : State) (a : Nat) (v : BitVec 64) : (s.wr64 a v).sio = s.sio := rfl
@[simp] theorem State.wr64_sl (s : State) (a : Nat) (v : BitVec 64) : (s.wr64 a v).sl = s.sl := rfl
@[simp] theorem State.wr64_pr (s : State) (a : Nat) (v : BitVec 64) : (s.wr64 a v).pr = s.pr := rfl
@[simp] theorem State.wr64_qp (s : State) (a : Nat) (v : BitVec 64) : (s.wr64 a v).qp = s.qp := rfl
@[simp] theorem State.wr64_rd (s : State) (a : Nat) (v : BitVec 64) : (s.wr64 a v).rd = s.rd := rfl
@[simp] theorem State.wr64_sw (s : State) (a : Nat) (v : BitVec 64) : (s.wr64 a v).sw = s.sw := rfl
@[simp] theorem State.wr64_nt (s : State) (a : Nat) (v : BitVec 64) : (s.wr64 a v).nt = s.nt := rfl
@[simp] theorem State.wr64_can (s : State) (a : Nat) (v : BitVec 64) : (s.wr64 a v).can = s.can := rfl
@[simp] theorem State.wr64_wr (s : State) (a : Nat) (v : BitVec 64) : (s.wr64 a v).wr = s.wr := rfl
@[simp] theorem State.wr64_dr (s : State) (a : Nat) (v : BitVec 64) : (s.wr64 a v).dr = s.dr := rfl
@[simp] theorem State.wr64_er (s : State) (a : Nat) (v : BitVec 64) : (s.wr64 a v).er = s.er := rfl
@[simp] theorem State.wr64_hi (s : State) (a : Nat) (v : BitVec 64) : (s.wr64 a v).hi = s.hi := rfl
@[simp] theorem State.wr64_boot (s : State) (a : Nat) (v : BitVec 64) : (s.wr64 a v).boot = s.boot := rfl
@[simp] theorem State.wr64_pw (s : State) (a : Nat) (v : BitVec 64) : (s.wr64 a v).pw = s.pw := rfl
@[simp] theorem State.wr64_cr (s : State) (a : Nat) (v : BitVec 64) : (s.wr64 a v).cr = s.cr := rfl
@[simp] theorem State.wr64_hw (s : State) (a : Nat) (v : BitVec 64) : (s.wr64 a v).hw = s.hw := rfl
@[simp] theorem State.wr64_pend (s : State) (a : Nat) (v : BitVec 64) : (s.wr64 a v).pend = s.pend := rfl
@[simp] theorem State.wr64_mem (s : State) (a : Nat) (v : BitVec 64) : (s.wr64 a v).mem = memWriteList s.mem a (natBytes v.toNat 8) := rfl
@[simp] theorem State.wr64_out (s : State) (a : Nat) (v : BitVec 64) : (s.wr64 a v).out = s.out := rfl
@[simp] theorem State.wr64_rdata (s : State) (a : Nat) (v : BitVec 64) : (s.wr64 a v).rdata = s.rdata := rfl
@[simp] theorem State.wr64_fresh (s : State) (a : Nat) (v : BitVec 64) : (s.wr64 a v).fresh = s.fresh := rfl
@[simp] theorem State.wr64_pending (s : State) (a : Nat) (v : BitVec 64) : (s.wr64 a v).pending = s.pending := rfl

/-! `State.wrBytes` changes `mem` alone. -/

@[simp] theorem State.wrBytes_tb (s : State) (a : Nat) (b : List Byte) : (s.wrBytes a b).tb = s.tb := rfl
@[simp] theorem State.wrBytes_tr (s : State) (a : Nat) (b : List Byte) : (s.wrBytes a b).tr = s.tr := rfl
@[simp] theorem State.wrBytes_lm (s : State) (a : Nat) (b : List Byte) : (s.wrBytes a b).lm = s.lm := rfl
@[simp] theorem State.wrBytes_fb (s : State) (a : Nat) (b : List Byte) : (s.wrBytes a b).fb = s.fb := rfl
@[simp] theorem State.wrBytes_ce (s : State) (a : Nat) (b : List Byte) : (s.wrBytes a b).ce = s.ce := rfl
@[simp] theorem State.wrBytes_cell (s : State) (a : Nat) (b : List Byte) : (s.wrBytes a b).cell = s.cell := rfl
@[simp] theorem State.wrBytes_pg (s : State) (a : Nat) (b : List Byte) : (s.wrBytes a b).pg = s.pg := rfl
@[simp] theorem State.wrBytes_stl (s : State) (a : Nat) (b : List Byte) : (s.wrBytes a b).stl = s.stl := rfl
@[simp] theorem State.wrBytes_sv (s : State) (a : Nat) (b : List Byte) : (s.wrBytes a b).sv = s.sv := rfl
@[simp] theorem State.wrBytes_sio (s : State) (a : Nat) (b : List Byte) : (s.wrBytes a b).sio = s.sio := rfl
@[simp] theorem State.wrBytes_sl (s : State) (a : Nat) (b : List Byte) : (s.wrBytes a b).sl = s.sl := rfl
@[simp] theorem State.wrBytes_pr (s : State) (a : Nat) (b : List Byte) : (s.wrBytes a b).pr = s.pr := rfl
@[simp] theorem State.wrBytes_qp (s : State) (a : Nat) (b : List Byte) : (s.wrBytes a b).qp = s.qp := rfl
@[simp] theorem State.wrBytes_rd (s : State) (a : Nat) (b : List Byte) : (s.wrBytes a b).rd = s.rd := rfl
@[simp] theorem State.wrBytes_sw (s : State) (a : Nat) (b : List Byte) : (s.wrBytes a b).sw = s.sw := rfl
@[simp] theorem State.wrBytes_nt (s : State) (a : Nat) (b : List Byte) : (s.wrBytes a b).nt = s.nt := rfl
@[simp] theorem State.wrBytes_can (s : State) (a : Nat) (b : List Byte) : (s.wrBytes a b).can = s.can := rfl
@[simp] theorem State.wrBytes_wr (s : State) (a : Nat) (b : List Byte) : (s.wrBytes a b).wr = s.wr := rfl
@[simp] theorem State.wrBytes_dr (s : State) (a : Nat) (b : List Byte) : (s.wrBytes a b).dr = s.dr := rfl
@[simp] theorem State.wrBytes_er (s : State) (a : Nat) (b : List Byte) : (s.wrBytes a b).er = s.er := rfl
@[simp] theorem State.wrBytes_hi (s : State) (a : Nat) (b : List Byte) : (s.wrBytes a b).hi = s.hi := rfl
@[simp] theorem State.wrBytes_boot (s : State) (a : Nat) (b : List Byte) : (s.wrBytes a b).boot = s.boot := rfl
@[simp] theorem State.wrBytes_pw (s : State) (a : Nat) (b : List Byte) : (s.wrBytes a b).pw = s.pw := rfl
@[simp] theorem State.wrBytes_cr (s : State) (a : Nat) (b : List Byte) : (s.wrBytes a b).cr = s.cr := rfl
@[simp] theorem State.wrBytes_hw (s : State) (a : Nat) (b : List Byte) : (s.wrBytes a b).hw = s.hw := rfl
@[simp] theorem State.wrBytes_pend (s : State) (a : Nat) (b : List Byte) : (s.wrBytes a b).pend = s.pend := rfl
@[simp] theorem State.wrBytes_mem (s : State) (a : Nat) (b : List Byte) : (s.wrBytes a b).mem = memWriteList s.mem a b := rfl
@[simp] theorem State.wrBytes_out (s : State) (a : Nat) (b : List Byte) : (s.wrBytes a b).out = s.out := rfl
@[simp] theorem State.wrBytes_rdata (s : State) (a : Nat) (b : List Byte) : (s.wrBytes a b).rdata = s.rdata := rfl
@[simp] theorem State.wrBytes_fresh (s : State) (a : Nat) (b : List Byte) : (s.wrBytes a b).fresh = s.fresh := rfl
@[simp] theorem State.wrBytes_pending (s : State) (a : Nat) (b : List Byte) : (s.wrBytes a b).pending = s.pending := rfl

end Sys2Proof.Machine
end

