-- ==== Sys2Proof/Laws/Keeps.lean ====
section
/-! SUPPORT. The relation that every operation but a reset keeps between the state before and the state after: the memory stays in
canonical form, cell time does not fall, the queue of commands stays, what has left the chip stays, and the one-time-programmable
memory only gains. -/
namespace Sys2Proof.Machine

/-- The one-time-programmable memory only gains. -/
structure OtpKept (s t : State) : Prop where
  key : ∀ k, s.boot.keyHash = some k → t.boot.keyHash = some k
  svn : s.boot.minSvn.toNat ≤ t.boot.minSvn.toNat

/-- What holds between a state and the state that an operation makes of it. -/
structure Keeps (s t : State) : Prop where
  mem : Memory.wf s.mem = true → Memory.wf t.mem = true
  time : s.tb.timeFix ≤ t.tb.timeFix
  pending : t.pending = s.pending
  out : s.out <:+ t.out
  otp : OtpKept s t

theorem OtpKept.refl (s : State) : OtpKept s s := ⟨fun _ h => h, Nat.le_refl _⟩

theorem OtpKept.trans {a b c : State} (h : OtpKept a b) (g : OtpKept b c) : OtpKept a c :=
  ⟨fun k hk => g.key k (h.key k hk), Nat.le_trans h.svn g.svn⟩

theorem Keeps.refl (s : State) : Keeps s s := ⟨fun h => h, Nat.le_refl _, rfl, List.suffix_refl _, .refl s⟩

theorem Keeps.trans {a b c : State} (h : Keeps a b) (g : Keeps b c) : Keeps a c :=
  ⟨fun w => g.mem (h.mem w), Nat.le_trans h.time g.time, g.pending.trans h.pending, h.out.trans g.out, h.otp.trans g.otp⟩

/-- A state that agrees with another in the fields of the relation. -/
theorem Keeps.same {a b c : State} (h : Keeps a b) (hp : c.pending = b.pending) (hm : c.mem = b.mem) (ht : c.tb.timeFix = b.tb.timeFix)
    (ho : c.out = b.out) (hk : c.boot.keyHash = b.boot.keyHash) (hs : c.boot.minSvn = b.boot.minSvn) :
    Keeps a c :=
  ⟨fun w => hm ▸ h.mem w, ht ▸ h.time, hp.trans h.pending, ho ▸ h.out, ⟨fun k q => hk ▸ h.otp.key k q, hs ▸ h.otp.svn⟩⟩

/-- The same, with something more having left the chip. -/
theorem Keeps.send {a b c : State} (h : Keeps a b) (hp : c.pending = b.pending) (hm : c.mem = b.mem) (ht : c.tb.timeFix = b.tb.timeFix)
    (hk : c.boot.keyHash = b.boot.keyHash) (hs : c.boot.minSvn = b.boot.minSvn) (ho : b.out <:+ c.out) :
    Keeps a c :=
  ⟨fun w => hm ▸ h.mem w, ht ▸ h.time, hp.trans h.pending, h.out.trans ho, ⟨fun k q => hk ▸ h.otp.key k q, hs ▸ h.otp.svn⟩⟩

/-- The same, with memory written in canonical form. -/
theorem Keeps.store {a b c : State} (h : Keeps a b) (hp : c.pending = b.pending) (ht : c.tb.timeFix = b.tb.timeFix)
    (ho : c.out = b.out) (hk : c.boot.keyHash = b.boot.keyHash) (hs : c.boot.minSvn = b.boot.minSvn)
    (hm : Memory.wf b.mem = true → Memory.wf c.mem = true) : Keeps a c :=
  ⟨fun w => hm (h.mem w), ht ▸ h.time, hp.trans h.pending, ho ▸ h.out, ⟨fun k q => hk ▸ h.otp.key k q, hs ▸ h.otp.svn⟩⟩

/-- The same, with cell time moved on. -/
theorem Keeps.later {a b c : State} (h : Keeps a b) (hp : c.pending = b.pending) (hm : c.mem = b.mem)
    (ho : c.out = b.out) (hk : c.boot.keyHash = b.boot.keyHash) (hs : c.boot.minSvn = b.boot.minSvn)
    (ht : b.tb.timeFix ≤ c.tb.timeFix) : Keeps a c :=
  ⟨fun w => hm ▸ h.mem w, Nat.le_trans h.time ht, hp.trans h.pending, ho ▸ h.out, ⟨fun k q => hk ▸ h.otp.key k q, hs ▸ h.otp.svn⟩⟩

/-- Each change of a sequence keeps the relation, so the sequence does. -/
theorem Keeps.forEach {α : Type} {a s : State} {l : List α} {g : State → α → State} (hg : ∀ t x, Keeps t (g t x)) (h : Keeps a s) :
    Keeps a (s.forEach l g) :=
  forEach_induct (fun t => Keeps a t) l g (fun t x _ ht => ht.trans (hg t x)) s h

theorem Keeps.fold {α : Type} {a s : State} {l : List α} {g : State → α → State} (hg : ∀ t x, Keeps t (g t x)) (h : Keeps a s) :
    Keeps a (l.foldl g s) := Keeps.forEach hg h

/-- What holds between a state and the state that a reset makes of it: cell time restarts at 0, in STANDBY or OFF (R35, R450). -/
structure Restarts (s t : State) : Prop where
  mem : Memory.wf s.mem = true → Memory.wf t.mem = true
  time : t.tb.timeFix = 0
  state : t.pw.state = .standby ∨ t.pw.state = .off
  pending : t.pending = s.pending
  out : s.out <:+ t.out
  otp : OtpKept s t

/-- A change after a reset that leaves its fields alone. -/
theorem Restarts.same {a b c : State} (h : Restarts a b) (hp : c.pending = b.pending) (hm : c.mem = b.mem)
    (ht : c.tb.timeFix = b.tb.timeFix) (hw : c.pw.state = b.pw.state) (ho : b.out <:+ c.out)
    (hk : c.boot.keyHash = b.boot.keyHash) (hs : c.boot.minSvn = b.boot.minSvn) : Restarts a c :=
  ⟨fun w => hm ▸ h.mem w, ht ▸ h.time, hw ▸ h.state, hp.trans h.pending, h.out.trans ho,
    ⟨fun k q => hk ▸ h.otp.key k q, hs ▸ h.otp.svn⟩⟩

theorem Keeps.ite {a s t : State} {c : Prop} [Decidable c] (h : c → Keeps a s) (g : ¬c → Keeps a t) : Keeps a (if c then s else t) := by
  split
  · exact h ‹_›
  · exact g ‹_›

/-- Other fields than those of the relation are set. -/
theorem Keeps.upd {a b : State} {tb : TimeBase} {tr : Treadle} {lm : Loom} {fb : Feedback} {ce : ControlEngine} {cell : Cell} {pg : Profile} {stl : Vector StlLink 16} {sv : Selvedge} {sio : Sio} {sl : SafetyLayer} {pr : Pair} {qp : Churn} {rd : Reed} {sw : Switch} {nt : NetTime} {can : Can} {wr : Ring} {dr : Vector Drive 80} {er : Recorder} {hi : HostIf} {boot : Boot} {pw : Power} {cr : Clocks} {hw : Health} {pend : List Effect} {rdata : List (BitVec 32)} {fresh : Nat}
    (ht : tb.timeFix = b.tb.timeFix) (hk : boot.keyHash = b.boot.keyHash) (hs : boot.minSvn = b.boot.minSvn) (h : Keeps a b) :
    Keeps a { tb := tb, tr := tr, lm := lm, fb := fb, ce := ce, cell := cell, pg := pg, stl := stl, sv := sv, sio := sio, sl := sl, pr := pr, qp := qp, rd := rd, sw := sw, nt := nt, can := can, wr := wr, dr := dr, er := er, hi := hi, boot := boot, pw := pw, cr := cr, hw := hw, pend := pend, mem := b.mem, out := b.out, rdata := rdata, fresh := fresh, pending := b.pending } :=
  Keeps.same h rfl rfl ht rfl hk hs

/-- Memory is set too, in canonical form. -/
theorem Keeps.updMem {a b : State} {tb : TimeBase} {tr : Treadle} {lm : Loom} {fb : Feedback} {ce : ControlEngine} {cell : Cell} {pg : Profile} {stl : Vector StlLink 16} {sv : Selvedge} {sio : Sio} {sl : SafetyLayer} {pr : Pair} {qp : Churn} {rd : Reed} {sw : Switch} {nt : NetTime} {can : Can} {wr : Ring} {dr : Vector Drive 80} {er : Recorder} {hi : HostIf} {boot : Boot} {pw : Power} {cr : Clocks} {hw : Health} {pend : List Effect} {mem : List Host.Cell} {rdata : List (BitVec 32)} {fresh : Nat}
    (ht : tb.timeFix = b.tb.timeFix) (hk : boot.keyHash = b.boot.keyHash) (hs : boot.minSvn = b.boot.minSvn) (hm : Memory.wf b.mem = true → Memory.wf mem = true) (h : Keeps a b) :
    Keeps a { tb := tb, tr := tr, lm := lm, fb := fb, ce := ce, cell := cell, pg := pg, stl := stl, sv := sv, sio := sio, sl := sl, pr := pr, qp := qp, rd := rd, sw := sw, nt := nt, can := can, wr := wr, dr := dr, er := er, hi := hi, boot := boot, pw := pw, cr := cr, hw := hw, pend := pend, mem := mem, out := b.out, rdata := rdata, fresh := fresh, pending := b.pending } :=
  Keeps.store h rfl ht rfl hk hs hm

/-- Something more has left the chip. -/
theorem Keeps.updOut {a b : State} {tb : TimeBase} {tr : Treadle} {lm : Loom} {fb : Feedback} {ce : ControlEngine} {cell : Cell} {pg : Profile} {stl : Vector StlLink 16} {sv : Selvedge} {sio : Sio} {sl : SafetyLayer} {pr : Pair} {qp : Churn} {rd : Reed} {sw : Switch} {nt : NetTime} {can : Can} {wr : Ring} {dr : Vector Drive 80} {er : Recorder} {hi : HostIf} {boot : Boot} {pw : Power} {cr : Clocks} {hw : Health} {pend : List Effect} {out : List Out} {rdata : List (BitVec 32)} {fresh : Nat}
    (ht : tb.timeFix = b.tb.timeFix) (hk : boot.keyHash = b.boot.keyHash) (hs : boot.minSvn = b.boot.minSvn) (ho : b.out <:+ out) (h : Keeps a b) :
    Keeps a { tb := tb, tr := tr, lm := lm, fb := fb, ce := ce, cell := cell, pg := pg, stl := stl, sv := sv, sio := sio, sl := sl, pr := pr, qp := qp, rd := rd, sw := sw, nt := nt, can := can, wr := wr, dr := dr, er := er, hi := hi, boot := boot, pw := pw, cr := cr, hw := hw, pend := pend, mem := b.mem, out := out, rdata := rdata, fresh := fresh, pending := b.pending } :=
  Keeps.send h rfl rfl ht hk hs ho

end Sys2Proof.Machine
end

