-- ==== Sys2Proof/Laws/Micro.lean ====
section
/-! SUPPORT. What Churn's microprogram and its iteration do to memory: they keep its canonical form. -/
namespace Sys2Proof.Machine

theorem foldl_keeps {α β : Type} (P : β → Prop) (g : β → α → β) (hg : ∀ b a, P b → P (g b a)) (l : List α) (b : β) (h : P b) :
    P (l.foldl g b) := by
  induction l generalizing b with
  | nil => exact h
  | cons a r ih => exact ih _ (hg b a h)

/-- The memory is in canonical form. -/
def MemWf (m : List Host.Cell) : Prop := Memory.wf m = true

theorem p32_wf {m : List Host.Cell} (a : Nat) (v : BitVec 32) (h : MemWf m) : MemWf (p32 m a v) := memWriteList_wf _ _ _ h
theorem p64_wf {m : List Host.Cell} (a : Nat) (v : W64) (h : MemWf m) : MemWf (p64 m a v) := memWriteList_wf _ _ _ h

theorem putVec32_wf (l : List (BitVec 32)) (m : List Host.Cell) (a : Nat) (h : MemWf m) : MemWf (putVec32 m a l) := by
  induction l generalizing m a with
  | nil => exact h
  | cons v r ih => exact ih _ _ (p32_wf _ _ h)

theorem putVec64_wf (l : List W64) (m : List Host.Cell) (a : Nat) (h : MemWf m) : MemWf (putVec64 m a l) := by
  induction l generalizing m a with
  | nil => exact h
  | cons v r ih => exact ih _ _ (p64_wf _ _ h)

theorem opPerm_wf (e : MicroEnv) (i : MicroWord) (m : List Host.Cell) (h : MemWf m) : MemWf (opPerm e i m) := by
  unfold opPerm
  refine foldl_keeps MemWf _ (fun m t hm => ?_) _ _ h
  dsimp only
  split
  · exact p64_wf _ _ hm
  · exact p32_wf _ _ hm
  · exact p64_wf _ _ hm

theorem opSpmv_wf (e : MicroEnv) (i : MicroWord) (n t p : Nat) (m : List Host.Cell) (h : MemWf m) : MemWf (opSpmv e i n t p m) := by
  induction n generalizing t p m with
  | zero => exact h
  | succ n ih =>
    unfold opSpmv
    refine ih _ _ _ ?_
    split
    · exact p64_wf _ _ h
    · exact p32_wf _ _ h

theorem opFwd_wf (e : MicroEnv) (i : MicroWord) (m : List Host.Cell) (h : MemWf m) : MemWf (opFwd e i m) := by
  unfold opFwd
  exact foldl_keeps MemWf _ (fun m j hm => foldl_keeps MemWf _ (fun m r hm => p64_wf _ _ hm) _ _ hm) _ _ h

theorem opDiag_wf (e : MicroEnv) (i : MicroWord) (m : List Host.Cell) (h : MemWf m) : MemWf (opDiag e i m) := by
  unfold opDiag
  exact foldl_keeps MemWf _ (fun m j hm => p64_wf _ _ hm) _ _ h

theorem opBwd_wf (e : MicroEnv) (i : MicroWord) (m : List Host.Cell) (h : MemWf m) : MemWf (opBwd e i m) := by
  unfold opBwd
  exact foldl_keeps MemWf _ (fun m j hm => p64_wf _ _ hm) _ _ h

theorem opVset_wf (e : MicroEnv) (i : MicroWord) (m : List Host.Cell) (h : MemWf m) : MemWf (opVset e i m) := by
  unfold opVset
  refine foldl_keeps MemWf _ (fun m t hm => ?_) _ _ h
  split
  · exact p32_wf _ _ hm
  · exact p64_wf _ _ hm

/-- The memory of a running section is in canonical form. -/
def MicroWf (s : Micro) : Prop := MemWf s.mem

theorem opAscat_wf (e : MicroEnv) (i : MicroWord) (s : Micro) (h : MicroWf s) : MicroWf (opAscat e i s) := by
  unfold opAscat
  refine foldl_keeps MicroWf _ (fun s t hs => ?_) _ _ h
  exact hs

theorem outerRow_wf (e : MicroEnv) (c : Fin 8) (s : Micro) (p : Nat) (h : MicroWf s) : MicroWf (outerRow e c s p) := by
  unfold outerRow
  refine foldl_keeps MicroWf _ (fun s a hs => foldl_keeps MicroWf _ (fun s b hs => ?_) _ _ hs) _ _ h
  dsimp only
  split
  · exact hs
  · exact hs

theorem opAouter_wf (e : MicroEnv) (c : Fin 8) (n p : Nat) (s : Micro) (h : MicroWf s) : MicroWf (opAouter e c n p s) := by
  induction n generalizing p s with
  | zero => exact h
  | succ n ih => exact ih _ _ (outerRow_wf e c s p h)

theorem opAupd_wf (e : MicroEnv) (i : MicroWord) (s : Micro) (h : MicroWf s) : MicroWf (opAupd e i s) := by
  unfold opAupd
  refine foldl_keeps MicroWf _ (fun s a hs => foldl_keeps MicroWf _ (fun s b hs => ?_) _ _ hs) _ _ h
  dsimp only
  split
  · exact hs
  · exact hs

theorem factCol_wf (e : MicroEnv) (i : MicroWord) (s : Micro) (j : Nat) (h : MicroWf s) : MicroWf (factCol e i s j) := by
  unfold factCol
  exact foldl_keeps MemWf _ (fun m r hm => p32_wf _ _ hm) _ _
    (foldl_keeps MemWf _ (fun m r hm => p32_wf _ _ hm) _ _ (p32_wf _ _ h))

theorem opAstore_wf (e : MicroEnv) (i : MicroWord) (s : Micro) (h : MicroWf s) : MicroWf (opAstore e i s) := by
  unfold opAstore
  exact foldl_keeps MemWf _ (fun m r hm => p32_wf _ _ hm) _ _ h

theorem microStep_wf (e : MicroEnv) (i : MicroWord) (s : Micro) (h : MicroWf s) : MicroWf (microStep e i s) := by
  unfold microStep
  split
  · exact h
  · exact opAscat_wf e i s h
  · exact opAouter_wf e _ _ _ s h
  · exact opAupd_wf e i s h
  · exact foldl_keeps MicroWf _ (fun s j hs => factCol_wf e i s j hs) _ _ h
  · exact opAstore_wf e i s h
  · exact opPerm_wf e i _ h
  · exact opSpmv_wf e i _ _ _ _ h
  · exact opFwd_wf e i _ h
  · exact opDiag_wf e i _ h
  · exact opBwd_wf e i _ h
  · exact opVset_wf e i _ h
  · exact h

theorem runFrom_wf (e : MicroEnv) (code fuel i : Nat) (s : Micro) (h : MicroWf s) : MicroWf (runFrom e code fuel i s) := by
  induction fuel generalizing i s with
  | zero => exact h
  | succ n ih =>
    unfold runFrom
    dsimp only
    split
    · exact h
    · exact ih _ _ (microStep_wf e _ s h)

/-- A section of the microprogram keeps the canonical form. -/
theorem runSection_wf (e : MicroEnv) (sec : Nat) (m : List Host.Cell) (h : MemWf m) : MemWf (runSection e sec m).1 :=
  runFrom_wf e _ _ _ _ h

theorem mulSec_wf (e : MicroEnv) (sec n : Nat) (m : List Host.Cell) (x : List W64) (h : MemWf m) : MemWf (mulSec e sec n m x).1 :=
  runSection_wf e sec _ (putVec64_wf _ _ _ h)

theorem ksolve_wf (e : MicroEnv) (n : Nat) (m : List Host.Cell) (r : List W64) (h : MemWf m) : MemWf (ksolve e n m r).1 :=
  putVec64_wf _ _ _ (runSection_wf e 1 _ (putVec64_wf _ _ _ (putVec64_wf _ _ _ h)))

theorem applyK0_wf (e : MicroEnv) (d : QpDims) (w : List W64) (m : List Host.Cell) (x : List W64) (h : MemWf m) :
    MemWf (applyK0 e d w m x).1 := by
  unfold applyK0
  dsimp only
  iterate 5 with_reducible apply mulSec_wf
  exact h

theorem refined_wf (e : MicroEnv) (d : QpDims) (w : List W64) (m : List Host.Cell) (r : List W64) (h : MemWf m) :
    MemWf (refined e d w m r).1 :=
  runSection_wf e 1 _ (putVec64_wf _ _ _ (putVec64_wf _ _ _ (applyK0_wf e d w _ _ (ksolve_wf e _ _ _ h))))

theorem putIter_wf (m : List Host.Cell) (z y l s : List (BitVec 32)) (h : MemWf m) : MemWf (putIter m z y l s) :=
  putVec32_wf _ _ _ (putVec32_wf _ _ _ (putVec32_wf _ _ _ (putVec32_wf _ _ _ h)))

theorem result_ite {c : Prop} [Decidable c] {a b : QpResult} (h : c → MemWf a.mem) (g : ¬c → MemWf b.mem) :
    MemWf (if c then a else b).mem := by
  split
  · exact h ‹_›
  · exact g ‹_›

theorem iterate_wf (e : MicroEnv) (c : QpCfg) (d : QpDims) (a fuel it piv : Nat) (m : List Host.Cell) (h : MemWf m) :
    MemWf (iterate e c d a fuel it piv m).mem := by
  induction fuel generalizing it piv m with
  | zero => exact h
  | succ n ih =>
    unfold iterate
    extract_lets z32 y32 l32 s32 z y l s q b hh pz aty gtl az gz m0 rd rp ri sl mm mu np nd bp bd bg norms w32 w f nrp t1 k1 dz1 g1 dl1
      ds1 a1 muAff ra sm rc rcs t2 k2 dz dy g2 dl32 ds32 dl ds st upd_ z' y' l' s' m1
    have hm0 : MemWf m0 := by
      simp only [m0, gz, az, gtl, aty, pz]
      iterate 5 with_reducible apply mulSec_wf
      exact h
    refine result_ite (fun _ => hm0) (fun _ => result_ite (fun _ => hm0) (fun _ => ?_))
    have hm1 : MemWf m1 := by
      simp only [m1, g2, k2, t2, g1, k1, t1, f]
      refine putIter_wf _ _ _ _ _ (putVec32_wf _ _ _ (putVec32_wf _ _ _ ?_))
      with_reducible apply mulSec_wf
      with_reducible apply refined_wf
      with_reducible apply mulSec_wf
      with_reducible apply mulSec_wf
      with_reducible apply ksolve_wf
      with_reducible apply mulSec_wf
      with_reducible apply runSection_wf
      exact putVec32_wf _ _ _ hm0
    exact result_ite (fun _ => ih _ _ _ hm1) (fun _ => hm1)

theorem startIter_wf (m : List Host.Cell) (a : Nat) (d : QpDims) (h : MemWf m) : MemWf (startIter m a d) := by
  unfold startIter
  split
  · exact putIter_wf _ _ _ _ _ h
  · exact putIter_wf _ _ _ _ _ h

/-- A solve keeps the canonical form. -/
theorem qpSolve_wf (c : QpCfg) (a : Nat) (m : List Host.Cell) (h : Memory.wf m = true) : Memory.wf (qpSolve c a m).mem = true := by
  unfold qpSolve
  dsimp only
  split
  · exact iterate_wf _ _ _ _ _ _ _ _ (startIter_wf m a _ h)
  · exact h

end Sys2Proof.Machine
end

