-- ==== Sys2Proof/Laws/Keeps1.lean ====
section
/-! SUPPORT. Each operation and each command of the files Ops.lean, Access.lean, PairBase.lean, ServoBase.lean, RingBase.lean, FbBase.lean, Axes.lean, Feedback.lean, Engine.lean, Operands.lean keeps the relation `Keeps`: memory stays in
canonical form, cell time does not fall, and the queue, what has left the chip and the one-time-programmable memory stand. -/
namespace Sys2Proof.Machine

/-! ### Ops.lean -/

/-- The outcome is a next state that keeps the relation. -/
inductive KeepsR (s : State) : Res → Prop where
  | next {t : State} (h : Keeps s t) : KeepsR s (.next t)
/-- The outcome is a next state that keeps the relation, or the state after a reset. -/
inductive KeepsOrRestarts (s : State) : Res → Prop where
  | next {t : State} (h : Keeps s t) : KeepsOrRestarts s (.next t)
  | restart {t : State} (h : Restarts s t) : KeepsOrRestarts s (.next t)
theorem KeepsR.ite {s : State} {c : Prop} [Decidable c] {a b : Res} (h : c → KeepsR s a) (g : ¬c → KeepsR s b) :
    KeepsR s (if c then a else b) := by
  split
  · exact h ‹_›
  · exact g ‹_›
theorem Keeps.iteSnd {α : Type} {a : State} {x y : α × State} {c : Prop} [Decidable c] (h : c → Keeps a x.2) (g : ¬c → Keeps a y.2) :
    Keeps a (if c then x else y).2 := by
  split
  · exact h ‹_›
  · exact g ‹_›
theorem Keeps.iteFst {α : Type} {a : State} {x y : State × α} {c : Prop} [Decidable c] (h : c → Keeps a x.1) (g : ¬c → Keeps a y.1) :
    Keeps a (if c then x else y).1 := by
  split
  · exact h ‹_›
  · exact g ‹_›
theorem KeepsOrRestarts.ite {s : State} {c : Prop} [Decidable c] {a b : Res} (h : c → KeepsOrRestarts s a)
    (g : ¬c → KeepsOrRestarts s b) : KeepsOrRestarts s (if c then a else b) := by
  split
  · exact h ‹_›
  · exact g ‹_›
theorem KeepsOrRestarts.of {s t : State} (h : Keeps s t ∨ Restarts s t) : KeepsOrRestarts s (.next t) := by
  rcases h with h | h
  · exact .next h
  · exact .restart h

theorem State.reach_keeps {s0 s : State} (t : Nat) (h : Keeps s0 s) : Keeps s0 (s.reach t) := by
  unfold State.reach
  refine Keeps.ite (fun c => ?_) (fun _ => h)
  exact Keeps.later h rfl rfl rfl rfl rfl (Nat.le_of_lt c)

theorem State.wr32_keeps {s0 s : State} (a : Nat) (v : BitVec 32) (h : Keeps s0 s) : Keeps s0 (s.wr32 a v) :=
  Keeps.store h rfl rfl rfl rfl rfl (fun w => memWriteList_wf _ _ _ w)

theorem State.wr64_keeps {s0 s : State} (a : Nat) (v : BitVec 64) (h : Keeps s0 s) : Keeps s0 (s.wr64 a v) :=
  Keeps.store h rfl rfl rfl rfl rfl (fun w => memWriteList_wf _ _ _ w)

theorem State.wrBytes_keeps {s0 s : State} (a : Nat) (b : List Byte) (h : Keeps s0 s) : Keeps s0 (s.wrBytes a b) :=
  Keeps.store h rfl rfl rfl rfl rfl (fun w => memWriteList_wf _ _ _ w)

theorem State.raise_keeps {s0 s : State} (v : Fin 64) (h : Keeps s0 s) : Keeps s0 (s.raise v) := by
  unfold State.raise
  dsimp only
  refine Keeps.ite (fun _ => Keeps.ite (fun _ => ?_) (fun _ => ?_)) (fun _ => h)
  · exact Keeps.same h rfl rfl rfl rfl rfl rfl
  · exact Keeps.send h rfl rfl rfl rfl rfl (List.suffix_cons _ _)

theorem irqWatch_keeps {s0 : State} (v : Fin 64) (level : State → Bool) (s : State) {s' : State} (h : Keeps s0 s') :
    Keeps s0 (irqWatch v level s s') := by
  unfold irqWatch
  refine Keeps.ite (fun _ => ?_) (fun _ => h)
  exact State.raise_keeps v h

theorem mergeAt_wf (m : List Host.Cell) (base size p : Nat) (r : Rec) (h : Memory.wf m = true) :
    Memory.wf (mergeAt m base size p r) = true := by
  unfold mergeAt
  dsimp only
  refine ringPut_wf _ _ _ _ _ ?_
  split
  · exact ringPut_wf _ _ _ _ _ h
  · exact ringPut_wf _ _ _ _ _ h

theorem RecRing.append_wf (g : RecRing) (base size : Nat) (m : List Host.Cell) (r : Rec) (h : Memory.wf m = true) :
    Memory.wf (g.append base size m r).2 = true := by
  unfold RecRing.append
  exact ringPut_wf _ _ _ _ _ h

theorem RecRing.logPut_wf (g : RecRing) (base : Nat) (m : List Host.Cell) (r : Rec) (h : Memory.wf m = true) :
    Memory.wf (g.logPut base m r).2 = true := by
  unfold RecRing.logPut
  split
  · split
    · exact mergeAt_wf _ _ _ _ _ h
    · exact RecRing.append_wf _ _ _ _ _ h
  · exact RecRing.append_wf _ _ _ _ _ h

theorem State.logSafety_keeps {s0 s : State} (b : Bool) (r : Rec) (h : Keeps s0 s) : Keeps s0 (s.logSafety b r) := by
  refine Keeps.store h rfl rfl rfl rfl rfl (fun w => ?_)
  exact RecRing.logPut_wf _ _ _ _ w

theorem State.erSet_keeps {sK s : State} (i : Nat) (hK : Keeps sK s) : Keeps sK (State.erSet s i) := by
  unfold State.erSet
  try dsimp only
  repeat' first
    | with_reducible assumption
    | with_reducible exact Keeps.refl _
    | with_reducible apply irqWatch_keeps
    | with_reducible refine Keeps.ite (fun _ => ?_) (fun _ => ?_)
    | split
    | with_reducible refine Keeps.upd rfl rfl rfl ?_

theorem State.stage_keeps {sK s : State} (r : Rec) (hK : Keeps sK s) : Keeps sK (State.stage s r) := by
  unfold State.stage
  try dsimp only
  repeat' first
    | with_reducible assumption
    | with_reducible exact Keeps.refl _
    | with_reducible apply State.erSet_keeps
    | with_reducible refine Keeps.ite (fun _ => ?_) (fun _ => ?_)
    | split
    | with_reducible refine Keeps.upd rfl rfl rfl ?_

theorem State.emit_keeps {sK s : State} (src : Nat) (code : BitVec 12) (payload : List (BitVec 32)) (hK : Keeps sK s) : Keeps sK (State.emit s src code payload) := by
  unfold State.emit
  try dsimp only
  repeat' first
    | with_reducible assumption
    | with_reducible exact Keeps.refl _
    | with_reducible apply State.stage_keeps

theorem State.emitSafe_keeps {sK s : State} (b : Bool) (src : Nat) (code : BitVec 12) (payload : List (BitVec 32)) (hK : Keeps sK s) : Keeps sK (State.emitSafe s b src code payload) := by
  unfold State.emitSafe
  try dsimp only
  repeat' first
    | with_reducible assumption
    | with_reducible exact Keeps.refl _
    | with_reducible apply State.logSafety_keeps
    | with_reducible apply State.stage_keeps

theorem State.takeFresh_keeps {s0 s : State} (h : Keeps s0 s) : Keeps s0 s.takeFresh.2 := Keeps.same h rfl rfl rfl rfl rfl rfl

/-! ### Access.lean -/

theorem State.modAxis_keeps {sK s : State} (a : Fin 80) (g : Axis → Axis) (hK : Keeps sK s) : Keeps sK (State.modAxis s a g) := by
  unfold State.modAxis
  try dsimp only
  repeat' first
    | with_reducible assumption
    | with_reducible exact Keeps.refl _
    | with_reducible refine Keeps.ite (fun _ => ?_) (fun _ => ?_)
    | split
    | with_reducible refine Keeps.upd rfl rfl rfl ?_

theorem State.modArm_keeps {sK s : State} (r : Fin 8) (g : Arm → Arm) (hK : Keeps sK s) : Keeps sK (State.modArm s r g) := by
  unfold State.modArm
  try dsimp only
  repeat' first
    | with_reducible assumption
    | with_reducible exact Keeps.refl _
    | with_reducible refine Keeps.ite (fun _ => ?_) (fun _ => ?_)
    | split
    | with_reducible refine Keeps.upd rfl rfl rfl ?_

theorem State.modCh_keeps {sK s : State} (c : Fin 96) (g : FbCh → FbCh) (hK : Keeps sK s) : Keeps sK (State.modCh s c g) := by
  unfold State.modCh
  try dsimp only
  repeat' first
    | with_reducible assumption
    | with_reducible exact Keeps.refl _
    | with_reducible refine Keeps.ite (fun _ => ?_) (fun _ => ?_)
    | split
    | with_reducible refine Keeps.upd rfl rfl rfl ?_

theorem State.modSlice_keeps {sK s : State} (a : Fin 80) (g : Slice → Slice) (hK : Keeps sK s) : Keeps sK (State.modSlice s a g) := by
  unfold State.modSlice
  try dsimp only
  repeat' first
    | with_reducible assumption
    | with_reducible exact Keeps.refl _
    | with_reducible refine Keeps.ite (fun _ => ?_) (fun _ => ?_)
    | split
    | with_reducible refine Keeps.upd rfl rfl rfl ?_

theorem State.modPax_keeps {sK s : State} (a : Fin 80) (g : PgAxis → PgAxis) (hK : Keeps sK s) : Keeps sK (State.modPax s a g) := by
  unfold State.modPax
  try dsimp only
  repeat' first
    | with_reducible assumption
    | with_reducible exact Keeps.refl _
    | with_reducible refine Keeps.ite (fun _ => ?_) (fun _ => ?_)
    | split
    | with_reducible refine Keeps.upd rfl rfl rfl ?_

theorem State.fbSet_keeps {sK s : State} (c : Fin 96) (i : Nat) (hK : Keeps sK s) : Keeps sK (State.fbSet s c i) := by
  unfold State.fbSet
  try dsimp only
  repeat' first
    | with_reducible assumption
    | with_reducible exact Keeps.refl _
    | with_reducible apply irqWatch_keeps
    | with_reducible apply State.modCh_keeps

theorem State.ceSet_keeps {sK s : State} (a : Fin 80) (i : Nat) (hK : Keeps sK s) : Keeps sK (State.ceSet s a i) := by
  unfold State.ceSet
  try dsimp only
  repeat' first
    | with_reducible assumption
    | with_reducible exact Keeps.refl _
    | with_reducible apply irqWatch_keeps
    | with_reducible apply State.modSlice_keeps

theorem State.pgSet_keeps {sK s : State} (a : Fin 80) (i : Nat) (hK : Keeps sK s) : Keeps sK (State.pgSet s a i) := by
  unfold State.pgSet
  try dsimp only
  repeat' first
    | with_reducible assumption
    | with_reducible exact Keeps.refl _
    | with_reducible apply irqWatch_keeps
    | with_reducible apply State.modPax_keeps

/-! ### PairBase.lean -/

theorem State.modPr_keeps {sK s : State} (g : Pair → Pair) (hK : Keeps sK s) : Keeps sK (State.modPr s g) := by
  unfold State.modPr
  try dsimp only
  repeat' first
    | with_reducible assumption
    | with_reducible exact Keeps.refl _
    | with_reducible refine Keeps.ite (fun _ => ?_) (fun _ => ?_)
    | split
    | with_reducible refine Keeps.upd rfl rfl rfl ?_

theorem State.prSet_keeps {sK s : State} (i : Nat) (hK : Keeps sK s) : Keeps sK (State.prSet s i) := by
  unfold State.prSet
  try dsimp only
  repeat' first
    | with_reducible assumption
    | with_reducible exact Keeps.refl _
    | with_reducible apply irqWatch_keeps
    | with_reducible apply State.modPr_keeps

theorem State.pairSend_keeps {sK s : State} (ty : Nat) (tag : BitVec 32) (p : List (BitVec 32)) (hK : Keeps sK s) : Keeps sK (State.pairSend s ty tag p) := by
  unfold State.pairSend
  try dsimp only
  repeat' first
    | with_reducible assumption
    | with_reducible exact Keeps.refl _
    | with_reducible refine Keeps.ite (fun _ => ?_) (fun _ => ?_)
    | with_reducible refine Keeps.forEach (fun _ _ => ?_) ?_
    | split
    | with_reducible refine Keeps.upd rfl rfl rfl ?_
    | with_reducible refine Keeps.updOut rfl rfl rfl (List.suffix_cons _ _) ?_

theorem State.pairCtl_keeps {sK s : State} (c : PairCtl) (hK : Keeps sK s) : Keeps sK (State.pairCtl s c) := by
  unfold State.pairCtl
  try dsimp only
  repeat' first
    | with_reducible assumption
    | with_reducible exact Keeps.refl _
    | with_reducible refine Keeps.ite (fun _ => ?_) (fun _ => ?_)
    | split
    | with_reducible refine Keeps.upd rfl rfl rfl ?_
    | with_reducible refine Keeps.updOut rfl rfl rfl (List.suffix_cons _ _) ?_

theorem State.sendHeartbeat_keeps {sK s : State}  (hK : Keeps sK s) : Keeps sK (State.sendHeartbeat s) := by
  unfold State.sendHeartbeat
  try dsimp only
  repeat' first
    | with_reducible assumption
    | with_reducible exact Keeps.refl _
    | with_reducible apply State.modPr_keeps
    | with_reducible apply State.pairSend_keeps
    | with_reducible refine Keeps.ite (fun _ => ?_) (fun _ => ?_)
    | split
    | with_reducible refine Keeps.upd rfl rfl rfl ?_
    | with_reducible refine Keeps.updOut rfl rfl rfl (List.suffix_cons _ _) ?_

theorem State.alvLow_keeps {sK s : State}  (hK : Keeps sK s) : Keeps sK (State.alvLow s) := by
  unfold State.alvLow
  try dsimp only
  repeat' first
    | with_reducible assumption
    | with_reducible exact Keeps.refl _
    | with_reducible refine Keeps.ite (fun _ => ?_) (fun _ => ?_)
    | split
    | with_reducible refine Keeps.upd rfl rfl rfl ?_
    | with_reducible refine Keeps.updOut rfl rfl rfl (List.suffix_cons _ _) ?_

theorem State.pairBad_keeps {sK s : State} (n : Nat) (hK : Keeps sK s) : Keeps sK (State.pairBad s n) := by
  unfold State.pairBad
  try dsimp only
  repeat' first
    | with_reducible assumption
    | with_reducible exact Keeps.refl _
    | with_reducible apply State.modPr_keeps

/-! ### ServoBase.lean -/

theorem State.modNt_keeps {sK s : State} (g : NetTime → NetTime) (hK : Keeps sK s) : Keeps sK (State.modNt s g) := by
  unfold State.modNt
  try dsimp only
  repeat' first
    | with_reducible assumption
    | with_reducible exact Keeps.refl _
    | with_reducible refine Keeps.ite (fun _ => ?_) (fun _ => ?_)
    | split
    | with_reducible refine Keeps.upd rfl rfl rfl ?_

theorem State.ntSet_keeps {sK s : State} (i : Nat) (hK : Keeps sK s) : Keeps sK (State.ntSet s i) := by
  unfold State.ntSet
  try dsimp only
  repeat' first
    | with_reducible assumption
    | with_reducible exact Keeps.refl _
    | with_reducible apply irqWatch_keeps
    | with_reducible apply State.modNt_keeps

theorem State.ntState_keeps {sK s : State} (st : NtState) (hK : Keeps sK s) : Keeps sK (State.ntState s st) := by
  unfold State.ntState
  try dsimp only
  repeat' first
    | with_reducible assumption
    | with_reducible exact Keeps.refl _
    | with_reducible apply State.modNt_keeps
    | with_reducible apply State.ntSet_keeps
    | with_reducible apply State.emit_keeps
    | with_reducible refine Keeps.ite (fun _ => ?_) (fun _ => ?_)

theorem State.ntHold_keeps {sK s : State} (f : Int) (hK : Keeps sK s) : Keeps sK (State.ntHold s f) := by
  unfold State.ntHold
  try dsimp only
  repeat' first
    | with_reducible assumption
    | with_reducible exact Keeps.refl _
    | with_reducible apply State.modNt_keeps
    | with_reducible apply State.ntState_keeps
    | with_reducible refine Keeps.ite (fun _ => ?_) (fun _ => ?_)

theorem State.ntSwitch_keeps {sK s : State} (cause : Nat) (hK : Keeps sK s) : Keeps sK (State.ntSwitch s cause) := by
  unfold State.ntSwitch
  try dsimp only
  repeat' first
    | with_reducible assumption
    | with_reducible exact Keeps.refl _
    | with_reducible apply State.modNt_keeps
    | with_reducible apply State.ntSet_keeps
    | with_reducible apply State.emit_keeps

theorem State.ntReturn_keeps {sK s : State}  (hK : Keeps sK s) : Keeps sK (State.ntReturn s) := by
  unfold State.ntReturn
  try dsimp only
  repeat' first
    | with_reducible assumption
    | with_reducible exact Keeps.refl _
    | with_reducible apply State.modPr_keeps
    | with_reducible apply State.ntState_keeps
    | with_reducible apply State.ntSwitch_keeps
    | with_reducible apply State.modNt_keeps
    | with_reducible refine Keeps.ite (fun _ => ?_) (fun _ => ?_)

/-! ### RingBase.lean -/

theorem State.modWr_keeps {sK s : State} (g : Ring → Ring) (hK : Keeps sK s) : Keeps sK (State.modWr s g) := by
  unfold State.modWr
  try dsimp only
  repeat' first
    | with_reducible assumption
    | with_reducible exact Keeps.refl _
    | with_reducible refine Keeps.ite (fun _ => ?_) (fun _ => ?_)
    | split
    | with_reducible refine Keeps.upd rfl rfl rfl ?_

theorem State.ringState_keeps {sK s : State} (st : RingState) (hK : Keeps sK s) : Keeps sK (State.ringState s st) := by
  unfold State.ringState
  try dsimp only
  repeat' first
    | with_reducible assumption
    | with_reducible exact Keeps.refl _
    | with_reducible apply State.modWr_keeps
    | with_reducible apply State.emit_keeps
    | with_reducible apply State.ntReturn_keeps
    | with_reducible refine Keeps.ite (fun _ => ?_) (fun _ => ?_)

theorem State.ringRelay_keeps {sK s : State}  (hK : Keeps sK s) : Keeps sK (State.ringRelay s) := by
  unfold State.ringRelay
  try dsimp only
  repeat' first
    | with_reducible assumption
    | with_reducible exact Keeps.refl _
    | with_reducible apply State.ringState_keeps
    | with_reducible apply State.ntHold_keeps
    | with_reducible refine Keeps.ite (fun _ => ?_) (fun _ => ?_)
    | split
    | with_reducible refine Keeps.upd rfl rfl rfl ?_
    | with_reducible refine Keeps.updOut rfl rfl rfl (List.suffix_cons _ _) ?_

/-! ### FbBase.lean -/

theorem State.trace_keeps {sK s : State} (c : Fin 96) (kind : BitVec 2) (count : Int) (t : Nat) (hK : Keeps sK s) : Keeps sK (State.trace s c kind count t) := by
  unfold State.trace
  try dsimp only
  repeat' first
    | with_reducible assumption
    | with_reducible exact Keeps.refl _
    | with_reducible refine Keeps.ite (fun _ => ?_) (fun _ => ?_)
    | split
    | with_reducible refine Keeps.upd rfl rfl rfl ?_

theorem State.driveTrig_keeps {sK s : State} (t : Fin 8) (active : Bool) (hK : Keeps sK s) : Keeps sK (State.driveTrig s t active) := by
  unfold State.driveTrig
  try dsimp only
  repeat' first
    | with_reducible assumption
    | with_reducible exact Keeps.refl _
    | with_reducible refine Keeps.ite (fun _ => ?_) (fun _ => ?_)
    | split
    | with_reducible refine Keeps.upd rfl rfl rfl ?_
    | with_reducible refine Keeps.updOut rfl rfl rfl (List.suffix_cons _ _) ?_

theorem State.fireCompare_keeps {sK s : State} (c : Fin 96) (t : Nat) (hK : Keeps sK s) : Keeps sK (State.fireCompare s c t) := by
  unfold State.fireCompare
  try dsimp only
  repeat' first
    | with_reducible assumption
    | with_reducible exact Keeps.refl _
    | with_reducible apply State.modCh_keeps
    | with_reducible apply State.fbSet_keeps
    | with_reducible apply State.driveTrig_keeps
    | with_reducible refine Keeps.ite (fun _ => ?_) (fun _ => ?_)
    | split
    | with_reducible refine Keeps.upd rfl rfl rfl ?_

theorem State.reportEdge_keeps {sK s : State} (c : Fin 96) (rep : Int) (d : Int) (t : Nat) (k : Nat) (hK : Keeps sK s) : Keeps sK (State.reportEdge s c rep d t k) := by
  unfold State.reportEdge
  try dsimp only
  repeat' first
    | with_reducible assumption
    | with_reducible exact Keeps.refl _
    | with_reducible apply State.modCh_keeps
    | with_reducible apply State.fbSet_keeps
    | with_reducible apply State.trace_keeps
    | with_reducible apply State.fireCompare_keeps
    | with_reducible refine Keeps.ite (fun _ => ?_) (fun _ => ?_)

theorem State.follow_keeps {sK s : State} (c : Fin 96) (d : Int) (t : Nat) (hK : Keeps sK s) : Keeps sK (State.follow s c d t) := by
  unfold State.follow
  try dsimp only
  repeat' first
    | with_reducible assumption
    | with_reducible exact Keeps.refl _
    | with_reducible apply State.reportEdge_keeps
    | with_reducible refine Keeps.ite (fun _ => ?_) (fun _ => ?_)

theorem State.enterNormal_keeps {sK s : State} (c : Fin 96) (hK : Keeps sK s) : Keeps sK (State.enterNormal s c) := by
  unfold State.enterNormal
  try dsimp only
  repeat' first
    | with_reducible assumption
    | with_reducible exact Keeps.refl _
    | with_reducible apply State.modCh_keeps
    | with_reducible apply State.reportEdge_keeps
    | with_reducible refine Keeps.ite (fun _ => ?_) (fun _ => ?_)

theorem State.setFbMode_keeps {sK s : State} (c : Fin 96) (m : FbMode) (hK : Keeps sK s) : Keeps sK (State.setFbMode s c m) := by
  unfold State.setFbMode
  try dsimp only
  repeat' first
    | with_reducible assumption
    | with_reducible exact Keeps.refl _
    | with_reducible apply State.enterNormal_keeps
    | with_reducible apply State.modCh_keeps
    | with_reducible refine Keeps.ite (fun _ => ?_) (fun _ => ?_)

theorem State.modeAuto_keeps {sK s : State} (a : Fin 80) (hK : Keeps sK s) : Keeps sK (State.modeAuto s a) := by
  unfold State.modeAuto
  try dsimp only
  repeat' first
    | with_reducible assumption
    | with_reducible exact Keeps.refl _
    | with_reducible apply State.enterNormal_keeps
    | with_reducible apply State.fbSet_keeps
    | with_reducible apply State.emit_keeps
    | with_reducible refine Keeps.ite (fun _ => ?_) (fun _ => ?_)
    | with_reducible refine Keeps.forEach (fun _ _ => ?_) ?_

theorem State.shiftChannel_keeps {sK s : State} (c : Fin 96) (n : Int) (hK : Keeps sK s) : Keeps sK (State.shiftChannel s c n) := by
  unfold State.shiftChannel
  try dsimp only
  repeat' first
    | with_reducible assumption
    | with_reducible exact Keeps.refl _
    | with_reducible apply State.modCh_keeps
    | with_reducible apply State.fbSet_keeps
    | with_reducible refine Keeps.ite (fun _ => ?_) (fun _ => ?_)

theorem State.fbConfig_keeps {sK s : State} (c : Fin 96) (bad : Bool) (put : FbCh → FbCh) (hK : Keeps sK s) : Keeps sK (State.fbConfig s c bad put) := by
  unfold State.fbConfig
  try dsimp only
  repeat' first
    | with_reducible assumption
    | with_reducible exact Keeps.refl _
    | with_reducible apply State.fbSet_keeps
    | with_reducible apply State.modCh_keeps
    | with_reducible refine Keeps.ite (fun _ => ?_) (fun _ => ?_)

/-! ### Axes.lean -/

theorem State.leaveArm_keeps {sK s : State} (a : Fin 80) (hK : Keeps sK s) : Keeps sK (State.leaveArm s a) := by
  unfold State.leaveArm
  try dsimp only
  repeat' first
    | with_reducible assumption
    | with_reducible exact Keeps.refl _
    | with_reducible apply State.modPax_keeps
    | with_reducible refine Keeps.ite (fun _ => ?_) (fun _ => ?_)
    | split
    | with_reducible refine Keeps.upd rfl rfl rfl ?_

theorem State.stopAxis_keeps {sK s : State} (a : Fin 80) (quick safety : Bool) (hK : Keeps sK s) : Keeps sK (State.stopAxis s a quick safety) := by
  unfold State.stopAxis
  try dsimp only
  repeat' first
    | with_reducible assumption
    | with_reducible exact Keeps.refl _
    | with_reducible apply State.leaveArm_keeps
    | with_reducible apply State.modPax_keeps
    | with_reducible apply State.modAxis_keeps

theorem State.loseMaster_keeps {sK s : State} (a : Fin 80) (hK : Keeps sK s) : Keeps sK (State.loseMaster s a) := by
  unfold State.loseMaster
  try dsimp only
  repeat' first
    | with_reducible assumption
    | with_reducible exact Keeps.refl _
    | with_reducible apply State.stopAxis_keeps
    | with_reducible apply State.pgSet_keeps
    | with_reducible apply State.emit_keeps
    | with_reducible refine Keeps.ite (fun _ => ?_) (fun _ => ?_)
    | with_reducible refine Keeps.forEach (fun _ _ => ?_) ?_

theorem State.setAxis_keeps {sK s : State} (a : Fin 80) (st : AxisState) (hK : Keeps sK s) : Keeps sK (State.setAxis s a st) := by
  unfold State.setAxis
  try dsimp only
  repeat' first
    | with_reducible assumption
    | with_reducible exact Keeps.refl _
    | with_reducible apply State.modAxis_keeps
    | with_reducible apply State.modeAuto_keeps
    | with_reducible apply State.leaveArm_keeps
    | with_reducible apply State.modPax_keeps
    | with_reducible apply State.loseMaster_keeps
    | with_reducible refine Keeps.ite (fun _ => ?_) (fun _ => ?_)
    | split

theorem State.faultAxis_keeps {sK s : State} (a : Fin 80) (hK : Keeps sK s) : Keeps sK (State.faultAxis s a) := by
  unfold State.faultAxis
  try dsimp only
  repeat' first
    | with_reducible assumption
    | with_reducible exact Keeps.refl _
    | with_reducible apply State.setAxis_keeps
    | with_reducible refine Keeps.ite (fun _ => ?_) (fun _ => ?_)

theorem State.holdAxis_keeps {sK s : State} (a : Fin 80) (x : Int) (hK : Keeps sK s) : Keeps sK (State.holdAxis s a x) := by
  unfold State.holdAxis
  try dsimp only
  repeat' first
    | with_reducible assumption
    | with_reducible exact Keeps.refl _
    | with_reducible apply State.leaveArm_keeps
    | with_reducible apply State.modPax_keeps
    | with_reducible apply State.setAxis_keeps

theorem State.shiftAxis_keeps {sK s : State} (a : Fin 80) (d : Int) (hK : Keeps sK s) : Keeps sK (State.shiftAxis s a d) := by
  unfold State.shiftAxis
  try dsimp only
  repeat' first
    | with_reducible assumption
    | with_reducible exact Keeps.refl _
    | with_reducible apply State.modSlice_keeps
    | with_reducible apply State.shiftChannel_keeps
    | with_reducible refine Keeps.ite (fun _ => ?_) (fun _ => ?_)
    | with_reducible refine Keeps.forEach (fun _ _ => ?_) ?_

theorem State.shiftCommand_keeps {sK s : State} (a : Fin 80) (d : Int) (hK : Keeps sK s) : Keeps sK (State.shiftCommand s a d) := by
  unfold State.shiftCommand
  try dsimp only
  repeat' first
    | with_reducible assumption
    | with_reducible exact Keeps.refl _
    | with_reducible apply State.modSlice_keeps
    | with_reducible apply State.modPax_keeps

theorem State.startMove_keeps {sK s : State} (a : Fin 80) (target : Int) (w : Option (Int × Int × Int)) (hK : Keeps sK s) : Keeps sK (State.startMove s a target w) := by
  unfold State.startMove
  try dsimp only
  repeat' first
    | with_reducible assumption
    | with_reducible exact Keeps.refl _
    | with_reducible apply State.leaveArm_keeps
    | with_reducible apply State.modPax_keeps
    | with_reducible apply State.setAxis_keeps

theorem State.startSeg_keeps {sK s : State} (a : Fin 80) (slot : Fin 8) (hK : Keeps sK s) : Keeps sK (State.startSeg s a slot) := by
  unfold State.startSeg
  try dsimp only
  repeat' first
    | with_reducible assumption
    | with_reducible exact Keeps.refl _
    | with_reducible apply State.modPax_keeps
    | with_reducible apply State.setAxis_keeps

theorem State.stopArmMove_keeps {sK s : State} (r : Fin 8) (quick safety : Bool) (hK : Keeps sK s) : Keeps sK (State.stopArmMove s r quick safety) := by
  unfold State.stopArmMove
  try dsimp only
  repeat' first
    | with_reducible assumption
    | with_reducible exact Keeps.refl _
    | with_reducible apply State.modPax_keeps
    | with_reducible apply State.modAxis_keeps
    | with_reducible refine Keeps.ite (fun _ => ?_) (fun _ => ?_)
    | with_reducible refine Keeps.forEach (fun _ _ => ?_) ?_
    | split
    | with_reducible refine Keeps.upd rfl rfl rfl ?_

theorem State.effectStop_keeps {sK s : State} (a : Fin 80) (quick safety : Bool) (hK : Keeps sK s) : Keeps sK (State.effectStop s a quick safety) := by
  unfold State.effectStop
  try dsimp only
  repeat' first
    | with_reducible assumption
    | with_reducible exact Keeps.refl _
    | with_reducible apply State.stopAxis_keeps
    | with_reducible refine Keeps.ite (fun _ => ?_) (fun _ => ?_)
    | split

theorem State.effectArmStop_keeps {sK s : State} (r : Fin 8) (quick safety : Bool) (hK : Keeps sK s) : Keeps sK (State.effectArmStop s r quick safety) := by
  unfold State.effectArmStop
  try dsimp only
  repeat' first
    | with_reducible assumption
    | with_reducible exact Keeps.refl _
    | with_reducible apply State.stopArmMove_keeps
    | with_reducible apply State.effectStop_keeps
    | with_reducible refine Keeps.ite (fun _ => ?_) (fun _ => ?_)
    | with_reducible refine Keeps.forEach (fun _ _ => ?_) ?_

theorem State.stopEnded_keeps {sK s : State} (a : Fin 80) (x : Int) (hK : Keeps sK s) : Keeps sK (State.stopEnded s a x) := by
  unfold State.stopEnded
  try dsimp only
  repeat' first
    | with_reducible assumption
    | with_reducible exact Keeps.refl _
    | with_reducible apply State.faultAxis_keeps
    | with_reducible apply State.setAxis_keeps
    | with_reducible apply State.holdAxis_keeps
    | with_reducible refine Keeps.ite (fun _ => ?_) (fun _ => ?_)

theorem State.moveEnded_keeps {sK s : State} (a : Fin 80) (x : Int) (hK : Keeps sK s) : Keeps sK (State.moveEnded s a x) := by
  unfold State.moveEnded
  try dsimp only
  repeat' first
    | with_reducible assumption
    | with_reducible exact Keeps.refl _
    | with_reducible apply State.modPax_keeps
    | with_reducible apply State.holdAxis_keeps
    | with_reducible apply State.pgSet_keeps
    | with_reducible refine Keeps.ite (fun _ => ?_) (fun _ => ?_)

/-! ### Feedback.lean -/

theorem State.channelFault_keeps {sK s : State} (c : Fin 96) (cause : BitVec 4) (hK : Keeps sK s) : Keeps sK (State.channelFault s c cause) := by
  unfold State.channelFault
  try dsimp only
  repeat' first
    | with_reducible assumption
    | with_reducible exact Keeps.refl _
    | with_reducible apply State.modCh_keeps
    | with_reducible apply State.fbSet_keeps
    | with_reducible apply State.emit_keeps
    | with_reducible apply State.faultAxis_keeps
    | with_reducible refine Keeps.ite (fun _ => ?_) (fun _ => ?_)

theorem State.rawEdge_keeps {sK s : State} (c : Fin 96) (d : Int) (t : Nat) (hK : Keeps sK s) : Keeps sK (State.rawEdge s c d t) := by
  unfold State.rawEdge
  try dsimp only
  repeat' first
    | with_reducible assumption
    | with_reducible exact Keeps.refl _
    | with_reducible apply State.channelFault_keeps
    | with_reducible apply State.modCh_keeps
    | with_reducible apply State.trace_keeps
    | with_reducible apply State.follow_keeps
    | with_reducible refine Keeps.ite (fun _ => ?_) (fun _ => ?_)

theorem execFbEdge_keeps (c : Fin 96) (a b : Option Bool) (s : State) : KeepsR s (execFbEdge c a b s) := by
  unfold execFbEdge
  try dsimp only
  repeat' first
    | with_reducible assumption
    | with_reducible exact Keeps.refl _
    | with_reducible refine KeepsR.next ?_
    | with_reducible refine KeepsR.ite (fun _ => ?_) (fun _ => ?_)
    | with_reducible apply State.modCh_keeps
    | with_reducible apply State.rawEdge_keeps
    | with_reducible apply State.fbSet_keeps
    | with_reducible apply State.channelFault_keeps
    | with_reducible refine Keeps.ite (fun _ => ?_) (fun _ => ?_)
    | split

theorem execTrigPulseEnd_keeps (t : Fin 8) (s : State) : KeepsR s (execTrigPulseEnd t s) := by
  unfold execTrigPulseEnd
  try dsimp only
  repeat' first
    | with_reducible assumption
    | with_reducible exact Keeps.refl _
    | with_reducible refine KeepsR.next ?_
    | with_reducible refine KeepsR.ite (fun _ => ?_) (fun _ => ?_)
    | with_reducible apply State.reach_keeps
    | with_reducible apply State.driveTrig_keeps
    | with_reducible refine Keeps.ite (fun _ => ?_) (fun _ => ?_)
    | split
    | with_reducible refine Keeps.upd rfl rfl rfl ?_

theorem execSsiTransferStart_keeps (c : Fin 96) (s : State) : KeepsR s (execSsiTransferStart c s) := by
  unfold execSsiTransferStart
  try dsimp only
  repeat' first
    | with_reducible assumption
    | with_reducible exact Keeps.refl _
    | with_reducible refine KeepsR.next ?_
    | with_reducible refine KeepsR.ite (fun _ => ?_) (fun _ => ?_)
    | with_reducible apply State.modCh_keeps
    | with_reducible refine Keeps.ite (fun _ => ?_) (fun _ => ?_)
    | split
    | with_reducible refine Keeps.upd rfl rfl rfl ?_
    | with_reducible refine Keeps.updOut rfl rfl rfl (List.suffix_cons _ _) ?_

theorem State.ssiBad_keeps {sK s : State} (c : Fin 96) (hK : Keeps sK s) : Keeps sK (State.ssiBad s c) := by
  unfold State.ssiBad
  try dsimp only
  repeat' first
    | with_reducible assumption
    | with_reducible exact Keeps.refl _
    | with_reducible apply State.modCh_keeps
    | with_reducible apply State.fbSet_keeps
    | with_reducible apply State.channelFault_keeps
    | with_reducible refine Keeps.ite (fun _ => ?_) (fun _ => ?_)

theorem State.conditionEnd_keeps {sK s : State} (c : Fin 96) (hK : Keeps sK s) : Keeps sK (State.conditionEnd s c) := by
  unfold State.conditionEnd
  try dsimp only
  repeat' first
    | with_reducible assumption
    | with_reducible exact Keeps.refl _
    | with_reducible apply State.modCh_keeps

theorem State.ssiGood_keeps {sK s : State} (c : Fin 96) (w t : Nat) (rtd : Nat) (hK : Keeps sK s) : Keeps sK (State.ssiGood s c w t rtd) := by
  unfold State.ssiGood
  try dsimp only
  repeat' first
    | with_reducible assumption
    | with_reducible exact Keeps.refl _
    | with_reducible apply State.conditionEnd_keeps
    | with_reducible apply State.modCh_keeps
    | with_reducible apply State.trace_keeps
    | with_reducible apply State.reportEdge_keeps
    | with_reducible apply State.channelFault_keeps
    | with_reducible apply State.follow_keeps
    | with_reducible refine Keeps.ite (fun _ => ?_) (fun _ => ?_)
    | split

theorem execSsiWord_keeps (c : Fin 96) (raw : BitVec 40) (par startLow : Bool) (rtd : Option (BitVec 16)) (s : State) : KeepsR s (execSsiWord c raw par startLow rtd s) := by
  unfold execSsiWord
  try dsimp only
  repeat' first
    | with_reducible assumption
    | with_reducible exact Keeps.refl _
    | with_reducible refine KeepsR.next ?_
    | with_reducible refine KeepsR.ite (fun _ => ?_) (fun _ => ?_)
    | with_reducible apply State.modCh_keeps
    | with_reducible apply State.fbSet_keeps
    | with_reducible apply State.ssiBad_keeps
    | with_reducible apply State.channelFault_keeps
    | with_reducible apply State.ssiGood_keeps
    | with_reducible refine Keeps.ite (fun _ => ?_) (fun _ => ?_)
    | split
    | with_reducible refine Keeps.upd rfl rfl rfl ?_
    | with_reducible refine Keeps.updOut rfl rfl rfl (List.suffix_cons _ _) ?_

theorem execWireFault_keeps (c : Fin 96) (s : State) : KeepsR s (execWireFault c s) := by
  unfold execWireFault
  try dsimp only
  repeat' first
    | with_reducible assumption
    | with_reducible exact Keeps.refl _
    | with_reducible refine KeepsR.next ?_
    | with_reducible refine KeepsR.ite (fun _ => ?_) (fun _ => ?_)
    | with_reducible apply State.modCh_keeps
    | with_reducible apply State.channelFault_keeps

theorem execFaultConditionEnd_keeps (c : Fin 96) (s : State) : KeepsR s (execFaultConditionEnd c s) := by
  unfold execFaultConditionEnd
  try dsimp only
  repeat' first
    | with_reducible assumption
    | with_reducible exact Keeps.refl _
    | with_reducible refine KeepsR.next ?_
    | with_reducible refine KeepsR.ite (fun _ => ?_) (fun _ => ?_)
    | with_reducible apply State.conditionEnd_keeps

theorem execFbCfgWrite_keeps (c : Fin 96) (v : BitVec 32) (s : State) : KeepsR s (execFbCfgWrite c v s) := by
  unfold execFbCfgWrite
  try dsimp only
  repeat' first
    | with_reducible assumption
    | with_reducible exact Keeps.refl _
    | with_reducible refine KeepsR.next ?_
    | with_reducible refine KeepsR.ite (fun _ => ?_) (fun _ => ?_)
    | with_reducible apply State.fbConfig_keeps

theorem execFbTimingWrite_keeps (c : Fin 96) (v : BitVec 32) (s : State) : KeepsR s (execFbTimingWrite c v s) := by
  unfold execFbTimingWrite
  try dsimp only
  repeat' first
    | with_reducible assumption
    | with_reducible exact Keeps.refl _
    | with_reducible refine KeepsR.next ?_
    | with_reducible refine KeepsR.ite (fun _ => ?_) (fun _ => ?_)
    | with_reducible apply State.fbConfig_keeps

theorem execFbSsiWrite_keeps (c : Fin 96) (v : BitVec 32) (s : State) : KeepsR s (execFbSsiWrite c v s) := by
  unfold execFbSsiWrite
  try dsimp only
  repeat' first
    | with_reducible assumption
    | with_reducible exact Keeps.refl _
    | with_reducible refine KeepsR.next ?_
    | with_reducible refine KeepsR.ite (fun _ => ?_) (fun _ => ?_)
    | with_reducible apply State.fbConfig_keeps

theorem execFbSsiLeadWrite_keeps (c : Fin 96) (v : BitVec 32) (s : State) : KeepsR s (execFbSsiLeadWrite c v s) := by
  unfold execFbSsiLeadWrite
  try dsimp only
  repeat' first
    | with_reducible assumption
    | with_reducible exact Keeps.refl _
    | with_reducible refine KeepsR.next ?_
    | with_reducible refine KeepsR.ite (fun _ => ?_) (fun _ => ?_)
    | with_reducible apply State.fbConfig_keeps

theorem execFbTrigCfgWrite_keeps (t : Fin 8) (v : BitVec 32) (s : State) : KeepsR s (execFbTrigCfgWrite t v s) := by
  unfold execFbTrigCfgWrite
  try dsimp only
  repeat' first
    | with_reducible assumption
    | with_reducible exact Keeps.refl _
    | with_reducible refine KeepsR.next ?_
    | with_reducible refine KeepsR.ite (fun _ => ?_) (fun _ => ?_)
    | with_reducible refine Keeps.ite (fun _ => ?_) (fun _ => ?_)
    | split
    | with_reducible refine Keeps.upd rfl rfl rfl ?_

theorem execFbTraceW0Read_keeps  (s : State) : KeepsR s (execFbTraceW0Read s) := by
  unfold execFbTraceW0Read
  try dsimp only
  repeat' first
    | with_reducible assumption
    | with_reducible exact Keeps.refl _
    | with_reducible refine KeepsR.next ?_
    | with_reducible refine KeepsR.ite (fun _ => ?_) (fun _ => ?_)
    | with_reducible apply State.trace_keeps
    | with_reducible refine Keeps.ite (fun _ => ?_) (fun _ => ?_)
    | split
    | with_reducible refine Keeps.upd rfl rfl rfl ?_

theorem execTraceClr_keeps  (s : State) : KeepsR s (execTraceClr s) := by
  unfold execTraceClr
  try dsimp only
  repeat' first
    | with_reducible assumption
    | with_reducible exact Keeps.refl _
    | with_reducible refine KeepsR.next ?_
    | with_reducible refine KeepsR.ite (fun _ => ?_) (fun _ => ?_)
    | with_reducible apply State.trace_keeps
    | with_reducible refine Keeps.ite (fun _ => ?_) (fun _ => ?_)
    | split
    | with_reducible refine Keeps.upd rfl rfl rfl ?_

theorem execFbPosLoRead_keeps (c : Fin 96) (s : State) : KeepsR s (execFbPosLoRead c s) := by
  unfold execFbPosLoRead
  try dsimp only
  repeat' first
    | with_reducible assumption
    | with_reducible exact Keeps.refl _
    | with_reducible refine KeepsR.next ?_
    | with_reducible refine KeepsR.ite (fun _ => ?_) (fun _ => ?_)
    | with_reducible apply State.modCh_keeps
    | with_reducible refine Keeps.ite (fun _ => ?_) (fun _ => ?_)
    | split
    | with_reducible refine Keeps.upd rfl rfl rfl ?_

/-! ### Engine.lean -/

theorem State.ceSetMany_keeps {sK s : State} (a : Fin 80) (m : BitVec 11) (hK : Keeps sK s) : Keeps sK (State.ceSetMany s a m) := by
  unfold State.ceSetMany
  try dsimp only
  repeat' first
    | with_reducible assumption
    | with_reducible exact Keeps.refl _
    | with_reducible apply irqWatch_keeps
    | with_reducible apply State.modSlice_keeps
    | with_reducible refine Keeps.ite (fun _ => ?_) (fun _ => ?_)

theorem State.swapBank_keeps {sK s : State} (a : Fin 80) (hK : Keeps sK s) : Keeps sK (State.swapBank s a) := by
  unfold State.swapBank
  try dsimp only
  repeat' first
    | with_reducible assumption
    | with_reducible exact Keeps.refl _
    | with_reducible apply State.modSlice_keeps
    | with_reducible apply State.ceSetMany_keeps
    | with_reducible apply State.emit_keeps

theorem State.armBypass_keeps {sK s : State} (r : Fin 8) (k : BitVec 32) (hK : Keeps sK s) : Keeps sK (State.armBypass s r k) := by
  unfold State.armBypass
  try dsimp only
  repeat' first
    | with_reducible assumption
    | with_reducible exact Keeps.refl _
    | with_reducible apply State.emit_keeps
    | with_reducible apply State.ceSet_keeps
    | with_reducible refine Keeps.ite (fun _ => ?_) (fun _ => ?_)
    | with_reducible refine Keeps.forEach (fun _ _ => ?_) ?_
    | split
    | with_reducible refine Keeps.upd rfl rfl rfl ?_

theorem execCeCfgWrite_keeps (a : Fin 80) (v : BitVec 32) (s : State) : KeepsR s (execCeCfgWrite a v s) := by
  unfold execCeCfgWrite
  try dsimp only
  repeat' first
    | with_reducible assumption
    | with_reducible exact Keeps.refl _
    | with_reducible refine KeepsR.next ?_
    | with_reducible refine KeepsR.ite (fun _ => ?_) (fun _ => ?_)
    | with_reducible apply State.ceSet_keeps
    | with_reducible apply State.modSlice_keeps

theorem execCeVmaxWrite_keeps (a : Fin 80) (v : BitVec 64) (s : State) : KeepsR s (execCeVmaxWrite a v s) := by
  unfold execCeVmaxWrite
  try dsimp only
  repeat' first
    | with_reducible assumption
    | with_reducible exact Keeps.refl _
    | with_reducible refine KeepsR.next ?_
    | with_reducible refine KeepsR.ite (fun _ => ?_) (fun _ => ?_)
    | with_reducible apply State.modSlice_keeps
    | with_reducible apply State.ceSet_keeps

theorem execCeAmaxWrite_keeps (a : Fin 80) (v : BitVec 64) (s : State) : KeepsR s (execCeAmaxWrite a v s) := by
  unfold execCeAmaxWrite
  try dsimp only
  repeat' first
    | with_reducible assumption
    | with_reducible exact Keeps.refl _
    | with_reducible refine KeepsR.next ?_
    | with_reducible refine KeepsR.ite (fun _ => ?_) (fun _ => ?_)
    | with_reducible apply State.modSlice_keeps
    | with_reducible apply State.ceSet_keeps

theorem execCeXrLoRead_keeps (a : Fin 80) (s : State) : KeepsR s (execCeXrLoRead a s) := by
  unfold execCeXrLoRead
  try dsimp only
  repeat' first
    | with_reducible assumption
    | with_reducible exact Keeps.refl _
    | with_reducible refine KeepsR.next ?_
    | with_reducible refine KeepsR.ite (fun _ => ?_) (fun _ => ?_)
    | with_reducible apply State.modSlice_keeps
    | with_reducible refine Keeps.ite (fun _ => ?_) (fun _ => ?_)
    | split
    | with_reducible refine Keeps.upd rfl rfl rfl ?_

theorem execCePosOffLoRead_keeps (a : Fin 80) (s : State) : KeepsR s (execCePosOffLoRead a s) := by
  unfold execCePosOffLoRead
  try dsimp only
  repeat' first
    | with_reducible assumption
    | with_reducible exact Keeps.refl _
    | with_reducible refine KeepsR.next ?_
    | with_reducible refine KeepsR.ite (fun _ => ?_) (fun _ => ?_)
    | with_reducible apply State.modSlice_keeps
    | with_reducible refine Keeps.ite (fun _ => ?_) (fun _ => ?_)
    | split
    | with_reducible refine Keeps.upd rfl rfl rfl ?_

theorem execCeBypassCntClear_keeps (r : Fin 8) (s : State) : KeepsR s (execCeBypassCntClear r s) := by
  unfold execCeBypassCntClear
  try dsimp only
  repeat' first
    | with_reducible assumption
    | with_reducible exact Keeps.refl _
    | with_reducible refine KeepsR.next ?_
    | with_reducible refine KeepsR.ite (fun _ => ?_) (fun _ => ?_)
    | with_reducible refine Keeps.ite (fun _ => ?_) (fun _ => ?_)
    | split
    | with_reducible refine Keeps.upd rfl rfl rfl ?_

/-! ### Operands.lean -/

theorem State.modFlow_keeps {sK s : State} (f : Fin 16) (g : FlowS → FlowS) (hK : Keeps sK s) : Keeps sK (State.modFlow s f g) := by
  unfold State.modFlow
  try dsimp only
  repeat' first
    | with_reducible assumption
    | with_reducible exact Keeps.refl _
    | with_reducible refine Keeps.ite (fun _ => ?_) (fun _ => ?_)
    | split
    | with_reducible refine Keeps.upd rfl rfl rfl ?_

end Sys2Proof.Machine
end

