-- ==== Sys2Proof/Laws/Keeps2.lean ====
section
/-! SUPPORT. Each operation and each command of the files TreadleCore.lean, Profile.lean, DeviceOps.lean, Interp.lean, AxisCmds.lean keeps the relation `Keeps`: memory stays in
canonical form, cell time does not fall, and the queue, what has left the chip and the one-time-programmable memory stand. -/
namespace Sys2Proof.Machine

/-! ### TreadleCore.lean -/

theorem State.coreClock_keeps {sK s : State} (f : Fin 16) (hK : Keeps sK s) : Keeps sK (State.coreClock s f) := by
  unfold State.coreClock
  try dsimp only
  repeat' first
    | with_reducible assumption
    | with_reducible exact Keeps.refl _
    | with_reducible refine Keeps.ite (fun _ => ?_) (fun _ => ?_)
    | split
    | with_reducible refine Keeps.upd rfl rfl rfl ?_

theorem State.retireOk_keeps {sK s : State} (f : Fin 16) (w : TWord) (result : W64) (g : FlowS → FlowS) (hK : Keeps sK s) : Keeps sK (State.retireOk s f w result g) := by
  unfold State.retireOk
  try dsimp only
  repeat' first
    | with_reducible assumption
    | with_reducible exact Keeps.refl _
    | with_reducible apply State.modFlow_keeps

theorem State.fence_keeps {sK s : State} (f : Fin 16) (opc : BitVec 8) (fn : BitVec 4) (obj : BitVec 7) (code : BitVec 8) (hK : Keeps sK s) : Keeps sK (State.fence s f opc fn obj code) := by
  unfold State.fence
  try dsimp only
  repeat' first
    | with_reducible assumption
    | with_reducible exact Keeps.refl _
    | with_reducible apply State.emit_keeps
    | with_reducible apply State.modFlow_keeps
    | with_reducible refine Keeps.ite (fun _ => ?_) (fun _ => ?_)
    | split
    | with_reducible refine Keeps.upd rfl rfl rfl ?_

theorem State.stopFlow_keeps {sK s : State} (f : Fin 16) (instr : BitVec 21) (hK : Keeps sK s) : Keeps sK (State.stopFlow s f instr) := by
  unfold State.stopFlow
  try dsimp only
  repeat' first
    | with_reducible assumption
    | with_reducible exact Keeps.refl _
    | with_reducible apply State.emit_keeps
    | with_reducible apply State.modFlow_keeps
    | with_reducible refine Keeps.ite (fun _ => ?_) (fun _ => ?_)
    | split
    | with_reducible refine Keeps.upd rfl rfl rfl ?_

theorem State.retireBad_keeps {sK s : State} (f : Fin 16) (w : TWord) (st : Status) (opc : BitVec 8) (fn : BitVec 4) (obj : BitVec 7) (code : BitVec 8) (hK : Keeps sK s) : Keeps sK (State.retireBad s f w st opc fn obj code) := by
  unfold State.retireBad
  try dsimp only
  repeat' first
    | with_reducible assumption
    | with_reducible exact Keeps.refl _
    | with_reducible apply State.fence_keeps
    | with_reducible apply State.modFlow_keeps
    | with_reducible refine Keeps.ite (fun _ => ?_) (fun _ => ?_)

theorem State.take_keeps {s0 s : State} (f : Fin 16) (opc : BitVec 8) (fn : BitVec 4) (w : TWord) (uses : List (BitVec 5))
    {run : State → State} (hr : ∀ t, Keeps t (run t)) (h : Keeps s0 s) : Keeps s0 (s.take f opc fn w uses run) := by
  unfold State.take
  dsimp only
  refine Keeps.ite (fun _ => h) (fun _ => Keeps.ite (fun _ => h) (fun _ => ?_))
  have h1 : Keeps s0 ((if (s.flow f).abortReq then s.modFlow f FlowS.abortEffect else s).coreClock f) :=
    State.coreClock_keeps f (Keeps.ite (fun _ => State.modFlow_keeps f _ h) (fun _ => h))
  refine Keeps.ite (fun _ => h1) (fun _ => ?_)
  split
  · exact State.modFlow_keeps f _ h1
  · exact (State.modFlow_keeps f _ h1).trans (hr _)

theorem State.local__keeps {s0 s : State} (f : Fin 16) (opc : BitVec 8) (fn : BitVec 4) (w : TWord) (xw : BitVec 4) (mask : BitVec 32)
    (uses : List (BitVec 5)) (bad : State → List (Bool × Status)) {run : State → State} (hr : ∀ t, Keeps t (run t))
    (h : Keeps s0 s) : Keeps s0 (s.local_ f opc fn w xw mask uses bad run) := by
  unfold State.local_
  refine State.take_keeps f opc fn w uses (fun t => ?_) h
  split
  · exact State.retireBad_keeps f w _ opc fn _ _ (Keeps.refl t)
  · exact hr t

theorem State.opAccept_keeps {sK s : State} (f : Fin 16) (w : TWord) (st : Status) (flags : BitVec 8) (result : Option W64) (hK : Keeps sK s) : Keeps sK (State.opAccept s f w st flags result) := by
  unfold State.opAccept
  try dsimp only
  repeat' first
    | with_reducible assumption
    | with_reducible exact Keeps.refl _
    | with_reducible apply State.modFlow_keeps

theorem State.opIssue_keeps {sK s : State} (f : Fin 16) (w : TWord) (rd : Bool) (hK : Keeps sK s) : Keeps sK (State.opIssue s f w rd) := by
  unfold State.opIssue
  try dsimp only
  repeat' first
    | with_reducible assumption
    | with_reducible exact Keeps.refl _
    | with_reducible apply State.modFlow_keeps

theorem State.opDone_keeps {sK s : State} (f : Fin 16) (id : Nat) (st : Status) (flags : BitVec 8) (result : Option W64) (hK : Keeps sK s) : Keeps sK (State.opDone s f id st flags result) := by
  unfold State.opDone
  try dsimp only
  repeat' first
    | with_reducible assumption
    | with_reducible exact Keeps.refl _
    | with_reducible apply State.modFlow_keeps
    | with_reducible apply State.stopFlow_keeps
    | with_reducible refine Keeps.ite (fun _ => ?_) (fun _ => ?_)
    | split

theorem execProgrammeStart_keeps (f : Fin 16) (entry : Vector (BitVec 32) 4) (s : State) : KeepsR s (execProgrammeStart f entry s) := by
  unfold execProgrammeStart
  try dsimp only
  repeat' first
    | with_reducible assumption
    | with_reducible exact Keeps.refl _
    | with_reducible refine KeepsR.next ?_
    | with_reducible refine KeepsR.ite (fun _ => ?_) (fun _ => ?_)
    | with_reducible apply State.modFlow_keeps
    | with_reducible refine Keeps.ite (fun _ => ?_) (fun _ => ?_)
    | split
    | with_reducible refine Keeps.upd rfl rfl rfl ?_

theorem execFencedWordRetire_keeps (f : Fin 16) (opc : BitVec 8) (fn : BitVec 4) (xw : BitVec 4) (cq : Bool) (s : State) : KeepsR s (execFencedWordRetire f opc fn xw cq s) := by
  unfold execFencedWordRetire
  try dsimp only
  repeat' first
    | with_reducible assumption
    | with_reducible exact Keeps.refl _
    | with_reducible refine KeepsR.next ?_
    | with_reducible refine KeepsR.ite (fun _ => ?_) (fun _ => ?_)
    | with_reducible apply State.coreClock_keeps
    | with_reducible apply State.modFlow_keeps
    | with_reducible refine Keeps.ite (fun _ => ?_) (fun _ => ?_)
    | split

theorem execFlowAbortEffect_keeps (f : Fin 16) (s : State) : KeepsR s (execFlowAbortEffect f s) := by
  unfold execFlowAbortEffect
  try dsimp only
  repeat' first
    | with_reducible assumption
    | with_reducible exact Keeps.refl _
    | with_reducible refine KeepsR.next ?_
    | with_reducible refine KeepsR.ite (fun _ => ?_) (fun _ => ?_)
    | with_reducible apply State.modFlow_keeps

theorem State.busWrite_keeps {sK s : State} (loc : Bool) (a : Nat) (ws : List (BitVec 32)) (hK : Keeps sK s) : Keeps sK (State.busWrite s loc a ws) := by
  unfold State.busWrite
  try dsimp only
  repeat' first
    | with_reducible assumption
    | with_reducible exact Keeps.refl _
    | with_reducible apply State.wrBytes_keeps
    | with_reducible refine Keeps.ite (fun _ => ?_) (fun _ => ?_)
    | split
    | with_reducible refine Keeps.upd rfl rfl rfl ?_
    | with_reducible refine Keeps.updOut rfl rfl rfl (List.suffix_cons _ _) ?_

theorem State.postEntry_keeps {sK s : State} (f : Fin 16) (p : Post) (hK : Keeps sK s) : Keeps sK (State.postEntry s f p) := by
  unfold State.postEntry
  try dsimp only
  repeat' first
    | with_reducible assumption
    | with_reducible exact Keeps.refl _
    | with_reducible apply State.busWrite_keeps
    | with_reducible apply State.raise_keeps
    | with_reducible refine Keeps.ite (fun _ => ?_) (fun _ => ?_)
    | split
    | with_reducible refine Keeps.upd rfl rfl rfl ?_

theorem execCompletionPost_keeps (f : Fin 16) (s : State) : KeepsR s (execCompletionPost f s) := by
  unfold execCompletionPost
  try dsimp only
  repeat' first
    | with_reducible assumption
    | with_reducible exact Keeps.refl _
    | with_reducible refine KeepsR.next ?_
    | with_reducible refine KeepsR.ite (fun _ => ?_) (fun _ => ?_)
    | with_reducible apply State.postEntry_keeps
    | with_reducible apply State.modFlow_keeps
    | with_reducible refine Keeps.ite (fun _ => ?_) (fun _ => ?_)
    | split

/-! ### Profile.lean -/

theorem State.scaleUpdate_keeps {sK s : State}  (hK : Keeps sK s) : Keeps sK (State.scaleUpdate s) := by
  unfold State.scaleUpdate
  try dsimp only
  repeat' first
    | with_reducible assumption
    | with_reducible exact Keeps.refl _
    | with_reducible refine Keeps.ite (fun _ => ?_) (fun _ => ?_)
    | with_reducible refine Keeps.forEach (fun _ _ => ?_) ?_
    | split
    | with_reducible refine Keeps.upd rfl rfl rfl ?_

theorem State.startHome_keeps {sK s : State} (a : Fin 80) (m : BitVec 4) (w0 : Int) (hK : Keeps sK s) : Keeps sK (State.startHome s a m w0) := by
  unfold State.startHome
  try dsimp only
  repeat' first
    | with_reducible assumption
    | with_reducible exact Keeps.refl _
    | with_reducible apply State.shiftAxis_keeps
    | with_reducible apply State.shiftCommand_keeps
    | with_reducible apply State.pgSet_keeps
    | with_reducible apply State.modPax_keeps
    | with_reducible apply State.setAxis_keeps
    | with_reducible refine Keeps.ite (fun _ => ?_) (fun _ => ?_)

theorem State.homeFound_keeps {sK s : State} (a : Fin 80) (h : Int) (stall : Bool) (hK : Keeps sK s) : Keeps sK (State.homeFound s a h stall) := by
  unfold State.homeFound
  try dsimp only
  repeat' first
    | with_reducible assumption
    | with_reducible exact Keeps.refl _
    | with_reducible apply State.modSlice_keeps
    | with_reducible apply State.modPax_keeps
    | with_reducible apply State.shiftAxis_keeps
    | with_reducible apply State.shiftCommand_keeps
    | with_reducible apply State.startMove_keeps
    | with_reducible refine Keeps.ite (fun _ => ?_) (fun _ => ?_)

theorem State.homePick_keeps {sK s : State} (a : Fin 80) (t : Nat) (hK : Keeps sK s) : Keeps sK (State.homePick s a t) := by
  unfold State.homePick
  try dsimp only
  repeat' first
    | with_reducible assumption
    | with_reducible exact Keeps.refl _
    | with_reducible apply State.homeFound_keeps
    | with_reducible apply State.modPax_keeps
    | with_reducible refine Keeps.ite (fun _ => ?_) (fun _ => ?_)

theorem State.homeTravel_keeps {sK s : State} (a : Fin 80) (x : Int) (hK : Keeps sK s) : Keeps sK (State.homeTravel s a x) := by
  unfold State.homeTravel
  try dsimp only
  repeat' first
    | with_reducible assumption
    | with_reducible exact Keeps.refl _
    | with_reducible apply State.stopAxis_keeps
    | with_reducible apply State.modPax_keeps
    | with_reducible apply State.pgSet_keeps
    | with_reducible apply State.emit_keeps
    | with_reducible refine Keeps.ite (fun _ => ?_) (fun _ => ?_)

theorem State.limitStop_keeps {sK s : State} (a : Fin 80) (hi : Bool) (k : BitVec 32) (hK : Keeps sK s) : Keeps sK (State.limitStop s a hi k) := by
  unfold State.limitStop
  try dsimp only
  repeat' first
    | with_reducible assumption
    | with_reducible exact Keeps.refl _
    | with_reducible apply State.pgSet_keeps
    | with_reducible apply State.emit_keeps

theorem State.planEnded_keeps {sK s : State} (a : Fin 80) (x : Int) (hK : Keeps sK s) : Keeps sK (State.planEnded s a x) := by
  unfold State.planEnded
  try dsimp only
  repeat' first
    | with_reducible assumption
    | with_reducible exact Keeps.refl _
    | with_reducible apply State.modPax_keeps
    | with_reducible apply State.stopEnded_keeps
    | with_reducible apply State.holdAxis_keeps
    | with_reducible apply State.pgSet_keeps
    | with_reducible apply State.moveEnded_keeps
    | with_reducible refine Keeps.ite (fun _ => ?_) (fun _ => ?_)
    | split

theorem State.runEntry_keeps {sK s : State} (a : Fin 80) (k : BitVec 32) (t : Nat) (hK : Keeps sK s) : Keeps sK (State.runEntry s a k t) := by
  unfold State.runEntry
  try dsimp only
  repeat' first
    | with_reducible assumption
    | with_reducible exact Keeps.refl _
    | with_reducible apply State.modPax_keeps
    | with_reducible apply State.planEnded_keeps
    | with_reducible apply State.homeTravel_keeps
    | with_reducible refine Keeps.ite (fun _ => ?_) (fun _ => ?_)

theorem State.axisEntry_keeps {sK s : State} (a : Fin 80) (k : BitVec 32) (t : Nat) (hK : Keeps sK s) : Keeps sK (State.axisEntry s a k t) := by
  unfold State.axisEntry
  try dsimp only
  repeat' first
    | with_reducible assumption
    | with_reducible exact Keeps.refl _
    | with_reducible apply State.modPax_keeps
    | with_reducible apply State.stopAxis_keeps
    | with_reducible apply State.limitStop_keeps
    | with_reducible apply State.runEntry_keeps
    | with_reducible refine Keeps.ite (fun _ => ?_) (fun _ => ?_)
    | split

theorem State.armSync_keeps {sK s : State} (r : Fin 8) (m : ArmMove) (hK : Keeps sK s) : Keeps sK (State.armSync s r m) := by
  unfold State.armSync
  try dsimp only
  repeat' first
    | with_reducible assumption
    | with_reducible exact Keeps.refl _
    | with_reducible apply State.moveEnded_keeps
    | with_reducible apply State.startMove_keeps
    | with_reducible refine Keeps.ite (fun _ => ?_) (fun _ => ?_)
    | with_reducible refine Keeps.forEach (fun _ _ => ?_) ?_
    | split
    | with_reducible refine Keeps.upd rfl rfl rfl ?_

theorem State.armRun_keeps {sK s : State} (r : Fin 8) (k : BitVec 32) (t : Nat) (hK : Keeps sK s) : Keeps sK (State.armRun s r k t) := by
  unfold State.armRun
  try dsimp only
  repeat' first
    | with_reducible assumption
    | with_reducible exact Keeps.refl _
    | with_reducible apply State.modPax_keeps
    | with_reducible apply State.stopEnded_keeps
    | with_reducible apply State.moveEnded_keeps
    | with_reducible refine Keeps.ite (fun _ => ?_) (fun _ => ?_)
    | with_reducible refine Keeps.forEach (fun _ _ => ?_) ?_
    | split
    | with_reducible refine Keeps.upd rfl rfl rfl ?_

theorem State.armPick_keeps {sK s : State} (r : Fin 8) (k : BitVec 32) (t : Nat) (hK : Keeps sK s) : Keeps sK (State.armPick s r k t) := by
  unfold State.armPick
  try dsimp only
  repeat' first
    | with_reducible assumption
    | with_reducible exact Keeps.refl _
    | with_reducible apply State.stopArmMove_keeps
    | with_reducible apply State.limitStop_keeps
    | with_reducible apply State.armRun_keeps
    | with_reducible apply State.armSync_keeps
    | with_reducible refine Keeps.ite (fun _ => ?_) (fun _ => ?_)
    | with_reducible refine Keeps.forEach (fun _ _ => ?_) ?_
    | split

theorem State.startArmMove_keeps {sK s : State} (r : Fin 8) (targets : List Int) (hK : Keeps sK s) : Keeps sK (State.startArmMove s r targets) := by
  unfold State.startArmMove
  try dsimp only
  repeat' first
    | with_reducible assumption
    | with_reducible exact Keeps.refl _
    | with_reducible apply State.leaveArm_keeps
    | with_reducible apply State.modPax_keeps
    | with_reducible apply State.setAxis_keeps
    | with_reducible refine Keeps.ite (fun _ => ?_) (fun _ => ?_)
    | with_reducible refine Keeps.forEach (fun _ _ => ?_) ?_
    | split
    | with_reducible refine Keeps.upd rfl rfl rfl ?_

theorem State.gearEntry_keeps {sK s : State} (b : Fin 80) (k : BitVec 32) (t : Nat) (hK : Keeps sK s) : Keeps sK (State.gearEntry s b k t) := by
  unfold State.gearEntry
  try dsimp only
  repeat' first
    | with_reducible assumption
    | with_reducible exact Keeps.refl _
    | with_reducible apply State.stopAxis_keeps
    | with_reducible apply State.limitStop_keeps
    | with_reducible apply State.runEntry_keeps
    | with_reducible apply State.modPax_keeps
    | with_reducible apply State.pgSet_keeps
    | with_reducible apply State.emit_keeps
    | with_reducible refine Keeps.ite (fun _ => ?_) (fun _ => ?_)
    | split

theorem State.formEntries_keeps {sK s : State} (k : BitVec 32) (t : Nat) (hK : Keeps sK s) : Keeps sK (State.formEntries s k t) := by
  unfold State.formEntries
  refine Keeps.forEach (fun _ _ => Keeps.forEach (fun _ a => State.gearEntry_keeps a k t (Keeps.refl _)) (Keeps.refl _)) ?_
  refine Keeps.forEach (fun _ a => Keeps.ite (fun _ => State.axisEntry_keeps a k t (Keeps.refl _)) (fun _ => Keeps.refl _)) ?_
  refine Keeps.forEach (fun _ r => State.armPick_keeps r k t (Keeps.refl _)) ?_
  exact Keeps.forEach (fun _ a => State.modPax_keeps a _ (Keeps.refl _)) hK

/-! ### DeviceOps.lean -/

theorem State.logOp_keeps {sK s : State} (f : Fin 16) (opc : BitVec 8) (fn : BitVec 4) (w : TWord) (obj : BitVec 7) (rb : W64) (hK : Keeps sK s) : Keeps sK (State.logOp s f opc fn w obj rb) := by
  unfold State.logOp
  try dsimp only
  repeat' first
    | with_reducible assumption
    | with_reducible exact Keeps.refl _
    | with_reducible refine Keeps.ite (fun _ => ?_) (fun _ => ?_)
    | split
    | with_reducible refine Keeps.upd rfl rfl rfl ?_

theorem State.devOp_keeps {s0 s : State} (f : Fin 16) (opc : BitVec 8) (fn : BitVec 4) (w : TWord) (uses : List (BitVec 5))
    (mask : BitVec 32) (om : Option Nat) (early : State → List (Bool × Status)) (gate : State → List (Bool × Status × BitVec 8))
    {run : State → State} (hr : ∀ t, Keeps t (run t)) (h : Keeps s0 s) :
    Keeps s0 (s.devOp f opc fn w uses mask om early gate run) := by
  unfold State.devOp State.take
  dsimp only
  refine Keeps.ite (fun _ => h) (fun _ => Keeps.ite (fun _ => h) (fun _ => ?_))
  have h1 : Keeps s0 ((if (s.flow f).abortReq then s.modFlow f FlowS.abortEffect else s).coreClock f) :=
    State.coreClock_keeps f (Keeps.ite (fun _ => State.modFlow_keeps f _ h) (fun _ => h))
  refine Keeps.ite (fun _ => h1) (fun _ => ?_)
  split
  · exact State.modFlow_keeps f _ h1
  · have h2 := State.modFlow_keeps f (fun fl => { fl with state := .running }) h1
    refine Keeps.ite (fun _ => h) (fun _ => ?_)
    split
    · exact State.retireBad_keeps f w _ opc fn _ _ h2
    · split
      · exact State.retireBad_keeps f w _ opc fn _ _ h2
      · exact (State.logOp_keeps f opc fn w _ _ h2).trans (hr _)

theorem State.dropEffect_keeps {sK s : State} (e : Effect) (k b : BitVec 32) (hK : Keeps sK s) : Keeps sK (State.dropEffect s e k b) := by
  unfold State.dropEffect
  try dsimp only
  repeat' first
    | with_reducible assumption
    | with_reducible exact Keeps.refl _
    | with_reducible apply State.pgSet_keeps
    | with_reducible apply State.emit_keeps
    | with_reducible apply State.opDone_keeps
    | with_reducible refine Keeps.ite (fun _ => ?_) (fun _ => ?_)
    | with_reducible refine Keeps.forEach (fun _ _ => ?_) ?_
    | split

theorem State.enableAxis_keeps {sK s : State} (a : Fin 80) (hK : Keeps sK s) : Keeps sK (State.enableAxis s a) := by
  unfold State.enableAxis
  try dsimp only
  repeat' first
    | with_reducible assumption
    | with_reducible exact Keeps.refl _
    | with_reducible apply State.modSlice_keeps
    | with_reducible apply State.holdAxis_keeps

theorem State.startGear_keeps {sK s : State} (a : Fin 80) (m : Fin 80) (ratio : Int) (w1 : Option Int) (hK : Keeps sK s) : Keeps sK (State.startGear s a m ratio w1) := by
  unfold State.startGear
  try dsimp only
  repeat' first
    | with_reducible assumption
    | with_reducible exact Keeps.refl _
    | with_reducible apply State.modPax_keeps
    | with_reducible apply State.setAxis_keeps
    | with_reducible refine Keeps.ite (fun _ => ?_) (fun _ => ?_)

theorem State.startMpc_keeps {sK s : State} (r : Fin 8) (hK : Keeps sK s) : Keeps sK (State.startMpc s r) := by
  unfold State.startMpc
  try dsimp only
  repeat' first
    | with_reducible assumption
    | with_reducible exact Keeps.refl _
    | with_reducible apply State.modPax_keeps
    | with_reducible apply State.setAxis_keeps
    | with_reducible apply State.modArm_keeps
    | with_reducible refine Keeps.ite (fun _ => ?_) (fun _ => ?_)
    | with_reducible refine Keeps.forEach (fun _ _ => ?_) ?_

theorem State.endMpc_keeps {sK s : State} (r : Fin 8) (hK : Keeps sK s) : Keeps sK (State.endMpc s r) := by
  unfold State.endMpc
  try dsimp only
  repeat' first
    | with_reducible assumption
    | with_reducible exact Keeps.refl _
    | with_reducible apply State.holdAxis_keeps
    | with_reducible apply State.modPax_keeps
    | with_reducible apply State.modArm_keeps
    | with_reducible refine Keeps.ite (fun _ => ?_) (fun _ => ?_)
    | with_reducible refine Keeps.forEach (fun _ _ => ?_) ?_

theorem State.mpcSweep_keeps {sK s : State}  (hK : Keeps sK s) : Keeps sK (State.mpcSweep s) := by
  unfold State.mpcSweep
  try dsimp only
  repeat' first
    | with_reducible assumption
    | with_reducible exact Keeps.refl _
    | with_reducible apply State.endMpc_keeps
    | with_reducible refine Keeps.ite (fun _ => ?_) (fun _ => ?_)
    | with_reducible refine Keeps.forEach (fun _ _ => ?_) ?_

theorem State.doEffect_keeps {sK s : State} (e : Effect) (hK : Keeps sK s) : Keeps sK (State.doEffect s e) := by
  unfold State.doEffect
  try dsimp only
  repeat' first
    | with_reducible assumption
    | with_reducible exact Keeps.refl _
    | with_reducible apply State.enableAxis_keeps
    | with_reducible apply State.setAxis_keeps
    | with_reducible apply State.startMove_keeps
    | with_reducible apply State.effectStop_keeps
    | with_reducible apply State.startHome_keeps
    | with_reducible apply State.startGear_keeps
    | with_reducible apply State.startSeg_keeps
    | with_reducible apply State.startArmMove_keeps
    | with_reducible apply State.effectArmStop_keeps
    | with_reducible apply State.startMpc_keeps
    | with_reducible apply State.endMpc_keeps
    | with_reducible apply State.modPax_keeps
    | with_reducible apply State.pgSet_keeps
    | with_reducible apply State.opDone_keeps
    | with_reducible refine Keeps.ite (fun _ => ?_) (fun _ => ?_)
    | with_reducible refine Keeps.forEach (fun _ _ => ?_) ?_
    | split

theorem State.applyEffect_keeps {sK s : State} (e : Effect) (k b : BitVec 32) (hK : Keeps sK s) : Keeps sK (State.applyEffect s e k b) := by
  unfold State.applyEffect
  try dsimp only
  repeat' first
    | with_reducible assumption
    | with_reducible exact Keeps.refl _
    | with_reducible apply State.doEffect_keeps
    | with_reducible apply State.mpcSweep_keeps
    | with_reducible apply State.dropEffect_keeps
    | with_reducible refine Keeps.ite (fun _ => ?_) (fun _ => ?_)

theorem State.applyEffects_keeps {sK s : State} (k b : BitVec 32) (edge : Bool) (hK : Keeps sK s) : Keeps sK (State.applyEffects s k b edge) := by
  unfold State.applyEffects
  try dsimp only
  repeat' first
    | with_reducible assumption
    | with_reducible exact Keeps.refl _
    | with_reducible apply State.applyEffect_keeps
    | with_reducible refine Keeps.ite (fun _ => ?_) (fun _ => ?_)
    | with_reducible refine Keeps.forEach (fun _ _ => ?_) ?_
    | split
    | with_reducible refine Keeps.upd rfl rfl rfl ?_

theorem State.defer_keeps {sK s : State} (e : Effect) (hK : Keeps sK s) : Keeps sK (State.defer s e) := by
  unfold State.defer
  try dsimp only
  repeat' first
    | with_reducible assumption
    | with_reducible exact Keeps.refl _
    | with_reducible apply State.applyEffect_keeps
    | with_reducible refine Keeps.ite (fun _ => ?_) (fun _ => ?_)
    | split
    | with_reducible refine Keeps.upd rfl rfl rfl ?_

theorem State.acceptEffect_keeps {sK s : State} (f : Fin 16) (w : TWord) (opc : BitVec 8) (fn : BitVec 4) (axes : List (Fin 80)) (k : EffKind) (flags : BitVec 8) (hK : Keeps sK s) : Keeps sK (State.acceptEffect s f w opc fn axes k flags) := by
  unfold State.acceptEffect
  try dsimp only
  repeat' first
    | with_reducible assumption
    | with_reducible exact Keeps.refl _
    | with_reducible apply State.opAccept_keeps
    | with_reducible apply State.defer_keeps

/-! ### Interp.lean -/

theorem State.interpArm_keeps {sK s : State} (r : Fin 8) (k1 : BitVec 32) (st : BitVec 64) (hK : Keeps sK s) : Keeps sK (State.interpArm s r k1 st) := by
  unfold State.interpArm
  try dsimp only
  repeat' first
    | with_reducible assumption
    | with_reducible exact Keeps.refl _
    | with_reducible apply State.modSlice_keeps
    | with_reducible refine Keeps.ite (fun _ => ?_) (fun _ => ?_)
    | with_reducible refine Keeps.forEach (fun _ _ => ?_) ?_
    | split

/-! ### AxisCmds.lean -/

theorem execAxisEnable_keeps (f : Fin 16) (w : TWord) (s : State) : KeepsR s (execAxisEnable f w s) := by
  unfold execAxisEnable
  try dsimp only
  repeat' first
    | with_reducible assumption
    | with_reducible exact Keeps.refl _
    | with_reducible refine KeepsR.next ?_
    | with_reducible refine KeepsR.ite (fun _ => ?_) (fun _ => ?_)
    | with_reducible apply State.devOp_keeps
    | with_reducible apply State.acceptEffect_keeps
    | with_reducible refine Keeps.ite (fun _ => ?_) (fun _ => ?_)
    | split
    | with_reducible refine Keeps.upd rfl rfl rfl ?_
    | (intro _; dsimp only)
    | intro _

theorem execAxisDisable_keeps (f : Fin 16) (w : TWord) (s : State) : KeepsR s (execAxisDisable f w s) := by
  unfold execAxisDisable
  try dsimp only
  repeat' first
    | with_reducible assumption
    | with_reducible exact Keeps.refl _
    | with_reducible refine KeepsR.next ?_
    | with_reducible refine KeepsR.ite (fun _ => ?_) (fun _ => ?_)
    | with_reducible apply State.devOp_keeps
    | with_reducible apply State.acceptEffect_keeps
    | with_reducible refine Keeps.ite (fun _ => ?_) (fun _ => ?_)
    | split
    | with_reducible refine Keeps.upd rfl rfl rfl ?_
    | (intro _; dsimp only)
    | intro _

theorem execAxisMove_keeps (f : Fin 16) (w : TWord) (s : State) : KeepsR s (execAxisMove f w s) := by
  unfold execAxisMove
  try dsimp only
  repeat' first
    | with_reducible assumption
    | with_reducible exact Keeps.refl _
    | with_reducible refine KeepsR.next ?_
    | with_reducible refine KeepsR.ite (fun _ => ?_) (fun _ => ?_)
    | with_reducible apply State.devOp_keeps
    | with_reducible apply State.acceptEffect_keeps
    | with_reducible refine Keeps.ite (fun _ => ?_) (fun _ => ?_)
    | split
    | with_reducible refine Keeps.upd rfl rfl rfl ?_
    | (intro _; dsimp only)
    | intro _

theorem execAxisStop_keeps (f : Fin 16) (w : TWord) (s : State) : KeepsR s (execAxisStop f w s) := by
  unfold execAxisStop
  try dsimp only
  repeat' first
    | with_reducible assumption
    | with_reducible exact Keeps.refl _
    | with_reducible refine KeepsR.next ?_
    | with_reducible refine KeepsR.ite (fun _ => ?_) (fun _ => ?_)
    | with_reducible apply State.devOp_keeps
    | with_reducible apply State.acceptEffect_keeps
    | with_reducible apply State.opAccept_keeps
    | with_reducible refine Keeps.ite (fun _ => ?_) (fun _ => ?_)
    | split
    | with_reducible refine Keeps.upd rfl rfl rfl ?_
    | (intro _; dsimp only)
    | intro _

theorem execAxisHome_keeps (f : Fin 16) (w : TWord) (s : State) : KeepsR s (execAxisHome f w s) := by
  unfold execAxisHome
  try dsimp only
  repeat' first
    | with_reducible assumption
    | with_reducible exact Keeps.refl _
    | with_reducible refine KeepsR.next ?_
    | with_reducible refine KeepsR.ite (fun _ => ?_) (fun _ => ?_)
    | with_reducible apply State.devOp_keeps
    | with_reducible apply State.acceptEffect_keeps
    | with_reducible refine Keeps.ite (fun _ => ?_) (fun _ => ?_)
    | split
    | with_reducible refine Keeps.upd rfl rfl rfl ?_
    | (intro _; dsimp only)
    | intro _

theorem execAxisGear_keeps (f : Fin 16) (w : TWord) (s : State) : KeepsR s (execAxisGear f w s) := by
  unfold execAxisGear
  refine KeepsR.next (State.devOp_keeps _ _ _ _ _ _ _ _ _ (fun t => ?_) (Keeps.refl s))
  exact State.acceptEffect_keeps _ _ _ _ _ _ _ (Keeps.ite (fun _ => State.pgSet_keeps _ _ (Keeps.refl t)) (fun _ => Keeps.refl t))

theorem execAxisClear_keeps (f : Fin 16) (w : TWord) (s : State) : KeepsR s (execAxisClear f w s) := by
  unfold execAxisClear
  try dsimp only
  repeat' first
    | with_reducible assumption
    | with_reducible exact Keeps.refl _
    | with_reducible refine KeepsR.next ?_
    | with_reducible refine KeepsR.ite (fun _ => ?_) (fun _ => ?_)
    | with_reducible apply State.devOp_keeps
    | with_reducible apply State.acceptEffect_keeps
    | with_reducible refine Keeps.ite (fun _ => ?_) (fun _ => ?_)
    | split
    | with_reducible refine Keeps.upd rfl rfl rfl ?_
    | (intro _; dsimp only)
    | intro _

theorem execAxisSetpos_keeps (f : Fin 16) (w : TWord) (s : State) : KeepsR s (execAxisSetpos f w s) := by
  unfold execAxisSetpos
  try dsimp only
  repeat' first
    | with_reducible assumption
    | with_reducible exact Keeps.refl _
    | with_reducible refine KeepsR.next ?_
    | with_reducible refine KeepsR.ite (fun _ => ?_) (fun _ => ?_)
    | with_reducible apply State.devOp_keeps
    | with_reducible apply State.shiftAxis_keeps
    | with_reducible apply State.shiftCommand_keeps
    | with_reducible apply State.opAccept_keeps
    | with_reducible refine Keeps.ite (fun _ => ?_) (fun _ => ?_)
    | split
    | with_reducible refine Keeps.upd rfl rfl rfl ?_
    | (intro _; dsimp only)
    | intro _

theorem execAxisParam_keeps (f : Fin 16) (w : TWord) (s : State) : KeepsR s (execAxisParam f w s) := by
  unfold execAxisParam
  try dsimp only
  repeat' first
    | with_reducible assumption
    | with_reducible exact Keeps.refl _
    | with_reducible refine KeepsR.next ?_
    | with_reducible refine KeepsR.ite (fun _ => ?_) (fun _ => ?_)
    | with_reducible apply State.devOp_keeps
    | with_reducible apply State.opIssue_keeps
    | with_reducible apply State.defer_keeps
    | with_reducible refine Keeps.ite (fun _ => ?_) (fun _ => ?_)
    | split
    | with_reducible refine Keeps.upd rfl rfl rfl ?_
    | (intro _; dsimp only)
    | intro _

theorem execAxisRead_keeps (f : Fin 16) (w : TWord) (s : State) : KeepsR s (execAxisRead f w s) := by
  unfold execAxisRead
  try dsimp only
  repeat' first
    | with_reducible assumption
    | with_reducible exact Keeps.refl _
    | with_reducible refine KeepsR.next ?_
    | with_reducible refine KeepsR.ite (fun _ => ?_) (fun _ => ?_)
    | with_reducible apply State.devOp_keeps
    | with_reducible apply State.opAccept_keeps
    | with_reducible refine Keeps.ite (fun _ => ?_) (fun _ => ?_)
    | split
    | with_reducible refine Keeps.upd rfl rfl rfl ?_
    | (intro _; dsimp only)
    | intro _

theorem execArmDefine_keeps (f : Fin 16) (w : TWord) (s : State) : KeepsR s (execArmDefine f w s) := by
  unfold execArmDefine
  try dsimp only
  repeat' first
    | with_reducible assumption
    | with_reducible exact Keeps.refl _
    | with_reducible refine KeepsR.next ?_
    | with_reducible refine KeepsR.ite (fun _ => ?_) (fun _ => ?_)
    | with_reducible apply State.devOp_keeps
    | with_reducible apply State.modArm_keeps
    | with_reducible apply State.opAccept_keeps
    | with_reducible refine Keeps.ite (fun _ => ?_) (fun _ => ?_)
    | split
    | with_reducible refine Keeps.upd rfl rfl rfl ?_
    | (intro _; dsimp only)
    | intro _

theorem execArmEnable_keeps (f : Fin 16) (w : TWord) (s : State) : KeepsR s (execArmEnable f w s) := by
  unfold execArmEnable
  try dsimp only
  repeat' first
    | with_reducible assumption
    | with_reducible exact Keeps.refl _
    | with_reducible refine KeepsR.next ?_
    | with_reducible refine KeepsR.ite (fun _ => ?_) (fun _ => ?_)
    | with_reducible apply State.devOp_keeps
    | with_reducible apply State.acceptEffect_keeps
    | with_reducible refine Keeps.ite (fun _ => ?_) (fun _ => ?_)
    | split
    | with_reducible refine Keeps.upd rfl rfl rfl ?_
    | (intro _; dsimp only)
    | intro _

theorem execArmDisable_keeps (f : Fin 16) (w : TWord) (s : State) : KeepsR s (execArmDisable f w s) := by
  unfold execArmDisable
  try dsimp only
  repeat' first
    | with_reducible assumption
    | with_reducible exact Keeps.refl _
    | with_reducible refine KeepsR.next ?_
    | with_reducible refine KeepsR.ite (fun _ => ?_) (fun _ => ?_)
    | with_reducible apply State.devOp_keeps
    | with_reducible apply State.acceptEffect_keeps
    | with_reducible refine Keeps.ite (fun _ => ?_) (fun _ => ?_)
    | split
    | with_reducible refine Keeps.upd rfl rfl rfl ?_
    | (intro _; dsimp only)
    | intro _

theorem execArmMove_keeps (f : Fin 16) (w : TWord) (s : State) : KeepsR s (execArmMove f w s) := by
  unfold execArmMove
  try dsimp only
  repeat' first
    | with_reducible assumption
    | with_reducible exact Keeps.refl _
    | with_reducible refine KeepsR.next ?_
    | with_reducible refine KeepsR.ite (fun _ => ?_) (fun _ => ?_)
    | with_reducible apply State.devOp_keeps
    | with_reducible apply State.acceptEffect_keeps
    | with_reducible refine Keeps.ite (fun _ => ?_) (fun _ => ?_)
    | split
    | with_reducible refine Keeps.upd rfl rfl rfl ?_
    | (intro _; dsimp only)
    | intro _

theorem execArmStop_keeps (f : Fin 16) (w : TWord) (s : State) : KeepsR s (execArmStop f w s) := by
  unfold execArmStop
  try dsimp only
  repeat' first
    | with_reducible assumption
    | with_reducible exact Keeps.refl _
    | with_reducible refine KeepsR.next ?_
    | with_reducible refine KeepsR.ite (fun _ => ?_) (fun _ => ?_)
    | with_reducible apply State.devOp_keeps
    | with_reducible apply State.acceptEffect_keeps
    | with_reducible apply State.opAccept_keeps
    | with_reducible refine Keeps.ite (fun _ => ?_) (fun _ => ?_)
    | split
    | with_reducible refine Keeps.upd rfl rfl rfl ?_
    | (intro _; dsimp only)
    | intro _

theorem execArmMpcOn_keeps (f : Fin 16) (w : TWord) (s : State) : KeepsR s (execArmMpcOn f w s) := by
  unfold execArmMpcOn
  try dsimp only
  repeat' first
    | with_reducible assumption
    | with_reducible exact Keeps.refl _
    | with_reducible refine KeepsR.next ?_
    | with_reducible refine KeepsR.ite (fun _ => ?_) (fun _ => ?_)
    | with_reducible apply State.devOp_keeps
    | with_reducible apply State.acceptEffect_keeps
    | with_reducible refine Keeps.ite (fun _ => ?_) (fun _ => ?_)
    | split
    | with_reducible refine Keeps.upd rfl rfl rfl ?_
    | (intro _; dsimp only)
    | intro _

theorem execArmMpcOff_keeps (f : Fin 16) (w : TWord) (s : State) : KeepsR s (execArmMpcOff f w s) := by
  unfold execArmMpcOff
  try dsimp only
  repeat' first
    | with_reducible assumption
    | with_reducible exact Keeps.refl _
    | with_reducible refine KeepsR.next ?_
    | with_reducible refine KeepsR.ite (fun _ => ?_) (fun _ => ?_)
    | with_reducible apply State.devOp_keeps
    | with_reducible apply State.acceptEffect_keeps
    | with_reducible refine Keeps.ite (fun _ => ?_) (fun _ => ?_)
    | split
    | with_reducible refine Keeps.upd rfl rfl rfl ?_
    | (intro _; dsimp only)
    | intro _

theorem execLoopLoad_keeps (f : Fin 16) (w : TWord) (s : State) : KeepsR s (execLoopLoad f w s) := by
  unfold execLoopLoad
  try dsimp only
  repeat' first
    | with_reducible assumption
    | with_reducible exact Keeps.refl _
    | with_reducible refine KeepsR.next ?_
    | with_reducible refine KeepsR.ite (fun _ => ?_) (fun _ => ?_)
    | with_reducible apply State.devOp_keeps
    | with_reducible apply State.modSlice_keeps
    | with_reducible apply State.opAccept_keeps
    | with_reducible refine Keeps.ite (fun _ => ?_) (fun _ => ?_)
    | split
    | with_reducible refine Keeps.upd rfl rfl rfl ?_
    | with_reducible refine Keeps.updOut rfl rfl rfl (List.suffix_cons _ _) ?_
    | (intro _; dsimp only)
    | intro _

theorem execLoopSwap_keeps (f : Fin 16) (w : TWord) (s : State) : KeepsR s (execLoopSwap f w s) := by
  unfold execLoopSwap
  try dsimp only
  repeat' first
    | with_reducible assumption
    | with_reducible exact Keeps.refl _
    | with_reducible refine KeepsR.next ?_
    | with_reducible refine KeepsR.ite (fun _ => ?_) (fun _ => ?_)
    | with_reducible apply State.devOp_keeps
    | with_reducible apply State.opIssue_keeps
    | with_reducible apply State.modSlice_keeps
    | with_reducible apply State.swapBank_keeps
    | with_reducible apply State.opAccept_keeps
    | with_reducible refine Keeps.ite (fun _ => ?_) (fun _ => ?_)
    | split
    | with_reducible refine Keeps.upd rfl rfl rfl ?_
    | (intro _; dsimp only)
    | intro _

theorem execFbMode_keeps (f : Fin 16) (w : TWord) (s : State) : KeepsR s (execFbMode f w s) := by
  unfold execFbMode
  try dsimp only
  repeat' first
    | with_reducible assumption
    | with_reducible exact Keeps.refl _
    | with_reducible refine KeepsR.next ?_
    | with_reducible refine KeepsR.ite (fun _ => ?_) (fun _ => ?_)
    | with_reducible apply State.devOp_keeps
    | with_reducible apply State.setFbMode_keeps
    | with_reducible apply State.opAccept_keeps
    | with_reducible refine Keeps.ite (fun _ => ?_) (fun _ => ?_)
    | split
    | with_reducible refine Keeps.upd rfl rfl rfl ?_
    | (intro _; dsimp only)
    | intro _

theorem execFbCompare_keeps (f : Fin 16) (w : TWord) (s : State) : KeepsR s (execFbCompare f w s) := by
  unfold execFbCompare
  try dsimp only
  repeat' first
    | with_reducible assumption
    | with_reducible exact Keeps.refl _
    | with_reducible refine KeepsR.next ?_
    | with_reducible refine KeepsR.ite (fun _ => ?_) (fun _ => ?_)
    | with_reducible apply State.devOp_keeps
    | with_reducible apply State.modCh_keeps
    | with_reducible apply State.opAccept_keeps
    | with_reducible refine Keeps.ite (fun _ => ?_) (fun _ => ?_)
    | split
    | with_reducible refine Keeps.upd rfl rfl rfl ?_
    | (intro _; dsimp only)
    | intro _

theorem execFbUnarm_keeps (f : Fin 16) (w : TWord) (s : State) : KeepsR s (execFbUnarm f w s) := by
  unfold execFbUnarm
  try dsimp only
  repeat' first
    | with_reducible assumption
    | with_reducible exact Keeps.refl _
    | with_reducible refine KeepsR.next ?_
    | with_reducible refine KeepsR.ite (fun _ => ?_) (fun _ => ?_)
    | with_reducible apply State.devOp_keeps
    | with_reducible apply State.modCh_keeps
    | with_reducible apply State.opAccept_keeps
    | with_reducible refine Keeps.ite (fun _ => ?_) (fun _ => ?_)
    | split
    | with_reducible refine Keeps.upd rfl rfl rfl ?_
    | (intro _; dsimp only)
    | intro _

theorem execSegLoad_keeps (f : Fin 16) (w : TWord) (s : State) : KeepsR s (execSegLoad f w s) := by
  unfold execSegLoad
  try dsimp only
  repeat' first
    | with_reducible assumption
    | with_reducible exact Keeps.refl _
    | with_reducible refine KeepsR.next ?_
    | with_reducible refine KeepsR.ite (fun _ => ?_) (fun _ => ?_)
    | with_reducible apply State.devOp_keeps
    | with_reducible apply State.opAccept_keeps
    | with_reducible refine Keeps.ite (fun _ => ?_) (fun _ => ?_)
    | split
    | with_reducible refine Keeps.upd rfl rfl rfl ?_
    | (intro _; dsimp only)
    | intro _

theorem execSegRun_keeps (f : Fin 16) (w : TWord) (s : State) : KeepsR s (execSegRun f w s) := by
  unfold execSegRun
  try dsimp only
  repeat' first
    | with_reducible assumption
    | with_reducible exact Keeps.refl _
    | with_reducible refine KeepsR.next ?_
    | with_reducible refine KeepsR.ite (fun _ => ?_) (fun _ => ?_)
    | with_reducible apply State.devOp_keeps
    | with_reducible apply State.acceptEffect_keeps
    | with_reducible refine Keeps.ite (fun _ => ?_) (fun _ => ?_)
    | split
    | with_reducible refine Keeps.upd rfl rfl rfl ?_
    | (intro _; dsimp only)
    | intro _

theorem execPlannerSample_keeps (a : Fin 80) (s : State) : KeepsR s (execPlannerSample a s) := by
  unfold execPlannerSample
  try dsimp only
  repeat' first
    | with_reducible assumption
    | with_reducible exact Keeps.refl _
    | with_reducible refine KeepsR.next ?_
    | with_reducible refine KeepsR.ite (fun _ => ?_) (fun _ => ?_)
    | with_reducible apply State.modPax_keeps

end Sys2Proof.Machine
end

