-- ==== Sys2Proof/Laws/Keeps3.lean ====
section
/-! SUPPORT. Each operation and each command of the files Loom.lean, SelvedgeBase.lean, SelvedgeImage.lean, Reed.lean, SelvedgeEval.lean keeps the relation `Keeps`: memory stays in
canonical form, cell time does not fall, and the queue, what has left the chip and the one-time-programmable memory stand. -/
namespace Sys2Proof.Machine

/-! ### Loom.lean -/

theorem State.modSlot_keeps {sK s : State} (d : Fin 8) (g : Slot → Slot) (hK : Keeps sK s) : Keeps sK (State.modSlot s d g) := by
  unfold State.modSlot
  try dsimp only
  repeat' first
    | with_reducible assumption
    | with_reducible exact Keeps.refl _
    | with_reducible refine Keeps.ite (fun _ => ?_) (fun _ => ?_)
    | split
    | with_reducible refine Keeps.upd rfl rfl rfl ?_

theorem State.modNode_keeps {sK s : State} (d : Fin 8) (c i : Nat) (g : NodeRec → NodeRec) (hK : Keeps sK s) : Keeps sK (State.modNode s d c i g) := by
  unfold State.modNode
  try dsimp only
  repeat' first
    | with_reducible assumption
    | with_reducible exact Keeps.refl _
    | with_reducible apply State.modSlot_keeps

theorem State.handOver_keeps {sK s : State} (x : DraftInst) (rate : Bool) (item : Nat) (out : KernelOut) (credit : Bool) (hK : Keeps sK s) : Keeps sK (State.handOver s x rate item out credit) := by
  unfold State.handOver
  try dsimp only
  repeat' first
    | with_reducible assumption
    | with_reducible exact Keeps.refl _
    | with_reducible apply State.modSlice_keeps
    | with_reducible apply State.interpArm_keeps
    | with_reducible apply State.take_keeps
    | with_reducible refine Keeps.ite (fun _ => ?_) (fun _ => ?_)
    | with_reducible refine Keeps.forEach (fun _ _ => ?_) ?_
    | split
    | with_reducible refine Keeps.upd rfl rfl rfl ?_
    | with_reducible refine Keeps.updOut rfl rfl rfl (List.suffix_cons _ _) ?_
    | with_reducible refine Keeps.updMem rfl rfl rfl (fun hw => memWriteList_wf _ _ _ hw) ?_

theorem State.voidNode_keeps {sK s : State} (d : Fin 8) (c i : Nat) (reason : Nat) (hK : Keeps sK s) : Keeps sK (State.voidNode s d c i reason) := by
  unfold State.voidNode
  try dsimp only
  repeat' first
    | with_reducible assumption
    | with_reducible exact Keeps.refl _
    | with_reducible apply State.modNode_keeps
    | with_reducible apply State.modSlot_keeps
    | with_reducible apply State.emit_keeps
    | with_reducible refine Keeps.ite (fun _ => ?_) (fun _ => ?_)
    | split
    | with_reducible refine Keeps.upd rfl rfl rfl ?_

theorem State.releaseNode_keeps {sK s : State} (d : Fin 8) (c i : Nat) (n : NodeRec) (hK : Keeps sK s) : Keeps sK (State.releaseNode s d c i n) := by
  unfold State.releaseNode
  try dsimp only
  repeat' first
    | with_reducible assumption
    | with_reducible exact Keeps.refl _
    | with_reducible apply State.modNode_keeps
    | with_reducible apply State.handOver_keeps
    | with_reducible refine Keeps.ite (fun _ => ?_) (fun _ => ?_)
    | split

theorem State.releaseAll_keeps {sK s : State}  (hK : Keeps sK s) : Keeps sK (State.releaseAll s) := by
  unfold State.releaseAll
  try dsimp only
  repeat' first
    | with_reducible assumption
    | with_reducible exact Keeps.refl _
    | with_reducible apply State.releaseNode_keeps
    | with_reducible refine Keeps.ite (fun _ => ?_) (fun _ => ?_)
    | with_reducible refine Keeps.forEach (fun _ _ => ?_) ?_

theorem State.dropInsts_keeps {sK s : State}  (hK : Keeps sK s) : Keeps sK (State.dropInsts s) := by
  unfold State.dropInsts
  try dsimp only
  repeat' first
    | with_reducible assumption
    | with_reducible exact Keeps.refl _
    | with_reducible apply State.modSlot_keeps
    | with_reducible refine Keeps.ite (fun _ => ?_) (fun _ => ?_)
    | with_reducible refine Keeps.forEach (fun _ _ => ?_) ?_

theorem State.becomeReady_keeps {sK s : State} (d : Fin 8) (c i : Nat) (hK : Keeps sK s) : Keeps sK (State.becomeReady s d c i) := by
  unfold State.becomeReady
  try dsimp only
  repeat' first
    | with_reducible assumption
    | with_reducible exact Keeps.refl _
    | with_reducible apply State.voidNode_keeps
    | with_reducible apply State.modNode_keeps
    | with_reducible refine Keeps.ite (fun _ => ?_) (fun _ => ?_)
    | split
    | with_reducible refine Keeps.upd rfl rfl rfl ?_

theorem State.loomAdvance_keeps {s0 : State} (fuel : Nat) {s : State} (h : Keeps s0 s) : Keeps s0 (State.loomAdvance fuel s) := by
  induction fuel generalizing s with
  | zero => unfold State.loomAdvance; exact h
  | succ n ih =>
    unfold State.loomAdvance
    dsimp only
    have h2 := State.dropInsts_keeps (State.releaseAll_keeps h)
    with_reducible refine Keeps.ite (fun _ => h2) (fun _ => ih ?_)
    with_reducible refine Keeps.forEach (fun t q => ?_) h2
    with_reducible apply State.becomeReady_keeps
    exact Keeps.refl t

theorem State.loomRun_keeps {s0 s : State} (h : Keeps s0 s) : Keeps s0 s.loomRun := State.loomAdvance_keeps _ h

theorem State.releaseDraft_keeps {sK s : State} (d : Fin 8) (index : BitVec 32) (t : Nat) (hK : Keeps sK s) : Keeps sK (State.releaseDraft s d index t) := by
  unfold State.releaseDraft
  try dsimp only
  repeat' first
    | with_reducible assumption
    | with_reducible exact Keeps.refl _
    | with_reducible apply State.modSlot_keeps
    | with_reducible apply State.emit_keeps
    | with_reducible refine Keeps.ite (fun _ => ?_) (fun _ => ?_)
    | split
    | with_reducible refine Keeps.upd rfl rfl rfl ?_

theorem State.releaseDrafts_keeps {sK s : State} (k b : BitVec 32) (edge : Bool) (t : Nat) (hK : Keeps sK s) : Keeps sK (State.releaseDrafts s k b edge t) := by
  unfold State.releaseDrafts
  try dsimp only
  repeat' first
    | with_reducible assumption
    | with_reducible exact Keeps.refl _
    | with_reducible apply State.releaseDraft_keeps
    | with_reducible apply State.loomRun_keeps
    | with_reducible refine Keeps.ite (fun _ => ?_) (fun _ => ?_)
    | with_reducible refine Keeps.forEach (fun _ _ => ?_) ?_

theorem State.unbindDrafts_keeps {sK s : State}  (hK : Keeps sK s) : Keeps sK (State.unbindDrafts s) := by
  unfold State.unbindDrafts
  try dsimp only
  repeat' first
    | with_reducible assumption
    | with_reducible exact Keeps.refl _
    | with_reducible apply State.modSlot_keeps
    | with_reducible refine Keeps.ite (fun _ => ?_) (fun _ => ?_)
    | with_reducible refine Keeps.forEach (fun _ _ => ?_) ?_
    | split
    | with_reducible refine Keeps.upd rfl rfl rfl ?_

theorem execReadyListEntry_keeps  (s : State) : KeepsR s (execReadyListEntry s) := by
  unfold execReadyListEntry
  try dsimp only
  repeat' first
    | with_reducible assumption
    | with_reducible exact Keeps.refl _
    | with_reducible refine KeepsR.next ?_
    | with_reducible refine KeepsR.ite (fun _ => ?_) (fun _ => ?_)
    | with_reducible apply State.modNode_keeps
    | with_reducible refine Keeps.ite (fun _ => ?_) (fun _ => ?_)
    | split
    | with_reducible refine Keeps.upd rfl rfl rfl ?_

theorem execNodeSelect_keeps (sh : Fin 16) (s : State) : KeepsR s (execNodeSelect sh s) := by
  unfold execNodeSelect
  try dsimp only
  repeat' first
    | with_reducible assumption
    | with_reducible exact Keeps.refl _
    | with_reducible refine KeepsR.next ?_
    | with_reducible refine KeepsR.ite (fun _ => ?_) (fun _ => ?_)
    | with_reducible apply State.modNode_keeps
    | with_reducible refine Keeps.ite (fun _ => ?_) (fun _ => ?_)
    | split
    | with_reducible refine Keeps.upd rfl rfl rfl ?_

theorem State.completeNode_keeps {sK s : State} (sh : Fin 16) (r : ReadyRec) (out : KernelOut) (reason : Option Nat) (hK : Keeps sK s) : Keeps sK (State.completeNode s sh r out reason) := by
  unfold State.completeNode
  try dsimp only
  repeat' first
    | with_reducible assumption
    | with_reducible exact Keeps.refl _
    | with_reducible apply State.voidNode_keeps
    | with_reducible apply State.modNode_keeps
    | with_reducible apply State.wrBytes_keeps
    | with_reducible apply State.loomRun_keeps
    | with_reducible refine Keeps.ite (fun _ => ?_) (fun _ => ?_)
    | with_reducible refine Keeps.forEach (fun _ _ => ?_) ?_
    | split
    | with_reducible refine Keeps.upd rfl rfl rfl ?_

theorem execNodeStart_keeps (sh : Fin 16) (addrOk : Bool) (s : State) : KeepsR s (execNodeStart sh addrOk s) := by
  unfold execNodeStart
  try dsimp only
  repeat' first
    | with_reducible assumption
    | with_reducible exact Keeps.refl _
    | with_reducible refine KeepsR.next ?_
    | with_reducible refine KeepsR.ite (fun _ => ?_) (fun _ => ?_)
    | with_reducible apply State.modNode_keeps
    | with_reducible apply State.completeNode_keeps
    | with_reducible refine Keeps.ite (fun _ => ?_) (fun _ => ?_)
    | split
    | with_reducible refine Keeps.upd rfl rfl rfl ?_

theorem execNodeComplete_keeps (sh : Fin 16) (out : KernelOut) (s : State) : KeepsR s (execNodeComplete sh out s) := by
  unfold execNodeComplete
  try dsimp only
  repeat' first
    | with_reducible assumption
    | with_reducible exact Keeps.refl _
    | with_reducible refine KeepsR.next ?_
    | with_reducible refine KeepsR.ite (fun _ => ?_) (fun _ => ?_)
    | with_reducible apply State.completeNode_keeps
    | with_reducible refine Keeps.ite (fun _ => ?_) (fun _ => ?_)
    | split

theorem execDraftLoad_keeps (f : Fin 16) (w : TWord) (s : State) : KeepsR s (execDraftLoad f w s) := by
  unfold execDraftLoad
  try dsimp only
  repeat' first
    | with_reducible assumption
    | with_reducible exact Keeps.refl _
    | with_reducible refine KeepsR.next ?_
    | with_reducible refine KeepsR.ite (fun _ => ?_) (fun _ => ?_)
    | with_reducible apply State.devOp_keeps
    | with_reducible apply State.wrBytes_keeps
    | with_reducible apply State.modSlot_keeps
    | with_reducible apply State.opAccept_keeps
    | with_reducible apply State.opIssue_keeps
    | with_reducible apply State.opDone_keeps
    | with_reducible refine Keeps.ite (fun _ => ?_) (fun _ => ?_)
    | split
    | with_reducible refine Keeps.upd rfl rfl rfl ?_
    | (intro _; dsimp only)
    | intro _

theorem execDraftBind_keeps (f : Fin 16) (w : TWord) (s : State) : KeepsR s (execDraftBind f w s) := by
  unfold execDraftBind
  try dsimp only
  repeat' first
    | with_reducible assumption
    | with_reducible exact Keeps.refl _
    | with_reducible refine KeepsR.next ?_
    | with_reducible refine KeepsR.ite (fun _ => ?_) (fun _ => ?_)
    | with_reducible apply State.devOp_keeps
    | with_reducible apply State.modSlot_keeps
    | with_reducible apply State.opAccept_keeps
    | with_reducible refine Keeps.ite (fun _ => ?_) (fun _ => ?_)
    | split
    | with_reducible refine Keeps.upd rfl rfl rfl ?_
    | (intro _; dsimp only)
    | intro _

theorem execDraftUnload_keeps (f : Fin 16) (w : TWord) (s : State) : KeepsR s (execDraftUnload f w s) := by
  unfold execDraftUnload
  try dsimp only
  repeat' first
    | with_reducible assumption
    | with_reducible exact Keeps.refl _
    | with_reducible refine KeepsR.next ?_
    | with_reducible refine KeepsR.ite (fun _ => ?_) (fun _ => ?_)
    | with_reducible apply State.devOp_keeps
    | with_reducible apply State.modSlot_keeps
    | with_reducible apply State.opAccept_keeps
    | with_reducible refine Keeps.ite (fun _ => ?_) (fun _ => ?_)
    | split
    | with_reducible refine Keeps.upd rfl rfl rfl ?_
    | (intro _; dsimp only)
    | intro _

theorem execLmWeightWrite_keeps (g : Fin 8) (v : BitVec 32) (s : State) : KeepsR s (execLmWeightWrite g v s) := by
  unfold execLmWeightWrite
  try dsimp only
  repeat' first
    | with_reducible assumption
    | with_reducible exact Keeps.refl _
    | with_reducible refine KeepsR.next ?_
    | with_reducible refine KeepsR.ite (fun _ => ?_) (fun _ => ?_)
    | with_reducible refine Keeps.ite (fun _ => ?_) (fun _ => ?_)
    | split
    | with_reducible refine Keeps.upd rfl rfl rfl ?_

theorem execLmHwmClr_keeps  (s : State) : KeepsR s (execLmHwmClr s) := by
  unfold execLmHwmClr
  try dsimp only
  repeat' first
    | with_reducible assumption
    | with_reducible exact Keeps.refl _
    | with_reducible refine KeepsR.next ?_
    | with_reducible refine KeepsR.ite (fun _ => ?_) (fun _ => ?_)
    | with_reducible refine Keeps.ite (fun _ => ?_) (fun _ => ?_)
    | split
    | with_reducible refine Keeps.upd rfl rfl rfl ?_

theorem execLmCntClr_keeps  (s : State) : KeepsR s (execLmCntClr s) := by
  unfold execLmCntClr
  try dsimp only
  repeat' first
    | with_reducible assumption
    | with_reducible exact Keeps.refl _
    | with_reducible refine KeepsR.next ?_
    | with_reducible refine KeepsR.ite (fun _ => ?_) (fun _ => ?_)
    | with_reducible refine Keeps.ite (fun _ => ?_) (fun _ => ?_)
    | split
    | with_reducible refine Keeps.upd rfl rfl rfl ?_

/-! ### SelvedgeBase.lean -/

theorem State.aonSet_keeps {sK s : State} (i : Nat) (hK : Keeps sK s) : Keeps sK (State.aonSet s i) := by
  unfold State.aonSet
  try dsimp only
  repeat' first
    | with_reducible assumption
    | with_reducible exact Keeps.refl _
    | with_reducible apply irqWatch_keeps
    | with_reducible refine Keeps.ite (fun _ => ?_) (fun _ => ?_)
    | split
    | with_reducible refine Keeps.upd rfl rfl rfl ?_

theorem State.setDevState_keeps {sK s : State} (st : DevState) (cause : Nat) (hK : Keeps sK s) : Keeps sK (State.setDevState s st cause) := by
  unfold State.setDevState
  try dsimp only
  repeat' first
    | with_reducible assumption
    | with_reducible exact Keeps.refl _
    | with_reducible apply State.aonSet_keeps
    | with_reducible apply State.emit_keeps
    | with_reducible apply State.ringRelay_keeps
    | with_reducible refine Keeps.ite (fun _ => ?_) (fun _ => ?_)
    | split
    | with_reducible refine Keeps.upd rfl rfl rfl ?_

theorem State.modSv_keeps {sK s : State} (g : Selvedge → Selvedge) (hK : Keeps sK s) : Keeps sK (State.modSv s g) := by
  unfold State.modSv
  try dsimp only
  repeat' first
    | with_reducible assumption
    | with_reducible exact Keeps.refl _
    | with_reducible refine Keeps.ite (fun _ => ?_) (fun _ => ?_)
    | split
    | with_reducible refine Keeps.upd rfl rfl rfl ?_

theorem State.modSvCh_keeps {sK s : State} (c : Fin 2) (g : SvCh → SvCh) (hK : Keeps sK s) : Keeps sK (State.modSvCh s c g) := by
  unfold State.modSvCh
  try dsimp only
  repeat' first
    | with_reducible assumption
    | with_reducible exact Keeps.refl _
    | with_reducible refine Keeps.ite (fun _ => ?_) (fun _ => ?_)
    | split
    | with_reducible refine Keeps.upd rfl rfl rfl ?_

theorem svWatch_keeps {s0 : State} (s : State) {s' : State} (h : Keeps s0 s') : Keeps s0 (svWatch s s') := by
  unfold svWatch
  refine Keeps.ite (fun _ => h) (fun _ => State.raise_keeps _ ?_)
  exact Keeps.upd rfl rfl rfl h

theorem State.svRec_keeps {sK s : State} (c : Fin 2) (code : BitVec 12) (p : List (BitVec 32)) (hK : Keeps sK s) : Keeps sK (State.svRec s c code p) := by
  unfold State.svRec
  try dsimp only
  repeat' first
    | with_reducible assumption
    | with_reducible exact Keeps.refl _
    | with_reducible apply State.emitSafe_keeps

theorem State.svFaultAxis_keeps {sK s : State} (a : Fin 80) (hK : Keeps sK s) : Keeps sK (State.svFaultAxis s a) := by
  unfold State.svFaultAxis
  try dsimp only
  repeat' first
    | with_reducible assumption
    | with_reducible exact Keeps.refl _
    | with_reducible apply State.faultAxis_keeps
    | with_reducible apply State.modAxis_keeps

theorem State.svPublish_keeps {sK s : State}  (hK : Keeps sK s) : Keeps sK (State.svPublish s) := by
  unfold State.svPublish
  try dsimp only
  repeat' first
    | with_reducible assumption
    | with_reducible exact Keeps.refl _
    | with_reducible apply State.svFaultAxis_keeps
    | with_reducible apply State.mpcSweep_keeps
    | with_reducible refine Keeps.ite (fun _ => ?_) (fun _ => ?_)
    | with_reducible refine Keeps.forEach (fun _ _ => ?_) ?_
    | split
    | with_reducible refine Keeps.upd rfl rfl rfl ?_

theorem State.svMotion_keeps {sK s : State}  (hK : Keeps sK s) : Keeps sK (State.svMotion s) := by
  unfold State.svMotion
  try dsimp only
  repeat' first
    | with_reducible assumption
    | with_reducible exact Keeps.refl _
    | with_reducible apply State.effectArmStop_keeps
    | with_reducible apply State.effectStop_keeps
    | with_reducible apply State.setAxis_keeps
    | with_reducible apply State.mpcSweep_keeps
    | with_reducible refine Keeps.ite (fun _ => ?_) (fun _ => ?_)
    | with_reducible refine Keeps.forEach (fun _ _ => ?_) ?_
    | split

theorem State.modSio_keeps {sK s : State} (g : Sio → Sio) (hK : Keeps sK s) : Keeps sK (State.modSio s g) := by
  unfold State.modSio
  try dsimp only
  repeat' first
    | with_reducible assumption
    | with_reducible exact Keeps.refl _
    | with_reducible refine Keeps.ite (fun _ => ?_) (fun _ => ?_)
    | split
    | with_reducible refine Keeps.upd rfl rfl rfl ?_

theorem State.ossdOpenCh_keeps {sK s : State} (c : Fin 2) (hK : Keeps sK s) : Keeps sK (State.ossdOpenCh s c) := by
  unfold State.ossdOpenCh
  try dsimp only
  repeat' first
    | with_reducible assumption
    | with_reducible exact Keeps.refl _
    | with_reducible apply State.modSio_keeps

theorem State.enterSafeHold_keeps {sK s : State} (cause : Nat) (hK : Keeps sK s) : Keeps sK (State.enterSafeHold s cause) := by
  unfold State.enterSafeHold
  try dsimp only
  repeat' first
    | with_reducible assumption
    | with_reducible exact Keeps.refl _
    | with_reducible apply State.setDevState_keeps
    | with_reducible apply State.faultAxis_keeps
    | with_reducible apply State.modSv_keeps
    | with_reducible apply State.unbindDrafts_keeps
    | with_reducible apply State.ossdOpenCh_keeps
    | with_reducible apply State.svPublish_keeps
    | with_reducible refine Keeps.ite (fun _ => ?_) (fun _ => ?_)
    | with_reducible refine Keeps.forEach (fun _ _ => ?_) ?_

theorem State.dropSetpoints_keeps {sK s : State}  (hK : Keeps sK s) : Keeps sK (State.dropSetpoints s) := by
  unfold State.dropSetpoints
  try dsimp only
  repeat' first
    | with_reducible assumption
    | with_reducible exact Keeps.refl _
    | with_reducible refine Keeps.ite (fun _ => ?_) (fun _ => ?_)
    | split
    | with_reducible refine Keeps.upd rfl rfl rfl ?_

theorem State.doubleFault_keeps {sK s : State} (f g : Nat × BitVec 12) (hK : Keeps sK s) : Keeps sK (State.doubleFault s f g) := by
  unfold State.doubleFault
  try dsimp only
  repeat' first
    | with_reducible assumption
    | with_reducible exact Keeps.refl _
    | with_reducible apply State.modSv_keeps
    | with_reducible apply State.svRec_keeps
    | with_reducible apply State.enterSafeHold_keeps
    | with_reducible apply State.dropSetpoints_keeps
    | with_reducible apply State.sendHeartbeat_keeps
    | with_reducible apply State.emit_keeps
    | with_reducible apply State.prSet_keeps
    | with_reducible apply State.pairCtl_keeps
    | with_reducible apply State.modPr_keeps
    | with_reducible apply State.alvLow_keeps
    | with_reducible refine Keeps.ite (fun _ => ?_) (fun _ => ?_)

theorem State.deviceFault_keeps {sK s : State} (f : Nat × BitVec 12) (hK : Keeps sK s) : Keeps sK (State.deviceFault s f) := by
  unfold State.deviceFault
  try dsimp only
  repeat' first
    | with_reducible assumption
    | with_reducible exact Keeps.refl _
    | with_reducible apply State.doubleFault_keeps
    | with_reducible apply State.modSv_keeps
    | with_reducible apply State.modPr_keeps
    | with_reducible apply State.pairCtl_keeps
    | with_reducible refine Keeps.ite (fun _ => ?_) (fun _ => ?_)
    | split

theorem State.pairMute_keeps {sK s : State}  (hK : Keeps sK s) : Keeps sK (State.pairMute s) := by
  unfold State.pairMute
  try dsimp only
  repeat' first
    | with_reducible assumption
    | with_reducible exact Keeps.refl _
    | with_reducible apply State.modPr_keeps
    | with_reducible apply State.alvLow_keeps
    | with_reducible apply State.dropSetpoints_keeps
    | with_reducible refine Keeps.ite (fun _ => ?_) (fun _ => ?_)

theorem State.svFault_keeps {sK s : State} (c : Fin 2) (diag : Nat) (hK : Keeps sK s) : Keeps sK (State.svFault s c diag) := by
  unfold State.svFault
  try dsimp only
  repeat' first
    | with_reducible assumption
    | with_reducible exact Keeps.refl _
    | with_reducible apply svWatch_keeps
    | with_reducible apply State.deviceFault_keeps
    | with_reducible apply State.follow_keeps
    | with_reducible apply State.modSvCh_keeps
    | with_reducible apply State.modSv_keeps
    | with_reducible apply State.svRec_keeps
    | with_reducible apply State.ossdOpenCh_keeps
    | with_reducible apply State.pairMute_keeps
    | with_reducible apply State.svPublish_keeps
    | with_reducible refine Keeps.ite (fun _ => ?_) (fun _ => ?_)

theorem State.ossdDeviceFault_keeps {sK s : State}  (hK : Keeps sK s) : Keeps sK (State.ossdDeviceFault s) := by
  unfold State.ossdDeviceFault
  try dsimp only
  repeat' first
    | with_reducible assumption
    | with_reducible exact Keeps.refl _
    | with_reducible apply State.modSvCh_keeps
    | with_reducible apply State.svRec_keeps
    | with_reducible apply svWatch_keeps
    | with_reducible apply State.deviceFault_keeps
    | with_reducible apply State.ossdOpenCh_keeps
    | with_reducible apply State.pairMute_keeps
    | with_reducible apply State.svPublish_keeps
    | with_reducible refine Keeps.ite (fun _ => ?_) (fun _ => ?_)
    | with_reducible refine Keeps.forEach (fun _ _ => ?_) ?_

/-! ### SelvedgeImage.lean -/

theorem State.copyWidth_keeps {sK s : State} (c : Fin 2) (hK : Keeps sK s) : Keeps sK (State.copyWidth s c) := by
  unfold State.copyWidth
  try dsimp only
  repeat' first
    | with_reducible assumption
    | with_reducible exact Keeps.refl _
    | with_reducible apply State.modSio_keeps

theorem State.sealWith_keeps {sK s : State} (b : List Byte) (len : Nat) (hK : Keeps sK s) : Keeps sK (State.sealWith s b len) := by
  unfold State.sealWith
  try dsimp only
  repeat' first
    | with_reducible assumption
    | with_reducible exact Keeps.refl _
    | with_reducible apply State.take_keeps
    | with_reducible apply State.modSv_keeps
    | with_reducible apply State.copyWidth_keeps
    | with_reducible apply State.svRec_keeps

theorem execSafeLoad_keeps (f : Fin 16) (w : TWord) (s : State) : KeepsR s (execSafeLoad f w s) := by
  unfold execSafeLoad
  try dsimp only
  repeat' first
    | with_reducible assumption
    | with_reducible exact Keeps.refl _
    | with_reducible refine KeepsR.next ?_
    | with_reducible refine KeepsR.ite (fun _ => ?_) (fun _ => ?_)
    | with_reducible apply State.devOp_keeps
    | with_reducible apply State.opIssue_keeps
    | with_reducible apply State.modSv_keeps
    | with_reducible refine Keeps.ite (fun _ => ?_) (fun _ => ?_)
    | split
    | with_reducible refine Keeps.upd rfl rfl rfl ?_
    | (intro _; dsimp only)
    | intro _

theorem execSafeLoadDecided_keeps  (s : State) : KeepsR s (execSafeLoadDecided s) := by
  unfold execSafeLoadDecided
  try dsimp only
  repeat' first
    | with_reducible assumption
    | with_reducible exact Keeps.refl _
    | with_reducible refine KeepsR.next ?_
    | with_reducible refine KeepsR.ite (fun _ => ?_) (fun _ => ?_)
    | with_reducible apply State.modSv_keeps
    | with_reducible apply State.opDone_keeps
    | with_reducible apply State.svRec_keeps
    | with_reducible apply svWatch_keeps
    | with_reducible apply State.sealWith_keeps
    | with_reducible apply State.svPublish_keeps
    | with_reducible refine Keeps.ite (fun _ => ?_) (fun _ => ?_)
    | split

theorem execSafeReset_keeps (f : Fin 16) (w : TWord) (s : State) : KeepsR s (execSafeReset f w s) := by
  unfold execSafeReset
  try dsimp only
  repeat' first
    | with_reducible assumption
    | with_reducible exact Keeps.refl _
    | with_reducible refine KeepsR.next ?_
    | with_reducible refine KeepsR.ite (fun _ => ?_) (fun _ => ?_)
    | with_reducible apply State.devOp_keeps
    | with_reducible apply State.opIssue_keeps
    | with_reducible apply State.modSv_keeps
    | with_reducible refine Keeps.ite (fun _ => ?_) (fun _ => ?_)
    | split
    | with_reducible refine Keeps.upd rfl rfl rfl ?_
    | (intro _; dsimp only)
    | intro _

/-! ### Reed.lean -/

theorem State.modRd_keeps {sK s : State} (g : Reed → Reed) (hK : Keeps sK s) : Keeps sK (State.modRd s g) := by
  unfold State.modRd
  try dsimp only
  repeat' first
    | with_reducible assumption
    | with_reducible exact Keeps.refl _
    | with_reducible refine Keeps.ite (fun _ => ?_) (fun _ => ?_)
    | split
    | with_reducible refine Keeps.upd rfl rfl rfl ?_

theorem State.modSens_keeps {sK s : State} (i : Fin 8) (g : ReedSensor → ReedSensor) (hK : Keeps sK s) : Keeps sK (State.modSens s i g) := by
  unfold State.modSens
  try dsimp only
  repeat' first
    | with_reducible assumption
    | with_reducible exact Keeps.refl _
    | with_reducible refine Keeps.ite (fun _ => ?_) (fun _ => ?_)
    | split
    | with_reducible refine Keeps.upd rfl rfl rfl ?_

theorem State.rdSet_keeps {sK s : State} (i : Nat) (hK : Keeps sK s) : Keeps sK (State.rdSet s i) := by
  unfold State.rdSet
  try dsimp only
  repeat' first
    | with_reducible assumption
    | with_reducible exact Keeps.refl _
    | with_reducible apply State.modRd_keeps

theorem State.reedStop_keeps {sK s : State}  (hK : Keeps sK s) : Keeps sK (State.reedStop s) := by
  unfold State.reedStop
  try dsimp only
  repeat' first
    | with_reducible assumption
    | with_reducible exact Keeps.refl _
    | with_reducible apply State.modRd_keeps

theorem State.reedRelease_keeps {sK s : State}  (hK : Keeps sK s) : Keeps sK (State.reedRelease s) := by
  unfold State.reedRelease
  try dsimp only
  repeat' first
    | with_reducible assumption
    | with_reducible exact Keeps.refl _
    | with_reducible apply State.modSens_keeps
    | with_reducible refine Keeps.ite (fun _ => ?_) (fun _ => ?_)
    | with_reducible refine Keeps.forEach (fun _ _ => ?_) ?_

theorem State.reedSlot_keeps {sK s : State} (i : Fin 8) (hK : Keeps sK s) : Keeps sK (State.reedSlot s i).2 := by
  unfold State.reedSlot
  try dsimp only
  repeat' first
    | with_reducible assumption
    | with_reducible exact Keeps.refl _
    | with_reducible apply State.modSens_keeps
    | with_reducible apply State.rdSet_keeps
    | with_reducible apply State.emit_keeps
    | with_reducible refine Keeps.iteSnd (fun _ => ?_) (fun _ => ?_)
    | with_reducible refine Keeps.ite (fun _ => ?_) (fun _ => ?_)
    | split

theorem State.rejectFrame_keeps {sK s : State} (i : Fin 8) (cause : Nat) (chB : Bool) (cap : BitVec 32) (hK : Keeps sK s) : Keeps sK (State.rejectFrame s i cause chB cap) := by
  unfold State.rejectFrame
  try dsimp only
  repeat' first
    | with_reducible assumption
    | with_reducible exact Keeps.refl _
    | with_reducible apply State.modSens_keeps
    | with_reducible apply State.rdSet_keeps
    | with_reducible apply State.emit_keeps
    | with_reducible refine Keeps.ite (fun _ => ?_) (fun _ => ?_)

theorem State.freeSlot_keeps {sK s : State} (i : Fin 8) (j : Fin 3) (hK : Keeps sK s) : Keeps sK (State.freeSlot s i j) := by
  unfold State.freeSlot
  try dsimp only
  repeat' first
    | with_reducible assumption
    | with_reducible exact Keeps.refl _
    | with_reducible apply State.modSens_keeps

theorem execFrameCheckDone_keeps (i : Fin 8) (j : Fin 3) (okA okB : Bool) (s : State) : KeepsR s (execFrameCheckDone i j okA okB s) := by
  unfold execFrameCheckDone
  try dsimp only
  repeat' first
    | with_reducible assumption
    | with_reducible exact Keeps.refl _
    | with_reducible refine KeepsR.next ?_
    | with_reducible refine KeepsR.ite (fun _ => ?_) (fun _ => ?_)
    | with_reducible apply State.rejectFrame_keeps
    | with_reducible apply State.freeSlot_keeps
    | with_reducible apply State.modSens_keeps
    | with_reducible apply State.reedRelease_keeps
    | with_reducible apply State.rdSet_keeps
    | with_reducible apply State.emit_keeps
    | with_reducible refine Keeps.ite (fun _ => ?_) (fun _ => ?_)
    | split

theorem State.reedSnapshot_keeps {sK s : State} (k : BitVec 32) (hK : Keeps sK s) : Keeps sK (State.reedSnapshot s k) := by
  unfold State.reedSnapshot
  try dsimp only
  repeat' first
    | with_reducible assumption
    | with_reducible exact Keeps.refl _
    | with_reducible apply State.modRd_keeps
    | with_reducible apply State.take_keeps
    | with_reducible apply State.rdSet_keeps
    | with_reducible apply State.emit_keeps
    | with_reducible refine Keeps.ite (fun _ => ?_) (fun _ => ?_)
    | with_reducible refine Keeps.forEach (fun _ _ => ?_) ?_

theorem execFusionCycleStart_keeps  (s : State) : KeepsR s (execFusionCycleStart s) := by
  unfold execFusionCycleStart
  try dsimp only
  repeat' first
    | with_reducible assumption
    | with_reducible exact Keeps.refl _
    | with_reducible refine KeepsR.next ?_
    | with_reducible refine KeepsR.ite (fun _ => ?_) (fun _ => ?_)
    | with_reducible apply State.modSens_keeps
    | with_reducible apply State.modRd_keeps
    | with_reducible apply State.reedRelease_keeps
    | with_reducible refine Keeps.ite (fun _ => ?_) (fun _ => ?_)
    | with_reducible refine Keeps.forEach (fun _ _ => ?_) ?_
    | with_reducible refine Keeps.fold (fun _ _ => ?_) ?_
    | split
    | with_reducible refine Keeps.upd rfl rfl rfl ?_

theorem State.startB_keeps {sK s : State}  (hK : Keeps sK s) : Keeps sK (State.startB s) := by
  unfold State.startB
  try dsimp only
  repeat' first
    | with_reducible assumption
    | with_reducible exact Keeps.refl _
    | with_reducible apply State.modRd_keeps

theorem execFusionDone_keeps  (s : State) : KeepsR s (execFusionDone s) := by
  unfold execFusionDone
  try dsimp only
  repeat' first
    | with_reducible assumption
    | with_reducible exact Keeps.refl _
    | with_reducible refine KeepsR.next ?_
    | with_reducible refine KeepsR.ite (fun _ => ?_) (fun _ => ?_)
    | with_reducible apply State.wrBytes_keeps
    | with_reducible apply State.modRd_keeps
    | with_reducible apply State.startB_keeps
    | with_reducible refine Keeps.ite (fun _ => ?_) (fun _ => ?_)
    | split

theorem State.compareEntries_keeps {sK s : State} (a b : Bool) (cycle : BitVec 64) (hK : Keeps sK s) : Keeps sK (State.compareEntries s a b cycle) := by
  unfold State.compareEntries
  try dsimp only
  repeat' first
    | with_reducible assumption
    | with_reducible exact Keeps.refl _
    | with_reducible apply State.modRd_keeps
    | with_reducible apply State.rdSet_keeps
    | with_reducible apply State.emit_keeps
    | with_reducible refine Keeps.ite (fun _ => ?_) (fun _ => ?_)
    | with_reducible refine Keeps.forEach (fun _ _ => ?_) ?_

theorem State.putEntry_keeps {sK s : State} (chB : Bool) (c : ReedCycle) (sn : Snap) (ws : List (BitVec 32)) (hK : Keeps sK s) : Keeps sK (State.putEntry s chB c sn ws) := by
  unfold State.putEntry
  try dsimp only
  repeat' first
    | with_reducible assumption
    | with_reducible exact Keeps.refl _
    | with_reducible apply State.wrBytes_keeps
    | with_reducible apply State.modRd_keeps
    | with_reducible apply State.compareEntries_keeps
    | with_reducible apply State.reedRelease_keeps
    | with_reducible refine Keeps.ite (fun _ => ?_) (fun _ => ?_)
    | split

theorem execChannelAFieldDone_keeps  (s : State) : KeepsR s (execChannelAFieldDone s) := by
  unfold execChannelAFieldDone
  try dsimp only
  repeat' first
    | with_reducible assumption
    | with_reducible exact Keeps.refl _
    | with_reducible refine KeepsR.next ?_
    | with_reducible refine KeepsR.ite (fun _ => ?_) (fun _ => ?_)
    | with_reducible apply State.wrBytes_keeps
    | with_reducible apply State.modRd_keeps
    | with_reducible refine Keeps.ite (fun _ => ?_) (fun _ => ?_)
    | split

theorem execChannelAEntryDone_keeps  (s : State) : KeepsR s (execChannelAEntryDone s) := by
  unfold execChannelAEntryDone
  try dsimp only
  repeat' first
    | with_reducible assumption
    | with_reducible exact Keeps.refl _
    | with_reducible refine KeepsR.next ?_
    | with_reducible refine KeepsR.ite (fun _ => ?_) (fun _ => ?_)
    | with_reducible apply State.putEntry_keeps
    | with_reducible refine Keeps.ite (fun _ => ?_) (fun _ => ?_)
    | split

theorem execChannelBEntryDone_keeps  (s : State) : KeepsR s (execChannelBEntryDone s) := by
  unfold execChannelBEntryDone
  try dsimp only
  repeat' first
    | with_reducible assumption
    | with_reducible exact Keeps.refl _
    | with_reducible refine KeepsR.next ?_
    | with_reducible refine KeepsR.ite (fun _ => ?_) (fun _ => ?_)
    | with_reducible apply State.putEntry_keeps
    | with_reducible apply State.startB_keeps
    | with_reducible refine Keeps.ite (fun _ => ?_) (fun _ => ?_)
    | split

theorem execReedRunWrite_keeps (v : BitVec 32) (s : State) : KeepsR s (execReedRunWrite v s) := by
  unfold execReedRunWrite
  try dsimp only
  repeat' first
    | with_reducible assumption
    | with_reducible exact Keeps.refl _
    | with_reducible refine KeepsR.next ?_
    | with_reducible refine KeepsR.ite (fun _ => ?_) (fun _ => ?_)
    | with_reducible apply State.rdSet_keeps
    | with_reducible apply State.modRd_keeps
    | with_reducible apply State.reedStop_keeps

theorem execReedCntClr_keeps  (s : State) : KeepsR s (execReedCntClr s) := by
  unfold execReedCntClr
  try dsimp only
  repeat' first
    | with_reducible assumption
    | with_reducible exact Keeps.refl _
    | with_reducible refine KeepsR.next ?_
    | with_reducible refine KeepsR.ite (fun _ => ?_) (fun _ => ?_)
    | with_reducible apply State.modRd_keeps

theorem execReedConfigWrite_keeps (off : BitVec 12) (v : BitVec 32) (s : State) : KeepsR s (execReedConfigWrite off v s) := by
  unfold execReedConfigWrite
  try dsimp only
  repeat' first
    | with_reducible assumption
    | with_reducible exact Keeps.refl _
    | with_reducible refine KeepsR.next ?_
    | with_reducible refine KeepsR.ite (fun _ => ?_) (fun _ => ?_)
    | with_reducible apply State.rdSet_keeps
    | with_reducible apply State.modRd_keeps

theorem execRdSensLastLoRead_keeps (i : Fin 8) (s : State) : KeepsR s (execRdSensLastLoRead i s) := by
  unfold execRdSensLastLoRead
  try dsimp only
  repeat' first
    | with_reducible assumption
    | with_reducible exact Keeps.refl _
    | with_reducible refine KeepsR.next ?_
    | with_reducible refine KeepsR.ite (fun _ => ?_) (fun _ => ?_)
    | with_reducible apply State.modSens_keeps
    | with_reducible refine Keeps.ite (fun _ => ?_) (fun _ => ?_)
    | split
    | with_reducible refine Keeps.upd rfl rfl rfl ?_

theorem execRdCycleLoRead_keeps  (s : State) : KeepsR s (execRdCycleLoRead s) := by
  unfold execRdCycleLoRead
  try dsimp only
  repeat' first
    | with_reducible assumption
    | with_reducible exact Keeps.refl _
    | with_reducible refine KeepsR.next ?_
    | with_reducible refine KeepsR.ite (fun _ => ?_) (fun _ => ?_)
    | with_reducible apply State.modRd_keeps
    | with_reducible refine Keeps.ite (fun _ => ?_) (fun _ => ?_)
    | split
    | with_reducible refine Keeps.upd rfl rfl rfl ?_

/-! ### SelvedgeEval.lean -/

theorem State.svJoints_keeps {sK s : State} (c : Fin 2) (r : Fin 8) (hK : Keeps sK s) : Keeps sK (State.svJoints s c r) := by
  unfold State.svJoints
  try dsimp only
  repeat' first
    | with_reducible assumption
    | with_reducible exact Keeps.refl _
    | with_reducible apply State.modSvCh_keeps
    | with_reducible apply State.svRec_keeps
    | with_reducible refine Keeps.ite (fun _ => ?_) (fun _ => ?_)
    | with_reducible refine Keeps.forEach (fun _ _ => ?_) ?_

theorem State.pairFault_keeps {sK s : State} (c : Fin 2) (p : Fin 16) (hK : Keeps sK s) : Keeps sK (State.pairFault s c p) := by
  unfold State.pairFault
  try dsimp only
  repeat' first
    | with_reducible assumption
    | with_reducible exact Keeps.refl _
    | with_reducible apply State.modSvCh_keeps
    | with_reducible apply State.svRec_keeps
    | with_reducible refine Keeps.ite (fun _ => ?_) (fun _ => ?_)

theorem State.svPair_keeps {sK s : State} (c : Fin 2) (t : Nat) (p : Fin 16) (hK : Keeps sK s) : Keeps sK (State.svPair s c t p) := by
  unfold State.svPair
  try dsimp only
  repeat' first
    | with_reducible assumption
    | with_reducible exact Keeps.refl _
    | with_reducible apply State.modSvCh_keeps
    | with_reducible apply State.pairFault_keeps
    | with_reducible refine Keeps.ite (fun _ => ?_) (fun _ => ?_)
    | split

theorem State.setDemand_keeps {sK s : State} (c : Fin 2) (i : Fin 32) (d : Bool) (hK : Keeps sK s) : Keeps sK (State.setDemand s c i d) := by
  unfold State.setDemand
  try dsimp only
  repeat' first
    | with_reducible assumption
    | with_reducible exact Keeps.refl _
    | with_reducible apply State.modSvCh_keeps
    | with_reducible apply State.svRec_keeps
    | with_reducible refine Keeps.ite (fun _ => ?_) (fun _ => ?_)

theorem State.svFunctions_keeps {sK s : State} (c : Fin 2) (t : Nat) (hK : Keeps sK s) : Keeps sK (State.svFunctions s c t) := by
  unfold State.svFunctions
  try dsimp only
  repeat' first
    | with_reducible assumption
    | with_reducible exact Keeps.refl _
    | with_reducible apply State.modSvCh_keeps
    | with_reducible apply State.setDemand_keeps
    | with_reducible refine Keeps.ite (fun _ => ?_) (fun _ => ?_)
    | with_reducible refine Keeps.forEach (fun _ _ => ?_) ?_

theorem State.svAge_keeps {sK s : State} (c : Fin 2) (t : Nat) (hK : Keeps sK s) : Keeps sK (State.svAge s c t) := by
  unfold State.svAge
  try dsimp only
  repeat' first
    | with_reducible assumption
    | with_reducible exact Keeps.refl _
    | with_reducible apply State.modSvCh_keeps
    | with_reducible apply State.svRec_keeps
    | with_reducible refine Keeps.ite (fun _ => ?_) (fun _ => ?_)

theorem State.svSsm_keeps {sK s : State} (c : Fin 2) (t : Nat) (r : Fin 8) (hK : Keeps sK s) : Keeps sK (State.svSsm s c t r) := by
  unfold State.svSsm
  try dsimp only
  repeat' first
    | with_reducible assumption
    | with_reducible exact Keeps.refl _
    | with_reducible apply State.modSvCh_keeps
    | with_reducible apply State.svRec_keeps
    | with_reducible refine Keeps.ite (fun _ => ?_) (fun _ => ?_)

theorem State.svLocal_keeps {sK s : State} (c : Fin 2) (t : Nat) (hK : Keeps sK s) : Keeps sK (State.svLocal s c t) := by
  unfold State.svLocal
  try dsimp only
  repeat' first
    | with_reducible assumption
    | with_reducible exact Keeps.refl _
    | with_reducible apply State.modSvCh_keeps
    | with_reducible apply State.svJoints_keeps
    | with_reducible apply State.svPair_keeps
    | with_reducible apply State.svFunctions_keeps
    | with_reducible apply State.svAge_keeps
    | with_reducible apply State.svSsm_keeps
    | with_reducible refine Keeps.ite (fun _ => ?_) (fun _ => ?_)
    | with_reducible refine Keeps.forEach (fun _ _ => ?_) ?_

theorem State.svPositions_keeps {sK s : State} (c : Fin 2) (hK : Keeps sK s) : Keeps sK (State.svPositions s c) := by
  unfold State.svPositions
  try dsimp only
  repeat' first
    | with_reducible assumption
    | with_reducible exact Keeps.refl _
    | with_reducible apply State.modSvCh_keeps
    | with_reducible apply State.svRec_keeps
    | with_reducible refine Keeps.ite (fun _ => ?_) (fun _ => ?_)
    | with_reducible refine Keeps.forEach (fun _ _ => ?_) ?_

theorem State.svDistances_keeps {sK s : State} (c : Fin 2) (t : Nat) (hK : Keeps sK s) : Keeps sK (State.svDistances s c t) := by
  unfold State.svDistances
  try dsimp only
  repeat' first
    | with_reducible assumption
    | with_reducible exact Keeps.refl _
    | with_reducible apply State.modSvCh_keeps
    | with_reducible apply State.modSv_keeps
    | with_reducible apply State.svRec_keeps
    | with_reducible refine Keeps.ite (fun _ => ?_) (fun _ => ?_)
    | with_reducible refine Keeps.forEach (fun _ _ => ?_) ?_
    | split

theorem State.svArmStop_keeps {sK s : State} (c : Fin 2) (t : Nat) (r : Fin 8) (hK : Keeps sK s) : Keeps sK (State.svArmStop s c t r) := by
  unfold State.svArmStop
  try dsimp only
  repeat' first
    | with_reducible assumption
    | with_reducible exact Keeps.refl _
    | with_reducible apply State.modSvCh_keeps
    | with_reducible apply State.svRec_keeps
    | with_reducible refine Keeps.ite (fun _ => ?_) (fun _ => ?_)
    | split

theorem State.svAuxStop_keeps {sK s : State} (c : Fin 2) (t : Nat) (j : Fin 16) (hK : Keeps sK s) : Keeps sK (State.svAuxStop s c t j) := by
  unfold State.svAuxStop
  try dsimp only
  repeat' first
    | with_reducible assumption
    | with_reducible exact Keeps.refl _
    | with_reducible apply State.modSvCh_keeps
    | with_reducible apply State.svRec_keeps
    | with_reducible refine Keeps.ite (fun _ => ?_) (fun _ => ?_)
    | split

theorem State.svStops_keeps {sK s : State} (c : Fin 2) (t : Nat) (hK : Keeps sK s) : Keeps sK (State.svStops s c t) := by
  unfold State.svStops
  try dsimp only
  repeat' first
    | with_reducible assumption
    | with_reducible exact Keeps.refl _
    | with_reducible apply State.svArmStop_keeps
    | with_reducible apply State.svAuxStop_keeps
    | with_reducible refine Keeps.ite (fun _ => ?_) (fun _ => ?_)
    | with_reducible refine Keeps.forEach (fun _ _ => ?_) ?_

theorem State.resetDo_keeps {sK s : State} (c : Fin 2) (t : BitVec 8) (hK : Keeps sK s) : Keeps sK (State.resetDo s c t) := by
  unfold State.resetDo
  try dsimp only
  repeat' first
    | with_reducible assumption
    | with_reducible exact Keeps.refl _
    | with_reducible apply State.modSvCh_keeps
    | with_reducible apply State.setDemand_keeps
    | with_reducible apply State.svRec_keeps
    | with_reducible refine Keeps.ite (fun _ => ?_) (fun _ => ?_)

theorem State.svResets_keeps {sK s : State}  (hK : Keeps sK s) : Keeps sK (State.svResets s) := by
  unfold State.svResets
  try dsimp only
  repeat' first
    | with_reducible assumption
    | with_reducible exact Keeps.refl _
    | with_reducible apply State.opDone_keeps
    | with_reducible apply State.resetDo_keeps
    | with_reducible refine Keeps.ite (fun _ => ?_) (fun _ => ?_)
    | with_reducible refine Keeps.forEach (fun _ _ => ?_) ?_
    | split
    | with_reducible refine Keeps.upd rfl rfl rfl ?_

theorem State.ossdUpdate_keeps {sK s : State}  (hK : Keeps sK s) : Keeps sK (State.ossdUpdate s) := by
  unfold State.ossdUpdate
  try dsimp only
  repeat' first
    | with_reducible assumption
    | with_reducible exact Keeps.refl _
    | with_reducible apply State.modSio_keeps

theorem State.sendSafety_keeps {sK s : State}  (hK : Keeps sK s) : Keeps sK (State.sendSafety s) := by
  unfold State.sendSafety
  try dsimp only
  repeat' first
    | with_reducible assumption
    | with_reducible exact Keeps.refl _
    | with_reducible refine Keeps.ite (fun _ => ?_) (fun _ => ?_)
    | split
    | with_reducible refine Keeps.upd rfl rfl rfl ?_
    | with_reducible refine Keeps.updOut rfl rfl rfl (List.suffix_cons _ _) ?_

theorem State.svForeign_keeps {sK s : State} (t : Nat) (hK : Keeps sK s) : Keeps sK (State.svForeign s t) := by
  unfold State.svForeign
  try dsimp only
  repeat' first
    | with_reducible assumption
    | with_reducible exact Keeps.refl _
    | with_reducible apply State.modSvCh_keeps
    | with_reducible apply State.pairFault_keeps
    | with_reducible refine Keeps.ite (fun _ => ?_) (fun _ => ?_)
    | with_reducible refine Keeps.forEach (fun _ _ => ?_) ?_
    | split

theorem execSelvedgeEvaluation_keeps  (s : State) : KeepsR s (execSelvedgeEvaluation s) := by
  unfold execSelvedgeEvaluation
  try dsimp only
  repeat' first
    | with_reducible assumption
    | with_reducible exact Keeps.refl _
    | with_reducible refine KeepsR.next ?_
    | with_reducible refine KeepsR.ite (fun _ => ?_) (fun _ => ?_)
    | with_reducible apply State.svFault_keeps
    | with_reducible apply State.svLocal_keeps
    | with_reducible apply State.svPositions_keeps
    | with_reducible apply State.svDistances_keeps
    | with_reducible apply State.svForeign_keeps
    | with_reducible apply State.svResets_keeps
    | with_reducible apply State.svStops_keeps
    | with_reducible apply State.svPublish_keeps
    | with_reducible apply State.ossdUpdate_keeps
    | with_reducible apply svWatch_keeps
    | with_reducible apply State.sendSafety_keeps
    | with_reducible refine Keeps.ite (fun _ => ?_) (fun _ => ?_)
    | with_reducible refine Keeps.forEach (fun _ _ => ?_) ?_

end Sys2Proof.Machine
end

