-- ==== Sys2Proof/Laws/Keeps4.lean ====
section
/-! SUPPORT. Each operation and each command of the files Selvedge.lean, SafetyIo.lean, SafetyLayer.lean, StepperLinks.lean, Churn.lean, TimeBase.lean, SwitchBase.lean keeps the relation `Keeps`: memory stays in
canonical form, cell time does not fall, and the queue, what has left the chip and the one-time-programmable memory stand. -/
namespace Sys2Proof.Machine

/-! ### Selvedge.lean -/

theorem State.crossFault_keeps {sK s : State} (c : Fin 2) (diag : Nat) (hK : Keeps sK s) : Keeps sK (State.crossFault s c diag) := by
  unfold State.crossFault
  try dsimp only
  repeat' first
    | with_reducible assumption
    | with_reducible exact Keeps.refl _
    | with_reducible apply State.svFault_keeps

theorem execCrossLinkMessage_keeps (c : Fin 2) (m : XMsg) (s : State) : KeepsR s (execCrossLinkMessage c m s) := by
  unfold execCrossLinkMessage
  try dsimp only
  repeat' first
    | with_reducible assumption
    | with_reducible exact Keeps.refl _
    | with_reducible refine KeepsR.next ?_
    | with_reducible refine KeepsR.ite (fun _ => ?_) (fun _ => ?_)
    | with_reducible apply State.crossFault_keeps
    | with_reducible apply State.modSvCh_keeps
    | with_reducible refine Keeps.ite (fun _ => ?_) (fun _ => ?_)
    | split

theorem execLockstepMismatch_keeps (c : Fin 2) (s : State) : KeepsR s (execLockstepMismatch c s) := by
  unfold execLockstepMismatch
  try dsimp only
  repeat' first
    | with_reducible assumption
    | with_reducible exact Keeps.refl _
    | with_reducible refine KeepsR.next ?_
    | with_reducible refine KeepsR.ite (fun _ => ?_) (fun _ => ?_)
    | with_reducible apply State.svFault_keeps

theorem execSupplyMonitorTrip_keeps (c : Fin 2) (io : Bool) (s : State) : KeepsR s (execSupplyMonitorTrip c io s) := by
  unfold execSupplyMonitorTrip
  try dsimp only
  repeat' first
    | with_reducible assumption
    | with_reducible exact Keeps.refl _
    | with_reducible refine KeepsR.next ?_
    | with_reducible refine KeepsR.ite (fun _ => ?_) (fun _ => ?_)
    | with_reducible apply State.modSio_keeps
    | with_reducible apply State.ossdOpenCh_keeps
    | with_reducible apply State.svFault_keeps
    | with_reducible refine Keeps.ite (fun _ => ?_) (fun _ => ?_)

theorem State.svAgain_keeps {sK s : State} (c : Fin 2) (t : Nat) (hK : Keeps sK s) : Keeps sK (State.svAgain s c t) := by
  unfold State.svAgain
  try dsimp only
  repeat' first
    | with_reducible assumption
    | with_reducible exact Keeps.refl _
    | with_reducible apply State.svStops_keeps
    | with_reducible apply State.svPublish_keeps
    | with_reducible apply State.ossdUpdate_keeps

theorem execPairDiscrepancyTimeout_keeps (c : Fin 2) (p : Fin 16) (s : State) : KeepsR s (execPairDiscrepancyTimeout c p s) := by
  unfold execPairDiscrepancyTimeout
  try dsimp only
  repeat' first
    | with_reducible assumption
    | with_reducible exact Keeps.refl _
    | with_reducible refine KeepsR.next ?_
    | with_reducible refine KeepsR.ite (fun _ => ?_) (fun _ => ?_)
    | with_reducible apply State.reach_keeps
    | with_reducible apply State.pairFault_keeps
    | with_reducible refine Keeps.ite (fun _ => ?_) (fun _ => ?_)
    | split

theorem execLightCurtainTimeout_keeps (c : Fin 2) (i : Fin 32) (s : State) : KeepsR s (execLightCurtainTimeout c i s) := by
  unfold execLightCurtainTimeout
  try dsimp only
  repeat' first
    | with_reducible assumption
    | with_reducible exact Keeps.refl _
    | with_reducible refine KeepsR.next ?_
    | with_reducible refine KeepsR.ite (fun _ => ?_) (fun _ => ?_)
    | with_reducible apply State.reach_keeps
    | with_reducible apply State.setDemand_keeps
    | with_reducible apply State.svAgain_keeps
    | with_reducible refine Keeps.ite (fun _ => ?_) (fun _ => ?_)
    | split

theorem execStopTimeout_keeps (c : Fin 2) (target : Nat) (s : State) : KeepsR s (execStopTimeout c target s) := by
  unfold execStopTimeout
  try dsimp only
  repeat' first
    | with_reducible assumption
    | with_reducible exact Keeps.refl _
    | with_reducible refine KeepsR.next ?_
    | with_reducible refine KeepsR.ite (fun _ => ?_) (fun _ => ?_)
    | with_reducible apply State.reach_keeps
    | with_reducible apply State.svArmStop_keeps
    | with_reducible apply State.svAuxStop_keeps
    | with_reducible apply State.svPublish_keeps
    | with_reducible apply State.ossdUpdate_keeps
    | with_reducible refine Keeps.ite (fun _ => ?_) (fun _ => ?_)
    | split

/-! ### SafetyIo.lean -/

theorem State.modHalf_keeps {sK s : State} (h : Fin 2) (g : SioHalf → SioHalf) (hK : Keeps sK s) : Keeps sK (State.modHalf s h g) := by
  unfold State.modHalf
  try dsimp only
  repeat' first
    | with_reducible assumption
    | with_reducible exact Keeps.refl _
    | with_reducible apply State.modSio_keeps

theorem State.sioRec_keeps {sK s : State} (h : Fin 2) (code : BitVec 12) (w : BitVec 32) (hK : Keeps sK s) : Keeps sK (State.sioRec s h code w) := by
  unfold State.sioRec
  try dsimp only
  repeat' first
    | with_reducible assumption
    | with_reducible exact Keeps.refl _
    | with_reducible apply State.emitSafe_keeps

theorem execSafetyInputLevelChange_keeps (half : Fin 2) (pin : Fin 32) (level : Bool) (s : State) : KeepsR s (execSafetyInputLevelChange half pin level s) := by
  unfold execSafetyInputLevelChange
  try dsimp only
  repeat' first
    | with_reducible assumption
    | with_reducible exact Keeps.refl _
    | with_reducible refine KeepsR.next ?_
    | with_reducible refine KeepsR.ite (fun _ => ?_) (fun _ => ?_)
    | with_reducible apply State.modHalf_keeps

theorem execTestPulseStart_keeps (n : Fin 8) (a b : BitVec 32) (s : State) : KeepsR s (execTestPulseStart n a b s) := by
  unfold execTestPulseStart
  try dsimp only
  repeat' first
    | with_reducible assumption
    | with_reducible exact Keeps.refl _
    | with_reducible refine KeepsR.next ?_
    | with_reducible refine KeepsR.ite (fun _ => ?_) (fun _ => ?_)
    | with_reducible apply State.modHalf_keeps
    | with_reducible apply State.modSio_keeps

theorem State.tpTest_keeps {sK s : State} (c : Fin 2) (n : Fin 8) (kind : Bool) (i : Nat) (fail : Bool) (hK : Keeps sK s) : Keeps sK (State.tpTest s c n kind i fail) := by
  unfold State.tpTest
  try dsimp only
  repeat' first
    | with_reducible assumption
    | with_reducible exact Keeps.refl _
    | with_reducible apply State.modHalf_keeps
    | with_reducible apply State.sioRec_keeps
    | with_reducible refine Keeps.ite (fun _ => ?_) (fun _ => ?_)

theorem State.railFault_keeps {sK s : State} (n : Fin 8) (stuckOn : Bool) (hK : Keeps sK s) : Keeps sK (State.railFault s n stuckOn) := by
  unfold State.railFault
  try dsimp only
  repeat' first
    | with_reducible assumption
    | with_reducible exact Keeps.refl _
    | with_reducible apply State.sioRec_keeps
    | with_reducible apply State.modHalf_keeps
    | with_reducible refine Keeps.ite (fun _ => ?_) (fun _ => ?_)
    | with_reducible refine Keeps.forEach (fun _ _ => ?_) ?_

theorem execTestPulseSample_keeps (n : Fin 8) (a b : BitVec 32) (tps : BitVec 8) (s : State) : KeepsR s (execTestPulseSample n a b tps s) := by
  unfold execTestPulseSample
  try dsimp only
  repeat' first
    | with_reducible assumption
    | with_reducible exact Keeps.refl _
    | with_reducible refine KeepsR.next ?_
    | with_reducible refine KeepsR.ite (fun _ => ?_) (fun _ => ?_)
    | with_reducible apply State.tpTest_keeps
    | with_reducible apply State.modHalf_keeps
    | with_reducible apply State.modSio_keeps
    | with_reducible apply State.railFault_keeps
    | with_reducible refine Keeps.ite (fun _ => ?_) (fun _ => ?_)
    | with_reducible refine Keeps.forEach (fun _ _ => ?_) ?_

theorem execTestPulseEnd_keeps (n : Fin 8) (s : State) : KeepsR s (execTestPulseEnd n s) := by
  unfold execTestPulseEnd
  try dsimp only
  repeat' first
    | with_reducible assumption
    | with_reducible exact Keeps.refl _
    | with_reducible refine KeepsR.next ?_
    | with_reducible refine KeepsR.ite (fun _ => ?_) (fun _ => ?_)
    | with_reducible apply State.modSio_keeps

theorem execPulseHoldEnd_keeps (n : Fin 8) (a b : BitVec 32) (s : State) : KeepsR s (execPulseHoldEnd n a b s) := by
  unfold execPulseHoldEnd
  try dsimp only
  repeat' first
    | with_reducible assumption
    | with_reducible exact Keeps.refl _
    | with_reducible refine KeepsR.next ?_
    | with_reducible refine KeepsR.ite (fun _ => ?_) (fun _ => ?_)
    | with_reducible apply State.tpTest_keeps
    | with_reducible apply State.modSio_keeps
    | with_reducible refine Keeps.ite (fun _ => ?_) (fun _ => ?_)
    | with_reducible refine Keeps.forEach (fun _ _ => ?_) ?_

theorem State.modOssd_keeps {sK s : State} (n : Fin 8) (g : Ossd → Ossd) (hK : Keeps sK s) : Keeps sK (State.modOssd s n g) := by
  unfold State.modOssd
  try dsimp only
  repeat' first
    | with_reducible assumption
    | with_reducible exact Keeps.refl _
    | with_reducible apply State.modSio_keeps

theorem State.ossdFault_keeps {sK s : State} (n : Fin 8) (cause : Nat) (halves : List (Fin 2)) (hK : Keeps sK s) : Keeps sK (State.ossdFault s n cause halves) := by
  unfold State.ossdFault
  try dsimp only
  repeat' first
    | with_reducible assumption
    | with_reducible exact Keeps.refl _
    | with_reducible apply State.modOssd_keeps
    | with_reducible apply State.sioRec_keeps
    | with_reducible apply State.ossdDeviceFault_keeps
    | with_reducible refine Keeps.ite (fun _ => ?_) (fun _ => ?_)
    | with_reducible refine Keeps.forEach (fun _ _ => ?_) ?_

theorem execOssdHighSideCheck_keeps (n : Fin 8) (p q : Vector Bool 2) (s : State) : KeepsR s (execOssdHighSideCheck n p q s) := by
  unfold execOssdHighSideCheck
  try dsimp only
  repeat' first
    | with_reducible assumption
    | with_reducible exact Keeps.refl _
    | with_reducible refine KeepsR.next ?_
    | with_reducible refine KeepsR.ite (fun _ => ?_) (fun _ => ?_)
    | with_reducible apply State.reach_keeps
    | with_reducible apply State.modOssd_keeps
    | with_reducible apply State.ossdFault_keeps
    | with_reducible refine Keeps.ite (fun _ => ?_) (fun _ => ?_)
    | split
    | with_reducible refine Keeps.upd rfl rfl rfl ?_

theorem execOssdLowSideCheck_keeps (n : Fin 8) (p q : Vector Bool 2) (s : State) : KeepsR s (execOssdLowSideCheck n p q s) := by
  unfold execOssdLowSideCheck
  try dsimp only
  repeat' first
    | with_reducible assumption
    | with_reducible exact Keeps.refl _
    | with_reducible refine KeepsR.next ?_
    | with_reducible refine KeepsR.ite (fun _ => ?_) (fun _ => ?_)
    | with_reducible apply State.reach_keeps
    | with_reducible apply State.modOssd_keeps
    | with_reducible apply State.ossdFault_keeps

theorem execOssdMismatchFault_keeps (n : Fin 8) (half : Fin 2) (p q : Bool) (s : State) : KeepsR s (execOssdMismatchFault n half p q s) := by
  unfold execOssdMismatchFault
  try dsimp only
  repeat' first
    | with_reducible assumption
    | with_reducible exact Keeps.refl _
    | with_reducible refine KeepsR.next ?_
    | with_reducible refine KeepsR.ite (fun _ => ?_) (fun _ => ?_)
    | with_reducible apply State.reach_keeps
    | with_reducible apply State.modOssd_keeps
    | with_reducible apply State.ossdFault_keeps

theorem execDarkTestStart_keeps (n : Fin 8) (half : Fin 2) (s : State) : KeepsR s (execDarkTestStart n half s) := by
  unfold execDarkTestStart
  try dsimp only
  repeat' first
    | with_reducible assumption
    | with_reducible exact Keeps.refl _
    | with_reducible refine KeepsR.next ?_
    | with_reducible refine KeepsR.ite (fun _ => ?_) (fun _ => ?_)
    | with_reducible apply State.modOssd_keeps

theorem execDarkTestPass_keeps (n : Fin 8) (half : Fin 2) (p q : Bool) (s : State) : KeepsR s (execDarkTestPass n half p q s) := by
  unfold execDarkTestPass
  try dsimp only
  repeat' first
    | with_reducible assumption
    | with_reducible exact Keeps.refl _
    | with_reducible refine KeepsR.next ?_
    | with_reducible refine KeepsR.ite (fun _ => ?_) (fun _ => ?_)
    | with_reducible apply State.modOssd_keeps
    | with_reducible apply State.modSio_keeps

theorem execDarkTestTimeout_keeps (n : Fin 8) (half : Fin 2) (p q : Bool) (s : State) : KeepsR s (execDarkTestTimeout n half p q s) := by
  unfold execDarkTestTimeout
  try dsimp only
  repeat' first
    | with_reducible assumption
    | with_reducible exact Keeps.refl _
    | with_reducible refine KeepsR.next ?_
    | with_reducible refine KeepsR.ite (fun _ => ?_) (fun _ => ?_)
    | with_reducible apply State.modOssd_keeps
    | with_reducible apply State.ossdFault_keeps

theorem execSealDebounceChange_keeps (half : Fin 2) (v : BitVec 24) (s : State) : KeepsR s (execSealDebounceChange half v s) := by
  unfold execSealDebounceChange
  try dsimp only
  repeat' first
    | with_reducible assumption
    | with_reducible exact Keeps.refl _
    | with_reducible refine KeepsR.next ?_
    | with_reducible refine KeepsR.ite (fun _ => ?_) (fun _ => ?_)
    | with_reducible apply State.modHalf_keeps
    | with_reducible apply State.sioRec_keeps

theorem execSealUnstableTimeout_keeps (half : Fin 2) (s : State) : KeepsR s (execSealUnstableTimeout half s) := by
  unfold execSealUnstableTimeout
  try dsimp only
  repeat' first
    | with_reducible assumption
    | with_reducible exact Keeps.refl _
    | with_reducible refine KeepsR.next ?_
    | with_reducible refine KeepsR.ite (fun _ => ?_) (fun _ => ?_)
    | with_reducible apply State.svFault_keeps

theorem execCoreSupplyLow_keeps (half : Fin 2) (s : State) : KeepsR s (execCoreSupplyLow half s) := by
  unfold execCoreSupplyLow
  try dsimp only
  repeat' first
    | with_reducible assumption
    | with_reducible exact Keeps.refl _
    | with_reducible refine KeepsR.next ?_
    | with_reducible refine KeepsR.ite (fun _ => ?_) (fun _ => ?_)
    | with_reducible apply State.modHalf_keeps
    | with_reducible apply State.modSio_keeps
    | with_reducible apply State.ossdOpenCh_keeps

/-! ### SafetyLayer.lean -/

theorem State.modConn_keeps {sK s : State} (c : ConnId) (g : SlConn → SlConn) (hK : Keeps sK s) : Keeps sK (State.modConn s c g) := by
  unfold State.modConn
  try dsimp only
  repeat' first
    | with_reducible assumption
    | with_reducible exact Keeps.refl _
    | with_reducible refine Keeps.ite (fun _ => ?_) (fun _ => ?_)
    | split
    | with_reducible refine Keeps.upd rfl rfl rfl ?_

theorem State.slRec_keeps {sK s : State} (code : BitVec 12) (w : BitVec 32) (hK : Keeps sK s) : Keeps sK (State.slRec s code w) := by
  unfold State.slRec
  try dsimp only
  repeat' first
    | with_reducible assumption
    | with_reducible exact Keeps.refl _
    | with_reducible apply State.svRec_keeps

theorem State.pduDiscard_keeps {sK s : State} (c : ConnId) (cause : Nat) (hK : Keeps sK s) : Keeps sK (State.pduDiscard s c cause) := by
  unfold State.pduDiscard
  try dsimp only
  repeat' first
    | with_reducible assumption
    | with_reducible exact Keeps.refl _
    | with_reducible apply State.modConn_keeps
    | with_reducible apply State.slRec_keeps

theorem State.pduAccept_keeps {sK s : State} (c : ConnId) (seq : BitVec 16) (hK : Keeps sK s) : Keeps sK (State.pduAccept s c seq) := by
  unfold State.pduAccept
  try dsimp only
  repeat' first
    | with_reducible assumption
    | with_reducible exact Keeps.refl _
    | with_reducible apply State.modConn_keeps
    | with_reducible apply State.slRec_keeps
    | with_reducible refine Keeps.ite (fun _ => ?_) (fun _ => ?_)

theorem State.fbPdu_keeps {sK s : State} (a : Fin 80) (w : List (BitVec 32)) (dis late : Bool) (hK : Keeps sK s) : Keeps sK (State.fbPdu s a w dis late) := by
  unfold State.fbPdu
  try dsimp only
  repeat' first
    | with_reducible assumption
    | with_reducible exact Keeps.refl _
    | with_reducible apply State.pduDiscard_keeps
    | with_reducible apply State.pduAccept_keeps
    | with_reducible refine Keeps.ite (fun _ => ?_) (fun _ => ?_)
    | split
    | with_reducible refine Keeps.upd rfl rfl rfl ?_

theorem State.latchSafe_keeps {sK s : State}  (hK : Keeps sK s) : Keeps sK (State.latchSafe s) := by
  unfold State.latchSafe
  try dsimp only
  repeat' first
    | with_reducible assumption
    | with_reducible exact Keeps.refl _
    | with_reducible refine Keeps.ite (fun _ => ?_) (fun _ => ?_)
    | split
    | with_reducible refine Keeps.upd rfl rfl rfl ?_

theorem State.setSlAxis_keeps {sK s : State} (a : Fin 80) (v : BitVec 32) (hK : Keeps sK s) : Keeps sK (State.setSlAxis s a v) := by
  unfold State.setSlAxis
  try dsimp only
  repeat' first
    | with_reducible assumption
    | with_reducible exact Keeps.refl _
    | with_reducible refine Keeps.ite (fun _ => ?_) (fun _ => ?_)
    | split
    | with_reducible refine Keeps.upd rfl rfl rfl ?_

theorem State.setSlSens_keeps {sK s : State} (i : Fin 8) (v : BitVec 32) (hK : Keeps sK s) : Keeps sK (State.setSlSens s i v) := by
  unfold State.setSlSens
  try dsimp only
  repeat' first
    | with_reducible assumption
    | with_reducible exact Keeps.refl _
    | with_reducible refine Keeps.ite (fun _ => ?_) (fun _ => ?_)
    | split
    | with_reducible refine Keeps.upd rfl rfl rfl ?_

theorem State.asmDrop_keeps {sK s : State} (i : Fin 8) (hK : Keeps sK s) : Keeps sK (State.asmDrop s i) := by
  unfold State.asmDrop
  try dsimp only
  repeat' first
    | with_reducible assumption
    | with_reducible exact Keeps.refl _
    | with_reducible apply State.freeSlot_keeps
    | with_reducible refine Keeps.ite (fun _ => ?_) (fun _ => ?_)
    | split
    | with_reducible refine Keeps.upd rfl rfl rfl ?_

theorem execWdExpire_keeps (c : Nat) (s : State) : KeepsR s (execWdExpire c s) := by
  unfold execWdExpire
  try dsimp only
  repeat' first
    | with_reducible assumption
    | with_reducible exact Keeps.refl _
    | with_reducible refine KeepsR.next ?_
    | with_reducible refine KeepsR.ite (fun _ => ?_) (fun _ => ?_)
    | with_reducible apply State.reach_keeps
    | with_reducible apply State.modConn_keeps
    | with_reducible apply State.slRec_keeps
    | with_reducible apply State.asmDrop_keeps
    | with_reducible refine Keeps.ite (fun _ => ?_) (fun _ => ?_)
    | split

theorem State.pduSent_keeps {sK s : State} (a : Fin 80) (hK : Keeps sK s) : Keeps sK (State.pduSent s a) := by
  unfold State.pduSent
  try dsimp only
  repeat' first
    | with_reducible assumption
    | with_reducible exact Keeps.refl _
    | with_reducible refine Keeps.ite (fun _ => ?_) (fun _ => ?_)
    | split
    | with_reducible refine Keeps.upd rfl rfl rfl ?_

/-! ### StepperLinks.lean -/

theorem State.modStl_keeps {sK s : State} (n : Fin 16) (g : StlLink → StlLink) (hK : Keeps sK s) : Keeps sK (State.modStl s n g) := by
  unfold State.modStl
  try dsimp only
  repeat' first
    | with_reducible assumption
    | with_reducible exact Keeps.refl _
    | with_reducible refine Keeps.ite (fun _ => ?_) (fun _ => ?_)
    | split
    | with_reducible refine Keeps.upd rfl rfl rfl ?_

theorem State.stlFit_keeps {sK s : State} (n : Fin 16) (hK : Keeps sK s) : Keeps sK (State.stlFit s n) := by
  unfold State.stlFit
  try dsimp only
  repeat' first
    | with_reducible assumption
    | with_reducible exact Keeps.refl _
    | with_reducible apply State.modStl_keeps
    | with_reducible apply State.emit_keeps
    | with_reducible refine Keeps.ite (fun _ => ?_) (fun _ => ?_)

theorem execStlCfgWrite_keeps (n : Fin 16) (v : BitVec 32) (s : State) : KeepsR s (execStlCfgWrite n v s) := by
  unfold execStlCfgWrite
  try dsimp only
  repeat' first
    | with_reducible assumption
    | with_reducible exact Keeps.refl _
    | with_reducible refine KeepsR.next ?_
    | with_reducible refine KeepsR.ite (fun _ => ?_) (fun _ => ?_)
    | with_reducible apply State.modStl_keeps
    | with_reducible apply State.stlFit_keeps

theorem execStlFrame_keeps (n : Fin 16) (s : State) : KeepsR s (execStlFrame n s) := by
  unfold execStlFrame
  try dsimp only
  repeat' first
    | with_reducible assumption
    | with_reducible exact Keeps.refl _
    | with_reducible refine KeepsR.next ?_
    | with_reducible refine KeepsR.ite (fun _ => ?_) (fun _ => ?_)
    | with_reducible apply State.reach_keeps
    | with_reducible apply State.modStl_keeps
    | with_reducible apply State.emit_keeps
    | with_reducible apply State.faultAxis_keeps
    | with_reducible refine Keeps.ite (fun _ => ?_) (fun _ => ?_)
    | split
    | with_reducible refine Keeps.upd rfl rfl rfl ?_
    | with_reducible refine Keeps.updOut rfl rfl rfl (List.suffix_cons _ _) ?_

/-! ### Churn.lean -/

theorem State.modQp_keeps {sK s : State} (g : Churn → Churn) (hK : Keeps sK s) : Keeps sK (State.modQp s g) := by
  unfold State.modQp
  try dsimp only
  repeat' first
    | with_reducible assumption
    | with_reducible exact Keeps.refl _
    | with_reducible refine Keeps.ite (fun _ => ?_) (fun _ => ?_)
    | split
    | with_reducible refine Keeps.upd rfl rfl rfl ?_

theorem State.qpSet_keeps {sK s : State} (i : Nat) (hK : Keeps sK s) : Keeps sK (State.qpSet s i) := by
  unfold State.qpSet
  try dsimp only
  repeat' first
    | with_reducible assumption
    | with_reducible exact Keeps.refl _
    | with_reducible apply State.modQp_keeps

theorem State.qpCount_keeps {sK s : State} (i : Fin 7) (k : Nat) (hK : Keeps sK s) : Keeps sK (State.qpCount s i k) := by
  unfold State.qpCount
  try dsimp only
  repeat' first
    | with_reducible assumption
    | with_reducible exact Keeps.refl _
    | with_reducible apply State.modQp_keeps

theorem State.qpSig_keeps {sK s : State}  (hK : Keeps sK s) : Keeps sK (State.qpSig s) := by
  unfold State.qpSig
  try dsimp only
  repeat' first
    | with_reducible assumption
    | with_reducible exact Keeps.refl _
    | with_reducible apply State.modQp_keeps
    | with_reducible refine Keeps.ite (fun _ => ?_) (fun _ => ?_)

theorem State.beginSolve_keeps {sK s : State} (a : Nat) (hK : Keeps sK s) : Keeps sK (State.beginSolve s a) := by
  unfold State.beginSolve
  try dsimp only
  repeat' first
    | with_reducible assumption
    | with_reducible exact Keeps.refl _
    | with_reducible apply State.modQp_keeps
    | with_reducible apply State.qpSet_keeps
    | with_reducible apply State.emit_keeps
    | with_reducible refine Keeps.ite (fun _ => ?_) (fun _ => ?_)
    | split
    | with_reducible refine Keeps.upd rfl rfl rfl ?_

theorem State.lastSolve_keeps {sK s : State} (res : BitVec 3) (it : BitVec 8) (index : BitVec 32) (hK : Keeps sK s) : Keeps sK (State.lastSolve s res it index) := by
  unfold State.lastSolve
  try dsimp only
  repeat' first
    | with_reducible assumption
    | with_reducible exact Keeps.refl _
    | with_reducible apply State.modQp_keeps

theorem State.abandon_keeps {sK s : State} (cause : BitVec 2) (index : BitVec 32) (hK : Keeps sK s) : Keeps sK (State.abandon s cause index) := by
  unfold State.abandon
  try dsimp only
  repeat' first
    | with_reducible assumption
    | with_reducible exact Keeps.refl _
    | with_reducible apply State.takeFresh_keeps
    | with_reducible apply State.lastSolve_keeps
    | with_reducible apply State.emit_keeps

theorem State.nextJob_keeps {sK s : State}  (hK : Keeps sK s) : Keeps sK (State.nextJob s) := by
  unfold State.nextJob
  try dsimp only
  repeat' first
    | with_reducible assumption
    | with_reducible exact Keeps.refl _
    | with_reducible apply State.modQp_keeps
    | with_reducible refine Keeps.ite (fun _ => ?_) (fun _ => ?_)
    | split

theorem execSolveStart_keeps  (s : State) : KeepsR s (execSolveStart s) := by
  unfold execSolveStart
  try dsimp only
  repeat' first
    | with_reducible assumption
    | with_reducible exact Keeps.refl _
    | with_reducible refine KeepsR.next ?_
    | with_reducible refine KeepsR.ite (fun _ => ?_) (fun _ => ?_)
    | with_reducible apply State.modQp_keeps
    | with_reducible apply State.qpCount_keeps
    | with_reducible apply State.qpSet_keeps
    | with_reducible apply State.emit_keeps
    | with_reducible apply State.beginSolve_keeps
    | with_reducible apply State.opDone_keeps
    | with_reducible apply State.nextJob_keeps
    | with_reducible refine Keeps.ite (fun _ => ?_) (fun _ => ?_)
    | split

theorem State.countSolve_keeps {sK s : State} (r : QpResult) (index : BitVec 32) (hK : Keeps sK s) : Keeps sK (State.countSolve s r index) := by
  unfold State.countSolve
  try dsimp only
  repeat' first
    | with_reducible assumption
    | with_reducible exact Keeps.refl _
    | with_reducible apply State.qpCount_keeps
    | with_reducible apply State.qpSet_keeps
    | with_reducible apply State.emit_keeps
    | with_reducible apply State.lastSolve_keeps
    | with_reducible refine Keeps.ite (fun _ => ?_) (fun _ => ?_)
    | split

theorem State.freeNorms_keeps {sK s : State}  (hK : Keeps sK s) : Keeps sK (State.freeNorms s).2 := by
  unfold State.freeNorms
  try dsimp only
  repeat' first
    | with_reducible assumption
    | with_reducible exact Keeps.refl _
    | with_reducible refine Keeps.iteSnd (fun _ => ?_) (fun _ => ?_)
    | with_reducible refine Keeps.ite (fun _ => ?_) (fun _ => ?_)
    | split
    | with_reducible refine Keeps.upd rfl rfl rfl ?_

theorem State.completeSolution_keeps {sK s : State} (index : BitVec 32) (sig : BitVec 64) (ws : List (BitVec 32)) (hK : Keeps sK s) : Keeps sK (State.completeSolution s index sig ws) := by
  unfold State.completeSolution
  try dsimp only
  repeat' first
    | with_reducible assumption
    | with_reducible exact Keeps.refl _
    | with_reducible apply State.qpSet_keeps
    | with_reducible apply State.emit_keeps
    | with_reducible apply State.pairSend_keeps
    | with_reducible refine Keeps.ite (fun _ => ?_) (fun _ => ?_)
    | split
    | with_reducible refine Keeps.upd rfl rfl rfl ?_
    | with_reducible refine Keeps.updMem rfl rfl rfl (fun hw => memWriteList_wf _ _ _ hw) ?_

theorem State.solutionAcked_keeps {sK s : State}  (hK : Keeps sK s) : Keeps sK (State.solutionAcked s) := by
  unfold State.solutionAcked
  try dsimp only
  repeat' first
    | with_reducible assumption
    | with_reducible exact Keeps.refl _
    | with_reducible refine Keeps.ite (fun _ => ?_) (fun _ => ?_)
    | split
    | with_reducible refine Keeps.upd rfl rfl rfl ?_

theorem execSolveEnd_keeps  (s : State) : KeepsR s (execSolveEnd s) := by
  unfold execSolveEnd
  try dsimp only
  repeat' first
    | with_reducible assumption
    | with_reducible exact Keeps.refl _
    | with_reducible refine KeepsR.next ?_
    | with_reducible refine KeepsR.ite (fun _ => ?_) (fun _ => ?_)
    | with_reducible apply State.freeNorms_keeps
    | with_reducible apply State.modQp_keeps
    | with_reducible apply State.countSolve_keeps
    | with_reducible apply State.completeSolution_keeps
    | with_reducible apply State.wrBytes_keeps
    | with_reducible apply State.opDone_keeps
    | with_reducible apply State.nextJob_keeps
    | with_reducible refine Keeps.ite (fun _ => ?_) (fun _ => ?_)
    | split
    | with_reducible refine Keeps.upd rfl rfl rfl ?_
    | with_reducible refine Keeps.updMem rfl rfl rfl (by intro hw; with_unfolding_all exact qpSolve_wf _ _ _ hw) ?_

theorem State.publish_keeps {sK s : State} (c : BitVec 32) (hK : Keeps sK s) : Keeps sK (State.publish s c) := by
  unfold State.publish
  try dsimp only
  repeat' first
    | with_reducible assumption
    | with_reducible exact Keeps.refl _
    | with_reducible apply State.modQp_keeps
    | with_reducible apply State.emit_keeps
    | with_reducible apply State.qpCount_keeps
    | with_reducible apply State.qpSet_keeps
    | with_reducible refine Keeps.ite (fun _ => ?_) (fun _ => ?_)
    | split

theorem State.publishNamed_keeps {sK s : State} (b : BitVec 32) (hK : Keeps sK s) : Keeps sK (State.publishNamed s b) := by
  unfold State.publishNamed
  try dsimp only
  repeat' first
    | with_reducible assumption
    | with_reducible exact Keeps.refl _
    | with_reducible apply State.qpCount_keeps
    | with_reducible refine Keeps.ite (fun _ => ?_) (fun _ => ?_)
    | split
    | with_reducible refine Keeps.upd rfl rfl rfl ?_
    | with_reducible refine Keeps.updMem rfl rfl rfl (fun hw => memWriteList_wf _ _ _ hw) ?_

theorem State.endLate_keeps {sK s : State} (c : BitVec 32) (hK : Keeps sK s) : Keeps sK (State.endLate s c) := by
  unfold State.endLate
  try dsimp only
  repeat' first
    | with_reducible assumption
    | with_reducible exact Keeps.refl _
    | with_reducible apply State.modQp_keeps
    | with_reducible apply State.qpCount_keeps
    | with_reducible apply State.qpSet_keeps
    | with_reducible apply State.abandon_keeps
    | with_reducible refine Keeps.ite (fun _ => ?_) (fun _ => ?_)
    | with_reducible refine Keeps.forEach (fun _ _ => ?_) ?_

theorem State.expire_keeps {sK s : State} (c : BitVec 32) (hK : Keeps sK s) : Keeps sK (State.expire s c) := by
  unfold State.expire
  try dsimp only
  repeat' first
    | with_reducible assumption
    | with_reducible exact Keeps.refl _
    | with_reducible apply State.modQp_keeps
    | with_reducible refine Keeps.ite (fun _ => ?_) (fun _ => ?_)

theorem State.stopPlanning_keeps {sK s : State}  (hK : Keeps sK s) : Keeps sK (State.stopPlanning s) := by
  unfold State.stopPlanning
  try dsimp only
  repeat' first
    | with_reducible assumption
    | with_reducible exact Keeps.refl _
    | with_reducible apply State.modQp_keeps
    | with_reducible apply State.abandon_keeps
    | with_reducible refine Keeps.ite (fun _ => ?_) (fun _ => ?_)
    | with_reducible refine Keeps.forEach (fun _ _ => ?_) ?_

theorem State.qpStops_keeps {sK s : State}  (hK : Keeps sK s) : Keeps sK (State.qpStops s) := by
  unfold State.qpStops
  try dsimp only
  repeat' first
    | with_reducible assumption
    | with_reducible exact Keeps.refl _
    | with_reducible apply State.stopPlanning_keeps
    | with_reducible apply State.modQp_keeps
    | with_reducible apply State.opDone_keeps
    | with_reducible refine Keeps.ite (fun _ => ?_) (fun _ => ?_)
    | with_reducible refine Keeps.forEach (fun _ _ => ?_) ?_

theorem State.qpStarts_keeps {sK s : State}  (hK : Keeps sK s) : Keeps sK (State.qpStarts s) := by
  unfold State.qpStarts
  try dsimp only
  repeat' first
    | with_reducible assumption
    | with_reducible exact Keeps.refl _
    | with_reducible apply State.modQp_keeps
    | with_reducible refine Keeps.ite (fun _ => ?_) (fun _ => ?_)
    | split

theorem State.costExchange_keeps {sK s : State}  (hK : Keeps sK s) : Keeps sK (State.costExchange s) := by
  unfold State.costExchange
  try dsimp only
  repeat' first
    | with_reducible assumption
    | with_reducible exact Keeps.refl _
    | with_reducible apply State.modQp_keeps
    | with_reducible apply State.opDone_keeps
    | with_reducible refine Keeps.ite (fun _ => ?_) (fun _ => ?_)
    | with_reducible refine Keeps.forEach (fun _ _ => ?_) ?_
    | split

theorem State.qpBoundary_keeps {sK s : State} (c : BitVec 32) (hK : Keeps sK s) : Keeps sK (State.qpBoundary s c) := by
  unfold State.qpBoundary
  try dsimp only
  repeat' first
    | with_reducible assumption
    | with_reducible exact Keeps.refl _
    | with_reducible apply State.publish_keeps
    | with_reducible apply State.endLate_keeps
    | with_reducible apply State.expire_keeps
    | with_reducible apply State.qpStops_keeps
    | with_reducible apply State.qpStarts_keeps
    | with_reducible apply State.costExchange_keeps
    | with_reducible refine Keeps.ite (fun _ => ?_) (fun _ => ?_)

theorem State.psiPick_keeps {sK s : State}  (hK : Keeps sK s) : Keeps sK (State.psiPick s) := by
  unfold State.psiPick
  try dsimp only
  repeat' first
    | with_reducible assumption
    | with_reducible exact Keeps.refl _
    | with_reducible apply State.modQp_keeps

theorem State.psiBeat_keeps {sK s : State} (b : BitVec 32) (hK : Keeps sK s) : Keeps sK (State.psiBeat s b) := by
  unfold State.psiBeat
  try dsimp only
  repeat' first
    | with_reducible assumption
    | with_reducible exact Keeps.refl _
    | with_reducible apply State.modQp_keeps

theorem State.schedFail_keeps {sK s : State} (st : Status) (off : Nat) (hK : Keeps sK s) : Keeps sK (State.schedFail s st off) := by
  unfold State.schedFail
  try dsimp only
  repeat' first
    | with_reducible assumption
    | with_reducible exact Keeps.refl _
    | with_reducible apply State.modQp_keeps
    | with_reducible apply State.emit_keeps

theorem execQpSched_keeps (f : Fin 16) (w : TWord) (s : State) : KeepsR s (execQpSched f w s) := by
  unfold execQpSched
  try dsimp only
  repeat' first
    | with_reducible assumption
    | with_reducible exact Keeps.refl _
    | with_reducible refine KeepsR.next ?_
    | with_reducible refine KeepsR.ite (fun _ => ?_) (fun _ => ?_)
    | with_reducible apply State.devOp_keeps
    | with_reducible apply State.schedFail_keeps
    | with_reducible apply State.retireBad_keeps
    | with_reducible apply State.opIssue_keeps
    | with_reducible apply State.modQp_keeps
    | with_reducible apply State.opDone_keeps
    | with_reducible refine Keeps.ite (fun _ => ?_) (fun _ => ?_)
    | split
    | with_reducible refine Keeps.upd rfl rfl rfl ?_
    | (intro _; dsimp only)
    | intro _

theorem State.costReset_keeps {s0 s : State} (nw : Nat) (h : Keeps s0 s) : Keeps s0 (s.costReset nw) := by
  unfold State.costReset
  dsimp only
  refine Keeps.ite (fun _ => h) (fun _ => ?_)
  exact Keeps.updMem rfl rfl rfl (fun w => memWriteList_wf _ _ _ (memWriteList_wf _ _ _ w)) h

theorem execQpSchedCopyDone_keeps  (s : State) : KeepsR s (execQpSchedCopyDone s) := by
  unfold execQpSchedCopyDone
  try dsimp only
  repeat' first
    | with_reducible assumption
    | with_reducible exact Keeps.refl _
    | with_reducible refine KeepsR.next ?_
    | with_reducible refine KeepsR.ite (fun _ => ?_) (fun _ => ?_)
    | with_reducible apply State.modQp_keeps
    | with_reducible apply State.qpSig_keeps
    | with_reducible apply State.emit_keeps
    | with_reducible apply State.costReset_keeps
    | with_reducible apply State.opDone_keeps
    | with_reducible apply State.nextJob_keeps
    | with_reducible apply State.schedFail_keeps
    | with_reducible refine Keeps.ite (fun _ => ?_) (fun _ => ?_)
    | split
    | with_reducible refine Keeps.upd rfl rfl rfl ?_
    | with_reducible refine Keeps.updMem rfl rfl rfl (fun hw => memWriteList_wf _ _ _ hw) ?_

theorem execQpStart_keeps (f : Fin 16) (w : TWord) (s : State) : KeepsR s (execQpStart f w s) := by
  unfold execQpStart
  try dsimp only
  repeat' first
    | with_reducible assumption
    | with_reducible exact Keeps.refl _
    | with_reducible refine KeepsR.next ?_
    | with_reducible refine KeepsR.ite (fun _ => ?_) (fun _ => ?_)
    | with_reducible apply State.devOp_keeps
    | with_reducible apply State.modQp_keeps
    | with_reducible apply State.opAccept_keeps
    | with_reducible refine Keeps.ite (fun _ => ?_) (fun _ => ?_)
    | split
    | with_reducible refine Keeps.upd rfl rfl rfl ?_
    | (intro _; dsimp only)
    | intro _

theorem execQpStop_keeps (f : Fin 16) (w : TWord) (s : State) : KeepsR s (execQpStop f w s) := by
  unfold execQpStop
  try dsimp only
  repeat' first
    | with_reducible assumption
    | with_reducible exact Keeps.refl _
    | with_reducible refine KeepsR.next ?_
    | with_reducible refine KeepsR.ite (fun _ => ?_) (fun _ => ?_)
    | with_reducible apply State.devOp_keeps
    | with_reducible apply State.opIssue_keeps
    | with_reducible apply State.modQp_keeps
    | with_reducible refine Keeps.ite (fun _ => ?_) (fun _ => ?_)
    | split
    | with_reducible refine Keeps.upd rfl rfl rfl ?_
    | (intro _; dsimp only)
    | intro _

theorem execQpSubmit_keeps (f : Fin 16) (w : TWord) (s : State) : KeepsR s (execQpSubmit f w s) := by
  unfold execQpSubmit
  try dsimp only
  repeat' first
    | with_reducible assumption
    | with_reducible exact Keeps.refl _
    | with_reducible refine KeepsR.next ?_
    | with_reducible refine KeepsR.ite (fun _ => ?_) (fun _ => ?_)
    | with_reducible apply State.devOp_keeps
    | with_reducible apply State.opIssue_keeps
    | with_reducible apply State.modQp_keeps
    | with_reducible refine Keeps.ite (fun _ => ?_) (fun _ => ?_)
    | split
    | with_reducible refine Keeps.upd rfl rfl rfl ?_
    | (intro _; dsimp only)
    | intro _

theorem execQpParam_keeps (f : Fin 16) (w : TWord) (s : State) : KeepsR s (execQpParam f w s) := by
  unfold execQpParam
  try dsimp only
  repeat' first
    | with_reducible assumption
    | with_reducible exact Keeps.refl _
    | with_reducible refine KeepsR.next ?_
    | with_reducible refine KeepsR.ite (fun _ => ?_) (fun _ => ?_)
    | with_reducible apply State.devOp_keeps
    | with_reducible apply State.opIssue_keeps
    | with_reducible apply State.wrBytes_keeps
    | with_reducible apply State.modQp_keeps
    | with_reducible apply State.costExchange_keeps
    | with_reducible refine Keeps.ite (fun _ => ?_) (fun _ => ?_)
    | split
    | with_reducible refine Keeps.upd rfl rfl rfl ?_
    | (intro _; dsimp only)
    | intro _

theorem execChCntClr_keeps  (s : State) : KeepsR s (execChCntClr s) := by
  unfold execChCntClr
  try dsimp only
  repeat' first
    | with_reducible assumption
    | with_reducible exact Keeps.refl _
    | with_reducible refine KeepsR.next ?_
    | with_reducible refine KeepsR.ite (fun _ => ?_) (fun _ => ?_)
    | with_reducible apply State.modQp_keeps

theorem execChSigLoRead_keeps  (s : State) : KeepsR s (execChSigLoRead s) := by
  unfold execChSigLoRead
  try dsimp only
  repeat' first
    | with_reducible assumption
    | with_reducible exact Keeps.refl _
    | with_reducible refine KeepsR.next ?_
    | with_reducible refine KeepsR.ite (fun _ => ?_) (fun _ => ?_)
    | with_reducible refine Keeps.ite (fun _ => ?_) (fun _ => ?_)
    | split
    | with_reducible refine Keeps.upd rfl rfl rfl ?_

theorem execChSchedHashLoRead_keeps  (s : State) : KeepsR s (execChSchedHashLoRead s) := by
  unfold execChSchedHashLoRead
  try dsimp only
  repeat' first
    | with_reducible assumption
    | with_reducible exact Keeps.refl _
    | with_reducible refine KeepsR.next ?_
    | with_reducible refine KeepsR.ite (fun _ => ?_) (fun _ => ?_)
    | with_reducible refine Keeps.ite (fun _ => ?_) (fun _ => ?_)
    | split
    | with_reducible refine Keeps.upd rfl rfl rfl ?_

/-! ### TimeBase.lean -/

theorem State.modTb_keeps {s0 s : State} (g : TimeBase → TimeBase) (hg : ∀ x, (g x).timeFix = x.timeFix) (h : Keeps s0 s) :
    Keeps s0 (s.modTb g) :=
  Keeps.same h rfl rfl (hg _) rfl rfl rfl

theorem execTbStart_keeps  (s : State) : KeepsR s (execTbStart s) := by
  unfold execTbStart
  try dsimp only
  repeat' first
    | with_reducible assumption
    | with_reducible exact Keeps.refl _
    | with_reducible refine KeepsR.next ?_
    | with_reducible refine KeepsR.ite (fun _ => ?_) (fun _ => ?_)
    | with_reducible apply State.modTb_keeps
    | with_reducible apply State.stlFit_keeps
    | with_reducible refine Keeps.ite (fun _ => ?_) (fun _ => ?_)
    | with_reducible refine Keeps.forEach (fun _ _ => ?_) ?_
    | split
    | with_reducible refine Keeps.upd rfl rfl rfl ?_
    | (intro _; dsimp only)

theorem execTbApply_keeps  (s : State) : KeepsR s (execTbApply s) := by
  unfold execTbApply
  try dsimp only
  repeat' first
    | with_reducible assumption
    | with_reducible exact Keeps.refl _
    | with_reducible refine KeepsR.next ?_
    | with_reducible refine KeepsR.ite (fun _ => ?_) (fun _ => ?_)
    | with_reducible apply State.modTb_keeps
    | with_reducible apply State.emit_keeps
    | with_reducible refine Keeps.ite (fun _ => ?_) (fun _ => ?_)
    | split
    | with_reducible refine Keeps.upd rfl rfl rfl ?_
    | (intro _; dsimp only)

theorem State.stopPicks_keeps {sK s : State}  (hK : Keeps sK s) : Keeps sK (State.stopPicks s) := by
  unfold State.stopPicks
  try dsimp only
  repeat' first
    | with_reducible assumption
    | with_reducible exact Keeps.refl _
    | with_reducible apply State.modTb_keeps
    | with_reducible apply State.reedStop_keeps
    | with_reducible refine Keeps.ite (fun _ => ?_) (fun _ => ?_)
    | split
    | with_reducible refine Keeps.upd rfl rfl rfl ?_
    | (intro _; dsimp only)

theorem execTbTimeLoRead_keeps  (s : State) : KeepsR s (execTbTimeLoRead s) := by
  unfold execTbTimeLoRead
  try dsimp only
  repeat' first
    | with_reducible assumption
    | with_reducible exact Keeps.refl _
    | with_reducible refine KeepsR.next ?_
    | with_reducible refine KeepsR.ite (fun _ => ?_) (fun _ => ?_)
    | with_reducible apply State.modTb_keeps
    | with_reducible refine Keeps.ite (fun _ => ?_) (fun _ => ?_)
    | split
    | with_reducible refine Keeps.upd rfl rfl rfl ?_
    | (intro _; dsimp only)

theorem execTbPickTimeLoRead_keeps  (s : State) : KeepsR s (execTbPickTimeLoRead s) := by
  unfold execTbPickTimeLoRead
  try dsimp only
  repeat' first
    | with_reducible assumption
    | with_reducible exact Keeps.refl _
    | with_reducible refine KeepsR.next ?_
    | with_reducible refine KeepsR.ite (fun _ => ?_) (fun _ => ?_)
    | with_reducible apply State.modTb_keeps
    | with_reducible refine Keeps.ite (fun _ => ?_) (fun _ => ?_)
    | split
    | with_reducible refine Keeps.upd rfl rfl rfl ?_
    | (intro _; dsimp only)

theorem execTbPickNumRead_keeps  (s : State) : KeepsR s (execTbPickNumRead s) := by
  unfold execTbPickNumRead
  try dsimp only
  repeat' first
    | with_reducible assumption
    | with_reducible exact Keeps.refl _
    | with_reducible refine KeepsR.next ?_
    | with_reducible refine KeepsR.ite (fun _ => ?_) (fun _ => ?_)
    | with_reducible apply State.modTb_keeps
    | with_reducible refine Keeps.ite (fun _ => ?_) (fun _ => ?_)
    | split
    | with_reducible refine Keeps.upd rfl rfl rfl ?_
    | (intro _; dsimp only)

/-! ### SwitchBase.lean -/

theorem State.modSw_keeps {sK s : State} (g : Switch → Switch) (hK : Keeps sK s) : Keeps sK (State.modSw s g) := by
  unfold State.modSw
  try dsimp only
  repeat' first
    | with_reducible assumption
    | with_reducible exact Keeps.refl _
    | with_reducible refine Keeps.ite (fun _ => ?_) (fun _ => ?_)
    | split
    | with_reducible refine Keeps.upd rfl rfl rfl ?_

theorem State.modPort_keeps {sK s : State} (p : Fin 8) (g : Port → Port) (hK : Keeps sK s) : Keeps sK (State.modPort s p g) := by
  unfold State.modPort
  try dsimp only
  repeat' first
    | with_reducible assumption
    | with_reducible exact Keeps.refl _
    | with_reducible refine Keeps.ite (fun _ => ?_) (fun _ => ?_)
    | split
    | with_reducible refine Keeps.upd rfl rfl rfl ?_

theorem State.ptSet_keeps {sK s : State} (p : Fin 8) (i : Nat) (hK : Keeps sK s) : Keeps sK (State.ptSet s p i) := by
  unfold State.ptSet
  try dsimp only
  repeat' first
    | with_reducible assumption
    | with_reducible exact Keeps.refl _
    | with_reducible apply State.modPort_keeps
    | with_reducible apply irqWatch_keeps
    | with_reducible refine Keeps.ite (fun _ => ?_) (fun _ => ?_)

theorem State.ptCount_keeps {sK s : State} (p : Fin 8) (k : Fin 6) (hK : Keeps sK s) : Keeps sK (State.ptCount s p k) := by
  unfold State.ptCount
  try dsimp only
  repeat' first
    | with_reducible assumption
    | with_reducible exact Keeps.refl _
    | with_reducible apply State.modPort_keeps

theorem State.swSet_keeps {sK s : State} (i : Nat) (hK : Keeps sK s) : Keeps sK (State.swSet s i) := by
  unfold State.swSet
  try dsimp only
  repeat' first
    | with_reducible assumption
    | with_reducible exact Keeps.refl _
    | with_reducible apply State.modSw_keeps

theorem State.swCount_keeps {sK s : State} (k : Fin 4) (hK : Keeps sK s) : Keeps sK (State.swCount s k) := by
  unfold State.swCount
  try dsimp only
  repeat' first
    | with_reducible assumption
    | with_reducible exact Keeps.refl _
    | with_reducible apply State.modSw_keeps

theorem State.cbsNow_keeps {sK s : State} (p : Fin 8) (hK : Keeps sK s) : Keeps sK (State.cbsNow s p) := by
  unfold State.cbsNow
  try dsimp only
  repeat' first
    | with_reducible assumption
    | with_reducible exact Keeps.refl _
    | with_reducible apply State.modPort_keeps

theorem State.txDone_keeps {sK s : State} (i : Nat) (discarded : Bool) (hK : Keeps sK s) : Keeps sK (State.txDone s i discarded) := by
  unfold State.txDone
  try dsimp only
  repeat' first
    | with_reducible assumption
    | with_reducible exact Keeps.refl _
    | with_reducible apply State.busWrite_keeps

theorem State.frameGone_keeps {sK s : State} (f : TxFrame) (discarded : Bool) (hK : Keeps sK s) : Keeps sK (State.frameGone s f discarded) := by
  unfold State.frameGone
  try dsimp only
  repeat' first
    | with_reducible assumption
    | with_reducible exact Keeps.refl _
    | with_reducible apply State.txDone_keeps
    | with_reducible refine Keeps.ite (fun _ => ?_) (fun _ => ?_)
    | split

theorem State.lateFrame_keeps {sK s : State} (p c : Fin 8) (f : TxFrame) (hK : Keeps sK s) : Keeps sK (State.lateFrame s p c f) := by
  unfold State.lateFrame
  try dsimp only
  repeat' first
    | with_reducible assumption
    | with_reducible exact Keeps.refl _
    | with_reducible apply State.ptCount_keeps
    | with_reducible apply State.ptSet_keeps
    | with_reducible apply State.emit_keeps
    | with_reducible apply State.frameGone_keeps

theorem State.enqueue_keeps {sK s : State} (p c : Fin 8) (f : TxFrame) (hK : Keeps sK s) : Keeps sK (State.enqueue s p c f) := by
  unfold State.enqueue
  try dsimp only
  repeat' first
    | with_reducible assumption
    | with_reducible exact Keeps.refl _
    | with_reducible apply State.cbsNow_keeps
    | with_reducible apply State.lateFrame_keeps
    | with_reducible apply State.ptCount_keeps
    | with_reducible apply State.ptSet_keeps
    | with_reducible apply State.emit_keeps
    | with_reducible apply State.modPort_keeps
    | with_reducible refine Keeps.ite (fun _ => ?_) (fun _ => ?_)

theorem State.dequeue_keeps {sK s : State} (p c : Fin 8) (hK : Keeps sK s) : Keeps sK (State.dequeue s p c) := by
  unfold State.dequeue
  try dsimp only
  repeat' first
    | with_reducible assumption
    | with_reducible exact Keeps.refl _
    | with_reducible apply State.modPort_keeps

theorem State.dropLate_keeps {s0 : State} (p c : Fin 8) (fuel : Nat) {s : State} (h : Keeps s0 s) :
    Keeps s0 (State.dropLate p c fuel s) := by
  induction fuel generalizing s with
  | zero => unfold State.dropLate; exact h
  | succ n ih =>
    unfold State.dropLate
    split
    · exact Keeps.ite (fun _ => ih (State.lateFrame_keeps _ _ _ (State.dequeue_keeps _ _ h))) (fun _ => h)
    · exact h

end Sys2Proof.Machine
end

