-- ==== Sys2Proof/Laws/Keeps5.lean ====
section
/-! SUPPORT. Each operation and each command of the files NetTime.lean, DriveTraffic.lean, Switch.lean, Can.lean keeps the relation `Keeps`: memory stays in
canonical form, cell time does not fall, and the queue, what has left the chip and the one-time-programmable memory stand. -/
namespace Sys2Proof.Machine

/-! ### NetTime.lean -/

theorem State.modDom_keeps {sK s : State} (d : Fin 2) (g : NtDom → NtDom) (hK : Keeps sK s) : Keeps sK (State.modDom s d g) := by
  unfold State.modDom
  try dsimp only
  repeat' first
    | with_reducible assumption
    | with_reducible exact Keeps.refl _
    | with_reducible refine Keeps.ite (fun _ => ?_) (fun _ => ?_)
    | split
    | with_reducible refine Keeps.upd rfl rfl rfl ?_

theorem State.modNtPort_keeps {sK s : State} (p : Fin 6) (g : NtPort → NtPort) (hK : Keeps sK s) : Keeps sK (State.modNtPort s p g) := by
  unfold State.modNtPort
  try dsimp only
  repeat' first
    | with_reducible assumption
    | with_reducible exact Keeps.refl _
    | with_reducible refine Keeps.ite (fun _ => ?_) (fun _ => ?_)
    | split
    | with_reducible refine Keeps.upd rfl rfl rfl ?_

theorem State.ntAdvance_keeps {sK s : State}  (hK : Keeps sK s) : Keeps sK (State.ntAdvance s) := by
  unfold State.ntAdvance
  try dsimp only
  repeat' first
    | with_reducible assumption
    | with_reducible exact Keeps.refl _
    | with_reducible apply State.modNt_keeps
    | with_reducible apply State.modPr_keeps

theorem ntFit_keeps {sK s : State} (h : List NtSync) (hK : Keeps sK s) : Keeps sK (ntFit s h).2 := by
  unfold ntFit
  try dsimp only
  repeat' first
    | with_reducible assumption
    | with_reducible exact Keeps.refl _
    | with_reducible apply State.takeFresh_keeps
    | with_reducible refine Keeps.iteSnd (fun _ => ?_) (fun _ => ?_)
    | with_reducible refine Keeps.ite (fun _ => ?_) (fun _ => ?_)
    | split

theorem State.domState_keeps {sK s : State} (d : Fin 2) (st : NtDomState) (hK : Keeps sK s) : Keeps sK (State.domState s d st) := by
  unfold State.domState
  try dsimp only
  repeat' first
    | with_reducible assumption
    | with_reducible exact Keeps.refl _
    | with_reducible apply State.modDom_keeps
    | with_reducible apply State.ntSet_keeps
    | with_reducible apply State.emit_keeps
    | with_reducible refine Keeps.ite (fun _ => ?_) (fun _ => ?_)

theorem State.ntTimeouts_keeps {sK s : State}  (hK : Keeps sK s) : Keeps sK (State.ntTimeouts s) := by
  unfold State.ntTimeouts
  try dsimp only
  repeat' first
    | with_reducible assumption
    | with_reducible exact Keeps.refl _
    | with_reducible apply State.domState_keeps
    | with_reducible refine Keeps.ite (fun _ => ?_) (fun _ => ?_)
    | with_reducible refine Keeps.forEach (fun _ _ => ?_) ?_

theorem execDomainTimeout_keeps (d : Fin 2) (s : State) : KeepsR s (execDomainTimeout d s) := by
  unfold execDomainTimeout
  try dsimp only
  repeat' first
    | with_reducible assumption
    | with_reducible exact Keeps.refl _
    | with_reducible refine KeepsR.next ?_
    | with_reducible refine KeepsR.ite (fun _ => ?_) (fun _ => ?_)
    | with_reducible apply State.reach_keeps
    | with_reducible apply State.domState_keeps

theorem State.asCapable_keeps {sK s : State} (p : Fin 6) (b : Bool) (hK : Keeps sK s) : Keeps sK (State.asCapable s p b) := by
  unfold State.asCapable
  try dsimp only
  repeat' first
    | with_reducible assumption
    | with_reducible exact Keeps.refl _
    | with_reducible apply State.modNtPort_keeps
    | with_reducible apply State.domState_keeps
    | with_reducible refine Keeps.ite (fun _ => ?_) (fun _ => ?_)
    | with_reducible refine Keeps.forEach (fun _ _ => ?_) ?_

theorem State.ntSend_keeps {sK s : State} (p : Fin 6) (f : List Byte) (inTs : Nat) (st : Stamp) (hK : Keeps sK s) : Keeps sK (State.ntSend s p f inTs st) := by
  unfold State.ntSend
  try dsimp only
  repeat' first
    | with_reducible assumption
    | with_reducible exact Keeps.refl _
    | with_reducible apply State.enqueue_keeps
    | with_reducible refine Keeps.ite (fun _ => ?_) (fun _ => ?_)

theorem execPdelayReqSend_keeps  (s : State) : KeepsR s (execPdelayReqSend s) := by
  unfold execPdelayReqSend
  try dsimp only
  repeat' first
    | with_reducible assumption
    | with_reducible exact Keeps.refl _
    | with_reducible refine KeepsR.next ?_
    | with_reducible refine KeepsR.ite (fun _ => ?_) (fun _ => ?_)
    | with_reducible apply State.reach_keeps
    | with_reducible apply State.modNt_keeps
    | with_reducible apply State.modNtPort_keeps
    | with_reducible apply State.asCapable_keeps
    | with_reducible apply State.ntSend_keeps
    | with_reducible refine Keeps.ite (fun _ => ?_) (fun _ => ?_)
    | with_reducible refine Keeps.forEach (fun _ _ => ?_) ?_

theorem State.pdelayAnswer_keeps {sK s : State} (p : Fin 6) (m : PtpMsg) (hK : Keeps sK s) : Keeps sK (State.pdelayAnswer s p m) := by
  unfold State.pdelayAnswer
  try dsimp only
  repeat' first
    | with_reducible assumption
    | with_reducible exact Keeps.refl _
    | with_reducible apply State.ntSend_keeps

theorem execPdelayReqReceive_keeps (p : Fin 6) (m : PtpMsg) (s : State) : KeepsR s (execPdelayReqReceive p m s) := by
  unfold execPdelayReqReceive
  try dsimp only
  repeat' first
    | with_reducible assumption
    | with_reducible exact Keeps.refl _
    | with_reducible refine KeepsR.next ?_
    | with_reducible refine KeepsR.ite (fun _ => ?_) (fun _ => ?_)
    | with_reducible apply State.pdelayAnswer_keeps

theorem State.pdelayDone_keeps {sK s : State} (p : Fin 6) (m fup : PtpMsg) (hK : Keeps sK s) : Keeps sK (State.pdelayDone s p m fup) := by
  unfold State.pdelayDone
  try dsimp only
  repeat' first
    | with_reducible assumption
    | with_reducible exact Keeps.refl _
    | with_reducible apply State.modNtPort_keeps
    | with_reducible apply State.asCapable_keeps
    | with_reducible refine Keeps.ite (fun _ => ?_) (fun _ => ?_)
    | split

theorem execPdelayRespReceive_keeps (p : Fin 6) (m fup : PtpMsg) (s : State) : KeepsR s (execPdelayRespReceive p m fup s) := by
  unfold execPdelayRespReceive
  try dsimp only
  repeat' first
    | with_reducible assumption
    | with_reducible exact Keeps.refl _
    | with_reducible refine KeepsR.next ?_
    | with_reducible refine KeepsR.ite (fun _ => ?_) (fun _ => ?_)
    | with_reducible apply State.pdelayDone_keeps

theorem State.syncReject_keeps {sK s : State} (d : Fin 2) (hK : Keeps sK s) : Keeps sK (State.syncReject s d) := by
  unfold State.syncReject
  try dsimp only
  repeat' first
    | with_reducible assumption
    | with_reducible exact Keeps.refl _
    | with_reducible apply State.modDom_keeps
    | with_reducible apply State.ntSet_keeps

theorem State.syncTrack_keeps {sK s : State} (d : Fin 2) (p : Fin 6) (m : PtpMsg) (hK : Keeps sK s) : Keeps sK (State.syncTrack s d p m) := by
  unfold State.syncTrack
  try dsimp only
  repeat' first
    | with_reducible assumption
    | with_reducible exact Keeps.refl _
    | with_reducible apply State.domState_keeps
    | with_reducible apply State.modDom_keeps
    | with_reducible apply State.take_keeps
    | with_reducible apply ntFit_keeps
    | with_reducible refine Keeps.ite (fun _ => ?_) (fun _ => ?_)

theorem State.syncRelay_keeps {sK s : State} (d : Fin 2) (p q : Fin 6) (m : PtpMsg) (hK : Keeps sK s) : Keeps sK (State.syncRelay s d p q m) := by
  unfold State.syncRelay
  try dsimp only
  repeat' first
    | with_reducible assumption
    | with_reducible exact Keeps.refl _
    | with_reducible apply State.asCapable_keeps
    | with_reducible apply State.modDom_keeps
    | with_reducible apply State.take_keeps
    | with_reducible apply State.ntSend_keeps
    | with_reducible refine Keeps.ite (fun _ => ?_) (fun _ => ?_)

theorem State.syncAccept_keeps {sK s : State} (d : Fin 2) (p : Fin 6) (m : PtpMsg) (hK : Keeps sK s) : Keeps sK (State.syncAccept s d p m) := by
  unfold State.syncAccept
  try dsimp only
  repeat' first
    | with_reducible assumption
    | with_reducible exact Keeps.refl _
    | with_reducible apply State.syncTrack_keeps
    | with_reducible apply State.syncRelay_keeps
    | with_reducible refine Keeps.ite (fun _ => ?_) (fun _ => ?_)
    | with_reducible refine Keeps.forEach (fun _ _ => ?_) ?_

theorem State.syncMsg_keeps {sK s : State} (p : Fin 6) (m : PtpMsg) (hK : Keeps sK s) : Keeps sK (State.syncMsg s p m) := by
  unfold State.syncMsg
  try dsimp only
  repeat' first
    | with_reducible assumption
    | with_reducible exact Keeps.refl _
    | with_reducible apply State.syncReject_keeps
    | with_reducible apply State.modDom_keeps
    | with_reducible apply State.syncAccept_keeps
    | with_reducible refine Keeps.ite (fun _ => ?_) (fun _ => ?_)
    | split

theorem execSyncReceive_keeps (p : Fin 6) (m : PtpMsg) (s : State) : KeepsR s (execSyncReceive p m s) := by
  unfold execSyncReceive
  try dsimp only
  repeat' first
    | with_reducible assumption
    | with_reducible exact Keeps.refl _
    | with_reducible refine KeepsR.next ?_
    | with_reducible refine KeepsR.ite (fun _ => ?_) (fun _ => ?_)
    | with_reducible apply State.syncMsg_keeps

theorem State.followUpMsg_keeps {sK s : State} (p : Fin 6) (m : PtpMsg) (hK : Keeps sK s) : Keeps sK (State.followUpMsg s p m) := by
  unfold State.followUpMsg
  try dsimp only
  repeat' first
    | with_reducible assumption
    | with_reducible exact Keeps.refl _
    | with_reducible apply State.syncReject_keeps
    | with_reducible apply State.syncAccept_keeps
    | with_reducible refine Keeps.ite (fun _ => ?_) (fun _ => ?_)
    | split

theorem execFollowUpReceive_keeps (p : Fin 6) (m : PtpMsg) (s : State) : KeepsR s (execFollowUpReceive p m s) := by
  unfold execFollowUpReceive
  try dsimp only
  repeat' first
    | with_reducible assumption
    | with_reducible exact Keeps.refl _
    | with_reducible refine KeepsR.next ?_
    | with_reducible refine KeepsR.ite (fun _ => ?_) (fun _ => ?_)
    | with_reducible apply State.followUpMsg_keeps

theorem execFollowUpTimeout_keeps (d : Fin 2) (s : State) : KeepsR s (execFollowUpTimeout d s) := by
  unfold execFollowUpTimeout
  try dsimp only
  repeat' first
    | with_reducible assumption
    | with_reducible exact Keeps.refl _
    | with_reducible refine KeepsR.next ?_
    | with_reducible refine KeepsR.ite (fun _ => ?_) (fun _ => ?_)
    | with_reducible apply State.reach_keeps
    | with_reducible apply State.modDom_keeps
    | with_reducible apply State.syncReject_keeps
    | with_reducible refine Keeps.ite (fun _ => ?_) (fun _ => ?_)
    | split

theorem State.extTrack_keeps {sK s : State} (th : Int) (c : Nat) (hK : Keeps sK s) : Keeps sK (State.extTrack s th c) := by
  unfold State.extTrack
  try dsimp only
  repeat' first
    | with_reducible assumption
    | with_reducible exact Keeps.refl _
    | with_reducible apply State.take_keeps
    | with_reducible apply ntFit_keeps
    | with_reducible apply State.modPr_keeps

theorem State.extFirst_keeps {sK s : State}  (hK : Keeps sK s) : Keeps sK (State.extFirst s) := by
  unfold State.extFirst
  try dsimp only
  repeat' first
    | with_reducible assumption
    | with_reducible exact Keeps.refl _
    | with_reducible apply State.modNt_keeps
    | with_reducible apply State.ntSet_keeps
    | with_reducible apply State.emit_keeps
    | with_reducible apply State.ntState_keeps

theorem State.ntFirst_keeps {sK s : State}  (hK : Keeps sK s) : Keeps sK (State.ntFirst s) := by
  unfold State.ntFirst
  try dsimp only
  repeat' first
    | with_reducible assumption
    | with_reducible exact Keeps.refl _
    | with_reducible apply State.modNt_keeps
    | with_reducible apply State.ntSet_keeps
    | with_reducible apply State.emit_keeps
    | with_reducible apply State.ntState_keeps

theorem State.ntSelect_keeps {sK s : State}  (hK : Keeps sK s) : Keeps sK (State.ntSelect s) := by
  unfold State.ntSelect
  try dsimp only
  repeat' first
    | with_reducible assumption
    | with_reducible exact Keeps.refl _
    | with_reducible apply State.ntSwitch_keeps
    | with_reducible apply State.modNt_keeps
    | with_reducible apply State.ntState_keeps
    | with_reducible apply State.ntHold_keeps
    | with_reducible refine Keeps.ite (fun _ => ?_) (fun _ => ?_)

theorem State.extSelect_keeps {sK s : State}  (hK : Keeps sK s) : Keeps sK (State.extSelect s) := by
  unfold State.extSelect
  try dsimp only
  repeat' first
    | with_reducible assumption
    | with_reducible exact Keeps.refl _
    | with_reducible apply State.ntState_keeps
    | with_reducible apply State.ntHold_keeps
    | with_reducible refine Keeps.ite (fun _ => ?_) (fun _ => ?_)

theorem State.ntServo_keeps {sK s : State}  (hK : Keeps sK s) : Keeps sK (State.ntServo s) := by
  unfold State.ntServo
  try dsimp only
  repeat' first
    | with_reducible assumption
    | with_reducible exact Keeps.refl _
    | with_reducible apply State.modNt_keeps
    | with_reducible refine Keeps.ite (fun _ => ?_) (fun _ => ?_)
    | split
    | with_reducible refine Keeps.upd rfl rfl rfl ?_

theorem State.alignStart_keeps {sK s : State} (net : Int) (pick beat : BitVec 32) (hK : Keeps sK s) : Keeps sK (State.alignStart s net pick beat) := by
  unfold State.alignStart
  try dsimp only
  repeat' first
    | with_reducible assumption
    | with_reducible exact Keeps.refl _
    | with_reducible apply State.stopPicks_keeps
    | with_reducible apply State.modTb_keeps
    | with_reducible apply State.stlFit_keeps
    | with_reducible refine Keeps.ite (fun _ => ?_) (fun _ => ?_)
    | with_reducible refine Keeps.forEach (fun _ _ => ?_) ?_
    | split
    | with_reducible refine Keeps.upd rfl rfl rfl ?_
    | (intro _; dsimp only)

theorem syncAdvance_keeps {sK s : State}  (hK : Keeps sK s) : Keeps sK (syncAdvance s) := by
  unfold syncAdvance
  try dsimp only
  repeat' first
    | with_reducible assumption
    | with_reducible exact Keeps.refl _
    | with_reducible apply State.alignStart_keeps
    | with_reducible apply State.modPr_keeps
    | with_reducible apply State.follow_keeps
    | with_reducible apply State.modTb_keeps
    | with_reducible apply State.emit_keeps
    | with_reducible refine Keeps.ite (fun _ => ?_) (fun _ => ?_)
    | split
    | with_reducible refine Keeps.upd rfl rfl rfl ?_
    | (intro _; dsimp only)

theorem execServoUpdate_keeps  (s : State) : KeepsR s (execServoUpdate s) := by
  unfold execServoUpdate
  try dsimp only
  repeat' first
    | with_reducible assumption
    | with_reducible exact Keeps.refl _
    | with_reducible refine KeepsR.next ?_
    | with_reducible refine KeepsR.ite (fun _ => ?_) (fun _ => ?_)
    | with_reducible apply State.reach_keeps
    | with_reducible apply State.modNt_keeps
    | with_reducible apply State.ntAdvance_keeps
    | with_reducible apply State.ntTimeouts_keeps
    | with_reducible apply State.ntServo_keeps
    | with_reducible apply State.extSelect_keeps
    | with_reducible apply State.extFirst_keeps
    | with_reducible apply State.ntSelect_keeps
    | with_reducible apply State.ntFirst_keeps
    | with_reducible apply syncAdvance_keeps
    | with_reducible apply State.modDom_keeps
    | with_reducible refine Keeps.ite (fun _ => ?_) (fun _ => ?_)
    | with_reducible refine Keeps.forEach (fun _ _ => ?_) ?_

theorem execHoldoverTimeout_keeps  (s : State) : KeepsR s (execHoldoverTimeout s) := by
  unfold execHoldoverTimeout
  try dsimp only
  repeat' first
    | with_reducible assumption
    | with_reducible exact Keeps.refl _
    | with_reducible refine KeepsR.next ?_
    | with_reducible refine KeepsR.ite (fun _ => ?_) (fun _ => ?_)
    | with_reducible apply State.reach_keeps
    | with_reducible apply State.ntState_keeps

theorem State.setNtCtrl_keeps {sK s : State} (v : BitVec 32) (hK : Keeps sK s) : Keeps sK (State.setNtCtrl s v) := by
  unfold State.setNtCtrl
  try dsimp only
  repeat' first
    | with_reducible assumption
    | with_reducible exact Keeps.refl _
    | with_reducible apply State.modNt_keeps
    | with_reducible apply State.ntSet_keeps
    | with_reducible refine Keeps.ite (fun _ => ?_) (fun _ => ?_)

theorem execNtSwitchRequest_keeps (v : BitVec 32) (s : State) : KeepsR s (execNtSwitchRequest v s) := by
  unfold execNtSwitchRequest
  try dsimp only
  repeat' first
    | with_reducible assumption
    | with_reducible exact Keeps.refl _
    | with_reducible refine KeepsR.next ?_
    | with_reducible refine KeepsR.ite (fun _ => ?_) (fun _ => ?_)
    | with_reducible apply State.setNtCtrl_keeps

theorem State.setNtDom_keeps {sK s : State} (d : Fin 2) (v : BitVec 32) (hK : Keeps sK s) : Keeps sK (State.setNtDom s d v) := by
  unfold State.setNtDom
  try dsimp only
  repeat' first
    | with_reducible assumption
    | with_reducible exact Keeps.refl _
    | with_reducible apply State.ntSet_keeps
    | with_reducible apply State.modDom_keeps
    | with_reducible apply State.domState_keeps
    | with_reducible refine Keeps.ite (fun _ => ?_) (fun _ => ?_)

theorem execTimeMark_keeps  (s : State) : KeepsR s (execTimeMark s) := by
  unfold execTimeMark
  try dsimp only
  repeat' first
    | with_reducible assumption
    | with_reducible exact Keeps.refl _
    | with_reducible refine KeepsR.next ?_
    | with_reducible refine KeepsR.ite (fun _ => ?_) (fun _ => ?_)
    | with_reducible apply State.reach_keeps
    | with_reducible apply State.modNt_keeps
    | with_reducible apply State.emit_keeps

theorem execNtOfs0Read_keeps  (s : State) : KeepsR s (execNtOfs0Read s) := by
  unfold execNtOfs0Read
  try dsimp only
  repeat' first
    | with_reducible assumption
    | with_reducible exact Keeps.refl _
    | with_reducible refine KeepsR.next ?_
    | with_reducible refine KeepsR.ite (fun _ => ?_) (fun _ => ?_)
    | with_reducible apply State.modNt_keeps
    | with_reducible refine Keeps.ite (fun _ => ?_) (fun _ => ?_)
    | split
    | with_reducible refine Keeps.upd rfl rfl rfl ?_

theorem execNtPhaseLoRead_keeps  (s : State) : KeepsR s (execNtPhaseLoRead s) := by
  unfold execNtPhaseLoRead
  try dsimp only
  repeat' first
    | with_reducible assumption
    | with_reducible exact Keeps.refl _
    | with_reducible refine KeepsR.next ?_
    | with_reducible refine KeepsR.ite (fun _ => ?_) (fun _ => ?_)
    | with_reducible apply State.modNt_keeps
    | with_reducible refine Keeps.ite (fun _ => ?_) (fun _ => ?_)
    | split
    | with_reducible refine Keeps.upd rfl rfl rfl ?_

theorem execNtNowNsRead_keeps  (s : State) : KeepsR s (execNtNowNsRead s) := by
  unfold execNtNowNsRead
  try dsimp only
  repeat' first
    | with_reducible assumption
    | with_reducible exact Keeps.refl _
    | with_reducible refine KeepsR.next ?_
    | with_reducible refine KeepsR.ite (fun _ => ?_) (fun _ => ?_)
    | with_reducible apply State.modNt_keeps
    | with_reducible refine Keeps.ite (fun _ => ?_) (fun _ => ?_)
    | split
    | with_reducible refine Keeps.upd rfl rfl rfl ?_

theorem execNtDomPhaseLoRead_keeps (d : Fin 2) (s : State) : KeepsR s (execNtDomPhaseLoRead d s) := by
  unfold execNtDomPhaseLoRead
  try dsimp only
  repeat' first
    | with_reducible assumption
    | with_reducible exact Keeps.refl _
    | with_reducible refine KeepsR.next ?_
    | with_reducible refine KeepsR.ite (fun _ => ?_) (fun _ => ?_)
    | with_reducible apply State.modDom_keeps
    | with_reducible refine Keeps.ite (fun _ => ?_) (fun _ => ?_)
    | split
    | with_reducible refine Keeps.upd rfl rfl rfl ?_

theorem State.ntTake_keeps {sK s : State} (p : Fin 6) (f : List Byte) (rx : Nat) (hK : Keeps sK s) : Keeps sK (State.ntTake s p f rx).2 := by
  unfold State.ntTake
  try dsimp only
  repeat' first
    | with_reducible assumption
    | with_reducible exact Keeps.refl _
    | with_reducible apply State.pdelayAnswer_keeps
    | with_reducible apply State.modNtPort_keeps
    | with_reducible apply State.pdelayDone_keeps
    | with_reducible apply State.syncMsg_keeps
    | with_reducible apply State.followUpMsg_keeps
    | with_reducible refine Keeps.iteSnd (fun _ => ?_) (fun _ => ?_)
    | with_reducible refine Keeps.ite (fun _ => ?_) (fun _ => ?_)
    | split

/-! ### DriveTraffic.lean -/

theorem State.driveRec_keeps {sK s : State} (ws : List (BitVec 32)) (dis : Bool) (i : Nat) (hK : Keeps sK s) : Keeps sK (State.driveRec s ws dis i) := by
  unfold State.driveRec
  try dsimp only
  repeat' first
    | with_reducible assumption
    | with_reducible exact Keeps.refl _
    | with_reducible apply State.swCount_keeps
    | with_reducible apply State.fbPdu_keeps
    | with_reducible refine Keeps.ite (fun _ => ?_) (fun _ => ?_)
    | split
    | with_reducible refine Keeps.upd rfl rfl rfl ?_

theorem State.asmAdd_keeps {sK s : State} (i : Fin 8) (m : SlAsm) (hK : Keeps sK s) : Keeps sK (State.asmAdd s i m) := by
  unfold State.asmAdd
  try dsimp only
  repeat' first
    | with_reducible assumption
    | with_reducible exact Keeps.refl _
    | with_reducible apply State.take_keeps
    | with_reducible apply State.pduDiscard_keeps
    | with_reducible apply State.asmDrop_keeps
    | with_reducible apply State.wrBytes_keeps
    | with_reducible apply State.modSens_keeps
    | with_reducible refine Keeps.ite (fun _ => ?_) (fun _ => ?_)
    | split
    | with_reducible refine Keeps.upd rfl rfl rfl ?_

theorem State.fragment_keeps {sK s : State} (i : Fin 8) (w : List (BitVec 32)) (prev : BitVec 16) (hK : Keeps sK s) : Keeps sK (State.fragment s i w prev) := by
  unfold State.fragment
  try dsimp only
  repeat' first
    | with_reducible assumption
    | with_reducible exact Keeps.refl _
    | with_reducible apply State.take_keeps
    | with_reducible apply State.asmDrop_keeps
    | with_reducible apply State.reedSlot_keeps
    | with_reducible apply State.asmAdd_keeps
    | with_reducible apply State.pduDiscard_keeps
    | with_reducible refine Keeps.ite (fun _ => ?_) (fun _ => ?_)
    | split

theorem State.sensPdu_keeps {sK s : State} (i : Fin 8) (w : List (BitVec 32)) (dis : Bool) (hK : Keeps sK s) : Keeps sK (State.sensPdu s i w dis) := by
  unfold State.sensPdu
  try dsimp only
  repeat' first
    | with_reducible assumption
    | with_reducible exact Keeps.refl _
    | with_reducible apply State.pduDiscard_keeps
    | with_reducible apply State.pduAccept_keeps
    | with_reducible apply State.fragment_keeps
    | with_reducible apply State.asmDrop_keeps
    | with_reducible refine Keeps.ite (fun _ => ?_) (fun _ => ?_)
    | split

theorem State.driveTraffic_keeps {sK s : State} (p : Fin 8) (data : List Byte) (dis : Bool) (hK : Keeps sK s) : Keeps sK (State.driveTraffic s p data dis) := by
  unfold State.driveTraffic
  try dsimp only
  repeat' first
    | with_reducible assumption
    | with_reducible exact Keeps.refl _
    | with_reducible apply State.swCount_keeps
    | with_reducible apply State.swSet_keeps
    | with_reducible apply State.emit_keeps
    | with_reducible apply State.driveRec_keeps
    | with_reducible apply State.sensPdu_keeps
    | with_reducible refine Keeps.ite (fun _ => ?_) (fun _ => ?_)
    | with_reducible refine Keeps.forEach (fun _ _ => ?_) ?_
    | split

theorem execDriveTrafficReceive_keeps (p : Fin 8) (frame : List Byte) (dis : Bool) (s : State) : KeepsR s (execDriveTrafficReceive p frame dis s) := by
  unfold execDriveTrafficReceive
  try dsimp only
  repeat' first
    | with_reducible assumption
    | with_reducible exact Keeps.refl _
    | with_reducible refine KeepsR.next ?_
    | with_reducible refine KeepsR.ite (fun _ => ?_) (fun _ => ?_)
    | with_reducible apply State.driveTraffic_keeps

/-! ### Switch.lean -/

theorem State.hostRx_keeps {sK s : State} (f : TxFrame) (hK : Keeps sK s) : Keeps sK (State.hostRx s f) := by
  unfold State.hostRx
  try dsimp only
  repeat' first
    | with_reducible assumption
    | with_reducible exact Keeps.refl _
    | with_reducible apply State.busWrite_keeps
    | with_reducible refine Keeps.ite (fun _ => ?_) (fun _ => ?_)
    | split
    | with_reducible refine Keeps.upd rfl rfl rfl ?_

theorem State.fdbLearn_keeps {sK s : State} (p : Fin 8) (f : List Byte) (hK : Keeps sK s) : Keeps sK (State.fdbLearn s p f) := by
  unfold State.fdbLearn
  try dsimp only
  repeat' first
    | with_reducible assumption
    | with_reducible exact Keeps.refl _
    | with_reducible apply State.modSw_keeps
    | with_reducible refine Keeps.ite (fun _ => ?_) (fun _ => ?_)
    | split

theorem State.cbCheck_keeps {sK s : State} (p : Fin 8) (f : List Byte) (hK : Keeps sK s) : Keeps sK (State.cbCheck s p f).2 := by
  unfold State.cbCheck
  try dsimp only
  repeat' first
    | with_reducible assumption
    | with_reducible exact Keeps.refl _
    | with_reducible apply State.modSw_keeps
    | with_reducible apply State.swCount_keeps
    | with_reducible apply State.swSet_keeps
    | with_reducible apply State.emit_keeps
    | with_reducible refine Keeps.iteSnd (fun _ => ?_) (fun _ => ?_)
    | with_reducible refine Keeps.ite (fun _ => ?_) (fun _ => ?_)
    | split

theorem State.forward_keeps {sK s : State} (p : Fin 8) (f : TxFrame) (hK : Keeps sK s) : Keeps sK (State.forward s p f) := by
  unfold State.forward
  try dsimp only
  repeat' first
    | with_reducible assumption
    | with_reducible exact Keeps.refl _
    | with_reducible apply State.cbCheck_keeps
    | with_reducible apply State.enqueue_keeps
    | with_reducible refine Keeps.ite (fun _ => ?_) (fun _ => ?_)
    | with_reducible refine Keeps.fold (fun _ _ => ?_) ?_

theorem execFrameReceive_keeps (p : Fin 6) (frame : List Byte) (s : State) : KeepsR s (execFrameReceive p frame s) := by
  unfold execFrameReceive
  try dsimp only
  repeat' first
    | with_reducible assumption
    | with_reducible exact Keeps.refl _
    | with_reducible refine KeepsR.next ?_
    | with_reducible refine KeepsR.ite (fun _ => ?_) (fun _ => ?_)
    | with_reducible apply State.ptCount_keeps
    | with_reducible apply State.take_keeps
    | with_reducible apply State.fdbLearn_keeps
    | with_reducible apply State.forward_keeps
    | with_reducible apply State.cbCheck_keeps
    | with_reducible apply State.enqueue_keeps
    | with_reducible refine Keeps.ite (fun _ => ?_) (fun _ => ?_)

theorem State.egressStamp_keeps {sK s : State} (p : Fin 6) (f : TxFrame) (t : Nat) (hK : Keeps sK s) : Keeps sK (State.egressStamp s p f t) := by
  unfold State.egressStamp
  try dsimp only
  repeat' first
    | with_reducible assumption
    | with_reducible exact Keeps.refl _
    | with_reducible apply State.modNtPort_keeps
    | with_reducible apply State.ntSend_keeps
    | with_reducible refine Keeps.ite (fun _ => ?_) (fun _ => ?_)
    | split

theorem State.purge_keeps {sK s : State} (p : Fin 8) (hK : Keeps sK s) : Keeps sK (State.purge s p) := by
  unfold State.purge
  try dsimp only
  repeat' first
    | with_reducible assumption
    | with_reducible exact Keeps.refl _
    | with_reducible apply State.modPort_keeps
    | with_reducible refine Keeps.ite (fun _ => ?_) (fun _ => ?_)

theorem State.transmit_keeps {sK s : State} (p : Fin 6) (c : Fin 8) (f : TxFrame) (hK : Keeps sK s) : Keeps sK (State.transmit s p c f) := by
  unfold State.transmit
  try dsimp only
  repeat' first
    | with_reducible assumption
    | with_reducible exact Keeps.refl _
    | with_reducible apply State.dequeue_keeps
    | with_reducible apply State.modPort_keeps
    | with_reducible apply State.ptCount_keeps
    | with_reducible apply State.egressStamp_keeps
    | with_reducible apply State.frameGone_keeps
    | with_reducible refine Keeps.ite (fun _ => ?_) (fun _ => ?_)
    | split
    | with_reducible refine Keeps.upd rfl rfl rfl ?_
    | with_reducible refine Keeps.updOut rfl rfl rfl (List.suffix_cons _ _) ?_

theorem State.deliver_keeps {sK s : State} (p c : Fin 8) (f : TxFrame) (hK : Keeps sK s) : Keeps sK (State.deliver s p c f) := by
  unfold State.deliver
  try dsimp only
  repeat' first
    | with_reducible assumption
    | with_reducible exact Keeps.refl _
    | with_reducible apply State.dequeue_keeps
    | with_reducible apply State.ptCount_keeps
    | with_reducible apply State.frameGone_keeps
    | with_reducible apply State.driveTraffic_keeps
    | with_reducible apply State.ntTake_keeps
    | with_reducible apply State.hostRx_keeps
    | with_reducible refine Keeps.ite (fun _ => ?_) (fun _ => ?_)
    | split

theorem execEgressSelect_keeps (p : Fin 8) (s : State) : KeepsR s (execEgressSelect p s) := by
  unfold execEgressSelect
  try dsimp only
  repeat' first
    | with_reducible assumption
    | with_reducible exact Keeps.refl _
    | with_reducible refine KeepsR.next ?_
    | with_reducible refine KeepsR.ite (fun _ => ?_) (fun _ => ?_)
    | with_reducible apply State.purge_keeps
    | with_reducible apply State.cbsNow_keeps
    | with_reducible apply State.dropLate_keeps
    | with_reducible apply State.transmit_keeps
    | with_reducible apply State.deliver_keeps
    | with_reducible refine Keeps.ite (fun _ => ?_) (fun _ => ?_)
    | with_reducible refine Keeps.forEach (fun _ _ => ?_) ?_
    | split

theorem execLaunchTimeReached_keeps (p c : Fin 8) (s : State) : KeepsR s (execLaunchTimeReached p c s) := by
  unfold execLaunchTimeReached
  try dsimp only
  repeat' first
    | with_reducible assumption
    | with_reducible exact Keeps.refl _
    | with_reducible refine KeepsR.next ?_
    | with_reducible refine KeepsR.ite (fun _ => ?_) (fun _ => ?_)
    | with_reducible apply State.reach_keeps
    | with_reducible refine Keeps.ite (fun _ => ?_) (fun _ => ?_)
    | split

theorem execLateFrame_keeps (p c : Fin 8) (s : State) : KeepsR s (execLateFrame p c s) := by
  unfold execLateFrame
  try dsimp only
  repeat' first
    | with_reducible assumption
    | with_reducible exact Keeps.refl _
    | with_reducible refine KeepsR.next ?_
    | with_reducible refine KeepsR.ite (fun _ => ?_) (fun _ => ?_)
    | with_reducible apply State.reach_keeps
    | with_reducible apply State.cbsNow_keeps
    | with_reducible apply State.dequeue_keeps
    | with_reducible apply State.lateFrame_keeps
    | with_reducible refine Keeps.ite (fun _ => ?_) (fun _ => ?_)
    | split

theorem State.reachFix_keeps {s0 s : State} (t : Nat) (h : Keeps s0 s) : Keeps s0 (s.reachFix t) := by
  unfold State.reachFix
  exact Keeps.ite (fun c => Keeps.later h rfl rfl rfl rfl rfl (Nat.le_of_lt c)) (fun _ => h)

theorem State.gclBegin_keeps {sK s : State} (p : Fin 8) (t : Nat) (swap : Bool) (hK : Keeps sK s) : Keeps sK (State.gclBegin s p t swap) := by
  unfold State.gclBegin
  try dsimp only
  repeat' first
    | with_reducible assumption
    | with_reducible exact Keeps.refl _
    | with_reducible apply State.cbsNow_keeps
    | with_reducible apply State.modPort_keeps
    | with_reducible apply State.ptSet_keeps
    | with_reducible apply State.emit_keeps
    | with_reducible refine Keeps.ite (fun _ => ?_) (fun _ => ?_)
    | split

theorem State.gclPick_keeps {sK s : State} (p : Fin 8) (t : Nat) (hK : Keeps sK s) : Keeps sK (State.gclPick s p t) := by
  unfold State.gclPick
  try dsimp only
  repeat' first
    | with_reducible assumption
    | with_reducible exact Keeps.refl _
    | with_reducible apply State.gclBegin_keeps
    | with_reducible refine Keeps.ite (fun _ => ?_) (fun _ => ?_)

theorem execGclEntryAdvance_keeps (p : Fin 6) (s : State) : KeepsR s (execGclEntryAdvance p s) := by
  unfold execGclEntryAdvance
  try dsimp only
  repeat' first
    | with_reducible assumption
    | with_reducible exact Keeps.refl _
    | with_reducible refine KeepsR.next ?_
    | with_reducible refine KeepsR.ite (fun _ => ?_) (fun _ => ?_)
    | with_reducible apply State.reachFix_keeps
    | with_reducible apply State.cbsNow_keeps
    | with_reducible apply State.modPort_keeps
    | with_reducible refine Keeps.ite (fun _ => ?_) (fun _ => ?_)
    | split

theorem execGclCycleStart_keeps (p : Fin 6) (s : State) : KeepsR s (execGclCycleStart p s) := by
  unfold execGclCycleStart
  try dsimp only
  repeat' first
    | with_reducible assumption
    | with_reducible exact Keeps.refl _
    | with_reducible refine KeepsR.next ?_
    | with_reducible refine KeepsR.ite (fun _ => ?_) (fun _ => ?_)
    | with_reducible apply State.reachFix_keeps
    | with_reducible apply State.gclBegin_keeps
    | with_reducible apply State.gclPick_keeps
    | with_reducible refine Keeps.ite (fun _ => ?_) (fun _ => ?_)
    | split

theorem State.setGclCtrl_keeps {sK s : State} (p : Fin 8) (v : BitVec 32) (hK : Keeps sK s) : Keeps sK (State.setGclCtrl s p v) := by
  unfold State.setGclCtrl
  try dsimp only
  repeat' first
    | with_reducible assumption
    | with_reducible exact Keeps.refl _
    | with_reducible apply State.cbsNow_keeps
    | with_reducible apply State.modPort_keeps
    | with_reducible apply State.ptSet_keeps
    | with_reducible refine Keeps.ite (fun _ => ?_) (fun _ => ?_)

theorem execGclSwapRequest_keeps (p : Fin 6) (v : BitVec 32) (s : State) : KeepsR s (execGclSwapRequest p v s) := by
  unfold execGclSwapRequest
  try dsimp only
  repeat' first
    | with_reducible assumption
    | with_reducible exact Keeps.refl _
    | with_reducible refine KeepsR.next ?_
    | with_reducible refine KeepsR.ite (fun _ => ?_) (fun _ => ?_)
    | with_reducible apply State.setGclCtrl_keeps

theorem State.linkChange_keeps {sK s : State} (p : Fin 6) (up : Bool) (hK : Keeps sK s) : Keeps sK (State.linkChange s p up) := by
  unfold State.linkChange
  try dsimp only
  repeat' first
    | with_reducible assumption
    | with_reducible exact Keeps.refl _
    | with_reducible apply State.modPort_keeps
    | with_reducible apply State.ptSet_keeps
    | with_reducible apply State.emit_keeps
    | with_reducible refine Keeps.ite (fun _ => ?_) (fun _ => ?_)

theorem execLinkChange_keeps (p : Fin 6) (up : Bool) (s : State) : KeepsR s (execLinkChange p up s) := by
  unfold execLinkChange
  try dsimp only
  repeat' first
    | with_reducible assumption
    | with_reducible exact Keeps.refl _
    | with_reducible refine KeepsR.next ?_
    | with_reducible refine KeepsR.ite (fun _ => ?_) (fun _ => ?_)
    | with_reducible apply State.linkChange_keeps

theorem State.setFdbCmd_keeps {sK s : State} (v : BitVec 32) (hK : Keeps sK s) : Keeps sK (State.setFdbCmd s v) := by
  unfold State.setFdbCmd
  try dsimp only
  repeat' first
    | with_reducible assumption
    | with_reducible exact Keeps.refl _
    | with_reducible apply State.modSw_keeps
    | with_reducible refine Keeps.ite (fun _ => ?_) (fun _ => ?_)

theorem execFdbWrite_keeps (v : BitVec 32) (s : State) : KeepsR s (execFdbWrite v s) := by
  unfold execFdbWrite
  try dsimp only
  repeat' first
    | with_reducible assumption
    | with_reducible exact Keeps.refl _
    | with_reducible refine KeepsR.next ?_
    | with_reducible refine KeepsR.ite (fun _ => ?_) (fun _ => ?_)
    | with_reducible apply State.setFdbCmd_keeps

theorem execFdbDelete_keeps (v : BitVec 32) (s : State) : KeepsR s (execFdbDelete v s) := by
  unfold execFdbDelete
  try dsimp only
  repeat' first
    | with_reducible assumption
    | with_reducible exact Keeps.refl _
    | with_reducible refine KeepsR.next ?_
    | with_reducible refine KeepsR.ite (fun _ => ?_) (fun _ => ?_)
    | with_reducible apply State.setFdbCmd_keeps

theorem execFdbAgeExpire_keeps (i : Nat) (s : State) : KeepsR s (execFdbAgeExpire i s) := by
  unfold execFdbAgeExpire
  try dsimp only
  repeat' first
    | with_reducible assumption
    | with_reducible exact Keeps.refl _
    | with_reducible refine KeepsR.next ?_
    | with_reducible refine KeepsR.ite (fun _ => ?_) (fun _ => ?_)
    | with_reducible apply State.reach_keeps
    | with_reducible apply State.modSw_keeps
    | with_reducible refine Keeps.ite (fun _ => ?_) (fun _ => ?_)
    | split

theorem execCbStreamReset_keeps (i : Nat) (s : State) : KeepsR s (execCbStreamReset i s) := by
  unfold execCbStreamReset
  try dsimp only
  repeat' first
    | with_reducible assumption
    | with_reducible exact Keeps.refl _
    | with_reducible refine KeepsR.next ?_
    | with_reducible refine KeepsR.ite (fun _ => ?_) (fun _ => ?_)
    | with_reducible apply State.reach_keeps
    | with_reducible apply State.modSw_keeps
    | with_reducible refine Keeps.ite (fun _ => ?_) (fun _ => ?_)
    | split

theorem execPtCntClear_keeps (p : Fin 8) (k : Fin 6) (s : State) : KeepsR s (execPtCntClear p k s) := by
  unfold execPtCntClear
  try dsimp only
  repeat' first
    | with_reducible assumption
    | with_reducible exact Keeps.refl _
    | with_reducible refine KeepsR.next ?_
    | with_reducible refine KeepsR.ite (fun _ => ?_) (fun _ => ?_)
    | with_reducible apply State.modPort_keeps

/-! ### Can.lean -/

theorem State.modCan_keeps {sK s : State} (n : Fin 4) (g : CanCtl → CanCtl) (hK : Keeps sK s) : Keeps sK (State.modCan s n g) := by
  unfold State.modCan
  try dsimp only
  repeat' first
    | with_reducible assumption
    | with_reducible exact Keeps.refl _
    | with_reducible refine Keeps.ite (fun _ => ?_) (fun _ => ?_)
    | split
    | with_reducible refine Keeps.upd rfl rfl rfl ?_

theorem State.canSet_keeps {sK s : State} (n : Fin 4) (i : Nat) (hK : Keeps sK s) : Keeps sK (State.canSet s n i) := by
  unfold State.canSet
  try dsimp only
  repeat' first
    | with_reducible assumption
    | with_reducible exact Keeps.refl _
    | with_reducible apply irqWatch_keeps
    | with_reducible apply State.modCan_keeps

theorem State.canCounters_keeps {sK s : State} (n : Fin 4) (tec rec : Nat) (hK : Keeps sK s) : Keeps sK (State.canCounters s n tec rec) := by
  unfold State.canCounters
  try dsimp only
  repeat' first
    | with_reducible assumption
    | with_reducible exact Keeps.refl _
    | with_reducible apply State.modCan_keeps
    | with_reducible apply State.canSet_keeps
    | with_reducible apply State.emit_keeps
    | with_reducible refine Keeps.ite (fun _ => ?_) (fun _ => ?_)

theorem State.canEndTx_keeps {sK s : State} (n : Fin 4) (hK : Keeps sK s) : Keeps sK (State.canEndTx s n) := by
  unfold State.canEndTx
  try dsimp only
  repeat' first
    | with_reducible assumption
    | with_reducible exact Keeps.refl _
    | with_reducible apply State.modCan_keeps

theorem State.setCanCtrl_keeps {sK s : State} (n : Fin 4) (v : BitVec 32) (hK : Keeps sK s) : Keeps sK (State.setCanCtrl s n v) := by
  unfold State.setCanCtrl
  try dsimp only
  repeat' first
    | with_reducible assumption
    | with_reducible exact Keeps.refl _
    | with_reducible apply State.canSet_keeps
    | with_reducible apply State.modCan_keeps
    | with_reducible apply State.canEndTx_keeps
    | with_reducible refine Keeps.ite (fun _ => ?_) (fun _ => ?_)

theorem execCanModeWrite_keeps (n : Fin 4) (v : BitVec 32) (s : State) : KeepsR s (execCanModeWrite n v s) := by
  unfold execCanModeWrite
  try dsimp only
  repeat' first
    | with_reducible assumption
    | with_reducible exact Keeps.refl _
    | with_reducible refine KeepsR.next ?_
    | with_reducible refine KeepsR.ite (fun _ => ?_) (fun _ => ?_)
    | with_reducible apply State.setCanCtrl_keeps

theorem execCanRestart_keeps (n : Fin 4) (v : BitVec 32) (s : State) : KeepsR s (execCanRestart n v s) := by
  unfold execCanRestart
  try dsimp only
  repeat' first
    | with_reducible assumption
    | with_reducible exact Keeps.refl _
    | with_reducible refine KeepsR.next ?_
    | with_reducible refine KeepsR.ite (fun _ => ?_) (fun _ => ?_)
    | with_reducible apply State.setCanCtrl_keeps

theorem execCanModeEffect_keeps (n : Fin 4) (s : State) : KeepsR s (execCanModeEffect n s) := by
  unfold execCanModeEffect
  try dsimp only
  repeat' first
    | with_reducible assumption
    | with_reducible exact Keeps.refl _
    | with_reducible refine KeepsR.next ?_
    | with_reducible refine KeepsR.ite (fun _ => ?_) (fun _ => ?_)
    | with_reducible apply State.modCan_keeps

theorem execCanTxsetWrite_keeps (n w : Fin 4) (v : BitVec 32) (s : State) : KeepsR s (execCanTxsetWrite n w v s) := by
  unfold execCanTxsetWrite
  try dsimp only
  repeat' first
    | with_reducible assumption
    | with_reducible exact Keeps.refl _
    | with_reducible refine KeepsR.next ?_
    | with_reducible refine KeepsR.ite (fun _ => ?_) (fun _ => ?_)
    | with_reducible apply State.canSet_keeps
    | with_reducible apply State.modCan_keeps
    | with_reducible apply State.txDone_keeps
    | with_reducible refine Keeps.ite (fun _ => ?_) (fun _ => ?_)
    | with_reducible refine Keeps.forEach (fun _ _ => ?_) ?_

theorem execCanTxcancelWrite_keeps (n w : Fin 4) (v : BitVec 32) (s : State) : KeepsR s (execCanTxcancelWrite n w v s) := by
  unfold execCanTxcancelWrite
  try dsimp only
  repeat' first
    | with_reducible assumption
    | with_reducible exact Keeps.refl _
    | with_reducible refine KeepsR.next ?_
    | with_reducible refine KeepsR.ite (fun _ => ?_) (fun _ => ?_)
    | with_reducible apply State.modCan_keeps
    | with_reducible refine Keeps.ite (fun _ => ?_) (fun _ => ?_)
    | with_reducible refine Keeps.forEach (fun _ _ => ?_) ?_

theorem execCanRxnewWrite_keeps (n w : Fin 4) (v : BitVec 32) (s : State) : KeepsR s (execCanRxnewWrite n w v s) := by
  unfold execCanRxnewWrite
  try dsimp only
  repeat' first
    | with_reducible assumption
    | with_reducible exact Keeps.refl _
    | with_reducible refine KeepsR.next ?_
    | with_reducible refine KeepsR.ite (fun _ => ?_) (fun _ => ?_)
    | with_reducible apply State.modCan_keeps

theorem execCanInvalidWrite_keeps (n w : Fin 4) (v : BitVec 32) (s : State) : KeepsR s (execCanInvalidWrite n w v s) := by
  unfold execCanInvalidWrite
  try dsimp only
  repeat' first
    | with_reducible assumption
    | with_reducible exact Keeps.refl _
    | with_reducible refine KeepsR.next ?_
    | with_reducible refine KeepsR.ite (fun _ => ?_) (fun _ => ?_)
    | with_reducible apply State.modCan_keeps

theorem execCanTxAttempt_keeps (n : Fin 4) (s : State) : KeepsR s (execCanTxAttempt n s) := by
  unfold execCanTxAttempt
  try dsimp only
  repeat' first
    | with_reducible assumption
    | with_reducible exact Keeps.refl _
    | with_reducible refine KeepsR.next ?_
    | with_reducible refine KeepsR.ite (fun _ => ?_) (fun _ => ?_)
    | with_reducible apply State.modCan_keeps
    | with_reducible refine Keeps.ite (fun _ => ?_) (fun _ => ?_)
    | split
    | with_reducible refine Keeps.upd rfl rfl rfl ?_
    | with_reducible refine Keeps.updOut rfl rfl rfl (List.suffix_cons _ _) ?_

theorem execCanTxComplete_keeps (n : Fin 4) (s : State) : KeepsR s (execCanTxComplete n s) := by
  unfold execCanTxComplete
  try dsimp only
  repeat' first
    | with_reducible assumption
    | with_reducible exact Keeps.refl _
    | with_reducible refine KeepsR.next ?_
    | with_reducible refine KeepsR.ite (fun _ => ?_) (fun _ => ?_)
    | with_reducible apply State.wr64_keeps
    | with_reducible apply State.modCan_keeps
    | with_reducible apply State.txDone_keeps
    | with_reducible apply State.canSet_keeps
    | with_reducible apply State.canCounters_keeps
    | with_reducible refine Keeps.ite (fun _ => ?_) (fun _ => ?_)
    | split

theorem State.canError_keeps {sK s : State} (n : Fin 4) (lec : BitVec 3) (e : CanErr) (hK : Keeps sK s) : Keeps sK (State.canError s n lec e) := by
  unfold State.canError
  try dsimp only
  repeat' first
    | with_reducible assumption
    | with_reducible exact Keeps.refl _
    | with_reducible apply State.canEndTx_keeps
    | with_reducible apply State.modCan_keeps
    | with_reducible apply State.canCounters_keeps
    | with_reducible refine Keeps.ite (fun _ => ?_) (fun _ => ?_)
    | split

theorem execCanBusError_keeps (n : Fin 4) (lec : BitVec 3) (e : CanErr) (s : State) : KeepsR s (execCanBusError n lec e s) := by
  unfold execCanBusError
  try dsimp only
  repeat' first
    | with_reducible assumption
    | with_reducible exact Keeps.refl _
    | with_reducible refine KeepsR.next ?_
    | with_reducible refine KeepsR.ite (fun _ => ?_) (fun _ => ?_)
    | with_reducible apply State.canError_keeps

theorem execCanRecoveryDone_keeps (n : Fin 4) (s : State) : KeepsR s (execCanRecoveryDone n s) := by
  unfold execCanRecoveryDone
  try dsimp only
  repeat' first
    | with_reducible assumption
    | with_reducible exact Keeps.refl _
    | with_reducible refine KeepsR.next ?_
    | with_reducible refine KeepsR.ite (fun _ => ?_) (fun _ => ?_)
    | with_reducible apply State.modCan_keeps
    | with_reducible apply State.canCounters_keeps

theorem recAfter_keeps {sK s : State} (rec : Nat) (hK : Keeps sK s) : Keeps sK (recAfter s rec).2 := by
  unfold recAfter
  try dsimp only
  repeat' first
    | with_reducible assumption
    | with_reducible exact Keeps.refl _
    | with_reducible apply State.takeFresh_keeps
    | with_reducible refine Keeps.iteSnd (fun _ => ?_) (fun _ => ?_)

theorem State.canStore_keeps {sK s : State} (n : Fin 4) (m : CanFrame) (j : Nat) (hK : Keeps sK s) : Keeps sK (State.canStore s n m j) := by
  unfold State.canStore
  try dsimp only
  repeat' first
    | with_reducible assumption
    | with_reducible exact Keeps.refl _
    | with_reducible apply State.wr32_keeps
    | with_reducible apply State.wr64_keeps
    | with_reducible apply State.wrBytes_keeps
    | with_reducible apply State.take_keeps
    | with_reducible apply State.modCan_keeps
    | with_reducible apply State.canSet_keeps

theorem execCanFrameReceive_keeps (n : Fin 4) (m : CanFrame) (s : State) : KeepsR s (execCanFrameReceive n m s) := by
  unfold execCanFrameReceive
  try dsimp only
  repeat' first
    | with_reducible assumption
    | with_reducible exact Keeps.refl _
    | with_reducible refine KeepsR.next ?_
    | with_reducible refine KeepsR.ite (fun _ => ?_) (fun _ => ?_)
    | with_reducible apply State.canError_keeps
    | with_reducible apply State.canEndTx_keeps
    | with_reducible apply recAfter_keeps
    | with_reducible apply State.canCounters_keeps
    | with_reducible apply State.canStore_keeps
    | with_reducible apply State.modCan_keeps
    | with_reducible apply State.canSet_keeps
    | with_reducible refine Keeps.ite (fun _ => ?_) (fun _ => ?_)
    | split

theorem execCanCntClear_keeps (n : Fin 4) (k : Fin 3) (s : State) : KeepsR s (execCanCntClear n k s) := by
  unfold execCanCntClear
  try dsimp only
  repeat' first
    | with_reducible assumption
    | with_reducible exact Keeps.refl _
    | with_reducible refine KeepsR.next ?_
    | with_reducible refine KeepsR.ite (fun _ => ?_) (fun _ => ?_)
    | with_reducible apply State.modCan_keeps

theorem State.setNbt_keeps {sK s : State} (n : Fin 4) (v : BitVec 32) (hK : Keeps sK s) : Keeps sK (State.setNbt s n v) := by
  unfold State.setNbt
  try dsimp only
  repeat' first
    | with_reducible assumption
    | with_reducible exact Keeps.refl _
    | with_reducible apply State.modCan_keeps
    | with_reducible apply State.canSet_keeps
    | with_reducible refine Keeps.ite (fun _ => ?_) (fun _ => ?_)

theorem State.setDbt_keeps {sK s : State} (n : Fin 4) (v : BitVec 32) (hK : Keeps sK s) : Keeps sK (State.setDbt s n v) := by
  unfold State.setDbt
  try dsimp only
  repeat' first
    | with_reducible assumption
    | with_reducible exact Keeps.refl _
    | with_reducible apply State.modCan_keeps
    | with_reducible apply State.canSet_keeps
    | with_reducible refine Keeps.ite (fun _ => ?_) (fun _ => ?_)

theorem State.setCanBase_keeps {sK s : State} (v : BitVec 32) (hK : Keeps sK s) : Keeps sK (State.setCanBase s v) := by
  unfold State.setCanBase
  try dsimp only
  repeat' first
    | with_reducible assumption
    | with_reducible exact Keeps.refl _
    | with_reducible apply State.canSet_keeps
    | with_reducible refine Keeps.ite (fun _ => ?_) (fun _ => ?_)
    | with_reducible refine Keeps.forEach (fun _ _ => ?_) ?_
    | split
    | with_reducible refine Keeps.upd rfl rfl rfl ?_

end Sys2Proof.Machine
end

