-- ==== Sys2Proof/Laws/Keeps6.lean ====
section
/-! SUPPORT. Each operation and each command of the files Pair.lean, Ring.lean, SetPoints.lean, PickBase.lean, Recorder.lean, RecorderOps.lean keeps the relation `Keeps`: memory stays in
canonical form, cell time does not fall, and the queue, what has left the chip and the one-time-programmable memory stand. -/
namespace Sys2Proof.Machine

/-! ### Pair.lean -/

theorem State.setRole_keeps {sK s : State} (r : PairRole) (cause : Nat) (hK : Keeps sK s) : Keeps sK (State.setRole s r cause) := by
  unfold State.setRole
  try dsimp only
  repeat' first
    | with_reducible assumption
    | with_reducible exact Keeps.refl _
    | with_reducible apply State.modPr_keeps
    | with_reducible apply State.prSet_keeps
    | with_reducible apply State.emit_keeps
    | with_reducible apply State.ntReturn_keeps
    | with_reducible apply State.solutionAcked_keeps
    | with_reducible apply State.driveTrig_keeps
    | with_reducible refine Keeps.ite (fun _ => ?_) (fun _ => ?_)
    | with_reducible refine Keeps.forEach (fun _ _ => ?_) ?_

theorem State.requestSync_keeps {sK s : State}  (hK : Keeps sK s) : Keeps sK (State.requestSync s) := by
  unfold State.requestSync
  try dsimp only
  repeat' first
    | with_reducible assumption
    | with_reducible exact Keeps.refl _
    | with_reducible apply State.modPr_keeps
    | with_reducible apply State.pairCtl_keeps

theorem State.syncRefused_keeps {sK s : State} (reason : BitVec 4) (byPartner : Bool) (hK : Keeps sK s) : Keeps sK (State.syncRefused s reason byPartner) := by
  unfold State.syncRefused
  try dsimp only
  repeat' first
    | with_reducible assumption
    | with_reducible exact Keeps.refl _
    | with_reducible apply State.emit_keeps
    | with_reducible apply State.prSet_keeps

theorem State.pairFaultFound_keeps {sK s : State} (code : BitVec 12) (lane : Bool) (hK : Keeps sK s) : Keeps sK (State.pairFaultFound s code lane) := by
  unfold State.pairFaultFound
  try dsimp only
  repeat' first
    | with_reducible assumption
    | with_reducible exact Keeps.refl _
    | with_reducible apply State.doubleFault_keeps
    | with_reducible apply State.modPr_keeps
    | with_reducible apply State.pairCtl_keeps
    | with_reducible refine Keeps.ite (fun _ => ?_) (fun _ => ?_)
    | split

theorem State.pairClose_keeps {sK s : State}  (hK : Keeps sK s) : Keeps sK (State.pairClose s) := by
  unfold State.pairClose
  try dsimp only
  repeat' first
    | with_reducible assumption
    | with_reducible exact Keeps.refl _
    | with_reducible apply State.modPr_keeps
    | with_reducible refine Keeps.ite (fun _ => ?_) (fun _ => ?_)

theorem execHeartbeatSend_keeps  (s : State) : KeepsR s (execHeartbeatSend s) := by
  unfold execHeartbeatSend
  try dsimp only
  repeat' first
    | with_reducible assumption
    | with_reducible exact Keeps.refl _
    | with_reducible refine KeepsR.next ?_
    | with_reducible refine KeepsR.ite (fun _ => ?_) (fun _ => ?_)
    | with_reducible apply State.reach_keeps
    | with_reducible apply State.modPr_keeps
    | with_reducible apply State.sendHeartbeat_keeps
    | with_reducible apply State.alvLow_keeps
    | with_reducible refine Keeps.ite (fun _ => ?_) (fun _ => ?_)

theorem State.heartbeat_keeps {sK s : State} (x : LinkFrame) (hK : Keeps sK s) : Keeps sK (State.heartbeat s x) := by
  unfold State.heartbeat
  try dsimp only
  repeat' first
    | with_reducible assumption
    | with_reducible exact Keeps.refl _
    | with_reducible apply State.modPr_keeps
    | with_reducible apply State.takeFresh_keeps
    | with_reducible apply State.extTrack_keeps
    | with_reducible apply State.solutionAcked_keeps
    | with_reducible apply State.pairClose_keeps
    | with_reducible apply State.emit_keeps
    | with_reducible apply State.prSet_keeps
    | with_reducible apply State.enterSafeHold_keeps
    | with_reducible apply State.pairMute_keeps
    | with_reducible refine Keeps.ite (fun _ => ?_) (fun _ => ?_)

theorem execHeartbeatReceive_keeps (frame : List (BitVec 32)) (s : State) : KeepsR s (execHeartbeatReceive frame s) := by
  unfold execHeartbeatReceive
  try dsimp only
  repeat' first
    | with_reducible assumption
    | with_reducible exact Keeps.refl _
    | with_reducible refine KeepsR.next ?_
    | with_reducible refine KeepsR.ite (fun _ => ?_) (fun _ => ?_)
    | with_reducible apply State.pairBad_keeps
    | with_reducible apply State.heartbeat_keeps
    | with_reducible refine Keeps.ite (fun _ => ?_) (fun _ => ?_)
    | split

theorem execPairAlvInChange_keeps (level : Bool) (s : State) : KeepsR s (execPairAlvInChange level s) := by
  unfold execPairAlvInChange
  try dsimp only
  repeat' first
    | with_reducible assumption
    | with_reducible exact Keeps.refl _
    | with_reducible refine KeepsR.next ?_
    | with_reducible refine KeepsR.ite (fun _ => ?_) (fun _ => ?_)
    | with_reducible apply State.modPr_keeps

theorem execPartnerSilent_keeps  (s : State) : KeepsR s (execPartnerSilent s) := by
  unfold execPartnerSilent
  try dsimp only
  repeat' first
    | with_reducible assumption
    | with_reducible exact Keeps.refl _
    | with_reducible refine KeepsR.next ?_
    | with_reducible refine KeepsR.ite (fun _ => ?_) (fun _ => ?_)
    | with_reducible apply State.reach_keeps
    | with_reducible apply State.modPr_keeps

theorem State.takeOver_keeps {sK s : State} (us : Nat) (hK : Keeps sK s) : Keeps sK (State.takeOver s us) := by
  unfold State.takeOver
  try dsimp only
  repeat' first
    | with_reducible assumption
    | with_reducible exact Keeps.refl _
    | with_reducible apply State.doubleFault_keeps
    | with_reducible apply State.reach_keeps
    | with_reducible apply State.setRole_keeps
    | with_reducible apply State.modPr_keeps
    | with_reducible apply State.emit_keeps
    | with_reducible apply State.prSet_keeps
    | with_reducible refine Keeps.ite (fun _ => ?_) (fun _ => ?_)
    | split

theorem State.linkFault_keeps {sK s : State} (cause : Nat) (hK : Keeps sK s) : Keeps sK (State.linkFault s cause) := by
  unfold State.linkFault
  try dsimp only
  repeat' first
    | with_reducible assumption
    | with_reducible exact Keeps.refl _
    | with_reducible apply State.emit_keeps
    | with_reducible apply State.prSet_keeps

theorem execLeaseExpire_keeps (us : Fin 11) (s : State) : KeepsR s (execLeaseExpire us s) := by
  unfold execLeaseExpire
  try dsimp only
  repeat' first
    | with_reducible assumption
    | with_reducible exact Keeps.refl _
    | with_reducible refine KeepsR.next ?_
    | with_reducible refine KeepsR.ite (fun _ => ?_) (fun _ => ?_)
    | with_reducible apply State.reach_keeps
    | with_reducible apply State.setRole_keeps
    | with_reducible apply State.linkFault_keeps
    | with_reducible apply State.pairFaultFound_keeps
    | with_reducible apply State.takeOver_keeps

theorem execStandbyLost_keeps  (s : State) : KeepsR s (execStandbyLost s) := by
  unfold execStandbyLost
  try dsimp only
  repeat' first
    | with_reducible assumption
    | with_reducible exact Keeps.refl _
    | with_reducible refine KeepsR.next ?_
    | with_reducible refine KeepsR.ite (fun _ => ?_) (fun _ => ?_)
    | with_reducible apply State.reach_keeps
    | with_reducible apply State.linkFault_keeps
    | with_reducible apply State.pairFaultFound_keeps
    | with_reducible apply State.setRole_keeps
    | with_reducible apply State.doubleFault_keeps
    | with_reducible apply State.modPr_keeps
    | with_reducible apply State.enterSafeHold_keeps
    | with_reducible apply State.pairMute_keeps
    | with_reducible apply State.svFaultAxis_keeps
    | with_reducible refine Keeps.ite (fun _ => ?_) (fun _ => ?_)
    | with_reducible refine Keeps.forEach (fun _ _ => ?_) ?_
    | split

theorem State.laneChange_keeps {sK s : State} (l0 l1 : Bool) (hK : Keeps sK s) : Keeps sK (State.laneChange s l0 l1) := by
  unfold State.laneChange
  try dsimp only
  repeat' first
    | with_reducible assumption
    | with_reducible exact Keeps.refl _
    | with_reducible apply State.modPr_keeps
    | with_reducible apply State.linkFault_keeps
    | with_reducible apply State.pairFaultFound_keeps
    | with_reducible apply State.requestSync_keeps
    | with_reducible refine Keeps.ite (fun _ => ?_) (fun _ => ?_)

theorem execPairLaneChange_keeps (l0 l1 : Bool) (s : State) : KeepsR s (execPairLaneChange l0 l1 s) := by
  unfold execPairLaneChange
  try dsimp only
  repeat' first
    | with_reducible assumption
    | with_reducible exact Keeps.refl _
    | with_reducible refine KeepsR.next ?_
    | with_reducible refine KeepsR.ite (fun _ => ?_) (fun _ => ?_)
    | with_reducible apply State.laneChange_keeps

theorem State.setPairCtrl_keeps {sK s : State} (v : BitVec 32) (hK : Keeps sK s) : Keeps sK (State.setPairCtrl s v) := by
  unfold State.setPairCtrl
  try dsimp only
  repeat' first
    | with_reducible assumption
    | with_reducible exact Keeps.refl _
    | with_reducible apply State.modPr_keeps
    | with_reducible apply State.prSet_keeps
    | with_reducible refine Keeps.ite (fun _ => ?_) (fun _ => ?_)

theorem execHandoverRequest_keeps (v : BitVec 32) (s : State) : KeepsR s (execHandoverRequest v s) := by
  unfold execHandoverRequest
  try dsimp only
  repeat' first
    | with_reducible assumption
    | with_reducible exact Keeps.refl _
    | with_reducible refine KeepsR.next ?_
    | with_reducible refine KeepsR.ite (fun _ => ?_) (fun _ => ?_)
    | with_reducible apply State.setPairCtrl_keeps

theorem execPairCntClr_keeps  (s : State) : KeepsR s (execPairCntClr s) := by
  unfold execPairCntClr
  try dsimp only
  repeat' first
    | with_reducible assumption
    | with_reducible exact Keeps.refl _
    | with_reducible refine KeepsR.next ?_
    | with_reducible refine KeepsR.ite (fun _ => ?_) (fun _ => ?_)
    | with_reducible apply State.modPr_keeps

theorem State.handOverAt_keeps {sK s : State} (k : BitVec 32) (hK : Keeps sK s) : Keeps sK (State.handOverAt s k) := by
  unfold State.handOverAt
  try dsimp only
  repeat' first
    | with_reducible assumption
    | with_reducible exact Keeps.refl _
    | with_reducible apply State.setRole_keeps
    | with_reducible apply State.modPr_keeps
    | with_reducible refine Keeps.ite (fun _ => ?_) (fun _ => ?_)

theorem State.sendConfig_keeps {sK s : State}  (hK : Keeps sK s) : Keeps sK (State.sendConfig s) := by
  unfold State.sendConfig
  try dsimp only
  repeat' first
    | with_reducible assumption
    | with_reducible exact Keeps.refl _
    | with_reducible refine Keeps.ite (fun _ => ?_) (fun _ => ?_)
    | with_reducible refine Keeps.forEach (fun _ _ => ?_) ?_
    | split
    | with_reducible refine Keeps.upd rfl rfl rfl ?_
    | with_reducible refine Keeps.updOut rfl rfl rfl (List.suffix_cons _ _) ?_

theorem State.syncReqTake_keeps {sK s : State} (r : SyncReq) (hK : Keeps sK s) : Keeps sK (State.syncReqTake s r) := by
  unfold State.syncReqTake
  try dsimp only
  repeat' first
    | with_reducible assumption
    | with_reducible exact Keeps.refl _
    | with_reducible apply State.syncRefused_keeps
    | with_reducible apply State.pairCtl_keeps
    | with_reducible apply State.modPr_keeps
    | with_reducible apply State.setRole_keeps
    | with_reducible apply State.sendConfig_keeps
    | with_reducible refine Keeps.ite (fun _ => ?_) (fun _ => ?_)
    | split

theorem State.syncAckTake_keeps {sK s : State}  (hK : Keeps sK s) : Keeps sK (State.syncAckTake s) := by
  unfold State.syncAckTake
  try dsimp only
  repeat' first
    | with_reducible assumption
    | with_reducible exact Keeps.refl _
    | with_reducible apply State.setRole_keeps
    | with_reducible apply State.modPr_keeps
    | with_reducible refine Keeps.ite (fun _ => ?_) (fun _ => ?_)

theorem execSyncReqReceive_keeps (bad : Bool) (r : SyncReq) (s : State) : KeepsR s (execSyncReqReceive bad r s) := by
  unfold execSyncReqReceive
  try dsimp only
  repeat' first
    | with_reducible assumption
    | with_reducible exact Keeps.refl _
    | with_reducible refine KeepsR.next ?_
    | with_reducible refine KeepsR.ite (fun _ => ?_) (fun _ => ?_)
    | with_reducible apply State.pairBad_keeps
    | with_reducible apply State.syncReqTake_keeps

theorem execSyncAckReceive_keeps (bad : Bool) (s : State) : KeepsR s (execSyncAckReceive bad s) := by
  unfold execSyncAckReceive
  try dsimp only
  repeat' first
    | with_reducible assumption
    | with_reducible exact Keeps.refl _
    | with_reducible refine KeepsR.next ?_
    | with_reducible refine KeepsR.ite (fun _ => ?_) (fun _ => ?_)
    | with_reducible apply State.pairBad_keeps
    | with_reducible apply State.syncAckTake_keeps

theorem execSyncFail_keeps  (s : State) : KeepsR s (execSyncFail s) := by
  unfold execSyncFail
  try dsimp only
  repeat' first
    | with_reducible assumption
    | with_reducible exact Keeps.refl _
    | with_reducible refine KeepsR.next ?_
    | with_reducible refine KeepsR.ite (fun _ => ?_) (fun _ => ?_)
    | with_reducible apply State.reach_keeps
    | with_reducible apply State.modPr_keeps
    | with_reducible apply State.emit_keeps
    | with_reducible apply State.prSet_keeps
    | with_reducible refine Keeps.ite (fun _ => ?_) (fun _ => ?_)
    | split

theorem execSyncRetry_keeps  (s : State) : KeepsR s (execSyncRetry s) := by
  unfold execSyncRetry
  try dsimp only
  repeat' first
    | with_reducible assumption
    | with_reducible exact Keeps.refl _
    | with_reducible refine KeepsR.next ?_
    | with_reducible refine KeepsR.ite (fun _ => ?_) (fun _ => ?_)
    | with_reducible apply State.reach_keeps
    | with_reducible apply State.modPr_keeps
    | with_reducible apply State.requestSync_keeps
    | with_reducible refine Keeps.ite (fun _ => ?_) (fun _ => ?_)
    | split

theorem execPairSync_keeps (f : Fin 16) (w : TWord) (s : State) : KeepsR s (execPairSync f w s) := by
  unfold execPairSync
  try dsimp only
  repeat' first
    | with_reducible assumption
    | with_reducible exact Keeps.refl _
    | with_reducible refine KeepsR.next ?_
    | with_reducible refine KeepsR.ite (fun _ => ?_) (fun _ => ?_)
    | with_reducible apply State.devOp_keeps
    | with_reducible apply State.opAccept_keeps
    | with_reducible apply State.requestSync_keeps
    | with_reducible refine Keeps.ite (fun _ => ?_) (fun _ => ?_)
    | split
    | with_reducible refine Keeps.upd rfl rfl rfl ?_
    | (intro _; dsimp only)
    | intro _

theorem execControlFrameReceive_keeps (bad : Bool) (c : PairCtl) (s : State) : KeepsR s (execControlFrameReceive bad c s) := by
  unfold execControlFrameReceive
  try dsimp only
  repeat' first
    | with_reducible assumption
    | with_reducible exact Keeps.refl _
    | with_reducible refine KeepsR.next ?_
    | with_reducible refine KeepsR.ite (fun _ => ?_) (fun _ => ?_)
    | with_reducible apply State.pairBad_keeps
    | with_reducible apply State.syncReqTake_keeps
    | with_reducible apply State.syncAckTake_keeps
    | with_reducible apply State.modPr_keeps
    | with_reducible apply State.syncRefused_keeps
    | with_reducible apply State.doubleFault_keeps
    | with_reducible apply svWatch_keeps
    | with_reducible apply State.emit_keeps
    | with_reducible apply State.prSet_keeps
    | with_reducible apply State.enterSafeHold_keeps
    | with_reducible apply State.pairMute_keeps
    | with_reducible refine Keeps.ite (fun _ => ?_) (fun _ => ?_)
    | split

theorem execSafetyRecordReceive_keeps (bad check : Bool) (r : PairSafe) (s : State) : KeepsR s (execSafetyRecordReceive bad check r s) := by
  unfold execSafetyRecordReceive
  try dsimp only
  repeat' first
    | with_reducible assumption
    | with_reducible exact Keeps.refl _
    | with_reducible refine KeepsR.next ?_
    | with_reducible refine KeepsR.ite (fun _ => ?_) (fun _ => ?_)
    | with_reducible apply State.pairBad_keeps
    | with_reducible apply svWatch_keeps
    | with_reducible apply State.modPr_keeps
    | with_reducible apply State.svPublish_keeps
    | with_reducible apply State.ossdUpdate_keeps

theorem execSolutionCopyReceive_keeps (frames : List (List (BitVec 32))) (s : State) : KeepsR s (execSolutionCopyReceive frames s) := by
  unfold execSolutionCopyReceive
  try dsimp only
  repeat' first
    | with_reducible assumption
    | with_reducible exact Keeps.refl _
    | with_reducible refine KeepsR.next ?_
    | with_reducible refine KeepsR.ite (fun _ => ?_) (fun _ => ?_)
    | with_reducible apply State.pairBad_keeps
    | with_reducible apply State.modPr_keeps
    | with_reducible refine Keeps.ite (fun _ => ?_) (fun _ => ?_)
    | split

/-! ### Ring.lean -/

theorem execRingLinkChange_keeps (inUp outUp : Bool) (dIn dOut : BitVec 16) (s : State) : KeepsR s (execRingLinkChange inUp outUp dIn dOut s) := by
  unfold execRingLinkChange
  try dsimp only
  repeat' first
    | with_reducible assumption
    | with_reducible exact Keeps.refl _
    | with_reducible refine KeepsR.next ?_
    | with_reducible refine KeepsR.ite (fun _ => ?_) (fun _ => ?_)
    | with_reducible apply State.modWr_keeps
    | with_reducible apply State.ringRelay_keeps

theorem State.ringSend_keeps {sK s : State} (ty : Nat) (tag : BitVec 32) (p : List (BitVec 32)) (hK : Keeps sK s) : Keeps sK (State.ringSend s ty tag p) := by
  unfold State.ringSend
  try dsimp only
  repeat' first
    | with_reducible assumption
    | with_reducible exact Keeps.refl _
    | with_reducible apply State.take_keeps
    | with_reducible refine Keeps.ite (fun _ => ?_) (fun _ => ?_)
    | with_reducible refine Keeps.forEach (fun _ _ => ?_) ?_
    | split
    | with_reducible refine Keeps.upd rfl rfl rfl ?_
    | with_reducible refine Keeps.updOut rfl rfl rfl (List.suffix_cons _ _) ?_

theorem State.ringForward_keeps {sK s : State} (x : LinkFrame) (res : Nat) (hK : Keeps sK s) : Keeps sK (State.ringForward s x res) := by
  unfold State.ringForward
  try dsimp only
  repeat' first
    | with_reducible assumption
    | with_reducible exact Keeps.refl _
    | with_reducible refine Keeps.ite (fun _ => ?_) (fun _ => ?_)
    | split
    | with_reducible refine Keeps.upd rfl rfl rfl ?_
    | with_reducible refine Keeps.updOut rfl rfl rfl (List.suffix_cons _ _) ?_

theorem State.ringTrack_keeps {sK s : State} (b : List (BitVec 32)) (hK : Keeps sK s) : Keeps sK (State.ringTrack s b) := by
  unfold State.ringTrack
  try dsimp only
  repeat' first
    | with_reducible assumption
    | with_reducible exact Keeps.refl _
    | with_reducible apply State.modWr_keeps
    | with_reducible apply State.follow_keeps
    | with_reducible apply State.extTrack_keeps
    | with_reducible refine Keeps.ite (fun _ => ?_) (fun _ => ?_)

theorem State.ringJoin_keeps {sK s : State} (x : LinkFrame) (same : Bool) (hK : Keeps sK s) : Keeps sK (State.ringJoin s x same) := by
  unfold State.ringJoin
  try dsimp only
  repeat' first
    | with_reducible assumption
    | with_reducible exact Keeps.refl _
    | with_reducible apply State.ringState_keeps
    | with_reducible apply State.modWr_keeps
    | with_reducible apply State.emit_keeps
    | with_reducible apply State.ringTrack_keeps
    | with_reducible refine Keeps.ite (fun _ => ?_) (fun _ => ?_)
    | split

theorem State.alignTake_keeps {sK s : State} (x : LinkFrame) (hK : Keeps sK s) : Keeps sK (State.alignTake s x) := by
  unfold State.alignTake
  try dsimp only
  repeat' first
    | with_reducible assumption
    | with_reducible exact Keeps.refl _
    | with_reducible apply State.modWr_keeps
    | with_reducible apply State.ringTrack_keeps
    | with_reducible apply State.ringJoin_keeps
    | with_reducible apply State.ringState_keeps
    | with_reducible apply State.emit_keeps
    | with_reducible refine Keeps.ite (fun _ => ?_) (fun _ => ?_)
    | split

theorem State.setForeign_keeps {sK s : State} (m : Nat) (index : BitVec 32) (stime : Nat) (caps : List (Vector (BitVec 32) 8)) (hK : Keeps sK s) : Keeps sK (State.setForeign s m index stime caps) := by
  unfold State.setForeign
  try dsimp only
  repeat' first
    | with_reducible assumption
    | with_reducible exact Keeps.refl _
    | with_reducible apply State.take_keeps
    | with_reducible refine Keeps.ite (fun _ => ?_) (fun _ => ?_)
    | split
    | with_reducible refine Keeps.upd rfl rfl rfl ?_

theorem State.capsTake_keeps {sK s : State} (pos : Nat) (tag : BitVec 32) (w : List (BitVec 32)) (hK : Keeps sK s) : Keeps sK (State.capsTake s pos tag w) := by
  unfold State.capsTake
  try dsimp only
  repeat' first
    | with_reducible assumption
    | with_reducible exact Keeps.refl _
    | with_reducible apply State.modWr_keeps
    | with_reducible apply State.setForeign_keeps
    | with_reducible refine Keeps.ite (fun _ => ?_) (fun _ => ?_)

theorem State.trajTake_keeps {sK s : State} (pos : Nat) (tag : BitVec 32) (w : List (BitVec 32)) (hK : Keeps sK s) : Keeps sK (State.trajTake s pos tag w) := by
  unfold State.trajTake
  try dsimp only
  repeat' first
    | with_reducible assumption
    | with_reducible exact Keeps.refl _
    | with_reducible apply State.modWr_keeps
    | with_reducible refine Keeps.ite (fun _ => ?_) (fun _ => ?_)

theorem State.ringAdd_keeps {sK s : State} (x : LinkFrame) (pos : Fin 8) (hK : Keeps sK s) : Keeps sK (State.ringAdd s x pos) := by
  unfold State.ringAdd
  try dsimp only
  repeat' first
    | with_reducible assumption
    | with_reducible exact Keeps.refl _
    | with_reducible apply State.modWr_keeps
    | with_reducible apply State.capsTake_keeps
    | with_reducible apply State.trajTake_keeps
    | with_reducible refine Keeps.ite (fun _ => ?_) (fun _ => ?_)
    | split

theorem execRingFrameReceive_keeps (frame : List (BitVec 32)) (res : BitVec 16) (s : State) : KeepsR s (execRingFrameReceive frame res s) := by
  unfold execRingFrameReceive
  try dsimp only
  repeat' first
    | with_reducible assumption
    | with_reducible exact Keeps.refl _
    | with_reducible refine KeepsR.next ?_
    | with_reducible refine KeepsR.ite (fun _ => ?_) (fun _ => ?_)
    | with_reducible apply State.modWr_keeps
    | with_reducible apply State.emit_keeps
    | with_reducible apply State.ringRelay_keeps
    | with_reducible apply State.ringForward_keeps
    | with_reducible apply State.alignTake_keeps
    | with_reducible apply State.ringAdd_keeps
    | with_reducible refine Keeps.ite (fun _ => ?_) (fun _ => ?_)
    | split

theorem execAlignSend_keeps  (s : State) : KeepsR s (execAlignSend s) := by
  unfold execAlignSend
  try dsimp only
  repeat' first
    | with_reducible assumption
    | with_reducible exact Keeps.refl _
    | with_reducible refine KeepsR.next ?_
    | with_reducible refine KeepsR.ite (fun _ => ?_) (fun _ => ?_)
    | with_reducible apply State.reach_keeps
    | with_reducible apply State.modWr_keeps
    | with_reducible apply State.ringSend_keeps

theorem execCapsSend_keeps  (s : State) : KeepsR s (execCapsSend s) := by
  unfold execCapsSend
  try dsimp only
  repeat' first
    | with_reducible assumption
    | with_reducible exact Keeps.refl _
    | with_reducible refine KeepsR.next ?_
    | with_reducible refine KeepsR.ite (fun _ => ?_) (fun _ => ?_)
    | with_reducible apply State.modWr_keeps
    | with_reducible apply State.ringSend_keeps

theorem State.trajSend_keeps {sK s : State}  (hK : Keeps sK s) : Keeps sK (State.trajSend s) := by
  unfold State.trajSend
  try dsimp only
  repeat' first
    | with_reducible assumption
    | with_reducible exact Keeps.refl _
    | with_reducible apply State.ringSend_keeps
    | with_reducible apply State.take_keeps
    | with_reducible refine Keeps.ite (fun _ => ?_) (fun _ => ?_)
    | split

theorem execRingAlignTimeout_keeps  (s : State) : KeepsR s (execRingAlignTimeout s) := by
  unfold execRingAlignTimeout
  try dsimp only
  repeat' first
    | with_reducible assumption
    | with_reducible exact Keeps.refl _
    | with_reducible refine KeepsR.next ?_
    | with_reducible refine KeepsR.ite (fun _ => ?_) (fun _ => ?_)
    | with_reducible apply State.reach_keeps
    | with_reducible apply State.follow_keeps
    | with_reducible apply State.ntHold_keeps
    | with_reducible apply State.ringState_keeps
    | with_reducible refine Keeps.ite (fun _ => ?_) (fun _ => ?_)

theorem execForeignStale_keeps (l : Fin 4) (s : State) : KeepsR s (execForeignStale l s) := by
  unfold execForeignStale
  try dsimp only
  repeat' first
    | with_reducible assumption
    | with_reducible exact Keeps.refl _
    | with_reducible refine KeepsR.next ?_
    | with_reducible refine KeepsR.ite (fun _ => ?_) (fun _ => ?_)
    | with_reducible apply State.modWr_keeps
    | with_reducible apply State.setForeign_keeps
    | with_reducible apply State.emit_keeps
    | with_reducible refine Keeps.ite (fun _ => ?_) (fun _ => ?_)
    | split

theorem execWrCntCrcClear_keeps (_v : BitVec 32) (s : State) : KeepsR s (execWrCntCrcClear _v s) := by
  unfold execWrCntCrcClear
  try dsimp only
  repeat' first
    | with_reducible assumption
    | with_reducible exact Keeps.refl _
    | with_reducible refine KeepsR.next ?_
    | with_reducible refine KeepsR.ite (fun _ => ?_) (fun _ => ?_)
    | with_reducible apply State.modWr_keeps

/-! ### SetPoints.lean -/

theorem State.spSent_keeps {sK s : State} (a : Fin 80) (hK : Keeps sK s) : Keeps sK (State.spSent s a) := by
  unfold State.spSent
  try dsimp only
  repeat' first
    | with_reducible assumption
    | with_reducible exact Keeps.refl _
    | with_reducible apply State.pduSent_keeps
    | with_reducible refine Keeps.ite (fun _ => ?_) (fun _ => ?_)
    | split
    | with_reducible refine Keeps.upd rfl rfl rfl ?_

theorem State.spGroup_keeps {sK s : State} (k : BitVec 32) (launch : Nat) (g : Fin 10) (hK : Keeps sK s) : Keeps sK (State.spGroup s k launch g) := by
  unfold State.spGroup
  try dsimp only
  repeat' first
    | with_reducible assumption
    | with_reducible exact Keeps.refl _
    | with_reducible apply State.spSent_keeps
    | with_reducible apply State.modPr_keeps
    | with_reducible apply State.enqueue_keeps
    | with_reducible refine Keeps.ite (fun _ => ?_) (fun _ => ?_)
    | with_reducible refine Keeps.forEach (fun _ _ => ?_) ?_

theorem State.stlRelease_keeps {sK s : State}  (hK : Keeps sK s) : Keeps sK (State.stlRelease s) := by
  unfold State.stlRelease
  try dsimp only
  repeat' first
    | with_reducible assumption
    | with_reducible exact Keeps.refl _
    | with_reducible refine Keeps.ite (fun _ => ?_) (fun _ => ?_)
    | split
    | with_reducible refine Keeps.upd rfl rfl rfl ?_

theorem State.stlFirst_keeps {sK s : State}  (hK : Keeps sK s) : Keeps sK (State.stlFirst s) := by
  unfold State.stlFirst
  try dsimp only
  repeat' first
    | with_reducible assumption
    | with_reducible exact Keeps.refl _
    | with_reducible refine Keeps.ite (fun _ => ?_) (fun _ => ?_)
    | split
    | with_reducible refine Keeps.upd rfl rfl rfl ?_

theorem State.release_keeps {sK s : State} (k : BitVec 32) (t : Nat) (hK : Keeps sK s) : Keeps sK (State.release s k t) := by
  unfold State.release
  try dsimp only
  repeat' first
    | with_reducible assumption
    | with_reducible exact Keeps.refl _
    | with_reducible apply State.spGroup_keeps
    | with_reducible apply State.modPr_keeps
    | with_reducible apply State.stlRelease_keeps
    | with_reducible refine Keeps.ite (fun _ => ?_) (fun _ => ?_)
    | with_reducible refine Keeps.forEach (fun _ _ => ?_) ?_

/-! ### PickBase.lean -/

theorem State.latchAll_keeps {sK s : State} (t : Nat) (hK : Keeps sK s) : Keeps sK (State.latchAll s t) := by
  unfold State.latchAll
  try dsimp only
  repeat' first
    | with_reducible assumption
    | with_reducible exact Keeps.refl _
    | with_reducible apply State.latchSafe_keeps
    | with_reducible refine Keeps.ite (fun _ => ?_) (fun _ => ?_)
    | split
    | with_reducible refine Keeps.upd rfl rfl rfl ?_

theorem TimeBase.advance_timeFix (t : TimeBase) : t.advance.timeFix = t.timeFix := rfl

theorem TimeBase.takePending_timeFix (t : TimeBase) : t.takePending.timeFix = t.timeFix := by
  unfold TimeBase.takePending
  split
  · split
    · rfl
    · rfl
  · rfl

theorem State.newPick_keeps {s0 s : State} (h : Keeps s0 s) : Keeps s0 s.newPick := by
  unfold State.newPick
  dsimp only
  have h1 := State.modTb_keeps (fun t => t.advance.takePending) (fun x => x.advance.takePending_timeFix) h
  exact Keeps.ite (fun _ => State.qpSig_keeps (Keeps.forEach (fun t n => State.stlFit_keeps n (Keeps.refl t)) h1)) (fun _ => h1)

theorem State.toPick_keeps {sK s : State}  (hK : Keeps sK s) : Keeps sK (State.toPick s) := by
  unfold State.toPick
  try dsimp only
  repeat' first
    | with_reducible assumption
    | with_reducible exact Keeps.refl _
    | with_reducible apply State.reachFix_keeps

theorem State.startPick_keeps {sK s : State}  (hK : Keeps sK s) : Keeps sK (State.startPick s) := by
  unfold State.startPick
  try dsimp only
  repeat' first
    | with_reducible assumption
    | with_reducible exact Keeps.refl _
    | with_reducible apply State.toPick_keeps
    | with_reducible apply State.modNt_keeps
    | with_reducible apply State.modSw_keeps
    | with_reducible apply State.stlFirst_keeps
    | with_reducible apply State.release_keeps
    | with_reducible apply State.latchAll_keeps
    | with_reducible apply State.newPick_keeps
    | with_reducible apply State.gclPick_keeps
    | with_reducible apply State.handOverAt_keeps
    | with_reducible apply State.modPr_keeps
    | with_reducible refine Keeps.ite (fun _ => ?_) (fun _ => ?_)
    | with_reducible refine Keeps.forEach (fun _ _ => ?_) ?_

theorem State.measureAll_keeps {sK s : State}  (hK : Keeps sK s) : Keeps sK (State.measureAll s) := by
  unfold State.measureAll
  try dsimp only
  repeat' first
    | with_reducible assumption
    | with_reducible exact Keeps.refl _
    | with_reducible refine Keeps.ite (fun _ => ?_) (fun _ => ?_)
    | split
    | with_reducible refine Keeps.upd rfl rfl rfl ?_

theorem State.swapPick_keeps {sK s : State} (t : Nat) (a : Fin 80) (hK : Keeps sK s) : Keeps sK (State.swapPick s t a) := by
  unfold State.swapPick
  try dsimp only
  repeat' first
    | with_reducible assumption
    | with_reducible exact Keeps.refl _
    | with_reducible apply State.modSlice_keeps
    | with_reducible apply State.swapBank_keeps
    | with_reducible apply State.opDone_keeps
    | with_reducible refine Keeps.ite (fun _ => ?_) (fun _ => ?_)
    | with_reducible refine Keeps.forEach (fun _ _ => ?_) ?_
    | split

theorem State.driveFaults_keeps {sK s : State}  (hK : Keeps sK s) : Keeps sK (State.driveFaults s) := by
  unfold State.driveFaults
  try dsimp only
  repeat' first
    | with_reducible assumption
    | with_reducible exact Keeps.refl _
    | with_reducible apply State.faultAxis_keeps
    | with_reducible refine Keeps.ite (fun _ => ?_) (fun _ => ?_)
    | with_reducible refine Keeps.forEach (fun _ _ => ?_) ?_

theorem State.missPick_keeps {sK s : State} (a : Fin 80) (hK : Keeps sK s) : Keeps sK (State.missPick s a).1 := by
  unfold State.missPick
  try dsimp only
  repeat' first
    | with_reducible assumption
    | with_reducible exact Keeps.refl _
    | with_reducible apply State.modSlice_keeps
    | with_reducible apply State.ceSet_keeps
    | with_reducible apply State.emit_keeps
    | with_reducible refine Keeps.iteFst (fun _ => ?_) (fun _ => ?_)

theorem State.sliceOne_keeps {sK s : State} (k : BitVec 32) (a : Fin 80) (hK : Keeps sK s) : Keeps sK (State.sliceOne s k a).1 := by
  unfold State.sliceOne
  try dsimp only
  repeat' first
    | with_reducible assumption
    | with_reducible exact Keeps.refl _
    | with_reducible apply State.modSlice_keeps
    | with_reducible apply State.missPick_keeps
    | with_reducible apply State.emit_keeps
    | with_reducible apply State.ceSetMany_keeps
    | with_reducible refine Keeps.iteFst (fun _ => ?_) (fun _ => ?_)
    | with_reducible refine Keeps.ite (fun _ => ?_) (fun _ => ?_)
    | split

theorem State.slicesFold_keeps {s0 : State} (k : BitVec 32) (l : List (Fin 80)) (r : State × List (Fin 80)) (h : Keeps s0 r.1) :
    Keeps s0 (l.foldl (fun (r : State × List (Fin 80)) a =>
      let q := r.1.sliceOne k a
      (q.1, if q.2 then r.2 ++ [a] else r.2)) r).1 := by
  induction l generalizing r with
  | nil => exact h
  | cons a l ih => exact ih _ (State.sliceOne_keeps k a h)

theorem State.slicesAll_keeps {s0 s : State} (k : BitVec 32) (h : Keeps s0 s) : Keeps s0 (s.slicesAll k) := by
  unfold State.slicesAll
  refine State.mpcSweep_keeps (Keeps.forEach (fun t a => State.faultAxis_keeps a (Keeps.refl t)) ?_)
  exact State.slicesFold_keeps k _ _ h

theorem State.signsAll_keeps {sK s : State}  (hK : Keeps sK s) : Keeps sK (State.signsAll s) := by
  unfold State.signsAll
  try dsimp only
  repeat' first
    | with_reducible assumption
    | with_reducible exact Keeps.refl _
    | with_reducible refine Keeps.ite (fun _ => ?_) (fun _ => ?_)
    | split
    | with_reducible refine Keeps.upd rfl rfl rfl ?_

theorem State.sendRecord_keeps {sK s : State} (pub : Option (BitVec 32)) (hK : Keeps sK s) : Keeps sK (State.sendRecord s pub) := by
  unfold State.sendRecord
  try dsimp only
  repeat' first
    | with_reducible assumption
    | with_reducible exact Keeps.refl _
    | with_reducible apply State.pairSend_keeps
    | with_reducible apply State.modPr_keeps
    | with_reducible refine Keeps.ite (fun _ => ?_) (fun _ => ?_)

theorem State.axesPick_keeps {sK s : State} (k b : BitVec 32) (edge : Bool) (t : Nat) (hK : Keeps sK s) : Keeps sK (State.axesPick s k b edge t) := by
  unfold State.axesPick
  try dsimp only
  repeat' first
    | with_reducible assumption
    | with_reducible exact Keeps.refl _
    | with_reducible apply State.psiPick_keeps
    | with_reducible apply State.scaleUpdate_keeps
    | with_reducible apply State.psiBeat_keeps
    | with_reducible apply State.svMotion_keeps
    | with_reducible apply State.measureAll_keeps
    | with_reducible apply State.swapPick_keeps
    | with_reducible apply State.driveFaults_keeps
    | with_reducible apply State.applyEffects_keeps
    | with_reducible apply State.formEntries_keeps
    | with_reducible apply State.armBypass_keeps
    | with_reducible apply State.slicesAll_keeps
    | with_reducible apply State.homePick_keeps
    | with_reducible apply State.signsAll_keeps
    | with_reducible refine Keeps.ite (fun _ => ?_) (fun _ => ?_)
    | with_reducible refine Keeps.forEach (fun _ _ => ?_) ?_

theorem State.churnPick_keeps {sK s : State} (b : BitVec 32) (named : Option (BitVec 32)) (hK : Keeps sK s) : Keeps sK (State.churnPick s b named) := by
  unfold State.churnPick
  try dsimp only
  repeat' first
    | with_reducible assumption
    | with_reducible exact Keeps.refl _
    | with_reducible apply State.publishNamed_keeps
    | with_reducible apply State.qpBoundary_keeps
    | with_reducible refine Keeps.ite (fun _ => ?_) (fun _ => ?_)
    | split

/-- A state whose cell time was set aside and put back. -/
theorem Keeps.timeBack {s u v : State} (t : Nat) (hu : u = s.modTb fun x => { x with timeFix := t }) (h : Keeps u v) :
    Keeps s (v.modTb fun x => { x with timeFix := s.tb.timeFix }) := by
  subst hu
  exact ⟨h.mem, Nat.le_refl _, h.pending, h.out, h.otp.key, h.otp.svn⟩

theorem State.pickWork_keeps {s0 s : State} (named : Option (BitVec 32)) (h : Keeps s0 s) : Keeps s0 (s.pickWork named) := by
  refine h.trans ?_
  unfold State.pickWork
  dsimp only
  refine Keeps.timeBack (s.tb.pickTime.toNat * nsUnit) rfl ?_
  generalize (s.modTb fun x => { x with timeFix := s.tb.pickTime.toNat * nsUnit }) = u
  have h1 : Keeps u (if atBoundary s = true then u.churnPick s.tb.beatNum named else u) :=
    Keeps.ite (fun _ => State.churnPick_keeps _ _ (Keeps.refl u)) (fun _ => Keeps.refl u)
  generalize (if atBoundary s = true then u.churnPick s.tb.beatNum named else u) = v at h1 ⊢
  have h2 := State.axesPick_keeps s.tb.pickNum s.tb.beatNum (atBoundary s) s.tb.pickTime.toNat
    (State.sendRecord_keeps (if v.qp.curBuf = u.qp.curBuf then none else some v.qp.curIndex) h1)
  generalize ((v.sendRecord (if v.qp.curBuf = u.qp.curBuf then none else some v.qp.curIndex)).axesPick s.tb.pickNum
    s.tb.beatNum (atBoundary s) s.tb.pickTime.toNat) = w at h2 ⊢
  have h3 : Keeps u (if decide (w.domain 4 = .run) = true then
      w.releaseDrafts s.tb.pickNum s.tb.beatNum (atBoundary s) s.tb.pickTime.toNat else w) :=
    Keeps.ite (fun _ => State.releaseDrafts_keeps _ _ _ _ h2) (fun _ => h2)
  have h4 := State.reedSnapshot_keeps s.tb.pickNum h3
  exact Keeps.ite (fun _ => State.trajSend_keeps h4) (fun _ => h4)

/-! ### Recorder.lean -/

theorem State.erMark_keeps {sK s : State} (before : Nat) (hK : Keeps sK s) : Keeps sK (State.erMark s before) := by
  unfold State.erMark
  try dsimp only
  repeat' first
    | with_reducible assumption
    | with_reducible exact Keeps.refl _
    | with_reducible apply State.erSet_keeps
    | with_reducible refine Keeps.ite (fun _ => ?_) (fun _ => ?_)

theorem State.erWrite_keeps {s0 s : State} (r : Rec) (h : Keeps s0 s) : Keeps s0 (s.erWrite r) := by
  unfold State.erWrite
  dsimp only
  refine State.erSet_keeps _ (State.erMark_keeps _ ?_)
  refine Keeps.ite (fun _ => ?_) (fun _ => State.emit_keeps _ _ _ (State.erSet_keeps _ ?_))
  · with_reducible exact Keeps.updMem rfl rfl rfl (fun w => RecRing.append_wf _ _ _ _ _ w) h
  · with_reducible exact Keeps.updMem rfl rfl rfl (fun w => RecRing.append_wf _ _ _ _ _ w) h

theorem State.erEpoch_keeps {sK s : State}  (hK : Keeps sK s) : Keeps sK (State.erEpoch s) := by
  unfold State.erEpoch
  try dsimp only
  repeat' first
    | with_reducible assumption
    | with_reducible exact Keeps.refl _
    | with_reducible apply State.erWrite_keeps
    | with_reducible refine Keeps.ite (fun _ => ?_) (fun _ => ?_)
    | split
    | with_reducible refine Keeps.upd rfl rfl rfl ?_

theorem State.admitRec_keeps {sK s : State} (r : Rec) (hK : Keeps sK s) : Keeps sK (State.admitRec s r) := by
  unfold State.admitRec
  try dsimp only
  repeat' first
    | with_reducible assumption
    | with_reducible exact Keeps.refl _
    | with_reducible apply State.erEpoch_keeps
    | with_reducible apply State.erWrite_keeps
    | with_reducible refine Keeps.ite (fun _ => ?_) (fun _ => ?_)
    | split
    | with_reducible refine Keeps.upd rfl rfl rfl ?_
    | with_reducible refine Keeps.updMem rfl rfl rfl (fun hw => mergeAt_wf _ _ _ _ _ hw) ?_

theorem State.admitSrc_keeps {sK s : State} (k : Nat) (hK : Keeps sK s) : Keeps sK (State.admitSrc s k) := by
  unfold State.admitSrc
  try dsimp only
  repeat' first
    | with_reducible assumption
    | with_reducible exact Keeps.refl _
    | with_reducible apply State.admitRec_keeps
    | with_reducible refine Keeps.ite (fun _ => ?_) (fun _ => ?_)
    | with_reducible refine Keeps.forEach (fun _ _ => ?_) ?_
    | split
    | with_reducible refine Keeps.upd rfl rfl rfl ?_

theorem State.erLoss_keeps {sK s : State}  (hK : Keeps sK s) : Keeps sK (State.erLoss s) := by
  unfold State.erLoss
  try dsimp only
  repeat' first
    | with_reducible assumption
    | with_reducible exact Keeps.refl _
    | with_reducible apply State.emit_keeps
    | with_reducible refine Keeps.ite (fun _ => ?_) (fun _ => ?_)
    | split
    | with_reducible refine Keeps.upd rfl rfl rfl ?_

theorem execRecordAdmit_keeps  (s : State) : KeepsR s (execRecordAdmit s) := by
  unfold execRecordAdmit
  try dsimp only
  repeat' first
    | with_reducible assumption
    | with_reducible exact Keeps.refl _
    | with_reducible refine KeepsR.next ?_
    | with_reducible refine KeepsR.ite (fun _ => ?_) (fun _ => ?_)
    | with_reducible apply State.admitSrc_keeps
    | with_reducible apply State.erLoss_keeps
    | with_reducible refine Keeps.ite (fun _ => ?_) (fun _ => ?_)
    | with_reducible refine Keeps.forEach (fun _ _ => ?_) ?_

theorem execErCurWrite_keeps (v : BitVec 32) (s : State) : KeepsR s (execErCurWrite v s) := by
  unfold execErCurWrite
  try dsimp only
  repeat' first
    | with_reducible assumption
    | with_reducible exact Keeps.refl _
    | with_reducible refine KeepsR.next ?_
    | with_reducible refine KeepsR.ite (fun _ => ?_) (fun _ => ?_)
    | with_reducible apply State.erMark_keeps
    | with_reducible apply State.erSet_keeps
    | with_reducible refine Keeps.ite (fun _ => ?_) (fun _ => ?_)
    | split
    | with_reducible refine Keeps.upd rfl rfl rfl ?_

theorem execErCntClr_keeps  (s : State) : KeepsR s (execErCntClr s) := by
  unfold execErCntClr
  try dsimp only
  repeat' first
    | with_reducible assumption
    | with_reducible exact Keeps.refl _
    | with_reducible refine KeepsR.next ?_
    | with_reducible refine KeepsR.ite (fun _ => ?_) (fun _ => ?_)
    | with_reducible refine Keeps.ite (fun _ => ?_) (fun _ => ?_)
    | split
    | with_reducible refine Keeps.upd rfl rfl rfl ?_

theorem execErSlogSelWrite_keeps (v : BitVec 32) (s : State) : KeepsR s (execErSlogSelWrite v s) := by
  unfold execErSlogSelWrite
  try dsimp only
  repeat' first
    | with_reducible assumption
    | with_reducible exact Keeps.refl _
    | with_reducible refine KeepsR.next ?_
    | with_reducible refine KeepsR.ite (fun _ => ?_) (fun _ => ?_)
    | with_reducible refine Keeps.ite (fun _ => ?_) (fun _ => ?_)
    | split
    | with_reducible refine Keeps.upd rfl rfl rfl ?_

theorem slogNext_keeps {sK s : State}  (hK : Keeps sK s) : Keeps sK (slogNext s).2 := by
  unfold slogNext
  try dsimp only
  repeat' first
    | with_reducible assumption
    | with_reducible exact Keeps.refl _
    | with_reducible refine Keeps.iteSnd (fun _ => ?_) (fun _ => ?_)
    | with_reducible refine Keeps.ite (fun _ => ?_) (fun _ => ?_)
    | split
    | with_reducible refine Keeps.upd rfl rfl rfl ?_

theorem execErSlogDataRead_keeps  (s : State) : KeepsR s (execErSlogDataRead s) := by
  unfold execErSlogDataRead
  try dsimp only
  repeat' first
    | with_reducible assumption
    | with_reducible exact Keeps.refl _
    | with_reducible refine KeepsR.next ?_
    | with_reducible refine KeepsR.ite (fun _ => ?_) (fun _ => ?_)
    | with_reducible apply slogNext_keeps
    | with_reducible refine Keeps.ite (fun _ => ?_) (fun _ => ?_)
    | split
    | with_reducible refine Keeps.upd rfl rfl rfl ?_

theorem execErEpochLoRead_keeps  (s : State) : KeepsR s (execErEpochLoRead s) := by
  unfold execErEpochLoRead
  try dsimp only
  repeat' first
    | with_reducible assumption
    | with_reducible exact Keeps.refl _
    | with_reducible refine KeepsR.next ?_
    | with_reducible refine KeepsR.ite (fun _ => ?_) (fun _ => ?_)
    | with_reducible refine Keeps.ite (fun _ => ?_) (fun _ => ?_)
    | split
    | with_reducible refine Keeps.upd rfl rfl rfl ?_

theorem recCopy_keeps {s0 : State} (fuel : Nat) {s : State} (dst max done : Nat) (h : Keeps s0 s) :
    Keeps s0 (recCopy fuel s dst max done).2 := by
  induction fuel generalizing s done with
  | zero => unfold recCopy; exact h
  | succ n ih =>
    unfold recCopy
    dsimp only
    split
    · exact h
    · exact ih _ (Keeps.upd rfl rfl rfl (State.wrBytes_keeps _ _ h))

theorem State.erClear_keeps {sK s : State}  (hK : Keeps sK s) : Keeps sK (State.erClear s) := by
  unfold State.erClear
  try dsimp only
  repeat' first
    | with_reducible assumption
    | with_reducible exact Keeps.refl _
    | with_reducible apply State.emit_keeps
    | with_reducible refine Keeps.ite (fun _ => ?_) (fun _ => ?_)
    | split
    | with_reducible refine Keeps.upd rfl rfl rfl ?_

/-! ### RecorderOps.lean -/

theorem execRecRead_keeps (f : Fin 16) (w : TWord) (s : State) : KeepsR s (execRecRead f w s) := by
  unfold execRecRead
  try dsimp only
  repeat' first
    | with_reducible assumption
    | with_reducible exact Keeps.refl _
    | with_reducible refine KeepsR.next ?_
    | with_reducible refine KeepsR.ite (fun _ => ?_) (fun _ => ?_)
    | with_reducible apply State.devOp_keeps
    | with_reducible apply recCopy_keeps
    | with_reducible apply State.opAccept_keeps
    | with_reducible refine Keeps.ite (fun _ => ?_) (fun _ => ?_)
    | split
    | with_reducible refine Keeps.upd rfl rfl rfl ?_
    | (intro _; dsimp only)
    | intro _

theorem execRecClear_keeps (f : Fin 16) (w : TWord) (s : State) : KeepsR s (execRecClear f w s) := by
  unfold execRecClear
  try dsimp only
  repeat' first
    | with_reducible assumption
    | with_reducible exact Keeps.refl _
    | with_reducible refine KeepsR.next ?_
    | with_reducible refine KeepsR.ite (fun _ => ?_) (fun _ => ?_)
    | with_reducible apply State.devOp_keeps
    | with_reducible apply State.erClear_keeps
    | with_reducible apply State.opAccept_keeps
    | with_reducible refine Keeps.ite (fun _ => ?_) (fun _ => ?_)
    | split
    | with_reducible refine Keeps.upd rfl rfl rfl ?_
    | (intro _; dsimp only)
    | intro _

theorem execRecMark_keeps (f : Fin 16) (w : TWord) (s : State) : KeepsR s (execRecMark f w s) := by
  unfold execRecMark
  try dsimp only
  repeat' first
    | with_reducible assumption
    | with_reducible exact Keeps.refl _
    | with_reducible refine KeepsR.next ?_
    | with_reducible refine KeepsR.ite (fun _ => ?_) (fun _ => ?_)
    | with_reducible apply State.devOp_keeps
    | with_reducible apply State.emit_keeps
    | with_reducible apply State.opAccept_keeps
    | with_reducible refine Keeps.ite (fun _ => ?_) (fun _ => ?_)
    | split
    | with_reducible refine Keeps.upd rfl rfl rfl ?_
    | (intro _; dsimp only)
    | intro _

end Sys2Proof.Machine
end

