-- ==== Sys2Proof/Laws/Keeps7.lean ====
section
/-! SUPPORT. Each operation and each command of the files Power.lean, Wear.lean, HostRings.lean, Boot.lean, RegsA.lean keeps the relation `Keeps`: memory stays in
canonical form, cell time does not fall, and the queue, what has left the chip and the one-time-programmable memory stand. -/
namespace Sys2Proof.Machine

/-! ### Power.lean -/

theorem State.domainLose_keeps {s0 s : State} (d : Fin 13) (h : Keeps s0 s) : Keeps s0 (s.domainLose d) := by
  unfold State.domainLose
  dsimp only
  have hz : ∀ (l : List (Nat × Nat)) (m : List Host.Cell), Memory.wf m = true →
      Memory.wf (l.foldl (fun m r => memZero m r.1 r.2) m) = true := by
    intro l
    induction l with
    | nil => exact fun _ hm => hm
    | cons r l ih => exact fun m hm => ih _ (memZero_wf m _ _ hm)
  have h1 : Keeps s0 { s with mem := (domainRanges d).foldl (fun m r => memZero m r.1 r.2) s.mem } :=
    Keeps.store h rfl rfl rfl rfl rfl (fun w => hz _ _ w)
  revert h1
  generalize (domainRanges d).foldl (fun m r => memZero m r.1 r.2) s.mem = m
  intro h1
  split <;> first | exact h1 | exact Keeps.same h1 rfl rfl rfl rfl rfl rfl

theorem State.pllFollow_keeps {s0 s : State} (before : State) (h : Keeps s0 s) : Keeps s0 (s.pllFollow before) :=
  Keeps.upd rfl rfl rfl h

theorem execWrInsertWrite_keeps (v : BitVec 32) (s : State) : KeepsR s (execWrInsertWrite v s) := by
  unfold execWrInsertWrite
  try dsimp only
  repeat' first
    | with_reducible assumption
    | with_reducible exact Keeps.refl _
    | with_reducible refine KeepsR.next ?_
    | with_reducible refine KeepsR.ite (fun _ => ?_) (fun _ => ?_)
    | with_reducible apply State.modWr_keeps
    | with_reducible apply State.pllFollow_keeps
    | with_reducible apply State.ringRelay_keeps

theorem State.clkFollow_keeps {sK s : State}  (hK : Keeps sK s) : Keeps sK (State.clkFollow s) := by
  unfold State.clkFollow
  try dsimp only
  repeat' first
    | with_reducible assumption
    | with_reducible exact Keeps.refl _
    | with_reducible refine Keeps.ite (fun _ => ?_) (fun _ => ?_)
    | with_reducible refine Keeps.fold (fun _ _ => ?_) ?_
    | split
    | with_reducible refine Keeps.upd rfl rfl rfl ?_

theorem execClusterClockStop_keeps (c : Fin 30) (s : State) : KeepsR s (execClusterClockStop c s) := by
  unfold execClusterClockStop
  try dsimp only
  repeat' first
    | with_reducible assumption
    | with_reducible exact Keeps.refl _
    | with_reducible refine KeepsR.next ?_
    | with_reducible refine KeepsR.ite (fun _ => ?_) (fun _ => ?_)
    | with_reducible refine Keeps.ite (fun _ => ?_) (fun _ => ?_)
    | split
    | with_reducible refine Keeps.upd rfl rfl rfl ?_

theorem State.putDomain_keeps {sK s : State} (d : Fin 13) (t : DomState) (hK : Keeps sK s) : Keeps sK (State.putDomain s d t) := by
  unfold State.putDomain
  try dsimp only
  repeat' first
    | with_reducible assumption
    | with_reducible exact Keeps.refl _
    | with_reducible refine Keeps.ite (fun _ => ?_) (fun _ => ?_)
    | split
    | with_reducible refine Keeps.upd rfl rfl rfl ?_

theorem State.pcieDown_keeps {sK s : State}  (hK : Keeps sK s) : Keeps sK (State.pcieDown s) := by
  unfold State.pcieDown
  try dsimp only
  repeat' first
    | with_reducible assumption
    | with_reducible exact Keeps.refl _
    | with_reducible apply State.emit_keeps
    | with_reducible refine Keeps.ite (fun _ => ?_) (fun _ => ?_)
    | split
    | with_reducible refine Keeps.upd rfl rfl rfl ?_

theorem State.domainTo_keeps {sK s : State} (d : Fin 13) (t : DomState) (hK : Keeps sK s) : Keeps sK (State.domainTo s d t) := by
  unfold State.domainTo
  try dsimp only
  repeat' first
    | with_reducible assumption
    | with_reducible exact Keeps.refl _
    | with_reducible apply State.pcieDown_keeps
    | with_reducible apply State.domainLose_keeps
    | with_reducible apply State.putDomain_keeps
    | with_reducible apply State.pllFollow_keeps
    | with_reducible apply State.clkFollow_keeps
    | with_reducible apply State.ringRelay_keeps
    | with_reducible refine Keeps.ite (fun _ => ?_) (fun _ => ?_)

theorem State.domainsTo_keeps {sK s : State} (l : List (Fin 13 × DomState)) (hK : Keeps sK s) : Keeps sK (State.domainsTo s l) := by
  unfold State.domainsTo
  try dsimp only
  repeat' first
    | with_reducible assumption
    | with_reducible exact Keeps.refl _
    | with_reducible apply State.domainTo_keeps
    | with_reducible refine Keeps.ite (fun _ => ?_) (fun _ => ?_)
    | with_reducible refine Keeps.forEach (fun _ _ => ?_) ?_

theorem execPwrDomain_keeps (f : Fin 16) (w : TWord) (s : State) : KeepsR s (execPwrDomain f w s) := by
  unfold execPwrDomain
  try dsimp only
  repeat' first
    | with_reducible assumption
    | with_reducible exact Keeps.refl _
    | with_reducible refine KeepsR.next ?_
    | with_reducible refine KeepsR.ite (fun _ => ?_) (fun _ => ?_)
    | with_reducible apply State.devOp_keeps
    | with_reducible apply State.opAccept_keeps
    | with_reducible apply State.opIssue_keeps
    | with_reducible refine Keeps.ite (fun _ => ?_) (fun _ => ?_)
    | split
    | with_reducible refine Keeps.upd rfl rfl rfl ?_
    | (intro _; dsimp only)
    | intro _

theorem execDomainTransitionDone_keeps (d : Fin 13) (s : State) : KeepsR s (execDomainTransitionDone d s) := by
  unfold execDomainTransitionDone
  try dsimp only
  repeat' first
    | with_reducible assumption
    | with_reducible exact Keeps.refl _
    | with_reducible refine KeepsR.next ?_
    | with_reducible refine KeepsR.ite (fun _ => ?_) (fun _ => ?_)
    | with_reducible apply State.domainTo_keeps
    | with_reducible apply State.emit_keeps
    | with_reducible apply State.opDone_keeps
    | with_reducible refine Keeps.ite (fun _ => ?_) (fun _ => ?_)
    | split
    | with_reducible refine Keeps.upd rfl rfl rfl ?_

theorem State.enterReady_keeps {sK s : State} (cause : Nat) (hK : Keeps sK s) : Keeps sK (State.enterReady s cause) := by
  unfold State.enterReady
  try dsimp only
  repeat' first
    | with_reducible assumption
    | with_reducible exact Keeps.refl _
    | with_reducible apply State.setAxis_keeps
    | with_reducible apply State.modWr_keeps
    | with_reducible apply State.setDevState_keeps
    | with_reducible apply State.mpcSweep_keeps
    | with_reducible apply State.ossdUpdate_keeps
    | with_reducible apply State.pllFollow_keeps
    | with_reducible refine Keeps.ite (fun _ => ?_) (fun _ => ?_)
    | with_reducible refine Keeps.forEach (fun _ _ => ?_) ?_

theorem execPwrSet_keeps (f : Fin 16) (w : TWord) (s : State) : KeepsR s (execPwrSet f w s) := by
  unfold execPwrSet
  try dsimp only
  repeat' first
    | with_reducible assumption
    | with_reducible exact Keeps.refl _
    | with_reducible refine KeepsR.next ?_
    | with_reducible refine KeepsR.ite (fun _ => ?_) (fun _ => ?_)
    | with_reducible apply State.devOp_keeps
    | with_reducible apply State.opAccept_keeps
    | with_reducible apply State.setDevState_keeps
    | with_reducible apply State.ossdUpdate_keeps
    | with_reducible apply State.enterReady_keeps
    | with_reducible apply State.unbindDrafts_keeps
    | with_reducible refine Keeps.ite (fun _ => ?_) (fun _ => ?_)
    | split
    | with_reducible refine Keeps.upd rfl rfl rfl ?_
    | (intro _; dsimp only)
    | intro _

theorem State.wakeIsland_keeps {sK s : State}  (hK : Keeps sK s) : Keeps sK (State.wakeIsland s) := by
  unfold State.wakeIsland
  try dsimp only
  repeat' first
    | with_reducible assumption
    | with_reducible exact Keeps.refl _
    | with_reducible apply State.domainsTo_keeps
    | with_reducible apply State.modSv_keeps

theorem State.bootFail_keeps {sK s : State} (reason : BitVec 4) (hK : Keeps sK s) : Keeps sK (State.bootFail s reason) := by
  unfold State.bootFail
  try dsimp only
  repeat' first
    | with_reducible assumption
    | with_reducible exact Keeps.refl _
    | with_reducible apply State.domainsTo_keeps
    | with_reducible refine Keeps.ite (fun _ => ?_) (fun _ => ?_)
    | split
    | with_reducible refine Keeps.upd rfl rfl rfl ?_

theorem State.startBoot_keeps {sK s : State}  (hK : Keeps sK s) : Keeps sK (State.startBoot s) := by
  unfold State.startBoot
  try dsimp only
  repeat' first
    | with_reducible assumption
    | with_reducible exact Keeps.refl _
    | with_reducible apply State.domainsTo_keeps
    | with_reducible apply State.bootFail_keeps
    | with_reducible refine Keeps.ite (fun _ => ?_) (fun _ => ?_)
    | split
    | with_reducible refine Keeps.upd rfl rfl rfl ?_

theorem State.wake_keeps {sK s : State} (src : BitVec 3) (hK : Keeps sK s) : Keeps sK (State.wake s src) := by
  unfold State.wake
  try dsimp only
  repeat' first
    | with_reducible assumption
    | with_reducible exact Keeps.refl _
    | with_reducible apply State.aonSet_keeps
    | with_reducible apply State.startBoot_keeps
    | with_reducible refine Keeps.ite (fun _ => ?_) (fun _ => ?_)
    | split
    | with_reducible refine Keeps.upd rfl rfl rfl ?_

theorem State.wakeSource_keeps {sK s : State} (src : BitVec 3) (hK : Keeps sK s) : Keeps sK (State.wakeSource s src) := by
  unfold State.wakeSource
  try dsimp only
  repeat' first
    | with_reducible assumption
    | with_reducible exact Keeps.refl _
    | with_reducible apply State.wake_keeps
    | with_reducible refine Keeps.ite (fun _ => ?_) (fun _ => ?_)
    | split
    | with_reducible refine Keeps.upd rfl rfl rfl ?_

theorem State.wakeAgain_keeps {sK s : State}  (hK : Keeps sK s) : Keeps sK (State.wakeAgain s) := by
  unfold State.wakeAgain
  try dsimp only
  repeat' first
    | with_reducible assumption
    | with_reducible exact Keeps.refl _
    | with_reducible apply State.wake_keeps
    | with_reducible refine Keeps.ite (fun _ => ?_) (fun _ => ?_)

theorem execWakePin_keeps  (s : State) : KeepsR s (execWakePin s) := by
  unfold execWakePin
  try dsimp only
  repeat' first
    | with_reducible assumption
    | with_reducible exact Keeps.refl _
    | with_reducible refine KeepsR.next ?_
    | with_reducible refine KeepsR.ite (fun _ => ?_) (fun _ => ?_)
    | with_reducible apply State.wakeSource_keeps

theorem execWakeTimer_keeps  (s : State) : KeepsR s (execWakeTimer s) := by
  unfold execWakeTimer
  try dsimp only
  repeat' first
    | with_reducible assumption
    | with_reducible exact Keeps.refl _
    | with_reducible refine KeepsR.next ?_
    | with_reducible refine KeepsR.ite (fun _ => ?_) (fun _ => ?_)
    | with_reducible apply State.reach_keeps
    | with_reducible apply State.wakeSource_keeps

theorem State.pwrCmd_keeps {sK s : State} (path : Path) (v : BitVec 32) (hK : Keeps sK s) : Keeps sK (State.pwrCmd s path v) := by
  unfold State.pwrCmd
  try dsimp only
  repeat' first
    | with_reducible assumption
    | with_reducible exact Keeps.refl _
    | with_reducible apply State.aonSet_keeps
    | with_reducible apply State.wakeSource_keeps
    | with_reducible refine Keeps.ite (fun _ => ?_) (fun _ => ?_)
    | split
    | with_reducible refine Keeps.upd rfl rfl rfl ?_

theorem execAonPwrCmdWrite_keeps (path : Path) (v : BitVec 32) (s : State) : KeepsR s (execAonPwrCmdWrite path v s) := by
  unfold execAonPwrCmdWrite
  try dsimp only
  repeat' first
    | with_reducible assumption
    | with_reducible exact Keeps.refl _
    | with_reducible refine KeepsR.next ?_
    | with_reducible refine KeepsR.ite (fun _ => ?_) (fun _ => ?_)
    | with_reducible apply State.pwrCmd_keeps

theorem State.enterSleep_keeps {sK s : State} (cause : Nat) (hK : Keeps sK s) : Keeps sK (State.enterSleep s cause) := by
  unfold State.enterSleep
  try dsimp only
  repeat' first
    | with_reducible assumption
    | with_reducible exact Keeps.refl _
    | with_reducible apply State.domainsTo_keeps
    | with_reducible apply State.setDevState_keeps
    | with_reducible apply State.stopPicks_keeps
    | with_reducible apply State.pllFollow_keeps
    | with_reducible refine Keeps.ite (fun _ => ?_) (fun _ => ?_)
    | split
    | with_reducible refine Keeps.upd rfl rfl rfl ?_

theorem State.enterStandby_keeps {sK s : State} (cause : Nat) (hK : Keeps sK s) : Keeps sK (State.enterStandby s cause) := by
  unfold State.enterStandby
  try dsimp only
  repeat' first
    | with_reducible assumption
    | with_reducible exact Keeps.refl _
    | with_reducible apply State.domainsTo_keeps
    | with_reducible apply State.setDevState_keeps
    | with_reducible apply State.stopPicks_keeps
    | with_reducible apply State.pllFollow_keeps
    | with_reducible refine Keeps.ite (fun _ => ?_) (fun _ => ?_)
    | split
    | with_reducible refine Keeps.upd rfl rfl rfl ?_

theorem State.leaveSleep_keeps {sK s : State}  (hK : Keeps sK s) : Keeps sK (State.leaveSleep s) := by
  unfold State.leaveSleep
  try dsimp only
  repeat' first
    | with_reducible assumption
    | with_reducible exact Keeps.refl _
    | with_reducible apply State.domainsTo_keeps
    | with_reducible apply State.wakeIsland_keeps
    | with_reducible apply State.enterReady_keeps

theorem execDeviceTransitionDone_keeps  (s : State) : KeepsR s (execDeviceTransitionDone s) := by
  unfold execDeviceTransitionDone
  try dsimp only
  repeat' first
    | with_reducible assumption
    | with_reducible exact Keeps.refl _
    | with_reducible refine KeepsR.next ?_
    | with_reducible refine KeepsR.ite (fun _ => ?_) (fun _ => ?_)
    | with_reducible apply State.enterSleep_keeps
    | with_reducible apply State.enterStandby_keeps
    | with_reducible apply State.leaveSleep_keeps
    | with_reducible apply svWatch_keeps
    | with_reducible apply State.wakeAgain_keeps
    | with_reducible refine Keeps.ite (fun _ => ?_) (fun _ => ?_)
    | split
    | with_reducible refine Keeps.upd rfl rfl rfl ?_

theorem State.deviceReset_restarts (s : State) (c : Fin 4) : Restarts s (s.deviceReset c) := by
  refine ⟨fun w => memZero_wf _ _ _ w, rfl, Or.inl rfl, rfl, ?_, ⟨fun _ h => h, Nat.le_refl _⟩⟩
  exact List.suffix_append _ _

theorem State.powerOff_restarts (s : State) : Restarts s s.powerOff := by
  refine ⟨fun _ => rfl, rfl, Or.inr rfl, rfl, ?_, ⟨fun _ h => h, Nat.le_refl _⟩⟩
  exact List.suffix_append _ _

theorem State.hostReset_cases (s : State) (key : BitVec 32) : Keeps s (s.hostReset key) ∨ Restarts s (s.hostReset key) := by
  unfold State.hostReset
  split
  · exact Or.inr (s.deviceReset_restarts 3)
  · exact Or.inl (Keeps.refl s)

theorem execHostReset_keeps (key : BitVec 32) (s : State) : KeepsOrRestarts s (execHostReset key s) := by
  unfold execHostReset
  refine KeepsOrRestarts.ite (fun _ => KeepsOrRestarts.next (Keeps.refl s)) (fun _ => ?_)
  exact KeepsOrRestarts.of (s.hostReset_cases key)

theorem execResetNPin_keeps (s : State) : KeepsOrRestarts s (execResetNPin s) := by
  unfold execResetNPin
  exact KeepsOrRestarts.ite (fun _ => KeepsOrRestarts.next (Keeps.refl s)) (fun _ => KeepsOrRestarts.restart (s.deviceReset_restarts 1))

theorem execPowerOnReset_keeps (s : State) : KeepsOrRestarts s (execPowerOnReset s) :=
  KeepsOrRestarts.restart (Restarts.same s.powerOff_restarts rfl rfl rfl rfl (List.suffix_refl _) rfl rfl)

theorem execPorRelease_keeps (b : BitVec 2) (p : BitVec 3) (s : State) : KeepsOrRestarts s (execPorRelease b p s) := by
  unfold execPorRelease
  refine KeepsOrRestarts.ite (fun _ => KeepsOrRestarts.restart ?_) (fun _ => KeepsOrRestarts.next (Keeps.refl s))
  exact ⟨fun _ => rfl, rfl, Or.inl rfl, rfl, List.suffix_refl _, ⟨fun _ h => h, Nat.le_refl _⟩⟩

theorem execPllLockLoss_keeps (l : Fin 18) (s : State) : KeepsOrRestarts s (execPllLockLoss l s) := by
  unfold execPllLockLoss
  refine KeepsOrRestarts.ite (fun _ => KeepsOrRestarts.next (Keeps.refl s)) (fun _ =>
    KeepsOrRestarts.ite (fun _ => KeepsOrRestarts.restart (s.deviceReset_restarts 2)) (fun _ => ?_))
  have h1 : Keeps s { s with cr.pll := clearBit s.cr.pll l.val } := Keeps.same (Keeps.refl s) rfl rfl rfl rfl rfl rfl
  refine KeepsOrRestarts.ite (fun _ => KeepsOrRestarts.next h1) (fun _ => KeepsOrRestarts.ite (fun _ => KeepsOrRestarts.next (State.pcieDown_keeps h1)) (fun _ => ?_))
  refine KeepsOrRestarts.ite (fun _ => KeepsOrRestarts.next (State.linkChange_keeps _ _ h1)) (fun _ => ?_)
  refine KeepsOrRestarts.ite (fun _ => KeepsOrRestarts.next (State.laneChange_keeps _ _ h1)) (fun _ => ?_)
  refine KeepsOrRestarts.ite (fun _ => KeepsOrRestarts.next (State.laneChange_keeps _ _ h1)) (fun _ => ?_)
  exact KeepsOrRestarts.ite (fun _ => KeepsOrRestarts.next (State.ringRelay_keeps (State.modWr_keeps _ h1)))
    (fun _ => KeepsOrRestarts.next (State.ringRelay_keeps (State.modWr_keeps _ h1)))

theorem State.trip_keeps {sK s : State} (w : BitVec 32) (hK : Keeps sK s) : Keeps sK (State.trip s w) := by
  unfold State.trip
  try dsimp only
  repeat' first
    | with_reducible assumption
    | with_reducible exact Keeps.refl _
    | with_reducible apply State.aonSet_keeps
    | with_reducible apply State.emit_keeps
    | with_reducible apply svWatch_keeps
    | with_reducible apply State.enterSafeHold_keeps
    | with_reducible refine Keeps.ite (fun _ => ?_) (fun _ => ?_)
    | split
    | with_reducible refine Keeps.upd rfl rfl rfl ?_

theorem execTemperatureSample_keeps (t : Vector (BitVec 8) 8) (s : State) : KeepsR s (execTemperatureSample t s) := by
  unfold execTemperatureSample
  try dsimp only
  repeat' first
    | with_reducible assumption
    | with_reducible exact Keeps.refl _
    | with_reducible refine KeepsR.next ?_
    | with_reducible refine KeepsR.ite (fun _ => ?_) (fun _ => ?_)
    | with_reducible apply State.aonSet_keeps
    | with_reducible apply State.emit_keeps
    | with_reducible apply State.trip_keeps
    | with_reducible refine Keeps.ite (fun _ => ?_) (fun _ => ?_)
    | split
    | with_reducible refine Keeps.upd rfl rfl rfl ?_

theorem execSupplyEnDrop_keeps (s : State) : KeepsOrRestarts s (execSupplyEnDrop s) := by
  unfold execSupplyEnDrop
  exact KeepsOrRestarts.ite (fun _ => KeepsOrRestarts.restart s.powerOff_restarts) (fun _ => KeepsOrRestarts.next (Keeps.refl s))

/-! ### Wear.lean -/

theorem State.hwSet_keeps {sK s : State} (i : Nat) (hK : Keeps sK s) : Keeps sK (State.hwSet s i) := by
  unfold State.hwSet
  try dsimp only
  repeat' first
    | with_reducible assumption
    | with_reducible exact Keeps.refl _
    | with_reducible apply irqWatch_keeps
    | with_reducible refine Keeps.ite (fun _ => ?_) (fun _ => ?_)
    | split
    | with_reducible refine Keeps.upd rfl rfl rfl ?_

theorem execWearSecond_keeps  (s : State) : KeepsR s (execWearSecond s) := by
  unfold execWearSecond
  try dsimp only
  repeat' first
    | with_reducible assumption
    | with_reducible exact Keeps.refl _
    | with_reducible refine KeepsR.next ?_
    | with_reducible refine KeepsR.ite (fun _ => ?_) (fun _ => ?_)
    | with_reducible refine Keeps.ite (fun _ => ?_) (fun _ => ?_)
    | split
    | with_reducible refine Keeps.upd rfl rfl rfl ?_

theorem execPoweredHour_keeps (drift : Vector (BitVec 32) 16) (s : State) : KeepsR s (execPoweredHour drift s) := by
  unfold execPoweredHour
  try dsimp only
  repeat' first
    | with_reducible assumption
    | with_reducible exact Keeps.refl _
    | with_reducible refine KeepsR.next ?_
    | with_reducible refine KeepsR.ite (fun _ => ?_) (fun _ => ?_)
    | with_reducible apply State.hwSet_keeps
    | with_reducible apply State.emit_keeps
    | with_reducible refine Keeps.ite (fun _ => ?_) (fun _ => ?_)
    | split
    | with_reducible refine Keeps.upd rfl rfl rfl ?_

theorem State.wearCapture_keeps {sK s : State}  (hK : Keeps sK s) : Keeps sK (State.wearCapture s) := by
  unfold State.wearCapture
  try dsimp only
  repeat' first
    | with_reducible assumption
    | with_reducible exact Keeps.refl _
    | with_reducible refine Keeps.ite (fun _ => ?_) (fun _ => ?_)
    | split
    | with_reducible refine Keeps.upd rfl rfl rfl ?_

theorem execHwImg0Read_keeps  (s : State) : KeepsR s (execHwImg0Read s) := by
  unfold execHwImg0Read
  try dsimp only
  repeat' first
    | with_reducible assumption
    | with_reducible exact Keeps.refl _
    | with_reducible refine KeepsR.next ?_
    | with_reducible refine KeepsR.ite (fun _ => ?_) (fun _ => ?_)
    | with_reducible apply State.wearCapture_keeps
    | with_reducible refine Keeps.ite (fun _ => ?_) (fun _ => ?_)
    | split
    | with_reducible refine Keeps.upd rfl rfl rfl ?_

theorem State.setHwCtrl_keeps {sK s : State} (v : BitVec 32) (hK : Keeps sK s) : Keeps sK (State.setHwCtrl s v) := by
  unfold State.setHwCtrl
  try dsimp only
  repeat' first
    | with_reducible assumption
    | with_reducible exact Keeps.refl _
    | with_reducible apply State.emit_keeps
    | with_reducible apply State.hwSet_keeps
    | with_reducible refine Keeps.ite (fun _ => ?_) (fun _ => ?_)
    | split
    | with_reducible refine Keeps.upd rfl rfl rfl ?_

theorem execHwLoad_keeps  (s : State) : KeepsR s (execHwLoad s) := by
  unfold execHwLoad
  try dsimp only
  repeat' first
    | with_reducible assumption
    | with_reducible exact Keeps.refl _
    | with_reducible refine KeepsR.next ?_
    | with_reducible refine KeepsR.ite (fun _ => ?_) (fun _ => ?_)
    | with_reducible apply State.setHwCtrl_keeps

theorem execHwCntClr_keeps  (s : State) : KeepsR s (execHwCntClr s) := by
  unfold execHwCntClr
  try dsimp only
  repeat' first
    | with_reducible assumption
    | with_reducible exact Keeps.refl _
    | with_reducible refine KeepsR.next ?_
    | with_reducible refine KeepsR.ite (fun _ => ?_) (fun _ => ?_)
    | with_reducible apply State.setHwCtrl_keeps

theorem State.scrubWord_keeps {sK s : State} (before : List (BitVec 40)) (a : BitVec 40) (hK : Keeps sK s) : Keeps sK (State.scrubWord s before a) := by
  unfold State.scrubWord
  try dsimp only
  repeat' first
    | with_reducible assumption
    | with_reducible exact Keeps.refl _
    | with_reducible apply State.hwSet_keeps
    | with_reducible apply State.emit_keeps
    | with_reducible refine Keeps.ite (fun _ => ?_) (fun _ => ?_)
    | split
    | with_reducible refine Keeps.upd rfl rfl rfl ?_

theorem execScrubPass_keeps (sel : Bool) (corrected : List (BitVec 40)) (s : State) : KeepsR s (execScrubPass sel corrected s) := by
  unfold execScrubPass
  try dsimp only
  repeat' first
    | with_reducible assumption
    | with_reducible exact Keeps.refl _
    | with_reducible refine KeepsR.next ?_
    | with_reducible refine KeepsR.ite (fun _ => ?_) (fun _ => ?_)
    | with_reducible apply State.scrubWord_keeps
    | with_reducible refine Keeps.ite (fun _ => ?_) (fun _ => ?_)
    | with_reducible refine Keeps.forEach (fun _ _ => ?_) ?_
    | split
    | with_reducible refine Keeps.upd rfl rfl rfl ?_

/-! ### HostRings.lean -/

theorem State.modHi_keeps {sK s : State} (g : HostIf → HostIf) (hK : Keeps sK s) : Keeps sK (State.modHi s g) := by
  unfold State.modHi
  try dsimp only
  repeat' first
    | with_reducible assumption
    | with_reducible exact Keeps.refl _
    | with_reducible refine Keeps.ite (fun _ => ?_) (fun _ => ?_)
    | split
    | with_reducible refine Keeps.upd rfl rfl rfl ?_

theorem State.hiSet_keeps {sK s : State} (i : Nat) (hK : Keeps sK s) : Keeps sK (State.hiSet s i) := by
  unfold State.hiSet
  try dsimp only
  repeat' first
    | with_reducible assumption
    | with_reducible exact Keeps.refl _
    | with_reducible apply State.modHi_keeps

theorem State.modRing_keeps {sK s : State} (k : Fin 34) (g : HostRing → HostRing) (hK : Keeps sK s) : Keeps sK (State.modRing s k g) := by
  unfold State.modRing
  try dsimp only
  repeat' first
    | with_reducible assumption
    | with_reducible exact Keeps.refl _
    | with_reducible apply State.modHi_keeps

theorem State.setIndex_keeps {sK s : State} (k : Fin 34) (head : Bool) (v : BitVec 32) (hK : Keeps sK s) : Keeps sK (State.setIndex s k head v) := by
  unfold State.setIndex
  try dsimp only
  repeat' first
    | with_reducible assumption
    | with_reducible exact Keeps.refl _
    | with_reducible apply State.hiSet_keeps
    | with_reducible apply State.modRing_keeps
    | with_reducible refine Keeps.ite (fun _ => ?_) (fun _ => ?_)
    | split

theorem execSubmissionTailWrite_keeps (f : Fin 16) (v : BitVec 32) (s : State) : KeepsR s (execSubmissionTailWrite f v s) := by
  unfold execSubmissionTailWrite
  try dsimp only
  repeat' first
    | with_reducible assumption
    | with_reducible exact Keeps.refl _
    | with_reducible refine KeepsR.next ?_
    | with_reducible refine KeepsR.ite (fun _ => ?_) (fun _ => ?_)
    | with_reducible apply State.setIndex_keeps

theorem execCompletionHeadWrite_keeps (f : Fin 16) (v : BitVec 32) (s : State) : KeepsR s (execCompletionHeadWrite f v s) := by
  unfold execCompletionHeadWrite
  try dsimp only
  repeat' first
    | with_reducible assumption
    | with_reducible exact Keeps.refl _
    | with_reducible refine KeepsR.next ?_
    | with_reducible refine KeepsR.ite (fun _ => ?_) (fun _ => ?_)
    | with_reducible apply State.setIndex_keeps

theorem State.setRingCfg_keeps {sK s : State} (k : Fin 34) (v : BitVec 32) (hK : Keeps sK s) : Keeps sK (State.setRingCfg s k v) := by
  unfold State.setRingCfg
  try dsimp only
  repeat' first
    | with_reducible assumption
    | with_reducible exact Keeps.refl _
    | with_reducible apply State.hiSet_keeps
    | with_reducible apply State.modRing_keeps
    | with_reducible apply State.modHi_keeps
    | with_reducible refine Keeps.ite (fun _ => ?_) (fun _ => ?_)

theorem execHiCfgWrite_keeps (ring : Fin 34) (v : BitVec 32) (s : State) : KeepsR s (execHiCfgWrite ring v s) := by
  unfold execHiCfgWrite
  try dsimp only
  repeat' first
    | with_reducible assumption
    | with_reducible exact Keeps.refl _
    | with_reducible refine KeepsR.next ?_
    | with_reducible refine KeepsR.ite (fun _ => ?_) (fun _ => ?_)
    | with_reducible apply State.setRingCfg_keeps

theorem State.setRingBase_keeps {sK s : State} (k : Fin 34) (hi : Bool) (v : BitVec 32) (hK : Keeps sK s) : Keeps sK (State.setRingBase s k hi v) := by
  unfold State.setRingBase
  try dsimp only
  repeat' first
    | with_reducible assumption
    | with_reducible exact Keeps.refl _
    | with_reducible apply State.hiSet_keeps
    | with_reducible apply State.modRing_keeps
    | with_reducible refine Keeps.ite (fun _ => ?_) (fun _ => ?_)

theorem State.txOne_keeps {sK s : State} (i : Nat) (q : Vector (BitVec 32) 8 × List Byte) (hK : Keeps sK s) : Keeps sK (State.txOne s i q) := by
  unfold State.txOne
  try dsimp only
  repeat' first
    | with_reducible assumption
    | with_reducible exact Keeps.refl _
    | with_reducible apply State.txDone_keeps
    | with_reducible apply State.take_keeps
    | with_reducible apply State.forward_keeps
    | with_reducible refine Keeps.ite (fun _ => ?_) (fun _ => ?_)

theorem State.txRun_keeps {s0 : State} (fuel : Nat) (given : List (Vector (BitVec 32) 8 × List Byte)) {s : State} (h : Keeps s0 s) :
    Keeps s0 (State.txRun fuel given s) := by
  induction fuel generalizing s given with
  | zero => unfold State.txRun; exact h
  | succ n ih =>
    unfold State.txRun
    dsimp only
    refine Keeps.ite (fun _ => h) (fun _ => ih _ ?_)
    have h1 := State.modHi_keeps (fun h : HostIf => { h with tx := { h.tx with head := s.hi.tx.next s.hi.tx.head } })
      (State.txOne_keeps s.hi.tx.head.toNat (txEntry s s.hi.tx.head.toNat given.head?) h)
    exact Keeps.ite (fun _ => Keeps.upd rfl rfl rfl h1) (fun _ => h1)

theorem execTxRingTailWrite_keeps (v : BitVec 32) (ds : List (Vector (BitVec 32) 8 × List (BitVec 8))) (s : State) : KeepsR s (execTxRingTailWrite v ds s) := by
  unfold execTxRingTailWrite
  try dsimp only
  repeat' first
    | with_reducible assumption
    | with_reducible exact Keeps.refl _
    | with_reducible refine KeepsR.next ?_
    | with_reducible refine KeepsR.ite (fun _ => ?_) (fun _ => ?_)
    | with_reducible apply State.txRun_keeps
    | with_reducible apply State.setIndex_keeps

theorem State.supplyRx_keeps {sK s : State} (v : BitVec 32) (bufs : List (BitVec 40)) (hK : Keeps sK s) : Keeps sK (State.supplyRx s v bufs) := by
  unfold State.supplyRx
  try dsimp only
  repeat' first
    | with_reducible assumption
    | with_reducible exact Keeps.refl _
    | with_reducible apply State.setIndex_keeps
    | with_reducible apply State.modHi_keeps
    | with_reducible refine Keeps.ite (fun _ => ?_) (fun _ => ?_)
    | split
    | with_reducible refine Keeps.upd rfl rfl rfl ?_

theorem execRxRingTailWrite_keeps (v : BitVec 32) (bufs : List (BitVec 40)) (s : State) : KeepsR s (execRxRingTailWrite v bufs s) := by
  unfold execRxRingTailWrite
  try dsimp only
  repeat' first
    | with_reducible assumption
    | with_reducible exact Keeps.refl _
    | with_reducible refine KeepsR.next ?_
    | with_reducible refine KeepsR.ite (fun _ => ?_) (fun _ => ?_)
    | with_reducible apply State.supplyRx_keeps

theorem State.unavail_keeps {sK s : State} (path : Path) (write : Bool) (addr : BitVec 40) (hK : Keeps sK s) : Keeps sK (State.unavail s path write addr) := by
  unfold State.unavail
  try dsimp only
  repeat' first
    | with_reducible assumption
    | with_reducible exact Keeps.refl _
    | with_reducible apply State.modHi_keeps
    | with_reducible apply State.hiSet_keeps
    | with_reducible apply State.emit_keeps
    | with_reducible refine Keeps.ite (fun _ => ?_) (fun _ => ?_)

theorem State.hiCounterClear_keeps {sK s : State} (rxNobuf : Bool) (hK : Keeps sK s) : Keeps sK (State.hiCounterClear s rxNobuf) := by
  unfold State.hiCounterClear
  try dsimp only
  repeat' first
    | with_reducible assumption
    | with_reducible exact Keeps.refl _
    | with_reducible apply State.modHi_keeps

theorem execHiCounterClear_keeps (rxNobuf : Bool) (s : State) : KeepsR s (execHiCounterClear rxNobuf s) := by
  unfold execHiCounterClear
  try dsimp only
  repeat' first
    | with_reducible assumption
    | with_reducible exact Keeps.refl _
    | with_reducible refine KeepsR.next ?_
    | with_reducible refine KeepsR.ite (fun _ => ?_) (fun _ => ?_)
    | with_reducible apply State.hiCounterClear_keeps

theorem execPerst_keeps (high : Bool) (s : State) : KeepsR s (execPerst high s) := by
  unfold execPerst
  try dsimp only
  repeat' first
    | with_reducible assumption
    | with_reducible exact Keeps.refl _
    | with_reducible refine KeepsR.next ?_
    | with_reducible refine KeepsR.ite (fun _ => ?_) (fun _ => ?_)
    | with_reducible apply State.modHi_keeps
    | with_reducible apply State.pllFollow_keeps
    | with_reducible apply State.pcieDown_keeps

theorem execPcieLink_keeps (up : Bool) (speed : BitVec 3) (width : BitVec 4) (s : State) : KeepsR s (execPcieLink up speed width s) := by
  unfold execPcieLink
  try dsimp only
  repeat' first
    | with_reducible assumption
    | with_reducible exact Keeps.refl _
    | with_reducible refine KeepsR.next ?_
    | with_reducible refine KeepsR.ite (fun _ => ?_) (fun _ => ?_)
    | with_reducible apply State.pcieDown_keeps
    | with_reducible apply State.modHi_keeps
    | with_reducible apply State.emit_keeps

/-! ### Boot.lean -/

theorem State.bootPass_keeps {sK s : State} (b : List Byte) (second : Bool) (hK : Keeps sK s) : Keeps sK (State.bootPass s b second) := by
  unfold State.bootPass
  try dsimp only
  repeat' first
    | with_reducible assumption
    | with_reducible exact Keeps.refl _
    | with_reducible apply State.wrBytes_keeps
    | with_reducible apply State.take_keeps
    | with_reducible apply svWatch_keeps
    | with_reducible refine Keeps.ite (fun _ => ?_) (fun _ => ?_)
    | with_reducible refine Keeps.forEach (fun _ _ => ?_) ?_
    | split
    | with_reducible refine Keeps.upd rfl rfl rfl ?_

theorem State.bootTry_keeps {sK s : State} (b : List Byte) (second : Bool) (hK : Keeps sK s) : Keeps sK (State.bootTry s b second).2 := by
  unfold State.bootTry
  try dsimp only
  repeat' first
    | with_reducible assumption
    | with_reducible exact Keeps.refl _
    | with_reducible apply State.bootPass_keeps
    | with_reducible refine Keeps.iteSnd (fun _ => ?_) (fun _ => ?_)
    | with_reducible refine Keeps.ite (fun _ => ?_) (fun _ => ?_)
    | split
    | with_reducible refine Keeps.upd rfl rfl rfl ?_

theorem execBootImageLoaded_keeps (first second : List (BitVec 8)) (s : State) : KeepsR s (execBootImageLoaded first second s) := by
  unfold execBootImageLoaded
  try dsimp only
  repeat' first
    | with_reducible assumption
    | with_reducible exact Keeps.refl _
    | with_reducible refine KeepsR.next ?_
    | with_reducible refine KeepsR.ite (fun _ => ?_) (fun _ => ?_)
    | with_reducible apply State.wrBytes_keeps
    | with_reducible apply State.bootTry_keeps
    | with_reducible apply State.bootFail_keeps
    | with_reducible apply State.wakeAgain_keeps
    | with_reducible refine Keeps.ite (fun _ => ?_) (fun _ => ?_)

theorem State.bootGo_keeps {sK s : State} (v : BitVec 32) (hK : Keeps sK s) : Keeps sK (State.bootGo s v) := by
  unfold State.bootGo
  try dsimp only
  repeat' first
    | with_reducible assumption
    | with_reducible exact Keeps.refl _
    | with_reducible apply State.bootTry_keeps
    | with_reducible apply State.bootFail_keeps
    | with_reducible apply State.wakeAgain_keeps
    | with_reducible refine Keeps.ite (fun _ => ?_) (fun _ => ?_)
    | split
    | with_reducible refine Keeps.upd rfl rfl rfl ?_

theorem execBootHostGo_keeps (v : BitVec 32) (s : State) : KeepsR s (execBootHostGo v s) := by
  unfold execBootHostGo
  try dsimp only
  repeat' first
    | with_reducible assumption
    | with_reducible exact Keeps.refl _
    | with_reducible refine KeepsR.next ?_
    | with_reducible refine KeepsR.ite (fun _ => ?_) (fun _ => ?_)
    | with_reducible apply State.bootGo_keeps

theorem execBootHostTimeout_keeps  (s : State) : KeepsR s (execBootHostTimeout s) := by
  unfold execBootHostTimeout
  try dsimp only
  repeat' first
    | with_reducible assumption
    | with_reducible exact Keeps.refl _
    | with_reducible refine KeepsR.next ?_
    | with_reducible refine KeepsR.ite (fun _ => ?_) (fun _ => ?_)
    | with_reducible apply State.bootFail_keeps
    | with_reducible apply State.wakeAgain_keeps

theorem State.otpCmd_keeps {s0 s : State} (path : Path) (v : BitVec 32) (h : Keeps s0 s) : Keeps s0 (s.otpCmd path v) := by
  refine h.trans ?_
  unfold State.otpCmd
  refine Keeps.ite (fun _ => State.aonSet_keeps _ (Keeps.refl s)) (fun _ => Keeps.ite (fun _ => ?_) (fun _ => Keeps.ite (fun _ => ?_) (fun _ =>
    State.aonSet_keeps _ (Keeps.refl s))))
  · refine Keeps.ite (fun c => ⟨fun w => w, Nat.le_refl _, rfl, List.suffix_refl _, ⟨fun k hk => ?_, Nat.le_refl _⟩⟩) (fun _ => Keeps.refl s)
    rw [hk] at c
    exact absurd c Bool.false_ne_true
  · exact Keeps.ite (fun c => ⟨fun w => w, Nat.le_refl _, rfl, List.suffix_refl _, ⟨fun k hk => hk, Nat.le_of_lt c⟩⟩) (fun _ => Keeps.refl s)

theorem execOtpProgramKey_keeps (path : Path) (s : State) : KeepsR s (execOtpProgramKey path s) := by
  unfold execOtpProgramKey
  try dsimp only
  repeat' first
    | with_reducible assumption
    | with_reducible exact Keeps.refl _
    | with_reducible refine KeepsR.next ?_
    | with_reducible refine KeepsR.ite (fun _ => ?_) (fun _ => ?_)
    | with_reducible apply State.otpCmd_keeps

theorem execOtpRaiseSvn_keeps (path : Path) (s : State) : KeepsR s (execOtpRaiseSvn path s) := by
  unfold execOtpRaiseSvn
  try dsimp only
  repeat' first
    | with_reducible assumption
    | with_reducible exact Keeps.refl _
    | with_reducible refine KeepsR.next ?_
    | with_reducible refine KeepsR.ite (fun _ => ?_) (fun _ => ?_)
    | with_reducible apply State.otpCmd_keeps

theorem State.bootEnd_keeps {sK s : State}  (hK : Keeps sK s) : Keeps sK (State.bootEnd s) := by
  unfold State.bootEnd
  try dsimp only
  repeat' first
    | with_reducible assumption
    | with_reducible exact Keeps.refl _
    | with_reducible apply State.enterReady_keeps
    | with_reducible refine Keeps.ite (fun _ => ?_) (fun _ => ?_)
    | split
    | with_reducible refine Keeps.upd rfl rfl rfl ?_

theorem execSelftestDone_keeps (ch : Fin 2) (fail : Option (BitVec 8)) (s : State) : KeepsR s (execSelftestDone ch fail s) := by
  unfold execSelftestDone
  try dsimp only
  repeat' first
    | with_reducible assumption
    | with_reducible exact Keeps.refl _
    | with_reducible refine KeepsR.next ?_
    | with_reducible refine KeepsR.ite (fun _ => ?_) (fun _ => ?_)
    | with_reducible apply State.svFault_keeps
    | with_reducible apply State.bootEnd_keeps
    | with_reducible apply svWatch_keeps
    | with_reducible apply State.modSvCh_keeps
    | with_reducible apply State.copyWidth_keeps
    | with_reducible apply State.svPublish_keeps
    | with_reducible refine Keeps.ite (fun _ => ?_) (fun _ => ?_)
    | split

/-! ### RegsA.lean -/

theorem rowState_keeps {sK s : State} (r : Res) (hr : KeepsR s r) (hK : Keeps sK s) : Keeps sK (rowState r s) := by
  cases hr with
  | next h => exact hK.trans h

theorem rowRead_keeps {sK s : State} (r : Res) (hr : KeepsR s r) (hK : Keeps sK s) : Keeps sK (rowRead r s).2 :=
  rowState_keeps r hr hK

theorem State.modPw_keeps {sK s : State} (g : Power → Power) (hK : Keeps sK s) : Keeps sK (State.modPw s g) := by
  unfold State.modPw
  try dsimp only
  repeat' first
    | with_reducible assumption
    | with_reducible exact Keeps.refl _
    | with_reducible refine Keeps.ite (fun _ => ?_) (fun _ => ?_)
    | split
    | with_reducible refine Keeps.upd rfl rfl rfl ?_

theorem State.aonWrite_treadle {s0 s : State} (o : Nat) (v : BitVec 32) (h : Keeps s0 s) : Keeps s0 (s.aonWrite .treadle o v) := by
  unfold State.aonWrite
  simp only [if_true]
  repeat' first
    | with_reducible assumption
    | contradiction
    | with_reducible apply State.pwrCmd_keeps
    | with_reducible apply State.modPw_keeps
    | with_reducible apply irqWatch_keeps
    | with_reducible apply State.aonSet_keeps
    | with_reducible apply State.bootGo_keeps
    | with_reducible apply State.otpCmd_keeps
    | with_reducible apply State.setSlAxis_keeps
    | with_reducible apply State.setSlSens_keeps
    | with_reducible exact Keeps.refl _
    | with_reducible refine Keeps.ite (fun _ => ?_) (fun _ => ?_)
    | split
    | with_reducible refine Keeps.upd (by with_unfolding_all rfl) (by with_unfolding_all rfl) (by with_unfolding_all rfl) ?_

theorem State.aonWrite_cases (s : State) (path : Path) (o : Nat) (v : BitVec 32) :
    Keeps s (s.aonWrite path o v) ∨ Restarts s (s.aonWrite path o v) := by
  by_cases ho : o = 0x10C
  · subst ho
    by_cases hp : path = .treadle
    · subst hp; exact Or.inl (State.aonWrite_treadle _ _ (Keeps.refl s))
    · have : s.aonWrite path 0x10C v = s.hostReset v := by simp [State.aonWrite, hp]
      rw [this]
      exact s.hostReset_cases v
  · left
    unfold State.aonWrite
    simp only [ho, if_false]
    have hk := Keeps.refl s
    repeat' first
      | with_reducible assumption
      | contradiction
      | with_reducible apply State.pwrCmd_keeps
      | with_reducible apply State.modPw_keeps
      | with_reducible apply irqWatch_keeps
      | with_reducible apply State.aonSet_keeps
      | with_reducible apply State.bootGo_keeps
      | with_reducible apply State.otpCmd_keeps
      | with_reducible apply State.setSlAxis_keeps
      | with_reducible apply State.setSlSens_keeps
      | with_reducible exact Keeps.refl _
      | with_reducible refine Keeps.ite (fun _ => ?_) (fun _ => ?_)
      | split
      | with_reducible refine Keeps.upd (by with_unfolding_all rfl) (by with_unfolding_all rfl) (by with_unfolding_all rfl) ?_
      | intro _

theorem crRead_keeps {sK s : State} (o : Nat) (hK : Keeps sK s) : Keeps sK (crRead s o).2 := by
  unfold crRead
  try dsimp only
  repeat' first
    | with_reducible assumption
    | with_reducible exact Keeps.refl _
    | with_reducible apply State.startPick_keeps
    | with_reducible apply rowRead_keeps
    | with_reducible apply State.modTb_keeps
    | with_reducible apply execTbTimeLoRead_keeps
    | with_reducible apply execTbPickNumRead_keeps
    | with_reducible apply execTbPickTimeLoRead_keeps
    | with_reducible refine Keeps.iteSnd (fun _ => ?_) (fun _ => ?_)
    | with_reducible refine Keeps.ite (fun _ => ?_) (fun _ => ?_)
    | split
    | with_reducible refine Keeps.upd rfl rfl rfl ?_
    | (intro _; dsimp only)

theorem State.crWrite_keeps {sK s : State} (o : Nat) (v : BitVec 32) (hK : Keeps sK s) : Keeps sK (State.crWrite s o v) := by
  unfold State.crWrite
  try dsimp only
  repeat' first
    | with_reducible assumption
    | with_reducible exact Keeps.refl _
    | with_reducible apply rowState_keeps
    | with_reducible apply State.modTb_keeps
    | with_reducible apply State.startPick_keeps
    | with_reducible apply execTbStart_keeps
    | with_reducible apply execTbApply_keeps
    | with_reducible refine Keeps.ite (fun _ => ?_) (fun _ => ?_)
    | split
    | with_reducible refine Keeps.upd rfl rfl rfl ?_
    | (intro _; dsimp only)

theorem State.msixWrite_keeps {sK s : State} (n : Nat) (k : Nat) (v : BitVec 32) (hK : Keeps sK s) : Keeps sK (State.msixWrite s n k v) := by
  unfold State.msixWrite
  try dsimp only
  repeat' first
    | with_reducible assumption
    | with_reducible exact Keeps.refl _
    | with_reducible apply State.modHi_keeps
    | with_reducible apply State.raise_keeps
    | with_reducible refine Keeps.ite (fun _ => ?_) (fun _ => ?_)

theorem State.hiWrite_keeps {sK s : State} (o : Nat) (v : BitVec 32) (hK : Keeps sK s) : Keeps sK (State.hiWrite s o v) := by
  unfold State.hiWrite
  try dsimp only
  repeat' first
    | with_reducible assumption
    | with_reducible exact Keeps.refl _
    | with_reducible apply State.setRingBase_keeps
    | with_reducible apply State.setRingCfg_keeps
    | with_reducible apply State.supplyRx_keeps
    | with_reducible apply State.txRun_keeps
    | with_reducible apply State.setIndex_keeps
    | with_reducible apply State.modHi_keeps
    | with_reducible apply State.hiCounterClear_keeps
    | with_reducible apply State.msixWrite_keeps
    | with_reducible refine Keeps.ite (fun _ => ?_) (fun _ => ?_)
    | split

theorem State.trWrite_keeps {sK s : State} (o : Nat) (v : BitVec 32) (hK : Keeps sK s) : Keeps sK (State.trWrite s o v) := by
  unfold State.trWrite
  try dsimp only
  repeat' first
    | with_reducible assumption
    | with_reducible exact Keeps.refl _
    | with_reducible refine Keeps.ite (fun _ => ?_) (fun _ => ?_)
    | split
    | with_reducible refine Keeps.upd rfl rfl rfl ?_

theorem State.lmWrite_keeps {sK s : State} (o : Nat) (v : BitVec 32) (hK : Keeps sK s) : Keeps sK (State.lmWrite s o v) := by
  unfold State.lmWrite
  try dsimp only
  repeat' first
    | with_reducible assumption
    | with_reducible exact Keeps.refl _
    | with_reducible apply rowState_keeps
    | with_reducible apply execLmCntClr_keeps
    | with_reducible apply execLmHwmClr_keeps
    | with_reducible apply execLmWeightWrite_keeps
    | with_reducible refine Keeps.ite (fun _ => ?_) (fun _ => ?_)
    | split
    | with_reducible refine Keeps.upd rfl rfl rfl ?_

theorem erRead_keeps {sK s : State} (o : Nat) (hK : Keeps sK s) : Keeps sK (erRead s o).2 := by
  unfold erRead
  try dsimp only
  repeat' first
    | with_reducible assumption
    | with_reducible exact Keeps.refl _
    | with_reducible apply rowRead_keeps
    | with_reducible apply execErEpochLoRead_keeps
    | with_reducible apply execErSlogDataRead_keeps
    | with_reducible refine Keeps.iteSnd (fun _ => ?_) (fun _ => ?_)

theorem State.erWriteReg_keeps {sK s : State} (o : Nat) (v : BitVec 32) (hK : Keeps sK s) : Keeps sK (State.erWriteReg s o v) := by
  unfold State.erWriteReg
  try dsimp only
  repeat' first
    | with_reducible assumption
    | with_reducible exact Keeps.refl _
    | with_reducible apply rowState_keeps
    | with_reducible apply irqWatch_keeps
    | with_reducible apply State.erMark_keeps
    | with_reducible apply State.erSet_keeps
    | with_reducible apply execErCntClr_keeps
    | with_reducible apply execErCurWrite_keeps
    | with_reducible apply execErSlogSelWrite_keeps
    | with_reducible refine Keeps.ite (fun _ => ?_) (fun _ => ?_)
    | split
    | with_reducible refine Keeps.upd rfl rfl rfl ?_

theorem hwRead_keeps {sK s : State} (o : Nat) (hK : Keeps sK s) : Keeps sK (hwRead s o).2 := by
  unfold hwRead
  try dsimp only
  repeat' first
    | with_reducible assumption
    | with_reducible exact Keeps.refl _
    | with_reducible apply rowRead_keeps
    | with_reducible apply execHwImg0Read_keeps
    | with_reducible refine Keeps.iteSnd (fun _ => ?_) (fun _ => ?_)
    | with_reducible refine Keeps.ite (fun _ => ?_) (fun _ => ?_)
    | split

theorem State.hwWrite_keeps {sK s : State} (o : Nat) (v : BitVec 32) (hK : Keeps sK s) : Keeps sK (State.hwWrite s o v) := by
  unfold State.hwWrite
  try dsimp only
  repeat' first
    | with_reducible assumption
    | with_reducible exact Keeps.refl _
    | with_reducible apply irqWatch_keeps
    | with_reducible apply State.setHwCtrl_keeps
    | with_reducible apply State.hwSet_keeps
    | with_reducible refine Keeps.ite (fun _ => ?_) (fun _ => ?_)
    | split
    | with_reducible refine Keeps.upd rfl rfl rfl ?_

end Sys2Proof.Machine
end

