-- ==== Sys2Proof/Laws/Keeps8.lean ====
section
/-! SUPPORT. Each operation and each command of the files RegsB.lean, RegsC.lean, Regs.lean, Replay.lean, Adopt.lean, Ecc.lean, Pick.lean keeps the relation `Keeps`: memory stays in
canonical form, cell time does not fall, and the queue, what has left the chip and the one-time-programmable memory stand. -/
namespace Sys2Proof.Machine

/-! ### RegsB.lean -/

theorem fbChRead_keeps {sK s : State} (c : Fin 96) (o : Nat) (hK : Keeps sK s) : Keeps sK (fbChRead s c o).2 := by
  unfold fbChRead
  try dsimp only
  repeat' first
    | with_reducible assumption
    | with_reducible exact Keeps.refl _
    | with_reducible apply rowRead_keeps
    | with_reducible apply execFbPosLoRead_keeps
    | with_reducible refine Keeps.iteSnd (fun _ => ?_) (fun _ => ?_)

theorem fbRead_keeps {sK s : State} (o : Nat) (hK : Keeps sK s) : Keeps sK (fbRead s o).2 := by
  unfold fbRead
  try dsimp only
  repeat' first
    | with_reducible assumption
    | with_reducible exact Keeps.refl _
    | with_reducible apply fbChRead_keeps
    | with_reducible apply State.trace_keeps
    | with_reducible apply rowRead_keeps
    | with_reducible apply execFbTraceW0Read_keeps
    | with_reducible refine Keeps.iteSnd (fun _ => ?_) (fun _ => ?_)
    | with_reducible refine Keeps.ite (fun _ => ?_) (fun _ => ?_)
    | with_reducible refine Keeps.fold (fun _ _ => ?_) ?_
    | split

theorem State.fbWrite_keeps {sK s : State} (o : Nat) (v : BitVec 32) (hK : Keeps sK s) : Keeps sK (State.fbWrite s o v) := by
  unfold State.fbWrite
  try dsimp only
  repeat' first
    | with_reducible assumption
    | with_reducible exact Keeps.refl _
    | with_reducible apply rowState_keeps
    | with_reducible apply State.modCh_keeps
    | with_reducible apply irqWatch_keeps
    | with_reducible apply execFbCfgWrite_keeps
    | with_reducible apply execFbTimingWrite_keeps
    | with_reducible apply execFbSsiWrite_keeps
    | with_reducible apply execFbSsiLeadWrite_keeps
    | with_reducible apply execFbTrigCfgWrite_keeps
    | with_reducible apply execTraceClr_keeps
    | with_reducible refine Keeps.ite (fun _ => ?_) (fun _ => ?_)
    | split
    | with_reducible refine Keeps.upd rfl rfl rfl ?_

theorem ceSliceRead_keeps {sK s : State} (a : Fin 80) (o : Nat) (hK : Keeps sK s) : Keeps sK (ceSliceRead s a o).2 := by
  unfold ceSliceRead
  try dsimp only
  repeat' first
    | with_reducible assumption
    | with_reducible exact Keeps.refl _
    | with_reducible apply rowRead_keeps
    | with_reducible apply execCeXrLoRead_keeps
    | with_reducible apply execCePosOffLoRead_keeps
    | with_reducible refine Keeps.iteSnd (fun _ => ?_) (fun _ => ?_)

theorem ceRead_keeps {sK s : State} (o : Nat) (hK : Keeps sK s) : Keeps sK (ceRead s o).2 := by
  unfold ceRead
  try dsimp only
  repeat' first
    | with_reducible assumption
    | with_reducible exact Keeps.refl _
    | with_reducible apply ceSliceRead_keeps
    | with_reducible refine Keeps.iteSnd (fun _ => ?_) (fun _ => ?_)
    | with_reducible refine Keeps.ite (fun _ => ?_) (fun _ => ?_)
    | with_reducible refine Keeps.fold (fun _ _ => ?_) ?_
    | split

theorem State.ceWrite_keeps {sK s : State} (o : Nat) (v : BitVec 32) (hK : Keeps sK s) : Keeps sK (State.ceWrite s o v) := by
  unfold State.ceWrite
  try dsimp only
  repeat' first
    | with_reducible assumption
    | with_reducible exact Keeps.refl _
    | with_reducible apply rowState_keeps
    | with_reducible apply State.modSlice_keeps
    | with_reducible apply irqWatch_keeps
    | with_reducible apply State.ceSet_keeps
    | with_reducible apply execCeCfgWrite_keeps
    | with_reducible apply execCeVmaxWrite_keeps
    | with_reducible apply execCeAmaxWrite_keeps
    | with_reducible apply execCeBypassCntClear_keeps
    | with_reducible refine Keeps.ite (fun _ => ?_) (fun _ => ?_)
    | split

theorem State.pgWrite_keeps {sK s : State} (o : Nat) (v : BitVec 32) (hK : Keeps sK s) : Keeps sK (State.pgWrite s o v) := by
  unfold State.pgWrite
  try dsimp only
  repeat' first
    | with_reducible assumption
    | with_reducible exact Keeps.refl _
    | with_reducible apply State.modPax_keeps
    | with_reducible apply irqWatch_keeps
    | with_reducible apply rowState_keeps
    | with_reducible apply State.modStl_keeps
    | with_reducible apply execStlCfgWrite_keeps
    | with_reducible refine Keeps.ite (fun _ => ?_) (fun _ => ?_)
    | split
    | with_reducible refine Keeps.upd rfl rfl rfl ?_

theorem chRead_keeps {sK s : State} (o : Nat) (hK : Keeps sK s) : Keeps sK (chRead s o).2 := by
  unfold chRead
  try dsimp only
  repeat' first
    | with_reducible assumption
    | with_reducible exact Keeps.refl _
    | with_reducible apply rowRead_keeps
    | with_reducible apply execChSigLoRead_keeps
    | with_reducible apply execChSchedHashLoRead_keeps
    | with_reducible refine Keeps.iteSnd (fun _ => ?_) (fun _ => ?_)

theorem State.chWrite_keeps {sK s : State} (o : Nat) (v : BitVec 32) (hK : Keeps sK s) : Keeps sK (State.chWrite s o v) := by
  unfold State.chWrite
  try dsimp only
  repeat' first
    | with_reducible assumption
    | with_reducible exact Keeps.refl _
    | with_reducible apply State.qpSet_keeps
    | with_reducible apply State.modQp_keeps
    | with_reducible apply rowState_keeps
    | with_reducible apply execChCntClr_keeps
    | with_reducible refine Keeps.ite (fun _ => ?_) (fun _ => ?_)

theorem rdRead_keeps {sK s : State} (o : Nat) (hK : Keeps sK s) : Keeps sK (rdRead s o).2 := by
  unfold rdRead
  try dsimp only
  repeat' first
    | with_reducible assumption
    | with_reducible exact Keeps.refl _
    | with_reducible apply rowRead_keeps
    | with_reducible apply execRdCycleLoRead_keeps
    | with_reducible apply execRdSensLastLoRead_keeps
    | with_reducible refine Keeps.iteSnd (fun _ => ?_) (fun _ => ?_)
    | with_reducible refine Keeps.ite (fun _ => ?_) (fun _ => ?_)
    | split

theorem State.rdWrite_keeps {sK s : State} (o : Nat) (v : BitVec 32) (hK : Keeps sK s) : Keeps sK (State.rdWrite s o v) := by
  unfold State.rdWrite
  try dsimp only
  repeat' first
    | with_reducible assumption
    | with_reducible exact Keeps.refl _
    | with_reducible apply rowState_keeps
    | with_reducible apply State.modRd_keeps
    | with_reducible apply execReedCntClr_keeps
    | with_reducible apply execReedRunWrite_keeps
    | with_reducible apply execReedConfigWrite_keeps
    | with_reducible refine Keeps.ite (fun _ => ?_) (fun _ => ?_)

/-! ### RegsC.lean -/

theorem State.setPortCfg_keeps {sK s : State} (p : Fin 8) (v : BitVec 32) (hK : Keeps sK s) : Keeps sK (State.setPortCfg s p v) := by
  unfold State.setPortCfg
  try dsimp only
  repeat' first
    | with_reducible assumption
    | with_reducible exact Keeps.refl _
    | with_reducible apply State.modPort_keeps
    | with_reducible apply State.ptSet_keeps
    | with_reducible apply State.linkChange_keeps
    | with_reducible apply State.pllFollow_keeps
    | with_reducible refine Keeps.ite (fun _ => ?_) (fun _ => ?_)
    | split

theorem State.portWrite_keeps {sK s : State} (p : Fin 8) (o : Nat) (v : BitVec 32) (hK : Keeps sK s) : Keeps sK (State.portWrite s p o v) := by
  unfold State.portWrite
  try dsimp only
  repeat' first
    | with_reducible assumption
    | with_reducible exact Keeps.refl _
    | with_reducible apply State.setPortCfg_keeps
    | with_reducible apply State.modPort_keeps
    | with_reducible apply irqWatch_keeps
    | with_reducible apply rowState_keeps
    | with_reducible apply State.setGclCtrl_keeps
    | with_reducible apply State.ptSet_keeps
    | with_reducible apply State.cbsNow_keeps
    | with_reducible apply execPtCntClear_keeps
    | with_reducible refine Keeps.ite (fun _ => ?_) (fun _ => ?_)
    | split

theorem State.setGrp_keeps {sK s : State} (g : Nat) (v : BitVec 32) (hK : Keeps sK s) : Keeps sK (State.setGrp s g v) := by
  unfold State.setGrp
  try dsimp only
  repeat' first
    | with_reducible assumption
    | with_reducible exact Keeps.refl _
    | with_reducible apply State.swSet_keeps
    | with_reducible apply State.modSw_keeps
    | with_reducible refine Keeps.ite (fun _ => ?_) (fun _ => ?_)

theorem State.swWrite_keeps {sK s : State} (o : Nat) (v : BitVec 32) (hK : Keeps sK s) : Keeps sK (State.swWrite s o v) := by
  unfold State.swWrite
  try dsimp only
  repeat' first
    | with_reducible assumption
    | with_reducible exact Keeps.refl _
    | with_reducible apply State.swSet_keeps
    | with_reducible apply State.modSw_keeps
    | with_reducible apply State.setFdbCmd_keeps
    | with_reducible apply State.setGrp_keeps
    | with_reducible apply State.portWrite_keeps
    | with_reducible apply State.modPort_keeps
    | with_reducible refine Keeps.ite (fun _ => ?_) (fun _ => ?_)
    | split

theorem ntRead_keeps {sK s : State} (o : Nat) (hK : Keeps sK s) : Keeps sK (ntRead s o).2 := by
  unfold ntRead
  try dsimp only
  repeat' first
    | with_reducible assumption
    | with_reducible exact Keeps.refl _
    | with_reducible apply rowRead_keeps
    | with_reducible apply State.asCapable_keeps
    | with_reducible apply execNtOfs0Read_keeps
    | with_reducible apply execNtPhaseLoRead_keeps
    | with_reducible apply execNtNowNsRead_keeps
    | with_reducible apply execNtDomPhaseLoRead_keeps
    | with_reducible refine Keeps.iteSnd (fun _ => ?_) (fun _ => ?_)
    | with_reducible refine Keeps.ite (fun _ => ?_) (fun _ => ?_)
    | split

theorem State.ntWrite_keeps {sK s : State} (o : Nat) (v : BitVec 32) (hK : Keeps sK s) : Keeps sK (State.ntWrite s o v) := by
  unfold State.ntWrite
  try dsimp only
  repeat' first
    | with_reducible assumption
    | with_reducible exact Keeps.refl _
    | with_reducible apply State.ntSet_keeps
    | with_reducible apply State.setNtCtrl_keeps
    | with_reducible apply State.modNt_keeps
    | with_reducible apply irqWatch_keeps
    | with_reducible apply State.setNtDom_keeps
    | with_reducible refine Keeps.ite (fun _ => ?_) (fun _ => ?_)
    | split

theorem State.canWrite_keeps {sK s : State} (o : Nat) (v : BitVec 32) (hK : Keeps sK s) : Keeps sK (State.canWrite s o v) := by
  unfold State.canWrite
  try dsimp only
  repeat' first
    | with_reducible assumption
    | with_reducible exact Keeps.refl _
    | with_reducible apply State.setCanBase_keeps
    | with_reducible apply State.setCanCtrl_keeps
    | with_reducible apply State.setNbt_keeps
    | with_reducible apply State.setDbt_keeps
    | with_reducible apply State.modCan_keeps
    | with_reducible apply irqWatch_keeps
    | with_reducible apply rowState_keeps
    | with_reducible apply State.txDone_keeps
    | with_reducible apply execCanTxsetWrite_keeps
    | with_reducible apply execCanTxcancelWrite_keeps
    | with_reducible apply execCanRxnewWrite_keeps
    | with_reducible apply execCanInvalidWrite_keeps
    | with_reducible apply execCanCntClear_keeps
    | with_reducible refine Keeps.ite (fun _ => ?_) (fun _ => ?_)
    | split

theorem State.setPairCfg_keeps {sK s : State} (v : BitVec 32) (hK : Keeps sK s) : Keeps sK (State.setPairCfg s v) := by
  unfold State.setPairCfg
  try dsimp only
  repeat' first
    | with_reducible assumption
    | with_reducible exact Keeps.refl _
    | with_reducible apply State.prSet_keeps
    | with_reducible apply State.modPr_keeps
    | with_reducible apply State.setRole_keeps
    | with_reducible apply State.alvLow_keeps
    | with_reducible apply State.pllFollow_keeps
    | with_reducible refine Keeps.ite (fun _ => ?_) (fun _ => ?_)

theorem State.prWrite_keeps {sK s : State} (o : Nat) (v : BitVec 32) (hK : Keeps sK s) : Keeps sK (State.prWrite s o v) := by
  unfold State.prWrite
  try dsimp only
  repeat' first
    | with_reducible assumption
    | with_reducible exact Keeps.refl _
    | with_reducible apply State.setPairCfg_keeps
    | with_reducible apply State.setPairCtrl_keeps
    | with_reducible apply State.modPr_keeps
    | with_reducible apply irqWatch_keeps
    | with_reducible refine Keeps.ite (fun _ => ?_) (fun _ => ?_)

theorem State.wrWrite_keeps {sK s : State} (o : Nat) (v : BitVec 32) (hK : Keeps sK s) : Keeps sK (State.wrWrite s o v) := by
  unfold State.wrWrite
  try dsimp only
  repeat' first
    | with_reducible assumption
    | with_reducible exact Keeps.refl _
    | with_reducible apply rowState_keeps
    | with_reducible apply State.modWr_keeps
    | with_reducible apply execWrInsertWrite_keeps
    | with_reducible apply execWrCntCrcClear_keeps
    | with_reducible refine Keeps.ite (fun _ => ?_) (fun _ => ?_)

/-! ### Regs.lean -/

theorem regRead_keeps {sK s : State} (b : Fin 19) (o : Nat) (hK : Keeps sK s) : Keeps sK (regRead s b o).2 := by
  unfold regRead
  try dsimp only
  repeat' first
    | with_reducible assumption
    | with_reducible exact Keeps.refl _
    | with_reducible apply crRead_keeps
    | with_reducible apply chRead_keeps
    | with_reducible apply rdRead_keeps
    | with_reducible apply fbRead_keeps
    | with_reducible apply ceRead_keeps
    | with_reducible apply ntRead_keeps
    | with_reducible apply erRead_keeps
    | with_reducible apply hwRead_keeps
    | with_reducible refine Keeps.iteSnd (fun _ => ?_) (fun _ => ?_)
    | with_reducible refine Keeps.ite (fun _ => ?_) (fun _ => ?_)
    | split

theorem State.regWrite_treadle {s0 s : State} (b : Fin 19) (o : Nat) (v : BitVec 32) (h : Keeps s0 s) :
    Keeps s0 (s.regWrite .treadle b o v) := by
  unfold State.regWrite
  split
  · exact State.aonWrite_treadle o v h
  · exact State.crWrite_keeps o v h
  · exact State.hiWrite_keeps o v h
  · exact State.trWrite_keeps o v h
  · exact State.lmWrite_keeps o v h
  · exact State.chWrite_keeps o v h
  · exact State.rdWrite_keeps o v h
  · exact State.fbWrite_keeps o v h
  · exact State.ceWrite_keeps o v h
  · exact State.pgWrite_keeps o v h
  · exact State.swWrite_keeps o v h
  · exact State.ntWrite_keeps o v h
  · exact State.canWrite_keeps o v h
  · exact State.prWrite_keeps o v h
  · exact State.wrWrite_keeps o v h
  · exact State.erWriteReg_keeps o v h
  · exact State.hwWrite_keeps o v h
  · exact h

theorem State.regWrite_path (s : State) (path : Path) (b : Fin 19) (o : Nat) (v : BitVec 32) (hb : b ≠ 0) :
    s.regWrite path b o v = s.regWrite .treadle b o v := by
  unfold State.regWrite
  split <;> first | rfl | exact absurd rfl hb

theorem State.regWrite_cases (s : State) (path : Path) (b : Fin 19) (o : Nat) (v : BitVec 32) :
    Keeps s (s.regWrite path b o v) ∨ Restarts s (s.regWrite path b o v) := by
  by_cases hb : b = 0
  · subst hb; exact s.aonWrite_cases path o v
  · rw [s.regWrite_path path b o v hb]; exact Or.inl (State.regWrite_treadle b o v (Keeps.refl s))

theorem busRead_keeps {sK s : State} (path : Path) (a : BitVec 40) (hK : Keeps sK s) : Keeps sK (busRead s path a).2 := by
  unfold busRead
  try dsimp only
  repeat' first
    | with_reducible assumption
    | with_reducible exact Keeps.refl _
    | with_reducible apply regRead_keeps
    | with_reducible apply State.unavail_keeps
    | with_reducible refine Keeps.iteSnd (fun _ => ?_) (fun _ => ?_)
    | with_reducible refine Keeps.ite (fun _ => ?_) (fun _ => ?_)
    | split

theorem State.busPut_treadle {s0 s : State} (a : BitVec 40) (v : BitVec 32) (h : Keeps s0 s) : Keeps s0 (s.busPut .treadle a v) := by
  unfold State.busPut
  split
  · exact Keeps.ite (fun _ => State.regWrite_treadle _ _ v h) (fun _ => State.unavail_keeps _ _ _ h)
  · exact Keeps.ite (fun _ => Keeps.ite (fun _ => State.unavail_keeps _ _ _ h) (fun _ => State.wr32_keeps _ v h)) (fun _ => h)

theorem State.busPut_cases (s : State) (path : Path) (a : BitVec 40) (v : BitVec 32) :
    Keeps s (s.busPut path a v) ∨ Restarts s (s.busPut path a v) := by
  unfold State.busPut
  split
  · split
    · exact s.regWrite_cases path _ _ v
    · exact Or.inl (State.unavail_keeps _ _ _ (Keeps.refl s))
  · exact Or.inl (Keeps.ite (fun _ => Keeps.ite (fun _ => State.unavail_keeps _ _ _ (Keeps.refl s)) (fun _ => State.wr32_keeps _ v (Keeps.refl s)))
      (fun _ => Keeps.refl s))

theorem execRegisterWrite_keeps (path : Path) (addr : BitVec 40) (v : BitVec 32) (s : State) :
    KeepsOrRestarts s (execRegisterWrite path addr v s) :=
  KeepsOrRestarts.ite (fun _ => .of (s.busPut_cases path addr v)) (fun _ => .next (Keeps.refl s))

theorem execUnavailableRead_keeps (path : Path) (addr : BitVec 40) (s : State) : KeepsR s (execUnavailableRead path addr s) := by
  unfold execUnavailableRead
  try dsimp only
  repeat' first
    | with_reducible assumption
    | with_reducible exact Keeps.refl _
    | with_reducible refine KeepsR.next ?_
    | with_reducible refine KeepsR.ite (fun _ => ?_) (fun _ => ?_)
    | with_reducible apply busRead_keeps
    | with_reducible refine Keeps.ite (fun _ => ?_) (fun _ => ?_)
    | split
    | with_reducible refine Keeps.upd rfl rfl rfl ?_

theorem execHostMemoryWrite_keeps (addr : BitVec 40) (v : BitVec 32) (s : State) :
    KeepsOrRestarts s (execHostMemoryWrite addr v s) :=
  KeepsOrRestarts.ite (fun _ => .of (s.busPut_cases .bar2 addr v)) (fun _ => .next (Keeps.refl s))

theorem State.miso_keeps {sK s : State} (l : List Byte) (hK : Keeps sK s) : Keeps sK (State.miso s l) := by
  unfold State.miso
  try dsimp only
  repeat' first
    | with_reducible assumption
    | with_reducible exact Keeps.refl _
    | with_reducible refine Keeps.ite (fun _ => ?_) (fun _ => ?_)
    | split
    | with_reducible refine Keeps.upd rfl rfl rfl ?_
    | with_reducible refine Keeps.updOut rfl rfl rfl (List.suffix_cons _ _) ?_

theorem execSpiWrite_keeps (addr : BitVec 40) (v : BitVec 32) (s : State) : KeepsOrRestarts s (execSpiWrite addr v s) := by
  unfold execSpiWrite
  refine .ite (fun _ => .next (Keeps.refl s)) (fun _ => .ite (fun _ => ?_) (fun _ => .next (State.miso_keeps _ (Keeps.refl s))))
  rcases s.busPut_cases .spi addr v with h | h
  · exact .next (State.miso_keeps _ h)
  · exact .restart (Restarts.same h rfl rfl rfl rfl (List.suffix_cons _ _) rfl rfl)

theorem execSpiRead_keeps (addr : BitVec 40) (s : State) : KeepsR s (execSpiRead addr s) := by
  unfold execSpiRead
  try dsimp only
  repeat' first
    | with_reducible assumption
    | with_reducible exact Keeps.refl _
    | with_reducible refine KeepsR.next ?_
    | with_reducible refine KeepsR.ite (fun _ => ?_) (fun _ => ?_)
    | with_reducible apply busRead_keeps
    | with_reducible apply State.miso_keeps
    | with_reducible refine Keeps.ite (fun _ => ?_) (fun _ => ?_)
    | split
    | with_reducible refine Keeps.upd rfl rfl rfl ?_

theorem execSpiOtherCommand_keeps (cmd : BitVec 8) (s : State) : KeepsR s (execSpiOtherCommand cmd s) := by
  unfold execSpiOtherCommand
  try dsimp only
  repeat' first
    | with_reducible assumption
    | with_reducible exact Keeps.refl _
    | with_reducible refine KeepsR.next ?_
    | with_reducible refine KeepsR.ite (fun _ => ?_) (fun _ => ?_)
    | with_reducible apply State.miso_keeps

theorem execRegRd_keeps (f : Fin 16) (w : TWord) (s : State) : KeepsR s (execRegRd f w s) := by
  unfold execRegRd
  try dsimp only
  repeat' first
    | with_reducible assumption
    | with_reducible exact Keeps.refl _
    | with_reducible refine KeepsR.next ?_
    | with_reducible refine KeepsR.ite (fun _ => ?_) (fun _ => ?_)
    | with_reducible apply State.local__keeps
    | with_reducible apply busRead_keeps
    | with_reducible apply State.retireOk_keeps
    | with_reducible refine Keeps.ite (fun _ => ?_) (fun _ => ?_)
    | split
    | with_reducible refine Keeps.upd rfl rfl rfl ?_
    | (intro _; dsimp only)
    | intro _

theorem execRegWr_keeps (f : Fin 16) (w : TWord) (s : State) : KeepsR s (execRegWr f w s) := by
  unfold execRegWr
  refine KeepsR.next (State.local__keeps _ _ _ _ _ _ _ _ (fun t => State.busPut_treadle _ _ ?_) (Keeps.refl s))
  with_reducible apply State.retireOk_keeps
  refine Keeps.ite (fun _ => Keeps.same (Keeps.refl t) rfl rfl rfl rfl rfl rfl) (fun _ => Keeps.refl t)

/-! ### Replay.lean -/

theorem loggedExec_keeps (opc : BitVec 8) (fn : BitVec 4) (w : TWord) (s : State) : KeepsR s (loggedExec opc fn w s) := by
  unfold loggedExec
  split
  all_goals first
    | with_reducible exact KeepsR.next (Keeps.refl _)
    | with_reducible exact execArmDefine_keeps 0 w s
    | with_reducible exact execArmDisable_keeps 0 w s
    | with_reducible exact execArmEnable_keeps 0 w s
    | with_reducible exact execArmMove_keeps 0 w s
    | with_reducible exact execArmMpcOff_keeps 0 w s
    | with_reducible exact execArmMpcOn_keeps 0 w s
    | with_reducible exact execArmStop_keeps 0 w s
    | with_reducible exact execAxisClear_keeps 0 w s
    | with_reducible exact execAxisDisable_keeps 0 w s
    | with_reducible exact execAxisEnable_keeps 0 w s
    | with_reducible exact execAxisGear_keeps 0 w s
    | with_reducible exact execAxisHome_keeps 0 w s
    | with_reducible exact execAxisMove_keeps 0 w s
    | with_reducible exact execAxisParam_keeps 0 w s
    | with_reducible exact execAxisSetpos_keeps 0 w s
    | with_reducible exact execAxisStop_keeps 0 w s
    | with_reducible exact execDraftBind_keeps 0 w s
    | with_reducible exact execDraftLoad_keeps 0 w s
    | with_reducible exact execDraftUnload_keeps 0 w s
    | with_reducible exact execFbCompare_keeps 0 w s
    | with_reducible exact execFbMode_keeps 0 w s
    | with_reducible exact execFbUnarm_keeps 0 w s
    | with_reducible exact execLoopLoad_keeps 0 w s
    | with_reducible exact execLoopSwap_keeps 0 w s
    | with_reducible exact execQpParam_keeps 0 w s
    | with_reducible exact execQpSched_keeps 0 w s
    | with_reducible exact execQpStart_keeps 0 w s
    | with_reducible exact execQpStop_keeps 0 w s
    | with_reducible exact execSegLoad_keeps 0 w s
    | with_reducible exact execSegRun_keeps 0 w s
    | (split <;> first | exact execArmMpcOn_keeps 0 w s | exact execArmMpcOff_keeps 0 w s)

/-- A state in which an operation ran in another frame of time and flows, and got its own frame back. -/
theorem Keeps.framed {s u t v : State} (h : Keeps u t) (um : u.mem = s.mem) (up : u.pending = s.pending) (uo : u.out = s.out)
    (ub : u.boot = s.boot) (vm : v.mem = t.mem) (vp : v.pending = t.pending) (vo : v.out = t.out) (vb : v.boot = t.boot)
    (vt : v.tb = s.tb) : Keeps s v := by
  refine ⟨fun w => ?_, ?_, ?_, ?_, ⟨fun k q => ?_, ?_⟩⟩
  · rw [vm]; exact h.mem (um ▸ w)
  · rw [vt]
  · rw [vp, h.pending, up]
  · rw [vo, ← uo]; exact h.out
  · rw [vb]; exact h.otp.key k (ub ▸ q)
  · rw [vb, ← ub]; exact h.otp.svn

theorem outState_framed {s u : State} (r : Res) (h : KeepsR u r) (um : u.mem = s.mem) (up : u.pending = s.pending)
    (uo : u.out = s.out) (ub : u.boot = s.boot) :
    Keeps s { outState r s with tr := s.tr, cr := s.cr, hi.comp := s.hi.comp, pw := s.pw, pr.role := s.pr.role, tb := s.tb } := by
  cases h with
  | next h => exact Keeps.framed h um up uo ub rfl rfl rfl rfl rfl

/-- Setting parts other than these leaves these as they were. -/
theorem frameParts (s : State) (tr : Treadle) (hi : HostIf) (pw : Power) (pr : Pair) (tb : TimeBase) (u : State)
    (h : u = { s with tr := tr, hi := hi, pw := pw, pr := pr, tb := tb }) :
    u.mem = s.mem ∧ u.pending = s.pending ∧ u.out = s.out ∧ u.boot = s.boot := by
  subst h; exact ⟨rfl, rfl, rfl, rfl⟩

theorem State.logFrame_parts (s : State) : s.logFrame.mem = s.mem ∧ s.logFrame.pending = s.pending ∧ s.logFrame.out = s.out ∧
    s.logFrame.boot = s.boot := frameParts s _ _ _ _ _ _ (by unfold State.logFrame; with_reducible rfl)

theorem State.logApply_keeps {s0 s : State} (opc : BitVec 8) (fn : BitVec 4) (body : List (BitVec 32)) (h : Keeps s0 s) :
    Keeps s0 (s.logApply opc fn body) := by
  unfold State.logApply
  refine Keeps.ite (fun _ => State.busPut_treadle _ _ h) (fun _ => h.trans ?_)
  have hp := s.logFrame_parts
  generalize s.logFrame = u at hp ⊢
  exact outState_framed _ (loggedExec_keeps opc fn _ u) hp.1 hp.2.1 hp.2.2.1 hp.2.2.2

theorem State.logReplay_keeps {s0 : State} (n : Nat) (l : List (BitVec 32)) {s : State} (h : Keeps s0 s) :
    Keeps s0 (State.logReplay n l s) := by
  induction n generalizing s l with
  | zero => unfold State.logReplay; exact h
  | succ n ih =>
    unfold State.logReplay
    split
    · exact h
    · exact ih _ (State.logApply_keeps _ _ _ h)

/-! ### Adopt.lean -/

theorem State.adoptChannel_keeps {sK s : State} (w : List (BitVec 32)) (c : Fin 96) (hK : Keeps sK s) : Keeps sK (State.adoptChannel s w c) := by
  unfold State.adoptChannel
  try dsimp only
  repeat' first
    | with_reducible assumption
    | with_reducible exact Keeps.refl _
    | with_reducible apply State.modCh_keeps
    | with_reducible apply State.faultAxis_keeps
    | with_reducible refine Keeps.ite (fun _ => ?_) (fun _ => ?_)

theorem State.adoptLatches_keeps {sK s : State} (w : List (BitVec 32)) (hK : Keeps sK s) : Keeps sK (State.adoptLatches s w) := by
  unfold State.adoptLatches
  try dsimp only
  repeat' first
    | with_reducible assumption
    | with_reducible exact Keeps.refl _
    | with_reducible apply State.adoptChannel_keeps
    | with_reducible refine Keeps.ite (fun _ => ?_) (fun _ => ?_)
    | with_reducible refine Keeps.forEach (fun _ _ => ?_) ?_
    | split
    | with_reducible refine Keeps.upd rfl rfl rfl ?_

theorem State.adoptCopy_keeps {sK s : State} (c : CopySet) (hK : Keeps sK s) : Keeps sK (State.adoptCopy s c) := by
  unfold State.adoptCopy
  try dsimp only
  repeat' first
    | with_reducible assumption
    | with_reducible exact Keeps.refl _
    | with_reducible apply State.wrBytes_keeps
    | with_reducible refine Keeps.ite (fun _ => ?_) (fun _ => ?_)
    | with_reducible refine Keeps.forEach (fun _ _ => ?_) ?_
    | split
    | with_reducible refine Keeps.upd rfl rfl rfl ?_

theorem State.diverge_keeps {sK s : State} (k own other : BitVec 32) (hK : Keeps sK s) : Keeps sK (State.diverge s k own other) := by
  unfold State.diverge
  try dsimp only
  repeat' first
    | with_reducible assumption
    | with_reducible exact Keeps.refl _
    | with_reducible apply State.setRole_keeps
    | with_reducible apply State.emit_keeps
    | with_reducible apply State.prSet_keeps
    | with_reducible apply State.modPr_keeps
    | with_reducible apply State.dropSetpoints_keeps
    | with_reducible apply State.pairFaultFound_keeps

theorem State.streakUp_keeps {sK s : State}  (hK : Keeps sK s) : Keeps sK (State.streakUp s) := by
  unfold State.streakUp
  try dsimp only
  repeat' first
    | with_reducible assumption
    | with_reducible exact Keeps.refl _
    | with_reducible apply State.modPr_keeps
    | with_reducible apply State.setRole_keeps
    | with_reducible apply State.emit_keeps
    | with_reducible apply State.prSet_keeps
    | with_reducible apply State.pairClose_keeps
    | with_reducible refine Keeps.ite (fun _ => ?_) (fun _ => ?_)

theorem State.compareDigest_keeps {sK s : State} (w : List (BitVec 32)) (copied : Bool) (hK : Keeps sK s) : Keeps sK (State.compareDigest s w copied) := by
  unfold State.compareDigest
  try dsimp only
  repeat' first
    | with_reducible assumption
    | with_reducible exact Keeps.refl _
    | with_reducible apply State.diverge_keeps
    | with_reducible apply State.streakUp_keeps
    | with_reducible apply State.modPr_keeps
    | with_reducible refine Keeps.ite (fun _ => ?_) (fun _ => ?_)
    | split

theorem State.adoptPick_keeps {sK s : State} (w : List (BitVec 32)) (hK : Keeps sK s) : Keeps sK (State.adoptPick s w) := by
  unfold State.adoptPick
  try dsimp only
  repeat' first
    | with_reducible assumption
    | with_reducible exact Keeps.refl _
    | with_reducible apply State.adoptCopy_keeps
    | with_reducible apply State.logReplay_keeps
    | with_reducible apply State.adoptLatches_keeps
    | with_reducible apply State.compareDigest_keeps
    | with_reducible apply State.pickWork_keeps
    | with_reducible apply State.modPr_keeps
    | with_reducible refine Keeps.ite (fun _ => ?_) (fun _ => ?_)
    | split

theorem State.missPickRecord_keeps {sK s : State}  (hK : Keeps sK s) : Keeps sK (State.missPickRecord s) := by
  unfold State.missPickRecord
  try dsimp only
  repeat' first
    | with_reducible assumption
    | with_reducible exact Keeps.refl _
    | with_reducible apply State.modPr_keeps
    | with_reducible apply State.emit_keeps
    | with_reducible apply State.prSet_keeps
    | with_reducible apply State.takeFresh_keeps
    | with_reducible apply State.diverge_keeps
    | with_reducible apply State.pickWork_keeps
    | with_reducible refine Keeps.ite (fun _ => ?_) (fun _ => ?_)

theorem State.adoptLimit_keeps {sK s : State}  (hK : Keeps sK s) : Keeps sK (State.adoptLimit s) := by
  unfold State.adoptLimit
  try dsimp only
  repeat' first
    | with_reducible assumption
    | with_reducible exact Keeps.refl _
    | with_reducible apply State.reach_keeps
    | with_reducible apply State.missPickRecord_keeps
    | with_reducible refine Keeps.ite (fun _ => ?_) (fun _ => ?_)

theorem execAdoptLimitExpire_keeps  (s : State) : KeepsR s (execAdoptLimitExpire s) := by
  unfold execAdoptLimitExpire
  try dsimp only
  repeat' first
    | with_reducible assumption
    | with_reducible exact Keeps.refl _
    | with_reducible refine KeepsR.next ?_
    | with_reducible refine KeepsR.ite (fun _ => ?_) (fun _ => ?_)
    | with_reducible apply State.adoptLimit_keeps

theorem execInputRecordReceive_keeps (frames : List (List (BitVec 32))) (s : State) : KeepsR s (execInputRecordReceive frames s) := by
  unfold execInputRecordReceive
  try dsimp only
  repeat' first
    | with_reducible assumption
    | with_reducible exact Keeps.refl _
    | with_reducible refine KeepsR.next ?_
    | with_reducible refine KeepsR.ite (fun _ => ?_) (fun _ => ?_)
    | with_reducible apply State.pairBad_keeps
    | with_reducible apply State.adoptPick_keeps
    | with_reducible apply State.modPr_keeps
    | with_reducible refine Keeps.ite (fun _ => ?_) (fun _ => ?_)
    | split

theorem execStateCopySend_keeps  (s : State) : KeepsR s (execStateCopySend s) := by
  unfold execStateCopySend
  try dsimp only
  repeat' first
    | with_reducible assumption
    | with_reducible exact Keeps.refl _
    | with_reducible refine KeepsR.next ?_
    | with_reducible refine KeepsR.ite (fun _ => ?_) (fun _ => ?_)
    | with_reducible apply State.modPr_keeps
    | with_reducible refine Keeps.ite (fun _ => ?_) (fun _ => ?_)
    | split
    | with_reducible refine Keeps.upd rfl rfl rfl ?_
    | with_reducible refine Keeps.updOut rfl rfl rfl (List.suffix_cons _ _) ?_

theorem execStateCopyReceive_keeps (bad : Bool) (c : CopySet) (s : State) : KeepsR s (execStateCopyReceive bad c s) := by
  unfold execStateCopyReceive
  try dsimp only
  repeat' first
    | with_reducible assumption
    | with_reducible exact Keeps.refl _
    | with_reducible refine KeepsR.next ?_
    | with_reducible refine KeepsR.ite (fun _ => ?_) (fun _ => ?_)
    | with_reducible apply State.pairBad_keeps
    | with_reducible apply State.modPr_keeps

theorem State.cfgTake_keeps {sK s : State} (p : CfgPart) (hK : Keeps sK s) : Keeps sK (State.cfgTake s p) := by
  unfold State.cfgTake
  try dsimp only
  repeat' first
    | with_reducible assumption
    | with_reducible exact Keeps.refl _
    | with_reducible apply State.modCh_keeps
    | with_reducible apply State.modSlice_keeps
    | with_reducible apply State.modPax_keeps
    | with_reducible apply State.modArm_keeps
    | with_reducible apply State.modStl_keeps
    | with_reducible apply State.wrBytes_keeps
    | with_reducible apply State.modSlot_keeps
    | with_reducible apply State.modSw_keeps
    | with_reducible apply State.modTb_keeps
    | with_reducible apply State.modPr_keeps
    | with_reducible refine Keeps.ite (fun _ => ?_) (fun _ => ?_)
    | split
    | with_reducible refine Keeps.upd rfl rfl rfl ?_
    | (intro _; dsimp only)

theorem execConfigFrameReceive_keeps (bad : Bool) (block : BitVec 32) (last : Bool) (part : CfgPart) (s : State) : KeepsR s (execConfigFrameReceive bad block last part s) := by
  unfold execConfigFrameReceive
  try dsimp only
  repeat' first
    | with_reducible assumption
    | with_reducible exact Keeps.refl _
    | with_reducible refine KeepsR.next ?_
    | with_reducible refine KeepsR.ite (fun _ => ?_) (fun _ => ?_)
    | with_reducible apply State.pairBad_keeps
    | with_reducible apply State.cfgTake_keeps
    | with_reducible apply State.modPr_keeps
    | with_reducible apply syncAdvance_keeps
    | with_reducible refine Keeps.ite (fun _ => ?_) (fun _ => ?_)
    | split

/-! ### Ecc.lean -/

theorem State.eccRecord_keeps {sK s : State} (src : Nat) (hK : Keeps sK s) : Keeps sK (State.eccRecord s src) := by
  unfold State.eccRecord
  try dsimp only
  repeat' first
    | with_reducible assumption
    | with_reducible exact Keeps.refl _
    | with_reducible apply State.takeFresh_keeps
    | with_reducible apply State.emit_keeps

theorem State.eccFrame_keeps {sK s : State} (i : Fin 8) (j : Fin 3) (hK : Keeps sK s) : Keeps sK (State.eccFrame s i j) := by
  unfold State.eccFrame
  try dsimp only
  repeat' first
    | with_reducible assumption
    | with_reducible exact Keeps.refl _
    | with_reducible apply State.modSens_keeps
    | with_reducible apply State.freeSlot_keeps
    | with_reducible apply State.modRd_keeps

theorem State.eccCycle_keeps {sK s : State} (chB : Bool) (hK : Keeps sK s) : Keeps sK (State.eccCycle s chB) := by
  unfold State.eccCycle
  try dsimp only
  repeat' first
    | with_reducible assumption
    | with_reducible exact Keeps.refl _
    | with_reducible apply State.modRd_keeps

theorem State.eccSolve_keeps {sK s : State}  (hK : Keeps sK s) : Keeps sK (State.eccSolve s) := by
  unfold State.eccSolve
  try dsimp only
  repeat' first
    | with_reducible assumption
    | with_reducible exact Keeps.refl _
    | with_reducible apply State.takeFresh_keeps
    | with_reducible apply State.qpCount_keeps
    | with_reducible apply State.lastSolve_keeps
    | with_reducible apply State.emit_keeps
    | with_reducible apply State.modQp_keeps
    | with_reducible apply State.eccRecord_keeps
    | with_reducible apply State.freeNorms_keeps
    | with_reducible apply State.wrBytes_keeps
    | with_reducible apply State.opDone_keeps
    | with_reducible apply State.nextJob_keeps
    | with_reducible refine Keeps.ite (fun _ => ?_) (fun _ => ?_)
    | split

theorem State.eccLoom_keeps {sK s : State}  (hK : Keeps sK s) : Keeps sK (State.eccLoom s) := by
  unfold State.eccLoom
  try dsimp only
  repeat' first
    | with_reducible assumption
    | with_reducible exact Keeps.refl _
    | with_reducible apply State.takeFresh_keeps
    | with_reducible apply State.emit_keeps
    | with_reducible apply State.doubleFault_keeps
    | with_reducible apply State.pairCtl_keeps
    | with_reducible apply State.enterSafeHold_keeps
    | with_reducible apply State.pairMute_keeps
    | with_reducible refine Keeps.ite (fun _ => ?_) (fun _ => ?_)
    | split

theorem State.eccCan_keeps {sK s : State} (n : Fin 4) (j : Fin 128) (hK : Keeps sK s) : Keeps sK (State.eccCan s n j) := by
  unfold State.eccCan
  try dsimp only
  repeat' first
    | with_reducible assumption
    | with_reducible exact Keeps.refl _
    | with_reducible apply State.modCan_keeps
    | with_reducible apply State.canSet_keeps

theorem State.eccTx_keeps {sK s : State} (p c : Fin 8) (i : Nat) (hK : Keeps sK s) : Keeps sK (State.eccTx s p c i) := by
  unfold State.eccTx
  try dsimp only
  repeat' first
    | with_reducible assumption
    | with_reducible exact Keeps.refl _
    | with_reducible apply State.modPort_keeps
    | with_reducible apply State.ptCount_keeps
    | with_reducible apply State.frameGone_keeps
    | with_reducible refine Keeps.ite (fun _ => ?_) (fun _ => ?_)
    | split

theorem State.eccInstr_keeps {sK s : State} (f : Fin 16) (opc : BitVec 8) (fn : BitVec 4) (w : TWord) (hK : Keeps sK s) : Keeps sK (State.eccInstr s f opc fn w) := by
  unfold State.eccInstr
  try dsimp only
  repeat' first
    | with_reducible assumption
    | with_reducible exact Keeps.refl _
    | with_reducible apply State.eccRecord_keeps
    | with_reducible apply State.take_keeps
    | with_reducible apply State.stopFlow_keeps
    | with_reducible apply State.modFlow_keeps
    | with_reducible refine Keeps.ite (fun _ => ?_) (fun _ => ?_)
    | split
    | with_reducible refine Keeps.upd rfl rfl rfl ?_
    | (intro _; dsimp only)
    | intro _

theorem State.eccRing_keeps {sK s : State} (a : Nat) (hK : Keeps sK s) : Keeps sK (State.eccRing s a) := by
  unfold State.eccRing
  try dsimp only
  repeat' first
    | with_reducible assumption
    | with_reducible exact Keeps.refl _
    | with_reducible refine Keeps.ite (fun _ => ?_) (fun _ => ?_)
    | split
    | with_reducible refine Keeps.upd rfl rfl rfl ?_
    | with_reducible refine Keeps.updMem rfl rfl rfl (fun hw => ringPut_wf _ _ _ _ _ hw) ?_

theorem State.eccSelvedge_keeps {sK s : State} (a : Nat) (hK : Keeps sK s) : Keeps sK (State.eccSelvedge s a) := by
  unfold State.eccSelvedge
  try dsimp only
  repeat' first
    | with_reducible assumption
    | with_reducible exact Keeps.refl _
    | with_reducible apply State.svRec_keeps
    | with_reducible apply State.svFault_keeps
    | with_reducible refine Keeps.ite (fun _ => ?_) (fun _ => ?_)

theorem State.eccEffect_keeps {sK s : State} (a : Nat) (w : MemWord) (hK : Keeps sK s) : Keeps sK (State.eccEffect s a w) := by
  unfold State.eccEffect
  try dsimp only
  repeat' first
    | with_reducible assumption
    | with_reducible exact Keeps.refl _
    | with_reducible apply State.eccFrame_keeps
    | with_reducible apply State.eccRecord_keeps
    | with_reducible apply State.eccCycle_keeps
    | with_reducible apply State.eccSolve_keeps
    | with_reducible apply State.modQp_keeps
    | with_reducible apply State.eccLoom_keeps
    | with_reducible apply State.completeNode_keeps
    | with_reducible apply State.faultAxis_keeps
    | with_reducible apply State.eccCan_keeps
    | with_reducible apply State.eccTx_keeps
    | with_reducible apply State.eccInstr_keeps
    | with_reducible apply State.eccRing_keeps
    | with_reducible apply State.eccSelvedge_keeps
    | with_reducible refine Keeps.ite (fun _ => ?_) (fun _ => ?_)
    | split

theorem execEccUncorrectable_keeps (a : BitVec 40) (w : MemWord) (s : State) : KeepsR s (execEccUncorrectable a w s) := by
  unfold execEccUncorrectable
  try dsimp only
  repeat' first
    | with_reducible assumption
    | with_reducible exact Keeps.refl _
    | with_reducible refine KeepsR.next ?_
    | with_reducible refine KeepsR.ite (fun _ => ?_) (fun _ => ?_)
    | with_reducible apply State.eccEffect_keeps
    | with_reducible refine Keeps.ite (fun _ => ?_) (fun _ => ?_)
    | split
    | with_reducible refine Keeps.upd rfl rfl rfl ?_

/-! ### Pick.lean -/

theorem State.runPick_keeps {sK s : State}  (hK : Keeps sK s) : Keeps sK (State.runPick s) := by
  unfold State.runPick
  try dsimp only
  repeat' first
    | with_reducible assumption
    | with_reducible exact Keeps.refl _
    | with_reducible apply State.modPr_keeps
    | with_reducible apply State.adoptPick_keeps
    | with_reducible apply State.pickWork_keeps
    | with_reducible refine Keeps.ite (fun _ => ?_) (fun _ => ?_)
    | split

theorem execPickInstant_keeps  (s : State) : KeepsR s (execPickInstant s) := by
  unfold execPickInstant
  try dsimp only
  repeat' first
    | with_reducible assumption
    | with_reducible exact Keeps.refl _
    | with_reducible refine KeepsR.next ?_
    | with_reducible refine KeepsR.ite (fun _ => ?_) (fun _ => ?_)
    | with_reducible apply State.startPick_keeps
    | with_reducible apply State.runPick_keeps
    | with_reducible apply State.adoptLimit_keeps

end Sys2Proof.Machine
end

