-- ==== Sys2Proof/Laws/Keeps9.lean ====
section
/-! SUPPORT. Each operation and each command of the files TreadleLocal.lean keeps the relation `Keeps`: memory stays in
canonical form, cell time does not fall, and the queue, what has left the chip and the one-time-programmable memory stand. -/
namespace Sys2Proof.Machine

/-! ### TreadleLocal.lean -/

theorem execNop_keeps (f : Fin 16) (w : TWord) (s : State) : KeepsR s (execNop f w s) := by
  unfold execNop
  try dsimp only
  repeat' first
    | with_reducible assumption
    | with_reducible exact Keeps.refl _
    | with_reducible refine KeepsR.next ?_
    | with_reducible refine KeepsR.ite (fun _ => ?_) (fun _ => ?_)
    | with_reducible apply State.local__keeps
    | with_reducible apply State.retireOk_keeps
    | with_reducible refine Keeps.ite (fun _ => ?_) (fun _ => ?_)
    | split
    | with_reducible refine Keeps.upd rfl rfl rfl ?_
    | (intro _; dsimp only)
    | intro _

theorem execEndProg_keeps (f : Fin 16) (w : TWord) (s : State) : KeepsR s (execEndProg f w s) := by
  unfold execEndProg
  try dsimp only
  repeat' first
    | with_reducible assumption
    | with_reducible exact Keeps.refl _
    | with_reducible refine KeepsR.next ?_
    | with_reducible refine KeepsR.ite (fun _ => ?_) (fun _ => ?_)
    | with_reducible apply State.local__keeps
    | with_reducible apply State.modFlow_keeps
    | with_reducible refine Keeps.ite (fun _ => ?_) (fun _ => ?_)
    | split
    | with_reducible refine Keeps.upd rfl rfl rfl ?_
    | (intro _; dsimp only)
    | intro _

theorem State.branchTo_keeps {sK s : State} (f : Fin 16) (w : TWord) (t : Nat) (result : W64) (g : FlowS → FlowS) (hK : Keeps sK s) : Keeps sK (State.branchTo s f w t result g) := by
  unfold State.branchTo
  try dsimp only
  repeat' first
    | with_reducible assumption
    | with_reducible exact Keeps.refl _
    | with_reducible apply State.modFlow_keeps

theorem relBranch_keeps {sK s : State} (f : Fin 16) (fn : BitVec 4) (w : TWord) (bad : Bool) (take : FlowS → Bool) (hK : Keeps sK s) : Keeps sK (relBranch f fn w bad take s) := by
  unfold relBranch
  try dsimp only
  repeat' first
    | with_reducible assumption
    | with_reducible exact Keeps.refl _
    | with_reducible apply State.local__keeps
    | with_reducible apply State.take_keeps
    | with_reducible apply State.branchTo_keeps
    | with_reducible apply State.retireOk_keeps
    | with_reducible refine Keeps.ite (fun _ => ?_) (fun _ => ?_)
    | split
    | with_reducible refine Keeps.upd rfl rfl rfl ?_
    | (intro _; dsimp only)
    | intro _

theorem execBr_keeps (f : Fin 16) (w : TWord) (s : State) : KeepsR s (execBr f w s) := by
  unfold execBr
  try dsimp only
  repeat' first
    | with_reducible assumption
    | with_reducible exact Keeps.refl _
    | with_reducible refine KeepsR.next ?_
    | with_reducible refine KeepsR.ite (fun _ => ?_) (fun _ => ?_)
    | with_reducible apply relBranch_keeps

theorem execBrT_keeps (f : Fin 16) (w : TWord) (s : State) : KeepsR s (execBrT f w s) := by
  unfold execBrT
  try dsimp only
  repeat' first
    | with_reducible assumption
    | with_reducible exact Keeps.refl _
    | with_reducible refine KeepsR.next ?_
    | with_reducible refine KeepsR.ite (fun _ => ?_) (fun _ => ?_)
    | with_reducible apply relBranch_keeps

theorem execBrF_keeps (f : Fin 16) (w : TWord) (s : State) : KeepsR s (execBrF f w s) := by
  unfold execBrF
  try dsimp only
  repeat' first
    | with_reducible assumption
    | with_reducible exact Keeps.refl _
    | with_reducible refine KeepsR.next ?_
    | with_reducible refine KeepsR.ite (fun _ => ?_) (fun _ => ?_)
    | with_reducible apply relBranch_keeps

theorem execBrLink_keeps (f : Fin 16) (w : TWord) (s : State) : KeepsR s (execBrLink f w s) := by
  unfold execBrLink
  try dsimp only
  repeat' first
    | with_reducible assumption
    | with_reducible exact Keeps.refl _
    | with_reducible refine KeepsR.next ?_
    | with_reducible refine KeepsR.ite (fun _ => ?_) (fun _ => ?_)
    | with_reducible apply State.local__keeps
    | with_reducible apply State.branchTo_keeps
    | with_reducible refine Keeps.ite (fun _ => ?_) (fun _ => ?_)
    | split
    | with_reducible refine Keeps.upd rfl rfl rfl ?_
    | (intro _; dsimp only)
    | intro _

theorem execBrReg_keeps (f : Fin 16) (w : TWord) (s : State) : KeepsR s (execBrReg f w s) := by
  unfold execBrReg
  try dsimp only
  repeat' first
    | with_reducible assumption
    | with_reducible exact Keeps.refl _
    | with_reducible refine KeepsR.next ?_
    | with_reducible refine KeepsR.ite (fun _ => ?_) (fun _ => ?_)
    | with_reducible apply State.local__keeps
    | with_reducible apply State.branchTo_keeps
    | with_reducible refine Keeps.ite (fun _ => ?_) (fun _ => ?_)
    | split
    | with_reducible refine Keeps.upd rfl rfl rfl ?_
    | (intro _; dsimp only)
    | intro _

theorem State.beginWait_keeps {sK s : State} (f : Fin 16) (w : TWord) (c : WaitCond) (hK : Keeps sK s) : Keeps sK (State.beginWait s f w c) := by
  unfold State.beginWait
  try dsimp only
  repeat' first
    | with_reducible assumption
    | with_reducible exact Keeps.refl _
    | with_reducible apply State.modFlow_keeps

theorem execWaitPick_keeps (f : Fin 16) (w : TWord) (s : State) : KeepsR s (execWaitPick f w s) := by
  unfold execWaitPick
  try dsimp only
  repeat' first
    | with_reducible assumption
    | with_reducible exact Keeps.refl _
    | with_reducible refine KeepsR.next ?_
    | with_reducible refine KeepsR.ite (fun _ => ?_) (fun _ => ?_)
    | with_reducible apply State.local__keeps
    | with_reducible apply State.beginWait_keeps
    | with_reducible apply State.retireOk_keeps
    | with_reducible refine Keeps.ite (fun _ => ?_) (fun _ => ?_)
    | split
    | with_reducible refine Keeps.upd rfl rfl rfl ?_
    | (intro _; dsimp only)
    | intro _

theorem execWaitBeat_keeps (f : Fin 16) (w : TWord) (s : State) : KeepsR s (execWaitBeat f w s) := by
  unfold execWaitBeat
  try dsimp only
  repeat' first
    | with_reducible assumption
    | with_reducible exact Keeps.refl _
    | with_reducible refine KeepsR.next ?_
    | with_reducible refine KeepsR.ite (fun _ => ?_) (fun _ => ?_)
    | with_reducible apply State.local__keeps
    | with_reducible apply State.retireOk_keeps
    | with_reducible apply State.beginWait_keeps
    | with_reducible refine Keeps.ite (fun _ => ?_) (fun _ => ?_)
    | split
    | with_reducible refine Keeps.upd rfl rfl rfl ?_
    | (intro _; dsimp only)
    | intro _

theorem execWaitTime_keeps (f : Fin 16) (w : TWord) (s : State) : KeepsR s (execWaitTime f w s) := by
  unfold execWaitTime
  try dsimp only
  repeat' first
    | with_reducible assumption
    | with_reducible exact Keeps.refl _
    | with_reducible refine KeepsR.next ?_
    | with_reducible refine KeepsR.ite (fun _ => ?_) (fun _ => ?_)
    | with_reducible apply State.local__keeps
    | with_reducible apply State.retireOk_keeps
    | with_reducible apply State.beginWait_keeps
    | with_reducible refine Keeps.ite (fun _ => ?_) (fun _ => ?_)
    | split
    | with_reducible refine Keeps.upd rfl rfl rfl ?_
    | (intro _; dsimp only)
    | intro _

theorem execWaitOps_keeps (f : Fin 16) (w : TWord) (s : State) : KeepsR s (execWaitOps f w s) := by
  unfold execWaitOps
  try dsimp only
  repeat' first
    | with_reducible assumption
    | with_reducible exact Keeps.refl _
    | with_reducible refine KeepsR.next ?_
    | with_reducible refine KeepsR.ite (fun _ => ?_) (fun _ => ?_)
    | with_reducible apply State.local__keeps
    | with_reducible apply State.retireOk_keeps
    | with_reducible apply State.beginWait_keeps
    | with_reducible refine Keeps.ite (fun _ => ?_) (fun _ => ?_)
    | split
    | with_reducible refine Keeps.upd rfl rfl rfl ?_
    | (intro _; dsimp only)
    | intro _

theorem execWaitAxis_keeps (f : Fin 16) (w : TWord) (s : State) : KeepsR s (execWaitAxis f w s) := by
  unfold execWaitAxis
  try dsimp only
  repeat' first
    | with_reducible assumption
    | with_reducible exact Keeps.refl _
    | with_reducible refine KeepsR.next ?_
    | with_reducible refine KeepsR.ite (fun _ => ?_) (fun _ => ?_)
    | with_reducible apply State.local__keeps
    | with_reducible apply State.retireOk_keeps
    | with_reducible apply State.beginWait_keeps
    | with_reducible refine Keeps.ite (fun _ => ?_) (fun _ => ?_)
    | split
    | with_reducible refine Keeps.upd rfl rfl rfl ?_
    | (intro _; dsimp only)
    | intro _

theorem execWaitComplete_keeps (f : Fin 16) (s : State) : KeepsR s (execWaitComplete f s) := by
  unfold execWaitComplete
  try dsimp only
  repeat' first
    | with_reducible assumption
    | with_reducible exact Keeps.refl _
    | with_reducible refine KeepsR.next ?_
    | with_reducible refine KeepsR.ite (fun _ => ?_) (fun _ => ?_)
    | with_reducible apply State.coreClock_keeps
    | with_reducible apply State.modFlow_keeps
    | with_reducible refine Keeps.ite (fun _ => ?_) (fun _ => ?_)
    | split

theorem State.abortPickWaits_keeps {sK s : State}  (hK : Keeps sK s) : Keeps sK (State.abortPickWaits s) := by
  unfold State.abortPickWaits
  try dsimp only
  repeat' first
    | with_reducible assumption
    | with_reducible exact Keeps.refl _
    | with_reducible apply State.modFlow_keeps
    | with_reducible refine Keeps.ite (fun _ => ?_) (fun _ => ?_)
    | with_reducible refine Keeps.forEach (fun _ _ => ?_) ?_
    | split

theorem execFlowResume_keeps (f : Fin 16) (w : TWord) (s : State) : KeepsR s (execFlowResume f w s) := by
  unfold execFlowResume
  try dsimp only
  repeat' first
    | with_reducible assumption
    | with_reducible exact Keeps.refl _
    | with_reducible refine KeepsR.next ?_
    | with_reducible refine KeepsR.ite (fun _ => ?_) (fun _ => ?_)
    | with_reducible apply State.local__keeps
    | with_reducible apply State.emit_keeps
    | with_reducible apply State.modFlow_keeps
    | with_reducible apply State.retireOk_keeps
    | with_reducible refine Keeps.ite (fun _ => ?_) (fun _ => ?_)
    | split
    | with_reducible refine Keeps.upd rfl rfl rfl ?_
    | (intro _; dsimp only)
    | intro _

theorem execFlowState_keeps (f : Fin 16) (w : TWord) (s : State) : KeepsR s (execFlowState f w s) := by
  unfold execFlowState
  try dsimp only
  repeat' first
    | with_reducible assumption
    | with_reducible exact Keeps.refl _
    | with_reducible refine KeepsR.next ?_
    | with_reducible refine KeepsR.ite (fun _ => ?_) (fun _ => ?_)
    | with_reducible apply State.local__keeps
    | with_reducible apply State.retireOk_keeps
    | with_reducible refine Keeps.ite (fun _ => ?_) (fun _ => ?_)
    | split
    | with_reducible refine Keeps.upd rfl rfl rfl ?_
    | (intro _; dsimp only)
    | intro _

theorem execFlowAbort_keeps (f : Fin 16) (w : TWord) (s : State) : KeepsR s (execFlowAbort f w s) := by
  unfold execFlowAbort
  try dsimp only
  repeat' first
    | with_reducible assumption
    | with_reducible exact Keeps.refl _
    | with_reducible refine KeepsR.next ?_
    | with_reducible refine KeepsR.ite (fun _ => ?_) (fun _ => ?_)
    | with_reducible apply State.local__keeps
    | with_reducible apply State.emit_keeps
    | with_reducible apply State.modFlow_keeps
    | with_reducible apply State.retireOk_keeps
    | with_reducible refine Keeps.ite (fun _ => ?_) (fun _ => ?_)
    | split
    | with_reducible refine Keeps.upd rfl rfl rfl ?_
    | (intro _; dsimp only)
    | intro _

theorem aluReg_keeps {sK s : State} (op : AluOp) (f : Fin 16) (w : TWord) (hK : Keeps sK s) : Keeps sK (aluReg op f w s) := by
  unfold aluReg
  try dsimp only
  repeat' first
    | with_reducible assumption
    | with_reducible exact Keeps.refl _
    | with_reducible apply State.local__keeps
    | with_reducible apply State.retireOk_keeps
    | with_reducible refine Keeps.ite (fun _ => ?_) (fun _ => ?_)
    | split
    | with_reducible refine Keeps.upd rfl rfl rfl ?_
    | (intro _; dsimp only)
    | intro _

theorem aluImm_keeps {sK s : State} (op : AluOp) (f : Fin 16) (w : TWord) (hK : Keeps sK s) : Keeps sK (aluImm op f w s) := by
  unfold aluImm
  try dsimp only
  repeat' first
    | with_reducible assumption
    | with_reducible exact Keeps.refl _
    | with_reducible apply State.local__keeps
    | with_reducible apply State.retireOk_keeps
    | with_reducible refine Keeps.ite (fun _ => ?_) (fun _ => ?_)
    | split
    | with_reducible refine Keeps.upd rfl rfl rfl ?_
    | (intro _; dsimp only)
    | intro _

theorem cmpReg_keeps {sK s : State} (c : Cond) (f : Fin 16) (w : TWord) (hK : Keeps sK s) : Keeps sK (cmpReg c f w s) := by
  unfold cmpReg
  try dsimp only
  repeat' first
    | with_reducible assumption
    | with_reducible exact Keeps.refl _
    | with_reducible apply State.local__keeps
    | with_reducible apply State.retireOk_keeps
    | with_reducible refine Keeps.ite (fun _ => ?_) (fun _ => ?_)
    | split
    | with_reducible refine Keeps.upd rfl rfl rfl ?_
    | (intro _; dsimp only)
    | intro _

theorem cmpImm_keeps {sK s : State} (c : Cond) (f : Fin 16) (w : TWord) (hK : Keeps sK s) : Keeps sK (cmpImm c f w s) := by
  unfold cmpImm
  try dsimp only
  repeat' first
    | with_reducible assumption
    | with_reducible exact Keeps.refl _
    | with_reducible apply State.local__keeps
    | with_reducible apply State.retireOk_keeps
    | with_reducible refine Keeps.ite (fun _ => ?_) (fun _ => ?_)
    | split
    | with_reducible refine Keeps.upd rfl rfl rfl ?_
    | (intro _; dsimp only)
    | intro _

theorem execAdd_keeps (f : Fin 16) (w : TWord) (s : State) : KeepsR s (execAdd f w s) := by
  unfold execAdd
  try dsimp only
  repeat' first
    | with_reducible assumption
    | with_reducible exact Keeps.refl _
    | with_reducible refine KeepsR.next ?_
    | with_reducible refine KeepsR.ite (fun _ => ?_) (fun _ => ?_)
    | with_reducible apply aluReg_keeps

theorem execSub_keeps (f : Fin 16) (w : TWord) (s : State) : KeepsR s (execSub f w s) := by
  unfold execSub
  try dsimp only
  repeat' first
    | with_reducible assumption
    | with_reducible exact Keeps.refl _
    | with_reducible refine KeepsR.next ?_
    | with_reducible refine KeepsR.ite (fun _ => ?_) (fun _ => ?_)
    | with_reducible apply aluReg_keeps

theorem execAnd_keeps (f : Fin 16) (w : TWord) (s : State) : KeepsR s (execAnd f w s) := by
  unfold execAnd
  try dsimp only
  repeat' first
    | with_reducible assumption
    | with_reducible exact Keeps.refl _
    | with_reducible refine KeepsR.next ?_
    | with_reducible refine KeepsR.ite (fun _ => ?_) (fun _ => ?_)
    | with_reducible apply aluReg_keeps

theorem execOr_keeps (f : Fin 16) (w : TWord) (s : State) : KeepsR s (execOr f w s) := by
  unfold execOr
  try dsimp only
  repeat' first
    | with_reducible assumption
    | with_reducible exact Keeps.refl _
    | with_reducible refine KeepsR.next ?_
    | with_reducible refine KeepsR.ite (fun _ => ?_) (fun _ => ?_)
    | with_reducible apply aluReg_keeps

theorem execXor_keeps (f : Fin 16) (w : TWord) (s : State) : KeepsR s (execXor f w s) := by
  unfold execXor
  try dsimp only
  repeat' first
    | with_reducible assumption
    | with_reducible exact Keeps.refl _
    | with_reducible refine KeepsR.next ?_
    | with_reducible refine KeepsR.ite (fun _ => ?_) (fun _ => ?_)
    | with_reducible apply aluReg_keeps

theorem execShl_keeps (f : Fin 16) (w : TWord) (s : State) : KeepsR s (execShl f w s) := by
  unfold execShl
  try dsimp only
  repeat' first
    | with_reducible assumption
    | with_reducible exact Keeps.refl _
    | with_reducible refine KeepsR.next ?_
    | with_reducible refine KeepsR.ite (fun _ => ?_) (fun _ => ?_)
    | with_reducible apply aluReg_keeps

theorem execShr_keeps (f : Fin 16) (w : TWord) (s : State) : KeepsR s (execShr f w s) := by
  unfold execShr
  try dsimp only
  repeat' first
    | with_reducible assumption
    | with_reducible exact Keeps.refl _
    | with_reducible refine KeepsR.next ?_
    | with_reducible refine KeepsR.ite (fun _ => ?_) (fun _ => ?_)
    | with_reducible apply aluReg_keeps

theorem execSar_keeps (f : Fin 16) (w : TWord) (s : State) : KeepsR s (execSar f w s) := by
  unfold execSar
  try dsimp only
  repeat' first
    | with_reducible assumption
    | with_reducible exact Keeps.refl _
    | with_reducible refine KeepsR.next ?_
    | with_reducible refine KeepsR.ite (fun _ => ?_) (fun _ => ?_)
    | with_reducible apply aluReg_keeps

theorem execMul_keeps (f : Fin 16) (w : TWord) (s : State) : KeepsR s (execMul f w s) := by
  unfold execMul
  try dsimp only
  repeat' first
    | with_reducible assumption
    | with_reducible exact Keeps.refl _
    | with_reducible refine KeepsR.next ?_
    | with_reducible refine KeepsR.ite (fun _ => ?_) (fun _ => ?_)
    | with_reducible apply aluReg_keeps

theorem execMin_keeps (f : Fin 16) (w : TWord) (s : State) : KeepsR s (execMin f w s) := by
  unfold execMin
  try dsimp only
  repeat' first
    | with_reducible assumption
    | with_reducible exact Keeps.refl _
    | with_reducible refine KeepsR.next ?_
    | with_reducible refine KeepsR.ite (fun _ => ?_) (fun _ => ?_)
    | with_reducible apply aluReg_keeps

theorem execMax_keeps (f : Fin 16) (w : TWord) (s : State) : KeepsR s (execMax f w s) := by
  unfold execMax
  try dsimp only
  repeat' first
    | with_reducible assumption
    | with_reducible exact Keeps.refl _
    | with_reducible refine KeepsR.next ?_
    | with_reducible refine KeepsR.ite (fun _ => ?_) (fun _ => ?_)
    | with_reducible apply aluReg_keeps

theorem execAddi_keeps (f : Fin 16) (w : TWord) (s : State) : KeepsR s (execAddi f w s) := by
  unfold execAddi
  try dsimp only
  repeat' first
    | with_reducible assumption
    | with_reducible exact Keeps.refl _
    | with_reducible refine KeepsR.next ?_
    | with_reducible refine KeepsR.ite (fun _ => ?_) (fun _ => ?_)
    | with_reducible apply aluImm_keeps

theorem execSubi_keeps (f : Fin 16) (w : TWord) (s : State) : KeepsR s (execSubi f w s) := by
  unfold execSubi
  try dsimp only
  repeat' first
    | with_reducible assumption
    | with_reducible exact Keeps.refl _
    | with_reducible refine KeepsR.next ?_
    | with_reducible refine KeepsR.ite (fun _ => ?_) (fun _ => ?_)
    | with_reducible apply aluImm_keeps

theorem execAndi_keeps (f : Fin 16) (w : TWord) (s : State) : KeepsR s (execAndi f w s) := by
  unfold execAndi
  try dsimp only
  repeat' first
    | with_reducible assumption
    | with_reducible exact Keeps.refl _
    | with_reducible refine KeepsR.next ?_
    | with_reducible refine KeepsR.ite (fun _ => ?_) (fun _ => ?_)
    | with_reducible apply aluImm_keeps

theorem execOri_keeps (f : Fin 16) (w : TWord) (s : State) : KeepsR s (execOri f w s) := by
  unfold execOri
  try dsimp only
  repeat' first
    | with_reducible assumption
    | with_reducible exact Keeps.refl _
    | with_reducible refine KeepsR.next ?_
    | with_reducible refine KeepsR.ite (fun _ => ?_) (fun _ => ?_)
    | with_reducible apply aluImm_keeps

theorem execXori_keeps (f : Fin 16) (w : TWord) (s : State) : KeepsR s (execXori f w s) := by
  unfold execXori
  try dsimp only
  repeat' first
    | with_reducible assumption
    | with_reducible exact Keeps.refl _
    | with_reducible refine KeepsR.next ?_
    | with_reducible refine KeepsR.ite (fun _ => ?_) (fun _ => ?_)
    | with_reducible apply aluImm_keeps

theorem execShli_keeps (f : Fin 16) (w : TWord) (s : State) : KeepsR s (execShli f w s) := by
  unfold execShli
  try dsimp only
  repeat' first
    | with_reducible assumption
    | with_reducible exact Keeps.refl _
    | with_reducible refine KeepsR.next ?_
    | with_reducible refine KeepsR.ite (fun _ => ?_) (fun _ => ?_)
    | with_reducible apply aluImm_keeps

theorem execShri_keeps (f : Fin 16) (w : TWord) (s : State) : KeepsR s (execShri f w s) := by
  unfold execShri
  try dsimp only
  repeat' first
    | with_reducible assumption
    | with_reducible exact Keeps.refl _
    | with_reducible refine KeepsR.next ?_
    | with_reducible refine KeepsR.ite (fun _ => ?_) (fun _ => ?_)
    | with_reducible apply aluImm_keeps

theorem execSari_keeps (f : Fin 16) (w : TWord) (s : State) : KeepsR s (execSari f w s) := by
  unfold execSari
  try dsimp only
  repeat' first
    | with_reducible assumption
    | with_reducible exact Keeps.refl _
    | with_reducible refine KeepsR.next ?_
    | with_reducible refine KeepsR.ite (fun _ => ?_) (fun _ => ?_)
    | with_reducible apply aluImm_keeps

theorem execMuli_keeps (f : Fin 16) (w : TWord) (s : State) : KeepsR s (execMuli f w s) := by
  unfold execMuli
  try dsimp only
  repeat' first
    | with_reducible assumption
    | with_reducible exact Keeps.refl _
    | with_reducible refine KeepsR.next ?_
    | with_reducible refine KeepsR.ite (fun _ => ?_) (fun _ => ?_)
    | with_reducible apply aluImm_keeps

theorem execMini_keeps (f : Fin 16) (w : TWord) (s : State) : KeepsR s (execMini f w s) := by
  unfold execMini
  try dsimp only
  repeat' first
    | with_reducible assumption
    | with_reducible exact Keeps.refl _
    | with_reducible refine KeepsR.next ?_
    | with_reducible refine KeepsR.ite (fun _ => ?_) (fun _ => ?_)
    | with_reducible apply aluImm_keeps

theorem execMaxi_keeps (f : Fin 16) (w : TWord) (s : State) : KeepsR s (execMaxi f w s) := by
  unfold execMaxi
  try dsimp only
  repeat' first
    | with_reducible assumption
    | with_reducible exact Keeps.refl _
    | with_reducible refine KeepsR.next ?_
    | with_reducible refine KeepsR.ite (fun _ => ?_) (fun _ => ?_)
    | with_reducible apply aluImm_keeps

theorem execCmpEq_keeps (f : Fin 16) (w : TWord) (s : State) : KeepsR s (execCmpEq f w s) := by
  unfold execCmpEq
  try dsimp only
  repeat' first
    | with_reducible assumption
    | with_reducible exact Keeps.refl _
    | with_reducible refine KeepsR.next ?_
    | with_reducible refine KeepsR.ite (fun _ => ?_) (fun _ => ?_)
    | with_reducible apply cmpReg_keeps

theorem execCmpNe_keeps (f : Fin 16) (w : TWord) (s : State) : KeepsR s (execCmpNe f w s) := by
  unfold execCmpNe
  try dsimp only
  repeat' first
    | with_reducible assumption
    | with_reducible exact Keeps.refl _
    | with_reducible refine KeepsR.next ?_
    | with_reducible refine KeepsR.ite (fun _ => ?_) (fun _ => ?_)
    | with_reducible apply cmpReg_keeps

theorem execCmpLt_keeps (f : Fin 16) (w : TWord) (s : State) : KeepsR s (execCmpLt f w s) := by
  unfold execCmpLt
  try dsimp only
  repeat' first
    | with_reducible assumption
    | with_reducible exact Keeps.refl _
    | with_reducible refine KeepsR.next ?_
    | with_reducible refine KeepsR.ite (fun _ => ?_) (fun _ => ?_)
    | with_reducible apply cmpReg_keeps

theorem execCmpLe_keeps (f : Fin 16) (w : TWord) (s : State) : KeepsR s (execCmpLe f w s) := by
  unfold execCmpLe
  try dsimp only
  repeat' first
    | with_reducible assumption
    | with_reducible exact Keeps.refl _
    | with_reducible refine KeepsR.next ?_
    | with_reducible refine KeepsR.ite (fun _ => ?_) (fun _ => ?_)
    | with_reducible apply cmpReg_keeps

theorem execCmpLtu_keeps (f : Fin 16) (w : TWord) (s : State) : KeepsR s (execCmpLtu f w s) := by
  unfold execCmpLtu
  try dsimp only
  repeat' first
    | with_reducible assumption
    | with_reducible exact Keeps.refl _
    | with_reducible refine KeepsR.next ?_
    | with_reducible refine KeepsR.ite (fun _ => ?_) (fun _ => ?_)
    | with_reducible apply cmpReg_keeps

theorem execCmpLeu_keeps (f : Fin 16) (w : TWord) (s : State) : KeepsR s (execCmpLeu f w s) := by
  unfold execCmpLeu
  try dsimp only
  repeat' first
    | with_reducible assumption
    | with_reducible exact Keeps.refl _
    | with_reducible refine KeepsR.next ?_
    | with_reducible refine KeepsR.ite (fun _ => ?_) (fun _ => ?_)
    | with_reducible apply cmpReg_keeps

theorem execCmpNw32_keeps (f : Fin 16) (w : TWord) (s : State) : KeepsR s (execCmpNw32 f w s) := by
  unfold execCmpNw32
  try dsimp only
  repeat' first
    | with_reducible assumption
    | with_reducible exact Keeps.refl _
    | with_reducible refine KeepsR.next ?_
    | with_reducible refine KeepsR.ite (fun _ => ?_) (fun _ => ?_)
    | with_reducible apply cmpReg_keeps

theorem execCmpNw16_keeps (f : Fin 16) (w : TWord) (s : State) : KeepsR s (execCmpNw16 f w s) := by
  unfold execCmpNw16
  try dsimp only
  repeat' first
    | with_reducible assumption
    | with_reducible exact Keeps.refl _
    | with_reducible refine KeepsR.next ?_
    | with_reducible refine KeepsR.ite (fun _ => ?_) (fun _ => ?_)
    | with_reducible apply cmpReg_keeps

theorem execCmpiEq_keeps (f : Fin 16) (w : TWord) (s : State) : KeepsR s (execCmpiEq f w s) := by
  unfold execCmpiEq
  try dsimp only
  repeat' first
    | with_reducible assumption
    | with_reducible exact Keeps.refl _
    | with_reducible refine KeepsR.next ?_
    | with_reducible refine KeepsR.ite (fun _ => ?_) (fun _ => ?_)
    | with_reducible apply cmpImm_keeps

theorem execCmpiNe_keeps (f : Fin 16) (w : TWord) (s : State) : KeepsR s (execCmpiNe f w s) := by
  unfold execCmpiNe
  try dsimp only
  repeat' first
    | with_reducible assumption
    | with_reducible exact Keeps.refl _
    | with_reducible refine KeepsR.next ?_
    | with_reducible refine KeepsR.ite (fun _ => ?_) (fun _ => ?_)
    | with_reducible apply cmpImm_keeps

theorem execCmpiLt_keeps (f : Fin 16) (w : TWord) (s : State) : KeepsR s (execCmpiLt f w s) := by
  unfold execCmpiLt
  try dsimp only
  repeat' first
    | with_reducible assumption
    | with_reducible exact Keeps.refl _
    | with_reducible refine KeepsR.next ?_
    | with_reducible refine KeepsR.ite (fun _ => ?_) (fun _ => ?_)
    | with_reducible apply cmpImm_keeps

theorem execCmpiLe_keeps (f : Fin 16) (w : TWord) (s : State) : KeepsR s (execCmpiLe f w s) := by
  unfold execCmpiLe
  try dsimp only
  repeat' first
    | with_reducible assumption
    | with_reducible exact Keeps.refl _
    | with_reducible refine KeepsR.next ?_
    | with_reducible refine KeepsR.ite (fun _ => ?_) (fun _ => ?_)
    | with_reducible apply cmpImm_keeps

theorem execCmpiLtu_keeps (f : Fin 16) (w : TWord) (s : State) : KeepsR s (execCmpiLtu f w s) := by
  unfold execCmpiLtu
  try dsimp only
  repeat' first
    | with_reducible assumption
    | with_reducible exact Keeps.refl _
    | with_reducible refine KeepsR.next ?_
    | with_reducible refine KeepsR.ite (fun _ => ?_) (fun _ => ?_)
    | with_reducible apply cmpImm_keeps

theorem execCmpiLeu_keeps (f : Fin 16) (w : TWord) (s : State) : KeepsR s (execCmpiLeu f w s) := by
  unfold execCmpiLeu
  try dsimp only
  repeat' first
    | with_reducible assumption
    | with_reducible exact Keeps.refl _
    | with_reducible refine KeepsR.next ?_
    | with_reducible refine KeepsR.ite (fun _ => ?_) (fun _ => ?_)
    | with_reducible apply cmpImm_keeps

theorem execCmpiNw32_keeps (f : Fin 16) (w : TWord) (s : State) : KeepsR s (execCmpiNw32 f w s) := by
  unfold execCmpiNw32
  try dsimp only
  repeat' first
    | with_reducible assumption
    | with_reducible exact Keeps.refl _
    | with_reducible refine KeepsR.next ?_
    | with_reducible refine KeepsR.ite (fun _ => ?_) (fun _ => ?_)
    | with_reducible apply cmpImm_keeps

theorem execCmpiNw16_keeps (f : Fin 16) (w : TWord) (s : State) : KeepsR s (execCmpiNw16 f w s) := by
  unfold execCmpiNw16
  try dsimp only
  repeat' first
    | with_reducible assumption
    | with_reducible exact Keeps.refl _
    | with_reducible refine KeepsR.next ?_
    | with_reducible refine KeepsR.ite (fun _ => ?_) (fun _ => ?_)
    | with_reducible apply cmpImm_keeps

theorem execLi_keeps (f : Fin 16) (w : TWord) (s : State) : KeepsR s (execLi f w s) := by
  unfold execLi
  try dsimp only
  repeat' first
    | with_reducible assumption
    | with_reducible exact Keeps.refl _
    | with_reducible refine KeepsR.next ?_
    | with_reducible refine KeepsR.ite (fun _ => ?_) (fun _ => ?_)
    | with_reducible apply State.local__keeps
    | with_reducible apply State.retireOk_keeps
    | with_reducible refine Keeps.ite (fun _ => ?_) (fun _ => ?_)
    | split
    | with_reducible refine Keeps.upd rfl rfl rfl ?_
    | (intro _; dsimp only)
    | intro _

theorem execLih_keeps (f : Fin 16) (w : TWord) (s : State) : KeepsR s (execLih f w s) := by
  unfold execLih
  try dsimp only
  repeat' first
    | with_reducible assumption
    | with_reducible exact Keeps.refl _
    | with_reducible refine KeepsR.next ?_
    | with_reducible refine KeepsR.ite (fun _ => ?_) (fun _ => ?_)
    | with_reducible apply State.local__keeps
    | with_reducible apply State.retireOk_keeps
    | with_reducible refine Keeps.ite (fun _ => ?_) (fun _ => ?_)
    | split
    | with_reducible refine Keeps.upd rfl rfl rfl ?_
    | (intro _; dsimp only)
    | intro _

theorem execLiX_keeps (f : Fin 16) (w : TWord) (s : State) : KeepsR s (execLiX f w s) := by
  unfold execLiX
  try dsimp only
  repeat' first
    | with_reducible assumption
    | with_reducible exact Keeps.refl _
    | with_reducible refine KeepsR.next ?_
    | with_reducible refine KeepsR.ite (fun _ => ?_) (fun _ => ?_)
    | with_reducible apply State.local__keeps
    | with_reducible apply State.retireOk_keeps
    | with_reducible refine Keeps.ite (fun _ => ?_) (fun _ => ?_)
    | split
    | with_reducible refine Keeps.upd rfl rfl rfl ?_
    | (intro _; dsimp only)
    | intro _

theorem execLd_keeps (f : Fin 16) (w : TWord) (s : State) : KeepsR s (execLd f w s) := by
  unfold execLd
  try dsimp only
  repeat' first
    | with_reducible assumption
    | with_reducible exact Keeps.refl _
    | with_reducible refine KeepsR.next ?_
    | with_reducible refine KeepsR.ite (fun _ => ?_) (fun _ => ?_)
    | with_reducible apply State.local__keeps
    | with_reducible apply State.retireOk_keeps
    | with_reducible refine Keeps.ite (fun _ => ?_) (fun _ => ?_)
    | split
    | with_reducible refine Keeps.upd rfl rfl rfl ?_
    | (intro _; dsimp only)
    | intro _

theorem execSt_keeps (f : Fin 16) (w : TWord) (s : State) : KeepsR s (execSt f w s) := by
  unfold execSt
  try dsimp only
  repeat' first
    | with_reducible assumption
    | with_reducible exact Keeps.refl _
    | with_reducible refine KeepsR.next ?_
    | with_reducible refine KeepsR.ite (fun _ => ?_) (fun _ => ?_)
    | with_reducible apply State.local__keeps
    | with_reducible apply State.wr64_keeps
    | with_reducible apply State.retireOk_keeps
    | with_reducible refine Keeps.ite (fun _ => ?_) (fun _ => ?_)
    | split
    | with_reducible refine Keeps.upd rfl rfl rfl ?_
    | (intro _; dsimp only)
    | intro _

theorem execLd32_keeps (f : Fin 16) (w : TWord) (s : State) : KeepsR s (execLd32 f w s) := by
  unfold execLd32
  try dsimp only
  repeat' first
    | with_reducible assumption
    | with_reducible exact Keeps.refl _
    | with_reducible refine KeepsR.next ?_
    | with_reducible refine KeepsR.ite (fun _ => ?_) (fun _ => ?_)
    | with_reducible apply State.local__keeps
    | with_reducible apply State.retireOk_keeps
    | with_reducible refine Keeps.ite (fun _ => ?_) (fun _ => ?_)
    | split
    | with_reducible refine Keeps.upd rfl rfl rfl ?_
    | (intro _; dsimp only)
    | intro _

theorem execSt32_keeps (f : Fin 16) (w : TWord) (s : State) : KeepsR s (execSt32 f w s) := by
  unfold execSt32
  try dsimp only
  repeat' first
    | with_reducible assumption
    | with_reducible exact Keeps.refl _
    | with_reducible refine KeepsR.next ?_
    | with_reducible refine KeepsR.ite (fun _ => ?_) (fun _ => ?_)
    | with_reducible apply State.local__keeps
    | with_reducible apply State.wr32_keeps
    | with_reducible apply State.retireOk_keeps
    | with_reducible refine Keeps.ite (fun _ => ?_) (fun _ => ?_)
    | split
    | with_reducible refine Keeps.upd rfl rfl rfl ?_
    | (intro _; dsimp only)
    | intro _

theorem execUndefinedOpcode_keeps (f : Fin 16) (opc : BitVec 8) (fn : BitVec 4) (w : TWord) (s : State) : KeepsR s (execUndefinedOpcode f opc fn w s) := by
  unfold execUndefinedOpcode
  try dsimp only
  repeat' first
    | with_reducible assumption
    | with_reducible exact Keeps.refl _
    | with_reducible refine KeepsR.next ?_
    | with_reducible refine KeepsR.ite (fun _ => ?_) (fun _ => ?_)
    | with_reducible apply State.take_keeps
    | with_reducible apply State.retireBad_keeps
    | with_reducible refine Keeps.ite (fun _ => ?_) (fun _ => ?_)
    | split
    | with_reducible refine Keeps.upd rfl rfl rfl ?_
    | (intro _; dsimp only)
    | intro _

end Sys2Proof.Machine
end

