-- ==== Sys2Proof/Laws/Exec.lean ====
section
/-! SUPPORT. What a command, and a step, can do to memory, cell time, the queue, what has left the chip and the one-time-programmable
memory: it keeps the relation `Keeps`, or it is a reset. -/
namespace Sys2Proof.Machine

theorem KeepsOrRestarts.of_keeps {s : State} {r : Res} (h : KeepsR s r) : KeepsOrRestarts s r := by
  cases h with
  | next h => exact .next h

/-- Whatever command runs, it answers a next state that keeps the relation, or the state after a reset. -/
theorem exec_keeps (c : Instr) (s : State) : KeepsOrRestarts s (exec c s) := by
  cases c with
  | pickInstant => exact .of_keeps (execPickInstant_keeps s)
  | stateCopySend => exact .of_keeps (execStateCopySend_keeps s)
  | readyListEntry => exact .of_keeps (execReadyListEntry_keeps s)
  | nodeSelect sh => exact .of_keeps (execNodeSelect_keeps sh s)
  | nodeStart sh addrOk => exact .of_keeps (execNodeStart_keeps sh addrOk s)
  | nodeComplete sh out => exact .of_keeps (execNodeComplete_keeps sh out s)
  | plannerSample a => exact .of_keeps (execPlannerSample_keeps a s)
  | stlFrame n => exact .of_keeps (execStlFrame_keeps n s)
  | solveStart => exact .of_keeps (execSolveStart_keeps s)
  | solveEnd => exact .of_keeps (execSolveEnd_keeps s)
  | eccUncorrectable a w => exact .of_keeps (execEccUncorrectable_keeps a w s)
  | scrubPass sel corrected => exact .of_keeps (execScrubPass_keeps sel corrected s)
  | tbStart => exact .of_keeps (execTbStart_keeps s)
  | tbApply => exact .of_keeps (execTbApply_keeps s)
  | tbTimeLoRead => exact .of_keeps (execTbTimeLoRead_keeps s)
  | tbPickTimeLoRead => exact .of_keeps (execTbPickTimeLoRead_keeps s)
  | tbPickNumRead => exact .of_keeps (execTbPickNumRead_keeps s)
  | programmeStart f entry => exact .of_keeps (execProgrammeStart_keeps f entry s)
  | fencedWordRetire f opc fn xw cq => exact .of_keeps (execFencedWordRetire_keeps f opc fn xw cq s)
  | waitComplete f => exact .of_keeps (execWaitComplete_keeps f s)
  | flowAbortEffect f => exact .of_keeps (execFlowAbortEffect_keeps f s)
  | completionPost f => exact .of_keeps (execCompletionPost_keeps f s)
  | nop f w => exact .of_keeps (execNop_keeps f w s)
  | endProg f w => exact .of_keeps (execEndProg_keeps f w s)
  | br f w => exact .of_keeps (execBr_keeps f w s)
  | brT f w => exact .of_keeps (execBrT_keeps f w s)
  | brF f w => exact .of_keeps (execBrF_keeps f w s)
  | brLink f w => exact .of_keeps (execBrLink_keeps f w s)
  | brReg f w => exact .of_keeps (execBrReg_keeps f w s)
  | waitPick f w => exact .of_keeps (execWaitPick_keeps f w s)
  | waitBeat f w => exact .of_keeps (execWaitBeat_keeps f w s)
  | waitTime f w => exact .of_keeps (execWaitTime_keeps f w s)
  | waitOps f w => exact .of_keeps (execWaitOps_keeps f w s)
  | waitAxis f w => exact .of_keeps (execWaitAxis_keeps f w s)
  | flowResume f w => exact .of_keeps (execFlowResume_keeps f w s)
  | flowState f w => exact .of_keeps (execFlowState_keeps f w s)
  | flowAbort f w => exact .of_keeps (execFlowAbort_keeps f w s)
  | add f w => exact .of_keeps (execAdd_keeps f w s)
  | sub f w => exact .of_keeps (execSub_keeps f w s)
  | and f w => exact .of_keeps (execAnd_keeps f w s)
  | or f w => exact .of_keeps (execOr_keeps f w s)
  | xor f w => exact .of_keeps (execXor_keeps f w s)
  | shl f w => exact .of_keeps (execShl_keeps f w s)
  | shr f w => exact .of_keeps (execShr_keeps f w s)
  | sar f w => exact .of_keeps (execSar_keeps f w s)
  | mul f w => exact .of_keeps (execMul_keeps f w s)
  | min f w => exact .of_keeps (execMin_keeps f w s)
  | max f w => exact .of_keeps (execMax_keeps f w s)
  | addi f w => exact .of_keeps (execAddi_keeps f w s)
  | subi f w => exact .of_keeps (execSubi_keeps f w s)
  | andi f w => exact .of_keeps (execAndi_keeps f w s)
  | ori f w => exact .of_keeps (execOri_keeps f w s)
  | xori f w => exact .of_keeps (execXori_keeps f w s)
  | shli f w => exact .of_keeps (execShli_keeps f w s)
  | shri f w => exact .of_keeps (execShri_keeps f w s)
  | sari f w => exact .of_keeps (execSari_keeps f w s)
  | muli f w => exact .of_keeps (execMuli_keeps f w s)
  | mini f w => exact .of_keeps (execMini_keeps f w s)
  | maxi f w => exact .of_keeps (execMaxi_keeps f w s)
  | li f w => exact .of_keeps (execLi_keeps f w s)
  | lih f w => exact .of_keeps (execLih_keeps f w s)
  | liX f w => exact .of_keeps (execLiX_keeps f w s)
  | cmpEq f w => exact .of_keeps (execCmpEq_keeps f w s)
  | cmpNe f w => exact .of_keeps (execCmpNe_keeps f w s)
  | cmpLt f w => exact .of_keeps (execCmpLt_keeps f w s)
  | cmpLe f w => exact .of_keeps (execCmpLe_keeps f w s)
  | cmpLtu f w => exact .of_keeps (execCmpLtu_keeps f w s)
  | cmpLeu f w => exact .of_keeps (execCmpLeu_keeps f w s)
  | cmpNw32 f w => exact .of_keeps (execCmpNw32_keeps f w s)
  | cmpNw16 f w => exact .of_keeps (execCmpNw16_keeps f w s)
  | cmpiEq f w => exact .of_keeps (execCmpiEq_keeps f w s)
  | cmpiNe f w => exact .of_keeps (execCmpiNe_keeps f w s)
  | cmpiLt f w => exact .of_keeps (execCmpiLt_keeps f w s)
  | cmpiLe f w => exact .of_keeps (execCmpiLe_keeps f w s)
  | cmpiLtu f w => exact .of_keeps (execCmpiLtu_keeps f w s)
  | cmpiLeu f w => exact .of_keeps (execCmpiLeu_keeps f w s)
  | cmpiNw32 f w => exact .of_keeps (execCmpiNw32_keeps f w s)
  | cmpiNw16 f w => exact .of_keeps (execCmpiNw16_keeps f w s)
  | ld f w => exact .of_keeps (execLd_keeps f w s)
  | st f w => exact .of_keeps (execSt_keeps f w s)
  | ld32 f w => exact .of_keeps (execLd32_keeps f w s)
  | st32 f w => exact .of_keeps (execSt32_keeps f w s)
  | regRd f w => exact .of_keeps (execRegRd_keeps f w s)
  | regWr f w => exact .of_keeps (execRegWr_keeps f w s)
  | axisEnable f w => exact .of_keeps (execAxisEnable_keeps f w s)
  | axisDisable f w => exact .of_keeps (execAxisDisable_keeps f w s)
  | axisMove f w => exact .of_keeps (execAxisMove_keeps f w s)
  | axisStop f w => exact .of_keeps (execAxisStop_keeps f w s)
  | axisHome f w => exact .of_keeps (execAxisHome_keeps f w s)
  | axisGear f w => exact .of_keeps (execAxisGear_keeps f w s)
  | axisClear f w => exact .of_keeps (execAxisClear_keeps f w s)
  | axisSetpos f w => exact .of_keeps (execAxisSetpos_keeps f w s)
  | axisParam f w => exact .of_keeps (execAxisParam_keeps f w s)
  | axisRead f w => exact .of_keeps (execAxisRead_keeps f w s)
  | armDefine f w => exact .of_keeps (execArmDefine_keeps f w s)
  | armEnable f w => exact .of_keeps (execArmEnable_keeps f w s)
  | armDisable f w => exact .of_keeps (execArmDisable_keeps f w s)
  | armMove f w => exact .of_keeps (execArmMove_keeps f w s)
  | armStop f w => exact .of_keeps (execArmStop_keeps f w s)
  | armMpcOn f w => exact .of_keeps (execArmMpcOn_keeps f w s)
  | armMpcOff f w => exact .of_keeps (execArmMpcOff_keeps f w s)
  | loopLoad f w => exact .of_keeps (execLoopLoad_keeps f w s)
  | loopSwap f w => exact .of_keeps (execLoopSwap_keeps f w s)
  | fbMode f w => exact .of_keeps (execFbMode_keeps f w s)
  | fbCompare f w => exact .of_keeps (execFbCompare_keeps f w s)
  | fbUnarm f w => exact .of_keeps (execFbUnarm_keeps f w s)
  | segLoad f w => exact .of_keeps (execSegLoad_keeps f w s)
  | segRun f w => exact .of_keeps (execSegRun_keeps f w s)
  | draftLoad f w => exact .of_keeps (execDraftLoad_keeps f w s)
  | draftBind f w => exact .of_keeps (execDraftBind_keeps f w s)
  | draftUnload f w => exact .of_keeps (execDraftUnload_keeps f w s)
  | qpSched f w => exact .of_keeps (execQpSched_keeps f w s)
  | qpSchedCopyDone => exact .of_keeps (execQpSchedCopyDone_keeps s)
  | qpStart f w => exact .of_keeps (execQpStart_keeps f w s)
  | qpStop f w => exact .of_keeps (execQpStop_keeps f w s)
  | qpSubmit f w => exact .of_keeps (execQpSubmit_keeps f w s)
  | qpParam f w => exact .of_keeps (execQpParam_keeps f w s)
  | safeLoad f w => exact .of_keeps (execSafeLoad_keeps f w s)
  | safeLoadDecided => exact .of_keeps (execSafeLoadDecided_keeps s)
  | safeReset f w => exact .of_keeps (execSafeReset_keeps f w s)
  | recRead f w => exact .of_keeps (execRecRead_keeps f w s)
  | recClear f w => exact .of_keeps (execRecClear_keeps f w s)
  | recMark f w => exact .of_keeps (execRecMark_keeps f w s)
  | pwrSet f w => exact .of_keeps (execPwrSet_keeps f w s)
  | pwrDomain f w => exact .of_keeps (execPwrDomain_keeps f w s)
  | pairSync f w => exact .of_keeps (execPairSync_keeps f w s)
  | deviceTransitionDone => exact .of_keeps (execDeviceTransitionDone_keeps s)
  | domainTransitionDone d => exact .of_keeps (execDomainTransitionDone_keeps d s)
  | lmWeightWrite g v => exact .of_keeps (execLmWeightWrite_keeps g v s)
  | lmHwmClr => exact .of_keeps (execLmHwmClr_keeps s)
  | lmCntClr => exact .of_keeps (execLmCntClr_keeps s)
  | fbEdge c a b => exact .of_keeps (execFbEdge_keeps c a b s)
  | trigPulseEnd t => exact .of_keeps (execTrigPulseEnd_keeps t s)
  | ssiTransferStart c => exact .of_keeps (execSsiTransferStart_keeps c s)
  | ssiWord c raw par startLow rtd => exact .of_keeps (execSsiWord_keeps c raw par startLow rtd s)
  | wireFault c => exact .of_keeps (execWireFault_keeps c s)
  | faultConditionEnd c => exact .of_keeps (execFaultConditionEnd_keeps c s)
  | fbCfgWrite c v => exact .of_keeps (execFbCfgWrite_keeps c v s)
  | fbTimingWrite c v => exact .of_keeps (execFbTimingWrite_keeps c v s)
  | fbSsiWrite c v => exact .of_keeps (execFbSsiWrite_keeps c v s)
  | fbSsiLeadWrite c v => exact .of_keeps (execFbSsiLeadWrite_keeps c v s)
  | fbTrigCfgWrite t v => exact .of_keeps (execFbTrigCfgWrite_keeps t v s)
  | fbTraceW0Read => exact .of_keeps (execFbTraceW0Read_keeps s)
  | traceClr => exact .of_keeps (execTraceClr_keeps s)
  | fbPosLoRead c => exact .of_keeps (execFbPosLoRead_keeps c s)
  | ceCfgWrite a v => exact .of_keeps (execCeCfgWrite_keeps a v s)
  | ceVmaxWrite a v => exact .of_keeps (execCeVmaxWrite_keeps a v s)
  | ceAmaxWrite a v => exact .of_keeps (execCeAmaxWrite_keeps a v s)
  | ceXrLoRead a => exact .of_keeps (execCeXrLoRead_keeps a s)
  | cePosOffLoRead a => exact .of_keeps (execCePosOffLoRead_keeps a s)
  | ceBypassCntClear r => exact .of_keeps (execCeBypassCntClear_keeps r s)
  | stlCfgWrite n v => exact .of_keeps (execStlCfgWrite_keeps n v s)
  | chCntClr => exact .of_keeps (execChCntClr_keeps s)
  | chSigLoRead => exact .of_keeps (execChSigLoRead_keeps s)
  | chSchedHashLoRead => exact .of_keeps (execChSchedHashLoRead_keeps s)
  | reedRunWrite v => exact .of_keeps (execReedRunWrite_keeps v s)
  | reedCntClr => exact .of_keeps (execReedCntClr_keeps s)
  | reedConfigWrite off v => exact .of_keeps (execReedConfigWrite_keeps off v s)
  | rdSensLastLoRead n => exact .of_keeps (execRdSensLastLoRead_keeps n s)
  | rdCycleLoRead => exact .of_keeps (execRdCycleLoRead_keeps s)
  | frameCheckDone n slot okA okB => exact .of_keeps (execFrameCheckDone_keeps n slot okA okB s)
  | fusionCycleStart => exact .of_keeps (execFusionCycleStart_keeps s)
  | fusionDone => exact .of_keeps (execFusionDone_keeps s)
  | channelAFieldDone => exact .of_keeps (execChannelAFieldDone_keeps s)
  | channelAEntryDone => exact .of_keeps (execChannelAEntryDone_keeps s)
  | channelBEntryDone => exact .of_keeps (execChannelBEntryDone_keeps s)
  | selftestDone ch fail => exact .of_keeps (execSelftestDone_keeps ch fail s)
  | selvedgeEvaluation => exact .of_keeps (execSelvedgeEvaluation_keeps s)
  | crossLinkMessage ch m => exact .of_keeps (execCrossLinkMessage_keeps ch m s)
  | lockstepMismatch ch => exact .of_keeps (execLockstepMismatch_keeps ch s)
  | supplyMonitorTrip ch io => exact .of_keeps (execSupplyMonitorTrip_keeps ch io s)
  | pairDiscrepancyTimeout ch p => exact .of_keeps (execPairDiscrepancyTimeout_keeps ch p s)
  | lightCurtainTimeout ch ix => exact .of_keeps (execLightCurtainTimeout_keeps ch ix s)
  | stopTimeout ch target => exact .of_keeps (execStopTimeout_keeps ch target s)
  | testPulseStart n a b => exact .of_keeps (execTestPulseStart_keeps n a b s)
  | testPulseSample n a b tps => exact .of_keeps (execTestPulseSample_keeps n a b tps s)
  | testPulseEnd n => exact .of_keeps (execTestPulseEnd_keeps n s)
  | pulseHoldEnd n a b => exact .of_keeps (execPulseHoldEnd_keeps n a b s)
  | ossdHighSideCheck n p q => exact .of_keeps (execOssdHighSideCheck_keeps n p q s)
  | ossdLowSideCheck n p q => exact .of_keeps (execOssdLowSideCheck_keeps n p q s)
  | ossdMismatchFault n half p q => exact .of_keeps (execOssdMismatchFault_keeps n half p q s)
  | darkTestStart n half => exact .of_keeps (execDarkTestStart_keeps n half s)
  | darkTestPass n half p q => exact .of_keeps (execDarkTestPass_keeps n half p q s)
  | darkTestTimeout n half p q => exact .of_keeps (execDarkTestTimeout_keeps n half p q s)
  | sealDebounceChange half v => exact .of_keeps (execSealDebounceChange_keeps half v s)
  | sealUnstableTimeout half => exact .of_keeps (execSealUnstableTimeout_keeps half s)
  | wdExpire c => exact .of_keeps (execWdExpire_keeps c s)
  | frameReceive p frame => exact .of_keeps (execFrameReceive_keeps p frame s)
  | driveTrafficReceive p frame dis => exact .of_keeps (execDriveTrafficReceive_keeps p frame dis s)
  | egressSelect p => exact .of_keeps (execEgressSelect_keeps p s)
  | launchTimeReached p c => exact .of_keeps (execLaunchTimeReached_keeps p c s)
  | lateFrame p c => exact .of_keeps (execLateFrame_keeps p c s)
  | gclEntryAdvance p => exact .of_keeps (execGclEntryAdvance_keeps p s)
  | gclCycleStart p => exact .of_keeps (execGclCycleStart_keeps p s)
  | gclSwapRequest p v => exact .of_keeps (execGclSwapRequest_keeps p v s)
  | linkChange p up => exact .of_keeps (execLinkChange_keeps p up s)
  | fdbWrite v => exact .of_keeps (execFdbWrite_keeps v s)
  | fdbDelete v => exact .of_keeps (execFdbDelete_keeps v s)
  | fdbAgeExpire ix => exact .of_keeps (execFdbAgeExpire_keeps ix s)
  | cbStreamReset ix => exact .of_keeps (execCbStreamReset_keeps ix s)
  | ptCntClear p k => exact .of_keeps (execPtCntClear_keeps p k s)
  | syncReceive p m => exact .of_keeps (execSyncReceive_keeps p m s)
  | followUpReceive p m => exact .of_keeps (execFollowUpReceive_keeps p m s)
  | followUpTimeout d => exact .of_keeps (execFollowUpTimeout_keeps d s)
  | pdelayReqSend => exact .of_keeps (execPdelayReqSend_keeps s)
  | pdelayReqReceive p m => exact .of_keeps (execPdelayReqReceive_keeps p m s)
  | pdelayRespReceive p m fup => exact .of_keeps (execPdelayRespReceive_keeps p m fup s)
  | domainTimeout d => exact .of_keeps (execDomainTimeout_keeps d s)
  | servoUpdate => exact .of_keeps (execServoUpdate_keeps s)
  | holdoverTimeout => exact .of_keeps (execHoldoverTimeout_keeps s)
  | ntSwitchRequest v => exact .of_keeps (execNtSwitchRequest_keeps v s)
  | timeMark => exact .of_keeps (execTimeMark_keeps s)
  | ntOfs0Read => exact .of_keeps (execNtOfs0Read_keeps s)
  | ntPhaseLoRead => exact .of_keeps (execNtPhaseLoRead_keeps s)
  | ntNowNsRead => exact .of_keeps (execNtNowNsRead_keeps s)
  | ntDomPhaseLoRead d => exact .of_keeps (execNtDomPhaseLoRead_keeps d s)
  | canModeWrite n v => exact .of_keeps (execCanModeWrite_keeps n v s)
  | canModeEffect n => exact .of_keeps (execCanModeEffect_keeps n s)
  | canRestart n v => exact .of_keeps (execCanRestart_keeps n v s)
  | canTxsetWrite n w v => exact .of_keeps (execCanTxsetWrite_keeps n w v s)
  | canTxcancelWrite n w v => exact .of_keeps (execCanTxcancelWrite_keeps n w v s)
  | canRxnewWrite n w v => exact .of_keeps (execCanRxnewWrite_keeps n w v s)
  | canInvalidWrite n w v => exact .of_keeps (execCanInvalidWrite_keeps n w v s)
  | canTxAttempt n => exact .of_keeps (execCanTxAttempt_keeps n s)
  | canTxComplete n => exact .of_keeps (execCanTxComplete_keeps n s)
  | canBusError n lec e => exact .of_keeps (execCanBusError_keeps n lec e s)
  | canFrameReceive n m => exact .of_keeps (execCanFrameReceive_keeps n m s)
  | canRecoveryDone n => exact .of_keeps (execCanRecoveryDone_keeps n s)
  | canCntClear n k => exact .of_keeps (execCanCntClear_keeps n k s)
  | heartbeatSend => exact .of_keeps (execHeartbeatSend_keeps s)
  | heartbeatReceive frame => exact .of_keeps (execHeartbeatReceive_keeps frame s)
  | partnerSilent => exact .of_keeps (execPartnerSilent_keeps s)
  | leaseExpire us => exact .of_keeps (execLeaseExpire_keeps us s)
  | standbyLost => exact .of_keeps (execStandbyLost_keeps s)
  | inputRecordReceive frames => exact .of_keeps (execInputRecordReceive_keeps frames s)
  | adoptLimitExpire => exact .of_keeps (execAdoptLimitExpire_keeps s)
  | safetyRecordReceive bad check r => exact .of_keeps (execSafetyRecordReceive_keeps bad check r s)
  | stateCopyReceive bad c => exact .of_keeps (execStateCopyReceive_keeps bad c s)
  | solutionCopyReceive frames => exact .of_keeps (execSolutionCopyReceive_keeps frames s)
  | configFrameReceive bad block last part => exact .of_keeps (execConfigFrameReceive_keeps bad block last part s)
  | controlFrameReceive bad c => exact .of_keeps (execControlFrameReceive_keeps bad c s)
  | pairLaneChange l0 l1 => exact .of_keeps (execPairLaneChange_keeps l0 l1 s)
  | handoverRequest v => exact .of_keeps (execHandoverRequest_keeps v s)
  | pairCntClr => exact .of_keeps (execPairCntClr_keeps s)
  | syncReqReceive bad r => exact .of_keeps (execSyncReqReceive_keeps bad r s)
  | syncAckReceive bad => exact .of_keeps (execSyncAckReceive_keeps bad s)
  | syncFail => exact .of_keeps (execSyncFail_keeps s)
  | syncRetry => exact .of_keeps (execSyncRetry_keeps s)
  | wrInsertWrite v => exact .of_keeps (execWrInsertWrite_keeps v s)
  | ringLinkChange inUp outUp dIn dOut => exact .of_keeps (execRingLinkChange_keeps inUp outUp dIn dOut s)
  | alignSend => exact .of_keeps (execAlignSend_keeps s)
  | ringFrameReceive frame res => exact .of_keeps (execRingFrameReceive_keeps frame res s)
  | capsSend => exact .of_keeps (execCapsSend_keeps s)
  | ringAlignTimeout => exact .of_keeps (execRingAlignTimeout_keeps s)
  | foreignStale l => exact .of_keeps (execForeignStale_keeps l s)
  | wrCntCrcClear v => exact .of_keeps (execWrCntCrcClear_keeps v s)
  | recordAdmit => exact .of_keeps (execRecordAdmit_keeps s)
  | erCurWrite v => exact .of_keeps (execErCurWrite_keeps v s)
  | erCntClr => exact .of_keeps (execErCntClr_keeps s)
  | erSlogSelWrite v => exact .of_keeps (execErSlogSelWrite_keeps v s)
  | erSlogDataRead => exact .of_keeps (execErSlogDataRead_keeps s)
  | erEpochLoRead => exact .of_keeps (execErEpochLoRead_keeps s)
  | aonPwrCmdWrite path v => exact .of_keeps (execAonPwrCmdWrite_keeps path v s)
  | wakePin => exact .of_keeps (execWakePin_keeps s)
  | wakeTimer => exact .of_keeps (execWakeTimer_keeps s)
  | temperatureSample t => exact .of_keeps (execTemperatureSample_keeps t s)
  | supplyEnDrop => exact execSupplyEnDrop_keeps s
  | clusterClockStop c => exact .of_keeps (execClusterClockStop_keeps c s)
  | pllLockLoss l => exact execPllLockLoss_keeps l s
  | wearSecond => exact .of_keeps (execWearSecond_keeps s)
  | poweredHour drift => exact .of_keeps (execPoweredHour_keeps drift s)
  | hwLoad => exact .of_keeps (execHwLoad_keeps s)
  | hwCntClr => exact .of_keeps (execHwCntClr_keeps s)
  | hwImg0Read => exact .of_keeps (execHwImg0Read_keeps s)
  | submissionTailWrite f v => exact .of_keeps (execSubmissionTailWrite_keeps f v s)
  | completionHeadWrite f v => exact .of_keeps (execCompletionHeadWrite_keeps f v s)
  | txRingTailWrite v ds => exact .of_keeps (execTxRingTailWrite_keeps v ds s)
  | rxRingTailWrite v bufs => exact .of_keeps (execRxRingTailWrite_keeps v bufs s)
  | hiCfgWrite ring v => exact .of_keeps (execHiCfgWrite_keeps ring v s)
  | hiCounterClear rxNobuf => exact .of_keeps (execHiCounterClear_keeps rxNobuf s)
  | spiWrite addr v => exact execSpiWrite_keeps addr v s
  | spiRead addr => exact .of_keeps (execSpiRead_keeps addr s)
  | spiOtherCommand cmd => exact .of_keeps (execSpiOtherCommand_keeps cmd s)
  | hostReset key => exact execHostReset_keeps key s
  | resetNPin => exact execResetNPin_keeps s
  | powerOnReset => exact execPowerOnReset_keeps s
  | porRelease bootSrc cascPos => exact execPorRelease_keeps bootSrc cascPos s
  | perst high => exact .of_keeps (execPerst_keeps high s)
  | pcieLink up speed width => exact .of_keeps (execPcieLink_keeps up speed width s)
  | bootHostGo v => exact .of_keeps (execBootHostGo_keeps v s)
  | bootImageLoaded first second => exact .of_keeps (execBootImageLoaded_keeps first second s)
  | bootHostTimeout => exact .of_keeps (execBootHostTimeout_keeps s)
  | otpProgramKey path => exact .of_keeps (execOtpProgramKey_keeps path s)
  | otpRaiseSvn path => exact .of_keeps (execOtpRaiseSvn_keeps path s)
  | registerWrite path addr v => exact execRegisterWrite_keeps path addr v s
  | undefinedOpcode f opc fn w => exact .of_keeps (execUndefinedOpcode_keeps f opc fn w s)
  | unavailableRead path addr => exact .of_keeps (execUnavailableRead_keeps path addr s)
  | hostMemoryWrite addr v => exact execHostMemoryWrite_keeps addr v s
  | safetyInputLevelChange half pin level => exact .of_keeps (execSafetyInputLevelChange_keeps half pin level s)
  | pairAlvInChange level => exact .of_keeps (execPairAlvInChange_keeps level s)
  | coreSupplyLow half => exact .of_keeps (execCoreSupplyLow_keeps half s)

/-- An idle step keeps the relation (R35, R36). -/
theorem idleTick_keeps (s : State) : Keeps s (idleTick s) := by
  unfold idleTick
  split
  · exact Keeps.refl s
  all_goals exact Keeps.later (Keeps.refl s) rfl rfl rfl rfl rfl (Nat.le_add_right _ _)

/-- What holds between a state and the state after it: the relation, or a reset. -/
theorem exec_next {c : Instr} {s t : State} (h : exec c s = .next t) : Keeps s t ∨ Restarts s t := by
  have k := exec_keeps c s
  rw [h] at k
  cases k with
  | next k => exact Or.inl k
  | restart k => exact Or.inr k

end Sys2Proof.Machine
end

