-- ==== Sys2Proof/Laws/Flow.lean ====
section
/-! SUPPORT. What retiring an instruction does to a flow, and what a ready flow's instruction comes to: its own effect on the state in
which the flow has taken it up. -/
namespace Sys2Proof.Machine

/-- The state in which flow `f` has taken up an instruction. -/
def State.taken (s : State) (f : Fin 16) : State := (s.coreClock f).modFlow f fun fl => { fl with state := .running }

theorem State.flow_modFlow (s : State) (f g : Fin 16) (h : FlowS → FlowS) :
    (s.modFlow f h).flow g = if f = g then h (s.flow g) else s.flow g := by
  simp only [State.flow, State.modFlow_tr, Fin.getElem_fin, upd_get, Fin.ext_iff]
  split
  · next e => simp [e]
  · rfl

@[simp] theorem State.flow_modFlow_same (s : State) (f : Fin 16) (h : FlowS → FlowS) : (s.modFlow f h).flow f = h (s.flow f) := by
  simp [State.flow_modFlow]

theorem State.flow_modFlow_ne (s : State) {f g : Fin 16} (h : FlowS → FlowS) (hg : g ≠ f) : (s.modFlow f h).flow g = s.flow g := by
  rw [State.flow_modFlow, if_neg (fun e => hg e.symm)]

@[simp] theorem State.flow_coreClock (s : State) (f g : Fin 16) : (s.coreClock f).flow g = s.flow g := rfl

@[simp] theorem State.flow_taken (s : State) (f : Fin 16) : (s.taken f).flow f = { s.flow f with state := .running } := by
  simp [State.taken]

@[simp] theorem State.taken_modFlow_ops (s : State) (f : Fin 16) : ((s.taken f).flow f).ops = (s.flow f).ops := by simp

theorem FlowS.reg_setReg (fl : FlowS) (rd r : BitVec 5) (v : W64) :
    (fl.setReg rd v).reg r = if r = 0#5 then 0#64 else if r = rd then v else fl.reg r := by
  unfold FlowS.reg FlowS.setReg
  split
  · rfl
  · next h0 =>
    by_cases hr : r = rd
    · subst hr; simp [h0]
    · have : rd.toNat ≠ r.toNat := fun e => hr (BitVec.eq_of_toNat_eq e.symm)
      by_cases hd : rd = 0#5
      · simp [hd, h0]
      · simp [hr, hd, this]

@[simp] theorem FlowS.setReg_p (fl : FlowS) (r : BitVec 5) (v : W64) : (fl.setReg r v).p = fl.p := by unfold FlowS.setReg; split <;> rfl
@[simp] theorem FlowS.setReg_pc (fl : FlowS) (r : BitVec 5) (v : W64) : (fl.setReg r v).pc = fl.pc := by unfold FlowS.setReg; split <;> rfl
@[simp] theorem FlowS.setReg_prog (fl : FlowS) (r : BitVec 5) (v : W64) : (fl.setReg r v).prog = fl.prog := by
  unfold FlowS.setReg; split <;> rfl
@[simp] theorem FlowS.setReg_posts (fl : FlowS) (r : BitVec 5) (v : W64) : (fl.setReg r v).posts = fl.posts := by
  unfold FlowS.setReg; split <;> rfl
@[simp] theorem FlowS.setReg_state (fl : FlowS) (r : BitVec 5) (v : W64) : (fl.setReg r v).state = fl.state := by
  unfold FlowS.setReg; split <;> rfl
@[simp] theorem FlowS.setReg_aborting (fl : FlowS) (r : BitVec 5) (v : W64) : (fl.setReg r v).aborting = fl.aborting := by
  unfold FlowS.setReg; split <;> rfl
@[simp] theorem FlowS.setReg_ops (fl : FlowS) (r : BitVec 5) (v : W64) : (fl.setReg r v).ops = fl.ops := by
  unfold FlowS.setReg; split <;> rfl
@[simp] theorem FlowS.setReg_nextOp (fl : FlowS) (r : BitVec 5) (v : W64) : (fl.setReg r v).nextOp = fl.nextOp := by
  unfold FlowS.setReg; split <;> rfl
@[simp] theorem FlowS.setReg_lastWord (fl : FlowS) (r : BitVec 5) (v : W64) : (fl.setReg r v).lastWord = fl.lastWord := by
  simp [FlowS.lastWord]

/-- What completing does to the fields of a flow: the status is recorded, and an entry may be added. -/
theorem FlowS.complete_spec (fl : FlowS) (cq : Bool) (st : Status) (flags : BitVec 8) (v : W64) :
    fl.complete cq st flags v = { fl with
      lastStatus := st
      posts := if mustPost cq st then fl.posts ++ [{ status := st, flags := flags, instr := fl.pc, result := v }] else fl.posts } := by
  unfold FlowS.complete
  split
  · simp [FlowS.post]
  · simp

@[simp] theorem FlowS.complete_t (fl : FlowS) (cq : Bool) (st : Status) (g : BitVec 8) (v : W64) : (fl.complete cq st g v).t = fl.t := by
  rw [FlowS.complete_spec]
@[simp] theorem FlowS.complete_p (fl : FlowS) (cq : Bool) (st : Status) (g : BitVec 8) (v : W64) : (fl.complete cq st g v).p = fl.p := by
  rw [FlowS.complete_spec]
@[simp] theorem FlowS.complete_pc (fl : FlowS) (cq : Bool) (st : Status) (g : BitVec 8) (v : W64) : (fl.complete cq st g v).pc = fl.pc := by
  rw [FlowS.complete_spec]
@[simp] theorem FlowS.complete_lastStatus (fl : FlowS) (cq : Bool) (st : Status) (g : BitVec 8) (v : W64) :
    (fl.complete cq st g v).lastStatus = st := by
  rw [FlowS.complete_spec]
@[simp] theorem FlowS.complete_ops (fl : FlowS) (cq : Bool) (st : Status) (g : BitVec 8) (v : W64) : (fl.complete cq st g v).ops = fl.ops := by
  rw [FlowS.complete_spec]
@[simp] theorem FlowS.complete_nextOp (fl : FlowS) (cq : Bool) (st : Status) (g : BitVec 8) (v : W64) :
    (fl.complete cq st g v).nextOp = fl.nextOp := by
  rw [FlowS.complete_spec]
@[simp] theorem FlowS.complete_idleStatus (fl : FlowS) (cq : Bool) (st : Status) (g : BitVec 8) (v : W64) :
    (fl.complete cq st g v).idleStatus = fl.idleStatus := by
  rw [FlowS.complete_spec]; rfl
@[simp] theorem FlowS.complete_lastWord (fl : FlowS) (cq : Bool) (st : Status) (g : BitVec 8) (v : W64) :
    (fl.complete cq st g v).lastWord = fl.lastWord := by
  rw [FlowS.complete_spec]; rfl
@[simp] theorem FlowS.complete_reg (fl : FlowS) (cq : Bool) (st : Status) (g : BitVec 8) (v : W64) (r : BitVec 5) :
    (fl.complete cq st g v).reg r = fl.reg r := by
  rw [FlowS.complete_spec]; rfl

/-- What the end of a programme does: its entry is added, no programme and no wait is in progress; registers, predicates,
the programme counter and the operations in flight stay. -/
theorem FlowS.endProgramme_spec (fl : FlowS) (st : Status) (i : BitVec 21) (v : W64) :
    ∃ ab rr sta, fl.endProgramme st i v = { fl with
      posts := fl.posts ++ [{ status := st, instr := i, result := v }], prog := none, lastStatus := st, wait := none
      aborting := ab, resumeReq := rr, state := sta } := by
  unfold FlowS.endProgramme
  simp only
  split
  · exact ⟨_, _, _, rfl⟩
  · split
    · split
      · exact ⟨_, _, _, rfl⟩
      · exact ⟨fl.aborting, fl.resumeReq, fl.state, rfl⟩
    · split
      · exact ⟨_, _, _, rfl⟩
      · exact ⟨fl.aborting, fl.resumeReq, fl.state, rfl⟩
    · exact ⟨fl.aborting, fl.resumeReq, _, rfl⟩

/-- A flow that is neither fenced, stopped nor aborting is idle when its programme ends. -/
theorem FlowS.endProgramme_idle (fl : FlowS) (st : Status) (i : BitVec 21) (v : W64) (h : fl.idleStatus = none) :
    fl.endProgramme st i v = { fl with
      posts := fl.posts ++ [{ status := st, instr := i, result := v }], prog := none, lastStatus := st, wait := none
      state := .idle } := by
  unfold FlowS.idleStatus at h
  unfold FlowS.endProgramme FlowS.post
  split at h
  · cases h
  · next ha =>
    simp only
    split at h
    · cases h
    · cases h
    · next h1 h2 =>
      simp only [ha]
      rw [if_neg (by simp)]

/-- What advancing keeps: registers, predicates and operations in flight. -/
theorem FlowS.advance_spec (fl : FlowS) (xw : BitVec 4) :
    ∃ pc posts prog ls wt ab rr sta, fl.advance xw = { fl with
      pc := pc, posts := posts, prog := prog, lastStatus := ls, wait := wt, aborting := ab, resumeReq := rr, state := sta } ∧
      (∀ p, p ∈ fl.posts → p ∈ posts) ∧ (fl.lastStatus = .ok → fl.idleStatus = none → ls = .ok) ∧
      (fl.pc.toNat + 1 + xw.toNat ≤ fl.lastWord → pc = BitVec.ofNat 21 (fl.pc.toNat + 1 + xw.toNat) ∧ posts = fl.posts ∧
        prog = fl.prog ∧ sta = fl.state ∧ ls = fl.lastStatus ∧ ab = fl.aborting ∧ rr = fl.resumeReq ∧ wt = fl.wait) := by
  unfold FlowS.advance
  by_cases hp : fl.lastWord < fl.pc.toNat + 1 + xw.toNat
  · simp only [hp, decide_true, if_true]
    obtain ⟨ab, rr, sta, e⟩ := FlowS.endProgramme_spec { fl with pc := BitVec.ofNat 21 (fl.lastWord + 1) }
      (({ fl with pc := BitVec.ofNat 21 (fl.lastWord + 1) } : FlowS).idleStatus.getD .ok) (BitVec.ofNat 21 (fl.lastWord + 1)) 0#64
    refine ⟨_, _, _, _, _, _, _, _, e, fun p h => List.mem_append_left _ h, fun _ h => ?_, fun h => absurd h (by omega)⟩
    have : ({ fl with pc := BitVec.ofNat 21 (fl.lastWord + 1) } : FlowS).idleStatus = none := h
    rw [this]; rfl
  · simp only [hp, decide_false, if_neg, Bool.false_eq_true, not_false_eq_true]
    exact ⟨_, fl.posts, fl.prog, fl.lastStatus, fl.wait, fl.aborting, fl.resumeReq, fl.state, rfl, fun _ h => h, fun h _ => h,
      fun _ => ⟨rfl, rfl, rfl, rfl, rfl, rfl, rfl, rfl⟩⟩

@[simp] theorem FlowS.advance_t (fl : FlowS) (xw : BitVec 4) : (fl.advance xw).t = fl.t := by
  obtain ⟨_, _, _, _, _, _, _, _, e, -⟩ := fl.advance_spec xw; rw [e]
@[simp] theorem FlowS.advance_p (fl : FlowS) (xw : BitVec 4) : (fl.advance xw).p = fl.p := by
  obtain ⟨_, _, _, _, _, _, _, _, e, -⟩ := fl.advance_spec xw; rw [e]
@[simp] theorem FlowS.advance_ops (fl : FlowS) (xw : BitVec 4) : (fl.advance xw).ops = fl.ops := by
  obtain ⟨_, _, _, _, _, _, _, _, e, -⟩ := fl.advance_spec xw; rw [e]
@[simp] theorem FlowS.advance_nextOp (fl : FlowS) (xw : BitVec 4) : (fl.advance xw).nextOp = fl.nextOp := by
  obtain ⟨_, _, _, _, _, _, _, _, e, -⟩ := fl.advance_spec xw; rw [e]
@[simp] theorem FlowS.advance_reg (fl : FlowS) (xw : BitVec 4) (r : BitVec 5) : (fl.advance xw).reg r = fl.reg r := by
  simp [FlowS.reg]
theorem FlowS.advance_posts (fl : FlowS) (xw : BitVec 4) {p : Post} (h : p ∈ fl.posts) : p ∈ (fl.advance xw).posts := by
  obtain ⟨_, _, _, _, _, _, _, _, e, hp, -⟩ := fl.advance_spec xw; rw [e]; exact hp p h
theorem FlowS.advance_ok (fl : FlowS) (xw : BitVec 4) (h : fl.lastStatus = .ok) (hi : fl.idleStatus = none) :
    (fl.advance xw).lastStatus = .ok := by
  obtain ⟨_, _, _, _, _, _, _, _, e, -, hl, -⟩ := fl.advance_spec xw; rw [e]; exact hl h hi
theorem FlowS.advance_pc (fl : FlowS) (xw : BitVec 4) (h : fl.pc.toNat + 1 + xw.toNat ≤ fl.lastWord) :
    (fl.advance xw).pc = BitVec.ofNat 21 (fl.pc.toNat + 1 + xw.toNat) := by
  obtain ⟨_, _, _, _, _, _, _, _, e, -, -, hn⟩ := fl.advance_spec xw; rw [e]; exact (hn h).1

@[simp] theorem State.taken_idle (s : State) (f : Fin 16) (h : (s.flow f).idleStatus = none) :
    ({ s.flow f with state := .running } : FlowS).idleStatus = none := by
  unfold FlowS.idleStatus at h ⊢
  split at h
  · cases h
  · next ha => simp [ha]

/-- A ready flow's instruction comes to its own effect. -/
theorem State.take_run (s : State) (f : Fin 16) (opc : BitVec 8) (fn : BitVec 4) (w : TWord) (uses : List (BitVec 5))
    (run : State → State) (h : FlowReady s f uses) : s.take f opc fn w uses run = run (s.taken f) := by
  obtain ⟨h1, h2, h3, h4⟩ := h
  unfold State.take
  have hp : (s.flow f).prog.isNone = false := by
    simp only [flowTakes, Bool.and_eq_true] at h1
    simpa using h1.1.1.2
  simp only [h1, h2, h3, Bool.not_true, Bool.false_eq_true, if_false, State.flow_coreClock, hp, h4]
  rfl

/-- A local instruction of legal form, with none of its own faults, comes to its own effect. -/
theorem State.local_run (s : State) (f : Fin 16) (opc : BitVec 8) (fn : BitVec 4) (w : TWord) (xw : BitVec 4) (mask : BitVec 32)
    (uses : List (BitVec 5)) (bad : State → List (Bool × Status)) (run : State → State) (h : FlowReady s f uses)
    (hf : FormOk s f w xw.toNat mask) (hb : ∀ c ∈ bad (s.taken f), c.1 = false) :
    s.local_ f opc fn w xw mask uses bad run = run (s.taken f) := by
  obtain ⟨hx, hm, hw⟩ := hf
  have hx' : w.xw = xw := BitVec.eq_of_toNat_eq hx
  subst hx'
  unfold State.local_
  rw [State.take_run s f opc fn w uses _ h]
  have hl : ((s.taken f).flow f).wordsLeft = (s.flow f).wordsLeft := by simp [FlowS.wordsLeft, FlowS.lastWord]
  have e : firstFault ([(decide (w.xw ≠ w.xw), Status.badOperand), (w.immOutside mask, .badOperand)] ++
        (bad (s.taken f)).filter (fun c => decide (c.2 = .badOperand)) ++
        [(decide (((s.taken f).flow f).wordsLeft < w.xw.toNat), .length)] ++
        (bad (s.taken f)).filter (fun c => decide (c.2 ≠ .badOperand))) = none := by
    unfold firstFault
    rw [Option.map_eq_none_iff, List.find?_eq_none]
    intro c hc
    simp only [List.mem_append, List.mem_cons, List.mem_filter, List.not_mem_nil, or_false] at hc
    rcases hc with (((rfl | rfl) | hc) | rfl) | hc
    · simp
    · simp [TWord.immOutside, hm]
    · simp [hb c hc.1]
    · rw [hl]; simpa using hw
    · simp [hb c hc.1]
  simp only [e]

/-- Advancing inside the programme moves the programme counter alone (R56). -/
theorem FlowS.advance_in (fl : FlowS) (xw : BitVec 4) (h : fl.pc.toNat + 1 + xw.toNat ≤ fl.lastWord) :
    fl.advance xw = { fl with pc := BitVec.ofNat 21 (fl.pc.toNat + 1 + xw.toNat) } := by
  unfold FlowS.advance
  simp only [Nat.not_lt.mpr h, decide_false, Bool.false_eq_true, if_false]

/-- Advancing past the last word ends the programme of a flow that is neither fenced nor stopped (R52). -/
theorem FlowS.advance_past (fl : FlowS) (xw : BitVec 4) (h : fl.lastWord < fl.pc.toNat + 1 + xw.toNat) (hi : fl.idleStatus = none) :
    fl.advance xw = { fl with
      pc := BitVec.ofNat 21 (fl.lastWord + 1)
      posts := fl.posts ++ [{ status := .ok, instr := BitVec.ofNat 21 (fl.lastWord + 1), result := 0#64 }], prog := none
      lastStatus := .ok, wait := none, state := .idle } := by
  have hj : ({ fl with pc := BitVec.ofNat 21 (fl.lastWord + 1) } : FlowS).idleStatus = none := hi
  unfold FlowS.advance
  simp only [h, decide_true, if_true]
  rw [FlowS.endProgramme_idle _ _ _ _ hj, hj]
  rfl

/-- What completing with OK and going on does to a flow whose registers, predicates and next operation number are given. -/
theorem FlowS.goOn_spec (fl : FlowS) (w : TWord) (v : W64) (t : Vector W64 32) (p : BitVec 8) (n : Nat) (flags : BitVec 8)
    (hi : fl.idleStatus = none) (hw : fl.wait = none) :
    let entry : Post := { status := .ok, flags := flags, instr := fl.pc, result := v }
    let r := ((({ fl with state := .running, t := t, p := p, nextOp := n } : FlowS).complete w.cq .ok flags v).advance w.xw)
    r.t = t ∧ r.p = p ∧ r.lastStatus = .ok ∧ r.ops = fl.ops ∧ r.nextOp = n ∧ r.wait = none ∧
      (fl.pc.toNat + 1 + w.xw.toNat ≤ fl.lastWord →
        r.pc = BitVec.ofNat 21 (fl.pc.toNat + 1 + w.xw.toNat) ∧ r.prog = fl.prog ∧ r.state = .running ∧
          r.posts = fl.posts ++ (if w.cq then [entry] else [])) ∧
      (fl.lastWord < fl.pc.toNat + 1 + w.xw.toNat →
        r.prog = none ∧ r.state = .idle ∧
          r.posts = (fl.posts ++ (if w.cq then [entry] else [])) ++
            [{ status := .ok, instr := BitVec.ofNat 21 (fl.lastWord + 1), result := 0#64 }]) := by
  intro entry r
  have hm : mustPost w.cq .ok = w.cq := by simp [mustPost, Status.took, Status.code]
  have hp : (if w.cq = true then fl.posts ++ [entry] else fl.posts) = fl.posts ++ (if w.cq then [entry] else []) := by
    split <;> simp
  have hr : r = ({ fl with
      state := .running, t := t, p := p, nextOp := n, lastStatus := .ok
      posts := fl.posts ++ (if w.cq then [entry] else []) } : FlowS).advance w.xw := by
    show (FlowS.complete _ _ _ _ _).advance w.xw = _
    rw [FlowS.complete_spec, hm, ← hp]
  have hi' : ({ fl with
      state := .running, t := t, p := p, nextOp := n, lastStatus := .ok
      posts := fl.posts ++ (if w.cq then [entry] else []) } : FlowS).idleStatus = none := by
    unfold FlowS.idleStatus at hi ⊢
    split at hi
    · cases hi
    · next ha => simp [ha]
  rw [hr]
  have hin := FlowS.advance_in { fl with
      state := .running, t := t, p := p, nextOp := n, lastStatus := .ok
      posts := fl.posts ++ (if w.cq then [entry] else []) } w.xw
  have hpast := fun h => FlowS.advance_past { fl with
      state := .running, t := t, p := p, nextOp := n, lastStatus := .ok
      posts := fl.posts ++ (if w.cq then [entry] else []) } w.xw h hi'
  refine ⟨by simp, by simp, FlowS.advance_ok _ _ rfl hi', by simp, by simp, ?_, fun h => ?_, fun h => ?_⟩
  · by_cases h : fl.lastWord < fl.pc.toNat + 1 + w.xw.toNat
    · rw [hpast h]
    · rw [hin (Nat.not_lt.mp h)]; exact hw
  · rw [hin h]; exact ⟨rfl, rfl, rfl, rfl⟩
  · rw [hpast h]; exact ⟨rfl, rfl, rfl⟩

/-- Retiring with OK on a state whose flow `f` is as when the instruction was taken up. -/
theorem State.retireOk_spec (s u : State) (f : Fin 16) (w : TWord) (v : W64) (g : FlowS → FlowS) (uses : List (BitVec 5))
    (h : FlowReady s f uses) (hu : u.flow f = { s.flow f with state := .running })
    (t : Vector W64 32) (p : BitVec 8) (hg : g (u.flow f) = { u.flow f with t := t, p := p }) :
    Retires s (u.retireOk f w v g) f w v ∧ ((u.retireOk f w v g).flow f).t = t ∧ ((u.retireOk f w v g).flow f).p = p := by
  obtain ⟨h1, -, -, h4⟩ := h
  have hw : (s.flow f).wait = none := by
    simp only [flowTakes, Bool.and_eq_true] at h1
    simpa using h1.1.2
  have e : (u.retireOk f w v g).flow f =
      ((({ s.flow f with state := .running, t := t, p := p } : FlowS).complete w.cq .ok 0#8 v).advance w.xw) := by
    unfold State.retireOk
    rw [State.flow_modFlow_same, hg, hu]
  obtain ⟨a, b, c, d, k, l, m, n⟩ := FlowS.goOn_spec (s.flow f) w v t p (s.flow f).nextOp 0#8 h4 hw
  unfold Retires
  rw [e]
  exact ⟨⟨c, d, k, l, m, n⟩, a, b⟩

/-- Writing a register changes registers alone. -/
theorem FlowS.setReg_spec (fl : FlowS) (r : BitVec 5) (v : W64) : fl.setReg r v = { fl with t := (fl.setReg r v).t } := by
  unfold FlowS.setReg; split <;> rfl

/-- What differs after an instruction that changes its flow alone. -/
theorem State.retireOk_onlyFlow (s : State) (f : Fin 16) (w : TWord) (v : W64) (g : FlowS → FlowS) :
    OnlyFlow s ((s.taken f).retireOk f w v g) f := by
  refine ⟨rfl, rfl, rfl, fun g hg => ?_⟩
  unfold State.retireOk State.taken
  rw [State.flow_modFlow_ne _ _ hg, State.flow_modFlow_ne _ _ hg, State.flow_coreClock]

/-- A local instruction that writes its register and nothing else. -/
theorem State.retireOk_writesReg (s : State) (f : Fin 16) (w : TWord) (v : W64) (uses : List (BitVec 5)) (h : FlowReady s f uses) :
    let t := (s.taken f).retireOk f w v fun fl => fl.setReg w.rd v
    OnlyFlow s t f ∧ Retires s t f w v ∧ RegWritten s t f w.rd v := by
  intro t
  have k := State.retireOk_spec s (s.taken f) f w v (fun fl => fl.setReg w.rd v) uses h (by simp) _ _
    ((FlowS.setReg_spec _ _ _).trans rfl)
  refine ⟨State.retireOk_onlyFlow s f w v _, k.1, ?_, fun r hr => ?_, ?_⟩
  · have e : (t.flow f).reg w.rd = (((s.taken f).flow f).setReg w.rd v).reg w.rd := by unfold FlowS.reg; rw [k.2.1]
    rw [e, FlowS.reg_setReg]; simp
  · have e : (t.flow f).reg r = (((s.taken f).flow f).setReg w.rd v).reg r := by unfold FlowS.reg; rw [k.2.1]
    rw [e, FlowS.reg_setReg]
    split
    · next h0 => simp [FlowS.reg, h0]
    · simp [FlowS.reg]
  · rw [k.2.2]; simp

/-- A local instruction that retires with OK and leaves registers and predicates. -/
theorem State.retireOk_keepsRegs (s u : State) (f : Fin 16) (w : TWord) (v : W64) (uses : List (BitVec 5)) (h : FlowReady s f uses)
    (hu : u.flow f = (s.taken f).flow f) : Retires s (u.retireOk f w v id) f w v ∧ RegsKept s (u.retireOk f w v id) f := by
  have hu' : u.flow f = { s.flow f with state := .running } := by rw [hu]; simp
  have k := State.retireOk_spec s u f w v id uses h hu' (s.flow f).t (s.flow f).p (by rw [hu']; rfl)
  exact ⟨k.1, k.2.1, k.2.2⟩

/-- An instruction that retires with a status of 0x10 or above that does not fence. -/
theorem State.retireBad_spec (s : State) (f : Fin 16) (w : TWord) (st : Status) (opc : BitVec 8) (fn : BitVec 4) (obj : BitVec 7)
    (code : BitVec 8) (uses : List (BitVec 5)) (h : FlowReady s f uses) (hs : st ≠ .state) (ht : st.took = false)
    (hf : st ≠ .flowFenced) :
    OnlyFlow s ((s.taken f).retireBad f w st opc fn obj code) f ∧ RetiresBad s ((s.taken f).retireBad f w st opc fn obj code) f w st := by
  have hm : mustPost w.cq st = true := by simp [mustPost, ht, hf]
  unfold State.retireBad
  rw [if_neg hs]
  refine ⟨⟨rfl, rfl, rfl, fun g hg => ?_⟩, ?_⟩
  · unfold State.taken
    rw [State.flow_modFlow_ne _ _ hg, State.flow_modFlow_ne _ _ hg, State.flow_coreClock]
  · unfold RetiresBad RegsKept
    rw [State.flow_modFlow_same, State.flow_taken, FlowS.complete_spec, hm]
    have hi' := State.taken_idle s f h.2.2.2
    refine ⟨⟨by simp, by simp⟩, by simp, by simp, fun hl => ?_, fun hl => ?_⟩
    · rw [FlowS.advance_in _ _ (by exact hl)]; exact ⟨rfl, rfl, rfl, rfl⟩
    · rw [FlowS.advance_past _ _ (by exact hl) (by exact hi')]
      exact ⟨rfl, List.mem_append_left _ (List.mem_append_right _ (List.mem_singleton.mpr rfl))⟩

/-- A local instruction with a fault of the BAD_OPERAND kind among its own retires with it (R10, R57). -/
theorem State.local_badOperand (s : State) (f : Fin 16) (opc : BitVec 8) (fn : BitVec 4) (w : TWord) (xw : BitVec 4)
    (mask : BitVec 32) (uses : List (BitVec 5)) (bad : State → List (Bool × Status)) (run : State → State)
    (h : FlowReady s f uses)
    (hb : w.xw ≠ xw ∨ w.imm &&& ~~~mask ≠ 0#32 ∨ (true, Status.badOperand) ∈ bad (s.taken f)) :
    s.local_ f opc fn w xw mask uses bad run = (s.taken f).retireBad f w .badOperand opc fn 0#7 0#8 := by
  unfold State.local_
  rw [State.take_run s f opc fn w uses _ h]
  have e : firstFault ([(decide (w.xw ≠ xw), Status.badOperand), (w.immOutside mask, .badOperand)] ++
        (bad (s.taken f)).filter (fun c => decide (c.2 = .badOperand)) ++
        [(decide (((s.taken f).flow f).wordsLeft < w.xw.toNat), .length)] ++
        (bad (s.taken f)).filter (fun c => decide (c.2 ≠ .badOperand))) = some .badOperand := by
    rw [List.append_assoc]
    generalize hr : ([(decide (((s.taken f).flow f).wordsLeft < w.xw.toNat), Status.length)] ++
        (bad (s.taken f)).filter (fun c => decide (c.2 ≠ .badOperand))) = rest
    generalize hl : ([(decide (w.xw ≠ xw), Status.badOperand), (w.immOutside mask, .badOperand)] ++
        (bad (s.taken f)).filter (fun c => decide (c.2 = .badOperand)) : List (Bool × Status)) = l
    have hall : ∀ c ∈ l, c.2 = .badOperand := by
      intro c hc
      rw [← hl] at hc
      simp only [List.mem_append, List.mem_cons, List.mem_filter, List.not_mem_nil, or_false, decide_eq_true_eq] at hc
      rcases hc with (rfl | rfl) | hc
      · rfl
      · rfl
      · exact hc.2
    have hex : ∃ c ∈ l, c.1 = true := by
      rw [← hl]
      rcases hb with hb | hb | hb
      · exact ⟨_, List.mem_append_left _ (List.mem_cons_self ..), by simpa using hb⟩
      · exact ⟨_, List.mem_append_left _ (List.mem_cons_of_mem _ (List.mem_cons_self ..)), by simpa [TWord.immOutside] using hb⟩
      · exact ⟨_, List.mem_append_right _ (List.mem_filter.mpr ⟨hb, by simp⟩), rfl⟩
    unfold firstFault
    rw [List.find?_append]
    obtain ⟨c, hc⟩ := Option.isSome_iff_exists.mp (List.find?_isSome.mpr hex)
    rw [hc]
    have := hall c (List.mem_of_find?_eq_some hc)
    simp [this]
  simp only [e]

/-! ### Device operations -/

/-- A device operation of legal form that no check turns away comes to its own effect, after its entry in the command log. -/
theorem State.devOp_run (s : State) (f : Fin 16) (opc : BitVec 8) (fn : BitVec 4) (w : TWord) (uses : List (BitVec 5))
    (mask : BitVec 32) (objMax : Option Nat) (early : State → List (Bool × Status)) (gate : State → List (Bool × Status × BitVec 8))
    (run : State → State) (h : OpForm s f w uses mask) (ho : ∀ n, objMax = some n → ((s.flow f).obj w).toNat < n)
    (he : ∀ c ∈ early (s.taken f), c.1 = false) (hg : ∀ c ∈ gate (s.taken f), c.1 = false) :
    s.devOp f opc fn w uses mask objMax early gate run =
      run ((s.taken f).logOp f opc fn w (if objMax.isSome then ((s.flow f).obj w).setWidth 7 else 0#7) ((s.flow f).reg w.rb)) := by
  obtain ⟨hr, hl, hm, hw⟩ := h
  unfold State.devOp
  rw [State.take_run s f opc fn w uses _ hr]
  have hob : ((s.taken f).flow f).obj w = (s.flow f).obj w := by rw [State.flow_taken]; rfl
  have hrb : ((s.taken f).flow f).reg w.rb = (s.flow f).reg w.rb := by rw [State.flow_taken]; rfl
  have hc : loomCredit (s.taken f) f = true := by unfold loomCredit; rw [State.flow_taken]; simpa using hl
  have hwl : ((s.taken f).flow f).wordsLeft = (s.flow f).wordsLeft := by rw [State.flow_taken]; rfl
  have e1 : firstFault ([(w.immOutside mask, Status.badOperand),
          (match (generalizing := false) objMax with | some n => decide (n ≤ (((s.taken f).flow f).obj w).toNat) | none => false,
            .badOperand)] ++
        (early (s.taken f)).filter (fun c => decide (c.2 = .badOperand)) ++
        [(decide (((s.taken f).flow f).wordsLeft < w.xw.toNat), .length)] ++
        (early (s.taken f)).filter (fun c => decide (c.2 = .length)) ++
        (early (s.taken f)).filter (fun c => decide (c.2 = .range))) = none := by
    unfold firstFault
    rw [Option.map_eq_none_iff, List.find?_eq_none]
    intro c hc
    simp only [List.mem_append, List.mem_cons, List.mem_filter, List.not_mem_nil, or_false] at hc
    rcases hc with ((((rfl | rfl) | hc) | rfl) | hc) | hc
    · simp [TWord.immOutside, hm]
    · rw [hob]
      cases objMax with
      | none => simp
      | some n => simpa using ho n rfl
    · simp [he c hc.1]
    · rw [hwl]; simpa using hw
    · simp [he c hc.1]
    · simp [he c hc.1]
  have e2 : (gate (s.taken f)).find? (fun c => c.1) = none := by
    rw [List.find?_eq_none]
    intro c hc
    simp [hg c hc]
  simp only [hc, Bool.not_true, Bool.false_eq_true, if_false]
  split
  · next st hst => exact absurd (hst.symm.trans e1) (by simp)
  · rw [e2, hob, hrb]

/-- What the command log adds changes nothing else, and a device that does not lead a pair logs nothing (R368). -/
theorem State.logOp_spec (s : State) (f : Fin 16) (opc : BitVec 8) (fn : BitVec 4) (w : TWord) (obj : BitVec 7) (rb : W64) :
    ∃ l, s.logOp f opc fn w obj rb = { s with pr.log := l } ∧ (leads s = false → l = s.pr.log) := by
  unfold State.logOp
  dsimp only
  by_cases h : (leads s && loggedOp opc fn) = true
  · refine ⟨_, if_pos h, fun hl => ?_⟩
    rw [hl] at h
    exact absurd h (by simp)
  · exact ⟨s.pr.log, if_neg h, fun _ => rfl⟩

/-- An operation that completes at its acceptance and whose own effect leaves its flow alone. -/
theorem State.opAccept_spec (s u : State) (f : Fin 16) (w : TWord) (flags : BitVec 8) (uses : List (BitVec 5)) (h : FlowReady s f uses)
    (hu : u.flow f = { s.flow f with state := .running }) :
    Accepted s (u.opAccept f w .ok flags none) f w flags 0#64 ∧ RegsKept s (u.opAccept f w .ok flags none) f := by
  obtain ⟨h1, -, -, h4⟩ := h
  have hw : (s.flow f).wait = none := by
    simp only [flowTakes, Bool.and_eq_true] at h1
    simpa using h1.1.2
  have e : (u.opAccept f w .ok flags none).flow f =
      ((({ s.flow f with state := .running, nextOp := (s.flow f).nextOp + 1 } : FlowS).complete w.cq .ok flags 0#64).advance w.xw) := by
    unfold State.opAccept
    rw [State.flow_modFlow_same, hu]
    rfl
  obtain ⟨a, b, c, d, k, l, m, n⟩ := FlowS.goOn_spec (s.flow f) w 0#64 (s.flow f).t (s.flow f).p ((s.flow f).nextOp + 1) flags h4 hw
  unfold Accepted GoesOn RegsKept
  rw [e]
  exact ⟨⟨c, d, k, l, m, n⟩, a, b⟩

end Sys2Proof.Machine
end

