-- ==== Sys2Proof/Tests/Slice0.lean ====
section
/-! SUPPORT. Tests: ill-formed terms that the checks refuse, a state and operands that meet the hypotheses of each obligation, and
results that the spec's examples give. -/
namespace Sys2Proof.Tests
set_option Elab.async false
open Sys2Proof Sys2Proof.Machine

/-- The command answers a next state of which `p` holds. -/
def goes (c : Instr) (s : State) (p : State → Bool) : Bool :=
  match exec c s with
  | .next t => p t
  | _ => false

/-- The step answers a next state of which `p` holds. -/
def steps (s : State) (p : State → Bool) : Bool :=
  match step s with
  | .next t => p t
  | _ => false

/-- RUN, every domain in RUN, picks running at 1 ms, both channels of Selvedge sealed. -/
def up : State := { State.reset with
  pw := { State.reset.pw with state := .run, dom := Vector.replicate 13 .run }
  tb := { State.reset.tb with running := true, timeFix := 1000000 * 2 ^ 32, pickNum := 5#32, beatNum := 5#32 }
  sv := { State.reset.sv with sealed := true, ch := Vector.replicate 2 { State.reset.sv.ch[0] with state := .sealed } } }

/-- The same in READY, with picks stopped. -/
def ready : State := { up with pw := { up.pw with state := .ready }, tb := { up.tb with running := false } }

/-- A flow that executes a programme of 100 words at its first word; T1 = 7, T2 = 2^63, T3 = 3. -/
def flow7 : FlowS :=
  { prog := some { start := 0, len := 100 }, state := .running, t := (((Vector.replicate 32 0#64).set 1 7#64).set 2 (BitVec.twoPow 64 63)).set 3 3#64 }

/-- Flow 0 is `flow7`. -/
def withFlow (s : State) (fl : FlowS := flow7) : State := { s with tr.flow := upd s.tr.flow 0 fun _ => fl }

/-! ### Well-formedness -/

/-- R55, R56: as many extension words as XW says. -/
theorem test_wf_extension_words : Instr.wf (.liX 0 { xw := 1#4 }) = false ∧ Instr.wf (.liX 0 { xw := 1#4, ext := [0#64] }) = true := by decide
/-- R351: 8 data bytes without FDF, 64 with it; BRS and ESI belong to FDF. -/
theorem test_wf_can_frames :
    Instr.wf (.canFrameReceive 0 { data := List.replicate 9 0#8 }) = false ∧
      Instr.wf (.canFrameReceive 0 { fdf := true, data := List.replicate 64 0#8 }) = true ∧
      Instr.wf (.canFrameReceive 0 { fdf := true, data := List.replicate 65 0#8 }) = false ∧
      Instr.wf (.canFrameReceive 0 { brs := true }) = false ∧ Instr.wf (.canFrameReceive 0 { esi := true }) = false := by decide
/-- R13: SRAM ends at 0x4000000. -/
theorem test_wf_sram : Instr.wf (.eccUncorrectable 0x3FFFFFF#40 .plain) = true ∧ Instr.wf (.eccUncorrectable 0x4000000#40 .plain) = false ∧
    Instr.wf (.scrubPass false [0x3FFFFFF#40, 0x4000000#40]) = false := by decide
/-- R260: stop targets are arms 0 to 7 and auxiliary axes 64 to 79. -/
theorem test_wf_stop_target : (([7, 8, 63, 64, 79, 80].map stopTarget) = [true, false, false, true, true, false]) := by decide
/-- R226: Reed's configuration registers stand at multiples of 4. -/
theorem test_wf_reed_offset : Instr.wf (.reedConfigWrite 0x12#12 0#32) = false ∧ Instr.wf (.reedConfigWrite 0x10#12 0#32) = true := by decide

/-! ### The machine as a whole: states that meet the hypotheses -/

theorem test_step_takes_front : steps { State.reset with pending := [.tbTimeLoRead, .tbStart] } (fun t => decide (t.pending = [.tbStart])) = true := by
  decide +kernel

theorem test_idle_off_and_live : ({ up with pw.state := .off } : State).pending = [] ∧ up.pending = [] ∧ up.pw.state.live = true ∧
    steps up (fun t => decide (t.tb.timeFix = up.tb.timeFix + 8 * 2 ^ 32)) = true := by decide +kernel

theorem test_memory_and_time_premises : Memory.wf up.mem = true ∧ steps up (fun _ => true) = true ∧
    goes .resetNPin up (fun t => decide (t.tb.timeFix = 0)) = true := by decide +kernel

/-! ### Local instructions -/

theorem test_alu_premises :
    (let w : TWord := { rd := 31#5, ra := 1#5, rb := 2#5 }
     FlowReady (withFlow up) 0 [w.ra, w.rb, w.rd] ∧ FormOk (withFlow up) 0 w 0 0#32) ∧
    (let w : TWord := { rd := 31#5, ra := 1#5, imm := 0xFFFFFFFF#32 }
     FlowReady (withFlow up) 0 [w.ra, w.rd] ∧ FormOk (withFlow up) 0 w 0 0xFFFFFFFF#32) := by
  unfold FlowReady FormOk; decide +kernel
/-- R76: each ALU function on 2^63 and 3, and on 7 and -1. -/
theorem test_alu_results :
    ([(.add 0, 0x8000000000000003#64), (.sub 0, 0x7FFFFFFFFFFFFFFD#64), (.and 0, 0#64), (.or 0, 0x8000000000000003#64), (.xor 0, 0x8000000000000003#64),
      (.shl 0, 0#64), (.shr 0, 0x1000000000000000#64), (.sar 0, 0xF000000000000000#64), (.mul 0, 0x8000000000000000#64),
      (.min 0, 0x8000000000000000#64), (.max 0, 3#64)] : List ((TWord → Instr) × W64)).all (fun q =>
        goes (q.1 { rd := 5#5, ra := 2#5, rb := 3#5 }) (withFlow up) fun t => decide ((t.flow 0).reg 5#5 = q.2)) = true ∧
    ([(.addi 0, 6#64), (.subi 0, 8#64), (.andi 0, 7#64), (.ori 0, 0xFFFFFFFFFFFFFFFF#64), (.xori 0, 0xFFFFFFFFFFFFFFF8#64),
      (.shli 0, 0x8000000000000000#64), (.shri 0, 0#64), (.sari 0, 0#64), (.muli 0, 0xFFFFFFFFFFFFFFF9#64),
      (.mini 0, 0xFFFFFFFFFFFFFFFF#64), (.maxi 0, 7#64)] : List ((TWord → Instr) × W64)).all (fun q =>
        goes (q.1 { rd := 5#5, ra := 1#5, imm := 0xFFFFFFFF#32 }) (withFlow up) fun t => decide ((t.flow 0).reg 5#5 = q.2)) = true := by
  decide +kernel

theorem test_comparison_premises :
    (let w : TWord := { rd := 7#5, ra := 1#5, rb := 2#5 }
     1 ≤ w.rd.toNat ∧ w.rd.toNat ≤ 7 ∧ FlowReady (withFlow up) 0 [w.ra, w.rb] ∧ FormOk (withFlow up) 0 w 0 0#32) ∧
    (let w : TWord := { rd := 1#5, ra := 1#5, imm := 0x80000000#32 }
     1 ≤ w.rd.toNat ∧ w.rd.toNat ≤ 7 ∧ FlowReady (withFlow up) 0 [w.ra] ∧ FormOk (withFlow up) 0 w 0 0xFFFFFFFF#32) := by
  unfold FlowReady FormOk; decide +kernel

/-- R76: 2^63 against 3: signed less, unsigned not; the low halves are 3 behind, which is not newer, and 3 is newer than 0. -/
theorem test_comparison_results :
    ([(.cmpEq 0, false), (.cmpNe 0, true), (.cmpLt 0, true), (.cmpLe 0, true), (.cmpLtu 0, false), (.cmpLeu 0, false), (.cmpNw32 0, false),
      (.cmpNw16 0, false)] : List ((TWord → Instr) × Bool)).all (fun q =>
        goes (q.1 { rd := 4#5, ra := 2#5, rb := 3#5 }) (withFlow up) fun t => decide ((t.flow 0).pred 4#5 = q.2)) = true ∧
    ([(.cmpiEq 0, true), (.cmpiNe 0, false), (.cmpiLt 0, false), (.cmpiLe 0, true), (.cmpiLtu 0, false), (.cmpiLeu 0, true), (.cmpiNw32 0, false),
      (.cmpiNw16 0, false)] : List ((TWord → Instr) × Bool)).all (fun q =>
        goes (q.1 { rd := 4#5, ra := 3#5, imm := 3#32 }) (withFlow up) fun t => decide ((t.flow 0).pred 4#5 = q.2)) = true ∧
    goes (.cmpiNw32 0 { rd := 4#5, ra := 3#5, imm := 0x80000004#32 }) (withFlow up) (fun t => (t.flow 0).pred 4#5) = true := by
  decide +kernel

theorem test_immediate_premises :
    (let w : TWord := { rd := 31#5, imm := 0xFFFFFFFF#32 }
     FlowReady (withFlow up) 0 [w.rd] ∧ FormOk (withFlow up) 0 w 0 0xFFFFFFFF#32) ∧
    (let w : TWord := { rd := 0#5, xw := 1#4, ext := [5#64] }
     FlowReady (withFlow up) 0 [w.rd] ∧ FormOk (withFlow up) 0 w 1 0#32) ∧
    (let w : TWord := { rd := 3#5, imm := 15#32 }
     FlowReady (withFlow up) 0 [w.ra, w.rd] ∧ FormOk (withFlow up) 0 w 0 0x7F#32 ∧ (((withFlow up).flow 0).obj w).toNat = (15 : Fin 16).val) ∧
    (let w : TWord := { }
     FlowReady (withFlow up) 0 [] ∧ FormOk (withFlow up) 0 w 0 0#32) := by
  unfold FlowReady FormOk; decide +kernel

/-- R75: LI sign-extends, LIH writes the high half, LIX takes the extension word, and T0 stays 0. -/
theorem test_immediate_results :
    goes (.li 0 { rd := 5#5, imm := 0xFFFFFFFE#32 }) (withFlow up) (fun t => decide ((t.flow 0).reg 5#5 = 0xFFFFFFFFFFFFFFFE#64)) = true ∧
    goes (.lih 0 { rd := 1#5, imm := 2#32 }) (withFlow up) (fun t => decide ((t.flow 0).reg 1#5 = 0x200000007#64)) = true ∧
    goes (.liX 0 { rd := 5#5, xw := 1#4, ext := [0x123456789#64] }) (withFlow up)
      (fun t => decide ((t.flow 0).reg 5#5 = 0x123456789#64) && decide ((t.flow 0).pc = 2#21)) = true ∧
    goes (.li 0 { imm := 1#32 }) (withFlow up) (fun t => decide ((t.flow 0).reg 0#5 = 0#64)) = true ∧
    goes (.flowState 0 { rd := 5#5, imm := 0#32 }) (withFlow up) (fun t => decide ((t.flow 0).reg 5#5 = 1#64)) = true := by decide +kernel

theorem test_load_store_premises :
    (let s := withFlow up; let w : TWord := { rd := 5#5, rb := 1#5, imm := 0x39FFFF8#32 }
     let a := ((s.flow 0).addr w).toNat
     Config.sharedBase ≤ a ∧ a + 8 = Config.sharedBase + 8 * Config.sharedWords ∧ a % 8 = 0 ∧ a % 4 = 0 ∧ FormOk s 0 w 0 0xFFFFFFFF#32 ∧
       FlowReady s 0 [w.ra, w.rd] ∧ FlowReady s 0 [w.ra, w.rb] ∧ Memory.wf s.mem = true) ∧
    (let s := withFlow up; let w : TWord := { rd := 5#5, rb := 1#5, imm := 0x2C00000#32 }
     let a := ((s.flow 0).addr w).toNat
     Config.sharedBase = a ∧ a % 8 = 0 ∧ FormOk s 0 w 0 0xFFFFFFFF#32 ∧ FlowReady s 0 [w.ra, w.rd] ∧ FlowReady s 0 [w.ra, w.rb]) := by
  unfold FlowReady FormOk; decide +kernel

/-- R77: ST stores T1 = 7 little-endian, ST32 its low half, and LD32 zero-extends. -/
theorem test_load_store_results :
    goes (.st 0 { rb := 1#5, imm := 0x2C00000#32 }) (withFlow up) (fun t => decide (t.mem = [(0x2C00000, 7#8)])) = true ∧
    goes (.st32 0 { rb := 2#5, imm := 0x2C00004#32 }) (withFlow up) (fun t => decide (t.mem = [])) = true ∧
    goes (.ld 0 { rd := 5#5, imm := 0x2C00000#32 }) { withFlow up with mem := [(0x2C00001, 2#8), (0x2C00007, 0x80#8)] }
      (fun t => decide ((t.flow 0).reg 5#5 = 0x8000000000000200#64)) = true ∧
    goes (.ld32 0 { rd := 5#5, imm := 0x2C00004#32 }) { withFlow up with mem := [(0x2C00001, 2#8), (0x2C00007, 0x80#8)] }
      (fun t => decide ((t.flow 0).reg 5#5 = 0x80000000#64)) = true := by decide +kernel

theorem test_illegal_form_premises :
    (let s := withFlow up; let w : TWord := { imm := 1#32 }
     FlowReady s 0 [w.ra, w.rb, w.rd] ∧ w.imm ≠ 0#32 ∧ w.rd.toNat = 0 ∧ ((s.flow 0).addr w).toNat < Config.sharedBase) ∧
    (let s := withFlow up; let w : TWord := { xw := 1#4, rd := 8#5, imm := 0x3A00000#32 }
     FlowReady s 0 [w.ra, w.rb, w.rd] ∧ w.xw ≠ 0#4 ∧ 8 ≤ w.rd.toNat ∧
       Config.sharedBase + 8 * Config.sharedWords ≤ ((s.flow 0).addr w).toNat ∧ (Config.sharedWords : Int) ≤ (s.flow 0).pc.toNat + w.imm.toInt) ∧
    (let s := withFlow up; let w : TWord := { imm := 0xFFFFFFFF#32 }
     FlowReady s 0 [w.ra, w.rb, w.rd] ∧ ((s.flow 0).addr w).toNat % 8 ≠ 0 ∧ (s.flow 0).pc.toNat + w.imm.toInt < 0) := by
  unfold FlowReady; decide +kernel

/-- R57: status 0x10 posts an entry whatever CQ says. -/
theorem test_undefined_opcode : goes (.undefinedOpcode 0 0x7F#8 0#4 {}) (withFlow up) (fun t =>
    decide (((t.flow 0).posts.map fun p => p.status.code) = [0x10#8]) && decide ((t.flow 0).pc = 1#21)) = true := by decide +kernel

theorem test_branch_premises :
    (let s := withFlow up; let w : TWord := { rb := 7#5, rd := 5#5, imm := 1835007#32 }
     ((1835007 : Nat) : Int) = (s.flow 0).pc.toNat + w.imm.toInt ∧ 1835007 < Config.sharedWords ∧ FormOk s 0 w 0 0xFFFFFFFF#32 ∧
       FlowReady s 0 [] ∧ w.rb.toNat < 8 ∧ (s.flow 0).pc.toNat + 1 ≤ (s.flow 0).lastWord ∧ FlowReady s 0 [w.rd]) ∧
    (let s := withFlow up; let w : TWord := { ra := 1#5 }
     FormOk s 0 w 0 0#32 ∧ FlowReady s 0 [w.ra] ∧ ((s.flow 0).reg w.ra).toNat % 2 ^ 21 < Config.sharedWords) := by
  unfold FlowReady FormOk; decide +kernel

/-- R75: BR.LINK keeps the address of the next word, BR.REG goes to word 7, BR.F is taken when the predicate is 0. -/
theorem test_branch_results :
    goes (.brLink 0 { rd := 5#5, imm := 9#32 }) (withFlow up) (fun t => decide ((t.flow 0).pc = 9#21) && decide ((t.flow 0).reg 5#5 = 1#64)) = true ∧
    goes (.brReg 0 { ra := 1#5 }) (withFlow up) (fun t => decide ((t.flow 0).pc = 7#21)) = true ∧
    goes (.brF 0 { rb := 1#5, imm := 9#32 }) (withFlow up) (fun t => decide ((t.flow 0).pc = 9#21)) = true ∧
    goes (.brT 0 { rb := 1#5, imm := 9#32 }) (withFlow up) (fun t => decide ((t.flow 0).pc = 1#21)) = true ∧
    goes (.endProg 0 { ra := 1#5 }) (withFlow up) (fun t => decide ((t.flow 0).prog = none) &&
      decide (((t.flow 0).posts.map fun p => p.result) = [7#64])) = true := by decide +kernel

/-- Flow 0 with an operation in flight. -/
def busyFlow : FlowS := { flow7 with ops := [{ id := 0 }], nextOp := 1 }

theorem test_wait_premises :
    (let s := withFlow up; let w : TWord := { imm := 5#32 }
     FormOk s 0 w 0 0xFFFFFFFF#32 ∧ FlowReady s 0 [w.ra] ∧ FlowReady s 0 [] ∧ s.tb.running = true ∧
       newer (((s.flow 0).reg w.ra).setWidth 32 + w.imm) s.tb.pickNum = false ∧ w.imm ≠ 0#32 ∧ w.imm.toNat ≤ 2 ^ 30 ∧
       ((s.flow 0).reg w.ra).toNat + w.imm.toNat ≤ s.now) := by
  unfold FlowReady FormOk; decide +kernel

theorem test_wait_premises_later :
    (let s := withFlow up; let w : TWord := { imm := 0x40000005#32 }
     let wp := ((s.flow 0).reg w.ra).setWidth 32 + w.imm
     FormOk s 0 w 0 0xFFFFFFFF#32 ∧ FlowReady s 0 [w.ra] ∧ newer wp s.tb.pickNum = true ∧ (wp - s.tb.pickNum).toNat = 2 ^ 30 ∧ s.now < w.imm.toNat) ∧
    (let s := withFlow up; let w : TWord := {}
     FormOk s 0 w 0 0#32 ∧ FormOk s 0 w 0 0x7F#32 ∧ FlowReady s 0 [] ∧ FlowReady s 0 [w.ra] ∧ w.imm = 0#32 ∧ (s.flow 0).ops = [] ∧
       ((s.flow 0).obj w).toNat = (0 : Fin 80).val ∧ s.pend = [] ∧ (s.axis 0).state = .disabled) := by
  unfold FlowReady FormOk; decide +kernel

theorem test_wait_premises_axis :
    (let s := withFlow { up with cell := { up.cell with ax := up.cell.ax.set 79 { state := .moving } } } busyFlow; let w : TWord := { imm := 79#32 }
     FormOk s 0 {} 0 0#32 ∧ FormOk s 0 w 0 0x7F#32 ∧ FlowReady s 0 [w.ra] ∧ (s.flow 0).ops ≠ [] ∧ ((s.flow 0).obj w).toNat = (79 : Fin 80).val ∧
       (s.axis 79).state = .moving) ∧
    (let s := withFlow up { flow7 with state := .waiting, wait := some (.pick 5#32) }
     (s.flow 0).wait = some (.pick 5#32) ∧ (s.flow 0).state = .waiting ∧ flowsRun s = true ∧ compBlocked s 0 = false ∧ waitHolds s 0 (.pick 5#32) = true ∧
       (s.flow 0).pc.toNat + 1 ≤ (s.flow 0).lastWord) := by
  unfold FlowReady FormOk; decide +kernel

/-! ### Flows, programmes and completion entries -/

theorem test_fence_premises :
    (let s := withFlow ready; let w : TWord := { imm := 0xFFFFFFFF#32 }
     s.tb.running = false ∧ FormOk s 0 w 0 0xFFFFFFFF#32 ∧ FlowReady s 0 [w.ra] ∧
       ¬(newer (((s.flow 0).reg w.ra).setWidth 32 + w.imm) s.tb.pickNum = true ∧
         2 ^ 30 < ((((s.flow 0).reg w.ra).setWidth 32 + w.imm) - s.tb.pickNum).toNat)) ∧
    (let s := withFlow ready; let w : TWord := { imm := 0x40000000#32 }
     s.tb.running = false ∧ FormOk s 0 w 0 0xFFFFFFFF#32 ∧ FlowReady s 0 [] ∧ w.imm.toNat = 2 ^ 30 ∧
     goes (.waitBeat 0 w) s (fun t => decide ((t.flow 0).state = .fenced)) = true) := by
  unfold FlowReady FormOk; decide +kernel

theorem test_fenced_word_premises :
    (let s := withFlow up { flow7 with state := .fenced }
     flowTakes s 0 = true ∧ (s.flow 0).aborting = false ∧ (s.flow 0).state = .fenced ∧ (s.flow 0).pc.toNat + 1 + (2#4).toNat ≤ (s.flow 0).lastWord ∧
     goes (.fencedWordRetire 0 0x20#8 2#4 2#4 false) s (fun t => decide ((t.flow 0).pc = 3#21) && decide ((t.flow 0).posts = [])) = true ∧
     goes (.fencedWordRetire 0 0x00#8 1#4 0#4 false) s (fun t => decide ((t.flow 0).prog = none)) = true) ∧
    (let s := withFlow up { flow7 with state := .stopped }; flowTakes s 0 = true ∧ (s.flow 0).state = .stopped ∧ (s.flow 0).aborting = false) ∧
    (let s := withFlow up { flow7 with aborting := true }; flowTakes s 0 = true ∧ (s.flow 0).aborting = true) := by decide +kernel

theorem test_resume_abort_premises :
    (let s := withFlow { up with tr.flow := upd up.tr.flow 15 fun x => { x with state := .fenced } }; let w : TWord := { rd := 5#5, imm := 15#32 }
     (15 : Fin 16) ≠ 0 ∧ ((s.flow 0).obj w).toNat = (15 : Fin 16).val ∧ FormOk s 0 w 0 0x7F#32 ∧ FlowReady s 0 [w.ra, w.rd] ∧ (s.flow 15).state = .fenced ∧
       FlowReady s 0 [w.ra] ∧ (s.flow 15).wait = none) ∧
    (let s := withFlow up; let w : TWord := { rd := 5#5, imm := 15#32, cq := true }
     FormOk s 0 w 0 0x7F#32 ∧ FlowReady s 0 [w.ra, w.rd] ∧ (s.flow 15).state = .idle ∧ w.cq = true) ∧
    (let s := withFlow up { flow7 with abortReq := true }; flowsRun s = true ∧ (s.flow 0).abortReq = true ∧ (s.flow 0).wait = none ∧
     goes (.flowAbortEffect 0) s (fun t => (t.flow 0).aborting) = true) := by
  unfold FlowReady FormOk; decide +kernel

/-- A submission ring of flow 0 at the start of Shared data, with one entry. -/
def submits (e : Vector (BitVec 32) 4) : State :=
  { up with
    hi := { up.hi with sub := upd up.hi.sub 0 fun r => { r with base := 0x2C00000#64, loc := true, en := true, tail := 1#12 } }
    mem := memWriteList [] 0x2C00000 (wordsBytes e.toList) }

theorem test_programme_premises :
    (let s := submits #v[0x39FFFF8#32, 0#32, 0#32, 0#32]; let r := s.hi.sub[(0 : Fin 16)]
     flowsRun s = true ∧ (s.flow 0).prog = none ∧ (s.flow 0).wait = none ∧ r.en = true ∧ r.head ≠ r.tail ∧ compBlocked s 0 = false ∧ r.loc = true ∧
       goes (.programmeStart 0 default) s (fun t => decide ((t.flow 0).prog = some { start := 1835007, len := 1 }) && decide ((t.flow 0).state = .running)) = true) ∧
    goes (.programmeStart 0 default) (submits #v[0x39FFFF8#32, 0#32, 1#32, 0#32]) (fun t => decide ((t.flow 0).lastStatus = .length)) = true ∧
    goes (.programmeStart 0 default) (submits #v[0x2C00004#32, 0#32, 0#32, 0#32]) (fun t => decide ((t.flow 0).lastStatus = .badOperand)) = true ∧
    goes (.programmeStart 0 default) (submits #v[0x2C00000#32, 0#32, 0#32, 1#32]) (fun t => decide ((t.flow 0).lastStatus = .badOperand)) = true := by decide +kernel

theorem test_completion_premises :
    (let s := withFlow { up with hi.comp := upd up.hi.comp 0 fun r => { r with base := 0x2C00000#64, loc := true, en := true, irqEn := true, tail := 1#12, head := 1#12 } }
       { flow7 with posts := [{ status := .badOpcode, result := 0x0102030405060708#64 }] }
     let r := s.hi.comp[(0 : Fin 16)]
     (s.flow 0).posts ≠ [] ∧ r.en = true ∧ s.domain 3 = .run ∧ r.head.toNat < 2 ^ r.depth.toNat ∧ r.tail.toNat < 2 ^ r.depth.toNat ∧
       (r.tail.toNat + 1) % 2 ^ r.depth.toNat ≠ r.head.toNat ∧ r.loc = true ∧ Memory.wf s.mem = true ∧
       goes (.completionPost 0) s (fun t => decide (t.rd32 0x2C00010 = 0x8010#32) && decide (t.rd32 0x2C00018 = 0x05060708#32) &&
         decide ((t.hi.comp[(0 : Fin 16)]).phase = false) && decide ((t.hi.comp[(0 : Fin 16)]).irqSent = true)) = true) := by decide +kernel

theorem test_register_access_premises :
    (let s := withFlow up { flow7 with t := flow7.t.set 4 0x100000000#64 }; let w : TWord := { rd := 5#5, ra := 4#5, rb := 1#5, imm := 0#32 }
     0x100000000 ≤ ((s.flow 0).addr w).toNat ∧ ((s.flow 0).addr w).toNat ≤ 0x1012FFFFF ∧ ((s.flow 0).addr w).toNat % 4 = 0 ∧ FormOk s 0 w 0 0xFFFFFFFF#32 ∧
       FlowReady s 0 [w.ra, w.rd] ∧ FlowReady s 0 [w.ra, w.rb]) ∧
    (let s := withFlow up { flow7 with t := flow7.t.set 4 0x100000000#64 }; let w : TWord := { rd := 5#5, ra := 4#5, rb := 1#5, imm := 0x12FFFFC#32 }
     ((s.flow 0).addr w).toNat = 0x1012FFFFC ∧ FormOk s 0 w 0 0xFFFFFFFF#32 ∧ FlowReady s 0 [w.ra, w.rd] ∧ FlowReady s 0 [w.ra, w.rb] ∧
     goes (.regRd 0 { rd := 5#5, ra := 4#5, imm := 0x100#32 }) s (fun t => decide ((t.flow 0).reg 5#5 = 0x01200880#64)) = true) := by
  unfold FlowReady FormOk; decide +kernel

/-- R452, the example of 21_host_boot.md: AON_ID of an EB device, read over SPI directly after reset. -/
theorem test_spi_identification :
    goes (.spiRead 0x100000100#40) { State.reset with boot.variantEB := true }
      (fun t => decide (t.out = [.spi (List.replicate 10 0#8 ++ [0x80#8, 0x08#8, 0x21#8, 0x01#8, 0x00#8])])) = true := by decide +kernel

/-! ### Device operations -/

/-- Arm 7 owns axes 56 to 63, as the sealed image has it; axes 56 to 63 and 79 are in state `st`. -/
def cellIn (s : State) (st : AxisState) : State := { s with
  cell := { s.cell with
    ax := Vector.ofFn fun a => if 56 ≤ a.val ∧ a.val < 64 ∨ a.val = 79 then { state := st } else s.cell.ax[a]
    arm := upd s.cell.arm 7 fun _ => { first := 56, count := 8 } }
  sv := { s.sv with cfgArm := upd s.sv.cfgArm 7 fun g => { g with use := true, first := 56#7, count := 8#4 } } }

theorem test_axis_op_premises_1 :
    (let s := withFlow (cellIn up .disabled); let w : TWord := { imm := 63#32 }
     ((s.flow 0).obj w).toNat = (63 : Fin 80).val ∧ OpForm s 0 w [w.ra] 0x7F#32 ∧ w.xw = 0#4 ∧ s.lease = true ∧ OpLegal s [.run] 9 ∧
       (s.sv.sealed = true ∧ s.stopOf 63 = none) ∧ s.armOf 63 = some 7 ∧ s.armMatches 7 = true ∧ (s.axis 63).state = .disabled) ∧
    (let s := withFlow (cellIn ready .holding); let w : TWord := { imm := 79#32 }
     ((s.flow 0).obj w).toNat = (79 : Fin 80).val ∧ OpForm s 0 w [w.ra] 0x7F#32 ∧ OpLegal s [.ready, .run] 9 ∧ (s.axis 79).state ≠ .fault) ∧
    (let s := withFlow (cellIn ready .fault); let w : TWord := { imm := 79#32 }
     OpForm s 0 w [w.ra] 0x7F#32 ∧ s.lease = true ∧ OpLegal s [.ready, .run] 9 ∧ s.sv.sealed = true ∧
       ¬((s.axis 79).selFault = true ∧ s.stopOf 79 ≠ none) ∧ (s.axis 79).state = .fault) := by
  unfold OpForm OpLegal FlowReady; decide +kernel

theorem test_axis_op_premises_2 :
    (let s := withFlow (cellIn up .holding); let w : TWord := { imm := 0x34F#32, xw := 4#4, ext := [0#64, 1#64, 1#64, 1#64] }
     ((s.flow 0).obj w).toNat = (79 : Fin 80).val ∧ OpForm s 0 w [w.ra] 0x37F#32 ∧ w.xw = 4#4 ∧ s.lease = true ∧ OpLegal s [.run] 9 ∧
       s.sv.sealed = true ∧ s.stopOf 79 = none ∧ (s.axis 79).state = .holding ∧ underMpc s 79 = false ∧
       (let target := (w.x 0).toInt + (if w.imm.getLsbD 8 then s.targetOf 79 else 0)
        sat64 target = target ∧ (s.pax 79).par 9 ≤ target ∧ target ≤ (s.pax 79).par 10) ∧
       1 ≤ (w.x 1).toInt ∧ 1 ≤ (w.x 2).toInt ∧ 1 ≤ (w.x 3).toInt) ∧
    (let s := withFlow (cellIn up .moving); let w : TWord := { imm := 0x4F#32, xw := 1#4, ext := [0x7FFFFFFFFFFFFFFF#64] }
     OpForm s 0 w [w.ra] 0x37F#32 ∧ (s.axis 79).state = .moving ∧ (w.x 0).toInt ≤ (s.pax 79).par 10) := by
  unfold OpForm OpLegal FlowReady; decide +kernel

theorem test_axis_op_premises_3 :
    (let s := withFlow (cellIn up .geared); let w : TWord := { imm := 0x14F#32 }
     OpForm s 0 w [w.ra] 0x17F#32 ∧ OpLegal s [.ready, .run, .safeHold] 9 ∧ (s.axis 79).state ∈ ([.moving, .homing, .geared] : List AxisState)) ∧
    (let s := withFlow (cellIn up .stopping); let w : TWord := { imm := 0x4F#32 }
     OpForm s 0 w [w.ra] 0x17F#32 ∧ (s.axis 79).state ∉ ([.moving, .homing, .geared] : List AxisState)) ∧
    (let s := withFlow (cellIn up .holding); let w : TWord := { imm := 0x44F#32, xw := 1#4, ext := [0#64] }
     OpForm s 0 w [w.ra] 0xF7F#32 ∧ OpLegal s [.run] 9 ∧ (s.axis 79).state = .holding ∧ (BitVec.extractLsb' 8 4 w.imm).toNat = 4 ∧
       measureInvalid { s with fb.ch := upd s.fb.ch 0 fun h => { h with inmode := 3#3 } } 79 = false) ∧
    (let s := withFlow { cellIn up .holding with pg.slot := upd up.pg.slot 7 fun _ => some [{}] }; let w : TWord := { imm := 0x74F#32 }
     OpForm s 0 w [w.ra] 0x77F#32 ∧ (s.axis 79).state = .holding ∧ (7 : Fin 8).val = (BitVec.extractLsb' 8 3 w.imm).toNat ∧ s.pg.slot[(7 : Fin 8)] ≠ none) := by
  unfold OpForm OpLegal FlowReady; decide +kernel

theorem test_gear_premises :
    (let s := withFlow (cellIn up .holding); let w : TWord := { imm := 0xBF4F#32, xw := 2#4, ext := [1#64, 0#64] }
     ((s.flow 0).obj w).toNat = (79 : Fin 80).val ∧ (63 : Fin 80).val = (BitVec.extractLsb' 8 7 w.imm).toNat ∧ OpForm s 0 w [w.ra] 0xFF7F#32 ∧
       w.xw = (if w.imm.getLsbD 15 then 2#4 else 1#4) ∧ s.lease = true ∧ OpLegal s [.run] 9 ∧ s.sv.sealed = true ∧ s.stopOf 79 = none ∧
       (s.axis 79).state = .holding ∧ (s.axis 63).state.closed = true ∧ underMpc s 79 = false ∧ (63 : Fin 80) ≠ 79 ∧ (79 : Fin 80) ∉ gearChain s 9 63 ∧
       1 + (gearChain s 9 63).length + gearHeight s 9 79 ≤ 8) := by
  unfold OpForm OpLegal FlowReady; decide +kernel

theorem test_setpos_param_read_premises :
    (let s := withFlow (cellIn ready .holding); let w : TWord := { imm := 0x4F#32, xw := 1#4, ext := [5#64] }
     OpForm s 0 w [w.ra] 0x7F#32 ∧ s.lease = true ∧ OpLegal s [.ready, .run] 9 ∧ (s.axis 79).state = .holding) ∧
    (let s := withFlow (cellIn up .disabled); let w : TWord := { imm := 0x4F#32, xw := 1#4, ext := [5#64] }
     OpForm s 0 w [w.ra] 0x7F#32 ∧ OpLegal s [.ready, .run] 9 ∧ (s.axis 79).state = .disabled) ∧
    (let s := withFlow (cellIn up .disabled); let w : TWord := { imm := 0x174F#32, xw := 1#4, ext := [1#64] }
     OpForm s 0 w [w.ra] 0xFF7F#32 ∧ OpLegal s [.ready, .run] 9 ∧ 23 = (BitVec.extractLsb' 8 8 w.imm).toNat ∧ paramBad (s.pax 79) 23 (w.x 0) = false ∧
       s.tb.running = true) ∧
    (let s := withFlow (cellIn up .disabled); let w : TWord := { rd := 5#5, imm := 0x44F#32 }
     OpForm s 0 w [w.ra, w.rd] 0xFF7F#32 ∧ OpLegal s [.ready, .run, .safeHold] 9 ∧ (BitVec.extractLsb' 8 8 w.imm).toNat = 4) := by
  unfold OpForm OpLegal FlowReady; decide +kernel

theorem test_arm_define_premises :
    (let s := withFlow (cellIn ready .disabled); let w : TWord := { imm := 0x83807#32 }
     ((s.flow 0).obj w).toNat = (7 : Fin 8).val ∧ OpForm s 0 w [w.ra] 0xF7F7F#32 ∧ w.xw = 0#4 ∧ OpLegal s [.ready] 9 ∧
       (BitVec.extractLsb' 8 7 w.imm).toNat = 56 ∧ (BitVec.extractLsb' 16 4 w.imm).toNat = 8 ∧
       (∀ a : Fin 80, (56 ≤ a.val ∧ a.val < 64) ∨ a ∈ s.armAxes 7 → (s.axis a).state = .disabled) ∧
       (∀ a : Fin 80, 56 ≤ a.val → a.val < 64 → s.armOf a = none ∨ s.armOf a = some 7)) := by
  unfold OpForm OpLegal FlowReady; decide +kernel

theorem test_arm_op_premises :
    (let s := withFlow (cellIn up .disabled); let w : TWord := { imm := 7#32 }
     OpForm s 0 w [w.ra] 0x7F#32 ∧ w.xw = 0#4 ∧ s.lease = true ∧ s.armAxes 7 ≠ [] ∧ OpLegal s [.run] 9 ∧ (s.sv.armPub[(7 : Fin 8)]).stop = none ∧
       s.armMatches 7 = true ∧ (∀ a ∈ s.armAxes 7, (s.axis a).state = .disabled) ∧ (∀ a ∈ s.armAxes 7, (s.axis a).state ≠ .fault)) ∧
    (let s := withFlow (cellIn up .moving)
     let w : TWord := { imm := 0x107#32, xw := 9#4, ext := [0x40000005#64, 0#64, 0#64, 0#64, 0#64, 0#64, 0#64, 0#64, 0#64] }
     let start := ((s.flow 0).reg w.rb).setWidth 32 + (w.x 0).setWidth 32
     OpForm s 0 w [w.ra, w.rb] 0x17F#32 ∧ w.xw.toNat = 1 + (s.armDef 7).count ∧ (∀ a ∈ s.armAxes 7, (s.axis a).state = .moving) ∧
       (s.armDef 7).mpc = false ∧ newer start s.tb.beatNum = true ∧ (start - s.tb.beatNum).toNat = 2 ^ 30) := by
  unfold OpForm OpLegal FlowReady; decide +kernel

theorem test_arm_stop_premises :
    (let s := withFlow (cellIn up .moving); let w : TWord := { imm := 0x107#32 }
     OpForm s 0 w [w.ra] 0x17F#32 ∧ OpLegal s [.ready, .run, .safeHold] 9 ∧
       ∃ a ∈ s.armAxes 7, (s.axis a).state ∈ ([.moving, .homing, .geared] : List AxisState)) ∧
    (let s := withFlow { cellIn up .holding with qp.planning := true }; let w : TWord := { imm := 7#32 }
     OpForm s 0 w [w.ra] 0x17F#32 ∧ OpLegal s [.run] 9 ∧ (∀ a ∈ s.armAxes 7, (s.axis a).state ∉ ([.moving, .homing, .geared] : List AxisState)) ∧
       (s.sv.armPub[(7 : Fin 8)]).stop = none ∧ (∀ a ∈ s.armAxes 7, (s.axis a).state = .holding) ∧ s.qp.planning = true) ∧
    (let s := withFlow { cellIn up .holding with cell.arm := upd (cellIn up .holding).cell.arm 7 fun m => { m with mpc := true } }
     let w : TWord := { imm := 7#32 }
     OpForm s 0 w [w.ra] 0x17F#32 ∧ OpLegal s [.run] 9 ∧ (s.armDef 7).mpc = true) := by
  unfold OpForm OpLegal FlowReady; decide +kernel

theorem test_effect_premises :
    (let s := cellIn up .disabled; let e : Effect := { axes := [63], kind := .enable }
     e.axes = [63] ∧ s.pw.state = .run ∧ s.domain 9 = .run ∧ (∀ r, (s.armDef r).mpc = false) ∧ s.sv.sealed = true ∧ s.stopOf 63 = none ∧
       deniedEnable s 63 = false ∧
       (let u : State := { s with ce.sl := upd s.ce.sl 63 fun l => { l with src := true, known := true } }
        (u.slice 63).unknown = false) ∧
       (s.axis 63).state = .disabled) ∧
    (let s := cellIn up .holding; (s.axis 79).state = .holding ∧ s.stopOf 79 = none ∧ (s.axis 79).state ≠ .disabled) ∧
    (let s := cellIn up .fault; s.sv.sealed = true ∧ (s.axis 79).selFault = false ∧ (s.axis 79).state = .fault) ∧
    (let s := cellIn up .homing; (s.axis 79).state ∈ ([.moving, .homing, .geared] : List AxisState)) ∧
    (let s : State := { cellIn up .holding with pg.slot := upd up.pg.slot 7 fun _ => some [{}] }
     s.pg.slot[(7 : Fin 8)] ≠ none ∧ (s.axis 79).state = .holding) := by decide +kernel

/-- R79: a move from HOLDING goes to MOVING with its target, a stop from there to STOPPING. -/
theorem test_effect_results :
    (let t := (cellIn up .holding).applyEffect { axes := [79], kind := .move 65536 none false } 6#32 5#32
     (t.axis 79).state = .moving ∧ (t.pax 79).target = 65536) ∧
    (((cellIn up .moving).applyEffect { axes := [79], kind := .stop true } 6#32 5#32).axis 79).state = .stopping ∧
    (((cellIn up .fault).applyEffect { axes := [79], kind := .clear } 6#32 5#32).axis 79).state = .disabled := by decide +kernel

theorem test_loop_premises :
    (let s := withFlow ready; let w : TWord := { imm := 79#32, xw := 1#4, ext := [0x39FFFA0#64] }
     ((s.flow 0).obj w).toNat = (79 : Fin 80).val ∧ OpForm s 0 w [w.ra] 0x7F#32 ∧ OpLegal s [.ready, .run] 9 ∧ w.xw = 1#4 ∧
       Config.sharedBase ≤ (w.x 0).toNat ∧ (w.x 0).toNat % 8 = 0 ∧ (w.x 0).toNat + 96 = Config.sharedBase + 8 * Config.sharedWords ∧
       (s.slice 79).swapPend = []) ∧
    (let m := memWriteList [] 0x2C00000 ((List.replicate 28 0#8) ++ [0xFF#8, 0xFF#8, 0xFF#8, 0x3F#8] ++ List.replicate 64 0#8)
     bankReserved (memReadList m 0x2C00000 96) = false) ∧
    (let s := withFlow up; let w : TWord := { imm := 79#32 }
     OpForm s 0 w [w.ra] 0x7F#32 ∧ w.xw = 0#4 ∧ s.lease = true ∧ (s.axis 79).state ≠ .fault ∧ s.tb.running = true) ∧
    (let s := withFlow ready; let w : TWord := { imm := 79#32 }
     OpForm s 0 w [w.ra] 0x7F#32 ∧ (s.axis 79).state ≠ .fault ∧ s.tb.running = false) := by
  unfold OpForm OpLegal FlowReady; decide +kernel

theorem test_channel_table_premises :
    (let s := withFlow up; let w : TWord := { imm := 0x15F#32 }
     ((s.flow 0).obj w).toNat = (95 : Fin 96).val ∧ OpLegal s [.ready, .run] 9 ∧ OpForm s 0 w [w.ra] 0x37F#32 ∧ w.xw = 0#4 ∧ (s.ch 95).mapped = false) ∧
    (let s := withFlow up; let w : TWord := { imm := 0x75F#32, xw := 1#4, ext := [0xFFFFFFFFFFFF0000#64] }
     OpForm s 0 w [w.ra] 0x77F#32 ∧ w.xw = 1#4 ∧ s.lease = true ∧ (w.x 0).toNat % 65536 = 0) ∧
    (let s := withFlow up; let w : TWord := { imm := 0x5F#32 }
     OpForm s 0 w [w.ra] 0x7F#32 ∧ s.lease = true ∧ w.xw = 0#4) ∧
    (let s := withFlow { ready with mem := [(0x2C00008, 1#8)] }; let w : TWord := { imm := 7#32, xw := 2#4, ext := [0x2C00000#64, 1#64] }
     let image := memReadList s.mem (w.x 0).toNat 16
     ((s.flow 0).obj w).toNat = (7 : Fin 8).val ∧ OpForm s 0 w [w.ra] 0x7F#32 ∧ w.xw = 2#4 ∧ OpLegal s [.ready, .run] 9 ∧ segReserved image 1 = false ∧
       (let g := imgSegment image 0
        g.picks ≠ 0 ∧ g.jump = false) ∧ (∀ a, ¬((s.pax a).src = .seg ∧ (s.pax a).seg.slot = 7))) := by
  unfold OpForm OpLegal FlowReady; decide +kernel

/-! ### Images -/

/-- The words of an image from address `a`. -/
def image (a : Nat) (ws : List (BitVec 32)) (m : List Host.Cell := []) : List Host.Cell := memWriteList m a (wordsBytes ws)

/-- A draft of one node without a parameter block (R86, R89). -/
def draftImage : List (BitVec 32) := [1#32, 1#32, 48#32, 0x7259ad64#32] ++ List.replicate 8 0#32

/-- A schedule of class S with H = 4 and one input, no constraint, one supernode of one entry, and a microprogram of one END (R204 to R212). -/
def schedule : List (BitVec 32) :=
  [1#32, 4#32, 0#32, 0x10004#32, 0#32, 0#32, 0#32, 1#32, 1#32, 0#32, 192#32, 0xa29a491#32, 0x3F800000#32, 0x3F800000#32, 0x4ca700ae#32, 0x651f30a#32,
   128#32, 128#32, 128#32, 128#32, 144#32, 176#32, 1#32, 0#32] ++ List.replicate 8 0#32 ++
  [0#32, 0#32, 0#32, 0#32, 0x80000#32, 0x10000#32, 1#32, 40#32, 0#32, 0#32, 0#32, 0#32, 0#32, 0#32, 0#32, 0#32]

/-- The bytes of the schedule at the start of Shared data, as memory lists them. -/
def scheduleCells : List Host.Cell :=
  [(46137344, 1#8), (46137348, 4#8), (46137356, 4#8), (46137358, 1#8), (46137372, 1#8), (46137376, 1#8),
   (46137384, 192#8), (46137388, 145#8), (46137389, 164#8), (46137390, 41#8), (46137391, 10#8), (46137394, 128#8),
   (46137395, 63#8), (46137398, 128#8), (46137399, 63#8), (46137400, 174#8), (46137402, 167#8), (46137403, 76#8),
   (46137404, 10#8), (46137405, 243#8), (46137406, 81#8), (46137407, 6#8), (46137408, 128#8), (46137412, 128#8),
   (46137416, 128#8), (46137420, 128#8), (46137424, 144#8), (46137428, 176#8), (46137432, 1#8), (46137490, 8#8),
   (46137494, 1#8), (46137496, 1#8), (46137500, 40#8)]

/-- A public key of P-384 (the base point, of private key 1) as an image carries it. -/
def pubKey : List Byte :=
  (natBytes
    0xaa87ca22be8b05378eb1c71ef320ad746e1d3b628ba79b9859f741e082542a385502f25dbf55296c3a545e3872760ab73617de4a96262c6f5d9e98bf9292dc29f8f41dbd289a147ce9da3113b5f0b8c00a60b1ce1d7e819d7a431d7c90ea0e5f
    96).reverse

/-- The fuses hold the hash of the key. -/
def fused (s : State) : State := { s with boot := { s.boot with
  keyHash := some 0xa19d4db171b582eb8052b0cfe555e17894aa22d1c8a9770950697dd8f796d2fa4bf0a56ad80006b7ea08e1191f814b65#384 } }

/-- A signed firmware image of 4096 bytes with one section for each channel (R446). -/
def firmware : List Byte :=
  wordsBytes ([1#32, 4096#32, 5#32, 2#32, 0#32, 0#32, 0#32, 0#32] ++ [0#32, 64#32, 0#32, 16#32] ++ [1#32, 64#32, 0#32, 16#32]) ++
    List.replicate 3840 0#8 ++ pubKey ++
    (natBytes
      0x08d999057ba3d2d969260045c55b97f089025959a6f434d651d207d19fb96e9e4fe0e86ebe0e64f85b96a9c75295df617f014ef9ac95d8881efe206a1d65c2d23d28b2053357606f379cacf20e089f87cf73ad5dc44f54fe4916b5c76d3f1942
      96).reverse

/-- A signed safety image of two functions: an emergency stop and its reset (R250, R251). -/
def safetyImage : List Byte :=
  wordsBytes ([0x1#32, 0x660#32, 0x0#32, 0x2#32, 0x640#32, 0x1#32, 0x0#32, 0x0#32, 0x0#32, 0x0#32, 0x0#32, 0x0#32, 0x0#32, 0x0#32] ++
    [0x102020#32, 0x30280032#32, 0x0#32, 0x0#32, 0x0#32, 0x0#32] ++ List.replicate 8 0x2710000#32 ++ List.replicate 4 0#32 ++
    [0x20000#32, 0x1#32, 0xa0000#32, 0x0#32, 0x14#32, 0x0#32, 0x1f40000#32, 0x0#32]) ++ List.replicate 1280 0#8 ++ pubKey ++
    (natBytes
      0x077a41d4606ffa1464793c7e5fdc7d98cb9d3910202dcd06bea4f240d3566da6b408bbae5026580d02d7e5c70500c8318a67f9b8bb19bda2677838fdebd0555e86b8caa9a1c63c9295f66d8b3e985ed4596708d2f99482421abeba86b92671ee
      96).reverse

/-- Both halves read the SEAL that the safety image requires (R287). -/
def unsealed : State := fused { ready with
  sv := { State.reset.sv with ch := Vector.replicate 2 { State.reset.sv.ch[0] with state := .unsealed } }
  sio := { ready.sio with half := Vector.replicate 2 { ready.sio.half[0] with sealRd := some 0x825c00#24 } } }

/-! ### Drafts, Churn, Selvedge, recorder, power and pair -/

/-- A state with an image at the start of Shared data. -/
def holding (s : State) (ws : List (BitVec 32)) : State := { s with mem := image 0x2C00000 ws s.mem }

/-- The operands of a load of an image of `n` bytes or nodes. -/
def loadOf (n : W64) (imm : BitVec 32 := 0#32) : TWord := { imm := imm, xw := 2#4, ext := [0x2C00000#64, n] }

theorem test_draft_premises :
    (let s := withFlow (holding ready draftImage); let w := loadOf 1#64 7#32
     ((s.flow 0).obj w).toNat = (7 : Fin 8).val ∧ OpForm s 0 w [w.ra] 0x7F#32 ∧ w.xw = 2#4 ∧ OpLegal s [.ready, .run] 4 ∧ (s.draft 7).state ≠ .bound ∧
       sharedOk (w.x 0) 8 = true ∧ (∀ c ∈ draftBad s.mem (w.x 0).toNat (w.x 1).toNat, c.1 = false) ∧ draftCrcOk s.mem (w.x 0).toNat = true ∧
       Memory.wf s.mem = true) ∧
    (let s := withFlow { ready with lm.slot := upd ready.lm.slot 7 fun x => { x with state := .loaded } }; let w : TWord := { imm := 0x1707#32 }
     OpForm s 0 w [w.ra] 0x377F#32 ∧ w.xw = 0#4 ∧ w.imm.getLsbD 13 = false ∧ OpLegal s [.ready] 4 ∧ (s.draft 7).state = .loaded ∧ leads s = false) ∧
    (let s := withFlow ready; let w : TWord := { imm := 7#32 }
     OpForm s 0 w [w.ra] 0x7F#32 ∧ OpLegal s [.ready, .run] 4 ∧ (s.draft 7).state ≠ .bound) := by
  unfold OpForm OpLegal FlowReady; decide +kernel

/-- R91: a loaded image is in its slot. -/
theorem test_draft_result : goes (.draftLoad 0 (loadOf 1#64 7#32)) (withFlow (holding ready draftImage))
    (fun t => decide ((t.draft 7).state = .loaded) && decide ((t.draft 7).nodes = 1#13) && decide (t.rd32 (slotBase 7 + 8) = 48#32)) = true := by decide +kernel

/-- A QP instance without variables and constraints (R182). -/
def qpInstance : List (BitVec 32) := [1#32] ++ List.replicate 7 0#32 ++ [592#32, 0#32, 0#32, 0#32] ++ List.replicate 7 592#32

theorem test_churn_premises_1 :
    (let s := withFlow { up with
       qp.sched := true
       lm.slot := upd up.lm.slot 7 fun x => { x with state := .bound, rate := true, nodes := 1#13 }
       mem := image (slotBase 7 + 32) [0x400033#32] }
     let w : TWord := { imm := 7#32 }
     ((s.flow 0).obj w).toNat = (7 : Fin 8).val ∧ OpForm s 0 w [w.ra] 0x7F#32 ∧ w.xw = 0#4 ∧ s.lease = true ∧ OpLegal s [.run] 7 ∧ s.qp.sched = true ∧
       formingDraft s 7 = true ∧ planStopped s = true) ∧
    (let s := withFlow ready
     OpForm s 0 {} [] 0#32 ∧ s.lease = true ∧ OpLegal s [.ready, .run] 7 ∧ (∀ r, (s.armDef r).mpc = false)) ∧
    (let s := withFlow { holding ready qpInstance with qp.sched := true }; let w : TWord := { rd := 5#5, xw := 2#4, ext := [0x2C00000#64, 0x39FF000#64] }
     OpForm s 0 w [w.rd] 0#32 ∧ w.xw = 2#4 ∧ OpLegal s [.ready, .run] 7 ∧ planStopped s = true ∧ sharedOk (w.x 0) 8 = true ∧ sharedOk (w.x 1) 8 = true ∧
       instCheck s.mem (w.x 0).toNat s.qp.sig s.qp.sched = none ∧
       (w.x 0).toNat + (iWord s.mem (w.x 0).toNat 8).toNat ≤ Config.sharedBase + 8 * Config.sharedWords ∧
       (w.x 1).toNat + solutionBytes (qpDims s.mem) ≤ Config.sharedBase + 8 * Config.sharedWords) := by
  unfold OpForm OpLegal FlowReady; decide +kernel

/-- The schedule image in memory. -/
def theSchedule : SchImg := { mem := scheduleCells, at_ := 0x2C00000 }

/-- The bytes whose CRC its header carries, with the CRC word taken as zero. -/
def scheduleBytes : List Byte := memReadList scheduleCells 0x2C00000 44 ++ [0#8, 0#8, 0#8, 0#8] ++ memReadList scheduleCells 0x2C00030 144

theorem crcFold_append {n : Nat} (p : BitVec n) (a b : List Byte) (c : BitVec n) : crcFold p c (a ++ b) = crcFold p (crcFold p c a) b := by
  induction a generalizing c with
  | nil => rfl
  | cons x r ih => exact ih _

theorem schedule_bytes_cut : scheduleBytes =
    scheduleBytes.take 48 ++ ((scheduleBytes.drop 48).take 48 ++ ((scheduleBytes.drop 96).take 48 ++ scheduleBytes.drop 144)) := by decide +kernel

theorem schedule_crc_1 : crcFold 0x82F63B78#32 0xFFFFFFFF#32 (scheduleBytes.take 48) = 360381563#32 := by decide +kernel
theorem schedule_crc_2 : crcFold 0x82F63B78#32 360381563#32 ((scheduleBytes.drop 48).take 48) = 2549979042#32 := by decide +kernel
theorem schedule_crc_3 : crcFold 0x82F63B78#32 2549979042#32 ((scheduleBytes.drop 96).take 48) = 1792713725#32 := by decide +kernel
theorem schedule_crc_4 : crcFold 0x82F63B78#32 1792713725#32 (scheduleBytes.drop 144) = 4124466030#32 := by decide +kernel

/-- R204: the CRC of the schedule. -/
theorem test_schedule_crc : theSchedule.crcOk = true := by
  have h : crc32c scheduleBytes = 170501265#32 := by
    rw [schedule_bytes_cut, crc32c, crcFold_append, schedule_crc_1, crcFold_append, schedule_crc_2, crcFold_append, schedule_crc_3, schedule_crc_4]
    decide
  have w : theSchedule.w 11 = 170501265#32 := by decide +kernel
  have n : theSchedule.len = 192 := by decide +kernel
  unfold SchImg.crcOk
  rw [w, n]
  exact decide_eq_true h

theorem schedule_no_failure : (theSchedule.headerBad 192 ++ theSchedule.tablesBad ++ theSchedule.codeBad ++ theSchedule.lengthBad 192 ++
    theSchedule.rangeBad) = [] := by decide +kernel

/-- R219: the schedule passes every check. -/
theorem test_schedule_passes : theSchedule.check 192 = none := by
  unfold SchImg.check
  rw [schedule_no_failure, test_schedule_crc]
  rfl

theorem test_churn_premises_2 :
    (let s := withFlow { ready with mem := scheduleCells }; let w := loadOf 192#64
     OpForm s 0 w [] 0#32 ∧ w.xw = 2#4 ∧ OpLegal s [.ready, .run] 7 ∧ planStopped s = true ∧ sharedOk (w.x 0) 16 = true ∧ (schImg s w).mem = theSchedule.mem ∧
       (schImg s w).at_ = theSchedule.at_ ∧ (w.x 1).toNat = 192) ∧
    (let s := withFlow { holding up [1#32, 0#32, 16#32] with qp.sched := true }; let w := loadOf 16#64
     OpForm s 0 w [] 0#32 ∧ OpLegal s [.ready, .run] 7 ∧ s.qp.sched = true ∧ s.qp.cost = none ∧ sharedOk (w.x 0) 8 = true ∧
       s.rd32 0x2C00000 = 1#32 ∧ s.rd32 0x2C0000C = 0#32 ∧ (s.rd32 0x2C00004).toNat = (BitVec.extractLsb' 16 16 (schWord s.mem 3)).toNat ∧
       (s.rd32 0x2C00008).toNat ≤ (w.x 1).toNat ∧ 16 + 8 * (s.rd32 0x2C00004).toNat ≤ (s.rd32 0x2C00008).toNat) := by
  unfold OpForm OpLegal FlowReady; decide +kernel

theorem test_schedule_bytes : image 0x2C00000 schedule = scheduleCells := by decide +kernel

theorem test_churn_premises_3 :
    (let j : ChJob := { w0 := 0x2C00000#64, w1 := 48#64, crc := 680278713#32 }
     let s : State := { ready with qp := { ready.qp with jobs := [j] } }
     s.qp.jobs = j :: [] ∧ j.submit = false ∧ qpOn s = true ∧
       schCrc (memWriteList s.mem chBase (memReadList s.mem j.w0.toNat j.w1.toNat)) chBase j.w1.toNat = j.crc) ∧
    (let s : State := ready
     schCrc (memWriteList s.mem chBase (memReadList s.mem 0x2C00000 48)) chBase 48 ≠ 0#32) := by
  decide +kernel

theorem test_safety_recorder_premises_1 :
    (let s := withFlow { ready with sv.sealed := false }; let w : TWord := { xw := 2#4, ext := [0x39FFFF8#64, 8#64] }
     OpForm s 0 w [] 0#32 ∧ w.xw = 2#4 ∧ OpLegal s [.ready] 1 ∧ s.sv.sealed = false ∧ sharedOk (w.x 0) 8 = true ∧
       (w.x 0).toNat + (w.x 1).toNat = Config.sharedBase + 8 * Config.sharedWords) ∧
    (let s := withFlow up; let w : TWord := { imm := 0xF0#32 }
     OpForm s 0 w [] 0xFF#32 ∧ w.xw = 0#4 ∧ s.lease = true ∧ OpLegal s [.ready, .run] 1 ∧ BitVec.extractLsb' 0 8 w.imm = 0xF0#8) ∧
    (let s := withFlow up; let w : TWord := { imm := 31#32 }
     OpForm s 0 w [] 0xFF#32 ∧ (BitVec.extractLsb' 0 8 w.imm).toNat ≤ 31) ∧
    (let s := withFlow up; let w : TWord := { imm := 0x800#32, ra := 1#5 }
     OpForm s 0 w [w.ra] 0xFFF#32 ∧ OpLegal s [.ready, .run, .safeHold] 12 ∧ 0x800 ≤ (BitVec.extractLsb' 0 12 w.imm).toNat ∧ OpForm s 0 {} [] 0#32) := by
  unfold OpForm OpLegal FlowReady; decide +kernel

theorem test_safety_recorder_premises_2 :
    (let s := withFlow up { flow7 with t := flow7.t.set 4 0x39FFF00#64 }; let w : TWord := { imm := 64#32, rd := 5#5, ra := 4#5 }
     OpForm s 0 w [w.rd, w.ra] 0xFFFF#32 ∧ OpLegal s [.ready, .run, .safeHold] 12 ∧ Memory.wf s.mem = true ∧ sharedOk ((s.flow 0).reg w.ra) 4 = true ∧
       64 ≤ (BitVec.extractLsb' 0 16 w.imm).toNat ∧
       ((s.flow 0).reg w.ra).toNat + 4 * (BitVec.extractLsb' 0 16 w.imm).toNat = Config.sharedBase + 8 * Config.sharedWords ∧ s.er.unread = 0) ∧
    (let l : SvLoad := { flow := 0, op := 0, bytes := safetyImage, len := 1632 }
     let s : State := { unsealed with sv.loads := [l] }
     s.sv.loads = l :: [] ∧ s.sv.sealed = false ∧ ∀ c, (s.svCh c).state = .unsealed) ∧
    (let l : SvLoad := { flow := 0, op := 0, bytes := [], len := 0 }
     validate unsealed l.bytes l.len = some (1, 0)) ∧ up.sv.sealed ≠ false := by
  unfold OpForm OpLegal FlowReady; decide +kernel

theorem test_power_pair_premises :
    (let s := withFlow { ready with tb.running := true }; let w : TWord := { imm := 4#32 }
     OpForm s 0 w [] 7#32 ∧ s.lease = true ∧ OpLegal s [.ready, .run] 0 ∧ BitVec.extractLsb' 0 3 w.imm = 4#3 ∧ s.pw.state = .ready ∧ setOk s 0 .run = true) ∧
    (let s := withFlow up; let w : TWord := { imm := 3#32 }
     OpForm s 0 w [] 7#32 ∧ OpLegal s [.ready, .run] 0 ∧ s.pw.state = .run ∧ setOk s 0 .ready = true) ∧
    (let s := withFlow ready; let w : TWord := { imm := 2#32 }
     OpForm s 0 w [] 7#32 ∧ setOk s 0 .sleep = true ∧ setOk s 0 .standby = true ∧ s.pw.state = .ready) := by
  unfold OpForm OpLegal FlowReady; decide +kernel

theorem test_domain_pair_premises :
    (let s := withFlow ready; let w : TWord := { imm := 0x20C#32 }
     OpForm s 0 w [w.ra] 0x37F#32 ∧ OpLegal s [.ready, .run] 0 ∧ ((s.flow 0).obj w).toNat = (12 : Fin 13).val ∧
       s.domain 12 ≠ DomState.ofCode (BitVec.extractLsb' 8 2 w.imm) ∧ domainOk s 12 (DomState.ofCode (BitVec.extractLsb' 8 2 w.imm)) = true) ∧
    (let s := withFlow ready; let w : TWord := { imm := 0x303#32 }
     ((s.flow 0).obj w).toNat = (3 : Fin 13).val ∧ s.domain 3 = DomState.ofCode (BitVec.extractLsb' 8 2 w.imm)) ∧
    (let s := withFlow { ready with pr := { ready.pr with en := true, lane := #v[false, true] } }
     OpForm s 0 {} [] 0#32 ∧ OpLegal s [.ready, .run] 11 ∧ s.pr.en = true ∧ s.pr.role = .alone ∧ pairUp s = true) := by
  unfold OpForm OpLegal FlowReady; decide +kernel

/-! ### Cell time and picks -/

theorem test_pick_start_premises :
    up.tb.running = true ∧ ready.tb.running = false ∧ ready.pw.state = .ready ∧ ({ up with tb.running := false } : State).pw.state ≠ .ready ∧
    (BitVec.extractLsb' 0 24 ready.tb.stagedPeriod).toNat * 256 + (BitVec.extractLsb' 24 8 ready.tb.stagedPeriod).toNat = 2000000 ∧
    (BitVec.extractLsb' 0 24 0x00000F42#32).toNat * 256 + (BitVec.extractLsb' 24 8 0x40000F42#32).toNat = 1000000 := by decide +kernel

/-- R45, R46: START with the reset period, and outside READY. -/
theorem test_pick_start_results :
    goes .tbStart ready (fun t => t.tb.running && decide (t.tb.activeN = 16#7) && decide (t.tb.j % 16 = 0)) = true ∧
    goes .tbStart { ready with pw.state := .safeHold } (fun t => t.tb.startRej && !t.tb.running) = true ∧
    goes .tbStart { ready with tb.stagedN := 65#7 } (fun t => t.tb.rangeRej && !t.tb.running) = true ∧
    goes .tbStart up (fun t => t.tb.startRej && t.tb.running) = true ∧
    goes .tbStart { ready with tb.running := true } (fun t => !t.tb.startRej && decide (t.tb.j = 0) && t.tb.running) = true ∧
    goes .tbApply ready (fun t => t.tb.applyRej) = true ∧
    goes .tbApply { ready with tb.running := true } (fun t => decide (t.tb.pending = some (0x80001E84#32, 16#7))) = true := by decide +kernel

/-- R38, the example of 02_time_base.md: the period of 7,812.5 ticks is 62,500 ns. -/
theorem test_pick_premises :
    (let s : State := { up with tb := { up.tb with gridOrigin := 4000000 * 2 ^ 32 } }
     s.tb.running = true ∧ s.pw.state = .run ∧ s.pr.await = false ∧ s.tb.pending = none ∧ 0 < (tickInc s).toNat ∧ s.pickV = 2000000 ∧
       s.tb.gridOrigin + s.tb.j * (s.pickV * 2 ^ 27) > s.tb.timeFix) ∧
    (let s : State := { up with tb := { up.tb with phase := 15#6 } }
     s.tb.activeN.toNat ≤ s.tb.phase.toNat + 1 ∧ s.tb.gridOrigin + s.tb.j * (s.pickV * 2 ^ 27) ≤ s.tb.timeFix) := by decide +kernel

theorem test_read_premises :
    (∀ d : Fin 13, (up.domain d).up = true) ∧ up.fb.trace = [] ∧ hiUp up = true ∧
    pathOk up .bar0 0x100000100#40 = true ∧ pathOk up .bar0 0x3FFFFFC#40 = false := by decide +kernel

/-- R6, R42: reads that capture, and a counter cleared by its write. -/
theorem test_read_results :
    goes .tbTimeLoRead up (fun t => decide (t.rdata = [1000000#32])) = true ∧
    goes (.fbPosLoRead 95) { up with fb.ch := upd up.fb.ch 95 fun h => { h with latch := { h.latch with x := -1 } } }
      (fun t => decide (t.rdata = [0xFFFFFFFF#32]) && decide (((t.ch 95).cap.map fun q => q.1) = some 0xFFFFFFFF#32)) = true ∧
    goes (.ptCntClear 7 5) up (fun t => decide ((t.sw.port[(7 : Fin 8)]).cnt[(5 : Fin 6)] = 0#32)) = true ∧
    goes .hwImg0Read up (fun t => decide (t.rdata = [1#32])) = true := by decide +kernel

/-! ### Feedback, configuration, stepper links -/

/-- Channel 31 changed. -/
def chan (g : FbCh → FbCh) (s : State := up) : State := { s with fb.ch := upd s.fb.ch 31 g }

theorem test_edge_premises :
    up.domain 9 = .run ∧
    (let s := chan fun h => { h with inmode := 1#3, bTime := 999984, raw := 140737488355326, mode := .normal }
     (s.ch 31).bTime + 16 = s.now ∧ (s.ch 31).levelA = false ∧ (s.ch 31).wireCond = false ∧
       goes (.fbEdge 31 (some true) none) s (fun t => decide ((t.ch 31).raw = 140737488355327) && decide ((t.ch 31).rep = 140737488355327))) = true ∧
    goes (.fbEdge 31 (some true) none) (chan fun h => { h with inmode := 2#3, raw := -1 }) (fun t => decide ((t.ch 31).raw = 0)) = true ∧
    goes (.fbEdge 31 none (some true)) (chan fun h => { h with inmode := 2#3, raw := -140737488355326, invDir := false })
      (fun t => decide ((t.ch 31).raw = -140737488355327)) = true ∧
    goes (.fbEdge 31 (some true) (some true)) (chan fun h => { h with inmode := 2#3, raw := 9 })
      (fun t => decide ((t.ch 31).raw = 9) && (t.ch 31).sticky.getLsbD 11) = true ∧
    goes (.fbEdge 31 (some true) none) (chan fun h => { h with inmode := 3#3 }) (fun t => decide ((t.ch 31).raw = 1)) = true ∧
    goes (.fbEdge 31 none (some true)) (chan fun h => { h with inmode := 3#3, invDir := true }) (fun t => decide ((t.ch 31).raw = 1)) = true ∧
    goes (.fbEdge 31 (some true) (some true)) (chan fun h => { h with inmode := 3#3, axis := 79#7, mapped := true })
      (fun t => decide ((t.ch 31).mode = .recovery) && decide ((t.axis 79).state = .fault)) = true ∧
    goes (.fbEdge 31 (some true) none) (chan fun h => { h with inmode := 4#3, axis := 79#7, mapped := true }) (fun t => decide ((t.ch 31).raw = 1)) = true ∧
    goes (.wireFault 31) (chan fun h => { h with inmode := 3#3 }) (fun t => (t.ch 31).wireCond && decide ((t.ch 31).mode = .recovery)) = true ∧
    goes (.faultConditionEnd 31) (chan fun h => { h with wireCond := true, ssiCond := true }) (fun t => !(t.ch 31).wireCond && !(t.ch 31).ssiCond) = true := by
  decide +kernel

theorem test_serial_premises :
    (let s := chan fun h => { h with inmode := 5#3 }
     (s.ch 31).inmode = 5#3 ∧ s.domain 9 = .run ∧ s.tb.running = true ∧ (s.ch 31).ssiStart = none ∧
       goes (.ssiTransferStart 31) s (fun t => decide ((t.ch 31).ssiStart = some (1000000, 6#32)) && decide (t.out = [.ssi 31]))) = true ∧
    (let s := chan fun h => { h with inmode := 5#3, ssiStart := some (0, 5#32) }
     goes (.ssiTransferStart 31) s (fun t => (t.ch 31).ssiAgain)) = true ∧
    -- 8 bits, Gray, even parity: Gray 0xC0 is 128; 129 is 0xC1 of odd weight
    (let s := chan fun h => { h with inmode := 5#3, ssiStart := some (0, 5#32), bits := 8#6, gray := true, parity := 1#2 }
     goes (.ssiWord 31 0xC0#40 false false (some 2000#16)) s (fun t => decide ((t.ch 31).raw = 128) && decide ((t.ch 31).wPrev = some 128))) = true ∧
    -- 8 bits: 127 before, 254 now: + 127; 128 away is half the range: a fault
    (let s := chan fun h => { h with inmode := 5#3, ssiStart := some (0, 5#32), bits := 8#6, wPrev := some 127, raw := 127, rep := 127, mode := .normal, jumpMax := 127#16 }
     goes (.ssiWord 31 254#40 false false (some 0#16)) s (fun t => decide ((t.ch 31).raw = 254) && decide ((t.ch 31).rep = 254)) = true ∧
       goes (.ssiWord 31 255#40 false false (some 0#16)) { s with fb.ch := upd s.fb.ch 31 fun h => { h with jumpMax := 0#16 } }
         (fun t => decide ((t.ch 31).mode = .recovery) && decide ((t.ch 31).raw = 127)) = true) ∧
    (let s := chan fun h => { h with inmode := 5#3, ssiStart := some (0, 5#32), ssiRun := 2, raw := 9 }
     goes (.ssiWord 31 0#40 false true none) s (fun t => (t.ch 31).ssiCond && decide ((t.ch 31).raw = 9)) = true ∧
       goes (.ssiWord 31 0#40 false false (some 2001#16)) s (fun t => decide ((t.ch 31).errBad = 1#16)) = true) ∧
    (let s : State := { up with fb.trig := upd up.fb.trig 7 fun g => { g with pulses := [1000100, 1000050] } }
     1000050 ∈ (s.fb.trig[(7 : Fin 8)]).pulses ∧ (∀ x ∈ (s.fb.trig[(7 : Fin 8)]).pulses, 1000050 ≤ x) ∧
       goes (.trigPulseEnd 7) s (fun t => decide ((t.fb.trig[(7 : Fin 8)]).pulses = [1000100]) && decide (t.now = 1000050)) = true) := by decide +kernel

theorem test_channel_config_premises :
    (up.domain 9).up = true ∧ ¬((up.ch 31).mapped = true ∧ (up.axis (Fin.ofNat 80 (up.ch 31).axis.toNat)).state ≠ .disabled) ∧
    (up.ch 31).cfgNext = none ∧ (up.ch 31).timingNext = none ∧ (up.ch 31).ssiNext = none ∧ (up.ch 31).leadNext = none ∧
    (let s := cellIn (chan fun h => { h with mapped := true, axis := 79#7 }) .holding
     (s.ch 31).mapped = true ∧ (s.axis (Fin.ofNat 80 (s.ch 31).axis.toNat)).state ≠ .disabled) ∧
    -- SSI on channel 31 for axis 79, and T_SS and the SSI fields at both ends of their ranges
    goes (.fbCfgWrite 31 0x33C05#32) { up with tb.running := false }
      (fun t => decide ((t.ch 31).inmode = 5#3) && decide ((t.ch 31).axis = 79#7) && (t.ch 31).mapped) = true ∧
    goes (.fbCfgWrite 32 0x00005#32) up (fun t => (t.ch 32).sticky.getLsbD 9) = true ∧
    goes (.fbTimingWrite 31 1000#32) up (fun t => decide ((t.ch 31).timingNext = some 1000#32)) = true ∧
    goes (.fbTimingWrite 31 1001#32) up (fun t => (t.ch 31).sticky.getLsbD 9) = true ∧
    goes (.fbSsiWrite 31 0x1E028#32) up (fun t => decide ((t.ch 31).ssiNext = some 0x1E028#32)) = true ∧
    goes (.fbSsiWrite 31 0x1E029#32) up (fun t => (t.ch 31).sticky.getLsbD 9) = true ∧
    goes (.fbSsiLeadWrite 31 0xFFFFFFFF#32) up (fun t => decide ((t.ch 31).leadNext = some 0xFFFFFFFF#32)) = true ∧
    goes (.fbTrigCfgWrite 7 0x10000#32) up (fun t => t.fb.trigRej) = true ∧
    goes (.fbTrigCfgWrite 7 0x10001#32) up (fun t => (t.fb.trig[(7 : Fin 8)]).pol) = true := by decide +kernel

theorem test_axis_config_premises :
    (up.axis 79).state = .disabled ∧
    goes (.ceCfgWrite 79 0x10004#32) up (fun t => decide ((t.slice 79).cfgNext = some 0x10004#32)) = true ∧
    goes (.ceCfgWrite 79 0x105F0#32) { chan (fun h => h) ready with fb.ch := upd up.fb.ch 95 fun h => { h with mapped := true, axis := 79#7 } }
      (fun t => decide ((t.slice 79).ch = 95#7) && decide ((t.slice 79).missMax = 1#4)) = true ∧
    goes (.ceCfgWrite 79 0x00004#32) up (fun t => (t.slice 79).sticky.getLsbD 9) = true ∧
    1 ≤ (1#64 : W64).toInt ∧
    goes (.ceVmaxWrite 79 1#64) up (fun t => decide ((t.slice 79).vmaxNext = some 1#64)) = true ∧
    goes (.ceAmaxWrite 79 1#64) ready (fun t => decide ((t.slice 79).amax = 1#64)) = true ∧
    goes (.lmWeightWrite 7 0x100#32) up (fun t => t.lm.weightRej) = true ∧
    goes (.lmWeightWrite 7 0x1FF#32) up (fun t => decide (t.lm.weight[(7 : Fin 8)] = 0xFF#8)) = true ∧
    up.rd.run = false ∧ up.sv.sealed = true ∧ unsealed.sv.sealed = false ∧
    goes (.reedConfigWrite 0x1E0#12 0x03E81001#32) unsealed (fun t => (t.rd.sens[(7 : Fin 8)]).en) = true ∧
    goes (.reedRunWrite 0#32) up (fun t => !t.rd.run) = true ∧
    (let s : State := { up with rd := { up.rd with sens := upd up.rd.sens 7 fun q => { q with en := true } } }
     s.rd.gridOk = true ∧ (s.rd.sens[(7 : Fin 8)]).en = true ∧ s.domain 8 = .run ∧ goes (.reedRunWrite 1#32) s (fun t => t.rd.run) = true) := by decide +kernel

/-- R176, the example of 07_profiles.md: ADDR_OFF 0, 256 microsteps, x = 123,380 counts: address 500. -/
theorem test_stepper_address : ({ up.stl[(0 : Fin 16)] with mscale := 0x00010000#32 } : StlLink).addr (123380 * 65536) = 500#10 := by decide +kernel

theorem test_stepper_premises :
    (let s : State := { up with stl := upd up.stl 15 fun l => { l with en := true, frame := 7, sent := true, last := 0#10, xCur := 255 * 65536 } }
     s.pw.state = .run ∧ (s.stl[(15 : Fin 16)]).en = true ∧ s.tb.running = true ∧ (s.stl[(15 : Fin 16)]).frame < (s.stl[(15 : Fin 16)]).subActive.toNat ∧
       goes (.stlFrame 15) s (fun t => decide ((t.stl[(15 : Fin 16)]).last = 255#10) && !(t.stl[(15 : Fin 16)]).fast) = true) ∧
    (let s : State := { up with stl := upd up.stl 15 fun l => { l with en := true, frame := 7, sent := true, last := 0#10, xCur := 256 * 65536 } }
     goes (.stlFrame 15) s (fun t => (t.stl[(15 : Fin 16)]).fast && decide ((t.axis 64).state = .fault)) = true) ∧
    (let s : State := { up with ce.sl := upd up.ce.sl 79 fun l => { l with outmode := 3#2 } }
     (s.domain 9).up = true ∧ (s.axis 64).state = .disabled ∧ (s.axis 79).state = .disabled ∧ (s.slice 79).outmode = 3#2 ∧
       (∀ m : Fin 16, m ≠ 0 → (s.stl[m]).en = false) ∧
       goes (.stlCfgWrite 0 0xF00020CF#32) s (fun t => decide ((t.stl[(0 : Fin 16)]).sub = 16#5) && decide ((t.stl[(0 : Fin 16)]).div = 240#8) &&
         decide ((t.stl[(0 : Fin 16)]).subActive = 8#5)) = true) ∧
    (let s : State := { up with pg.ax := upd up.pg.ax 79 fun p => { p with samples := List.replicate 64 {}, pl := { p.pl with mode := .move, target := 1 } } }
     (s.domain 9).up = true ∧ s.tb.running = true ∧ (s.pax 79).samples ≠ [] ∧ (s.pax 79).samples.length = 64 ∧ (s.pax 79).done = false ∧
       goes (.plannerSample 79) s (fun t => decide ((t.pax 79).samples.length = 65)) = true) := by decide +kernel

/-! ### Loom, Churn, Reed -/

/-- A bound slot 7 of group 7 whose image has one node, with one instance. -/
def loomed (ph : NodePhase) : State := { up with
  lm := { up.lm with slot := upd up.lm.slot 7 fun x =>
    { x with state := .bound, group := 7#3, nodes := 1#13, released := 1, insts := [{ count := 0, nodes := [{ phase := ph }] }] } }
  mem := image (slotBase 7) draftImage }

theorem test_loom_premises :
    (let s : State := { loomed .ready with lm := { (loomed .ready).lm with waiting := [{ slot := 7 }], ready := List.replicate 1023 {} } }
     s.domain 4 = .run ∧ s.lm.waiting = [{ slot := 7 }] ∧ s.lm.ready.length < 1024 ∧
       goes .readyListEntry s (fun t => decide (t.lm.ready.length = 1024) && decide (t.lm.hwm = 1024#11)) = true) ∧
    (let s : State := { loomed .listed with lm := { (loomed .listed).lm with ready := [{ slot := 7 }] } }
     s.domain 5 = .run ∧ s.domain 6 = .run ∧ s.lm.shuttle[(15 : Fin 16)] = none ∧ (∀ g : Fin 8, s.lm.weight[g] ≠ 0#8) ∧
       (∃ g, groupHead s g 15 ≠ none) ∧ (∃ g, groupHead s g 0 ≠ none) ∧
       goes (.nodeSelect 15) s (fun t => decide (t.lm.shuttle[(15 : Fin 16)] = some ({ slot := 7 }, false)) && decide (t.lm.rr = 7)) = true) ∧
    (let s : State := { loomed .listed with lm := { (loomed .listed).lm with shuttle := upd up.lm.shuttle 15 fun _ => some ({ slot := 7 }, false) } }
     s.lm.shuttle[(15 : Fin 16)] = some ({ slot := 7 }, false) ∧ (s.desc 7 0).forms = false ∧
       goes (.nodeStart 15 true) s (fun t => decide (t.lm.shuttle[(15 : Fin 16)] = some ({ slot := 7 }, true))) = true ∧
       goes (.nodeStart 15 false) s (fun t => t.lm.stVoid) = true) ∧
    (let s : State := { loomed .running with lm := { (loomed .running).lm with shuttle := upd up.lm.shuttle 15 fun _ => some ({ slot := 7 }, true) } }
     s.lm.shuttle[(15 : Fin 16)] = some ({ slot := 7 }, true) ∧ Memory.wf s.mem = true ∧
       goes (.nodeComplete 15 (.stores [(0x39FFFFF#40, [7#8])])) s (fun t => decide (t.lm.shuttle[(15 : Fin 16)] = none) &&
         decide (memRead t.mem 0x39FFFFF = 7#8)) = true ∧
       goes (.nodeComplete 15 .notFinite) s (fun t => t.lm.stVoid) = true) := by decide +kernel

theorem test_solve_premises :
    (let i : ChInst := {}
     let s : State := { up with mem := image (chInst false) qpInstance, qp := { up.qp with sched := true, planning := true, insts := [i] } }
     s.domain 7 = .run ∧ s.qp.insts = i :: [] ∧ i.solving = false ∧ s.qp.planning = true ∧ instCheck s.mem (chInst i.buf) s.qp.sig s.qp.sched = none) ∧
    (let i : ChInst := {}
     let s : State := { up with qp := { up.qp with sched := true, planning := true, insts := [i] } }
     (instCheck s.mem (chInst i.buf) s.qp.sig s.qp.sched).isSome = true ∧ goes .solveStart s (fun t => decide (t.qp.insts = []))) = true ∧
    (let i : ChInst := { solving := true }
     let s : State := { up with qp := { up.qp with sched := true, planning := true, insts := [i] } }
     s.qp.insts = i :: [] ∧ i.solving = true) ∧
    (let j : ChJob := { submit := true, w0 := 0x2C00000#64, w1 := 0x39FF000#64 }
     let s : State := { holding up qpInstance with qp := { up.qp with sched := true, jobs := [j] } }
     s.qp.insts = [] ∧ s.qp.jobs = j :: [] ∧ j.submit = true ∧ j.solving = false ∧ instCheck s.mem j.w0.toNat s.qp.sig s.qp.sched = none ∧
       j.w1.toNat + solutionBytes (qpDims s.mem) ≤ Config.sharedBase + 8 * Config.sharedWords) ∧
    (let j : ChJob := { submit := true, solving := true }
     ({ up with qp := { up.qp with sched := true, jobs := [j] } } : State).qp.jobs = j :: []) := by decide +kernel

/-- Reed runs with sensor 7 enabled; slot 2 of the sensor has been received, with a frame of one voxel of length `len` (R229). -/
def reeds (len capture : Nat) : State := { up with
  rd := { up.rd with run := true, sens := upd up.rd.sens 7 fun q =>
    { q with en := true, slot := upd q.slot 2 fun _ => { busy := true, done := true, len := len, capture := capture } } }
  mem := image (stageBase 7 2) [0x70001#32, 0#32, 0#32, 0#32, 0#32, 0#32, 0#32, 1#32, 1#32] }

theorem test_frame_premises :
    (let s := reeds 34 1100000
     reedRuns s = true ∧ ((s.rd.sens[(7 : Fin 8)]).slot[(2 : Fin 3)]).busy = true ∧ ((s.rd.sens[(7 : Fin 8)]).slot[(2 : Fin 3)]).done = true ∧
       ((s.rd.sens[(7 : Fin 8)]).slot[(2 : Fin 3)]).accepted = false ∧ ((s.rd.sens[(7 : Fin 8)]).slot[(2 : Fin 3)]).used = false ∧
       frameCause s 7 2 = none ∧
       goes (.frameCheckDone 7 2 true true) s (fun t => decide ((t.rd.sens[(7 : Fin 8)]).acc = 1#32) && decide ((t.rd.sens[(7 : Fin 8)]).order = [2])) = true ∧
       goes (.frameCheckDone 7 2 false true) s (fun t => decide ((t.rd.sens[(7 : Fin 8)]).check = 1#16)) = true) ∧
    frameCause (reeds 33 1000000) 7 2 = some 1 ∧ frameCause (reeds 34 1100001) 7 2 = some 2 ∧
    frameCause { reeds 34 1000000 with mem := [] } 7 2 = some 0 ∧
    frameCause { reeds 34 1000000 with rd := { (reeds 34 1000000).rd with sens := upd (reeds 34 1000000).rd.sens 7 fun q => { q with en := false } } } 7 2 = some 4 ∧
    frameCause { reeds 34 1000000 with rd := { (reeds 34 1000000).rd with snaps := [
      { arms := Vector.replicate 8 none, foreign := some { stime := 1000001, caps := [#v[0, 0, 0, 0, 0, 0, 0x10000, 0]] } }] } } 7 2 = some 3 := by decide +kernel

theorem test_fusion_premises :
    (let s : State := { reeds 34 1000000 with rd := { (reeds 34 1000000).rd with sens := upd (reeds 34 1000000).rd.sens 7 fun q =>
        { q with order := [2], slot := upd q.slot 2 fun l => { l with accepted := true } } } }
     reedRuns s = true ∧ fusionReady s = true ∧
       goes .fusionCycleStart s (fun t => decide (t.rd.cycle = 1#64) && decide ((t.rd.fusing.map fun c => c.stime) = some 1000000)) = true) ∧
    (let s : State := { reeds 34 1000000 with rd := { (reeds 34 1000000).rd with fusing := some {} } }
     reedRuns s = true ∧ s.rd.fusing = some {} ∧ Memory.wf s.mem = true) := by decide +kernel

theorem test_distance_premises :
    (let s : State := { up with rd := { up.rd with run := true, chA := [{}], chB := [{ snap := some {} }] } }
     reedRuns s = true ∧ Memory.wf s.mem = true ∧ s.rd.chA = [{}] ∧ ({} : ReedWork).done = false ∧ s.rd.chB = [{ snap := some {} }]) ∧
    (let s : State := { up with rd := { up.rd with run := true, chA := [{ done := true, snap := some { pick := 9#32 } }] } }
     reedRuns s = true ∧ s.rd.chA = [{ done := true, snap := some { pick := 9#32 } }] ∧
       goes .channelAEntryDone s (fun t => decide (t.rd.aIndex = 9#32) && t.rd.bufA) = true) := by decide +kernel

/-- R239, R242, the example of 10_reed.md: e = 50 mm and TOLF = 3. -/
theorem test_tolerance : k3 50 = 87 ∧ tAg 3 50 = 1040 := by decide +kernel

/-! ### Selvedge and the safety I/O block -/

/-- Both channels in state `st`. -/
def channels (st : SvState) (s : State := up) : State := { s with sv := { s.sv with ch := Vector.replicate 2 { s.sv.ch[0] with state := st } } }

theorem test_channel_premises_1 :
    (let s := channels .selftest unsealed
     (s.domain 1).up = true ∧ (s.svCh 0).state = .selftest ∧ retained s = false ∧ windowOf s = none ∧ s.pw.state ≠ .safeHold ∧ (s.svCh 1).state ≠ .fault ∧
       (s.svCh 1).state ≠ .safeHold ∧ goes (.selftestDone 0 none) s (fun t => decide ((t.svCh 0).state = .unsealed)) = true) ∧
    (let s : State := { channels .selftest with sio.half := Vector.replicate 2 { up.sio.half[0] with sealRd := some 0#24 } }
     (s.domain 2).up = true ∧ (s.svCh 1).state = .selftest ∧ retained s = true ∧ (s.sio.half[(1 : Fin 2)]).sealRd = some s.sv.sealWord ∧
       goes (.selftestDone 1 none) s (fun t => decide ((t.svCh 1).state = .sealed)) = true) := by decide +kernel

theorem test_channel_premises_2 :
    (let s := up
     windowOf s = none ∧ s.pw.state ≠ .safeHold ∧ (s.svCh 0).state ≠ .fault ∧ (s.svCh 0).state ≠ .safeHold ∧ (s.svCh 1).state = .sealed ∧ (s.svCh 0).state ≠ .off ∧
       channelsDiffer s = false ∧ (s.svCh 1).badCrc = 0 ∧
       goes (.crossLinkMessage 1 .badCrc) s (fun t => decide ((t.svCh 1).badCrc = 1)) = true) ∧
    (let s : State := { up with sv := { up.sv with ch := upd up.sv.ch 1 fun h => { h with badCrc := 1 } } }
     (s.svCh 1).badCrc ≠ 0 ∧ (s.svCh 1).state = .sealed ∧ (s.svCh 0).state = .sealed) ∧
    (let s := channels .unsealed
     (s.sio.half[(0 : Fin 2)]).sealRd = none ∧ (s.svCh 0).state = .unsealed ∧ windowOf s = none) := by decide +kernel

theorem test_evaluation_premises_1 :
    (let s : State := { up with sv := { up.sv with reed := reedWords up } }
     (s.domain 1).up = true ∧ (s.domain 2).up = true ∧ (∀ c, (s.svCh c).state = .sealed ∧ configBad s c = false) ∧ s.tb.running = true ∧
       (∀ n : Fin 8, (s.sio.ossd[n]).fault = false)) ∧
    (let s : State := { ready with sv := { ready.sv with reed := reedWords ready } }
     (∀ c, (s.svCh c).state = .sealed ∧ configBad s c = false) ∧ ossdClose s 0 7 = false ∧ ossdClose s 1 7 = false) := by decide +kernel

/-- A sealed image with one emergency stop of pair 15 and one light curtain, as channel 1 sees it. -/
def guarded (g : SvCh → SvCh) : State := { up with sv := { up.sv with
  nfunc := 2
  cfgFn := upd (upd up.sv.cfgFn 0 fun f => { f with type := 0#3, pair0 := 15#4, tDisc := 10#9 }) 1 fun f => { f with type := 3#3, pair0 := 14#4, tDisc := 10#9 }
  ch := upd up.sv.ch 1 g } }

theorem test_evaluation_premises_2 :
    (let s := guarded fun h => { h with pair := upd h.pair 15 fun p => { p with since := some 0, on := true } }
     (s.svCh 1).state = .sealed ∧ (pairFn s 15).isSome = true ∧ ((s.svCh 1).pair[(15 : Fin 16)]).since = some 0 ∧ ((s.svCh 1).pair[(15 : Fin 16)]).fault = false ∧
       goes (.pairDiscrepancyTimeout 1 15) s (fun t => ((t.svCh 1).pair[(15 : Fin 16)]).fault && decide (t.now = 10000000)) = true) ∧
    (let s := guarded fun h => { h with fn := upd h.fn 1 fun f => { f with off := some 0 } }
     ((s.svCh 1).fn[(1 : Fin 32)]).off = some 0 ∧ (1 : Fin 32).val < s.sv.nfunc ∧ (s.sv.cfgFn[(1 : Fin 32)]).type = 3#3 ∧ ((s.svCh 1).fn[(1 : Fin 32)]).dem = false ∧
       goes (.lightCurtainTimeout 1 1) s (fun t => ((t.svCh 1).fn[(1 : Fin 32)]).dem) = true) ∧
    (let s := guarded fun h => { h with arm := upd h.arm 7 fun m => { m with ssmFault := true, stop := { since := some 0, cat := 1 } } }
     ((s.svCh 1).arm[(7 : Fin 8)]).stop.since = some 0 ∧ ((s.svCh 1).arm[(7 : Fin 8)]).stop.reached = false ∧ ((s.svCh 1).arm[(7 : Fin 8)]).stop.esc = false ∧
       ((s.svCh 1).arm[(7 : Fin 8)]).stand = false ∧ ((s.svCh 1).arm[(7 : Fin 8)]).ssmFault = true ∧
       goes (.stopTimeout 1 7) s (fun t => decide (((t.svCh 1).arm[(7 : Fin 8)]).stop.cat = 0)) = true) ∧
    (let k : ConnId := .fb 79
     let s : State := { up with sl := { up.sl with ax := upd up.sl.ax 79 fun x => { x with conn := { x.conn with state := .running, last := some 5 } } } }
     (s.domain 1).up = true ∧ (s.conn k).last = some 5 ∧
       goes (.wdExpire k.num) s (fun t => decide ((t.conn k).state = .wait) && decide (1000005 < t.now)) = true) := by decide +kernel

theorem test_aux_stop_premises :
    (let s := guarded fun h => { h with aux := upd h.aux 15 fun m => { m with since := some 0, cat := 2 }, fn := upd h.fn 0 fun f => { f with dem := true } }
     let s : State := { s with sv := { s.sv with cfgFn := upd s.sv.cfgFn 0 fun f => { f with cat := 2#2, aux := 0x8000#16 } } }
     ((s.svCh 1).aux[(15 : Fin 16)]).since = some 0 ∧ ((s.svCh 1).aux[(15 : Fin 16)]).reached = false ∧ ((s.svCh 1).aux[(15 : Fin 16)]).esc = false ∧
       (svDemand s 1 fun f => f.aux.getLsbD 15).1 < 3 ∧ auxStand s 15 = false ∧
       goes (.stopTimeout 1 79) s (fun t => decide (((t.svCh 1).aux[(15 : Fin 16)]).cat = 0)) = true) := by decide +kernel

/-- R304: whether an auxiliary axis stands does not depend on cell time. -/
theorem test_aux_stand_at_any_time (tt : Nat) : auxStand { up with tb.timeFix := tt } 15 = false := by
  have h : auxStand up 15 = false := by decide +kernel
  exact h

theorem test_pulse_premises :
    (let s := up
     (s.domain 1).up = true ∧ (s.domain 2).up = true ∧ (s.sio.half[(0 : Fin 2)]).sealRd ≠ some 0xFFFFFF#24 ∧ (s.svCh 1).state = .sealed ∧
       (s.sio.half[(1 : Fin 2)]).ioLow = false ∧ (s.sio.half[(1 : Fin 2)]).coreLow = false ∧ s.sio.holding.getLsbD 7 = false ∧
       goes (.safetyInputLevelChange 1 31 true) s (fun t => (t.sio.half[(1 : Fin 2)]).level.getLsbD 31) = true ∧
       goes (.testPulseStart 7 0#32 0#32) s (fun t => decide (t.sio.pulsing = 0x80#8) && decide (t.sio.holding = 0x80#8)) = true ∧
       goes (.coreSupplyLow 1) s (fun t => (t.sio.half[(1 : Fin 2)]).coreLow) = true) ∧
    (let s : State := { up with sio := { up.sio with pulsing := 0x80#8, holding := 0x80#8 } }
     s.sio.pulsing.getLsbD 7 = true ∧ (0x7F#8 : BitVec 8).getLsbD 7 = false ∧
       (∀ m : Fin 8, s.sio.pulsing.getLsbD m.val = false → (0x7F#8 : BitVec 8).getLsbD m.val = true) ∧
       goes (.testPulseSample 7 0#32 0#32 0x7F#8) s (fun t => decide (t.sio.pulsing = 0x80#8)) = true ∧
       goes (.testPulseEnd 7) s (fun t => decide (t.sio.pulsing = 0#8)) = true) ∧
    (let s : State := { up with sio := { up.sio with holding := 0x80#8 } }
     s.sio.holding.getLsbD 7 = true ∧ s.sio.pulsing.getLsbD 7 = false ∧ goes (.pulseHoldEnd 7 0#32 0#32) s (fun t => decide (t.sio.holding = 0#8)) = true) ∧
    (let s := guarded fun h => h
     pinPulsed s 31 = true ∧ (31 : Fin 32).val % 8 = (7 : Fin 8).val ∧ pinPulsed s 28 = false) := by decide +kernel

/-- OSSD 7 changed. -/
def switch7 (g : Ossd → Ossd) : State := { up with sio := { up.sio with ossd := upd up.sio.ossd 7 g } }

theorem test_switch_premises :
    (let s := switch7 fun o => { o with phase := .high, high := true }
     windowOf s = none ∧ s.pw.state ≠ .safeHold ∧ (s.sio.ossd[(7 : Fin 8)]).phase = .high ∧ (∀ h : Fin 2, (s.sio.half[h]).ioLow = false) ∧
       goes (.ossdHighSideCheck 7 #v[true, true] #v[true, true]) s (fun t => (t.sio.ossd[(7 : Fin 8)]).low) = true) ∧
    (let s := switch7 fun o => { o with phase := .low, high := true, low := true }
     (s.sio.ossd[(7 : Fin 8)]).phase = .low ∧
       goes (.ossdLowSideCheck 7 #v[true, true] #v[false, false]) s (fun t => decide ((t.sio.ossd[(7 : Fin 8)]).phase = .on)) = true) ∧
    (let s := switch7 fun o => { o with phase := .on, high := true, low := true }
     (s.sio.ossd[(7 : Fin 8)]).fault = false ∧ (s.sio.ossd[(7 : Fin 8)]).phase = .on ∧ (s.sio.ossd[(7 : Fin 8)]).dark = none ∧ (s.domain 1).up = true ∧
       (s.svCh 0).state = .sealed ∧ (s.svCh 1).state = .sealed ∧
       (s.sio.ossd[(7 : Fin 8)]).high = true ∧
       goes (.darkTestStart 7 1) s (fun t => decide ((t.sio.ossd[(7 : Fin 8)]).dark = some true)) = true) ∧
    (let s := switch7 fun o => { o with phase := .on, low := true, dark := some false }
     (s.sio.ossd[(7 : Fin 8)]).dark = some (decide ((0 : Fin 2) = 1)) ∧
       goes (.darkTestPass 7 0 false false) s (fun t => (t.sio.ossd[(7 : Fin 8)]).high) = true) ∧
    (let s := switch7 fun o => { o with phase := .on, high := true, dark := some true }
     (s.sio.ossd[(7 : Fin 8)]).dark = some (decide ((1 : Fin 2) = 1)) ∧
       goes (.darkTestPass 7 1 true true) s (fun t => (t.sio.ossd[(7 : Fin 8)]).low) = true) := by decide +kernel

/-! ### Switch and network time -/

/-- Port 5 changed, with its link up. -/
def port5 (g : Port → Port := id) : State := { up with sw := { up.sw with port := upd up.sw.port 5 fun t => g { t with mode := 1#3, link := true } } }

/-- The shortest frame that the switch takes, with its FCS. -/
def shortFrame : List (BitVec 8) := List.replicate 14 0#8 ++ frFcs (List.replicate 14 0#8)

/-- A feedback frame of one record for axis 79 (R321, R325). -/
def fbFrame : List (BitVec 8) := List.replicate 12 0#8 ++ [0x88#8, 0xB5#8] ++
  wordsBytes ([0x1011#32, 9#32, 0x14F#32, 5#32] ++ List.replicate 14 0#32)

theorem test_reception_premises :
    (let s := port5
     swRuns s = true ∧ (s.sw.port[extPort 5]).mode ≠ 0#3 ∧ (s.sw.port[extPort 5]).link = true ∧
       goes (.frameReceive 5 (List.replicate 1523 0#8)) s (fun t => decide ((t.sw.port[(5 : Fin 8)]).cnt[(5 : Fin 6)] = 1#32)) = true ∧
       goes (.frameReceive 5 (List.replicate 17 0#8)) s (fun t => decide ((t.sw.port[(5 : Fin 8)]).cnt[(4 : Fin 6)] = 1#32)) = true ∧
       goes (.frameReceive 5 (List.replicate 18 0#8)) s (fun t => decide ((t.sw.port[(5 : Fin 8)]).cnt[(4 : Fin 6)] = 1#32)) = true ∧
       s.pw.state ≠ .safeHold ∧ (let f := shortFrame.take (shortFrame.length - 4)
         shortFrame.length = 18 ∧ frFcs f = shortFrame.drop (shortFrame.length - 4) ∧ frDa f = s.sw.mac ∧ macReserved (frDa f) = false ∧
           frType f ≠ s.sw.etype ∧ frType f ≠ 0x88F7#16 ∧ ((s.sw.port[(7 : Fin 8)]).q[frClass s 5 f]).length < 64) ∧
       goes (.frameReceive 5 shortFrame) s (fun t => decide ((t.sw.port[(5 : Fin 8)]).cnt[(0 : Fin 6)] = 1#32)) = true) ∧
    (let s := up
     frType fbFrame = s.sw.etype ∧ dtCause (frData fbFrame) = none ∧ dtKind ((bytesWords (frData fbFrame)).getD 0 0#32) = 1 ∧
       dtNrec ((bytesWords (frData fbFrame)).getD 0 0#32) = 1 ∧
       (BitVec.extractLsb' 0 7 ((bytesWords (frData fbFrame)).getD 2 0#32)).toNat = (79 : Fin 80).val ∧
       dtCause (frData (List.replicate 12 0#8 ++ [0x88#8, 0xB5#8])) = some 0 ∧ dtCause (frData (fbFrame.take 85)) = some 1 ∧
       goes (.driveTrafficReceive 5 fbFrame false) s (fun t => decide (((t.dr[(79 : Fin 80)]).next.map fun r => (r.torq, r.enabled, r.ack)) = some (5#32, true, 9#32))) = true) ∧
    goes (.linkChange 5 false) port5 (fun t => !(t.sw.port[(5 : Fin 8)]).link) = true ∧
    (let s : State := { up with sw := { up.sw with fdbMac := 2#48, fdb := List.replicate 2047 default } }
     s.sw.fdb.length < 2048) ∧
    (let s : State := { up with sw := { up.sw with fdb := [default], cb := [default] } }
     s.sw.fdb[0]? = some default ∧ (default : FdbEntry).static_ = false ∧ s.sw.cb[0]? = some default ∧
       goes (.fdbAgeExpire 0) s (fun t => decide (t.sw.fdb = []) && decide (t.now = 300000000000)) = true ∧
       goes (.cbStreamReset 0) s (fun t => decide (t.sw.cb.length = 1) && decide (t.now = 10000000)) = true) := by decide +kernel

theorem test_egress_premises :
    (let s := port5 fun t => { t with q := (t.q.set 7 [{ bytes := List.replicate 60 0#8 }]).set 6 [{ bytes := List.replicate 60 1#8 }] }
     let z := s.cbsNow 5
     let port := z.sw.port[(5 : Fin 8)]
     swRuns s = true ∧ s.pw.state ≠ .safeHold ∧ (∀ c : Fin 8, (port.q[c]).all (fun f => !isLate s f) = true) ∧ port.mode ≠ 0#3 ∧ port.link = true ∧
       port.txFree ≤ s.tb.timeFix ∧ mayStart z port 7 { bytes := List.replicate 60 0#8 } = true ∧ (port.q[(7 : Fin 8)]).head? = some { bytes := List.replicate 60 0#8 }) ∧
    (let s := port5 fun t => { t with gclEn := true, run := some {}, q := t.q.set 7 [{ bytes := List.replicate 60 0#8 }] }
     let z := s.cbsNow 5
     mayStart z (z.sw.port[(5 : Fin 8)]) 7 { bytes := List.replicate 60 0#8 } = false) ∧
    (let s : State := { up with sw := { up.sw with port := upd up.sw.port 7 fun t => { t with q := t.q.set 0 [{ bytes := List.replicate 60 0#8 }] } } }
     (((s.sw.port[(7 : Fin 8)]).q[(0 : Fin 8)]).head?.map fun f => f.launch) = some none ∧ (∀ d : Fin 8, d ≠ 0 → (s.sw.port[(7 : Fin 8)]).q[d] = [])) ∧
    (let s := port5 fun t => { t with q := t.q.set 7 [{ bytes := [], launch := some 1000100 }] }
     ((s.sw.port[(5 : Fin 8)]).q[(7 : Fin 8)]).head? = some { bytes := [], launch := some 1000100 } ∧
       goes (.launchTimeReached 5 7) s (fun t => decide (t.now = 1000100)) = true ∧
       goes (.lateFrame 5 7) s (fun t => decide ((t.sw.port[(5 : Fin 8)]).q[(7 : Fin 8)] = []) && decide (1001100 ≤ t.now)) = true) := by decide +kernel

theorem test_gate_premises :
    (let s := port5 fun t => { t with run := some { start := 999999 * 2 ^ 32, cycStart := 999999 * 2 ^ 32 }, oper := { t.oper with len := 2#9, cycle := 1000#32 } }
     let x := s.sw.port[extPort 5]
     x.run = some { start := 999999 * 2 ^ 32, cycStart := 999999 * 2 ^ 32 } ∧ 0 + 1 < x.oper.len.toNat ∧
       cycleEnd s x { start := 999999 * 2 ^ 32, cycStart := 999999 * 2 ^ 32 } = some (1000000 * 2 ^ 32) ∧
       999999 * 2 ^ 32 + x.interval x.bank 0 < 1000000 * 2 ^ 32 ∧ x.oper.src = false ∧ x.swap = none ∧ 0 < x.oper.cycle.toNat ∧
       0 ≤ x.oper.base - s.nt.ofs ∧
       goes (.gclEntryAdvance 5) s (fun t => decide (((t.sw.port[(5 : Fin 8)]).run.map fun r => r.idx) = some 1)) = true ∧
       goes (.gclCycleStart 5) s (fun t => decide (((t.sw.port[(5 : Fin 8)]).run.map fun r => r.start) = some (1000000 * 2 ^ 32))) = true) ∧
    (let s := port5 fun t => { t with gcl := Vector.replicate 2 (Vector.replicate 256 0x0000000100000000#64) }
     gclOk { s.sw.port[extPort 5] with adm := { (s.sw.port[extPort 5]).adm with src := false, len := 256#9 } } = true ∧
       goes (.gclSwapRequest 5 0x1801#32) s (fun t => (t.sw.port[(5 : Fin 8)]).swap.isSome) = true) ∧
    gclOk { (port5).sw.port[extPort 5] with adm := { ((port5).sw.port[extPort 5]).adm with src := false, len := 257#9 } } = false := by decide +kernel

/-- Network time with domain 0 on slave port 5, which is capable; `g` changes the domain. -/
def timed (g : NtDom → NtDom := id) : State := { port5 with nt := { up.nt with
  en := true, dom := upd up.nt.dom 0 fun d => g { d with en := true, slave := 5#3 }, port := upd up.nt.port 5 fun p => { p with asCapable := true } } }

theorem test_sync_premises :
    (let s := timed
     swRuns s = true ∧ s.nt.en = true ∧ domOf s 0#8 = some 0 ∧ (s.nt.dom[(0 : Fin 2)]).pend = none ∧
       syncOk s 0 5 { logInt := 0xF9#8, seq := 1#16 } = true ∧ syncOk s 0 5 { logInt := 0xF8#8 } = false ∧ syncOk s 0 5 { logInt := 1#8 } = false ∧
       goes (.syncReceive 5 { twoStep := true, seq := 1#16 }) s (fun t => (t.nt.dom[(0 : Fin 2)]).pend.isSome) = true ∧
       goes (.followUpReceive 5 {}) s (fun t => decide ((t.nt.dom[(0 : Fin 2)]).rej = 1#16)) = true) ∧
    (let y : PtpMsg := { seq := 1#16, twoStep := true, rx := 999000 }
     let s := timed fun d => { d with pend := some (5, y) }
     (s.nt.dom[(0 : Fin 2)]).pend = some (5, y) ∧ y.rx + syncInterval y.logInt = 1000999000 ∧
       goes (.followUpTimeout 0) s (fun t => decide ((t.nt.dom[(0 : Fin 2)]).pend = none) && decide (1000999000 < t.now)) = true) ∧
    (let s := timed fun d => { d with state := .listening, last := 5 }
     (s.nt.dom[(0 : Fin 2)]).state = .listening ∧ goes (.domainTimeout 0) s (fun t => decide ((t.nt.dom[(0 : Fin 2)]).state = .lost)) = true) := by decide +kernel

theorem test_delay_premises :
    (let s := timed
     goes .pdelayReqSend s (fun t => decide ((t.nt.port[(5 : Fin 6)]).reqSeq = some 1#16)) = true ∧ s.pw.state ≠ .safeHold ∧
       ((s.sw.port[extPort 5]).q[(6 : Fin 8)]).length < 64 ∧ goes (.pdelayReqReceive 5 {}) s (fun t => decide (((t.sw.port[(5 : Fin 8)]).q[(6 : Fin 8)]).length = 1)) = true) ∧
    (let m : PtpMsg := { seq := 7#16, rx := 999900, ts := 0 }
     let s0 := timed
     let s : State := { s0 with nt := { s0.nt with port := upd s0.nt.port 5 fun p => { p with t1 := some 998100, reqSeq := some 7#16 } } }
     let m := { m with reqPort := identNat (portIdent s 5) }
     (s.nt.port[(5 : Fin 6)]).t1 = some 998100 ∧ (s.nt.port[(5 : Fin 6)]).reqSeq = some m.seq ∧ m.reqPort = identNat (portIdent s 5) ∧
       (s.nt.port[(5 : Fin 6)]).prev = none ∧ (1800 * 65536 / 2 : Int).toNat = 900 * 65536 ∧
       goes (.pdelayRespReceive 5 m { m with ts := 200 }) s (fun t => decide ((t.nt.port[(5 : Fin 6)]).delay = 800 * 65536)) = true) ∧
    up.tb.incAdj.toInt.natAbs ≤ 17179869 ∧ ({ up with nt.state := .holdover } : State).nt.state = .holdover ∧
    goes (.ntSwitchRequest 7#32) { up with nt := { up.nt with dom := upd up.nt.dom 1 fun d => { d with state := .locked } } } (fun t => t.nt.switch && t.nt.auto) = true ∧
    goes (.ntSwitchRequest 0#32) up (fun t => t.nt.sticky.getLsbD 5) = true := by decide +kernel

/-! ### CAN FD -/

/-- Controller 3 in NORMAL; its objects lie at the end of the CAN memory. `ws` are the words of object 127. -/
def can3 (ws : List (BitVec 32)) (g : CanCtl → CanCtl := id) : State := { up with
  can := { up.can with ctl := upd up.can.ctl 3 fun c => g { c with mode := 1#2, modeNow := 1#2 } }
  mem := image (0x3700000 + (128 * 3 + 127) * 96) ws }

theorem test_can_premises :
    (let s := can3 []
     s.domain 11 = .run ∧ canEff s 3 = 1#2 ∧ (s.can.ctl[(3 : Fin 4)]).err ≠ 2#2 ∧ (s.can.ctl[(3 : Fin 4)]).tx = none ∧
       goes (.canModeWrite 3 3#32) s (fun t => (t.can.ctl[(3 : Fin 4)]).sticky.getLsbD 7) = true ∧
       goes (.canModeWrite 3 6#32) up (fun t => decide ((t.can.ctl[(3 : Fin 4)]).mode = 2#2) && (t.can.ctl[(3 : Fin 4)]).fdEn) = true ∧
       goes (.canModeWrite 3 0#32) s (fun t => decide ((t.can.ctl[(3 : Fin 4)]).modeNow = 0#2)) = true ∧
       goes (.canBusError 3 2#3 .tx8) s (fun t => decide ((t.can.ctl[(3 : Fin 4)]).tec = 8)) = true ∧
       (∀ j : Fin 128, canMatches s 3 {} j.val = false)) ∧
    (let s := can3 [] fun c => { c with err := 2#2, mode := 1#2 }
     goes (.canRestart 3 0x11#32) s (fun t => (t.can.ctl[(3 : Fin 4)]).recovering) = true) ∧
    (let s := can3 [] fun c => { c with recovering := true, err := 2#2, tec := 256 }
     (s.can.ctl[(3 : Fin 4)]).recovering = true ∧ canEff s 3 ≠ 0#2 ∧ goes (.canRecoveryDone 3) s (fun t => decide ((t.can.ctl[(3 : Fin 4)]).tec = 0)) = true) := by
  decide +kernel

theorem test_can_object_premises :
    (let s := can3 [0x10#32, 0#32, 0x300#32]
     canRefused s 3 127 = false ∧ (127 : Fin 128).val / 32 = (3 : Fin 4).val ∧
       goes (.canTxsetWrite 3 3 0x80000000#32) s (fun t => (t.can.ctl[(3 : Fin 4)]).txPend.getLsbD 127) = true ∧
       goes (.canTxsetWrite 3 0 1#32) s (fun t => (t.can.ctl[(3 : Fin 4)]).sticky.getLsbD 6) = true) ∧
    (let s := can3 [0x10#32, 0#32, 0x300#32] fun c => { c with txPend := BitVec.twoPow 128 127 }
     (s.can.ctl[(3 : Fin 4)]).txPend ≠ 0#128 ∧ goes (.canTxAttempt 3) s (fun t => decide (((t.can.ctl[(3 : Fin 4)]).tx.map fun a => a.obj) = some 127)) = true ∧
       goes (.canTxcancelWrite 3 3 0x80000000#32) s (fun t => (t.can.ctl[(3 : Fin 4)]).txCan.getLsbD 127) = true) ∧
    (let s := can3 [0x10#32, 0#32, 0x300#32] fun c => { c with txPend := BitVec.twoPow 128 127, tx := some { obj := 127, sof := 5#64 }, tec := 1 }
     (s.can.ctl[(3 : Fin 4)]).tx = some { obj := 127, sof := 5#64 } ∧ Memory.wf s.mem = true ∧
       goes (.canTxComplete 3) s (fun t => decide ((t.can.ctl[(3 : Fin 4)]).txDone = BitVec.twoPow 128 127) && decide (t.rd64 (canObj s 3 127 + 16) = 5#64)) = true ∧
       goes (.canTxcancelWrite 3 3 0x80000000#32) s (fun t => (t.can.ctl[(3 : Fin 4)]).cancel) = true) ∧
    (let s := can3 [0x1FFFFFFF#32, 0#32, 0x200#32]
     canMatches s 3 {} 127 = true ∧ (s.can.ctl[(3 : Fin 4)]).rxNew.getLsbD 127 = false ∧ (∀ j : Fin 128, j < 127 → canMatches s 3 {} j.val = false) ∧
       goes (.canFrameReceive 3 { sof := 9#64 }) s (fun t => (t.can.ctl[(3 : Fin 4)]).rxNew.getLsbD 127 && decide (t.rd64 (canObj s 3 127 + 16) = 9#64)) = true) ∧
    (let s := can3 [0#32, 0#32, 0x200#32] fun c => { c with rxNew := BitVec.twoPow 128 127 }
     canMatches s 3 {} 127 = true ∧ (s.can.ctl[(3 : Fin 4)]).rxNew.getLsbD 127 = true ∧
       goes (.canFrameReceive 3 {}) s (fun t => decide ((t.can.ctl[(3 : Fin 4)]).cntLost = 1#32)) = true) := by decide +kernel

/-- R348, the example of 16_can_fd.md: the reset bit timing is 500 kbit/s and 2 Mbit/s. -/
theorem test_can_timing : (State.reset.can.ctl[(3 : Fin 4)]).nbt.toNat = (32 <<< 22) + (32 <<< 14) + (127 <<< 6) + 1 ∧
    (State.reset.can.ctl[(3 : Fin 4)]).dbt.toNat = (30 <<< 24) + (1 <<< 23) + (10 <<< 16) + (10 <<< 11) + (29 <<< 6) + 1 := by decide +kernel

/-! ### Pairs -/

/-- A paired device in a role; both lanes are up. -/
def pairIn (r p : PairRole) (s : State := up) : State := { s with pr := { s.pr with en := true, role := r, partner := p, lane := #v[true, true] } }

/-- A heartbeat frame whose first payload word is `h` (R366). -/
def beatFrame (h : BitVec 32) : List (BitVec 32) := pairFrame 0 true 3#32 5#32 0 (h :: List.replicate 10 0#32)

theorem test_heartbeat_premises :
    (let s := pairIn .active .standby
     beats s = true ∧ (s.pr.lane[0] = true ∨ s.pr.lane[1] = true) ∧ s.pr.en = true ∧ beats up = false ∧
       goes .heartbeatSend s (fun t => t.pr.alvOut && decide (t.out.length = 2)) = true ∧
       goes (.heartbeatReceive (beatFrame 0x5#32)) s (fun t => decide (t.pr.partner = .standby) && decide (t.pr.leaseAt = 1000000) && decide (t.pr.rxSeq = 3#32)) = true ∧
       goes (.heartbeatReceive ((beatFrame 0x5#32).drop 1)) s (fun t => decide (t.pr.cnt[(2 : Fin 3)] = 1#32)) = true ∧
       goes (.pairAlvInChange true) s (fun t => t.pr.alive) = true ∧
       goes .partnerSilent { s with pr.alive := true } (fun t => !t.pr.alive && decide (12000 ≤ t.now)) = true ∧
       goes (.handoverRequest 1#32) s (fun t => t.pr.handReq) = true ∧ goes (.handoverRequest 1#32) up (fun t => t.pr.sticky.getLsbD 8) = true ∧
       (s.domain 11).up = true) := by decide +kernel

theorem test_partner_loss_premises :
    (let s := pairIn .standby .active
     s.pr.role = .standby ∧ s.pr.alive = false ∧ s.sv.first = none ∧ s.pr.own = none ∧ s.pr.fault = none ∧ s.pw.state ≠ .off ∧
       ({ s with pr.alive := true } : State).pr.alive = true ∧ ({ s with pr.own := some (20, 3#12) } : State).pr.own.isSome = true) ∧
    (let s := pairIn .active .standby
     s.pr.role = .active ∧ s.pr.alive = false ∧ s.pr.lane = #v[true, true] ∧ windowOf s = none ∧ s.pw.state ≠ .safeHold ∧ paired s = true ∧
       goes (.pairLaneChange false true) s (fun t => decide (t.pr.own = some (20, 3#12)) && decide (t.pr.lane = #v[false, true])) = true ∧
       goes (.pairLaneChange true true) { s with pr := { s.pr with ownLane := true, own := some (20, 3#12), lane := #v[false, true] } }
         (fun t => decide (t.pr.own = none)) = true) ∧
    (let s := pairIn .syncing .active
     s.pr.role = .syncing ∧ s.pr.alive = false ∧ windowOf s = none ∧ windowOf { s with pr.fault := some (20, 3#12) } ≠ none) := by decide +kernel

theorem test_pair_object_premises :
    (0 < 16 ∧ ([7#32] : List (BitVec 32)) ≠ [] ∧ pairUp (pairIn .active .standby) = true) ∧
    (let frames := [pairFrame 1 true 3#32 6#32 0 [7#32]]
     let s := pairIn .standby .active
     follows s = true ∧ s.tb.running = true ∧ linkObject 1 frames = (0, some (6#32, [7#32])) ∧ 6#32 = s.tb.pickNum + 1#32 ∧
       goes (.inputRecordReceive frames) s (fun t => decide (t.pr.early = some [7#32])) = true) ∧
    (let s : State := { pairIn .standby .active with pr := { (pairIn .standby .active).pr with await := true, digestOwn := some 5#32 } }
     linkObject 1 [pairFrame 1 true 3#32 5#32 0 [0#32, 0#32, 0#32, 9#32, 0#32, 2#32, 0#32, 0#32]] =
         (0, some (5#32, [0#32, 0#32, 0#32, 9#32, 0#32, 2#32, 0#32, 0#32])) ∧
       5#32 = s.tb.pickNum ∧ s.pr.await = true ∧ s.pr.role = .standby ∧ s.pr.digestOwn = some 5#32) ∧
    linkObject 1 [[0#32]] = (1, none) ∧ linkObject 4 [pairFrame 4 true 3#32 5#32 0 [1#32]] = (0, some (5#32, [1#32])) ∧
    (let s := pairIn .active .standby
     leads s = true ∧ s.pr.mute = false ∧ s.tb.running = true ∧ s.pr.copyPick ≠ some s.tb.pickNum ∧
       (let r : PairSafe := { pick := 5#32, a := .sealed, b := .sealed }
        paired s = true ∧ r.pick = s.tb.pickNum ∧ s.now = 1000000 ∧
          ({ s with tb.pickTime := 980000#64 } : State).now = ({ s with tb.pickTime := 980000#64 } : State).tb.pickTime.toNat + 20000)) ∧
    (let s : State := { pairIn .syncing .active with pr := { (pairIn .syncing .active).pr with sync := some {} } }
     s.pr.role = .syncing ∧ s.pr.sync = some {} ∧
       goes (.configFrameReceive false 0#32 true (.scale 9#16)) s (fun t => decide ((t.pr.sync.map fun y => (y.cfg, y.block)) = some (true, 1#32)) &&
         decide (t.pg.dsUp = 9#16)) = true) := by decide +kernel

theorem test_adopt_limit_premises :
    (let s : State := { pairIn .standby .active with pr := { (pairIn .standby .active).pr with await := true } }
     s.pr.en = true ∧ pairUp s = true ∧ s.pr.await = true) := by decide +kernel

theorem test_sync_request_premises :
    (let r : SyncReq := { role := .alone, part := 0x0880#32, rev := 0x12#32, sealed := true, off := true }
     let s := pairIn .alone .alone ready
     s.pr.reqAt = none ∧ s.pr.role = .alone ∧ s.sv.sealed = true ∧ r.sealed = true ∧ s.sv.digest = r.digest ∧ r.off = true ∧ draftCarry s ≤ 14784) ∧
    (let s := pairIn .active .standby ready
     s.pr.role ≠ .alone ∧ goes (.syncReqReceive false {}) s (fun t => t.pr.sticky.getLsbD 5) = true) ∧
    (let s : State := { pairIn .alone .alone ready with pr := { (pairIn .alone .alone ready).pr with reqAt := some 5 } }
     s.pr.reqAt.isSome = true ∧ goes (.syncAckReceive false) s (fun t => decide (t.pr.role = .syncing)) = true) ∧
    (let s : State := { pairIn .syncing .active ready with pr := { (pairIn .syncing .active ready).pr with sync := some {}, retryAt := some 5 } }
     s.pr.role = .syncing ∧ s.pr.sync = some {} ∧ s.pr.retryAt = some 5 ∧ s.pr.partner = .active ∧
       goes .syncFail s (fun t => decide (t.pr.sync = none) && decide (1000000000 ≤ t.now)) = true ∧
       goes .syncRetry s (fun t => decide (t.pr.sync = some { at_ := 1000000 })) = true) ∧
    (let s := pairIn .active .standby ready
     paired s = true ∧ s.pw.state ≠ .safeHold ∧ s.pw.state ≠ .off ∧ s.pr.own ≠ some (20, 3#12) ∧ windowOf s = none ∧
       windowOf { s with pr.fault := some (14, 3#12) } ≠ none ∧
       goes (.controlFrameReceive false (.fault (20, 3#12))) s (fun t => decide (t.pr.fault = some (20, 3#12))) = true) := by decide +kernel

/-! ### The ring -/

/-- A device in the ring with both links, in state `st`, at cascade position `p`. -/
def ringed (st : RingState) (p : BitVec 3) : State := { up with
  wr := { up.wr with insert := true, relay := true, linkIn := true, linkOut := true, state := st }, boot := { up.boot with cascPos := p } }

theorem test_ring_premises_1 :
    (up.domain 11).up = true ∧ goes (.wrInsertWrite 1#32) up (fun t => t.wr.insert && t.wr.relay) = true ∧
    (let s := ringed .up 0#3
     relayOn s = true ∧ ringMaster s = true ∧ s.wr.state = .up ∧ s.tb.running = true ∧ s.wr.relay = true ∧ s.wr.linkOut = true ∧ s.lease = true ∧
       s.wr.alignSent ≠ some s.tb.pickNum ∧ s.wr.capsSent ≠ some s.tb.pickNum ∧
       goes .alignSend s (fun t => decide (t.wr.seqTx = 1#32) && decide (t.out.length = 1)) = true ∧
       (let u : State := { s with rd.place := upd s.rd.place 7 fun _ => some { index := 5#32 } }
        u.rd.place[(7 : Fin 8)] = some { index := 5#32 } ∧ (5#32 : BitVec 32) = u.tb.pickNum)) ∧
    (let s := ringed .out 7#3
     ringMaster s = false ∧ s.wr.state = .out ∧ goes (.ringLinkChange true true 10#16 10#16) s (fun t => decide (t.wr.state = .down)) = true ∧
       goes (.ringLinkChange false true 10#16 10#16) s (fun t => decide (t.wr.state = .down)) = true) ∧
    (let s : State := { ringed .up 7#3 with wr := { (ringed .up 7#3).wr with origin := upd up.wr.origin 3 fun o => { o with index := some 4294967284#32 } } }
     (s.wr.origin[(3 : Fin 4)]).index = some 4294967284#32 ∧ s.wr.foreignMax.toNat < (s.tb.pickNum - 4294967284#32).toNat ∧
       (s.tb.pickNum - 4294967284#32).toNat = 17) ∧
    (let s := ringed .joining 7#3
     ringMaster s = false ∧ s.wr.state = .joining ∧ goes .ringAlignTimeout s (fun t => decide (t.wr.state = .down) && decide (250000 < t.now)) = true) := by decide +kernel

theorem test_ring_premises_2 :
    (let s := ringed .up 7#3
     let p : List (BitVec 32) := List.replicate 11 0#32
     s.wr.relay = true ∧ s.wr.linkIn = true ∧ linkParse [0#32] = none ∧ p.length ≤ 4095 ∧ 7 ≠ 0 ∧ 3 ≠ s.boot.cascPos.toNat ∧ s.wr.linkOut = true ∧
       11 ≤ p.length ∧
       goes (.ringFrameReceive (ringFrame 0 true 7 3 5#32 9#32 0 p) 100#16) s (fun t => decide (t.wr.alignPick = 9#32) && decide (t.out.length = 1)) = true ∧
       goes (.ringFrameReceive (ringFrame 3 true 7 3 5#32 9#32 0 []) 100#16) s (fun t => decide (t.out = [])) = true ∧
       goes (.ringFrameReceive (ringFrame 2 true 0 3 5#32 9#32 0 []) 100#16) s (fun t => decide (t.out = [])) = true ∧
       goes (.ringFrameReceive (ringFrame 0 true 7 7 5#32 9#32 0 []) 100#16) s (fun t => !t.wr.insert) = true ∧
       goes (.ringFrameReceive (ringFrame 0 true 7 7 5#32 9#32 0 []) 100#16) { s with wr.sentSeq := [5#32] } (fun t => t.wr.insert) = true) ∧
    (let s := ringed .joining 7#3
     s.wr.state = .joining ∧ s.lease = true ∧ (0#32 : BitVec 32) ≠ BitVec.ofNat 32 (periodV s.tb.stagedPeriod)) ∧
    -- a CAPS frame of position 1, which is logical position 0, reaches logical position 3
    (let s := ringed .up 7#3
     (0 : Fin 4).val = 1 / 2 ∧ (0 : Fin 4).val ≠ s.boot.cascPos.toNat / 2) := by decide +kernel

/-! ### The event recorder -/

theorem test_recorder_premises :
    (let s := up
     (s.domain 12).up = true ∧ (s.er.staging[(23 : Fin 25)]).length < 8 ∧
       8 ≤ (({ s with er.staging := upd s.er.staging 23 fun _ => List.replicate 8 {} } : State).er.staging[(23 : Fin 25)]).length ∧
       (State.reset.domain 12).up = false) ∧
    (let r : Rec := { src := 23, code := 1#12, payload := [7#32] }
     let s : State := { up with er := { up.er with staging := upd up.er.staging 23 fun _ => [r], ring := { up.er.ring with seq := 1#32, head := 1048575, tail := 1048575 } } }
     r.src = (23 : Fin 25).val ∧ r.len < 256 ∧ s.er.staging[(23 : Fin 25)] = [r] ∧ (∀ j : Fin 25, j ≠ 23 → s.er.staging[j] = []) ∧ s.er.lostPend = none ∧
       Memory.wf s.mem = true ∧ s.er.ring.newest[(23 : Fin 25)] = none ∧ s.er.ring.seq.setWidth 31 ≠ 0#31 ∧ s.er.ring.used + r.len ≤ 1048576 ∧
       s.er.ring.head < 1048576 ∧
       goes .recordAdmit s (fun t => decide (t.er.ring.head = 3) && decide (t.er.ring.used = 4) && decide (t.rd32 0x3A00008 = 7#32)) = true) := by decide +kernel

theorem test_recorder_merge_premises :
    (let r : Rec := { src := 23, code := 1#12, payload := [7#32, 8#32] }
     let s : State := { up with
       er := { up.er with staging := upd up.er.staging 23 fun _ => [r], unread := 5
                          ring := { up.er.ring with seq := 2#32, head := 5, used := 5, newest := up.er.ring.newest.set 23 (some 0) } }
       mem := image 0x3A00000 [r.word0, 1#32, 0#32, 7#32, 9#32] }
     s.er.ring.newest[(23 : Fin 25)] = some 0 ∧ s.er.afterCur 0 = true ∧ mergeable s.mem 0x3A00000 1048576 0 r = true ∧
       (ringWord s.mem 0x3A00000 1048576 2).setWidth 16 ≠ 0xFFFF#16 ∧
       goes .recordAdmit s (fun t => decide (t.rd32 0x3A00008 = 1#32) && decide (t.rd32 0x3A00010 = 8#32)) = true) ∧
    (let s : State := { up with er := { up.er with ring := { up.er.ring with head := 4, used := 4, tail := 0 } }, mem := image 0x3A00000 [4#32] }
     goes (.erCurWrite 4#32) s (fun t => decide (t.er.cur = 4)) = true ∧ goes (.erCurWrite 0#32) s (fun t => decide (t.er.unread = 4)) = true ∧
       2 ∉ recStarts s.mem s.er.ring.used s.er.ring.tail s.er.ring.used ∧ goes (.erCurWrite 2#32) s (fun t => t.er.sticky.getLsbD 4) = true) ∧
    (let s : State := { up with er := { up.er with logB := { up.er.logB with head := 1, used := 2, tail := 65535 } }, mem := image 0x3FFFFFC [5#32] }
     (s.domain 12).up = true ∧ goes (.erSlogSelWrite 1#32) s (fun t => goes .erSlogDataRead t fun u => decide (u.rdata = [5#32])) = true) := by decide +kernel

/-- R415: a record that enters the selected log moves the read position only when it overwrites what is still to be read. -/
theorem test_safety_log_overwrite :
    (let r : Rec := { src := 16, code := 4#12, payload := [7#32] }
     let s : State := { up with
       er := { up.er with selB := true, logUnread := 65533, logPos := 1, logB := { up.er.logB with head := 65534, used := 65534, tail := 0 } }
       mem := image 0x3FC0000 [r.word0, 0#32, 0#32, 7#32] }
     (s.domain 12).up = true ∧ (s.domain (chDomain 1)).up = true ∧ (s.sio.half[(1 : Fin 2)]).sealRd ≠ some 9#24 ∧ s.er.logUnread ≠ 0 ∧
       goes (.sealDebounceChange 1 9#24) s (fun t => t.er.skipped && decide (t.er.logPos = 4) && decide (t.er.logUnread = 65534)) = true) ∧
    (let s : State := up
     s.er.logUnread = 0 ∧ s.er.selB = false ∧ (s.domain (chDomain 0)).up = true ∧ (s.sio.half[(0 : Fin 2)]).sealRd ≠ some 9#24 ∧
       goes (.sealDebounceChange 0 9#24) s (fun t => !t.er.skipped && decide (t.er.logPos = 0) && decide (t.er.logUnread = 4)) = true ∧
       goes (.sealDebounceChange 1 9#24) s (fun t => decide (t.er.logUnread = 0)) = true) := by decide +kernel

/-! ### Power, resets, health -/

theorem test_power_premises :
    (let s : State := { ready with pw := { ready.pw with domTrans := upd ready.pw.domTrans 12 fun _ => some { target := .ret } } }
     s.pw.domTrans[(12 : Fin 13)] = some { target := .ret } ∧ goes (.domainTransitionDone 12) s (fun t => decide (t.domain 12 = .ret)) = true) ∧
    (let s : State := { ready with pw := { ready.pw with domTrans := upd ready.pw.domTrans 12 fun _ => some { target := .off } } }
     s.domain 12 ≠ .off ∧ (s.pw.domTrans[(12 : Fin 13)]).isSome = true) ∧
    (let r : DevTrans := { target := .sleep, op := some (0, 0) }
     let s : State := { ready with pw := { ready.pw with trans := some r } }
     s.pw.trans = some r ∧ r.boot = false ∧ s.pw.wakePend = 0#3 ∧ (s.flow 0).posts = [] ∧
       ((withFlow s { flow7 with posts := [{}] }).flow 0).posts ≠ [] ∧ ({ r with target := .standby } : DevTrans).target = .standby) ∧
    (let s : State := { ready with pw := { ready.pw with state := .sleep, wakeEnPin := true, wakeEnTimer := true, wakeTime := 1000000#64 } }
     s.pw.state = .sleep ∧ s.pw.trans = none ∧ s.now ≤ s.pw.wakeTime.toNat ∧ BitVec.extractLsb' 0 3 (3#32 : BitVec 32) = 3#3 ∧
       goes .wakePin s (fun t => decide (t.pw.wakeCause = 1#3)) = true ∧
       goes (.aonPwrCmdWrite .spi 1#32) s (fun t => decide (t.pw.trans = some { target := .standby })) = true) ∧
    (State.reset.pw.state = .standby ∧ State.reset.pw.trans = none ∧ State.reset.boot.bootSrc ≠ 3#2 ∧ State.reset.pw.wakeEnPin = false) ∧
    (let s : State := { ready with pw := { ready.pw with trans := some { target := .sleep }, wakeEnPin := true } }
     goes .wakePin s (fun t => decide (t.pw.wakePend = 1#3)) = true) ∧
    goes (.aonPwrCmdWrite .bar0 3#32) up (fun t => t.pw.sticky.getLsbD 4) = true ∧
    clusterIdle up 29 = true ∧ clusterIdle (withFlow up) 26 = false ∧ pllNeeded up 17 = false ∧ pllNeeded up 2 = true ∧
    (let s := ringed .up 0#3
     pllNeeded s 17 = true ∧ goes (.pllLockLoss 17) s (fun t => !t.wr.linkOut)) = true := by decide +kernel

theorem test_reset_premises :
    up.pw.state ≠ .off ∧ ({ up with pw.tripped := some 5 } : State).pw.tripped.isSome = true ∧ up.pw.tripped = none ∧
    goes .resetNPin up (fun t => decide (t.pw.state = .standby) && decide (t.domain 1 = .ret) && decide (t.boot.resetCause = 3#4)) = true ∧
    goes (.hostReset 0x5EB00001#32) up (fun t => decide (t.boot.resetCause = 9#4)) = true ∧
    goes .powerOnReset up (fun t => t.pw.por && decide (t.pw.state = .off)) = true ∧
    goes .powerOnReset up (fun t => goes (.porRelease 2#2 7#3) t fun u => decide (u.pw.state = .standby) && decide (u.boot.cascPos = 7#3)) = true ∧
    goes (.temperatureSample #v[0xD8#8, 110#8, 20#8, 0#8, 0#8, 0#8, 0#8, 0#8]) up (fun t => t.pw.warned && decide (t.pw.hot = 1#3)) = true ∧
    (let s : State := { up with pw.over125 := true }
     125 < (126#8 : BitVec 8).toInt ∧ s.pw.over125 = true ∧ s.pw.tripped = none) := by decide +kernel

theorem test_health_premises :
    goes .wearSecond { up with hw.secMax := 85#8 } (fun t => decide (t.hw.acc = accel 85)) = true ∧ accel 55 = 2048 ∧ accel (-65) = 1 ∧
    (let s : State := { up with hw := { up.hw with frac := Vector.replicate 10 999999, eolAlert := 0#20 } }
     s.hw.frac[(0 : Fin 10)] < 1000000 ∧ s.hw.eolAlert.toNat ≤ s.hw.eol.toNat) ∧
    (let s : State := { up with hw := { up.hw with cnt := up.hw.cnt.set 9 1000000#32, rated := up.hw.rated.set 9 1#32 } }
     goes (.poweredHour (Vector.replicate 16 0#32)) s (fun t => decide (t.hw.eol = 0#32) && t.hw.sticky.getLsbD 2 && decide (1000000 ≤ t.hw.frac[(9 : Fin 10)]))) = true ∧
    (up.domain 4).up = true ∧ goes .hwLoad up (fun t => t.hw.sticky.getLsbD 3) = true ∧
    (let s : State := { up with hw := { up.hw with lastPass := [0x3DFFFFF#40] } }
     (0x3DFFFFF#40 : BitVec 40).toNat < 0x3E00000 ∧ (s.domain (domainOf 0x3DFFFFF)).up = true ∧
       goes (.scrubPass false [0x3DFFFFF#40]) s (fun t => decide (t.hw.weak[(5 : Fin 7)] = 1#8) && t.hw.sticky.getLsbD 0) = true ∧
       goes (.scrubPass true [0x3FFFFFF#40]) s (fun t => decide (t.hw.cor[(6 : Fin 7)] = 1#16) && decide (t.hw.weak[(6 : Fin 7)] = 0#8)) = true) ∧
    goes (.eccUncorrectable 0x39FFFFF#40 (.axis 79)) up (fun t => decide ((t.axis 79).state = .fault) && decide (t.hw.unc[(4 : Fin 7)] = 1#8)) = true ∧
    goes (.eccUncorrectable 0x2C00000#40 (.can 3 127)) up (fun t => (t.can.ctl[(3 : Fin 4)]).invalid.getLsbD 127) = true ∧
    (State.reset.domain (domainOf 0x2400000)).up = false ∧ domainOf 0x27FFFFF = 4 := by decide +kernel

def healthImage : Vector (BitVec 32) 24 := ((Vector.replicate 24 0#32).set 0 1#32).set 23 3746209154#32

theorem health_bytes_cut : wordsBytes (healthImage.toList.take 23) =
    (wordsBytes (healthImage.toList.take 23)).take 48 ++ (wordsBytes (healthImage.toList.take 23)).drop 48 := by decide +kernel

theorem health_crc_1 : crcFold 0x82F63B78#32 0xFFFFFFFF#32 ((wordsBytes (healthImage.toList.take 23)).take 48) = 3411728450#32 := by decide +kernel
theorem health_crc_2 : crcFold 0x82F63B78#32 3411728450#32 ((wordsBytes (healthImage.toList.take 23)).drop 48) = ~~~3746209154#32 := by decide +kernel

/-- R434: an image with the right words and CRC is one the boot accepts. -/
theorem test_health_image_premises : up.hw.restored = false ∧ healthImage[0] = 1#32 ∧
    healthImage[23] = crc32c (wordsBytes (healthImage.toList.take 23)) := by
  refine ⟨by decide +kernel, by decide +kernel, ?_⟩
  rw [health_bytes_cut, crc32c, crcFold_append, health_crc_1, health_crc_2]
  decide +kernel

/-! ### Host and boot -/

theorem test_host_premises_1 :
    (let s := up
     (s.domain 3).up = true ∧
       goes (.submissionTailWrite 15 1#32) s (fun t => decide ((t.hi.sub[(15 : Fin 16)]).tail = 1#12)) = true ∧
       goes (.submissionTailWrite 15 2#32) s (fun t => t.hi.sticky.getLsbD 3) = true ∧
       goes (.completionHeadWrite 15 1#32) s (fun t => decide ((t.hi.comp[(15 : Fin 16)]).head = 1#12)) = true ∧
       goes (.completionHeadWrite 15 2#32) s (fun t => t.hi.sticky.getLsbD 3) = true ∧
       goes (.rxRingTailWrite 1#32 [0x2C00000#40]) s (fun t => decide (t.hi.rxBufs = [0x2C00000#40])) = true ∧
       goes (.rxRingTailWrite 1#32 []) { s with hi.rx.loc := true } (fun t => decide (t.hi.rx.tail = 1#12)) = true ∧
       goes (.txRingTailWrite 1#32 []) s (fun t => decide (t.hi.tx.tail = 1#12)) = true ∧
       (let u : State := { s with hi.tx.en := true }
        u.hi.tx.en = true ∧ swRuns u = true ∧ u.hi.tx.depth.toNat ≤ 12 ∧ u.hi.tx.head.toNat < 2 ^ u.hi.tx.depth.toNat) ∧
       goes (.hiCfgWrite 33 0x18#32) s (fun t => decide ((hostRing t 33).depth = 12#4)) = true ∧
       goes (.hiCfgWrite 33 0x1A#32) s (fun t => t.hi.sticky.getLsbD 3) = true ∧
       goes (.hiCfgWrite 33 0x03#32) s (fun t => (hostRing t 33).en && (hostRing t 33).phase) = true ∧
       (let u : State := { s with hi.rx.en := true }
        goes (.hiCfgWrite 33 0x03#32) u (fun t => t.hi.sticky.getLsbD 3) = true ∧ goes (.hiCfgWrite 33 0x02#32) u (fun t => !(hostRing t 33).en) = true ∧
          goes (.hiCfgWrite 33 0x04#32) u (fun t => !(hostRing t 33).en && t.hi.sticky.getLsbD 3) = true)) := by decide +kernel

theorem test_host_premises_2 :
    goes (.perst false) { up with hi := { up.hi with perstHigh := true, linkUp := true } } (fun t => !t.hi.linkUp) = true ∧
    goes (.pcieLink true 4#3 8#4) { up with hi.perstHigh := true } (fun t => t.hi.linkUp && decide (t.hi.linkSpeed = 4#3)) = true ∧
    up.hi.perstHigh = false ∧ up.domain 3 = .run ∧ (up.domain 0).up = true ∧
    goes (.hostMemoryWrite 0x3DFFFFC#40 7#32) up (fun t => decide (t.rd32 0x3DFFFFC = 7#32)) = true ∧
    goes (.hostMemoryWrite 0x3E00000#40 7#32) up (fun t => decide (t.hi.unavailCnt = 1#32) && decide (t.mem = [])) = true ∧
    goes (.spiWrite 0x2C00000#40 7#32) up (fun t => decide (t.rd32 0x2C00000 = 7#32)) = true ∧
    goes (.spiRead 0x4000000#40) up (fun t => decide (t.out = [.spi (List.replicate 14 0#8 ++ [0x11#8])])) = true ∧
    goes (.spiRead 0x101300000#40) up (fun t => decide (t.out = [.spi (List.replicate 14 0#8 ++ [0x11#8])])) = true ∧
    goes (.spiOtherCommand 0x03#8) up (fun t => decide (t.out = [.spi (List.replicate 10 0#8 ++ [0x10#8])])) = true ∧
    goes (.registerWrite .bar0 0x10000000C#40 7#32) up (fun t => decide (t.pw.wakeTime = 7#64)) = true := by decide +kernel

theorem test_boot_premises :
    (let s : State := { fused State.reset with boot := { (fused State.reset).boot with busy := true, waitHost := true, bootSrc := 2#2 } }
     s.boot.busy = true ∧ s.pw.wakePend = 0#3 ∧ s.boot.waitHost = true ∧ s.boot.keyHash = (fused State.reset).boot.keyHash ∧
       (0x80001000#32 : BitVec 32).getLsbD 31 = true ∧ (BitVec.extractLsb' 0 21 (0x80001000#32 : BitVec 32)).toNat = 4096) ∧
    (let s : State := { fused State.reset with boot := { (fused State.reset).boot with busy := true, bootSrc := 1#2 } }
     s.boot.busy = true ∧ s.boot.selftest = false ∧ s.boot.bootSrc.toNat < 2 ∧ fwCheck s [] = 2#4 ∧ fwLen firmware = 4096 ∧ firmware.length = 4096) ∧
    State.reset.pw.state = .standby ∧ State.reset.boot.keyHash = none ∧
    goes (.otpProgramKey .spi) State.reset (fun t => t.boot.keyHash.isSome) = true ∧
    goes (.otpRaiseSvn .spi) { State.reset with boot.svn := 5#16 } (fun t => decide (t.boot.minSvn = 5#16)) = true ∧
    goes (.otpRaiseSvn .bar0) up (fun t => t.pw.sticky.getLsbD 4) = true := by decide +kernel

/-- R399, the example of 18_cascade.md: where logical position 2 puts capsule 21 of positions 3, 0 and 1. -/
theorem test_foreign_identity :
    (let s := ringed .up 4#3
     [3, 0, 1].map (fun l => 128 + 128 * foreignPart s l + 21) = [149, 277, 405]) := by decide +kernel

/-! ### Signed images -/

/-- R253: a signed image of two functions passes every check. -/
theorem test_safety_image_passes : validate unsealed safetyImage 1632 = none := by decide +kernel

/-- R448: a signed firmware image passes every check. -/
theorem test_firmware_passes : fwCheck (fused State.reset) firmware = 0#4 := by decide +kernel

end Sys2Proof.Tests
end

section
/-! SUPPORT. The machine as a whole: the canonical form of memory at reset and after every step (R13). -/
namespace Sys2Proof.Machine

/-- What a step leaves in memory is in canonical form: a command keeps the relation or resets, and an idle step keeps it (R13). -/
theorem step_keeps_memory_wf {s t : State} (hwf : Memory.wf s.mem = true) (h : step s = .next t) : Memory.wf t.mem = true := by
  unfold step at h
  split at h
  · rcases exec_next h with keeps | restarts
    · exact keeps.mem hwf
    · exact restarts.mem hwf
  · obtain rfl := Host.Outcome.next.inj h
    exact (idleTick_keeps s).mem hwf

/-- Settles O5: every command and the idle step keep the canonical form. -/
theorem stepKeepsMemoryCanonical : Obligations.StepKeepsMemoryCanonical := fun _ _ => step_keeps_memory_wf

/-- Settles O4: reset lists no byte. -/
theorem resetMemoryIsCanonical : Obligations.ResetMemoryIsCanonical := ⟨reset_wf, fun _ => rfl⟩

end Sys2Proof.Machine
end

section
/-! SUPPORT. Guards: what a command that asks whether a block is powered comes to when it is. -/
namespace Sys2Proof.Machine

theorem ite_not_of_true {α : Type} {b : Bool} {x y : α} (h : b = true) : (if !b then x else y) = y := by simp [h]

theorem ite_of_false {α : Type} {b : Bool} {x y : α} (h : b = false) : (if b then x else y) = y := by simp [h]

@[simp] theorem at32_zero {n : Nat} (v : BitVec n) : at32 v 0 = v.setWidth 32 := by simp [at32]

end Sys2Proof.Machine
end

section
/-! O32: reads with captures, and clears of counters. -/
namespace Sys2Proof.Machine

/-- R127: an empty trace buffer reads 0. -/
theorem fbTraceW0Read_empty {s : State} (h : (s.domain 9).up = true) (ht : s.fb.trace = []) :
    exec .fbTraceW0Read s = .next { s with fb.traceCap := Vector.replicate 4 0#32, rdata := [0#32] } := by
  refine (ite_not_of_true h).trans ?_
  rw [ht]

/-- R127: the oldest entry is popped and captured. -/
theorem fbTraceW0Read_cons {s : State} (h : (s.domain 9).up = true) {e : Vector (BitVec 32) 4} {r : List (Vector (BitVec 32) 4)}
    (ht : s.fb.trace = e :: r) :
    exec .fbTraceW0Read s = .next { s with fb := { s.fb with trace := r, traceCap := e }, rdata := [e[0]] } := by
  refine (ite_not_of_true h).trans ?_
  rw [ht]

/-- R341: the words of network time that NT_NOW_NS captures; the high half of the seconds needs no shift. -/
theorem ntNowNsRead_up {s : State} (h : (s.domain 10).up = true) :
    let n := s.netTime s.now
    let sec := BitVec.ofInt 48 (n / 1000000000)
    exec .ntNowNsRead s = .next { s with
      nt.capNow := #v[sec.setWidth 32, (BitVec.extractLsb' 32 16 sec).setWidth 32], rdata := [BitVec.ofInt 32 (n % 1000000000)] } := by
  intro n sec
  have run : exec .ntNowNsRead s = .next { s.modNt fun t => { t with
      capNow := #v[sec.setWidth 32, at32 (field sec 32 16) 0] } with rdata := [int32 (n % 1000000000)] } := ite_not_of_true h
  rw [run, at32_zero]
  rfl

theorem wearCapture_sets_imgCap (s : State) : ∃ img, s.wearCapture = { s with hw.imgCap := img } := ⟨_, rfl⟩

/-- R434: HW_IMG_0 captures the wear image. -/
theorem hwImg0Read_up {s : State} (h : (s.domain 4).up = true) :
    ∃ img, exec .hwImg0Read s = .next { s with hw.imgCap := img, rdata := [img[0]] } := by
  obtain ⟨img, capture⟩ := wearCapture_sets_imgCap s
  have run : exec .hwImg0Read s = .next { s.wearCapture with rdata := [s.wearCapture.hw.imgCap[0]] } := if_pos h
  exact ⟨img, by rw [run, capture]⟩

/-- Settles O32: each command is its guard, and behind it the capture or the clear that the statement writes out. -/
theorem readsCaptureAndClearsZero : Obligations.ReadsCaptureAndClearsZero := by
  intro s hi lo
  refine ⟨rfl, rfl, rfl, rfl, fun pd9 => ?_, fun pd7 => ⟨if_pos pd7, if_pos pd7⟩, fun pd8 _ => if_pos pd8, fun pd12 => if_pos pd12,
    fun pd10 => ?_, fun pd4 => ?_, fun _ _ => ⟨ite_of_false, fun reaches => if_pos reaches⟩,
    fun pd9 => ⟨if_pos pd9, fun _ => if_pos pd9⟩, fun pd4 => ⟨if_pos pd4, if_pos pd4, if_pos pd4⟩, fun pd7 => if_pos pd7, fun pd8 => ?_,
    fun pd12 => if_pos pd12, fun pd11 => ?_, fun pd10 _ _ => if_pos pd10, fun pd3 => ⟨if_pos pd3, if_pos pd3⟩⟩
  · exact ⟨fun _ => ite_not_of_true pd9, fun _ => ⟨ite_not_of_true pd9, ite_not_of_true pd9⟩, fbTraceW0Read_empty pd9,
      fun _ _ => fbTraceW0Read_cons pd9⟩
  · exact ⟨ite_not_of_true pd10, ite_not_of_true pd10, fun _ => ite_not_of_true pd10, ntNowNsRead_up pd10⟩
  · obtain ⟨img, run⟩ := hwImg0Read_up pd4
    exact ⟨_, run, rfl, rfl, rfl⟩
  · exact ⟨_, if_pos pd8, rfl, rfl, rfl, rfl, rfl, fun _ => Vector.getElem_map _ _⟩
  · exact ⟨if_pos pd11, fun _ => if_pos pd11, fun _ => ⟨ite_not_of_true pd11, ite_not_of_true pd11, ite_not_of_true pd11⟩⟩
end Sys2Proof.Machine
end

section
/-! SUPPORT. Frames of what is shared by the blocks: an interrupt request changes pending bits and what leaves the chip only, a record
changes the recorder besides. -/
namespace Sys2Proof.Machine

/-- Entries replaced by functions that agree on the entry give the same table. -/
theorem upd_congr {α : Type} {n : Nat} {v : Vector α n} {i : Fin n} {f g : α → α} (h : f v[i] = g v[i]) : upd v i f = upd v i g := by
  simp only [upd, h]

theorem State.raise_frame (s : State) (v : Fin 64) : ∃ pba out, s.raise v = { s with hi.pba := pba, out := out } := by
  unfold State.raise
  dsimp only
  split
  · split
    · exact ⟨_, _, rfl⟩
    · exact ⟨_, _, rfl⟩
  · exact ⟨_, _, rfl⟩

/-- A watched level changes nothing but the pending bits and what has left the chip (R128, R437). -/
theorem irqWatch_frame (v : Fin 64) (level : State → Bool) (s t : State) :
    ∃ pba out, irqWatch v level s t = { t with hi.pba := pba, out := out } := by
  unfold irqWatch
  split
  · exact t.raise_frame v
  · exact ⟨_, _, rfl⟩

/-- A staged record changes the recorder, the pending bits and what has left the chip alone (R405, R413). -/
theorem State.stage_frame (s : State) (r : Rec) : ∃ er pba out, s.stage r = { s with er := er, hi.pba := pba, out := out } := by
  unfold State.stage
  split
  · exact ⟨_, _, _, rfl⟩
  · obtain ⟨pba, out, h⟩ := irqWatch_frame 16 erLevel _ _
    exact ⟨_, pba, out, h⟩

theorem State.emit_frame (s : State) (src : Nat) (code : BitVec 12) (p : List (BitVec 32)) :
    ∃ er pba out, s.emit src code p = { s with er := er, hi.pba := pba, out := out } := s.stage_frame _

end Sys2Proof.Machine
end

section
/-! SUPPORT. Configuration writes of feedback channels and trigger outputs (R24, R107). -/
namespace Sys2Proof.Machine

theorem fbLocked_iff (s : State) (c : Fin 96) :
    fbLocked s c = true ↔ (s.ch c).mapped = true ∧ (s.axis (Fin.ofNat 80 (s.ch c).axis.toNat)).state ≠ .disabled := by
  simp [fbLocked]

theorem State.fbSet_frame (s : State) (c : Fin 96) (i : Nat) : ∃ pba out,
    s.fbSet c i = { s with fb.ch := upd s.fb.ch c fun q => { q with sticky := setBit q.sticky i }, hi.pba := pba, out := out } :=
  irqWatch_frame _ _ s _

theorem fbConfig_up {s : State} {c : Fin 96} (up : (s.domain 9).up = true) (bad : Bool) (put : FbCh → FbCh) :
    s.fbConfig c bad put = if bad || fbLocked s c then s.fbSet c 9 else if s.tb.running then s.modCh c put
      else s.modCh c fun h => (put h).applyConfig s.now := by
  have : ¬(s.domain 9 = .off ∨ s.domain 9 = .ret) := by
    rintro (h | h) <;> simp [h, DomState.up] at up
  rw [State.fbConfig, if_neg this]

/-- R107: a write that is bad, or that meets a channel in use, sets CFG_REJ and changes nothing else of the channel. -/
theorem fbConfig_refuses {i : Instr} {s : State} {c : Fin 96} {bad : Bool} {put : FbCh → FbCh} (up : (s.domain 9).up = true)
    (run : exec i s = .next (s.fbConfig c bad put)) (refused : fbLocked s c = true ∨ bad = true) :
    ∃ t, exec i s = .next t ∧ t.fb = { s.fb with ch := upd s.fb.ch c fun q => { q with sticky := q.sticky ||| 0x200#13 } } ∧
      { t with fb := s.fb, hi := s.hi, out := s.out } = s := by
  have : (bad || fbLocked s c) = true := by simpa [or_comm] using refused
  obtain ⟨pba, out, set⟩ := s.fbSet_frame c 9
  rw [run, fbConfig_up up, if_pos this, set]
  exact ⟨_, rfl, rfl, rfl⟩

/-- No configuration write of the channel waits for the pick instant. -/
def FbCh.NoneWaits (q : FbCh) : Prop := q.cfgNext = none ∧ q.timingNext = none ∧ q.ssiNext = none ∧ q.leadNext = none

/-- R24, R107: an accepted write is kept for the next pick while picks run, and restarts the channel with the new values otherwise. -/
theorem fbConfig_accepts {i : Instr} {s : State} {c : Fin 96} {bad : Bool} {put : FbCh → FbCh} (now : FbCh → FbCh)
    (up : (s.domain 9).up = true) (run : exec i s = .next (s.fbConfig c bad put)) (free : ¬fbLocked s c = true) (good : bad = false)
    (applied : ∀ q : FbCh, q.NoneWaits → (put q).applyConfig s.now = (now q).restart s.now) :
    (s.tb.running = true → exec i s = .next { s with fb.ch := upd s.fb.ch c put }) ∧
    (s.tb.running = false → (s.ch c).cfgNext = none → (s.ch c).timingNext = none → (s.ch c).ssiNext = none → (s.ch c).leadNext = none →
      exec i s = .next { s with fb.ch := upd s.fb.ch c fun q => (now q).restart s.now }) := by
  have : ¬(bad || fbLocked s c) = true := by simp [good, free]
  rw [run, fbConfig_up up, if_neg this]
  refine ⟨fun runs => by rw [if_pos runs]; rfl, fun stopped hc ht hs hl => ?_⟩
  have same : upd s.fb.ch c (fun q => (put q).applyConfig s.now) = upd s.fb.ch c fun q => (now q).restart s.now :=
    upd_congr (applied _ ⟨hc, ht, hs, hl⟩)
  rw [if_neg (by simp [stopped]), State.modCh, same]

theorem FbCh.applyConfig_cfg (v : BitVec 32) (t : Nat) (q : FbCh) (h : q.NoneWaits) : ({ q with cfgNext := some v }).applyConfig t = ({ q with
      inmode := field v 0 3, invDir := bit v 3, filt := field v 4 6, axis := field v 10 7, mapped := bit v 17 }).restart t := by
  cases q
  obtain ⟨rfl, rfl, rfl, rfl⟩ := h
  rfl

theorem FbCh.applyConfig_timing (v : BitVec 32) (t : Nat) (q : FbCh) (h : q.NoneWaits) :
    ({ q with timingNext := some v }).applyConfig t = ({ q with tss := field v 0 10, debounce := field v 16 16 }).restart t := by
  cases q
  obtain ⟨rfl, rfl, rfl, rfl⟩ := h
  rfl

theorem FbCh.applyConfig_ssi (v : BitVec 32) (t : Nat) (q : FbCh) (h : q.NoneWaits) : ({ q with ssiNext := some v }).applyConfig t = ({ q with
      bits := field v 0 6, parity := field v 6 2, gray := bit v 8, ssiDiv := field v 10 14 }).restart t := by
  cases q
  obtain ⟨rfl, rfl, rfl, rfl⟩ := h
  rfl

theorem FbCh.applyConfig_lead (v : BitVec 32) (t : Nat) (q : FbCh) (h : q.NoneWaits) :
    ({ q with leadNext := some v }).applyConfig t = ({ q with lead := field v 0 16, jumpMax := field v 16 16 }).restart t := by
  cases q
  obtain ⟨rfl, rfl, rfl, rfl⟩ := h
  rfl

theorem cfgInRange_iff (v : BitVec 32) (c : Fin 96) :
    (decide (6 ≤ (field v 0 3).toNat) || (decide (field v 0 3 = 5#3) && decide (32 ≤ c.val)) || decide (79 < (field v 10 7).toNat)) = false ↔
      (field v 0 3).toNat ≤ 5 ∧ (field v 0 3 = 5#3 → c.val ≤ 31) ∧ (field v 10 7).toNat ≤ 79 := by
  simp only [Bool.or_eq_false_iff, Bool.and_eq_false_imp, decide_eq_true_eq, decide_eq_false_iff_not, and_assoc]
  exact and_congr (by omega) (and_congr (imp_congr_right fun _ => by omega) (by omega))

theorem timingInRange_iff (v : BitVec 32) :
    (decide ((field v 0 10).toNat = 0) || decide (1000 < (field v 0 10).toNat)) = false ↔
      1 ≤ (field v 0 10).toNat ∧ (field v 0 10).toNat ≤ 1000 := by
  simp only [Bool.or_eq_false_iff, decide_eq_false_iff_not]
  omega

theorem ssiInRange_iff (v : BitVec 32) :
    (decide ((field v 10 14).toNat < 120) || decide (12000 < (field v 10 14).toNat) || decide (field v 6 2 = 3#2) ||
      decide ((field v 0 6).toNat < 8) || decide (40 < (field v 0 6).toNat)) = false ↔
      120 ≤ (field v 10 14).toNat ∧ (field v 10 14).toNat ≤ 12000 ∧ field v 6 2 ≠ 3#2 ∧ 8 ≤ (field v 0 6).toNat ∧ (field v 0 6).toNat ≤ 40 := by
  simp only [Bool.or_eq_false_iff, decide_eq_false_iff_not, Nat.not_lt, and_assoc]

/-- R126: a width of 0 is refused with TRIG_REJ. -/
theorem fbTrigCfgWrite_up {s : State} (up : (s.domain 9).up = true) (t : Fin 8) (v : BitVec 32) :
    exec (.fbTrigCfgWrite t v) s = if field v 0 16 = 0#16 then .next { s with fb.trigRej := true }
      else .next { s with fb.trig := upd s.fb.trig t fun g => { g with width := field v 0 16, pol := bit v 16 } } := ite_not_of_true up

/-- Settles O35: each channel write is `fbConfig` with its own ranges. -/
theorem channelConfiguration : Obligations.ChannelConfiguration := by
  intro c v s up h inUse accepts refuses cfgOk tssOk ssiOk
  have lock : fbLocked s c = true ↔ inUse := fbLocked_iff s c
  have refuse {i : Instr} {bad : Bool} {ok : Prop} {put : FbCh → FbCh} (inRange : bad = false ↔ ok)
      (run : exec i s = .next (s.fbConfig c bad put)) (refused : inUse ∨ ¬ok) : refuses i :=
    fbConfig_refuses up run (refused.imp lock.mpr fun out => by simpa [← inRange] using out)
  have accept {i : Instr} {bad : Bool} {put now : FbCh → FbCh} (run : exec i s = .next (s.fbConfig c bad put))
      (applied : ∀ q : FbCh, q.NoneWaits → (put q).applyConfig s.now = (now q).restart s.now) (free : ¬inUse) (good : bad = false) :
      accepts i put now := fbConfig_accepts now up run (mt lock.mp free) good applied
  refine ⟨fun free ok => accept rfl (FbCh.applyConfig_cfg v _) free ((cfgInRange_iff v c).mpr ok),
    fun free ok => accept rfl (FbCh.applyConfig_timing v _) free ((timingInRange_iff v).mpr ok),
    fun free ok => accept rfl (FbCh.applyConfig_ssi v _) free ((ssiInRange_iff v).mpr ok),
    fun free => accept rfl (FbCh.applyConfig_lead v _) free rfl,
    refuse (cfgInRange_iff v c) rfl, refuse (timingInRange_iff v) rfl, refuse (ssiInRange_iff v) rfl,
    fun used => fbConfig_refuses up rfl (.inl (lock.mpr used)), fun t => ?_⟩
  rw [fbTrigCfgWrite_up up]
  exact ⟨fun zero => if_pos zero, fun width => if_neg width⟩

end Sys2Proof.Machine
end

section
/-! SUPPORT. Configuration writes of loop slices, Loom weights and Reed (R24, R97, R133, R226, R227). -/
namespace Sys2Proof.Machine

theorem upd_upd {α : Type} {n : Nat} (v : Vector α n) (i : Fin n) (f g : α → α) : upd (upd v i f) i g = upd v i fun x => g (f x) := by
  ext j hj
  simp only [upd_get]
  split
  · next h => simp [h]
  · rfl

theorem State.modSlice_modSlice (s : State) (a : Fin 80) (f g : Slice → Slice) :
    (s.modSlice a f).modSlice a g = s.modSlice a fun l => g (f l) := by
  simp only [State.modSlice, upd_upd]

theorem State.ceSet_frame (s : State) (a : Fin 80) (i : Nat) : ∃ pba out,
    s.ceSet a i = { s with ce.sl := upd s.ce.sl a fun l => { l with sticky := setBit l.sticky i }, hi.pba := pba, out := out } :=
  irqWatch_frame _ _ s _

/-- R133: a CE_CFG write is good on a DISABLED axis, with MISS_MAX not 0 and a channel that is mapped to the axis, or SRC = 1. -/
theorem ceCfgBad_eq_false_iff (s : State) (a : Fin 80) (v : BitVec 32) : ceCfgBad s a v = false ↔
    (s.axis a).state = .disabled ∧ field v 16 4 ≠ 0#4 ∧
      (bit v 2 = true ∨ ∃ c : Fin 96, c.val = (field v 4 7).toNat ∧ (s.ch c).mapped = true ∧ (s.ch c).axis.toNat = a.val) := by
  have mapped : (if h : (field v 4 7).toNat < 96 then
        !((s.ch ⟨(field v 4 7).toNat, h⟩).mapped && decide ((s.ch ⟨(field v 4 7).toNat, h⟩).axis.toNat = a.val)) else true) = false ↔
      ∃ c : Fin 96, c.val = (field v 4 7).toNat ∧ (s.ch c).mapped = true ∧ (s.ch c).axis.toNat = a.val := by
    constructor
    · intro h
      split at h
      · next lt => exact ⟨⟨_, lt⟩, rfl, by simpa using h⟩
      · exact absurd h (by simp)
    · rintro ⟨c, hc, hm, ha⟩
      have lt : (field v 4 7).toNat < 96 := hc ▸ c.isLt
      obtain rfl : c = ⟨_, lt⟩ := Fin.ext hc
      simp [lt, hm, ha]
  simp only [ceCfgBad, Bool.or_eq_false_iff, Bool.and_eq_false_iff, decide_eq_false_iff_not, not_not, Bool.not_eq_false', mapped]
  tauto

theorem ceCfgWrite_up {s : State} (up : (s.domain 9).up = true) (a : Fin 80) (v : BitVec 32) :
    exec (.ceCfgWrite a v) s = if ceCfgBad s a v then .next (s.ceSet a 9)
      else if s.tb.running then .next (s.modSlice a fun l => { l with cfgNext := some v })
      else .next (s.modSlice a fun l => l.configure v) := ite_not_of_true up

/-- R133: a CE_CFG write that is not good sets CFG_REJ alone. -/
theorem ceCfgWrite_refuses {s : State} (up : (s.domain 9).up = true) {a : Fin 80} {v : BitVec 32} (bad : ceCfgBad s a v = true) :
    ∃ t, exec (.ceCfgWrite a v) s = .next t ∧
      t.ce = { s.ce with sl := upd s.ce.sl a fun l => { l with sticky := l.sticky ||| 0x200#11 } } ∧
      { t with ce := s.ce, hi := s.hi, out := s.out } = s := by
  obtain ⟨pba, out, set⟩ := s.ceSet_frame a 9
  rw [ceCfgWrite_up up, if_pos bad, set]
  exact ⟨_, rfl, rfl, rfl⟩

theorem ceVmaxWrite_up {s : State} (up : (s.domain 9).up = true) (a : Fin 80) {v : BitVec 64} (pos : 1 ≤ v.toInt) :
    exec (.ceVmaxWrite a v) s = if s.tb.running
      then .next (s.modSlice a fun l => { l with vmaxLo := v.setWidth 32, vmaxNext := some v })
      else .next (s.modSlice a fun l => { l with vmaxLo := v.setWidth 32, vmax := v }) := by
  refine (ite_not_of_true up).trans ((if_neg (Int.not_lt.mpr pos)).trans ?_)
  simp only [State.modSlice_modSlice]

theorem ceAmaxWrite_up {s : State} (up : (s.domain 9).up = true) (a : Fin 80) {v : BitVec 64} (pos : 1 ≤ v.toInt) :
    exec (.ceAmaxWrite a v) s = if s.tb.running
      then .next (s.modSlice a fun l => { l with amaxLo := v.setWidth 32, amaxNext := some v })
      else .next (s.modSlice a fun l => { l with amaxLo := v.setWidth 32, amax := v }) := by
  refine (ite_not_of_true up).trans ((if_neg (Int.not_lt.mpr pos)).trans ?_)
  simp only [State.modSlice_modSlice]

theorem lmWeightWrite_up {s : State} (up : (s.domain 4).up = true) (g : Fin 8) (v : BitVec 32) :
    exec (.lmWeightWrite g v) s = if field v 0 8 = 0#8 then .next { s with lm.weightRej := true }
      else .next { s with lm.weight := upd s.lm.weight g fun _ => field v 0 8 } := ite_not_of_true up

/-- R226: the configuration of Reed stands once it is sealed. -/
theorem reedConfigWrite_sealed {s : State} (stopped : s.rd.run = false) (sealed : s.sv.sealed = true) (off : BitVec 12) (v : BitVec 32) :
    exec (.reedConfigWrite off v) s = .next s := (ite_of_false stopped).trans (if_pos sealed)

theorem reedConfigWrite_open {s : State} (stopped : s.rd.run = false) (unsealed : s.sv.sealed = false) (off : BitVec 12)
    (v : BitVec 32) : exec (.reedConfigWrite off v) s = .next (s.modRd fun r => r.setCfg off.toNat v) :=
  (ite_of_false stopped).trans (ite_of_false unsealed)

theorem Reed.setCfg_org (r : Reed) (i : Fin 3) (v : BitVec 32) :
    r.setCfg (0x18 + 4 * i.val) v = { r with org := upd r.org i fun _ => v } := by
  match i with
  | 0 => rfl
  | 1 => rfl
  | 2 => rfl

theorem Reed.setCfg_sensor (r : Reed) (n : Fin 8) (v : BitVec 32) : r.setCfg (0x100 + 0x20 * n.val) v =
    { r with sens := upd r.sens n fun t => { t with en := bit v 0, period := field v 12 20 } } := by
  have index : (0x100 + 0x20 * n.val - 0x100) / 0x20 = n.val := by omega
  have range : 0x100 ≤ 0x100 + 0x20 * n.val ∧ 0x100 + 0x20 * n.val < 0x200 ∧ (0x100 + 0x20 * n.val) % 0x20 = 0 := by omega
  simp only [Reed.setCfg, if_pos range, index, updN_lt _ _ _ n.isLt]
  repeat rw [if_neg (by omega)]

theorem reedRunWrite_stop {s : State} {v : BitVec 32} (h : bit v 0 = false) :
    exec (.reedRunWrite v) s = .next { s with rd := { s.rd with run := false, fusing := none, chA := [], chB := [] } } := ite_of_false h

/-- R227: Reed starts with every frame slot of its sensors empty. -/
theorem reedRunWrite_start {s : State} {v : BitVec 32} (h : bit v 0 = true) (stopped : s.rd.run = false) (grid : s.rd.gridOk = true)
    (sensor : ∃ n : Fin 8, (s.rd.sens[n]).en = true) (pd8 : s.domain 8 = .run) :
    exec (.reedRunWrite v) s = .next (s.modRd fun r => { r with
      run := true, waitFirst := true, sens := r.sens.map fun t => { t with slot := Vector.replicate 3 {}, order := [] } }) := by
  have starts : ¬(!s.rd.gridOk || (enabledSensors s.rd).isEmpty || decide (s.domain 8 ≠ .run)) = true := by
    obtain ⟨n, hn⟩ := sensor
    have : enabledSensors s.rd ≠ [] := List.ne_nil_of_mem (List.mem_filter.mpr ⟨List.mem_finRange n, hn⟩)
    simp [grid, pd8, this]
  exact (if_pos h).trans ((ite_of_false stopped).trans (if_neg starts))

/-- Settles O36: each write is accepted or refused as its own lemma says. -/
theorem axisConfiguration : Obligations.AxisConfiguration := by
  refine ⟨fun a v s up => ?_, fun a v s up pos => ?_, fun g v s up => ?_, fun off v s stopped => ?_, fun v s => ?_⟩
  · intro ch ok
    have good : ceCfgBad s a v = false ↔ ok := ceCfgBad_eq_false_iff s a v
    refine ⟨fun h runs => ?_, fun h stopped => ?_, fun h => ceCfgWrite_refuses up (by simpa [← good] using h)⟩
    · rw [ceCfgWrite_up up, ite_of_false (good.mpr h), if_pos runs]
      rfl
    · rw [ceCfgWrite_up up, ite_of_false (good.mpr h), ite_of_false stopped]
      rfl
  · rw [ceVmaxWrite_up up a pos, ceAmaxWrite_up up a pos]
    exact ⟨fun runs => ⟨if_pos runs, if_pos runs⟩, fun stopped => ⟨ite_of_false stopped, ite_of_false stopped⟩⟩
  · rw [lmWeightWrite_up up]
    exact ⟨fun weight => if_neg weight, fun zero => if_pos zero⟩
  · refine ⟨fun sealed => reedConfigWrite_sealed stopped sealed off v, fun unsealed => ?_⟩
    simp only [reedConfigWrite_open stopped unsealed]
    refine ⟨rfl, rfl, fun i => ?_, rfl, fun n => ?_⟩
    · have offset : (BitVec.ofNat 12 (0x18 + 4 * i.val)).toNat = 0x18 + 4 * i.val := by simp; omega
      simp only [offset, Reed.setCfg_org]
      rfl
    · have offset : (BitVec.ofNat 12 (0x100 + 0x20 * n.val)).toNat = 0x100 + 0x20 * n.val := by simp; omega
      simp only [offset, Reed.setCfg_sensor]
      rfl
  · refine ⟨reedRunWrite_stop, fun h stopped grid sensor pd8 => ⟨_, reedRunWrite_start h stopped grid sensor pd8, rfl, rfl, fun n => ?_⟩⟩
    exact Vector.getElem_map _ _

end Sys2Proof.Machine
end

section
/-! SUPPORT. What the operations of the blocks leave of the power controller and of the health monitor: all but the change of the
device state leave both as they are. -/
namespace Sys2Proof.Machine

/-- The power controller, and the readings and error counts of the health monitor. -/
def State.aside (s : State) : Power × Vector (BitVec 8) 8 × Vector (BitVec 8) 7 := (s.pw, s.hw.temp, s.hw.unc)

@[simp] theorem State.aside_mk (tb tr lm fb ce cell pg stl sv sio sl pr qp rd sw nt can wr dr er hi boot pw cr hw pend mem out rdata
    fresh pending) : State.aside ⟨tb, tr, lm, fb, ce, cell, pg, stl, sv, sio, sl, pr, qp, rd, sw, nt, can, wr, dr, er, hi, boot, pw, cr,
      hw, pend, mem, out, rdata, fresh, pending⟩ = (pw, hw.temp, hw.unc) := rfl

@[simp] theorem State.aside_fold (s : State) : (s.pw, s.hw.temp, s.hw.unc) = s.aside := rfl

theorem State.aside_pw {s t : State} (h : t.aside = s.aside) : t.pw = s.pw := congrArg (·.1) h
theorem State.aside_temp {s t : State} (h : t.aside = s.aside) : t.hw.temp = s.hw.temp := congrArg (·.2.1) h
theorem State.aside_unc {s t : State} (h : t.aside = s.aside) : t.hw.unc = s.hw.unc := congrArg (·.2.2) h

theorem State.forEach_aside {α : Type} {s : State} {l : List α} {g : State → α → State} (h : ∀ t x, (g t x).aside = t.aside) :
    (s.forEach l g).aside = s.aside :=
  forEach_induct (fun t => t.aside = s.aside) l g (fun t x _ ht => (h t x).trans ht) s rfl

@[simp] theorem irqWatch_aside (v : Fin 64) (level : State → Bool) (s t : State) : (irqWatch v level s t).aside = t.aside := by
  obtain ⟨pba, out, h⟩ := irqWatch_frame v level s t
  rw [h]
  rfl

theorem getLsbD_setBit {n : Nat} (w : BitVec n) (k i : Nat) :
    (setBit w k).getLsbD i = (w.getLsbD i || (decide (k < n) && decide (k = i))) := by
  simp [setBit]

/-! ### Records -/

@[simp] theorem State.stage_aside (s : State) (r : Rec) : (s.stage r).aside = s.aside := by
  unfold State.stage
  split
  · simp
  · simp [State.erSet]

@[simp] theorem State.emit_aside (s : State) (src : Nat) (code : BitVec 12) (p : List (BitVec 32)) : (s.emit src code p).aside = s.aside :=
  s.stage_aside _

@[simp] theorem State.emitSafe_aside (s : State) (b : Bool) (src : Nat) (code : BitVec 12) (p : List (BitVec 32)) :
    (s.emitSafe b src code p).aside = s.aside := (State.stage_aside _ _).trans rfl

@[simp] theorem State.svRec_aside (s : State) (c : Fin 2) (code : BitVec 12) (p : List (BitVec 32)) :
    (s.svRec c code p).aside = s.aside := s.emitSafe_aside _ _ _ _

@[simp] theorem State.takeFresh_aside (s : State) : s.takeFresh.2.aside = s.aside := rfl

/-! ### Parts of the state -/

@[simp] theorem State.modFlow_aside (s : State) (f : Fin 16) (g : FlowS → FlowS) : (s.modFlow f g).aside = s.aside := rfl
@[simp] theorem State.modAxis_aside (s : State) (a : Fin 80) (g : Axis → Axis) : (s.modAxis a g).aside = s.aside := rfl
@[simp] theorem State.modArm_aside (s : State) (r : Fin 8) (g : Arm → Arm) : (s.modArm r g).aside = s.aside := rfl
@[simp] theorem State.modPax_aside (s : State) (a : Fin 80) (g : PgAxis → PgAxis) : (s.modPax a g).aside = s.aside := rfl
@[simp] theorem State.modSlice_aside (s : State) (a : Fin 80) (g : Slice → Slice) : (s.modSlice a g).aside = s.aside := rfl
@[simp] theorem State.modRd_aside (s : State) (g : Reed → Reed) : (s.modRd g).aside = s.aside := rfl
@[simp] theorem State.modSens_aside (s : State) (i : Fin 8) (g : ReedSensor → ReedSensor) : (s.modSens i g).aside = s.aside := rfl
@[simp] theorem State.modPr_aside (s : State) (g : Pair → Pair) : (s.modPr g).aside = s.aside := rfl
@[simp] theorem State.modWr_aside (s : State) (g : Ring → Ring) : (s.modWr g).aside = s.aside := rfl
@[simp] theorem State.modNt_aside (s : State) (g : NetTime → NetTime) : (s.modNt g).aside = s.aside := rfl
@[simp] theorem State.modSv_aside (s : State) (g : Selvedge → Selvedge) : (s.modSv g).aside = s.aside := rfl
@[simp] theorem State.modSvCh_aside (s : State) (c : Fin 2) (g : SvCh → SvCh) : (s.modSvCh c g).aside = s.aside := rfl
@[simp] theorem State.modSio_aside (s : State) (g : Sio → Sio) : (s.modSio g).aside = s.aside := rfl
@[simp] theorem State.modSlot_aside (s : State) (d : Fin 8) (g : Slot → Slot) : (s.modSlot d g).aside = s.aside := rfl
@[simp] theorem State.modNode_aside (s : State) (d : Fin 8) (c i : Nat) (g : NodeRec → NodeRec) : (s.modNode d c i g).aside = s.aside := rfl
@[simp] theorem State.modQp_aside (s : State) (g : Churn → Churn) : (s.modQp g).aside = s.aside := rfl
@[simp] theorem State.modCan_aside (s : State) (n : Fin 4) (g : CanCtl → CanCtl) : (s.modCan n g).aside = s.aside := rfl
@[simp] theorem State.modPort_aside (s : State) (p : Fin 8) (g : Port → Port) : (s.modPort p g).aside = s.aside := rfl
@[simp] theorem State.coreClock_aside (s : State) (f : Fin 16) : (s.coreClock f).aside = s.aside := rfl
@[simp] theorem State.wrBytes_aside (s : State) (a : Nat) (b : List Byte) : (s.wrBytes a b).aside = s.aside := rfl

/-! ### Axes -/

@[simp] theorem State.pgSet_aside (s : State) (a : Fin 80) (i : Nat) : (s.pgSet a i).aside = s.aside := irqWatch_aside _ _ _ _

@[simp] theorem State.leaveArm_aside (s : State) (a : Fin 80) : (s.leaveArm a).aside = s.aside := by
  unfold State.leaveArm
  split <;> rfl

@[simp] theorem State.stopAxis_aside (s : State) (a : Fin 80) (quick safety : Bool) : (s.stopAxis a quick safety).aside = s.aside := by
  simp [State.stopAxis]

@[simp] theorem State.loseMaster_aside (s : State) (a : Fin 80) : (s.loseMaster a).aside = s.aside :=
  State.forEach_aside fun t b => by simp

theorem State.setAxis_fault (s : State) (a : Fin 80) : s.setAxis a .fault =
    (((s.modAxis a fun x => { x with state := .fault, selFault := false }).leaveArm a).modPax a PgAxis.release).loseMaster a := rfl

@[simp] theorem State.faultAxis_aside (s : State) (a : Fin 80) : (s.faultAxis a).aside = s.aside := by
  unfold State.faultAxis
  split
  · rfl
  · simp [State.setAxis_fault]

@[simp] theorem State.svFaultAxis_aside (s : State) (a : Fin 80) : (s.svFaultAxis a).aside = s.aside := by simp [State.svFaultAxis]

@[simp] theorem State.holdAxis_aside (s : State) (a : Fin 80) (x : Int) : (s.holdAxis a x).aside = s.aside := by
  unfold State.holdAxis State.setAxis
  simp

@[simp] theorem State.endMpc_aside (s : State) (r : Fin 8) : (s.endMpc r).aside = s.aside := by
  refine (State.modArm_aside _ _ _).trans (State.forEach_aside fun t a => ?_)
  dsimp only
  split
  · split <;> simp
  · rfl

@[simp] theorem State.mpcSweep_aside (s : State) : s.mpcSweep.aside = s.aside :=
  State.forEach_aside fun t r => by split <;> simp

/-! ### Network time and the ring -/

@[simp] theorem State.ntSet_aside (s : State) (i : Nat) : (s.ntSet i).aside = s.aside := irqWatch_aside _ _ _ _

@[simp] theorem State.ntState_aside (s : State) (st : NtState) : (s.ntState st).aside = s.aside := by
  unfold State.ntState
  split <;> simp

@[simp] theorem State.ntHold_aside (s : State) (f : Int) : (s.ntHold f).aside = s.aside := by
  unfold State.ntHold
  split
  · simp
  · split <;> simp

@[simp] theorem State.ntSwitch_aside (s : State) (cause : Nat) : (s.ntSwitch cause).aside = s.aside := by simp [State.ntSwitch]

@[simp] theorem State.ntReturn_aside (s : State) : s.ntReturn.aside = s.aside := by
  unfold State.ntReturn
  dsimp only
  split
  · simp
  split
  · simp
  split <;> simp

@[simp] theorem State.ringState_aside (s : State) (st : RingState) : (s.ringState st).aside = s.aside := by
  unfold State.ringState
  dsimp only
  split
  · rfl
  split
  · split <;> simp
  · simp

@[simp] theorem State.ringRelay_aside (s : State) : s.ringRelay.aside = s.aside := by
  unfold State.ringRelay
  extract_lets on wr hw s1
  have relay : s1.aside = s.aside := by
    simp only [s1]
    split <;> rfl
  split
  · simp [relay]
  split
  · split <;> simp [relay]
  split
  · simp [relay]
  split <;> simp [relay]

/-! ### The pair link -/

@[simp] theorem State.prSet_aside (s : State) (i : Nat) : (s.prSet i).aside = s.aside := irqWatch_aside _ _ _ _

@[simp] theorem State.pairSend_aside (s : State) (ty : Nat) (tag : BitVec 32) (p : List (BitVec 32)) :
    (s.pairSend ty tag p).aside = s.aside := by
  unfold State.pairSend
  split
  · exact State.forEach_aside fun t q => rfl
  · rfl

@[simp] theorem State.pairCtl_aside (s : State) (c : PairCtl) : (s.pairCtl c).aside = s.aside := by
  unfold State.pairCtl
  split <;> rfl

@[simp] theorem State.sendHeartbeat_aside (s : State) : s.sendHeartbeat.aside = s.aside := by simp [State.sendHeartbeat]

@[simp] theorem State.alvLow_aside (s : State) : s.alvLow.aside = s.aside := by
  unfold State.alvLow
  split <;> rfl

@[simp] theorem State.dropSetpoints_aside (s : State) : s.dropSetpoints.aside = s.aside := rfl

@[simp] theorem State.pairMute_aside (s : State) : s.pairMute.aside = s.aside := by
  unfold State.pairMute
  split <;> simp

/-! ### The safety island -/

@[simp] theorem svWatch_aside (s t : State) : (svWatch s t).aside = t.aside := by
  unfold svWatch
  split
  · rfl
  · obtain ⟨pba, out, h⟩ := State.raise_frame { t with hi.sticky := setBit t.hi.sticky 0 } 17
    rw [h]
    rfl

@[simp] theorem State.svPublish_aside (s : State) : s.svPublish.aside = s.aside := by
  unfold State.svPublish
  dsimp only
  rw [State.mpcSweep_aside]
  split
  · exact (State.forEach_aside fun t a => by simp).trans rfl
  · exact (State.forEach_aside fun t j => by simp).trans
      ((State.forEach_aside fun t r => State.forEach_aside fun u a => by simp).trans rfl)

@[simp] theorem State.ossdOpenCh_aside (s : State) (c : Fin 2) : (s.ossdOpenCh c).aside = s.aside := rfl

@[simp] theorem State.unbindDrafts_aside (s : State) : s.unbindDrafts.aside = s.aside :=
  (State.forEach_aside fun t d => by simp : (s.forEach (fins 8) fun s d => s.modSlot d fun x =>
    if x.state = .bound then { x with state := .loaded, insts := [], released := 0 } else x).aside = s.aside)

/-! ### The device state -/

theorem State.aonSet_emit_frame (s : State) (k src : Nat) (code : BitVec 12) (p : List (BitVec 32)) : ∃ er pba out,
    (s.aonSet k).emit src code p = { s with pw.sticky := setBit s.pw.sticky k, er := er, hi.pba := pba, out := out } := by
  obtain ⟨_, _, set⟩ : ∃ pba out, s.aonSet k = { s with pw.sticky := setBit s.pw.sticky k, hi.pba := pba, out := out } :=
    irqWatch_frame 31 aonLevel s _
  rw [set]
  obtain ⟨er, pba, out, recorded⟩ := State.emit_frame _ src code p
  exact ⟨er, pba, out, recorded⟩

/-- A bit of AON_STICKY is all that `aonSet` sets. -/
theorem State.aonSet_aside (s : State) (i : Nat) :
    (s.aonSet i).aside = ({ s.pw with sticky := setBit s.pw.sticky i }, s.hw.temp, s.hw.unc) := irqWatch_aside _ _ _ _

/-- R30, R435: a new device state is shown with STATE_CHG. -/
theorem State.setDevState_aside (s : State) (st : DevState) (cause : Nat) (h : s.pw.state ≠ st) :
    (s.setDevState st cause).aside = ({ s.pw with state := st, sticky := setBit s.pw.sticky 0 }, s.hw.temp, s.hw.unc) := by
  rw [State.setDevState, if_neg h, State.ringRelay_aside, State.emit_aside, State.aonSet_aside]

/-- R30, R31: a device with supply comes to SAFE_HOLD; bits of AON_STICKY may be set, and nothing else changes aside. -/
theorem State.enterSafeHold_aside (s : State) (cause : Nat) (on : s.pw.state ≠ .off) :
    ∃ sticky : BitVec 5, (∀ i, s.pw.sticky.getLsbD i = true → sticky.getLsbD i = true) ∧
      (s.enterSafeHold cause).aside = ({ s.pw with state := .safeHold, sticky := sticky }, s.hw.temp, s.hw.unc) := by
  unfold State.enterSafeHold
  by_cases hold : s.pw.state = .safeHold
  · rw [if_pos (by simp [hold]), ← hold]
    exact ⟨_, fun _ h => h, rfl⟩
  · rw [if_neg (by simp [hold, on])]
    simp only [State.svPublish_aside, State.ossdOpenCh_aside, State.modSv_aside, State.unbindDrafts_aside]
    rw [State.forEach_aside fun t a => t.faultAxis_aside a, State.setDevState_aside _ _ _ hold]
    exact ⟨_, fun i h => by rw [getLsbD_setBit, h, Bool.true_or], rfl⟩

end Sys2Proof.Machine
end

section
/-! SUPPORT. Resets and the thermal trip (R428, R429, R450, R456). -/
namespace Sys2Proof.Machine

/-- A range zeroed reads as zero, and every other byte is as before, whatever the form of the memory. -/
theorem memRead_zeroed (m : List Host.Cell) (lo hi x : Nat) :
    memRead (memZero m lo hi) x = if lo ≤ x ∧ x < hi then memDefault else memRead m x := by
  induction m with
  | nil => simp [memZero, memRead]
  | cons c r ih =>
    obtain ⟨k, v⟩ := c
    simp only [memZero, List.filter_cons, memRead] at ih ⊢
    by_cases inside : lo ≤ k ∧ k < hi
    · rw [if_neg (by simpa using inside), ih]
      by_cases hx : k = x
      · rw [if_pos (hx ▸ inside), if_pos (hx ▸ inside)]
      · rw [if_neg hx]
    · rw [if_pos (by simpa [Decidable.imp_iff_not_or] using inside), memRead, ih]
      by_cases hx : k = x
      · rw [if_pos hx, if_neg (hx ▸ inside), if_pos hx]
      · rw [if_neg hx, if_neg hx]

theorem deviceReset_domain (s : State) (cause : Fin 4) (d : Fin 13) :
    (s.deviceReset cause).domain d = if d = 0 then .run else if d.val < 3 then .ret else .off := by
  have standby : ∀ d : Fin 13, ({} : Power).dom[d] = if d = 0 then .run else if d.val < 3 then .ret else .off := by decide
  exact standby d

theorem deviceReset_memRead (s : State) (cause : Fin 4) (a : Nat) :
    memRead (s.deviceReset cause).mem a = if a < 0x3E00000 then 0#8 else memRead s.mem a :=
  (memRead_zeroed s.mem 0 0x3E00000 a).trans (by simp [memDefault])

theorem powerOff_domain (s : State) (d : Fin 13) : s.powerOff.domain d = .off := by
  have off : ∀ d : Fin 13, (Vector.replicate 13 DomState.off)[d] = .off := by decide
  exact off d

theorem supplyOff_mem_powerOff (s : State) (h : s.pw.supplyEn = true) : .supplyOff ∈ s.powerOff.out := by
  simp [State.powerOff, h]

/-- The search for the hottest reading keeps a reading with its sensor, never a colder one, and none of those seen is hotter. -/
theorem hottest_fold (t : Vector (BitVec 8) 8) (l : List (Fin 8)) (m : BitVec 8 × Fin 8) (hm : t[m.2] = m.1) :
    let r := l.foldl (fun (m : BitVec 8 × Fin 8) i => if m.1.slt t[i] then (t[i], i) else m) m
    t[r.2] = r.1 ∧ m.1.toInt ≤ r.1.toInt ∧ ∀ i ∈ l, t[i].toInt ≤ r.1.toInt := by
  induction l generalizing m with
  | nil => exact ⟨hm, Int.le_refl _, by simp⟩
  | cons i l ih =>
    simp only [List.foldl_cons, List.forall_mem_cons]
    split
    · next hot =>
      obtain ⟨shown, above, all⟩ := ih (t[i], i) rfl
      have : m.1.toInt < t[i].toInt := by simpa [BitVec.slt] using hot
      exact ⟨shown, Int.le_trans (Int.le_of_lt this) above, above, all⟩
    · next cold =>
      obtain ⟨shown, above, all⟩ := ih m hm
      have : t[i].toInt ≤ m.1.toInt := by simpa [BitVec.slt] using cold
      exact ⟨shown, above, Int.le_trans this above, all⟩

/-- R428: T_j is the highest reading, and a sensor that shows it. -/
theorem hottest_spec (t : Vector (BitVec 8) 8) :
    t[(hottest t).2] = (hottest t).1 ∧ ∀ i : Fin 8, t[i].toInt ≤ (hottest t).1.toInt := by
  obtain ⟨shown, -, all⟩ := hottest_fold t (fins 8) (t[0], 0) rfl
  exact ⟨shown, fun i => all i (List.mem_finRange i)⟩

/-- The power controller after a sample with the hottest reading `h` (R428, R429). -/
def Power.sample (p : Power) (h : BitVec 8 × Fin 8) : Power :=
  { p with
    tj := h.1, hot := BitVec.ofNat 3 h.2.val, peak := if !p.sampled || p.peak.slt h.1 then h.1 else p.peak, sampled := true
    warned := p.warned && decide (p.twarn.toInt - 5 < h.1.toInt), over125 := decide (125 < h.1.toInt) }

/-- A warning is given: T_j has reached TWARN and none stands (R428). -/
def Power.warns (p : Power) : Bool := !p.warned && decide (p.twarn.toInt ≤ p.tj.toInt)

/-- The power controller with the warning given. -/
def Power.warn (p : Power) : Power := if p.warns then { p with warned := true, sticky := setBit p.sticky 2 } else p

/-- R429: the thermal trip enters SAFE_HOLD with THERM_TRIP and gives SUPPLY_EN its time. -/
theorem State.trip_spec (s : State) (w : BitVec 32) (on : s.pw.state ≠ .off) : ∃ sticky : BitVec 5, sticky.getLsbD 3 = true ∧
    (∀ i, s.pw.sticky.getLsbD i = true → sticky.getLsbD i = true) ∧ (s.trip w).hw.temp = s.hw.temp ∧
    (s.trip w).pw = { s.pw with
      state := .safeHold, sticky := sticky, tripped := some (s.now + if asleep s then 8 else 10000000) } := by
  obtain ⟨er, pba, out, recorded⟩ := s.aonSet_emit_frame 3 1 0x004#12 [w]
  let u : State := { s with
    pw := { s.pw with sticky := setBit s.pw.sticky 3, tripped := some (s.now + if asleep s then 8 else 10000000) }
    er := er, hi.pba := pba, out := out }
  have run : s.trip w = svWatch s (u.enterSafeHold 3) := by
    rw [State.trip, recorded]
    rfl
  obtain ⟨sticky, grows, entered⟩ := u.enterSafeHold_aside 3 on
  have aside : (s.trip w).aside = _ := (congrArg State.aside run).trans ((svWatch_aside s _).trans entered)
  refine ⟨sticky, grows 3 ?_, fun i h => grows i ?_, congrArg (·.2.1) aside, congrArg (·.1) aside⟩
  · simp [u, getLsbD_setBit]
  · simp [u, getLsbD_setBit, h]

/-- R428, R429: a sample is taken, the warning is given, and the trip follows the second sample above 125 °C in a row. -/
theorem temperatureSample_on {s : State} (on : s.pw.state ≠ .off) (v : Vector (BitVec 8) 8) : ∃ u w,
    u.pw = (s.pw.sample (hottest v)).warn ∧ u.hw.temp = v ∧ u.now = s.now ∧ exec (.temperatureSample v) s =
      .next (if decide (125 < (hottest v).1.toInt) && s.pw.over125 && s.pw.tripped.isNone then u.trip w else u) := by
  let h := hottest v
  let s1 : State := { s with
    hw := { s.hw with temp := v, secMax := if s.hw.secMax.slt h.1 then h.1 else s.hw.secMax }, pw := s.pw.sample h }
  let w := at32 h.1 0 ||| nat32 h.2.val 8
  let s2 := if s1.pw.warns then (({ s1 with pw.warned := true }).aonSet 2).emit 1 0x003#12 [w] else s1
  have run : exec (.temperatureSample v) s =
      .next (if decide (125 < h.1.toInt) && s.pw.over125 && s.pw.tripped.isNone then s2.trip w else s2) := if_neg on
  by_cases warns : (s.pw.sample h).warns = true
  · obtain ⟨er, pba, out, recorded⟩ := State.aonSet_emit_frame { s1 with pw.warned := true } 2 1 0x003#12 [w]
    let u : State := { s1 with
      pw := { s.pw.sample h with warned := true, sticky := setBit (s.pw.sample h).sticky 2 }, er := er, hi.pba := pba, out := out }
    have hs2 : s2 = u := (if_pos warns).trans recorded
    have hpw : (s.pw.sample h).warn = u.pw := if_pos warns
    exact ⟨u, w, hpw.symm, rfl, rfl, by rw [run, hs2]⟩
  · have hs2 : s2 = s1 := if_neg warns
    have hpw : (s.pw.sample h).warn = s1.pw := if_neg warns
    exact ⟨s1, w, hpw.symm, rfl, rfl, by rw [run, hs2]⟩

/-- What a sample shows of the readings (R428), whatever the warning and the trip make of the rest. -/
theorem sample_shows (p : Power) (v : Vector (BitVec 8) 8) : let q := p.sample (hottest v)
    (∀ i : Fin 8, (v[i]).toInt ≤ q.tj.toInt) ∧ ∃ i : Fin 8, v[i] = q.tj ∧ q.hot.toNat = i.val := by
  obtain ⟨shown, above⟩ := hottest_spec v
  exact ⟨above, (hottest v).2, shown, by simp [Power.sample]⟩

@[simp] theorem Power.warn_tj (p : Power) : p.warn.tj = p.tj := by unfold Power.warn; split <;> rfl
@[simp] theorem Power.warn_hot (p : Power) : p.warn.hot = p.hot := by unfold Power.warn; split <;> rfl
@[simp] theorem Power.warn_over125 (p : Power) : p.warn.over125 = p.over125 := by unfold Power.warn; split <;> rfl
@[simp] theorem Power.warn_state (p : Power) : p.warn.state = p.state := by unfold Power.warn; split <;> rfl
@[simp] theorem Power.warn_tripped (p : Power) : p.warn.tripped = p.tripped := by unfold Power.warn; split <;> rfl

/-- R428: the warning is given once, when T_j reaches TWARN. -/
theorem sample_warns (p : Power) (h : BitVec 8 × Fin 8) (fresh : p.warned = false) (hot : p.twarn.toInt ≤ h.1.toInt) :
    (p.sample h).warn.warned = true ∧ (p.sample h).warn.sticky.getLsbD 2 = true := by
  have warns : (p.sample h).warns = true := by simp [Power.warns, Power.sample, fresh, hot]
  rw [Power.warn, if_pos warns]
  exact ⟨rfl, by simp [getLsbD_setBit]⟩

/-- R428: the warning is withdrawn 5 °C below TWARN. -/
theorem sample_rearms (p : Power) (h : BitVec 8 × Fin 8) (cool : h.1.toInt ≤ p.twarn.toInt - 5) : (p.sample h).warn.warned = false := by
  have quiet : (p.sample h).warns = false := by
    have : ¬p.twarn.toInt ≤ h.1.toInt := by omega
    simp [Power.warns, Power.sample, this]
  rw [Power.warn, ite_of_false quiet]
  have : ¬p.twarn.toInt - 5 < h.1.toInt := by omega
  simp [Power.sample, this]

/-- R428, R429: what a temperature sample does in a device with supply. -/
theorem temperatureSample_spec {s : State} (on : s.pw.state ≠ .off) (v : Vector (BitVec 8) 8) : ∃ t, exec (.temperatureSample v) s = .next t ∧
    let tj := t.pw.tj.toInt
    t.hw.temp = v ∧ (∀ i : Fin 8, (v[i]).toInt ≤ tj) ∧ (∃ i : Fin 8, v[i] = t.pw.tj ∧ t.pw.hot.toNat = i.val) ∧
    (s.pw.warned = false → s.pw.twarn.toInt ≤ tj → t.pw.warned = true ∧ t.pw.sticky.getLsbD 2 = true) ∧
    (tj ≤ s.pw.twarn.toInt - 5 → t.pw.warned = false) ∧ t.pw.over125 = decide (125 < tj) ∧
    (125 < tj → s.pw.over125 = true → s.pw.tripped = none → t.pw.state = .safeHold ∧ t.pw.sticky.getLsbD 3 = true ∧
      t.pw.tripped = some (s.now + if s.pw.state = .sleep ∨ s.pw.state = .standby then 8 else 10000000)) ∧
    (¬(125 < tj ∧ s.pw.over125 = true ∧ s.pw.tripped = none) → t.pw.state = s.pw.state ∧ t.pw.tripped = s.pw.tripped) := by
  obtain ⟨u, w, hpw, htemp, hnow, run⟩ := temperatureSample_on on v
  obtain ⟨above, shown⟩ := sample_shows s.pw v
  have warns := sample_warns s.pw (hottest v)
  have rearms := sample_rearms s.pw (hottest v)
  have tj : (s.pw.sample (hottest v)).tj = (hottest v).1 := rfl
  have over125 : (s.pw.sample (hottest v)).over125 = decide (125 < (hottest v).1.toInt) := rfl
  have state : (s.pw.sample (hottest v)).state = s.pw.state := rfl
  have tripped : (s.pw.sample (hottest v)).tripped = s.pw.tripped := rfl
  by_cases trips : 125 < (hottest v).1.toInt ∧ s.pw.over125 = true ∧ s.pw.tripped = none
  · obtain ⟨hot, twice, first⟩ := trips
    have usleep : (asleep u = true) ↔ s.pw.state = .sleep ∨ s.pw.state = .standby := by simp [asleep, hpw, state]
    obtain ⟨sticky, thermal, grows, temp, pw⟩ := u.trip_spec w (by simpa [hpw, state] using on)
    rw [if_pos (by simp [hot, twice, first])] at run
    refine ⟨_, run, ?_⟩
    simp only [pw, temp, hpw, htemp, hnow, usleep, Power.warn_tj, Power.warn_hot, Power.warn_over125, tj, over125] at *
    refine ⟨trivial, above, shown, fun fresh reach => ?_, rearms, trivial, fun _ _ _ => ⟨trivial, thermal, trivial⟩, fun no => absurd ⟨hot, twice, first⟩ no⟩
    exact ⟨(warns fresh reach).1, grows 2 (warns fresh reach).2⟩
  · rw [if_neg (by simpa [and_assoc] using trips)] at run
    refine ⟨_, run, ?_⟩
    simp only [hpw, htemp, Power.warn_tj, Power.warn_hot, Power.warn_over125, Power.warn_state, Power.warn_tripped, tj, over125, state, tripped] at *
    exact ⟨trivial, above, shown, warns, rearms, trivial, fun hot twice first => absurd ⟨hot, twice, first⟩ trips, fun _ => ⟨trivial, trivial⟩⟩

/-- Settles O57: each reset answers its own state, and the sample is R428 and R429. -/
theorem resetsKeepWhatSurvives : Obligations.ResetsKeepWhatSurvives := by
  intro s
  refine ⟨?_, fun on v => temperatureSample_spec on v⟩
  intro fused reset off
  have resets {i : Instr} {cause : Fin 4} (run : exec i s = .next (s.deviceReset cause)) : reset i cause.val :=
    ⟨_, run, rfl, deviceReset_domain s cause, rfl, rfl, rfl, ⟨rfl, rfl, rfl⟩, rfl, rfl, rfl, rfl, rfl, rfl, deviceReset_memRead s cause⟩
  refine ⟨fun on => ⟨resets (cause := 1) (if_neg on), resets (cause := 3) ((if_neg on).trans (congrArg _ (if_pos rfl))),
    fun k wrong => (if_neg on).trans (congrArg _ (if_neg wrong))⟩, ?_, fun trip => ?_, fun none => ?_, fun src pos => ⟨fun por => ?_, fun held => ite_of_false held⟩⟩
  · exact ⟨_, rfl, rfl, powerOff_domain s, ⟨rfl, rfl, rfl⟩, rfl, rfl, supplyOff_mem_powerOff s, by simp⟩
  · exact ⟨_, if_pos trip, rfl, powerOff_domain s, ⟨rfl, rfl, rfl⟩, rfl, rfl, supplyOff_mem_powerOff s, by simp [State.powerOff, State.reset]⟩
  · exact if_neg (by simp [none])
  · exact ⟨_, if_pos por, rfl, rfl, rfl, rfl, rfl, rfl, rfl, rfl, rfl, ⟨rfl, rfl, rfl⟩, rfl, rfl, rfl⟩

end Sys2Proof.Machine
end

section
/-! SUPPORT. What the effects of memory errors leave of the power controller and of the health monitor (R16). -/
namespace Sys2Proof.Machine

/-! ### Flows, Churn and the switch -/

@[simp] theorem State.stopFlow_aside (s : State) (f : Fin 16) (i : BitVec 21) : (s.stopFlow f i).aside = s.aside := by
  simp [State.stopFlow]

@[simp] theorem State.opDone_aside (s : State) (f : Fin 16) (id : Nat) (st : Status) (flags : BitVec 8) (r : Option W64) :
    (s.opDone f id st flags r).aside = s.aside := by
  unfold State.opDone
  split
  · rfl
  · dsimp only
    split <;> simp

theorem State.take_aside (s : State) (f : Fin 16) (opc : BitVec 8) (fn : BitVec 4) (w : TWord) (uses : List (BitVec 5))
    {run : State → State} (h : ∀ t, (run t).aside = t.aside) : (s.take f opc fn w uses run).aside = s.aside := by
  unfold State.take
  extract_lets s1
  have taken : s1.aside = s.aside := by
    simp only [s1, State.coreClock_aside]
    split <;> rfl
  split
  · rfl
  split
  · rfl
  split
  · exact taken
  split
  · exact taken
  · exact (h _).trans taken

@[simp] theorem State.qpCount_aside (s : State) (i : Fin 7) (k : Nat) : (s.qpCount i k).aside = s.aside := rfl
@[simp] theorem State.lastSolve_aside (s : State) (r : BitVec 3) (it : BitVec 8) (i : BitVec 32) : (s.lastSolve r it i).aside = s.aside := rfl
@[simp] theorem State.freeNorms_aside (s : State) : s.freeNorms.2.aside = s.aside := rfl

@[simp] theorem State.nextJob_aside (s : State) : s.nextJob.aside = s.aside := by
  unfold State.nextJob
  split
  · split <;> rfl
  · rfl

@[simp] theorem State.busWrite_aside (s : State) (loc : Bool) (a : Nat) (ws : List (BitVec 32)) : (s.busWrite loc a ws).aside = s.aside := by
  unfold State.busWrite
  split
  · split <;> rfl
  · rfl

@[simp] theorem State.frameGone_aside (s : State) (f : TxFrame) (d : Bool) : (s.frameGone f d).aside = s.aside := by
  unfold State.frameGone
  split
  · rfl
  · split
    · simp [State.txDone]
    · rfl

/-! ### The Loom -/

@[simp] theorem State.voidNode_aside (s : State) (d : Fin 8) (c i reason : Nat) : (s.voidNode d c i reason).aside = s.aside := by
  unfold State.voidNode
  dsimp only
  split
  · split
    · rfl
    · exact (State.emit_aside _ _ _ _).trans rfl
  · rfl

@[simp] theorem State.interpArm_aside (s : State) (r : Fin 8) (i : BitVec 32) (t : BitVec 64) : (s.interpArm r i t).aside = s.aside := by
  unfold State.interpArm
  split
  · split
    · refine State.forEach_aside fun u a => ?_
      split <;> rfl
    · rfl
  · rfl

@[simp] theorem State.handOver_aside (s : State) (x : DraftInst) (rate : Bool) (item : Nat) (out : KernelOut) (credit : Bool) :
    (s.handOver x rate item out credit).aside = s.aside := by
  unfold State.handOver
  dsimp only
  split
  · exact State.forEach_aside fun t p => rfl
  · simp
  · rfl
  · rfl
  · split <;> rfl
  · rfl
  · rfl
  · rfl

@[simp] theorem State.releaseAll_aside (s : State) : s.releaseAll.aside = s.aside :=
  State.forEach_aside fun t f => State.forEach_aside fun u q => by
    unfold State.releaseNode
    dsimp only
    split
    · split <;> simp
    · rfl

@[simp] theorem State.dropInsts_aside (s : State) : s.dropInsts.aside = s.aside := State.forEach_aside fun _ _ => rfl

@[simp] theorem State.becomeReady_aside (s : State) (d : Fin 8) (c i : Nat) : (s.becomeReady d c i).aside = s.aside := by
  unfold State.becomeReady
  split
  · simp
  split
  · rfl
  dsimp only
  split <;> rfl

theorem State.loomAdvance_aside (fuel : Nat) (s : State) : (State.loomAdvance fuel s).aside = s.aside := by
  induction fuel generalizing s with
  | zero => rfl
  | succ fuel ih =>
    unfold State.loomAdvance
    dsimp only
    split
    · simp
    · rw [ih, State.forEach_aside fun t q => t.becomeReady_aside _ _ _]
      simp

@[simp] theorem State.loomRun_aside (s : State) : s.loomRun.aside = s.aside := State.loomAdvance_aside _ s

@[simp] theorem State.completeNode_aside (s : State) (sh : Fin 16) (r : ReadyRec) (reason : Nat) :
    (s.completeNode sh r .none (some reason)).aside = s.aside := by
  simp [State.completeNode]

/-! ### Faults of the device -/

theorem State.enterSafeHold_unc (s : State) (cause : Nat) : (s.enterSafeHold cause).hw.unc = s.hw.unc := by
  by_cases off : s.pw.state = .off
  · rw [State.enterSafeHold, if_pos (by simp [off])]
  · obtain ⟨_, -, entered⟩ := s.enterSafeHold_aside cause off
    exact congrArg (·.2.2) entered

theorem State.enterSafeHold_state (s : State) (cause : Nat) (on : s.pw.state ≠ .off) : (s.enterSafeHold cause).pw.state = .safeHold := by
  obtain ⟨_, -, entered⟩ := s.enterSafeHold_aside cause on
  exact congrArg (·.1.state) entered

/-- R268, R388: aside, a double fault is the entry of SAFE_HOLD. -/
theorem State.doubleFault_aside (s : State) (f g : Nat × BitVec 12) :
    ∃ u : State, u.aside = s.aside ∧ (s.doubleFault f g).aside = (u.enterSafeHold 2).aside := by
  unfold State.doubleFault
  extract_lets s1 s2 s3 s4
  refine ⟨s2, by simp [s2, s1], ?_⟩
  split
  · simp [s4, s3]
  · rfl

theorem State.doubleFault_unc (s : State) (f g : Nat × BitVec 12) : (s.doubleFault f g).hw.unc = s.hw.unc := by
  obtain ⟨u, hu, h⟩ := s.doubleFault_aside f g
  exact (State.aside_unc h).trans ((u.enterSafeHold_unc 2).trans (State.aside_unc hu))

theorem State.deviceFault_unc (s : State) (f : Nat × BitVec 12) : (s.deviceFault f).hw.unc = s.hw.unc := by
  unfold State.deviceFault
  split
  · rfl
  split
  · exact s.doubleFault_unc _ f
  · dsimp only
    split
    · exact State.aside_unc (by simp)
    · rfl

theorem State.svFault_unc (s : State) (c : Fin 2) (diag : Nat) : (s.svFault c diag).hw.unc = s.hw.unc := by
  unfold State.svFault
  extract_lets st follow s1 s2
  have started : s1.aside = s.aside := by simp [s1]
  have faulted : s2.hw.unc = s1.hw.unc := by
    simp only [s2]
    split
    · rfl
    · exact s1.deviceFault_unc _
  split
  · rfl
  split
  · split
    · exact (State.aside_unc (svWatch_aside s _)).trans (s.deviceFault_unc _)
    · rfl
  · have last : (svWatch s ((s2.ossdOpenCh c).svPublish.pairMute)).aside = s2.aside := by simp
    exact (State.aside_unc last).trans (faulted.trans (State.aside_unc started))

/-! ### The effects of an uncorrectable error -/

@[simp] theorem State.eccRecord_aside (s : State) (src : Nat) : (s.eccRecord src).aside = s.aside := by simp [State.eccRecord]

@[simp] theorem State.eccFrame_aside (s : State) (i : Fin 8) (j : Fin 3) : (s.eccFrame i j).aside = s.aside := rfl

@[simp] theorem State.eccCycle_aside (s : State) (b : Bool) : (s.eccCycle b).aside = s.aside := rfl

@[simp] theorem State.eccSolve_aside (s : State) : s.eccSolve.aside = s.aside := by
  unfold State.eccSolve
  dsimp only
  split
  · split <;> simp
  · split
    · split <;> simp
    · simp

@[simp] theorem State.eccCan_aside (s : State) (n : Fin 4) (j : Fin 128) : (s.eccCan n j).aside = s.aside :=
  (irqWatch_aside _ _ _ _).trans rfl

@[simp] theorem State.eccTx_aside (s : State) (p c : Fin 8) (i : Nat) : (s.eccTx p c i).aside = s.aside := by
  unfold State.eccTx
  split
  · simp [State.ptCount]
  · rfl

@[simp] theorem State.eccInstr_aside (s : State) (f : Fin 16) (opc : BitVec 8) (fn : BitVec 4) (w : TWord) :
    (s.eccInstr f opc fn w).aside = s.aside := by
  unfold State.eccInstr
  split
  · simp
  · exact s.take_aside f opc fn w [] fun t => by simp

@[simp] theorem State.eccRing_aside (s : State) (a : Nat) : (s.eccRing a).aside = s.aside := by
  unfold State.eccRing
  dsimp only
  split
  · rfl
  · show (s.pw, s.hw.temp, s.hw.unc) = s.aside
    rfl

theorem State.eccSelvedge_unc (s : State) (a : Nat) : (s.eccSelvedge a).hw.unc = s.hw.unc := by
  unfold State.eccSelvedge
  extract_lets c
  split
  · exact ((s.svRec c 0x00C#12 [6#32]).svFault_unc c 6).trans (State.aside_unc (s.svRec_aside c _ _))
  · exact s.svFault_unc c 6

/-- R16, R387, R388: a Loom error is a double fault of a pair in its recovery window, and the entry of SAFE_HOLD otherwise. -/
theorem State.eccLoom_aside (s : State) : ∃ u : State, u.aside = s.aside ∧ s.eccLoom.aside = (u.enterSafeHold 2).aside := by
  unfold State.eccLoom
  extract_lets k f s1
  have recorded : s1.aside = s.aside := by simp [s1, k]
  split
  · obtain ⟨u, hu, h⟩ := s1.doubleFault_aside _ f
    exact ⟨u, hu.trans recorded, h⟩
  · exact ⟨s1.pairCtl (.fault f), by simp [recorded], by simp⟩
  · exact ⟨s1, recorded, rfl⟩

/-- R16, R431: whatever the word holds, the effect of its error leaves the counts of errors as they are. -/
theorem State.eccEffect_unc (s : State) (a : Nat) (w : MemWord) : (s.eccEffect a w).hw.unc = s.hw.unc := by
  unfold State.eccEffect
  split
  case h_7 =>
    obtain ⟨u, hu, h⟩ := s.eccLoom_aside
    exact (State.aside_unc h).trans ((u.enterSafeHold_unc 2).trans (State.aside_unc hu))
  case h_16 => exact s.eccSelvedge_unc a
  case h_8 => split <;> exact State.aside_unc (by simp)
  all_goals exact State.aside_unc (by simp)

end Sys2Proof.Machine
end

section
/-! SUPPORT. The formulas of the health monitor: the acceleration factor, and the figures after a powered hour (R433). -/
namespace Sys2Proof.Machine

/-- The bits tried from the highest down give the greatest number whose tenth power does not exceed `x`. -/
theorem root10_spec (x n acc : Nat) (low : acc ^ 10 ≤ x) (high : x < (acc + 2 ^ n) ^ 10) :
    root10 x n acc ^ 10 ≤ x ∧ x < (root10 x n acc + 1) ^ 10 := by
  induction n generalizing acc with
  | zero => exact ⟨low, by simpa [root10] using high⟩
  | succ n ih =>
    rw [root10]
    split
    · next fits => exact ih _ fits (by rwa [Nat.add_assoc, ← Nat.two_mul, ← Nat.pow_succ'])
    · next exceeds => exact ih _ low (Nat.lt_of_not_le exceeds)

/-- R433: twice AF(T) is within one of the tenth root of 2^(T + 65), so AF(T) is rounded. -/
theorem accel_spec (T : Int) (low : -65 ≤ T) (high : T ≤ 127) :
    (2 * accel T - 1) ^ 10 ≤ 2 ^ (T + 65).toNat ∧ 2 ^ (T + 65).toNat < (2 * accel T + 1) ^ 10 ∧ 1 ≤ accel T := by
  have small : 2 ^ (T + 65).toNat < (0 + 2 ^ 21) ^ 10 := by
    rw [Nat.zero_add, ← Nat.pow_mul]
    exact Nat.pow_lt_pow_right (by decide) (by omega)
  obtain ⟨below, above⟩ := root10_spec (2 ^ (T + 65).toNat) 21 0 (by simp) small
  have halved : accel T = (root10 (2 ^ (T + 65).toNat) 21 0 + 1) / 2 := if_neg (by omega)
  generalize root10 (2 ^ (T + 65).toNat) 21 0 = r at below above halved
  have nonzero : r ≠ 0 := by
    rintro rfl
    have := Nat.two_pow_pos (T + 65).toNat
    omega
  refine ⟨Nat.le_trans (Nat.pow_le_pow_left ?_ 10) below, Nat.lt_of_lt_of_le above (Nat.pow_le_pow_left ?_ 10), ?_⟩ <;> omega

theorem Health.left_le (h : Health) (i : Fin 10) : h.left i ≤ 1000000 := by
  unfold Health.left
  split
  · omega
  split
  · exact Nat.le_refl _
  · exact Nat.min_le_left _ _

theorem Health.left_usedUp (h : Health) (i : Fin 10) (full : 1000000 ≤ h.frac[i]) : h.left i = 0 := if_pos full

theorem Health.left_le_rate (h : Health) (i : Fin 10) (part : h.frac[i] < 1000000) (wears : 0 < h.rate[i])
    (rated : i = 0 ∨ h.rated[i] ≠ 0#32) : h.left i ≤ (1000000 - h.frac[i]) * 65536 / (h.rate[i]).toNat := by
  have counts : ¬(h.rate[i] ≤ 0 ∨ (h.rated[i] = 0#32 ∧ i ≠ 0)) := by
    rintro (still | ⟨unrated, switching⟩)
    · omega
    · exact rated.elim switching (absurd unrated)
  rw [Health.left, if_neg (by omega), if_neg counts]
  exact Nat.min_le_right _ _

/-- The search for the item that lasts shortest keeps no more than any item has left. -/
theorem shortest_fold (left : Fin 10 → Nat) (l : List (Fin 10)) (m : Nat × Nat) :
    let r := l.foldl (fun (m : Nat × Nat) i => if left i < m.1 then (left i, i.val) else m) m
    r.1 ≤ m.1 ∧ ∀ i ∈ l, r.1 ≤ left i := by
  induction l generalizing m with
  | nil => exact ⟨Nat.le_refl _, by simp⟩
  | cons i l ih =>
    simp only [List.foldl_cons, List.forall_mem_cons]
    split
    · next less =>
      obtain ⟨first, rest⟩ := ih (left i, i.val)
      exact ⟨Nat.le_trans first (Nat.le_of_lt less), first, rest⟩
    · next more =>
      obtain ⟨first, rest⟩ := ih m
      exact ⟨first, Nat.le_trans first (Nat.le_of_not_lt more), rest⟩

/-- F and ρ of every item after an hour (R433). -/
def Health.figures (h : Health) : Health := { h with rate := Vector.ofFn fun i => h.rho i, frac := Vector.ofFn fun i => h.used i }

/-- The item that lasts shortest and what it has left (R433). -/
def Health.shortest (h : Health) : Nat × Nat :=
  (fins 10).foldl (fun (m : Nat × Nat) i => if h.left i < m.1 then (h.left i, i.val) else m) (h.left 0, 0)

theorem Health.update_eq (h : Health) : h.update = { h.figures with
    eol := BitVec.ofNat 32 h.figures.shortest.1, eolItem := BitVec.ofNat 4 h.figures.shortest.2 } := rfl

theorem Health.update_hours (h : Health) : h.update.hours = h.hours := by rw [h.update_eq, Health.figures]
theorem Health.update_cnt (h : Health) : h.update.cnt = h.cnt := by rw [h.update_eq, Health.figures]
theorem Health.update_acc (h : Health) : h.update.acc = h.acc := by rw [h.update_eq, Health.figures]
theorem Health.update_rated (h : Health) : h.update.rated = h.rated := by rw [h.update_eq, Health.figures]

theorem Health.left_withEol (h : Health) (e : BitVec 32) (n : BitVec 4) (i : Fin 10) :
    ({ h with eol := e, eolItem := n }).left i = h.left i := rfl

theorem Health.update_frac (h : Health) (i : Fin 10) : h.update.frac[i] = h.used i := Vector.getElem_ofFn _

theorem Health.update_rate (h : Health) (i : Fin 10) : h.update.rate[i] = h.rho i := Vector.getElem_ofFn _

/-- R433: EOL is no more than any item has left. -/
theorem Health.update_eol (h : Health) (i : Fin 10) : h.update.eol.toNat ≤ h.update.left i := by
  obtain ⟨-, all⟩ := shortest_fold h.figures.left (fins 10) (h.figures.left 0, 0)
  rw [h.update_eq, Health.left_withEol, BitVec.toNat_ofNat]
  exact Nat.le_trans (Nat.mod_le _ _) (all i (List.mem_finRange i))

theorem Health.used_switching (h : Health) (i : Fin 10) (switching : i ≠ 0) :
    h.used i = if h.rated[i] = 0#32 then 0 else min ((h.cnt[i]).toNat * 1000000 / (h.rated[i]).toNat) 4294967295 := by
  rw [Health.used, if_neg switching]
  split <;> simp

theorem Health.used_silicon (h : Health) : h.acc * 1000000 / (65536 * 3600 * 87600) ⊓ 4294967295 ≤ h.used 0 := by
  unfold Health.used
  simp only [↓reduceIte]
  exact min_le_min_right _ (le_max_left _ _)

/-! ### Frames -/

theorem State.hwSet_frame (s : State) (i : Nat) : ∃ pba out,
    s.hwSet i = { s with hw.sticky := setBit s.hw.sticky i, hi.pba := pba, out := out } := irqWatch_frame 30 hwLevel s _

/-- A bit of HW_STICKY is set, with a record (R433, R435). -/
theorem State.hwSet_emit_frame (s : State) (i src : Nat) (code : BitVec 12) (p : List (BitVec 32)) : ∃ er pba out,
    (s.hwSet i).emit src code p = { s with hw.sticky := setBit s.hw.sticky i, er := er, hi.pba := pba, out := out } := by
  obtain ⟨_, _, set⟩ := s.hwSet_frame i
  rw [set]
  obtain ⟨er, pba, out, recorded⟩ := State.emit_frame _ src code p
  exact ⟨er, pba, out, recorded⟩

/-- R433: after an hour the figures are those of `Health.update`, and the bits of HW_STICKY are set for an alert limit that is crossed and
for an item that is used up. -/
theorem poweredHour_on {s : State} (on : s.pw.state ≠ .off) (drift : Vector (BitVec 32) 16) : ∃ t sticky d,
    let h := ({ s.hw with drift := d, hours := s.hw.hours + 1 } : Health).update
    exec (.poweredHour drift) s = .next t ∧ t.hw = { h with sticky := sticky } ∧
    (s.hw.eolAlert.toNat ≤ s.hw.eol.toNat → h.eol.toNat < s.hw.eolAlert.toNat → sticky.getLsbD 1 = true) ∧
    (∀ i : Fin 10, s.hw.frac[i] < 1000000 → 1000000 ≤ h.frac[i] → sticky.getLsbD 2 = true) := by
  let d : Vector (BitVec 32) 16 := Vector.ofFn fun j => if (s.domain ageingDomain[j]).up then drift[j] else s.hw.drift[j]
  let h := ({ s.hw with drift := d, hours := s.hw.hours + 1 } : Health).update
  let s1 : State := { s with hw := h }
  let crossed := s.hw.eolAlert.toNat ≤ s.hw.eol.toNat ∧ h.eol.toNat < s.hw.eolAlert.toNat
  let full := (fins 10).any fun i => decide (s.hw.frac[i] < 1000000) && decide (1000000 ≤ h.frac[i])
  let s2 := if crossed then (s1.hwSet 1).emit 23 0x002#12 [at32 h.eolItem 0, h.eol] else s1
  have run : exec (.poweredHour drift) s = .next (if full then s2.hwSet 2 else s2) := if_neg on
  have alert : ∃ sticky, s2.hw = { h with sticky := sticky } ∧ (crossed → sticky.getLsbD 1 = true) := by
    by_cases c : crossed
    · obtain ⟨er, pba, out, recorded⟩ := s1.hwSet_emit_frame 1 23 0x002#12 [at32 h.eolItem 0, h.eol]
      have : s2 = _ := (if_pos c).trans recorded
      exact ⟨setBit h.sticky 1, by rw [this], fun _ => by simp [getLsbD_setBit]⟩
    · have : s2 = s1 := if_neg c
      exact ⟨h.sticky, by rw [this], fun yes => absurd yes c⟩
  obtain ⟨sticky, hw, bit1⟩ := alert
  by_cases f : full = true
  · obtain ⟨pba, out, set⟩ := s2.hwSet_frame 2
    refine ⟨_, setBit sticky 2, d, by rw [run, if_pos f, set], by rw [hw], fun a b => ?_, fun _ _ _ => ?_⟩
    · simp [getLsbD_setBit, bit1 ⟨a, b⟩]
    · simp [getLsbD_setBit]
  · refine ⟨s2, sticky, d, by rw [run, if_neg f], hw, fun a b => bit1 ⟨a, b⟩, fun i part now => absurd ?_ f⟩
    exact List.any_eq_true.mpr ⟨i, List.mem_finRange i, Bool.and_eq_true_iff.mpr ⟨decide_eq_true part, decide_eq_true now⟩⟩

end Sys2Proof.Machine
end

section
/-! SUPPORT. The wear image, the scrub and memory errors (R16, R431, R434), and the settlement of O58. -/
namespace Sys2Proof.Machine

/-! ### The hour, the wear image and the scrub -/

theorem poweredHour_spec {s : State} (on : s.pw.state ≠ .off) (drift : Vector (BitVec 32) 16) :
    ∃ t, exec (.poweredHour drift) s = .next t ∧ t.hw.hours = s.hw.hours + 1 ∧ t.hw.cnt = s.hw.cnt ∧ t.hw.acc = s.hw.acc ∧
      (∀ i : Fin 10, i ≠ 0 → t.hw.frac[i] =
        if s.hw.rated[i] = 0#32 then 0 else min ((s.hw.cnt[i]).toNat * 1000000 / (s.hw.rated[i]).toNat) 4294967295) ∧
      s.hw.acc * 1000000 / (65536 * 3600 * 87600) ⊓ 4294967295 ≤ t.hw.frac[0] ∧
      (∀ i : Fin 10, t.hw.rate[i] =
        s.hw.rate[i] + (((t.hw.frac[i] : Int) - s.hw.frac[i]) * 65536 - s.hw.rate[i]).tdiv s.hw.win.toNat) ∧
      t.hw.eol.toNat ≤ 1000000 ∧ (∀ i : Fin 10, 1000000 ≤ t.hw.frac[i] → t.hw.eol = 0#32) ∧
      (∀ i : Fin 10, t.hw.frac[i] < 1000000 → 0 < t.hw.rate[i] → i = 0 ∨ s.hw.rated[i] ≠ 0#32 →
        t.hw.eol.toNat ≤ (1000000 - t.hw.frac[i]) * 65536 / (t.hw.rate[i]).toNat) ∧
      (s.hw.eolAlert.toNat ≤ s.hw.eol.toNat → t.hw.eol.toNat < s.hw.eolAlert.toNat → t.hw.sticky.getLsbD 1 = true) ∧
      (∀ i : Fin 10, s.hw.frac[i] < 1000000 → 1000000 ≤ t.hw.frac[i] → t.hw.sticky.getLsbD 2 = true) := by
  obtain ⟨t, sticky, d, run, hw, alert, usedUp⟩ := poweredHour_on on drift
  let g : Health := { s.hw with drift := d, hours := s.hw.hours + 1 }
  have frac (i : Fin 10) : g.update.frac[i] = g.used i := g.update_frac i
  have rate (i : Fin 10) : g.update.rate[i] = s.hw.rate[i] + (((g.update.frac[i] : Int) - s.hw.frac[i]) * 65536 - s.hw.rate[i]).tdiv
      s.hw.win.toNat := by
    rw [frac]
    exact g.update_rate i
  refine ⟨t, run, ?_⟩
  rw [hw]
  refine ⟨g.update_hours, g.update_cnt, g.update_acc, ?_, ?_, ?_, ?_, ?_, ?_, alert, usedUp⟩
  · intro i switching
    exact (frac i).trans (g.used_switching i switching)
  · exact Nat.le_trans g.used_silicon (Nat.le_of_eq (frac 0).symm)
  · exact rate
  · exact Nat.le_trans (g.update_eol 0) (g.update.left_le 0)
  · intro i full
    have := g.update_eol i
    rw [g.update.left_usedUp i full] at this
    exact BitVec.eq_of_toNat_eq (Nat.le_zero.mp this)
  · intro i part wears rated
    exact Nat.le_trans (g.update_eol i) (g.update.left_le_rate i part wears (by rwa [g.update_rated]))

theorem loadOk_iff (h : Health) : loadOk h = true ↔
    h.restored = false ∧ h.imgIn[0] = 1#32 ∧ h.imgIn[23] = crc32c (wordsBytes (h.imgIn.toList.take 23)) := by
  simp [loadOk, and_assoc]

theorem hwLoad_up {s : State} (up : (s.domain 4).up = true) : exec .hwLoad s =
    .next (if loadOk s.hw then ({ s with hw := s.hw.withBase }).emit 23 0x003#12 [1#32] else (s.hwSet 3).emit 23 0x003#12 [0#32]) :=
  if_pos up

/-- R434: a base that is accepted adds its counts. -/
theorem hwLoad_accepts {s : State} (up : (s.domain 4).up = true) (ok : loadOk s.hw = true) :
    ∃ t, exec .hwLoad s = .next t ∧ t.hw = s.hw.withBase := by
  obtain ⟨er, pba, out, recorded⟩ := State.emit_frame { s with hw := s.hw.withBase } 23 0x003#12 [1#32]
  rw [hwLoad_up up, if_pos ok, recorded]
  exact ⟨_, rfl, rfl⟩

theorem hwLoad_refuses {s : State} (up : (s.domain 4).up = true) (bad : loadOk s.hw = false) :
    ∃ t, exec .hwLoad s = .next t ∧ t.hw = { s.hw with sticky := setBit s.hw.sticky 3 } ∧
      { t with hw := s.hw, er := s.er, hi := s.hi, out := s.out } = s := by
  obtain ⟨er, pba, out, recorded⟩ := s.hwSet_emit_frame 3 23 0x003#12 [0#32]
  rw [hwLoad_up up, ite_of_false bad, recorded]
  exact ⟨_, rfl, rfl, rfl⟩

theorem partitionOf_eq_six_iff (a : Nat) : partitionOf a = 6 ↔ 0x3E00000 ≤ a := by
  unfold partitionOf
  repeat' split
  all_goals simp; omega

/-- R431: a corrected word is counted for its partition, and as weak when the pass before corrected it too. -/
theorem State.scrubWord_spec (s : State) (before : List (BitVec 40)) (a : BitVec 40) :
    let p := partitionOf a.toNat
    ∃ er pba out, s.scrubWord before a = { s with
      hw := { s.hw with
        cor := upd s.hw.cor p satInc, weak := if a ∈ before then upd s.hw.weak p satInc else s.hw.weak
        sticky := if a ∈ before then setBit s.hw.sticky 0 else s.hw.sticky }
      er := er, hi.pba := pba, out := out } := by
  intro p
  unfold State.scrubWord
  dsimp only
  by_cases weak : a ∈ before
  · simp only [if_pos weak]
    exact State.hwSet_emit_frame _ 0 23 _ _
  · simp only [if_neg weak]
    exact ⟨_, _, _, rfl⟩

theorem scrubPass_spec {s : State} (up : (s.domain 4).up = true) (sel : Bool) (a : BitVec 40) (inside : a.toNat < 0x4000000)
    (part : 0x3E00000 ≤ a.toNat ↔ sel = true) (dom : (s.domain (domainOf a.toNat)).up = true) :
    let p := partitionOf a.toNat
    let before := if sel then s.hw.lastPassSel else s.hw.lastPass
    ∃ t, exec (.scrubPass sel [a]) s = .next t ∧ t.hw.cor = upd s.hw.cor p satInc ∧
      (if sel then t.hw.lastPassSel else t.hw.lastPass) = [a] ∧
      (if sel then t.hw.lastPass else t.hw.lastPassSel) = (if sel then s.hw.lastPass else s.hw.lastPassSel) ∧
      (a ∈ before → t.hw.weak = upd s.hw.weak p satInc ∧ t.hw.sticky = setBit s.hw.sticky 0) ∧
      (a ∉ before → t.hw.weak = s.hw.weak ∧ t.hw.sticky = s.hw.sticky) := by
  intro p before
  have six : decide (decide (partitionOf a.toNat = 6) = sel) = true := by
    cases sel <;> simp_all [partitionOf_eq_six_iff]
  have kept : [a].filter (fun a => decide (a.toNat < Config.sramBytes) && decide (decide (partitionOf a.toNat = 6) = sel) &&
      (s.domain (domainOf a.toNat)).up) = [a] := by
    simp [six, dom, Config.sramBytes, inside]
  obtain ⟨er, pba, out, word⟩ := s.scrubWord_spec before a
  have run : exec (.scrubPass sel [a]) s = .next { s.scrubWord before a with
      hw := if sel then { (s.scrubWord before a).hw with lastPassSel := [a] } else { (s.scrubWord before a).hw with lastPass := [a] } } := by
    refine (ite_not_of_true up).trans ?_
    dsimp only
    rw [kept]
    rfl
  rw [run, word]
  cases sel
  · exact ⟨_, rfl, rfl, rfl, rfl, fun weak => ⟨if_pos weak, if_pos weak⟩, fun sound => ⟨if_neg sound, if_neg sound⟩⟩
  · exact ⟨_, rfl, rfl, rfl, rfl, fun weak => ⟨if_pos weak, if_pos weak⟩, fun sound => ⟨if_neg sound, if_neg sound⟩⟩

/-! ### An axis in FAULT -/


theorem State.axis_modAxis (s : State) (a b : Fin 80) (g : Axis → Axis) :
    (s.modAxis a g).axis b = if a = b then g (s.axis b) else s.axis b := by
  by_cases h : a = b
  · subst h
    simp [State.axis]
  · have : a.val ≠ b.val := fun q => h (Fin.ext q)
    simp [State.axis, upd_get_ne _ _ _ _ _ this, h]

@[simp] theorem State.leaveArm_cell (s : State) (a : Fin 80) : (s.leaveArm a).cell = s.cell := by
  unfold State.leaveArm
  split <;> rfl

@[simp] theorem State.emit_cell (s : State) (src : Nat) (code : BitVec 12) (p : List (BitVec 32)) : (s.emit src code p).cell = s.cell := by
  obtain ⟨_, _, _, h⟩ := s.emit_frame src code p
  rw [h]

@[simp] theorem State.pgSet_cell (s : State) (a : Fin 80) (i : Nat) : (s.pgSet a i).cell = s.cell := by
  obtain ⟨_, _, h⟩ := irqWatch_frame (axisVector a) (axisLevel (a.val / 5)) s (s.modPax a fun h => { h with sticky := setBit h.sticky i })
  rw [State.pgSet, h]
  rfl

theorem State.stopAxis_axis_ne (s : State) {a b : Fin 80} (quick safety : Bool) (h : a ≠ b) : (s.stopAxis a quick safety).axis b = s.axis b := by
  unfold State.stopAxis
  dsimp only
  rw [State.axis_modAxis, if_neg h]
  simp [State.axis]

/-- R171: only the slaves of a lost master are stopped. -/
theorem State.loseMaster_axis (s : State) (a b : Fin 80) (h : (s.axis b).state ≠ .geared) : (s.loseMaster a).axis b = s.axis b := by
  refine forEach_induct (fun t => t.axis b = s.axis b) _ _ (fun t c hc ht => ?_) s rfl
  have geared : (s.axis c).state = .geared := by
    have := (List.mem_filter.mp hc).2
    simp only [Bool.and_eq_true, decide_eq_true_eq] at this
    exact this.1
  have ne : c ≠ b := by
    rintro rfl
    exact h geared
  have kept : (((t.stopAxis c true false).pgSet c 4).emit 12 0x003#12 [nat32 c.val 0 ||| nat32 a.val 8]).axis b =
      (t.stopAxis c true false).axis b := by simp [State.axis]
  exact kept.trans ((t.stopAxis_axis_ne true false ne).trans ht)

/-- R33: a fault of one axis brings that axis to FAULT and leaves every axis that is not geared as it is. -/
theorem State.faultAxis_axis (s : State) (x : Fin 80) :
    ((s.faultAxis x).axis x).state = .fault ∧ ∀ y, y ≠ x → (s.axis y).state ≠ .geared → (s.faultAxis x).axis y = s.axis y := by
  unfold State.faultAxis
  split
  · next faulted => exact ⟨faulted, fun _ _ _ => rfl⟩
  · rw [State.setAxis_fault]
    generalize hu : ((s.modAxis x fun q => { q with state := .fault, selFault := false }).leaveArm x).modPax x PgAxis.release = u
    have entry (y : Fin 80) : u.axis y = if x = y then { s.axis y with state := .fault, selFault := false } else s.axis y := by
      have : u.axis y = (s.modAxis x fun q => { q with state := .fault, selFault := false }).axis y := by
        simp [← hu, State.axis]
      rw [this, State.axis_modAxis]
    have self : (u.axis x).state = .fault := by rw [entry, if_pos rfl]
    refine ⟨by rw [u.loseMaster_axis x x (by simp [self]), self], fun y ne geared => ?_⟩
    have other : u.axis y = s.axis y := by rw [entry, if_neg (Ne.symm ne)]
    rw [u.loseMaster_axis x y (by rwa [other]), other]

/-! ### An uncorrectable error -/

theorem partitionOf_loom {a : Nat} (low : 0x2400000 ≤ a) (high : a < 0x2800000) : partitionOf a = 2 := by
  rw [partitionOf, if_neg (by omega), if_neg (by omega), if_pos high]

theorem partitionOf_shared {a : Nat} (low : 0x2C00000 ≤ a) (high : a < 0x3A00000) : partitionOf a = 4 := by
  rw [partitionOf, if_neg (by omega), if_neg (by omega), if_neg (by omega), if_neg (by omega), if_pos high]

theorem State.eccRecord_frame (s : State) (src : Nat) : ∃ er pba out fresh,
    s.eccRecord src = { s with er := er, hi.pba := pba, out := out, fresh := fresh } := by
  obtain ⟨er, pba, out, h⟩ := s.takeFresh.2.emit_frame src ((Config.free32 s.takeFresh.1).setWidth 12) []
  exact ⟨er, pba, out, _, h⟩

/-- R16: an error in the Loom's partition brings a device with supply to SAFE_HOLD. -/
theorem State.eccEffect_loom (s : State) {a : Nat} (w : MemWord) (part : partitionOf a = 2) (on : s.pw.state ≠ .off) :
    (s.eccEffect a w).pw.state = .safeHold := by
  have effect : s.eccEffect a w = s.eccLoom := by
    unfold State.eccEffect
    rw [part]
  obtain ⟨u, hu, h⟩ := s.eccLoom_aside
  rw [effect, State.aside_pw h]
  exact u.enterSafeHold_state 2 (by rwa [State.aside_pw hu])

/-- R16: an error in the state of an axis puts that axis into FAULT. -/
theorem State.eccEffect_axis (s : State) {a : Nat} (x : Fin 80) (part : partitionOf a = 4) :
    ((s.eccEffect a (.axis x)).axis x).state = .fault ∧
      (∀ y, y ≠ x → (s.axis y).state ≠ .geared → (s.eccEffect a (.axis x)).axis y = s.axis y) ∧
      (s.eccEffect a (.axis x)).pw.state = s.pw.state := by
  have effect : s.eccEffect a (.axis x) = (s.faultAxis x).eccRecord 12 := by
    unfold State.eccEffect
    rw [part]
  obtain ⟨_, _, _, _, record⟩ := (s.faultAxis x).eccRecord_frame 12
  obtain ⟨fault, others⟩ := s.faultAxis_axis x
  rw [effect, record]
  exact ⟨fault, others, congrArg (·.state) (State.aside_pw (s.faultAxis_aside x))⟩

/-- R352: an error in a CAN object makes that object invalid. -/
theorem State.eccEffect_can (s : State) {a : Nat} (n : Fin 4) (j : Fin 128) (part : partitionOf a = 4) :
    let t := s.eccEffect a (.can n j)
    (t.can.ctl[n]).invalid.getLsbD j.val = true ∧ (t.can.ctl[n]).txPend.getLsbD j.val = false ∧
      ∀ m : Fin 4, m ≠ n → t.can.ctl[m] = s.can.ctl[m] := by
  have effect : s.eccEffect a (.can n j) = (s.eccCan n j).eccRecord 19 := by
    unfold State.eccEffect
    rw [part]
  obtain ⟨_, _, _, _, record⟩ := (s.eccCan n j).eccRecord_frame 19
  obtain ⟨_, _, set⟩ : ∃ pba out, s.eccCan n j = { s with
      can.ctl := upd (upd s.can.ctl n fun c => { c with
          invalid := setBit c.invalid j.val, txPend := clearBit c.txPend j.val
          tx := if c.tx.elim false fun t => decide (t.obj = j) then none else c.tx
          cancel := c.cancel && !(c.tx.elim false fun t => decide (t.obj = j)) }) n fun c => { c with sticky := setBit c.sticky 8 }
      hi.pba := pba, out := out } := irqWatch_frame _ _ _ _
  rw [effect, record, set]
  refine ⟨?_, ?_, fun m ne => ?_⟩
  · simp [upd_upd, getLsbD_setBit]
  · simp only [upd_upd, Fin.getElem_fin, upd_get_same]
    exact bit_clearBit_same _ _
  · have : n.val ≠ m.val := fun q => ne (Fin.ext q.symm)
    simp [upd_upd, upd_get_ne _ _ _ _ _ this]

/-- Settles O58: the formulas, the image, the scrub and the effects of errors, each from its own lemma. -/
theorem healthIsAccounted : Obligations.HealthIsAccounted := by
  refine ⟨accel_spec, fun s => ⟨fun on => if_neg on, poweredHour_spec, fun up => ?_, fun a w => ⟨fun out => if_neg out, fun low dom => ?_⟩⟩⟩
  · intro w ok
    have accepted : loadOk s.hw = true ↔ ok := loadOk_iff s.hw
    refine ⟨fun good => ?_, fun bad => hwLoad_refuses up (by simpa [← accepted] using bad), scrubPass_spec up⟩
    obtain ⟨t, run, hw⟩ := hwLoad_accepts up (accepted.mpr good)
    refine ⟨t, run, ?_⟩
    rw [hw]
    exact ⟨rfl, rfl, rfl, Vector.getElem_ofFn _, Vector.getElem_ofFn _, Vector.getElem_ofFn _, rfl⟩
  · let u : State := { s with hw.unc := upd s.hw.unc (partitionOf a.toNat) satInc }
    refine ⟨u.eccEffect a.toNat w, if_pos ⟨low, dom⟩, u.eccEffect_unc _ w,
      fun loom below on => u.eccEffect_loom w (partitionOf_loom loom below) on, fun shared below => ⟨?_, ?_⟩⟩
    · rintro x rfl
      exact u.eccEffect_axis x (partitionOf_shared shared below)
    · rintro n j rfl
      exact u.eccEffect_can n j (partitionOf_shared shared below)

end Sys2Proof.Machine
end

section
/-! SUPPORT. A word of memory reads back as written (R5, R13). -/
namespace Sys2Proof.Machine

theorem natBytes_length (v n : Nat) : (natBytes v n).length = n := by
  induction n generalizing v with
  | zero => rfl
  | succ n ih => simp [natBytes, ih]

theorem bytesNat_natBytes (v n : Nat) : bytesNat (natBytes v n) = v % 256 ^ n := by
  induction n generalizing v with
  | zero => simp [natBytes, bytesNat, Nat.mod_one]
  | succ n ih => 
    rw [natBytes, bytesNat, ih, BitVec.toNat_ofNat, show 256 ^ (n + 1) = 256 * 256 ^ n from Nat.pow_succ']
    exact Nat.mod_mul.symm

/-- A run of bytes written reads back as the number it holds. -/
theorem memNat_memWriteList (bs : List Byte) (m : List Host.Cell) (a : Nat) (h : Memory.wf m = true) :
    memNat (memWriteList m a bs) a bs.length = bytesNat bs := by
  induction bs generalizing m a with
  | nil => rfl
  | cons b r ih =>
    have wf := memWrite_wf m a b h
    rw [List.length_cons, memNat, bytesNat, memWriteList, ih _ _ wf, memRead_memWriteList_outside r _ _ _ wf (by omega),
      memRead_memWrite m a b h, if_pos rfl]

theorem State.rd32_wr32 (s : State) (a : Nat) (v : BitVec 32) (h : Memory.wf s.mem = true) : (s.wr32 a v).rd32 a = v := by
  have word := memNat_memWriteList (natBytes v.toNat 4) s.mem a h
  rw [natBytes_length, bytesNat_natBytes] at word
  rw [State.rd32, State.wr32, word]
  refine BitVec.eq_of_toNat_eq ?_
  rw [BitVec.toNat_ofNat, Nat.mod_mod_of_dvd _ (by decide)]
  exact Nat.mod_eq_of_lt v.isLt

theorem State.wr32_outside (s : State) (a : Nat) (v : BitVec 32) (h : Memory.wf s.mem = true) {b : Nat} (out : b < a ∨ a + 4 ≤ b) :
    memRead (s.wr32 a v).mem b = memRead s.mem b :=
  memRead_memWriteList_outside _ _ _ _ h (by rwa [natBytes_length])

end Sys2Proof.Machine
end

section
/-! SUPPORT. The rings of the host interface: their registers, and what the switch leaves of them (R440 to R443). -/
namespace Sys2Proof.Machine

/-! ### Reading and changing a ring -/

theorem hostRing_modRing_same (s : State) (k : Fin 34) (g : HostRing → HostRing) : hostRing (s.modRing k g) k = g (hostRing s k) := by
  by_cases low : k.val < 16
  · simp [hostRing, State.modRing, State.modHi, low, updN_lt, upd_get]
  by_cases mid : k.val < 32
  · have : k.val - 16 < 16 := by omega
    simp [hostRing, State.modRing, State.modHi, low, mid, updN_lt, upd_get, this]
  by_cases tx : k.val = 32
  · simp [hostRing, State.modRing, State.modHi, tx]
  · simp [hostRing, State.modRing, State.modHi, low, mid, tx]

theorem hostRing_modRing_ne (s : State) {j k : Fin 34} (g : HostRing → HostRing) (ne : j ≠ k) :
    hostRing (s.modRing k g) j = hostRing s j := by
  have apart : k.val ≠ j.val := fun h => ne (Fin.ext h.symm)
  unfold hostRing State.modRing State.modHi
  by_cases low : k.val < 16
  · simp only [low, if_true, updN_lt]
    split
    · exact upd_get_ne _ _ _ _ _ apart
    · rfl
  by_cases mid : k.val < 32
  · have index : k.val - 16 < 16 := by omega
    simp only [low, mid, if_true, if_false, updN_lt _ _ _ index]
    split
    · rfl
    split
    · exact upd_get_ne _ _ _ _ _ (show k.val - 16 ≠ j.val - 16 by omega)
    · rfl
  by_cases tx : k.val = 32
  · simp [tx, show j.val ≠ 32 by omega]
  · have : j.val < 33 := by omega
    by_cases j32 : j.val = 32
    · simp [low, mid, tx, j32]
    · have : j.val < 32 := by omega
      simp [low, mid, tx, this]

theorem modRing_sub (s : State) (f : Fin 16) (g : HostRing → HostRing) :
    s.modRing (Fin.ofNat 34 f.val) g = { s with hi.sub := upd s.hi.sub f g } := by
  have : f.val % 34 = f.val := Nat.mod_eq_of_lt (by omega)
  simp [State.modRing, State.modHi, this, updN_lt]

theorem modRing_comp (s : State) (f : Fin 16) (g : HostRing → HostRing) :
    s.modRing (Fin.ofNat 34 (16 + f.val)) g = { s with hi.comp := upd s.hi.comp f g } := by
  have : (16 + f.val) % 34 = 16 + f.val := Nat.mod_eq_of_lt (by omega)
  simp [State.modRing, State.modHi, this, updN_lt, show 16 + f.val < 32 by omega]

theorem hostRing_sub (s : State) (f : Fin 16) : hostRing s (Fin.ofNat 34 f.val) = s.hi.sub[f] := by
  have : f.val % 34 = f.val := Nat.mod_eq_of_lt (by omega)
  simp [hostRing, this]

theorem hostRing_comp (s : State) (f : Fin 16) : hostRing s (Fin.ofNat 34 (16 + f.val)) = s.hi.comp[f] := by
  have : (16 + f.val) % 34 = 16 + f.val := Nat.mod_eq_of_lt (by omega)
  simp [hostRing, this, show 16 + f.val < 32 by omega]

/-- R440: an index below D moves; any other sets CFG_REJ. -/
theorem setIndex_in (s : State) (k : Fin 34) (head : Bool) (v : BitVec 32) (h : (field v 0 12).toNat < 2 ^ (hostRing s k).depth.toNat) :
    s.setIndex k head v = s.modRing k fun r =>
      if head then { r with head := field v 0 12, irqSent := false } else { r with tail := field v 0 12 } := by
  rw [State.setIndex, ringIndex, HostRing.size, if_pos h]

theorem setIndex_out (s : State) (k : Fin 34) (head : Bool) (v : BitVec 32) (h : 2 ^ (hostRing s k).depth.toNat ≤ (field v 0 12).toNat) :
    s.setIndex k head v = s.hiSet 3 := by
  rw [State.setIndex, ringIndex, HostRing.size, if_neg (Nat.not_lt.mpr h)]

/-! ### What the switch leaves of the rings -/

/-- The power controller and the rings of the host interface. -/
def State.rings (s : State) : Power × Vector HostRing 16 × Vector HostRing 16 × HostRing × HostRing :=
  (s.pw, s.hi.sub, s.hi.comp, s.hi.tx, s.hi.rx)

@[simp] theorem State.emit_rings (s : State) (src : Nat) (code : BitVec 12) (p : List (BitVec 32)) : (s.emit src code p).rings = s.rings := by
  obtain ⟨_, _, _, h⟩ := s.emit_frame src code p
  rw [h]
  rfl

@[simp] theorem State.modPort_rings (s : State) (p : Fin 8) (g : Port → Port) : (s.modPort p g).rings = s.rings := rfl
@[simp] theorem State.modSw_rings (s : State) (g : Switch → Switch) : (s.modSw g).rings = s.rings := rfl
@[simp] theorem State.cbsNow_rings (s : State) (p : Fin 8) : (s.cbsNow p).rings = s.rings := rfl
@[simp] theorem State.ptCount_rings (s : State) (p : Fin 8) (k : Fin 6) : (s.ptCount p k).rings = s.rings := rfl
@[simp] theorem State.swSet_rings (s : State) (i : Nat) : (s.swSet i).rings = s.rings := rfl

@[simp] theorem State.ptSet_rings (s : State) (p : Fin 8) (i : Nat) : (s.ptSet p i).rings = s.rings := by
  unfold State.ptSet
  dsimp only
  split
  · obtain ⟨_, _, h⟩ := irqWatch_frame (Fin.ofNat 64 (24 + p.val)) (ptLevel p) s (s.modPort p fun t => { t with sticky := setBit t.sticky i })
    rw [h]
    rfl
  · rfl

@[simp] theorem State.txDone_rings (s : State) (i : Nat) (d : Bool) : (s.txDone i d).rings = s.rings := by
  unfold State.txDone State.busWrite
  dsimp only
  split
  · split <;> rfl
  · rfl

@[simp] theorem State.frameGone_rings (s : State) (f : TxFrame) (d : Bool) : (s.frameGone f d).rings = s.rings := by
  unfold State.frameGone
  split
  · rfl
  · split <;> simp

@[simp] theorem State.lateFrame_rings (s : State) (p c : Fin 8) (f : TxFrame) : (s.lateFrame p c f).rings = s.rings := by
  simp [State.lateFrame]

@[simp] theorem State.enqueue_rings (s : State) (p c : Fin 8) (f : TxFrame) : (s.enqueue p c f).rings = s.rings := by
  unfold State.enqueue
  dsimp only
  split
  · simp
  split <;> simp

@[simp] theorem State.cbCheck_rings (s : State) (p : Fin 8) (f : List Byte) : (s.cbCheck p f).2.rings = s.rings := by
  unfold State.cbCheck
  dsimp only
  split
  · rfl
  split
  · rfl
  split
  · rfl
  split
  · rfl
  · exact (State.emit_rings _ _ _ _).trans rfl

@[simp] theorem State.forward_rings (s : State) (p : Fin 8) (f : TxFrame) : (s.forward p f).rings = s.rings := by
  refine forEach_induct (fun t => t.rings = s.rings) (egressPorts s p f.bytes) _ (fun t q _ ht => ?_) s rfl
  dsimp only
  split
  · split <;> simp [ht]
  · simp [ht]

@[simp] theorem State.txOne_rings (s : State) (i : Nat) (q : Vector (BitVec 32) 8 × List Byte) : (s.txOne i q).rings = s.rings := by
  unfold State.txOne
  dsimp only
  split
  · simp
  split
  · split
    · simp
    · split <;> simp
  · split
    · simp
    · split <;> simp

/-! ### The transmit ring -/

/-- The entries between two indices of a ring, one after the head has moved on. -/
theorem ringFill_next {n h t : Nat} (hh : h < n) (ht : t < n) (ne : h ≠ t) :
    (t + n - (h + 1) % n) % n + 1 = (t + n - h) % n ∧ (h + 1) % n < n := by
  have fill (k : Nat) (hk : k < n) : (t + n - k) % n = if k ≤ t then t - k else t + n - k := by
    split
    · rw [show t + n - k = t - k + n by omega, Nat.add_mod_right, Nat.mod_eq_of_lt (by omega)]
    · exact Nat.mod_eq_of_lt (by omega)
  have next : (h + 1) % n = if h + 1 = n then 0 else h + 1 := by
    split
    · next last => rw [last, Nat.mod_self]
    · exact Nat.mod_eq_of_lt (by omega)
  have small : (h + 1) % n < n := Nat.mod_lt _ (by omega)
  refine ⟨?_, small⟩
  rw [fill _ small, fill _ hh, next]
  split_ifs <;> omega

theorem swRuns_of_pw {s t : State} (h : t.pw = s.pw) : swRuns t = swRuns s := by
  unfold swRuns State.domain
  rw [h]

/-- R443: with fuel for every entry the head runs up to the tail; nothing else of the rings changes. -/
theorem txRun_rings (fuel : Nat) (given : List (Vector (BitVec 32) 8 × List Byte)) (s : State) (en : s.hi.tx.en = true)
    (runs : swRuns s = true) (depth : s.hi.tx.depth.toNat ≤ 12) (head : s.hi.tx.head.toNat < 2 ^ s.hi.tx.depth.toNat)
    (tail : s.hi.tx.tail.toNat < 2 ^ s.hi.tx.depth.toNat)
    (enough : (s.hi.tx.tail.toNat + 2 ^ s.hi.tx.depth.toNat - s.hi.tx.head.toNat) % 2 ^ s.hi.tx.depth.toNat < fuel) :
    (State.txRun fuel given s).rings = (s.pw, s.hi.sub, s.hi.comp, { s.hi.tx with head := s.hi.tx.tail }, s.hi.rx) := by
  induction fuel generalizing given s with
  | zero => omega
  | succ fuel ih =>
    unfold State.txRun
    dsimp only
    by_cases done : s.hi.tx.head = s.hi.tx.tail
    · rw [if_pos (by simp [done])]
      exact congrArg (fun h => (s.pw, s.hi.sub, s.hi.comp, { s.hi.tx with head := h }, s.hi.rx)) done
    · rw [if_neg (by simp [en, done, runs])]
      have apart : s.hi.tx.head.toNat ≠ s.hi.tx.tail.toNat := fun h => done (BitVec.eq_of_toNat_eq h)
      obtain ⟨less, small⟩ := ringFill_next head tail apart
      generalize hu : s.txOne s.hi.tx.head.toNat (txEntry s s.hi.tx.head.toNat given.head?) = u
      have kept : u.rings = s.rings := by rw [← hu, State.txOne_rings]
      obtain ⟨pw, sub, comp, tx, rx⟩ : u.pw = s.pw ∧ u.hi.sub = s.hi.sub ∧ u.hi.comp = s.hi.comp ∧ u.hi.tx = s.hi.tx ∧ u.hi.rx = s.hi.rx := by
        simpa [State.rings] using kept
      have size : 2 ^ s.hi.tx.depth.toNat ≤ 4096 := Nat.pow_le_pow_right (by decide) depth
      have moved : (s.hi.tx.next s.hi.tx.head).toNat = (s.hi.tx.head.toNat + 1) % 2 ^ s.hi.tx.depth.toNat := by
        rw [HostRing.next, BitVec.toNat_ofNat, HostRing.size]
        exact Nat.mod_eq_of_lt (by omega)
      let s2 : State := u.modHi fun h => { h with tx := { h.tx with head := s.hi.tx.next s.hi.tx.head } }
      have later (w : State) (hw : w.rings = s2.rings) (given) : (State.txRun fuel given w).rings =
          (s.pw, s.hi.sub, s.hi.comp, { s.hi.tx with head := s.hi.tx.tail }, s.hi.rx) := by
        obtain ⟨wpw, wsub, wcomp, wtx, wrx⟩ : w.pw = s.pw ∧ w.hi.sub = s.hi.sub ∧ w.hi.comp = s.hi.comp ∧
            w.hi.tx = { s.hi.tx with head := s.hi.tx.next s.hi.tx.head } ∧ w.hi.rx = s.hi.rx := by
          simpa [State.rings, s2, State.modHi, pw, sub, comp, tx, rx] using hw
        have := ih given w (by rw [wtx]; exact en) (by rw [swRuns_of_pw wpw]; exact runs) (by rw [wtx]; exact depth)
          (by rw [wtx]; exact moved ▸ small) (by rw [wtx]; exact tail) (by rw [wtx]; dsimp only; rw [moved]; omega)
        rw [this, wpw, wsub, wcomp, wtx, wrx]
      split
      · refine later _ ?_ _
        rfl
      · refine later _ ?_ _
        rfl

end Sys2Proof.Machine
end

section
/-! SUPPORT. Writes of ring registers and the endpoint's reset and link (R438, R440 to R443). -/
namespace Sys2Proof.Machine

/-! ### Tails and heads -/

/-- R440: a tail below D moves; any other sets CFG_REJ alone. -/
theorem submissionTailWrite_up {s : State} (up : (s.domain 3).up = true) (f : Fin 16) (v : BitVec 32) :
    ((field v 0 12).toNat < 2 ^ s.hi.sub[f].depth.toNat → exec (.submissionTailWrite f v) s =
      .next { s with hi.sub := upd s.hi.sub f fun r => { r with tail := field v 0 12 } }) ∧
    (2 ^ s.hi.sub[f].depth.toNat ≤ (field v 0 12).toNat →
      exec (.submissionTailWrite f v) s = .next { s with hi.sticky := setBit s.hi.sticky 3 }) := by
  have run : exec (.submissionTailWrite f v) s = .next (s.setIndex (Fin.ofNat 34 f.val) false v) := if_pos up
  rw [run, ← hostRing_sub]
  refine ⟨fun fits => ?_, fun large => ?_⟩
  · rw [setIndex_in _ _ _ _ fits, modRing_sub]
    rfl
  · rw [setIndex_out _ _ _ _ large]
    rfl

/-- R441: a head below D moves and re-arms the vector; any other sets CFG_REJ alone. -/
theorem completionHeadWrite_up {s : State} (up : (s.domain 3).up = true) (f : Fin 16) (v : BitVec 32) :
    ((field v 0 12).toNat < 2 ^ s.hi.comp[f].depth.toNat → exec (.completionHeadWrite f v) s =
      .next { s with hi.comp := upd s.hi.comp f fun r => { r with head := field v 0 12, irqSent := false } }) ∧
    (2 ^ s.hi.comp[f].depth.toNat ≤ (field v 0 12).toNat →
      exec (.completionHeadWrite f v) s = .next { s with hi.sticky := setBit s.hi.sticky 3 }) := by
  have run : exec (.completionHeadWrite f v) s = .next (s.setIndex (Fin.ofNat 34 (16 + f.val)) true v) := if_pos up
  rw [run, ← hostRing_comp]
  refine ⟨fun fits => ?_, fun large => ?_⟩
  · rw [setIndex_in _ _ _ _ fits, modRing_comp]
    rfl
  · rw [setIndex_out _ _ _ _ large]
    rfl

/-- R443: buffers up to a new receive tail are supplied. -/
theorem rxRingTailWrite_up {s : State} (up : (s.domain 3).up = true) (v : BitVec 32) (bufs : List (BitVec 40)) :
    let i := field v 0 12
    let size := 2 ^ s.hi.rx.depth.toNat
    (size ≤ i.toNat → exec (.rxRingTailWrite v bufs) s = .next { s with hi.sticky := setBit s.hi.sticky 3 }) ∧
    (i.toNat < size → s.hi.rx.loc = true → exec (.rxRingTailWrite v bufs) s = .next { s with hi.rx.tail := i }) ∧
    (i.toNat < size → s.hi.rx.loc = false → bufs.length = (i.toNat + size - s.hi.rx.tail.toNat) % size →
      exec (.rxRingTailWrite v bufs) s = .next { s with hi := { s.hi with rx.tail := i, rxBufs := s.hi.rxBufs ++ bufs } }) := by
  intro i size
  have run : exec (.rxRingTailWrite v bufs) s = .next (s.supplyRx v bufs) := if_pos up
  rw [run, State.supplyRx]
  refine ⟨fun large => ?_, fun fits loc => ?_, fun fits remote given => ?_⟩
  · have refused : ringIndex s.hi.rx v = none := if_neg (Nat.not_lt.mpr large)
    rw [refused, setIndex_out s 33 false v large]
    rfl
  · have taken : ringIndex s.hi.rx v = some i := if_pos fits
    rw [taken]
    dsimp only
    rw [if_pos loc, setIndex_in s 33 false v fits]
    rfl
  · have taken : ringIndex s.hi.rx v = some i := if_pos fits
    have all (free : Nat → BitVec 40) : (List.range bufs.length).map (fun j => bufs.getD j (free j)) = bufs :=
      List.ext_getElem (by simp) fun j _ hj => by simp [hj]
    rw [taken]
    dsimp only
    rw [if_neg (by simp [remote]), setIndex_in s 33 false v fits, HostRing.size, ← given, all, Nat.sub_self]
    rfl

/-- R443: descriptors up to a new transmit tail are taken. -/
theorem txRingTailWrite_up {s : State} (up : (s.domain 3).up = true) (v : BitVec 32) (ds : List (Vector (BitVec 32) 8 × List (BitVec 8)))
    (fits : (field v 0 12).toNat < 2 ^ s.hi.tx.depth.toNat) :
    (s.hi.tx.en = false → exec (.txRingTailWrite v ds) s = .next { s with hi.tx.tail := field v 0 12 }) ∧
    (s.hi.tx.en = true → swRuns s = true → s.hi.tx.depth.toNat ≤ 12 → s.hi.tx.head.toNat < 2 ^ s.hi.tx.depth.toNat →
      ∃ t, exec (.txRingTailWrite v ds) s = .next t ∧ t.hi.tx = { s.hi.tx with tail := field v 0 12, head := field v 0 12 } ∧
        t.hi.rx = s.hi.rx ∧ t.hi.sub = s.hi.sub ∧ t.hi.comp = s.hi.comp) := by
  have run : exec (.txRingTailWrite v ds) s = .next (State.txRun 4096 ds { s with hi.tx.tail := field v 0 12 }) := by
    have taken : exec (.txRingTailWrite v ds) s = .next (State.txRun 4096 ds (s.setIndex 32 false v)) := if_pos up
    rw [taken, setIndex_in s 32 false v fits]
    rfl
  rw [run]
  refine ⟨fun off => ?_, fun en runs depth head => ⟨_, rfl, ?_⟩⟩
  · rw [State.txRun, if_pos (by simp [off])]
  · have size : 2 ^ s.hi.tx.depth.toNat ≤ 4096 := Nat.pow_le_pow_right (by decide) depth
    have taken := txRun_rings 4096 ds { s with hi.tx.tail := field v 0 12 } en runs depth head fits
      (Nat.lt_of_lt_of_le (Nat.mod_lt _ (Nat.two_pow_pos _)) size)
    simp only [State.rings, Prod.mk.injEq] at taken
    obtain ⟨_, sub, comp, tx, rx⟩ := taken
    exact ⟨tx, rx, sub, comp⟩

/-! ### Configuration of a ring -/

/-- Ring `k` of `s` reads as `q` in `t` and HI_STICKY as `w`; the other rings, and all but the host interface, are as before. -/
def RingBecomes (s t : State) (k : Fin 34) (q : HostRing) (w : BitVec 4) : Prop :=
  hostRing t k = q ∧ (∀ j, j ≠ k → hostRing t j = hostRing s j) ∧ t.hi.sticky = w ∧ { t with hi := s.hi } = s

theorem modRing_sticky (s : State) (k : Fin 34) (g : HostRing → HostRing) : (s.modRing k g).hi.sticky = s.hi.sticky := by
  unfold State.modRing State.modHi
  dsimp only
  split_ifs <;> rfl

theorem RingBecomes.refl (s : State) (k : Fin 34) : RingBecomes s s k (hostRing s k) s.hi.sticky := ⟨rfl, fun _ _ => rfl, rfl, rfl⟩

theorem RingBecomes.modRing {s t : State} {k : Fin 34} {q : HostRing} {w : BitVec 4} (h : RingBecomes s t k q w)
    (g : HostRing → HostRing) : RingBecomes s (t.modRing k g) k (g q) w := by
  obtain ⟨ring, others, sticky, rest⟩ := h
  exact ⟨(hostRing_modRing_same t k g).trans (congrArg g ring), fun j ne => (hostRing_modRing_ne t g ne).trans (others j ne),
    (modRing_sticky t k g).trans sticky, rest⟩

theorem RingBecomes.hiSet {s t : State} {k : Fin 34} {q : HostRing} {w : BitVec 4} (h : RingBecomes s t k q w) (i : Nat) :
    RingBecomes s (t.hiSet i) k q (setBit w i) := by
  obtain ⟨ring, others, sticky, rest⟩ := h
  exact ⟨ring, others, congrArg (setBit · i) sticky, rest⟩

/-- R442: an enabled ring takes EN = 0 alone. -/
theorem hiCfgWrite_enabled {s : State} (up : (s.domain 3).up = true) (k : Fin 34) (v : BitVec 32) (en : (hostRing s k).en = true) :
    let r := hostRing s k
    let same := field v 1 4 = r.depth ∧ bit v 5 = r.loc ∧ bit v 6 = r.irqEn
    (bit v 0 = true → exec (.hiCfgWrite k v) s = .next { s with hi.sticky := setBit s.hi.sticky 3 }) ∧
    (bit v 0 = false → same → ∃ t, exec (.hiCfgWrite k v) s = .next t ∧ RingBecomes s t k { r with en := false } s.hi.sticky) ∧
    (bit v 0 = false → ¬same → ∃ t, exec (.hiCfgWrite k v) s = .next t ∧
      RingBecomes s t k { r with en := false } (setBit s.hi.sticky 3)) := by
  intro r same
  have run : exec (.hiCfgWrite k v) s = .next (s.setRingCfg k v) := if_pos up
  have off := (RingBecomes.refl s k).modRing fun r => { r with en := false }
  rw [run, State.setRingCfg, if_pos en]
  refine ⟨fun on => ?_, fun cleared kept => ?_, fun cleared changed => ?_⟩
  · rw [if_pos on]
    rfl
  · obtain ⟨depth, loc, irq⟩ := kept
    rw [if_neg (by simp [cleared]), if_neg (by simp [depth, loc, irq, r])]
    exact ⟨_, rfl, off⟩
  · rw [if_neg (by simp [cleared]), if_pos (by simpa only [same, not_and_or] using changed)]
    exact ⟨_, rfl, off.hiSet 3⟩

/-- R440, R442: a disabled ring refuses a depth of 0 or above 12, and starts anew when it is enabled. -/
theorem hiCfgWrite_disabled {s : State} (up : (s.domain 3).up = true) (k : Fin 34) (v : BitVec 32) (off : (hostRing s k).en = false) :
    let r := hostRing s k
    let d := field v 1 4
    (d = 0#4 ∨ 12 < d.toNat → exec (.hiCfgWrite k v) s = .next { s with hi.sticky := setBit s.hi.sticky 3 }) ∧
    (1 ≤ d.toNat → d.toNat ≤ 12 → bit v 0 = false → ∃ t, exec (.hiCfgWrite k v) s = .next t ∧
      RingBecomes s t k { r with depth := d, loc := bit v 5, irqEn := bit v 6 } s.hi.sticky) ∧
    (1 ≤ d.toNat → d.toNat ≤ 12 → bit v 0 = true → ∃ t, exec (.hiCfgWrite k v) s = .next t ∧ RingBecomes s t k
      { r with depth := d, loc := bit v 5, irqEn := bit v 6, en := true, head := 0#12, tail := 0#12, phase := true, irqSent := false }
      s.hi.sticky) := by
  intro r d
  have run : exec (.hiCfgWrite k v) s = .next (s.setRingCfg k v) := if_pos up
  have good (low : 1 ≤ d.toNat) (high : d.toNat ≤ 12) : ¬(field v 1 4 = 0#4 ∨ 12 < (field v 1 4).toNat) := by
    rintro (zero | large)
    · exact absurd (congrArg BitVec.toNat zero) (Nat.ne_of_gt low)
    · exact absurd large (Nat.not_lt.mpr high)
  have taken := (RingBecomes.refl s k).modRing fun r => { r with depth := d, loc := bit v 5, irqEn := bit v 6 }
  rw [run, State.setRingCfg, if_neg (by simp [off])]
  refine ⟨fun bad => ?_, fun low high stays => ?_, fun low high starts => ?_⟩
  · rw [if_pos bad]
    rfl
  · rw [if_neg (good low high), if_neg (by simp [stays])]
    exact ⟨_, rfl, taken⟩
  · rw [if_neg (good low high), if_pos starts]
    have anew := taken.modRing fun r => { r with en := true, head := 0#12, tail := 0#12, phase := true, irqSent := false }
    refine ⟨_, rfl, ?_⟩
    split
    · exact anew
    · exact anew

/-! ### The endpoint and its link -/

/-- With the link down no message leaves and none is kept pending (R438). -/
theorem irqWatch_linkDown {t : State} (down : t.hi.linkUp = false) (v : Fin 64) (level : State → Bool) (s : State) :
    irqWatch v level s t = t := by
  unfold irqWatch State.raise
  split
  · exact if_neg (by simp [down])
  · rfl

theorem State.emit_linkDown {s : State} (down : s.hi.linkUp = false) (src : Nat) (code : BitVec 12) (p : List (BitVec 32)) :
    ∃ er, s.emit src code p = { s with er := er } := by
  unfold State.emit State.stage
  split
  · exact ⟨_, rfl⟩
  · exact ⟨_, irqWatch_linkDown (by exact down) _ _ _⟩

/-- A link that goes down changes its own fields and the recorder alone (R438, R452). -/
theorem State.pcieDown_frame (s : State) : ∃ speed width er, s.pcieDown =
    { s with hi := { s.hi with linkUp := false, linkSpeed := speed, linkWidth := width }, er := er } := by
  unfold State.pcieDown
  split
  · obtain ⟨er, told⟩ := State.emit_linkDown (s := { s with hi := { s.hi with linkUp := false, linkSpeed := 0#3, linkWidth := 0#4 } }) rfl
      3 0x002#12 [bitAt s.hi.perstHigh 1 ||| at32 s.hi.linkSpeed 4 ||| at32 s.hi.linkWidth 8]
    exact ⟨_, _, er, told⟩
  · next up =>
    have down : s.hi.linkUp = false := by simpa using up
    rw [← down]
    exact ⟨_, _, _, rfl⟩

/-- R438: a ring as the reset of the endpoint leaves it. -/
def HostRing.endpointReset (r : HostRing) : HostRing := if r.loc then r else { r with en := false }

/-- R438: the reset of the endpoint before the link follows. -/
def State.endpointReset (s : State) : State := s.modHi fun h => { h with
  perstHigh := false, sub := h.sub.map HostRing.endpointReset, comp := h.comp.map HostRing.endpointReset, tx := h.tx.endpointReset
  rx := h.rx.endpointReset, msix := Vector.replicate 64 default, pba := 0#64 }

theorem exec_perst_low (s : State) : exec (.perst false) s = .next (s.endpointReset.pcieDown.pllFollow s) := rfl

theorem hostRing_endpointReset (s : State) (k : Fin 34) : hostRing s.endpointReset k = (hostRing s k).endpointReset := by
  unfold hostRing State.endpointReset State.modHi
  dsimp only
  split
  · exact Vector.getElem_map ..
  split
  · exact Vector.getElem_map ..
  split <;> rfl

/-- R438: PERST# low disables the rings with LOC = 0 and clears the MSI-X table. -/
theorem perst_low (s : State) : ∃ t, exec (.perst false) s = .next t ∧ t.hi.perstHigh = false ∧ t.hi.linkUp = false ∧
    t.hi.msix = Vector.replicate 64 default ∧ t.hi.pba = 0#64 ∧ t.hi.sticky = s.hi.sticky ∧
    (∀ k, hostRing t k = if (hostRing s k).loc then hostRing s k else { hostRing s k with en := false }) ∧
    { t with hi := s.hi, cr := s.cr, er := s.er, out := s.out } = s := by
  obtain ⟨speed, width, er, down⟩ := s.endpointReset.pcieDown_frame
  rw [exec_perst_low, down]
  exact ⟨_, rfl, rfl, rfl, rfl, rfl, rfl, hostRing_endpointReset s, rfl⟩

/-- R438, R452: the link trains only with PERST# high and PD3 in RUN. -/
theorem pcieLink_cases (s : State) (speed : BitVec 3) (width : BitVec 4) :
    (s.hi.perstHigh = true → s.domain 3 = .run → ∃ t, exec (.pcieLink true speed width) s = .next t ∧ t.hi.linkUp = true ∧
      t.hi.linkSpeed = speed ∧ t.hi.linkWidth = width ∧ t.hi.sub = s.hi.sub ∧ t.hi.comp = s.hi.comp) ∧
    (s.hi.perstHigh = false ∨ s.domain 3 ≠ .run → exec (.pcieLink true speed width) s = .next s) ∧
    ∃ t, exec (.pcieLink false speed width) s = .next t ∧ t.hi.linkUp = false ∧ t.hi.sub = s.hi.sub ∧ t.hi.comp = s.hi.comp := by
  have down : exec (.pcieLink false speed width) s = .next s.pcieDown := rfl
  refine ⟨fun high runs => ?_, fun refused => ?_, ?_⟩
  · have trained : (s.hi.perstHigh && decide (s.domain 3 = .run)) = true := by simp [high, runs]
    obtain ⟨er, pba, out, told⟩ := (s.modHi fun h => { h with linkUp := true, linkSpeed := speed, linkWidth := width }).emit_frame 3 0x002#12
      [1#32 ||| bitAt s.hi.perstHigh 1 ||| at32 speed 4 ||| at32 width 8]
    refine ⟨_, if_pos trained, ?_⟩
    rw [told]
    exact ⟨rfl, rfl, rfl, rfl, rfl⟩
  · exact if_neg (by rcases refused with low | other <;> simp [*])
  · obtain ⟨_, _, _, h⟩ := s.pcieDown_frame
    rw [down, h]
    exact ⟨_, rfl, rfl, rfl, rfl⟩

end Sys2Proof.Machine
end

section
/-! SUPPORT. Words that reach the device through BAR2, BAR0 and SPI (R14, R436 to R438, R445). -/
namespace Sys2Proof.Machine

theorem regBlock_none {a : BitVec 40} (h : a.toNat < 0x100000000 ∨ 0x101300000 ≤ a.toNat) : regBlock a = none := by
  refine dif_neg fun ⟨base, block⟩ => ?_
  simp only [regBase] at base block
  omega

theorem regBlock_sram {a : BitVec 40} (h : a.toNat < 0x4000000) : regBlock a = none := regBlock_none (.inl (by omega))

theorem memShut_iff (s : State) (a : Nat) : memShut s a = true ↔ 0x3E00000 ≤ a ∨ (s.domain (domainOf a)).up = false := by
  simp [memShut, partitionOf_eq_six_iff]

/-- R14: a word of SRAM is stored where it is available, and counted where it is not. -/
theorem State.busPut_sram {s : State} {a : BitVec 40} (sram : a.toNat < 0x4000000) (path : Path) (v : BitVec 32) :
    s.busPut path a v = if memShut s a.toNat then s.unavail path true a else s.wr32 a.toNat v := by
  rw [State.busPut, regBlock_sram sram]
  exact if_pos sram

theorem busRead_sram {s : State} {a : BitVec 40} (sram : a.toNat < 0x4000000) (path : Path) (avail : ¬memShut s a.toNat = true) :
    busRead s path a = (s.rd32 a.toNat, s) := by
  rw [busRead, regBlock_sram sram]
  exact (if_pos sram).trans (if_neg avail)

/-- A word stored at an address: it reads back, and no other byte changes. -/
def Stored (s t : State) (a : Nat) (v : BitVec 32) : Prop :=
  { t with mem := s.mem, out := s.out } = s ∧ (Memory.wf s.mem = true → t.rd32 a = v ∧
    ∀ b, b < a ∨ a + 4 ≤ b → memRead t.mem b = memRead s.mem b)

theorem wr32_stored (s : State) (a : Nat) (v : BitVec 32) : Stored s (s.wr32 a v) a v :=
  ⟨rfl, fun wf => ⟨s.rd32_wr32 a v wf, fun _ out => s.wr32_outside a v wf out⟩⟩

/-- An access that met what is not available: it is counted while PD3 is up, and memory is as before (R14). -/
def Counted (s t : State) : Prop :=
  t.mem = s.mem ∧ ((s.domain 3).up = true → t.hi.unavailCnt = satInc s.hi.unavailCnt ∧ t.hi.sticky = setBit s.hi.sticky 1) ∧
    { t with hi := s.hi, er := s.er, out := s.out } = s

theorem unavail_counted (s : State) (path : Path) (write : Bool) (a : BitVec 40) : Counted s (s.unavail path write a) := by
  unfold State.unavail
  dsimp only
  split
  · next down => exact ⟨rfl, fun up => by simp [hiUp, up] at down, rfl⟩
  split
  · exact ⟨rfl, fun _ => ⟨rfl, rfl⟩, rfl⟩
  · obtain ⟨er, pba, out, told⟩ := ((s.modHi fun h => { h with unavailCnt := satInc h.unavailCnt, unavailRec := true }).hiSet 1).emit_frame
      3 0x001#12 [nat32 (pathCode path) 0 ||| bitAt write 4, a.setWidth 32]
    rw [told]
    exact ⟨rfl, fun _ => ⟨rfl, rfl⟩, rfl⟩

/-- R436, R437: BAR2 reaches the SRAM and BAR0 does not. -/
theorem host_write_sram {s : State} {a : BitVec 40} (v : BitVec 32) (aligned : a.toNat % 4 = 0) (runs : s.domain 3 = .run)
    (sram : a.toNat < 0x4000000) :
    exec (.hostMemoryWrite a v) s = .next (s.busPut .bar2 a v) ∧ exec (.registerWrite .bar2 a v) s = .next (s.busPut .bar2 a v) ∧
      exec (.registerWrite .bar0 a v) s = .next s := by
  have reached : pathOk s .bar2 a = true := by simp [pathOk, aligned, runs, Config.sramBytes, sram]
  have below : ¬regBase ≤ a.toNat := by simp only [regBase]; omega
  exact ⟨if_pos reached, if_pos reached, if_neg (by simp [pathOk, below])⟩

/-- R445: SPI reaches what is mapped, in a device with supply. -/
theorem spi_mapped {s : State} {a : BitVec 40} (v : BitVec 32) (supply : s.pw.state ≠ .off) (mapped : spiMapped a = true) :
    exec (.spiWrite a v) s = .next ((s.busPut .spi a v).miso [0x00#8]) ∧ exec (.spiRead a) s =
      .next (({ (busRead s .spi a).2 with rdata := [(busRead s .spi a).1] }).miso (natBytes (busRead s .spi a).1.toNat 4 ++ [0x00#8])) :=
  ⟨(if_neg supply).trans (if_pos mapped), (if_neg supply).trans (if_pos mapped)⟩

/-- R445: an address that is not mapped is answered with BAD_OPERAND. -/
theorem spi_unmapped {s : State} {a : BitVec 40} (v : BitVec 32) (supply : s.pw.state ≠ .off) (unmapped : ¬spiMapped a = true) :
    exec (.spiWrite a v) s = .next { s with out := .spi (List.replicate 10 0#8 ++ [0x11#8]) :: s.out } ∧
      exec (.spiRead a) s = .next { s with out := .spi (List.replicate 14 0#8 ++ [0x11#8]) :: s.out } :=
  ⟨(if_neg supply).trans (if_neg unmapped), (if_neg supply).trans (if_neg unmapped)⟩

theorem spiOtherCommand_answers {s : State} (supply : s.pw.state ≠ .off) (cmd : BitVec 8) (write : cmd ≠ 0x02#8) (read : cmd ≠ 0x0B#8) :
    exec (.spiOtherCommand cmd) s = .next { s with out := .spi (List.replicate 10 0#8 ++ [0x10#8]) :: s.out } :=
  if_neg (by simp [supply, write, read])

/-- R418: a register of the always-on block is reached through BAR0. -/
theorem wakeTimeWrite_bar0 {s : State} (v : BitVec 32) (runs : s.domain 3 = .run) (aon : (s.domain 0).up = true) :
    exec (.registerWrite .bar0 0x10000000C#40 v) s =
      .next { s with pw.wakeTime := BitVec.extractLsb' 32 32 s.pw.wakeTime ++ v } := by
  have reached : pathOk s .bar0 0x10000000C#40 = true := by simp [pathOk, runs, regBase]
  have put : s.busPut .bar0 0x10000000C#40 v = s.aonWrite .bar0 0x0C v := by
    have block : regBlock 0x10000000C#40 = some (0, 0x0C) := by decide
    have powered : regUp s 0 0x0C = true := by
      rw [regUp, Bool.or_eq_true]
      exact .inl aon
    rw [State.busPut, block]
    exact if_pos powered
  have wake : s.aonWrite .bar0 0x0C v = { s with pw.wakeTime := BitVec.extractLsb' 32 32 s.pw.wakeTime ++ v } := rfl
  exact (if_pos reached).trans (by rw [put, wake])

/-- Settles O59: the ring registers, the endpoint and the paths to memory, each by its own lemma. -/
theorem hostReachesTheDevice : Obligations.HostReachesTheDevice := by
  intro s
  refine ⟨fun up v => ⟨fun f => ?_, fun bufs => ?_, fun ds => ?_, fun k => ?_⟩, ⟨_, rfl, rfl, rfl⟩, perst_low s, pcieLink_cases s,
    fun a v aligned => ⟨fun runs sram => ?_, fun supply => ⟨fun sram avail => ?_, fun sram shut => ?_, fun high hole => ?_, fun cmd =>
      fun write read => spiOtherCommand_answers supply cmd write read⟩⟩, fun v runs aon => wakeTimeWrite_bar0 v runs aon⟩
  · obtain ⟨subIn, subOut⟩ := submissionTailWrite_up up f v
    obtain ⟨compIn, compOut⟩ := completionHeadWrite_up up f v
    exact ⟨subIn, subOut, compIn, compOut⟩
  · exact rxRingTailWrite_up up v bufs
  · obtain ⟨idle, taken⟩ := forall_and.mp (txRingTailWrite_up up v ds)
    exact ⟨idle, taken⟩
  · obtain ⟨on, same, changed⟩ := forall_and.mp (hiCfgWrite_enabled up k v) |>.imp_right forall_and.mp
    obtain ⟨bad, stays, starts⟩ := forall_and.mp (hiCfgWrite_disabled up k v) |>.imp_right forall_and.mp
    exact ⟨on, same, changed, bad, stays, starts⟩
  · obtain ⟨memory, bar2, bar0⟩ := host_write_sram v aligned runs sram
    rw [memory, bar2, bar0, State.busPut_sram sram, ← memShut_iff]
    refine ⟨fun avail => ?_, fun shut => ?_, rfl⟩
    · rw [if_neg avail]
      exact ⟨_, rfl, wr32_stored s _ v, rfl, rfl⟩
    · rw [if_pos shut]
      exact ⟨_, rfl, unavail_counted s _ _ a, rfl⟩
  · obtain ⟨write, read⟩ := spi_mapped v supply (show spiMapped a = true by simp [spiMapped, aligned, Config.sramBytes, sram])
    have avail : ¬memShut s a.toNat = true := mt (memShut_iff s _).mp avail
    rw [write, read, State.busPut_sram sram, if_neg avail, busRead_sram sram _ avail]
    refine ⟨⟨_, rfl, wr32_stored s _ v, rfl⟩, ?_⟩
    rw [State.miso, List.append_assoc]
  · obtain ⟨write, -⟩ := spi_mapped v supply (show spiMapped a = true by simp [spiMapped, aligned, Config.sramBytes, sram])
    rw [write, State.busPut_sram sram, if_pos ((memShut_iff s _).mpr shut)]
    exact ⟨_, rfl, unavail_counted s _ _ a, rfl⟩
  · exact spi_unmapped v supply (by simp [spiMapped, regBlock_none hole, Config.sramBytes, Nat.not_lt.mpr high])

end Sys2Proof.Machine
end

section
/-! SUPPORT. A step takes the command at the front of the queue, or is one period of the clock; either way cell time does not fall, but
by a reset (R35, R36, R44, R450). -/
namespace Sys2Proof.Machine

theorem step_of_pending_cons {s : State} {c : Instr} {rest : List Instr} (waiting : s.pending = c :: rest) :
    step s = exec c { s with pending := rest } := by
  rw [step, waiting]

theorem step_of_pending_nil {s : State} (empty : s.pending = []) : step s = .next (idleTick s) := by
  rw [step, empty]

theorem idleTick_off {s : State} (off : s.pw.state = .off) : idleTick s = s := by
  rw [idleTick, off]

/-- R36: while PLL_NET runs, an idle step adds 8 ns and the rate correction. -/
theorem idleTick_live {s : State} (live : s.pw.state.live = true) :
    idleTick s = { s with tb.timeFix := s.tb.timeFix + (tickInc s).toNat } := by
  cases state : s.pw.state with
  | off | standby | sleep => simp [state, DevState.live] at live
  | ready | run | safeHold => rw [idleTick, state]

/-- A step keeps cell time at or above what it was, or it restarts the device, whose cell time is then 0 (R35, R450). -/
theorem step_time_le_or_restarted {s t : State} (h : step s = .next t) :
    s.tb.timeFix ≤ t.tb.timeFix ∨ (t.tb.timeFix = 0 ∧ (t.pw.state = .standby ∨ t.pw.state = .off)) := by
  cases queue : s.pending with
  | nil =>
    rw [step_of_pending_nil queue] at h
    obtain rfl := Host.Outcome.next.inj h
    exact .inl (idleTick_keeps s).time
  | cons c rest =>
    rw [step_of_pending_cons queue] at h
    rcases exec_next h with keeps | restarts
    · exact .inl keeps.time
    · exact .inr ⟨restarts.time, restarts.state⟩

/-- Settles O6: a command keeps cell time or restarts it with the device, and an idle step adds to it. -/
theorem cellTimeNeverDecreases : Obligations.CellTimeNeverDecreases := fun _ _ => step_time_le_or_restarted

/-- Settles O1: the queue of the state shown has `c` in front. -/
theorem stepTakesFrontCommand : Obligations.StepTakesFrontCommand := fun _ _ _ => step_of_pending_cons rfl

/-- Settles O2: with the queue empty a step is `idleTick`, which the device state decides. -/
theorem idleStepMovesCellTime : Obligations.IdleStepMovesCellTime := by
  intro s empty
  rw [step_of_pending_nil empty]
  exact ⟨fun off => by rw [idleTick_off off], fun live => by rw [idleTick_live live]; rfl⟩

end Sys2Proof.Machine
end

section
/-! SUPPORT. START and APPLY of the time base (R38 to R40, R42, R45, R46, R178). -/
namespace Sys2Proof.Machine

/-! ### The first pick of a grid (R40) -/

/-- Whether the start lies ahead or has passed, the first beat is the distance to it in beats of `n` periods, rounded up. -/
theorem firstJ_eq_ceilDiv_mul (org p n lo : Nat) : firstJ org p n lo = (lo - org) ⌈/⌉ (p * n) * n := by
  rw [firstJ]
  split
  next ahead => rw [Nat.sub_eq_zero_of_le ahead, zero_ceilDiv, Nat.zero_mul]
  next => rfl

/-- The beat boundaries at or after `lo` are those from the first one on. -/
theorem firstJ_le_mul_iff {p n : Nat} (beat : 0 < p * n) (org lo c : Nat) : firstJ org p n lo ≤ c * n ↔ lo ≤ org + c * n * p := by
  have n_pos : 0 < n := Nat.pos_of_mul_pos_left beat
  rw [firstJ_eq_ceilDiv_mul, Nat.mul_le_mul_right_iff n_pos, ceilDiv_le_iff_le_mul beat, Nat.sub_le_iff_le_add',
    show p * n * c = c * n * p by ring]

theorem firstJ_mod (org p n lo : Nat) : firstJ org p n lo % n = 0 := by
  rw [firstJ_eq_ceilDiv_mul, Nat.mul_mod_left]

/-- R40: the nominal instant of the first pick is not before `lo`. -/
theorem le_nominal_firstJ {p n : Nat} (beat : 0 < p * n) (org lo : Nat) : lo ≤ org + firstJ org p n lo * p := by
  obtain ⟨c, first⟩ := exists_eq_mul_left_of_dvd (Nat.dvd_of_mod_eq_zero (firstJ_mod org p n lo))
  rw [first, ← firstJ_le_mul_iff beat, first]

/-- R40: no earlier beat boundary lies at or after `lo`. -/
theorem firstJ_least {p n : Nat} (beat : 0 < p * n) {org lo i : Nat} (boundary : i % n = 0) (late : lo ≤ org + i * p) :
    firstJ org p n lo ≤ i := by
  obtain ⟨c, rfl⟩ := exists_eq_mul_left_of_dvd (Nat.dvd_of_mod_eq_zero boundary)
  exact (firstJ_le_mul_iff beat org lo c).mpr late

/-! ### The stepper links follow the pick (R178) -/

/-- The fit of a link changes the links, and with its record the recorder, the pending bits and what has left the chip. -/
theorem State.stlFit_frame (s : State) (n : Fin 16) :
    ∃ stl er hi out, s.stlFit n = { s with stl := stl, er := er, hi := hi, out := out } := by
  unfold State.stlFit
  dsimp only
  split
  · exact ⟨_, _, _, _, rfl⟩
  · obtain ⟨_, _, _, recorded⟩ := State.emit_frame _ _ _ _
    exact ⟨_, _, _, _, recorded⟩

theorem State.stlFitAll_frame (s : State) :
    ∃ stl er hi out, (s.forEach (fins 16) fun s n => s.stlFit n) = { s with stl := stl, er := er, hi := hi, out := out } := by
  refine forEach_induct (fun t => ∃ stl er hi out, t = { s with stl := stl, er := er, hi := hi, out := out }) _ _ ?_ s ⟨_, _, _, _, rfl⟩
  rintro t n - ⟨_, _, _, _, rfl⟩
  obtain ⟨_, _, _, _, fit⟩ := State.stlFit_frame _ n
  exact ⟨_, _, _, _, fit⟩

/-! ### START and APPLY (R40, R45, R46) -/

theorem stagedOk_iff (t : TimeBase) : stagedOk t = true ↔
    1000000 ≤ periodV t.stagedPeriod ∧ periodV t.stagedPeriod ≤ 32000000 ∧ 1 ≤ t.stagedN.toNat ∧ t.stagedN.toNat ≤ 64 := by
  simp [stagedOk, and_assoc]

/-- A beat with staged values in range has a length. -/
theorem stagedBeat_pos {t : TimeBase} (valid : stagedOk t = true) : 0 < periodFix t.stagedPeriod * t.stagedN.toNat := by
  obtain ⟨period, -, beat, -⟩ := (stagedOk_iff t).mp valid
  exact Nat.mul_pos (Nat.mul_pos (by omega) (by decide)) beat

/-- The first pick that TB_START gives the grid (R40). -/
def State.startJ (s : State) : Nat :=
  firstJ (s.tb.origin.toNat * nsUnit) (periodFix s.tb.stagedPeriod) s.tb.stagedN.toNat (s.tb.timeFix + 1000 * nsUnit)

/-- The time base as TB_START leaves it when it starts picks (R40, R42). -/
def State.startedTb (s : State) : TimeBase :=
  { s.tb with
    running := true, activePeriod := s.tb.stagedPeriod, activeN := s.tb.stagedN, gridOrigin := s.tb.origin.toNat * nsUnit
    j := s.startJ, first := true
    originShift := s.tb.originShift || decide (s.tb.origin.toNat * nsUnit < s.tb.timeFix + 1000 * nsUnit)
    firstPick := s.tb.startPick + BitVec.ofNat 32 s.startJ
    firstBeat := s.tb.startBeat + BitVec.ofNat 32 (s.startJ / s.tb.stagedN.toNat), pending := none }

theorem tbStart_notReady {s : State} (supply : s.pw.state ≠ .off) (state : s.pw.state ≠ .ready) :
    exec .tbStart s = .next { s with tb.startRej := true } :=
  (if_neg supply).trans (if_pos state)

theorem tbStart_ready {s : State} (ready : s.pw.state = .ready) :
    exec .tbStart s = if s.tb.running then .next s
      else if !stagedOk s.tb then .next { s with tb.rangeRej := true }
      else .next (State.forEach { s with tb := s.startedTb } (fins 16) fun s n => s.stlFit n) :=
  (if_neg (by simp [ready])).trans (if_neg (by simp [ready]))

theorem tbStart_running {s : State} (ready : s.pw.state = .ready) (running : s.tb.running = true) : exec .tbStart s = .next s :=
  (tbStart_ready ready).trans (if_pos running)

theorem tbStart_range {s : State} (ready : s.pw.state = .ready) (stopped : s.tb.running = false) (bad : ¬stagedOk s.tb = true) :
    exec .tbStart s = .next { s with tb.rangeRej := true } := by
  rw [tbStart_ready ready, if_neg (by simp [stopped]), if_pos (by simp [bad])]

/-- R40: picks start; besides the time base, only what the links' new fit touches changes. -/
theorem tbStart_starts {s : State} (ready : s.pw.state = .ready) (stopped : s.tb.running = false) (valid : stagedOk s.tb = true) :
    ∃ stl er hi out, exec .tbStart s = .next { s with tb := s.startedTb, stl := stl, er := er, hi := hi, out := out } := by
  obtain ⟨stl, er, hi, out, fit⟩ := State.stlFitAll_frame { s with tb := s.startedTb }
  exact ⟨stl, er, hi, out, by rw [tbStart_ready ready, if_neg (by simp [stopped]), if_neg (by simp [valid]), fit]⟩

theorem tbApply_rejected {s : State} (h : s.pw.state ≠ .ready ∨ s.tb.running = false) :
    exec .tbApply s = .next (({ s with tb.applyRej := true } : State).emit 2 0x001#12
      [s.pw.state.code.setWidth 32 ||| bitAt s.tb.running 4]) := by
  refine (if_pos (by simpa using h)).trans ?_
  rw [at32_zero]
  rfl

theorem tbApply_running {s : State} (ready : s.pw.state = .ready) (running : s.tb.running = true) :
    exec .tbApply s = if !stagedOk s.tb then .next { s with tb.rangeRej := true }
      else .next { s with tb.pending := some (s.tb.stagedPeriod, s.tb.stagedN), tb.applyTick := s.tb.timeFix } :=
  if_neg (by simp [ready, running])

/-- Settles O30: START by the state, whether picks run and the staged range, with the first pick from the laws of `firstJ`; then APPLY. -/
theorem picksStartOnTheGrid : Obligations.PicksStartOnTheGrid := by
  intro s v n ok org nominal lo
  have valid : stagedOk s.tb = true ↔ ok := stagedOk_iff s.tb
  refine ⟨tbStart_notReady, tbStart_running, fun stopped ready bad => tbStart_range ready stopped (mt valid.mp bad),
    fun stopped ready staged => ?_, fun ready running staged => ?_, fun ready running bad => ?_, tbApply_rejected⟩
  · obtain ⟨_, _, _, _, starts⟩ := tbStart_starts ready stopped (valid.mpr staged)
    have beat := stagedBeat_pos (valid.mpr staged)
    exact ⟨_, s.startJ, starts, firstJ_mod _ _ _ _, le_nominal_firstJ beat _ _, fun _ => firstJ_least beat, rfl, rfl⟩
  · rw [tbApply_running ready running, if_neg (by simp [valid.mpr staged])]
  · rw [tbApply_running ready running, if_pos (by simp [mt valid.mp bad])]

end Sys2Proof.Machine
end

section
/-! SUPPORT. Local instructions of a ready flow that write one register or one predicate (R75, R76). -/
namespace Sys2Proof.Machine

/-! ### What a flow reads once it has taken up an instruction -/

theorem State.taken_reg (s : State) (f : Fin 16) (r : BitVec 5) : ((s.taken f).flow f).reg r = (s.flow f).reg r := by
  rw [State.flow_taken]; rfl

theorem State.taken_obj (s : State) (f : Fin 16) (w : TWord) : ((s.taken f).flow f).obj w = (s.flow f).obj w := by
  rw [State.flow_taken]; rfl

theorem State.taken_addr (s : State) (f : Fin 16) (w : TWord) : ((s.taken f).flow f).addr w = (s.flow f).addr w := by
  rw [State.flow_taken]; rfl

theorem State.taken_pc (s : State) (f : Fin 16) : ((s.taken f).flow f).pc = (s.flow f).pc := by rw [State.flow_taken]

theorem State.taken_pred (s : State) (f : Fin 16) (r : BitVec 5) : ((s.taken f).flow f).pred r = (s.flow f).pred r := by
  rw [State.flow_taken]; rfl

theorem State.taken_nextOp (s : State) (f : Fin 16) : ((s.taken f).flow f).nextOp = (s.flow f).nextOp := by rw [State.flow_taken]

theorem State.flow_taken_ne (s : State) {f g : Fin 16} (ne : g ≠ f) : (s.taken f).flow g = s.flow g := by
  rw [State.taken, State.flow_modFlow_ne _ _ ne, State.flow_coreClock]

theorem TWord.simm_eq_ofInt (w : TWord) : w.simm = BitVec.ofInt 64 w.imm.toInt := rfl

/-! ### Writing a register or a predicate -/

section
variable {c : Instr} {s : State} {f : Fin 16} {opc : BitVec 8} {fn : BitVec 4} {w : TWord} {xw : BitVec 4} {mask : BitVec 32}
  {uses : List (BitVec 5)} {bad : State → List (Bool × Status)}

/-- A local instruction whose meaning retires with a value for RD writes that value. -/
theorem writesReg_of_local {v : State → W64}
    (meaning : exec c s = .next (s.local_ f opc fn w xw mask uses bad fun u => u.retireOk f w (v u) fun fl => fl.setReg w.rd (v u)))
    (ready : FlowReady s f uses) (form : FormOk s f w xw.toNat mask) (fine : ∀ b ∈ bad (s.taken f), b.1 = false) :
    WritesReg c s f w (v (s.taken f)) :=
  ⟨_, by rw [meaning, State.local_run s f opc fn w xw mask uses bad _ ready form fine], State.retireOk_writesReg s f w _ uses ready⟩

theorem FlowS.pred_setPred {fl : FlowS} {rd : BitVec 5} (nonzero : rd ≠ 0#5) (inside : rd.toNat < 8) (r : BitVec 5) (b : Bool) :
    (fl.setPred rd b).pred r = if r = rd then b else fl.pred r := by
  unfold FlowS.pred FlowS.setPred putBit
  by_cases same : r = rd
  · subst same
    cases b <;> simp [nonzero, inside]
  · have apart : rd.toNat ≠ r.toNat := fun h => same (BitVec.eq_of_toNat_eq h.symm)
    cases b <;> simp [same, bit_setBit_ne, bit_clearBit_ne, apart]

/-- A local instruction whose meaning retires with a value for P[RD] writes that predicate. -/
theorem writesPred_of_local {v : State → Bool} {h : Prop}
    (meaning : exec c s = .next (s.local_ f opc fn w xw mask uses bad fun u => u.retireOk f w 0#64 fun fl => fl.setPred w.rd (v u)))
    (ready : FlowReady s f uses) (form : FormOk s f w xw.toNat mask) (fine : ∀ b ∈ bad (s.taken f), b.1 = false)
    (nonzero : w.rd ≠ 0#5) (inside : w.rd.toNat < 8) (holds : v (s.taken f) = true ↔ h) : WritesPred c s f w h := by
  obtain ⟨retires, regs, preds⟩ := State.retireOk_spec s (s.taken f) f w 0#64 (fun fl => fl.setPred w.rd (v (s.taken f))) uses ready
    (by simp) (s.flow f).t ((s.flow f).setPred w.rd (v (s.taken f))).p (by rw [State.flow_taken]; rfl)
  have pred (r : BitVec 5) : (((s.taken f).retireOk f w 0#64 fun fl => fl.setPred w.rd (v (s.taken f))).flow f).pred r =
      if r = w.rd then v (s.taken f) else (s.flow f).pred r := by
    rw [← FlowS.pred_setPred nonzero inside, FlowS.pred, preds]; rfl
  refine ⟨_, by rw [meaning, State.local_run s f opc fn w xw mask uses bad _ ready form fine], State.retireOk_onlyFlow s f w _ _,
    retires, regs, ?_, fun r other => ?_⟩
  · rw [pred, if_pos rfl, holds]
  · rw [pred, if_neg other]

end

/-! ### The ALU and the condition codes (R76) -/

theorem aluValue_eq_eval (op : AluOp) (a b : W64) : aluValue op a b = op.eval a b := by
  cases op with
  | add => simp [aluValue, AluOp.eval, BitVec.ofInt_add]
  | sub => simp [aluValue, AluOp.eval, Int.sub_eq_add_neg, BitVec.sub_eq_add_neg, BitVec.ofInt_add, BitVec.ofInt_neg]
  | mul => simp [aluValue, AluOp.eval, BitVec.ofInt_mul]
  | and | or | xor => rfl
  | shl => 
    refine BitVec.eq_of_toNat_eq ?_
    simp [aluValue, AluOp.eval, BitVec.toNat_shiftLeft, Nat.shiftLeft_eq]
  | shr =>
    refine BitVec.eq_of_toNat_eq ?_
    have : a.toNat / 2 ^ (b.toNat % 64) < 2 ^ 64 := (Nat.div_le_self _ _).trans_lt a.isLt
    simp only [aluValue, AluOp.eval, BitVec.toNat_ushiftRight, Nat.shiftRight_eq_div_pow, BitVec.toNat_ofNat, BitVec.toNat_setWidth]
    exact Nat.mod_eq_of_lt this
  | sar => rw [aluValue, AluOp.eval, BitVec.sshiftRight, Int.shiftRight_eq_div_pow, BitVec.toNat_setWidth]; rfl
  | min =>
    rcases lt_trichotomy a.toInt b.toInt with less | same | more
    · simp [aluValue, AluOp.eval, BitVec.slt, less, less.le]
    · simp [aluValue, AluOp.eval, BitVec.eq_of_toInt_eq same]
    · simp [aluValue, AluOp.eval, BitVec.slt, more, more.not_gt]
  | max =>
    rcases lt_trichotomy a.toInt b.toInt with less | same | more
    · simp [aluValue, AluOp.eval, BitVec.slt, less, less.le]
    · simp [aluValue, AluOp.eval, BitVec.eq_of_toInt_eq same]
    · simp [aluValue, AluOp.eval, BitVec.slt, more, more.not_gt]

theorem toNat_sub_eq_emod {n : Nat} (a b : BitVec n) : ((a - b).toNat : Int) = (a.toNat - b.toNat : Int) % 2 ^ n := by
  have below := b.isLt.le
  rw [BitVec.toNat_sub, Int.natCast_emod, Int.natCast_add, Int.natCast_sub below, Int.natCast_pow, Int.cast_ofNat_Int,
    show (2 ^ n - b.toNat + a.toNat : Int) = a.toNat - b.toNat + 2 ^ n by ring, Int.add_emod_right]

/-- R47 over the low `n` bits of two words: the distance modulo 2^n lies in the lower half. -/
theorem newer_setWidth_iff (n : Nat) (a b : W64) : newer (a.setWidth n) (b.setWidth n) = true ↔
    1 ≤ (a.toNat - b.toNat : Int) % 2 ^ n ∧ (a.toNat - b.toNat : Int) % 2 ^ n ≤ 2 ^ (n - 1) - 1 := by
  have distance : ((a.setWidth n - b.setWidth n).toNat : Int) = (a.toNat - b.toNat : Int) % 2 ^ n := by
    rw [toNat_sub_eq_emod, BitVec.toNat_setWidth, BitVec.toNat_setWidth, Int.natCast_emod, Int.natCast_emod, Int.natCast_pow,
      Int.cast_ofNat_Int, ← Int.sub_emod]
  rw [← distance, newer, Bool.and_eq_true, decide_eq_true_eq, decide_eq_true_eq]
  have : 0 < 2 ^ (n - 1) := Nat.two_pow_pos _
  zify [this]

theorem Cond.eval_iff (c : Cond) (a b : W64) : c.eval a b = true ↔ condHolds c a b := by
  cases c with
  | eq | ne => simp [Cond.eval, condHolds]
  | lt => simp [Cond.eval, condHolds, BitVec.slt]
  | le => simp [Cond.eval, condHolds, BitVec.sle]
  | ltu => simp [Cond.eval, condHolds, BitVec.ult]
  | leu => simp [Cond.eval, condHolds, BitVec.ule]
  | nw32 => exact newer_setWidth_iff 32 a b
  | nw16 => exact newer_setWidth_iff 16 a b

theorem aluReg_writesReg {c : Instr} {op : AluOp} {s : State} {f : Fin 16} {w : TWord} (meaning : exec c s = .next (aluReg op f w s))
    (ready : FlowReady s f [w.ra, w.rb, w.rd]) (form : FormOk s f w 0 0#32) :
    WritesReg c s f w (aluValue op ((s.flow f).reg w.ra) ((s.flow f).reg w.rb)) := by
  have writes := writesReg_of_local meaning ready form (by simp)
  rwa [State.taken_reg, State.taken_reg, ← aluValue_eq_eval] at writes

theorem aluImm_writesReg {c : Instr} {op : AluOp} {s : State} {f : Fin 16} {w : TWord} (meaning : exec c s = .next (aluImm op f w s))
    (ready : FlowReady s f [w.ra, w.rd]) (form : FormOk s f w 0 0xFFFFFFFF#32) :
    WritesReg c s f w (aluValue op ((s.flow f).reg w.ra) (BitVec.ofInt 64 w.imm.toInt)) := by
  have writes := writesReg_of_local meaning ready form (by simp)
  rwa [State.taken_reg, ← aluValue_eq_eval] at writes

/-- Settles O8: each instruction of the lists is `aluReg` or `aluImm` with its function. -/
theorem aluInstructions : Obligations.AluInstructions := by
  intro f w s
  refine ⟨fun ready form q member => aluReg_writesReg ?_ ready form, fun ready form q member => aluImm_writesReg ?_ ready form⟩
  all_goals
    simp only [List.mem_cons, List.not_mem_nil, or_false] at member
    rcases member with rfl | rfl | rfl | rfl | rfl | rfl | rfl | rfl | rfl | rfl | rfl <;> rfl

/-! ### Comparisons (R76) -/

theorem badPredDest_eq_false {r : BitVec 5} (nonzero : r ≠ 0#5) (inside : r.toNat < 8) : badPredDest r = false := by
  simp [badPredDest, badPred, nonzero, inside]

theorem cmpReg_writesPred {c : Instr} {k : Cond} {s : State} {f : Fin 16} {w : TWord} (meaning : exec c s = .next (cmpReg k f w s))
    (nonzero : w.rd ≠ 0#5) (inside : w.rd.toNat < 8) (ready : FlowReady s f [w.ra, w.rb]) (form : FormOk s f w 0 0#32) :
    WritesPred c s f w (condHolds k ((s.flow f).reg w.ra) ((s.flow f).reg w.rb)) :=
  writesPred_of_local meaning ready form (by simp [badPredDest_eq_false nonzero inside]) nonzero inside
    (by rw [State.taken_reg, State.taken_reg, Cond.eval_iff])

theorem cmpImm_writesPred {c : Instr} {k : Cond} {s : State} {f : Fin 16} {w : TWord} (meaning : exec c s = .next (cmpImm k f w s))
    (nonzero : w.rd ≠ 0#5) (inside : w.rd.toNat < 8) (ready : FlowReady s f [w.ra]) (form : FormOk s f w 0 0xFFFFFFFF#32) :
    WritesPred c s f w (condHolds k ((s.flow f).reg w.ra) (BitVec.ofInt 64 w.imm.toInt)) :=
  writesPred_of_local meaning ready form (by simp [badPredDest_eq_false nonzero inside]) nonzero inside
    (by rw [State.taken_reg, Cond.eval_iff, TWord.simm_eq_ofInt])

/-- Settles O9: each comparison of the lists is `cmpReg` or `cmpImm` with its condition. -/
theorem comparisons : Obligations.Comparisons := by
  intro f w s least most
  have nonzero : w.rd ≠ 0#5 := fun h => by simp [h] at least
  have inside : w.rd.toNat < 8 := by omega
  refine ⟨fun ready form q member => cmpReg_writesPred ?_ nonzero inside ready form,
    fun ready form q member => cmpImm_writesPred ?_ nonzero inside ready form⟩
  all_goals
    simp only [List.mem_cons, List.not_mem_nil, or_false] at member
    rcases member with rfl | rfl | rfl | rfl | rfl | rfl | rfl | rfl <;> rfl

/-! ### Immediates, FLOW.STATE and NOP (R75) -/

/-- LIH's value: IMM above, the low half of the register below. -/
theorem toNat_append_setWidth (hi : BitVec 32) (lo : W64) :
    (hi ++ lo.setWidth 32 : BitVec 64).toNat = hi.toNat * 2 ^ 32 + lo.toNat % 2 ^ 32 := by
  rw [BitVec.toNat_append, BitVec.toNat_setWidth, ← Nat.shiftLeft_add_eq_or_of_lt (Nat.mod_lt _ (by decide)), Nat.shiftLeft_eq]

/-- OBJ names flow `g`. -/
theorem objFlow_taken {s : State} {f g : Fin 16} {w : TWord} (names : ((s.flow f).obj w).toNat = g.val) :
    objFlow (s.taken f) f w = g := by
  rw [objFlow, State.taken_obj, names]
  exact Fin.ofNat_val_eq_self g

theorem liX_writesReg {s : State} {f : Fin 16} {w : TWord} (ready : FlowReady s f [w.rd]) (form : FormOk s f w 1 0#32) :
    WritesReg (.liX f w) s f w (w.ext.getD 0 0#64) :=
  writesReg_of_local (v := fun _ => w.x 0) rfl ready form (by simp)

theorem flowState_writesReg {s : State} {f g : Fin 16} {w : TWord} (ready : FlowReady s f [w.ra, w.rd]) (form : FormOk s f w 0 0x7F#32)
    (names : ((s.flow f).obj w).toNat = g.val) : WritesReg (.flowState f w) s f w (flowCode (s.taken f) g) := by
  have fine : badFlow (s.taken f) f w false = false := by
    simp only [badFlow, State.taken_obj, names, Bool.false_and, Bool.or_false, decide_eq_false_iff_not, not_le, g.isLt]
  have writes := writesReg_of_local (c := .flowState f w) (v := fun s => flowCode s (objFlow s f w)) rfl ready form (by simp [fine])
  rwa [objFlow_taken names] at writes

/-- The flow that executes FLOW.STATE is in RUNNING; any other is as it was. -/
theorem flowCode_taken (s : State) (f g : Fin 16) :
    flowCode (s.taken f) g = ((if g = f then FlowState.running else (s.flow g).state).code).setWidth 64 := by
  by_cases same : g = f
  · subst same
    rw [flowCode, State.flow_taken, if_pos rfl]
  · rw [flowCode, State.flow_taken_ne s same, if_neg same]

/-- Settles O10: each writes its value into RD; the halves of LIH are those of the concatenation. -/
theorem immediatesAndFlowState : Obligations.ImmediatesAndFlowState := by
  intro f w s
  refine ⟨fun ready form => ⟨writesReg_of_local (v := fun _ => w.simm) rfl ready form (by simp), ?_⟩,
    liX_writesReg, fun ready form g names => ?_, fun ready form => ?_⟩
  · have lih := writesReg_of_local (c := .lih f w) (v := fun s => w.imm ++ ((s.flow f).reg w.rd).setWidth 32) rfl ready form
      (by simp)
    rw [State.taken_reg] at lih
    have value := toNat_append_setWidth w.imm ((s.flow f).reg w.rd)
    exact ⟨_, lih, by omega, by omega⟩
  · have writes := flowState_writesReg ready form names
    rw [flowCode_taken] at writes
    generalize (if g = f then FlowState.running else (s.flow g).state) = state at writes ⊢
    cases state <;> exact writes
  · obtain ⟨retires, kept⟩ := State.retireOk_keepsRegs s (s.taken f) f w 0#64 [] ready rfl
    refine ⟨_, ?_, State.retireOk_onlyFlow s f w _ _, retires, kept⟩
    exact congrArg _ (State.local_run s f _ _ w 0#4 _ [] _ _ ready form (by simp))

end Sys2Proof.Machine
end

section
/-! SUPPORT. Loads and stores (R5, R75, R77), and the local instructions that retire without effect (R57, R60, R77, R467). -/
namespace Sys2Proof.Machine

/-! ### Bytes of a number (R5) -/

theorem memNat_div_mod (m : List Host.Cell) (a n i : Nat) :
    memNat m a n / 256 ^ i % 256 = if i < n then (memRead m (a + i)).toNat else 0 := by
  induction n generalizing a i with
  | zero => simp [memNat]
  | succ n ih =>
    have byte := (memRead m a).isLt
    cases i with
    | zero => simp only [memNat, pow_zero, Nat.div_one, Nat.add_mul_mod_self_left, Nat.zero_lt_succ, if_true, Nat.add_zero]; omega
    | succ j =>
      have high : ((memRead m a).toNat + 256 * memNat m (a + 1) n) / 256 = memNat m (a + 1) n := by omega
      rw [memNat, pow_succ', ← Nat.div_div_eq_div_mul, high, ih, Nat.add_right_comm a 1 j, Nat.add_assoc a j 1]
      simp

theorem memNat_lt (m : List Host.Cell) (a n : Nat) : memNat m a n < 256 ^ n := by
  induction n generalizing a with
  | zero => simp [memNat]
  | succ n ih =>
    have byte := (memRead m a).isLt
    have rest := ih (a + 1)
    rw [memNat, pow_succ']
    omega

theorem toNat_extractLsb'_byte {k : Nat} (v : BitVec k) (i : Nat) :
    (BitVec.extractLsb' (8 * i) 8 v).toNat = v.toNat / 256 ^ i % 256 := by
  rw [BitVec.extractLsb'_toNat, Nat.shiftRight_eq_div_pow, Nat.pow_mul]

theorem natBytes_getElem (v n i : Nat) (h : i < (natBytes v n).length) : (natBytes v n)[i] = BitVec.ofNat 8 (v / 256 ^ i) := by
  induction n generalizing v i with
  | zero => simp [natBytes] at h
  | succ n ih =>
    cases i with
    | zero => simp [natBytes]
    | succ j =>
      simp only [natBytes, List.length_cons, List.getElem_cons_succ] at h ⊢
      rw [ih, Nat.div_div_eq_div_mul, pow_succ']

/-! ### Loads and stores -/

/-- A register that holds the number of `n` bytes holds those bytes, least significant first, and zeros above. -/
theorem extractLsb'_of_memNat {m : List Host.Cell} {a n : Nat} {v : W64} (value : v.toNat = memNat m a n) (i : Nat) :
    BitVec.extractLsb' (8 * i) 8 v = if i < n then memRead m (a + i) else 0#8 := by
  refine BitVec.eq_of_toNat_eq ?_
  rw [toNat_extractLsb'_byte, value, memNat_div_mod]
  split <;> rfl

theorem State.rd64_toNat (s : State) (a : Nat) : (s.rd64 a).toNat = memNat s.mem a 8 :=
  Nat.mod_eq_of_lt (memNat_lt s.mem a 8)

theorem State.rd32_toNat (s : State) (a : Nat) : (s.rd32 a).toNat = memNat s.mem a 4 :=
  Nat.mod_eq_of_lt (memNat_lt s.mem a 4)

theorem sharedOk_iff (a : W64) (size : Nat) : sharedOk a size = true ↔
    Config.sharedBase ≤ a.toNat ∧ a.toNat + size ≤ Config.sharedBase + 8 * Config.sharedWords ∧ a.toNat % size = 0 := by
  simp [sharedOk, and_assoc]

section
variable {c : Instr} {s : State} {f : Fin 16} {opc : BitVec 8} {fn : BitVec 4} {w : TWord} {mask : BitVec 32}

theorem badShared_taken {size : Nat} (placed : sharedOk ((s.flow f).addr w) size = true) :
    ∀ b ∈ [(!sharedOk (((s.taken f).flow f).addr w) size, Status.badOperand)], b.1 = false := by
  simp only [State.taken_addr, placed, List.mem_singleton, forall_eq, Bool.not_true]

/-- A store of the `n` low bytes of a word at the instruction's address. -/
theorem store_writes {value : State → Nat} {n : Nat}
    (meaning : exec c s = .next (s.local_ f opc fn w 0#4 mask [w.ra, w.rb]
      (fun u => [(!sharedOk ((u.flow f).addr w) n, .badOperand)]) fun u =>
        ({ u with mem := memWriteList u.mem ((u.flow f).addr w).toNat (natBytes (value u) n) } : State).retireOk f w 0#64 id))
    (ready : FlowReady s f [w.ra, w.rb]) (form : FormOk s f w 0 mask) (placed : sharedOk ((s.flow f).addr w) n = true)
    (wf : Memory.wf s.mem = true) (v : W64) (low : ∀ i < n, value (s.taken f) / 256 ^ i % 256 = v.toNat / 256 ^ i % 256) :
    ∃ t, exec c s = .next t ∧ OnlyFlow { s with mem := t.mem } t f ∧ Retires s t f w 0#64 ∧ RegsKept s t f ∧
      (∀ i < n, memRead t.mem (((s.flow f).addr w).toNat + i) = BitVec.extractLsb' (8 * i) 8 v) ∧
      (∀ x, x < ((s.flow f).addr w).toNat ∨ ((s.flow f).addr w).toNat + n ≤ x → memRead t.mem x = memRead s.mem x) := by
  rw [State.local_run s f opc fn w 0#4 mask _ _ _ ready form (badShared_taken placed)] at meaning
  obtain ⟨retires, kept⟩ := State.retireOk_keepsRegs s
    { s.taken f with mem := memWriteList s.mem (((s.taken f).flow f).addr w).toNat (natBytes (value (s.taken f)) n) } f w 0#64 _ ready rfl
  rw [State.taken_addr] at *
  refine ⟨_, meaning, State.retireOk_onlyFlow { s with mem := _ } f w _ _, retires, kept, fun i small => ?_, fun x apart => ?_⟩
  · refine (memRead_memWriteList_inside _ _ _ i wf (by rwa [natBytes_length])).trans (BitVec.eq_of_toNat_eq ?_)
    rw [natBytes_getElem, BitVec.toNat_ofNat, toNat_extractLsb'_byte]
    exact low i small
  · exact memRead_memWriteList_outside _ _ _ x wf (by rwa [natBytes_length])

end

/-- Settles O11: loads and stores of 8 and of 4 bytes. -/
theorem loadsAndStores : Obligations.LoadsAndStores := by
  intro f w s a n size low high aligned form
  simp only [List.mem_cons, List.not_mem_nil, or_false] at size
  rcases size with rfl | rfl
  · have placed : sharedOk ((s.flow f).addr w) 4 = true := (sharedOk_iff _ _).mpr ⟨low, high, aligned⟩
    refine ⟨fun ready => ⟨_, writesReg_of_local (c := .ld32 f w)
      (v := fun s => (s.rd32 ((s.flow f).addr w).toNat).setWidth 64) rfl ready form (badShared_taken placed), ?_⟩, fun ready wf => ?_⟩
    · refine fun i _ => extractLsb'_of_memNat ?_ i
      rw [BitVec.toNat_setWidth_of_le (by decide), State.rd32_toNat, State.taken_addr]
      rfl
    · refine store_writes (c := .st32 f w) (value := fun s => (((s.flow f).reg w.rb).setWidth 32).toNat) rfl ready form placed wf _ ?_
      intro i small
      rw [State.taken_reg, BitVec.toNat_setWidth, show 2 ^ 32 = 256 ^ i * 256 ^ (4 - i) by rw [← pow_add, Nat.add_sub_cancel' small.le]; rfl,
        Nat.mod_mul_right_div_self, Nat.mod_mod_of_dvd]
      exact dvd_pow_self 256 (by omega)
  · have placed : sharedOk ((s.flow f).addr w) 8 = true := (sharedOk_iff _ _).mpr ⟨low, high, aligned⟩
    refine ⟨fun ready => ⟨_, writesReg_of_local (c := .ld f w) (v := fun s => s.rd64 ((s.flow f).addr w).toNat) rfl ready form
      (badShared_taken placed), fun i _ => extractLsb'_of_memNat ?_ i⟩, fun ready wf => ?_⟩
    · rw [State.rd64_toNat, State.taken_addr]
      rfl
    · refine store_writes (c := .st f w) (value := fun s => ((s.flow f).reg w.rb).toNat) rfl ready form placed wf _ fun i _ => ?_
      rw [State.taken_reg]

/-! ### Illegal forms -/

theorem FlowReady.of_subset {s : State} {f : Fin 16} {uses less : List (BitVec 5)} (ready : FlowReady s f uses) (sub : less ⊆ uses) :
    FlowReady s f less := by
  obtain ⟨takes, free, noAbort, runs⟩ := ready
  refine ⟨takes, ?_, noAbort, runs⟩
  rw [List.any_eq_false] at free ⊢
  exact fun r member => free r (sub member)

theorem local_retiresBad {c : Instr} {s : State} {f : Fin 16} {opc : BitVec 8} {fn : BitVec 4} {w : TWord} {xw : BitVec 4}
    {mask : BitVec 32} {uses less : List (BitVec 5)} {bad : State → List (Bool × Status)} {run : State → State}
    (meaning : exec c s = .next (s.local_ f opc fn w xw mask less bad run)) (ready : FlowReady s f uses) (sub : less ⊆ uses)
    (faulty : w.xw ≠ xw ∨ w.imm &&& ~~~mask ≠ 0#32 ∨ (true, Status.badOperand) ∈ bad (s.taken f)) :
    ∃ t, exec c s = .next t ∧ OnlyFlow s t f ∧ RetiresBad s t f w .badOperand :=
  ⟨_, by rw [meaning, State.local_badOperand s f opc fn w xw mask less bad run (ready.of_subset sub) faulty],
    State.retireBad_spec s f w _ _ _ _ _ uses ready (by decide) rfl (by decide)⟩

theorem badPredDest_of_outside {r : BitVec 5} (outside : r.toNat = 0 ∨ 8 ≤ r.toNat) : badPredDest r = true := by
  rcases outside with zero | big
  · simp [badPredDest, BitVec.eq_of_toNat_eq (y := 0#5) zero]
  · simp [badPredDest, badPred, big]

/-- Settles O12: each illegal form is a faulty condition of its instruction. -/
theorem illegalLocalInstructions : Obligations.IllegalLocalInstructions := by
  intro f w s ready retires
  refine ⟨fun opc fn => ?_, fun bad => local_retiresBad rfl ready (by simp) ?_, fun bad => local_retiresBad rfl ready (by simp) ?_,
    fun bad => ?_, fun bad => local_retiresBad rfl ready (by simp) ?_⟩
  · exact ⟨_, congrArg Host.Outcome.next (State.take_run s f opc fn w [] _ (ready.of_subset (by simp))),
      State.retireBad_spec s f w .badOpcode _ _ _ _ _ ready (by decide) rfl (by decide)⟩
  · rcases bad with imm | ext
    · exact .inr (.inl (by rwa [show ~~~0#32 = BitVec.allOnes 32 from rfl, BitVec.and_allOnes]))
    · exact .inl ext
  · exact .inr (.inr (by simp [badPredDest_of_outside bad]))
  · have misplaced : sharedOk ((s.flow f).addr w) 8 = false := by
      rw [← Bool.not_eq_true, sharedOk_iff]
      omega
    have faulty : (true, Status.badOperand) ∈ [(!sharedOk (((s.taken f).flow f).addr w) 8, Status.badOperand)] := by
      rw [State.taken_addr, misplaced]
      exact List.mem_singleton_self _
    exact ⟨local_retiresBad rfl ready (by simp) (.inr (.inr faulty)), local_retiresBad rfl ready (by simp) (.inr (.inr faulty))⟩
  · have target : badTarget (branchTarget ((s.taken f).flow f) w) = true := by
      rw [branchTarget, State.taken_pc]
      simpa [badTarget] using bad
    exact .inr (.inr (by simp [target, -State.flow_taken]))

end Sys2Proof.Machine
end

section
/-! SUPPORT. Branches and END (R52, R75, R467). -/
namespace Sys2Proof.Machine

/-- The flow after an instruction that completes with OK and goes on at word `p` with the registers `regs`. -/
def FlowS.wentTo (fl : FlowS) (cq : Bool) (p : Nat) (result : W64) (regs : Vector W64 32) : FlowS :=
  { fl with
    t := regs, pc := BitVec.ofNat 21 p, state := .running, lastStatus := .ok
    posts := fl.posts ++ (if cq then [okEntry fl result] else []) }

theorem mustPost_ok (cq : Bool) : mustPost cq .ok = cq := by simp [mustPost, Status.took, Status.code]

theorem FlowS.complete_ok (fl : FlowS) (cq : Bool) (result : W64) :
    fl.complete cq .ok 0#8 result =
      { fl with lastStatus := .ok, posts := fl.posts ++ (if cq then [okEntry fl result] else []) } := by
  rw [FlowS.complete_spec, mustPost_ok]
  cases cq
  · simp
  · rfl

theorem FlowS.setReg_t_congr {fl fl' : FlowS} (same : fl.t = fl'.t) (r : BitVec 5) (v : W64) : (fl.setReg r v).t = (fl'.setReg r v).t := by
  unfold FlowS.setReg
  split
  · exact same
  · exact congrArg (fun t => t.set r.toNat v) same

section
variable {c : Instr} {s : State} {f : Fin 16} {w : TWord}

theorem State.branchTo_taken (p : Nat) (result : W64) {g : FlowS → FlowS} {regs : Vector W64 32}
    (sets : g ((s.taken f).flow f) = { (s.taken f).flow f with t := regs }) :
    OnlyFlow s ((s.taken f).branchTo f w p result g) f ∧
      ((s.taken f).branchTo f w p result g).flow f = (s.flow f).wentTo w.cq p result regs := by
  refine ⟨⟨rfl, rfl, rfl, fun g ne => ?_⟩, ?_⟩
  · rw [State.branchTo, State.flow_modFlow_ne _ _ ne, State.flow_taken_ne s ne]
  · rw [State.branchTo, State.flow_modFlow_same, sets, FlowS.complete_ok, State.flow_taken]
    rfl

/-- Retiring with OK inside the programme goes on at the next word. -/
theorem State.retireOk_taken (length : w.xw.toNat = 0) (inside : (s.flow f).pc.toNat + 1 ≤ (s.flow f).lastWord) :
    ((s.taken f).retireOk f w 0#64 id).flow f = (s.flow f).wentTo w.cq ((s.flow f).pc.toNat + 1) 0#64 (s.flow f).t := by
  rw [State.retireOk, State.flow_modFlow_same, id, FlowS.complete_ok, State.flow_taken, FlowS.advance_in _ _ (by rwa [length])]
  simp only [length, Nat.add_zero]
  rfl

theorem badTarget_eq_false {p : Nat} (inside : p < Config.sharedWords) : badTarget (p : Int) = false := by
  simp [badTarget, inside]

/-- A relative branch of legal form goes to its target or to the next word. -/
theorem relBranch_goes {fn : BitVec 4} {bad : Bool} {take : FlowS → Bool} {p : Nat}
    (meaning : exec c s = .next (relBranch f fn w bad take s)) (form : FormOk s f w 0 0xFFFFFFFF#32) (ready : FlowReady s f [])
    (target : (p : Int) = (s.flow f).pc.toNat + w.imm.toInt) (placed : p < Config.sharedWords) (fine : bad = false)
    (sameTake : take ((s.taken f).flow f) = take (s.flow f))
    (inside : take (s.flow f) = false → (s.flow f).pc.toNat + 1 ≤ (s.flow f).lastWord) :
    ∃ t, exec c s = .next t ∧ OnlyFlow s t f ∧ t.flow f =
      (s.flow f).wentTo w.cq (if take (s.flow f) then p else (s.flow f).pc.toNat + 1) 0#64 (s.flow f).t := by
  have at_ : branchTarget ((s.taken f).flow f) w = p := by rw [branchTarget, State.taken_pc, target]
  rw [relBranch, State.local_run s f _ fn w 0#4 _ _ _ _ ready form
    (by simp only [at_, badTarget_eq_false placed, fine, List.mem_cons, List.not_mem_nil]; simp)] at meaning
  refine ⟨_, meaning, ?_⟩
  rw [sameTake, at_, Int.toNat_natCast]
  cases takes : take (s.flow f)
  · exact ⟨State.retireOk_onlyFlow s f w _ _, State.retireOk_taken form.1 (inside takes)⟩
  · exact State.branchTo_taken p 0#64 (by rw [State.flow_taken]; rfl)

/-- What the obligation says of a branch that writes no register, from the flow it leaves. -/
theorem wentTo_keeps {t : State} {p : Nat} (ran : exec c s = .next t) (only : OnlyFlow s t f)
    (went : t.flow f = (s.flow f).wentTo w.cq p 0#64 (s.flow f).t) (other : c ≠ .brLink f w) :
    ∃ t, exec c s = .next t ∧ OnlyFlow s t f ∧ (t.flow f).pc = BitVec.ofNat 21 p ∧
      (t.flow f).prog = (s.flow f).prog ∧ (t.flow f).lastStatus = .ok ∧ (t.flow f).state = .running ∧ (t.flow f).p = (s.flow f).p ∧
      (t.flow f).ops = (s.flow f).ops ∧ (t.flow f).posts = (s.flow f).posts ++
        (if w.cq then [okEntry (s.flow f) (if c = .brLink f w then BitVec.ofNat 64 ((s.flow f).pc.toNat + 1) else 0#64)] else []) ∧
      (∀ r, r ≠ w.rd → (t.flow f).reg r = (s.flow f).reg r) ∧
      (c = .brLink f w → (t.flow f).reg w.rd = if w.rd = 0#5 then 0#64 else BitVec.ofNat 64 ((s.flow f).pc.toNat + 1)) ∧
      (c ≠ .brLink f w → (t.flow f).t = (s.flow f).t) := by
  refine ⟨t, ran, only, ?_⟩
  rw [went, if_neg other]
  exact ⟨rfl, rfl, rfl, rfl, rfl, rfl, rfl, fun _ _ => rfl, fun same => absurd same other, fun _ => rfl⟩

theorem brReg_goes (form : FormOk s f w 0 0#32) (ready : FlowReady s f [w.ra])
    (placed : ((s.flow f).reg w.ra).toNat % 2 ^ 21 < Config.sharedWords) :
    ∃ t, exec (.brReg f w) s = .next t ∧ OnlyFlow s t f ∧
      t.flow f = (s.flow f).wentTo w.cq (((s.flow f).reg w.ra).toNat % 2 ^ 21) 0#64 (s.flow f).t := by
  have at_ : (((((s.taken f).flow f).reg w.ra).setWidth 21).toNat : Nat) = ((s.flow f).reg w.ra).toNat % 2 ^ 21 := by
    rw [State.taken_reg, BitVec.toNat_setWidth]
  refine ⟨_, congrArg Host.Outcome.next (State.local_run s f _ _ w 0#4 _ _ _ _ ready form ?_), ?_⟩
  · simp only [at_, badTarget_eq_false placed, List.mem_singleton, forall_eq]
  · rw [at_]
    exact State.branchTo_taken _ _ (by rw [State.flow_taken]; rfl)

theorem brLink_goes {p : Nat} (form : FormOk s f w 0 0xFFFFFFFF#32) (ready : FlowReady s f [w.rd])
    (target : (p : Int) = (s.flow f).pc.toNat + w.imm.toInt) (placed : p < Config.sharedWords) :
    let link := BitVec.ofNat 64 ((s.flow f).pc.toNat + 1)
    ∃ t, exec (.brLink f w) s = .next t ∧ OnlyFlow s t f ∧
      t.flow f = (s.flow f).wentTo w.cq p link ((s.flow f).setReg w.rd link).t := by
  intro link
  have at_ : branchTarget ((s.taken f).flow f) w = p := by rw [branchTarget, State.taken_pc, target]
  refine ⟨_, congrArg Host.Outcome.next (State.local_run s f _ _ w 0#4 _ _ _ _ ready form ?_), ?_⟩
  · simp only [at_, badTarget_eq_false placed, List.mem_singleton, forall_eq]
  · rw [at_, State.taken_pc]
    refine State.branchTo_taken p link ?_
    rw [FlowS.setReg_spec, FlowS.setReg_t_congr (fl' := s.flow f) (by rw [State.flow_taken])]

theorem endProg_ends (form : FormOk s f w 0 0#32) (ready : FlowReady s f [w.ra]) :
    ∃ t, exec (.endProg f w) s = .next t ∧ OnlyFlow s t f ∧ RegsKept s t f ∧ (t.flow f).ops = (s.flow f).ops ∧
      (t.flow f).prog = none ∧
      (t.flow f).state = .idle ∧ (t.flow f).lastStatus = .ok ∧
      (t.flow f).posts = (s.flow f).posts ++ [okEntry (s.flow f) ((s.flow f).reg w.ra)] := by
  have ends : ((s.taken f).modFlow f fun fl => fl.endProgramme .ok fl.pc (fl.reg w.ra)).flow f = { s.flow f with
      posts := (s.flow f).posts ++ [okEntry (s.flow f) ((s.flow f).reg w.ra)], prog := none, lastStatus := .ok, wait := none
      state := .idle } := by
    rw [State.flow_modFlow_same, State.flow_taken, FlowS.endProgramme_idle _ _ _ _ (State.taken_idle s f ready.2.2.2)]
    rfl
  refine ⟨_, congrArg Host.Outcome.next (State.local_run s f _ _ w 0#4 _ _ _ _ ready form (by simp)),
    ⟨rfl, rfl, rfl, fun g ne => ?_⟩, ?_⟩
  · rw [State.flow_modFlow_ne _ _ ne, State.flow_taken_ne s ne]
  · rw [RegsKept, ends]
    exact ⟨⟨rfl, rfl⟩, rfl, rfl, rfl, rfl, rfl⟩

end

/-- Settles O13: the relative branches by `relBranch_goes`, then BR.LINK, BR.REG and END. -/
theorem branches : Obligations.Branches := by
  intro f w s fl goes
  refine ⟨fun p target placed form => ⟨fun ready => ⟨?_, fun small inside => ⟨?_, ?_⟩⟩, fun ready => ?_⟩, fun form ready =>
    ⟨fun placed => ?_, endProg_ends form ready⟩⟩
  · obtain ⟨t, ran, only, went⟩ := relBranch_goes (c := .br f w) rfl form ready target placed rfl rfl (by simp)
    exact wentTo_keeps ran only went (by simp)
  · have fine : badPred w.rb = false := by simpa [badPred] using small
    obtain ⟨t, ran, only, went⟩ := relBranch_goes (c := .brT f w) rfl form ready target placed fine (State.taken_pred s f w.rb)
      fun _ => inside
    exact wentTo_keeps ran only went (by simp)
  · have fine : badPred w.rb = false := by simpa [badPred] using small
    obtain ⟨t, ran, only, went⟩ := relBranch_goes (c := .brF f w) rfl form ready target placed fine
      (congrArg not (State.taken_pred s f w.rb)) fun _ => inside
    refine wentTo_keeps ran only (went.trans ?_) (by simp)
    cases (s.flow f).pred w.rb <;> rfl
  · obtain ⟨t, ran, only, went⟩ := brLink_goes form ready target placed
    refine ⟨t, ran, only, ?_⟩
    have reg (r : BitVec 5) : (t.flow f).reg r =
        ((s.flow f).setReg w.rd (BitVec.ofNat 64 ((s.flow f).pc.toNat + 1))).reg r := by rw [went]; rfl
    refine ⟨by rw [went]; rfl, by rw [went]; rfl, by rw [went]; rfl, by rw [went]; rfl, by rw [went]; rfl, by rw [went]; rfl,
      by rw [went, if_pos rfl]; rfl, fun r other => ?_, fun _ => ?_, fun differs => absurd rfl differs⟩
    · rw [reg, FlowS.reg_setReg, if_neg other]
      split
      · next zero => rw [zero]; rfl
      · rfl
    · rw [reg, FlowS.reg_setReg, if_pos rfl]
  · obtain ⟨t, ran, only, went⟩ := brReg_goes form ready placed
    exact wentTo_keeps ran only went (by simp)

end Sys2Proof.Machine
end

section
/-! SUPPORT. Waits, and words that retire unexecuted (R54, R63, R64, R67, R68, R70, R71, R75, R78). -/
namespace Sys2Proof.Machine

/-! ### Beginning and ending a wait -/

theorem State.beginWait_taken (s : State) (f : Fin 16) (w : TWord) (x : WaitCond) :
    OnlyFlow s ((s.taken f).beginWait f w x) f ∧
      ((s.taken f).beginWait f w x).flow f = { s.flow f with state := .waiting, wait := some x, waitCq := w.cq } := by
  refine ⟨⟨rfl, rfl, rfl, fun g ne => ?_⟩, ?_⟩
  · rw [State.beginWait, State.flow_modFlow_ne _ _ ne, State.flow_taken_ne s ne]
  · rw [State.beginWait, State.flow_modFlow_same, State.flow_taken]

/-- A change of one flow under its core's clock. -/
theorem State.coreClock_modFlow_onlyFlow (s : State) (f : Fin 16) (g : FlowS → FlowS) : OnlyFlow s ((s.coreClock f).modFlow f g) f :=
  ⟨rfl, rfl, rfl, fun k ne => by rw [State.flow_modFlow_ne _ _ ne, State.flow_coreClock]⟩

section
variable {c : Instr} {s : State} {f : Fin 16} {opc : BitVec 8} {fn : BitVec 4} {w : TWord} {mask : BitVec 32}
  {uses : List (BitVec 5)} {bad : State → List (Bool × Status)} {run : State → State} {x : WaitCond}

/-- A local instruction without fault that does nothing but retire. -/
theorem local_retires (meaning : exec c s = .next (s.local_ f opc fn w 0#4 mask uses bad run)) (ready : FlowReady s f uses)
    (form : FormOk s f w 0 mask) (fine : ∀ b ∈ bad (s.taken f), b.1 = false)
    (retires : run (s.taken f) = (s.taken f).retireOk f w 0#64 id) :
    ∃ t, exec c s = .next t ∧ OnlyFlow s t f ∧ Retires s t f w 0#64 ∧ RegsKept s t f :=
  ⟨_, by rw [meaning, State.local_run s f opc fn w 0#4 mask uses bad run ready form fine, retires],
    State.retireOk_onlyFlow s f w _ _, State.retireOk_keepsRegs s (s.taken f) f w 0#64 uses ready rfl⟩

/-- A local instruction without fault that begins a wait. -/
theorem local_waits (meaning : exec c s = .next (s.local_ f opc fn w 0#4 mask uses bad run)) (ready : FlowReady s f uses)
    (form : FormOk s f w 0 mask) (fine : ∀ b ∈ bad (s.taken f), b.1 = false)
    (begins : run (s.taken f) = (s.taken f).beginWait f w x) :
    ∃ t, exec c s = .next t ∧ OnlyFlow s t f ∧ t.flow f = { s.flow f with state := .waiting, wait := some x, waitCq := w.cq } :=
  ⟨_, by rw [meaning, State.local_run s f opc fn w 0#4 mask uses bad run ready form fine, begins], State.beginWait_taken s f w x⟩

end

theorem FlowS.advance_wait {fl : FlowS} (free : fl.wait = none) (xw : BitVec 4) : (fl.advance xw).wait = none := by
  by_cases past : fl.lastWord < fl.pc.toNat + 1 + xw.toNat
  · unfold FlowS.advance
    simp only [past, decide_true, if_true]
    obtain ⟨_, _, _, ends⟩ := FlowS.endProgramme_spec { fl with pc := BitVec.ofNat 21 (fl.lastWord + 1) } _ _ _
    rw [ends]
  · rw [FlowS.advance_in _ _ (Nat.not_lt.mp past), free]

theorem FlowS.endWait_ok (fl : FlowS) :
    let r := fl.endWait .ok
    r.t = fl.t ∧ r.p = fl.p ∧ r.wait = none ∧
      (fl.pc.toNat + 1 ≤ fl.lastWord → r.state = .running ∧ r.lastStatus = .ok ∧ r.pc = BitVec.ofNat 21 (fl.pc.toNat + 1)) ∧
      (fl.aborting = false → fl.lastWord < fl.pc.toNat + 1 → r.state = .idle ∧ r.prog = none) := by
  intro r
  have ran : r = ({ fl with
      wait := none, state := .running, lastStatus := .ok
      posts := fl.posts ++ if fl.waitCq then [okEntry fl 0#64] else [] } : FlowS).advance 0#4 :=
    congrArg (FlowS.advance · 0#4) (FlowS.complete_ok _ _ _)
  refine ⟨by rw [ran, FlowS.advance_t], by rw [ran, FlowS.advance_p], by rw [ran, FlowS.advance_wait rfl], fun inside => ?_,
    fun goesOn past => ?_⟩
  · rw [ran, FlowS.advance_in _ _ (by exact inside)]
    exact ⟨rfl, rfl, rfl⟩
  · rw [ran, FlowS.advance_past _ _ past (by simp [FlowS.idleStatus, goesOn])]
    exact ⟨rfl, rfl⟩

theorem waitComplete_ends {s : State} {f : Fin 16} {x : WaitCond} (waits : (s.flow f).wait = some x) (run : flowsRun s = true)
    (unblocked : compBlocked s f = false) (holds : waitHolds s f x = true) :
    exec (.waitComplete f) s = .next ((s.coreClock f).modFlow f fun fl => fl.endWait .ok) := by
  show execWaitComplete f s = _
  unfold execWaitComplete
  rw [waits]
  exact if_pos (by simp [run, unblocked, holds])

/-! ### WAIT.AXIS (R64) -/

theorem rests_iff (st : AxisState) : st.rests = true ↔ st ∉ [.moving, .homing, .stopping] := by
  cases st <;> decide

theorem waitHolds_axis (s : State) (f : Fin 16) (a : Fin 80) (n : Nat) : waitHolds s f (.axis a n) = true ↔
    ¬((∃ e ∈ s.pend, e.flow = f ∧ e.op < n ∧ a ∈ e.axes) ∨ (s.axis a).state ∈ [.moving, .homing, .stopping]) := by
  rw [waitHolds, Bool.and_eq_true, Bool.not_eq_true', rests_iff, ← Bool.not_eq_true, not_or]
  simp [axisPending, and_assoc]

/-- R78: a target at most 2^30 steps ahead gives no RANGE. -/
theorem farAhead_eq_false {target present : BitVec 32} (near : ¬(newer target present = true ∧ 2 ^ 30 < (target - present).toNat)) :
    farAhead target present = false := by
  simpa [farAhead] using near

section
variable {s : State} {f : Fin 16} {w : TWord}

theorem waitPick_runs (ready : FlowReady s f [w.ra]) (form : FormOk s f w 0 0xFFFFFFFF#32) (running : s.tb.running = true) :
    let target := ((s.flow f).reg w.ra).setWidth 32 + w.imm
    (newer target s.tb.pickNum = false →
      ∃ t, exec (.waitPick f w) s = .next t ∧ OnlyFlow s t f ∧ Retires s t f w 0#64 ∧ RegsKept s t f) ∧
    (newer target s.tb.pickNum = true → (target - s.tb.pickNum).toNat ≤ 2 ^ 30 →
      ∃ t, exec (.waitPick f w) s = .next t ∧ OnlyFlow s t f ∧
        t.flow f = { s.flow f with state := .waiting, wait := some (.pick target), waitCq := w.cq }) := by
  intro target
  have fine (near : farAhead target s.tb.pickNum = false) :
      ∀ b ∈ [(farAhead ((((s.taken f).flow f).reg w.ra).setWidth 32 + w.imm) (s.taken f).tb.pickNum, Status.range),
        (!(s.taken f).tb.running, .state)], b.1 = false := by
    rw [State.taken_reg, show (s.taken f).tb = s.tb from rfl, near, running]
    simp
  refine ⟨fun reached => local_retires rfl ready form (fine (farAhead_eq_false ?_)) ?_, fun ahead near =>
    local_waits rfl ready form (fine (farAhead_eq_false ?_)) ?_⟩
  · exact fun far => absurd far.1 (by simp [reached])
  · dsimp only
    rw [State.taken_reg]
    exact if_neg (ne_true_of_eq_false reached)
  · exact fun far => absurd far.2 (not_lt.mpr near)
  · dsimp only
    rw [State.taken_reg]
    exact if_pos ahead

theorem waitBeat_runs (ready : FlowReady s f []) (form : FormOk s f w 0 0xFFFFFFFF#32) (running : s.tb.running = true) :
    (w.imm = 0#32 → ∃ t, exec (.waitBeat f w) s = .next t ∧ OnlyFlow s t f ∧ Retires s t f w 0#64 ∧ RegsKept s t f) ∧
    (w.imm ≠ 0#32 → w.imm.toNat ≤ 2 ^ 30 →
      ∃ t, exec (.waitBeat f w) s = .next t ∧ OnlyFlow s t f ∧
        t.flow f = { s.flow f with state := .waiting, wait := some (.beat (s.tb.beatNum + w.imm)), waitCq := w.cq }) := by
  have fine (near : w.imm.toNat ≤ 2 ^ 30) :
      ∀ b ∈ [(decide (2 ^ 30 < w.imm.toNat), Status.range), (!(s.taken f).tb.running, .state)], b.1 = false := by
    rw [decide_eq_false (not_lt.mpr near), show (s.taken f).tb = s.tb from rfl, running]
    simp
  exact ⟨fun zero => local_retires rfl ready form (fine (by simp [zero])) (if_pos zero),
    fun some near => local_waits rfl ready form (fine near) (if_neg some)⟩

/-- The sum of WAIT.TIME is taken modulo 2^64 (log 45). -/
theorem waitTime_sum (fl : FlowS) (w : TWord) : (fl.reg w.ra + w.uimm).toNat = ((fl.reg w.ra).toNat + w.imm.toNat) % 2 ^ 64 := by
  rw [BitVec.toNat_add, TWord.uimm, BitVec.toNat_setWidth_of_le (by decide)]

theorem waitTime_runs (ready : FlowReady s f [w.ra]) (form : FormOk s f w 0 0xFFFFFFFF#32) :
    let until_ := (((s.flow f).reg w.ra).toNat + w.imm.toNat) % 2 ^ 64
    (until_ ≤ s.now → ∃ t, exec (.waitTime f w) s = .next t ∧ OnlyFlow s t f ∧ Retires s t f w 0#64 ∧ RegsKept s t f) ∧
    (s.now < until_ → ∃ t, exec (.waitTime f w) s = .next t ∧ OnlyFlow s t f ∧
      t.flow f = { s.flow f with state := .waiting, wait := some (.time until_), waitCq := w.cq }) := by
  refine ⟨fun reached => local_retires rfl ready form (by simp) ?_, fun ahead => local_waits rfl ready form (by simp) ?_⟩
  · dsimp only
    rw [waitTime_sum, State.taken_reg]
    exact if_pos reached
  · dsimp only
    rw [waitTime_sum, State.taken_reg]
    exact if_neg (not_le.mpr ahead)

theorem waitOps_runs (ready : FlowReady s f []) (form : FormOk s f w 0 0#32) :
    ((s.flow f).ops = [] → ∃ t, exec (.waitOps f w) s = .next t ∧ OnlyFlow s t f ∧ Retires s t f w 0#64 ∧ RegsKept s t f) ∧
    ((s.flow f).ops ≠ [] → ∃ t, exec (.waitOps f w) s = .next t ∧ OnlyFlow s t f ∧
      t.flow f = { s.flow f with state := .waiting, wait := some (.ops (s.flow f).nextOp), waitCq := w.cq }) := by
  refine ⟨fun none => local_retires rfl ready form (by simp) ?_, fun some => local_waits rfl ready form (by simp) ?_⟩
  · exact if_pos (by simp [none])
  · rw [State.taken_nextOp]
    exact if_neg (by simpa using some)

theorem waitAxis_runs (ready : FlowReady s f [w.ra]) (form : FormOk s f w 0 0x7F#32) {a : Fin 80}
    (names : ((s.flow f).obj w).toNat = a.val) :
    let x := WaitCond.axis a (s.flow f).nextOp
    (waitHolds s f x = true → ∃ t, exec (.waitAxis f w) s = .next t ∧ OnlyFlow s t f ∧ Retires s t f w 0#64 ∧ RegsKept s t f) ∧
    (waitHolds s f x = false → ∃ t, exec (.waitAxis f w) s = .next t ∧ OnlyFlow s t f ∧
      t.flow f = { s.flow f with state := .waiting, wait := some x, waitCq := w.cq }) := by
  intro x
  have named : ∀ b ∈ [(decide (80 ≤ (((s.taken f).flow f).obj w).toNat), Status.badOperand)], b.1 = false := by
    simp only [State.taken_obj, names, List.mem_singleton, forall_eq, decide_eq_false_iff_not, not_le, a.isLt]
  have axis : Fin.ofNat 80 ((s.flow f).obj w).toNat = a := by rw [names, Fin.ofNat_val_eq_self]
  refine ⟨fun rests => local_retires rfl ready form named ?_, fun still => local_waits rfl ready form named ?_⟩
  · dsimp only
    rw [State.taken_obj, State.taken_nextOp, axis]
    exact if_pos rests
  · dsimp only
    rw [State.taken_obj, State.taken_nextOp, axis]
    exact if_neg (ne_true_of_eq_false still)

end

/-- Settles O14: every wait retires or begins by its condition, and WAIT_COMPLETE ends a wait whose condition holds. -/
theorem waits : Obligations.Waits := by
  intro f w s fl done waits wp wt
  refine ⟨fun form => ⟨fun ready running => waitPick_runs ready form running, fun ready running => waitBeat_runs ready form running,
    fun ready => waitTime_runs ready form⟩, fun form ready => waitOps_runs ready form, fun form ready a names => ?_,
    fun x waiting _ run unblocked holds => ?_⟩
  · obtain ⟨rests, waits⟩ := waitAxis_runs ready form names
    refine ⟨fun none => rests ((waitHolds_axis _ _ _ _).mpr none), fun still => waits ?_⟩
    rw [← Bool.not_eq_true, waitHolds_axis]
    exact not_not_intro still
  · obtain ⟨regs, preds, ended, inside, past⟩ := (s.flow f).endWait_ok
    refine ⟨_, waitComplete_ends waiting run unblocked holds, State.coreClock_modFlow_onlyFlow s f _, ?_⟩
    rw [RegsKept, State.flow_modFlow_same, State.flow_coreClock]
    exact ⟨⟨regs, preds⟩, ended, inside, past⟩

/-! ### Words that retire unexecuted (R68, R70, R71) -/

theorem idleStatus_of {fl : FlowS} {st : Status}
    (skips : fl.aborting = false ∧ fl.state = .fenced ∧ st = .flowFenced ∨
      fl.aborting = false ∧ fl.state = .stopped ∧ st = .aborted ∨
      fl.aborting = true ∧ st = .aborted) : fl.idleStatus = some st := by
  unfold FlowS.idleStatus
  rcases skips with ⟨goesOn, fenced, rfl⟩ | ⟨goesOn, stopped, rfl⟩ | ⟨aborts, rfl⟩
  · simp [goesOn, fenced]
  · simp [goesOn, stopped]
  · simp [aborts]

theorem mustPost_skipped (cq : Bool) {st : Status} (skips : st = .flowFenced ∨ st = .aborted) :
    mustPost cq st = decide (cq = true ∨ st = .aborted) := by
  rcases skips with rfl | rfl <;> cases cq <;> decide

theorem FlowS.skipWord_keeps (fl : FlowS) (st : Status) (opc : BitVec 8) (fn xw : BitVec 4) (cq : Bool) :
    (fl.skipWord st opc fn xw cq).t = fl.t ∧ (fl.skipWord st opc fn xw cq).p = fl.p ∧ (fl.skipWord st opc fn xw cq).ops = fl.ops := by
  unfold FlowS.skipWord
  split
  · obtain ⟨_, _, _, ends⟩ := fl.endProgramme_spec st fl.pc 0#64
    rw [ends]
    exact ⟨rfl, rfl, rfl⟩
  · simp

theorem FlowS.skipWord_in {fl : FlowS} {st : Status} {opc : BitVec 8} {fn xw : BitVec 4} (cq : Bool)
    (other : ¬(opc = 0x00#8 ∧ fn = 1#4)) (inside : fl.pc.toNat + 1 + xw.toNat ≤ fl.lastWord) :
    fl.skipWord st opc fn xw cq = { fl with
      lastStatus := st, pc := BitVec.ofNat 21 (fl.pc.toNat + 1 + xw.toNat)
      posts := if mustPost cq st then fl.posts ++ [{ status := st, instr := fl.pc, result := 0#64 }] else fl.posts } := by
  rw [FlowS.skipWord, if_neg other, FlowS.complete_spec, FlowS.advance_in _ _ (by exact inside)]

/-- Settles O16: END ends the programme, any other word is skipped. -/
theorem fencedFlowsSkip : Obligations.FencedFlowsSkip := by
  intro f opc fn xw cq s st fl takes skips
  have status := idleStatus_of skips
  have ran : exec (.fencedWordRetire f opc fn xw cq) s = .next ((s.coreClock f).modFlow f fun fl => fl.skipWord st opc fn xw cq) := by
    show execFencedWordRetire f opc fn xw cq s = _
    unfold execFencedWordRetire
    rw [if_pos takes, status]
  obtain ⟨regs, preds, ops⟩ := (s.flow f).skipWord_keeps st opc fn xw cq
  refine ⟨_, ran, State.coreClock_modFlow_onlyFlow s f _, ?_⟩
  rw [RegsKept, State.flow_modFlow_same, State.flow_coreClock]
  refine ⟨⟨regs, preds⟩, ops, fun ends => ?_, fun other inside => ?_⟩
  · rw [FlowS.skipWord, if_pos ends]
    obtain ⟨_, _, _, ended⟩ := (s.flow f).endProgramme_spec st (s.flow f).pc 0#64
    rw [ended]
    exact ⟨rfl, rfl⟩
  · have either : st = .flowFenced ∨ st = .aborted := by
      rcases skips with ⟨-, -, h⟩ | ⟨-, -, h⟩ | ⟨-, h⟩
      · exact .inl h
      · exact .inr h
      · exact .inr h
    rw [FlowS.skipWord_in cq other inside, mustPost_skipped cq either]
    refine ⟨rfl, rfl, rfl, rfl, either, ?_⟩
    by_cases posts : cq = true ∨ st = .aborted
    · simp [posts, fl]
    · simp [posts, fl]

end Sys2Proof.Machine
end

section
/-! SUPPORT. Flows that are fenced, resumed and aborted (R67, R69, R71, R78, R83). -/
namespace Sys2Proof.Machine

/-! ### Records, whatever the flows, the clocks and the pair hold -/

/-- A state with other flows, clocks and pair: what an accepted instruction of a flow may touch besides its effect. -/
def State.over (s : State) (tr : Treadle) (cr : Clocks) (pr : Pair) : State := { s with tr := tr, cr := cr, pr := pr }

section
variable (s : State) (tr : Treadle) (cr : Clocks) (pr : Pair)

theorem State.raise_over (v : Fin 64) : (s.over tr cr pr).raise v = (s.raise v).over tr cr pr := by
  unfold State.raise State.over
  dsimp only
  split
  · split <;> rfl
  · rfl

theorem irqWatch_over (v : Fin 64) (level : State → Bool) (u : State) (blind : ∀ x : State, level (x.over tr cr pr) = level x) :
    irqWatch v level (s.over tr cr pr) (u.over tr cr pr) = (irqWatch v level s u).over tr cr pr := by
  unfold irqWatch
  rw [blind, blind]
  split
  · exact u.raise_over tr cr pr v
  · rfl

theorem State.erSet_over (i : Nat) : (s.over tr cr pr).erSet i = (s.erSet i).over tr cr pr :=
  irqWatch_over s tr cr pr 16 erLevel { s with er.sticky := setBit s.er.sticky i } fun _ => rfl

theorem State.stage_over (r : Rec) : (s.over tr cr pr).stage r = (s.stage r).over tr cr pr := by
  by_cases room : (getN s.er.staging r.src).length < 8
  · rw [show s.stage r = _ from if_pos room]
    exact if_pos room
  · rw [show s.stage r = State.erSet _ 1 from if_neg room]
    refine Eq.trans ?_ (State.erSet_over _ tr cr pr 1)
    exact if_neg room

theorem State.emit_over (src : Nat) (code : BitVec 12) (p : List (BitVec 32)) :
    (s.over tr cr pr).emit src code p = (s.emit src code p).over tr cr pr := s.stage_over tr cr pr _

end

theorem State.emit_tr (s : State) (src : Nat) (code : BitVec 12) (p : List (BitVec 32)) : (s.emit src code p).tr = s.tr := by
  obtain ⟨_, _, _, emits⟩ := s.emit_frame src code p
  rw [emits]

theorem State.emit_flow (s : State) (src : Nat) (code : BitVec 12) (p : List (BitVec 32)) (f : Fin 16) :
    (s.emit src code p).flow f = s.flow f := by rw [State.flow, State.emit_tr, State.flow]

theorem State.emit_cr (s : State) (src : Nat) (code : BitVec 12) (p : List (BitVec 32)) : (s.emit src code p).cr = s.cr := by
  obtain ⟨_, _, _, emits⟩ := s.emit_frame src code p
  rw [emits]

theorem State.emit_pr (s : State) (src : Nat) (code : BitVec 12) (p : List (BitVec 32)) : (s.emit src code p).pr = s.pr := by
  obtain ⟨_, _, _, emits⟩ := s.emit_frame src code p
  rw [emits]

/-- A record that a flow delivers when it has taken up its instruction is the one delivered before. -/
theorem State.emit_taken (s : State) (f : Fin 16) (src : Nat) (code : BitVec 12) (p : List (BitVec 32)) :
    (s.taken f).emit src code p = (s.emit src code p).over (s.taken f).tr (s.taken f).cr s.pr :=
  s.emit_over (s.taken f).tr (s.taken f).cr s.pr src code p

/-- Apart from the flows and the clocks, a record is all that such a flow leaves. -/
theorem State.emit_taken_rest {s t : State} {f : Fin 16} {src : Nat} {code : BitVec 12} {p : List (BitVec 32)} (tr : Treadle) (cr : Clocks)
    (left : t = ((s.taken f).emit src code p).over tr cr ((s.taken f).emit src code p).pr) :
    { t with tr := s.tr, cr := s.cr } = s.emit src code p := by
  subst left
  rw [State.emit_taken, ← s.emit_tr src code p, ← s.emit_cr src code p, ← s.emit_pr src code p]
  generalize s.emit src code p = u
  rfl

/-! ### Instructions that are not legal in the present state (R67) -/

/-- The first fault of a list in which all faults have one status. -/
theorem firstFault_eq {l : List (Bool × Status)} {st : Status} (some : (true, st) ∈ l) (only : ∀ c ∈ l, c.1 = true → c.2 = st) :
    firstFault l = .some st := by
  obtain ⟨c, found⟩ := Option.isSome_iff_exists.mp (List.find?_isSome (p := Prod.fst).mpr ⟨_, some, rfl⟩)
  rw [firstFault, found, Option.map_some, only c (List.mem_of_find?_eq_some found) (List.find?_some found)]

/-- A local instruction of legal form whose only fault is the present state retires with STATE. -/
theorem State.local_state (s : State) (f : Fin 16) (opc : BitVec 8) (fn : BitVec 4) (w : TWord) (xw : BitVec 4) (mask : BitVec 32)
    (uses : List (BitVec 5)) (bad : State → List (Bool × Status)) (run : State → State) (ready : FlowReady s f uses)
    (form : FormOk s f w xw.toNat mask) (faulty : (true, Status.state) ∈ bad (s.taken f))
    (only : ∀ c ∈ bad (s.taken f), c.1 = true → c.2 = .state) :
    s.local_ f opc fn w xw mask uses bad run = (s.taken f).retireBad f w .state opc fn 0#7 0#8 := by
  obtain ⟨length, inMask, words⟩ := form
  have xwEq : w.xw = xw := BitVec.eq_of_toNat_eq length
  have left : ((s.taken f).flow f).wordsLeft = (s.flow f).wordsLeft := by rw [State.flow_taken]; rfl
  unfold State.local_
  rw [State.take_run s f opc fn w uses _ ready]
  rw [firstFault_eq (st := .state)]
  · simp [faulty]
  · intro c member fails
    simp only [List.mem_append, List.mem_cons, List.mem_filter, List.not_mem_nil, or_false] at member
    rcases member with (((rfl | rfl) | own) | rfl) | own
    · simp [xwEq] at fails
    · simp [TWord.immOutside, inMask] at fails
    · exact only c own.1 fails
    · rw [left] at fails
      simp only [decide_eq_true_eq] at fails
      omega
    · exact only c own.1 fails

theorem State.fence_flow (s : State) (f : Fin 16) (opc : BitVec 8) (fn : BitVec 4) (obj : BitVec 7) (code : BitVec 8) (g : Fin 16) :
    (s.fence f opc fn obj code).flow g = if f = g then { s.flow g with state := .fenced } else s.flow g := by
  unfold State.fence
  show ((State.emit s 4 0x001#12 _).modFlow f fun fl => { fl with state := .fenced }).flow g = _
  rw [State.flow_modFlow, State.emit_flow]

/-- What retiring with STATE leaves is the record and the flows. -/
theorem State.retireBad_state (s : State) (f : Fin 16) (w : TWord) (opc : BitVec 8) (fn : BitVec 4) :
    let u := s.emit 4 0x001#12 [nat32 f.val 0 ||| at32 fn 8 ||| at32 opc 16, (s.flow f).pc.setWidth 32,
      at32 0#7 0 ||| at32 0#8 8 ||| at32 s.pw.state.code 16]
    ∃ tr, s.retireBad f w .state opc fn 0#7 0#8 = u.over tr u.cr u.pr := by
  unfold State.retireBad State.fence
  simp only [if_pos]
  generalize s.emit _ _ _ = u
  exact ⟨_, rfl⟩

/-- The record of a flow that is fenced (R83). -/
theorem fence_record (s : State) (f : Fin 16) (opc : BitVec 8) (fn : BitVec 4) :
    ([nat32 f.val 0 ||| at32 fn 8 ||| at32 opc 16, ((s.taken f).flow f).pc.setWidth 32,
      at32 0#7 0 ||| at32 0#8 8 ||| at32 (s.taken f).pw.state.code 16] : List (BitVec 32)) =
      [BitVec.ofNat 32 f.val ||| fn.setWidth 32 <<< 8 ||| opc.setWidth 32 <<< 16, (s.flow f).pc.setWidth 32,
        s.pw.state.code.setWidth 32 <<< 16] := by
  rw [State.taken_pc, show (s.taken f).pw = s.pw from rfl]
  simp [nat32, at32]

section
variable {c : Instr} {s : State} {f : Fin 16} {fn : BitVec 4} {w : TWord} {mask : BitVec 32} {uses : List (BitVec 5)}
  {bad : State → List (Bool × Status)} {run : State → State}

/-- R67, R83: a local instruction of legal form whose only fault is the present state. -/
theorem local_fences (meaning : exec c s = .next (s.local_ f 0x02#8 fn w 0#4 mask uses bad run)) (ready : FlowReady s f uses)
    (form : FormOk s f w 0 mask) (faulty : (true, Status.state) ∈ bad (s.taken f))
    (only : ∀ c ∈ bad (s.taken f), c.1 = true → c.2 = .state) :
    ∃ t, exec c s = .next t ∧ RegsKept s t f ∧ (t.flow f).ops = (s.flow f).ops ∧
      (∀ g : Fin 16, g ≠ f → t.flow g = s.flow g) ∧ bit t.tr.fenceEvt f.val = true ∧
      { t with tr := s.tr, cr := s.cr } = s.emit 4 0x001#12
        [BitVec.ofNat 32 f.val ||| fn.setWidth 32 <<< 8 ||| 0x02#32 <<< 16, (s.flow f).pc.setWidth 32, s.pw.state.code.setWidth 32 <<< 16] ∧
      ((s.flow f).pc.toNat + 1 ≤ (s.flow f).lastWord → (t.flow f).state = .fenced ∧ (t.flow f).lastStatus = .state ∧
        (t.flow f).pc = BitVec.ofNat 21 ((s.flow f).pc.toNat + 1) ∧
        (t.flow f).posts = (s.flow f).posts ++ [{ status := .state, instr := (s.flow f).pc, result := 0#64 }]) := by
  rw [State.local_state s f _ fn w 0#4 mask uses bad run ready form faulty only] at meaning
  have length : w.xw.toNat = 0 := form.1
  have flow : (((s.taken f).retireBad f w .state 0x02#8 fn 0#7 0#8).flow f) =
      (({ s.flow f with state := .fenced } : FlowS).complete w.cq .state 0#8 0#64).advance w.xw := by
    rw [State.retireBad, if_pos rfl, State.flow_modFlow_same, State.fence_flow, if_pos rfl, State.flow_taken]
  refine ⟨_, meaning, ?_, ?_, fun g ne => ?_, ?_, ?_, fun inside => ?_⟩
  · rw [RegsKept, flow]
    simp
  · rw [flow]
    simp
  · rw [State.retireBad, if_pos rfl, State.flow_modFlow_ne _ _ ne, State.fence_flow, if_neg ne.symm, State.flow_taken_ne s ne]
  · exact bit_setBit_same _ _ f.isLt
  · obtain ⟨tr, left⟩ := State.retireBad_state (s.taken f) f w 0x02#8 fn
    rw [fence_record] at left
    exact State.emit_taken_rest tr _ left
  · rw [flow, FlowS.complete_spec, FlowS.advance_in _ _ (by rw [length]; exact inside)]
    refine ⟨rfl, rfl, ?_, ?_⟩
    · simp [length]
    · simp [mustPost, Status.took, Status.code]

end

/-- Settles O15: STATE is the only fault of both waits. -/
theorem fenceOnState : Obligations.FenceOnState := by
  intro f w s stopped form fl target fences
  refine ⟨fun ready near => local_fences (fn := 0#4) rfl ready form ?_ ?_, fun ready near => local_fences (fn := 1#4) rfl ready form ?_ ?_⟩
  · simp [State.taken, stopped]
  · rw [State.taken_reg, show (s.taken f).tb = s.tb from rfl, farAhead_eq_false near]
    simp
  · simp [State.taken, stopped]
  · simpa using near

end Sys2Proof.Machine
end

section
/-! SUPPORT. FLOW.RESUME and FLOW.ABORT (R69, R71, R74, R83). -/
namespace Sys2Proof.Machine

/-! ### An instruction that changes another flow and retires -/

section
variable {s u : State} {f g : Fin 16} {w : TWord} {v : W64} {uses : List (BitVec 5)}

/-- Retiring with a value for RD on a state in which flow `f` is as when it took up the instruction. -/
theorem State.retireOk_regWritten (ready : FlowReady s f uses) (same : u.flow f = (s.taken f).flow f) :
    Retires s (u.retireOk f w v fun fl => fl.setReg w.rd v) f w v ∧ RegWritten s (u.retireOk f w v fun fl => fl.setReg w.rd v) f w.rd v := by
  have flow : (u.retireOk f w v fun fl => fl.setReg w.rd v).flow f = ((s.taken f).retireOk f w v fun fl => fl.setReg w.rd v).flow f := by
    rw [State.retireOk, State.retireOk, State.flow_modFlow_same, State.flow_modFlow_same, same]
  obtain ⟨-, retires, written⟩ := State.retireOk_writesReg s f w v uses ready
  unfold Retires RegWritten at *
  rw [flow]
  exact ⟨retires, written⟩

theorem State.flow_retireOk_ne {k : FlowS → FlowS} {h : Fin 16} (ne : h ≠ f) : (u.retireOk f w v k).flow h = u.flow h :=
  State.flow_modFlow_ne u _ ne

/-- Apart from the flows and the clocks, the record is all that is left of an instruction that records, changes flow `g` and retires. -/
theorem recorded_rest {src : Nat} {code : BitVec 12} {p : List (BitVec 32)} (h k : FlowS → FlowS) :
    { ((((s.taken f).emit src code p).modFlow g h).retireOk f w v k) with tr := s.tr, cr := s.cr } = s.emit src code p := by
  have left (x : State) : ∃ tr, ((x.modFlow g h).retireOk f w v k) = x.over tr x.cr x.pr := ⟨_, rfl⟩
  obtain ⟨tr, left⟩ := left ((s.taken f).emit src code p)
  exact State.emit_taken_rest tr _ left

/-- Of the flows, only `f` and `g` change. -/
theorem recorded_flow {src : Nat} {code : BitVec 12} {p : List (BitVec 32)} (h k : FlowS → FlowS) {i : Fin 16} (other : i ≠ f) :
    ((((s.taken f).emit src code p).modFlow g h).retireOk f w v k).flow i = if g = i then h (s.flow i) else s.flow i := by
  rw [State.flow_retireOk_ne other, State.flow_modFlow, State.emit_flow, State.flow_taken_ne s other]

theorem recorded_own {src : Nat} {code : BitVec 12} {p : List (BitVec 32)} (h : FlowS → FlowS) (ne : g ≠ f) :
    (((s.taken f).emit src code p).modFlow g h).flow f = (s.taken f).flow f := by
  rw [State.flow_modFlow_ne _ _ ne.symm, State.emit_flow]

end

theorem pair_record (f g : Fin 16) : ([nat32 g.val 0 ||| nat32 f.val 4] : List (BitVec 32)) =
    [BitVec.ofNat 32 g.val ||| BitVec.ofNat 32 f.val <<< 4] := by simp [nat32]

theorem State.taken_modFlow_onlyFlow (s : State) (f : Fin 16) (g : FlowS → FlowS) : OnlyFlow s ((s.taken f).modFlow f g) f :=
  ⟨rfl, rfl, rfl, fun k ne => by rw [State.flow_modFlow_ne _ _ ne, State.flow_taken_ne s ne]⟩

/-- A flow whose registers are those in which RD was written. -/
theorem regWritten_of_t {s t : State} {f : Fin 16} {rd : BitVec 5} {v : W64} (regs : (t.flow f).t = ((s.flow f).setReg rd v).t)
    (preds : (t.flow f).p = (s.flow f).p) : RegWritten s t f rd v := by
  have reg (r : BitVec 5) : (t.flow f).reg r = if r = 0#5 then 0#64 else if r = rd then v else (s.flow f).reg r := by
    rw [← FlowS.reg_setReg, FlowS.reg, regs, ← FlowS.reg]
  refine ⟨by rw [reg, if_pos rfl], fun r other => ?_, preds⟩
  rw [reg, if_neg other]
  split
  · next zero => rw [zero]; rfl
  · rfl

/-- A flow that wrote RD, completed and went on. -/
theorem regWritten_of_flow {s t : State} {f : Fin 16} {rd : BitVec 5} {v : W64} {cq : Bool} {st : Status} {flags : BitVec 8} {xw : BitVec 4}
    (flow : t.flow f = ((((s.taken f).flow f).setReg rd v).complete cq st flags v).advance xw) : RegWritten s t f rd v := by
  refine regWritten_of_t ?_ ?_
  · rw [flow, FlowS.advance_t, FlowS.complete_t, FlowS.setReg_t_congr (fl' := s.flow f) (by rw [State.flow_taken])]
  · rw [flow, FlowS.advance_p, FlowS.complete_p, FlowS.setReg_p, State.flow_taken]

@[simp] theorem FlowS.setReg_idleStatus (fl : FlowS) (r : BitVec 5) (v : W64) : (fl.setReg r v).idleStatus = fl.idleStatus := by
  simp [FlowS.idleStatus]

/-! ### FLOW.RESUME (R69) -/

section
variable {s : State} {f g : Fin 16} {w : TWord} {prior : W64}

theorem badFlow_taken (ne : g ≠ f) (names : ((s.flow f).obj w).toNat = g.val) : badFlow (s.taken f) f w true = false := by
  simp only [badFlow, State.taken_obj, names, Bool.true_and, Bool.or_eq_false_iff, decide_eq_false_iff_not, not_le]
  exact ⟨g.isLt, fun h => ne (Fin.ext h)⟩

theorem flowResume_run (ne : g ≠ f) (names : ((s.flow f).obj w).toNat = g.val) (form : FormOk s f w 0 0x7F#32)
    (ready : FlowReady s f [w.ra, w.rd]) (code : flowCode (s.taken f) g = prior) :
    exec (.flowResume f w) s = .next
      (if (s.flow g).state = .fenced ∨ (s.flow g).state = .stopped then
        (((s.taken f).emit 4 0x002#12 [nat32 g.val 0 ||| nat32 f.val 4]).modFlow g fun fl =>
          if fl.prog.isNone then { fl with state := .idle } else { fl with resumeReq := true }).retireOk f w prior fun fl => fl.setReg w.rd prior
      else (s.taken f).modFlow f fun fl => ((fl.setReg w.rd prior).complete w.cq .ok flagNoEffect prior).advance w.xw) := by
  refine congrArg Host.Outcome.next ((State.local_run s f _ _ w 0#4 _ _ _ _ ready form ?_).trans ?_)
  · simp only [badFlow_taken ne names, List.mem_singleton, forall_eq]
  · dsimp only
    rw [objFlow_taken names, State.flow_taken_ne s ne, code]

theorem flowResume_stopped (ne : g ≠ f) (names : ((s.flow f).obj w).toNat = g.val) (form : FormOk s f w 0 0x7F#32)
    (ready : FlowReady s f [w.ra, w.rd]) (stopped : (s.flow g).state = .fenced ∨ (s.flow g).state = .stopped)
    (code : flowCode (s.taken f) g = prior) :
    ∃ t, exec (.flowResume f w) s = .next t ∧ Retires s t f w prior ∧ RegWritten s t f w.rd prior ∧
      t.flow g = (if (s.flow g).prog = none then { s.flow g with state := .idle } else { s.flow g with resumeReq := true }) ∧
      (∀ h : Fin 16, h ≠ f → h ≠ g → t.flow h = s.flow h) ∧
      { t with tr := s.tr, cr := s.cr } = s.emit 4 0x002#12 [BitVec.ofNat 32 g.val ||| BitVec.ofNat 32 f.val <<< 4] := by
  have run := flowResume_run ne names form ready code
  rw [if_pos stopped, pair_record] at run
  obtain ⟨retires, written⟩ := State.retireOk_regWritten (w := w) (v := prior) ready (recorded_own (g := g) _ ne)
  refine ⟨_, run, retires, written, ?_, fun h other apart => ?_, recorded_rest _ _⟩
  · rw [recorded_flow _ _ ne, if_pos rfl]
    simp only [Option.isNone_iff_eq_none]
  · rw [recorded_flow _ _ other, if_neg apart.symm]

theorem flowResume_noEffect (ne : g ≠ f) (names : ((s.flow f).obj w).toNat = g.val) (form : FormOk s f w 0 0x7F#32)
    (ready : FlowReady s f [w.ra, w.rd]) (runs : ¬((s.flow g).state = .fenced ∨ (s.flow g).state = .stopped))
    (code : flowCode (s.taken f) g = prior) :
    ∃ t, exec (.flowResume f w) s = .next t ∧ OnlyFlow s t f ∧ RegWritten s t f w.rd prior ∧ (t.flow f).lastStatus = .ok ∧
      (w.cq = true → ({ status := .ok, flags := 0x80#8, instr := (s.flow f).pc, result := prior } : Post) ∈ (t.flow f).posts) := by
  have run := flowResume_run ne names form ready code
  rw [if_neg runs] at run
  have flow : ((s.taken f).modFlow f fun fl => ((fl.setReg w.rd prior).complete w.cq .ok flagNoEffect prior).advance w.xw).flow f =
      ((((s.taken f).flow f).setReg w.rd prior).complete w.cq .ok flagNoEffect prior).advance w.xw := State.flow_modFlow_same _ _ _
  refine ⟨_, run, State.taken_modFlow_onlyFlow s f _, ?_, ?_, fun posts => ?_⟩
  · exact regWritten_of_flow flow
  · rw [flow]
    refine FlowS.advance_ok _ _ (FlowS.complete_lastStatus _ _ _ _ _) ?_
    rw [FlowS.complete_idleStatus, FlowS.setReg_idleStatus, State.flow_taken]
    exact State.taken_idle s f ready.2.2.2
  · rw [flow]
    refine FlowS.advance_posts _ _ ?_
    rw [FlowS.complete_spec, posts, FlowS.setReg_pc, State.taken_pc]
    exact List.mem_append_right _ (List.mem_singleton_self _)

/-! ### FLOW.ABORT (R71) -/

/-- R71: with no wait in progress, the rest of the programme is to complete with ABORTED, or the flow is IDLE. -/
theorem FlowS.abortEffect_noWait {fl : FlowS} (noWait : fl.wait = none) : fl.abortEffect = { fl with
    abortReq := false, resumeReq := false, aborting := fl.prog.isSome, state := if fl.prog.isSome then fl.state else .idle } := by
  unfold FlowS.abortEffect
  simp only [noWait]
  cases fl.prog
  · simp
  · simp

theorem FlowS.abortEffect_idle {fl : FlowS} (noWait : fl.wait = none) (idle : fl.prog = none) : fl.abortEffect = { fl with
    abortReq := false, aborting := false, resumeReq := false, state := .idle } := by
  rw [FlowS.abortEffect_noWait noWait, idle]
  rfl

theorem flowAbort_aborts (ne : g ≠ f) (names : ((s.flow f).obj w).toNat = g.val) (form : FormOk s f w 0 0x7F#32)
    (ready : FlowReady s f [w.ra]) (noWait : (s.flow g).wait = none) :
    ∃ t, exec (.flowAbort f w) s = .next t ∧ Retires s t f w 0#64 ∧ RegsKept s t f ∧
      t.flow g = (if (s.flow g).prog = none then
          { s.flow g with abortReq := false, aborting := false, resumeReq := false, state := .idle }
        else { s.flow g with abortReq := true }) ∧ (∀ h : Fin 16, h ≠ f → h ≠ g → t.flow h = s.flow h) ∧
      { t with tr := s.tr, cr := s.cr } = s.emit 4 0x003#12 [BitVec.ofNat 32 g.val ||| BitVec.ofNat 32 f.val <<< 4] := by
  have run : exec (.flowAbort f w) s = .next ((((s.taken f).emit 4 0x003#12 [nat32 g.val 0 ||| nat32 f.val 4]).modFlow g fun fl =>
      if fl.wait.isSome || fl.prog.isNone then fl.abortEffect else { fl with abortReq := true }).retireOk f w 0#64 id) := by
    refine congrArg Host.Outcome.next ((State.local_run s f _ _ w 0#4 _ _ _ _ ready form ?_).trans ?_)
    · simp only [badFlow_taken ne names, List.mem_singleton, forall_eq]
    · dsimp only
      rw [objFlow_taken names]
  rw [pair_record] at run
  obtain ⟨retires, kept⟩ := State.retireOk_keepsRegs s _ f w 0#64 _ ready (recorded_own (g := g) _ ne)
  refine ⟨_, run, retires, kept, ?_, fun h other apart => ?_, recorded_rest _ _⟩
  · rw [recorded_flow _ _ ne, if_pos rfl]
    by_cases idle : (s.flow g).prog = none
    · rw [if_pos (by simp [idle]), if_pos idle, FlowS.abortEffect_idle noWait idle]
    · rw [if_neg (by simp [noWait, idle]), if_neg idle]
  · rw [recorded_flow _ _ other, if_neg apart.symm]

end

/-- Settles O17: FLOW.RESUME by the state of its target, FLOW.ABORT, and FLOW_ABORT_EFFECT. -/
theorem resumeAndAbort : Obligations.ResumeAndAbort := by
  refine ⟨fun f g w s ne names form => ?_, fun g s => ?_⟩
  · intro code stopped
    have prior : flowCode (s.taken f) g = code := by
      rw [flowCode_taken, if_neg ne]
      show _ = (match (s.flow g).state with | .idle => 0#64 | .running => 1#64 | .waiting => 2#64 | .fenced => 3#64 | .stopped => 4#64)
      cases (s.flow g).state <;> rfl
    exact ⟨fun ready => ⟨fun stopped => flowResume_stopped ne names form ready stopped prior,
      fun runs => flowResume_noEffect ne names form ready runs prior⟩,
      flowAbort_aborts ne names form⟩
  · intro fl runs requested noWait
    have run : exec (.flowAbortEffect g) s = .next (s.modFlow g FlowS.abortEffect) := if_pos (by simp [runs, fl, requested])
    rw [run, State.modFlow, upd_congr (g := fun _ => (s.flow g).abortEffect) rfl, FlowS.abortEffect_noWait noWait]

end Sys2Proof.Machine
end

section
/-! SUPPORT. Register accesses of a flow (R75, R77, R368), the start of a programme (R51, R439, R440) and the posting of completion
entries (R73, R441). -/
namespace Sys2Proof.Machine

/-- A local instruction without fault comes to its own effect on the state in which its flow has taken it up. -/
theorem exec_local_run {c : Instr} {s : State} {f : Fin 16} {opc : BitVec 8} {fn : BitVec 4} {w : TWord} {xw : BitVec 4}
    {mask : BitVec 32} {uses : List (BitVec 5)} {bad : State → List (Bool × Status)} {run : State → State}
    (meaning : exec c s = .next (s.local_ f opc fn w xw mask uses bad run)) (ready : FlowReady s f uses)
    (form : FormOk s f w xw.toNat mask) (fine : ∀ b ∈ bad (s.taken f), b.1 = false) : exec c s = .next (run (s.taken f)) := by
  rw [meaning, State.local_run s f opc fn w xw mask uses bad run ready form fine]

theorem State.retireOk_tr (u : State) (f : Fin 16) (w : TWord) (v : W64) (g : FlowS → FlowS) :
    { u.retireOk f w v g with tr := u.tr } = u := rfl

/-! ### Register accesses (R77) -/

section
variable {s : State} {f : Fin 16} {w : TWord}

theorem regAddrOk_taken (low : 0x100000000 ≤ ((s.flow f).addr w).toNat) (high : ((s.flow f).addr w).toNat ≤ 0x1012FFFFF)
    (aligned : ((s.flow f).addr w).toNat % 4 = 0) :
    ∀ b ∈ [(!regAddrOk (((s.taken f).flow f).addr w), Status.badOperand)], b.1 = false := by
  simp only [State.taken_addr, regAddrOk, low, high, aligned, List.mem_singleton, forall_eq]
  rfl

theorem regRd_reads (fine : ∀ b ∈ [(!regAddrOk (((s.taken f).flow f).addr w), Status.badOperand)], b.1 = false)
    (form : FormOk s f w 0 0xFFFFFFFF#32) (ready : FlowReady s f [w.ra, w.rd]) :
    let r := busRead (s.taken f) .treadle (((s.flow f).addr w).setWidth 40)
    ∃ t, exec (.regRd f w) s = .next t ∧ { t with tr := r.2.tr } = r.2 ∧
      (r.2.tr = (s.taken f).tr → Retires s t f w (r.1.setWidth 64) ∧ RegWritten s t f w.rd (r.1.setWidth 64)) := by
  have run := exec_local_run (c := .regRd f w) rfl ready form fine
  dsimp only at run
  rw [regAddr, State.taken_addr] at run
  refine ⟨_, run, State.retireOk_tr _ f w _ _, fun same => State.retireOk_regWritten ready ?_⟩
  rw [State.flow, same, State.flow]

/-- An address of a register fits in 40 bits. -/
theorem setWidth_40_64 {a : W64} (high : a.toNat ≤ 0x1012FFFFF) : (a.setWidth 40).setWidth 64 = a := by
  refine BitVec.eq_of_toNat_eq ?_
  rw [BitVec.toNat_setWidth_of_le (by decide), BitVec.toNat_setWidth]
  omega

/-- The words that REG.WR adds to the command log (R368). -/
def regWrLog (s : State) (f : Fin 16) (w : TWord) : List (List (BitVec 32)) :=
  if leads s && pairCopied (((s.flow f).addr w).setWidth 40) then
    [logEntry f (logWord 0x16#8 1#4 { w with rd := 0#5, imm := 0#32 } 0#7) 0#32
      (words64 ((s.flow f).addr w) ++ [((s.flow f).reg w.rb).setWidth 32])]
  else []

theorem regWr_writes (fine : ∀ b ∈ [(!regAddrOk (((s.taken f).flow f).addr w), Status.badOperand)], b.1 = false)
    (high : ((s.flow f).addr w).toNat ≤ 0x1012FFFFF) (form : FormOk s f w 0 0xFFFFFFFF#32) (ready : FlowReady s f [w.ra, w.rb]) :
    ∃ v, exec (.regWr f w) s =
        .next (v.busPut .treadle (((s.flow f).addr w).setWidth 40) (((s.flow f).reg w.rb).setWidth 32)) ∧
      OnlyFlow { s with pr.log := s.pr.log ++ regWrLog s f w } v f ∧ Retires s v f w 0#64 ∧ RegsKept s v f := by
  let logged : State := { s.taken f with pr.log := s.pr.log ++ regWrLog s f w }
  have log : (if leads (s.taken f) && pairCopied (regAddr (s.taken f) f w) then
      { s.taken f with pr.log := (s.taken f).pr.log ++ [logEntry f (logWord 0x16#8 1#4 { w with rd := 0#5, imm := 0#32 } 0#7) 0#32
        (words64 ((regAddr (s.taken f) f w).setWidth 64) ++ [((((s.taken f).flow f).reg w.rb).setWidth 32 : BitVec 32)])] }
      else s.taken f) = logged := by
    rw [regAddr, State.taken_addr, State.taken_reg, setWidth_40_64 high]
    simp only [logged, regWrLog]
    rw [show leads (s.taken f) = leads s from rfl]
    split
    · rfl
    · rw [List.append_nil]
      rfl
  obtain ⟨retires, kept⟩ := State.retireOk_keepsRegs s logged f w 0#64 _ ready rfl
  refine ⟨logged.retireOk f w 0#64 id, ?_, State.retireOk_onlyFlow { s with pr.log := s.pr.log ++ regWrLog s f w } f w _ _, retires, kept⟩
  have run := exec_local_run (c := .regWr f w) rfl ready form fine
  dsimp only at run
  rw [log, regAddr, State.taken_addr, State.taken_reg] at run
  exact run

end

/-- Settles O20: REG.RD and REG.WR on the state in which the flow has taken up the instruction. -/
theorem registerAccessByFlows : Obligations.RegisterAccessByFlows := by
  intro f w s a low high aligned form u
  have fine := regAddrOk_taken low high aligned
  exact ⟨regRd_reads fine form, regWr_writes fine high form⟩

/-! ### The start of a programme (R51, R439, R440) -/

/-- A submission entry's address. -/
def subAddr (e : Vector (BitVec 32) 4) : Nat := e[0].toNat + 2 ^ 32 * (e[1].toNat % 256)

/-- A submission entry's number of words. -/
def subLength (e : Vector (BitVec 32) 4) : Nat := e[2].toNat % 65536 + 1

theorem field_toNat {n : Nat} (v : BitVec n) (len : Nat) : (field v 0 len).toNat = v.toNat % 2 ^ len := by
  rw [field, BitVec.extractLsb'_toNat, Nat.shiftRight_zero]

theorem ushiftRight_ne_zero (v : BitVec 32) (k : Nat) : v >>> k ≠ 0#32 ↔ v.toNat / 2 ^ k ≠ 0 := by
  rw [ne_eq, ne_eq, ← BitVec.toNat_inj, BitVec.toNat_ushiftRight, Nat.shiftRight_eq_div_pow]
  rfl

theorem subReserved_iff (e : Vector (BitVec 32) 4) :
    subReserved e = true ↔ e[1].toNat / 256 ≠ 0 ∨ e[2].toNat / 65536 ≠ 0 ∨ e[3] ≠ 0#32 := by
  rw [subReserved, Bool.or_eq_true, Bool.or_eq_true, decide_eq_true_eq, decide_eq_true_eq, decide_eq_true_eq, ushiftRight_ne_zero,
    ushiftRight_ne_zero, or_assoc]
  rfl

theorem subAddr_placed (e : Vector (BitVec 32) 4) : sharedOk (BitVec.ofNat 64 (subAddr e)) 8 = true ↔
    Config.sharedBase ≤ subAddr e ∧ subAddr e + 8 ≤ Config.sharedBase + 8 * Config.sharedWords ∧ subAddr e % 8 = 0 := by
  have small : subAddr e < 2 ^ 64 := by
    have := e[0].isLt
    unfold subAddr
    omega
  rw [sharedOk_iff, BitVec.toNat_ofNat, Nat.mod_eq_of_lt small]

theorem subAddr_eq (e : Vector (BitVec 32) 4) : e[0].toNat + 2 ^ 32 * (field e[1] 0 8).toNat = subAddr e := by rw [field_toNat]; rfl

theorem subLength_eq (e : Vector (BitVec 32) 4) : (field e[2] 0 16).toNat + 1 = subLength e := by rw [field_toNat]; rfl

/-- The status of a submission, by the form and the place of the entry, then by the length of its programme. -/
theorem subStatus_eq (e : Vector (BitVec 32) 4) : subStatus e =
    if subReserved e || !sharedOk (BitVec.ofNat 64 (subAddr e)) 8 then some .badOperand
    else if Config.sharedWords < (subAddr e - Config.sharedBase) / 8 + subLength e then some .length else none := by
  unfold subStatus firstFault
  rw [subAddr_eq, subLength_eq]
  dsimp only
  cases subReserved e with
  | true => rfl
  | false =>
    cases sharedOk (BitVec.ofNat 64 (subAddr e)) 8 with
    | false => rfl
    | true =>
      by_cases long : Config.sharedWords < (subAddr e - Config.sharedBase) / 8 + subLength e
      · simp [long]
      · simp [long]

section
variable {s : State} {f : Fin 16} {e0 : Vector (BitVec 32) 4}

/-- A flow that may start a programme takes the entry at the head of its ring. -/
theorem programmeStart_run (runs : flowsRun s = true) (idle : (s.flow f).prog = none) (noWait : (s.flow f).wait = none)
    (enabled : s.hi.sub[f].en = true) (some : s.hi.sub[f].head ≠ s.hi.sub[f].tail) (unblocked : compBlocked s f = false)
    {e : Vector (BitVec 32) 4} (entry : subEntry s f e0 = e) :
    let after := { s with hi.sub := upd s.hi.sub f fun r => { r with head := r.next r.head } }
    exec (.programmeStart f e0) s = .next (match subStatus e with
      | .some st => after.modFlow f fun fl => { fl.post { status := st, result := BitVec.ofNat 64 (subAddr e) } with lastStatus := st }
      | none => after.modFlow f fun fl => { fl with
          prog := .some { start := (subAddr e - Config.sharedBase) / 8, len := subLength e }
          pc := BitVec.ofNat 21 ((subAddr e - Config.sharedBase) / 8)
          state := if fl.state = .idle then .running else fl.state }) := by
  intro after
  refine (if_pos (by rw [runs, idle, noWait, enabled, decide_eq_true some, unblocked]; rfl)).trans ?_
  dsimp only
  rw [entry, subAddr_eq, subLength_eq]
  cases subStatus e <;> rfl

end

/-- Settles O18: the status of the entry decides between the start and a refusal. -/
theorem programmesStart : Obligations.ProgrammesStart := by
  intro f e0 s fl r runs idle noWait enabled some unblocked at_ e a len first reserved placed after refuses
  have run := programmeStart_run (e0 := e0) runs idle noWait enabled some unblocked (e := e) rfl
  have isReserved : subReserved e = true ↔ reserved := subReserved_iff e
  have isPlaced : sharedOk (BitVec.ofNat 64 (subAddr e)) 8 = true ↔ placed := subAddr_placed e
  rw [subStatus_eq e] at run
  have tooLong : Config.sharedWords < (subAddr e - Config.sharedBase) / 8 + subLength e ↔ Config.sharedWords < first + len := Iff.rfl
  refine ⟨fun good inPlace fits => ?_, fun bad => ?_, fun good inPlace long => ?_⟩
  · rw [if_neg (by rw [isPlaced.mpr inPlace, eq_false_of_ne_true (mt isReserved.mp good)]; simp),
      if_neg (tooLong.not.mpr (not_lt.mpr fits))] at run
    exact run
  · rw [if_pos (by simpa [isReserved, ← isPlaced] using bad)] at run
    exact run
  · rw [if_neg (by rw [isPlaced.mpr inPlace, eq_false_of_ne_true (mt isReserved.mp good)]; simp), if_pos (tooLong.mpr long)] at run
    exact run

end Sys2Proof.Machine
end

section
/-! SUPPORT. Completion entries leave their flow (R72, R73, R441). -/
namespace Sys2Proof.Machine

/-- R441: a queue is full when advancing the tail would make it equal to the head. -/
theorem HostRing.free_pos {r : HostRing} (head : r.head.toNat < 2 ^ r.depth.toNat) (tail : r.tail.toNat < 2 ^ r.depth.toNat)
    (room : (r.tail.toNat + 1) % 2 ^ r.depth.toNat ≠ r.head.toNat) : 0 < r.free := by
  unfold HostRing.free HostRing.fill HostRing.size
  generalize 2 ^ r.depth.toNat = size at *
  have fill : (r.tail.toNat + size - r.head.toNat) % size ≠ size - 1 := by
    rcases Nat.lt_or_ge r.tail.toNat r.head.toNat with wraps | ahead
    · rw [Nat.mod_eq_of_lt (by omega)]
      rw [Nat.mod_eq_of_lt (by omega)] at room
      omega
    · rw [show r.tail.toNat + size - r.head.toNat = r.tail.toNat - r.head.toNat + size by omega, Nat.add_mod_right,
        Nat.mod_eq_of_lt (by omega)]
      intro full
      have last : r.tail.toNat + 1 = size := by omega
      rw [last, Nat.mod_self] at room
      omega
  have := Nat.mod_lt (r.tail.toNat + size - r.head.toNat) (show 0 < size by omega)
  omega

/-- The bytes of a list of words, word by word. -/
theorem wordsBytes_getElem? (ws : List (BitVec 32)) {i j : Nat} (inside : i < ws.length) (byte : j < 4) :
    (wordsBytes ws)[4 * i + j]? = some (BitVec.extractLsb' (8 * j) 8 (ws.getD i 0#32)) := by
  induction ws generalizing i with
  | nil => simp at inside
  | cons v ws ih =>
    have cut : wordsBytes (v :: ws) = natBytes v.toNat 4 ++ wordsBytes ws := List.flatMap_cons
    rw [cut]
    cases i with
    | zero =>
      have short : j < (natBytes v.toNat 4).length := by rwa [natBytes_length]
      rw [Nat.mul_zero, Nat.zero_add, List.getElem?_append_left short, List.getElem?_eq_getElem short, natBytes_getElem]
      refine congrArg some (BitVec.eq_of_toNat_eq ?_)
      rw [BitVec.toNat_ofNat, toNat_extractLsb'_byte]
      rfl
    | succ i =>
      rw [List.getElem?_append_right (by rw [natBytes_length]; omega), natBytes_length,
        show 4 * (i + 1) + j - 4 = 4 * i + j by omega, ih (by simpa using inside)]
      rfl

theorem wordsBytes_length (ws : List (BitVec 32)) : (wordsBytes ws).length = 4 * ws.length := by
  induction ws with
  | nil => rfl
  | cons v ws ih =>
    rw [show wordsBytes (v :: ws) = natBytes v.toNat 4 ++ wordsBytes ws from List.flatMap_cons, List.length_append, natBytes_length, ih,
      List.length_cons]
    omega

/-- The words of an entry, written out. -/
theorem entryWords_eq (f : Fin 16) (phase : Bool) (p : Post) : entryWords f phase p =
    [p.status.code.setWidth 32 ||| BitVec.ofNat 32 f.val <<< 8 ||| (if phase then 0x8000#32 else 0#32) ||| p.flags.setWidth 32 <<< 16,
      p.instr.setWidth 32, p.result.setWidth 32, (p.result >>> 32).setWidth 32] := by
  unfold entryWords
  rw [at32_zero]
  rfl

/-- Words written in the Shared data partition stand there, byte by byte, and no other byte changes. -/
theorem busWrite_memory {s : State} {a : Nat} {ws : List (BitVec 32)} (wf : Memory.wf s.mem = true) (low : Config.sharedBase ≤ a)
    (high : a + 4 * ws.length ≤ Config.sharedBase + 8 * Config.sharedWords) :
    s.busWrite true a ws = { s with mem := (s.busWrite true a ws).mem } ∧
      (∀ x, x < a ∨ a + 4 * ws.length ≤ x → memRead (s.busWrite true a ws).mem x = memRead s.mem x) ∧
      ∀ i < ws.length, ∀ j < 4, memRead (s.busWrite true a ws).mem (a + 4 * i + j) = BitVec.extractLsb' (8 * j) 8 (ws.getD i 0#32) := by
  have written : s.busWrite true a ws = s.wrBytes a (wordsBytes ws) := (if_pos rfl).trans (if_pos ⟨low, high⟩)
  rw [written]
  refine ⟨rfl, fun x apart => ?_, fun i word j byte => ?_⟩
  · exact memRead_memWriteList_outside _ _ _ _ wf (by rwa [wordsBytes_length])
  · have inside : 4 * i + j < (wordsBytes ws).length := by rw [wordsBytes_length]; omega
    rw [Nat.add_assoc]
    refine (memRead_memWriteList_inside _ _ _ _ wf inside).trans ?_
    exact Option.some.inj ((List.getElem?_eq_getElem inside).symm.trans (wordsBytes_getElem? ws word byte))

theorem State.busWrite_frame (s : State) (loc : Bool) (a : Nat) (ws : List (BitVec 32)) :
    ∃ mem out, s.busWrite loc a ws = { s with mem := mem, out := out } := by
  unfold State.busWrite
  split
  · split
    · exact ⟨_, _, rfl⟩
    · exact ⟨_, _, rfl⟩
  · exact ⟨_, _, rfl⟩

/-- What a message of the vector leaves does not depend on the flows. -/
theorem State.raise_modFlow (s : State) (v : Fin 64) (f : Fin 16) (g : FlowS → FlowS) :
    (s.raise v).modFlow f g = (s.modFlow f g).raise v := by
  obtain ⟨_, _, raised⟩ := s.raise_frame v
  refine Eq.trans ?_ (s.raise_over (s.modFlow f g).tr s.cr s.pr v).symm
  rw [raised]
  rfl

theorem completionPost_run {s : State} {f : Fin 16} {p : Post} {rest : List Post} (posts : (s.flow f).posts = p :: rest)
    (stands : p.op = none) (enabled : s.hi.comp[f].en = true) (run : s.domain 3 = .run) (room : 0 < s.hi.comp[f].free) :
    exec (.completionPost f) s = .next ((s.postEntry f p).modFlow f fun fl => { fl with posts := rest }) := by
  show execCompletionPost f s = _
  unfold execCompletionPost
  rw [posts]
  exact if_pos (by rw [stands, enabled, decide_eq_true room, decide_eq_true run]; rfl)

/-- Settles O19: the entry is written at the tail, the queue and the flow move on, and the vector follows when it is due. -/
theorem completionEntriesArePosted : Obligations.CompletionEntriesArePosted := by
  intro f p rest s r posts stands enabled run head tail room next a words fire
  have words_eq : entryWords f r.phase p = words := entryWords_eq f r.phase p
  have ran := completionPost_run posts stands enabled run (HostRing.free_pos head tail room)
  refine ⟨s.busWrite r.loc a words, fun bus => ?_, fun shared wf low high => ?_, ?_⟩
  · rw [bus]
    rfl
  · rw [shared]
    exact busWrite_memory wf low high
  · rw [ran]
    refine congrArg Host.Outcome.next ?_
    unfold State.postEntry
    dsimp only
    rw [show entryWords f s.hi.comp[f].phase p = words from words_eq]
    obtain ⟨mem, out, wrote⟩ := s.busWrite_frame r.loc a words
    rw [show s.busWrite s.hi.comp[f].loc (s.hi.comp[f].entryAddr s.hi.comp[f].tail.toNat 16) words = _ from wrote, wrote]
    by_cases due : fire = true
    · rw [if_pos due, if_pos due, State.raise_modFlow]
      rfl
    · rw [if_neg due, if_neg due]
      rfl

end Sys2Proof.Machine
end

section
/-! SUPPORT. Device operations: what their checks come to, and what accepting or issuing one leaves of its flow (R10, R24, R61, R62,
R64, R81, R368). -/
namespace Sys2Proof.Machine

/-! ### The checks (R10, R81, R82) -/

theorem fine_nil {α : Type} : ∀ c ∈ ([] : List (Bool × α)), c.1 = false := fun _ member => absurd member List.not_mem_nil

theorem fine_cons {α : Type} {c : Bool × α} {l : List (Bool × α)} (head : c.1 = false) (tail : ∀ d ∈ l, d.1 = false) :
    ∀ d ∈ c :: l, d.1 = false := List.forall_mem_cons.mpr ⟨head, tail⟩

theorem stateGate_fine {s : State} {states : List DevState} {d : Fin 13} (legal : OpLegal s states d) (code : BitVec 8) :
    (stateGate s states d code).1 = false := by
  simp [stateGate, legal.1, legal.2]

theorem leaseGate_fine {s : State} (lease : s.lease = true) : (leaseGate s).1 = false := by simp [leaseGate, lease]

theorem xwNot_fine {w : TWord} {l : List (BitVec 4)} (form : w.xw ∈ l) : (xwNot w l).1 = false := by simp [xwNot, form]

/-! ### The state in which an operation is accepted -/

/-- The state in which a device operation of flow `f` is accepted, with `l` as the command log (R368). -/
def State.logged (s : State) (f : Fin 16) (l : List (List (BitVec 32))) : State :=
  s.over (s.taken f).tr (s.taken f).cr { s.pr with log := l }

theorem State.logged_reg (s : State) (f : Fin 16) (l : List (List (BitVec 32))) (r : BitVec 5) :
    ((s.logged f l).flow f).reg r = (s.flow f).reg r := s.taken_reg f r

theorem State.logged_opId (s : State) (f : Fin 16) (l : List (List (BitVec 32))) : (s.logged f l).opId f = (s.flow f).nextOp :=
  s.taken_nextOp f

section
variable {s : State} {f : Fin 16} {w : TWord} {l : List (List (BitVec 32))}

theorem State.taken_opAxis {a : Fin 80} (names : ((s.flow f).obj w).toNat = a.val) : (s.taken f).opAxis f w = a := by
  rw [State.opAxis, State.taken_obj, names, Fin.ofNat_val_eq_self]

theorem State.logged_opAxis {a : Fin 80} (names : ((s.flow f).obj w).toNat = a.val) : (s.logged f l).opAxis f w = a :=
  State.taken_opAxis names

theorem State.taken_opArm {r : Fin 8} (names : ((s.flow f).obj w).toNat = r.val) : (s.taken f).opArm f w = r := by
  rw [State.opArm, State.taken_obj, names, Fin.ofNat_val_eq_self]

theorem State.logged_opArm {r : Fin 8} (names : ((s.flow f).obj w).toNat = r.val) : (s.logged f l).opArm f w = r :=
  State.taken_opArm names

theorem State.taken_opCh {c : Fin 96} (names : ((s.flow f).obj w).toNat = c.val) : (s.taken f).opCh f w = c := by
  rw [State.opCh, State.taken_obj, names, Fin.ofNat_val_eq_self]

theorem State.logged_opCh {c : Fin 96} (names : ((s.flow f).obj w).toNat = c.val) : (s.logged f l).opCh f w = c :=
  State.taken_opCh names

/-- The log is as it was on a device that does not lead a pair. -/
def LogKept (s : State) (l : List (List (BitVec 32))) : Prop := leads s = false → l = s.pr.log

/-- A device operation that no check turns away comes to its own effect on the state in which it is accepted. -/
theorem devOp_accepted {c : Instr} {opc : BitVec 8} {fn : BitVec 4} {uses : List (BitVec 5)} {mask : BitVec 32} {objMax : Option Nat}
    {early : State → List (Bool × Status)} {gate : State → List (Bool × Status × BitVec 8)} {run : State → State}
    (meaning : exec c s = .next (s.devOp f opc fn w uses mask objMax early gate run)) (form : OpForm s f w uses mask)
    (inside : ∀ n, objMax = some n → ((s.flow f).obj w).toNat < n) (earlyFine : ∀ c ∈ early (s.taken f), c.1 = false)
    (gateFine : ∀ c ∈ gate (s.taken f), c.1 = false) : ∃ l, LogKept s l ∧ exec c s = .next (run (s.logged f l)) := by
  rw [State.devOp_run s f opc fn w uses mask objMax early gate run form inside earlyFine gateFine] at meaning
  obtain ⟨l, logged, kept⟩ := (s.taken f).logOp_spec f opc fn w (if objMax.isSome then ((s.flow f).obj w).setWidth 7 else 0#7)
    ((s.flow f).reg w.rb)
  rw [logged] at meaning
  exact ⟨l, kept, meaning⟩

end

/-! ### What is left of the flow -/

theorem FlowReady.noWait {s : State} {f : Fin 16} {uses : List (BitVec 5)} (ready : FlowReady s f uses) : (s.flow f).wait = none := by
  have takes := ready.1
  simp only [flowTakes, Bool.and_eq_true] at takes
  simpa using takes.1.2

section
variable {s r u : State} {f : Fin 16} {w : TWord} {l : List (List (BitVec 32))} {uses : List (BitVec 5)} {flags : BitVec 8}

/-- The effect of an operation leaves flows, clocks and pair to the operation itself. -/
structure State.SameBase (s r : State) : Prop where
  tr : r.tr = s.tr
  cr : r.cr = s.cr
  pr : r.pr = s.pr

/-- `u` is the effect `r` of an operation on the state in which it is accepted. -/
def Effected (s r u : State) (f : Fin 16) (l : List (List (BitVec 32))) : Prop :=
  u = r.over (s.taken f).tr (s.taken f).cr { s.pr with log := l }

theorem Effected.flow (effect : Effected s r u f l) (g : Fin 16) : u.flow g = (s.taken f).flow g := by rw [effect]; rfl

/-- A change of its own flow leaves of such a state what an operation may touch. -/
theorem Effected.opFrame (effect : Effected s r u f l) (base : s.SameBase r) (kept : LogKept s l) (g : FlowS → FlowS) :
    OpFrame r (u.modFlow f g) f := by
  subst effect
  refine ⟨rfl, ?_, ?_, fun k ne => ?_, ?_, fun alone => ?_⟩
  · rw [base.cr]; rfl
  · rw [base.tr]; rfl
  · rw [State.flow_modFlow_ne _ _ ne]
    refine (s.flow_taken_ne ne).trans ?_
    rw [State.flow, State.flow, base.tr]
  · rw [base.pr]; rfl
  · have same : leads s = false := by rwa [leads, base.pr] at alone
    rw [base.pr]
    exact congrArg (fun l => { s.pr with log := l }) (kept same)

/-- A flow goes on with one operation number more and the entries `posted`. -/
theorem goesOn_advance {t : State} {fl : FlowS} {posted : List Post} (flow : t.flow f = fl.advance w.xw) (runs : fl.idleStatus = none)
    (noWait : fl.wait = none) (running : fl.state = .running) (pc : fl.pc = (s.flow f).pc) (prog : fl.prog = (s.flow f).prog)
    (number : fl.nextOp = (s.flow f).nextOp + 1) (posts : fl.posts = posted) : GoesOn s t f w posted := by
  have last : fl.lastWord = (s.flow f).lastWord := by rw [FlowS.lastWord, FlowS.lastWord, pc, prog]
  unfold GoesOn
  dsimp only
  rw [flow, ← pc, ← last, ← prog, ← posts]
  refine ⟨by rw [FlowS.advance_nextOp, number], FlowS.advance_wait noWait _, fun inside => ?_, fun past => ?_⟩
  · rw [FlowS.advance_in _ _ inside]
    exact ⟨rfl, rfl, running, rfl⟩
  · rw [FlowS.advance_past _ _ past runs]
    exact ⟨rfl, rfl, rfl⟩

/-- An operation that completes at its acceptance, with its effect done. -/
theorem opAccept_accepted (effect : Effected s r u f l) (base : s.SameBase r) (kept : LogKept s l) (ready : FlowReady s f uses) :
    OpFrame r (u.opAccept f w .ok flags none) f ∧ Accepted s (u.opAccept f w .ok flags none) f w flags 0#64 ∧
      RegsKept s (u.opAccept f w .ok flags none) f :=
  ⟨effect.opFrame base kept _, State.opAccept_spec s u f w flags uses ready ((effect.flow f).trans (s.flow_taken f))⟩

theorem FlowS.setReg_running (fl : FlowS) (rd : BitVec 5) (v : W64) :
    ({ fl with state := .running } : FlowS).setReg rd v = { fl with state := .running, t := (fl.setReg rd v).t } := by
  unfold FlowS.setReg
  split
  · rfl
  · rfl

/-- An operation that completes at its acceptance with a result for RD. -/
theorem opAccept_result {v : W64} (effect : Effected s r u f l) (base : s.SameBase r) (kept : LogKept s l) (ready : FlowReady s f uses) :
    OpFrame r (u.opAccept f w .ok flags (some v)) f ∧ Accepted s (u.opAccept f w .ok flags (some v)) f w flags v ∧
      RegWritten s (u.opAccept f w .ok flags (some v)) f w.rd v := by
  have flow : (u.opAccept f w .ok flags (some v)).flow f = (({ s.flow f with
      state := .running, t := ((s.flow f).setReg w.rd v).t, p := (s.flow f).p, nextOp := (s.flow f).nextOp + 1 } : FlowS).complete
        w.cq .ok flags v).advance w.xw := by
    rw [State.opAccept, State.flow_modFlow_same, effect.flow, State.flow_taken]
    dsimp only
    rw [FlowS.setReg_running]
    rfl
  obtain ⟨regs, preds, status, ops, number, noWait, inside, past⟩ := FlowS.goOn_spec (s.flow f) w v ((s.flow f).setReg w.rd v).t
    (s.flow f).p ((s.flow f).nextOp + 1) flags ready.2.2.2 ready.noWait
  rw [← flow] at regs preds status ops number noWait inside past
  exact ⟨effect.opFrame base kept _, ⟨status, ops, number, noWait, inside, past⟩, regWritten_of_t regs preds⟩

/-- An operation that stands in flight. -/
theorem opIssue_inFlight {rd : Bool} (effect : Effected s r u f l) (base : s.SameBase r) (kept : LogKept s l) (ready : FlowReady s f uses) :
    OpFrame r (u.opIssue f w rd) f ∧ InFlight s (u.opIssue f w rd) f w (if rd then some w.rd else none) ∧
      RegsKept s (u.opIssue f w rd) f := by
  let issued : FlowS := { s.flow f with
    state := .running, nextOp := (s.flow f).nextOp + 1
    ops := (s.flow f).ops ++ [{ id := (s.flow f).nextOp, instr := (s.flow f).pc, rd := if rd then some w.rd else none, cq := w.cq }]
    posts := (s.flow f).posts ++ [{ op := some (s.flow f).nextOp, instr := (s.flow f).pc }] }
  have flow : (u.opIssue f w rd).flow f = issued.advance w.xw := by
    rw [State.opIssue, State.flow_modFlow_same, effect.flow, State.flow_taken]
  have goesOn := goesOn_advance (s := s) flow (State.taken_idle s f ready.2.2.2) ready.noWait rfl rfl rfl rfl rfl
  refine ⟨effect.opFrame base kept _, ⟨?_, goesOn⟩, ?_, ?_⟩
  · rw [flow, FlowS.advance_ops]
  · rw [flow, FlowS.advance_t]
  · rw [flow, FlowS.advance_p]

/-- An operation whose effect waits for its effect pick, or happens at once while picks are stopped. -/
theorem acceptEffect_takes {c : Instr} {opc : BitVec 8} {fn : BitVec 4} {axes : List (Fin 80)} {k : EffKind} {n : Nat}
    (ran : exec c s = .next (u.acceptEffect f w opc fn axes k flags)) (effect : Effected s r u f l) (base : s.SameBase r)
    (time : r.tb = s.tb) (kept : LogKept s l) (ready : FlowReady s f uses) (names : ((s.flow f).obj w).toNat = n) :
    TakesEffect c s r f w flags ({
      flow := f, op := (s.flow f).nextOp, axes := axes, kind := k
      opc := opc, fn := fn, obj := BitVec.ofNat 7 n, at_ := s.tb.timeFix } : Effect) := by
  obtain ⟨frame, accepted, regs⟩ := opAccept_accepted (w := w) (flags := flags) effect base kept ready
  refine ⟨_, frame, accepted, regs, ?_⟩
  have sameTb : u.tb = s.tb := by rw [effect, ← time]; rfl
  have number : u.opId f = (s.flow f).nextOp := by rw [State.opId, effect.flow, State.taken_nextOp]
  have obj : ((u.flow f).obj w).setWidth 7 = BitVec.ofNat 7 n := by rw [effect.flow, State.taken_obj, ← names, BitVec.ofNat_toNat]
  rw [ran, State.acceptEffect, number, obj, State.defer, sameTb]
  rw [show (u.opAccept f w .ok flags none).tb = s.tb from sameTb]

end

end Sys2Proof.Machine
end

section
/-! SUPPORT. The operations on one axis (R79, R81, R82, R157, R255). -/
namespace Sys2Proof.Machine

/-! ### What denies an operation on an axis (R82, R255) -/

section
variable {s : State} {a : Fin 80}

theorem deniedAxes_fine (sealed : s.sv.sealed = true) (free : s.stopOf a = none) : deniedAxes s [a] = false := by
  simp [deniedAxes, sealed, free]

theorem deniedEnable_fine (owned : a.val < 64 → ∃ r, s.armOf a = some r ∧ s.armMatches r = true) : deniedEnable s a = false := by
  unfold deniedEnable
  by_cases joint : a.val < 64
  · obtain ⟨r, owner, same⟩ := owned joint
    simp [owner, same]
  · simp [joint]

theorem deniedClear_fine (sealed : s.sv.sealed = true) (cleared : ¬((s.axis a).selFault = true ∧ s.stopOf a ≠ none)) :
    deniedClear s a = false := by
  cases stop : s.stopOf a
  · simp [deniedClear, sealed, stop]
  · simp [deniedClear, sealed, stop] at cleared ⊢
    exact cleared

end

/-- The effect that an operation of flow `f` on axis `a` hands on. -/
def axisEffect (s : State) (f : Fin 16) (a : Fin 80) (opc : BitVec 8) (fn : BitVec 4) (k : EffKind) : Effect :=
  { flow := f, op := (s.flow f).nextOp, axes := [a], kind := k, opc := opc, fn := fn, obj := BitVec.ofNat 7 a.val, at_ := s.tb.timeFix }

section
variable {c : Instr} {s : State} {f : Fin 16} {w : TWord} {a : Fin 80} {opc : BitVec 8} {fn : BitVec 4} {uses : List (BitVec 5)}
  {mask : BitVec 32} {early : State → List (Bool × Status)} {gate : State → List (Bool × Status × BitVec 8)} {run : State → State}
  {k : EffKind}

/-- An operation on the axis that OBJ names, whose own effect is to hand on an effect. -/
theorem axisOp_takes (names : ((s.flow f).obj w).toNat = a.val)
    (meaning : exec c s = .next (s.devOp f opc fn w uses mask (some 80) early gate run)) (form : OpForm s f w uses mask)
    (earlyFine : ∀ c ∈ early (s.taken f), c.1 = false) (gateFine : ∀ c ∈ gate (s.taken f), c.1 = false)
    (hands : ∀ l, run (s.logged f l) = (s.logged f l).acceptEffect f w opc fn [a] k 0#8) :
    TakesEffect c s s f w 0#8 (axisEffect s f a opc fn k) := by
  obtain ⟨l, kept, ran⟩ := devOp_accepted meaning form (fun n max => by obtain rfl := Option.some.inj max; omega) earlyFine gateFine
  rw [hands] at ran
  exact acceptEffect_takes ran rfl ⟨rfl, rfl, rfl⟩ rfl kept form.1 names

end

/-! ### The operations -/

section
variable {s : State} {f : Fin 16} {w : TWord} {a : Fin 80} (names : ((s.flow f).obj w).toNat = a.val)
include names

theorem axisEnable_takes (form : OpForm s f w [w.ra] 0x7F#32) (noExt : w.xw = 0#4) (lease : s.lease = true)
    (legal : OpLegal s [.run] 9) (free : s.sv.sealed = true ∧ s.stopOf a = none)
    (owned : a.val < 64 → ∃ r, s.armOf a = some r ∧ s.armMatches r = true) (disabled : (s.axis a).state = .disabled) :
    TakesEffect (.axisEnable f w) s s f w 0#8 (axisEffect s f a 0x20#8 0#4 .enable) := by
  refine axisOp_takes names rfl form (fine_cons (xwNot_fine (by simp [noExt])) fine_nil) ?_ fun l => by rw [State.logged_opAxis names]
  dsimp only
  rw [State.taken_opAxis names]
  refine fine_cons (stateGate_fine legal _) (fine_cons (leaseGate_fine lease) (fine_cons ?_ (fine_cons ?_ fine_nil)))
  · exact Bool.or_eq_false_iff.mpr ⟨deniedAxes_fine free.1 free.2, deniedEnable_fine owned⟩
  · exact decide_eq_false (not_not_intro disabled)

theorem axisDisable_takes (form : OpForm s f w [w.ra] 0x7F#32) (noExt : w.xw = 0#4) (lease : s.lease = true)
    (legal : OpLegal s [.ready, .run] 9) (sound : (s.axis a).state ≠ .fault) :
    TakesEffect (.axisDisable f w) s s f w 0#8 (axisEffect s f a 0x20#8 1#4 .disable) := by
  refine axisOp_takes names rfl form (fine_cons (xwNot_fine (by simp [noExt])) fine_nil) ?_ fun l => by rw [State.logged_opAxis names]
  dsimp only
  rw [State.taken_opAxis names]
  exact fine_cons (stateGate_fine legal _) (fine_cons (leaseGate_fine lease) (fine_cons (decide_eq_false sound) fine_nil))

theorem axisClear_takes (form : OpForm s f w [w.ra] 0x7F#32) (noExt : w.xw = 0#4) (lease : s.lease = true)
    (legal : OpLegal s [.ready, .run] 9) (sealed : s.sv.sealed = true)
    (cleared : ¬((s.axis a).selFault = true ∧ s.stopOf a ≠ none)) (faulted : (s.axis a).state = .fault) :
    TakesEffect (.axisClear f w) s s f w 0#8 (axisEffect s f a 0x20#8 6#4 .clear) := by
  refine axisOp_takes names rfl form (fine_cons (xwNot_fine (by simp [noExt])) fine_nil) ?_ fun l => by rw [State.logged_opAxis names]
  dsimp only
  rw [State.taken_opAxis names]
  exact fine_cons (stateGate_fine legal _) (fine_cons (leaseGate_fine lease) (fine_cons (deniedClear_fine sealed cleared)
    (fine_cons (decide_eq_false (not_not_intro faulted)) fine_nil)))

/-! #### AXIS.MOVE (R157) -/

omit names in
theorem moveTarget_of {u : State} (axis : u.opAxis f w = a) (same : u.targetOf a = s.targetOf a) :
    moveTarget u f w = (w.x 0).toInt + if w.imm.getLsbD 8 then s.targetOf a else 0 := by
  rw [moveTarget, axis, same, bit]

omit names in
theorem moveLimits_fine (positive : w.xw = 4#4 → 1 ≤ (w.x 1).toInt ∧ 1 ≤ (w.x 2).toInt ∧ 1 ≤ (w.x 3).toInt) :
    (match moveLimits w with
     | some (v, a, d) => decide (v < 1) || decide (a < 1) || decide (d < 1)
     | none => false) = false := by
  unfold moveLimits
  by_cases long : w.xw = 4#4
  · obtain ⟨speed, acc, dec⟩ := positive long
    simp [long, speed, acc, dec]
  · simp [long]

theorem axisMove_takes (form : OpForm s f w [w.ra] 0x37F#32) (ext : w.xw = 1#4 ∨ w.xw = 4#4) (lease : s.lease = true)
    (legal : OpLegal s [.run] 9) (free : s.sv.sealed = true ∧ s.stopOf a = none)
    (movable : (s.axis a).state = .holding ∨ (s.axis a).state = .moving) (noMpc : underMpc s a = false) {target : Int}
    (given : target = (w.x 0).toInt + if w.imm.getLsbD 8 then s.targetOf a else 0) (fits : sat64 target = target)
    (low : (s.pax a).par 9 ≤ target) (high : target ≤ (s.pax a).par 10)
    (positive : w.xw = 4#4 → 1 ≤ (w.x 1).toInt ∧ 1 ≤ (w.x 2).toInt ∧ 1 ≤ (w.x 3).toInt) :
    TakesEffect (.axisMove f w) s s f w 0#8 (axisEffect s f a 0x20#8 2#4 (.move target (moveLimits w) (w.imm.getLsbD 9))) := by
  have logged (l) : moveTarget (s.logged f l) f w = target := (moveTarget_of (State.logged_opAxis names) rfl).trans given.symm
  have taken : moveTarget (s.taken f) f w = target := (moveTarget_of (State.taken_opAxis names) rfl).trans given.symm
  have inRange : moveRange (s.taken f) f w = false := by
    unfold moveRange
    rw [State.taken_opAxis names, taken]
    refine Bool.or_eq_false_iff.mpr ⟨?_, moveLimits_fine positive⟩
    simp [fits, show (s.taken f).pax a = s.pax a from rfl, low, high]
  refine axisOp_takes names rfl form (fine_cons (xwNot_fine (by simpa using ext)) (fine_cons inRange fine_nil)) ?_
    fun l => by rw [State.logged_opAxis names, logged, bit]
  dsimp only
  rw [State.taken_opAxis names]
  refine fine_cons (stateGate_fine legal _) (fine_cons (leaseGate_fine lease) (fine_cons (deniedAxes_fine free.1 free.2)
    (fine_cons ?_ (fine_cons noMpc fine_nil))))
  rcases movable with holding | moving
  · exact congrArg (fun st => !AxisState.movable st) holding
  · exact congrArg (fun st => !AxisState.movable st) moving

/-! #### AXIS.STOP, AXIS.HOME and SEG.RUN -/

omit names in
theorem stoppable_iff (st : AxisState) : st.stoppable = true ↔ st ∈ [.moving, .homing, .geared] := by
  cases st <;> decide

theorem axisStop_stops (form : OpForm s f w [w.ra] 0x17F#32) (noExt : w.xw = 0#4) (lease : s.lease = true)
    (legal : OpLegal s [.ready, .run, .safeHold] 9) :
    ((s.axis a).state ∈ [.moving, .homing, .geared] →
      TakesEffect (.axisStop f w) s s f w 0#8 (axisEffect s f a 0x20#8 3#4 (.stop (w.imm.getLsbD 8)))) ∧
    ((s.axis a).state ∉ [.moving, .homing, .geared] →
      ∃ t, exec (.axisStop f w) s = .next t ∧ OpFrame s t f ∧ Accepted s t f w 0x80#8 0#64 ∧ RegsKept s t f) := by
  have gate : ∀ c ∈ [stateGate (s.taken f) [.ready, .run, .safeHold] 9 (axCode (s.taken f) ((s.taken f).opAxis f w)),
      leaseGate (s.taken f)], c.1 = false :=
    fine_cons (stateGate_fine legal _) (fine_cons (leaseGate_fine lease) fine_nil)
  obtain ⟨l, kept, ran⟩ := devOp_accepted (c := .axisStop f w) rfl form
    (fun n max => by obtain rfl := Option.some.inj max; omega) (fine_cons (xwNot_fine (by simp [noExt])) fine_nil) gate
  dsimp only at ran
  rw [State.logged_opAxis names, show (s.logged f l).axis a = s.axis a from rfl] at ran
  refine ⟨fun moves => ?_, fun rests => ?_⟩
  · rw [if_pos ((stoppable_iff _).mpr moves)] at ran
    exact acceptEffect_takes ran rfl ⟨rfl, rfl, rfl⟩ rfl kept form.1 names
  · rw [if_neg (mt (stoppable_iff _).mp rests)] at ran
    exact ⟨_, ran, opAccept_accepted rfl ⟨rfl, rfl, rfl⟩ kept form.1⟩

theorem axisHome_takes (form : OpForm s f w [w.ra] 0xF7F#32) (ext : w.xw = 1#4) (lease : s.lease = true) (legal : OpLegal s [.run] 9)
    (free : s.sv.sealed = true ∧ s.stopOf a = none) (holding : (s.axis a).state = .holding) (noMpc : underMpc s a = false)
    (known : (field w.imm 8 4).toNat ≤ 4)
    (valid : field w.imm 8 4 = 2#4 ∨ field w.imm 8 4 = 4#4 → measureInvalid s a = false) :
    TakesEffect (.axisHome f w) s s f w 0#8 (axisEffect s f a 0x20#8 4#4 (.home (field w.imm 8 4) (w.x 0).toInt)) := by
  refine axisOp_takes names rfl form ?_ ?_ fun l => by rw [State.logged_opAxis names]
  · dsimp only
    rw [State.taken_opAxis names]
    refine fine_cons (xwNot_fine (by simp [ext])) (fine_cons (decide_eq_false (not_lt.mpr known)) (fine_cons ?_ fine_nil))
    rw [show measureInvalid (s.taken f) a = measureInvalid s a from rfl, Bool.and_eq_false_iff]
    by_cases search : field w.imm 8 4 = 2#4 ∨ field w.imm 8 4 = 4#4
    · exact .inr (valid search)
    · exact .inl (by simpa using search)
  · dsimp only
    rw [State.taken_opAxis names]
    exact fine_cons (stateGate_fine legal _) (fine_cons (leaseGate_fine lease) (fine_cons (deniedAxes_fine free.1 free.2)
      (fine_cons (decide_eq_false (not_not_intro holding)) (fine_cons noMpc fine_nil))))

theorem segRun_takes (form : OpForm s f w [w.ra] 0x77F#32) (noExt : w.xw = 0#4) (lease : s.lease = true) (legal : OpLegal s [.run] 9)
    (free : s.sv.sealed = true ∧ s.stopOf a = none) (holding : (s.axis a).state = .holding) {k : Fin 8}
    (slot : k.val = (field w.imm 8 3).toNat) (loaded : s.pg.slot[k] ≠ none) :
    TakesEffect (.segRun f w) s s f w 0#8 (axisEffect s f a 0x24#8 1#4 (.segRun k)) := by
  have named : Fin.ofNat 8 (field w.imm 8 3).toNat = k := by rw [← slot, Fin.ofNat_val_eq_self]
  subst named
  refine axisOp_takes names rfl form (fine_cons (xwNot_fine (by simp [noExt])) fine_nil) ?_
    fun l => by rw [State.logged_opAxis names]
  dsimp only
  rw [State.taken_opAxis names]
  refine fine_cons (stateGate_fine legal _) (fine_cons (leaseGate_fine lease) (fine_cons (deniedAxes_fine free.1 free.2)
    (fine_cons ?_ fine_nil)))
  rw [show (s.taken f).axis a = s.axis a from rfl, show (s.taken f).pg = s.pg from rfl, decide_eq_true holding,
    Option.isSome_iff_ne_none.mpr loaded]
  rfl

end

/-- Settles O21: each operation of the table on the axis that OBJ names. -/
theorem axisOperations : Obligations.AxisOperations := by
  intro f w s a names eff free st
  refine ⟨fun form noExt lease => ⟨fun legal free owned => axisEnable_takes names form noExt lease legal free owned,
      fun legal => axisDisable_takes names form noExt lease legal, fun legal => axisClear_takes names form noExt lease legal⟩,
    fun form ext lease legal free movable noMpc => ?_, fun form noExt lease legal => axisStop_stops names form noExt lease legal,
    fun form ext lease legal free holding noMpc => axisHome_takes names form ext lease legal free holding noMpc,
    fun form noExt lease legal free holding k slot => segRun_takes names form noExt lease legal free holding slot⟩
  intro target fits low high positive
  exact axisMove_takes names form ext lease legal free movable noMpc rfl fits low high positive

end Sys2Proof.Machine
end

section
/-! SUPPORT. Device operations whose own effect is known, by the way they end (R61, R62). -/
namespace Sys2Proof.Machine

section
variable {c : Instr} {s r : State} {f : Fin 16} {w : TWord} {opc : BitVec 8} {fn : BitVec 4} {uses : List (BitVec 5)} {mask : BitVec 32}
  {objMax : Option Nat} {early : State → List (Bool × Status)} {gate : State → List (Bool × Status × BitVec 8)} {run : State → State}

/-- An operation that completes at its acceptance, with the effect `r`. -/
theorem devOp_completes {flags : BitVec 8} (meaning : exec c s = .next (s.devOp f opc fn w uses mask objMax early gate run))
    (form : OpForm s f w uses mask) (inside : ∀ n, objMax = some n → ((s.flow f).obj w).toNat < n)
    (earlyFine : ∀ c ∈ early (s.taken f), c.1 = false) (gateFine : ∀ c ∈ gate (s.taken f), c.1 = false) (base : s.SameBase r)
    (does : ∀ l, run (s.logged f l) = (r.over (s.taken f).tr (s.taken f).cr { s.pr with log := l }).opAccept f w .ok flags none) :
    ∃ t, exec c s = .next t ∧ Accepted s t f w flags 0#64 ∧ RegsKept s t f ∧ OpFrame r t f := by
  obtain ⟨l, kept, ran⟩ := devOp_accepted meaning form inside earlyFine gateFine
  obtain ⟨frame, accepted, regs⟩ := opAccept_accepted (w := w) (flags := flags) (show Effected s r _ f l from rfl) base kept form.1
  exact ⟨_, by rw [ran, does], accepted, regs, frame⟩

/-- An operation that completes at its acceptance with a result for RD, and the effect `r`. -/
theorem devOp_answers {flags : BitVec 8} {v : W64} (meaning : exec c s = .next (s.devOp f opc fn w uses mask objMax early gate run))
    (form : OpForm s f w uses mask) (inside : ∀ n, objMax = some n → ((s.flow f).obj w).toNat < n)
    (earlyFine : ∀ c ∈ early (s.taken f), c.1 = false) (gateFine : ∀ c ∈ gate (s.taken f), c.1 = false) (base : s.SameBase r)
    (does : ∀ l, run (s.logged f l) = (r.over (s.taken f).tr (s.taken f).cr { s.pr with log := l }).opAccept f w .ok flags (some v)) :
    ∃ t, exec c s = .next t ∧ OpFrame r t f ∧ Accepted s t f w flags v ∧ RegWritten s t f w.rd v := by
  obtain ⟨l, kept, ran⟩ := devOp_accepted meaning form inside earlyFine gateFine
  exact ⟨_, by rw [ran, does], opAccept_result rfl base kept form.1⟩

/-- An operation that stands in flight after its acceptance, with the effect `r`. -/
theorem devOp_issues {rd : Bool} (meaning : exec c s = .next (s.devOp f opc fn w uses mask objMax early gate run))
    (form : OpForm s f w uses mask) (inside : ∀ n, objMax = some n → ((s.flow f).obj w).toNat < n)
    (earlyFine : ∀ c ∈ early (s.taken f), c.1 = false) (gateFine : ∀ c ∈ gate (s.taken f), c.1 = false) (base : s.SameBase r)
    (does : ∀ l, run (s.logged f l) = (r.over (s.taken f).tr (s.taken f).cr { s.pr with log := l }).opIssue f w rd) :
    ∃ t, exec c s = .next t ∧ InFlight s t f w (if rd then some w.rd else none) ∧ RegsKept s t f ∧ OpFrame r t f := by
  obtain ⟨l, kept, ran⟩ := devOp_accepted meaning form inside earlyFine gateFine
  obtain ⟨frame, inFlight, regs⟩ := opIssue_inFlight (w := w) (rd := rd) (show Effected s r _ f l from rfl) base kept form.1
  exact ⟨_, by rw [ran, does], inFlight, regs, frame⟩

/-- The object of an operation lies in range. -/
theorem obj_inside {n k : Nat} (names : ((s.flow f).obj w).toNat = k) (small : k < n) :
    ∀ m, some n = some m → ((s.flow f).obj w).toNat < m := fun m same => by
  obtain rfl := Option.some.inj same
  omega

/-- An operation that names no object. -/
theorem no_obj : ∀ n : Nat, none = some n → ((s.flow f).obj w).toNat < n := fun _ none => nomatch none

end

end Sys2Proof.Machine
end

section
/-! SUPPORT. Gearing, redefining a position, setting a parameter, reading an item (R79, R131, R141, R156, R168 to R170). -/
namespace Sys2Proof.Machine

/-! ### AXIS.GEAR -/

theorem State.pgSet_over (s : State) (tr : Treadle) (cr : Clocks) (pr : Pair) (a : Fin 80) (i : Nat) :
    (s.over tr cr pr).pgSet a i = (s.pgSet a i).over tr cr pr :=
  irqWatch_over s tr cr pr (axisVector a) _ (s.modPax a fun h => { h with sticky := setBit h.sticky i }) fun _ => rfl

theorem State.pgSet_frame (s : State) (a : Fin 80) (i : Nat) : ∃ pba out,
    s.pgSet a i = { s with pg.ax := upd s.pg.ax a fun q => { q with sticky := setBit q.sticky i }, hi.pba := pba, out := out } :=
  irqWatch_frame _ _ s _

theorem State.pgSet_sameBase (s : State) (a : Fin 80) (i : Nat) : s.SameBase (s.pgSet a i) ∧ (s.pgSet a i).tb = s.tb := by
  obtain ⟨pba, out, sets⟩ := s.pgSet_frame a i
  rw [sets]
  exact ⟨⟨rfl, rfl, rfl⟩, rfl⟩

/-- The state in which a gearing is accepted: with GEAR_BEHIND set when its master position lies behind. -/
def State.gearMarked (s : State) (a : Fin 80) (behind : Bool) : State := if behind then s.pgSet a 1 else s

theorem State.gearMarked_over (s : State) (tr : Treadle) (cr : Clocks) (pr : Pair) (a : Fin 80) (behind : Bool) :
    (s.over tr cr pr).gearMarked a behind = (s.gearMarked a behind).over tr cr pr := by
  cases behind
  · rfl
  · exact s.pgSet_over tr cr pr a 1

theorem State.gearMarked_sameBase (s : State) (a : Fin 80) (behind : Bool) :
    s.SameBase (s.gearMarked a behind) ∧ (s.gearMarked a behind).tb = s.tb := by
  cases behind
  · exact ⟨⟨rfl, rfl, rfl⟩, rfl⟩
  · exact s.pgSet_sameBase a 1

section
variable {s : State} {f : Fin 16} {w : TWord} {a : Fin 80} (names : ((s.flow f).obj w).toNat = a.val)
include names

theorem axisGear_takes {m : Fin 80} (master : m.val = (field w.imm 8 7).toNat) (form : OpForm s f w [w.ra] 0xFF7F#32)
    (ext : w.xw = if w.imm.getLsbD 15 then 2#4 else 1#4) (lease : s.lease = true) (legal : OpLegal s [.run] 9)
    (free : s.sv.sealed = true ∧ s.stopOf a = none)
    (gearable : (s.axis a).state = .holding ∨ ((s.axis a).state = .geared ∧ (s.pax a).gear.master = m))
    (closed : (s.axis m).state.closed = true) (noMpc : underMpc s a = false) (other : m ≠ a) (noLoop : a ∉ gearChain s 9 m)
    (short : 1 + (gearChain s 9 m).length + gearHeight s 9 a ≤ 8) :
    TakesEffect (.axisGear f w) s (s.gearMarked a (w.imm.getLsbD 15 && gearBehind s a m (w.x 1).toInt)) f w
      (if w.imm.getLsbD 15 && gearBehind s a m (w.x 1).toInt then 0x04#8 else 0#8)
      (axisEffect s f a 0x20#8 5#4 (.gear m (w.x 0).toInt (if w.imm.getLsbD 15 then some (w.x 1).toInt else none))) := by
  have named : Fin.ofNat 80 (field w.imm 8 7).toNat = m := by rw [← master, Fin.ofNat_val_eq_self]
  have inside : (field w.imm 8 7).toNat ≤ 79 := by omega
  have chain (n : Nat) (b : Fin 80) : gearChain (s.taken f) n b = gearChain s n b := by
    induction n generalizing b with
    | zero => rfl
    | succ n ih => rw [gearChain, gearChain, ih]; rfl
  have height (n : Nat) (b : Fin 80) : gearHeight (s.taken f) n b = gearHeight s n b := by
    induction n generalizing b with
    | zero => rfl
    | succ n ih => simp only [gearHeight, ih]; rfl
  obtain ⟨l, kept, ran⟩ := devOp_accepted (c := .axisGear f w) rfl form (obj_inside names a.isLt) (by
    dsimp only
    rw [State.taken_opAxis names, named, chain, height]
    refine fine_cons (decide_eq_false (not_not_intro ext)) (fine_cons (decide_eq_false (by omega)) (fine_cons (decide_eq_false other)
      (fine_cons ?_ (fine_cons (decide_eq_false (by omega)) fine_nil))))
    simpa using noLoop) (by
    dsimp only
    rw [State.taken_opAxis names, named]
    refine fine_cons (stateGate_fine legal _) (fine_cons (leaseGate_fine lease) (fine_cons (deniedAxes_fine free.1 free.2)
      (fine_cons ?_ (fine_cons ?_ (fine_cons noMpc fine_nil)))))
    · rw [show (s.taken f).axis a = s.axis a from rfl, show (s.taken f).pax a = s.pax a from rfl]
      rcases gearable with holding | ⟨geared, same⟩
      · simp [holding]
      · simp [geared, same]
    · exact congrArg (! ·) closed)
  dsimp only at ran
  rw [State.logged_opAxis names, named] at ran
  have marked : exec (.axisGear f w) s = .next (((s.logged f l).gearMarked a (w.imm.getLsbD 15 && gearBehind s a m (w.x 1).toInt)).acceptEffect
      f w 0x20#8 5#4 [a] (.gear m (w.x 0).toInt (if w.imm.getLsbD 15 then some (w.x 1).toInt else none))
      (if w.imm.getLsbD 15 && gearBehind s a m (w.x 1).toInt then 0x04#8 else 0#8)) := by
    rw [ran, bit]
    cases w.imm.getLsbD 15
    · rfl
    · rfl
  obtain ⟨base, time⟩ := s.gearMarked_sameBase a (w.imm.getLsbD 15 && gearBehind s a m (w.x 1).toInt)
  exact acceptEffect_takes marked (s.gearMarked_over _ _ _ a _) base time kept form.1 names

end

end Sys2Proof.Machine
end

section
/-! SUPPORT. Redefining a position, setting a parameter, reading an item (R79, R115, R131, R141, R156). -/
namespace Sys2Proof.Machine

/-! ### AXIS.SETPOS -/

theorem State.ch_fb_ne (s : State) {c d : Fin 96} (g : FbCh → FbCh) (ne : d ≠ c) : (upd s.fb.ch c g)[d] = s.ch d :=
  upd_get_ne _ _ _ _ _ fun same => ne (Fin.ext same.symm)

/-- A channel changed, with a sticky bit set (R128). -/
theorem State.modCh_fbSet_frame (s : State) (c : Fin 96) (g : FbCh → FbCh) (i : Nat) : ∃ pba out, (s.modCh c g).fbSet c i =
    { s with fb.ch := upd s.fb.ch c fun h => { g h with sticky := setBit (g h).sticky i }, hi.pba := pba, out := out } := by
  obtain ⟨pba, out, sets⟩ := (s.modCh c g).fbSet_frame c i
  refine ⟨pba, out, sets.trans ?_⟩
  rw [show (s.modCh c g).fb.ch = upd s.fb.ch c g from rfl, upd_upd]
  rfl

/-- A shift of a channel touches the channel itself and what its interrupt asks for (R115, R128). -/
theorem State.shiftChannel_frame (s : State) (c : Fin 96) (n : Int) : ∃ g pba out,
    s.shiftChannel c n = { s with fb.ch := upd s.fb.ch c g, hi.pba := pba, out := out } := by
  unfold State.shiftChannel
  dsimp only
  split
  · exact ⟨_, s.modCh_fbSet_frame c _ 10⟩
  · exact ⟨_, _, _, rfl⟩

/-- A shift of channels touches these channels, and what their interrupts ask for. -/
theorem State.shiftChannels_frame (s : State) (cs : List (Fin 96)) (n : Int) : ∃ ch pba out,
    s.forEach cs (fun s c => s.shiftChannel c n) = { s with fb.ch := ch, hi.pba := pba, out := out } ∧
      ∀ c, c ∉ cs → ch[c] = s.ch c := by
  refine forEach_induct (fun t => ∃ ch pba out, t = { s with fb.ch := ch, hi.pba := pba, out := out } ∧
    ∀ c, c ∉ cs → ch[c] = s.ch c) cs _
    ?_ s ⟨_, _, _, rfl, fun _ _ => rfl⟩
  rintro t d member ⟨ch, pba, out, rfl, same⟩
  obtain ⟨g, pba', out', shifts⟩ := State.shiftChannel_frame { s with fb.ch := ch, hi.pba := pba, out := out } d n
  refine ⟨_, _, _, shifts, fun c free => ?_⟩
  rw [← same c free]
  exact State.ch_fb_ne _ g fun eq => free (eq ▸ member)

/-- The measured position of an axis is shifted by `d`, through POS_OFF and the counts of its channels (R131). -/
theorem State.shiftAxis_frame (s : State) (a : Fin 80) (d : Int) : ∃ ch pos pba out,
    s.shiftAxis a d = { s with
      fb.ch := ch, ce.sl := upd s.ce.sl a (fun l => { l with posOff := pos, xm := l.xm + d }), hi.pba := pba, out := out } ∧
      ∀ c, c ∉ s.mapped a → ch[c] = s.ch c := by
  unfold State.shiftAxis
  dsimp only
  split
  · exact ⟨_, (s.slice a).posOff + d, _, _, rfl, fun _ _ => rfl⟩
  · obtain ⟨ch, pba, out, shifts, same⟩ := s.shiftChannels_frame (s.mapped a) (((s.slice a).posOff + d) / 65536)
    rw [shifts]
    exact ⟨ch, _, pba, out, rfl, same⟩

theorem State.slice_upd_same (s : State) (a : Fin 80) (g : Slice → Slice) : (upd s.ce.sl a g)[a] = g (s.slice a) := upd_get_same _ _ _

theorem State.slice_upd_ne (s : State) {a b : Fin 80} (g : Slice → Slice) (ne : b ≠ a) : (upd s.ce.sl a g)[b] = s.slice b :=
  upd_get_ne _ _ _ _ _ fun same => ne (Fin.ext same.symm)

theorem State.pax_upd_same (s : State) (a : Fin 80) (g : PgAxis → PgAxis) : (upd s.pg.ax a g)[a] = g (s.pax a) := upd_get_same _ _ _

theorem State.pax_upd_ne (s : State) {a b : Fin 80} (g : PgAxis → PgAxis) (ne : b ≠ a) : (upd s.pg.ax a g)[b] = s.pax b :=
  upd_get_ne _ _ _ _ _ fun same => ne (Fin.ext same.symm)

/-- The positions of an axis redefined by `d`: in HOLDING the commanded ones with the measured one (R141). -/
def State.repositioned (s : State) (a : Fin 80) (d : Int) : State :=
  if (s.axis a).state = .holding then (s.shiftAxis a d).shiftCommand a d else s.shiftAxis a d

/-- What a redefined position leaves (R115, R131, R141). -/
structure Repositions (s t : State) (a : Fin 80) (d : Int) : Prop where
  frame : t = { s with fb := t.fb, ce := t.ce, pg := t.pg, hi := t.hi, out := t.out }
  measured : (t.slice a).xm = (s.slice a).xm + d
  rest : (s.axis a).state ≠ .holding → t.pg = s.pg
  commanded : (s.axis a).state = .holding → (t.slice a).xr = (s.slice a).xr + d ∧ (t.pax a).hold = (s.pax a).hold + d
  others : ∀ b, b ≠ a → t.slice b = s.slice b ∧ t.pax b = s.pax b
  channels : ∀ c, c ∉ s.mapped a → t.ch c = s.ch c

theorem State.repositioned_spec (s : State) (a : Fin 80) (d : Int) : Repositions s (s.repositioned a d) a d := by
  obtain ⟨ch, pos, pba, out, shifts, same⟩ := s.shiftAxis_frame a d
  unfold State.repositioned
  rw [shifts]
  split
  · next holding =>
    refine ⟨rfl, ?_, fun other => absurd holding other, fun _ => ⟨?_, ?_⟩, fun b ne => ⟨?_, State.pax_upd_ne _ _ ne⟩, same⟩
    · simp only [State.slice, State.shiftCommand, State.modSlice, State.modPax, upd_upd]
      exact congrArg Slice.xm (s.slice_upd_same a _)
    · simp only [State.slice, State.shiftCommand, State.modSlice, State.modPax, upd_upd]
      exact congrArg Slice.xr (s.slice_upd_same a _)
    · exact congrArg PgAxis.hold (s.pax_upd_same a _)
    · simp only [State.slice, State.shiftCommand, State.modSlice, State.modPax, upd_upd]
      exact s.slice_upd_ne _ ne
  · next other =>
    refine ⟨rfl, ?_, fun _ => rfl, fun holding => absurd holding other, fun b ne => ⟨s.slice_upd_ne _ ne, rfl⟩, same⟩
    exact congrArg Slice.xm (s.slice_upd_same a _)

section
variable {s : State} {f : Fin 16} {w : TWord} {a : Fin 80} (names : ((s.flow f).obj w).toNat = a.val)
include names

theorem axisSetpos_repositions (form : OpForm s f w [w.ra] 0x7F#32) (ext : w.xw = 1#4) (lease : s.lease = true)
    (legal : OpLegal s [.ready, .run] 9) (resting : (s.axis a).state = .disabled ∨ (s.axis a).state = .holding) :
    ∃ t, exec (.axisSetpos f w) s = .next t ∧ Accepted s t f w 0#8 0#64 ∧ RegsKept s t f ∧
      OpFrame { s with fb := t.fb, ce := t.ce, pg := t.pg, hi := t.hi, out := t.out } t f ∧
      Repositions s { s with fb := t.fb, ce := t.ce, pg := t.pg, hi := t.hi, out := t.out } a ((w.x 0).toInt - (s.slice a).xm) := by
  obtain ⟨l, kept, ran⟩ := devOp_accepted (c := .axisSetpos f w) rfl form (obj_inside names a.isLt)
    (fine_cons (xwNot_fine (by simp [ext])) fine_nil) (by
      dsimp only
      rw [State.taken_opAxis names]
      refine fine_cons (stateGate_fine legal _) (fine_cons (leaseGate_fine lease) (fine_cons ?_ fine_nil))
      rw [show (s.taken f).axis a = s.axis a from rfl]
      rcases resting with disabled | holding
      · simp [disabled]
      · simp [holding])
  dsimp only at ran
  rw [State.logged_opAxis names] at ran
  obtain ⟨frame, measured, rest, commanded, others, channels⟩ := (s.logged f l).repositioned_spec a ((w.x 0).toInt - (s.slice a).xm)
  change exec _ s = .next (((s.logged f l).repositioned a ((w.x 0).toInt - (s.slice a).xm)).opAccept f w .ok 0#8 none) at ran
  generalize (s.logged f l).repositioned a ((w.x 0).toInt - (s.slice a).xm) = u at *
  have effect : Effected s { s with fb := u.fb, ce := u.ce, pg := u.pg, hi := u.hi, out := u.out } u f l := frame
  obtain ⟨opFrame, accepted, regs⟩ := opAccept_accepted (w := w) (flags := 0#8) effect ⟨rfl, rfl, rfl⟩ kept form.1
  exact ⟨_, ran, accepted, regs, opFrame, rfl, measured, rest, commanded, others, channels⟩

/-! ### AXIS.PARAM and AXIS.READ -/

theorem axisParam_defers {p : Nat} (number : p = (field w.imm 8 8).toNat) (form : OpForm s f w [w.ra] 0xFF7F#32) (ext : w.xw = 1#4)
    (legal : OpLegal s [.ready, .run] 9) (known : p ≤ 23) (good : paramBad (s.pax a) p (w.x 0) = false) (picks : s.tb.running = true) :
    ∃ t, exec (.axisParam f w) s = .next t ∧ InFlight s t f w none ∧ RegsKept s t f ∧
      OpFrame { s with pend := s.pend ++ [axisEffect s f a 0x20#8 8#4 (.param p (w.x 0))] } t f := by
  subst number
  refine devOp_issues (c := .axisParam f w) (rd := false) rfl form (obj_inside names a.isLt) ?_ ?_ ⟨rfl, rfl, rfl⟩ fun l => ?_
  · rw [State.taken_opAxis names]
    exact fine_cons (xwNot_fine (by simp [ext])) (fine_cons (decide_eq_false (not_lt.mpr known)) (fine_cons good fine_nil))
  · exact fine_cons (stateGate_fine legal _) fine_nil
  · dsimp only
    rw [State.logged_opAxis names, State.logged_opId, State.defer]
    exact if_pos picks

omit names in
/-- The items of AXIS.READ (R79). -/
theorem axisItem_eq (s : State) (a : Fin 80) (i : BitVec 8) : axisItem s a i =
    if i.toNat = 0 then (s.axis a).state.code.setWidth 64 else if i.toNat = 1 then BitVec.ofInt 64 (s.slice a).xr
    else if i.toNat = 2 then (if (s.slice a).unknown then 0#64 else BitVec.ofInt 64 (s.slice a).xm)
    else if i.toNat = 3 then (if (s.slice a).unknown then 0#64 else BitVec.ofInt 64 (s.slice a).vm)
    else (s.slice a).sticky.setWidth 64 ||| (s.pax a).sticky.setWidth 64 <<< 32 := by
  unfold axisItem
  split
  · rfl
  · rfl
  · rfl
  · rfl
  · next ne0 ne1 ne2 ne3 =>
    have apart (n : Nat) (small : n < 2 ^ 8) (ne : i ≠ BitVec.ofNat 8 n) : i.toNat ≠ n := fun same =>
      ne (BitVec.eq_of_toNat_eq (by rw [BitVec.toNat_ofNat, Nat.mod_eq_of_lt small, same]))
    rw [if_neg (apart 0 (by decide) ne0), if_neg (apart 1 (by decide) ne1), if_neg (apart 2 (by decide) ne2),
      if_neg (apart 3 (by decide) ne3)]

theorem axisRead_answers (form : OpForm s f w [w.ra, w.rd] 0xFF7F#32) (noExt : w.xw = 0#4)
    (legal : OpLegal s [.ready, .run, .safeHold] 9) (known : (field w.imm 8 8).toNat ≤ 4) :
    ∃ t, exec (.axisRead f w) s = .next t ∧ OpFrame s t f ∧ Accepted s t f w 0#8 (axisItem s a (field w.imm 8 8)) ∧
      RegWritten s t f w.rd (axisItem s a (field w.imm 8 8)) :=
  devOp_answers (c := .axisRead f w) rfl form (obj_inside names a.isLt)
    (fine_cons (xwNot_fine (by simp [noExt])) (fine_cons (decide_eq_false (not_lt.mpr known)) fine_nil))
    (fine_cons (stateGate_fine legal _) fine_nil) ⟨rfl, rfl, rfl⟩ fun l => by
      rw [State.logged_opAxis names]
      rfl

end

/-- Settles O22: the four operations on the axis that OBJ names. -/
theorem gearSetposParamRead : Obligations.GearSetposParamRead := by
  intro f w s a names eff st
  refine ⟨?_, ?_, ?_, ?_⟩
  · intro m master form ext lease legal sealed unstopped gearable closed noMpc other noLoop short w1 behind
    exact axisGear_takes names master form ext lease legal ⟨sealed, unstopped⟩ gearable closed noMpc other noLoop short
  · intro form ext lease legal resting d
    obtain ⟨t, ran, accepted, regs, frame, -, measured, rest, commanded, others, channels⟩ :=
      axisSetpos_repositions names form ext lease legal resting
    refine ⟨t, ran, accepted, regs, frame, measured.trans (by omega), fun disabled => rest ?_, commanded, others, channels⟩
    intro holding
    exact absurd (disabled.symm.trans holding) (by decide)
  · intro form ext legal p number known good picks
    obtain ⟨t, ran, inFlight, regs, frame⟩ := axisParam_defers names number form ext legal known good picks
    exact ⟨t, ran, frame, inFlight, regs⟩
  · intro form noExt legal i known l v
    have item : axisItem s a (field w.imm 8 8) = v := axisItem_eq s a _
    rw [← item]
    exact axisRead_answers names form noExt legal known

end Sys2Proof.Machine
end

section
/-! SUPPORT. The operations on an arm (R79, R81, R149, R255). -/
namespace Sys2Proof.Machine

/-- The effect that an operation of flow `f` on arm `r` hands on. -/
def armEffect (s : State) (f : Fin 16) (r : Fin 8) (fn : BitVec 4) (k : EffKind) : Effect :=
  { flow := f, op := (s.flow f).nextOp, axes := s.armAxes r, kind := k, opc := 0x21#8, fn := fn, obj := BitVec.ofNat 7 r.val,
    at_ := s.tb.timeFix }

section
variable {s : State} {r : Fin 8}

theorem deniedArm_fine (free : s.sv.sealed = true ∧ (s.sv.armPub[r]).stop = none) : deniedArm s r = false := by
  unfold deniedArm
  rw [free.1, free.2]
  rfl

theorem armAll_true {ok : AxisState → Bool} (some : s.armAxes r ≠ []) (all : ∀ a ∈ s.armAxes r, ok (s.axis a).state = true) :
    armAll s r ok = true := by
  simpa [armAll, some] using all

/-- The object condition of an arm operation as a check (R81). -/
theorem armAll_fine {ok : AxisState → Bool} (some : s.armAxes r ≠ []) (all : ∀ a ∈ s.armAxes r, ok (s.axis a).state = true) :
    (!armAll s r ok) = false := by
  rw [armAll_true some all]
  rfl

theorem movable_of {st : AxisState} (moves : st = .holding ∨ st = .moving) : st.movable = true := by
  rcases moves with rfl | rfl
  · rfl
  · rfl

/-- The axes that an ARM.DEFINE names. -/
theorem mem_newAxes {first count : Nat} (fits : first + count ≤ 64) {a : Fin 80}
    (member : a ∈ (List.range count).map fun i => Fin.ofNat 80 (first + i)) : first ≤ a.val ∧ a.val < first + count := by
  obtain ⟨i, below, rfl⟩ := List.mem_map.mp member
  have := List.mem_range.mp below
  rw [Fin.val_ofNat, Nat.mod_eq_of_lt (by omega)]
  omega

end

section
variable {c : Instr} {s : State} {f : Fin 16} {w : TWord} {r : Fin 8} {fn : BitVec 4} {uses : List (BitVec 5)} {mask : BitVec 32}
  {early : State → List (Bool × Status)} {gate : State → List (Bool × Status × BitVec 8)} {run : State → State} {k : EffKind}
  {flags : BitVec 8} (names : ((s.flow f).obj w).toNat = r.val)
include names

/-- An operation on the arm that OBJ names, whose own effect is to hand on an effect. -/
theorem armOp_takes (meaning : exec c s = .next (s.devOp f 0x21#8 fn w uses mask (some 8) early gate run)) (form : OpForm s f w uses mask)
    (earlyFine : ∀ c ∈ early (s.taken f), c.1 = false) (gateFine : ∀ c ∈ gate (s.taken f), c.1 = false)
    (hands : ∀ l, run (s.logged f l) = (s.logged f l).acceptEffect f w 0x21#8 fn (s.armAxes r) k flags) :
    TakesEffect c s s f w flags (armEffect s f r fn k) := by
  obtain ⟨l, kept, ran⟩ := devOp_accepted meaning form (obj_inside names r.isLt) earlyFine gateFine
  rw [hands] at ran
  exact acceptEffect_takes ran rfl ⟨rfl, rfl, rfl⟩ rfl kept form.1 names

theorem armDefine_defines {first count : Nat} (form : OpForm s f w [w.ra] 0xF7F7F#32) (noExt : w.xw = 0#4) (legal : OpLegal s [.ready] 9)
    (from_ : first = (field w.imm 8 7).toNat) (number : count = (field w.imm 16 4).toNat) (one : 1 ≤ count) (eight : count ≤ 8)
    (fits : first + count ≤ 64)
    (disabled : ∀ a : Fin 80, (first ≤ a.val ∧ a.val < first + count) ∨ a ∈ s.armAxes r → (s.axis a).state = .disabled)
    (free : ∀ a : Fin 80, first ≤ a.val → a.val < first + count → s.armOf a = none ∨ s.armOf a = some r) :
    ∃ t, exec (.armDefine f w) s = .next t ∧ Accepted s t f w 0#8 0#64 ∧ RegsKept s t f ∧
      OpFrame { s with cell.arm := upd s.cell.arm r fun _ => { first := first, count := count } } t f := by
  subst from_ number
  refine devOp_completes (c := .armDefine f w) rfl form (obj_inside names r.isLt) ?_ ?_ ⟨rfl, rfl, rfl⟩ fun l => ?_
  · refine fine_cons (xwNot_fine (by simp [noExt])) (fine_cons ?_ fine_nil)
    rw [Bool.or_eq_false_iff, Bool.or_eq_false_iff]
    exact ⟨⟨decide_eq_false (by omega), decide_eq_false (by omega)⟩, decide_eq_false (by omega)⟩
  · dsimp only
    rw [State.taken_opArm names]
    refine fine_cons (stateGate_fine legal _) (fine_cons ?_ (fine_cons ?_ fine_nil))
    · rw [Bool.not_eq_false', List.all_eq_true]
      intro a member
      refine decide_eq_true (disabled a ?_)
      rcases List.mem_append.mp member with new | old
      · exact .inl (mem_newAxes fits new)
      · exact .inr old
    · rw [List.any_eq_false]
      intro a member
      obtain ⟨low, high⟩ := mem_newAxes fits member
      rw [show (s.taken f).armOf a = s.armOf a from rfl]
      rcases free a low high with none | own
      · rw [none]
        exact Bool.false_ne_true
      · rw [own]
        simp
  · rw [State.logged_opArm names]
    rfl

theorem armEnable_takes (form : OpForm s f w [w.ra] 0x7F#32) (noExt : w.xw = 0#4) (lease : s.lease = true) (some : s.armAxes r ≠ [])
    (legal : OpLegal s [.run] 9) (free : s.sv.sealed = true ∧ (s.sv.armPub[r]).stop = none) (same : s.armMatches r = true)
    (disabled : ∀ a ∈ s.armAxes r, (s.axis a).state = .disabled) :
    TakesEffect (.armEnable f w) s s f w 0#8 (armEffect s f r 1#4 .enable) := by
  refine armOp_takes names rfl form (fine_cons (xwNot_fine (by simp [noExt])) fine_nil) ?_ fun l => by
    rw [State.logged_opArm names]
    rfl
  dsimp only
  rw [State.taken_opArm names]
  refine fine_cons (stateGate_fine legal _) (fine_cons (leaseGate_fine lease) (fine_cons ?_
    (fine_cons (armAll_fine some fun a member => decide_eq_true (disabled a member)) fine_nil)))
  rw [show (s.taken f).armMatches r = s.armMatches r from rfl, same]
  exact Bool.or_eq_false_iff.mpr ⟨deniedArm_fine free, rfl⟩

theorem armDisable_takes (form : OpForm s f w [w.ra] 0x7F#32) (noExt : w.xw = 0#4) (lease : s.lease = true) (some : s.armAxes r ≠ [])
    (legal : OpLegal s [.ready, .run] 9) (sound : ∀ a ∈ s.armAxes r, (s.axis a).state ≠ .fault) :
    TakesEffect (.armDisable f w) s s f w 0#8 (armEffect s f r 2#4 .disable) := by
  refine armOp_takes names rfl form (fine_cons (xwNot_fine (by simp [noExt])) fine_nil) ?_ fun l => by
    rw [State.logged_opArm names]
    rfl
  dsimp only
  rw [State.taken_opArm names]
  exact fine_cons (stateGate_fine legal _) (fine_cons (leaseGate_fine lease)
    (fine_cons (armAll_fine some fun a member => decide_eq_true (sound a member)) fine_nil))

theorem armMove_takes (form : OpForm s f w [w.ra, w.rb] 0x17F#32) (ext : w.xw.toNat = 1 + (s.armDef r).count) (lease : s.lease = true)
    (legal : OpLegal s [.run] 9) (free : s.sv.sealed = true ∧ (s.sv.armPub[r]).stop = none) (some : s.armAxes r ≠ [])
    (movable : ∀ a ∈ s.armAxes r, (s.axis a).state = .holding ∨ (s.axis a).state = .moving) (noMpc : (s.armDef r).mpc = false)
    {start : BitVec 32} (given : start = ((s.flow f).reg w.rb).setWidth 32 + (w.x 0).setWidth 32)
    (ahead : w.imm.getLsbD 8 = true → newer start s.tb.beatNum = true ∧ (start - s.tb.beatNum).toNat ≤ 2 ^ 30) :
    TakesEffect (.armMove f w) s s f w 0#8 (armEffect s f r 3#4 (.armMove r (if w.imm.getLsbD 8 then .some start else none)
      ((List.range (s.armDef r).count).map fun i => (w.x (1 + i)).toInt))) := by
  have startTaken : armStart (s.taken f) f w = start := by rw [given, armStart, State.taken_reg]
  have startLogged (l) : armStart (s.logged f l) f w = start := by rw [given, armStart, State.logged_reg]
  refine armOp_takes names rfl form ?_ ?_ fun l => by
    dsimp only
    rw [State.logged_opArm names, startLogged]
    rfl
  · dsimp only
    rw [State.taken_opArm names, startTaken]
    refine fine_cons (decide_eq_false (not_not_intro ext)) (fine_cons ?_ fine_nil)
    rw [bit, show (s.taken f).tb = s.tb from rfl]
    cases at_ : w.imm.getLsbD 8
    · rfl
    · obtain ⟨new, near⟩ := ahead at_
      rw [new, decide_eq_false (not_lt.mpr near)]
      rfl
  · dsimp only
    rw [State.taken_opArm names]
    exact fine_cons (stateGate_fine legal _) (fine_cons (leaseGate_fine lease) (fine_cons (deniedArm_fine free)
      (fine_cons (armAll_fine some fun a member => movable_of (movable a member)) (fine_cons noMpc fine_nil))))

theorem armStop_stops (form : OpForm s f w [w.ra] 0x17F#32) (noExt : w.xw = 0#4) (lease : s.lease = true)
    (legal : OpLegal s [.ready, .run, .safeHold] 9) :
    ((∃ a ∈ s.armAxes r, (s.axis a).state ∈ [.moving, .homing, .geared]) →
      TakesEffect (.armStop f w) s s f w 0#8 (armEffect s f r 4#4 (.armStop r (w.imm.getLsbD 8)))) ∧
    ((∀ a ∈ s.armAxes r, (s.axis a).state ∉ [.moving, .homing, .geared]) →
      ∃ t, exec (.armStop f w) s = .next t ∧ OpFrame s t f ∧ Accepted s t f w 0x80#8 0#64 ∧ RegsKept s t f) := by
  obtain ⟨l, kept, ran⟩ := devOp_accepted (c := .armStop f w) rfl form (obj_inside names r.isLt)
    (fine_cons (xwNot_fine (by simp [noExt])) fine_nil) (fine_cons (stateGate_fine legal _) (fine_cons (leaseGate_fine lease) fine_nil))
  dsimp only at ran
  rw [State.logged_opArm names, show (s.logged f l).armAxes r = s.armAxes r from rfl] at ran
  refine ⟨fun ⟨a, member, moves⟩ => ?_, fun rests => ?_⟩
  · rw [if_pos (List.any_eq_true.mpr ⟨a, member, (stoppable_iff _).mpr moves⟩)] at ran
    exact acceptEffect_takes ran rfl ⟨rfl, rfl, rfl⟩ rfl kept form.1 names
  · rw [if_neg] at ran
    · exact ⟨_, ran, opAccept_accepted rfl ⟨rfl, rfl, rfl⟩ kept form.1⟩
    · intro moves
      obtain ⟨a, member, moves⟩ := List.any_eq_true.mp moves
      exact rests a member ((stoppable_iff _).mp moves)

theorem armMpcOn_takes (form : OpForm s f w [w.ra] 0x17F#32) (noExt : w.xw = 0#4) (lease : s.lease = true) (legal : OpLegal s [.run] 9)
    (free : s.sv.sealed = true ∧ (s.sv.armPub[r]).stop = none) (some : s.armAxes r ≠ [])
    (movable : ∀ a ∈ s.armAxes r, (s.axis a).state = .holding ∨ (s.axis a).state = .moving) (planning : s.qp.planning = true) :
    TakesEffect (.armMpcOn f w) s s f w (if s.qpCurrent then 0#8 else 0x20#8) (armEffect s f r 5#4 (.mpcOn r)) := by
  refine armOp_takes names rfl form (fine_cons (xwNot_fine (by simp [noExt])) fine_nil) ?_ fun l => by
    dsimp only
    rw [State.logged_opArm names]
    rfl
  dsimp only
  rw [State.taken_opArm names]
  refine fine_cons (stateGate_fine legal _) (fine_cons (leaseGate_fine lease) (fine_cons (deniedArm_fine free) (fine_cons ?_ fine_nil)))
  rw [show (s.taken f).qp = s.qp from rfl, planning, Bool.and_true]
  exact armAll_fine some fun a member => movable_of (movable a member)

theorem armMpcOff_takes (form : OpForm s f w [w.ra] 0x17F#32) (noExt : w.xw = 0#4) (lease : s.lease = true) (legal : OpLegal s [.run] 9)
    (on : (s.armDef r).mpc = true) : TakesEffect (.armMpcOff f w) s s f w 0#8 (armEffect s f r 5#4 (.mpcOff r)) := by
  refine armOp_takes names rfl form (fine_cons (xwNot_fine (by simp [noExt])) fine_nil) ?_ fun l => by
    rw [State.logged_opArm names]
    rfl
  rw [State.taken_opArm names]
  exact fine_cons (stateGate_fine legal _) (fine_cons (leaseGate_fine lease) (fine_cons (congrArg (! ·) on) fine_nil))

end

/-- Settles O23: each operation of the table on the arm that OBJ names. -/
theorem armOperations : Obligations.ArmOperations := by
  intro f w s r names axes eff free
  refine ⟨fun form noExt legal first count => armDefine_defines names form noExt legal,
    fun form noExt lease some => ⟨armEnable_takes names form noExt lease some, armDisable_takes names form noExt lease some⟩,
    fun form ext lease legal free some movable noMpc => ?_,
    fun form noExt lease => ⟨fun legal => armStop_stops names form noExt lease legal, armMpcOn_takes names form noExt lease,
      armMpcOff_takes names form noExt lease⟩⟩
  intro start ahead
  exact armMove_takes names form ext lease legal free some movable noMpc rfl ahead

end Sys2Proof.Machine
end

section
/-! SUPPORT. What setting a channel's mode leaves (R116, R118), and the exchange of coefficient banks (R146). -/
namespace Sys2Proof.Machine

/-! ### Feedback channels -/

/-- Only the channels have changed, with what their interrupts and triggers put out; channel `c` has its mode and its reported count. -/
structure FbKeeps (s t : State) (c : Fin 96) : Prop where
  frame : t = { s with fb := t.fb, hi := t.hi, out := t.out }
  mode : (t.ch c).mode = (s.ch c).mode
  rep : (t.ch c).rep = (s.ch c).rep

section
variable {s t u : State} {c : Fin 96}

theorem FbKeeps.refl : FbKeeps s s c := ⟨rfl, rfl, rfl⟩

theorem FbKeeps.trans (first : FbKeeps s t c) (second : FbKeeps t u c) : FbKeeps s u c := by
  refine ⟨?_, second.mode.trans first.mode, second.rep.trans first.rep⟩
  rw [second.frame, first.frame]

theorem FbKeeps.ite {p : Prop} [Decidable p] (yes : FbKeeps s t c) (no : FbKeeps s u c) : FbKeeps s (if p then t else u) c := by
  split
  · exact yes
  · exact no

theorem State.ch_upd_same (s : State) (c : Fin 96) (g : FbCh → FbCh) : (upd s.fb.ch c g)[c] = g (s.ch c) := upd_get_same _ _ _

theorem State.ch_modCh_same (s : State) (c : Fin 96) (g : FbCh → FbCh) : (s.modCh c g).ch c = g (s.ch c) := s.ch_upd_same c g

theorem State.modCh_fbKeeps (s : State) (c : Fin 96) {g : FbCh → FbCh} (mode : (g (s.ch c)).mode = (s.ch c).mode)
    (rep : (g (s.ch c)).rep = (s.ch c).rep) : FbKeeps s (s.modCh c g) c :=
  ⟨rfl, by rw [State.ch_modCh_same, mode], by rw [State.ch_modCh_same, rep]⟩

theorem State.fbSet_fbKeeps (s : State) (c : Fin 96) (i : Nat) : FbKeeps s (s.fbSet c i) c := by
  obtain ⟨pba, out, sets⟩ := s.fbSet_frame c i
  rw [sets]
  exact ⟨rfl, (congrArg FbCh.mode (s.ch_upd_same c _)).trans rfl, (congrArg FbCh.rep (s.ch_upd_same c _)).trans rfl⟩

theorem State.trace_fbKeeps (s : State) (c : Fin 96) (kind : BitVec 2) (count : Int) (n : Nat) : FbKeeps s (s.trace c kind count n) c :=
  .ite (.ite ⟨rfl, rfl, rfl⟩ ⟨rfl, rfl, rfl⟩) .refl

theorem State.driveTrig_fbKeeps (s : State) (o : Fin 8) (active : Bool) : FbKeeps s (s.driveTrig o active) c :=
  .ite ⟨rfl, rfl, rfl⟩ .refl

theorem State.fireCompare_fbKeeps (s : State) (c : Fin 96) (n : Nat) : FbKeeps s (s.fireCompare c n) c := by
  unfold State.fireCompare
  dsimp only
  generalize fired : State.fbSet _ c 1 = u
  have first : FbKeeps s u c := by
    rw [← fired]
    exact (s.modCh_fbKeeps c rfl rfl).trans (State.fbSet_fbKeeps _ c 1)
  have pulses (g : Vector Trig 8) : FbKeeps u { u with fb.trig := g } c := ⟨rfl, rfl, rfl⟩
  exact .ite (.ite (first.trans ((pulses _).trans (State.driveTrig_fbKeeps _ _ _))) (first.trans (pulses _))) first

/-- Only the channels have changed, with what their interrupts and triggers put out; channel `c` has its mode, and reports `rep`. -/
structure FbReports (s t : State) (c : Fin 96) (rep : Int) : Prop where
  frame : t = { s with fb := t.fb, hi := t.hi, out := t.out }
  mode : (t.ch c).mode = (s.ch c).mode
  rep : (t.ch c).rep = rep

theorem FbReports.trans {rep : Int} (first : FbReports s t c rep) (second : FbKeeps t u c) : FbReports s u c rep := by
  refine ⟨?_, second.mode.trans first.mode, second.rep.trans first.rep⟩
  rw [second.frame, first.frame]

/-- A reported edge gives the channel its count, and leaves its mode (R117, R124). -/
theorem State.reportEdge_reports (s : State) (c : Fin 96) (rep d : Int) (n k : Nat) : FbReports s (s.reportEdge c rep d n k) c rep := by
  unfold State.reportEdge
  dsimp only
  generalize counted : State.modCh s c _ = s1
  have one : FbReports s s1 c rep := by
    rw [← counted]
    exact ⟨rfl, (congrArg FbCh.mode (s.ch_upd_same c _)).trans rfl, congrArg FbCh.rep (s.ch_upd_same c _)⟩
  clear counted
  generalize marked : (if decide (d ≠ (s.ch c).dir) = true then s1.fbSet c 0 else s1) = s2
  have two : FbKeeps s1 s2 c := by
    rw [← marked]
    exact .ite (s1.fbSet_fbKeeps c 0) .refl
  have three : FbKeeps s1 (s2.trace c 2#2 rep n) c := two.trans (s2.trace_fbKeeps c _ _ _)
  exact one.trans (.ite (three.trans (State.fireCompare_fbKeeps _ c n)) three)

end

/-- R116, R118: what setting the mode of a channel leaves. -/
theorem State.setFbMode_spec (s : State) (c : Fin 96) (m : FbMode) : ∃ fb hi out,
    s.setFbMode c m = { s with fb := fb, hi := hi, out := out } ∧ (fb.ch[c]).mode = m ∧ (m = .normal → (fb.ch[c]).rep = (s.ch c).raw) := by
  unfold State.setFbMode State.enterNormal
  dsimp only
  split
  · next normal =>
    subst normal
    split
    · next same =>
      refine ⟨_, _, _, rfl, congrArg FbCh.mode (s.ch_upd_same c _), fun _ => ?_⟩
      exact (congrArg FbCh.rep (s.ch_upd_same c _)).trans same.symm
    · obtain ⟨frame, mode, rep⟩ := (s.modCh c fun h => { h with mode := .normal }).reportEdge_reports c (s.ch c).raw
        (sgn ((s.ch c).raw - (s.ch c).rep)) (s.ch c).rawE 1
      exact ⟨_, _, _, frame, mode.trans (congrArg FbCh.mode (s.ch_upd_same c _)), fun _ => rep⟩
  · next other => exact ⟨_, _, _, rfl, congrArg FbCh.mode (s.ch_upd_same c _), fun normal => absurd normal other⟩

/-- Outside NORMAL, and where the raw count is already reported, the mode is all that changes. -/
theorem State.setFbMode_plain (s : State) (c : Fin 96) {m : FbMode} (plain : m ≠ .normal ∨ (s.ch c).raw = (s.ch c).rep) :
    s.setFbMode c m = s.modCh c fun h => { h with mode := m } := by
  unfold State.setFbMode State.enterNormal
  by_cases normal : m = .normal
  · subst normal
    rw [if_pos rfl]
    exact if_pos (plain.resolve_left (not_not_intro rfl))
  · exact if_neg normal

/-! ### Coefficient banks -/

section
variable (s : State) (tr : Treadle) (cr : Clocks) (pr : Pair)

theorem State.ceSetMany_over (a : Fin 80) (m : BitVec 11) : (s.over tr cr pr).ceSetMany a m = (s.ceSetMany a m).over tr cr pr := by
  unfold State.ceSetMany
  split
  · rfl
  · exact irqWatch_over s tr cr pr (axisVector a) _ (s.modSlice a fun l => { l with sticky := l.sticky ||| m }) fun _ => rfl

theorem State.swapBank_over (a : Fin 80) : (s.over tr cr pr).swapBank a = (s.swapBank a).over tr cr pr := by
  unfold State.swapBank
  dsimp only
  rw [← State.emit_over, ← State.ceSetMany_over]
  rfl

end

theorem State.ceSetMany_frame (s : State) (a : Fin 80) {m : BitVec 11} (some : m ≠ 0#11) : ∃ pba out,
    s.ceSetMany a m = { s with ce.sl := upd s.ce.sl a (fun l => { l with sticky := l.sticky ||| m }), hi.pba := pba, out := out } := by
  rw [State.ceSetMany, if_neg some]
  exact irqWatch_frame _ _ s _

theorem State.ceSetMany_sameBase (s : State) (a : Fin 80) (m : BitVec 11) : s.SameBase (s.ceSetMany a m) := by
  by_cases zero : m = 0#11
  · rw [State.ceSetMany, if_pos zero]
    exact ⟨rfl, rfl, rfl⟩
  · obtain ⟨pba, out, sets⟩ := s.ceSetMany_frame a zero
    rw [sets]
    exact ⟨rfl, rfl, rfl⟩

theorem State.ceSetMany_slice (s : State) (a : Fin 80) (m : BitVec 11) :
    (s.ceSetMany a m).slice a = { s.slice a with sticky := (s.slice a).sticky ||| m } := by
  by_cases zero : m = 0#11
  · rw [State.ceSetMany, if_pos zero]
    simp [zero]
  · obtain ⟨pba, out, sets⟩ := s.ceSetMany_frame a zero
    rw [sets]
    exact s.slice_upd_same a _

theorem State.emit_slice (s : State) (src : Nat) (code : BitVec 12) (p : List (BitVec 32)) (a : Fin 80) :
    (s.emit src code p).slice a = s.slice a := by
  obtain ⟨_, _, _, emits⟩ := s.emit_frame src code p
  rw [emits]
  rfl

theorem State.emit_sameBase (s : State) (src : Nat) (code : BitVec 12) (p : List (BitVec 32)) : s.SameBase (s.emit src code p) :=
  ⟨s.emit_tr src code p, s.emit_cr src code p, s.emit_pr src code p⟩

theorem State.SameBase.trans {s t u : State} (first : s.SameBase t) (second : t.SameBase u) : s.SameBase u :=
  ⟨second.tr.trans first.tr, second.cr.trans first.cr, second.pr.trans first.pr⟩

theorem State.swapBank_sameBase (s : State) (a : Fin 80) : s.SameBase (s.swapBank a) :=
  have exchanged : s.SameBase (s.modSlice a fun _ => (s.slice a).swap.1) := ⟨rfl, rfl, rfl⟩
  (exchanged.trans (State.ceSetMany_sameBase _ a _)).trans (State.emit_sameBase _ _ _ _)

/-- What an exchange of the banks leaves of the slice (R146). -/
theorem State.swapBank_slice (s : State) (a : Fin 80) : ∃ sticky, (s.swapBank a).slice a = { (s.slice a).swap.1 with sticky := sticky } := by
  have swapped : (s.modSlice a fun _ => (s.slice a).swap.1).slice a = (s.slice a).swap.1 := s.slice_upd_same a _
  have marked := State.ceSetMany_slice (s.modSlice a fun _ => (s.slice a).swap.1) a (bitAt true 10 ||| bitAt (s.slice a).swap.2 2)
  rw [swapped] at marked
  exact ⟨_, (State.emit_slice _ _ _ _ a).trans marked⟩

/-- An exchange of the banks touches the choice of the bank, LOADED and the integrator (R146, R147). -/
theorem Slice.swap_fst (l : Slice) : ∃ ic, l.swap.1 = { l with bankSel := !l.bankSel, loaded := false, ic := ic } := ⟨_, rfl⟩

theorem State.swapBank_banks (s : State) (a : Fin 80) :
    ((s.swapBank a).slice a).bankSel = (!(s.slice a).bankSel) ∧ ((s.swapBank a).slice a).bankA = (s.slice a).bankA ∧
      ((s.swapBank a).slice a).bankB = (s.slice a).bankB ∧ ((s.swapBank a).slice a).loaded = false := by
  obtain ⟨sticky, slice⟩ := s.swapBank_slice a
  obtain ⟨ic, swapped⟩ := (s.slice a).swap_fst
  rw [slice, swapped]
  exact ⟨rfl, rfl, rfl, rfl⟩

end Sys2Proof.Machine
end

section
/-! SUPPORT. The operations on loops, feedback channels and segment tables (R80, R81, R116, R118, R124, R125, R144 to R146, R166). -/
namespace Sys2Proof.Machine

/-! ### Images in the Shared data partition -/

/-- An image that lies in the partition is read whole. -/
theorem image_eq {s : State} {a : W64} {n : Nat} (fits : a.toNat + n ≤ Config.sharedBase + 8 * Config.sharedWords) :
    s.image a n = memReadList s.mem a.toNat n := by
  rw [State.image, State.rdBytes, sharedEnd, Nat.min_eq_left (by omega)]

theorem sharedOk_of {a : W64} {size n : Nat} (low : Config.sharedBase ≤ a.toNat) (aligned : a.toNat % size = 0) (long : size ≤ n)
    (fits : a.toNat + n ≤ Config.sharedBase + 8 * Config.sharedWords) : sharedOk a size = true :=
  (sharedOk_iff a size).mpr ⟨low, by omega, aligned⟩

section
variable {s : State} {f : Fin 16} {w : TWord}

/-! ### Loops -/

theorem State.over_slice (s : State) (tr : Treadle) (cr : Clocks) (pr : Pair) (a : Fin 80) : (s.over tr cr pr).slice a = s.slice a := rfl

theorem State.opAccept_slice (s : State) (f : Fin 16) (w : TWord) (st : Status) (flags : BitVec 8) (v : Option W64) (a : Fin 80) :
    (s.opAccept f w st flags v).slice a = s.slice a := rfl

section
variable {a : Fin 80} (names : ((s.flow f).obj w).toNat = a.val)
include names

theorem loopLoad_loads {image : List Byte} (form : OpForm s f w [w.ra] 0x7F#32) (legal : OpLegal s [.ready, .run] 9) (ext : w.xw = 1#4)
    (low : Config.sharedBase ≤ (w.x 0).toNat) (aligned : (w.x 0).toNat % 8 = 0)
    (fits : (w.x 0).toNat + 96 ≤ Config.sharedBase + 8 * Config.sharedWords) (noSwap : (s.slice a).swapPend = [])
    (read : image = memReadList s.mem (w.x 0).toNat 96) (reserved : bankReserved image = false)
    (ranged : (imgBank image).outOfRange = false) :
    ∃ t, exec (.loopLoad f w) s = .next t ∧ Accepted s t f w 0#8 0#64 ∧ RegsKept s t f ∧
      OpFrame { s with ce.sl := upd s.ce.sl a fun l =>
        if l.bankSel then { l with bankA := imgBank image, loaded := true } else { l with bankB := imgBank image, loaded := true } } t f := by
  have taken : (s.taken f).image (w.x 0) 96 = image := (image_eq fits).trans read.symm
  have logged (l) : (s.logged f l).image (w.x 0) 96 = image := (image_eq fits).trans read.symm
  refine devOp_completes (c := .loopLoad f w) rfl form (obj_inside names a.isLt) ?_ ?_ ⟨rfl, rfl, rfl⟩ fun l => ?_
  · dsimp only
    rw [taken, sharedOk_of low aligned (by decide : 8 ≤ 96) fits]
    exact fine_cons (xwNot_fine (by simp [ext])) (fine_cons rfl (fine_cons reserved
      (fine_cons (decide_eq_false (not_lt.mpr fits)) (fine_cons ranged fine_nil))))
  · dsimp only
    rw [State.taken_opAxis names, show (s.taken f).slice a = s.slice a from rfl, noSwap]
    exact fine_cons (stateGate_fine legal _) (fine_cons rfl fine_nil)
  · rw [State.logged_opAxis names, logged]
    rfl

/-- The checks of LOOP.SWAP. -/
theorem loopSwap_accepted (form : OpForm s f w [w.ra] 0x7F#32) (legal : OpLegal s [.ready, .run] 9) (noExt : w.xw = 0#4)
    (lease : s.lease = true) (sound : (s.axis a).state ≠ .fault) : ∃ l, LogKept s l ∧ exec (.loopSwap f w) s = .next (
      if s.tb.running then ((s.logged f l).opIssue f w false).modSlice a fun sl =>
        { sl with swapPend := sl.swapPend ++ [(f, (s.flow f).nextOp, s.tb.timeFix)] }
      else ((s.logged f l).swapBank a).opAccept f w .ok 0#8 none) := by
  obtain ⟨l, kept, ran⟩ := devOp_accepted (c := .loopSwap f w) rfl form (obj_inside names a.isLt)
    (fine_cons (xwNot_fine (by simp [noExt])) fine_nil) (by
      dsimp only
      rw [State.taken_opAxis names]
      exact fine_cons (stateGate_fine legal _) (fine_cons (leaseGate_fine lease) (fine_cons (decide_eq_false sound) fine_nil)))
  dsimp only at ran
  rw [State.logged_opAxis names, State.logged_opId] at ran
  exact ⟨l, kept, ran⟩

theorem loopSwap_pends (form : OpForm s f w [w.ra] 0x7F#32) (legal : OpLegal s [.ready, .run] 9) (noExt : w.xw = 0#4)
    (lease : s.lease = true) (sound : (s.axis a).state ≠ .fault) (picks : s.tb.running = true) :
    ∃ t, exec (.loopSwap f w) s = .next t ∧ InFlight s t f w none ∧ RegsKept s t f ∧
      OpFrame { s with ce.sl := upd s.ce.sl a fun l =>
        { l with swapPend := l.swapPend ++ [(f, (s.flow f).nextOp, s.tb.timeFix)] } } t f := by
  obtain ⟨l, kept, ran⟩ := loopSwap_accepted names form legal noExt lease sound
  rw [if_pos picks] at ran
  have effect : Effected s { s with ce.sl := upd s.ce.sl a fun l =>
      { l with swapPend := l.swapPend ++ [(f, (s.flow f).nextOp, s.tb.timeFix)] } } _ f l := rfl
  obtain ⟨frame, inFlight, regs⟩ := opIssue_inFlight (w := w) (rd := false) effect ⟨rfl, rfl, rfl⟩ kept form.1
  exact ⟨_, ran, inFlight, regs, frame⟩

theorem loopSwap_swaps (form : OpForm s f w [w.ra] 0x7F#32) (legal : OpLegal s [.ready, .run] 9) (noExt : w.xw = 0#4)
    (lease : s.lease = true) (sound : (s.axis a).state ≠ .fault) (stopped : s.tb.running = false) :
    ∃ t, exec (.loopSwap f w) s = .next t ∧ Accepted s t f w 0#8 0#64 ∧ RegsKept s t f ∧
      OpFrame (s.swapBank a) t f ∧ (t.slice a).bankSel = !(s.slice a).bankSel ∧ (t.slice a).bankA = (s.slice a).bankA ∧
      (t.slice a).bankB = (s.slice a).bankB ∧ (t.slice a).loaded = false := by
  obtain ⟨l, kept, ran⟩ := loopSwap_accepted names form legal noExt lease sound
  rw [if_neg (by rw [stopped]; exact Bool.false_ne_true)] at ran
  obtain ⟨frame, accepted, regs⟩ := opAccept_accepted (w := w) (flags := 0#8)
    (show Effected s _ ((s.logged f l).swapBank a) f l from State.swapBank_over ..) (s.swapBank_sameBase a) kept form.1
  have slice : (((s.logged f l).swapBank a).opAccept f w .ok 0#8 none).slice a = (s.swapBank a).slice a := by
    rw [State.opAccept_slice, State.logged, State.swapBank_over, State.over_slice]
  obtain ⟨bankSel, bankA, bankB, loaded⟩ := s.swapBank_banks a
  rw [← slice] at bankSel bankA bankB loaded
  exact ⟨_, ran, accepted, regs, frame, bankSel, bankA, bankB, loaded⟩

end

/-! ### Feedback channels -/

section
variable {c : Fin 96} (names : ((s.flow f).obj w).toNat = c.val)
include names

theorem fbMode_sets (form : OpForm s f w [w.ra] 0x37F#32) (legal : OpLegal s [.ready, .run] 9) (noExt : w.xw = 0#4)
    (resting : (s.ch c).mapped = true →
      ∀ a : Fin 80, a.val = (s.ch c).axis.toNat % 80 → (s.axis a).state = .disabled ∨ (s.axis a).state = .holding)
    {m : FbMode} (mode : FbMode.ofCode (field w.imm 8 2) = m) :
    ∃ t, exec (.fbMode f w) s = .next t ∧ Accepted s t f w 0#8 0#64 ∧ RegsKept s t f ∧ (t.ch c).mode = m ∧
      (m = .normal → (t.ch c).rep = (s.ch c).raw) ∧
      (m ≠ .normal ∨ (s.ch c).raw = (s.ch c).rep → OpFrame { s with fb.ch := t.fb.ch } t f ∧ ∀ d, d ≠ c → t.ch d = s.ch d) := by
  obtain ⟨l, kept, ran⟩ := devOp_accepted (c := .fbMode f w) rfl form (obj_inside names c.isLt)
    (fine_cons (xwNot_fine (by simp [noExt])) fine_nil) (by
      dsimp only
      rw [State.taken_opCh names]
      refine fine_cons (stateGate_fine legal _) (fine_cons ?_ fine_nil)
      rw [show (s.taken f).ch c = s.ch c from rfl]
      cases isMapped : (s.ch c).mapped
      · rfl
      · rcases resting isMapped (Fin.ofNat 80 (s.ch c).axis.toNat) rfl with disabled | holding
        · simp [State.taken, State.axis] at disabled ⊢
          simp [disabled]
        · simp [State.taken, State.axis] at holding ⊢
          simp [holding])
  rw [State.logged_opCh names, mode] at ran
  obtain ⟨fb, hi, out, sets, isMode, reports⟩ := (s.logged f l).setFbMode_spec c m
  have plain := fun h => (s.logged f l).setFbMode_plain (m := m) c h
  generalize (s.logged f l).setFbMode c m = u at ran sets plain
  have effect : Effected s { s with fb := fb, hi := hi, out := out } u f l := sets
  obtain ⟨frame, accepted, regs⟩ := opAccept_accepted (w := w) (flags := 0#8) effect ⟨rfl, rfl, rfl⟩ kept form.1
  refine ⟨_, ran, accepted, regs, ?_, fun normal => ?_, fun same => ?_⟩
  · rw [sets]
    exact isMode
  · rw [sets]
    exact reports normal
  · have alone : Effected s { s with fb.ch := upd s.fb.ch c fun h => { h with mode := m } } u f l := plain same
    obtain ⟨frame, -, -⟩ := opAccept_accepted (w := w) (flags := 0#8) alone ⟨rfl, rfl, rfl⟩ kept form.1
    have channels : (u.opAccept f w .ok 0#8 none).fb.ch = upd s.fb.ch c fun h => { h with mode := m } := by
      rw [alone]
      rfl
    rw [channels]
    refine ⟨frame, fun d ne => ?_⟩
    rw [State.ch, channels]
    exact s.ch_fb_ne _ ne

omit names in
/-- A compare at `x` lies behind its channel (R125). -/
theorem cmpBehind_flag (h : FbCh) (x : Int) :
    (if cmpBehind h x then flagCmpBehind else 0#8) = if 0 ≤ (h.rep - x) * h.dir then 0x02#8 else 0#8 := by
  simp only [cmpBehind, decide_eq_true_eq]
  rfl

theorem fbCompare_arms (form : OpForm s f w [w.ra] 0x77F#32) (legal : OpLegal s [.ready, .run] 9) (ext : w.xw = 1#4)
    (lease : s.lease = true) (whole : (w.x 0).toNat % 65536 = 0) :
    ∃ t, exec (.fbCompare f w) s = .next t ∧
      Accepted s t f w (if 0 ≤ ((s.ch c).rep - (w.x 0).toInt / 65536) * (s.ch c).dir then 0x02#8 else 0#8) 0#64 ∧ RegsKept s t f ∧
      OpFrame { s with fb.ch := upd s.fb.ch c fun h =>
        { h with armed := true, cmp := w.x 0, cmpTrig := Fin.ofNat 8 (field w.imm 8 3).toNat } } t f := by
  have counts : (w.x 0).setWidth 16 = 0#16 := BitVec.eq_of_toNat_eq (by simpa using whole)
  refine devOp_completes (c := .fbCompare f w) rfl form (obj_inside names c.isLt)
    (fine_cons (xwNot_fine (by simp [ext])) (fine_cons (decide_eq_false (not_not_intro counts)) fine_nil))
    (fine_cons (stateGate_fine legal _) (fine_cons (leaseGate_fine lease) fine_nil)) ⟨rfl, rfl, rfl⟩ fun l => ?_
  dsimp only
  rw [State.logged_opCh names, show (s.logged f l).ch c = s.ch c from rfl, cmpBehind_flag]
  rfl

theorem fbUnarm_disarms (form : OpForm s f w [w.ra] 0x7F#32) (legal : OpLegal s [.ready, .run] 9) (noExt : w.xw = 0#4)
    (lease : s.lease = true) :
    ∃ t, exec (.fbUnarm f w) s = .next t ∧ Accepted s t f w (if (s.ch c).armed then 0#8 else 0x80#8) 0#64 ∧ RegsKept s t f ∧
      OpFrame { s with fb.ch := upd s.fb.ch c fun h => { h with armed := false } } t f := by
  refine devOp_completes (c := .fbUnarm f w) rfl form (obj_inside names c.isLt) (fine_cons (xwNot_fine (by simp [noExt])) fine_nil)
    (fine_cons (stateGate_fine legal _) (fine_cons (leaseGate_fine lease) fine_nil)) ⟨rfl, rfl, rfl⟩ fun l => ?_
  rw [State.logged_opCh names]
  rfl

end

/-! ### Segment tables -/

/-- The table that an image holds (R166). -/
theorem segments_eq {a : W64} {n : Nat} (some : n ≤ 1024) (fits : a.toNat + 16 * n ≤ Config.sharedBase + 8 * Config.sharedWords) :
    s.segments a n = (List.range n).map fun i => imgSegment (memReadList s.mem a.toNat (16 * n)) i := by
  rw [State.segments, Nat.min_eq_left some, image_eq fits]

theorem slotUsers_zero {k : Fin 8} (free : ∀ a, ¬((s.pax a).src = .seg ∧ (s.pax a).seg.slot = k)) : slotUsers s k = 0 := by
  rw [slotUsers, List.length_eq_zero_iff, List.filter_eq_nil_iff]
  intro a _ used
  exact free a (by simpa using used)

theorem Segment.bad_eq_false {g : Segment} {n : Nat} (good : g.picks ≠ 0 ∧ (g.jump = true → g.next < n)) : g.bad n = false := by
  obtain ⟨picks, jumps⟩ := good
  rw [Segment.bad, decide_eq_false picks]
  cases jump : g.jump
  · rfl
  · rw [decide_eq_false (not_le.mpr (jumps jump))]
    rfl

theorem segLoad_loads {k : Fin 8} {n : Nat} {table : List Segment} (names : ((s.flow f).obj w).toNat = k.val)
    (form : OpForm s f w [w.ra] 0x7F#32) (ext : w.xw = 2#4) (legal : OpLegal s [.ready, .run] 9) (low : Config.sharedBase ≤ (w.x 0).toNat)
    (aligned : (w.x 0).toNat % 8 = 0) (number : n = (w.x 1).toNat)
    (holds : table = (List.range n).map fun i => imgSegment (memReadList s.mem (w.x 0).toNat (16 * n)) i) (one : 1 ≤ n) (max : n ≤ 1024)
    (fits : (w.x 0).toNat + 16 * n ≤ Config.sharedBase + 8 * Config.sharedWords)
    (reserved : segReserved (memReadList s.mem (w.x 0).toNat (16 * n)) n = false)
    (good : ∀ g ∈ table, g.picks ≠ 0 ∧ (g.jump = true → g.next < n))
    (free : ∀ a, ¬((s.pax a).src = .seg ∧ (s.pax a).seg.slot = k)) :
    ∃ t, exec (.segLoad f w) s = .next t ∧ Accepted s t f w 0#8 0#64 ∧ RegsKept s t f ∧
      OpFrame { s with pg.slot := upd s.pg.slot k fun _ => some table } t f := by
  subst number
  have taken : (s.taken f).segments (w.x 0) (w.x 1).toNat = table := (segments_eq max fits).trans holds.symm
  have logged (l) : (s.logged f l).segments (w.x 0) (w.x 1).toNat = table := (segments_eq max fits).trans holds.symm
  have image : (s.taken f).image (w.x 0) (16 * (w.x 1).toNat) = memReadList s.mem (w.x 0).toNat (16 * (w.x 1).toNat) := image_eq fits
  refine devOp_completes (c := .segLoad f w) rfl form (obj_inside names k.isLt) ?_ ?_ ⟨rfl, rfl, rfl⟩ fun l => ?_
  · rw [taken, Nat.min_eq_left max, image, sharedOk_of low aligned (by omega : 8 ≤ 16 * (w.x 1).toNat) fits]
    refine fine_cons (xwNot_fine (by simp [ext])) (fine_cons rfl (fine_cons reserved (fine_cons ?_ (fine_cons ?_ fine_nil))))
    · exact Bool.or_eq_false_iff.mpr ⟨decide_eq_false (not_lt.mpr max), decide_eq_false (not_lt.mpr fits)⟩
    · refine Bool.or_eq_false_iff.mpr ⟨decide_eq_false (by omega), ?_⟩
      rw [List.any_eq_false]
      intro g member
      rw [Segment.bad_eq_false (good g member)]
      exact Bool.false_ne_true
  · rw [State.taken_opArm names, show slotUsers (s.taken f) k = slotUsers s k from rfl, slotUsers_zero free]
    exact fine_cons (stateGate_fine legal _) (fine_cons rfl fine_nil)
  · rw [State.logged_opArm names, logged]
    rfl

end

/-- The mode that a code of FB.MODE names (R80). -/
theorem fbMode_code (m : BitVec 2) :
    (FbMode.ofCode m = if m = 0#2 then .start else if m = 1#2 then .normal else if m = 2#2 then .test else .recovery) ∧
      (FbMode.ofCode m = .normal ↔ m = 1#2) := by
  revert m
  decide

/-- Settles O25: each operation of the table on the loop, channel or slot that OBJ names. -/
theorem loopsChannelsTables : Obligations.LoopsChannelsTables := by
  intro f w s obj a0 placed
  refine ⟨fun a names form legal => ⟨?_, ?_⟩, fun c names legal => ⟨?_, ?_, ?_⟩, ?_⟩
  · intro ext inside fits noSwap image reserved ranged
    exact loopLoad_loads names form legal ext inside.1 inside.2.2 fits noSwap rfl reserved ranged
  · intro noExt lease sound
    exact ⟨loopSwap_pends names form legal noExt lease sound, loopSwap_swaps names form legal noExt lease sound⟩
  · intro form noExt resting m
    obtain ⟨code, normal⟩ := fbMode_code m
    have sets := fbMode_sets names form legal noExt resting (m := FbMode.ofCode m) rfl
    rw [ne_eq (FbMode.ofCode m), normal, code] at sets
    exact sets
  · intro form ext lease whole
    obtain ⟨t, ran, accepted, regs, frame⟩ := fbCompare_arms names form legal ext lease whole
    exact ⟨t, ran, regs, accepted, frame⟩
  · intro form noExt lease
    exact fbUnarm_disarms names form legal noExt lease
  · intro k names form ext legal inside n image table one max fits reserved good free
    exact segLoad_loads names form ext legal inside.1 inside.2.2 rfl rfl one max fits reserved good free

end Sys2Proof.Machine
end

section
/-! SUPPORT. The operations on drafts (R80, R87, R91). -/
namespace Sys2Proof.Machine

theorem memReadList_length (m : List Host.Cell) (a n : Nat) : (memReadList m a n).length = n := by
  induction n generalizing a with
  | zero => rfl
  | succ n ih => rw [memReadList, List.length_cons, ih]

theorem memReadList_getElem (m : List Host.Cell) (a n i : Nat) (h : i < (memReadList m a n).length) :
    (memReadList m a n)[i] = memRead m (a + i) := by
  induction n generalizing a i with
  | zero => exact absurd h (Nat.not_lt_zero i)
  | succ n ih =>
    cases i with
    | zero => rfl
    | succ i => exact (ih (a + 1) i _).trans (by rw [Nat.add_right_comm, Nat.add_assoc])

/-- The draft carry comes from the slots and the memory alone (R382). -/
theorem slotCarrySize_over (s : State) (tr : Treadle) (cr : Clocks) (pr : Pair) (d : Fin 8) :
    slotCarrySize (s.over tr cr pr) d = slotCarrySize s d := rfl

theorem draftCarry_over (s : State) (tr : Treadle) (cr : Clocks) (pr : Pair) : draftCarry (s.over tr cr pr) = draftCarry s := rfl

section
variable {s : State} {f : Fin 16} {w : TWord} {d : Fin 8} (names : ((s.flow f).obj w).toNat = d.val)
include names

theorem State.taken_slot : Fin.ofNat 8 (((s.taken f).flow f).obj w).toNat = d := State.taken_opArm names

theorem State.logged_slot {l : List (List (BitVec 32))} : Fin.ofNat 8 (((s.logged f l).flow f).obj w).toNat = d :=
  State.logged_opArm names

theorem draftLoad_loads {len : Nat} (form : OpForm s f w [w.ra] 0x7F#32) (ext : w.xw = 2#4) (legal : OpLegal s [.ready, .run] 4)
    (free : (s.draft d).state ≠ .bound) (placed : sharedOk (w.x 0) 8 = true)
    (good : ∀ c ∈ draftBad s.mem (w.x 0).toNat (w.x 1).toNat, c.1 = false) (crc : draftCrcOk s.mem (w.x 0).toNat = true)
    (long : len = (field (draftWord s.mem (w.x 0).toNat 2) 0 19).toNat) :
    ∃ t, exec (.draftLoad f w) s = .next t ∧ Accepted s t f w 0#8 0#64 ∧ RegsKept s t f ∧
      OpFrame { s with mem := memWriteList s.mem (slotBase d) (memReadList s.mem (w.x 0).toNat len), lm.slot := upd s.lm.slot d fun x =>
        { x with state := .loaded, nodes := field (draftWord s.mem (w.x 0).toNat 1) 0 13 } } t f := by
  subst long
  refine devOp_completes (c := .draftLoad f w) rfl form (obj_inside names d.isLt) ?_ ?_ ⟨rfl, rfl, rfl⟩ fun l => ?_
  · exact List.forall_mem_append.mpr ⟨fine_cons (xwNot_fine (by simp [ext])) (fine_cons (by rw [placed]; rfl) fine_nil), good⟩
  · rw [State.taken_slot names]
    exact fine_cons (stateGate_fine legal _) (fine_cons (decide_eq_false free) fine_nil)
  · dsimp only
    rw [State.logged_slot names, if_pos (show draftCrcOk (s.logged f l).mem _ = true from crc)]
    rfl

theorem draftBind_binds (form : OpForm s f w [w.ra] 0x377F#32) (noExt : w.xw = 0#4) (noBit : w.imm.getLsbD 13 = false)
    (legal : OpLegal s [.ready] 4) (loaded : (s.draft d).state = .loaded)
    (room : leads s = true → draftCarry s + slotCarrySize s d ≤ 14784) :
    ∃ t, exec (.draftBind f w) s = .next t ∧ Accepted s t f w 0#8 0#64 ∧ RegsKept s t f ∧
      OpFrame { s with lm.slot := upd s.lm.slot d fun x =>
        { x with state := .bound, group := field w.imm 8 3, rate := w.imm.getLsbD 12, released := 0, insts := [] } } t f := by
  refine devOp_completes (c := .draftBind f w) rfl form (obj_inside names d.isLt)
    (fine_cons (xwNot_fine (by simp [noExt])) (fine_cons noBit fine_nil)) ?_ ⟨rfl, rfl, rfl⟩ fun l => ?_
  · rw [State.taken_slot names]
    refine fine_cons (stateGate_fine legal _) (fine_cons (decide_eq_false (not_not_intro loaded)) (fine_cons ?_ fine_nil))
    rw [show leads (s.taken f) = leads s from rfl]
    cases lead : leads s
    · rfl
    · dsimp only
      rw [show s.taken f = s.over (s.taken f).tr (s.taken f).cr s.pr from rfl, draftCarry_over, slotCarrySize_over, Bool.true_and]
      exact decide_eq_false (Nat.not_lt.mpr (room lead))
  · dsimp only
    rw [State.logged_slot names]
    rfl

theorem draftUnload_empties (form : OpForm s f w [w.ra] 0x7F#32) (noExt : w.xw = 0#4) (legal : OpLegal s [.ready, .run] 4)
    (free : (s.draft d).state ≠ .bound) :
    ∃ t, exec (.draftUnload f w) s = .next t ∧ Accepted s t f w 0#8 0#64 ∧ RegsKept s t f ∧
      OpFrame { s with lm.slot := upd s.lm.slot d fun x => { x with state := .empty, nodes := 0#13 } } t f := by
  refine devOp_completes (c := .draftUnload f w) rfl form (obj_inside names d.isLt) (fine_cons (xwNot_fine (by simp [noExt])) fine_nil) ?_
    ⟨rfl, rfl, rfl⟩ fun l => ?_
  · rw [State.taken_slot names]
    exact fine_cons (stateGate_fine legal _) (fine_cons (decide_eq_false free) fine_nil)
  · rw [State.logged_slot names]
    rfl

end

theorem OpFrame.mem {s t : State} {f : Fin 16} (frame : OpFrame s t f) : t.mem = s.mem := by
  rw [frame.1]

/-- Settles O26: each operation of the table on the slot that OBJ names. -/
theorem draftOperations : Obligations.DraftOperations := by
  intro f w s d names st a
  refine ⟨?_, fun form noExt noBit legal loaded room => draftBind_binds names form noExt noBit legal loaded room,
    fun form noExt legal free => draftUnload_empties names form noExt legal free⟩
  intro form ext legal free placed good crc canonical len
  obtain ⟨t, ran, accepted, regs, frame⟩ := draftLoad_loads names form ext legal free placed good crc (len := len) rfl
  have copied : t.mem = memWriteList s.mem (slotBase d) (memReadList s.mem a len) := frame.mem
  refine ⟨t, ran, accepted, regs, by rwa [copied], fun i inside => ?_, fun x outside => ?_⟩
  · rw [copied, memRead_memWriteList_inside _ _ _ _ canonical (by rwa [memReadList_length]), memReadList_getElem]
  · rw [copied, memRead_memWriteList_outside _ _ _ _ canonical (by rwa [memReadList_length])]

end Sys2Proof.Machine
end

section
/-! SUPPORT. The operations of Churn (R80, R185, R201, R202, R219 to R222). -/
namespace Sys2Proof.Machine

/-! ### QP.START and QP.STOP -/

/-- Whether a slot forms instances comes from the slots and the memory alone (R185). -/
theorem formingDraft_over (s : State) (tr : Treadle) (cr : Clocks) (pr : Pair) (d : Fin 8) :
    formingDraft (s.over tr cr pr) d = formingDraft s d := rfl

/-- What taking up an instruction touches (R427). -/
theorem State.taken_eq_over (s : State) (f : Fin 16) : s.taken f = s.over (s.taken f).tr (s.taken f).cr s.pr := rfl

theorem State.over_qp (s : State) (tr : Treadle) (cr : Clocks) (pr : Pair) : (s.over tr cr pr).qp = s.qp := rfl

theorem planStopped_over (s : State) (tr : Treadle) (cr : Clocks) (pr : Pair) : planStopped (s.over tr cr pr) = planStopped s := rfl

theorem schImg_over (s : State) (tr : Treadle) (cr : Clocks) (pr : Pair) (w : TWord) : schImg (s.over tr cr pr) w = schImg s w := rfl

/-- The check of a schedule image reads the memory alone (R219). -/
theorem schBad_over (s : State) (tr : Treadle) (cr : Clocks) (pr : Pair) (w : TWord) : schBad (s.over tr cr pr) w = schBad s w := by
  rw [schBad, schImg_over, schBad]

section
variable {s : State} {f : Fin 16} {w : TWord}

theorem qpStart_marks {d : Fin 8} (names : ((s.flow f).obj w).toNat = d.val) (form : OpForm s f w [w.ra] 0x7F#32) (noExt : w.xw = 0#4)
    (lease : s.lease = true) (legal : OpLegal s [.run] 7) (loaded : s.qp.sched = true) (forms : formingDraft s d = true)
    (stopped : planStopped s = true) :
    ∃ t, exec (.qpStart f w) s = .next t ∧ Accepted s t f w 0#8 0#64 ∧ RegsKept s t f ∧
      OpFrame { s with qp.startAt := some (d, s.tb.timeFix) } t f := by
  refine devOp_completes (c := .qpStart f w) rfl form (obj_inside names d.isLt) (fine_cons (xwNot_fine (by simp [noExt])) fine_nil) ?_
    ⟨rfl, rfl, rfl⟩ fun l => ?_
  · rw [State.taken_slot names]
    refine fine_cons (stateGate_fine legal _) (fine_cons (leaseGate_fine lease) (fine_cons ?_ fine_nil))
    dsimp only
    rw [State.taken_eq_over, formingDraft_over, forms, planStopped_over, stopped, State.over_qp, loaded]
    rfl
  · rw [State.logged_slot names]
    rfl

theorem qpStop_pends (form : OpForm s f w [] 0#32) (noExt : w.xw = 0#4) (lease : s.lease = true) (legal : OpLegal s [.ready, .run] 7)
    (noMpc : ∀ r, (s.armDef r).mpc = false) :
    ∃ t, exec (.qpStop f w) s = .next t ∧ InFlight s t f w none ∧ RegsKept s t f ∧
      OpFrame { s with qp.stopAt := s.qp.stopAt ++ [(f, (s.flow f).nextOp, s.tb.timeFix)] } t f := by
  refine devOp_issues (c := .qpStop f w) (rd := false) rfl form no_obj (fine_cons (xwNot_fine (by simp [noExt])) fine_nil) ?_
    ⟨rfl, rfl, rfl⟩ fun l => ?_
  · refine fine_cons (stateGate_fine legal _) (fine_cons (leaseGate_fine lease) (fine_cons ?_ fine_nil))
    dsimp only
    rw [List.any_eq_false]
    exact fun r _ => ne_true_of_eq_false (noMpc r)
  · rw [State.logged_opId]
    rfl

/-! ### QP.SCHED and QP.SUBMIT -/

theorem qpSched_queues (form : OpForm s f w [] 0#32) (ext : w.xw = 2#4) (legal : OpLegal s [.ready, .run] 7) (stopped : planStopped s = true)
    (placed : sharedOk (w.x 0) 16 = true) (good : schBad s w = none) (crc : (schImg s w).crcOk = true) :
    ∃ t, exec (.qpSched f w) s = .next t ∧ InFlight s t f w none ∧ RegsKept s t f ∧
      OpFrame { s with qp := { s.qp with
        jobs := s.qp.jobs ++ [{ flow := f, op := (s.flow f).nextOp, w0 := w.x 0, w1 := w.x 1, crc := (schImg s w).w 11 }]
        sched := s.qp.sched && !s.qp.jobs.isEmpty } } t f := by
  refine devOp_issues (c := .qpSched f w) (rd := false) rfl form no_obj
    (fine_cons (xwNot_fine (by simp [ext])) (fine_cons (by rw [placed]; rfl) fine_nil)) ?_ ⟨rfl, rfl, rfl⟩ fun l => ?_
  · dsimp only
    rw [State.taken_eq_over, schBad_over, good, planStopped_over, stopped]
    refine fine_cons ?_ (fine_cons rfl fine_nil)
    exact (Bool.true_and _).trans (stateGate_fine (s := s.taken f) legal _)
  · dsimp only
    rw [State.logged_opId, State.logged, schBad_over, good, schImg_over]
    dsimp only
    rw [if_pos crc]
    rfl

theorem qpSubmit_queues (form : OpForm s f w [w.rd] 0#32) (ext : w.xw = 2#4) (legal : OpLegal s [.ready, .run] 7)
    (stopped : planStopped s = true) (placed : sharedOk (w.x 0) 8 = true) (answer : sharedOk (w.x 1) 8 = true)
    (good : s.qp.jobs ≠ [] ∨ instCheck s.mem (w.x 0).toNat s.qp.sig s.qp.sched = none ∧
      (w.x 0).toNat + (iWord s.mem (w.x 0).toNat 8).toNat ≤ Config.sharedBase + 8 * Config.sharedWords ∧
      (w.x 1).toNat + solutionBytes (qpDims s.mem) ≤ Config.sharedBase + 8 * Config.sharedWords) :
    ∃ t, exec (.qpSubmit f w) s = .next t ∧ InFlight s t f w (some w.rd) ∧ RegsKept s t f ∧
      OpFrame { s with qp.jobs := s.qp.jobs ++
        [{ flow := f, op := (s.flow f).nextOp, w0 := w.x 0, w1 := w.x 1, submit := true }] } t f := by
  refine devOp_issues (c := .qpSubmit f w) (rd := true) rfl form no_obj ?_ ?_ ⟨rfl, rfl, rfl⟩ fun l => ?_
  · dsimp only
    rw [show (s.taken f).qp = s.qp from rfl, show (s.taken f).mem = s.mem from rfl, placed, answer]
    rcases good with waits | ⟨passes, inside, fits⟩
    · rw [List.isEmpty_eq_false_iff.mpr waits]
      exact fine_cons (xwNot_fine (by simp [ext])) (fine_cons rfl (fine_cons rfl (fine_cons rfl (fine_cons rfl fine_nil))))
    · rw [passes, sharedEnd, decide_eq_false (Nat.not_lt.mpr inside), decide_eq_false (Nat.not_lt.mpr fits)]
      refine fine_cons (xwNot_fine (by simp [ext])) (fine_cons rfl (fine_cons ?_ (fine_cons ?_ (fine_cons ?_ fine_nil))))
      · exact Bool.and_false _
      · exact Bool.and_false _
      · exact Bool.and_false _
  · refine fine_cons (stateGate_fine legal _) (fine_cons ?_ fine_nil)
    dsimp only
    rw [State.taken_eq_over, planStopped_over, stopped]
    rfl
  · rw [State.logged_opId]
    rfl

/-! ### QP.PARAM -/

/-- A weight of a cost image is finite and not negative (R202). -/
theorem costWeight_fine {x : BitVec 32} (good : finite32 x = true ∧ flt (f64 x) fzero = false) :
    ¬((!finite32 x || flt (f64 x) fzero) = true) := by
  rw [good.1, good.2]
  exact Bool.false_ne_true

theorem qpParam_writes {nw len : Nat} (form : OpForm s f w [] 0#32) (ext : w.xw = 2#4) (legal : OpLegal s [.ready, .run] 7)
    (loaded : s.qp.sched = true) (first : s.qp.cost = none) (placed : sharedOk (w.x 0) 8 = true)
    (version : costWord s (w.x 0) 0 = 1#32) (reserved : costWord s (w.x 0) 3 = 0#32) (weights : nw = (costWord s (w.x 0) 1).toNat)
    (long : len = (costWord s (w.x 0) 2).toNat) (same : nw = (field (schWord s.mem 3) 16 16).toNat) (given : len ≤ (w.x 1).toNat)
    (max : len ≤ 65536) (holds : 16 + 8 * nw ≤ len) (fits : (w.x 0).toNat + len ≤ Config.sharedBase + 8 * Config.sharedWords)
    (good : ∀ i < 2 * nw, finite32 (costWord s (w.x 0) (4 + i)) = true ∧ flt (f64 (costWord s (w.x 0) (4 + i))) fzero = false) :
    ∃ u, exec (.qpParam f w) s = .next (if s.tb.running then u else u.costExchange) ∧ InFlight s u f w none ∧ RegsKept s u f ∧
      OpFrame { s with
        mem := memWriteList s.mem (costHalf s (!s.qp.costSel)) (memReadList s.mem (w.x 0).toNat len)
        qp.cost := some { flow := f, op := (s.flow f).nextOp } } u f := by
  subst weights long
  obtain ⟨l, kept, ran⟩ := devOp_accepted (c := .qpParam f w) rfl form no_obj (by
    have word (n : Nat) : costWord (s.taken f) (w.x 0) n = costWord s (w.x 0) n := rfl
    simp only [word]
    rw [version, reserved, placed, show (s.taken f).qp = s.qp from rfl, show (s.taken f).mem = s.mem from rfl, loaded,
      decide_eq_false (not_not_intro same)]
    refine fine_cons (xwNot_fine (by simp [ext])) (fine_cons rfl (fine_cons rfl (fine_cons ?_ (fine_cons ?_ fine_nil))))
    · dsimp only
      rw [sharedEnd, decide_eq_false (Nat.not_lt.mpr given), decide_eq_false (Nat.not_lt.mpr max), decide_eq_false (Nat.not_lt.mpr holds),
        decide_eq_false (Nat.not_lt.mpr fits)]
      rfl
    · dsimp only
      rw [List.any_eq_false]
      intro i member
      have := List.mem_range.mp member
      exact costWeight_fine (good i (by omega))) (by
    refine fine_cons (stateGate_fine legal _) (fine_cons ?_ fine_nil)
    rw [show (s.taken f).qp = s.qp from rfl, loaded]
    rfl)
  dsimp only at ran
  rw [show (s.logged f l).qp = s.qp from rfl, first, State.logged_opId] at ran
  obtain ⟨frame, inFlight, regs⟩ := opIssue_inFlight (w := w) (rd := false) (show Effected s { s with
        mem := memWriteList s.mem (costHalf s (!s.qp.costSel)) (memReadList s.mem (w.x 0).toNat (costWord s (w.x 0) 2).toNat)
        qp.cost := some { flow := f, op := (s.flow f).nextOp } } _ f l from rfl) ⟨rfl, rfl, rfl⟩ kept form.1
  exact ⟨_, ran, inFlight, regs, frame⟩

end

/-! ### QP_SCHED_COPY_DONE (R220, R222) -/

theorem State.emit_qp (s : State) (src : Nat) (code : BitVec 12) (p : List (BitVec 32)) : (s.emit src code p).qp = s.qp := by
  obtain ⟨_, _, _, emits⟩ := s.emit_frame src code p
  rw [emits]

theorem State.stopFlow_qp (s : State) (f : Fin 16) (i : BitVec 21) : (s.stopFlow f i).qp = s.qp := s.emit_qp _ _ _

theorem State.opDone_qp (s : State) (f : Fin 16) (id : Nat) (st : Status) (flags : BitVec 8) (r : Option W64) :
    (s.opDone f id st flags r).qp = s.qp := by
  unfold State.opDone
  split
  · rfl
  · dsimp only
    split
    · rw [State.stopFlow_qp]
      rfl
    · rfl

theorem FlowS.opDone_gone (fl : FlowS) (id : Nat) (st : Status) (flags : BitVec 8) (r : Option W64) :
    ((fl.opDone id st flags r).ops.find? fun o => decide (o.id = id)) = none := by
  unfold FlowS.opDone
  split
  · assumption
  · rw [List.find?_eq_none]
    intro o member
    have := (List.mem_filter.mp member).2
    simpa using this

theorem State.stopFlow_ops (s : State) (f : Fin 16) (i : BitVec 21) : ((s.stopFlow f i).flow f).ops = (s.flow f).ops := by
  show (((s.emit 4 0x004#12 _).modFlow f fun fl => { fl with state := .stopped, wait := none }).flow f).ops = _
  rw [State.flow_modFlow_same, State.emit_flow]

/-- An operation that has completed is no longer in flight (R62). -/
theorem State.opDone_gone (s : State) (f : Fin 16) (id : Nat) (st : Status) (flags : BitVec 8) (r : Option W64) :
    (((s.opDone f id st flags r).flow f).ops.find? fun o => decide (o.id = id)) = none := by
  unfold State.opDone
  split
  · assumption
  · dsimp only
    split
    · rw [State.stopFlow_ops, State.flow_modFlow_same]
      exact FlowS.opDone_gone ..
    · rw [State.flow_modFlow_same]
      exact FlowS.opDone_gone ..

theorem State.nextJob_tr (s : State) : s.nextJob.tr = s.tr := by
  unfold State.nextJob
  split
  · split
    · rfl
    · rfl
  · rfl

/-- SCHED stays when no schedule waits next (R220). -/
theorem State.nextJob_qp (s : State) :
    s.nextJob.qp = { s.qp with sched := s.qp.sched && (s.qp.jobs.map fun k => k.submit).headD true } := by
  unfold State.nextJob
  split
  · next j rest jobs =>
    rw [jobs]
    cases submits : j.submit
    · simp [submits, State.modQp]
    · simp [submits]
  · next none =>
    rw [none]
    simp

theorem State.qpSig_qp (s : State) : s.qpSig.qp.jobs = s.qp.jobs ∧ s.qpSig.qp.sched = s.qp.sched := by
  unfold State.qpSig
  split
  · exact ⟨rfl, rfl⟩
  · exact ⟨rfl, rfl⟩

theorem State.costReset_qp (s : State) (nw : Nat) :
    (s.costReset nw).qp.jobs = s.qp.jobs ∧ (s.costReset nw).qp.sched = s.qp.sched := by
  unfold State.costReset
  split
  · exact ⟨rfl, rfl⟩
  · exact ⟨rfl, rfl⟩

/-- The end of a QP.SCHED: its operation completes, and the next job begins. -/
theorem schedDone_spec {s : State} (j : ChJob) (rest : List ChJob) (st : Status) (jobs : s.qp.jobs = rest) :
    let t := (s.opDone j.flow j.op st 0#8 none).nextJob
    t.qp.jobs = rest ∧ ((t.flow j.flow).ops.find? fun o => decide (o.id = j.op)) = none ∧
      t.qp.sched = (s.qp.sched && (rest.map fun k => k.submit).headD true) := by
  intro t
  have qp : t.qp = { s.qp with sched := s.qp.sched && (s.qp.jobs.map fun k => k.submit).headD true } := by
    rw [State.nextJob_qp, State.opDone_qp]
  rw [qp, jobs]
  refine ⟨rfl, ?_, rfl⟩
  rw [State.flow, State.nextJob_tr]
  exact State.opDone_gone ..

theorem qpSchedCopyDone_ends {s : State} {j : ChJob} {rest : List ChJob} (jobs : s.qp.jobs = j :: rest) (copies : j.submit = false)
    (on : qpOn s = true) {m : List Host.Cell} (copied : m = memWriteList s.mem chBase (memReadList s.mem j.w0.toNat j.w1.toNat)) :
    ∃ t, exec .qpSchedCopyDone s = .next t ∧ t.qp.jobs = rest ∧ ((t.flow j.flow).ops.find? fun o => decide (o.id = j.op)) = none ∧
      (schCrc m chBase j.w1.toNat = j.crc → t.qp.sched = ((rest.map fun k => k.submit).headD true)) ∧
      (schCrc m chBase j.w1.toNat ≠ j.crc → t.qp.sched = (s.qp.sched && (rest.map fun k => k.submit).headD true)) := by
  subst copied
  have ran : exec .qpSchedCopyDone s = execQpSchedCopyDone s := rfl
  rw [ran]
  unfold execQpSchedCopyDone
  rw [jobs]
  dsimp only
  rw [on, copies, if_pos (show (true && !false) = true from rfl), State.rdBytes]
  generalize memWriteList s.mem chBase _ = m
  split
  · next crc =>
    refine ⟨_, rfl, ?_⟩
    generalize left : State.costReset _ _ = u
    have qp : u.qp.jobs = rest ∧ u.qp.sched = true := by
      rw [← left]
      refine ⟨(State.costReset_qp _ _).1.trans ?_, (State.costReset_qp _ _).2.trans ?_⟩
      · rw [State.emit_qp, (State.qpSig_qp _).1]
        rfl
      · rw [State.emit_qp, (State.qpSig_qp _).2]
        rfl
    obtain ⟨jobs, gone, sched⟩ := schedDone_spec j rest .ok qp.1
    refine ⟨jobs, gone, fun _ => ?_, fun fails => absurd crc fails⟩
    rw [sched, qp.2, Bool.true_and]
  · next fails =>
    refine ⟨_, rfl, ?_⟩
    generalize left : State.schedFail _ _ _ = u
    have qp : u.qp.jobs = rest ∧ u.qp.sched = s.qp.sched := by
      rw [← left, State.schedFail, State.emit_qp]
      exact ⟨rfl, rfl⟩
    obtain ⟨jobs, gone, sched⟩ := schedDone_spec j rest .internal qp.1
    refine ⟨jobs, gone, fun crc => absurd crc fails, fun _ => ?_⟩
    rw [sched, qp.2]

/-- Settles O27: each operation of the table, and the end of a schedule's copy. -/
theorem churnOperations : Obligations.ChurnOperations := by
  refine ⟨fun f w s => ?_, fun s j rest jobs copies on => ?_⟩
  · intro job
    refine ⟨fun d names form noExt lease legal => qpStart_marks names form noExt lease legal, qpStop_pends,
      qpSched_queues, qpSubmit_queues, ?_⟩
    intro form ext legal loaded first placed a word nw len version reserved same given max holds fits good half
    exact qpParam_writes form ext legal loaded first placed version reserved rfl rfl same given max holds fits good
  · intro m
    exact qpSchedCopyDone_ends jobs copies on rfl

end Sys2Proof.Machine
end

section
/-! SUPPORT. What axes that leave their motion touch: the axes and arms, the profile generator, the recorder, and what interrupts
put out (R33, R34, R171). -/
namespace Sys2Proof.Machine

/-- Only axes and arms, the profile generator, the recorder and what interrupts put out have changed. -/
def MotionOnly (s t : State) : Prop := t = { s with cell := t.cell, pg := t.pg, er := t.er, hi := t.hi, out := t.out }

section
variable {s t u : State}

theorem MotionOnly.refl : MotionOnly s s := rfl

theorem MotionOnly.trans (first : MotionOnly s t) (second : MotionOnly t u) : MotionOnly s u := by
  unfold MotionOnly at *
  rw [second, first]

theorem MotionOnly.ite {p : Prop} [Decidable p] (yes : MotionOnly s t) (no : MotionOnly s u) : MotionOnly s (if p then t else u) := by
  split
  · exact yes
  · exact no

theorem MotionOnly.forEach {α : Type} {l : List α} {g : State → α → State} (each : ∀ t x, MotionOnly t (g t x)) (s : State) :
    MotionOnly s (s.forEach l g) :=
  forEach_induct (MotionOnly s) l g (fun t x _ so => so.trans (each t x)) s .refl

theorem MotionOnly.sv (only : MotionOnly s t) : t.sv = s.sv := by rw [only]
theorem MotionOnly.tr (only : MotionOnly s t) : t.tr = s.tr := by rw [only]
theorem MotionOnly.tb (only : MotionOnly s t) : t.tb = s.tb := by rw [only]
theorem MotionOnly.mem (only : MotionOnly s t) : t.mem = s.mem := by rw [only]
theorem MotionOnly.pw (only : MotionOnly s t) : t.pw = s.pw := by rw [only]

variable (s) (a : Fin 80)

theorem State.emit_motion (src : Nat) (code : BitVec 12) (p : List (BitVec 32)) : MotionOnly s (s.emit src code p) := by
  obtain ⟨er, pba, out, emits⟩ := s.emit_frame src code p
  rw [emits]
  rfl

theorem State.pgSet_motion (i : Nat) : MotionOnly s (s.pgSet a i) := by
  obtain ⟨pba, out, sets⟩ := s.pgSet_frame a i
  rw [sets]
  rfl

theorem State.leaveArm_motion : MotionOnly s (s.leaveArm a) := by
  unfold State.leaveArm
  split
  · rfl
  · rfl

theorem State.modPax_motion (g : PgAxis → PgAxis) : MotionOnly s (s.modPax a g) := rfl

theorem State.modAxis_motion (g : Axis → Axis) : MotionOnly s (s.modAxis a g) := rfl

theorem State.stopAxis_motion (quick safety : Bool) : MotionOnly s (s.stopAxis a quick safety) :=
  (s.leaveArm_motion a).trans ((State.modPax_motion _ a _).trans (State.modAxis_motion _ a _))

theorem State.loseMaster_motion : MotionOnly s (s.loseMaster a) :=
  .forEach (fun t b => (t.stopAxis_motion b true false).trans ((State.pgSet_motion _ b 4).trans (State.emit_motion _ _ _ _))) s

/-- An axis that loses its set-point source (R33, R171). -/
theorem State.releaseAxis_motion (g : Axis → Axis) :
    MotionOnly s ((((s.modAxis a g).leaveArm a).modPax a PgAxis.release).loseMaster a) :=
  (s.modAxis_motion a g).trans ((State.leaveArm_motion _ a).trans ((State.modPax_motion _ a _).trans (State.loseMaster_motion _ a)))

theorem State.faultAxis_motion : MotionOnly s (s.faultAxis a) := .ite .refl (s.releaseAxis_motion a _)

theorem State.holdAxis_motion (x : Int) : MotionOnly s (s.holdAxis a x) :=
  (s.leaveArm_motion a).trans ((State.modPax_motion _ a _).trans (State.modAxis_motion _ a _))

theorem State.endMpc_motion (r : Fin 8) : MotionOnly s (s.endMpc r) :=
  .trans (.forEach (fun t a => .ite (.ite (t.holdAxis_motion a _) (t.modPax_motion a _)) .refl) s) rfl

theorem State.mpcSweep_motion : MotionOnly s s.mpcSweep := .forEach (fun t r => .ite (t.endMpc_motion r) .refl) s

end

end Sys2Proof.Machine
end

section
/-! SUPPORT. Selvedge's loads and resets (R80, R253, R255, R270). -/
namespace Sys2Proof.Machine

section
variable {s : State} {f : Fin 16} {w : TWord}

theorem safeLoad_passes (form : OpForm s f w [] 0#32) (ext : w.xw = 2#4) (legal : OpLegal s [.ready] 1) (unsealed : s.sv.sealed = false)
    (placed : sharedOk (w.x 0) 8 = true) (fits : (w.x 0).toNat + (w.x 1).toNat ≤ Config.sharedBase + 8 * Config.sharedWords) :
    ∃ t, exec (.safeLoad f w) s = .next t ∧ InFlight s t f w none ∧ RegsKept s t f ∧
      OpFrame { s with sv.loads := s.sv.loads ++ [{ flow := f, op := (s.flow f).nextOp
                                                    bytes := memReadList s.mem (w.x 0).toNat (min (w.x 1).toNat 2624)
                                                    len := (w.x 1).toNat }] } t f := by
  refine devOp_issues (c := .safeLoad f w) (rd := false) rfl form no_obj ?_ ?_ ⟨rfl, rfl, rfl⟩ fun l => ?_
  · rw [placed]
    refine fine_cons (xwNot_fine (by simp [ext])) (fine_cons rfl (fine_cons ?_ fine_nil))
    exact decide_eq_false (Nat.not_lt.mpr fits)
  · exact fine_cons (stateGate_fine legal _) (fine_cons unsealed fine_nil)
  · rw [State.logged_opId, image_eq (s := s.logged f l) (by omega)]
    rfl

theorem safeReset_passes {target : BitVec 8} (given : target = field w.imm 0 8) (form : OpForm s f w [] 0xFF#32) (noExt : w.xw = 0#4)
    (lease : s.lease = true) (legal : OpLegal s [.ready, .run] 1) (known : target.toNat ≤ 31 ∨ target = 0xF0#8) :
    ∃ t, exec (.safeReset f w) s = .next t ∧ InFlight s t f w none ∧ RegsKept s t f ∧
      OpFrame { s with sv.resets := s.sv.resets ++ [(f, (s.flow f).nextOp, target)] } t f := by
  subst given
  refine devOp_issues (c := .safeReset f w) (rd := false) rfl form no_obj
    (fine_cons (xwNot_fine (by simp [noExt])) (fine_cons ?_ fine_nil))
    (fine_cons (stateGate_fine legal _) (fine_cons (leaseGate_fine lease) fine_nil)) ⟨rfl, rfl, rfl⟩ fun l => ?_
  · rcases known with entry | faults
    · simp [entry]
    · simp [faults]
  · rw [State.logged_opId]
    rfl

end

/-! ### SAFE_LOAD_DECIDED -/

theorem State.stopFlow_sv (s : State) (f : Fin 16) (i : BitVec 21) : (s.stopFlow f i).sv = s.sv := (s.emit_motion _ _ _).sv

theorem State.opDone_sv (s : State) (f : Fin 16) (id : Nat) (st : Status) (flags : BitVec 8) (r : Option W64) :
    (s.opDone f id st flags r).sv = s.sv := by
  unfold State.opDone
  split
  · rfl
  · dsimp only
    split
    · rw [State.stopFlow_sv]
      rfl
    · rfl

theorem State.svRec_sv (s : State) (c : Fin 2) (code : BitVec 12) (p : List (BitVec 32)) : (s.svRec c code p).sv = s.sv := by
  obtain ⟨er, pba, out, stages⟩ := (s.logSafety (decide (c = 1)) { src := 14 + c.val, code := code, payload := p }).stage_frame
    { src := 14 + c.val, code := code, payload := p }
  rw [State.svRec, State.emitSafe, stages]
  rfl

theorem svWatch_sv (s t : State) : (svWatch s t).sv = t.sv := by
  unfold svWatch
  split
  · rfl
  · obtain ⟨pba, out, raises⟩ := State.raise_frame { t with hi.sticky := setBit t.hi.sticky 0 } 17
    rw [raises]

theorem State.svFaultAxis_motion (s : State) (a : Fin 80) : MotionOnly s (s.svFaultAxis a) :=
  (s.faultAxis_motion a).trans (State.modAxis_motion _ a _)

/-- What Selvedge publishes leaves the channels and the seal (R260). -/
theorem State.svPublish_sv (s : State) : ∃ arms aux, s.svPublish.sv = { s.sv with armPub := arms, auxPub := aux } := by
  unfold State.svPublish
  dsimp only
  rw [(State.mpcSweep_motion _).sv]
  split
  · rw [(MotionOnly.forEach (fun t a => t.svFaultAxis_motion a) _).sv]
    exact ⟨_, _, rfl⟩
  · rw [(MotionOnly.forEach (fun t j => t.svFaultAxis_motion _) _).sv,
      (MotionOnly.forEach (fun t r => .forEach (fun t a => t.svFaultAxis_motion a) t) _).sv]
    exact ⟨_, _, rfl⟩

/-- A sealed configuration puts both channels into SEALED (R255). -/
theorem State.sealWith_sv (s : State) (b : List Byte) (len : Nat) : (s.sealWith b len).sv.loads = s.sv.loads ∧
    (s.sealWith b len).sv.sealed = true ∧ (s.sealWith b len).sv.ch = Vector.replicate 2 (SvCh.enterSealed s.now) := by
  unfold State.sealWith
  dsimp only
  rw [State.svRec_sv, State.svRec_sv]
  exact ⟨rfl, rfl, rfl⟩

/-- A load may be decided only while nothing is sealed and both channels are in UNSEALED (R247, R253). -/
theorem svOpen_iff (s : State) : (s.sv.sealed || !((fins 2).all fun c => decide ((s.svCh c).state = .unsealed))) = false ↔
    s.sv.sealed = false ∧ ∀ c, (s.svCh c).state = .unsealed := by
  simp [fins]

theorem safeLoadDecided_ends {s : State} {l : SvLoad} {rest : List SvLoad} (loads : s.sv.loads = l :: rest) :
    let open_ := s.sv.sealed = false ∧ ∀ c, (s.svCh c).state = .unsealed
    let v := validate { s with sv.loads := rest } l.bytes l.len
    ∃ t, exec .safeLoadDecided s = .next t ∧ t.sv.loads = rest ∧
      (¬open_ → t.sv = { s.sv with loads := rest }) ∧
      (open_ → ∀ q, v = some q → t.sv = { s.sv with loads := rest, cfgErr := BitVec.ofNat 32 q.1 ||| BitVec.ofNat 32 q.2 <<< 16 }) ∧
      (open_ → v = none → t.sv.sealed = true ∧ ∀ c, (t.svCh c).state = .sealed) := by
  intro open_ v
  have ran : exec .safeLoadDecided s = execSafeLoadDecided s := rfl
  rw [ran, execSafeLoadDecided, loads]
  dsimp only
  by_cases isOpen : open_
  · rw [(svOpen_iff s).mpr isOpen, if_neg Bool.false_ne_true]
    cases decided : validate (s.modSv fun v => { v with loads := rest }) l.bytes l.len with
    | some q =>
      have found : v = some q := decided
      refine ⟨_, rfl, ?_, fun shut => absurd isOpen shut, fun _ q' same => ?_, fun _ none => nomatch found.symm.trans none⟩
      · rw [State.opDone_sv, State.svRec_sv, State.svRec_sv]
        rfl
      · obtain rfl := Option.some.inj (found.symm.trans same)
        rw [State.opDone_sv, State.svRec_sv, State.svRec_sv]
        simp [State.modSv, nat32]
    | none =>
      have found : v = none := decided
      obtain ⟨sameLoads, isSealed, channels⟩ := (s.modSv fun v => { v with loads := rest }).sealWith_sv l.bytes l.len
      obtain ⟨arms, aux, published⟩ := ((s.modSv fun v => { v with loads := rest }).sealWith l.bytes l.len).svPublish_sv
      refine ⟨_, rfl, ?_, fun shut => absurd isOpen shut, fun _ q some => ?_, fun _ _ => ⟨?_, fun c => ?_⟩⟩
      · rw [svWatch_sv, State.opDone_sv, published, sameLoads]
        rfl
      · exact absurd (found.symm.trans some).symm (Option.some_ne_none q)
      · rw [svWatch_sv, State.opDone_sv, published]
        exact isSealed
      · rw [State.svCh, svWatch_sv, State.opDone_sv, published]
        dsimp only
        rw [channels]
        simp [SvCh.enterSealed]
  · rw [Bool.eq_true_of_not_eq_false (mt (svOpen_iff s).mp isOpen), if_pos rfl]
    refine ⟨_, rfl, ?_, fun _ => ?_, fun can => absurd can isOpen, fun can => absurd can isOpen⟩
    · rw [State.opDone_sv]
      rfl
    · rw [State.opDone_sv]
      rfl

end Sys2Proof.Machine
end

section
/-! SUPPORT. Words of the record ring copied to memory (R410). -/
namespace Sys2Proof.Machine

/-! ### Words in memory (R5) -/

theorem memNat_congr {m m' : List Host.Cell} {a n : Nat} (same : ∀ i < n, memRead m' (a + i) = memRead m (a + i)) :
    memNat m' a n = memNat m a n := by
  induction n generalizing a with
  | zero => rfl
  | succ n ih =>
    rw [memNat, memNat, show memRead m' a = memRead m a from same 0 (Nat.succ_pos n),
      ih fun i below => by
        rw [Nat.add_assoc, Nat.add_comm 1 i]
        exact same (i + 1) (Nat.succ_lt_succ below)]

/-- Bytes of a number read back as the number. -/
theorem memNat_of_bytes {m : List Host.Cell} {a n v : Nat} (bytes : ∀ i < n, memRead m (a + i) = BitVec.ofNat 8 (v / 256 ^ i)) :
    memNat m a n = v % 256 ^ n := by
  induction n generalizing a v with
  | zero => rw [memNat, pow_zero, Nat.mod_one]
  | succ n ih =>
    have rest : memNat m (a + 1) n = v / 256 % 256 ^ n := ih fun i below => by
      rw [Nat.add_assoc, Nat.add_comm 1 i, bytes (i + 1) (Nat.succ_lt_succ below), Nat.div_div_eq_div_mul, Nat.pow_succ']
    have first : memRead m a = BitVec.ofNat 8 v := by simpa using bytes 0 (Nat.succ_pos n)
    rw [memNat, rest, first, BitVec.toNat_ofNat, show 256 ^ (n + 1) = 256 * 256 ^ n from Nat.pow_succ']
    exact Nat.mod_mul.symm

/-- A list of words written reads back word by word. -/
theorem rd32_wordsBytes {m : List Host.Cell} (canonical : Memory.wf m = true) (a : Nat) (ws : List (BitVec 32)) {i : Nat}
    (inside : i < ws.length) : BitVec.ofNat 32 (memNat (memWriteList m a (wordsBytes ws)) (a + 4 * i) 4) = ws.getD i 0#32 := by
  rw [memNat_of_bytes (v := (ws.getD i 0#32).toNat)]
  · refine BitVec.eq_of_toNat_eq ?_
    rw [BitVec.toNat_ofNat, Nat.mod_mod_of_dvd _ (by decide)]
    exact Nat.mod_eq_of_lt (ws.getD i 0#32).isLt
  · intro j byte
    have long : 4 * i + j < (wordsBytes ws).length := by rw [wordsBytes_length]; omega
    have here := wordsBytes_getElem? ws inside byte
    rw [List.getElem?_eq_getElem long] at here
    rw [Nat.add_assoc, memRead_memWriteList_inside _ _ _ _ canonical long, Option.some.inj here]
    refine BitVec.eq_of_toNat_eq ?_
    rw [toNat_extractLsb'_byte, BitVec.toNat_ofNat]

/-! ### The ring -/

/-- A ring whose place in memory no write has reached holds what it held. -/
theorem ringWord_congr {m m' : List Host.Cell} {base : Nat} (same : ∀ x, base ≤ x → memRead m' x = memRead m x) (size i : Nat) :
    ringWord m' base size i = ringWord m base size i := by
  rw [ringWord, ringWord, memNat_congr fun j _ => same _ (by omega)]

theorem ringWord_mod_add (m : List Host.Cell) (base size i j : Nat) :
    ringWord m base size (i % size + j) = ringWord m base size (i + j) := by
  rw [ringWord, ringWord, Nat.mod_add_mod]

theorem ringGet_length (m : List Host.Cell) (base size i n : Nat) : (ringGet m base size i n).length = n := by
  induction n generalizing i with
  | zero => rfl
  | succ n ih => rw [ringGet, List.length_cons, ih]

theorem ringGet_getD (m : List Host.Cell) (base size i : Nat) {n j : Nat} (below : j < n) :
    (ringGet m base size i n).getD j 0#32 = ringWord m base size (i + j) := by
  induction n generalizing i j with
  | zero => exact absurd below (Nat.not_lt_zero j)
  | succ n ih =>
    cases j with
    | zero => rfl
    | succ j =>
      rw [ringGet, List.getD_cons_succ, ih (i + 1) (Nat.lt_of_succ_lt_succ below), Nat.add_assoc, Nat.add_comm 1 j]

/-! ### REC.READ's copy -/

/-- The words `done` to `n` after the cursor have been copied to `dst`, and nothing else has changed but the cursor. -/
structure Copied (s t : State) (dst done n : Nat) : Prop where
  frame : t = { s with mem := t.mem, er := { s.er with cur := t.er.cur, unread := t.er.unread } }
  outside : ∀ x, x < dst + 4 * done ∨ dst + 4 * n ≤ x → memRead t.mem x = memRead s.mem x
  words : ∀ i, done ≤ i → i < n →
    t.rd32 (dst + 4 * i) = ringWord s.mem Config.ringBase Config.ringWords (s.er.cur + (i - done))

/-- The state after one record of `l` words has been copied to `dst`. -/
def State.copyRecord (s : State) (dst l : Nat) : State :=
  { s.wrBytes dst (wordsBytes (ringGet s.mem Config.ringBase Config.ringWords s.er.cur l)) with
    er := { s.er with cur := (s.er.cur + l) % Config.ringWords, unread := s.er.unread - l } }

section
variable {s : State} {dst done l n : Nat} (canonical : Memory.wf s.mem = true)
include canonical

theorem copyRecord_outside {x : Nat} (out : x < dst ∨ dst + 4 * l ≤ x) : memRead (s.copyRecord dst l).mem x = memRead s.mem x :=
  memRead_memWriteList_outside _ _ _ _ canonical (by rwa [wordsBytes_length, ringGet_length])

theorem copyRecord_words {i : Nat} (below : i < l) : (s.copyRecord dst l).rd32 (dst + 4 * i) =
    ringWord s.mem Config.ringBase Config.ringWords (s.er.cur + i) :=
  (rd32_wordsBytes canonical dst _ (by rwa [ringGet_length])).trans (ringGet_getD _ _ _ _ below)

/-- A record copied, and then those after it. -/
theorem Copied.cons {t : State} (long : done + l ≤ n) (below : dst + 4 * n ≤ Config.ringBase)
    (rest : Copied (s.copyRecord (dst + 4 * done) l) t dst (done + l) n) : Copied s t dst done n := by
  refine ⟨?_, fun x out => ?_, fun i from_ upto => ?_⟩
  · rw [rest.frame]
    rfl
  · rw [rest.outside x (by omega), copyRecord_outside canonical (by omega)]
  · by_cases first : i < done + l
    · have kept : t.rd32 (dst + 4 * i) = (s.copyRecord (dst + 4 * done) l).rd32 (dst + 4 * done + 4 * (i - done)) := by
        rw [State.rd32, State.rd32, show dst + 4 * done + 4 * (i - done) = dst + 4 * i from by omega,
          memNat_congr fun j _ => rest.outside _ (by omega)]
      rw [kept, copyRecord_words canonical (by omega)]
    · rw [rest.words i (by omega) upto, ringWord_congr (m := s.mem) fun x high => copyRecord_outside canonical (by omega)]
      rw [show (s.copyRecord (dst + 4 * done) l).er.cur = (s.er.cur + l) % Config.ringWords from rfl, ringWord_mod_add,
        show s.er.cur + l + (i - (done + l)) = s.er.cur + (i - done) from by omega]

end

/-- R410: what REC.READ copies. -/
theorem recCopy_spec (fuel : Nat) {s : State} {dst max done : Nat} (canonical : Memory.wf s.mem = true) (room : done ≤ max)
    (below : dst + 4 * max ≤ Config.ringBase) : done ≤ (recCopy fuel s dst max done).1 ∧ (recCopy fuel s dst max done).1 ≤ max ∧
      Copied s (recCopy fuel s dst max done).2 dst done (recCopy fuel s dst max done).1 := by
  have stays : done ≤ done ∧ done ≤ max ∧ Copied s s dst done done :=
    ⟨le_refl done, room, rfl, fun _ _ => rfl, fun i from_ upto => absurd upto (Nat.not_lt.mpr from_)⟩
  induction fuel generalizing s done with
  | zero => exact stays
  | succ fuel ih =>
    rw [recCopy]
    dsimp only
    split
    · exact stays
    · next more =>
      generalize Nat.max 1 _ = l at more ⊢
      obtain ⟨-, fits⟩ := not_or.mp more
      have canonical' : Memory.wf (s.copyRecord (dst + 4 * done) l).mem = true := memWriteList_wf _ _ _ canonical
      obtain ⟨low, high, rest⟩ := ih (done := done + l) canonical' (by omega)
        ⟨le_refl _, by omega, rfl, fun _ _ => rfl, fun i from_ upto => absurd upto (Nat.not_lt.mpr from_)⟩
      have under := Nat.le_trans (Nat.add_le_add_left (Nat.mul_le_mul_left 4 high) dst) below
      exact ⟨Nat.le_trans (Nat.le_add_right done l) low, high, Copied.cons canonical low under rest⟩

/-- With no unread record nothing is copied. -/
theorem recCopy_empty (fuel : Nat) {s : State} (dst max done : Nat) (none : s.er.unread = 0) : recCopy fuel s dst max done = (done, s) := by
  cases fuel with
  | zero => rfl
  | succ fuel =>
    rw [recCopy]
    exact if_pos (.inl none)

end Sys2Proof.Machine
end

section
/-! SUPPORT. The operations of the recorder (R80, R410, R412, R416). -/
namespace Sys2Proof.Machine

section
variable {s : State} {f : Fin 16} {w : TWord}

theorem recMark_records {code : BitVec 12} (given : code = field w.imm 0 12) (form : OpForm s f w [w.ra] 0xFFF#32) (noExt : w.xw = 0#4)
    (legal : OpLegal s [.ready, .run, .safeHold] 12) (host : 0x800 ≤ code.toNat) :
    ∃ t, exec (.recMark f w) s = .next t ∧ Accepted s t f w 0#8 0#64 ∧ RegsKept s t f ∧
      OpFrame (s.emit 4 code [((s.flow f).reg w.ra).setWidth 32, ((s.flow f).reg w.ra >>> 32).setWidth 32]) t f := by
  subst given
  refine devOp_completes (c := .recMark f w) rfl form no_obj
    (fine_cons (xwNot_fine (by simp [noExt])) (fine_cons (decide_eq_false (Nat.not_lt.mpr host)) fine_nil))
    (fine_cons (stateGate_fine legal _) fine_nil) (s.emit_sameBase _ _ _) fun l => ?_
  dsimp only
  rw [State.logged_reg, State.logged, State.emit_over]

theorem State.erClear_over (s : State) (tr : Treadle) (cr : Clocks) (pr : Pair) : (s.over tr cr pr).erClear = s.erClear.over tr cr pr :=
  State.emit_over { s with er := { s.er with
    ring := { s.er.ring with tail := s.er.ring.head, used := 0, newest := Vector.replicate 25 none }
    cur := s.er.ring.head, unread := 0 } } tr cr pr 22 0x004#12 [BitVec.ofNat 32 s.erCount]

theorem recClear_clears (form : OpForm s f w [] 0#32) (noExt : w.xw = 0#4) (legal : OpLegal s [.ready, .run, .safeHold] 12) :
    ∃ t, exec (.recClear f w) s = .next t ∧ Accepted s t f w 0#8 0#64 ∧ RegsKept s t f ∧ OpFrame s.erClear t f := by
  have base : s.SameBase s.erClear := .trans (t := { s with er := { s.er with
    ring := { s.er.ring with tail := s.er.ring.head, used := 0, newest := Vector.replicate 25 none }
    cur := s.er.ring.head, unread := 0 } }) ⟨rfl, rfl, rfl⟩ (State.emit_sameBase _ _ _ _)
  refine devOp_completes (c := .recClear f w) rfl form no_obj (fine_cons (xwNot_fine (by simp [noExt])) fine_nil)
    (fine_cons (stateGate_fine legal _) fine_nil) base fun l => ?_
  dsimp only
  rw [State.logged, State.erClear_over]

/-- An operation that completes at its acceptance with a result, whatever its status. -/
theorem opAccept_status {r u : State} {l : List (List (BitVec 32))} {flags : BitVec 8} (st : Status) {v : W64}
    (effect : Effected s r u f l) (base : s.SameBase r) (kept : LogKept s l) :
    OpFrame r (u.opAccept f w st flags (some v)) f ∧ RegWritten s (u.opAccept f w st flags (some v)) f w.rd v ∧
      ((s.flow f).pc.toNat + 1 + w.xw.toNat ≤ (s.flow f).lastWord → ((u.opAccept f w st flags (some v)).flow f).lastStatus = st) := by
  have flow : (u.opAccept f w st flags (some v)).flow f = (({ s.flow f with
      state := .running, t := ((s.flow f).setReg w.rd v).t, p := (s.flow f).p, nextOp := (s.flow f).nextOp + 1 } : FlowS).complete
        w.cq st flags v).advance w.xw := by
    rw [State.opAccept, State.flow_modFlow_same, effect.flow, State.flow_taken]
    dsimp only
    rw [FlowS.setReg_running]
    rfl
  refine ⟨effect.opFrame base kept _, regWritten_of_t ?_ ?_, fun inside => ?_⟩
  · rw [flow, FlowS.advance_t, FlowS.complete_t]
  · rw [flow, FlowS.advance_p, FlowS.complete_p]
  · rw [flow, FlowS.advance_in _ _ (by rw [FlowS.complete_pc, FlowS.complete_lastWord]; exact inside)]
    exact FlowS.complete_lastStatus ..

theorem recRead_copies {mx a : Nat} (most : mx = (field w.imm 0 16).toNat) (dest : a = ((s.flow f).reg w.ra).toNat)
    (form : OpForm s f w [w.rd, w.ra] 0xFFFF#32) (noExt : w.xw = 0#4) (legal : OpLegal s [.ready, .run, .safeHold] 12)
    (canonical : Memory.wf s.mem = true) (placed : sharedOk ((s.flow f).reg w.ra) 4 = true) (one : 64 ≤ mx)
    (fits : a + 4 * mx ≤ Config.sharedBase + 8 * Config.sharedWords) :
    ∃ t n, exec (.recRead f w) s = .next t ∧ n ≤ mx ∧ RegWritten s t f w.rd (BitVec.ofNat 64 n) ∧ t.er.ring = s.er.ring ∧
      (∀ x, x < a ∨ a + 4 * n ≤ x → memRead t.mem x = memRead s.mem x) ∧
      (∀ i < n, t.rd32 (a + 4 * i) = ringWord s.mem Config.ringBase Config.ringWords (s.er.cur + i)) ∧
      (s.er.unread = 0 → n = 0 ∧ Accepted s t f w 0#8 0#64) ∧
      ((s.flow f).pc.toNat + 1 + w.xw.toNat ≤ (s.flow f).lastWord → (t.flow f).lastStatus = if t.er.unread = 0 then .ok else .okLimited) ∧
      OpFrame { s with mem := t.mem, er := { s.er with cur := t.er.cur, unread := t.er.unread } } t f := by
  subst most dest
  obtain ⟨l, kept, ran⟩ := devOp_accepted (c := .recRead f w) rfl form no_obj (by
    dsimp only
    rw [State.taken_reg, placed, sharedEnd]
    exact fine_cons (xwNot_fine (by simp [noExt])) (fine_cons rfl (fine_cons (decide_eq_false (Nat.not_lt.mpr fits))
      (fine_cons (decide_eq_false (Nat.not_lt.mpr one)) fine_nil)))) (fine_cons (stateGate_fine legal _) fine_nil)
  dsimp only at ran
  rw [State.logged_reg] at ran
  obtain ⟨-, most, copied⟩ := recCopy_spec (field w.imm 0 16).toNat (s := s.logged f l) (dst := ((s.flow f).reg w.ra).toNat) (done := 0)
    canonical (Nat.zero_le (field w.imm 0 16).toNat) (by exact fits)
  have empty := recCopy_empty (field w.imm 0 16).toNat (s := s.logged f l) ((s.flow f).reg w.ra).toNat (field w.imm 0 16).toNat 0
  generalize recCopy _ _ _ _ _ = res at ran most copied empty
  obtain ⟨n, u⟩ := res
  have effect : Effected s { s with mem := u.mem, er := { s.er with cur := u.er.cur, unread := u.er.unread } } u f l := copied.frame
  have ring : u.er.ring = s.er.ring := by rw [effect]; rfl
  have words : ∀ i < n, u.rd32 (((s.flow f).reg w.ra).toNat + 4 * i) = ringWord s.mem Config.ringBase Config.ringWords (s.er.cur + i) :=
    fun i below => copied.words i (Nat.zero_le i) below
  by_cases rest : u.er.unread = 0
  · rw [if_pos rest] at ran
    obtain ⟨frame, accepted, reg⟩ := opAccept_result (w := w) (flags := 0#8) (v := BitVec.ofNat 64 n) effect ⟨rfl, rfl, rfl⟩ kept form.1
    obtain ⟨-, -, status⟩ := opAccept_status (w := w) (flags := 0#8) .ok (v := BitVec.ofNat 64 n) effect ⟨rfl, rfl, rfl⟩ kept
    refine ⟨_, n, ran, most, reg, ring, copied.outside, words, fun none => ?_, fun inside => (status inside).trans (if_pos rest).symm, frame⟩
    obtain rfl : n = 0 := congrArg Prod.fst (empty none)
    exact ⟨rfl, accepted⟩
  · rw [if_neg rest] at ran
    obtain ⟨frame, reg, status⟩ := opAccept_status (w := w) (flags := flagTruncated) .okLimited (v := BitVec.ofNat 64 n) effect
      ⟨rfl, rfl, rfl⟩ kept
    refine ⟨_, n, ran, most, reg, ring, copied.outside, words, fun none => absurd ?_ rest,
      fun inside => (status inside).trans (if_neg rest).symm, frame⟩
    rw [show u = s.logged f l from congrArg Prod.snd (empty none)]
    exact none

end

/-- Settles O28: each operation of the table, and the decision over the oldest load. -/
theorem safetyAndRecorderOperations : Obligations.SafetyAndRecorderOperations := by
  refine ⟨fun f w s => ⟨safeLoad_passes, ?_, ?_, recClear_clears, ?_⟩, fun s l rest loads => safeLoadDecided_ends loads⟩
  · intro form noExt lease legal target known
    exact safeReset_passes rfl form noExt lease legal known
  · intro form noExt legal code v host
    exact recMark_records rfl form noExt legal host
  · intro form noExt legal canonical mx a placed one fits
    exact recRead_copies rfl rfl form noExt legal canonical placed one fits

end Sys2Proof.Machine
end

section
/-! SUPPORT. What a device state leaves when it is entered (R30, R32, R391, R395, R423). -/
namespace Sys2Proof.Machine

/-! ### The ring and the network time -/

/-- Only the ring, the network time, the pair's view of it, the relay's count, the recorder and what interrupts put out have changed. -/
def RingOnly (s t : State) : Prop :=
  t = { s with pr := t.pr, nt := t.nt, wr := t.wr, hw := t.hw, er := t.er, hi := t.hi, out := t.out }

section
variable {s t u : State}

theorem RingOnly.refl : RingOnly s s := rfl

theorem RingOnly.trans (first : RingOnly s t) (second : RingOnly t u) : RingOnly s u := by
  unfold RingOnly at *
  rw [second, first]

theorem RingOnly.ite {p : Prop} [Decidable p] (yes : RingOnly s t) (no : RingOnly s u) : RingOnly s (if p then t else u) := by
  split
  · exact yes
  · exact no

theorem RingOnly.tr (only : RingOnly s t) : t.tr = s.tr := by rw [only]
theorem RingOnly.tb (only : RingOnly s t) : t.tb = s.tb := by rw [only]
theorem RingOnly.mem (only : RingOnly s t) : t.mem = s.mem := by rw [only]
theorem RingOnly.pw (only : RingOnly s t) : t.pw = s.pw := by rw [only]
theorem RingOnly.cell (only : RingOnly s t) : t.cell = s.cell := by rw [only]
theorem RingOnly.pg (only : RingOnly s t) : t.pg = s.pg := by rw [only]

variable (s)

theorem State.emit_ring (src : Nat) (code : BitVec 12) (p : List (BitVec 32)) : RingOnly s (s.emit src code p) := by
  obtain ⟨er, pba, out, emits⟩ := s.emit_frame src code p
  rw [emits]
  rfl

theorem State.modNt_ring (g : NetTime → NetTime) : RingOnly s (s.modNt g) := rfl

theorem State.modWr_ring (g : Ring → Ring) : RingOnly s (s.modWr g) := rfl

theorem State.modPr_ring (g : Pair → Pair) : RingOnly s (s.modPr g) := rfl

theorem State.ntSet_ring (i : Nat) : RingOnly s (s.ntSet i) := by
  obtain ⟨pba, out, sets⟩ := irqWatch_frame 19 ntLevel s (s.modNt fun n => { n with sticky := setBit n.sticky i })
  rw [State.ntSet, sets]
  rfl

theorem State.ntState_ring (st : NtState) : RingOnly s (s.ntState st) :=
  .ite .refl ((s.modNt_ring _).trans ((State.ntSet_ring _ 3).trans (State.emit_ring _ _ _ _)))

theorem State.ntSwitch_ring (cause : Nat) : RingOnly s (s.ntSwitch cause) :=
  (s.modNt_ring _).trans ((State.ntSet_ring _ 2).trans (State.emit_ring _ _ _ _))

theorem State.ntHold_ring (v : Int) : RingOnly s (s.ntHold v) :=
  .ite ((s.modNt_ring _).trans (State.ntState_ring _ _)) (.ite (s.ntState_ring _) .refl)

theorem State.ntReturn_ring : RingOnly s s.ntReturn :=
  (s.modPr_ring _).trans (.ite .refl (.ite (State.ntState_ring _ _)
    (.ite ((State.ntSwitch_ring _ _).trans (State.ntState_ring _ _)) ((State.modNt_ring _ _).trans (State.ntState_ring _ _)))))

theorem State.ringState_ring (st : RingState) : RingOnly s (s.ringState st) := by
  have entered := (s.modWr_ring fun r => { r with
    state := st, aligned := r.aligned && decide (st = .up), wasUp := r.wasUp || decide (st = .up) }).trans
      (State.emit_ring _ 21 0x001#12 [at32 st.code 0 ||| at32 s.wr.state.code 4])
  exact .ite .refl (.ite (entered.trans (.trans (State.modWr_ring _ _) (.ite (State.ntReturn_ring _) .refl))) entered)

theorem State.ringRelay_ring : RingOnly s s.ringRelay := by
  unfold State.ringRelay
  dsimp only
  generalize relay : (if s.wr.relay = relayOn s then s else _) = u
  have first : RingOnly s u := by
    rw [← relay]
    exact .ite .refl rfl
  exact .ite (first.trans (u.ringState_ring _)) (.ite (.trans (.ite (first.trans (u.ntHold_ring _)) first) (State.ringState_ring _ _))
    (.ite (first.trans (u.ringState_ring _)) (.ite (first.trans (u.ringState_ring _)) first)))

/-- A device state entered from another (R30): AON_STICKY shows it, a record tells of it, and the ring follows. -/
theorem State.setDevState_ring {st : DevState} (cause : Nat) (elsewhere : s.pw.state ≠ st) :
    RingOnly { s with pw := { s.pw with state := st, sticky := setBit s.pw.sticky 0 } } (s.setDevState st cause) := by
  obtain ⟨pba, out, sets⟩ := irqWatch_frame 31 aonLevel { s with pw.state := st }
    { s with pw := { s.pw with state := st, sticky := setBit s.pw.sticky 0 } }
  have shown : RingOnly { s with pw := { s.pw with state := st, sticky := setBit s.pw.sticky 0 } }
      (State.aonSet { s with pw.state := st } 0) := by
    rw [State.aonSet, sets]
    rfl
  rw [State.setDevState, if_neg elsewhere]
  exact shown.trans (.trans (State.emit_ring _ _ _ _) (State.ringRelay_ring _))

end

/-! ### Axes that are disabled (R32, R33, R171) -/

section
variable {s : State} {a b : Fin 80}

/-- The axis is DISABLED, and not on the interpolation of an arm under MPC. -/
def AtRest (s : State) (a : Fin 80) : Prop := (s.axis a).state = .disabled ∧ (s.pax a).src ≠ .mpcRef

theorem AtRest.of_same {t : State} (rests : AtRest s a) (axis : t.axis a = s.axis a) (pax : t.pax a = s.pax a) : AtRest t a := by
  rw [AtRest, axis, pax]
  exact rests

theorem State.pax_modPax_same (s : State) (a : Fin 80) (g : PgAxis → PgAxis) : (s.modPax a g).pax a = g (s.pax a) := s.pax_upd_same a g

theorem State.pax_modPax_ne (s : State) (g : PgAxis → PgAxis) (ne : b ≠ a) : (s.modPax a g).pax b = s.pax b := s.pax_upd_ne g ne

theorem State.leaveArm_pax_ne (s : State) (ne : b ≠ a) : (s.leaveArm a).pax b = s.pax b := by
  unfold State.leaveArm
  split
  · rfl
  · exact s.pax_upd_ne _ ne

theorem State.leaveArm_axis (s : State) (a b : Fin 80) : (s.leaveArm a).axis b = s.axis b := by
  rw [State.axis, State.leaveArm_cell, State.axis]

theorem State.emit_pax (s : State) (src : Nat) (code : BitVec 12) (p : List (BitVec 32)) (b : Fin 80) :
    (s.emit src code p).pax b = s.pax b := by
  obtain ⟨_, _, _, emits⟩ := s.emit_frame src code p
  rw [emits]
  rfl

theorem State.pgSet_pax_ne (s : State) (i : Nat) (ne : b ≠ a) : (s.pgSet a i).pax b = s.pax b := by
  obtain ⟨_, _, sets⟩ := s.pgSet_frame a i
  rw [sets]
  exact s.pax_upd_ne _ ne

theorem State.stopAxis_pax_ne (s : State) (quick safety : Bool) (ne : b ≠ a) : (s.stopAxis a quick safety).pax b = s.pax b :=
  (State.pax_modPax_ne _ _ ne).trans (s.leaveArm_pax_ne ne)

theorem State.stopAxis_axis_same (s : State) (a : Fin 80) (quick safety : Bool) : ((s.stopAxis a quick safety).axis a).state = .stopping := by
  unfold State.stopAxis
  dsimp only
  rw [State.axis_modAxis, if_pos rfl]

/-- A slave that has lost its master `a` is stopped (R171). -/
def State.loseSlave (s : State) (a b : Fin 80) : State :=
  ((s.stopAxis b true false).pgSet b 4).emit 12 0x003#12 [nat32 b.val 0 ||| nat32 a.val 8]

theorem State.loseSlave_axis (s : State) (a b c : Fin 80) : (s.loseSlave a b).axis c = (s.stopAxis b true false).axis c := by
  rw [State.loseSlave, State.axis, State.emit_cell, State.pgSet_cell, State.axis]

/-- R171: only the slaves of a lost master leave their set-point source. -/
theorem State.loseMaster_pax (s : State) (a b : Fin 80) (free : (s.axis b).state ≠ .geared) : (s.loseMaster a).pax b = s.pax b := by
  refine forEach_induct (fun t => t.pax b = s.pax b) _ _ (fun t c slave so => ?_) s rfl
  have ne : b ≠ c := by
    rintro rfl
    have geared := (List.mem_filter.mp slave).2
    rw [decide_eq_false free] at geared
    exact Bool.false_ne_true geared
  exact (State.emit_pax _ _ _ _ b).trans ((State.pgSet_pax_ne _ 4 ne).trans ((t.stopAxis_pax_ne true false ne).trans so))

/-- R171: a lost master brings no axis into FAULT. -/
theorem State.loseMaster_sound (s : State) (a b : Fin 80) (sound : (s.axis b).state ≠ .fault) :
    ((s.loseMaster a).axis b).state ≠ .fault := by
  refine forEach_induct (fun t => (t.axis b).state ≠ .fault) _ _ (fun t c _ so => ?_) s sound
  change ((t.loseSlave a c).axis b).state ≠ .fault
  rw [State.loseSlave_axis]
  by_cases same : c = b
  · subst same
    rw [State.stopAxis_axis_same]
    exact AxisState.noConfusion
  · rwa [t.stopAxis_axis_ne true false same]

/-- The axis is DISABLED, and its slaves still have to stop. -/
def State.released (s : State) (a : Fin 80) : State :=
  ((s.modAxis a fun x => { x with state := .disabled, selFault := false }).leaveArm a).modPax a PgAxis.release

theorem State.setAxis_disabled (s : State) (a : Fin 80) : s.setAxis a .disabled = (s.released a).loseMaster a := rfl

theorem State.released_axis (s : State) (a b : Fin 80) :
    (s.released a).axis b = if a = b then { s.axis b with state := .disabled, selFault := false } else s.axis b := by
  rw [← State.axis_modAxis s a b fun x => { x with state := .disabled, selFault := false }]
  exact State.leaveArm_axis (s.modAxis a fun x => { x with state := .disabled, selFault := false }) a b

theorem State.setAxis_disabled_same (s : State) (a : Fin 80) : AtRest (s.setAxis a .disabled) a := by
  have state : ((s.released a).axis a).state = .disabled := by rw [State.released_axis, if_pos rfl]
  have loose : ((s.released a).axis a).state ≠ .geared := by
    rw [state]
    exact AxisState.noConfusion
  rw [State.setAxis_disabled]
  refine ⟨by rw [State.loseMaster_axis _ _ _ loose, state], ?_⟩
  rw [State.loseMaster_pax _ _ _ loose, State.released, State.pax_modPax_same]
  exact PgSource.noConfusion

theorem State.setAxis_disabled_rest (s : State) (a : Fin 80) (rests : AtRest s b) : AtRest (s.setAxis a .disabled) b := by
  by_cases same : a = b
  · subst same
    exact s.setAxis_disabled_same a
  · have axis : (s.released a).axis b = s.axis b := by rw [State.released_axis, if_neg same]
    have loose : ((s.released a).axis b).state ≠ .geared := by
      rw [axis, rests.1]
      exact AxisState.noConfusion
    refine rests.of_same ((State.loseMaster_axis _ _ _ loose).trans axis) ((State.loseMaster_pax _ _ _ loose).trans ?_)
    exact (State.pax_modPax_ne _ _ (Ne.symm same)).trans (State.leaveArm_pax_ne _ (Ne.symm same))

theorem State.setAxis_disabled_sound (s : State) (a : Fin 80) (sound : (s.axis b).state ≠ .fault) :
    ((s.setAxis a .disabled).axis b).state ≠ .fault := by
  rw [State.setAxis_disabled]
  refine State.loseMaster_sound _ _ _ ?_
  rw [State.released_axis]
  split
  · exact AxisState.noConfusion
  · exact sound

/-- The axes that are not in FAULT are DISABLED, one after another (R32). -/
def State.disableAll (s : State) (l : List (Fin 80)) : State :=
  s.forEach l fun s a => if (s.axis a).state = .fault then s else s.setAxis a .disabled

theorem State.disableAll_keeps_rest (s : State) (l : List (Fin 80)) (rests : AtRest s b) : AtRest (s.disableAll l) b := by
  refine forEach_induct (fun t => AtRest t b) l _ (fun t a _ so => ?_) s rests
  split
  · exact so
  · exact t.setAxis_disabled_rest a so

theorem State.disableAll_rest (l : List (Fin 80)) {s : State} (member : b ∈ l) (sound : (s.axis b).state ≠ .fault) :
    AtRest (s.disableAll l) b := by
  induction l generalizing s with
  | nil => exact absurd member List.not_mem_nil
  | cons a l ih =>
    change AtRest (State.disableAll (if (s.axis a).state = .fault then s else s.setAxis a .disabled) l) b
    rcases List.mem_cons.mp member with rfl | later
    · rw [if_neg sound]
      exact State.disableAll_keeps_rest _ _ (s.setAxis_disabled_same b)
    · refine ih later ?_
      split
      · exact sound
      · exact s.setAxis_disabled_sound a sound

theorem State.disableAll_motion (s : State) (l : List (Fin 80)) : MotionOnly s (s.disableAll l) :=
  .forEach (fun t a => .ite .refl (t.releaseAxis_motion a _)) s

theorem State.holdAxis_rest (s : State) (x : Int) (ne : b ≠ a) (rests : AtRest s b) : AtRest (s.holdAxis a x) b := by
  refine rests.of_same ?_ ((State.pax_modPax_ne _ _ ne).trans (s.leaveArm_pax_ne ne))
  refine (State.axis_modAxis _ a b _).trans ?_
  rw [if_neg (Ne.symm ne)]
  exact s.leaveArm_axis a b

/-- An axis at rest is no axis of an arm that leaves MPC (R34). -/
theorem State.endMpc_rest (s : State) (r : Fin 8) (rests : AtRest s b) : AtRest (s.endMpc r) b := by
  unfold State.endMpc
  refine AtRest.of_same (forEach_induct (fun t => AtRest t b) _ _ (fun t a _ so => ?_) s rests) rfl rfl
  dsimp only
  split
  · next mpc =>
    have ne : b ≠ a := by
      rintro rfl
      exact so.2 mpc
    split
    · exact t.holdAxis_rest _ ne so
    · exact so.of_same rfl (t.pax_modPax_ne _ ne)
  · exact so

theorem State.mpcSweep_rest (s : State) (rests : AtRest s b) : AtRest s.mpcSweep b := by
  refine forEach_induct (fun t => AtRest t b) _ _ (fun t r _ so => ?_) s rests
  split
  · exact t.endMpc_rest r so
  · exact so

end

/-- The OSSDs and the PLLs follow a device state. -/
def State.followed (u s : State) : State := u.ossdUpdate.pllFollow s

/-- The device has entered READY, and the OSSDs and the PLLs still have to follow. -/
def State.readied (s : State) (cause : Nat) : State :=
  (((s.disableAll (fins 80)).modWr fun r => { r with lost := false }).setDevState .ready cause).mpcSweep

theorem State.enterReady_eq (s : State) (cause : Nat) : s.enterReady cause = (s.readied cause).followed s := rfl

/-- R32, R395, R423: what the device leaves when it enters READY from another state. -/
structure EntersReady (s t : State) : Prop where
  tr : t.tr = s.tr
  tb : t.tb = s.tb
  mem : t.mem = s.mem
  state : t.pw.state = .ready
  disabled : ∀ a, (s.axis a).state ≠ .fault → (t.axis a).state = .disabled

theorem State.readied_enters (s : State) (cause : Nat) (elsewhere : s.pw.state ≠ .ready) : EntersReady s (s.readied cause) := by
  have disables := s.disableAll_motion (fins 80)
  have rests := fun a => State.disableAll_rest (fins 80) (s := s) (b := a) (List.mem_finRange a)
  unfold State.readied
  generalize s.disableAll (fins 80) = u at disables rests
  have ring := (u.modWr fun r => { r with lost := false }).setDevState_ring (st := .ready) cause
    (by rw [show (u.modWr fun r => { r with lost := false }).pw = u.pw from rfl, disables.pw]; exact elsewhere)
  generalize State.setDevState _ .ready cause = v at ring
  have sweeps := v.mpcSweep_motion
  refine ⟨sweeps.tr.trans (ring.tr.trans disables.tr), sweeps.tb.trans (ring.tb.trans disables.tb),
    sweeps.mem.trans (ring.mem.trans disables.mem), ?_, fun a sound => ?_⟩
  · rw [sweeps.pw, ring.pw]
  · refine (v.mpcSweep_rest ((rests a sound).of_same ?_ ?_)).1
    · rw [State.axis, ring.cell]
      rfl
    · rw [State.pax, ring.pg]
      rfl

theorem State.followed_axis (u s : State) (a : Fin 80) : (u.followed s).axis a = u.axis a := rfl

theorem EntersReady.followed {s u v : State} (enters : EntersReady s u) : EntersReady s (u.followed v) := by
  refine ⟨enters.tr, enters.tb, enters.mem, enters.state, fun a sound => ?_⟩
  rw [State.followed_axis]
  exact enters.disabled a sound

theorem State.enterReady_enters (s : State) (cause : Nat) (elsewhere : s.pw.state ≠ .ready) : EntersReady s (s.enterReady cause) := by
  rw [State.enterReady_eq]
  exact (s.readied_enters cause elsewhere).followed

end Sys2Proof.Machine
end

section
/-! SUPPORT. The operations on power and on the pair (R80, R382, R419, R421 to R423). -/
namespace Sys2Proof.Machine

section
variable {s t u : State} {f : Fin 16} {w : TWord} {flags : BitVec 8} {v : W64}

/-- What an operation leaves of its flow is told by the flow alone. -/
theorem Accepted.of_tr (accepted : Accepted s u f w flags v) (same : t.tr = u.tr) : Accepted s t f w flags v := by
  have flow : t.flow f = u.flow f := by rw [State.flow, same, State.flow]
  unfold Accepted GoesOn at *
  rw [flow]
  exact accepted

theorem RegsKept.of_tr (regs : RegsKept s u f) (same : t.tr = u.tr) : RegsKept s t f := by
  have flow : t.flow f = u.flow f := by rw [State.flow, same, State.flow]
  unfold RegsKept at *
  rw [flow]
  exact regs

end

/-! ### PWR.SET -/

theorem taken_ops (s : State) (f g : Fin 16) : ((s.taken f).flow g).ops = (s.flow g).ops := by
  by_cases same : g = f
  · subst same
    rw [State.flow_taken]
  · rw [s.flow_taken_ne same]

/-- The flow of the PWR.SET itself does not stand in its way (R423). -/
theorem quiet_taken (s : State) (f : Fin 16) : quiet (s.taken f) f = quiet s f := by
  have others (g : Fin 16) :
      (decide (g = f) || (decide (((s.taken f).flow g).state ≠ .running) && decide (((s.taken f).flow g).state ≠ .waiting))) =
      (decide (g = f) || (decide ((s.flow g).state ≠ .running) && decide ((s.flow g).state ≠ .waiting))) := by
    by_cases same : g = f
    · rw [decide_eq_true same, Bool.true_or, Bool.true_or]
    · rw [s.flow_taken_ne same]
  unfold quiet
  simp only [taken_ops, others]
  rfl

theorem sleepOk_over (s : State) (tr : Treadle) (cr : Clocks) : sleepOk (s.over tr cr s.pr) = sleepOk s := rfl

theorem setOk_taken (s : State) (f : Fin 16) (d : DevState) : setOk (s.taken f) f d = setOk s f d := by
  unfold setOk
  rw [quiet_taken, show sleepOk (s.taken f) = sleepOk s from sleepOk_over s _ _]
  rfl

/-- Only the drafts have changed (R91). -/
theorem State.unbindDrafts_frame (s : State) : ∃ lm, s.unbindDrafts = { s with lm := lm } := by
  have slots : ∃ lm, (s.forEach (fins 8) fun s d => s.modSlot d fun x =>
      if x.state = .bound then { x with state := .loaded, insts := [], released := 0 } else x) = { s with lm := lm } := by
    refine forEach_induct (fun t => ∃ lm, t = { s with lm := lm }) _ _ (fun t d _ so => ?_) s ⟨s.lm, rfl⟩
    obtain ⟨lm, rfl⟩ := so
    exact ⟨_, rfl⟩
  obtain ⟨lm, same⟩ := slots
  unfold State.unbindDrafts
  rw [same]
  exact ⟨_, rfl⟩

section
variable {s : State} {f : Fin 16} {w : TWord} {d : DevState}

/-- A PWR.SET whose transition is allowed, or that names the present state. -/
theorem pwrSet_accepted (target : setTarget (field w.imm 0 3) = d) (known : field w.imm 0 3 ≠ 0#3 ∧ (field w.imm 0 3).toNat < 5)
    (noExt : w.xw = 0#4) (form : OpForm s f w [] 7#32) (lease : s.lease = true) (legal : OpLegal s [.ready, .run] 0)
    (allowed : s.pw.state = d ∨ setOk s f d = true) : ∃ l, LogKept s l ∧
      (s.pw.state = d → exec (.pwrSet f w) s = .next ((s.logged f l).opAccept f w .ok flagNoEffect none)) ∧
      (s.pw.state ≠ d → d = .run →
        exec (.pwrSet f w) s = .next ((((s.logged f l).opAccept f w .ok 0#8 none).setDevState .run 0).ossdUpdate)) ∧
      (s.pw.state ≠ d → d = .ready →
        exec (.pwrSet f w) s = .next ((((s.logged f l).opAccept f w .ok 0#8 none).enterReady 0).unbindDrafts)) ∧
      (s.pw.state ≠ d → d = .standby ∨ d = .sleep → exec (.pwrSet f w) s = .next
        { (s.logged f l).opAccept f w .ok 0#8 none with pw.trans := some { target := d, op := some (f, (s.flow f).nextOp) } }) := by
  obtain ⟨l, kept, ran⟩ := devOp_accepted (c := .pwrSet f w) rfl form no_obj (by
    refine fine_cons (xwNot_fine (by simp [noExt])) (fine_cons ?_ fine_nil)
    exact Bool.or_eq_false_iff.mpr ⟨decide_eq_false known.1, decide_eq_false (Nat.not_le.mpr known.2)⟩) (by
    refine fine_cons (stateGate_fine legal _) (fine_cons (leaseGate_fine lease) (fine_cons ?_ fine_nil))
    dsimp only
    rw [target, setOk_taken, show (s.taken f).pw = s.pw from rfl]
    rcases allowed with present | allowed
    · rw [decide_eq_false (not_not_intro present), Bool.false_and]
    · rw [allowed]
      exact Bool.and_false _)
  dsimp only at ran
  rw [target, show (s.logged f l).pw.state = s.pw.state from rfl] at ran
  refine ⟨l, kept, fun present => ?_, fun other run => ?_, fun other ready => ?_, fun other down => ?_⟩
  · rw [ran, if_pos present]
  · subst run
    rw [ran, if_neg other]
  · subst ready
    rw [ran, if_neg other]
  · rw [ran, if_neg other, State.logged_opId]
    rcases down with rfl | rfl
    · rfl
    · rfl

theorem pwrSet_present (target : setTarget (field w.imm 0 3) = d) (known : field w.imm 0 3 ≠ 0#3 ∧ (field w.imm 0 3).toNat < 5)
    (noExt : w.xw = 0#4) (form : OpForm s f w [] 7#32) (lease : s.lease = true) (legal : OpLegal s [.ready, .run] 0)
    (present : s.pw.state = d) :
    ∃ t, exec (.pwrSet f w) s = .next t ∧ Accepted s t f w 0x80#8 0#64 ∧ RegsKept s t f ∧ OpFrame s t f := by
  obtain ⟨l, kept, ran, -⟩ := pwrSet_accepted target known noExt form lease legal (.inl present)
  obtain ⟨frame, accepted, regs⟩ := opAccept_accepted (w := w) (flags := 0x80#8) (show Effected s s (s.logged f l) f l from rfl)
    ⟨rfl, rfl, rfl⟩ kept form.1
  exact ⟨_, ran present, accepted, regs, frame⟩

theorem pwrSet_run (target : setTarget (field w.imm 0 3) = .run) (known : field w.imm 0 3 ≠ 0#3 ∧ (field w.imm 0 3).toNat < 5)
    (noExt : w.xw = 0#4) (form : OpForm s f w [] 7#32) (lease : s.lease = true) (legal : OpLegal s [.ready, .run] 0)
    (ready : s.pw.state = .ready) (allowed : setOk s f .run = true) :
    ∃ t, exec (.pwrSet f w) s = .next t ∧ Accepted s t f w 0#8 0#64 ∧ RegsKept s t f ∧ t.pw.state = .run ∧
      t.pw = { s.pw with state := .run, sticky := t.pw.sticky } ∧ t.tb = s.tb ∧ t.mem = s.mem ∧ t.cell = s.cell := by
  have other : s.pw.state ≠ .run := by
    rw [ready]
    exact DevState.noConfusion
  obtain ⟨l, kept, -, ran, -, -⟩ := pwrSet_accepted target known noExt form lease legal (.inr allowed)
  obtain ⟨-, accepted, regs⟩ := opAccept_accepted (w := w) (flags := 0#8) (show Effected s s (s.logged f l) f l from rfl)
    ⟨rfl, rfl, rfl⟩ kept form.1
  have ring := ((s.logged f l).opAccept f w .ok 0#8 none).setDevState_ring (st := .run) 0 other
  have ran := ran other rfl
  generalize State.setDevState _ .run 0 = u at ran ring
  have pw : u.pw = { s.pw with state := .run, sticky := u.pw.sticky } := by rw [ring.pw]; rfl
  have state : u.pw.state = .run := by rw [pw]
  exact ⟨_, ran, accepted.of_tr ring.tr, regs.of_tr ring.tr, state, pw, ring.tb, ring.mem, ring.cell⟩

theorem pwrSet_ready (target : setTarget (field w.imm 0 3) = .ready) (known : field w.imm 0 3 ≠ 0#3 ∧ (field w.imm 0 3).toNat < 5)
    (noExt : w.xw = 0#4) (form : OpForm s f w [] 7#32) (lease : s.lease = true) (legal : OpLegal s [.ready, .run] 0)
    (runs : s.pw.state = .run) (allowed : setOk s f .ready = true) :
    ∃ t, exec (.pwrSet f w) s = .next t ∧ Accepted s t f w 0#8 0#64 ∧ RegsKept s t f ∧ t.pw.state = .ready ∧ t.tb = s.tb ∧
      t.mem = s.mem ∧ ∀ a, (s.axis a).state ≠ .fault → (t.axis a).state = .disabled := by
  have other : s.pw.state ≠ .ready := by
    rw [runs]
    exact DevState.noConfusion
  obtain ⟨l, kept, -, -, ran, -⟩ := pwrSet_accepted target known noExt form lease legal (.inr allowed)
  obtain ⟨-, accepted, regs⟩ := opAccept_accepted (w := w) (flags := 0#8) (show Effected s s (s.logged f l) f l from rfl)
    ⟨rfl, rfl, rfl⟩ kept form.1
  have enters := ((s.logged f l).opAccept f w .ok 0#8 none).enterReady_enters 0 other
  have ran := ran other rfl
  generalize State.enterReady _ 0 = u at ran enters
  obtain ⟨lm, unbinds⟩ := u.unbindDrafts_frame
  rw [unbinds] at ran
  exact ⟨_, ran, accepted.of_tr enters.tr, regs.of_tr enters.tr, enters.state, enters.tb, enters.mem, enters.disabled⟩

theorem pwrSet_down (target : setTarget (field w.imm 0 3) = d) (known : field w.imm 0 3 ≠ 0#3 ∧ (field w.imm 0 3).toNat < 5)
    (noExt : w.xw = 0#4) (form : OpForm s f w [] 7#32) (lease : s.lease = true) (legal : OpLegal s [.ready, .run] 0)
    (down : d = .standby ∨ d = .sleep) (allowed : setOk s f d = true) (ready : s.pw.state = .ready) :
    ∃ t, exec (.pwrSet f w) s = .next t ∧ Accepted s t f w 0#8 0#64 ∧ RegsKept s t f ∧
      OpFrame { s with pw.trans := some { target := d, op := some (f, (s.flow f).nextOp) } } t f := by
  have other : s.pw.state ≠ d := by
    rw [ready]
    rcases down with rfl | rfl
    · exact DevState.noConfusion
    · exact DevState.noConfusion
  obtain ⟨l, kept, -, -, -, ran⟩ := pwrSet_accepted target known noExt form lease legal (.inr allowed)
  obtain ⟨frame, accepted, regs⟩ := opAccept_accepted (w := w) (flags := 0#8) (show Effected s
    { s with pw.trans := some { target := d, op := some (f, (s.flow f).nextOp) } } _ f l from rfl) ⟨rfl, rfl, rfl⟩ kept form.1
  exact ⟨_, ran other down, accepted, regs, frame⟩

end

/-! ### PWR.DOMAIN -/

theorem domainOk_over (s : State) (tr : Treadle) (cr : Clocks) (d : Fin 13) (t : DomState) :
    domainOk (s.over tr cr s.pr) d t = domainOk s d t := rfl

section
variable {s : State} {f : Fin 16} {w : TWord} {d : Fin 13} {target : DomState} (names : ((s.flow f).obj w).toNat = d.val)
include names

theorem State.taken_dom : Fin.ofNat 13 (((s.taken f).flow f).obj w).toNat = d := by
  rw [State.taken_obj, names, Fin.ofNat_val_eq_self]

theorem State.logged_dom {l : List (List (BitVec 32))} : Fin.ofNat 13 (((s.logged f l).flow f).obj w).toNat = d :=
  State.taken_dom names

/-- A PWR.DOMAIN whose transition is allowed, or that names the present state. -/
theorem pwrDomain_accepted (given : DomState.ofCode (field w.imm 8 2) = target) (noExt : w.xw = 0#4) (form : OpForm s f w [w.ra] 0x37F#32)
    (legal : OpLegal s [.ready, .run] 0) (main : 3 ≤ d.val) (allowed : s.domain d = target ∨ domainOk s d target = true) :
    ∃ l, LogKept s l ∧ exec (.pwrDomain f w) s = .next (
      if s.domain d = target then (s.logged f l).opAccept f w .ok flagNoEffect none
      else { (s.logged f l).opIssue f w false with
        pw.domTrans := upd s.pw.domTrans d fun _ => some { target := target, flow := f, op := (s.flow f).nextOp } }) := by
  obtain ⟨l, kept, ran⟩ := devOp_accepted (c := .pwrDomain f w) rfl form (obj_inside names d.isLt) (by
    refine fine_cons (xwNot_fine (by simp [noExt])) (fine_cons ?_ fine_nil)
    rw [State.taken_obj, names]
    exact decide_eq_false (by omega)) (by
    have same : domainOk (s.taken f) d target = domainOk s d target := domainOk_over s _ _ d target
    simp only [State.taken_dom names, given, same]
    refine fine_cons (stateGate_fine legal _) (fine_cons (Bool.and_eq_false_iff.mpr ?_) fine_nil)
    exact allowed.imp (fun present => decide_eq_false (not_not_intro present)) fun allowed => congrArg (! ·) allowed)
  dsimp only at ran
  rw [State.logged_dom names, given, State.logged_opId] at ran
  exact ⟨l, kept, ran⟩

theorem pwrDomain_present (given : DomState.ofCode (field w.imm 8 2) = target) (noExt : w.xw = 0#4) (form : OpForm s f w [w.ra] 0x37F#32)
    (legal : OpLegal s [.ready, .run] 0) (main : 3 ≤ d.val) (present : s.domain d = target) :
    ∃ t, exec (.pwrDomain f w) s = .next t ∧ Accepted s t f w 0x80#8 0#64 ∧ RegsKept s t f ∧ OpFrame s t f := by
  obtain ⟨l, kept, ran⟩ := pwrDomain_accepted names given noExt form legal main (.inl present)
  rw [if_pos present] at ran
  obtain ⟨frame, accepted, regs⟩ := opAccept_accepted (w := w) (flags := 0x80#8) (show Effected s s (s.logged f l) f l from rfl)
    ⟨rfl, rfl, rfl⟩ kept form.1
  exact ⟨_, ran, accepted, regs, frame⟩

theorem pwrDomain_starts (given : DomState.ofCode (field w.imm 8 2) = target) (noExt : w.xw = 0#4) (form : OpForm s f w [w.ra] 0x37F#32)
    (legal : OpLegal s [.ready, .run] 0) (main : 3 ≤ d.val) (other : s.domain d ≠ target) (allowed : domainOk s d target = true) :
    ∃ t, exec (.pwrDomain f w) s = .next t ∧ InFlight s t f w none ∧ RegsKept s t f ∧ OpFrame { s with
      pw.domTrans := upd s.pw.domTrans d fun _ => some { target := target, flow := f, op := (s.flow f).nextOp } } t f := by
  obtain ⟨l, kept, ran⟩ := pwrDomain_accepted names given noExt form legal main (.inr allowed)
  rw [if_neg other] at ran
  obtain ⟨frame, inFlight, regs⟩ := opIssue_inFlight (w := w) (rd := false) (show Effected s { s with
      pw.domTrans := upd s.pw.domTrans d fun _ => some { target := target, flow := f, op := (s.flow f).nextOp } } _ f l from rfl)
    ⟨rfl, rfl, rfl⟩ kept form.1
  exact ⟨_, ran, inFlight, regs, frame⟩

end

/-! ### PAIR.SYNC -/

/-- The request of a device depends on what it keeps, and on its role and its name in the pair (R382). -/
theorem syncReq_over (s : State) (tr : Treadle) (cr : Clocks) (pr : Pair) (role : pr.role = s.pr.role) (unit : pr.unit = s.pr.unit) :
    syncReq (s.over tr cr pr) = syncReq s := by
  unfold syncReq
  rw [draftCarry_over, ← role, ← unit]
  rfl

/-- The request that a device ALONE sends over a link that is up (R382). -/
theorem State.requestSync_up (s : State) (up : pairUp s = true) : s.requestSync = { s with
    out := .pairCtl (.req (syncReq s)) :: s.out, pr.reqAt := some s.now, pr.seqTx := s.pr.seqTx + 1#32 } := by
  unfold State.requestSync State.pairCtl
  exact if_pos up

theorem pairSync_requests {s : State} {f : Fin 16} {w : TWord} (noExt : w.xw = 0#4) (form : OpForm s f w [] 0#32)
    (legal : OpLegal s [.ready, .run] 11) (on : s.pr.en = true) (alone : s.pr.role = .alone) (up : pairUp s = true) :
    ∃ t, exec (.pairSync f w) s = .next t ∧ Accepted s t f w 0#8 0#64 ∧ RegsKept s t f ∧
      OpFrame { s with out := .pairCtl (.req (syncReq s)) :: s.out, pr.reqAt := some s.now, pr.seqTx := s.pr.seqTx + 1#32 } t f := by
  obtain ⟨l, kept, ran⟩ := devOp_accepted (c := .pairSync f w) rfl form no_obj (fine_cons (xwNot_fine (by simp [noExt])) fine_nil) (by
    refine fine_cons (stateGate_fine legal _) (fine_cons ?_ fine_nil)
    dsimp only
    rw [show (s.taken f).pr = s.pr from rfl, show pairUp (s.taken f) = pairUp s from rfl, on, up, decide_eq_true alone]
    rfl)
  have follows : leads s = false := by simp [leads, alone]
  obtain rfl := kept follows
  obtain ⟨frame, accepted, regs⟩ := opAccept_accepted (w := w) (flags := 0#8) (show Effected s s (s.logged f s.pr.log) f s.pr.log from rfl)
    ⟨rfl, rfl, rfl⟩ kept form.1
  have request : syncReq ((s.logged f s.pr.log).opAccept f w .ok 0#8 none) = syncReq s := syncReq_over s _ _ _ rfl rfl
  rw [State.requestSync_up _ (show pairUp ((s.logged f s.pr.log).opAccept f w .ok 0#8 none) = true from up), request] at ran
  obtain ⟨-, cr, tr, others, -, -⟩ := frame
  refine ⟨_, ran, accepted.of_tr rfl, regs.of_tr rfl, rfl, cr, tr, others, rfl, fun _ => rfl⟩

/-- Settles O29: each operation of the table. -/
theorem powerAndPairOperations : Obligations.PowerAndPairOperations := by
  intro f w s noExt
  refine ⟨fun form lease legal => ?_, fun form legal d names main => ?_, fun form => pairSync_requests noExt form⟩
  · intro v
    have known {n : BitVec 3} (is : v = n) (small : n ≠ 0#3 ∧ n.toNat < 5) : v ≠ 0#3 ∧ v.toNat < 5 := is ▸ small
    have target {n : BitVec 3} (is : v = n) : setTarget v = setTarget n := congrArg setTarget is
    refine ⟨fun is => ?_, fun is => ?_, fun d is allowed ready => ?_, fun is => ?_⟩
    · exact pwrSet_run (target is) (known is (by decide)) noExt form lease legal
    · exact pwrSet_ready (target is) (known is (by decide)) noExt form lease legal
    · rcases is with ⟨is, rfl⟩ | ⟨is, rfl⟩
      · exact pwrSet_down (target is) (known is (by decide)) noExt form lease legal (.inl rfl) allowed ready
      · exact pwrSet_down (target is) (known is (by decide)) noExt form lease legal (.inr rfl) allowed ready
    · rcases is with ⟨is, present⟩ | ⟨is, present⟩
      · exact pwrSet_present (target is) (known is (by decide)) noExt form lease legal present
      · exact pwrSet_present (target is) (known is (by decide)) noExt form lease legal present
  · intro target
    exact ⟨pwrDomain_present names rfl noExt form legal main, pwrDomain_starts names rfl noExt form legal main⟩

end Sys2Proof.Machine
end

section
/-! SUPPORT. The value and the step of an SSI word (R111, R113). -/
namespace Sys2Proof.Machine

/-- A bit of a Gray word is the sum of two bits of the number it stands for (R111). -/
theorem grayBit (w n : Nat) : (w ^^^ w / 2) / 2 ^ n % 2 = (w / 2 ^ n + w / 2 ^ (n + 1)) % 2 := by
  have halves : w / 2 / 2 ^ n = w / 2 ^ (n + 1) := by rw [Nat.div_div_eq_div_mul, ← Nat.pow_succ']
  rw [← Nat.shiftRight_eq_div_pow, Nat.shiftRight_xor_distrib, Nat.xor_mod_two_eq, Nat.shiftRight_eq_div_pow,
    Nat.shiftRight_eq_div_pow, halves]

/-- From bit `n` − 1 downward, with bit `n` of the number at hand, decoding gives the number's low `n` bits (R111). -/
theorem grayDecode_gray (w n acc : Nat) : grayDecode (w ^^^ w / 2) n (w / 2 ^ n % 2) acc = acc + w % 2 ^ n := by
  induction n generalizing acc with
  | zero => simp [grayDecode, Nat.mod_one]
  | succ n ih =>
    have next : ((w ^^^ w / 2) / 2 ^ n + w / 2 ^ (n + 1) % 2) % 2 = w / 2 ^ n % 2 := by
      have := grayBit w n
      omega
    rw [grayDecode, next, ih, Nat.mod_pow_succ]
    ring

theorem grayDecode_word {w n : Nat} (fits : w < 2 ^ n) : grayDecode (w ^^^ w / 2) n 0 0 = w := by
  have := grayDecode_gray w n 0
  rwa [Nat.div_eq_of_lt fits, Nat.mod_eq_of_lt fits, Nat.zero_add] at this

section
variable {n w prev : Nat} {d : Int} (last : prev < 2 ^ n) (congr : ((w : Int) - prev - d) % 2 ^ n = 0)
include last congr

/-- The difference that R113 compares is the step, or for a step downward the step and one turn of the range. -/
theorem ssiStep_turn (low : -2 ^ n ≤ d) (high : d < 2 ^ n) :
    (((w + 2 ^ n - prev) % 2 ^ n : Nat) : Int) = if 0 ≤ d then d else d + 2 ^ n := by
  have same : (w - prev : Int) % 2 ^ n = d % 2 ^ n := Int.emod_eq_emod_iff_emod_sub_eq_zero.mpr congr
  rw [Int.natCast_emod, Nat.cast_sub (by omega)]
  push_cast
  rw [add_sub_right_comm, Int.add_emod_right, same]
  split
  · next up => exact Int.emod_eq_of_lt up high
  · rw [← Int.add_emod_right]
    exact Int.emod_eq_of_lt (by omega) (by omega)

theorem ssiStep_some (pos : 0 < n) (low : -2 ^ (n - 1) < d) (high : d < 2 ^ (n - 1)) : ssiStep n w prev = some d := by
  have range : (2 : Int) ^ n = 2 * 2 ^ (n - 1) := (mul_pow_sub_one pos.ne' 2).symm
  have cast : ((2 ^ (n - 1) : Nat) : Int) = 2 ^ (n - 1) := by push_cast; rfl
  have turn := ssiStep_turn last congr (by omega) (by omega)
  unfold ssiStep
  dsimp only
  generalize (w + 2 ^ n - prev) % 2 ^ n = k at turn ⊢
  split at turn
  · rw [if_pos (by omega), turn]
  · rw [if_neg (by omega), if_neg (by omega), turn, add_sub_cancel_right]

theorem ssiStep_half (pos : 0 < n) (half : d = -2 ^ (n - 1)) : ssiStep n w prev = none := by
  have range : (2 : Int) ^ n = 2 * 2 ^ (n - 1) := (mul_pow_sub_one pos.ne' 2).symm
  have cast : ((2 ^ (n - 1) : Nat) : Int) = 2 ^ (n - 1) := by push_cast; rfl
  have positive : (0 : Int) < 2 ^ (n - 1) := by positivity
  have turn := ssiStep_turn last congr (by omega) (by omega)
  rw [if_neg (by omega)] at turn
  unfold ssiStep
  dsimp only
  rw [if_neg (by omega), if_pos (by omega)]

end

end Sys2Proof.Machine
end

section
/-! SUPPORT. What the operations of a feedback channel leave of its count and of its SSI words, and of the other channels. -/
namespace Sys2Proof.Machine

/-- What SSI words count in and are judged by: the raw count, the mode, and what the words so far have left (R112, R113). -/
structure SsiPart where
  bits : BitVec 6
  raw : Int
  mode : FbMode
  wPrev : Option Nat
  run : Nat
  start : Option (Nat × BitVec 32)
  cond : Bool
  errBad : BitVec 16

def FbCh.ssi (h : FbCh) : SsiPart := ⟨h.bits, h.raw, h.mode, h.wPrev, h.ssiRun, h.ssiStart, h.ssiCond, h.errBad⟩

/-- Channel `c` has come to `p`, and no other channel has changed. -/
structure SsiShows (s t : State) (c : Fin 96) (p : SsiPart) : Prop where
  part : (t.ch c).ssi = p
  others : ∀ i : Fin 96, i ≠ c → t.ch i = s.ch i

theorem MotionOnly.fb {s t : State} (only : MotionOnly s t) : t.fb = s.fb := by rw [only]

section
variable {s t u : State} {c : Fin 96} {p q : SsiPart}

theorem SsiShows.then (first : SsiShows s t c p) (second : SsiShows t u c q) : SsiShows s u c q :=
  ⟨second.part, fun i ne => (second.others i ne).trans (first.others i ne)⟩

/-- The second change leaves the part as it is. -/
theorem SsiShows.keeping (first : SsiShows s t c p) (second : SsiShows t u c (t.ch c).ssi) : SsiShows s u c p :=
  first.part ▸ first.then second

theorem SsiShows.of_fb (same : t.fb.ch = s.fb.ch) : SsiShows s t c (s.ch c).ssi := by
  have every (i : Fin 96) : t.ch i = s.ch i := by rw [State.ch, same, State.ch]
  exact ⟨by rw [every], fun i _ => every i⟩

theorem SsiShows.ite {b : Prop} [Decidable b] (yes : SsiShows s t c p) (no : SsiShows s u c p) :
    SsiShows s (if b then t else u) c p := by
  split
  · exact yes
  · exact no

variable (s c)

theorem State.modCh_shows {g : FbCh → FbCh} (part : (g (s.ch c)).ssi = p) : SsiShows s (s.modCh c g) c p :=
  ⟨by rw [State.ch_modCh_same, part], fun _ ne => s.ch_fb_ne g ne⟩

theorem State.fbSet_shows (i : Nat) : SsiShows s (s.fbSet c i) c (s.ch c).ssi := by
  obtain ⟨pba, out, sets⟩ := s.fbSet_frame c i
  have sticky : SsiShows s (s.modCh c fun h => { h with sticky := setBit h.sticky i }) c (s.ch c).ssi := s.modCh_shows c rfl
  rw [sets]
  exact sticky.keeping (.of_fb rfl)

theorem State.trace_shows (kind : BitVec 2) (count : Int) (n : Nat) : SsiShows s (s.trace c kind count n) c (s.ch c).ssi :=
  .ite (.ite (.of_fb rfl) (.of_fb rfl)) (.of_fb rfl)

theorem State.driveTrig_shows (o : Fin 8) (active : Bool) : SsiShows s (s.driveTrig o active) c (s.ch c).ssi :=
  .ite (.of_fb rfl) (.of_fb rfl)

theorem State.fireCompare_shows (n : Nat) : SsiShows s (s.fireCompare c n) c (s.ch c).ssi := by
  unfold State.fireCompare
  dsimp only
  generalize fired : State.fbSet _ c 1 = u
  have hit : SsiShows s u c (s.ch c).ssi := by
    rw [← fired]
    exact (s.modCh_shows c rfl).keeping (State.fbSet_shows _ c 1)
  have pulses (g : Vector Trig 8) : SsiShows s { u with fb.trig := g } c (s.ch c).ssi := hit.keeping (.of_fb rfl)
  exact .ite (.ite ((pulses _).keeping (State.driveTrig_shows _ c _ _)) (pulses _)) hit

theorem State.reportEdge_shows (rep d : Int) (n k : Nat) : SsiShows s (s.reportEdge c rep d n k) c (s.ch c).ssi := by
  unfold State.reportEdge
  dsimp only
  generalize counted : State.modCh s c _ = s1
  have moved : SsiShows s s1 c (s.ch c).ssi := by
    rw [← counted]
    exact s.modCh_shows c rfl
  generalize marked : (if decide (d ≠ (s.ch c).dir) = true then s1.fbSet c 0 else s1) = s2
  have turned : SsiShows s s2 c (s.ch c).ssi := by
    rw [← marked]
    exact .ite (moved.keeping (s1.fbSet_shows c 0)) moved
  have traced : SsiShows s (s2.trace c 2#2 rep n) c (s.ch c).ssi := turned.keeping (s2.trace_shows c _ _ _)
  exact .ite (traced.keeping (State.fireCompare_shows _ c n)) traced

theorem State.follow_shows (d : Int) (n : Nat) : SsiShows s (s.follow c d n) c (s.ch c).ssi := by
  have still : SsiShows s s c (s.ch c).ssi := .of_fb rfl
  have reports (rep d : Int) (k : Nat) := s.reportEdge_shows c rep d n k
  exact .ite (.ite still (reports _ _ _)) (.ite (reports _ _ _) (.ite (reports _ _ _) still))

/-- R116: in NORMAL the reported count is the raw count after each of its changes. -/
theorem State.follow_normal (d : Int) (n : Nat) (normal : (s.ch c).mode = .normal) : ((s.follow c d n).ch c).rep = (s.ch c).raw := by
  unfold State.follow
  dsimp only
  rw [if_pos normal]
  split
  · next same => exact same.symm
  · exact (s.reportEdge_reports c _ _ _ _).rep

/-- R114: a channel fault puts the channel into RECOVERY and leaves its count. -/
theorem State.channelFault_shows (cause : BitVec 4) :
    SsiShows s (s.channelFault c cause) c { (s.ch c).ssi with mode := .recovery } := by
  unfold State.channelFault
  dsimp only
  generalize recovered : State.modCh s c _ = s1
  have recovers : SsiShows s s1 c { (s.ch c).ssi with mode := .recovery } := by
    rw [← recovered]
    exact s.modCh_shows c rfl
  have marks := (recovers.keeping (s1.fbSet_shows c 2)).keeping (State.fbSet_shows _ c (faultSticky cause))
  generalize recorded : State.emit _ 10 _ _ = s2
  have records : SsiShows s s2 c { (s.ch c).ssi with mode := .recovery } := by
    rw [← recorded]
    exact marks.keeping (.of_fb (congrArg Feedback.ch (State.emit_motion _ _ _ _).fb))
  exact .ite (records.keeping (.of_fb (congrArg Feedback.ch (s2.faultAxis_motion _).fb))) records

end

end Sys2Proof.Machine
end

section
/-! SUPPORT. The words of SSI channels: how one is judged, and what a good and a bad one do (R111 to R114, R117). -/
namespace Sys2Proof.Machine

/-- The value of a word (R111). -/
def FbCh.wordValue (h : FbCh) (pos : Nat) : Nat := if h.gray then grayDecode pos h.bits.toNat 0 0 else pos

/-- The step of a word of value `w`: none at half of the range (R113). The first word makes no step. -/
def FbCh.wordStep (h : FbCh) (w : Nat) : Option Int :=
  match h.wPrev with
  | some prev => ssiStep h.bits.toNat w prev
  | none => some 0

/-- The parity does not match (R112). -/
def FbCh.parityFails (h : FbCh) (pos : Nat) (par : Bool) : Bool :=
  (decide (h.parity = 1#2) && decide ((parityBit pos h.bits.toNat + par.toNat) % 2 ≠ 0)) ||
  (decide (h.parity = 2#2) && decide ((parityBit pos h.bits.toNat + par.toNat) % 2 ≠ 1))

/-- The step is larger than JUMP_MAX (R112). -/
def FbCh.jumps (h : FbCh) (step : Option Int) : Bool :=
  decide (h.jumpMax ≠ 0#16) && (match step with
    | some d => decide (h.jumpMax.toNat < d.natAbs)
    | none => decide (h.jumpMax.toNat < 2 ^ (h.bits.toNat - 1)))

/-- A transfer has ended: the one that waits starts, and a word that ends after its pick counts as late (R113). -/
def State.transferEnded (s : State) (c : Fin 96) (pick : BitVec 32) : State :=
  let s1 := s.modCh c fun h => { h with
    ssiStart := if h.ssiAgain then some (s.now, s.tb.pickNum + 1#32) else none, ssiAgain := false }
  let s2 := if (s.ch c).ssiAgain then { s1 with out := .ssi c.val :: s1.out } else s1
  if !newer pick s.tb.pickNum then (s2.modCh c fun h => { h with errLate := satInc h.errLate }).fbSet c 6 else s2

section
variable {s : State} {c : Fin 96} (single : (s.ch c).ssiAgain = false)
include single

theorem State.transferEnded_single (pick : BitVec 32) : s.transferEnded c pick =
    let u := s.modCh c fun h => { h with ssiStart := none, ssiAgain := false }
    if !newer pick s.tb.pickNum then (u.modCh c fun h => { h with errLate := satInc h.errLate }).fbSet c 6 else u := by
  have ends : (s.modCh c fun h => { h with
      ssiStart := if h.ssiAgain then some (s.now, s.tb.pickNum + 1#32) else none, ssiAgain := false }) =
      s.modCh c fun h => { h with ssiStart := none, ssiAgain := false } :=
    congrArg (fun ch => { s with fb.ch := ch }) (upd_congr (by rw [show s.fb.ch[c].ssiAgain = false from single]; rfl))
  unfold State.transferEnded
  dsimp only
  rw [ends, single, if_neg Bool.false_ne_true]

theorem State.transferEnded_shows (pick : BitVec 32) :
    SsiShows s (s.transferEnded c pick) c { (s.ch c).ssi with start := none } := by
  rw [State.transferEnded_single single]
  have ends : SsiShows s (s.modCh c fun h => { h with ssiStart := none, ssiAgain := false }) c { (s.ch c).ssi with start := none } :=
    s.modCh_shows c rfl
  exact .ite ((ends.keeping (State.modCh_shows _ c rfl)).keeping (State.fbSet_shows _ c 6)) ends

theorem State.transferEnded_fbKeeps (pick : BitVec 32) : FbKeeps s (s.transferEnded c pick) c := by
  rw [State.transferEnded_single single]
  have ends : FbKeeps s (s.modCh c fun h => { h with ssiStart := none, ssiAgain := false }) c := s.modCh_fbKeeps c rfl rfl
  exact .ite (ends.trans ((State.modCh_fbKeeps _ c rfl rfl).trans (State.fbSet_fbKeeps _ c 6))) ends

end

/-- R112, R114: a bad word is counted, and the third in a row puts the channel into RECOVERY. -/
theorem State.ssiBad_shows (s : State) (c : Fin 96) :
    let p := (s.ch c).ssi
    SsiShows s (s.ssiBad c) c { p with
      run := p.run + 1, errBad := satInc p.errBad
      cond := if p.run = 2 then true else p.cond, mode := if p.run = 2 then .recovery else p.mode } := by
  unfold State.ssiBad
  dsimp only
  generalize counted : State.fbSet _ c 5 = u
  have counts : SsiShows s u c { (s.ch c).ssi with run := (s.ch c).ssi.run + 1, errBad := satInc (s.ch c).ssi.errBad } := by
    rw [← counted]
    exact (s.modCh_shows c rfl).keeping (State.fbSet_shows _ c 5)
  split
  · next third =>
    have third : (s.ch c).ssi.run = 2 := Nat.succ.inj third
    have marks : SsiShows s (u.modCh c fun h => { h with ssiCond := true }) c { (u.ch c).ssi with cond := true } :=
      counts.then (u.modCh_shows c rfl)
    have faults := marks.then (State.channelFault_shows _ c 2#4)
    rw [marks.part, counts.part] at faults
    simpa only [if_pos third] using faults
  · next other =>
    have other : (s.ch c).ssi.run ≠ 2 := fun two => other (congrArg Nat.succ two)
    simpa only [if_neg other] using counts

section
variable {s : State} {c : Fin 96} (clear : (s.ch c).ssiCond = false) (w n rtd : Nat)
include clear

/-- R113: the first good word sets both counts. -/
theorem State.ssiGood_first (first : (s.ch c).wPrev = none) :
    SsiShows s (s.ssiGood c w n rtd) c { (s.ch c).ssi with raw := w, wPrev := some w, run := 0 } ∧
      ((s.ssiGood c w n rtd).ch c).rep = w := by
  unfold State.ssiGood
  dsimp only
  rw [clear, if_neg Bool.false_ne_true, first]
  dsimp only
  refine ⟨?_, (State.reportEdge_reports _ c _ _ _ _).rep⟩
  generalize taken : State.modCh s c _ = s1
  have takes : SsiShows s s1 c { (s.ch c).ssi with wPrev := some w, run := 0 } := by
    rw [← taken]
    exact s.modCh_shows c rfl
  generalize counted : State.modCh s1 c _ = s2
  have counts : SsiShows s s2 c { (s.ch c).ssi with raw := w, wPrev := some w, run := 0 } := by
    rw [← counted]
    exact takes.then (s1.modCh_shows c (congrArg (fun p : SsiPart => { p with raw := (w : Int) }) takes.part))
  exact (counts.keeping (State.trace_shows _ c _ _ _)).keeping (State.reportEdge_shows _ c _ _ _ _)

/-- R113, R117: a later good word moves the raw count by its step, and in NORMAL the reported count with it. -/
theorem State.ssiGood_later {prev : Nat} {d : Int} (later : (s.ch c).wPrev = some prev)
    (step : ssiStep (s.ch c).bits.toNat w prev = some d) (range : ((s.ch c).raw + d).natAbs ≤ 140737488355327) :
    SsiShows s (s.ssiGood c w n rtd) c { (s.ch c).ssi with raw := (s.ch c).ssi.raw + d, wPrev := some w, run := 0 } ∧
      ((s.ch c).mode = .normal → (s.ch c).rep = (s.ch c).raw → ((s.ssiGood c w n rtd).ch c).rep = (s.ch c).raw + d) := by
  have inside : ¬(posMax < (s.ch c).raw + d ∨ (s.ch c).raw + d < -posMax) := by
    unfold posMax
    omega
  unfold State.ssiGood
  dsimp only
  rw [clear, if_neg Bool.false_ne_true, later]
  dsimp only
  rw [step]
  dsimp only
  rw [if_neg inside]
  generalize taken : State.modCh s c _ = s1
  have takes : SsiShows s s1 c { (s.ch c).ssi with wPrev := some w, run := 0 } ∧ FbKeeps s s1 c := by
    rw [← taken]
    exact ⟨s.modCh_shows c rfl, s.modCh_fbKeeps c rfl rfl⟩
  generalize counted : State.modCh s1 c _ = s2
  have counts : SsiShows s s2 c { (s.ch c).ssi with raw := (s.ch c).ssi.raw + d, wPrev := some w, run := 0 } ∧ FbKeeps s s2 c := by
    rw [← counted]
    refine ⟨takes.1.then (s1.modCh_shows c ?_), takes.2.trans (s1.modCh_fbKeeps c ?_ ?_)⟩
    · refine Eq.trans ?_ (congrArg (fun p : SsiPart => { p with raw := p.raw + d }) takes.1.part)
      split
      · next still => simp [still]
      · rfl
    · split <;> rfl
    · split <;> rfl
  generalize traced : State.trace s2 c 3#2 _ n = s3
  have traces : SsiShows s s3 c { (s.ch c).ssi with raw := (s.ch c).ssi.raw + d, wPrev := some w, run := 0 } ∧ FbKeeps s s3 c := by
    rw [← traced]
    exact ⟨counts.1.keeping (s2.trace_shows c _ _ _), counts.2.trans (s2.trace_fbKeeps c _ _ _)⟩
  split
  · next still => exact ⟨traces.1, fun _ same => by rw [traces.2.rep, same, still, add_zero]⟩
  · refine ⟨traces.1.keeping (s3.follow_shows c d n), fun normal _ => ?_⟩
    rw [s3.follow_normal c d n (traces.2.mode.trans normal)]
    exact congrArg SsiPart.raw traces.1.part

end

section
variable {s : State} {c : Fin 96} {t0 : Nat} {pick : BitVec 32} (pd9 : s.domain 9 = .run) (ssi : (s.ch c).inmode = 5#3)
  (started : (s.ch c).ssiStart = some (t0, pick))
include pd9 ssi started

/-- R111 to R113: the word that ends a transfer is bad, makes a step of half the range, or is good. -/
theorem ssiWord_ends (raw : BitVec 40) (par startLow : Bool) (rtd : Option (BitVec 16)) :
    let pos := raw.toNat % 2 ^ (s.ch c).bits.toNat
    let w := (s.ch c).wordValue pos
    let delay := (rtd.map fun r => r.toNat).getD 0
    exec (.ssiWord c raw par startLow rtd) s =
      if startLow || rtd.isNone || decide (2000 < delay) || (s.ch c).parityFails pos par || (s.ch c).jumps ((s.ch c).wordStep w) then
        .next ((s.transferEnded c pick).ssiBad c)
      else if ((s.ch c).wordStep w).isNone then .next ((s.transferEnded c pick).channelFault c 3#4)
      else .next ((s.transferEnded c pick).ssiGood c w (t0 + delay / 2) delay) := by
  have runs : (decide (s.domain 9 = .run) && decide ((s.ch c).inmode = 5#3)) = true := by simp [pd9, ssi]
  change execSsiWord c raw par startLow rtd s = _
  unfold execSsiWord
  dsimp only
  rw [started]
  dsimp only
  rw [if_pos runs]
  rfl

/-- R112: a word without a start bit, without an answer or with too long a delay is bad. -/
theorem ssiWord_bad (raw : BitVec 40) (par : Bool) {startLow : Bool} {rtd : Option (BitVec 16)}
    (bad : startLow = true ∨ rtd = none ∨ ∃ r, rtd = some r ∧ 2000 < r.toNat) :
    exec (.ssiWord c raw par startLow rtd) s = .next ((s.transferEnded c pick).ssiBad c) := by
  refine (ssiWord_ends pd9 ssi started raw par startLow rtd).trans (if_pos ?_)
  rcases bad with rfl | rfl | ⟨r, rfl, late⟩
  · simp
  · simp
  · simp [late]

section
variable {raw : BitVec 40} {par : Bool} {r : BitVec 16} {w : Nat} (answer : r.toNat ≤ 2000)
  (value : (s.ch c).wordValue (raw.toNat % 2 ^ (s.ch c).bits.toNat) = w)
  (parity : (s.ch c).parityFails (raw.toNat % 2 ^ (s.ch c).bits.toNat) par = false)
  (jump : (s.ch c).jumps ((s.ch c).wordStep w) = false)
include answer value parity jump

theorem ssiWord_good (step : (s.ch c).wordStep w ≠ none) :
    exec (.ssiWord c raw par false (some r)) s = .next ((s.transferEnded c pick).ssiGood c w (t0 + r.toNat / 2) r.toNat) := by
  have := ssiWord_ends pd9 ssi started raw par false (some r)
  simpa [value, parity, jump, not_lt.mpr answer, step] using this

theorem ssiWord_half (step : (s.ch c).wordStep w = none) :
    exec (.ssiWord c raw par false (some r)) s = .next ((s.transferEnded c pick).channelFault c 3#4) := by
  have := ssiWord_ends pd9 ssi started raw par false (some r)
  rw [step] at jump
  simpa [value, parity, jump, not_lt.mpr answer, step] using this

end

end

theorem FbCh.wordValue_eq {h : FbCh} {pos w : Nat} (fits : w < 2 ^ h.bits.toNat) (code : (if h.gray then w ^^^ (w / 2) else w) = pos) :
    h.wordValue pos = w := by
  subst code
  unfold FbCh.wordValue
  split
  · exact grayDecode_word fits
  · rfl

theorem FbCh.parityFails_false {h : FbCh} {pos : Nat} {par : Bool}
    (even : h.parity = 1#2 → (parityBit pos h.bits.toNat + par.toNat) % 2 = 0)
    (odd : h.parity = 2#2 → (parityBit pos h.bits.toNat + par.toNat) % 2 = 1) : h.parityFails pos par = false := by
  rw [FbCh.parityFails, Bool.or_eq_false_iff]
  exact ⟨by simpa using even, by simpa using odd⟩

/-- A step of at most JUMP_MAX, where half of the range counts as the step that it is (R112). -/
theorem FbCh.jumps_false {h : FbCh} {step : Option Int} {d : Int} (is : step = some d ∨ step = none ∧ d = -2 ^ (h.bits.toNat - 1))
    (small : h.jumpMax ≠ 0#16 → d.natAbs ≤ h.jumpMax.toNat) : h.jumps step = false := by
  rcases is with rfl | ⟨rfl, rfl⟩
  · simpa [FbCh.jumps] using small
  · simpa [FbCh.jumps, Int.natAbs_pow] using small

/-! ### The words that end a transfer -/

section
variable {s : State} {c : Fin 96} {t0 : Nat} {pick : BitVec 32} (pd9 : s.domain 9 = .run) (ssi : (s.ch c).inmode = 5#3)
  (started : (s.ch c).ssiStart = some (t0, pick)) (single : (s.ch c).ssiAgain = false)
include pd9 ssi started single

theorem ssiWord_discards (raw : BitVec 40) (par : Bool) {startLow : Bool} {rtd : Option (BitVec 16)}
    (bad : startLow = true ∨ rtd = none ∨ ∃ r, rtd = some r ∧ 2000 < r.toNat) :
    let p := (s.ch c).ssi
    ∃ t, exec (.ssiWord c raw par startLow rtd) s = .next t ∧ SsiShows s t c { p with
      start := none, run := p.run + 1, errBad := satInc p.errBad
      cond := if p.run = 2 then true else p.cond, mode := if p.run = 2 then .recovery else p.mode } := by
  have ended := State.transferEnded_shows single pick
  have shows := ended.then (State.ssiBad_shows _ c)
  rw [ended.part] at shows
  exact ⟨_, ssiWord_bad pd9 ssi started raw par bad, shows⟩

variable {raw : BitVec 40} {par : Bool} {r : BitVec 16} {w : Nat} (answer : r.toNat ≤ 2000)
  (value : (s.ch c).wordValue (raw.toNat % 2 ^ (s.ch c).bits.toNat) = w)
  (parity : (s.ch c).parityFails (raw.toNat % 2 ^ (s.ch c).bits.toNat) par = false)
include answer value parity

/-- R113: the first good word. -/
theorem ssiWord_first (clear : (s.ch c).ssiCond = false) (first : (s.ch c).wPrev = none) :
    ∃ t, exec (.ssiWord c raw par false (some r)) s = .next t ∧
      SsiShows s t c { (s.ch c).ssi with start := none, raw := w, wPrev := some w, run := 0 } ∧ (t.ch c).rep = w := by
  have step : (s.ch c).wordStep w = some 0 := by simp [FbCh.wordStep, first]
  have ended := State.transferEnded_shows single pick
  obtain ⟨shows, rep⟩ := State.ssiGood_first ((congrArg SsiPart.cond ended.part).trans clear) w (t0 + r.toNat / 2) r.toNat
    ((congrArg SsiPart.wPrev ended.part).trans first)
  have shows := ended.then shows
  rw [ended.part] at shows
  exact ⟨_, ssiWord_good pd9 ssi started answer value parity (FbCh.jumps_false (.inl step) (by simp)) (by simp [step]), shows, rep⟩

section
variable {prev : Nat} {d : Int} (later : (s.ch c).wPrev = some prev)
  (small : (s.ch c).jumpMax ≠ 0#16 → d.natAbs ≤ (s.ch c).jumpMax.toNat)
include later small

/-- R113: a later good word. -/
theorem ssiWord_later (clear : (s.ch c).ssiCond = false) (step : ssiStep (s.ch c).bits.toNat w prev = some d)
    (range : ((s.ch c).raw + d).natAbs ≤ 140737488355327) :
    ∃ t, exec (.ssiWord c raw par false (some r)) s = .next t ∧
      SsiShows s t c { (s.ch c).ssi with start := none, raw := (s.ch c).raw + d, wPrev := some w, run := 0 } ∧
      ((s.ch c).mode = .normal → (s.ch c).rep = (s.ch c).raw → (t.ch c).rep = (s.ch c).raw + d) := by
  have moves : (s.ch c).wordStep w = some d := by rw [FbCh.wordStep, later, ← step]
  have ended := State.transferEnded_shows single pick
  obtain ⟨-, mode, rep⟩ := State.transferEnded_fbKeeps single pick
  have raws : ((s.transferEnded c pick).ch c).raw = (s.ch c).raw := congrArg SsiPart.raw ended.part
  have bits : ((s.transferEnded c pick).ch c).bits = (s.ch c).bits := congrArg SsiPart.bits ended.part
  obtain ⟨shows, follows⟩ := State.ssiGood_later ((congrArg SsiPart.cond ended.part).trans clear) w (t0 + r.toNat / 2) r.toNat
    ((congrArg SsiPart.wPrev ended.part).trans later) (by rwa [bits]) (by rwa [raws])
  have shows := ended.then shows
  rw [ended.part] at shows
  rw [mode, rep, raws] at follows
  exact ⟨_, ssiWord_good pd9 ssi started answer value parity (FbCh.jumps_false (.inl moves) small) (by simp [moves]), shows, follows⟩

/-- R113: a step of exactly half of the range. -/
theorem ssiWord_faults (step : ssiStep (s.ch c).bits.toNat w prev = none) (half : d = -2 ^ ((s.ch c).bits.toNat - 1)) :
    ∃ t, exec (.ssiWord c raw par false (some r)) s = .next t ∧
      SsiShows s t c { (s.ch c).ssi with start := none, mode := .recovery } := by
  have none : (s.ch c).wordStep w = none := by rw [FbCh.wordStep, later, ← step]
  have ended := State.transferEnded_shows single pick
  have shows := ended.then (State.channelFault_shows _ c 3#4)
  rw [ended.part] at shows
  exact ⟨_, ssiWord_half pd9 ssi started answer value parity (FbCh.jumps_false (.inr ⟨none, half⟩) small) none, shows⟩

end

end

end Sys2Proof.Machine
end

section
/-! SUPPORT. The start of a transfer, the end of a trigger pulse (R111, R113, R126, R363), and O34. -/
namespace Sys2Proof.Machine

section
variable {s : State} {c : Fin 96} (pd9 : s.domain 9 = .run) (ssi : (s.ch c).inmode = 5#3) (runs : s.tb.running = true)
include pd9 ssi runs

theorem ssiTransferStart_acts : exec (.ssiTransferStart c) s =
    if (s.ch c).ssiStart.isSome then .next { s with fb.ch := upd s.fb.ch c fun q => { q with ssiAgain := true } }
    else .next { s with
      fb.ch := upd s.fb.ch c fun q => { q with ssiStart := some (s.now, s.tb.pickNum + 1#32) }, out := .ssi c.val :: s.out } :=
  if_pos (by simp [pd9, ssi, runs])

end

/-- R35: cell time moves forward only. -/
theorem State.reach_eq (s : State) (e : Nat) : s.reach e = { s with tb.timeFix := max s.tb.timeFix (e * 2 ^ 32) } := by
  unfold State.reach
  rw [show nsUnit = 2 ^ 32 from rfl]
  split
  · next ahead => rw [max_eq_right ahead.le]
  · next behind => rw [max_eq_left (Nat.not_lt.mp behind)]

theorem State.driveTrig_inactive (s : State) (t : Fin 8) : s.driveTrig t false =
    { s with out := if s.pr.role = .active ∨ s.pr.role = .alone then .trig t.val (s.fb.trig[t]).pol :: s.out else s.out } := by
  unfold State.driveTrig State.lease
  simp only [Bool.or_eq_true, decide_eq_true_eq, Bool.false_bne]
  split <;> rfl

/-- R126, R363: the pulses that have ended at the end of the first, and the level where none is left. -/
theorem trigPulseEnd_acts {t : Fin 8} {s : State} {e : Nat} (pulse : e ∈ (s.fb.trig[t]).pulses)
    (first : ∀ x ∈ (s.fb.trig[t]).pulses, e ≤ x) :
    let u : State := { s with tb.timeFix := max s.tb.timeFix (e * 2 ^ 32) }
    let left := (s.fb.trig[t]).pulses.filter fun x => decide (u.now < x)
    exec (.trigPulseEnd t) s = .next { u with
      fb.trig := upd s.fb.trig t fun g => { g with pulses := left }
      out := if left = [] ∧ (s.pr.role = .active ∨ s.pr.role = .alone) then .trig t.val (s.fb.trig[t]).pol :: s.out else s.out } := by
  have least : (s.fb.trig[t]).pulses.min? = some e := List.min?_eq_some_iff.mpr ⟨pulse, first⟩
  change execTrigPulseEnd t s = _
  unfold execTrigPulseEnd
  dsimp only
  rw [least]
  dsimp only
  rw [State.reach_eq]
  generalize List.filter _ (s.fb.trig[t]).pulses = left
  cases left with
  | nil =>
    rw [if_pos List.isEmpty_nil, State.driveTrig_inactive]
    simp
  | cons x left => simp

/-- Settles O34: the start of a transfer, a good word by its step, a bad word, and the end of a pulse. -/
theorem serialWordsCount : Obligations.SerialWordsCount := by
  refine ⟨fun c raw par startLow rtd s pd9 => ?_,
    fun t s e pulse first => ⟨_, trigPulseEnd_acts pulse first, rfl, rfl, rfl, by simp⟩⟩
  intro h ssi
  refine ⟨fun runs idle => (ssiTransferStart_acts pd9 ssi runs).trans (if_neg (by simp [idle, h])),
    fun runs busy => (ssiTransferStart_acts pd9 ssi runs).trans (if_pos (Option.isSome_iff_ne_none.mpr busy)), ?_⟩
  intro t0 pick started single low high n pos word
  have wide : 0 < n := Nat.lt_of_lt_of_le (by decide) low
  constructor
  · rintro w r rfl rfl answer clear fits code even odd
    have value : h.wordValue pos = w := FbCh.wordValue_eq fits code
    have parity : h.parityFails pos par = false := FbCh.parityFails_false even odd
    refine ⟨fun first => ?_, fun prev d later last congr least most small => ⟨fun above range => ?_, fun half => ?_⟩⟩
    · obtain ⟨t, ran, shows, rep⟩ := ssiWord_first pd9 ssi started single answer value parity clear first
      exact ⟨t, ran, congrArg SsiPart.raw shows.part, rep, congrArg SsiPart.wPrev shows.part, congrArg SsiPart.start shows.part,
        shows.others⟩
    · obtain ⟨t, ran, shows, rep⟩ := ssiWord_later pd9 ssi started single answer value parity later small clear
        (ssiStep_some last congr wide above most) range
      exact ⟨t, ran, congrArg SsiPart.raw shows.part, rep, congrArg SsiPart.wPrev shows.part, congrArg SsiPart.run shows.part,
        congrArg SsiPart.start shows.part, shows.others⟩
    · obtain ⟨t, ran, shows⟩ := ssiWord_faults pd9 ssi started single answer value parity later small
        (ssiStep_half last congr wide half) half
      exact ⟨t, ran, congrArg SsiPart.mode shows.part, congrArg SsiPart.raw shows.part⟩
  · intro bad
    obtain ⟨t, ran, shows, -⟩ := ssiWord_discards pd9 ssi started single raw par bad
    refine ⟨t, ran, congrArg SsiPart.raw shows, congrArg SsiPart.wPrev shows, congrArg SsiPart.run shows,
      congrArg SsiPart.errBad shows, congrArg SsiPart.start shows, fun third => ⟨?_, ?_⟩, fun other => ?_⟩
    · exact (congrArg SsiPart.mode shows).trans (if_pos third)
    · exact (congrArg SsiPart.cond shows).trans (if_pos third)
    · exact (congrArg SsiPart.mode shows).trans (if_neg other)

end Sys2Proof.Machine
end

section
/-! SUPPORT. Reed's sensors: releases of slots (R232), counts and records of a frame that is not accepted (R230, R231, R246). -/
namespace Sys2Proof.Machine

/-! ### Sensors alone -/

/-- Only Reed's sensors have changed. -/
def SensorsOnly (s t : State) : Prop := { t with rd.sens := s.rd.sens } = s

theorem SensorsOnly.trans {s t u : State} (first : SensorsOnly s t) (second : SensorsOnly t u) : SensorsOnly s u :=
  have step : ({ u with rd.sens := s.rd.sens } : State) = { t with rd.sens := s.rd.sens } :=
    congrArg (fun v : State => { v with rd.sens := s.rd.sens }) second
  step.trans first

theorem SensorsOnly.forEach {α : Type} {l : List α} {g : State → α → State} (each : ∀ t x, SensorsOnly t (g t x)) (s : State) :
    SensorsOnly s (s.forEach l g) :=
  forEach_induct (SensorsOnly s) l g (fun t x _ only => only.trans (each t x)) s rfl

theorem SensorsOnly.eq {s t : State} (only : SensorsOnly s t) : t = { s with rd.sens := t.rd.sens } :=
  congrArg (fun v : State => { v with rd.sens := t.rd.sens }) only

theorem SensorsOnly.outside {s t : State} (only : SensorsOnly s t) : { t with rd := s.rd } = s := by
  rw [only.eq]

theorem State.modSens_sensorsOnly (s : State) (i : Fin 8) (g : ReedSensor → ReedSensor) : SensorsOnly s (s.modSens i g) := rfl

/-- The accepted frames of sensor `i` whose slots are to be released (R232). -/
def ReedSensor.outdated (t : ReedSensor) (r : Reed) (i : Fin 8) : List (Fin 3) :=
  t.order.filter fun j => decide (some j ≠ t.order.getLast?) && (t.order.getLast?.elim false fun j => (t.slot[j]).used) && !frameInUse r i j

/-- The sensor with the slots of a list released. -/
def ReedSensor.without (t : ReedSensor) (gone : List (Fin 3)) : ReedSensor :=
  { t with order := t.order.filter fun j => !gone.contains j, slot := Vector.ofFn fun j => if j ∈ gone then {} else t.slot[j] }

theorem State.reedRelease_eq (s : State) : s.reedRelease =
    s.forEach (fins 8) fun u i => u.modSens i fun t => t.without ((u.rd.sens[i]).outdated u.rd i) := rfl

theorem State.reedRelease_sensorsOnly (s : State) : SensorsOnly s s.reedRelease :=
  .forEach (fun u i => u.modSens_sensorsOnly i _) s

theorem ReedSensor.without_nil (t : ReedSensor) : t.without [] = t := by
  have order : (t.order.filter fun _ => true) = t.order := List.filter_eq_self.mpr fun _ _ => rfl
  have slot : (Vector.ofFn fun j : Fin 3 => t.slot[j]) = t.slot := Vector.ext fun j below => Vector.getElem_ofFn below
  simp only [ReedSensor.without, List.contains_nil, Bool.not_false, List.not_mem_nil, if_false, order, slot]

/-- While no cycle has used the newest frame of a sensor, none of its slots is released (R232). -/
theorem ReedSensor.outdated_unused {t : ReedSensor} {j : Fin 3} (newest : t.order.getLast? = some j) (unused : (t.slot[j]).used = false)
    (r : Reed) (i : Fin 8) : t.outdated r i = [] := by
  rw [ReedSensor.outdated, newest, Option.elim_some, unused]
  simp

theorem State.reedRelease_unused {s : State} {i : Fin 8} {j : Fin 3} (newest : (s.rd.sens[i]).order.getLast? = some j)
    (unused : ((s.rd.sens[i]).slot[j]).used = false) : s.reedRelease.rd.sens[i] = s.rd.sens[i] := by
  rw [State.reedRelease_eq]
  refine forEach_induct (fun u => u.rd.sens[i] = s.rd.sens[i]) _ _ (fun u k _ same => ?_) s rfl
  by_cases here : k = i
  · subst here
    have kept : (u.rd.sens[k]).outdated u.rd k = [] := by
      rw [same]
      exact ReedSensor.outdated_unused newest unused _ _
    exact (upd_get_same _ _ _).trans ((congrArg _ kept).trans ((ReedSensor.without_nil _).trans same))
  · exact (upd_get_ne _ _ _ _ _ (Fin.val_ne_of_ne here)).trans same

/-! ### A sensor and a record -/

/-- Sensor `i` has changed by `g`, no other sensor has; outside Reed, only the recorder and what interrupts put out have changed. -/
structure SensorRecords (i : Fin 8) (g : ReedSensor → ReedSensor) (s t : State) : Prop where
  sensors : t.rd.sens = upd s.rd.sens i g
  rest : { t with rd := s.rd, er := s.er, hi := s.hi, out := s.out } = s

section
variable {i : Fin 8} {f g : ReedSensor → ReedSensor} {s t u : State}

theorem SensorRecords.trans (first : SensorRecords i f s t) (second : SensorRecords i g t u) :
    SensorRecords i (fun q => g (f q)) s u where
  sensors := by rw [second.sensors, first.sensors, upd_upd]
  rest := (congrArg (fun v : State => { v with rd := s.rd, er := s.er, hi := s.hi, out := s.out }) second.rest).trans first.rest

/-- A step that leaves every sensor as it was changes sensor `i` by nothing. -/
theorem SensorRecords.of_sensors (same : t.rd.sens = s.rd.sens)
    (rest : { t with rd := s.rd, er := s.er, hi := s.hi, out := s.out } = s) : SensorRecords i id s t where
  sensors := same.trans (Vector.set_getElem_self _).symm
  rest := rest

theorem SensorRecords.sensor (shows : SensorRecords i g s t) : t.rd.sens[i] = g s.rd.sens[i] := by
  rw [shows.sensors]
  exact upd_get_same _ _ _

theorem SensorRecords.other (shows : SensorRecords i g s t) {k : Fin 8} (ne : k ≠ i) : t.rd.sens[k] = s.rd.sens[k] := by
  rw [shows.sensors]
  exact upd_get_ne _ _ _ _ _ (Fin.val_ne_of_ne ne.symm)

end

theorem State.modSens_records (s : State) (i : Fin 8) (g : ReedSensor → ReedSensor) : SensorRecords i g s (s.modSens i g) := ⟨rfl, rfl⟩

theorem State.rdSet_records (s : State) (i : Fin 8) (n : Nat) : SensorRecords i id s (s.rdSet n) := .of_sensors rfl rfl

theorem State.emit_records (s : State) (i : Fin 8) (src : Nat) (code : BitVec 12) (p : List (BitVec 32)) :
    SensorRecords i id s (s.emit src code p) := by
  obtain ⟨er, pba, out, emits⟩ := s.emit_frame src code p
  rw [emits]
  exact .of_sensors rfl rfl

/-- A rejection counted under its cause: 1 LENGTH, 2 TIME, 3 MASK_RANGE, any other FORMAT (R230). -/
def ReedSensor.countReject (t : ReedSensor) (cause : Nat) : ReedSensor :=
  if cause = 1 then { t with rejLen := satInc t.rejLen } else if cause = 2 then { t with rejTime := satInc t.rejTime }
  else if cause = 3 then { t with rejMask := satInc t.rejMask } else { t with rejFmt := satInc t.rejFmt }

theorem ReedSensor.countReject_keeps (t : ReedSensor) (cause : Nat) : (t.countReject cause).acc = t.acc ∧
    (t.countReject cause).order = t.order := by
  unfold ReedSensor.countReject
  split_ifs <;> exact ⟨rfl, rfl⟩

/-- The sensor with slot `j` free again. -/
def ReedSensor.freed (t : ReedSensor) (j : Fin 3) : ReedSensor := { t with slot := upd t.slot j fun _ => {} }

theorem ReedSensor.freed_slot (t : ReedSensor) (j : Fin 3) : (t.freed j).slot[j] = {} := upd_get_same _ _ _

theorem State.rejectFrame_eq (s : State) (i : Fin 8) (cause : Nat) (chB : Bool) (cap : BitVec 32) :
    s.rejectFrame i cause chB cap =
      let counted := (s.modSens i (·.countReject cause)).rdSet 0
      (if cause = 3 then counted.rdSet 2 else counted).emit 9 0x001#12 [nat32 i.val 0 ||| nat32 cause 8 ||| bitAt chB 12, cap] := rfl

theorem State.rejectFrame_records (s : State) (i : Fin 8) (cause : Nat) (chB : Bool) (cap : BitVec 32) :
    SensorRecords i (·.countReject cause) s (s.rejectFrame i cause chB cap) := by
  have counted := (s.modSens_records i (·.countReject cause)).trans (State.rdSet_records _ i 0)
  rw [State.rejectFrame_eq]
  dsimp only
  split
  · exact (counted.trans (State.rdSet_records _ i 2)).trans (State.emit_records _ i _ _ _)
  · exact counted.trans (State.emit_records _ i _ _ _)

end Sys2Proof.Machine
end

section
/-! SUPPORT. A checked frame is accepted, rejected or discarded (R230, R231). -/
namespace Sys2Proof.Machine

/-- The sensor with the frame in slot `j` accepted: counted, its capture time the last, and the newest (R230, R231). -/
def ReedSensor.accept (t : ReedSensor) (j : Fin 3) : ReedSensor :=
  { t with acc := satInc t.acc, last := BitVec.ofNat 64 (t.slot[j]).capture, order := t.order ++ [j]
           slot := upd t.slot j fun l => { l with accepted := true } }

section
variable {s : State} {i : Fin 8} {j : Fin 3} (runs : reedRuns s = true) (busy : ((s.rd.sens[i]).slot[j]).busy = true)
  (done : ((s.rd.sens[i]).slot[j]).done = true) (pending : ((s.rd.sens[i]).slot[j]).accepted = false)
include runs busy done pending

theorem frameCheckDone_guard :
    ¬(!(reedRuns s && ((s.rd.sens[i]).slot[j]).busy && ((s.rd.sens[i]).slot[j]).done && !((s.rd.sens[i]).slot[j]).accepted)) = true := by
  rw [runs, busy, done, pending]
  decide

theorem frameCheckDone_accepts (unused : ((s.rd.sens[i]).slot[j]).used = false) (passes : frameCause s i j = none) :
    ∃ t, exec (.frameCheckDone i j true true) s = .next t ∧ t.rd.sens[i] = (s.rd.sens[i]).accept j ∧ SensorsOnly s t := by
  have accepted : (s.modSens i (·.accept j)).rd.sens[i] = (s.rd.sens[i]).accept j := upd_get_same _ _ _
  refine ⟨(s.modSens i (·.accept j)).reedRelease,
    (if_neg (frameCheckDone_guard runs busy done pending)).trans (by rw [passes]; rfl), ?_,
    (s.modSens_sensorsOnly i _).trans (State.reedRelease_sensorsOnly _)⟩
  refine (State.reedRelease_unused (j := j) ?_ ?_).trans accepted
  · rw [accepted]
    exact List.getLast?_concat
  · rw [accepted]
    exact (congrArg ReedSlot.used (upd_get_same _ _ _)).trans unused

theorem frameCheckDone_rejects {c : Nat} (fails : frameCause s i j = some c) : ∃ t, exec (.frameCheckDone i j true true) s = .next t ∧
    SensorRecords i (fun q => ((q.countReject c).countReject c).freed j) s t :=
  ⟨_, (if_neg (frameCheckDone_guard runs busy done pending)).trans (by rw [fails]; rfl),
    ((s.rejectFrame_records i c false _).trans (State.rejectFrame_records _ i c true _)).trans (State.modSens_records _ i (·.freed j))⟩

theorem frameCheckDone_differs {okA okB : Bool} (differ : okA ≠ okB) (passes : frameCause s i j = none) :
    ∃ t, exec (.frameCheckDone i j okA okB) s = .next t ∧
      SensorRecords i (fun q => ReedSensor.freed { q with check := satInc q.check } j) s t := by
  obtain ⟨notBoth, one⟩ : (okA && okB) = false ∧ (okA || okB) = true := by
    revert okA okB
    decide
  refine ⟨_, (if_neg (frameCheckDone_guard runs busy done pending)).trans (by rw [passes, notBoth, one]; rfl), ?_⟩
  exact (((s.modSens_records i _).trans (State.rdSet_records _ i 4)).trans (State.emit_records _ i _ _ _)).trans
    (State.modSens_records _ i (·.freed j))

end

end Sys2Proof.Machine
end

section
/-! SUPPORT. A fusion cycle takes the newest accepted frames (R235). -/
namespace Sys2Proof.Machine

/-- The newest accepted frame of every enabled sensor. -/
def newestFrames (r : Reed) : List (Fin 8 × Fin 3) :=
  (enabledSensors r).filterMap fun i => (r.sens[i]).order.getLast?.map fun j => (i, j)

/-- The capture times of the newest frames. -/
def captureTimes (r : Reed) : List Nat := (newestFrames r).map fun q => ((r.sens[q.1]).slot[q.2]).capture

/-- The cycle that FUSION_CYCLE_START starts (R235). -/
def nextCycle (r : Reed) : ReedCycle :=
  let slots : List ReedSlot := (newestFrames r).map fun q => (r.sens[q.1]).slot[q.2]
  { cycle := r.cycle + 1#64, frames := newestFrames r
    stime := slots.foldl (fun m l => min m l.capture) ((slots.head?.map fun l => l.capture).getD 0)
    lastFrag := slots.foldl (fun m l => max m l.lastFrag) 0, buf := r.nextBuf }

theorem mem_newestFrames {r : Reed} {q : Fin 8 × Fin 3} (member : q ∈ newestFrames r) : (r.sens[q.1]).order.getLast? = some q.2 := by
  obtain ⟨i, -, found⟩ := List.mem_filterMap.mp member
  obtain ⟨j, last, rfl⟩ := Option.map_eq_some_iff.mp found
  exact last

theorem newestFrames_sensors {r : Reed} (all : ∀ i ∈ enabledSensors r, (r.sens[i]).order ≠ []) :
    (newestFrames r).map Prod.fst = enabledSensors r := by
  unfold newestFrames
  generalize enabledSensors r = l at all
  induction l with
  | nil => rfl
  | cons i l ih =>
    have here : (r.sens[i]).order.getLast? = some _ := List.getLast?_eq_getLast_of_ne_nil (all i List.mem_cons_self)
    rw [List.filterMap_cons, here, Option.map_some]
    exact congrArg (i :: ·) (ih fun k member => all k (List.mem_cons_of_mem _ member))

/-- The sample time of the cycle is the oldest capture time of its frames. -/
theorem nextCycle_stime {r : Reed} (found : newestFrames r ≠ []) : (captureTimes r).min? = some (nextCycle r).stime := by
  unfold captureTimes nextCycle
  dsimp only
  cases frames : newestFrames r with
  | nil => exact absurd frames found
  | cons q l =>
    simp only [List.map_cons, List.min?_cons', List.head?_cons, Option.map_some, Option.getD_some, List.foldl_cons, List.foldl_map,
      min_self]

theorem nextCycle_stime_le {r : Reed} {q : Fin 8 × Fin 3} (member : q ∈ newestFrames r) :
    (nextCycle r).stime ≤ ((r.sens[q.1]).slot[q.2]).capture :=
  (List.min?_eq_some_iff.mp (nextCycle_stime (List.ne_nil_of_mem member))).2 _ (List.mem_map_of_mem member)

theorem nextCycle_stime_attained {r : Reed} (found : newestFrames r ≠ []) :
    ∃ q ∈ newestFrames r, (nextCycle r).stime = ((r.sens[q.1]).slot[q.2]).capture := by
  obtain ⟨q, member, same⟩ := List.mem_map.mp (List.min?_eq_some_iff.mp (nextCycle_stime found)).1
  exact ⟨q, member, same.symm⟩

/-- Where a cycle may start, some sensor is enabled and every enabled sensor has an accepted frame. -/
theorem fusionReady_frames {s : State} (ready : fusionReady s = true) :
    enabledSensors s.rd ≠ [] ∧ ∀ i ∈ enabledSensors s.rd, (s.rd.sens[i]).order ≠ [] := by
  simp only [fusionReady, Bool.and_eq_true, List.all_eq_true, Bool.not_eq_true', List.isEmpty_eq_false_iff] at ready
  obtain ⟨⟨⟨-, enabled⟩, accepted⟩, -⟩ := ready
  exact ⟨enabled, accepted⟩

/-- The frames of a cycle marked as used. -/
def State.useFrames (s : State) (frames : List (Fin 8 × Fin 3)) : State :=
  s.forEach frames fun u q => u.modSens q.1 fun t => { t with slot := upd t.slot q.2 fun l => { l with used := true } }

/-- Cycle `c` started: its clocks on, and its buffer taken. -/
def State.startCycle (s : State) (c : ReedCycle) : State := { s with
  cr.clk := setBit (setBit s.cr.clk 24) 25
  rd := { s.rd with fusing := some c, cycle := c.cycle, waitFirst := false, nextBuf := !s.rd.nextBuf } }

theorem State.useFrames_sensorsOnly (s : State) (frames : List (Fin 8 × Fin 3)) : SensorsOnly s (s.useFrames frames) :=
  .forEach (fun u (q : Fin 8 × Fin 3) => u.modSens_sensorsOnly q.1 _) s

theorem SensorsOnly.startCycle {s t : State} (only : SensorsOnly s t) (c : ReedCycle) : SensorsOnly (s.startCycle c) (t.startCycle c) :=
  congrArg (State.startCycle · c) only

theorem fusionCycleStart_acts {s : State} (ready : fusionReady s = true) :
    ∃ t, exec .fusionCycleStart s = .next t ∧ SensorsOnly (s.startCycle (nextCycle s.rd)) t :=
  ⟨((s.useFrames (newestFrames s.rd)).startCycle (nextCycle s.rd)).reedRelease, if_pos ready,
    ((s.useFrames_sensorsOnly _).startCycle _).trans (State.reedRelease_sensorsOnly _)⟩

end Sys2Proof.Machine
end

section
/-! SUPPORT. The occupancy buffer of a fusion cycle (R237), and O40. -/
namespace Sys2Proof.Machine

theorem contribution_lt (r : Nat) : contribution r < 4 := by
  unfold contribution
  split_ifs <;> decide

theorem fuse_lt (s : State) (c : ReedCycle) (p : Nat × Nat × Nat) : fuse s c p < 4 :=
  foldl_keeps (· < 4) _ (fun _ _ low => Nat.max_lt.mpr ⟨low, contribution_lt _⟩) _ _ (by decide)

/-- The first `n` of a word's two-bit fields. -/
def packPairs (f : Nat → Nat) (n : Nat) : BitVec 32 := (List.range n).foldl (fun w k => w ||| nat32 (f k) (2 * k)) 0#32

theorem packPairs_succ (f : Nat → Nat) (n : Nat) : packPairs f (n + 1) = packPairs f n ||| nat32 (f n) (2 * n) := by
  rw [packPairs, List.range_succ, List.foldl_concat, packPairs]

/-- A state of two bits, placed at bit `2 * n`. -/
theorem getLsbD_nat32_pair {v : Nat} (small : v < 4) (n : Nat) {b : Nat} (inWord : b < 32) :
    (nat32 v (2 * n)).getLsbD b = (decide (b / 2 = n) && v.testBit (b % 2)) := by
  rw [nat32, BitVec.getLsbD_shiftLeft, BitVec.getLsbD_ofNat]
  rcases Nat.lt_trichotomy (b / 2) n with before | rfl | after
  · simp [before.ne, show b < 2 * n by omega]
  · simp [inWord, show b - 2 * (b / 2) = b % 2 by omega, show ¬b < 2 * (b / 2) by omega, show b % 2 < 32 by omega]
  · have high : v.testBit (b - 2 * n) = false :=
      Nat.testBit_lt_two_pow (Nat.lt_of_lt_of_le small (Nat.pow_le_pow_right Nat.two_pos (show 2 ≤ b - 2 * n by omega)))
    simp [after.ne', high]

theorem getLsbD_packPairs {f : Nat → Nat} (small : ∀ k, f k < 4) (n : Nat) {b : Nat} (inWord : b < 32) :
    (packPairs f n).getLsbD b = (decide (b / 2 < n) && (f (b / 2)).testBit (b % 2)) := by
  induction n with
  | zero => exact BitVec.getLsbD_zero
  | succ n ih =>
    rw [packPairs_succ, BitVec.getLsbD_or, ih, getLsbD_nat32_pair (small n) n inWord]
    by_cases here : b / 2 = n
    · subst here
      simp
    · simp only [here, decide_false, Bool.false_and, Bool.or_false]
      rw [decide_eq_decide.mpr (show b / 2 < n ↔ b / 2 < n + 1 by omega)]

/-- A field reads back as the state packed into it. -/
theorem extractLsb'_packPairs {f : Nat → Nat} (small : ∀ k, f k < 4) {n k : Nat} (below : k < n) (fits : n ≤ 16) :
    BitVec.extractLsb' (2 * k) 2 (packPairs f n) = BitVec.ofNat 2 (f k) := by
  refine BitVec.eq_of_getLsbD_eq fun b inField => ?_
  rw [BitVec.getLsbD_extractLsb', getLsbD_packPairs small n (by omega), BitVec.getLsbD_ofNat,
    show (2 * k + b) / 2 = k by omega, show (2 * k + b) % 2 = b by omega]
  simp [below]

theorem occupancy_length (s : State) (c : ReedCycle) : (occupancy s c).length = s.rd.grid.count / 16 := by
  rw [occupancy, List.length_map, List.length_range]

theorem occupancy_getD (s : State) (c : ReedCycle) {i : Nat} (inside : i < s.rd.grid.count / 16) :
    (occupancy s c).getD i 0#32 = packPairs (fun k => fuse s c (s.rd.grid.xyz (16 * i + k))) 16 := by
  rw [List.getD_eq_getElem _ _ (by rwa [occupancy_length])]
  simp [occupancy, packPairs]

theorem State.startB_chB_length (s : State) : s.startB.rd.chB.length = s.rd.chB.length := by
  rw [State.startB, State.modRd_rd]
  cases s.rd.chB <;> rfl

theorem fusionDone_acts {s : State} (runs : reedRuns s = true) {c : ReedCycle} (fusing : s.rd.fusing = some c) :
    ∃ w, exec .fusionDone s = .next (State.startB { s with
      mem := memWriteList s.mem (occBase c.buf) (wordsBytes (occupancy s c))
      rd := { s.rd with fusing := none, chA := s.rd.chA ++ [w], chB := s.rd.chB ++ [w] } }) := by
  refine ⟨{ cyc := { c with free := (List.range s.rd.grid.coarseCount).map fun b => coarseFree s c b } }, ?_⟩
  change execFusionDone s = _
  unfold execFusionDone
  rw [fusing]
  exact if_pos runs

/-- Settles O40: what becomes of a checked frame, the start of a fusion cycle, and its occupancy buffer. -/
theorem framesAndFusion : Obligations.FramesAndFusion := by
  refine fun s runs => ⟨fun i j => ?_, fun ready => ?_, fun c fusing canonical => ?_⟩
  · intro q l busy done pending
    refine ⟨fun unused passes => ?_, fun c fails => ?_, fun okA okB differ passes => ?_⟩
    · obtain ⟨t, ran, sensor, only⟩ := frameCheckDone_accepts runs busy done pending unused passes
      exact ⟨t, ran, sensor, only.outside⟩
    · obtain ⟨t, ran, shows⟩ := frameCheckDone_rejects runs busy done pending fails
      obtain ⟨acc, order⟩ := (s.rd.sens[i]).countReject_keeps c
      obtain ⟨acc', order'⟩ := ((s.rd.sens[i]).countReject c).countReject_keeps c
      refine ⟨t, ran, ?_⟩
      rw [shows.sensor]
      exact ⟨ReedSensor.freed_slot _ _, acc'.trans acc, order'.trans order, by rintro rfl; rfl, by rintro rfl; rfl, by rintro rfl; rfl,
        by rintro (rfl | rfl) <;> rfl, fun k ne => shows.other ne, shows.rest⟩
    · obtain ⟨t, ran, shows⟩ := frameCheckDone_differs runs busy done pending differ passes
      refine ⟨t, ran, ?_⟩
      rw [shows.sensor]
      exact ⟨ReedSensor.freed_slot _ _, rfl, rfl, fun k ne => shows.other ne, shows.rest⟩
  · obtain ⟨t, ran, only⟩ := fusionCycleStart_acts ready
    obtain ⟨enabled, accepted⟩ := fusionReady_frames ready
    have sensors := newestFrames_sensors accepted
    have frames : newestFrames s.rd ≠ [] := fun missing => enabled (by rw [← sensors, missing]; rfl)
    refine ⟨t, nextCycle s.rd, ran, ?_⟩
    rw [only.eq]
    exact ⟨rfl, rfl, rfl, rfl, rfl, sensors, fun q member => ⟨mem_newestFrames member, nextCycle_stime_le member⟩,
      nextCycle_stime_attained frames, rfl⟩
  · obtain ⟨w, ran⟩ := fusionDone_acts runs fusing
    refine ⟨_, ran, rfl, List.length_append, (State.startB_chB_length _).trans List.length_append, fun i inside k below => ?_,
      fun x outside => ?_, rfl⟩
    · have word := rd32_wordsBytes canonical (occBase c.buf) (occupancy s c) (i := i) (by rwa [occupancy_length])
      rw [occupancy_getD s c inside] at word
      exact (congrArg _ word).trans (extractLsb'_packPairs (fun _ => fuse_lt s c _) below (Nat.le_refl 16))
    · refine memRead_memWriteList_outside _ _ _ _ canonical ?_
      rw [wordsBytes_length, occupancy_length]
      exact outside

end Sys2Proof.Machine
end

section
/-! SUPPORT. The boot: an image that passes or fails, and the end of a boot without an image (R247, R419, R446 to R448). -/
namespace Sys2Proof.Machine

/-! ### The checks of an image (R446, R448) -/

/-- What the sections of an image that passes are: each fits its target, they lie apart, and both channels have one (R448). -/
structure FwSectionsFit (b : List Byte) : Prop where
  fits : ∀ t ∈ fwSections b, t.fits (fwLen b) = true
  apart : fwApart (fwSections b) = true
  channelA : ∃ t ∈ fwSections b, t.target = 0
  channelB : ∃ t ∈ fwSections b, t.target = 1

/-- An image that passes has its form, is signed with the programmed key, is not older than the device allows, and its sections fit. -/
theorem fwCheck_passes {s : State} {b : List Byte} (passes : fwCheck s b = 0#4) :
    let pub := (b.drop (fwLen b - 192)).take 96
    fwForm b = true ∧ s.boot.keyHash = some (beBits384 (sha384 pub)) ∧
      ecdsaVerify pub (sha384 (b.take (fwLen b - 96))) ((b.drop (fwLen b - 96)).take 96) = true ∧
      s.boot.minSvn.toNat ≤ (fwSvn b).toNat ∧ FwSectionsFit b := by
  unfold fwCheck at passes
  dsimp only at passes
  split_ifs at passes with form key signature svn fit
  · exact absurd passes (by decide)
  · exact absurd passes (by decide)
  · exact absurd passes (by decide)
  · exact absurd passes (by decide)
  · exact absurd passes (by decide)
  · simp only [Bool.not_eq_true', Bool.not_eq_false, ne_eq, not_not, Nat.not_lt, Bool.or_eq_true, not_or] at form key signature svn fit
    obtain ⟨⟨⟨fits, apart⟩, channelA⟩, channelB⟩ := fit
    exact ⟨form, key, signature, svn, List.all_eq_true.mp fits, apart, by simpa using channelA, by simpa using channelB⟩

theorem fwForm_length {b : List Byte} (form : fwForm b = true) : b.length = fwLen b ∧ 4096 ≤ fwLen b ∧ fwLen b ≤ 1048576 := by
  simp only [fwForm, Bool.and_eq_true, decide_eq_true_eq] at form
  tauto

/-- A section that fits lies within the image, and its target is a channel or the Shared data partition. -/
theorem FwSection.fits_bounds {t : FwSection} {len : Nat} (fits : t.fits len = true) : t.off + t.size ≤ len ∧ t.target ≠ 3 := by
  simp only [FwSection.fits, Bool.and_eq_true, decide_eq_true_eq] at fits
  obtain ⟨⟨_, inside⟩, target⟩ := fits
  refine ⟨inside, fun three => ?_⟩
  simp [three] at target

/-! ### Domains that take a state (R418, R419) -/

theorem State.domainLose_pw (s : State) (d : Fin 13) : (s.domainLose d).pw = s.pw := by
  unfold State.domainLose
  dsimp only
  split <;> rfl

theorem State.pcieDown_pw (s : State) : s.pcieDown.pw = s.pw := by
  obtain ⟨speed, width, er, down⟩ := s.pcieDown_frame
  rw [down]

/-- What leaves or regains a domain's supply does to the power controller: nothing (R420, R438). -/
theorem State.domainLeaves_pw (s : State) (d : Fin 13) (p q : Prop) [Decidable p] [Decidable q] :
    (if q then (if p then s.pcieDown else s).domainLose d else if p then s.pcieDown else s).pw = s.pw := by
  have link : (if p then s.pcieDown else s).pw = s.pw := by
    split
    · exact s.pcieDown_pw
    · rfl
  split
  · exact (State.domainLose_pw _ d).trans link
  · exact link

/-- A domain that takes a state leaves every other domain, and the rest of the power controller, as they are. -/
theorem State.domainTo_pw (s : State) (d : Fin 13) (t : DomState) :
    (s.domainTo d t).pw = { s.pw with dom := upd s.pw.dom d fun _ => t } := by
  unfold State.domainTo
  split
  · next there =>
    subst there
    have same : upd s.pw.dom d (fun _ => s.domain d) = s.pw.dom := Vector.set_getElem_self _
    rw [same]
  · exact (State.ringRelay_ring _).pw.trans
      (congrArg (fun p : Power => { p with dom := upd p.dom d fun _ => t }) (s.domainLeaves_pw d _ _))

/-! ### The end of a boot -/

/-- A boot without an image: the reason is shown, PD3 and PD4 are OFF, PD1 and PD2 in RET, and the device stays where it was (R448). -/
def BootFails (s t : State) (reason : BitVec 4) : Prop :=
  t.boot.reason = reason ∧ t.boot.busy = false ∧ t.boot.done = false ∧ t.pw.state = s.pw.state ∧ t.pw.trans = none ∧
    t.domain 1 = .ret ∧ t.domain 2 = .ret ∧ t.domain 3 = .off ∧ t.domain 4 = .off

theorem State.bootFail_pw (s : State) (reason : BitVec 4) : (s.bootFail reason).pw = { s.pw with
    trans := none
    dom := upd (upd (upd (upd s.pw.dom 3 fun _ => .off) 4 fun _ => .off) 1 fun _ => .ret) 2 fun _ => .ret } := by
  have taken : (s.domainsTo [(3, .off), (4, .off), (1, .ret), (2, .ret)]).pw = { s.pw with
      dom := upd (upd (upd (upd s.pw.dom 3 fun _ => .off) 4 fun _ => .off) 1 fun _ => .ret) 2 fun _ => .ret } := by
    simp only [State.domainsTo, State.forEach, List.foldl_cons, List.foldl_nil, State.domainTo_pw]
  unfold State.bootFail
  generalize s.domainsTo _ = u at taken ⊢
  exact congrArg (fun p : Power => { p with trans := none }) taken

/-- With no wake source waiting, a boot that fails ends there (R425, R448). -/
theorem State.bootFail_fails {s u : State} (reason : BitVec 4) (same : u.pw = s.pw) (quiet : s.pw.wakePend = 0#3) :
    BootFails s (u.bootFail reason).wakeAgain reason := by
  have ends : (u.bootFail reason).wakeAgain = u.bootFail reason := by
    refine if_neg ?_
    simp [u.bootFail_pw reason, same, quiet]
  rw [ends]
  refine ⟨rfl, rfl, rfl, ?_, ?_, ?_, ?_, ?_, ?_⟩
  all_goals simp [State.domain, u.bootFail_pw reason, same, upd_get]

/-- An image that has passed: SELFTEST starts with its SVN shown and nothing sealed (R247, R448). -/
def BootPasses (s t : State) (b : List Byte) (second : Bool) : Prop :=
  t.boot.selftest = true ∧ t.boot.busy = true ∧ t.boot.svn = fwSvn b ∧ t.boot.second = second ∧ t.sv.sealed = false ∧ t.pw = s.pw ∧
    ∀ c, (s.svCh c).state ≠ .fault → (s.svCh c).state ≠ .safeHold → (t.svCh c).state = .selftest

theorem svWatch_frame (s t : State) : ∃ hi out, svWatch s t = { t with hi := hi, out := out } := by
  unfold svWatch
  split
  · exact ⟨_, _, rfl⟩
  · obtain ⟨pba, out, raises⟩ := State.raise_frame { t with hi.sticky := setBit t.hi.sticky 0 } 17
    exact ⟨_, out, raises⟩

/-- Sections copied to their targets change memory alone (R448). -/
theorem State.forEach_wrBytes {α : Type} (s : State) (l : List α) (place : α → Nat) (bytes : α → List Byte) :
    ∃ mem, (s.forEach l fun s t => s.wrBytes (place t) (bytes t)) = { s with mem := mem } :=
  forEach_induct (fun t => ∃ mem, t = { s with mem := mem }) l _ (fun t _ _ so => by
    obtain ⟨mem, rfl⟩ := so
    exact ⟨_, rfl⟩) s ⟨_, rfl⟩

theorem State.bootPass_passes {s : State} (b : List Byte) (second : Bool) (busy : s.boot.busy = true) :
    BootPasses s (s.bootPass b second) b second := by
  obtain ⟨mem, copied⟩ := s.forEach_wrBytes (fwSections b) (fun t => t.base + t.dest) fun t => (b.drop t.off).take t.size
  unfold State.bootPass
  rw [copied]
  obtain ⟨hi, out, watched⟩ := svWatch_frame s { s with
    mem := mem, boot := { s.boot with svn := fwSvn b, second := second, waitHost := false, selftest := true }
    sv := { first := s.sv.first, second := s.sv.second, ch := s.sv.ch.map fun c => if c.forced then c else {} } }
  rw [show svWatch s _ = _ from watched]
  refine ⟨rfl, busy, rfl, rfl, rfl, rfl, fun c sound free => ?_⟩
  have unforced : (s.svCh c).forced = false := by simp [SvCh.forced, sound, free]
  simp only [State.svCh, Fin.getElem_fin, Vector.getElem_map] at unforced ⊢
  rw [unforced]
  rfl

/-- The last image there is has been tried: SELFTEST starts, or the boot ends (R447, R448). -/
def State.lastTry (s : State) (b : List Byte) (second : Bool) : State :=
  let r := s.bootTry b second
  if r.1 then r.2 else (r.2.bootFail r.2.boot.reason).wakeAgain

theorem State.bootTry_passes {s : State} {b : List Byte} (passes : fwCheck s b = 0#4) (second : Bool) :
    s.bootTry b second = (true, s.bootPass b second) := if_pos passes

theorem State.bootTry_fails {s : State} {b : List Byte} (fails : fwCheck s b ≠ 0#4) (second : Bool) :
    s.bootTry b second = (false, { s with boot.reason := fwCheck s b }) := if_neg fails

theorem State.lastTry_passes {s : State} {b : List Byte} (passes : fwCheck s b = 0#4) (second : Bool) :
    s.lastTry b second = s.bootPass b second := by
  rw [State.lastTry, State.bootTry_passes passes]
  exact if_pos rfl

theorem State.lastTry_fails {s : State} {b : List Byte} (fails : fwCheck s b ≠ 0#4) (second : Bool) :
    s.lastTry b second = (State.bootFail { s with boot.reason := fwCheck s b } (fwCheck s b)).wakeAgain := by
  rw [State.lastTry, State.bootTry_fails fails]
  exact if_neg Bool.false_ne_true

/-- The checks ask only for what the one-time-programmable memory holds (R448). -/
theorem fwCheck_congr {s t : State} (key : t.boot.keyHash = s.boot.keyHash) (svn : t.boot.minSvn = s.boot.minSvn) (b : List Byte) :
    fwCheck t b = fwCheck s b := by
  unfold fwCheck
  rw [key, svn]

/-! ### The image of the host and those of the flash (R447) -/

/-- The device as GO has been taken, with the length that the host names (R447). -/
def State.gone (s : State) (v : BitVec 32) : State :=
  { s with boot := { s.boot with hostLen := field v 0 21, hostGo := true, waitHost := false } }

/-- The second image is in the staging area, and the reason of the first is shown (R447). -/
def State.secondImage (s : State) (reason : BitVec 4) (a b : List Byte) : State :=
  ({ s.wrBytes stagingBase a with boot.reason := reason } : State).wrBytes stagingBase b

theorem bootHostGo_waits (s : State) {v : BitVec 32} (noGo : v.getLsbD 31 = false) : exec (.bootHostGo v) s = .next s :=
  congrArg Host.Outcome.next (if_neg (by rw [bit, noGo]; simp))

section
variable {s : State} (busy : s.boot.busy = true) (quiet : s.pw.wakePend = 0#3)
include busy

theorem bootHostGo_tries (waits : s.boot.waitHost = true) {v : BitVec 32} (go : v.getLsbD 31 = true) : exec (.bootHostGo v) s =
    .next ((s.gone v).lastTry (s.rdBytes 0x3800000 (BitVec.extractLsb' 0 21 v).toNat) false) := by
  refine congrArg Host.Outcome.next (if_pos ?_)
  simp [bit, go, busy, waits]

include quiet in
theorem bootHostGo_ends (waits : s.boot.waitHost = true) {v : BitVec 32} (go : v.getLsbD 31 = true) :
    let b := s.rdBytes 0x3800000 (BitVec.extractLsb' 0 21 v).toNat
    (fwCheck s b = 0#4 → ∃ t, exec (.bootHostGo v) s = .next t ∧ BootPasses s t b false) ∧
      (fwCheck s b ≠ 0#4 → ∃ t, exec (.bootHostGo v) s = .next t ∧ BootFails s t (fwCheck s b)) := by
  intro b
  have same : fwCheck (s.gone v) b = fwCheck s b := fwCheck_congr rfl rfl b
  refine ⟨fun passes => ⟨_, bootHostGo_tries busy waits go, ?_⟩, fun fails => ⟨_, bootHostGo_tries busy waits go, ?_⟩⟩
  · rw [State.lastTry_passes (same.trans passes)]
    exact State.bootPass_passes (s := s.gone v) b false busy
  · rw [State.lastTry_fails (by rwa [same]), same]
    exact State.bootFail_fails _ rfl quiet

include quiet in
theorem bootHostTimeout_ends (waits : s.boot.waitHost = true) : ∃ t, exec .bootHostTimeout s = .next t ∧ BootFails s t 1#4 :=
  ⟨_, if_pos (by simp [busy, waits]), State.bootFail_fails 1#4 rfl quiet⟩

section
variable (before : s.boot.selftest = false) (flash : s.boot.bootSrc.toNat < 2) (x y : List (BitVec 8))
include before flash

theorem bootImageLoaded_first (passes : fwCheck s (flashBytes x) = 0#4) :
    exec (.bootImageLoaded x y) s = .next ((s.wrBytes stagingBase (flashBytes x)).bootPass (flashBytes x) false) := by
  have ran : exec (.bootImageLoaded x y) s = execBootImageLoaded x y s := rfl
  have first := State.bootTry_passes (s := s.wrBytes stagingBase (flashBytes x)) ((fwCheck_congr rfl rfl _).trans passes) false
  rw [ran, execBootImageLoaded, if_pos (by simp [busy, before, flash])]
  dsimp only
  rw [first]
  rfl

theorem bootImageLoaded_second (fails : fwCheck s (flashBytes x) ≠ 0#4) : exec (.bootImageLoaded x y) s =
    .next ((s.secondImage (fwCheck s (flashBytes x)) (flashBytes x) (flashBytes y)).lastTry (flashBytes y) true) := by
  have ran : exec (.bootImageLoaded x y) s = execBootImageLoaded x y s := rfl
  have same : fwCheck (s.wrBytes stagingBase (flashBytes x)) (flashBytes x) = fwCheck s (flashBytes x) := fwCheck_congr rfl rfl _
  have first := State.bootTry_fails (s := s.wrBytes stagingBase (flashBytes x)) (by rwa [same]) false
  rw [ran, execBootImageLoaded, if_pos (by simp [busy, before, flash])]
  dsimp only
  rw [first, same]
  rfl

include quiet in
theorem bootImageLoaded_ends :
    let a := flashBytes x
    let b := flashBytes y
    (fwCheck s a = 0#4 → ∃ t, exec (.bootImageLoaded x y) s = .next t ∧ BootPasses s t a false) ∧
      (fwCheck s a ≠ 0#4 → fwCheck s b = 0#4 → ∃ t, exec (.bootImageLoaded x y) s = .next t ∧ BootPasses s t b true) ∧
      (fwCheck s a ≠ 0#4 → fwCheck s b ≠ 0#4 → ∃ t, exec (.bootImageLoaded x y) s = .next t ∧ BootFails s t (fwCheck s b)) := by
  intro a b
  have second : fwCheck (s.secondImage (fwCheck s a) a b) b = fwCheck s b := fwCheck_congr rfl rfl b
  refine ⟨fun passes => ⟨_, bootImageLoaded_first busy before flash x y passes, ?_⟩,
    fun fails passes => ⟨_, bootImageLoaded_second busy before flash x y fails, ?_⟩,
    fun fails again => ⟨_, bootImageLoaded_second busy before flash x y fails, ?_⟩⟩
  · exact State.bootPass_passes (s := s.wrBytes stagingBase a) a false busy
  · rw [State.lastTry_passes (second.trans passes)]
    exact State.bootPass_passes (s := s.secondImage (fwCheck s a) a b) b true busy
  · rw [State.lastTry_fails (by rwa [second]), second]
    exact State.bootFail_fails _ rfl quiet

end

end

end Sys2Proof.Machine
end

section
/-! SUPPORT. Fuses (R449), and O60. -/
namespace Sys2Proof.Machine

section
variable {s : State} (standby : s.pw.state = .standby)
include standby

/-- In STANDBY a command of the SPI port reaches the fuses (R449). -/
theorem State.otpCmd_spi (v : BitVec 32) : s.otpCmd .spi v =
    if v = 0x0B700001#32 then
      (if s.boot.keyHash.isNone then { s with boot := { s.boot with keyHash := some (otpHash s) } } else s)
    else if v = 0x0B700002#32 then
      (if s.boot.minSvn.toNat < s.boot.svn.toNat then { s with boot := { s.boot with minSvn := s.boot.svn } } else s)
    else s.aonSet 4 := if_neg (by simp [standby])

theorem otpProgramKey_standby : exec (.otpProgramKey .spi) s = .next (s.otpCmd .spi 0x0B700001#32) := if_neg (by simp [standby])

theorem otpRaiseSvn_standby : exec (.otpRaiseSvn .spi) s = .next (s.otpCmd .spi 0x0B700002#32) := if_neg (by simp [standby])

theorem otpProgramKey_blank (blank : s.boot.keyHash = none) : exec (.otpProgramKey .spi) s = .next { s with
    boot.keyHash := some (beBits384 (wordsBytes s.boot.otpData.toList)) } := by
  rw [otpProgramKey_standby standby, State.otpCmd_spi standby, if_pos rfl, if_pos (by simp [blank]), otpHash]

theorem otpProgramKey_programmed (programmed : s.boot.keyHash.isSome = true) : exec (.otpProgramKey .spi) s = .next s := by
  rw [otpProgramKey_standby standby, State.otpCmd_spi standby, if_pos rfl, if_neg (by simpa [Option.isSome_iff_ne_none] using programmed)]

/-- The minimum SVN comes to that of the image last booted, and never falls (R449). -/
theorem otpRaiseSvn_raises : ∃ svn, exec (.otpRaiseSvn .spi) s = .next { s with boot.minSvn := svn } ∧
    svn.toNat = max s.boot.minSvn.toNat s.boot.svn.toNat := by
  rw [otpRaiseSvn_standby standby, State.otpCmd_spi standby, if_neg (by decide), if_pos rfl]
  split
  · next newer => exact ⟨_, rfl, (max_eq_right newer.le).symm⟩
  · next older => exact ⟨_, rfl, (max_eq_left (Nat.not_lt.mp older)).symm⟩

end

/-- A command that is not taken sets CFG_REJ, whatever else the interrupt puts out (R435, R449). -/
theorem State.aonSet_rejects (s : State) (i : Nat) : (s.aonSet i).pw = { s.pw with sticky := setBit s.pw.sticky i } ∧
    { s.aonSet i with pw := s.pw, hi := s.hi, out := s.out } = s := by
  obtain ⟨pba, out, sets⟩ := irqWatch_frame 31 aonLevel s { s with pw.sticky := setBit s.pw.sticky i }
  rw [State.aonSet, sets]
  exact ⟨rfl, rfl⟩

theorem State.otpCmd_elsewhere {s : State} {path : Path} (elsewhere : s.pw.state ≠ .standby ∨ path ≠ .spi) (v : BitVec 32) :
    s.otpCmd path v = s.aonSet 4 := if_pos (by simpa using elsewhere)

theorem otp_rejected {s : State} {path : Path} (on : s.pw.state ≠ .off) (elsewhere : s.pw.state ≠ .standby ∨ path ≠ .spi) :
    exec (.otpProgramKey path) s = .next (s.aonSet 4) ∧ exec (.otpRaiseSvn path) s = .next (s.aonSet 4) := by
  constructor
  · rw [← State.otpCmd_elsewhere elsewhere 0x0B700001#32]
    exact if_neg on
  · rw [← State.otpCmd_elsewhere elsewhere 0x0B700002#32]
    exact if_neg on

/-- Settles O60: what an image that passes is, how a boot from the host and one from flash end, and what the fuse commands do. -/
theorem bootsAndFuses : Obligations.BootsAndFuses := by
  refine ⟨fun s b passes => ?_, fun s => ⟨fun busy quiet => ⟨fun waits => ⟨fun v go => ?_, fun v noGo => ?_, ?_⟩, ?_⟩,
    fun standby => ⟨?_, ?_, ?_⟩, fun path on elsewhere i otp => ?_⟩⟩
  · obtain ⟨form, key, signature, svn, sections⟩ := fwCheck_passes passes
    obtain ⟨length, low, high⟩ := fwForm_length form
    exact ⟨length, low, high, key, signature, svn, sections.channelA, sections.channelB,
      fun t listed => FwSection.fits_bounds (sections.fits t listed)⟩
  · exact bootHostGo_ends busy quiet waits go
  · exact bootHostGo_waits s noGo
  · exact bootHostTimeout_ends busy quiet waits
  · exact fun before flash x y => bootImageLoaded_ends busy quiet before flash x y
  · exact otpProgramKey_blank standby
  · exact otpProgramKey_programmed standby
  · obtain ⟨svn, ran, raised⟩ := otpRaiseSvn_raises standby
    exact ⟨_, ran, rfl, raised, rfl⟩
  · obtain ⟨program, raise⟩ := otp_rejected on elsewhere
    rcases otp with rfl | rfl
    · exact ⟨_, program, s.aonSet_rejects 4⟩
    · exact ⟨_, raise, s.aonSet_rejects 4⟩

end Sys2Proof.Machine
end

section
/-! SUPPORT. What a safety record leaves of memory: every byte below the safety logs (R413, R414). -/
namespace Sys2Proof.Machine

/-- A byte written leaves every other byte as before, whatever the form of the memory. -/
theorem memRead_memWrite_ne (m : List Host.Cell) {a x : Nat} (b : Byte) (ne : x ≠ a) : memRead (memWrite m a b) x = memRead m x := by
  have other : a ≠ x := ne.symm
  induction m with
  | nil =>
    unfold memWrite
    split
    · rfl
    · exact if_neg other
  | cons cell rest ih =>
    obtain ⟨k, v⟩ := cell
    unfold memWrite
    split
    · split
      · rfl
      · exact if_neg other
    · split
      · next here =>
        subst here
        split <;> simp [memRead, other]
      · simp only [memRead, ih]

/-- A run of bytes written leaves every byte below it as before. -/
theorem memRead_memWriteList_below (bs : List Byte) (m : List Host.Cell) {a x : Nat} (below : x < a) :
    memRead (memWriteList m a bs) x = memRead m x := by
  induction bs generalizing m a with
  | nil => rfl
  | cons b rest ih => exact (ih _ (by omega)).trans (memRead_memWrite_ne m b (by omega))

/-- Words put into a ring leave every byte below the ring as before (R408). -/
theorem memRead_ringPut_below (base size : Nat) (ws : List (BitVec 32)) (m : List Host.Cell) (i : Nat) {x : Nat} (below : x < base) :
    memRead (ringPut base size m i ws) x = memRead m x := by
  induction ws generalizing m i with
  | nil => rfl
  | cons w rest ih => exact (ih _ _).trans (memRead_memWriteList_below _ m (by omega))

theorem memRead_mergeAt_below (m : List Host.Cell) (base size p : Nat) (r : Rec) {x : Nat} (below : x < base) :
    memRead (mergeAt m base size p r) x = memRead m x := by
  unfold mergeAt
  dsimp only
  rw [memRead_ringPut_below _ _ _ _ _ below]
  split <;> exact memRead_ringPut_below _ _ _ _ _ below

/-- A record that enters a safety log leaves every byte below the log as before (R414). -/
theorem memRead_logPut_below (g : RecRing) (base : Nat) (m : List Host.Cell) (r : Rec) {x : Nat} (below : x < base) :
    memRead (g.logPut base m r).2 x = memRead m x := by
  unfold RecRing.logPut
  split
  · split
    · exact memRead_mergeAt_below _ _ _ _ _ below
    · exact memRead_ringPut_below _ _ _ _ _ below
  · exact memRead_ringPut_below _ _ _ _ _ below

/-- A channel's record changes the recorder and what interrupts put out, and of memory the safety logs alone (R405, R413, R414). -/
theorem State.svRec_frame (s : State) (c : Fin 2) (code : BitVec 12) (p : List (BitVec 32)) : ∃ er mem pba out,
    s.svRec c code p = { s with er := er, mem := mem, hi.pba := pba, out := out } ∧
      ∀ x < Config.logBaseA, memRead mem x = memRead s.mem x := by
  have stages := (s.logSafety (decide (c = 1)) { src := 14 + c.val, code := code, payload := p }).stage_frame
    { src := 14 + c.val, code := code, payload := p }
  obtain ⟨er, pba, out, staged⟩ := stages
  refine ⟨er, _, pba, out, staged, fun x below => memRead_logPut_below _ _ _ _ ?_⟩
  split
  · exact below.trans (by decide)
  · exact below

end Sys2Proof.Machine
end

section
/-! SUPPORT. What a channel that evaluates touches (R248): the judgements of both channels, the safety logs and records, and the flows
whose SAFE.RESET it decides. -/
namespace Sys2Proof.Machine

/-- What an evaluation takes, with its number and the state of its channel (R248). -/
def SvCh.taken (h : SvCh) : SvState × Nat × BitVec 32 × Option (List (BitVec 32)) := (h.state, h.evals, h.levels, h.entry)

theorem SvCh.of_taken {h : SvCh} {st : SvState} {n : Nat} {lv : BitVec 32} {e : Option (List (BitVec 32))}
    (same : h.taken = (st, n, lv, e)) :
    h.state = st ∧ h.evals = n ∧ h.levels = lv ∧ h.entry = e := by
  simpa only [SvCh.taken, Prod.mk.injEq] using same

theorem SvCh.state_of_taken {h k : SvCh} (same : h.taken = k.taken) : h.state = k.state := (SvCh.of_taken same).1

/-- Of the state, only the channels with the count of disagreements, the SAFE.RESETs that wait, the flows, the recorder, memory and
what interrupts put out have changed. -/
def EvalOnly (s t : State) : Prop := t = { s with
  tr := t.tr, sv := { s.sv with ch := t.sv.ch, disCnt := t.sv.disCnt, resets := t.sv.resets }, er := t.er, mem := t.mem, hi := t.hi
  out := t.out }

theorem EvalOnly.trans {s t u : State} (first : EvalOnly s t) (second : EvalOnly t u) : EvalOnly s u := by
  unfold EvalOnly at *
  rw [second, first]

/-- A judgement of an evaluation: it takes nothing, decides no SAFE.RESET, and changes of memory the safety logs alone. -/
structure Judges (s t : State) : Prop where
  only : EvalOnly s t
  resets : t.sv.resets = s.sv.resets
  taken : ∀ c, (t.svCh c).taken = (s.svCh c).taken
  low : ∀ x < Config.logBaseA, memRead t.mem x = memRead s.mem x

section
variable {s t u : State}

theorem Judges.refl : Judges s s := ⟨rfl, rfl, fun _ => rfl, fun _ _ => rfl⟩

theorem Judges.trans (first : Judges s t) (second : Judges t u) : Judges s u where
  only := first.only.trans second.only
  resets := second.resets.trans first.resets
  taken c := (second.taken c).trans (first.taken c)
  low x below := (second.low x below).trans (first.low x below)

theorem Judges.ite {p : Prop} [Decidable p] (yes : Judges s t) (no : Judges s u) : Judges s (if p then t else u) := by
  split
  · exact yes
  · exact no

theorem Judges.forEach {α : Type} {l : List α} {g : State → α → State} (each : ∀ t x, Judges t (g t x)) (s : State) :
    Judges s (s.forEach l g) :=
  forEach_induct (Judges s) l g (fun t x _ so => so.trans (each t x)) s .refl

variable (s) (c : Fin 2)

theorem State.svRec_judges (code : BitVec 12) (p : List (BitVec 32)) : Judges s (s.svRec c code p) := by
  obtain ⟨er, mem, pba, out, records, low⟩ := s.svRec_frame c code p
  rw [records]
  exact ⟨rfl, rfl, fun _ => rfl, low⟩

theorem State.svCh_modSvCh (d : Fin 2) (g : SvCh → SvCh) : (s.modSvCh c g).svCh d = if c = d then g (s.svCh c) else s.svCh d := by
  simp only [State.svCh, State.modSvCh_sv, Fin.getElem_fin, upd_get, Fin.ext_iff]

theorem State.modSvCh_judges {g : SvCh → SvCh} (keeps : (g (s.svCh c)).taken = (s.svCh c).taken) : Judges s (s.modSvCh c g) := by
  refine ⟨rfl, rfl, fun d => ?_, fun _ _ => rfl⟩
  rw [State.svCh_modSvCh]
  split
  · next here =>
    subst here
    exact keeps
  · rfl

/-- A channel changes and, it may be, records it. -/
theorem State.modSvCh_record_judges {g : SvCh → SvCh} {p : Prop} [Decidable p] {code : BitVec 12} {l : List (BitVec 32)}
    (keeps : (g (s.svCh c)).taken = (s.svCh c).taken) :
    Judges s (if p then (s.modSvCh c g).svRec c code l else s.modSvCh c g) :=
  .ite ((s.modSvCh_judges c keeps).trans (State.svRec_judges _ c _ _)) (s.modSvCh_judges c keeps)

theorem State.modFlow_judges (f : Fin 16) (g : FlowS → FlowS) : Judges s (s.modFlow f g) := ⟨rfl, rfl, fun _ => rfl, fun _ _ => rfl⟩

theorem State.stopFlow_judges (f : Fin 16) (i : BitVec 21) : Judges s (s.stopFlow f i) := by
  obtain ⟨er, pba, out, emits⟩ := s.emit_frame 4 0x004#12 [nat32 f.val 0, i.setWidth 32]
  rw [State.stopFlow, emits]
  exact ⟨rfl, rfl, fun _ => rfl, fun _ _ => rfl⟩

theorem State.opDone_judges (f : Fin 16) (id : Nat) (st : Status) (flags : BitVec 8) (r : Option W64) :
    Judges s (s.opDone f id st flags r) := by
  unfold State.opDone
  split
  · exact .refl
  · exact .ite ((s.modFlow_judges f _).trans (State.stopFlow_judges _ f _)) (s.modFlow_judges f _)

/-! ### Joints, pairs and functions (R257 to R259, R262) -/

theorem State.svJoints_judges (r : Fin 8) : Judges s (s.svJoints c r) :=
  (Judges.forEach (fun t _ => t.modSvCh_record_judges c rfl) s).trans (State.modSvCh_judges _ c rfl)

theorem State.pairFault_judges (p : Fin 16) : Judges s (s.pairFault c p) :=
  .ite .refl ((s.modSvCh_judges c rfl).trans (State.svRec_judges _ c _ _))

theorem State.svPair_judges (t : Nat) (p : Fin 16) : Judges s (s.svPair c t p) := by
  unfold State.svPair
  split
  · exact .refl
  · refine (s.modSvCh_judges c ?_).trans (.trans (.ite (State.pairFault_judges _ c p) .refl) (State.modSvCh_judges _ c rfl))
    rfl

theorem State.setDemand_judges (i : Fin 32) (d : Bool) : Judges s (s.setDemand c i d) :=
  .ite .refl ((s.modSvCh_judges c rfl).trans (State.svRec_judges _ c _ _))

theorem State.svFunctions_judges (t : Nat) : Judges s (s.svFunctions c t) :=
  (Judges.forEach (fun u _ => .ite (u.modSvCh_judges c rfl) ((u.modSvCh_judges c rfl).trans (State.setDemand_judges _ c _ _))) s).trans
    (.forEach (fun u _ => .ite (u.setDemand_judges c _ _) .refl) _)

/-! ### Separation monitoring and the comparison of the channels (R262 to R266) -/

theorem State.svAge_judges (t : Nat) : Judges s (s.svAge c t) := s.modSvCh_record_judges c rfl

theorem State.svSsm_judges (t : Nat) (r : Fin 8) : Judges s (s.svSsm c t r) :=
  .ite (s.modSvCh_judges c rfl) (s.modSvCh_record_judges c rfl)

theorem State.svPositions_judges : Judges s (s.svPositions c) :=
  .forEach (fun t _ => (Judges.forEach (fun u _ => u.modSvCh_record_judges c rfl) t).trans (State.modSvCh_judges _ c rfl)) s

theorem State.countDisagreement_judges : Judges s (s.modSv fun v => { v with disCnt := satInc v.disCnt }) :=
  ⟨rfl, rfl, fun _ => rfl, fun _ _ => rfl⟩

theorem State.svDistances_judges (t : Nat) : Judges s (s.svDistances c t) := by
  unfold State.svDistances
  split
  · refine .ite .refl ((s.modSvCh_judges c rfl).trans (.ite .refl ?_))
    refine (State.modSvCh_judges _ c rfl).trans ((Judges.forEach (fun u _ => ?_) _).trans (.forEach (fun u _ => u.modSvCh_judges c rfl) _))
    exact .trans (.ite u.countDisagreement_judges .refl) (State.svRec_judges _ c _ _)
  · exact .refl

theorem State.svForeign_judges (t : Nat) : Judges s (s.svForeign t) := by
  unfold State.svForeign
  split
  · exact .refl
  · refine .forEach (fun u d => .forEach (fun v _ => ?_) u) s
    exact .ite ((v.modSvCh_judges d rfl).trans (State.pairFault_judges _ d _)) (v.modSvCh_judges d rfl)

/-! ### Stops and SAFE.RESET (R260, R270) -/

theorem State.svArmStop_judges (t : Nat) (r : Fin 8) : Judges s (s.svArmStop c t r) := by
  unfold State.svArmStop
  dsimp only
  split
  · exact s.modSvCh_judges c rfl
  · exact (s.modSvCh_judges c rfl).trans (State.svRec_judges _ c _ _)
  · exact (s.modSvCh_judges c rfl).trans (State.svRec_judges _ c _ _)

theorem State.svAuxStop_judges (t : Nat) (j : Fin 16) : Judges s (s.svAuxStop c t j) := by
  unfold State.svAuxStop
  dsimp only
  split
  · exact s.modSvCh_judges c rfl
  · exact (s.modSvCh_judges c rfl).trans (State.svRec_judges _ c _ _)

theorem State.svStops_judges (t : Nat) : Judges s (s.svStops c t) :=
  (Judges.forEach (fun u r => u.svArmStop_judges c t r) s).trans (.forEach (fun u j => u.svAuxStop_judges c t j) _)

theorem State.resetDo_judges (t : BitVec 8) : Judges s (s.resetDo c t) :=
  .trans (.ite (s.modSvCh_judges c rfl) (s.setDemand_judges c _ _)) (State.svRec_judges _ c _ _)

/-- Every SAFE.RESET that waits is decided, and none waits afterwards (R270). -/
theorem State.svResets_judges : Judges { s with sv.resets := [] } s.svResets := by
  refine .forEach (fun u q => .ite (u.opDone_judges _ _ _ _ _) (.ite (u.opDone_judges _ _ _ _ _) ?_)) _
  exact .trans (.ite ((u.resetDo_judges 0 _).trans (State.resetDo_judges _ 1 _)) .refl) (State.opDone_judges _ _ _ _ _ _)

end

end Sys2Proof.Machine
end

section
/-! SUPPORT. The inputs of an evaluation, and the state in which its decisions are passed on (R244, R248, R272). -/
namespace Sys2Proof.Machine

section
variable (s : State) (c : Fin 2)

/-- Channel `c` takes the levels and its newest distance entry, and counts the evaluation (R248). -/
def State.takes : State :=
  s.modSvCh c fun h => { h with evals := h.evals + 1, levels := sioTaken s c, entry := newestEntry s c }

theorem State.svLocal_judges (t : Nat) : Judges (s.takes c) (s.svLocal c t) := by
  unfold State.svLocal
  extract_lets e lv s1 s2 s3
  have joints : Judges (s.takes c) s2 := .forEach (fun u r => u.svJoints_judges c r) _
  have functions : Judges s2 s3 := (Judges.forEach (fun u p => u.svPair_judges c t p) s2).trans (State.svFunctions_judges _ c t)
  have separation (l : List (Fin 8)) : Judges s3 ((s3.svAge c t).forEach l fun s r => s.svSsm c t r) :=
    (s3.svAge_judges c t).trans (.forEach (fun u r => u.svSsm_judges c t r) _)
  exact (joints.trans functions).trans (.ite (separation _) .refl)

end

/-- What the entry that channel `c` takes follows from (R244). -/
theorem newestEntry_congr {s t : State} {c : Fin 2} (rd : t.rd = s.rd) (entry : (t.svCh c).entry = (s.svCh c).entry)
    (low : ∀ x < Config.logBaseA, memRead t.mem x = memRead s.mem x) : newestEntry t c = newestEntry s c := by
  have bytes (a n : Nat) (inside : a + n ≤ Config.logBaseA) : memNat t.mem a n = memNat s.mem a n := by
    induction n generalizing a with
    | zero => rfl
    | succ n ih => rw [memNat, memNat, low a (by omega), ih (a + 1) (by omega)]
  have words (b : Bool) : ((List.range 88).map fun n => distWord t.mem (decide (c = 1)) b n) =
      (List.range 88).map fun n => distWord s.mem (decide (c = 1)) b n := by
    refine List.map_congr_left fun n inside => congrArg _ (bytes _ 4 ?_)
    have := List.mem_range.mp inside
    have base : entryBase (decide (c = 1)) b ≤ 0x1380600 := by
      unfold entryBase
      split <;> split <;> omega
    have log : Config.logBaseA = 0x3EC0000 := rfl
    omega
  unfold newestEntry
  rw [rd, entry]
  simp only [words]

/-- The levels follow from the inputs and the sealed image alone (R272). -/
theorem EvalOnly.sioTaken_eq {s t : State} (only : EvalOnly s t) (c : Fin 2) : sioTaken t c = sioTaken s c := by
  have sio : t.sio = s.sio := by rw [only]
  have pulsed (i : Nat) : pinPulsed t i = pinPulsed s i := by
    rw [only]
    rfl
  unfold sioTaken
  simp only [sio, pulsed]

theorem State.takes_only (s : State) (c : Fin 2) : EvalOnly s (s.takes c) := rfl

theorem State.takes_taken_same (s : State) (c : Fin 2) :
    ((s.takes c).svCh c).taken = ((s.svCh c).state, (s.svCh c).evals + 1, sioTaken s c, newestEntry s c) := by
  rw [State.takes, State.svCh_modSvCh, if_pos rfl]
  rfl

theorem State.takes_svCh_ne (s : State) {c d : Fin 2} (ne : c ≠ d) : (s.takes c).svCh d = s.svCh d := by
  rw [State.takes, State.svCh_modSvCh, if_neg ne]

theorem State.takes_resets (s : State) (c : Fin 2) : (s.takes c).sv.resets = s.sv.resets := rfl

theorem State.forEach_channels (s : State) (g : State → Fin 2 → State) : s.forEach (fins 2) g = g (g s 0) 1 := rfl

/-- Both channels have taken their inputs and judged what follows from them alone (R248). -/
def State.gathered (s : State) (t : Nat) : State := (s.svLocal 0 t).svLocal 1 t

/-- What each channel has taken: what it would have taken alone. -/
theorem State.gathered_taken (s : State) (t : Nat) : EvalOnly s (s.gathered t) ∧ (s.gathered t).sv.resets = s.sv.resets ∧
    ∀ c, ((s.gathered t).svCh c).taken = ((s.svCh c).state, (s.svCh c).evals + 1, sioTaken s c, newestEntry s c) := by
  have first := s.svLocal_judges 0 t
  have second := (s.svLocal 0 t).svLocal_judges 1 t
  have onlyFirst : EvalOnly s (s.svLocal 0 t) := (s.takes_only 0).trans first.only
  have resets : (s.gathered t).sv.resets = s.sv.resets := by
    rw [State.gathered, second.resets, State.takes_resets, first.resets, State.takes_resets]
  refine ⟨onlyFirst.trans ((State.takes_only _ 1).trans second.only), resets, fun c => ?_⟩
  rw [State.gathered]
  match c with
  | 0 =>
    rw [second.taken 0, State.takes_svCh_ne _ (by decide), first.taken 0, State.takes_taken_same]
  | 1 =>
    have before : ((s.svLocal 0 t).svCh 1).taken = (s.svCh 1).taken := by rw [first.taken 1, State.takes_svCh_ne _ (by decide)]
    obtain ⟨state, evals, _, entry⟩ := SvCh.of_taken before
    have found : newestEntry (s.svLocal 0 t) 1 = newestEntry s 1 := newestEntry_congr (by rw [onlyFirst]) entry first.low
    rw [second.taken 1, State.takes_taken_same, state, evals, onlyFirst.sioTaken_eq, found]

/-- The channels have compared their positions and distances, and the pair states with the partner's (R262, R266, R375). -/
def State.compared (s : State) (t : Nat) : State :=
  ((s.gathered t).forEach (fins 2) fun s c => (s.svPositions c).svDistances c t).svForeign t

/-- Both channels have compared, decided every SAFE.RESET that waited, and every stop (R248, R260, R270). -/
def State.decided (s : State) (t : Nat) : State :=
  (s.compared t).svResets.forEach (fins 2) fun s c => s.svStops c t

theorem State.clearResets_only (s : State) : EvalOnly s { s with sv.resets := [] } := rfl

theorem State.clearResets_svCh (s : State) (c : Fin 2) : ({ s with sv.resets := [] } : State).svCh c = s.svCh c := rfl

theorem State.decided_taken (s : State) (t : Nat) : EvalOnly s (s.decided t) ∧ (s.decided t).sv.resets = [] ∧
    ∀ c, ((s.decided t).svCh c).taken = ((s.svCh c).state, (s.svCh c).evals + 1, sioTaken s c, newestEntry s c) := by
  obtain ⟨only, _, taken⟩ := s.gathered_taken t
  have compared : Judges (s.gathered t) (s.compared t) :=
    (Judges.forEach (fun u c => (u.svPositions_judges c).trans (State.svDistances_judges _ c t)) _).trans (State.svForeign_judges _ t)
  have stops : Judges { s.compared t with sv.resets := [] } (s.decided t) :=
    (State.svResets_judges _).trans (.forEach (fun u c => u.svStops_judges c t) _)
  refine ⟨((only.trans compared.only).trans (State.clearResets_only _)).trans stops.only, by rw [stops.resets], fun c => ?_⟩
  rw [stops.taken c, State.clearResets_svCh, compared.taken c, taken c]

theorem State.gathered_sealed {s : State} (sealed : ∀ c, (s.svCh c).state = .sealed) (t : Nat) (c : Fin 2) :
    ((s.gathered t).svCh c).state = .sealed := by
  obtain ⟨_, _, taken⟩ := s.gathered_taken t
  rw [(SvCh.of_taken (taken c)).1, sealed c]

/-- The channels that evaluate (R248). -/
def evaluating (s : State) : List (Fin 2) := (fins 2).filter fun c => decide ((s.svCh c).state = .sealed)

theorem evaluating_both {s : State} (sealed : ∀ c, (s.svCh c).state = .sealed) : evaluating s = fins 2 :=
  List.filter_eq_self.mpr fun c _ => decide_eq_true (sealed c)

/-- With both channels SEALED on a configuration that stands, an evaluation decides, publishes and opens (R248). -/
theorem selvedgeEvaluation_decides {s : State} (pd1 : (s.domain 1).up = true) (pd2 : (s.domain 2).up = true)
    (sealed : ∀ c, (s.svCh c).state = .sealed) (stands : ∀ c, configBad s c = false) :
    exec .selvedgeEvaluation s = .next (svWatch s (s.decided (evalTime s)).svPublish.ossdUpdate.sendSafety) := by
  have ran : exec .selvedgeEvaluation s = execSelvedgeEvaluation s := rfl
  rw [ran, execSelvedgeEvaluation, if_neg (by simp [pd1, pd2])]
  extract_lets t on s1 s2 s3 s4 s5
  have checked : s1 = s := by
    refine forEach_induct (fun t => t = s) _ _ (fun t c _ same => ?_) s rfl
    rw [same, stands c]
    rfl
  have gathers : s2 = s.gathered t := by
    simp only [s2, checked]
    rw [show on s = fins 2 from evaluating_both sealed, State.forEach_channels, State.gathered]
  have both : on s2 = fins 2 := gathers ▸ evaluating_both (State.gathered_sealed sealed t)
  have compares : s3 = (s.gathered t).forEach (fins 2) fun s c => (s.svPositions c).svDistances c t := by
    change (if (on s2).length = 2 then s2.forEach (fins 2) (fun s c => (s.svPositions c).svDistances c t) else s2) = _
    rw [both, gathers]
    exact if_pos rfl
  have compared : Judges s2 s3 := by
    rw [compares, gathers]
    exact .forEach (fun u c => (u.svPositions_judges c).trans (State.svDistances_judges _ c t)) _
  have still : on s3 = fins 2 := evaluating_both fun c => by
    rw [SvCh.state_of_taken (compared.taken c), gathers, State.gathered_sealed sealed t c]
  have decides : s4 = s.decided t := by
    change (s3.svForeign t).svResets.forEach (on s3) (fun s c => s.svStops c t) = _
    rw [still, compares, State.decided, State.compared]
  simp only [s5, decides]
  rfl

end Sys2Proof.Machine
end

section
/-! SUPPORT. What the channels pass on (R248, R260, R261): categories and scales, the axes that stop at category 0, and the OSSDs. -/
namespace Sys2Proof.Machine

/-! ### Axes that stop at category 0 (R33, R260) -/

section
variable {s : State} {a b : Fin 80}

/-- The axis is in FAULT, and not on the interpolation of an arm under MPC. -/
def Faulted (s : State) (a : Fin 80) : Prop := (s.axis a).state = .fault ∧ (s.pax a).src ≠ .mpcRef

/-- The axis is at rest if it is in FAULT. -/
def FaultRests (s : State) (a : Fin 80) : Prop := (s.axis a).state = .fault → (s.pax a).src ≠ .mpcRef

theorem Faulted.rests (faulted : Faulted s a) : FaultRests s a := fun _ => faulted.2

/-- The axis is in FAULT without a set-point source, and its slaves still have to stop. -/
def State.faultReleased (s : State) (a : Fin 80) : State :=
  ((s.modAxis a fun x => { x with state := .fault, selFault := false }).leaveArm a).modPax a PgAxis.release

theorem State.faultAxis_of_fault (fault : (s.axis a).state = .fault) : s.faultAxis a = s := if_pos fault

theorem State.faultAxis_of_sound (sound : (s.axis a).state ≠ .fault) : s.faultAxis a = (s.faultReleased a).loseMaster a := if_neg sound

theorem State.faultReleased_same (s : State) (a : Fin 80) : Faulted (s.faultReleased a) a := by
  refine ⟨?_, ?_⟩
  · refine (congrArg Axis.state (State.leaveArm_axis (s.modAxis a fun x => { x with state := .fault, selFault := false }) a a)).trans ?_
    rw [State.axis_modAxis, if_pos rfl]
  · rw [State.faultReleased, State.pax_modPax_same]
    exact PgSource.noConfusion

theorem State.faultReleased_other (s : State) (ne : a ≠ b) :
    (s.faultReleased a).axis b = s.axis b ∧ (s.faultReleased a).pax b = s.pax b := by
  refine ⟨?_, (State.pax_modPax_ne _ _ ne.symm).trans (State.leaveArm_pax_ne _ ne.symm)⟩
  refine (State.leaveArm_axis (s.modAxis a fun x => { x with state := .fault, selFault := false }) a b).trans ?_
  rw [State.axis_modAxis, if_neg ne]

/-- A slave that loses its master stops, so it is not in FAULT (R171). -/
theorem FaultRests.loseMaster (rests : FaultRests s b) (a : Fin 80) : FaultRests (s.loseMaster a) b := by
  refine forEach_induct (fun t => FaultRests t b) _ _ (fun t c _ so => ?_) s rests
  change FaultRests (t.loseSlave a c) b
  by_cases same : c = b
  · subst same
    intro fault
    rw [State.loseSlave_axis, State.stopAxis_axis_same] at fault
    exact AxisState.noConfusion fault
  · rw [FaultRests, State.loseSlave_axis, t.stopAxis_axis_ne true false same]
    intro fault
    have pax : (t.loseSlave a c).pax b = t.pax b :=
      (State.emit_pax _ _ _ _ b).trans ((State.pgSet_pax_ne _ 4 (Ne.symm same)).trans (t.stopAxis_pax_ne true false (Ne.symm same)))
    rw [pax]
    exact so fault

/-- An axis that Selvedge stops at category 0 comes to FAULT. -/
theorem State.svFaultAxis_same (rests : FaultRests s a) : Faulted (s.svFaultAxis a) a := by
  have fault := (s.faultAxis_axis a).1
  have after : FaultRests (s.faultAxis a) a := by
    by_cases there : (s.axis a).state = .fault
    · rwa [State.faultAxis_of_fault there]
    · rw [State.faultAxis_of_sound there]
      exact (s.faultReleased_same a).rests.loseMaster a
  refine ⟨?_, after fault⟩
  rw [State.svFaultAxis, State.axis_modAxis, if_pos rfl]
  exact fault

theorem State.svFaultAxis_other (ne : a ≠ b) : (s.svFaultAxis a).axis b = (s.faultAxis a).axis b ∧
    (s.svFaultAxis a).pax b = (s.faultAxis a).pax b := by
  refine ⟨?_, rfl⟩
  rw [State.svFaultAxis, State.axis_modAxis, if_neg ne]

theorem FaultRests.svFaultAxis (rests : FaultRests s b) (a : Fin 80) : FaultRests (s.svFaultAxis a) b := by
  by_cases same : a = b
  · subst same
    exact (State.svFaultAxis_same rests).rests
  · obtain ⟨axis, pax⟩ := s.faultReleased_other same
    rw [FaultRests, (State.svFaultAxis_other same).1, (State.svFaultAxis_other same).2]
    by_cases there : (s.axis a).state = .fault
    · rwa [State.faultAxis_of_fault there]
    · rw [State.faultAxis_of_sound there]
      refine FaultRests.loseMaster ?_ a
      rwa [FaultRests, axis, pax]

theorem Faulted.svFaultAxis (faulted : Faulted s b) (a : Fin 80) : Faulted (s.svFaultAxis a) b := by
  by_cases same : a = b
  · subst same
    exact State.svFaultAxis_same faulted.rests
  · have loose : (s.axis b).state ≠ .geared := by
      rw [faulted.1]
      exact AxisState.noConfusion
    have fault : ((s.svFaultAxis a).axis b).state = .fault := by
      rw [(State.svFaultAxis_other same).1, (s.faultAxis_axis a).2 b (Ne.symm same) loose, faulted.1]
    exact ⟨fault, faulted.rests.svFaultAxis a fault⟩

/-- Every axis of a list comes to FAULT. -/
theorem State.forEach_svFaultAxis {l : List (Fin 80)} (member : b ∈ l) (rests : FaultRests s b) :
    Faulted (s.forEach l State.svFaultAxis) b := by
  induction l generalizing s with
  | nil => exact absurd member List.not_mem_nil
  | cons a l ih =>
    rcases List.mem_cons.mp member with rfl | later
    · exact forEach_induct (fun t => Faulted t b) l _ (fun t a _ so => so.svFaultAxis a) _ (State.svFaultAxis_same rests)
    · exact ih later (rests.svFaultAxis a)

/-- An arm that leaves MPC leaves every axis that is not on its interpolation as it is (R34). -/
theorem State.endMpc_spares (s : State) (r : Fin 8) (spared : (s.pax b).src ≠ .mpcRef) :
    (s.endMpc r).axis b = s.axis b ∧ (s.endMpc r).pax b = s.pax b := by
  refine forEach_induct (fun t => t.axis b = s.axis b ∧ t.pax b = s.pax b) _ _ (fun t a _ so => ?_) s ⟨rfl, rfl⟩
  dsimp only
  split
  · next mpc =>
    have ne : b ≠ a := by
      rintro rfl
      exact spared (so.2 ▸ mpc)
    split
    · refine ⟨?_, ((State.pax_modPax_ne _ _ ne).trans (t.leaveArm_pax_ne ne)).trans so.2⟩
      refine (State.axis_modAxis _ a b _).trans ?_
      rw [if_neg (Ne.symm ne), ← so.1]
      exact t.leaveArm_axis a b
    · exact ⟨so.1, (t.pax_modPax_ne _ ne).trans so.2⟩
  · exact so

theorem Faulted.mpcSweep (faulted : Faulted s b) : Faulted s.mpcSweep b := by
  refine forEach_induct (fun t => Faulted t b) _ _ (fun t r _ so => ?_) s faulted
  split
  · obtain ⟨axis, pax⟩ := t.endMpc_spares r so.2
    rwa [Faulted, axis, pax]
  · exact so

end

/-! ### What is published -/

/-- The axes that are stopped at category 0: all of them while a channel is in FAULT or SAFE_HOLD (R260, R267). -/
def zeroAxes (s : State) : List (Fin 80) :=
  if (s.svCh 0).forced || (s.svCh 1).forced then fins 80
  else (((fins 8).filter fun r => decide (armCatNow s r = 0)).flatMap (sealedAxes s)) ++
    ((fins 16).filter fun j => decide (auxCatNow s j = 0)).map fun j => Fin.ofNat 80 (64 + j.val)

/-- The stops, STO and scales are passed on, and no axis has followed yet (R248, R260). -/
def State.published (s : State) : State := { s with
  sv.armPub := Vector.ofFn fun r =>
    { scale := if s.tb.running then scaleNow s r else (s.sv.armPub[r]).scale
      stop := catStop (armCatNow s r)
      sto := (s.svCh 0).armSto r || (s.svCh 1).armSto r || decide (armCatNow s r = 0) }
  sv.auxPub := Vector.ofFn fun j =>
    { scale := (s.sv.auxPub[j]).scale
      stop := catStop (auxCatNow s j)
      sto := (s.svCh 0).auxSto j || (s.svCh 1).auxSto j || decide (auxCatNow s j = 0) } }

theorem State.forEach_append {α : Type} (s : State) (l k : List α) (g : State → α → State) :
    s.forEach (l ++ k) g = (s.forEach l g).forEach k g := List.foldl_append

theorem State.forEach_map {α β : Type} (s : State) (l : List α) (f : α → β) (g : State → β → State) :
    s.forEach (l.map f) g = s.forEach l fun s x => g s (f x) := List.foldl_map

/-- The axes of one arm after another, whatever has faulted before (R252). -/
theorem State.forEach_sealedAxes (u : State) (l : List (Fin 8)) {s : State} (same : s.sv.cfgArm = u.sv.cfgArm) :
    (s.forEach l fun s r => s.forEach (sealedAxes s r) State.svFaultAxis) = s.forEach (l.flatMap (sealedAxes u)) State.svFaultAxis := by
  induction l generalizing s with
  | nil => rfl
  | cons r l ih =>
    have axes : sealedAxes s r = sealedAxes u r := by
      unfold sealedAxes
      rw [same]
    have kept : (s.forEach (sealedAxes u r) State.svFaultAxis).sv.cfgArm = u.sv.cfgArm := by
      rw [(MotionOnly.forEach (fun t a => t.svFaultAxis_motion a) s).sv, same]
    rw [List.flatMap_cons, State.forEach_append, ← ih kept, ← axes]
    rfl

theorem State.svPublish_eq (s : State) : s.svPublish = (s.published.forEach (zeroAxes s) State.svFaultAxis).mpcSweep := by
  unfold State.svPublish zeroAxes
  dsimp only
  split
  · rfl
  · rw [State.forEach_append, State.forEach_map, ← State.forEach_sealedAxes (s := s.published) s _ rfl]
    rfl

theorem State.svPublish_motion (s : State) : MotionOnly s.published s.svPublish := by
  rw [State.svPublish_eq]
  exact (MotionOnly.forEach (fun t a => t.svFaultAxis_motion a) _).trans (State.mpcSweep_motion _)

/-- Every axis of an arm at category 0 comes to FAULT as the category is published (R260). -/
theorem State.svPublish_faults {s : State} {r : Fin 8} {a : Fin 80} (zero : armCatNow s r = 0) (axis : a ∈ sealedAxes s r)
    (sound : (s.axis a).state ≠ .fault) : (s.svPublish.axis a).state = .fault := by
  have stopped : a ∈ zeroAxes s := by
    unfold zeroAxes
    split
    · exact List.mem_finRange a
    · refine List.mem_append_left _ (List.mem_flatMap.mpr ⟨r, List.mem_filter.mpr ⟨List.mem_finRange r, ?_⟩, axis⟩)
      exact decide_eq_true zero
  rw [State.svPublish_eq]
  exact (State.forEach_svFaultAxis (s := s.published) stopped fun fault => absurd fault sound).mpcSweep.1

/-! ### What the decisions follow from -/

/-- Decisions have been passed on: what they follow from is as before. -/
def PassesOn (s t : State) : Prop := t = { s with
  cell := t.cell, pg := t.pg, sv := { s.sv with armPub := t.sv.armPub, auxPub := t.sv.auxPub }, sio := { s.sio with ossd := t.sio.ossd }
  pr := { s.pr with seqTx := t.pr.seqTx }, er := t.er, hi := t.hi, out := t.out }

section
variable {s t u : State}

theorem PassesOn.trans (first : PassesOn s t) (second : PassesOn t u) : PassesOn s u := by
  unfold PassesOn at *
  rw [second, first]

theorem MotionOnly.passesOn (only : MotionOnly s t) : PassesOn s t := by
  unfold MotionOnly at only
  rw [only]
  rfl

theorem State.published_passesOn (s : State) : PassesOn s s.published := rfl

theorem State.svPublish_passesOn (s : State) : PassesOn s s.svPublish := s.published_passesOn.trans s.svPublish_motion.passesOn

theorem State.ossdUpdate_passesOn (s : State) : PassesOn s s.ossdUpdate := rfl

theorem State.sendSafety_passesOn (s : State) : PassesOn s s.sendSafety := by
  unfold State.sendSafety
  split <;> rfl

theorem svWatch_passesOn (s t : State) : PassesOn t (svWatch s t) := by
  obtain ⟨hi, out, watched⟩ := svWatch_frame s t
  rw [watched]
  rfl

theorem PassesOn.svCh (on : PassesOn s t) (c : Fin 2) : t.svCh c = s.svCh c := by
  rw [on]
  rfl

theorem PassesOn.resets (on : PassesOn s t) : t.sv.resets = s.sv.resets := by rw [on]

theorem PassesOn.now (on : PassesOn s t) : t.now = s.now := by
  rw [on]
  rfl

theorem PassesOn.armCatNow_eq (on : PassesOn s t) (r : Fin 8) : armCatNow t r = armCatNow s r := by
  rw [on]
  rfl

theorem PassesOn.scaleNow_eq (on : PassesOn s t) (r : Fin 8) : scaleNow t r = scaleNow s r := by
  rw [on]
  rfl

theorem PassesOn.ossdClose_eq (on : PassesOn s t) (c : Fin 2) (n : Nat) : ossdClose t c n = ossdClose s c n := by
  rw [on]
  rfl

end

theorem State.svPublish_armPub (s : State) (r : Fin 8) : s.svPublish.sv.armPub[r] =
    { scale := if s.tb.running then scaleNow s r else (s.sv.armPub[r]).scale
      stop := catStop (armCatNow s r)
      sto := (s.svCh 0).armSto r || (s.svCh 1).armSto r || decide (armCatNow s r = 0) } := by
  rw [s.svPublish_motion.sv]
  exact Vector.getElem_ofFn _

/-! ### Switches that are not enabled (R261, R283) -/

theorem Ossd.openOne_high (o : Ossd) (t : Nat) : (o.openOne 0 t).high = false := by
  unfold Ossd.openOne
  split <;> rfl

theorem Ossd.openOne_low (o : Ossd) (t : Nat) : (o.openOne 1 t).low = false := by
  unfold Ossd.openOne
  split <;> rfl

/-- What channel B opens, channel A has not closed. -/
theorem Ossd.openOne_high_of_open {o : Ossd} (isOpen : o.high = false) (t : Nat) : (o.openOne 1 t).high = false := by
  unfold Ossd.openOne
  split
  · rfl
  · exact isOpen

/-- An OSSD that follows the enables of both channels (R282, R283). -/
def Ossd.follows (o : Ossd) (a b : Bool) (t : Nat) : Ossd :=
  if o.fault then o
  else if a && b then (if o.phase = .opened then Ossd.settle { o with phase := .high, high := true, low := false, changed := t } else o)
  else
    let o1 := if a then o else o.openOne 0 t
    if b then o1 else o1.openOne 1 t

theorem State.ossdUpdate_ossd (s : State) (n : Fin 8) :
    s.ossdUpdate.sio.ossd[n] = (s.sio.ossd[n]).follows (ossdClose s 0 n.val) (ossdClose s 1 n.val) s.now :=
  Vector.getElem_ofFn (f := fun n : Fin 8 => (s.sio.ossd[n]).follows (ossdClose s 0 n.val) (ossdClose s 1 n.val) s.now) n.isLt

theorem Ossd.follows_high {o : Ossd} (sound : o.fault = false) (b : Bool) (t : Nat) : (o.follows false b t).high = false := by
  rw [Ossd.follows, if_neg (by simp [sound]), if_neg (by simp)]
  cases b
  · exact Ossd.openOne_high_of_open (o.openOne_high t) t
  · exact o.openOne_high t

theorem Ossd.follows_low {o : Ossd} (sound : o.fault = false) (a : Bool) (t : Nat) : (o.follows a false t).low = false := by
  rw [Ossd.follows, if_neg (by simp [sound]), if_neg (by simp)]
  exact Ossd.openOne_low _ t

/-- Every switch that its channel does not enable is open (R283). -/
theorem State.ossdUpdate_opens {s : State} {n : Fin 8} (sound : (s.sio.ossd[n]).fault = false) :
    (ossdClose s 0 n.val = false → (s.ossdUpdate.sio.ossd[n]).high = false) ∧
      (ossdClose s 1 n.val = false → (s.ossdUpdate.sio.ossd[n]).low = false) := by
  rw [State.ossdUpdate_ossd]
  refine ⟨fun off => ?_, fun off => ?_⟩
  · rw [off, Ossd.follows_high sound]
  · rw [off, Ossd.follows_low sound]

/-! ### The evaluation as a whole (R248) -/

theorem State.ossdUpdate_sv (s : State) : s.ossdUpdate.sv = s.sv := rfl

theorem State.ossdUpdate_cell (s : State) : s.ossdUpdate.cell = s.cell := rfl

theorem State.svPublish_sio (s : State) : s.svPublish.sio = s.sio := by
  rw [s.svPublish_motion]
  rfl

theorem EvalOnly.sio {s t : State} (only : EvalOnly s t) : t.sio = s.sio := by rw [only]

theorem EvalOnly.sealedAxes_eq {s t : State} (only : EvalOnly s t) (r : Fin 8) : sealedAxes t r = sealedAxes s r := by
  rw [only]
  rfl

theorem EvalOnly.axis_eq {s t : State} (only : EvalOnly s t) (a : Fin 80) : t.axis a = s.axis a := by
  rw [only]
  rfl

/-- The safety record of a pair and the change of SV_STATE leave the axes, Selvedge and the switches (R373, R444). -/
theorem State.sent (u s : State) : ∃ t, svWatch s u.sendSafety = t ∧ PassesOn u t ∧ t.cell = u.cell ∧ t.sv = u.sv ∧ t.sio = u.sio := by
  obtain ⟨hi, out, watched⟩ := svWatch_frame s u.sendSafety
  refine ⟨_, rfl, u.sendSafety_passesOn.trans (svWatch_passesOn _ _), ?_⟩
  rw [watched]
  unfold State.sendSafety
  split <;> exact ⟨rfl, rfl, rfl⟩

/-- What an evaluation of both SEALED channels shows: each has taken its inputs, every SAFE.RESET is decided, what is decided is
published, and the axes and switches follow. -/
theorem selvedgeEvaluation_shows {s : State} (pd1 : (s.domain 1).up = true) (pd2 : (s.domain 2).up = true)
    (stands : ∀ c, (s.svCh c).state = .sealed ∧ configBad s c = false) :
    ∃ t, exec .selvedgeEvaluation s = .next t ∧ t.sv.resets = [] ∧
      (∀ c, (t.svCh c).evals = (s.svCh c).evals + 1 ∧ (t.svCh c).levels = sioTaken s c ∧ (t.svCh c).entry = newestEntry s c) ∧
      (∀ r : Fin 8, (t.sv.armPub[r]).stop = catStop (armCatNow t r) ∧
        (s.tb.running = true → (t.sv.armPub[r]).scale = scaleNow t r) ∧
        (armCatNow t r = 0 → ∀ a ∈ sealedAxes s r, (s.axis a).state ≠ .fault → (t.axis a).state = .fault)) ∧
      (∀ n : Fin 8, (s.sio.ossd[n]).fault = false → (ossdClose t 0 n.val = false → (t.sio.ossd[n]).high = false) ∧
        (ossdClose t 1 n.val = false → (t.sio.ossd[n]).low = false)) := by
  have decides := selvedgeEvaluation_decides pd1 pd2 (fun c => (stands c).1) fun c => (stands c).2
  obtain ⟨only, resets, taken⟩ := s.decided_taken (evalTime s)
  generalize s.decided (evalTime s) = u at decides only resets taken
  obtain ⟨t, sends, on, cell, sv, sio⟩ := u.svPublish.ossdUpdate.sent s
  have passes := (u.svPublish_passesOn.trans (State.ossdUpdate_passesOn _)).trans on
  rw [sends] at decides
  refine ⟨t, decides, passes.resets.trans resets, fun c => ?_, fun r => ?_, fun n sound => ?_⟩
  · rw [passes.svCh]
    exact (SvCh.of_taken (taken c)).2
  · have shown : t.sv.armPub[r] = u.svPublish.sv.armPub[r] := by rw [sv, State.ossdUpdate_sv]
    rw [shown, u.svPublish_armPub r, passes.armCatNow_eq, passes.scaleNow_eq]
    refine ⟨rfl, fun running => ?_, fun zero a member sound => ?_⟩
    · have still : u.tb.running = true := by rw [only, running]
      exact if_pos still
    · have axis : t.axis a = u.svPublish.axis a := by rw [State.axis, cell, State.ossdUpdate_cell, State.axis]
      rw [axis]
      refine State.svPublish_faults zero ?_ ?_
      · rwa [only.sealedAxes_eq]
      · rwa [only.axis_eq]
  · have same (c : Fin 2) : ossdClose t c n.val = ossdClose u.svPublish c n.val := by
      rw [passes.ossdClose_eq, u.svPublish_passesOn.ossdClose_eq]
    rw [same, same, sio]
    refine State.ossdUpdate_opens ?_
    rwa [u.svPublish_sio, only.sio]

end Sys2Proof.Machine
end

section
/-! SUPPORT. What times out between evaluations: pairs, light curtains and stops (R257, R258, R260), and O43. -/
namespace Sys2Proof.Machine

theorem State.svRec_svCh (s : State) (c : Fin 2) (code : BitVec 12) (p : List (BitVec 32)) (d : Fin 2) :
    (s.svRec c code p).svCh d = s.svCh d := by
  rw [State.svCh, State.svRec_sv]
  rfl

theorem State.le_reach_now (s : State) (t : Nat) : t ≤ (s.reach t).now := by
  rw [State.reach_eq, State.now, Nat.le_div_iff_mul_le (by decide)]
  exact le_max_right _ _

theorem State.reach_svCh (s : State) (t : Nat) (c : Fin 2) : (s.reach t).svCh c = s.svCh c := by
  rw [State.reach_eq]
  rfl

theorem EvalOnly.now {s t : State} (only : EvalOnly s t) : t.now = s.now := by
  rw [only]
  rfl

/-! ### Pairs (R257) -/

/-- A pair fault that is latched: the pair counts as OFF, and every other pair is as before. -/
theorem State.pairFault_latches {s : State} {c : Fin 2} {p : Fin 16} (fresh : ((s.svCh c).pair[p]).fault = false) :
    (((s.pairFault c p).svCh c).pair[p]).fault = true ∧ (((s.pairFault c p).svCh c).pair[p]).on = false ∧
      ∀ q : Fin 16, q ≠ p → ((s.pairFault c p).svCh c).pair[q] = (s.svCh c).pair[q] := by
  rw [State.pairFault, if_neg (ne_true_of_eq_false fresh)]
  dsimp only
  rw [State.svRec_svCh, State.svCh_modSvCh, if_pos rfl]
  dsimp only
  refine ⟨?_, ?_, fun q ne => upd_get_ne _ _ _ _ _ (Fin.val_ne_of_ne ne.symm)⟩
  · simp
  · simp

section
variable {s : State} {c : Fin 2} (sealed : (s.svCh c).state = .sealed) {t0 : Nat}
include sealed

theorem pairDiscrepancyTimeout_latches {p : Fin 16} {f : CfgFn} (named : pairFn s p = some f)
    (since : ((s.svCh c).pair[p]).since = some t0) (fresh : ((s.svCh c).pair[p]).fault = false) :
    ∃ t, exec (.pairDiscrepancyTimeout c p) s = .next t ∧ ((t.svCh c).pair[p]).fault = true ∧ ((t.svCh c).pair[p]).on = false ∧
      t0 + f.tDisc.toNat * 1000000 ≤ t.now ∧ ∀ q : Fin 16, q ≠ p → (t.svCh c).pair[q] = (s.svCh c).pair[q] := by
  have ran : exec (.pairDiscrepancyTimeout c p) s = .next ((s.reach (t0 + f.tDisc.toNat * msNs)).pairFault c p) := by
    change execPairDiscrepancyTimeout c p s = _
    rw [execPairDiscrepancyTimeout, named, since]
    exact if_pos (by rw [fresh, sealed]; rfl)
  obtain ⟨fault, off, others⟩ := (s.reach (t0 + f.tDisc.toNat * msNs)).pairFault_latches (c := c) (p := p) (by rwa [State.reach_svCh])
  refine ⟨_, ran, fault, off, ?_, fun q ne => (others q ne).trans (by rw [State.reach_svCh])⟩
  rw [(State.pairFault_judges _ c p).only.now]
  exact s.le_reach_now _

end

/-! ### Stops (R260) -/

/-- The lowest category 1 or 2 demand on arm `r` in channel `c`, an SSM fault being one of category 1; 3 for none. -/
def armBase (s : State) (c : Fin 2) (r : Fin 8) : Nat :=
  let d := svDemand s c fun f => bit f.arms r.val
  if ((s.svCh c).arm[r]).ssmFault then min d.1 1 else d.1

/-- A stop that is not at standstill within its time is escalated to category 0. -/
theorem SvStop.next_late {m : SvStop} {base t0 t tMax : Nat} {stand : Bool} (zero : Bool) (joints : List (Nat × Int)) (tol : Nat → Nat)
    (demanded : base < 3) (since : m.since = some t0) (moving : m.reached = false) (fast : stand = false) (late : t0 + tMax ≤ t) :
    (m.next base zero stand t tMax joints tol).1.cat = 0 ∧ (m.next base zero stand t tMax joints tol).1.esc = true := by
  have passed : tMax ≤ t - t0 := by omega
  rw [SvStop.next, if_neg (Nat.not_le.mpr demanded)]
  simp [since, moving, fast, passed]

section
variable (s : State) (c : Fin 2) (t : Nat)

/-- The stop of an arm as channel `c` decides it, and how it escalated. -/
def armNext (r : Fin 8) : SvStop × Option (Option Nat) :=
  let m := (s.svCh c).arm[r]
  m.stop.next (armBase s c r) ((svDemand s c fun f => bit f.arms r.val).2 || m.fault0 || m.posFault || m.scaleViol) m.stand t
    ((s.sv.cfgArm[r]).tStop.toNat * msNs) ((armJoints s r).map fun a => (a.val, (s.svCh c).pos[a]))
    fun a => (s.sv.cfgJoint[Fin.ofNat 64 a]).sosTol.toNat * 65536

/-- The stop of an auxiliary axis as channel `c` decides it. -/
def auxNext (j : Fin 16) : SvStop × Option (Option Nat) :=
  let x := s.sl.ax[Fin.ofNat 80 (64 + j.val)]
  let d := svDemand s c fun f => bit f.aux j.val
  (s.svCh c).aux[j].next d.1 (d.2 || (x.fbEn && (decide (x.conn.state ≠ .running) || x.lat.drvFault))) (auxStand s j) t (100 * msNs) []
    fun _ => 0

/-- The stop of an arm is all that its decision changes in Selvedge. -/
theorem State.svArmStop_sv (r : Fin 8) : (s.svArmStop c t r).sv = (s.modSvCh c fun h => { h with
    arm := upd h.arm r fun m => { m with stop := (armNext s c t r).1 } }).sv := by
  unfold State.svArmStop
  dsimp only
  split
  · rfl
  · rw [State.svRec_sv]
    rfl
  · rw [State.svRec_sv]
    rfl

/-- The stop of an auxiliary axis is all that its decision changes in Selvedge. -/
theorem State.svAuxStop_sv (j : Fin 16) : (s.svAuxStop c t j).sv = (s.modSvCh c fun h => { h with
    aux := upd h.aux j fun _ => (auxNext s c t j).1 }).sv := by
  unfold State.svAuxStop
  dsimp only
  split
  · rfl
  · rw [State.svRec_sv]
    rfl

theorem State.svCh_of_sv {s t : State} (same : t.sv = s.sv) (c : Fin 2) : t.svCh c = s.svCh c := by rw [State.svCh, same, State.svCh]

/-- What has been decided stands after it has been passed on (R260). -/
theorem State.svArmStop_stop (r : Fin 8) : (((s.svArmStop c t r).svPublish.ossdUpdate.svCh c).arm[r]).stop = (armNext s c t r).1 := by
  have passes := (s.svArmStop c t r).svPublish_passesOn.trans (State.ossdUpdate_passesOn _)
  rw [passes.svCh, State.svCh_of_sv (s.svArmStop_sv c t r), State.svCh_modSvCh, if_pos rfl]
  simp

theorem State.svAuxStop_stop (j : Fin 16) : ((s.svAuxStop c t j).svPublish.ossdUpdate.svCh c).aux[j] = (auxNext s c t j).1 := by
  have passes := (s.svAuxStop c t j).svPublish_passesOn.trans (State.ossdUpdate_passesOn _)
  rw [passes.svCh, State.svCh_of_sv (s.svAuxStop_sv c t j), State.svCh_modSvCh, if_pos rfl]
  simp

/-- Stops are decided without a change of the function entries. -/
theorem State.svStops_fn (d : Fin 2) : ((s.svStops c t).svCh d).fn = (s.svCh d).fn := by
  have channel {u v : State} {g : SvCh → SvCh} (same : v.sv = (u.modSvCh c g).sv) (keeps : ∀ h, (g h).fn = h.fn) :
      (v.svCh d).fn = (u.svCh d).fn := by
    rw [State.svCh_of_sv same, State.svCh_modSvCh]
    split
    · next here => rw [keeps, here]
    · rfl
  refine forEach_induct (fun u => (u.svCh d).fn = (s.svCh d).fn) _ _ (fun u j _ so => ?_) _
    (forEach_induct (fun u => (u.svCh d).fn = (s.svCh d).fn) _ _ (fun u r _ so => ?_) s rfl)
  · exact (channel (u.svAuxStop_sv c t j) fun _ => rfl).trans so
  · exact (channel (u.svArmStop_sv c t r) fun _ => rfl).trans so

end

/-! ### Light curtains (R258) -/

/-- The demand of an entry that changes is raised or lowered. -/
theorem State.setDemand_dem (s : State) (c : Fin 2) (i : Fin 32) (d : Bool) : (((s.setDemand c i d).svCh c).fn[i]).dem = d := by
  by_cases there : ((s.svCh c).fn[i]).dem = d
  · rw [State.setDemand, if_pos there, there]
  · rw [State.setDemand, if_neg there, State.svRec_svCh, State.svCh_modSvCh, if_pos rfl]
    simp

theorem State.svAgain_passesOn (s : State) (c : Fin 2) (t : Nat) : PassesOn (s.svStops c t) (s.svAgain c t) :=
  (State.svPublish_passesOn _).trans (State.ossdUpdate_passesOn _)

theorem lightCurtainTimeout_demands {s : State} {c : Fin 2} {i : Fin 32} {t0 : Nat} (sealed : (s.svCh c).state = .sealed)
    (off : ((s.svCh c).fn[i]).off = some t0) (inImage : i.val < s.sv.nfunc) (curtain : (s.sv.cfgFn[i]).type = 3#3)
    (calm : ((s.svCh c).fn[i]).dem = false) :
    ∃ t, exec (.lightCurtainTimeout c i) s = .next t ∧ ((t.svCh c).fn[i]).dem = true ∧ t0 + 1000000 ≤ t.now := by
  have ran : exec (.lightCurtainTimeout c i) s =
      let u := (s.reach (t0 + msNs)).setDemand c i true
      .next (u.svAgain c u.now) := by
    change execLightCurtainTimeout c i s = _
    rw [execLightCurtainTimeout, off]
    exact if_pos (by rw [calm, sealed, curtain]; simp [inImage])
  have demands := (s.reach (t0 + msNs)).setDemand_dem c i true
  have time := ((s.reach (t0 + msNs)).setDemand_judges c i true).only.now
  have late := s.le_reach_now (t0 + msNs)
  dsimp only at ran
  generalize (s.reach (t0 + msNs)).setDemand c i true = u at ran demands time
  have passes := u.svAgain_passesOn c u.now
  refine ⟨_, ran, ?_, ?_⟩
  · rw [passes.svCh, State.svStops_fn, demands]
  · rw [passes.now, (u.svStops_judges c u.now).only.now, time]
    exact late

/-! ### Stops that are late (R260) -/

/-- The instant at which a stop that began at `t0` is late. -/
def lateAt (s : State) (t0 lim : Nat) : Nat := max (s.reach (t0 + lim)).now (t0 + lim)

section
variable {s : State} {c : Fin 2} (sealed : (s.svCh c).state = .sealed) {t0 : Nat}
include sealed

theorem stopTimeout_arm {r : Fin 8} (since : ((s.svCh c).arm[r]).stop.since = some t0)
    (moving : ((s.svCh c).arm[r]).stop.reached = false) (fresh : ((s.svCh c).arm[r]).stop.esc = false) :
    let lim := (s.sv.cfgArm[r]).tStop.toNat * msNs
    exec (.stopTimeout c r.val) s = .next ((s.reach (t0 + lim)).svArmStop c (lateAt s t0 lim) r).svPublish.ossdUpdate := by
  change execStopTimeout c r.val s = _
  unfold execStopTimeout
  simp only [Fin.getElem_fin] at since moving fresh
  simp [r.isLt, since, moving, fresh, sealed, lateAt]

theorem stopTimeout_aux {j : Fin 16} (since : ((s.svCh c).aux[j]).since = some t0)
    (moving : ((s.svCh c).aux[j]).reached = false) (fresh : ((s.svCh c).aux[j]).esc = false) :
    let lim := 100 * msNs
    exec (.stopTimeout c (64 + j.val)) s = .next ((s.reach (t0 + lim)).svAuxStop c (lateAt s t0 lim) j).svPublish.ossdUpdate := by
  have notArm : ¬64 + j.val < 8 := by omega
  have axis : 64 + j.val < 80 := by omega
  change execStopTimeout c (64 + j.val) s = _
  unfold execStopTimeout
  simp only [Fin.getElem_fin] at since moving fresh
  simp [notArm, axis, since, moving, fresh, sealed, lateAt]

theorem stopTimeout_arm_escalates {r : Fin 8} (since : ((s.svCh c).arm[r]).stop.since = some t0)
    (moving : ((s.svCh c).arm[r]).stop.reached = false) (fresh : ((s.svCh c).arm[r]).stop.esc = false)
    (fast : ((s.svCh c).arm[r]).stand = false)
    (demanded : ((s.svCh c).arm[r]).ssmFault = true ∨ (svDemand s c fun f => f.arms.getLsbD r.val).1 < 3) :
    ∃ t, exec (.stopTimeout c r.val) s = .next t ∧ ((t.svCh c).arm[r]).stop.cat = 0 ∧ ((t.svCh c).arm[r]).stop.esc = true := by
  have ran := stopTimeout_arm sealed since moving fresh
  have base : armBase s c r < 3 := by
    unfold armBase
    rcases demanded with fault | demand
    · rw [fault]
      exact (min_le_right _ _).trans_lt (by decide)
    · dsimp only
      split
      · exact (min_le_left _ _).trans_lt demand
      · exact demand
  dsimp only at ran
  rw [State.reach_eq] at ran
  refine ⟨_, ran, ?_⟩
  rw [State.svArmStop_stop]
  exact SvStop.next_late _ _ _ base since moving fast (le_max_right _ _)

theorem stopTimeout_aux_escalates {j : Fin 16} (since : ((s.svCh c).aux[j]).since = some t0)
    (moving : ((s.svCh c).aux[j]).reached = false) (fresh : ((s.svCh c).aux[j]).esc = false)
    (demanded : (svDemand s c fun f => f.aux.getLsbD j.val).1 < 3) (fast : ∀ tt, auxStand { s with tb.timeFix := tt } j = false) :
    ∃ t, exec (.stopTimeout c (64 + j.val)) s = .next t ∧ ((t.svCh c).aux[j]).cat = 0 ∧ ((t.svCh c).aux[j]).esc = true := by
  have ran := stopTimeout_aux sealed since moving fresh
  dsimp only at ran
  rw [State.reach_eq] at ran
  refine ⟨_, ran, ?_⟩
  rw [State.svAuxStop_stop]
  exact SvStop.next_late _ [] (fun _ => 0) demanded since moving (fast _) (le_max_right _ _)

end

/-! ### Watchdogs (R303) -/

theorem connOf_num (k : ConnId) : connOf k.num = some k := by
  cases k with
  | fb a =>
    have low : 80 ≤ 80 + a.val ∧ 80 + a.val < 160 := by omega
    simp [connOf, ConnId.num, low]
  | sens i =>
    have above : ¬160 + i.val < 160 := by omega
    have inside : 160 ≤ 160 + i.val ∧ 160 + i.val < 168 := by omega
    simp [connOf, ConnId.num, above, inside]

theorem State.conn_modConn_same (s : State) (k : ConnId) (g : SlConn → SlConn) : (s.modConn k g).conn k = g (s.conn k) := by
  cases k <;> simp [State.modConn, State.conn]

theorem State.conn_modConn_ne (s : State) {j k : ConnId} (g : SlConn → SlConn) (ne : j ≠ k) : (s.modConn k g).conn j = s.conn j := by
  cases k with
  | fb a =>
    cases j with
    | fb b =>
      have other : a.val ≠ b.val := fun same => ne (congrArg _ (Fin.ext same.symm))
      simp [State.modConn, State.conn, upd_get_ne _ _ _ _ _ other]
    | sens i => rfl
  | sens i =>
    cases j with
    | fb b => rfl
    | sens l =>
      have other : i.val ≠ l.val := fun same => ne (congrArg _ (Fin.ext same.symm))
      simp [State.modConn, State.conn, upd_get_ne _ _ _ _ _ other]

theorem State.conn_of_sl {s t : State} (same : t.sl = s.sl) (k : ConnId) : t.conn k = s.conn k := by
  cases k <;> rw [State.conn, State.conn, same]

theorem State.slRec_conn (s : State) (code : BitVec 12) (w : BitVec 32) (k : ConnId) : (s.slRec code w).conn k = s.conn k := by
  have first := (s.svRec_judges 0 code [w]).only
  have second := (State.svRec_judges (s.svRec 0 code [w]) 1 code [w]).only
  refine State.conn_of_sl ?_ k
  rw [State.slRec, first.trans second]

theorem State.slRec_now (s : State) (code : BitVec 12) (w : BitVec 32) : (s.slRec code w).now = s.now :=
  ((s.svRec_judges 0 code [w]).only.trans (State.svRec_judges _ 1 code [w]).only).now

/-- Sensor `i` has no frame in assembly any more. -/
theorem State.clearAsm_conn (s : State) (i : Fin 8) (k : ConnId) :
    ({ s with sl.sens := upd s.sl.sens i fun x => { x with asm := none } } : State).conn k = s.conn k := by
  cases k with
  | fb a => rfl
  | sens j =>
    simp only [State.conn, Fin.getElem_fin, upd_get]
    split
    · next here => simp only [here]
    · rfl

/-- A frame that is given up leaves every connection, and cell time (R305). -/
theorem State.asmDrop_spares (s : State) (i : Fin 8) : (∀ k, (s.asmDrop i).conn k = s.conn k) ∧ (s.asmDrop i).now = s.now := by
  unfold State.asmDrop
  split
  · exact ⟨fun _ => rfl, rfl⟩
  · dsimp only
    split
    · exact ⟨fun k => (State.clearAsm_conn _ i k).trans (State.conn_of_sl rfl k), rfl⟩
    · exact ⟨fun k => State.clearAsm_conn s i k, rfl⟩

/-- The connection is EXPIRED, and in WAIT in the same check (R303). -/
def State.expireConn (s : State) (k : ConnId) : State :=
  s.modConn k fun q => { q with expired := satInc q.expired, state := .wait, run := 0, last := none }

/-- A sensor's frame in assembly is given up with its connection (R305). -/
def State.giveUp (s : State) : ConnId → State
  | .sens i => s.asmDrop i
  | .fb _ => s

theorem State.giveUp_spares (s : State) (k : ConnId) : (∀ j, (s.giveUp k).conn j = s.conn j) ∧ (s.giveUp k).now = s.now := by
  cases k with
  | fb a => exact ⟨fun _ => rfl, rfl⟩
  | sens i => exact s.asmDrop_spares i

theorem State.expireConn_now (s : State) (k : ConnId) : (s.expireConn k).now = s.now := by cases k <;> rfl

theorem wdExpire_gives {k : ConnId} {s : State} {t0 : Nat} (pd1 : (s.domain 1).up = true) (last : (s.conn k).last = some t0) :
    exec (.wdExpire k.num) s =
      .next ((((s.reach (t0 + 1000 * s.connWd k + 1)).expireConn k).slRec 0x011#12 (nat32 k.num 0)).giveUp k) := by
  change execWdExpire k.num s = _
  rw [execWdExpire, connOf_num]
  dsimp only
  rw [last]
  refine (ite_not_of_true pd1).trans ?_
  rw [State.expireConn]
  generalize State.slRec _ _ _ = u
  cases k <;> rfl

/-- A connection whose watchdog has run out is counted and waits, and no other connection changes (R303). -/
theorem wdExpire_waits {k : ConnId} {s : State} {t0 : Nat} (pd1 : (s.domain 1).up = true) (last : (s.conn k).last = some t0) :
    ∃ t, exec (.wdExpire k.num) s = .next t ∧ (t.conn k).state = .wait ∧ (t.conn k).last = none ∧
      (t.conn k).expired = satInc (s.conn k).expired ∧ t0 + 1000 * s.connWd k < t.now ∧ ∀ j, j ≠ k → t.conn j = s.conn j := by
  have time := s.le_reach_now (t0 + 1000 * s.connWd k + 1)
  have reached (j : ConnId) : (s.reach (t0 + 1000 * s.connWd k + 1)).conn j = s.conn j := by
    rw [State.reach_eq]
    exact State.conn_of_sl rfl j
  have ran := wdExpire_gives pd1 last
  generalize s.reach _ = u at ran time reached
  obtain ⟨conn, now⟩ := ((u.expireConn k).slRec 0x011#12 (nat32 k.num 0)).giveUp_spares k
  generalize State.giveUp _ k = t at ran conn now
  have ends (j : ConnId) : t.conn j = (u.expireConn k).conn j := (conn j).trans (State.slRec_conn _ _ _ j)
  have expired : t.conn k = { s.conn k with expired := satInc (s.conn k).expired, state := .wait, run := 0, last := none } := by
    rw [ends, State.expireConn, State.conn_modConn_same, reached]
  refine ⟨t, ran, by rw [expired], by rw [expired], by rw [expired], ?_, fun j ne => ?_⟩
  · rw [now, State.slRec_now, State.expireConn_now]
    exact time
  · rw [ends, State.expireConn, State.conn_modConn_ne _ _ ne, reached]

/-- Settles O43: an evaluation of both channels, the timeouts between evaluations, and the watchdog of a connection. -/
theorem evaluationsDecide : Obligations.EvaluationsDecide := by
  refine ⟨fun s => selvedgeEvaluation_shows, fun c s sealed => ⟨fun p f t0 => ?_, fun i t0 => ?_, fun r t0 => ?_, fun j t0 => ?_⟩,
    fun k s t0 => wdExpire_waits⟩
  · exact pairDiscrepancyTimeout_latches sealed
  · exact lightCurtainTimeout_demands sealed
  · exact stopTimeout_arm_escalates sealed
  · exact stopTimeout_aux_escalates sealed

end Sys2Proof.Machine
end

section
/-! SUPPORT. A fault of the safety I/O block: what its records, the device fault and the mute of a pair leave, and that every OSSD opens
and every channel that works comes to FAULT (R268, R286, R380). -/
namespace Sys2Proof.Machine

/-! ### Records of the safety island -/

/-- Only the recorder, memory, and what interrupts put out have changed. -/
def RecordsOnly (s t : State) : Prop := t = { s with er := t.er, mem := t.mem, hi := t.hi, out := t.out }

section
variable {s t u : State}

theorem RecordsOnly.trans (first : RecordsOnly s t) (second : RecordsOnly t u) : RecordsOnly s u := by
  unfold RecordsOnly at *
  rw [second, first]

theorem RecordsOnly.forEach {α : Type} {l : List α} {g : State → α → State} (each : ∀ t x, RecordsOnly t (g t x)) (s : State) :
    RecordsOnly s (s.forEach l g) :=
  forEach_induct (RecordsOnly s) l g (fun t x _ so => so.trans (each t x)) s rfl

theorem RecordsOnly.evalOnly (only : RecordsOnly s t) : EvalOnly s t := by
  unfold RecordsOnly at only
  rw [only]
  rfl

theorem RecordsOnly.svCh (only : RecordsOnly s t) (c : Fin 2) : t.svCh c = s.svCh c := by
  rw [only]
  rfl

theorem State.svRec_records (s : State) (c : Fin 2) (code : BitVec 12) (p : List (BitVec 32)) : RecordsOnly s (s.svRec c code p) := by
  obtain ⟨er, mem, pba, out, records, -⟩ := s.svRec_frame c code p
  rw [records]
  rfl

theorem State.sioRec_records (s : State) (h : Fin 2) (code : BitVec 12) (w : BitVec 32) : RecordsOnly s (s.sioRec h code w) := by
  rw [State.sioRec, State.emitSafe]
  generalize Rec.mk _ _ _ = r
  obtain ⟨er, pba, out, stages⟩ := (s.logSafety (decide (h = 1)) r).stage_frame r
  rw [stages]
  rfl

/-! ### The recovery window (R268) -/

/-- No recovery window is open, and the device is not in SAFE_HOLD. -/
def Calm (s : State) : Prop := windowOf s = none ∧ s.pw.state ≠ .safeHold

theorem EvalOnly.calm (only : EvalOnly s t) (calm : Calm s) : Calm t := by
  rw [only]
  exact calm

/-- The first device fault opens a window; Selvedge's channels and the switches stay as they are. -/
theorem State.deviceFault_of_calm (calm : Calm s) (f : Nat × BitVec 12) :
    ∃ pr out, s.deviceFault f = { s with sv.first := some f, pr := pr, out := out } := by
  obtain ⟨shut, awake⟩ := calm
  rw [State.deviceFault, if_neg awake, shut]
  dsimp only
  split
  · unfold State.pairCtl
    split <;> exact ⟨_, _, rfl⟩
  · exact ⟨_, _, rfl⟩

theorem State.pairMute_frame (s : State) : ∃ pr sw out, s.pairMute = { s with pr := pr, sw := sw, out := out } := by
  unfold State.pairMute
  split
  · unfold State.alvLow
    split <;> exact ⟨_, _, _, rfl⟩
  · exact ⟨_, _, _, rfl⟩

/-! ### Channels that a fault of the block brings to FAULT (R267, R286) -/

/-- The channel works: it is in SELFTEST, UNSEALED or SEALED (R247). -/
def SvState.works (x : SvState) : Prop := x = .selftest ∨ x = .unsealed ∨ x = .sealed

/-- A channel that works enters FAULT and records it. -/
def State.failCh (s : State) (c : Fin 2) : State :=
  let st := (s.svCh c).state
  if st = .off || st = .fault || st = .safeHold then s
  else (s.modSvCh c fun h => { h with state := .fault }).svRec c 0x00C#12 [9#32]

theorem State.failCh_evalOnly (s : State) (c : Fin 2) : EvalOnly s (s.failCh c) := by
  unfold State.failCh
  dsimp only
  split
  · rfl
  · exact EvalOnly.trans (t := s.modSvCh c fun h => { h with state := .fault }) rfl (State.svRec_records _ c _ _).evalOnly

theorem State.failCh_same {c : Fin 2} (works : (s.svCh c).state.works) : ((s.failCh c).svCh c).state = .fault := by
  rw [State.failCh, if_neg (by rcases works with st | st | st <;> simp [st]), (State.svRec_records _ c _ _).svCh, State.svCh_modSvCh,
    if_pos rfl]

theorem State.failCh_other {c d : Fin 2} (ne : c ≠ d) : (s.failCh c).svCh d = s.svCh d := by
  unfold State.failCh
  dsimp only
  split
  · rfl
  · rw [(State.svRec_records _ c _ _).svCh, State.svCh_modSvCh, if_neg ne]

/-- Both channels fail, one after the other. -/
theorem State.failCh_both {c : Fin 2} (works : (s.svCh c).state.works) : (((s.failCh 0).failCh 1).svCh c).state = .fault := by
  match c with
  | 0 => rw [State.failCh_other (by decide), State.failCh_same works]
  | 1 => exact State.failCh_same (by rwa [State.failCh_other (by decide)])

/-! ### Switches that both channels open (R261, R286) -/

theorem Ossd.openOne_fault (o : Ossd) (c : Fin 2) (t : Nat) : (o.openOne c t).fault = o.fault := by
  unfold Ossd.openOne
  split
  · rfl
  · dsimp only [Ossd.settle]
    split <;> rfl

/-- An OSSD whose switches channel A and then channel B open. -/
def Ossd.opened (o : Ossd) (t : Nat) : Ossd := (o.openOne 0 t).openOne 1 t

theorem Ossd.opened_off (o : Ossd) (t : Nat) : (o.opened t).high = false ∧ (o.opened t).low = false :=
  ⟨Ossd.openOne_high_of_open (o.openOne_high t) t, Ossd.openOne_low _ t⟩

theorem Ossd.opened_fault (o : Ossd) (t : Nat) : (o.opened t).fault = o.fault := by
  rw [Ossd.opened, Ossd.openOne_fault, Ossd.openOne_fault]

theorem State.ossdOpenCh_both (s : State) (k : Fin 8) : ((s.ossdOpenCh 0).ossdOpenCh 1).sio.ossd[k] = (s.sio.ossd[k]).opened s.now := by
  simp only [State.ossdOpenCh, State.modSio_sio, Fin.getElem_fin, Vector.getElem_map]
  rfl

/-! ### The device fault of the block (R286) -/

theorem State.ossdDeviceFault_eq (s : State) : s.ossdDeviceFault =
    svWatch s (((((s.failCh 0).failCh 1).deviceFault (16, 0x003#12)).ossdOpenCh 0).ossdOpenCh 1).svPublish.pairMute := rfl

/-- The end of a fault of the island: what is published, muted and watched leaves the channels and the switches. -/
theorem svWatch_svPublish_pairMute (s u : State) :
    (svWatch s u.svPublish.pairMute).sio = u.sio ∧ ∀ c, (svWatch s u.svPublish.pairMute).svCh c = u.svCh c := by
  obtain ⟨hi, out, watched⟩ := svWatch_frame s u.svPublish.pairMute
  have sio := u.svPublish_sio
  have channels := u.svPublish_passesOn.svCh
  obtain ⟨pr, sw, put, mutes⟩ := u.svPublish.pairMute_frame
  rw [watched, mutes]
  generalize u.svPublish = v at sio channels
  exact ⟨sio, channels⟩

theorem State.ossdDeviceFault_opens (calm : Calm s) :
    (∀ k : Fin 8, s.ossdDeviceFault.sio.ossd[k] = (s.sio.ossd[k]).opened s.now) ∧
      ∀ c, (s.svCh c).state.works → (s.ossdDeviceFault.svCh c).state = .fault := by
  have only := (s.failCh_evalOnly 0).trans (State.failCh_evalOnly _ 1)
  obtain ⟨pr, out, faults⟩ := State.deviceFault_of_calm (only.calm calm) (16, 0x003#12)
  have failed (c : Fin 2) := s.failCh_both (c := c)
  rw [State.ossdDeviceFault_eq, faults]
  generalize (s.failCh 0).failCh 1 = u at only failed
  obtain ⟨sio, channels⟩ := svWatch_svPublish_pairMute s
    ((({ u with sv.first := some (16, 0x003#12), pr := pr, out := out } : State).ossdOpenCh 0).ossdOpenCh 1)
  refine ⟨fun k => ?_, fun c works => ?_⟩
  · rw [sio, State.ossdOpenCh_both, ← only.sio, ← only.now]
    rfl
  · rw [channels]
    exact failed c works

/-! ### An OSSD fault (R282, R284 to R286) -/

/-- From `s` to `t` the OSSD has faulted: every switch is open, and every channel that worked is in FAULT. -/
def OssdFaulted (n : Fin 8) (s t : State) : Prop :=
  (t.sio.ossd[n]).fault = true ∧ (∀ k : Fin 8, (t.sio.ossd[k]).high = false ∧ (t.sio.ossd[k]).low = false) ∧
    ∀ c, (s.svCh c).state.works → (t.svCh c).state = .fault

theorem State.ossdFault_faulted (calm : Calm s) (n : Fin 8) (cause : Nat) (halves : List (Fin 2)) :
    OssdFaulted n s (s.ossdFault n cause halves) := by
  unfold State.ossdFault
  extract_lets o s1
  have recorded : RecordsOnly s1 (s1.forEach halves fun s h =>
      s.sioRec h 0x003#12 (nat32 n.val 0 ||| nat32 cause 8 ||| bitAt (o.p[h]) 12 ||| bitAt (o.n[h]) 13)) :=
    .forEach (fun t h => t.sioRec_records h _ _) s1
  generalize s1.forEach halves _ = u at recorded
  have atFault : (s1.sio.ossd[n]).fault = true := by simp [s1]
  obtain ⟨opens, fails⟩ := State.ossdDeviceFault_opens (recorded.evalOnly.calm (s := s1) calm)
  refine ⟨?_, fun k => ?_, fun c works => fails c ?_⟩
  · rw [opens, Ossd.opened_fault, recorded.evalOnly.sio, atFault]
  · rw [opens]
    exact Ossd.opened_off _ _
  · rw [recorded.svCh]
    exact works

end

end Sys2Proof.Machine
end

section
/-! SUPPORT. The checks of a switch-on sequence, the static check and the dark tests (R281 to R285), and O45. -/
namespace Sys2Proof.Machine

section
variable {n : Fin 8} {s : State}

theorem mem_liveHalves {h : Fin 2} : h ∈ liveHalves s ↔ (s.sio.half[h]).ioLow = false := by simp [liveHalves, fins]

/-- No half with its I/O supply objects. -/
theorem liveHalves_filter_isEmpty {bad : Fin 2 → Bool} :
    ((liveHalves s).filter bad).isEmpty = true ↔ ∀ h : Fin 2, (s.sio.half[h]).ioLow = false → bad h = false := by
  rw [List.isEmpty_iff, List.filter_eq_nil_iff]
  refine ⟨fun none h live => ?_, fun none h member => ?_⟩
  · exact eq_false_of_ne_true (none h (mem_liveHalves.mpr live))
  · exact ne_true_of_eq_false (none h (mem_liveHalves.mp member))

theorem State.ossd_modOssd_same (s : State) (n : Fin 8) (g : Ossd → Ossd) : (s.modOssd n g).sio.ossd[n] = g (s.sio.ossd[n]) :=
  upd_get_same _ _ _

theorem State.ossd_modOssd_ne (s : State) {n k : Fin 8} (g : Ossd → Ossd) (ne : k ≠ n) :
    (s.modOssd n g).sio.ossd[k] = s.sio.ossd[k] :=
  upd_get_ne _ _ _ _ _ (Fin.val_ne_of_ne ne.symm)

theorem State.modOssd_modOssd (s : State) (n : Fin 8) (f g : Ossd → Ossd) :
    (s.modOssd n f).modOssd n g = s.modOssd n fun o => g (f o) := by
  simp only [State.modOssd, State.modSio, upd_upd]

/-- The readings of one OSSD leave the window and the channels. -/
theorem State.read_faulted (calm : Calm s) (g : Ossd → Ossd) (cause : Nat) (halves : List (Fin 2)) :
    OssdFaulted n s ((s.modOssd n g).ossdFault n cause halves) :=
  State.ossdFault_faulted (s := s.modOssd n g) calm n cause halves

/-- The same for readings at a later cell time. -/
theorem State.readLater_faulted (calm : Calm s) (e : Nat) (g : Ossd → Ossd) (cause : Nat) (halves : List (Fin 2)) :
    OssdFaulted n s (((s.reach e).modOssd n g).ossdFault n cause halves) := by
  have still : Calm (s.reach e) := by
    rw [State.reach_eq]
    exact calm
  obtain ⟨fault, opens, fails⟩ := State.read_faulted (n := n) still g cause halves
  exact ⟨fault, opens, fun c works => fails c (by rwa [State.reach_svCh])⟩

/-! ### The switch-on sequence (R282, R432) -/

section
variable {p q : Vector Bool 2}

/-- The low side closes, which counts as a switch-on. -/
def State.closeLow (s : State) (n : Fin 8) : State :=
  { s.modOssd n fun o => Ossd.settle { o with phase := .low, low := true, changed := s.now } with
    hw.cnt := updN s.hw.cnt (n.val + 1) satInc }

/-- The readings give way to the levels of the new state (R281). -/
theorem State.closeLow_read (s : State) (n : Fin 8) (p q : Vector Bool 2) :
    (let s1 := s.modOssd n fun o => { o with p := p, n := q }
     let s2 := s1.modOssd n fun o => Ossd.settle { o with phase := .low, low := true, changed := s1.now }
     { s2 with hw.cnt := updN s2.hw.cnt (n.val + 1) satInc }) = s.closeLow n := by
  dsimp only
  rw [State.modOssd_modOssd]
  rfl

/-- R282: a check that both terminals pass in every half is followed by the low side. -/
theorem ossdHighSideCheck_closes (high : (s.sio.ossd[n]).phase = .high)
    (good : ∀ h : Fin 2, (s.sio.half[h]).ioLow = false → p[h] = true ∧ q[h] = true) :
    exec (.ossdHighSideCheck n p q) s = .next ((s.reach ((s.sio.ossd[n]).changed + 100000)).closeLow n) := by
  have none : ((liveHalves s).filter fun h => !p[h] || !q[h]).isEmpty = true := liveHalves_filter_isEmpty.mpr fun h live => by
    obtain ⟨highP, highN⟩ := good h live
    rw [highP, highN]
    rfl
  exact (if_neg (not_not.mpr high)).trans ((if_pos none).trans (congrArg _ (State.closeLow_read _ n p q)))

theorem ossdHighSideCheck_shows (high : (s.sio.ossd[n]).phase = .high)
    (good : ∀ h : Fin 2, (s.sio.half[h]).ioLow = false → p[h] = true ∧ q[h] = true) :
    ∃ t, exec (.ossdHighSideCheck n p q) s = .next t ∧ (t.sio.ossd[n]).phase = .low ∧ (t.sio.ossd[n]).low = true ∧
      (t.sio.ossd[n]).high = (s.sio.ossd[n]).high ∧ (s.sio.ossd[n]).changed + 100000 ≤ t.now ∧
      (∀ k : Fin 8, k ≠ n → t.sio.ossd[k] = s.sio.ossd[k]) ∧
      t.hw = { s.hw with cnt := updN s.hw.cnt (n.val + 1) satInc } ∧ { t with tb := s.tb, sio := s.sio, hw := s.hw } = s := by
  have time := s.le_reach_now ((s.sio.ossd[n]).changed + 100000)
  have ran := ossdHighSideCheck_closes high good
  rw [State.reach_eq] at time ran
  refine ⟨_, ran, ?_, ?_, ?_, time, fun k ne => State.ossd_modOssd_ne _ _ ne, rfl, rfl⟩
  · exact congrArg Ossd.phase (State.ossd_modOssd_same _ n _)
  · exact congrArg Ossd.low (State.ossd_modOssd_same _ n _)
  · exact (congrArg Ossd.high (State.ossd_modOssd_same _ n _)).trans rfl

/-- R282: the sequence ends with nothing more switched. -/
theorem ossdLowSideCheck_ends (low : (s.sio.ossd[n]).phase = .low)
    (good : ∀ h : Fin 2, (s.sio.half[h]).ioLow = false → q[h] = false) :
    exec (.ossdLowSideCheck n p q) s = .next ((s.reach ((s.sio.ossd[n]).changed + 100000)).modOssd n fun o =>
      Ossd.settle { o with phase := .on }) := by
  refine (if_neg (not_not.mpr low)).trans ((if_pos (liveHalves_filter_isEmpty.mpr good)).trans ?_)
  rw [State.modOssd_modOssd]
  generalize s.reach _ = s1
  rfl

theorem ossdLowSideCheck_shows (low : (s.sio.ossd[n]).phase = .low)
    (good : ∀ h : Fin 2, (s.sio.half[h]).ioLow = false → q[h] = false) :
    ∃ t, exec (.ossdLowSideCheck n p q) s = .next t ∧ (t.sio.ossd[n]).phase = .on ∧ (t.sio.ossd[n]).low = (s.sio.ossd[n]).low ∧
      (t.sio.ossd[n]).high = (s.sio.ossd[n]).high ∧ (∀ k : Fin 8, k ≠ n → t.sio.ossd[k] = s.sio.ossd[k]) ∧
      { t with tb := s.tb, sio := s.sio } = s := by
  have ran := ossdLowSideCheck_ends (p := p) low good
  rw [State.reach_eq] at ran
  refine ⟨_, ran, ?_, ?_, ?_, fun k ne => State.ossd_modOssd_ne _ _ ne, rfl⟩
  · exact congrArg Ossd.phase (State.ossd_modOssd_same _ n _)
  · exact (congrArg Ossd.low (State.ossd_modOssd_same _ n _)).trans rfl
  · exact (congrArg Ossd.high (State.ossd_modOssd_same _ n _)).trans rfl

theorem ossdHighSideCheck_faults (calm : Calm s) (high : (s.sio.ossd[n]).phase = .high)
    (low : ∃ h : Fin 2, (s.sio.half[h]).ioLow = false ∧ (p[h] = false ∨ q[h] = false)) :
    ∃ t, exec (.ossdHighSideCheck n p q) s = .next t ∧ OssdFaulted n s t := by
  obtain ⟨h, live, reads⟩ := low
  have found : ¬((liveHalves s).filter fun h => !p[h] || !q[h]).isEmpty = true := fun none => by
    have good := liveHalves_filter_isEmpty.mp none h live
    rcases reads with off | off <;> simp [off] at good
  exact ⟨_, (if_neg (not_not.mpr high)).trans (if_neg found), State.readLater_faulted calm _ _ 0 _⟩

theorem ossdLowSideCheck_faults (calm : Calm s) (low : (s.sio.ossd[n]).phase = .low)
    (closed : ∃ h : Fin 2, (s.sio.half[h]).ioLow = false ∧ q[h] = true) :
    ∃ t, exec (.ossdLowSideCheck n p q) s = .next t ∧ OssdFaulted n s t := by
  obtain ⟨h, live, reads⟩ := closed
  have found : ¬((liveHalves s).filter fun h => q[h]).isEmpty = true := fun none =>
    ne_true_of_eq_false (liveHalves_filter_isEmpty.mp none h live) reads
  exact ⟨_, (if_neg (not_not.mpr low)).trans (if_neg found), State.readLater_faulted calm _ _ 0 _⟩

end

/-! ### The static check (R281, R284) -/

section
variable {h : Fin 2} {p q : Bool}

/-- OSSD_P differs, or OSSD_N differs while the high side is closed, so that no partner's sequence suspends its check. -/
theorem ossdMismatch_of_differs
    (differs : p ≠ (s.sio.ossd[n]).high ∨ (q ≠ ((s.sio.ossd[n]).high && !(s.sio.ossd[n]).low) ∧ (s.sio.ossd[n]).high = true)) :
    ossdMismatch s n p q = true := by
  unfold ossdMismatch
  dsimp only
  rcases differs with differs | ⟨differs, closed⟩
  · rw [bne_iff_ne.mpr differs, Bool.true_or]
  · rw [bne_iff_ne.mpr differs, closed]
    exact Bool.or_true _

theorem ossdMismatchFault_faults (calm : Calm s) (sound : (s.sio.ossd[n]).fault = false)
    (rests : (s.sio.ossd[n]).phase = .opened ∨ (s.sio.ossd[n]).phase = .on) (light : (s.sio.ossd[n]).dark = none)
    (live : (s.sio.half[h]).ioLow = false) (up : (s.domain (chDomain h)).up = true)
    (differs : p ≠ (s.sio.ossd[n]).high ∨ (q ≠ ((s.sio.ossd[n]).high && !(s.sio.ossd[n]).low) ∧ (s.sio.ossd[n]).high = true)) :
    ∃ t, exec (.ossdMismatchFault n h p q) s = .next t ∧ OssdFaulted n s t := by
  have mismatch := ossdMismatch_of_differs differs
  refine ⟨_, if_neg ?_, State.readLater_faulted calm _ _ 1 _⟩
  rcases rests with rests | rests <;> simp [-Fin.getElem_fin, sound, rests, light, live, up, mismatch]

/-! ### Dark tests (R285) -/

theorem darkTestStart_opens (on : (s.sio.ossd[n]).phase = .on) (light : (s.sio.ossd[n]).dark = none)
    (sound : (s.sio.ossd[n]).fault = false) (sealed : (s.svCh h).state = .sealed) :
    exec (.darkTestStart n h) s = .next { s with sio.ossd := upd s.sio.ossd n fun x =>
      if h = 0 then { x with high := false, dark := some false } else { x with low := false, dark := some true } } :=
  if_neg (by simp [-Fin.getElem_fin, on, light, sound, sealed])

section
variable (tested : (s.sio.ossd[n]).dark = some (decide (h = 1)))
include tested

theorem darkTestPass_high (high : h = 0) (off : p = false) : exec (.darkTestPass n h p q) s = .next { s with sio := { s.sio with
    ossd := upd s.sio.ossd n fun x => { x with high := true, dark := none }, darkHigh := satInc s.sio.darkHigh } } := by
  subst off
  change execDarkTestPass n h false q s = _
  rw [execDarkTestPass, if_neg (not_not.mpr tested), if_pos high]
  rfl

theorem darkTestPass_low (low : h = 1) (on : q = true) : exec (.darkTestPass n h p q) s = .next { s with sio := { s.sio with
    ossd := upd s.sio.ossd n fun x => { x with low := true, dark := none }, darkLow := satInc s.sio.darkLow } } := by
  subst low on
  change execDarkTestPass n 1 p true s = _
  rw [execDarkTestPass, if_neg (not_not.mpr tested), if_neg (by decide)]
  rfl

theorem darkTestTimeout_faults (calm : Calm s) : ∃ t, exec (.darkTestTimeout n h p q) s = .next t ∧ OssdFaulted n s t :=
  ⟨_, if_neg (not_not.mpr tested), State.read_faulted calm _ (2 + h.val) _⟩

end

end

end

/-- Settles O45: the two checks of the sequence, the static check, and the dark tests. -/
theorem switchesAreChecked : Obligations.SwitchesAreChecked := by
  refine fun n s => ⟨fun p q => ⟨?_, ?_, ?_, ?_⟩, fun h p q => ⟨?_, ?_, fun tested => ⟨?_, ?_, ?_⟩⟩⟩
  · exact ossdHighSideCheck_shows
  · exact ossdLowSideCheck_shows
  · exact ossdHighSideCheck_faults
  · exact ossdLowSideCheck_faults
  · exact ossdMismatchFault_faults
  · exact darkTestStart_opens
  · exact darkTestPass_high tested
  · exact darkTestPass_low tested
  · exact darkTestTimeout_faults tested

end Sys2Proof.Machine
end

section
/-! SUPPORT. The ports of the switch: what bringing a port's credits to the present, discarding a late frame and queueing a frame leave
(R312, R315, R316). -/
namespace Sys2Proof.Machine

theorem swRuns_domain {s : State} (runs : swRuns s = true) : s.domain 10 = .run := by
  simp only [swRuns, Bool.and_eq_true, decide_eq_true_eq] at runs
  exact runs.2

theorem swRuns_up {s : State} (runs : swRuns s = true) : (s.domain 10).up = true := by
  rw [swRuns_domain runs]
  rfl

theorem extPort_ne_seven (p : Fin 6) : extPort p ≠ 7 := fun same => absurd (congrArg Fin.val same) (show p.val ≠ 7 by omega)

/-! ### Changes of one port -/

section
variable (s : State) (p : Fin 8)

theorem State.port_modPort_same (g : Port → Port) : (s.modPort p g).sw.port[p] = g s.sw.port[p] := upd_get_same _ _ _

theorem State.port_modPort_ne {i : Fin 8} (g : Port → Port) (ne : i ≠ p) : (s.modPort p g).sw.port[i] = s.sw.port[i] :=
  upd_get_ne _ _ _ _ _ fun same => ne (Fin.ext same.symm)

theorem State.modPort_modPort (f g : Port → Port) : (s.modPort p f).modPort p g = s.modPort p fun t => g (f t) := by
  simp only [State.modPort, upd_upd]

end

/-- Entry `i` of a table in which it was replaced, and another entry. -/
theorem upd_at {α : Type} {n : Nat} (v : Vector α n) (i : Fin n) (g : α → α) : (upd v i g)[i] = g v[i] := upd_get_same _ _ _

theorem upd_beside {α : Type} {n : Nat} (v : Vector α n) {i j : Fin n} (g : α → α) (ne : j ≠ i) : (upd v i g)[j] = v[j] :=
  upd_get_ne _ _ _ _ _ fun same => ne (Fin.ext same.symm)

/-! ### Credits (R315) -/

/-- Bringing the credits of a port to the present changes the credits and the time up to which they count. -/
theorem Port.credits_frame (t : Port) (now : Nat) : ∃ credit at', t.credits now = { t with credit := credit, creditAt := at' } := by
  unfold Port.credits
  dsimp only
  split
  · exact ⟨_, _, rfl⟩
  split
  · split <;> exact ⟨_, _, rfl⟩
  · split <;> exact ⟨_, _, rfl⟩

@[simp] theorem Port.credits_q (t : Port) (now : Nat) : (t.credits now).q = t.q := by
  obtain ⟨_, _, counts⟩ := t.credits_frame now
  rw [counts]

@[simp] theorem Port.credits_cnt (t : Port) (now : Nat) : (t.credits now).cnt = t.cnt := by
  obtain ⟨_, _, counts⟩ := t.credits_frame now
  rw [counts]

theorem State.port_cbsNow_same (s : State) (p : Fin 8) : (s.cbsNow p).sw.port[p] = (s.sw.port[p]).credits s.tb.timeFix :=
  s.port_modPort_same p _

/-- The end of a port's transmission and its count of frames sent are as before. -/
def Port.SendsAs (t u : Port) : Prop := u.txFree = t.txFree ∧ u.cnt[(1 : Fin 6)] = t.cnt[(1 : Fin 6)]

theorem Port.SendsAs.trans {t u v : Port} (first : t.SendsAs u) (second : u.SendsAs v) : t.SendsAs v :=
  ⟨second.1.trans first.1, second.2.trans first.2⟩

theorem Port.credits_sendsAs (t : Port) (now : Nat) : t.SendsAs (t.credits now) := by
  obtain ⟨_, _, counts⟩ := t.credits_frame now
  rw [counts]
  exact ⟨rfl, rfl⟩

theorem Port.counted_sendsAs (t : Port) {k : Fin 6} (other : (1 : Fin 6) ≠ k) (sticky : BitVec 5) :
    t.SendsAs { t with cnt := upd t.cnt k satInc, sticky := sticky } := ⟨rfl, upd_beside _ _ other⟩

/-! ### Sticky bits, write-back of descriptors and late frames -/

theorem State.ptSet_frame (s : State) (p : Fin 8) (i : Nat) : ∃ pba out,
    s.ptSet p i = { s.modPort p (fun t => { t with sticky := setBit t.sticky i }) with hi.pba := pba, out := out } := by
  unfold State.ptSet
  dsimp only
  split
  · exact irqWatch_frame _ _ _ _
  · exact ⟨_, _, rfl⟩

theorem State.frameGone_frame (s : State) (f : TxFrame) (d : Bool) : ∃ mem out, s.frameGone f d = { s with mem := mem, out := out } := by
  unfold State.frameGone
  split
  · exact ⟨_, _, rfl⟩
  · split
    · exact State.busWrite_frame _ _ _ _
    · exact ⟨_, _, rfl⟩

/-- What a discard for its launch time counts and shows at the port (R316). -/
def Port.tellLate (t : Port) : Port := { t with cnt := upd t.cnt 3 satInc, sticky := setBit t.sticky 1 }

theorem State.lateFrame_frame (s : State) (p c : Fin 8) (f : TxFrame) : ∃ er pba mem out,
    s.lateFrame p c f = { s.modPort p Port.tellLate with er := er, hi.pba := pba, mem := mem, out := out } := by
  obtain ⟨_, _, sets⟩ := (s.ptCount p 3).ptSet_frame p 1
  obtain ⟨_, _, _, emits⟩ := State.emit_frame ((s.ptCount p 3).ptSet p 1) 17 0x002#12
    [nat32 p.val 0 ||| nat32 c.val 4 ||| nat32 f.src.val 8, f.pick.getD 0#32]
  obtain ⟨_, _, gone⟩ := State.frameGone_frame (((s.ptCount p 3).ptSet p 1).emit 17 0x002#12
    [nat32 p.val 0 ||| nat32 c.val 4 ||| nat32 f.src.val 8, f.pick.getD 0#32]) f true
  rw [State.lateFrame, gone, emits, sets, State.ptCount, State.modPort_modPort]
  exact ⟨_, _, _, _, rfl⟩

/-! ### Queueing a frame -/

/-- Queueing touches its port, the recorder, and what discards and interrupts put out; it sends nothing (R312, R316). -/
theorem State.enqueue_frame (s : State) (p c : Fin 8) (f : TxFrame) : ∃ (g : Port → Port) (er : Recorder) (pba : BitVec 64)
    (mem : List Host.Cell) (out : List Out),
    s.enqueue p c f = { s.modPort p g with er := er, hi.pba := pba, mem := mem, out := out } ∧ ∀ t : Port, t.SendsAs (g t) := by
  unfold State.enqueue
  dsimp only
  split
  · obtain ⟨_, _, _, _, late⟩ := (s.cbsNow p).lateFrame_frame p c f
    rw [late, State.cbsNow, State.modPort_modPort]
    exact ⟨_, _, _, _, _, rfl, fun t => (t.credits_sendsAs _).trans (Port.counted_sendsAs _ (by decide) _)⟩
  split
  · obtain ⟨_, _, sets⟩ := ((s.cbsNow p).ptCount p 2).ptSet_frame p 2
    obtain ⟨_, _, _, emits⟩ := State.emit_frame (((s.cbsNow p).ptCount p 2).ptSet p 2) 17 0x004#12 [nat32 p.val 0 ||| nat32 c.val 4]
    rw [emits, sets, State.ptCount, State.cbsNow, State.modPort_modPort, State.modPort_modPort]
    exact ⟨_, _, _, _, _, rfl, fun t => (t.credits_sendsAs _).trans (Port.counted_sendsAs _ (by decide) _)⟩
  · rw [State.cbsNow, State.modPort_modPort]
    exact ⟨_, _, _, _, _, rfl, fun t => t.credits_sendsAs _⟩

/-- A frame at the end of the queue of class `c` of port `p`. -/
def State.queued (s : State) (p c : Fin 8) (f : TxFrame) : State :=
  (s.cbsNow p).modPort p fun t => { t with q := upd t.q c fun q => q ++ [f] }

/-- A frame without a launch time that finds room goes to the end of its queue. -/
theorem State.enqueue_room {s : State} {p c : Fin 8} {f : TxFrame} (prompt : f.launch = none)
    (room : ((s.sw.port[p]).q[c]).length < 64) : s.enqueue p c f = s.queued p c f := by
  have fits : (((s.cbsNow p).sw.port[p]).q[c]).length < 64 := by rwa [State.port_cbsNow_same, Port.credits_q]
  unfold State.enqueue
  dsimp only
  rw [prompt, Option.elim_none, if_neg Bool.false_ne_true, if_neg (Nat.not_le.mpr fits)]
  rfl

section
variable (s : State) (p c : Fin 8) (f : TxFrame)

theorem State.queued_port_same : (s.queued p c f).sw.port[p] =
    { (s.sw.port[p]).credits s.tb.timeFix with q := upd (s.sw.port[p]).q c fun q => q ++ [f] } := by
  rw [State.queued, State.port_modPort_same, State.port_cbsNow_same, Port.credits_q]

theorem State.queued_port_ne {i : Fin 8} (ne : i ≠ p) : (s.queued p c f).sw.port[i] = s.sw.port[i] :=
  (State.port_modPort_ne _ p _ ne).trans (s.port_modPort_ne p _ ne)

theorem State.queued_q_same : ((s.queued p c f).sw.port[p]).q[c] = (s.sw.port[p]).q[c] ++ [f] := by
  rw [State.queued_port_same]
  exact upd_at _ _ _

theorem State.queued_q_ne {i d : Fin 8} (other : ¬(i = p ∧ d = c)) : ((s.queued p c f).sw.port[i]).q[d] = (s.sw.port[i]).q[d] := by
  by_cases here : i = p
  · subst here
    rw [State.queued_port_same]
    exact upd_beside _ _ fun same => other ⟨rfl, same⟩
  · rw [s.queued_port_ne p c f here]

end

theorem State.enqueue_port_ne (s : State) {i p : Fin 8} (c : Fin 8) (f : TxFrame) (ne : i ≠ p) :
    (s.enqueue p c f).sw.port[i] = s.sw.port[i] := by
  obtain ⟨g, _, _, _, _, queues, -⟩ := s.enqueue_frame p c f
  rw [queues]
  exact s.port_modPort_ne p g ne

end Sys2Proof.Machine
end

section
/-! SUPPORT. What delivery to drive traffic and to the host leaves of the switch and of the drives' records (R301 to R305, R326, R443). -/
namespace Sys2Proof.Machine

/-- The switch and the records of the drives are as before. -/
def BesideSwitch (s t : State) : Prop := t.sw = s.sw ∧ t.dr = s.dr

section
variable {s t u : State}

theorem BesideSwitch.refl : BesideSwitch s s := ⟨rfl, rfl⟩

theorem BesideSwitch.trans (first : BesideSwitch s t) (second : BesideSwitch t u) : BesideSwitch s u :=
  ⟨second.1.trans first.1, second.2.trans first.2⟩

theorem BesideSwitch.ite {p : Prop} [Decidable p] (yes : BesideSwitch s t) (no : BesideSwitch s u) :
    BesideSwitch s (if p then t else u) := by
  split
  · exact yes
  · exact no

theorem RecordsOnly.besideSwitch (only : RecordsOnly s t) : BesideSwitch s t := by
  rw [only]
  exact ⟨rfl, rfl⟩

theorem RingOnly.besideSwitch (only : RingOnly s t) : BesideSwitch s t := by
  rw [only]
  exact ⟨rfl, rfl⟩

theorem SensorsOnly.besideSwitch (only : SensorsOnly s t) : BesideSwitch s t := by
  rw [only.eq]
  exact ⟨rfl, rfl⟩

variable (s)

theorem State.emit_besideSwitch (src : Nat) (code : BitVec 12) (p : List (BitVec 32)) : BesideSwitch s (s.emit src code p) :=
  (s.emit_ring src code p).besideSwitch

theorem State.busWrite_besideSwitch (loc : Bool) (a : Nat) (ws : List (BitVec 32)) : BesideSwitch s (s.busWrite loc a ws) := by
  obtain ⟨_, _, wrote⟩ := s.busWrite_frame loc a ws
  rw [wrote]
  exact ⟨rfl, rfl⟩

theorem State.wrBytes_besideSwitch (a : Nat) (b : List Byte) : BesideSwitch s (s.wrBytes a b) := ⟨rfl, rfl⟩

theorem State.frameGone_besideSwitch (f : TxFrame) (d : Bool) : BesideSwitch s (s.frameGone f d) := by
  obtain ⟨_, _, gone⟩ := s.frameGone_frame f d
  rw [gone]
  exact ⟨rfl, rfl⟩

/-! ### PDUs of the safety layer -/

theorem State.slRec_besideSwitch (code : BitVec 12) (w : BitVec 32) : BesideSwitch s (s.slRec code w) :=
  ((s.svRec_records 0 code [w]).trans (State.svRec_records _ 1 code [w])).besideSwitch

theorem State.modConn_besideSwitch (k : ConnId) (g : SlConn → SlConn) : BesideSwitch s (s.modConn k g) := by
  cases k <;> exact ⟨rfl, rfl⟩

theorem State.pduDiscard_besideSwitch (k : ConnId) (cause : Nat) : BesideSwitch s (s.pduDiscard k cause) :=
  (s.modConn_besideSwitch k _).trans (State.slRec_besideSwitch _ _ _)

theorem State.pduAccept_besideSwitch (k : ConnId) (seq : BitVec 16) : BesideSwitch s (s.pduAccept k seq) :=
  .ite (.ite ((s.modConn_besideSwitch k _).trans (State.slRec_besideSwitch _ _ _)) (s.modConn_besideSwitch k _))
    (s.modConn_besideSwitch k _)

theorem State.fbPdu_besideSwitch (a : Fin 80) (w : List (BitVec 32)) (dis late : Bool) : BesideSwitch s (s.fbPdu a w dis late) := by
  unfold State.fbPdu
  split
  · exact .refl
  split
  · exact s.pduDiscard_besideSwitch _ _
  · exact (s.pduAccept_besideSwitch _ _).trans ⟨rfl, rfl⟩

/-! ### Fragments of sensor frames -/

theorem State.asmDrop_besideSwitch (i : Fin 8) : BesideSwitch s (s.asmDrop i) := by
  unfold State.asmDrop
  split
  · exact .refl
  · dsimp only
    split <;> exact ⟨rfl, rfl⟩

theorem State.reedSlot_besideSwitch (i : Fin 8) : BesideSwitch s (s.reedSlot i).2 := by
  have drops (u : State) :
      BesideSwitch u (((u.modSens i fun t => { t with drop := satInc t.drop }).rdSet 1).emit 9 0x002#12 [nat32 i.val 0]) :=
    .trans ⟨rfl, rfl⟩ (State.emit_besideSwitch _ _ _ _)
  unfold State.reedSlot
  dsimp only
  split
  · exact ⟨rfl, rfl⟩
  split
  · exact (s.modSens_sensorsOnly i _).besideSwitch.trans (drops _)
  · exact drops s

theorem State.setSens_besideSwitch (sens : Vector SlSens 8) : BesideSwitch s { s with sl.sens := sens } := ⟨rfl, rfl⟩

theorem State.asmAdd_besideSwitch (i : Fin 8) (m : SlAsm) : BesideSwitch s (s.asmAdd i m) := by
  unfold State.asmAdd
  dsimp only
  split
  · exact s.setSens_besideSwitch _
  split
  · exact (s.setSens_besideSwitch _).trans ((State.pduDiscard_besideSwitch _ _ _).trans (State.asmDrop_besideSwitch _ _))
  · split
    · exact s.setSens_besideSwitch _
    · exact (s.setSens_besideSwitch _).trans ((State.wrBytes_besideSwitch _ _ _).trans (State.modSens_sensorsOnly _ i _).besideSwitch)

theorem State.fragment_besideSwitch (i : Fin 8) (w : List (BitVec 32)) (prev : BitVec 16) : BesideSwitch s (s.fragment i w prev) := by
  unfold State.fragment
  dsimp only
  split
  · exact .refl
  split
  · exact (s.asmDrop_besideSwitch i).trans ((State.reedSlot_besideSwitch _ i).trans (State.asmAdd_besideSwitch _ i _))
  split
  · exact .refl
  · exact .ite (s.asmAdd_besideSwitch i _) ((s.pduDiscard_besideSwitch _ _).trans (State.asmDrop_besideSwitch _ i))

theorem State.sensPdu_besideSwitch (i : Fin 8) (w : List (BitVec 32)) (dis : Bool) : BesideSwitch s (s.sensPdu i w dis) := by
  unfold State.sensPdu
  split
  · exact .refl
  split
  · exact s.pduDiscard_besideSwitch _ _
  · exact .ite ((s.pduAccept_besideSwitch _ _).trans (State.fragment_besideSwitch _ i _ _))
      (.ite ((s.pduAccept_besideSwitch _ _).trans ((State.pduDiscard_besideSwitch _ _ _).trans (State.asmDrop_besideSwitch _ i)))
        (s.pduAccept_besideSwitch _ _))

/-! ### Delivery to the host -/

theorem State.hostRx_besideSwitch (f : TxFrame) : BesideSwitch s (s.hostRx f) := by
  unfold State.hostRx
  dsimp only
  split
  · exact ⟨rfl, rfl⟩
  · exact (s.busWrite_besideSwitch _ _ _).trans ((State.busWrite_besideSwitch _ _ _ _).trans ⟨rfl, rfl⟩)

end

end Sys2Proof.Machine
end

section
/-! SUPPORT. Reception at an external port, drive traffic, links, the filtering database and streams, and the settlement of O46 (R309 to
R311, R320, R325, R326, R328). -/
namespace Sys2Proof.Machine

/-! ### Reception (R309 to R311) -/

/-- A frame that has arrived whole at an external port, without its FCS. -/
def State.arrived (s : State) (p : Fin 6) (frame : List Byte) : TxFrame :=
  let inFix := s.tb.timeFix - bytesTime frame.length (modeRate (s.sw.port[extPort p]).mode)
  { bytes := frame.take (frame.length - 4), src := extPort p, inTs := inFix / nsUnit }

section
variable {s : State} (runs : swRuns s = true)
include runs

section
variable {p : Fin 6} {frame : List Byte} (enabled : (s.sw.port[extPort p]).mode ≠ 0#3) (linked : (s.sw.port[extPort p]).link = true)
include enabled linked

/-- Behind the guard of FRAME_RECEIVE the length is looked at first, then the FCS (R309). -/
theorem frameReceive_checks : exec (.frameReceive p frame) s =
    let f := frame.take (frame.length - 4)
    if 1522 < frame.length then .next (s.ptCount (extPort p) 5)
    else if frame.length < 18 || frFcs f ≠ frame.drop (frame.length - 4) then .next (s.ptCount (extPort p) 4)
    else if swForwards s then
      .next (((s.ptCount (extPort p) 0).fdbLearn (extPort p) f).forward (extPort p) (s.arrived p frame))
    else if (egressPorts s (extPort p) f).contains 6 then
      let r := (s.ptCount (extPort p) 0).cbCheck (extPort p) f
      .next (if r.1 then r.2.enqueue 6 (frClass s (extPort p) f) { s.arrived p frame with bytes := frStrip f } else r.2)
    else .next (s.ptCount (extPort p) 0) :=
  if_neg (by simp [-Fin.getElem_fin, runs, enabled, linked])

theorem frameReceive_oversize (long : 1522 < frame.length) : exec (.frameReceive p frame) s = .next (s.ptCount (extPort p) 5) :=
  (frameReceive_checks runs enabled linked).trans (if_pos long)

theorem frameReceive_badCrc (fits : frame.length ≤ 1522)
    (bad : frame.length < 18 ∨ frFcs (frame.take (frame.length - 4)) ≠ frame.drop (frame.length - 4)) :
    exec (.frameReceive p frame) s = .next (s.ptCount (extPort p) 4) :=
  (frameReceive_checks runs enabled linked).trans ((if_neg (Nat.not_lt.mpr fits)).trans (if_pos (by simpa using bad)))

theorem frameReceive_forwards (whole : 18 ≤ frame.length) (fits : frame.length ≤ 1522)
    (good : frFcs (frame.take (frame.length - 4)) = frame.drop (frame.length - 4)) (awake : s.pw.state ≠ .safeHold) :
    exec (.frameReceive p frame) s =
      .next (((s.ptCount (extPort p) 0).fdbLearn (extPort p) (s.arrived p frame).bytes).forward (extPort p) (s.arrived p frame)) := by
  have forwards : swForwards s = true := by simp [swForwards, runs, awake]
  have sound :
      ¬(decide (frame.length < 18) || decide (frFcs (frame.take (frame.length - 4)) ≠ frame.drop (frame.length - 4))) = true := by
    simp [good, whole]
  exact (frameReceive_checks runs enabled linked).trans ((if_neg (Nat.not_lt.mpr fits)).trans ((if_neg sound).trans (if_pos forwards)))

end

end

/-- Learning changes the filtering database alone (R310). -/
theorem State.fdbLearn_frame (s : State) (p : Fin 8) (f : List Byte) : ∃ fdb, s.fdbLearn p f = { s with sw.fdb := fdb } := by
  unfold State.fdbLearn
  dsimp only
  split
  · exact ⟨_, rfl⟩
  split
  · split <;> exact ⟨_, rfl⟩
  · split <;> exact ⟨_, rfl⟩

/-- R310: a frame to the device's own address that is neither drive traffic nor PTP goes to port 7 alone. -/
theorem egressPorts_own {s : State} {p : Fin 6} {f : List Byte} (own : frDa f = s.sw.mac) (free : macReserved (frDa f) = false)
    (noDrive : frType f ≠ s.sw.etype) (noPtp : frType f ≠ 0x88F7#16) : egressPorts s (extPort p) f = [7] := by
  unfold egressPorts
  dsimp only
  rw [free, if_neg Bool.false_ne_true, if_pos own, if_neg (not_or.mpr ⟨noDrive, noPtp⟩), if_neg (extPort_ne_seven p).symm]

/-- A frame that goes to port 7 alone, where there is room, is put once into the queue of its class. -/
theorem State.forward_own {s : State} {p : Fin 6} {x : TxFrame} (prompt : x.launch = none) (own : frDa x.bytes = s.sw.mac)
    (free : macReserved (frDa x.bytes) = false) (noDrive : frType x.bytes ≠ s.sw.etype) (noPtp : frType x.bytes ≠ 0x88F7#16)
    {c : Fin 8} (cls : frClass s (extPort p) x.bytes = c) (room : ((s.sw.port[(7 : Fin 8)]).q[c]).length < 64) :
    s.forward (extPort p) x = s.queued 7 c { x with stamp := .none } := by
  subst cls
  have internal : isExt 7 = false := by decide
  unfold State.forward
  rw [egressPorts_own own free noDrive noPtp]
  change s.enqueue 7 _ { x with stamp := if isExt (extPort p) && isExt 7 && ptpEvent x.bytes then Stamp.residence else Stamp.none } = _
  rw [internal, Bool.and_false, Bool.false_and, if_neg Bool.false_ne_true]
  exact State.enqueue_room prompt room

/-- The class of a frame by the fields of its ingress port (R311). -/
def Port.frClass (t : Port) (p : Fin 8) (f : List Byte) : Fin 8 :=
  let pcp : Fin 8 := (frPcp f).getD (t.defPcp).toFin
  if p = 6 then 0 else (t.pcpMap[pcp]).toFin

theorem frClass_eq (s : State) (p : Fin 8) (f : List Byte) : frClass s p f = (s.sw.port[p]).frClass p f := rfl

theorem State.ptCount_port_same (s : State) (p : Fin 8) (k : Fin 6) :
    (s.ptCount p k).sw.port[p] = { s.sw.port[p] with cnt := upd (s.sw.port[p]).cnt k satInc } := s.port_modPort_same p _

theorem State.ptCount_q (s : State) (p i : Fin 8) (k : Fin 6) : ((s.ptCount p k).sw.port[i]).q = (s.sw.port[i]).q := by
  by_cases here : i = p
  · subst here
    rw [State.ptCount_port_same]
  · exact congrArg Port.q (s.port_modPort_ne p _ here)

theorem State.ptCount_frClass (s : State) (p : Fin 8) (k : Fin 6) (f : List Byte) : frClass (s.ptCount p k) p f = frClass s p f := by
  rw [frClass_eq, State.ptCount_port_same]
  rfl

/-- A good frame is counted at its port and its source address learned, before it is forwarded. -/
theorem State.counted_learned (s : State) (p : Fin 8) (f : List Byte) : ∃ u, (s.ptCount p 0).fdbLearn p f = u ∧
    (∀ i : Fin 8, (u.sw.port[i]).q = (s.sw.port[i]).q) ∧ (u.sw.port[p]).cnt[(0 : Fin 6)] = satInc (s.sw.port[p]).cnt[(0 : Fin 6)] ∧
    (∀ x, frClass u p x = frClass s p x) ∧ u.sw.mac = s.sw.mac ∧ u.sw.etype = s.sw.etype ∧ { u with sw := s.sw } = s := by
  obtain ⟨fdb, learns⟩ := (s.ptCount p 0).fdbLearn_frame p f
  have port := s.ptCount_port_same p 0
  refine ⟨_, learns, fun i => s.ptCount_q p i 0, ?_, s.ptCount_frClass p 0, rfl, rfl, rfl⟩
  exact (congrArg (fun t : Port => t.cnt[(0 : Fin 6)]) port).trans (upd_at _ _ _)

theorem State.queued_beside {s u : State} (p c : Fin 8) (f : TxFrame) (beside : { u with sw := s.sw } = s) :
    { u.queued p c f with sw := s.sw } = s := beside

/-- A good frame to the device's own address is counted and put once into the queue of its class at port 7. -/
theorem frameReceive_own {s : State} (runs : swRuns s = true) {p : Fin 6} {frame : List Byte}
    (enabled : (s.sw.port[extPort p]).mode ≠ 0#3) (linked : (s.sw.port[extPort p]).link = true)
    (whole : 18 ≤ frame.length) (fits : frame.length ≤ 1522)
    (good : frFcs (frame.take (frame.length - 4)) = frame.drop (frame.length - 4)) (awake : s.pw.state ≠ .safeHold)
    (own : frDa (s.arrived p frame).bytes = s.sw.mac) (free : macReserved (frDa (s.arrived p frame).bytes) = false)
    (noDrive : frType (s.arrived p frame).bytes ≠ s.sw.etype) (noPtp : frType (s.arrived p frame).bytes ≠ 0x88F7#16)
    (room : ((s.sw.port[(7 : Fin 8)]).q[frClass s (extPort p) (s.arrived p frame).bytes]).length < 64) :
    ∃ t x, exec (.frameReceive p frame) s = .next t ∧ x.bytes = (s.arrived p frame).bytes ∧ x.src = extPort p ∧
      (t.sw.port[extPort p]).cnt[(0 : Fin 6)] = satInc (s.sw.port[extPort p]).cnt[(0 : Fin 6)] ∧
      (t.sw.port[(7 : Fin 8)]).q[frClass s (extPort p) (s.arrived p frame).bytes] =
        (s.sw.port[(7 : Fin 8)]).q[frClass s (extPort p) (s.arrived p frame).bytes] ++ [x] ∧
      (∀ i c : Fin 8, ¬(i = 7 ∧ c = frClass s (extPort p) (s.arrived p frame).bytes) → (t.sw.port[i]).q[c] = (s.sw.port[i]).q[c]) ∧
      { t with sw := s.sw } = s := by
  obtain ⟨u, learned, queues, counted, cls, mac, etype, beside⟩ := s.counted_learned (extPort p) (s.arrived p frame).bytes
  have forwards := State.forward_own (s := u) (x := s.arrived p frame) rfl (own.trans mac.symm) free (etype ▸ noDrive) noPtp (cls _)
    (by rwa [queues])
  have ran := frameReceive_forwards runs enabled linked whole fits good awake
  rw [learned, forwards] at ran
  refine ⟨_, { s.arrived p frame with stamp := .none }, ran, rfl, rfl, ?_, ?_, fun i c other => ?_, State.queued_beside _ _ _ beside⟩
  · rw [u.queued_port_ne 7 _ _ (extPort_ne_seven p), counted]
  · rw [State.queued_q_same, queues]
  · rw [u.queued_q_ne 7 _ _ other, queues]

/-! ### Drive traffic (R325, R326) -/

/-- The record of a feedback frame, as it is latched for its axis (R325, R326). -/
def driveFb (ws : List (BitVec 32)) (i : Nat) : DriveFb :=
  let r := dtRec ws i
  { torq := r 1, pos := r 3 ++ r 2, vel := r 5 ++ r 4, enabled := bit (r 0) 8, fault := bit (r 0) 9, ack := ws.getD 1 0#32 }

theorem driveFb_first (ws : List (BitVec 32)) : let r := driveFb ws 0
    r.torq = ws.getD 3 0#32 ∧ r.pos = ws.getD 5 0#32 ++ ws.getD 4 0#32 ∧ r.vel = ws.getD 7 0#32 ++ ws.getD 6 0#32 ∧
      r.enabled = (ws.getD 2 0#32).getLsbD 8 ∧ r.fault = (ws.getD 2 0#32).getLsbD 9 ∧ r.ack = ws.getD 1 0#32 :=
  ⟨rfl, rfl, rfl, rfl, rfl, rfl⟩

/-- A record that replaces one not yet latched is counted (R326). -/
def State.dupCounted (s : State) (a : Fin 80) : State := if (s.dr[a]).next.isSome then s.swCount 3 else s

theorem State.dupCounted_keeps (s : State) (a : Fin 80) :
    (s.dupCounted a).dr = s.dr ∧ (s.dupCounted a).sw.cnt[(1 : Fin 4)] = s.sw.cnt[(1 : Fin 4)] := by
  unfold State.dupCounted
  split
  · exact ⟨rfl, upd_beside _ _ (by decide)⟩
  · exact ⟨rfl, rfl⟩

theorem State.driveRec_eq (s : State) (ws : List (BitVec 32)) (dis : Bool) (i : Nat) :
    let a := Fin.ofNat 80 (field (dtRec ws i 0) 0 7).toNat
    s.driveRec ws dis i = ({ s.dupCounted a with
      dr := upd (s.dupCounted a).dr a fun d => { d with next := some (driveFb ws i) } } : State).fbPdu a
        ((List.range 7).map fun j => dtRec ws i (6 + j)) dis false := rfl

theorem State.driveRec_latches (s : State) (ws : List (BitVec 32)) (dis : Bool) (i : Nat) {a : Fin 80}
    (names : Fin.ofNat 80 (field (dtRec ws i 0) 0 7).toNat = a) :
    (s.driveRec ws dis i).dr = upd s.dr a (fun d => { d with next := some (driveFb ws i) }) ∧
      (s.driveRec ws dis i).sw.cnt[(1 : Fin 4)] = s.sw.cnt[(1 : Fin 4)] := by
  obtain ⟨dr, cnt⟩ := s.dupCounted_keeps a
  rw [State.driveRec_eq, names, dr]
  obtain ⟨sw, dr'⟩ := State.fbPdu_besideSwitch
    { s.dupCounted a with dr := upd s.dr a fun d => { d with next := some (driveFb ws i) } } a
    ((List.range 7).map fun j => dtRec ws i (6 + j)) dis false
  rw [sw, dr']
  exact ⟨rfl, cnt⟩

section
variable {s : State} (runs : swRuns s = true) {p : Fin 8} {frame : List Byte} (drive : frType frame = s.sw.etype)
include runs drive

theorem driveTrafficReceive_checks : exec (.driveTrafficReceive p frame false) s = .next (s.driveTraffic p (frData frame) false) :=
  if_pos (by simp [runs, drive])

theorem driveTrafficReceive_discards {k : Nat} (cause : dtCause (frData frame) = some k) :
    ∃ t, exec (.driveTrafficReceive p frame false) s = .next t ∧
      t.sw.cnt[(2 : Fin 4)] = satInc s.sw.cnt[(2 : Fin 4)] ∧ t.sw.sticky = setBit s.sw.sticky k ∧
      { t with sw := s.sw, er := s.er, hi := s.hi, out := s.out } = s := by
  refine ⟨_, driveTrafficReceive_checks runs drive, ?_⟩
  unfold State.driveTraffic
  dsimp only
  rw [cause]
  dsimp only
  obtain ⟨er, pba, out, emits⟩ := ((s.swCount 2).swSet k).emit_frame 17 0x003#12
    [nat32 p.val 0 ||| nat32 (dtKind ((bytesWords (frData frame)).getD 0 0#32)) 4 ||| nat32 k 8]
  rw [emits]
  exact ⟨upd_at _ _ _, rfl, rfl⟩

theorem driveTrafficReceive_latches (sound : dtCause (frData frame) = none)
    (feedback : dtKind ((bytesWords (frData frame)).getD 0 0#32) = 1) (single : dtNrec ((bytesWords (frData frame)).getD 0 0#32) = 1)
    {a : Fin 80} (names : (field (dtRec (bytesWords (frData frame)) 0 0) 0 7).toNat = a.val) :
    ∃ t, exec (.driveTrafficReceive p frame false) s = .next t ∧ (t.dr[a]).next = some (driveFb (bytesWords (frData frame)) 0) ∧
      t.sw.cnt[(1 : Fin 4)] = satInc s.sw.cnt[(1 : Fin 4)] ∧ ∀ b : Fin 80, b ≠ a → t.dr[b] = s.dr[b] := by
  have axis : Fin.ofNat 80 (field (dtRec (bytesWords (frData frame)) 0 0) 0 7).toNat = a :=
    Fin.ext (by simp [names])
  have one : s.driveTraffic p (frData frame) false = (s.swCount 1).driveRec (bytesWords (frData frame)) false 0 := by
    unfold State.driveTraffic
    dsimp only
    rw [sound]
    dsimp only
    rw [if_pos feedback, single]
    rfl
  obtain ⟨dr, cnt⟩ := (s.swCount 1).driveRec_latches (bytesWords (frData frame)) false 0 axis
  refine ⟨_, driveTrafficReceive_checks runs drive, ?_⟩
  rw [one, dr, cnt]
  exact ⟨congrArg Drive.next (upd_at _ _ _), upd_at _ _ _, fun b other => upd_beside _ _ other⟩

end

/-! ### Links, aged entries and streams (R310, R320, R328) -/

section
variable {s : State} (runs : swRuns s = true)
include runs

theorem linkChange_shows {p : Fin 6} {up : Bool} (enabled : (s.sw.port[extPort p]).mode ≠ 0#3)
    (other : (s.sw.port[extPort p]).link ≠ up) : ∃ t, exec (.linkChange p up) s = .next t ∧
      t.sw = { s.sw with port := upd s.sw.port (extPort p) fun x => { x with link := up, sticky := x.sticky ||| 1#5 } } ∧
      { t with sw := s.sw, er := s.er, hi := s.hi, out := s.out } = s := by
  refine ⟨_, rfl, ?_⟩
  have acts : ¬(!swRuns s || decide ((s.sw.port[extPort p]).mode = 0#3) || (s.sw.port[extPort p]).link == up) = true := by
    simp [-Fin.getElem_fin, runs, enabled, other]
  obtain ⟨_, _, sets⟩ := (s.modPort (extPort p) fun t => { t with link := up }).ptSet_frame (extPort p) 0
  obtain ⟨_, _, _, emits⟩ := ((s.modPort (extPort p) fun t => { t with link := up }).ptSet (extPort p) 0).emit_frame 17 0x001#12
    [nat32 (extPort p).val 0 ||| bitAt up 4 ||| at32 (s.sw.port[extPort p]).mode 8]
  unfold State.linkChange
  dsimp only
  rw [if_neg acts, emits, sets, State.modPort_modPort]
  exact ⟨rfl, rfl⟩

theorem fdbAgeExpire_removes {i : Nat} {e : FdbEntry} (entry : s.sw.fdb[i]? = some e) (learned : e.static_ = false) :
    ∃ t, exec (.fdbAgeExpire i) s = .next t ∧ t.sw = { s.sw with fdb := s.sw.fdb.eraseIdx i } ∧
      e.seen + s.sw.age.toNat * 1000000000 ≤ t.now ∧ { t with sw := s.sw, tb := s.tb } = s := by
  have ran : exec (.fdbAgeExpire i) s =
      .next ((s.reach (e.seen + s.sw.age.toNat * 1000000000)).modSw fun w => { w with fdb := w.fdb.eraseIdx i }) := by
    change execFdbAgeExpire i s = _
    rw [execFdbAgeExpire, entry]
    exact if_pos (by simp [runs, learned])
  have reached := s.le_reach_now (e.seen + s.sw.age.toNat * 1000000000)
  rw [State.reach_eq] at ran reached
  exact ⟨_, ran, rfl, reached, rfl⟩

theorem cbStreamReset_resets {i : Nat} {x : CbStream} (stream : s.sw.cb[i]? = some x) :
    ∃ t, exec (.cbStreamReset i) s = .next t ∧
      t.sw = { s.sw with cb := s.sw.cb.set i { x with takeAny := true, hist := 0#32 } } ∧
      x.last + s.sw.cbReset.toNat * 1000000 ≤ t.now ∧ { t with sw := s.sw, tb := s.tb } = s := by
  have ran : exec (.cbStreamReset i) s = .next ((s.reach (x.last + s.sw.cbReset.toNat * 1000000)).modSw fun w =>
      { w with cb := w.cb.set i { x with takeAny := true, hist := 0#32 } }) := by
    change execCbStreamReset i s = _
    rw [execCbStreamReset, stream]
    exact if_pos runs
  have reached := s.le_reach_now (x.last + s.sw.cbReset.toNat * 1000000)
  rw [State.reach_eq] at ran reached
  exact ⟨_, ran, rfl, reached, rfl⟩

end

/-! ### The filtering database (R310) -/

/-- The entry is that of the address and the VID. -/
def fdbKey (m : BitVec 48) (w : BitVec 12) (e : FdbEntry) : Bool := decide (e.mac = m) && decide (e.vid = w)

theorem fdbFind_eq (s : State) (m : BitVec 48) (w : BitVec 12) : fdbFind s m w = s.sw.fdb.find? (fdbKey m w) := rfl

theorem fdbKey_iff {m : BitVec 48} {w : BitVec 12} {e : FdbEntry} : fdbKey m w e = true ↔ e.mac = m ∧ e.vid = w := by simp [fdbKey]

/-- An entry has one key. -/
theorem fdbKey_other {m n : BitVec 48} {v w : BitVec 12} {e : FdbEntry} (other : ¬(m = n ∧ w = v)) (key : fdbKey n v e = true) :
    fdbKey m w e = false := by
  obtain ⟨mac, vid⟩ := fdbKey_iff.mp key
  exact Bool.eq_false_iff.mpr fun also => other
    ⟨(fdbKey_iff.mp also).1.symm.trans mac, (fdbKey_iff.mp also).2.symm.trans vid⟩

/-- An entry that replaces those of its key is the one found for it. -/
theorem find_replaced {l : List FdbEntry} {n : BitVec 48} {v : BitVec 12} {e : FdbEntry} (key : fdbKey n v e = true)
    (present : l.any (fdbKey n v) = true) : (l.map fun x => if fdbKey n v x then e else x).find? (fdbKey n v) = some e := by
  induction l with
  | nil => exact absurd present (by simp)
  | cons x r ih =>
    by_cases first : fdbKey n v x = true
    · simp [first, key]
    · have rest : r.any (fdbKey n v) = true := by simpa [first] using present
      simpa [first] using ih rest

theorem find_replaced_other {n m : BitVec 48} {v w : BitVec 12} {e : FdbEntry} (key : fdbKey n v e = true) (other : ¬(m = n ∧ w = v))
    (l : List FdbEntry) : (l.map fun x => if fdbKey n v x then e else x).find? (fdbKey m w) = l.find? (fdbKey m w) := by
  induction l with
  | nil => rfl
  | cons x r ih =>
    by_cases first : fdbKey n v x = true
    · simpa [first, fdbKey_other other key, fdbKey_other other first] using ih
    · simp only [List.map_cons, if_neg first, List.find?_cons, ih]

theorem find_added {l : List FdbEntry} {n : BitVec 48} {v : BitVec 12} {e : FdbEntry} (key : fdbKey n v e = true)
    (absent : ¬l.any (fdbKey n v) = true) : (l ++ [e]).find? (fdbKey n v) = some e := by
  have none : l.find? (fdbKey n v) = none := by simpa using absent
  rw [List.find?_append, none, Option.none_or, List.find?_singleton, if_pos key]

theorem find_added_other {n m : BitVec 48} {v w : BitVec 12} {e : FdbEntry} (key : fdbKey n v e = true) (other : ¬(m = n ∧ w = v))
    (l : List FdbEntry) : (l ++ [e]).find? (fdbKey m w) = l.find? (fdbKey m w) := by
  rw [List.find?_append, List.find?_singleton, fdbKey_other other key, if_neg Bool.false_ne_true, Option.or_none]

theorem find_removed_other {n m : BitVec 48} {v w : BitVec 12} (other : ¬(m = n ∧ w = v)) (l : List FdbEntry) :
    (l.filter fun x => !fdbKey n v x).find? (fdbKey m w) = l.find? (fdbKey m w) := by
  induction l with
  | nil => rfl
  | cons x r ih =>
    by_cases removed : fdbKey n v x = true
    · simpa [removed, fdbKey_other other removed] using ih
    · simp only [List.filter_cons, removed, Bool.not_false, if_true, List.find?_cons, ih]

/-- The static entry that a write of SW_FDB_CMD makes. -/
def State.fdbStatic (s : State) (vid : BitVec 12) (ports : BitVec 8) : FdbEntry :=
  { mac := s.sw.fdbMac, vid := vid, ports := ports, static_ := true }

theorem State.fdbStatic_key (s : State) (vid : BitVec 12) (ports : BitVec 8) : fdbKey s.sw.fdbMac vid (s.fdbStatic vid ports) = true :=
  fdbKey_iff.mpr ⟨rfl, rfl⟩

/-- The database and the fields of SW_FDB_CMD are set (R310). -/
def State.fdbSet (s : State) (v : BitVec 32) (full : Bool) (fdb : List FdbEntry) : State :=
  { s with sw := { s.sw with fdbPorts := field v 21 8, fdbVid := field v 0 12, fdbFull := full, fdb := fdb } }

section
variable {s : State} {v : BitVec 32}

theorem State.setFdbCmd_replaces (op : field v 30 2 = 1#2) (present : s.sw.fdb.any (fdbKey s.sw.fdbMac (field v 0 12)) = true) :
    s.setFdbCmd v = s.fdbSet v false (s.sw.fdb.map fun x =>
      if fdbKey s.sw.fdbMac (field v 0 12) x then s.fdbStatic (field v 0 12) (field v 21 8) else x) :=
  (if_pos op).trans (if_pos present)

theorem State.setFdbCmd_adds (op : field v 30 2 = 1#2) (absent : ¬s.sw.fdb.any (fdbKey s.sw.fdbMac (field v 0 12)) = true)
    (room : s.sw.fdb.length < 2048) :
    s.setFdbCmd v = s.fdbSet v false (s.sw.fdb ++ [s.fdbStatic (field v 0 12) (field v 21 8)]) :=
  (if_pos op).trans ((if_neg absent).trans (if_neg (Nat.not_le.mpr room)))

theorem State.setFdbCmd_removes (op : field v 30 2 = 2#2) :
    s.setFdbCmd v = s.fdbSet v s.sw.fdbFull (s.sw.fdb.filter fun x => !fdbKey s.sw.fdbMac (field v 0 12) x) :=
  (if_neg (by rw [op]; decide)).trans (if_pos op)

variable {vid : BitVec 12} (names : field v 0 12 = vid)
include names

theorem State.setFdbCmd_writes {ports : BitVec 8} (gives : field v 21 8 = ports) (op : field v 30 2 = 1#2)
    (room : s.sw.fdb.length < 2048) :
    fdbFind (s.setFdbCmd v) s.sw.fdbMac vid = some (s.fdbStatic vid ports) ∧
      (∀ m w, ¬(m = s.sw.fdbMac ∧ w = vid) → fdbFind (s.setFdbCmd v) m w = fdbFind s m w) ∧
      (s.setFdbCmd v).sw.fdbFull = false ∧ { s.setFdbCmd v with sw := s.sw } = s := by
  subst names gives
  have key := s.fdbStatic_key (field v 0 12) (field v 21 8)
  simp only [fdbFind_eq]
  by_cases present : s.sw.fdb.any (fdbKey s.sw.fdbMac (field v 0 12)) = true
  · rw [State.setFdbCmd_replaces op present]
    exact ⟨find_replaced key present, fun m w other => find_replaced_other key other _, rfl, rfl⟩
  · rw [State.setFdbCmd_adds op present room]
    exact ⟨find_added key present, fun m w other => find_added_other key other _, rfl, rfl⟩

theorem State.setFdbCmd_deletes (op : field v 30 2 = 2#2) :
    fdbFind (s.setFdbCmd v) s.sw.fdbMac vid = none ∧
      (∀ m w, ¬(m = s.sw.fdbMac ∧ w = vid) → fdbFind (s.setFdbCmd v) m w = fdbFind s m w) ∧
      { s.setFdbCmd v with sw := s.sw } = s := by
  subst names
  simp only [fdbFind_eq]
  rw [State.setFdbCmd_removes op]
  refine ⟨List.find?_eq_none.mpr fun x kept also => ?_, fun m w other => find_removed_other other _, rfl⟩
  have removed := (List.mem_filter.mp kept).2
  rw [show fdbKey s.sw.fdbMac (field v 0 12) x = true from also] at removed
  exact Bool.false_ne_true removed

end

/-- The word that FDB_WRITE and FDB_DELETE write: the fields of the operand under their own OP. -/
theorem fdbWord_fields (v : BitVec 32) (op : Nat) : field (at32 (field v 0 30) 0 ||| nat32 op 30) 0 12 = BitVec.extractLsb' 0 12 v ∧
    field (at32 (field v 0 30) 0 ||| nat32 op 30) 21 8 = BitVec.extractLsb' 21 8 v := by
  constructor <;> ext i below
  · simp [field, nat32, show i < 32 by omega, show i < 30 by omega]
  · simp [field, nat32, show 21 + i < 32 by omega, show 21 + i < 30 by omega]

theorem fdbWord_op (v : BitVec 32) (op : Nat) : field (at32 (field v 0 30) 0 ||| nat32 op 30) 30 2 = BitVec.ofNat 2 op := by
  ext i below
  have inWord : i < 32 := by omega
  have wide : (BitVec.ofNat 32 op).getLsbD i = (BitVec.ofNat 2 op).getLsbD i := by
    simp only [BitVec.getLsbD_ofNat, below, inWord]
  simpa [field, nat32, below, inWord, show 30 + i < 32 by omega] using wide

section
variable {s : State} (runs : swRuns s = true) (v : BitVec 32)
include runs

theorem fdbWrite_sets : exec (.fdbWrite v) s = .next (s.setFdbCmd (at32 (field v 0 30) 0 ||| nat32 1 30)) := if_pos (swRuns_up runs)

theorem fdbDelete_sets : exec (.fdbDelete v) s = .next (s.setFdbCmd (at32 (field v 0 30) 0 ||| nat32 2 30)) := if_pos (swRuns_up runs)

end

/-- Settles O46: the checks of a frame, its queueing at port 7, drive traffic, links, and the filtering database. -/
theorem framesEnterTheSwitch : Obligations.FramesEnterTheSwitch := by
  intro s runs
  refine ⟨fun p frame => ?_, fun p frame drive => ⟨fun k => ?_, ?_⟩, fun p up => linkChange_shows runs,
    fun v => ⟨fun room => ?_, ?_⟩, fun i e => fdbAgeExpire_removes runs, fun i x => cbStreamReset_resets runs⟩
  · intro q port count f enabled linked
    exact ⟨frameReceive_oversize runs enabled linked, frameReceive_badCrc runs enabled linked, fun whole fits good awake =>
      frameReceive_own runs enabled linked whole fits good awake⟩
  · exact driveTrafficReceive_discards runs drive
  · intro sound feedback single a names
    obtain ⟨t, ran, next, counted, others⟩ := driveTrafficReceive_latches runs drive (p := p) sound feedback single names
    obtain ⟨torq, pos, vel, enabled, fault, ack⟩ := driveFb_first (bytesWords (frData frame))
    exact ⟨t, _, ran, next, torq, pos, vel, enabled, fault, ack, counted, others⟩
  · obtain ⟨names, gives⟩ := fdbWord_fields v 1
    exact ⟨_, fdbWrite_sets runs v, State.setFdbCmd_writes names gives (fdbWord_op v 1) room⟩
  · exact ⟨_, fdbDelete_sets runs v, State.setFdbCmd_deletes (fdbWord_fields v 2).1 (fdbWord_op v 2)⟩

end Sys2Proof.Machine
end

section
/-! SUPPORT. Selection at the egress of a port: the heads of its queues, and what a frame that leaves an external port changes (R312, R315,
R316, R318, R332). -/
namespace Sys2Proof.Machine

/-! ### The head that is selected (R312) -/

/-- The classes from the highest down, cut at class `c`. -/
theorem fins_reverse_cut : ∀ c : Fin 8, (fins 8).reverse =
    ((fins 8).filter fun d => c < d).reverse ++ c :: ((fins 8).filter fun d => d < c).reverse := by decide

theorem egressPick_highest {ok : Fin 8 → TxFrame → Bool} {t : Port} {c : Fin 8} {f : TxFrame} (head : (t.q[c]).head? = some f)
    (starts : ok c f = true) (higher : ∀ d : Fin 8, c < d → ∀ g, (t.q[d]).head? = some g → ok d g = false) :
    egressPick ok t = some (c, f) := by
  refine List.findSome?_eq_some_iff.mpr ⟨_, c, _, fins_reverse_cut c, ?_, fun d above => ?_⟩
  · rw [head, Option.bind_some, if_pos starts]
  · have order : c < d := by simpa [fins] using above
    cases first : (t.q[d]).head? with
    | none => rfl
    | some g => rw [Option.bind_some, higher d order g first, if_neg Bool.false_ne_true]

theorem egressPick_none {ok : Fin 8 → TxFrame → Bool} {t : Port}
    (blocked : ∀ (c : Fin 8) f, (t.q[c]).head? = some f → ok c f = false) : egressPick ok t = none := by
  refine List.findSome?_eq_none_iff.mpr fun c _ => ?_
  cases first : (t.q[c]).head? with
  | none => rfl
  | some g => rw [Option.bind_some, blocked c g first, if_neg Bool.false_ne_true]

/-! ### No late frame at a head (R316) -/

theorem State.dropLate_inTime {s : State} {p c : Fin 8} (inTime : ∀ f, ((s.sw.port[p]).q[c]).head? = some f → isLate s f = false)
    (fuel : Nat) : State.dropLate p c fuel s = s := by
  cases fuel with
  | zero => rfl
  | succ n =>
    unfold State.dropLate
    split
    · next f head => rw [inTime f head, if_neg Bool.false_ne_true]
    · rfl

section
variable {s : State} {p : Fin 8} (inTime : ∀ c : Fin 8, ∀ f, ((s.sw.port[p]).q[c]).head? = some f → isLate s f = false)
include inTime

theorem State.dropLate_all_inTime : (s.forEach (fins 8) fun s c => State.dropLate p c 65 s) = s := by
  refine forEach_induct (fun t => t = s) _ _ (fun t c _ same => ?_) s rfl
  subst same
  exact State.dropLate_inTime (inTime c) 65

end

theorem State.purge_awake {s : State} (p : Fin 8) (awake : s.pw.state ≠ .safeHold) : s.purge p = s := if_neg (by simp [awake])

/-- EGRESS_SELECT at a port with no late head, outside SAFE_HOLD: the credits come to the present and a head is looked for. -/
theorem egressSelect_looks {s : State} (runs : swRuns s = true) {p : Fin 8} (awake : s.pw.state ≠ .safeHold)
    (inTime : ∀ c : Fin 8, ∀ f, (((s.cbsNow p).sw.port[p]).q[c]).head? = some f → isLate s f = false) :
    exec (.egressSelect p) s =
      let z := s.cbsNow p
      let t := z.sw.port[p]
      if h : p.val < 6 then
        if t.mode = 0#3 || !t.link || decide (z.tb.timeFix < t.txFree) then .next z
        else match egressPick (mayStart z t) t with
          | some (c, f) => .next (z.transmit ⟨p.val, h⟩ c f)
          | none => .next z
      else match egressPick (fun _ f => f.launch.elim true fun l => decide (l * nsUnit ≤ z.tb.timeFix)) t with
        | some (c, f) => .next (z.deliver p c f)
        | none => .next z := by
  have none_late : ((s.cbsNow p).forEach (fins 8) fun s c => State.dropLate p c 65 s) = s.cbsNow p :=
    State.dropLate_all_inTime inTime
  have live : ¬(decide (p = 7) && decide (s.pw.state = .safeHold)) = true := by simp [awake]
  change execEgressSelect p s = _
  unfold execEgressSelect
  rw [s.purge_awake p awake, none_late, runs]
  dsimp only
  rw [if_neg live]
  rfl

/-! ### A frame leaves an external port (R312, R318, R332) -/

theorem State.ntSend_spares (s : State) (p : Fin 6) (f : List Byte) (inTs : Nat) (st : Stamp) :
    (s.sw.port[extPort p]).SendsAs ((s.ntSend p f inTs st).sw.port[extPort p]) ∧ (s.ntSend p f inTs st).tb = s.tb := by
  unfold State.ntSend
  split
  · exact ⟨⟨rfl, rfl⟩, rfl⟩
  · obtain ⟨g, _, _, _, _, queues, sends⟩ := s.enqueue_frame (extPort p) 6 { bytes := f, src := 6, inTs := inTs, stamp := st }
    rw [queues]
    refine ⟨?_, rfl⟩
    rw [show (s.modPort (extPort p) g).sw.port[extPort p] = g (s.sw.port[extPort p]) from s.port_modPort_same _ g]
    exact sends _

/-- What the egress timestamp does there sends nothing: it is noted, or a follow-up is queued (R332). -/
theorem State.egressStamp_spares (s : State) (p : Fin 6) (f : TxFrame) (t : Nat) :
    (s.sw.port[extPort p]).SendsAs ((s.egressStamp p f t).sw.port[extPort p]) ∧ (s.egressStamp p f t).tb = s.tb := by
  unfold State.egressStamp
  split
  · exact ⟨⟨rfl, rfl⟩, rfl⟩
  · exact s.ntSend_spares p _ _ _
  · exact ⟨⟨rfl, rfl⟩, rfl⟩

theorem State.egressStamp_plain (s : State) (p : Fin 6) {f : TxFrame} (plain : f.stamp = .none) (t : Nat) : s.egressStamp p f t = s := by
  unfold State.egressStamp
  rw [plain]

/-- The bytes that a frame leaves with when its transmission begins now: the timestamp is taken after the preamble (R318). -/
def State.onWire (s : State) (p : Fin 6) (f : TxFrame) : List Byte :=
  f.stamped ((s.tb.timeFix + bytesTime 8 (modeRate (s.sw.port[extPort p]).mode)) / nsUnit)

/-- A port whose head of class `c` has begun to leave at `t0` with the bytes `b`. -/
def Port.sending (t : Port) (c : Fin 8) (t0 : Nat) (b : List Byte) : Port :=
  { t with
    q := upd t.q c fun q => q.drop 1
    txClass := c, txEnd := t0 + bytesTime (b.length + 12) (modeRate t.mode), txFree := t0 + bytesTime (b.length + 24) (modeRate t.mode)
    cnt := upd t.cnt 1 satInc }

/-- The head of class `c` has begun to leave an external port. -/
def State.sending (s : State) (p : Fin 6) (c : Fin 8) (f : TxFrame) : State :=
  { s.modPort (extPort p) fun t => t.sending c s.tb.timeFix (s.onWire p f) with
    out := .frame p.val (s.onWire p f ++ frFcs (s.onWire p f)) :: s.out }

theorem State.modPort_congr (s : State) (p : Fin 8) {f g : Port → Port} (agree : f s.sw.port[p] = g s.sw.port[p]) :
    s.modPort p f = s.modPort p g := by
  rw [State.modPort, State.modPort, upd_congr agree]

theorem State.frameGone_spares (s : State) (f : TxFrame) (d : Bool) : (s.frameGone f d).sw = s.sw ∧ (s.frameGone f d).tb = s.tb := by
  obtain ⟨_, _, gone⟩ := s.frameGone_frame f d
  rw [gone]
  exact ⟨rfl, rfl⟩

theorem State.transmit_eq (s : State) (p : Fin 6) (c : Fin 8) (f : TxFrame) : ∃ stamp,
    s.transmit p c f = ((s.sending p c f).egressStamp p f stamp).frameGone f false := by
  refine ⟨(s.tb.timeFix + bytesTime 8 (modeRate (s.sw.port[extPort p]).mode)) / nsUnit, ?_⟩
  unfold State.transmit State.sending
  dsimp only
  rw [State.dequeue, State.ptCount, State.modPort_modPort, State.modPort_modPort]
  refine congrArg (fun u : State => (u.egressStamp p f _).frameGone f false) ?_
  exact congrArg (fun u : State => { u with out := .frame p.val (s.onWire p f ++ frFcs (s.onWire p f)) :: s.out })
    (s.modPort_congr _ rfl)

theorem State.sending_port (s : State) (p : Fin 6) (c : Fin 8) (f : TxFrame) :
    (s.sending p c f).sw.port[extPort p] = (s.sw.port[extPort p]).sending c s.tb.timeFix (s.onWire p f) := s.port_modPort_same _ _

theorem State.transmit_shows (s : State) (p : Fin 6) (c : Fin 8) (f : TxFrame) :
    let q := extPort p
    let b := s.onWire p f
    let t := s.transmit p c f
    (.frame p.val (b ++ frFcs b) :: s.out <:+ t.out ∧
      (t.sw.port[q]).txFree = s.tb.timeFix + bytesTime (b.length + 24) (modeRate (s.sw.port[q]).mode)) ∧
    (t.sw.port[q]).cnt[(1 : Fin 6)] = satInc (s.sw.port[q]).cnt[(1 : Fin 6)] ∧ t.tb = s.tb ∧
    (f.stamp = .none → (t.sw.port[q]).q[c] = ((s.sw.port[q]).q[c]).drop 1 ∧
      ∀ d : Fin 8, d ≠ c → (t.sw.port[q]).q[d] = (s.sw.port[q]).q[d]) := by
  dsimp only
  obtain ⟨stamp, leaves⟩ := s.transmit_eq p c f
  obtain ⟨sends, tb⟩ := (s.sending p c f).egressStamp_spares p f stamp
  have out : (s.sending p c f).out <:+ (s.transmit p c f).out := by
    rw [leaves]
    exact (State.frameGone_keeps f false (State.egressStamp_keeps p f stamp (.refl _))).out
  obtain ⟨sw, clock⟩ := ((s.sending p c f).egressStamp p f stamp).frameGone_spares f false
  rw [s.sending_port p c f] at sends
  obtain ⟨txFree, cnt⟩ := sends
  rw [← leaves] at sw clock
  rw [sw, clock]
  refine ⟨⟨out, txFree⟩, cnt.trans (upd_at _ _ _), tb, fun plain => ?_⟩
  have port : (((s.sending p c f).egressStamp p f stamp).sw.port[extPort p]).q = upd (s.sw.port[extPort p]).q c fun q => q.drop 1 := by
    rw [State.egressStamp_plain _ p plain, State.sending_port]
    rfl
  constructor
  · exact (congrArg (fun q : Vector (List TxFrame) 8 => q[c]) port).trans (upd_at _ _ _)
  · exact fun d other => (congrArg (fun q : Vector (List TxFrame) 8 => q[d]) port).trans (upd_beside _ _ other)

/-! ### EGRESS_SELECT at an external port -/

section
variable {s : State} (runs : swRuns s = true) (awake : s.pw.state ≠ .safeHold) {p : Fin 6}
  (inTime : ∀ c : Fin 8, ∀ f, (((s.cbsNow (extPort p)).sw.port[extPort p]).q[c]).head? = some f → isLate s f = false)
  (enabled : ((s.cbsNow (extPort p)).sw.port[extPort p]).mode ≠ 0#3) (linked : ((s.cbsNow (extPort p)).sw.port[extPort p]).link = true)
  (idle : ((s.cbsNow (extPort p)).sw.port[extPort p]).txFree ≤ s.tb.timeFix)
include runs awake inTime enabled linked idle

theorem egressSelect_picks : exec (.egressSelect (extPort p)) s =
    let z := s.cbsNow (extPort p)
    match egressPick (mayStart z (z.sw.port[extPort p])) (z.sw.port[extPort p]) with
    | some (c, f) => .next (z.transmit p c f)
    | none => .next z :=
  (egressSelect_looks runs awake inTime).trans ((dif_pos p.isLt).trans (if_neg (by
    have clock : (s.cbsNow (extPort p)).tb.timeFix = s.tb.timeFix := rfl
    simp [-Fin.getElem_fin, enabled, linked, clock, idle])))

theorem egressSelect_sends {c : Fin 8} {f : TxFrame} (head : (((s.cbsNow (extPort p)).sw.port[extPort p]).q[c]).head? = some f)
    (starts : mayStart (s.cbsNow (extPort p)) ((s.cbsNow (extPort p)).sw.port[extPort p]) c f = true)
    (higher : ∀ d : Fin 8, c < d → ∀ g, (((s.cbsNow (extPort p)).sw.port[extPort p]).q[d]).head? = some g →
      mayStart (s.cbsNow (extPort p)) ((s.cbsNow (extPort p)).sw.port[extPort p]) d g = false) :
    exec (.egressSelect (extPort p)) s = .next ((s.cbsNow (extPort p)).transmit p c f) := by
  rw [egressSelect_picks runs awake inTime enabled linked idle]
  dsimp only
  rw [egressPick_highest head starts higher]

theorem egressSelect_rests (blocked : ∀ (c : Fin 8) f, (((s.cbsNow (extPort p)).sw.port[extPort p]).q[c]).head? = some f →
      mayStart (s.cbsNow (extPort p)) ((s.cbsNow (extPort p)).sw.port[extPort p]) c f = false) :
    exec (.egressSelect (extPort p)) s = .next (s.cbsNow (extPort p)) := by
  rw [egressSelect_picks runs awake inTime enabled linked idle]
  dsimp only
  rw [egressPick_none blocked]

end

end Sys2Proof.Machine
end

section
/-! SUPPORT. What the network time unit leaves of a port when it takes a frame, and the delivery of frames at ports 6 and 7 (R310, R326,
R330 to R335). -/
namespace Sys2Proof.Machine

/-- Port `i` is as before. -/
def PortKept (i : Fin 8) (s t : State) : Prop := t.sw.port[i] = s.sw.port[i]

section
variable {i : Fin 8} {s t u : State}

theorem PortKept.refl : PortKept i s s := rfl

theorem PortKept.trans (first : PortKept i s t) (second : PortKept i t u) : PortKept i s u := Eq.trans second first

theorem PortKept.ite {p : Prop} [Decidable p] (yes : PortKept i s t) (no : PortKept i s u) : PortKept i s (if p then t else u) := by
  split
  · exact yes
  · exact no

theorem PortKept.forEach {α : Type} {l : List α} {g : State → α → State} (each : ∀ t x, PortKept i t (g t x)) (s : State) :
    PortKept i s (s.forEach l g) :=
  forEach_induct (PortKept i s) l g (fun t x _ so => so.trans (each t x)) s .refl

theorem BesideSwitch.portKept (beside : BesideSwitch s t) : PortKept i s t := by rw [PortKept, beside.1]

variable (s)

/-! ### Network time (R330 to R335) -/

theorem State.modDom_besideSwitch (d : Fin 2) (g : NtDom → NtDom) : BesideSwitch s (s.modDom d g) := ⟨rfl, rfl⟩

theorem State.modNtPort_besideSwitch (p : Fin 6) (g : NtPort → NtPort) : BesideSwitch s (s.modNtPort p g) := ⟨rfl, rfl⟩

theorem State.ntSet_besideSwitch (k : Nat) : BesideSwitch s (s.ntSet k) := (s.ntSet_ring k).besideSwitch

theorem State.domState_besideSwitch (d : Fin 2) (st : NtDomState) : BesideSwitch s (s.domState d st) := by
  unfold State.domState
  dsimp only
  refine .ite .refl (.trans (.ite ?_ (s.modDom_besideSwitch d _)) ((State.ntSet_besideSwitch _ 1).trans (State.emit_besideSwitch _ _ _ _)))
  exact (s.modDom_besideSwitch d _).trans (State.modDom_besideSwitch _ d _)

theorem State.asCapable_portKept (p : Fin 6) (b : Bool) : PortKept i s (s.asCapable p b) :=
  .ite (s.modNtPort_besideSwitch p _).portKept ((s.modNtPort_besideSwitch p _).portKept.trans
    (.forEach (fun t d => .ite (t.domState_besideSwitch d _).portKept .refl) _))

theorem State.syncReject_besideSwitch (d : Fin 2) : BesideSwitch s (s.syncReject d) :=
  (s.modDom_besideSwitch d _).trans (State.ntSet_besideSwitch _ 4)

theorem ntFit_besideSwitch (h : List NtSync) : BesideSwitch s (ntFit s h).2 := by
  unfold ntFit
  split
  · exact .refl
  · dsimp only
    split
    · exact .refl
    split
    · exact .refl
    · exact ⟨rfl, rfl⟩

theorem State.syncTrack_besideSwitch (d : Fin 2) (p : Fin 6) (m : PtpMsg) : BesideSwitch s (s.syncTrack d p m) := by
  unfold State.syncTrack
  extract_lets s1 x t c a th stepped s2 y gap run osc h fit near s3
  have relisten : BesideSwitch s s1 := .ite (s.domState_besideSwitch d _) .refl
  have restart : BesideSwitch s1 s2 := .ite ((s1.domState_besideSwitch d _).trans (State.modDom_besideSwitch _ d _)) .refl
  have fitted : BesideSwitch s2 s3 := (ntFit_besideSwitch s2 h).trans (State.modDom_besideSwitch _ d _)
  have tracked := relisten.trans (restart.trans fitted)
  exact .ite (tracked.trans (s3.domState_besideSwitch d _)) tracked

theorem State.pdelayDone_portKept (p : Fin 6) (m g : PtpMsg) : PortKept i s (s.pdelayDone p m g) := by
  unfold State.pdelayDone
  dsimp only
  split
  · exact .refl
  · have measured (x : NtPort → NtPort) : PortKept i s (s.modNtPort p x) := (s.modNtPort_besideSwitch p x).portKept
    exact .ite .refl (.ite ((measured _).trans (State.asCapable_portKept _ p _))
      (.ite ((measured _).trans (State.asCapable_portKept _ p _)) (measured _)))

/-! ### Frames that the unit sends -/

section
variable {s} (internal : ∀ p : Fin 6, i ≠ extPort p)
include internal

theorem State.ntSend_portKept (p : Fin 6) (f : List Byte) (inTs : Nat) (st : Stamp) : PortKept i s (s.ntSend p f inTs st) :=
  .ite .refl (s.enqueue_port_ne 6 _ (internal p))

theorem State.syncRelay_portKept (d : Fin 2) (p q : Fin 6) (m : PtpMsg) : PortKept i s (s.syncRelay d p q m) :=
  .ite ((s.modDom_besideSwitch d _).portKept.trans (State.ntSend_portKept internal q _ _ _)) .refl

theorem State.syncAccept_portKept (d : Fin 2) (p : Fin 6) (m : PtpMsg) : PortKept i s (s.syncAccept d p m) :=
  (s.syncTrack_besideSwitch d p m).portKept.trans (.forEach (fun _ q => State.syncRelay_portKept internal d p q m) _)

theorem State.syncMsg_portKept (p : Fin 6) (m : PtpMsg) : PortKept i s (s.syncMsg p m) := by
  unfold State.syncMsg
  split
  · exact .refl
  · next d _ =>
    extract_lets s1
    have freed : PortKept i s s1 :=
      .ite ((s.syncReject_besideSwitch d).trans (State.modDom_besideSwitch _ d _)).portKept .refl
    exact freed.trans (.ite (s1.syncReject_besideSwitch d).portKept
      (.ite (s1.modDom_besideSwitch d _).portKept (State.syncAccept_portKept internal d p m)))

theorem State.followUpMsg_portKept (p : Fin 6) (m : PtpMsg) : PortKept i s (s.followUpMsg p m) := by
  unfold State.followUpMsg
  split
  · exact .refl
  split
  · exact (s.syncReject_besideSwitch _).portKept
  · exact .ite (State.syncAccept_portKept internal _ p _) (s.syncReject_besideSwitch _).portKept

/-- Whatever the unit does with a frame, a port of the device keeps its queues (R330). -/
theorem State.ntTake_portKept (p : Fin 6) (f : List Byte) (rx : Nat) : PortKept i s (s.ntTake p f rx).2 := by
  unfold State.ntTake
  dsimp only
  split
  · exact .refl
  split
  · exact State.ntSend_portKept internal p _ _ _
  split
  · exact (s.modNtPort_besideSwitch p _).portKept
  split
  · dsimp only
    split
    · exact s.pdelayDone_portKept p _ _
    · exact .refl
  split
  · exact .refl
  split
  · exact State.syncMsg_portKept internal p _
  split
  · exact State.followUpMsg_portKept internal p _
  · exact .refl

end

/-! ### Drive traffic at port 6 -/

theorem State.swCount_portKept (k : Fin 4) : PortKept i s (s.swCount k) := rfl

theorem State.swSet_portKept (k : Nat) : PortKept i s (s.swSet k) := rfl

theorem State.dupCounted_portKept (a : Fin 80) : PortKept i s (s.dupCounted a) := .ite (s.swCount_portKept 3) .refl

theorem State.setDr_portKept (dr : Vector Drive 80) : PortKept i s { s with dr := dr } := rfl

theorem State.driveRec_portKept (ws : List (BitVec 32)) (dis : Bool) (k : Nat) : PortKept i s (s.driveRec ws dis k) := by
  rw [State.driveRec_eq]
  exact (s.dupCounted_portKept _).trans ((State.setDr_portKept _ _).trans (State.fbPdu_besideSwitch _ _ _ _ _).portKept)

theorem State.driveTraffic_portKept (p : Fin 8) (data : List Byte) (dis : Bool) : PortKept i s (s.driveTraffic p data dis) := by
  unfold State.driveTraffic
  dsimp only
  split
  · exact (s.swCount_portKept 2).trans ((State.swSet_portKept _ _).trans (State.emit_besideSwitch _ _ _ _).portKept)
  · exact .ite ((s.swCount_portKept 1).trans (.forEach (fun t k => t.driveRec_portKept _ dis k) _))
      ((s.swCount_portKept 1).trans (State.sensPdu_besideSwitch _ _ _ _).portKept)

/-! ### Delivery (R310, R326, R330) -/

/-- A frame taken off its queue and counted as sent. -/
def State.sentOn (s : State) (p c : Fin 8) : State :=
  s.modPort p fun t => { t with q := upd t.q c fun q => q.drop 1, cnt := upd t.cnt 1 satInc }

theorem State.sentOn_port (p c : Fin 8) : (s.sentOn p c).sw.port[p] =
    { s.sw.port[p] with q := upd (s.sw.port[p]).q c fun q => q.drop 1, cnt := upd (s.sw.port[p]).cnt 1 satInc } :=
  s.port_modPort_same p _

theorem State.deliver_portKept {p : Fin 8} (internal : ∀ k : Fin 6, p ≠ extPort k) (c : Fin 8) (f : TxFrame) :
    PortKept p (s.sentOn p c) (s.deliver p c f) := by
  have gone : PortKept p (s.sentOn p c) (((s.dequeue p c).ptCount p 1).frameGone f false) := by
    rw [State.dequeue, State.ptCount, State.modPort_modPort]
    exact (State.frameGone_besideSwitch _ f false).portKept
  unfold State.deliver
  dsimp only
  split
  · exact gone.trans (.ite (State.driveTraffic_portKept _ _ _ _) .refl)
  split
  · exact gone.trans (.ite (State.ntTake_portKept internal _ _ _)
      ((State.ntTake_portKept internal _ _ _).trans (State.hostRx_besideSwitch _ f).portKept))
  · exact gone.trans (State.hostRx_besideSwitch _ f).portKept

end

end Sys2Proof.Machine
end

section
/-! SUPPORT. Ports 6 and 7, launch times, gate control lists, and the settlement of O47 (R312 to R316). -/
namespace Sys2Proof.Machine

/-! ### EGRESS_SELECT at ports 6 and 7 -/

theorem State.cbsNow_q (s : State) (p : Fin 8) : ((s.cbsNow p).sw.port[p]).q = (s.sw.port[p]).q := by
  rw [State.port_cbsNow_same, Port.credits_q]

theorem State.cbsNow_cnt (s : State) (p : Fin 8) : ((s.cbsNow p).sw.port[p]).cnt = (s.sw.port[p]).cnt := by
  rw [State.port_cbsNow_same, Port.credits_cnt]

theorem internal_port {p : Fin 8} (internal : p = 6 ∨ p = 7) : ¬p.val < 6 ∧ ∀ k : Fin 6, p ≠ extPort k := by
  have outside : ¬p.val < 6 := by rcases internal with rfl | rfl <;> decide
  exact ⟨outside, fun k same => outside (same ▸ k.isLt)⟩

section
variable {s : State} (runs : swRuns s = true) {p : Fin 8} (internal : p = 6 ∨ p = 7) (awake : s.pw.state ≠ .safeHold)
  (inTime : ∀ c : Fin 8, ∀ f, ((s.sw.port[p]).q[c]).head? = some f → isLate s f = false)
  {c : Fin 8} {f : TxFrame} (head : ((s.sw.port[p]).q[c]).head? = some f)
  (due : ∀ l, f.launch = some l → l * 4294967296 ≤ s.tb.timeFix)
  (higher : ∀ d : Fin 8, c < d → ∀ g, ((s.sw.port[p]).q[d]).head? = some g →
    ∃ l, g.launch = some l ∧ s.tb.timeFix < l * 4294967296)
include runs internal awake inTime head due higher

theorem egressSelect_hands : exec (.egressSelect p) s = .next ((s.cbsNow p).deliver p c f) := by
  have queues := s.cbsNow_q p
  have unit : nsUnit = 4294967296 := rfl
  have starts : (f.launch.elim true fun l => decide (l * nsUnit ≤ (s.cbsNow p).tb.timeFix)) = true := by
    cases launch : f.launch with
    | none => rfl
    | some l =>
      rw [Option.elim_some, unit]
      exact decide_eq_true (due l launch)
  rw [egressSelect_looks runs awake (by simpa only [queues] using inTime)]
  dsimp only
  rw [dif_neg (internal_port internal).1, egressPick_highest (by rw [queues]; exact head) starts fun d above g first => ?_]
  obtain ⟨l, launch, early⟩ := higher d above g (by rwa [queues] at first)
  rw [launch, Option.elim_some, unit]
  exact decide_eq_false (Nat.not_le.mpr early)

theorem egressSelect_delivers :
    ∃ t, exec (.egressSelect p) s = .next t ∧ (t.sw.port[p]).cnt[(1 : Fin 6)] = satInc (s.sw.port[p]).cnt[(1 : Fin 6)] ∧
      (t.sw.port[p]).q[c] = ((s.sw.port[p]).q[c]).drop 1 ∧ ∀ d : Fin 8, d ≠ c → (t.sw.port[p]).q[d] = (s.sw.port[p]).q[d] := by
  have kept := (s.cbsNow p).deliver_portKept (internal_port internal).2 c f
  rw [PortKept, State.sentOn_port, State.cbsNow_q, State.cbsNow_cnt] at kept
  have queues : (((s.cbsNow p).deliver p c f).sw.port[p]).q = upd (s.sw.port[p]).q c fun q => q.drop 1 := by rw [kept]
  have counts : (((s.cbsNow p).deliver p c f).sw.port[p]).cnt = upd (s.sw.port[p]).cnt 1 satInc := by rw [kept]
  refine ⟨_, egressSelect_hands runs internal awake inTime head due higher, ?_⟩
  rw [queues, counts, upd_at, upd_at]
  exact ⟨rfl, rfl, fun d => upd_beside _ _⟩

end

/-! ### Launch times (R316) -/

/-- The head of class `c` has been taken off for its launch time, and its port shows it. -/
def State.late (s : State) (p c : Fin 8) : State := ((s.cbsNow p).dequeue p c).modPort p Port.tellLate

section
variable (s : State) (p c : Fin 8)

theorem State.late_port_same : (s.late p c).sw.port[p] =
    Port.tellLate { (s.sw.port[p]).credits s.tb.timeFix with q := upd (s.sw.port[p]).q c fun q => q.drop 1 } := by
  rw [State.late, State.port_modPort_same, State.dequeue, State.port_modPort_same, State.port_cbsNow_same, Port.credits_q]

theorem State.late_q_same : ((s.late p c).sw.port[p]).q[c] = ((s.sw.port[p]).q[c]).drop 1 := by
  rw [State.late_port_same]
  exact upd_at _ _ _

theorem State.late_cnt : ((s.late p c).sw.port[p]).cnt[(3 : Fin 6)] = satInc (s.sw.port[p]).cnt[(3 : Fin 6)] := by
  rw [State.late_port_same, Port.tellLate, Port.credits_cnt]
  exact upd_at _ _ _

theorem State.late_q_ne {i d : Fin 8} (other : ¬(i = p ∧ d = c)) : ((s.late p c).sw.port[i]).q[d] = (s.sw.port[i]).q[d] := by
  by_cases here : i = p
  · subst here
    rw [State.late_port_same]
    exact upd_beside _ _ fun same => other ⟨rfl, same⟩
  · rw [State.late, State.port_modPort_ne _ _ _ here, State.dequeue, State.port_modPort_ne _ _ _ here, State.cbsNow,
      State.port_modPort_ne _ _ _ here]

end

theorem State.now_of_tb {s t : State} (same : t.tb = s.tb) : t.now = s.now := by rw [State.now, State.now, same]

theorem State.lateFrame_late (s : State) (p c : Fin 8) (f : TxFrame) :
    (((s.cbsNow p).dequeue p c).lateFrame p c f).sw = (s.late p c).sw ∧
      (((s.cbsNow p).dequeue p c).lateFrame p c f).now = s.now := by
  obtain ⟨_, _, _, _, late⟩ := ((s.cbsNow p).dequeue p c).lateFrame_frame p c f
  rw [late]
  exact ⟨rfl, State.now_of_tb rfl⟩

section
variable {s : State} (runs : swRuns s = true) {p c : Fin 8} {f : TxFrame} {l : Nat} (head : ((s.sw.port[p]).q[c]).head? = some f)
  (launch : f.launch = some l)
include runs head launch

theorem launchTimeReached_waits :
    exec (.launchTimeReached p c) s = .next { s with tb.timeFix := max s.tb.timeFix (l * 4294967296) } := by
  change execLaunchTimeReached p c s = _
  rw [execLaunchTimeReached, head, Option.bind_some, launch]
  exact (if_pos runs).trans (congrArg _ (s.reach_eq l))

theorem lateFrame_leaves : exec (.lateFrame p c) s =
    .next ((((s.reach (l + s.sw.lateWin.toNat)).cbsNow p).dequeue p c).lateFrame p c f) := by
  change execLateFrame p c s = _
  rw [execLateFrame, head]
  dsimp only
  rw [launch]
  exact if_pos runs

theorem lateFrame_discards : ∃ t, exec (.lateFrame p c) s = .next t ∧ (t.sw.port[p]).q[c] = ((s.sw.port[p]).q[c]).drop 1 ∧
    (t.sw.port[p]).cnt[(3 : Fin 6)] = satInc (s.sw.port[p]).cnt[(3 : Fin 6)] ∧ l + s.sw.lateWin.toNat ≤ t.now ∧
    ∀ i d : Fin 8, ¬(i = p ∧ d = c) → (t.sw.port[i]).q[d] = (s.sw.port[i]).q[d] := by
  have ran := lateFrame_leaves runs head launch
  have reached := s.le_reach_now (l + s.sw.lateWin.toNat)
  have switch : (s.reach (l + s.sw.lateWin.toNat)).sw = s.sw := by rw [State.reach_eq]
  generalize s.reach (l + s.sw.lateWin.toNat) = z at *
  obtain ⟨sw, now⟩ := z.lateFrame_late p c f
  refine ⟨_, ran, ?_⟩
  rw [← switch] at reached ⊢
  rw [sw, now]
  exact ⟨z.late_q_same p c, z.late_cnt p c, reached, fun i d => z.late_q_ne p c⟩

end

/-! ### Gate control lists (R313, R314) -/

/-- R313: the start that is looked for strictly after `t` is the least instant base + k × cycle beyond it. -/
theorem gclStart_after {s : State} {g : GclCfg} {t : Nat} (cycle : 0 < g.cycle.toNat) (began : 0 ≤ g.base - s.nt.ofs) :
    t < gclStart s g t true ∧ (∃ k : Nat, (gclStart s g t true : Int) = (g.base - s.nt.ofs + k * g.cycle.toNat) * 4294967296) ∧
      ∀ k : Nat, (t : Int) < (g.base - s.nt.ofs + k * g.cycle.toNat) * 4294967296 →
        (gclStart s g t true : Int) ≤ (g.base - s.nt.ofs + k * g.cycle.toNat) * 4294967296 := by
  have unit : (nsUnit : Int) = 4294967296 := rfl
  unfold gclStart
  dsimp only
  rw [unit]
  generalize g.base - s.nt.ofs = b at *
  obtain ⟨c, whole⟩ : ∃ c : Int, c = (g.cycle.toNat : Int) := ⟨_, rfl⟩
  have positive : 0 < c := by omega
  rw [← whole]
  rw [if_neg (by omega)]
  split
  · next early =>
    have before : (t : Int) < b * 4294967296 := by simpa using early
    refine ⟨by omega, ⟨0, by omega⟩, fun k _ => ?_⟩
    have : 0 ≤ (k : Int) * c := by positivity
    omega
  · next late =>
    have after : b * 4294967296 ≤ (t : Int) := by simpa using late
    have length : 0 < c * 4294967296 := by omega
    have ahead : 1 ≤ (t - b * 4294967296) / (c * 4294967296) + 1 := by
      have := Int.ediv_nonneg (show 0 ≤ t - b * 4294967296 by omega) length.le
      omega
    have next := Int.lt_ediv_add_one_mul_self (t - b * 4294967296) length
    have least (k : Int) (later : t < (b + k * c) * 4294967296) : (t - b * 4294967296) / (c * 4294967296) + 1 ≤ k :=
      Int.add_one_le_of_lt (Int.ediv_lt_of_lt_mul length (by linarith))
    rw [if_pos rfl]
    generalize (t - b * 4294967296) / (c * 4294967296) + 1 = n at *
    have start : ((b * 4294967296 + n * (c * 4294967296)).toNat : Int) = (b + n * c) * 4294967296 := by
      rw [Int.toNat_of_nonneg (by omega)]
      ring
    rw [start]
    refine ⟨by omega, ⟨n.toNat, by rw [Int.toNat_of_nonneg (by omega)]⟩, fun k later => ?_⟩
    have : n * c ≤ k * c := mul_le_mul_of_nonneg_right (least k later) positive.le
    omega

theorem State.reachFix_eq (s : State) (t : Nat) : s.reachFix t = { s with tb.timeFix := max s.tb.timeFix t } := by
  unfold State.reachFix
  split
  · next ahead => rw [max_eq_right ahead.le]
  · next behind => rw [max_eq_left (Nat.not_lt.mp behind)]

/-- The gate cycle of port `p` goes on at entry or cycle `r`. -/
def State.gateRuns (s : State) (p : Fin 8) (r : GclRun) : State := (s.cbsNow p).modPort p fun x => { x with run := some r }

theorem State.gateRuns_run (s : State) (p : Fin 8) (r : GclRun) : ((s.gateRuns p r).sw.port[p]).run = some r :=
  congrArg Port.run (State.port_modPort_same _ p _)

/-- A cycle begins with the operational list when no change awaits it. -/
theorem State.gclBegin_plain {s : State} {p : Fin 8} (alone : (s.sw.port[p]).swap = none) (t : Nat) (swap : Bool) :
    s.gclBegin p t swap = s.gateRuns p { idx := 0, start := t, cycStart := t } := by
  have still : ((s.cbsNow p).sw.port[p]).swap = none := by
    obtain ⟨_, _, counts⟩ := (s.sw.port[p]).credits_frame s.tb.timeFix
    rw [State.port_cbsNow_same, counts]
    exact alone
  unfold State.gclBegin
  dsimp only
  rw [still]
  rfl

section
variable {s : State} (runs : swRuns s = true) {p : Fin 6} {r : GclRun} (cycle : (s.sw.port[extPort p]).run = some r)
include runs cycle

theorem gclEntryAdvance_advances {e : Nat}
    (ends : r.start + (s.sw.port[extPort p]).interval (s.sw.port[extPort p]).bank r.idx = e)
    (more : r.idx + 1 < (s.sw.port[extPort p]).oper.len.toNat) (within : ∀ c, cycleEnd s s.sw.port[extPort p] r = some c → e < c) :
    ∃ t, exec (.gclEntryAdvance p) s = .next t ∧ (t.sw.port[extPort p]).run = some { r with idx := r.idx + 1, start := e } ∧
      t.tb.timeFix = max s.tb.timeFix e ∧ { t with sw := s.sw, tb := s.tb } = s := by
  have acts : (swRuns s && decide (r.idx + 1 < (s.sw.port[extPort p]).oper.len.toNat) &&
      ((cycleEnd s s.sw.port[extPort p] r).elim true fun c => decide (e < c))) = true := by
    rw [runs, decide_eq_true more]
    cases cycleEnds : cycleEnd s s.sw.port[extPort p] r with
    | none => rfl
    | some c => exact decide_eq_true (within c cycleEnds)
  have ran : exec (.gclEntryAdvance p) s = .next ((s.reachFix e).gateRuns (extPort p) { r with idx := r.idx + 1, start := e }) := by
    change execGclEntryAdvance p s = _
    unfold execGclEntryAdvance
    dsimp only
    rw [cycle]
    dsimp only
    rw [ends]
    exact if_pos acts
  rw [State.reachFix_eq] at ran
  exact ⟨_, ran, State.gateRuns_run _ _ _, rfl, rfl⟩

theorem gclCycleStart_begins (own : (s.sw.port[extPort p]).oper.src = false) (alone : (s.sw.port[extPort p]).swap = none)
    {b : Nat} (starts : gclStart s (s.sw.port[extPort p]).oper r.cycStart true = b) :
    ∃ t, exec (.gclCycleStart p) s = .next t ∧ (t.sw.port[extPort p]).run = some { idx := 0, start := b, cycStart := b } ∧
      { t with sw := s.sw, tb := s.tb } = s := by
  have ran : exec (.gclCycleStart p) s = .next ((s.reachFix b).gclBegin (extPort p) b false) := by
    change execGclCycleStart p s = _
    unfold execGclCycleStart
    dsimp only
    rw [runs, own, alone, cycle]
    dsimp only
    rw [starts]
    rfl
  have still : ((s.reachFix b).sw.port[extPort p]).swap = none := by
    rw [State.reachFix_eq]
    exact alone
  rw [State.gclBegin_plain still, State.reachFix_eq] at ran
  exact ⟨_, ran, State.gateRuns_run _ _ _, rfl⟩

end

/-- The fields of PT_GCL_CTRL that a SWAP request writes (R313, R314). -/
def GclCfg.asked (g : GclCfg) (v : BitVec 32) : GclCfg := { g with src := v.getLsbD 1, len := BitVec.extractLsb' 3 9 v }

/-- The port when PT_GCL_CTRL has been written, before the SWAP is looked at. -/
def State.gclWritten (s : State) (p : Fin 8) (v : BitVec 32) : State :=
  (s.cbsNow p).modPort p fun t => { t with gclEn := v.getLsbD 0, adm := t.adm.asked v }

theorem State.setGclCtrl_swap (s : State) (p : Fin 8) (v : BitVec 32) : s.setGclCtrl p (setBit v 12) =
    if gclOk ((s.gclWritten p v).sw.port[p]) then
      (s.gclWritten p v).modPort p fun t => { t with swap := some t.adm, swapAt := s.tb.timeFix }
    else (s.gclWritten p v).ptSet p 4 := by
  have len : field (setBit v 12) 3 9 = BitVec.extractLsb' 3 9 v := by
    ext i below
    simp [field, setBit]
    omega
  have bits : bit (setBit v 12) 0 = v.getLsbD 0 ∧ bit (setBit v 12) 1 = v.getLsbD 1 :=
    ⟨bit_setBit_ne v 12 0 (by decide), bit_setBit_ne v 12 1 (by decide)⟩
  unfold State.setGclCtrl
  rw [bit_setBit_same v 12 (by decide), len, bits.1, bits.2]
  rfl

section
variable (s : State) (p : Fin 8) (v : BitVec 32)

theorem State.gclWritten_port : ∃ credit at', (s.gclWritten p v).sw.port[p] =
    { s.sw.port[p] with
      gclEn := v.getLsbD 0, adm := (s.sw.port[p]).adm.asked v, credit := credit, creditAt := at' } := by
  obtain ⟨_, _, counts⟩ := (s.sw.port[p]).credits_frame s.tb.timeFix
  rw [State.gclWritten, State.port_modPort_same, State.port_cbsNow_same, counts]
  exact ⟨_, _, rfl⟩

theorem State.gclWritten_ok : gclOk ((s.gclWritten p v).sw.port[p]) = gclOk { s.sw.port[p] with adm := (s.sw.port[p]).adm.asked v } := by
  obtain ⟨_, _, port⟩ := s.gclWritten_port p v
  rw [port]
  rfl

end

theorem gclSwapRequest_asks {s : State} (runs : swRuns s = true) (p : Fin 6) (v : BitVec 32) {ok : Bool}
    (valid : ok = gclOk { s.sw.port[extPort p] with adm := (s.sw.port[extPort p]).adm.asked v }) :
    ∃ t, exec (.gclSwapRequest p v) s = .next t ∧ (t.sw.port[extPort p]).gclEn = v.getLsbD 0 ∧
      (t.sw.port[extPort p]).adm = (s.sw.port[extPort p]).adm.asked v ∧
      (ok = true → (t.sw.port[extPort p]).swap = some ((s.sw.port[extPort p]).adm.asked v) ∧
        (t.sw.port[extPort p]).swapAt = s.tb.timeFix) ∧
      (ok = false → (t.sw.port[extPort p]).swap = (s.sw.port[extPort p]).swap ∧ (t.sw.port[extPort p]).sticky.getLsbD 4 = true) := by
  have ran : exec (.gclSwapRequest p v) s = .next (s.setGclCtrl (extPort p) (setBit v 12)) := if_pos (swRuns_up runs)
  obtain ⟨_, _, port⟩ := s.gclWritten_port (extPort p) v
  rw [State.setGclCtrl_swap, State.gclWritten_ok, ← valid] at ran
  refine ⟨_, ran, ?_⟩
  cases ok with
  | true =>
    rw [if_pos rfl, State.port_modPort_same, port]
    exact ⟨rfl, rfl, fun _ => ⟨rfl, rfl⟩, fun bad => absurd bad (by decide)⟩
  | false =>
    obtain ⟨_, _, sets⟩ := (s.gclWritten (extPort p) v).ptSet_frame (extPort p) 4
    rw [if_neg Bool.false_ne_true, sets]
    dsimp only
    rw [State.port_modPort_same, port]
    exact ⟨rfl, rfl, fun good => absurd good (by decide), fun _ => ⟨rfl, by simp [getLsbD_setBit]⟩⟩

/-- Settles O47: selection at the egress, late frames, and gate lists. -/
theorem framesLeaveThroughTheirGates : Obligations.FramesLeaveThroughTheirGates := by
  intro s runs
  refine ⟨fun p => ?_, fun p internal awake inTime c f => egressSelect_delivers runs internal awake inTime, fun p c f l head launch =>
    ⟨launchTimeReached_waits runs head launch, lateFrame_discards runs head launch⟩, fun p r => ?_, fun p v => ?_⟩
  · intro q z port awake inTime enabled linked idle
    refine ⟨fun c f head starts higher => ?_, egressSelect_rests runs awake inTime enabled linked idle⟩
    exact ⟨_, egressSelect_sends runs awake inTime enabled linked idle head starts higher, z.transmit_shows p c f⟩
  · intro q x cycle
    refine ⟨gclEntryAdvance_advances runs cycle rfl, fun own alone timed began => ?_⟩
    obtain ⟨t, ran, starts, rest⟩ := gclCycleStart_begins runs cycle own alone rfl
    obtain ⟨later, multiple, least⟩ := gclStart_after (t := r.cycStart) timed began
    exact ⟨t, _, ran, starts, later, multiple, least, rest⟩
  · intro q adm ok valid
    exact gclSwapRequest_asks runs p v valid

end Sys2Proof.Machine
end

section
/-! SUPPORT. The operations that the network time unit is made of: what a domain that enters a state, a port that gains or loses
asCapable, and a frame that the unit sends leave (R331 to R335, R344). -/
namespace Sys2Proof.Machine

theorem ntRuns_of {s : State} (runs : swRuns s = true) (on : s.nt.en = true) : ntRuns s = true := by rw [ntRuns, runs, on]; rfl

/-! ### Only the tracking has changed -/

/-- Only the domains, the ports and the sticky bits of the unit have changed, and outside it the switch, the recorder, what interrupts put
out, memory, and the count of free values. -/
def TrackOnly (s t : State) : Prop :=
  t = { s with
    nt := { s.nt with dom := t.nt.dom, port := t.nt.port, sticky := t.nt.sticky }
    sw := t.sw, er := t.er, mem := t.mem, hi := t.hi, out := t.out, fresh := t.fresh }

/-- Besides, the ports and the domains other than `d` are as before. -/
structure DomOnly (d : Fin 2) (s t : State) : Prop where
  track : TrackOnly s t
  port : t.nt.port = s.nt.port
  other : ∀ e : Fin 2, e ≠ d → t.nt.dom[e] = s.nt.dom[e]

section
variable {s t u : State} {d : Fin 2}

theorem TrackOnly.refl : TrackOnly s s := rfl

theorem TrackOnly.trans (first : TrackOnly s t) (second : TrackOnly t u) : TrackOnly s u := by
  unfold TrackOnly at *
  rw [second, first]

theorem TrackOnly.ite {p : Prop} [Decidable p] (yes : TrackOnly s t) (no : TrackOnly s u) : TrackOnly s (if p then t else u) := by
  split
  · exact yes
  · exact no

theorem TrackOnly.forEach {α : Type} {l : List α} {g : State → α → State} (each : ∀ t x, TrackOnly t (g t x)) (s : State) :
    TrackOnly s (s.forEach l g) :=
  forEach_induct (TrackOnly s) l g (fun t x _ so => so.trans (each t x)) s .refl

theorem TrackOnly.tb (only : TrackOnly s t) : t.tb = s.tb := by rw [only]
theorem TrackOnly.ofs (only : TrackOnly s t) : t.nt.ofs = s.nt.ofs := by rw [only]
theorem TrackOnly.reqCnt (only : TrackOnly s t) : t.nt.reqCnt = s.nt.reqCnt := by rw [only]
theorem TrackOnly.now (only : TrackOnly s t) : t.now = s.now := State.now_of_tb only.tb

theorem DomOnly.refl : DomOnly d s s := ⟨.refl, rfl, fun _ _ => rfl⟩

theorem DomOnly.trans (first : DomOnly d s t) (second : DomOnly d t u) : DomOnly d s u :=
  ⟨first.track.trans second.track, second.port.trans first.port, fun e ne => (second.other e ne).trans (first.other e ne)⟩

theorem DomOnly.ite {p : Prop} [Decidable p] (yes : DomOnly d s t) (no : DomOnly d s u) : DomOnly d s (if p then t else u) := by
  split
  · exact yes
  · exact no

/-- What touches no domain and no port does so for every domain. -/
theorem TrackOnly.domOnly (only : TrackOnly s t) (dom : t.nt.dom = s.nt.dom) (port : t.nt.port = s.nt.port) : DomOnly d s t :=
  ⟨only, port, fun _ _ => by rw [dom]⟩

variable (s) (d)

theorem State.modDom_domOnly (g : NtDom → NtDom) : DomOnly d s (s.modDom d g) := ⟨rfl, rfl, fun _ ne => upd_beside _ _ ne⟩

theorem State.modNtPort_track (p : Fin 6) (g : NtPort → NtPort) : TrackOnly s (s.modNtPort p g) := rfl

theorem State.modDom_dom (g : NtDom → NtDom) : (s.modDom d g).nt.dom[d] = g s.nt.dom[d] := upd_at _ _ _

/-! ### Sticky bits, records and counts -/

theorem State.ntSet_frame (i : Nat) : ∃ pba out,
    s.ntSet i = { s with nt.sticky := setBit s.nt.sticky i, hi.pba := pba, out := out } := irqWatch_frame _ _ _ _

theorem State.ntSet_domOnly (i : Nat) : DomOnly d s (s.ntSet i) := by
  obtain ⟨_, _, sets⟩ := s.ntSet_frame i
  rw [sets]
  exact TrackOnly.domOnly rfl rfl rfl

theorem State.emit_nt (src : Nat) (code : BitVec 12) (p : List (BitVec 32)) : (s.emit src code p).nt = s.nt := by
  obtain ⟨_, _, _, emits⟩ := s.emit_frame src code p
  rw [emits]

theorem State.emit_domOnly (src : Nat) (code : BitVec 12) (p : List (BitVec 32)) : DomOnly d s (s.emit src code p) := by
  obtain ⟨_, _, _, emits⟩ := s.emit_frame src code p
  rw [emits]
  exact TrackOnly.domOnly rfl rfl rfl

/-- A Sync or Follow_Up that is discarded is counted, and nothing else of the device hears of it but the interrupt (R331, R344). -/
theorem State.syncReject_frame : ∃ pba out, s.syncReject d = { s with
    nt.dom := upd s.nt.dom d fun x => { x with rej := satInc x.rej }, nt.sticky := setBit s.nt.sticky 4, hi.pba := pba, out := out } :=
  State.ntSet_frame _ 4

theorem State.syncReject_dom : (s.syncReject d).nt.dom[d] = { s.nt.dom[d] with rej := satInc (s.nt.dom[d]).rej } := by
  obtain ⟨_, _, rejects⟩ := s.syncReject_frame d
  rw [rejects]
  exact upd_at _ _ _

theorem State.syncReject_domOnly : DomOnly d s (s.syncReject d) := (s.modDom_domOnly d _).trans (State.ntSet_domOnly _ d 4)

/-! ### The states of a domain (R335) -/

/-- A domain as it enters a state at `now`: what LISTENING begins afresh, and the count of consecutive Syncs. -/
def NtDom.entering (x : NtDom) (st : NtDomState) (now : Nat) : NtDom :=
  if st = .listening then { x with state := st, run := 0, hist := [], seq := none, last := now, pend := none }
  else { x with state := st, run := 0 }

theorem State.domState_same {st : NtDomState} (same : (s.nt.dom[d]).state = st) : s.domState d st = s := if_pos same

/-- A domain that enters another state tells of it by DOM_CHG and a record (R344). -/
theorem State.domState_frame {st : NtDomState} (changes : (s.nt.dom[d]).state ≠ st) : ∃ er pba out, s.domState d st = { s with
    nt.dom := upd s.nt.dom d fun x => x.entering st s.now, nt.sticky := setBit s.nt.sticky 1, er := er, hi.pba := pba, out := out } := by
  have enters : (if st = .listening then (s.modDom d fun x => { x with state := st, run := 0 }).modDom d fun x =>
      { x with hist := [], seq := none, last := s.now, pend := none } else s.modDom d fun x => { x with state := st, run := 0 }) =
      s.modDom d fun x => x.entering st s.now := by
    unfold NtDom.entering State.modDom
    split
    · rw [upd_upd]
    · rfl
  unfold State.domState
  dsimp only
  rw [if_neg changes, enters]
  obtain ⟨_, _, sets⟩ := (s.modDom d fun x => x.entering st s.now).ntSet_frame 1
  obtain ⟨er, pba, out, emits⟩ := ((s.modDom d fun x => x.entering st s.now).ntSet 1).emit_frame 18 0x003#12
    [nat32 d.val 0 ||| nat32 st.code 4 ||| nat32 (s.nt.dom[d]).state.code 8]
  rw [emits, sets]
  exact ⟨er, pba, out, rfl⟩

theorem State.domState_domOnly (st : NtDomState) : DomOnly d s (s.domState d st) := by
  by_cases changes : (s.nt.dom[d]).state = st
  · rw [State.domState_same s d changes]
    exact .refl
  · obtain ⟨_, _, _, enters⟩ := State.domState_frame s d changes
    rw [enters]
    exact ⟨rfl, rfl, fun _ ne => upd_beside _ _ ne⟩

theorem State.domState_dom (st : NtDomState) : (s.domState d st).nt.dom[d] =
    if (s.nt.dom[d]).state = st then s.nt.dom[d] else (s.nt.dom[d]).entering st s.now := by
  split
  · next same => rw [State.domState_same s d same]
  · next changes =>
    obtain ⟨_, _, _, enters⟩ := State.domState_frame s d changes
    rw [enters]
    exact upd_at _ _ _

theorem State.domState_acc (st : NtDomState) : ((s.domState d st).nt.dom[d]).acc = (s.nt.dom[d]).acc := by
  rw [State.domState_dom, NtDom.entering]
  split
  · rfl
  · split <;> rfl

/-- A domain that enters a state other than LISTENING keeps what its last Sync gave. -/
theorem State.domState_beyond {st : NtDomState} (beyond : st ≠ .listening) :
    ∃ run, (s.domState d st).nt.dom[d] = { s.nt.dom[d] with state := st, run := run } := by
  rw [State.domState_dom, NtDom.entering, if_neg beyond]
  split
  · next already => exact ⟨_, by rw [← already]⟩
  · exact ⟨_, rfl⟩

/-! ### Ports (R332) -/

variable (p : Fin 6)

theorem State.domState_port (st : NtDomState) : (s.domState d st).nt.port = s.nt.port := (s.domState_domOnly d st).port

theorem State.asCapable_track (b : Bool) : TrackOnly s (s.asCapable p b) :=
  .ite (s.modNtPort_track p _) ((s.modNtPort_track p _).trans
    (.forEach (fun t d => .ite (t.domState_domOnly d _).track .refl) _))

theorem State.asCapable_port (b : Bool) : (s.asCapable p b).nt.port = upd s.nt.port p fun t => { t with asCapable := b } := by
  unfold State.asCapable
  dsimp only
  split
  · rfl
  · refine forEach_induct (fun t => t.nt.port = upd s.nt.port p fun t => { t with asCapable := b }) _ _ (fun t e _ so => ?_) _ rfl
    split
    · exact (t.domState_port e _).trans so
    · exact so

/-! ### Frames that the unit sends (R330) -/

variable (f : List Byte) (inTs : Nat) (st : Stamp)

theorem State.ntSend_track : TrackOnly s (s.ntSend p f inTs st) ∧ (s.ntSend p f inTs st).nt = s.nt := by
  unfold State.ntSend
  split
  · exact ⟨.refl, rfl⟩
  · obtain ⟨_, _, _, _, _, queues, -⟩ := s.enqueue_frame (extPort p) 6 { bytes := f, src := 6, inTs := inTs, stamp := st }
    rw [queues]
    exact ⟨rfl, rfl⟩

theorem State.ntSend_nt : (s.ntSend p f inTs st).nt = s.nt := (s.ntSend_track p f inTs st).2

theorem State.ntSend_domOnly : DomOnly d s (s.ntSend p f inTs st) := by
  obtain ⟨track, nt⟩ := s.ntSend_track p f inTs st
  exact track.domOnly (congrArg NetTime.dom nt) (congrArg NetTime.port nt)

theorem State.ntSend_port_ne {i : Fin 8} (ne : i ≠ extPort p) : (s.ntSend p f inTs st).sw.port[i] = s.sw.port[i] :=
  PortKept.ite .refl (s.enqueue_port_ne 6 _ ne)

end

end Sys2Proof.Machine
end

section
/-! SUPPORT. Syncs and their Follow_Ups: what is discarded, what waits and what is accepted (R331, R333 to R335). -/
namespace Sys2Proof.Machine

theorem domainTime_congr {s t : State} (port : t.nt.port = s.nt.port) (p : Fin 6) (m : PtpMsg) :
    domainTime t p m = domainTime s p m := by rw [domainTime, domainTime, port]

/-! ### What an accepted Sync gives its domain -/

/-- Between `s` and `t` domain `d` has accepted the Sync `m`, with the phase `theta`. -/
structure Accepts (s t : State) (d : Fin 2) (m : PtpMsg) (theta : Int) : Prop where
  only : DomOnly d s t
  seq : (t.nt.dom[d]).seq = some m.seq
  last : (t.nt.dom[d]).last = m.rx
  acc : (t.nt.dom[d]).acc = satInc (s.nt.dom[d]).acc
  pend : (t.nt.dom[d]).pend = none
  theta : (t.nt.dom[d]).theta = theta

/-- What leaves these fields of the domain alone does not undo that. -/
theorem Accepts.after {s t u : State} {d : Fin 2} {m : PtpMsg} {theta : Int} (accepts : Accepts s t d m theta) (only : DomOnly d t u)
    (same : ∃ st run txSeq, u.nt.dom[d] = { t.nt.dom[d] with state := st, run := run, txSeq := txSeq }) : Accepts s u d m theta := by
  obtain ⟨before, seq, last, acc, pend, phase⟩ := accepts
  obtain ⟨_, _, _, same⟩ := same
  refine ⟨before.trans only, ?_, ?_, ?_, ?_, ?_⟩ <;> rw [same] <;> assumption

theorem ntFit_frame (s : State) (h : List NtSync) : ∃ fresh, (ntFit s h).2 = { s with fresh := fresh } := by
  unfold ntFit
  split
  · exact ⟨_, rfl⟩
  · dsimp only
    split
    · exact ⟨_, rfl⟩
    split
    · exact ⟨_, rfl⟩
    · exact ⟨_, rfl⟩

section
variable (s : State) (d : Fin 2) (p : Fin 6) (m : PtpMsg)

/-- Tracking accepts the Sync: before it the domain may return to LISTENING, after it the domain may lock (R334, R335). -/
theorem State.syncTrack_accepts : Accepts s (s.syncTrack d p m) d m (domainTime s p m * 65536 - m.rx * nsUnit) := by
  unfold State.syncTrack
  extract_lets s1 x t c a th stepped s2 y gap run osc h fit near s3
  have relisten : DomOnly d s s1 := .ite (s.domState_domOnly d _) .refl
  have restart : DomOnly d s1 s2 := .ite ((s1.domState_domOnly d _).trans (State.modDom_domOnly _ d _)) .refl
  have before : (s2.nt.dom[d]).acc = (s.nt.dom[d]).acc := by
    have first : (s1.nt.dom[d]).acc = (s.nt.dom[d]).acc := by
      unfold s1
      split
      · exact s.domState_acc d _
      · rfl
    refine Eq.trans ?_ first
    unfold s2
    split
    · exact (congrArg NtDom.acc (State.modDom_dom _ d _)).trans (s1.domState_acc d _)
    · rfl
  obtain ⟨fresh, fits⟩ := ntFit_frame s2 h
  have fitted : DomOnly d s2 fit.2 := by
    unfold fit
    rw [fits]
    exact TrackOnly.domOnly rfl rfl rfl
  have same : fit.2.nt.dom = s2.nt.dom := by
    unfold fit
    rw [fits]
  have taken : Accepts s s3 d m (domainTime s p m * 65536 - m.rx * nsUnit) := by
    refine ⟨relisten.trans (restart.trans (fitted.trans (State.modDom_domOnly _ d _))), ?_, ?_, ?_, ?_, ?_⟩ <;>
      refine (congrArg _ (State.modDom_dom fit.2 d _)).trans ?_
    · rfl
    · rfl
    · dsimp only
      rw [same, before]
    · rfl
    · dsimp only [th, t, c]
      rw [domainTime_congr relisten.port, Nat.cast_mul]
  split
  · obtain ⟨_, locks⟩ := s3.domState_beyond d (st := .locked) (by decide)
    exact taken.after (s3.domState_domOnly d _) ⟨_, _, _, locks⟩
  · exact taken

theorem State.syncRelay_relays (q : Fin 6) : DomOnly d s (s.syncRelay d p q m) ∧
    ∃ txSeq, (s.syncRelay d p q m).nt.dom[d] = { s.nt.dom[d] with txSeq := txSeq } := by
  unfold State.syncRelay
  split
  · refine ⟨(s.modDom_domOnly d _).trans (State.ntSend_domOnly _ d q _ _ _), (s.nt.dom[d]).txSeq + 1#64, ?_⟩
    exact (congrArg (fun n : NetTime => n.dom[d]) (State.ntSend_nt _ q _ _ _)).trans (s.modDom_dom d _)
  · exact ⟨.refl, _, rfl⟩

theorem State.syncAccept_accepts : Accepts s (s.syncAccept d p m) d m (domainTime s p m * 65536 - m.rx * nsUnit) := by
  refine forEach_induct (fun t => Accepts s t d m _) _ _ (fun t q _ so => ?_) _ (s.syncTrack_accepts d p m)
  obtain ⟨only, _, counts⟩ := t.syncRelay_relays d p m q
  exact so.after only ⟨_, _, _, counts⟩

end

/-- The clauses of an accepted Sync, with the other domain by its number. -/
theorem Accepts.shows {s t : State} {d : Fin 2} {m : PtpMsg} {theta : Int} (accepts : Accepts s t d m theta) {o : Fin 2} (ne : o ≠ d) :
    (t.nt.dom[d]).seq = some m.seq ∧ (t.nt.dom[d]).last = m.rx ∧ (t.nt.dom[d]).acc = satInc (s.nt.dom[d]).acc ∧
      (t.nt.dom[d]).pend = none ∧ t.nt.dom[o] = s.nt.dom[o] ∧ (t.nt.dom[d]).theta = theta ∧ t.nt.ofs = s.nt.ofs ∧ t.tb = s.tb :=
  ⟨accepts.seq, accepts.last, accepts.acc, accepts.pend, accepts.only.other o ne, accepts.theta, accepts.only.track.ofs,
    accepts.only.track.tb⟩

/-- A discarded message counts as rejected, in its domain alone. -/
theorem State.syncReject_shows (s : State) (d : Fin 2) {o : Fin 2} (ne : o ≠ d) :
    let t := s.syncReject d
    (t.nt.dom[d]).rej = satInc (s.nt.dom[d]).rej ∧ (t.nt.dom[d]).acc = (s.nt.dom[d]).acc ∧ t.nt.dom[o] = s.nt.dom[o] ∧
      { t with nt := s.nt, hi := s.hi, out := s.out } = s := by
  dsimp only
  rw [State.syncReject_dom]
  refine ⟨rfl, rfl, (s.syncReject_domOnly d).other o ne, ?_⟩
  obtain ⟨_, _, rejects⟩ := s.syncReject_frame d
  rw [rejects]

/-! ### The commands (R331) -/

section
variable {s : State} (runs : swRuns s = true) (on : s.nt.en = true) {d : Fin 2}
include runs on

section
variable {p : Fin 6} {m : PtpMsg} (domain : domOf s m.domain = some d)
include domain

/-- With no Sync waiting, R331 alone decides over a Sync. -/
theorem syncReceive_checks (free : (s.nt.dom[d]).pend = none) : exec (.syncReceive p m) s =
    if syncOk s d p m then
      if m.twoStep then .next (s.modDom d fun y => { y with pend := some (p, m) }) else .next (s.syncAccept d p m)
    else .next (s.syncReject d) := by
  have ran : exec (.syncReceive p m) s = .next (s.syncMsg p m) := if_pos (ntRuns_of runs on)
  rw [ran, State.syncMsg, domain]
  dsimp only
  rw [free, Option.isSome_none, if_neg Bool.false_ne_true]
  cases syncOk s d p m
  · rfl
  · cases m.twoStep <;> rfl

theorem followUpReceive_alone (free : (s.nt.dom[d]).pend = none) : exec (.followUpReceive p m) s = .next (s.syncReject d) := by
  have ran : exec (.followUpReceive p m) s = .next (s.followUpMsg p m) := if_pos (ntRuns_of runs on)
  rw [ran, State.followUpMsg, domain]
  dsimp only
  rw [free]

/-- The Follow_Up of the Sync that waits, within its interval, completes it. -/
theorem followUpReceive_completes {y : PtpMsg} (waits : (s.nt.dom[d]).pend = some (p, y)) (seq : y.seq = m.seq)
    (within : m.rx ≤ y.rx + syncInterval y.logInt) : exec (.followUpReceive p m) s =
      .next (s.syncAccept d p { y with ts := m.ts, corr := y.corr + m.corr, rate := m.rate, tlv := m.tlv }) := by
  have ran : exec (.followUpReceive p m) s = .next (s.followUpMsg p m) := if_pos (ntRuns_of runs on)
  rw [ran, State.followUpMsg, domain]
  dsimp only
  rw [waits]
  exact congrArg _ (if_pos ⟨rfl, seq, within⟩)

end

theorem followUpTimeout_discards {y : Fin 6 × PtpMsg} (waits : (s.nt.dom[d]).pend = some y) :
    ∃ t, exec (.followUpTimeout d) s = .next t ∧ (t.nt.dom[d]).pend = none ∧ (t.nt.dom[d]).rej = satInc (s.nt.dom[d]).rej ∧
      y.2.rx + syncInterval y.2.logInt < t.now := by
  have ran : exec (.followUpTimeout d) s =
      .next (((s.reach (y.2.rx + syncInterval y.2.logInt + 1)).modDom d fun x => { x with pend := none }).syncReject d) := by
    change execFollowUpTimeout d s = _
    rw [execFollowUpTimeout, waits]
    exact if_pos (ntRuns_of runs on)
  generalize y.2.rx + syncInterval y.2.logInt = l at *
  refine ⟨_, ran, ?_, ?_, ?_⟩
  · rw [State.syncReject_dom, State.modDom_dom]
  · rw [State.syncReject_dom, State.modDom_dom, State.reach_eq]
  · rw [(State.syncReject_domOnly _ d).track.now, (State.modDom_domOnly _ d _).track.now]
    exact s.le_reach_now (l + 1)

/-- DOMAIN_TIMEOUT (R335). -/
theorem domainTimeout_loses (tracked : (s.nt.dom[d]).state = .listening ∨ (s.nt.dom[d]).state = .locked) :
    ∃ t, exec (.domainTimeout d) s = .next t ∧ (t.nt.dom[d]).state = .lost ∧ (s.nt.dom[d]).lostAt ≤ t.now := by
  have ran : exec (.domainTimeout d) s = .next ((s.reach (s.nt.dom[d]).lostAt).domState d .lost) := by
    refine if_pos ?_
    rw [ntRuns_of runs on, NtDom.tracked]
    simpa [-Fin.getElem_fin] using tracked
  obtain ⟨_, lost⟩ := (s.reach (s.nt.dom[d]).lostAt).domState_beyond d (st := .lost) (by decide)
  refine ⟨_, ran, by rw [lost], ?_⟩
  rw [((s.reach (s.nt.dom[d]).lostAt).domState_domOnly d .lost).track.now]
  exact s.le_reach_now _

end

end Sys2Proof.Machine
end

section
/-! SUPPORT. Peer delay: requests, answers and measurements (R332). -/
namespace Sys2Proof.Machine

theorem State.now_le_reach (s : State) (t : Nat) : s.now ≤ (s.reach t).now :=
  Nat.div_le_div_right (State.reach_keeps t (.refl s)).time

/-! ### Requests -/

/-- What every change of a sequence keeps, and one of them turns into what all of them keep. -/
theorem forEach_reaches {α : Type} {P Q : State → Prop} {l : List α} {g : State → α → State} {a : α} (member : a ∈ l)
    (keep : ∀ t x, P t → P (g t x)) (hit : ∀ t, P t → Q (g t a)) (stay : ∀ t x, Q t → Q (g t x)) {s : State} (start : P s) :
    Q (s.forEach l g) := by
  obtain ⟨before, after, rfl⟩ := List.append_of_mem member
  rw [State.forEach_append]
  exact forEach_induct Q after g (fun t x _ => stay t x) _ (hit _ (forEach_induct P before g (fun t x _ => keep t x) s start))

/-- A port that asks with the number `seq`, after `m` requests without a valid response. -/
def NtPort.asking (t : NtPort) (m : Nat) (seq : BitVec 16) : NtPort :=
  { t with miss := m, good := if m = 0 then t.good else 0, reqSeq := some seq, t1 := none, resp := none }

/-- Port `p` awaits the response to the request `seq`; three requests without one have ended asCapable. -/
def State.awaiting (s : State) (p : Fin 6) (seq : BitVec 16) : State :=
  let m := if (s.nt.port[p]).reqSeq.isSome then min 3 ((s.nt.port[p]).miss + 1) else (s.nt.port[p]).miss
  let sa := s.modNtPort p fun t => t.asking m seq
  if 3 ≤ m then sa.asCapable p false else sa

/-- The unit sends the request `seq` on port `p`, if the port is enabled. -/
def State.pdelayAsk (seq : BitVec 16) (s : State) (p : Fin 6) : State :=
  if (s.sw.port[extPort p]).mode = 0#3 then s
  else
    let sb := s.awaiting p seq
    sb.ntSend p (ptpFrame sb p 2 0#8 false 0 seq 0#8 (List.replicate 20 0#8)) sb.now .req

/-- Port `p` has asked with the number `seq` and has no egress time of the request yet. -/
def NtPort.Asked (t : NtPort) (seq : BitVec 16) : Prop := t.reqSeq = some seq ∧ t.t1 = none

theorem extPort_inj {p q : Fin 6} (ne : q ≠ p) : extPort q ≠ extPort p := fun same => ne (Fin.ext (congrArg (·.val) same))

section
variable (s : State) (p : Fin 6) (seq : BitVec 16)

theorem State.awaiting_track : TrackOnly s (s.awaiting p seq) :=
  .ite ((s.modNtPort_track p _).trans (State.asCapable_track _ p _)) (s.modNtPort_track p _)

theorem State.awaiting_port : ∃ g, (s.awaiting p seq).nt.port = upd s.nt.port p g ∧ ∀ t, (g t).Asked seq := by
  unfold State.awaiting
  extract_lets m sa
  have port : sa.nt.port = upd s.nt.port p fun t => t.asking m seq := rfl
  split
  · rw [State.asCapable_port, port, upd_upd]
    exact ⟨_, rfl, fun _ => ⟨rfl, rfl⟩⟩
  · exact ⟨_, port, fun _ => ⟨rfl, rfl⟩⟩

theorem State.awaiting_portKept (i : Fin 8) : PortKept i s (s.awaiting p seq) :=
  .ite ((s.modNtPort_besideSwitch p _).portKept.trans (State.asCapable_portKept _ p _)) (s.modNtPort_besideSwitch p _).portKept

theorem State.pdelayAsk_track : TrackOnly s (s.pdelayAsk seq p) :=
  .ite .refl ((s.awaiting_track p seq).trans (State.ntSend_track _ p _ _ _).1)

theorem State.pdelayAsk_asks (enabled : (s.sw.port[extPort p]).mode ≠ 0#3) : ((s.pdelayAsk seq p).nt.port[p]).Asked seq := by
  obtain ⟨g, awaits, asked⟩ := s.awaiting_port p seq
  have port : (s.pdelayAsk seq p).nt.port[p] = g s.nt.port[p] := by
    rw [State.pdelayAsk, if_neg enabled]
    refine (congrArg (fun n : NetTime => n.port[p]) (State.ntSend_nt _ p _ _ _)).trans ?_
    rw [awaits, upd_at]
  rw [port]
  exact asked _

variable {p}

/-- A request on one port leaves the others as they are. -/
theorem State.pdelayAsk_beside {q : Fin 6} (ne : q ≠ p) : (s.pdelayAsk seq p).nt.port[q] = s.nt.port[q] ∧
    (s.pdelayAsk seq p).sw.port[extPort q] = s.sw.port[extPort q] := by
  unfold State.pdelayAsk
  split
  · exact ⟨rfl, rfl⟩
  · constructor
    · obtain ⟨g, awaits, -⟩ := s.awaiting_port p seq
      refine (congrArg (fun n : NetTime => n.port[q]) (State.ntSend_nt _ p _ _ _)).trans ?_
      rw [awaits, upd_beside _ _ ne]
    · exact (State.ntSend_port_ne _ p _ _ _ (extPort_inj ne)).trans (s.awaiting_portKept p seq _)

end

/-- A port that has asked has asked after further requests too. -/
theorem State.pdelayAsk_stays {s : State} {seq : BitVec 16} {p : Fin 6} (asked : (s.nt.port[p]).Asked seq) (q : Fin 6) :
    ((s.pdelayAsk seq q).nt.port[p]).Asked seq := by
  by_cases here : p = q
  · subst here
    by_cases off : (s.sw.port[extPort p]).mode = 0#3
    · rwa [State.pdelayAsk, if_pos off]
    · exact s.pdelayAsk_asks p seq off
  · rwa [(s.pdelayAsk_beside seq here).1]

/-- Port `p` is enabled, or has asked already. -/
def State.AsksOrAsked (s : State) (p : Fin 6) (seq : BitVec 16) : Prop :=
  (s.sw.port[extPort p]).mode ≠ 0#3 ∨ (s.nt.port[p]).Asked seq

theorem State.AsksOrAsked.turn {s : State} {seq : BitVec 16} {p : Fin 6} (so : s.AsksOrAsked p seq) :
    ((s.pdelayAsk seq p).nt.port[p]).Asked seq :=
  so.elim (s.pdelayAsk_asks p seq) fun asked => State.pdelayAsk_stays asked p

theorem State.AsksOrAsked.stays {s : State} {seq : BitVec 16} {p : Fin 6} (so : s.AsksOrAsked p seq) (q : Fin 6) :
    (s.pdelayAsk seq q).AsksOrAsked p seq := by
  by_cases here : p = q
  · subst here
    exact Or.inr so.turn
  · rcases so with enabled | asked
    · exact Or.inl (by rwa [(s.pdelayAsk_beside seq here).2])
    · exact Or.inr (State.pdelayAsk_stays asked q)

/-- An enabled port has asked when every port has had its turn. -/
theorem State.AsksOrAsked.all {s : State} {seq : BitVec 16} {p : Fin 6} (so : s.AsksOrAsked p seq) {l : List (Fin 6)} (member : p ∈ l) :
    ((s.forEach l (State.pdelayAsk seq)).nt.port[p]).Asked seq := by
  have asked := forEach_reaches (P := fun t => t.AsksOrAsked p seq) (Q := fun t => (t.nt.port[p]).Asked seq) member
    (fun _ q so => so.stays q) (fun _ so => so.turn) (fun _ q asked => State.pdelayAsk_stays asked q) so
  exact asked

section
variable {s : State} (runs : swRuns s = true) (on : s.nt.en = true)
include runs on

theorem pdelayReqSend_asks : ∃ t, exec .pdelayReqSend s = .next t ∧ t.nt.reqCnt = s.nt.reqCnt + 1#64 ∧ s.now ≤ t.now ∧
    ∀ p : Fin 6, (s.sw.port[extPort p]).mode ≠ 0#3 →
      (t.nt.port[p]).reqSeq = some ((s.nt.reqCnt + 1#64).setWidth 16) ∧ (t.nt.port[p]).t1 = none := by
  obtain ⟨due, reaches⟩ : ∃ due, due = s.reach ((s.nt.reqAt / 1000000000 + 1) * 1000000000) := ⟨_, rfl⟩
  obtain ⟨numbered, counts⟩ : ∃ u, u = due.modNt fun n => { n with reqAt := due.now, reqCnt := n.reqCnt + 1#64 } := ⟨_, rfl⟩
  have ran : exec .pdelayReqSend s = .next (numbered.forEach (fins 6) (State.pdelayAsk (numbered.nt.reqCnt.setWidth 16))) := by
    rw [counts, reaches]
    exact if_neg (by simp [ntRuns_of runs on])
  have later : s.now ≤ due.now := reaches ▸ s.now_le_reach _
  have asks := TrackOnly.forEach (l := fins 6) (fun t q => t.pdelayAsk_track q (numbered.nt.reqCnt.setWidth 16)) numbered
  rw [State.reach_eq] at reaches
  have count : numbered.nt.reqCnt = s.nt.reqCnt + 1#64 := by rw [counts, reaches]; rfl
  have switch : numbered.sw = s.sw := by rw [counts, reaches]; rfl
  have clock : numbered.now = due.now := by rw [counts]; rfl
  refine ⟨_, ran, asks.reqCnt.trans count, ?_, fun p enabled => ?_⟩
  · rw [asks.now, clock]
    exact later
  · rw [← count]
    exact State.AsksOrAsked.all (Or.inl (by rwa [switch])) (List.mem_finRange p)

end

/-! ### Answers and measurements -/

/-- A port with a measurement (R332). -/
def NtPort.measured (x : NtPort) (delay : Nat) (nrr : Int) (good : Nat) (prev : Int × Nat) : NtPort :=
  { x with delay := delay, nrr := nrr, good := good, miss := 0, reqSeq := none, resp := none, prev := some prev }

/-- asCapable ends with a measurement above the threshold, and comes with the third in a row that is not. -/
def NtPort.judged (x : NtPort) (ok : Bool) : NtPort :=
  { x with asCapable := if !ok then false else if 3 ≤ x.good then true else x.asCapable }

theorem State.judged_port (s : State) (p : Fin 6) (g : NtPort → NtPort) {good : Nat} (counts : (g s.nt.port[p]).good = good) (ok : Bool) :
    (if !ok then (s.modNtPort p g).asCapable p false
      else if 3 ≤ good then (s.modNtPort p g).asCapable p true else s.modNtPort p g).nt.port =
      upd s.nt.port p fun x => (g x).judged ok := by
  have noted : (s.modNtPort p g).nt.port = upd s.nt.port p g := rfl
  subst counts
  split
  · next above =>
    rw [State.asCapable_port, noted, upd_upd]
    exact upd_congr (by rw [NtPort.judged, if_pos above])
  split
  · next within third =>
    rw [State.asCapable_port, noted, upd_upd]
    exact upd_congr (by rw [NtPort.judged, if_neg within, if_pos third])
  · next within more =>
    exact upd_congr (by rw [NtPort.judged, if_neg within, if_neg more])

section
variable {s : State} (runs : swRuns s = true) (on : s.nt.en = true)
include runs on

theorem pdelayReqReceive_answers {p : Fin 6} {m : PtpMsg} (awake : s.pw.state ≠ .safeHold)
    (room : ((s.sw.port[extPort p]).q[(6 : Fin 8)]).length < 64) : ∃ t f, exec (.pdelayReqReceive p m) s = .next t ∧ f.stamp = .resp m ∧
      (t.sw.port[extPort p]).q[(6 : Fin 8)] = (s.sw.port[extPort p]).q[(6 : Fin 8)] ++ [f] ∧ { t with sw := s.sw } = s := by
  obtain ⟨f, stamp, prompt, answer⟩ : ∃ f : TxFrame, f.stamp = .resp m ∧ f.launch = none ∧
      s.pdelayAnswer p m = s.enqueue (extPort p) 6 f := ⟨_, rfl, rfl, if_neg awake⟩
  have ran : exec (.pdelayReqReceive p m) s = .next (s.queued (extPort p) 6 f) := by
    rw [← State.enqueue_room prompt room, ← answer]
    exact if_pos (ntRuns_of runs on)
  exact ⟨_, f, ran, stamp, s.queued_q_same _ _ _, rfl⟩

/-- The first measurement of a port, from a valid response and its follow-up: the link delay by the neighbour's rate so far, and
asCapable by the threshold and the measurements before. -/
theorem pdelayRespReceive_measures {p : Fin 6} {m g : PtpMsg} {t1 : Nat} (sent : (s.nt.port[p]).t1 = some t1)
    (awaited : (s.nt.port[p]).reqSeq = some m.seq) (seq : g.seq = m.seq) (port : g.port = m.port)
    (own : m.reqPort = identNat (portIdent s p)) (same : g.reqPort = m.reqPort) (first : (s.nt.port[p]).prev = none) {d : Nat}
    (delay : ((((m.rx : Int) - t1) * 65536 + ((m.rx : Int) - t1) * 65536 * (s.nt.port[p]).nrr / 2 ^ 41 -
      ((g.ts * 65536 + g.corr) - (m.ts * 65536 + m.corr))) / 2).toNat = d) :
    ∃ t, exec (.pdelayRespReceive p m g) s = .next t ∧ (t.nt.port[p]).delay = d ∧ (t.nt.port[p]).reqSeq = none ∧
      (s.nt.thresh.toNat * 65536 < d → (t.nt.port[p]).asCapable = false) ∧
      (d ≤ s.nt.thresh.toNat * 65536 → 2 ≤ (s.nt.port[p]).good → (t.nt.port[p]).asCapable = true) ∧
      ∀ q : Fin 6, q ≠ p → t.nt.port[q] = s.nt.port[q] := by
  have ran : exec (.pdelayRespReceive p m g) s = .next (s.pdelayDone p m g) := if_pos (ntRuns_of runs on)
  have valid : ¬((s.nt.port[p]).reqSeq ≠ some m.seq ∨ g.seq ≠ m.seq ∨ g.port ≠ m.port ∨ m.reqPort ≠ identNat (portIdent s p) ∨
      g.reqPort ≠ m.reqPort) := by
    simp only [awaited, seq, port, ← own, same, ne_eq, not_true, or_self, not_false_eq_true]
  have port : (s.pdelayDone p m g).nt.port = upd s.nt.port p fun x => NtPort.judged (x.measured d (s.nt.port[p]).nrr
      (if decide (d ≤ s.nt.thresh.toNat * 65536) then min 3 ((s.nt.port[p]).good + 1) else 0) (g.ts * 65536 + g.corr, m.rx))
      (decide (d ≤ s.nt.thresh.toNat * 65536)) := by
    unfold State.pdelayDone
    dsimp only
    rw [sent]
    dsimp only
    rw [if_neg valid, first]
    dsimp only
    rw [delay]
    exact s.judged_port p _ rfl _
  refine ⟨_, ran, ?_⟩
  rw [port, upd_at]
  refine ⟨rfl, rfl, fun above => ?_, fun within good => ?_, fun q ne => upd_beside _ _ ne⟩
  · exact if_pos (by simpa using above)
  · rw [decide_eq_true within]
    exact if_pos (show 3 ≤ min 3 ((s.nt.port[p]).good + 1) by omega)

end

end Sys2Proof.Machine
end

section
/-! SUPPORT. The servo: what each part of an update leaves of cell time, the rate correction and OFS, and how far it moves the correction
(R337 to R341). -/
namespace Sys2Proof.Machine

/-! ### The rate correction -/

theorem clampInt_mem {lo hi : Int} (order : lo ≤ hi) (x : Int) : lo ≤ clampInt lo hi x ∧ clampInt lo hi x ≤ hi := by
  unfold clampInt
  split
  · omega
  · split <;> omega

/-- A difference brought into [-l, l] lies between 0 and itself. -/
theorem clampInt_between {l : Int} (positive : 0 ≤ l) (x : Int) :
    0 ≤ clampInt (-l) l x ∧ clampInt (-l) l x ≤ x ∨ x ≤ clampInt (-l) l x ∧ clampInt (-l) l x ≤ 0 := by
  unfold clampInt
  split
  · omega
  · split <;> omega

/-- The correction `a` moved toward `target`, within the slew limit and the range of the correction (R338). -/
def slewed (a target : Int) : Int := a + clampInt (-343) 343 (clampInt (-17179869) 17179869 target - a)

theorem slewed_bounds {a : Int} (range : a.natAbs ≤ 17179869) (target : Int) :
    (slewed a target - a).natAbs ≤ 343 ∧ (slewed a target).natAbs ≤ 17179869 := by
  have within := clampInt_mem (show (-17179869 : Int) ≤ 17179869 by decide) target
  have step := clampInt_mem (show (-343 : Int) ≤ 343 by decide) (clampInt (-17179869) 17179869 target - a)
  have toward := clampInt_between (show (0 : Int) ≤ 343 by decide) (clampInt (-17179869) 17179869 target - a)
  unfold slewed
  omega

/-- The register holds every correction of the range. -/
theorem toInt_correction {x : Int} (range : x.natAbs ≤ 17179869) : (BitVec.ofInt 32 x).toInt = x := by
  rw [BitVec.toInt_ofInt]
  exact Int.bmod_eq_of_le (by omega) (by omega)

/-! ### What an update leaves -/

/-- Cell time, the rate correction, the number of the update and OFS are as before. -/
structure SamePace (s t : State) : Prop where
  time : t.tb.timeFix = s.tb.timeFix
  rate : t.tb.incAdj = s.tb.incAdj
  update : t.nt.servoMs = s.nt.servoMs
  ofs : t.nt.ofs = s.nt.ofs
  stepped : t.nt.stepped = s.nt.stepped

/-- The same, but for a correction that may have moved as R338 lets it, and an OFS that may have been set when none was (R337). -/
structure Steered (s t : State) : Prop where
  time : t.tb.timeFix = s.tb.timeFix
  rate : s.tb.incAdj.toInt.natAbs ≤ 17179869 →
    (t.tb.incAdj.toInt - s.tb.incAdj.toInt).natAbs ≤ 343 ∧ t.tb.incAdj.toInt.natAbs ≤ 17179869
  update : t.nt.servoMs = s.nt.servoMs
  ofs : s.nt.stepped = true → t.nt.ofs = s.nt.ofs ∧ t.nt.stepped = true

section
variable {s t u : State}

theorem SamePace.refl : SamePace s s := ⟨rfl, rfl, rfl, rfl, rfl⟩

theorem SamePace.trans (first : SamePace s t) (second : SamePace t u) : SamePace s u :=
  ⟨second.time.trans first.time, second.rate.trans first.rate, second.update.trans first.update, second.ofs.trans first.ofs,
    second.stepped.trans first.stepped⟩

theorem SamePace.ite {p : Prop} [Decidable p] (yes : SamePace s t) (no : SamePace s u) : SamePace s (if p then t else u) := by
  split
  · exact yes
  · exact no

theorem SamePace.forEach {α : Type} {l : List α} {g : State → α → State} (each : ∀ t x, SamePace t (g t x)) (s : State) :
    SamePace s (s.forEach l g) :=
  forEach_induct (SamePace s) l g (fun t x _ so => so.trans (each t x)) s .refl

theorem TrackOnly.samePace (only : TrackOnly s t) : SamePace s t := by
  rw [only]
  exact ⟨rfl, rfl, rfl, rfl, rfl⟩

theorem SamePace.steered (same : SamePace s t) : Steered s t :=
  ⟨same.time, fun range => by rw [same.rate, Int.sub_self]; exact ⟨by decide, range⟩, same.update,
    fun stepped => ⟨same.ofs, same.stepped.trans stepped⟩⟩

theorem Steered.before (moves : Steered t u) (same : SamePace s t) : Steered s u :=
  ⟨moves.time.trans same.time, same.rate ▸ moves.rate, moves.update.trans same.update, fun stepped => by
    rw [← same.ofs]
    exact moves.ofs (same.stepped.trans stepped)⟩

theorem Steered.after (moves : Steered s t) (same : SamePace t u) : Steered s u :=
  ⟨same.time.trans moves.time, same.rate ▸ moves.rate, same.update.trans moves.update, fun stepped => by
    rw [same.ofs, same.stepped]
    exact moves.ofs stepped⟩

/-- A first lock sets OFS and leaves the rate alone (R337). -/
theorem SamePace.firstLock (same : SamePace u t) (fresh : s.nt.stepped = false) (tb : u.tb = s.tb)
    (update : u.nt.servoMs = s.nt.servoMs) : Steered s t := by
  refine ⟨same.time.trans (congrArg _ tb), fun range => ?_, same.update.trans update,
    fun stepped => absurd (fresh.symm.trans stepped) Bool.false_ne_true⟩
  rw [same.rate, tb, Int.sub_self]
  exact ⟨by decide, range⟩

variable (s)

theorem State.ntSet_samePace (i : Nat) : SamePace s (s.ntSet i) := (s.ntSet_domOnly 0 i).track.samePace

theorem State.emit_samePace (src : Nat) (code : BitVec 12) (p : List (BitVec 32)) : SamePace s (s.emit src code p) :=
  (s.emit_domOnly 0 src code p).track.samePace

theorem State.modNt_samePace (g : NetTime → NetTime) (update : (g s.nt).servoMs = s.nt.servoMs := by rfl)
    (ofs : (g s.nt).ofs = s.nt.ofs := by rfl) (stepped : (g s.nt).stepped = s.nt.stepped := by rfl) : SamePace s (s.modNt g) :=
  ⟨rfl, rfl, update, ofs, stepped⟩

theorem State.modPr_samePace (g : Pair → Pair) : SamePace s (s.modPr g) := ⟨rfl, rfl, rfl, rfl, rfl⟩

theorem State.modTb_samePace (g : TimeBase → TimeBase) (time : (g s.tb).timeFix = s.tb.timeFix := by rfl)
    (rate : (g s.tb).incAdj = s.tb.incAdj := by rfl) : SamePace s (s.modTb g) := ⟨time, rate, rfl, rfl, rfl⟩

theorem State.setWr_samePace (wr : Ring) : SamePace s { s with wr := wr } := ⟨rfl, rfl, rfl, rfl, rfl⟩

theorem State.ntState_samePace (st : NtState) : SamePace s (s.ntState st) :=
  .ite .refl (.trans (s.modNt_samePace _) ((State.ntSet_samePace _ 3).trans (State.emit_samePace _ _ _ _)))

theorem State.ntHold_samePace (f : Int) : SamePace s (s.ntHold f) :=
  .ite (.trans (s.modNt_samePace _) (State.ntState_samePace _ _)) (.ite (s.ntState_samePace _) .refl)

theorem State.ntSwitch_samePace (cause : Nat) : SamePace s (s.ntSwitch cause) :=
  .trans (s.modNt_samePace _) ((State.ntSet_samePace _ 2).trans (State.emit_samePace _ _ _ _))

/-! ### The parts of an update, in their order (R341) -/

theorem State.ntAdvance_samePace : SamePace s s.ntAdvance := ⟨rfl, rfl, rfl, rfl, rfl⟩

theorem State.ntTimeouts_samePace : SamePace s s.ntTimeouts :=
  .forEach (fun t d => .ite (t.domState_domOnly d _).track.samePace .refl) s

theorem State.ntSelect_samePace : SamePace s s.ntSelect := by
  unfold State.ntSelect
  extract_lets lost other held lastF s1 s2
  have selects : SamePace s s1 := .ite (s.ntSwitch_samePace 1) (.ite (s.ntSwitch_samePace 0) (.ite (s.ntSwitch_samePace 2) .refl))
  have heard : SamePace s1 s2 := ⟨rfl, rfl, rfl, rfl, rfl⟩
  exact (selects.trans heard).trans (.ite (s2.ntState_samePace _) (s2.ntHold_samePace _))

theorem State.extSelect_samePace : SamePace s s.extSelect := .ite (s.ntState_samePace _) (s.ntHold_samePace _)

/-- The servo computation moves the correction toward its target (R338). -/
theorem State.ntServo_steered : Steered s s.ntServo := by
  obtain ⟨target, moves⟩ : ∃ target, s.ntServo.tb.incAdj = BitVec.ofInt 32 (slewed s.tb.incAdj.toInt target) := ⟨_, rfl⟩
  refine ⟨rfl, fun range => ?_, rfl, fun stepped => ⟨rfl, stepped⟩⟩
  obtain ⟨step, within⟩ := slewed_bounds range target
  rw [moves, toInt_correction within]
  exact ⟨step, within⟩

/-- STEP, its record and the state of the unit follow the first lock. -/
theorem State.tellFirst_samePace (code : BitVec 12) (p : List (BitVec 32)) :
    SamePace s (((s.ntSet 0).emit 18 code p).ntState .locked) :=
  (s.ntSet_samePace 0).trans ((State.emit_samePace _ _ _ _).trans (State.ntState_samePace _ _))

theorem State.ntFirst_steered (fresh : s.nt.stepped = false) : Steered s s.ntFirst := by
  unfold State.ntFirst
  extract_lets d s1 o s2 w
  exact (s2.tellFirst_samePace _ _).firstLock fresh rfl rfl

theorem State.extFirst_steered (fresh : s.nt.stepped = false) : Steered s s.extFirst := by
  unfold State.extFirst
  extract_lets o s2 w
  exact (s2.tellFirst_samePace _ _).firstLock fresh rfl rfl

/-- Selection and servo: with the source outside gPTP or in it, before the first lock or after it. -/
def State.steer (s : State) : State :=
  if extOn s then (if s.nt.stepped then s.extSelect.ntServo else if extLocked s then s.extFirst else s)
  else if s.nt.stepped then s.ntSelect.ntServo
  else if domLocked s 0 || domLocked s 1 then s.ntFirst else s

theorem State.steer_steered : Steered s s.steer := by
  have rest : Steered s s := SamePace.refl.steered
  unfold State.steer
  cases fresh : s.nt.stepped with
  | true =>
    rw [if_pos rfl, if_pos rfl]
    split
    · exact s.extSelect.ntServo_steered.before s.extSelect_samePace
    · exact s.ntSelect.ntServo_steered.before s.ntSelect_samePace
  | false =>
    rw [if_neg Bool.false_ne_true, if_neg Bool.false_ne_true]
    split
    · split
      · exact s.extFirst_steered fresh
      · exact rest
    · split
      · exact s.ntFirst_steered fresh
      · exact rest

/-! ### Aligned starts (R383, R396) -/

theorem State.alignStart_samePace (net : Int) (pick beat : BitVec 32) : SamePace s (s.alignStart net pick beat) := by
  unfold State.alignStart
  extract_lets s0 org n j s1
  have starts : SamePace s s1 := ⟨rfl, rfl, rfl, rfl, rfl⟩
  obtain ⟨_, _, _, _, fits⟩ := s1.stlFitAll_frame
  rw [fits]
  exact starts.trans ⟨rfl, rfl, rfl, rfl, rfl⟩

/-- Whatever a resynchronisation or joining the ring does at an update, it leaves the pace alone. -/
theorem syncAdvance_samePace : SamePace s (syncAdvance s) := by
  unfold syncAdvance
  extract_lets s1
  have copied : SamePace s s1 := by
    unfold s1
    split
    · refine .ite .refl ?_
      split
      · exact (s.alignStart_samePace _ _ _).trans (State.modPr_samePace _ _)
      · exact s.modPr_samePace _
    · exact .refl
  refine copied.trans ?_
  split
  · refine .ite ?_ .refl
    exact (s1.modTb_samePace _).trans ((State.alignStart_samePace _ _ _ _).trans
      ((State.setWr_samePace _ _).trans (State.emit_samePace _ _ _ _)))
  · exact .refl

end

end Sys2Proof.Machine
end

section
/-! SUPPORT. The commands of the servo and of NT_CTRL, TIME_MARK, and the settlement of O48 (R331 to R343). -/
namespace Sys2Proof.Machine

/-! ### Servo updates -/

/-- SERVO_UPDATE: the update gets its number at its instant, and what follows steers (R338, R341). -/
theorem servoUpdate_steers {s : State} (runs : swRuns s = true) : ∃ u t, exec .servoUpdate s = .next t ∧
    u = s.reach (max s.now ((s.nt.servoMs + 1) * 1000000)) ∧ Steered (u.modNt fun n => { n with servoMs := u.now / 1000000 }) t := by
  obtain ⟨u, reaches⟩ : ∃ u, u = s.reach (max s.now ((s.nt.servoMs + 1) * 1000000)) := ⟨_, rfl⟩
  obtain ⟨v, counts⟩ : ∃ v, v = u.modNt fun n => { n with servoMs := u.now / 1000000 } := ⟨_, rfl⟩
  have ran : exec .servoUpdate s = .next (syncAdvance (v.ntAdvance.ntTimeouts.steer.forEach (fins 2) fun s d =>
      s.modDom d fun x => { x with phase := BitVec.ofInt 64 (s.phaseOf d) })) := by
    rw [counts, reaches]
    exact if_neg (by simp [runs])
  refine ⟨u, _, ran, reaches, ?_⟩
  rw [← counts]
  have phases := SamePace.forEach (l := fins 2) (fun t d => (t.modDom_domOnly d fun x =>
    { x with phase := BitVec.ofInt 64 (t.phaseOf d) }).track.samePace) v.ntAdvance.ntTimeouts.steer
  exact ((v.ntAdvance.ntTimeouts.steer_steered.before (v.ntAdvance_samePace.trans v.ntAdvance.ntTimeouts_samePace)).after phases).after
    (syncAdvance_samePace _)

theorem servoUpdate_bounds {s : State} (runs : swRuns s = true) (range : s.tb.incAdj.toInt.natAbs ≤ 17179869) :
    ∃ t, exec .servoUpdate s = .next t ∧ t.nt.servoMs = t.now / 1000000 ∧
      (t.tb.incAdj.toInt - s.tb.incAdj.toInt).natAbs ≤ 343 ∧ t.tb.incAdj.toInt.natAbs ≤ 17179869 ∧
      (s.nt.stepped = true → t.nt.ofs = s.nt.ofs ∧ t.nt.stepped = true) := by
  obtain ⟨u, t, ran, reaches, time, rate, update, ofs⟩ := servoUpdate_steers runs
  rw [State.reach_eq] at reaches
  have clock : t.now = u.now := congrArg (· / nsUnit) time
  have adj : u.tb.incAdj = s.tb.incAdj := by rw [reaches]
  have unit : u.nt = s.nt := by rw [reaches]
  have steps := rate (show u.tb.incAdj.toInt.natAbs ≤ 17179869 by rw [adj]; exact range)
  refine ⟨t, ran, update.trans (congrArg (· / 1000000) clock.symm), ?_, steps.2, fun stepped => ?_⟩
  · rw [← adj]
    exact steps.1
  · rw [← unit] at stepped ⊢
    exact ofs stepped

/-! ### The state of the unit (R339) -/

theorem State.ntState_state (s : State) (st : NtState) : (s.ntState st).nt.state = st := by
  unfold State.ntState
  split
  · assumption
  · obtain ⟨_, _, sets⟩ := (s.modNt fun n => { n with state := st }).ntSet_frame 3
    rw [State.emit_nt, sets]
    rfl

theorem holdoverTimeout_unlocks {s : State} (runs : swRuns s = true) (held : s.nt.state = .holdover) :
    ∃ t, exec .holdoverTimeout s = .next t ∧ t.nt.state = .unlocked ∧ s.nt.holdAt + s.nt.holdMax.toNat * 1000000000 ≤ t.now := by
  have ran : exec .holdoverTimeout s =
      .next ((s.reach (s.nt.holdAt + s.nt.holdMax.toNat * 1000000000)).ntState .unlocked) := if_pos (by simp [runs, held])
  refine ⟨_, ran, State.ntState_state _ _, ?_⟩
  rw [State.now_of_tb (State.ntState_ring _ _).tb]
  exact s.le_reach_now _

/-! ### NT_CTRL (R332, R340) -/

theorem domLocked_iff (s : State) (d : Fin 2) : domLocked s d = true ↔ (s.nt.dom[d]).state = .locked := decide_eq_true_iff

/-- The fields of NT_CTRL besides SWITCH. -/
def NetTime.controlled (n : NetTime) (v : BitVec 32) : NetTime :=
  { n with en := v.getLsbD 0, pref := v.getLsbD 1, auto := v.getLsbD 2, hostCopy := v.getLsbD 3 }

theorem State.setNtCtrl_switch (s : State) (v : BitVec 32) : s.setNtCtrl (setBit v 4) =
    if domLocked s (domNat !s.nt.sel) then { s with nt := { s.nt.controlled v with switch := true } }
    else State.ntSet { s with nt := s.nt.controlled v } 5 := by
  unfold State.setNtCtrl
  rw [bit_setBit_same v 4 (by decide), bit_setBit_ne v 4 0 (by decide), bit_setBit_ne v 4 1 (by decide),
    bit_setBit_ne v 4 2 (by decide), bit_setBit_ne v 4 3 (by decide)]
  rfl

theorem ntSwitchRequest_asks {s : State} (runs : swRuns s = true) (v : BitVec 32) {other : Fin 2} (names : domNat (!s.nt.sel) = other) :
    ∃ t, exec (.ntSwitchRequest v) s = .next t ∧ t.nt.en = v.getLsbD 0 ∧ t.nt.pref = v.getLsbD 1 ∧ t.nt.auto = v.getLsbD 2 ∧
      t.nt.hostCopy = v.getLsbD 3 ∧ ((s.nt.dom[other]).state = .locked → t.nt.switch = true) ∧
      ((s.nt.dom[other]).state ≠ .locked → t.nt.switch = s.nt.switch ∧ t.nt.sticky.getLsbD 5 = true) ∧
      { t with nt := s.nt, hi := s.hi, out := s.out } = s := by
  have ran : exec (.ntSwitchRequest v) s = .next (s.setNtCtrl (setBit v 4)) := if_pos (swRuns_up runs)
  rw [State.setNtCtrl_switch, names] at ran
  refine ⟨_, ran, ?_⟩
  by_cases locked : (s.nt.dom[other]).state = .locked
  · rw [if_pos ((domLocked_iff s other).mpr locked)]
    exact ⟨rfl, rfl, rfl, rfl, fun _ => rfl, fun bad => absurd locked bad, rfl⟩
  · obtain ⟨_, _, sets⟩ := State.ntSet_frame { s with nt := s.nt.controlled v } 5
    rw [if_neg (mt (domLocked_iff s other).mp locked), sets]
    exact ⟨rfl, rfl, rfl, rfl, fun bad => absurd bad locked, fun _ => ⟨rfl, by simp [getLsbD_setBit]⟩, rfl⟩

/-! ### TIME_MARK (R343) -/

theorem timeMark_marks {s : State} (runs : swRuns s = true) :
    ∃ t, exec .timeMark s = .next t ∧ t.nt.markS = t.now / 1000000000 ∧ s.nt.markS < t.nt.markS ∧
      t.nt = { s.nt with markS := t.nt.markS } ∧ { t with tb := s.tb, nt := s.nt, er := s.er, hi := s.hi, out := s.out } = s := by
  obtain ⟨u, reaches⟩ : ∃ u, u = s.reach ((s.nt.markS + 1) * 1000000000) := ⟨_, rfl⟩
  obtain ⟨p, ran⟩ : ∃ p, exec .timeMark s =
      .next ((u.modNt fun n => { n with markS := u.now / 1000000000 }).emit 18 0x001#12 p) := by
    rw [reaches]
    exact ⟨_, if_neg (by simp [runs])⟩
  have due : (s.nt.markS + 1) * 1000000000 ≤ u.now := reaches ▸ s.le_reach_now _
  have next : s.nt.markS < u.now / 1000000000 := by omega
  rw [State.reach_eq] at reaches
  obtain ⟨_, _, _, emits⟩ := (u.modNt fun n => { n with markS := u.now / 1000000000 }).emit_frame 18 0x001#12 p
  rw [emits] at ran
  refine ⟨_, ran, rfl, next, ?_, ?_⟩
  · rw [reaches]
    rfl
  · rw [reaches]
    rfl

theorem otherDomain_ne : ∀ d : Fin 2, (if d = 0 then (1 : Fin 2) else 0) ≠ d := by decide

/-- Settles O48: Syncs and Follow_Ups, peer delay, timeouts, the servo, NT_CTRL and TIME_MARK. -/
theorem networkTimeFollows : Obligations.NetworkTimeFollows := by
  intro s runs
  refine ⟨fun on => ⟨fun p m d domain => ?_, pdelayReqSend_asks runs on, fun p m => pdelayReqReceive_answers runs on,
    fun p m g t1 => ?_, fun d => domainTimeout_loses runs on⟩, servoUpdate_bounds runs, holdoverTimeout_unlocks runs, fun v => ?_,
    timeMark_marks runs⟩
  · intro x o accepted rejected
    have ne : o ≠ d := otherDomain_ne d
    refine ⟨fun free bad => ?_, fun free good waits => ?_, fun free good single => ?_, fun free => ?_, fun y waits seq within => ?_,
      fun y => followUpTimeout_discards runs on⟩
    · exact ⟨_, (syncReceive_checks runs on domain free).trans (by rw [bad]; rfl), s.syncReject_shows d ne⟩
    · exact (syncReceive_checks runs on domain free).trans (by rw [good, waits]; rfl)
    · exact ⟨_, (syncReceive_checks runs on domain free).trans (by rw [good, single]; rfl), (s.syncAccept_accepts d p m).shows ne⟩
    · exact ⟨_, followUpReceive_alone runs on domain free, s.syncReject_shows d ne⟩
    · exact ⟨_, followUpReceive_completes runs on domain waits seq within, (s.syncAccept_accepts d p _).shows ne⟩
  · intro x sent awaited seq port own same first turn d
    exact pdelayRespReceive_measures runs on sent awaited seq port own same first rfl
  · intro other
    exact ntSwitchRequest_asks runs v (by unfold other; cases s.nt.sel <;> rfl)

end Sys2Proof.Machine
end

section
/-! SUPPORT. The operations that the CAN controllers are made of: what a change of one controller, a sticky bit, new error counters and
the end of an attempt leave (R355, R358, R361). -/
namespace Sys2Proof.Machine

/-! ### Words in memory (R5) -/

theorem State.rd64_wr64 (s : State) (a : Nat) (v : BitVec 64) (canonical : Memory.wf s.mem = true) : (s.wr64 a v).rd64 a = v := by
  have word := memNat_memWriteList (natBytes v.toNat 8) s.mem a canonical
  rw [natBytes_length, bytesNat_natBytes] at word
  refine BitVec.eq_of_toNat_eq ?_
  rw [State.rd64_toNat, State.wr64, word]
  exact Nat.mod_eq_of_lt v.isLt

theorem State.wr64_outside (s : State) (a : Nat) (v : BitVec 64) (canonical : Memory.wf s.mem = true) {b : Nat}
    (out : b < a ∨ a + 8 ≤ b) : memRead (s.wr64 a v).mem b = memRead s.mem b :=
  memRead_memWriteList_outside _ _ _ _ canonical (by rwa [natBytes_length])

/-! ### One controller has changed -/

/-- Controller `n` is `c` now; the other controllers, the place of the objects and memory are as before. -/
structure CtlTo (n : Fin 4) (c : CanCtl) (s t : State) : Prop where
  ctl : t.can.ctl[n] = c
  other : ∀ k : Fin 4, k ≠ n → t.can.ctl[k] = s.can.ctl[k]
  base : t.can.base = s.can.base
  mem : t.mem = s.mem

theorem CtlTo.refl (n : Fin 4) (s : State) : CtlTo n s.can.ctl[n] s s := ⟨rfl, fun _ _ => rfl, rfl, rfl⟩

theorem State.canSet_frame (s : State) (n : Fin 4) (i : Nat) : ∃ pba out,
    s.canSet n i = { s.modCan n (fun c => { c with sticky := setBit c.sticky i }) with hi.pba := pba, out := out } :=
  irqWatch_frame _ _ _ _

theorem State.modCan_same {s : State} {n : Fin 4} {g : CanCtl → CanCtl} (same : g s.can.ctl[n] = s.can.ctl[n]) : s.modCan n g = s := by
  rw [State.modCan, upd, same]
  simp

theorem State.modCan_modCan (s : State) (n : Fin 4) (f g : CanCtl → CanCtl) :
    (s.modCan n f).modCan n g = s.modCan n fun c => g (f c) := by
  simp only [State.modCan, upd_upd]

namespace CtlTo

variable {n : Fin 4} {c : CanCtl} {s t : State} (so : CtlTo n c s t)
include so

theorem mod (g : CanCtl → CanCtl) : CtlTo n (g c) s (t.modCan n g) :=
  ⟨(upd_at _ _ _).trans (congrArg g so.ctl), fun k ne => (upd_beside _ _ ne).trans (so.other k ne), so.base, so.mem⟩

theorem set (i : Nat) : CtlTo n { c with sticky := setBit c.sticky i } s (t.canSet n i) := by
  obtain ⟨_, _, sets⟩ := t.canSet_frame n i
  obtain ⟨ctl, other, base, mem⟩ := so.mod fun c => { c with sticky := setBit c.sticky i }
  rw [sets]
  exact ⟨ctl, other, base, mem⟩

theorem emit (src : Nat) (code : BitVec 12) (p : List (BitVec 32)) : CtlTo n c s (t.emit src code p) := by
  obtain ⟨_, _, _, emits⟩ := t.emit_frame src code p
  rw [emits]
  exact ⟨so.ctl, so.other, so.base, so.mem⟩

theorem fresh : CtlTo n c s t.takeFresh.2 := ⟨so.ctl, so.other, so.base, so.mem⟩

theorem word (j k : Nat) : canWord t n j k = canWord s n j k := by
  simp only [canWord, canObj, State.rd32, so.base, so.mem]

/-- The attempt ends: only what concerns requests has changed (R355). -/
theorem endTx : ∃ txPend txCan cancel,
    CtlTo n { c with tx := none, txPend := txPend, txCan := txCan, cancel := cancel } s (t.canEndTx n) := by
  have ends : CtlTo n _ s (t.canEndTx n) := so.mod _
  split at ends
  · next idle =>
    refine ⟨c.txPend, c.txCan, c.cancel, ?_⟩
    rw [← idle]
    exact ends
  split at ends
  · exact ⟨_, _, _, ends⟩
  · exact ⟨c.txPend, c.txCan, c.cancel, ends⟩

/-- New error counters: the error state is theirs, and recovery starts with bus-off alone (R358, R359). -/
theorem count (tec rec : Nat) : ∃ sticky recovering, (errOf tec rec ≠ 2#2 → recovering = c.recovering) ∧
    CtlTo n { c with
      tec := min 256 tec, rec_ := min 255 rec, err := errOf tec rec, sticky := sticky, recovering := recovering } s
      (t.canCounters n tec rec) := by
  unfold State.canCounters
  extract_lets before e s1 s2 s3 ch
  have counts : CtlTo n { c with tec := min 256 tec, rec_ := min 255 rec, err := e } s s1 :=
    so.mod fun c => { c with tec := min 256 tec, rec_ := min 255 rec, err := e }
  split
  · exact ⟨_, _, fun _ => rfl, counts⟩
  obtain ⟨sticky, tells⟩ : ∃ sticky, CtlTo n
      { c with tec := min 256 tec, rec_ := min 255 rec, err := e, sticky := sticky } s s2 := by
    unfold s2
    split
    · exact ⟨_, counts.set 3⟩
    split
    · exact ⟨_, counts.set 4⟩
    split
    · exact ⟨_, counts.set 5⟩
    · exact ⟨_, counts⟩
  unfold s3
  split
  · next off =>
    have off : e = 2#2 := by simpa using (Bool.and_eq_true_iff.mp off).1
    exact ⟨sticky, true, fun on => absurd off on, (tells.mod fun c => { c with recovering := true }).emit _ _ _⟩
  · exact ⟨sticky, _, fun _ => rfl, tells.emit _ _ _⟩

end CtlTo
end Sys2Proof.Machine
end

section
/-! SUPPORT. Modes, restart, and the words that return objects to hardware (R346, R347, R352, R357, R359). -/
namespace Sys2Proof.Machine

theorem can_up {s : State} (runs : s.domain 11 = .run) : (s.domain 11).up = true := by
  rw [runs]
  rfl

theorem canRuns_of {s : State} (runs : s.domain 11 = .run) : canRuns s = true := decide_eq_true runs

/-! ### What a write of CAN_CTRL_n does -/

section
variable {s : State} {n : Fin 4}

theorem setCanCtrl_reserved {v : BitVec 32} (reserved : field v 0 2 = 3#2) : s.setCanCtrl n v = s.canSet n 7 := if_pos reserved

theorem setCanCtrl_leavesInit {v : BitVec 32} (valid : field v 0 2 ≠ 3#2) (leaves : field v 0 2 ≠ 0#2)
    (init : (s.can.ctl[n]).mode = 0#2) (quiet : bit v 4 = false) :
    s.setCanCtrl n v = s.modCan n fun c => { c with fdEn := bit v 2, autoRec := bit v 3, mode := field v 0 2 } := by
  simp only [State.setCanCtrl, if_neg valid, if_neg leaves, init, quiet, ne_eq, not_true_eq_false, decide_false,
    Bool.false_and, Bool.false_eq_true, if_false, if_true, State.modCan_modCan]

theorem setCanCtrl_toInit {v : BitVec 32} (init : field v 0 2 = 0#2) (quiet : bit v 4 = false) :
    ∃ c, c.mode = 0#2 ∧ c.modeNow = 0#2 ∧ CtlTo n c s (s.setCanCtrl n v) := by
  unfold State.setCanCtrl
  extract_lets before m held s1 s2
  obtain ⟨c, first⟩ : ∃ c, CtlTo n c s s1 := by
    unfold s1
    split
    · exact ⟨_, (CtlTo.refl n s).set 7⟩
    split
    · exact ⟨_, (CtlTo.refl n s).mod _⟩
    · exact ⟨_, .refl n s⟩
  obtain ⟨_, _, _, ends⟩ := first.endTx
  have second : s2 = (s1.canEndTx n).modCan n fun c => { c with mode := m, modeNow := m } := if_pos init
  rw [if_neg (show m ≠ 3#2 by rw [show m = 0#2 from init]; decide), quiet, Bool.false_and, Bool.false_and, if_neg Bool.false_ne_true,
    second]
  exact ⟨_, init, init, ends.mod _⟩

theorem setCanCtrl_restarts {v : BitVec 32} (valid : field v 0 2 ≠ 3#2) (mode : field v 0 2 = (s.can.ctl[n]).mode)
    (on : (s.can.ctl[n]).mode ≠ 0#2) (fd : bit v 2 = (s.can.ctl[n]).fdEn) (auto : bit v 3 = (s.can.ctl[n]).autoRec)
    (manual : (s.can.ctl[n]).autoRec = false) (off : (s.can.ctl[n]).err = 2#2) (asks : bit v 4 = true) :
    s.setCanCtrl n v = s.modCan n fun c => { c with recovering := true } := by
  have same : (s.modCan n fun c => { c with mode := (s.can.ctl[n]).mode }) = s := State.modCan_same rfl
  rw [mode] at valid
  simp only [State.setCanCtrl, mode, if_neg valid, if_neg on, fd, auto, bne_self_eq_false, Bool.or_false, Bool.and_false,
    Bool.false_eq_true, if_false, same, off, asks, manual, Bool.not_false, decide_true, Bool.and_true, if_true]

/-! ### The writes -/

variable (runs : s.domain 11 = .run)
include runs

theorem canModeWrite_sets (v : BitVec 32) : exec (.canModeWrite n v) s = .next (s.setCanCtrl n v) := if_pos (can_up runs)

theorem canModeWrite_rejects {v : BitVec 32} (reserved : field v 0 2 = 3#2) : ∃ t, exec (.canModeWrite n v) s = .next t ∧
    t.can.ctl[n] = { s.can.ctl[n] with sticky := (s.can.ctl[n]).sticky ||| 0x80#9 } ∧
      ∀ k : Fin 4, k ≠ n → t.can.ctl[k] = s.can.ctl[k] := by
  obtain ⟨ctl, other, -, -⟩ := (CtlTo.refl n s).set 7
  exact ⟨_, canModeWrite_sets runs v, setCanCtrl_reserved reserved ▸ ctl, setCanCtrl_reserved reserved ▸ other⟩

theorem canModeWrite_toInit {v : BitVec 32} (init : field v 0 2 = 0#2) (quiet : bit v 4 = false) :
    ∃ t, exec (.canModeWrite n v) s = .next t ∧ (t.can.ctl[n]).mode = 0#2 ∧ (t.can.ctl[n]).modeNow = 0#2 ∧
      ∀ k : Fin 4, k ≠ n → t.can.ctl[k] = s.can.ctl[k] := by
  obtain ⟨c, mode, now, ctl, other, -, -⟩ := setCanCtrl_toInit (s := s) (n := n) init quiet
  exact ⟨_, canModeWrite_sets runs v, by rw [ctl, mode], by rw [ctl, now], other⟩

theorem canRestart_recovers {v : BitVec 32} (mode : field v 0 2 = (s.can.ctl[n]).mode) (valid : field v 0 2 ≠ 3#2)
    (on : (s.can.ctl[n]).mode ≠ 0#2) (fd : bit v 2 = (s.can.ctl[n]).fdEn) (auto : bit v 3 = (s.can.ctl[n]).autoRec)
    (manual : (s.can.ctl[n]).autoRec = false) (off : (s.can.ctl[n]).err = 2#2) :
    exec (.canRestart n v) s = .next (s.modCan n fun c => { c with recovering := true }) := by
  have ran : exec (.canRestart n v) s = .next (s.setCanCtrl n (setBit v 4)) := if_pos (can_up runs)
  have low : field (setBit v 4) 0 2 = field v 0 2 := by
    ext i below
    have : 4 ≠ i := by omega
    simp [field, setBit, this]
  rw [ran, setCanCtrl_restarts (by rwa [low]) (by rwa [low]) on ((bit_setBit_ne v 4 2 (by decide)).trans fd)
    ((bit_setBit_ne v 4 3 (by decide)).trans auto) manual off (bit_setBit_same v 4 (by decide))]

theorem canModeEffect_applies (idle : (s.can.ctl[n]).tx = none) :
    exec (.canModeEffect n) s = .next (s.modCan n fun c => { c with modeNow := c.mode }) :=
  if_pos (by rw [canRuns_of runs, idle]; rfl)

theorem canRxnewWrite_clears (w : Fin 4) (v : BitVec 32) : exec (.canRxnewWrite n w v) s =
    .next (s.modCan n fun c => { c with rxNew := c.rxNew &&& ~~~(v.setWidth 128 <<< (32 * w.val)) }) :=
  ite_not_of_true (can_up runs)

theorem canInvalidWrite_clears (w : Fin 4) (v : BitVec 32) : exec (.canInvalidWrite n w v) s =
    .next (s.modCan n fun c => { c with invalid := c.invalid &&& ~~~(v.setWidth 128 <<< (32 * w.val)) }) :=
  ite_not_of_true (can_up runs)

end

end Sys2Proof.Machine
end

section
/-! SUPPORT. Send requests: TXSET makes objects pending one after another, TXCANCEL withdraws them (R353, R355). -/
namespace Sys2Proof.Machine

/-- The bits of word `w` of a bitmap name the objects of its range. -/
theorem mem_bitmap (w : Fin 4) (v : BitVec 32) (j : Nat) : j ∈ bitmap w v ↔ j / 32 = w.val ∧ v.getLsbD (j % 32) = true := by
  simp only [bitmap, List.mem_map, List.mem_filter, List.mem_range]
  constructor
  · rintro ⟨i, ⟨below, named⟩, rfl⟩
    rw [Nat.mul_add_div (by decide), Nat.div_eq_of_lt below, Nat.mul_add_mod, Nat.mod_eq_of_lt below]
    exact ⟨rfl, named⟩
  · rintro ⟨word, named⟩
    exact ⟨j % 32, ⟨Nat.mod_lt _ (by decide), named⟩, by omega⟩

/-! ### Requests (R353) -/

/-- A request for object `j`: nothing when it is pending, TXREQ_REJ when it is refused. -/
def CanCtl.request (refused : Nat → Bool) (c : CanCtl) (j : Nat) : CanCtl :=
  if bit c.txPend j then c
  else if refused j then { c with sticky := setBit c.sticky 6 }
  else { c with txPend := setBit c.txPend j, txDone := clearBit c.txDone j, txCan := clearBit c.txCan j }

section
variable (refused : Nat → Bool) (c : CanCtl)

theorem CanCtl.request_rules (j : Nat) : (c.request refused j).invalid = c.invalid ∧ (c.request refused j).fdEn = c.fdEn := by
  unfold CanCtl.request
  split
  · exact ⟨rfl, rfl⟩
  split <;> exact ⟨rfl, rfl⟩

theorem CanCtl.request_pending (i : Fin 128) (j : Nat) : bit (c.request refused j).txPend i.val = true ↔
    bit c.txPend i.val = true ∨ i.val = j ∧ refused i.val = false := by
  unfold CanCtl.request
  split
  · next pending => exact ⟨Or.inl, fun so => so.elim id fun ⟨here, _⟩ => here ▸ pending⟩
  split
  · next bad => exact ⟨Or.inl, fun so => so.elim id fun ⟨here, good⟩ => absurd (here ▸ bad) (by simp [good])⟩
  · next good =>
    by_cases here : i.val = j
    · subst here
      simp [bit_setBit_same, i.isLt, good]
    · simp [bit_setBit_ne _ _ _ (Ne.symm here), here]

theorem CanCtl.request_tells {j : Nat} (told : bit c.sticky 6 = true) : bit (c.request refused j).sticky 6 = true := by
  unfold CanCtl.request
  split
  · exact told
  split
  · exact bit_setBit_same _ 6 (by decide)
  · exact told

/-- The objects named become pending one after another unless they are refused. -/
theorem CanCtl.requests_pending (l : List Nat) (i : Fin 128) : bit (l.foldl (CanCtl.request refused) c).txPend i.val = true ↔
    bit c.txPend i.val = true ∨ i.val ∈ l ∧ refused i.val = false := by
  induction l generalizing c with
  | nil => simp
  | cons j l ih =>
    rw [List.foldl_cons, ih, CanCtl.request_pending, List.mem_cons, or_and_right, or_assoc]

/-- An object named that is not pending and is refused is told. -/
theorem CanCtl.requests_tell {l : List Nat} {i : Fin 128} (named : i.val ∈ l) (idle : bit c.txPend i.val = false)
    (bad : refused i.val = true) : bit (l.foldl (CanCtl.request refused) c).sticky 6 = true := by
  induction l generalizing c with
  | nil => exact absurd named List.not_mem_nil
  | cons j l ih =>
    rw [List.foldl_cons]
    rcases List.mem_cons.mp named with here | later
    · refine foldl_keeps (fun c : CanCtl => bit c.sticky 6 = true) (CanCtl.request refused)
        (fun c _ told => c.request_tells refused told) l _ ?_
      rw [CanCtl.request, ← here, if_neg (by simp [idle]), if_pos bad]
      exact bit_setBit_same _ 6 (by decide)
    · refine ih _ later (Bool.eq_false_iff.mpr fun pending => ?_)
      rcases (c.request_pending refused i j).mp pending with before | ⟨-, good⟩
      · exact absurd before (by simp [idle])
      · exact absurd bad (by simp [good])

end

/-- Controller `n` is `c` now, and besides it interrupts may have been put out. -/
def State.Asked (s : State) (n : Fin 4) (c : CanCtl) (t : State) : Prop :=
  ∃ pba out, t = { s.modCan n (fun _ => c) with hi.pba := pba, out := out }

section
variable {s t : State} {n : Fin 4} {c : CanCtl}

theorem State.Asked.refl : s.Asked n s.can.ctl[n] s := ⟨s.hi.pba, s.out, by rw [State.modCan_same rfl]⟩

theorem State.Asked.to (so : s.Asked n c t) : CtlTo n c s t := by
  obtain ⟨_, _, rfl⟩ := so
  exact ⟨upd_at _ _ _, fun _ ne => upd_beside _ _ ne, rfl, rfl⟩

theorem State.Asked.rest (so : s.Asked n c t) : { t with can := s.can, hi := s.hi, out := s.out } = s := by
  obtain ⟨_, _, rfl⟩ := so
  rfl

theorem State.Asked.mod (so : s.Asked n c t) (g : CanCtl → CanCtl) : s.Asked n (g c) (t.modCan n g) := by
  obtain ⟨pba, out, rfl⟩ := so
  refine ⟨pba, out, ?_⟩
  rw [← State.modCan_modCan s n (fun _ => c) g]
  rfl

theorem State.Asked.set (so : s.Asked n c t) (i : Nat) : s.Asked n { c with sticky := setBit c.sticky i } (t.canSet n i) := by
  obtain ⟨pba, out, sets⟩ := t.canSet_frame n i
  obtain ⟨_, _, asked⟩ := so.mod fun c => { c with sticky := setBit c.sticky i }
  rw [sets, asked]
  exact ⟨_, _, rfl⟩

end

/-- The request of controller `n` for object `j`. -/
def State.canRequest (s : State) (n : Fin 4) (j : Nat) : State :=
  if bit (s.can.ctl[n]).txPend j then s
  else if canRefused s n j then s.canSet n 6
  else s.modCan n fun c => { c with txPend := setBit c.txPend j, txDone := clearBit c.txDone j, txCan := clearBit c.txCan j }

/-- A change of controller `n` that leaves INVALID and FD_EN has the same requests refused (R353). -/
theorem CtlTo.refused {n : Fin 4} {c : CanCtl} {s t : State} (so : CtlTo n c s t)
    (rules : c.invalid = (s.can.ctl[n]).invalid ∧ c.fdEn = (s.can.ctl[n]).fdEn) (j : Nat) : canRefused t n j = canRefused s n j := by
  simp only [canRefused, so.word, so.ctl, rules.1, rules.2]

theorem State.Asked.requests {n : Fin 4} (l : List Nat) {s t : State} {c : CanCtl} (so : s.Asked n c t)
    (rules : c.invalid = (s.can.ctl[n]).invalid ∧ c.fdEn = (s.can.ctl[n]).fdEn) :
    s.Asked n (l.foldl (CanCtl.request (canRefused s n)) c) (t.forEach l fun s j => s.canRequest n j) := by
  induction l generalizing t c with
  | nil => exact so
  | cons j l ih =>
    obtain ⟨invalid, fdEn⟩ := c.request_rules (canRefused s n) j
    have asks : s.Asked n (c.request (canRefused s n) j) (t.canRequest n j) := by
      rw [State.canRequest, so.to.ctl, so.to.refused rules, CanCtl.request]
      split
      · exact so
      split
      · exact so.set 6
      · exact so.mod _
    exact ih asks ⟨invalid.trans rules.1, fdEn.trans rules.2⟩

theorem canTxsetWrite_requests {s : State} (runs : s.domain 11 = .run) (n w : Fin 4) (v : BitVec 32) : ∃ t,
    exec (.canTxsetWrite n w v) s = .next t ∧
      s.Asked n ((bitmap w v).foldl (CanCtl.request (canRefused s n)) s.can.ctl[n]) t :=
  ⟨_, ite_not_of_true (can_up runs), State.Asked.requests _ .refl ⟨rfl, rfl⟩⟩

/-! ### Withdrawals (R355) -/

/-- Object `j` is being sent. -/
def CanCtl.sends (c : CanCtl) (j : Nat) : Bool := c.tx.elim false fun t => decide (t.obj.val = j)

theorem CanCtl.sends_iff (c : CanCtl) (j : Fin 128) : c.sends j.val = true ↔ ∃ a, c.tx = some a ∧ a.obj = j := by
  cases tx : c.tx <;> simp [CanCtl.sends, tx, Fin.ext_iff]

/-- A pending request is withdrawn: at once, or with the attempt when its object is being sent. -/
def CanCtl.withdraw (c : CanCtl) (j : Nat) : CanCtl :=
  if !bit c.txPend j then c
  else if c.sends j then { c with cancel := true }
  else { c with txPend := clearBit c.txPend j, txCan := setBit c.txCan j }

section
variable (c : CanCtl)

theorem CanCtl.withdraw_sends (j i : Nat) : (c.withdraw j).sends i = c.sends i := by
  unfold CanCtl.withdraw
  split
  · rfl
  split <;> rfl

theorem CanCtl.withdraw_pending (i j : Nat) : bit (c.withdraw j).txPend i = true ↔
    bit c.txPend i = true ∧ ¬(i = j ∧ c.sends i = false) := by
  unfold CanCtl.withdraw
  split
  · next idle =>
    refine ⟨fun pending => ⟨pending, fun ⟨here, _⟩ => ?_⟩, And.left⟩
    simp [← here, pending] at idle
  split
  · next busy =>
    refine ⟨fun pending => ⟨pending, fun ⟨here, free⟩ => ?_⟩, And.left⟩
    simp [← here, free] at busy
  · next free =>
    by_cases here : i = j
    · subst here
      simp [free]
    · simp [bit_clearBit_ne _ _ _ (Ne.symm here), here]

/-- Of the objects named none stays pending but the one that is being sent. -/
theorem CanCtl.withdrawals_pending (l : List Nat) (i : Nat) : bit (l.foldl CanCtl.withdraw c).txPend i = true ↔
    bit c.txPend i = true ∧ ¬(i ∈ l ∧ c.sends i = false) := by
  induction l generalizing c with
  | nil => simp
  | cons j l ih =>
    rw [List.foldl_cons, ih, CanCtl.withdraw_pending, CanCtl.withdraw_sends, List.mem_cons, or_and_right, not_or, and_assoc]

theorem CanCtl.withdraw_cancel (j : Nat) (told : c.cancel = true) : (c.withdraw j).cancel = true := by
  unfold CanCtl.withdraw
  split
  · exact told
  split
  · rfl
  · exact told

theorem CanCtl.withdraw_txCan (i : Fin 128) (j : Nat) (told : bit c.txCan i.val = true) : bit (c.withdraw j).txCan i.val = true := by
  unfold CanCtl.withdraw
  split
  · exact told
  split
  · exact told
  · exact (getLsbD_setBit _ _ _).trans (by rw [show c.txCan.getLsbD i.val = true from told, Bool.true_or])

theorem CanCtl.withdrawals_cancel {l : List Nat} {i : Nat} (named : i ∈ l) (pending : bit c.txPend i = true)
    (busy : c.sends i = true) : (l.foldl CanCtl.withdraw c).cancel = true := by
  induction l generalizing c with
  | nil => exact absurd named List.not_mem_nil
  | cons j l ih =>
    rw [List.foldl_cons]
    rcases List.mem_cons.mp named with rfl | later
    · refine foldl_keeps (fun c : CanCtl => c.cancel = true) CanCtl.withdraw CanCtl.withdraw_cancel l _ ?_
      rw [CanCtl.withdraw, if_neg (by simp [pending]), if_pos busy]
    · exact ih _ later ((c.withdraw_pending i j).mpr ⟨pending, by simp [busy]⟩) ((c.withdraw_sends j i).trans busy)

theorem CanCtl.withdrawals_txCan {l : List Nat} {i : Fin 128} (named : i.val ∈ l) (pending : bit c.txPend i.val = true)
    (free : c.sends i.val = false) : bit (l.foldl CanCtl.withdraw c).txCan i.val = true := by
  induction l generalizing c with
  | nil => exact absurd named List.not_mem_nil
  | cons j l ih =>
    rw [List.foldl_cons]
    by_cases here : i.val = j
    · refine foldl_keeps (fun c : CanCtl => bit c.txCan i.val = true) CanCtl.withdraw (fun c j => c.withdraw_txCan i j) l _ ?_
      rw [CanCtl.withdraw, ← here, if_neg (by simp [pending]), if_neg (by simp [free])]
      exact bit_setBit_same _ _ i.isLt
    · exact ih _ ((List.mem_cons.mp named).resolve_left here) ((c.withdraw_pending i j).mpr ⟨pending, fun so => here so.1⟩)
        ((c.withdraw_sends j i).trans free)

end

/-- The withdrawal of the request of controller `n` for object `j`. -/
def State.canWithdraw (s : State) (n : Fin 4) (j : Nat) : State :=
  if !bit (s.can.ctl[n]).txPend j then s
  else if (s.can.ctl[n]).sends j then s.modCan n fun c => { c with cancel := true }
  else s.modCan n fun c => { c with txPend := clearBit c.txPend j, txCan := setBit c.txCan j }

theorem State.canWithdraw_eq (s : State) (n : Fin 4) (j : Nat) : s.canWithdraw n j = s.modCan n fun c => c.withdraw j := by
  have changes {g : CanCtl → CanCtl} (same : (s.can.ctl[n]).withdraw j = g s.can.ctl[n]) :
      s.modCan n g = s.modCan n fun c => c.withdraw j := congrArg (fun ctl => { s with can.ctl := ctl }) (upd_congr same.symm)
  unfold State.canWithdraw
  split
  · next idle => exact (State.modCan_same (g := fun c => c.withdraw j) (if_pos idle)).symm
  next pending =>
  split
  · next busy => exact changes ((if_neg pending).trans (if_pos busy))
  · next free => exact changes ((if_neg pending).trans (if_neg free))

theorem State.canWithdraw_forEach (n : Fin 4) (l : List Nat) (s : State) :
    (s.forEach l fun s j => s.canWithdraw n j) = s.modCan n fun c => l.foldl CanCtl.withdraw c := by
  induction l generalizing s with
  | nil => exact (State.modCan_same rfl).symm
  | cons j l ih => exact (ih _).trans ((congrArg (fun t => State.modCan t n _) (s.canWithdraw_eq n j)).trans (s.modCan_modCan n _ _))

theorem canTxcancelWrite_withdraws {s : State} (runs : s.domain 11 = .run) (n w : Fin 4) (v : BitVec 32) :
    exec (.canTxcancelWrite n w v) s = .next (s.modCan n fun c => (bitmap w v).foldl CanCtl.withdraw c) := by
  have ran : exec (.canTxcancelWrite n w v) s = .next (s.forEach (bitmap w v) fun s j => s.canWithdraw n j) :=
    ite_not_of_true (can_up runs)
  rw [ran, State.canWithdraw_forEach]

end Sys2Proof.Machine
end

section
/-! SUPPORT. Attempts and their ends: the choice by key, completion, errors and recovery (R354, R355, R358, R359). -/
namespace Sys2Proof.Machine

/-! ### The choice (R354) -/

/-- The key of object `j`. -/
def canKeyOf (s : State) (n : Fin 4) (j : Fin 128) : Nat := (canKey (canWord s n j.val 0)).toNat

/-- What looking at object `j` makes of the choice `b`. -/
def canPrefer (s : State) (n : Fin 4) (b : Option (Fin 128)) (j : Fin 128) : Option (Fin 128) :=
  if !bit (s.can.ctl[n]).txPend j.val then b
  else b.elim (some j) fun i => if canKeyOf s n j < canKeyOf s n i then some j else b

theorem canChoice_eq (s : State) (n : Fin 4) : canChoice s n = (fins 128).foldl (canPrefer s n) none := by
  unfold canChoice
  congr 1
  funext b j
  cases b <;> rfl

section
variable (s : State) (n : Fin 4)

/-- Object `j` is pending. -/
def canPending (j : Fin 128) : Prop := bit (s.can.ctl[n]).txPend j.val = true

/-- The choice is a pending object. -/
theorem canPrefer_pending {b : Option (Fin 128)} (pending : ∀ i, b = some i → canPending s n i) (j i : Fin 128)
    (chosen : canPrefer s n b j = some i) : canPending s n i := by
  unfold canPrefer at chosen
  split at chosen
  · exact pending i chosen
  next here =>
  have here : canPending s n j := by simpa [canPending] using here
  cases b with
  | none => exact Option.some.inj chosen ▸ here
  | some k =>
    rw [Option.elim_some] at chosen
    split at chosen
    · exact Option.some.inj chosen ▸ here
    · exact pending i chosen

/-- No object looked at has a smaller key than the choice. -/
theorem canPrefer_least (b : Option (Fin 128)) (j i : Fin 128) (seen : b = some i ∨ i = j ∧ canPending s n i) :
    ∃ k, canPrefer s n b j = some k ∧ canKeyOf s n k ≤ canKeyOf s n i := by
  unfold canPrefer
  split
  · next idle =>
    rcases seen with chosen | ⟨rfl, pending⟩
    · exact ⟨i, chosen, Nat.le_refl _⟩
    · exact absurd idle (by rw [show bit (s.can.ctl[n]).txPend i.val = true from pending]; decide)
  cases b with
  | none =>
    rcases seen with chosen | ⟨rfl, -⟩
    · cases chosen
    · exact ⟨i, rfl, Nat.le_refl _⟩
  | some k =>
    rw [Option.elim_some]
    split
    · next less =>
      refine ⟨j, rfl, ?_⟩
      rcases seen with chosen | ⟨rfl, -⟩
      · cases chosen
        exact Nat.le_of_lt less
      · exact Nat.le_refl _
    · next more =>
      refine ⟨k, rfl, ?_⟩
      rcases seen with chosen | ⟨rfl, -⟩
      · cases chosen
        exact Nat.le_refl _
      · exact Nat.le_of_not_lt more

theorem canPrefer_fold (l : List (Fin 128)) (b : Option (Fin 128)) (i : Fin 128) (seen : b = some i ∨ i ∈ l ∧ canPending s n i) :
    ∃ k, l.foldl (canPrefer s n) b = some k ∧ canKeyOf s n k ≤ canKeyOf s n i := by
  induction l generalizing b i with
  | nil => exact ⟨i, seen.resolve_right (fun so => List.not_mem_nil so.1), Nat.le_refl _⟩
  | cons j l ih =>
    rw [List.foldl_cons]
    by_cases later : i ∈ l ∧ canPending s n i
    · exact ih _ i (.inr later)
    · obtain ⟨k, chosen, less⟩ := canPrefer_least s n b j i (seen.imp_right fun ⟨named, pending⟩ =>
        ⟨(List.mem_cons.mp named).resolve_right fun so => later ⟨so, pending⟩, pending⟩)
      obtain ⟨r, last, least⟩ := ih _ k (.inl chosen)
      exact ⟨r, last, Nat.le_trans least less⟩

/-- With an object pending the choice is a pending object with the smallest key. -/
theorem canChoice_least (waits : (s.can.ctl[n]).txPend ≠ 0#128) : ∃ j, canChoice s n = some j ∧ canPending s n j ∧
    ∀ i, canPending s n i → canKeyOf s n j ≤ canKeyOf s n i := by
  obtain ⟨i, pending⟩ : ∃ i : Fin 128, canPending s n i := by
    by_contra none
    exact waits (BitVec.eq_of_getLsbD_eq fun i below => by
      rw [BitVec.getLsbD_zero]
      exact Bool.eq_false_iff.mpr fun pending => none ⟨⟨i, below⟩, pending⟩)
  have covers := fun i pending => canPrefer_fold s n (fins 128) none i (.inr ⟨List.mem_finRange i, pending⟩)
  obtain ⟨j, chosen, -⟩ := covers i pending
  have mine : canPending s n j := foldl_keeps (fun b => ∀ i, b = some i → canPending s n i) (canPrefer s n)
    (fun b j so i => canPrefer_pending s n so j i) (fins 128) none (fun i so => by cases so) j chosen
  refine ⟨j, (canChoice_eq s n).trans chosen, mine, fun i pending => ?_⟩
  obtain ⟨k, same, least⟩ := covers i pending
  exact Option.some.inj (chosen.symm.trans same) ▸ least

end

section
variable {s : State} (runs : s.domain 11 = .run) {n : Fin 4}
include runs

theorem canTxAttempt_sends (normal : canEff s n = 1#2) (on : (s.can.ctl[n]).err ≠ 2#2) (idle : (s.can.ctl[n]).tx = none)
    {j : Fin 128} (chosen : canChoice s n = some j) : exec (.canTxAttempt n) s = .next
      ({ s with out := .can n.val ([canWord s n j.val 0, canWord s n j.val 2] ++
        (List.range 16).map fun k => canWord s n j.val (8 + k)) :: s.out }.modCan n fun c =>
        { c with tx := some { obj := j, sof := s.now64 }, cancel := false }) := by
  have may : (canRuns s && decide (canEff s n = 1#2) && decide ((s.can.ctl[n]).err ≠ 2#2) && (s.can.ctl[n]).tx.isNone) = true := by
    rw [canRuns_of runs, normal, decide_eq_true on, idle]
    rfl
  refine (if_pos may).trans ?_
  rw [chosen]

/-! ### Completion (R355) -/

theorem canTxComplete_done {a : CanTx} (busy : (s.can.ctl[n]).tx = some a) : ∃ t sticky recovering,
    exec (.canTxComplete n) s = .next t ∧ CtlTo n { s.can.ctl[n] with
      tx := none, cancel := false, txPend := clearBit (s.can.ctl[n]).txPend a.obj.val
      txDone := setBit (s.can.ctl[n]).txDone a.obj.val, cntTx := satInc (s.can.ctl[n]).cntTx
      tec := min 256 ((s.can.ctl[n]).tec - 1), rec_ := min 255 (s.can.ctl[n]).rec_
      err := errOf ((s.can.ctl[n]).tec - 1) (s.can.ctl[n]).rec_, sticky := sticky, recovering := recovering }
      (s.wr64 (canObj s n a.obj.val + 16) a.sof) t := by
  obtain ⟨u, wrote⟩ : ∃ u, u = s.wr64 (canObj s n a.obj.val + 16) a.sof := ⟨_, rfl⟩
  have ctl : u.can.ctl[n] = s.can.ctl[n] := by
    rw [wrote]
    rfl
  obtain ⟨v, ends⟩ : ∃ v, v = u.modCan n fun c => { c with
    tx := none, cancel := false, txPend := clearBit c.txPend a.obj.val, txDone := setBit c.txDone a.obj.val, cntTx := satInc c.cntTx } :=
    ⟨_, rfl⟩
  have ran : exec (.canTxComplete n) s =
      .next ((v.canSet n 0).canCounters n ((v.can.ctl[n]).tec - 1) (v.can.ctl[n]).rec_) := by
    have model : exec (.canTxComplete n) s = execCanTxComplete n s := rfl
    rw [model, execCanTxComplete, busy]
    exact (ite_not_of_true (canRuns_of runs)).trans (by rw [ends, wrote])
  have changed : CtlTo n _ u v := ends ▸ (CtlTo.refl n u).mod _
  obtain ⟨sticky, recovering, -, counts⟩ := (changed.set 0).count ((v.can.ctl[n]).tec - 1) (v.can.ctl[n]).rec_
  rw [changed.ctl, ctl] at counts
  rw [changed.ctl, ctl] at ran
  exact ⟨_, sticky, recovering, ran, wrote ▸ counts⟩

/-! ### Errors and recovery (R358, R359) -/

theorem canBusError_counts (normal : canEff s n = 1#2) (on : (s.can.ctl[n]).err ≠ 2#2) (lec : BitVec 3) (e : CanErr) :
    ∃ t c, exec (.canBusError n lec e) s = .next t ∧ CtlTo n c s t ∧ c.lec = lec ∧ c.tx = none ∧
      (e = .tx8 → c.tec = min 256 ((s.can.ctl[n]).tec + 8)) ∧ (e = .rx1 → c.rec_ = min 255 ((s.can.ctl[n]).rec_ + 1)) ∧
      (e = .rx8 → c.rec_ = min 255 ((s.can.ctl[n]).rec_ + 8)) ∧
      (e = .tx0 → c.tec = (s.can.ctl[n]).tec ∧ c.rec_ = (s.can.ctl[n]).rec_) := by
  have ran : exec (.canBusError n lec e) s = .next (s.canError n lec e) := if_pos (by
    rw [canRuns_of runs, normal, decide_eq_true on]
    rfl)
  obtain ⟨txPend, txCan, cancel, ends⟩ := (CtlTo.refl n s).endTx
  have fails := ends.mod fun c => { c with lec := lec }
  have active : ¬canEff s n = 2#2 := by
    rw [normal]
    decide
  unfold State.canError at ran
  rw [if_neg active, fails.ctl] at ran
  cases e with
  | tx8 =>
    obtain ⟨_, _, -, counts⟩ := fails.count ((s.can.ctl[n]).tec + 8) (s.can.ctl[n]).rec_
    exact ⟨_, _, ran, counts, rfl, rfl, fun _ => rfl, nofun, nofun, nofun⟩
  | tx0 => exact ⟨_, _, ran, fails, rfl, rfl, nofun, nofun, nofun, fun _ => ⟨rfl, rfl⟩⟩
  | rx1 =>
    obtain ⟨_, _, -, counts⟩ := fails.count (s.can.ctl[n]).tec ((s.can.ctl[n]).rec_ + 1)
    exact ⟨_, _, ran, counts, rfl, rfl, nofun, fun _ => rfl, nofun, nofun⟩
  | rx8 =>
    obtain ⟨_, _, -, counts⟩ := fails.count (s.can.ctl[n]).tec ((s.can.ctl[n]).rec_ + 8)
    exact ⟨_, _, ran, counts, rfl, rfl, nofun, nofun, fun _ => rfl, nofun⟩

theorem canRecoveryDone_recovers (recovers : (s.can.ctl[n]).recovering = true) (on : canEff s n ≠ 0#2) :
    ∃ t, exec (.canRecoveryDone n) s = .next t ∧ (t.can.ctl[n]).recovering = false ∧
      (t.can.ctl[n]).err = 0#2 ∧ (t.can.ctl[n]).tec = 0 ∧ (t.can.ctl[n]).rec_ = 0 ∧
      ∀ k : Fin 4, k ≠ n → t.can.ctl[k] = s.can.ctl[k] := by
  have ran : exec (.canRecoveryDone n) s = .next ((s.modCan n fun c => { c with recovering := false }).canCounters n 0 0) :=
    if_pos (by
      rw [canRuns_of runs, recovers, decide_eq_true on]
      rfl)
  obtain ⟨_, _, still, ⟨ctl, other, -, -⟩⟩ := ((CtlTo.refl n s).mod fun c => { c with recovering := false }).count 0 0
  refine ⟨_, ran, ?_, ?_, ?_, ?_, other⟩
  · rw [ctl, still (by decide)]
  · rw [ctl]
    rfl
  · rw [ctl]
    rfl
  · rw [ctl]
    rfl

end

end Sys2Proof.Machine
end

section
/-! SUPPORT. Received frames: what is stored where, and what is lost (R351, R356). -/
namespace Sys2Proof.Machine

/-! ### An object in memory (R351) -/

theorem dlcBytes_le : ∀ (fdf : Bool) (d : BitVec 4), dlcBytes fdf d ≤ 64 := by decide

/-- The words and data bytes of a frame in object `j`. -/
def State.canWritten (s : State) (n : Fin 4) (m : CanFrame) (j : Nat) : State :=
  let a := canObj s n j
  let len := if bit m.id 30 then 0 else dlcBytes m.fdf m.dlc
  let w2 := (canWord s n j 2 &&& 0xFFFFFF80#32) ||| at32 m.dlc 0 ||| bitAt m.fdf 4 ||| bitAt m.brs 5 ||| bitAt m.esi 6
  (((s.wr32 a (m.id &&& 0x7FFFFFFF#32)).wr32 (a + 8) w2).wr64 (a + 16) m.sof).wrBytes (a + 32)
    ((m.data ++ List.replicate 64 0#8).take len)

/-- The identifier and TIME of the frame read back, and nothing outside the object changes. -/
theorem State.canWritten_mem (s : State) (n : Fin 4) (m : CanFrame) (j : Nat) (canonical : Memory.wf s.mem = true) :
    (s.canWritten n m j).rd32 (canObj s n j) = m.id &&& 0x7FFFFFFF#32 ∧ (s.canWritten n m j).rd64 (canObj s n j + 16) = m.sof ∧
      ∀ x, x < canObj s n j ∨ canObj s n j + 96 ≤ x → memRead (s.canWritten n m j).mem x = memRead s.mem x := by
  unfold State.canWritten
  extract_lets a len w2
  have short : ((m.data ++ List.replicate 64 0#8).take len).length ≤ 64 := by
    refine Nat.le_trans (List.length_take_le _ _) ?_
    unfold len
    split
    · decide
    · exact dlcBytes_le _ _
  generalize (m.data ++ List.replicate 64 0#8).take len = bytes at short ⊢
  obtain ⟨u, id⟩ : ∃ u, u = s.wr32 a (m.id &&& 0x7FFFFFFF#32) := ⟨_, rfl⟩
  obtain ⟨v, code⟩ : ∃ v, v = u.wr32 (a + 8) w2 := ⟨_, rfl⟩
  obtain ⟨w, time⟩ : ∃ w, w = v.wr64 (a + 16) m.sof := ⟨_, rfl⟩
  have wfu : Memory.wf u.mem = true := id ▸ memWriteList_wf _ _ _ canonical
  have wfv : Memory.wf v.mem = true := code ▸ memWriteList_wf _ _ _ wfu
  have wfw : Memory.wf w.mem = true := time ▸ memWriteList_wf _ _ _ wfv
  have afterId : ∀ x, x < a ∨ a + 4 ≤ x → memRead u.mem x = memRead s.mem x := fun x out =>
    id ▸ s.wr32_outside a _ canonical out
  have afterCode : ∀ x, x < a + 8 ∨ a + 12 ≤ x → memRead v.mem x = memRead u.mem x := fun x out =>
    code ▸ u.wr32_outside (a + 8) _ wfu out
  have afterTime : ∀ x, x < a + 16 ∨ a + 24 ≤ x → memRead w.mem x = memRead v.mem x := fun x out =>
    time ▸ v.wr64_outside (a + 16) _ wfv out
  have afterData : ∀ x, x < a + 32 ∨ a + 96 ≤ x → memRead (w.wrBytes (a + 32) bytes).mem x = memRead w.mem x := fun x out =>
    memRead_memWriteList_outside bytes w.mem (a + 32) x wfw (by omega)
  rw [← id, ← code, ← time]
  refine ⟨?_, ?_, fun x out => ?_⟩
  · calc (w.wrBytes (a + 32) bytes).rd32 a
      _ = u.rd32 a := congrArg (BitVec.ofNat 32) (memNat_congr fun i below => by
          rw [afterData _ (by omega), afterTime _ (by omega), afterCode _ (by omega)])
      _ = _ := id ▸ s.rd32_wr32 a _ canonical
  · calc (w.wrBytes (a + 32) bytes).rd64 (a + 16)
      _ = w.rd64 (a + 16) := congrArg (BitVec.ofNat 64) (memNat_congr fun i below => afterData _ (by omega))
      _ = _ := time ▸ v.rd64_wr64 (a + 16) _ wfv
  · rw [afterData x (by omega), afterTime x (by omega), afterCode x (by omega), afterId x (by omega)]

/-! ### Hearing and storing (R356, R358) -/

theorem State.canStore_ctl (s : State) (n : Fin 4) (m : CanFrame) (j : Nat) : ∃ sticky, CtlTo n { s.can.ctl[n] with
    rxNew := setBit (s.can.ctl[n]).rxNew j, cntRx := satInc (s.can.ctl[n]).cntRx, sticky := sticky }
    (s.canWritten n m j) (s.canStore n m j) :=
  ⟨_, (CtlTo.mod (CtlTo.refl n (s.canWritten n m j)) fun c => { c with rxNew := setBit c.rxNew j, cntRx := satInc c.cntRx }).set 1⟩

/-- What receiving is about is in `d` what it is in `c`. -/
structure CanCtl.SameInbox (c d : CanCtl) : Prop where
  rxNew : d.rxNew = c.rxNew
  cntRx : d.cntRx = c.cntRx
  cntLost : d.cntLost = c.cntLost
  invalid : d.invalid = c.invalid

/-- Controller `n` has heard a frame of another node: its attempt ends, and REC follows unless it only listens. -/
def State.canHeard (s : State) (n : Fin 4) : State :=
  let s0 := s.canEndTx n
  if canEff s n = 2#2 then s0
  else
    let r := recAfter s0 (s0.can.ctl[n]).rec_
    r.2.canCounters n (r.2.can.ctl[n]).tec r.1

theorem CtlTo.recAfter {n : Fin 4} {c : CanCtl} {s t : State} (so : CtlTo n c s t) (rec : Nat) : CtlTo n c s (recAfter t rec).2 := by
  unfold Machine.recAfter
  split
  · exact so
  split
  · exact so
  · exact so.fresh

theorem State.canHeard_ctl (s : State) (n : Fin 4) : ∃ c, CtlTo n c s (s.canHeard n) ∧ (s.can.ctl[n]).SameInbox c := by
  obtain ⟨_, _, _, ends⟩ := (CtlTo.refl n s).endTx
  unfold State.canHeard
  split
  · exact ⟨_, ends, ⟨rfl, rfl, rfl, rfl⟩⟩
  · obtain ⟨_, _, -, counts⟩ := (ends.recAfter _).count _ _
    exact ⟨_, counts, ⟨rfl, rfl, rfl, rfl⟩⟩

theorem CtlTo.matching {n : Fin 4} {c : CanCtl} {s t : State} (so : CtlTo n c s t) (rules : c.invalid = (s.can.ctl[n]).invalid)
    (m : CanFrame) (j : Nat) : canMatches t n m j = canMatches s n m j := by
  simp only [canMatches, canEn, canSend, so.word, so.ctl, rules]

/-! ### The object of a frame (R356) -/

/-- The first object that matches and is free. -/
def canFree (s : State) (n : Fin 4) (m : CanFrame) : Option Nat :=
  ((List.range 128).filter fun j => canMatches s n m j).find? fun j => !bit (s.can.ctl[n]).rxNew j

section
variable {s : State} {n : Fin 4} {m : CanFrame}

theorem canFree_first {j : Fin 128} (fits : canMatches s n m j.val = true) (free : bit (s.can.ctl[n]).rxNew j.val = false)
    (first : ∀ i : Fin 128, i < j → ¬(canMatches s n m i.val = true ∧ bit (s.can.ctl[n]).rxNew i.val = false)) :
    canFree s n m = some j.val := by
  rw [canFree, List.find?_filter, List.find?_range_eq_some]
  refine ⟨by simp only [fits, free]; decide, List.mem_range.mpr j.isLt, fun i below => ?_⟩
  have taken := first ⟨i, Nat.lt_trans below j.isLt⟩ below
  simpa [or_iff_not_imp_left] using taken

theorem canFree_none (full : ∀ j : Fin 128, ¬(canMatches s n m j.val = true ∧ bit (s.can.ctl[n]).rxNew j.val = false)) :
    canFree s n m = none := by
  rw [canFree, List.find?_filter, List.find?_eq_none]
  intro j below
  simpa using full ⟨j, List.mem_range.mp below⟩

variable (runs : s.domain 11 = .run) (on : canEff s n ≠ 0#2) (active : (s.can.ctl[n]).err ≠ 2#2)
  (form : m.fdf = true → (s.can.ctl[n]).fdEn = true)
include runs on active form

/-- A frame that is heard without error goes to the first object that is free, and is lost when some match and none is free. -/
theorem canFrameReceive_opens : exec (.canFrameReceive n m) s = (canFree (s.canHeard n) n m).elim
    (if ((List.range 128).filter fun j => canMatches (s.canHeard n) n m j).isEmpty then .next (s.canHeard n)
      else .next (((s.canHeard n).modCan n fun c => { c with cntLost := satInc c.cntLost }).canSet n 2))
    fun j => .next ((s.canHeard n).canStore n m j) := by
  have hears : ¬(!canRuns s || decide (canEff s n = 0#2) || decide ((s.can.ctl[n]).err = 2#2)) = true := by
    rw [canRuns_of runs, decide_eq_false on, decide_eq_false active]
    decide
  have sound : ¬(m.fdf && !(s.can.ctl[n]).fdEn) = true := by
    cases fdf : m.fdf with
    | false => exact Bool.false_ne_true
    | true =>
      rw [form fdf]
      decide
  refine (if_neg hears).trans ((if_neg sound).trans ?_)
  unfold State.canHeard canFree
  extract_lets s0 r s1 hits
  cases hits.find? _ <;> rfl

theorem canFrameReceive_stores {j : Nat} (free : canFree (s.canHeard n) n m = some j) :
    exec (.canFrameReceive n m) s = .next ((s.canHeard n).canStore n m j) := by
  refine (canFrameReceive_opens runs on active form).trans ?_
  rw [free, Option.elim_some]

theorem canFrameReceive_loses (full : canFree (s.canHeard n) n m = none) {j : Fin 128}
    (fits : canMatches (s.canHeard n) n m j.val = true) : exec (.canFrameReceive n m) s =
      .next (((s.canHeard n).modCan n fun c => { c with cntLost := satInc c.cntLost }).canSet n 2) := by
  refine (canFrameReceive_opens runs on active form).trans ?_
  have matched : ((List.range 128).filter fun j => canMatches (s.canHeard n) n m j).isEmpty = false := by
    rw [List.isEmpty_eq_false_iff]
    exact List.ne_nil_of_mem (List.mem_filter.mpr ⟨List.mem_range.mpr j.isLt, fits⟩)
  rw [full, Option.elim_none, matched, if_neg Bool.false_ne_true]

end

end Sys2Proof.Machine
end

section
/-! SUPPORT. The settlement of O49: what each command shows of its controller, of the others and of memory (R346 to R359). -/
namespace Sys2Proof.Machine

section
variable {s : State} (runs : s.domain 11 = .run) {n : Fin 4}
include runs

theorem canTxsetWrite_shows (w : Fin 4) (v : BitVec 32) : ∃ t, exec (.canTxsetWrite n w v) s = .next t ∧
    (∀ k : Fin 4, k ≠ n → t.can.ctl[k] = s.can.ctl[k]) ∧
    (∀ j : Fin 128, (t.can.ctl[n]).txPend.getLsbD j.val = true ↔ (s.can.ctl[n]).txPend.getLsbD j.val = true ∨
      (j.val / 32 = w.val ∧ v.getLsbD (j.val % 32) = true) ∧ canRefused s n j.val = false) ∧
    ((∃ j : Fin 128, (j.val / 32 = w.val ∧ v.getLsbD (j.val % 32) = true) ∧ (s.can.ctl[n]).txPend.getLsbD j.val = false ∧
      canRefused s n j.val = true) → (t.can.ctl[n]).sticky.getLsbD 6 = true) ∧
    { t with can := s.can, hi := s.hi, out := s.out } = s := by
  obtain ⟨t, ran, asked⟩ := canTxsetWrite_requests runs n w v
  refine ⟨t, ran, asked.to.other, fun j => ?_, ?_, asked.rest⟩
  · rw [asked.to.ctl, ← mem_bitmap]
    exact CanCtl.requests_pending _ _ _ j
  · rintro ⟨j, named, idle, bad⟩
    rw [asked.to.ctl]
    exact CanCtl.requests_tell _ _ ((mem_bitmap w v j.val).mpr named) idle bad

theorem canTxcancelWrite_shows (w : Fin 4) (v : BitVec 32) : ∃ t, exec (.canTxcancelWrite n w v) s = .next t ∧
    (∀ k : Fin 4, k ≠ n → t.can.ctl[k] = s.can.ctl[k]) ∧
    (∀ j : Fin 128, let named := j.val / 32 = w.val ∧ v.getLsbD (j.val % 32) = true
      let busy := ∃ a, (s.can.ctl[n]).tx = some a ∧ a.obj = j
      ((t.can.ctl[n]).txPend.getLsbD j.val = true ↔ (s.can.ctl[n]).txPend.getLsbD j.val = true ∧ ¬(named ∧ ¬busy)) ∧
      (named → (s.can.ctl[n]).txPend.getLsbD j.val = true → busy → (t.can.ctl[n]).cancel = true) ∧
      (named → (s.can.ctl[n]).txPend.getLsbD j.val = true → ¬busy → (t.can.ctl[n]).txCan.getLsbD j.val = true)) ∧
    { t with can := s.can } = s := by
  have changed := (CtlTo.refl n s).mod fun c => (bitmap w v).foldl CanCtl.withdraw c
  refine ⟨_, canTxcancelWrite_withdraws runs n w v, changed.other, fun j => ?_, rfl⟩
  dsimp only
  rw [changed.ctl, ← mem_bitmap, ← CanCtl.sends_iff, Bool.not_eq_true]
  exact ⟨CanCtl.withdrawals_pending _ _ _, CanCtl.withdrawals_cancel _, CanCtl.withdrawals_txCan _⟩

theorem canTxAttempt_shows (normal : canEff s n = 1#2) (on : (s.can.ctl[n]).err ≠ 2#2) (idle : (s.can.ctl[n]).tx = none)
    (waits : (s.can.ctl[n]).txPend ≠ 0#128) : ∃ t j, exec (.canTxAttempt n) s = .next t ∧
      (s.can.ctl[n]).txPend.getLsbD j.val = true ∧
      (∀ i : Fin 128, (s.can.ctl[n]).txPend.getLsbD i.val = true →
        (canKey (canWord s n j.val 0)).toNat ≤ (canKey (canWord s n i.val 0)).toNat) ∧
      t.can.ctl[n] = { s.can.ctl[n] with tx := some { obj := j, sof := s.now64 }, cancel := false } ∧
      (∀ k : Fin 4, k ≠ n → t.can.ctl[k] = s.can.ctl[k]) ∧
      t.out = .can n.val ([canWord s n j.val 0, canWord s n j.val 2] ++ (List.range 16).map fun k => canWord s n j.val (8 + k)) :: s.out ∧
      { t with can := s.can, out := s.out } = s := by
  obtain ⟨j, chosen, pending, least⟩ := canChoice_least s n waits
  exact ⟨_, j, canTxAttempt_sends runs normal on idle chosen, pending, least, upd_at _ _ _, fun k ne => upd_beside _ _ ne, rfl, rfl⟩

theorem canTxComplete_shows {a : CanTx} (busy : (s.can.ctl[n]).tx = some a) : ∃ t, exec (.canTxComplete n) s = .next t ∧
    (t.can.ctl[n]).tx = none ∧ (t.can.ctl[n]).txPend = clearBit (s.can.ctl[n]).txPend a.obj.val ∧
    (t.can.ctl[n]).txDone = setBit (s.can.ctl[n]).txDone a.obj.val ∧ (t.can.ctl[n]).cntTx = satInc (s.can.ctl[n]).cntTx ∧
    (t.can.ctl[n]).tec = min 256 ((s.can.ctl[n]).tec - 1) ∧ (∀ k : Fin 4, k ≠ n → t.can.ctl[k] = s.can.ctl[k]) ∧
    (Memory.wf s.mem = true → t.rd64 (canObj s n a.obj.val + 16) = a.sof) := by
  obtain ⟨t, _, _, ran, ctl, other, -, mem⟩ := canTxComplete_done runs busy
  refine ⟨t, ran, by rw [ctl], by rw [ctl], by rw [ctl], by rw [ctl], by rw [ctl], other, fun canonical => ?_⟩
  rw [State.rd64, mem]
  exact s.rd64_wr64 _ _ canonical

theorem canBusError_shows (normal : canEff s n = 1#2) (on : (s.can.ctl[n]).err ≠ 2#2) (lec : BitVec 3) (e : CanErr) :
    ∃ t, exec (.canBusError n lec e) s = .next t ∧ (t.can.ctl[n]).lec = lec ∧ (t.can.ctl[n]).tx = none ∧
      (∀ k : Fin 4, k ≠ n → t.can.ctl[k] = s.can.ctl[k]) ∧ t.mem = s.mem ∧
      (e = .tx8 → (t.can.ctl[n]).tec = min 256 ((s.can.ctl[n]).tec + 8)) ∧
      (e = .rx1 → (t.can.ctl[n]).rec_ = min 255 ((s.can.ctl[n]).rec_ + 1)) ∧
      (e = .rx8 → (t.can.ctl[n]).rec_ = min 255 ((s.can.ctl[n]).rec_ + 8)) ∧
      (e = .tx0 → (t.can.ctl[n]).tec = (s.can.ctl[n]).tec ∧ (t.can.ctl[n]).rec_ = (s.can.ctl[n]).rec_) := by
  obtain ⟨t, c, ran, ⟨rfl, other, -, mem⟩, told, ended, counts⟩ := canBusError_counts runs normal on lec e
  exact ⟨t, ran, told, ended, other, mem, counts⟩

section
variable (on : canEff s n ≠ 0#2) (active : (s.can.ctl[n]).err ≠ 2#2) {m : CanFrame} (form : m.fdf = true → (s.can.ctl[n]).fdEn = true)
include on active form

theorem canFrameReceive_shows_stored {j : Fin 128} (free : canMatches s n m j.val = true ∧ (s.can.ctl[n]).rxNew.getLsbD j.val = false)
    (first : ∀ i : Fin 128, i < j → ¬(canMatches s n m i.val = true ∧ (s.can.ctl[n]).rxNew.getLsbD i.val = false)) :
    ∃ t, exec (.canFrameReceive n m) s = .next t ∧ (t.can.ctl[n]).rxNew = setBit (s.can.ctl[n]).rxNew j.val ∧
      (t.can.ctl[n]).cntRx = satInc (s.can.ctl[n]).cntRx ∧ (t.can.ctl[n]).cntLost = (s.can.ctl[n]).cntLost ∧
      (∀ k : Fin 4, k ≠ n → t.can.ctl[k] = s.can.ctl[k]) ∧
      (Memory.wf s.mem = true → t.rd32 (canObj s n j.val) = m.id &&& 0x7FFFFFFF#32 ∧ t.rd64 (canObj s n j.val + 16) = m.sof ∧
        ∀ x, x < canObj s n j.val ∨ canObj s n j.val + 96 ≤ x → memRead t.mem x = memRead s.mem x) := by
  obtain ⟨c, heard, inbox⟩ := s.canHeard_ctl n
  have place : canFree (s.canHeard n) n m = some j.val := by
    refine canFree_first ((heard.matching inbox.invalid m _).trans free.1) ?_ fun i below => ?_
    · rw [heard.ctl, inbox.rxNew]
      exact free.2
    · rw [heard.matching inbox.invalid, heard.ctl, inbox.rxNew]
      exact first i below
  obtain ⟨_, ctl, other, -, mem⟩ := (s.canHeard n).canStore_ctl n m j.val
  rw [heard.ctl] at ctl
  have same : canObj (s.canHeard n) n j.val = canObj s n j.val := by rw [canObj, canObj, heard.base]
  refine ⟨_, canFrameReceive_stores runs on active form place, ?_, ?_, ?_, fun k ne => (other k ne).trans (heard.other k ne),
    fun canonical => ?_⟩
  · rw [ctl, inbox.rxNew]
  · rw [ctl, inbox.cntRx]
  · rw [ctl, inbox.cntLost]
  · have written := (s.canHeard n).canWritten_mem n m j.val (heard.mem ▸ canonical)
    rwa [same, heard.mem, State.rd32, State.rd64, ← mem] at written

theorem canFrameReceive_shows_lost (full : ∀ j : Fin 128, ¬(canMatches s n m j.val = true ∧ (s.can.ctl[n]).rxNew.getLsbD j.val = false))
    {j : Fin 128} (fits : canMatches s n m j.val = true) : ∃ t, exec (.canFrameReceive n m) s = .next t ∧
      (t.can.ctl[n]).cntLost = satInc (s.can.ctl[n]).cntLost ∧ (t.can.ctl[n]).rxNew = (s.can.ctl[n]).rxNew ∧ t.mem = s.mem ∧
      ∀ k : Fin 4, k ≠ n → t.can.ctl[k] = s.can.ctl[k] := by
  obtain ⟨c, heard, inbox⟩ := s.canHeard_ctl n
  have none : canFree (s.canHeard n) n m = none := canFree_none fun i => by
    rw [heard.matching inbox.invalid, heard.ctl, inbox.rxNew]
    exact full i
  obtain ⟨ctl, other, -, mem⟩ := (heard.mod fun c => { c with cntLost := satInc c.cntLost }).set 2
  refine ⟨_, canFrameReceive_loses runs on active form none ((heard.matching inbox.invalid m _).trans fits), ?_, ?_, mem, other⟩
  · rw [ctl, inbox.cntLost]
  · rw [ctl, inbox.rxNew]

end

end

/-- Settles O49: the writes of a controller, its attempts and their ends, the frames it hears, and its recovery. -/
theorem canControllersSendAndReceive : Obligations.CanControllersSendAndReceive := by
  intro n s runs c only put word
  refine ⟨fun v => ?_, canModeEffect_applies runs, fun w v => ?_, canTxAttempt_shows runs, fun a => canTxComplete_shows runs,
    canBusError_shows runs, fun on active m form => ?_, canRecoveryDone_recovers runs⟩
  · intro m
    refine ⟨canModeWrite_rejects runs, fun valid leaves init quiet => ?_, fun init _ => canModeWrite_toInit runs init,
      canRestart_recovers runs⟩
    exact (canModeWrite_sets runs v).trans (congrArg _ (setCanCtrl_leavesInit valid leaves init quiet))
  · exact ⟨canTxsetWrite_shows runs w v, canTxcancelWrite_shows runs w v, canRxnewWrite_clears runs w v,
      canInvalidWrite_clears runs w v⟩
  · intro free
    exact ⟨fun j => canFrameReceive_shows_stored runs on active form, fun full ⟨j, fits⟩ =>
      canFrameReceive_shows_lost runs on active form full fits⟩

end Sys2Proof.Machine
end

section
/-! SUPPORT. What the operations of the blocks leave of the pair unit: `State.standing` is the pair unit without what they may change of it
in passing. The rules of the operations that change more of it follow: a role taken, SAFE_HOLD, a double fault (R362, R378, R380, R388). -/
namespace Sys2Proof.Machine

/-- The pair unit without its log and digest words, the solutions in flight, the number of the next frame and the servo source. -/
def State.standing (s : State) : Pair :=
  { s.pr with seqTx := 0#32, log := [], digest := [], solIn := none, unacked := none, ext := {} }

theorem State.standing_of_pr {s t : State} (same : t.pr = s.pr) : t.standing = s.standing := by
  unfold State.standing
  rw [same]

theorem State.forEach_standing {α : Type} {s : State} {l : List α} {g : State → α → State} (each : ∀ t x, (g t x).standing = t.standing) :
    (s.forEach l g).standing = s.standing :=
  forEach_induct (fun t => t.standing = s.standing) l g (fun t x _ so => (each t x).trans so) s rfl

/-! ### Relations of the earlier files -/

theorem MotionOnly.pr {s t : State} (only : MotionOnly s t) : t.pr = s.pr := by rw [only]

theorem MotionOnly.standing {s t : State} (only : MotionOnly s t) : t.standing = s.standing := State.standing_of_pr only.pr

theorem RecordsOnly.standing {s t : State} (only : RecordsOnly s t) : t.standing = s.standing :=
  State.standing_of_pr (by rw [only])

/-! ### Interrupts and records -/

@[simp] theorem irqWatch_standing (v : Fin 64) (level : State → Bool) (s t : State) :
    (irqWatch v level s t).standing = t.standing := by
  obtain ⟨pba, out, watched⟩ := irqWatch_frame v level s t
  rw [watched]
  rfl

@[simp] theorem State.emit_standing (s : State) (src : Nat) (code : BitVec 12) (p : List (BitVec 32)) :
    (s.emit src code p).standing = s.standing := State.standing_of_pr (s.emit_pr src code p)

@[simp] theorem State.svRec_standing (s : State) (c : Fin 2) (code : BitVec 12) (p : List (BitVec 32)) :
    (s.svRec c code p).standing = s.standing := (s.svRec_records c code p).standing

@[simp] theorem svWatch_standing (s t : State) : (svWatch s t).standing = t.standing := by
  obtain ⟨hi, out, watched⟩ := svWatch_frame s t
  rw [watched]
  rfl

@[simp] theorem State.takeFresh_standing (s : State) : s.takeFresh.2.standing = s.standing := rfl

theorem State.reach_pr (s : State) (t : Nat) : (s.reach t).pr = s.pr := by rw [State.reach_eq]

/-! ### Network time and the ring -/

@[simp] theorem State.modNt_standing (s : State) (g : NetTime → NetTime) : (s.modNt g).standing = s.standing := rfl
@[simp] theorem State.modWr_standing (s : State) (g : Ring → Ring) : (s.modWr g).standing = s.standing := rfl

@[simp] theorem State.ntSet_standing (s : State) (i : Nat) : (s.ntSet i).standing = s.standing := by simp [State.ntSet]

@[simp] theorem State.ntState_standing (s : State) (st : NtState) : (s.ntState st).standing = s.standing := by
  unfold State.ntState
  split <;> simp

@[simp] theorem State.ntSwitch_standing (s : State) (cause : Nat) : (s.ntSwitch cause).standing = s.standing := by
  simp [State.ntSwitch]

@[simp] theorem State.ntHold_standing (s : State) (f : Int) : (s.ntHold f).standing = s.standing := by
  unfold State.ntHold
  split
  · simp
  · split <;> simp

/-- The return to the own domains forgets the servo source alone (R340, R378). -/
@[simp] theorem State.ntReturn_standing (s : State) : s.ntReturn.standing = s.standing := by
  have forgets : (s.modPr fun p => { p with ext := {} }).standing = s.standing := rfl
  unfold State.ntReturn
  dsimp only
  split
  · exact forgets
  split
  · simp [forgets]
  split <;> simp [forgets]

@[simp] theorem State.ringState_standing (s : State) (st : RingState) : (s.ringState st).standing = s.standing := by
  unfold State.ringState
  dsimp only
  split
  · rfl
  split
  · split <;> simp
  · simp

@[simp] theorem State.ringRelay_standing (s : State) : s.ringRelay.standing = s.standing := by
  unfold State.ringRelay
  extract_lets on wr hw s1
  have relay : s1.standing = s.standing := by
    simp only [s1]
    split <;> rfl
  split
  · simp [relay]
  split
  · split <;> simp [relay]
  split
  · simp [relay]
  split <;> simp [relay]

/-! ### The safety island -/

@[simp] theorem State.faultAxis_standing (s : State) (a : Fin 80) : (s.faultAxis a).standing = s.standing := (s.faultAxis_motion a).standing

@[simp] theorem State.svFaultAxis_standing (s : State) (a : Fin 80) : (s.svFaultAxis a).standing = s.standing :=
  (s.svFaultAxis_motion a).standing

@[simp] theorem State.svPublish_standing (s : State) : s.svPublish.standing = s.standing :=
  s.svPublish_motion.standing.trans (State.standing_of_pr rfl)

@[simp] theorem State.modSv_standing (s : State) (g : Selvedge → Selvedge) : (s.modSv g).standing = s.standing := rfl
@[simp] theorem State.ossdOpenCh_standing (s : State) (c : Fin 2) : (s.ossdOpenCh c).standing = s.standing := rfl

@[simp] theorem State.unbindDrafts_standing (s : State) : s.unbindDrafts.standing = s.standing :=
  (State.forEach_standing fun _ _ => rfl : (s.forEach (fins 8) fun s d => s.modSlot d fun x =>
    if x.state = .bound then { x with state := .loaded, insts := [], released := 0 } else x).standing = s.standing)

@[simp] theorem State.setDevState_standing (s : State) (st : DevState) (cause : Nat) : (s.setDevState st cause).standing = s.standing := by
  unfold State.setDevState
  split
  · rfl
  · simp only [State.ringRelay_standing, State.emit_standing, State.aonSet, irqWatch_standing]
    rfl

/-- The entry of SAFE_HOLD leaves the pair unit to the fault that caused it (R30, R269). -/
@[simp] theorem State.enterSafeHold_standing (s : State) (cause : Nat) : (s.enterSafeHold cause).standing = s.standing := by
  unfold State.enterSafeHold
  dsimp only
  split
  · rfl
  · simp only [State.svPublish_standing, State.ossdOpenCh_standing, State.modSv_standing, State.unbindDrafts_standing]
    rw [State.forEach_standing fun t a => t.faultAxis_standing a, State.setDevState_standing]

/-! ### The pair unit itself -/

@[simp] theorem State.prSet_standing (s : State) (i : Nat) :
    (s.prSet i).standing = { s.standing with sticky := setBit s.pr.sticky i } := by
  rw [State.prSet, irqWatch_standing]
  rfl

theorem State.prSet_frame (s : State) (i : Nat) :
    ∃ pba out, s.prSet i = { s with pr.sticky := setBit s.pr.sticky i, hi.pba := pba, out := out } :=
  irqWatch_frame 18 prLevel s _

@[simp] theorem State.pairCtl_standing (s : State) (c : PairCtl) : (s.pairCtl c).standing = s.standing := by
  unfold State.pairCtl
  split <;> rfl

@[simp] theorem State.pairSend_standing (s : State) (ty : Nat) (tag : BitVec 32) (p : List (BitVec 32)) :
    (s.pairSend ty tag p).standing = s.standing := by
  unfold State.pairSend
  split
  · exact State.forEach_standing fun _ _ => rfl
  · rfl

@[simp] theorem State.solutionAcked_standing (s : State) : s.solutionAcked.standing = s.standing := by
  unfold State.solutionAcked
  split <;> rfl

@[simp] theorem State.driveTrig_standing (s : State) (t : Fin 8) (active : Bool) : (s.driveTrig t active).standing = s.standing := by
  unfold State.driveTrig
  split <;> rfl

@[simp] theorem State.solutionAcked_aside (s : State) : s.solutionAcked.aside = s.aside := by
  unfold State.solutionAcked
  split <;> rfl

@[simp] theorem State.driveTrig_aside (s : State) (t : Fin 8) (active : Bool) : (s.driveTrig t active).aside = s.aside := by
  unfold State.driveTrig
  split <;> rfl

/-! ### What an alarm changes of the pair unit (R380, R387, R388) -/

/-- The pair unit is as before but for its heartbeats, a handover that is off, its own fault, and bits of PR_STICKY that were set. -/
structure PairKept (s t : State) : Prop where
  pair : t.standing = { s.standing with
    alvOut := t.pr.alvOut, sent := t.pr.sent, hbAt := t.pr.hbAt, mute := t.pr.mute, handOwn := t.pr.handOwn, handReq := t.pr.handReq
    handFrom := t.pr.handFrom, own := t.pr.own, ownLane := t.pr.ownLane, sticky := t.pr.sticky }
  sticky : ∀ i, s.pr.sticky.getLsbD i = true → t.pr.sticky.getLsbD i = true

section
variable {s t u : State}

theorem PairKept.of_standing (same : t.standing = s.standing) : PairKept s t := by
  refine ⟨?_, fun i => ?_⟩
  · change t.standing = { s.standing with
      alvOut := t.standing.alvOut, sent := t.standing.sent, hbAt := t.standing.hbAt, mute := t.standing.mute
      handOwn := t.standing.handOwn, handReq := t.standing.handReq, handFrom := t.standing.handFrom, own := t.standing.own
      ownLane := t.standing.ownLane, sticky := t.standing.sticky }
    rw [same]
  · change _ → t.standing.sticky.getLsbD i = true
    rw [same]
    exact id

theorem PairKept.refl : PairKept s s := .of_standing rfl

theorem PairKept.trans (first : PairKept s t) (second : PairKept t u) : PairKept s u :=
  ⟨by rw [second.pair, first.pair], fun i set => second.sticky i (first.sticky i set)⟩

theorem PairKept.role (kept : PairKept s t) : t.pr.role = s.pr.role := by
  change t.standing.role = s.pr.role
  rw [kept.pair]
  rfl

theorem PairKept.paired (kept : PairKept s t) : paired t = paired s := by
  unfold Sys2Proof.Machine.paired
  rw [kept.role]

variable (s)

theorem State.prSet_pairKept (i : Nat) : PairKept s (s.prSet i) := by
  obtain ⟨pba, out, set⟩ := s.prSet_frame i
  rw [set]
  refine ⟨rfl, fun j set => ?_⟩
  rw [getLsbD_setBit, set, Bool.true_or]

theorem State.alvLow_pairKept : PairKept s s.alvLow := by
  unfold State.alvLow
  split
  · exact ⟨rfl, fun _ => id⟩
  · exact .refl

theorem State.sendHeartbeat_pairKept : PairKept s s.sendHeartbeat := by
  have stamped : PairKept s (s.modPr fun p => { p with
      sent := ((p.seqTx, (s.now : Int) + s.nt.ofs) :: p.sent).take 16, hbAt := s.now, alvOut := !p.alvOut }) := ⟨rfl, fun _ => id⟩
  exact stamped.trans (.trans (.of_standing (State.pairSend_standing _ 0 s.tb.pickNum (heartbeatWords s))) ⟨rfl, fun _ => id⟩)

theorem State.dropSetpoints_pairKept : PairKept s s.dropSetpoints := ⟨rfl, fun _ => id⟩

theorem State.pairMute_pairKept : PairKept s s.pairMute := by
  unfold State.pairMute
  split
  · exact (show PairKept s (s.modPr fun p => { p with mute := true }) from ⟨rfl, fun _ => id⟩).trans
      ((State.alvLow_pairKept _).trans (State.dropSetpoints_pairKept _))
  · exact .refl

/-- What a device of a pair does after the entry of SAFE_HOLD on a double fault (R388). -/
def State.tellDouble (s : State) (f g : Nat × BitVec 12) : State :=
  ((((((s.dropSetpoints.sendHeartbeat).emit 20 0x008#12 [0x31#32, faultWord f, faultWord g]).prSet 7).pairCtl (.double f g))).modPr fun p =>
    { p with mute := decide (p.role = .active) || decide (p.role = .standby) || p.mute, handOwn := none, handReq := false
             handFrom := none }).alvLow

theorem State.tellDouble_pairKept (f g : Nat × BitVec 12) : PairKept s (s.tellDouble f g) := by
  unfold State.tellDouble
  refine (s.dropSetpoints_pairKept.trans (State.sendHeartbeat_pairKept _)).trans ?_
  generalize s.dropSetpoints.sendHeartbeat = t
  refine (PairKept.of_standing (t.emit_standing 20 0x008#12 [0x31#32, faultWord f, faultWord g])).trans ?_
  generalize t.emit 20 0x008#12 _ = u
  refine (u.prSet_pairKept 7).trans ?_
  generalize u.prSet 7 = v
  refine (PairKept.of_standing (v.pairCtl_standing (.double f g))).trans ?_
  generalize v.pairCtl _ = w
  exact (show PairKept w (w.modPr _) from ⟨rfl, fun _ => id⟩).trans (State.alvLow_pairKept _)

theorem State.tellDouble_sticky (f g : Nat × BitVec 12) : (s.tellDouble f g).pr.sticky.getLsbD 7 = true := by
  have set (u : State) : (u.prSet 7).pr.sticky.getLsbD 7 = true := by
    obtain ⟨pba, out, sets⟩ := u.prSet_frame 7
    rw [sets, getLsbD_setBit]
    simp
  have after (u : State) (was : u.pr.sticky.getLsbD 7 = true) (c : PairCtl) : (u.pairCtl c).pr.sticky.getLsbD 7 = true :=
    (PairKept.of_standing (u.pairCtl_standing c)).sticky 7 was
  exact (State.alvLow_pairKept _).sticky 7 (after _ (set _) _)

theorem State.doubleFault_eq (f g : Nat × BitVec 12) : s.doubleFault f g =
    let t := (((s.modSv fun v => { v with first := some f, second := some g }).svRec 0 0x00E#12 [faultWord f, faultWord g]).svRec 1 0x00E#12
      [faultWord f, faultWord g]).enterSafeHold 2
    if paired t then t.tellDouble f g else t := rfl

theorem State.doubleFault_pairKept (f g : Nat × BitVec 12) : PairKept s (s.doubleFault f g) := by
  rw [State.doubleFault_eq]
  extract_lets t
  have held : PairKept s t := .of_standing (by simp [t])
  split
  · exact held.trans (t.tellDouble_pairKept f g)
  · exact held

theorem State.doubleFault_sticky (f g : Nat × BitVec 12) (pair : paired s = true) :
    (s.doubleFault f g).pr.sticky.getLsbD 7 = true := by
  rw [State.doubleFault_eq]
  extract_lets t
  have held : PairKept s t := .of_standing (by simp [t])
  rw [if_pos (held.paired.trans pair)]
  exact t.tellDouble_sticky f g

/-- A double fault takes every powered device to SAFE_HOLD (R268, R388). -/
theorem State.doubleFault_state {s : State} (f g : Nat × BitVec 12) (on : s.pw.state ≠ .off) :
    (s.doubleFault f g).pw.state = .safeHold := by
  obtain ⟨u, same, double⟩ := s.doubleFault_aside f g
  rw [State.aside_pw double]
  exact u.enterSafeHold_state 2 (by rwa [State.aside_pw same])

theorem State.pairFaultFound_pairKept (code : BitVec 12) (lane : Bool) : PairKept s (s.pairFaultFound code lane) := by
  unfold State.pairFaultFound
  split
  · exact .refl
  split
  · exact s.doubleFault_pairKept _ _
  · exact (show PairKept s (s.modPr _) from ⟨rfl, fun _ => id⟩).trans (.of_standing (State.pairCtl_standing _ (.fault (20, code))))

theorem State.linkFault_pairKept (cause : Nat) : PairKept s (s.linkFault cause) :=
  .trans (.of_standing (State.emit_standing _ _ _ _)) (State.prSet_pairKept _ 2)

theorem State.linkFault_sticky (cause : Nat) : (s.linkFault cause).pr.sticky.getLsbD 2 = true := by
  obtain ⟨pba, out, set⟩ := (s.emit 20 0x003#12 [nat32 cause 0 ||| bitAt (!s.pr.alive) 8]).prSet_frame 2
  rw [State.linkFault, set, getLsbD_setBit]
  simp

end

/-! ### A role taken (R362, R378) -/

/-- Only the pair unit, network time and the ring, Churn's completed solution, the recorder and what interrupts and triggers put out have
changed. -/
def RoleOnly (s t : State) : Prop :=
  t = { s with pr := t.pr, nt := t.nt, wr := t.wr, hw := t.hw, qp := t.qp, er := t.er, hi := t.hi, out := t.out }

section
variable {s t u : State}

theorem RoleOnly.refl : RoleOnly s s := rfl

theorem RoleOnly.trans (first : RoleOnly s t) (second : RoleOnly t u) : RoleOnly s u := by
  unfold RoleOnly at *
  rw [second, first]

theorem RingOnly.roleOnly (only : RingOnly s t) : RoleOnly s t := by
  unfold RingOnly at only
  rw [only]
  rfl

theorem RoleOnly.tb (only : RoleOnly s t) : t.tb = s.tb := by rw [only]
theorem RoleOnly.pw (only : RoleOnly s t) : t.pw = s.pw := by rw [only]
theorem RoleOnly.sv (only : RoleOnly s t) : t.sv = s.sv := by rw [only]
theorem RoleOnly.cell (only : RoleOnly s t) : t.cell = s.cell := by rw [only]

theorem RoleOnly.now (only : RoleOnly s t) : t.now = s.now := by rw [State.now, only.tb, State.now]

variable (s)

theorem State.modPr_roleOnly (g : Pair → Pair) : RoleOnly s (s.modPr g) := rfl

theorem State.emit_roleOnly (src : Nat) (code : BitVec 12) (p : List (BitVec 32)) : RoleOnly s (s.emit src code p) :=
  (s.emit_ring src code p).roleOnly

theorem State.prSet_roleOnly (i : Nat) : RoleOnly s (s.prSet i) := by
  obtain ⟨pba, out, set⟩ := s.prSet_frame i
  rw [set]
  rfl

theorem State.pairCtl_roleOnly (c : PairCtl) : RoleOnly s (s.pairCtl c) := by
  unfold State.pairCtl
  split <;> rfl

theorem State.solutionAcked_roleOnly : RoleOnly s s.solutionAcked := by
  unfold State.solutionAcked
  split <;> rfl

theorem State.driveTrig_roleOnly (o : Fin 8) (active : Bool) : RoleOnly s (s.driveTrig o active) := by
  unfold State.driveTrig
  split <;> rfl

end

/-- The device has taken role `r`. -/
structure TakesRole (s t : State) (r : PairRole) : Prop where
  only : RoleOnly s t
  pair : t.standing = { s.standing with role := r, sticky := t.pr.sticky }
  sticky : ∀ i, s.pr.sticky.getLsbD i = true → t.pr.sticky.getLsbD i = true

section
variable {s t u : State} {r : PairRole}

theorem TakesRole.role (takes : TakesRole s t r) : t.pr.role = r := by
  change t.standing.role = r
  rw [takes.pair]

theorem TakesRole.lane (takes : TakesRole s t r) : t.pr.lane = s.pr.lane := by
  change t.standing.lane = s.pr.lane
  rw [takes.pair]
  rfl

theorem TakesRole.trans (takes : TakesRole s t r) (only : RoleOnly t u) (same : u.standing = t.standing) : TakesRole s u r := by
  refine ⟨takes.only.trans only, ?_, fun i set => ?_⟩
  · change u.standing = { s.standing with role := r, sticky := u.standing.sticky }
    rw [same, takes.pair]
  · change u.standing.sticky.getLsbD i = true
    rw [same]
    exact takes.sticky i set

/-- The role is entered, shown and recorded (R389). -/
theorem State.enterRole_takes (s : State) (r : PairRole) (p : List (BitVec 32)) :
    TakesRole s (((s.modPr fun p => { p with role := r }).prSet 0).emit 20 0x001#12 p) r := by
  refine TakesRole.trans (t := (s.modPr fun p => { p with role := r }).prSet 0) ?_ (State.emit_roleOnly _ _ _ _) (State.emit_standing _ _ _ _)
  obtain ⟨pba, out, set⟩ := (s.modPr fun p => { p with role := r }).prSet_frame 0
  rw [set]
  refine ⟨rfl, rfl, fun i was => ?_⟩
  change (setBit s.pr.sticky 0).getLsbD i = true
  rw [getLsbD_setBit, was, Bool.true_or]

/-- What follows from a role taken, in the order of R378: the servo source, the solution that waited for the partner, the triggers. -/
theorem State.setRole_takes (s : State) (r : PairRole) (cause : Nat) : TakesRole s (s.setRole r cause) r := by
  unfold State.setRole
  split
  · next already => exact ⟨rfl, by rw [← already]; rfl, fun _ => id⟩
  · extract_lets s1 s2 s3
    have entered : TakesRole s s1 r := s.enterRole_takes r _
    have sourced : TakesRole s s2 r := by
      simp only [s2]
      clear_value s1
      split
      · exact entered.trans s1.ntReturn_ring.roleOnly s1.ntReturn_standing
      split
      · exact entered.trans rfl rfl
      · exact entered
    have acked : TakesRole s s3 r := by
      simp only [s3]
      clear_value s2
      split
      · exact sourced.trans s2.solutionAcked_roleOnly s2.solutionAcked_standing
      · exact sourced
    clear_value s3
    split
    · refine forEach_induct (fun t => TakesRole s t r) _ _ (fun t o _ so => ?_) _ acked
      split
      · exact so
      · exact so.trans (t.driveTrig_roleOnly o true) (t.driveTrig_standing o true)
    · exact acked

end

end Sys2Proof.Machine
end

section
/-! SUPPORT. Requests for resynchronisation, their answers, and what control frames tell of faults (R382, R383, R387, R388), and O52. -/
namespace Sys2Proof.Machine

/-! ### Frames sent one after another -/

/-- Sending something for each entry of a list leaves the rest of the state, and each of them leaves the chip. -/
theorem State.forEach_sends {α : Type} (put : BitVec 32 → α → Out) (s : State) (l : List α) : ∃ seq out,
    (s.forEach l fun s q => { s with out := put s.pr.seqTx q :: s.out, pr.seqTx := s.pr.seqTx + 1#32 }) =
      { s with pr.seqTx := seq, out := out } ∧ (∀ o ∈ s.out, o ∈ out) ∧ ∀ q ∈ l, ∃ k, put k q ∈ out := by
  induction l generalizing s with
  | nil => exact ⟨_, _, rfl, fun _ => id, fun q none => absurd none List.not_mem_nil⟩
  | cons a l ih =>
    obtain ⟨seq, out, sends, kept, all⟩ := ih { s with out := put s.pr.seqTx a :: s.out, pr.seqTx := s.pr.seqTx + 1#32 }
    refine ⟨seq, out, sends, fun o was => kept o (List.mem_cons_of_mem _ was), fun q member => ?_⟩
    rcases List.mem_cons.mp member with rfl | later
    · exact ⟨_, kept _ List.mem_cons_self⟩
    · exact all q later

/-- The configuration set leaves with the time base as its last block (R383, R384). -/
theorem State.sendConfig_sends (s : State) : s.sendConfig.pr.role = s.pr.role ∧ s.sendConfig.pr.partner = s.pr.partner ∧
    (∀ o ∈ s.out, o ∈ s.sendConfig.out) ∧
    ∃ n net pick beat, .cfg n true (.timeBase s.tb.activePeriod s.tb.activeN net pick beat) ∈ s.sendConfig.out := by
  unfold State.sendConfig
  extract_lets b ps n
  obtain ⟨seq, out, sends, kept, all⟩ := s.forEach_sends
    (fun _ q => .cfg (BitVec.ofNat 32 q.1) (decide (q.1 + 1 = n)) q.2) ((List.range n).zip ps)
  rw [sends]
  refine ⟨rfl, rfl, kept, ?_⟩
  have count : n = (configParts s).length + 1 := by simp [n, ps]
  have last : ((configParts s).length, CfgPart.timeBase s.tb.activePeriod s.tb.activeN b.1 b.2.1 b.2.2) ∈ (List.range n).zip ps := by
    rw [count, List.range_succ, List.zip_append (by simp)]
    exact List.mem_append_right _ List.mem_cons_self
  obtain ⟨_, left⟩ := all _ last
  rw [decide_eq_true count.symm] at left
  exact ⟨_, _, _, _, left⟩

theorem State.pairCtl_up (s : State) (c : PairCtl) (up : pairUp s = true) :
    s.pairCtl c = { s with out := .pairCtl c :: s.out, pr.seqTx := s.pr.seqTx + 1#32 } := if_pos up

theorem pairUp_of_lane {s t : State} (lane : t.pr.lane = s.pr.lane) : pairUp t = pairUp s := by
  unfold pairUp
  rw [lane]

/-! ### Frames that fail their checks (R365) -/

theorem satAdd_zero {n : Nat} (c : BitVec n) : satAdd c 0 = c := by
  rw [satAdd, if_pos (by simpa using c.isLt)]
  simp

theorem satAdd_one {n : Nat} (c : BitVec n) : satAdd c 1 = satInc c := by
  unfold satAdd satInc
  by_cases full : c = BitVec.allOnes n
  · subst full
    rw [if_pos rfl, if_neg (by simp; omega)]
  · have below : c.toNat + 1 < 2 ^ n := by
      have : c.toNat ≠ 2 ^ n - 1 := fun top => full (BitVec.eq_of_toNat_eq (by simpa using top))
      have := c.isLt
      omega
    rw [if_neg full, if_pos below]
    exact BitVec.eq_of_toNat_eq (by simp)

theorem State.pairBad_zero (s : State) : s.pairBad 0 = s := by
  have same : upd s.pr.cnt 2 (fun c => satAdd c 0) = s.pr.cnt := by simp [upd, satAdd_zero]
  rw [State.pairBad, State.modPr, same]

theorem State.pairBad_one (s : State) : s.pairBad 1 = { s with pr.cnt := upd s.pr.cnt 2 satInc } := by
  rw [State.pairBad, State.modPr, upd_congr (satAdd_one _)]

/-! ### What is refused (R382) -/

/-- A request that does not cross the own one is refused with a reason, or every condition of R382 holds. -/
theorem syncRefuse_spec {s : State} (r : SyncReq) (waits : s.pr.reqAt = none) :
    (syncRefuse s r = none ↔ s.pr.role = .alone ∧ (r.role = .alone ∨ r.role = .syncing) ∧ s.sv.sealed = true ∧ r.sealed = true ∧
      s.sv.digest = r.digest ∧ r.part = 0x0880#32 ∧ r.rev = 0x12#32 ∧ r.off = true ∧ draftCarry s ≤ 14784) ∧
    ∀ n, syncRefuse s r = some n → n ≠ 0#4 := by
  unfold syncRefuse
  rw [waits]
  extract_lets own crossed
  rw [if_neg (by simp [crossed])]
  by_cases roles : s.pr.role ≠ .alone ∨ (r.role ≠ .alone ∧ r.role ≠ .syncing)
  · rw [if_pos roles]
    refine ⟨⟨nofun, fun ⟨alone, may, _⟩ => ?_⟩, by rintro n ⟨⟩; decide⟩
    rcases roles with other | ⟨notAlone, notSyncing⟩
    · exact absurd alone other
    · exact (may.elim notAlone notSyncing).elim
  rw [if_neg roles]
  by_cases images : (!own.sealed || !r.sealed || decide (own.digest ≠ r.digest)) = true
  · rw [if_pos images]
    refine ⟨⟨nofun, fun ⟨_, _, mine, its, same, _⟩ => ?_⟩, by rintro n ⟨⟩; decide⟩
    simp [own, syncReq, mine, its, same] at images
  rw [if_neg images]
  by_cases parts : own.part ≠ r.part ∨ own.rev ≠ r.rev
  · rw [if_pos parts]
    refine ⟨⟨nofun, fun ⟨_, _, _, _, _, part, rev, _⟩ => ?_⟩, by rintro n ⟨⟩; decide⟩
    simp [own, syncReq, part, rev] at parts
  rw [if_neg parts]
  by_cases axes : (!r.off) = true
  · rw [if_pos axes]
    refine ⟨⟨nofun, fun ⟨_, _, _, _, _, _, _, off, _⟩ => ?_⟩, by rintro n ⟨⟩; decide⟩
    simp [off] at axes
  rw [if_neg axes]
  by_cases carry : 14784 < own.carry
  · rw [if_pos carry]
    exact ⟨⟨nofun, fun ⟨_, _, _, _, _, _, _, _, fits⟩ => absurd carry (Nat.not_lt.mpr fits)⟩, by rintro n ⟨⟩; decide⟩
  rw [if_neg carry]
  refine ⟨⟨fun _ => ?_, fun _ => rfl⟩, nofun⟩
  simp only [own, syncReq, not_or, Classical.not_not, not_and, Bool.or_eq_true, Bool.not_eq_true', Bool.not_eq_false, ne_eq,
    decide_eq_true_eq, not_lt] at roles images parts axes carry
  obtain ⟨⟨mine, its⟩, same⟩ := images
  exact ⟨roles.1, Classical.or_iff_not_imp_left.mpr roles.2, mine, its, same, parts.1.symm, parts.2.symm, axes, carry⟩

/-- A record of the pair unit, and a bit of PR_STICKY that shows it (R389). -/
theorem State.emit_prSet_frame (s : State) (code : BitVec 12) (p : List (BitVec 32)) (i : Nat) : ∃ er pba out,
    (s.emit 20 code p).prSet i = { s with pr.sticky := setBit s.pr.sticky i, er := er, hi.pba := pba, out := out } := by
  obtain ⟨er, _, _, records⟩ := s.emit_frame 20 code p
  obtain ⟨pba, out, set⟩ := (s.emit 20 code p).prSet_frame i
  rw [set, records]
  exact ⟨er, pba, out, rfl⟩

/-! ### Frames that arrive while the link is up -/

section
variable {s : State} (en : s.pr.en = true) (up : pairUp s = true)
include en up

theorem pairLink_open : ¬(!s.pr.en || !pairUp s) = true := by simp [en, up]

theorem syncReqReceive_takes (r : SyncReq) : exec (.syncReqReceive false r) s = .next (s.syncReqTake r) :=
  (if_neg (pairLink_open en up)).trans (if_neg Bool.false_ne_true)

theorem syncAckReceive_takes : exec (.syncAckReceive false) s = .next s.syncAckTake :=
  (if_neg (pairLink_open en up)).trans (if_neg Bool.false_ne_true)

theorem controlFrameReceive_req (r : SyncReq) : exec (.controlFrameReceive false (.req r)) s = .next (s.syncReqTake r) :=
  (if_neg (pairLink_open en up)).trans (if_neg Bool.false_ne_true)

theorem controlFrameReceive_ack : exec (.controlFrameReceive false .ack) s = .next s.syncAckTake :=
  (if_neg (pairLink_open en up)).trans (if_neg Bool.false_ne_true)

end

/-! ### Requests and their answers (R382, R383) -/

theorem State.syncReqTake_accepts {s : State} {r : SyncReq} (fits : syncRefuse s r = none) (waits : s.pr.reqAt = none)
    (up : pairUp s = true) : (s.syncReqTake r).pr.role = .active ∧ (s.syncReqTake r).pr.partner = .syncing ∧
      .pairCtl .ack ∈ (s.syncReqTake r).out ∧
      ∃ n net pick beat, .cfg n true (.timeBase s.tb.activePeriod s.tb.activeN net pick beat) ∈ (s.syncReqTake r).out := by
  have runs : s.syncReqTake r =
      (((s.setRole .active 1).modPr fun p => { p with partner := .syncing, heard := s.now }).pairCtl .ack).sendConfig := by
    simp [State.syncReqTake, fits, waits]
  rw [runs]
  have takes := s.setRole_takes .active 1
  generalize answers : ((s.setRole .active 1).modPr fun p => { p with partner := .syncing, heard := s.now }) = u
  have role : u.pr.role = .active := answers ▸ takes.role
  have partner : u.pr.partner = .syncing := answers ▸ rfl
  have tb : u.tb = s.tb := answers ▸ takes.only.tb
  have lane : u.pr.lane = s.pr.lane := answers ▸ takes.lane
  obtain ⟨sameRole, samePartner, kept, last⟩ := (u.pairCtl .ack).sendConfig_sends
  rw [sameRole, samePartner, ← tb]
  rw [State.pairCtl_up _ _ ((pairUp_of_lane lane).trans up)] at kept last ⊢
  exact ⟨role, partner, kept _ List.mem_cons_self, last⟩

theorem State.syncReqTake_refuses {s : State} {r : SyncReq} {n : BitVec 4} (refuse : syncRefuse s r = some n) (up : pairUp s = true) :
    (s.syncReqTake r).pr.role = s.pr.role ∧ (s.syncReqTake r).pr.sticky = setBit s.pr.sticky 5 ∧
      (s.syncReqTake r).out.head? = some (.pairCtl (.refused n)) := by
  have runs : s.syncReqTake r = (s.syncRefused n false).pairCtl (.refused n) := by simp [State.syncReqTake, refuse]
  obtain ⟨_, _, _, refused⟩ := s.emit_prSet_frame 0x005#12 [at32 n 0 ||| bitAt false 4] 5
  rw [runs, State.syncRefused, refused, State.pairCtl_up _ _ (by exact up)]
  exact ⟨rfl, rfl, rfl⟩

theorem State.syncAckTake_syncs {s : State} (waits : s.pr.reqAt.isSome = true) :
    s.syncAckTake.pr.role = .syncing ∧ s.syncAckTake.pr.partner = .active ∧ s.syncAckTake.pr.sync = some { at_ := s.now } ∧
      s.syncAckTake.pr.streak = 0#2 ∧ s.syncAckTake.pr.reqAt = none := by
  rw [State.syncAckTake, if_pos waits]
  exact ⟨(s.setRole_takes .syncing 1).role, rfl, rfl, rfl, rfl⟩

/-- The resynchronisation has failed: it is to start again `pause` ns later (R383). -/
def State.syncFailed (s : State) (pause : Nat) (step : BitVec 3) : State :=
  ((s.modPr fun p => { p with sync := none, retryAt := some (s.now + pause), streak := 0#2 }).emit 20 0x007#12 [at32 step 0]).prSet 5

theorem State.syncFailed_shows (s : State) (pause : Nat) (step : BitVec 3) :
    (s.syncFailed pause step).pr.role = s.pr.role ∧ (s.syncFailed pause step).pr.sync = none ∧ (s.syncFailed pause step).now = s.now ∧
      (s.syncFailed pause step).pr.retryAt = some (s.now + pause) ∧ (s.syncFailed pause step).pr.sticky.getLsbD 5 = true := by
  obtain ⟨er, pba, out, shown⟩ := (s.modPr fun p => { p with
    sync := none, retryAt := some (s.now + pause), streak := 0#2 }).emit_prSet_frame 0x007#12 [at32 step 0] 5
  rw [State.syncFailed, shown, getLsbD_setBit]
  exact ⟨rfl, rfl, rfl, rfl, by simp⟩

theorem syncFail_fails {s : State} (role : s.pr.role = .syncing) {y : PairSync} (runs : s.pr.sync = some y) :
    ∃ t, exec .syncFail s = .next t ∧ t.pr.role = .syncing ∧ t.pr.sync = none ∧ y.at_ + 1000000000 ≤ t.now ∧
      t.pr.retryAt = some (t.now + 100000000) ∧ t.pr.sticky.getLsbD 5 = true := by
  have ran : exec .syncFail s = .next ((s.reach (y.at_ + 1000000000)).syncFailed 100000000 y.step) := by
    have ran : exec .syncFail s = execSyncFail s := rfl
    rw [ran, execSyncFail, role, runs]
    rfl
  have late := s.le_reach_now (y.at_ + 1000000000)
  obtain ⟨still, stopped, now, retry, shown⟩ := (s.reach (y.at_ + 1000000000)).syncFailed_shows 100000000 y.step
  rw [State.reach_pr] at still
  rw [← now] at late retry
  exact ⟨_, ran, still.trans role, stopped, late, retry, shown⟩

theorem State.requestSync_asks (s : State) (up : pairUp s = true) :
    s.requestSync.pr = { s.pr with reqAt := some s.now, seqTx := s.pr.seqTx + 1#32 } ∧ s.requestSync.now = s.now ∧
      s.requestSync.out.head? = some (.pairCtl (.req (syncReq s))) := by
  rw [s.requestSync_up up]
  exact ⟨rfl, rfl, rfl⟩

/-- The resynchronisation starts again: its steps with a partner that is ACTIVE, the request otherwise (R383). -/
def State.syncAgain (s : State) : State :=
  let s1 := s.modPr fun p => { p with retryAt := none }
  if s1.pr.partner = .active then s1.modPr fun p => { p with sync := some { at_ := s1.now } } else s1.requestSync

theorem State.syncAgain_shows {s : State} (up : pairUp s = true) :
    s.syncAgain.pr.retryAt = none ∧ s.syncAgain.now = s.now ∧ s.syncAgain.pr.role = s.pr.role ∧
      (s.pr.partner = .active → s.syncAgain.pr.sync = some { at_ := s.now }) ∧
      (s.pr.partner ≠ .active → s.syncAgain.pr.reqAt = some s.now ∧
        ∃ r, r.role = s.pr.role ∧ s.syncAgain.out.head? = some (.pairCtl (.req r))) := by
  by_cases active : s.pr.partner = .active
  · have resumes : s.syncAgain = s.modPr fun p => { p with retryAt := none, sync := some { at_ := s.now } } := if_pos active
    rw [resumes]
    exact ⟨rfl, rfl, rfl, fun _ => rfl, fun other => absurd active other⟩
  · have requests : s.syncAgain = (s.modPr fun p => { p with retryAt := none }).requestSync := if_neg active
    obtain ⟨asks, now, request⟩ := (s.modPr fun p => { p with retryAt := none }).requestSync_asks up
    rw [requests, asks, now, request]
    exact ⟨rfl, rfl, rfl, fun there => absurd there active, fun _ => ⟨rfl, _, rfl, rfl⟩⟩

theorem syncRetry_starts {s : State} (role : s.pr.role = .syncing) {w : Nat} (waits : s.pr.retryAt = some w) (up : pairUp s = true) :
    ∃ t, exec .syncRetry s = .next t ∧ t.pr.retryAt = none ∧ w ≤ t.now ∧ t.pr.role = .syncing ∧
      (s.pr.partner = .active → t.pr.sync = some { at_ := t.now }) ∧
      (s.pr.partner ≠ .active → t.pr.reqAt = some t.now ∧ ∃ r, r.role = .syncing ∧ t.out.head? = some (.pairCtl (.req r))) := by
  have ran : exec .syncRetry s = .next (s.reach w).syncAgain := by
    have ran : exec .syncRetry s = execSyncRetry s := rfl
    rw [ran, execSyncRetry, role, waits]
    rfl
  have late := s.le_reach_now w
  have pair := s.reach_pr w
  obtain ⟨done, now, still, resumes, asks⟩ := State.syncAgain_shows ((pairUp_of_lane (congrArg Pair.lane pair)).trans up)
  rw [pair] at still resumes asks
  rw [← now] at late resumes asks
  rw [role] at still asks
  exact ⟨_, ran, done, late, still, resumes, asks⟩

/-! ### Faults that the partner tells of (R387, R388) -/

/-- A handover that was to come is called off (R381). -/
def State.handoverOff (s : State) : State := s.modPr fun p => { p with handOwn := none, handReq := false, handFrom := none }

section
variable {s : State} (en : s.pr.en = true) (up : pairUp s = true)
include en up

theorem controlFrameReceive_refused (n : BitVec 4) : ∃ t, exec (.controlFrameReceive false (.refused n)) s = .next t ∧ t.pr.reqAt = none ∧
    t.pr.role = s.pr.role ∧ t.pr.sticky = setBit s.pr.sticky 5 := by
  obtain ⟨_, _, _, refused⟩ := (s.modPr fun p => { p with reqAt := none }).emit_prSet_frame 0x005#12 [at32 n 0 ||| bitAt true 4] 5
  refine ⟨_, (if_neg (pairLink_open en up)).trans (if_neg Bool.false_ne_true), ?_⟩
  rw [State.syncRefused, refused]
  exact ⟨rfl, rfl, rfl⟩

/-- A double fault of the partner is recorded, shown, and takes the device to SAFE_HOLD. -/
theorem controlFrameReceive_double (awake : s.pw.state ≠ .safeHold) (on : s.pw.state ≠ .off) (f g : Nat × BitVec 12) :
    ∃ t, exec (.controlFrameReceive false (.double f g)) s = .next t ∧ t.pw.state = .safeHold ∧ t.pr.sticky.getLsbD 7 = true := by
  refine ⟨_, ((if_neg (pairLink_open en up)).trans (if_neg Bool.false_ne_true)).trans (if_neg awake), ?_⟩
  generalize recorded : s.emit 20 0x008#12 _ = u
  have powered : (u.prSet 7).pw.state ≠ .off := by
    have aside : (u.prSet 7).aside = s.aside := by simp [← recorded]
    rwa [State.aside_pw aside]
  have shown : (u.prSet 7).pr.sticky.getLsbD 7 = true := by
    obtain ⟨_, _, set⟩ := u.prSet_frame 7
    rw [set, getLsbD_setBit]
    simp
  generalize u.prSet 7 = v at powered shown
  have kept : PairKept v (v.enterSafeHold 2).pairMute := .trans (.of_standing (v.enterSafeHold_standing 2)) (State.pairMute_pairKept _)
  exact ⟨(congrArg Power.state (State.aside_pw (State.pairMute_aside _))).trans (v.enterSafeHold_state 2 powered), kept.sticky 7 shown⟩

variable (pair : paired s = true) (awake : s.pw.state ≠ .safeHold) {f : Nat × BitVec 12} (other : s.pr.own ≠ some f)
include pair awake other

theorem controlFrameReceive_fault : exec (.controlFrameReceive false (.fault f)) s = .next
    (match windowOf s with
      | some g => s.handoverOff.doubleFault g f
      | none => svWatch s.handoverOff (s.handoverOff.modPr fun p => { p with fault := some f })) :=
  ((if_neg (pairLink_open en up)).trans (if_neg Bool.false_ne_true)).trans (if_neg (by simp [pair, awake, other]))

/-- The first fault of either device opens the window on both, and calls a handover off (R381, R388). -/
theorem controlFrameReceive_fault_opens (shut : windowOf s = none) : ∃ t, exec (.controlFrameReceive false (.fault f)) s = .next t ∧
    t.pr.fault = some f ∧ windowOf t = some f ∧ t.pr.handOwn = none ∧ t.pw = s.pw := by
  rw [controlFrameReceive_fault en up pair awake other, shut]
  obtain ⟨_, _, watched⟩ := svWatch_frame s.handoverOff (s.handoverOff.modPr fun p => { p with fault := some f })
  refine ⟨_, congrArg _ watched, rfl, ?_, rfl, rfl⟩
  unfold windowOf at shut ⊢
  split at shut
  · exact nomatch shut
  · exact nomatch shut
  · next first own =>
    change (match s.sv.first, s.pr.own with
      | some f, _ => some f
      | none, some f => some f
      | none, none => if paired s then some f else none) = some f
    rw [first, own, pair]
    rfl

/-- A second fault inside a window is a double fault (R388). -/
theorem controlFrameReceive_fault_doubles (isOpen : windowOf s ≠ none) (on : s.pw.state ≠ .off) :
    ∃ t, exec (.controlFrameReceive false (.fault f)) s = .next t ∧ t.pw.state = .safeHold ∧ t.pr.sticky.getLsbD 7 = true := by
  obtain ⟨g, window⟩ := Option.ne_none_iff_exists'.mp isOpen
  have ran : exec (.controlFrameReceive false (.fault f)) s = .next (s.handoverOff.doubleFault g f) := by
    rw [controlFrameReceive_fault en up pair awake other, window]
  exact ⟨_, ran, State.doubleFault_state g f (show s.handoverOff.pw.state ≠ .off from on), State.doubleFault_sticky _ g f pair⟩

end

/-- Settles O52: requests and their answers, failures and retries, and the faults that control frames tell of. -/
theorem pairsFormAgain : Obligations.PairsFormAgain := by
  intro s en up
  have bad (c : PairCtl) : exec (.controlFrameReceive true c) s = .next { s with pr.cnt := upd s.pr.cnt 2 satInc } :=
    ((if_neg (pairLink_open en up)).trans (if_pos rfl)).trans (by rw [s.pairBad_one])
  refine ⟨fun r waits => ?_, fun r => bad (.req r), fun asked => ?_, fun idle => ?_, fun role => ⟨fun y runs => syncFail_fails role runs,
    fun w waits => syncRetry_starts role waits up⟩, controlFrameReceive_refused en up, bad, fun pair awake on f other => ⟨?_, ?_, ?_⟩⟩
  · obtain ⟨fits, reasons⟩ := syncRefuse_spec r waits
    rw [← fits]
    refine ⟨fun none => ?_, fun some => ?_⟩
    · obtain ⟨role, partner, ack, set⟩ := State.syncReqTake_accepts none waits up
      exact ⟨_, syncReqReceive_takes en up r, role, partner, ack, set, controlFrameReceive_req en up r⟩
    · obtain ⟨n, refuse⟩ := Option.ne_none_iff_exists'.mp some
      obtain ⟨role, sticky, answer⟩ := State.syncReqTake_refuses refuse up
      exact ⟨_, n, syncReqReceive_takes en up r, role, sticky, answer, reasons n refuse, controlFrameReceive_req en up r⟩
  · obtain ⟨role, partner, sync, streak, answered⟩ := State.syncAckTake_syncs asked
    exact ⟨_, syncAckReceive_takes en up, role, partner, sync, streak, answered, controlFrameReceive_ack en up⟩
  · rw [syncAckReceive_takes en up, State.syncAckTake, if_neg (by simp [idle])]
  · exact controlFrameReceive_fault_opens en up pair awake other
  · exact fun isOpen => controlFrameReceive_fault_doubles en up pair awake other isOpen on
  · exact controlFrameReceive_double en up awake on f

end Sys2Proof.Machine
end

section
/-! SUPPORT. Heartbeats: what one carries, what a device that hears one takes from it, and the alive signal (R366, R367, R377, R388). -/
namespace Sys2Proof.Machine

/-! ### Cell time -/

theorem State.reach_frame (s : State) (t : Nat) : ∃ fix, s.reach t = { s with tb.timeFix := fix } ∧ t ≤ (s.reach t).now :=
  ⟨_, s.reach_eq t, s.le_reach_now t⟩

@[simp] theorem State.modPr_now (s : State) (g : Pair → Pair) : (s.modPr g).now = s.now := rfl

/-! ### A heartbeat that is sent (R366, R367, R381) -/

/-- An object of one frame (R365). -/
theorem State.pairSend_one {s : State} (up : pairUp s = true) (ty : Nat) (tag : BitVec 32) {p : List (BitVec 32)} (some : p ≠ [])
    (short : p.length ≤ 4095) : s.pairSend ty tag p = { s with
      out := .pair ty (pairFrame ty true s.pr.seqTx tag 0 p) :: s.out, pr.seqTx := s.pr.seqTx + 1#32 } := by
  have piece : pairPieces p.length p = [p] := by
    obtain ⟨n, count⟩ : ∃ n, p.length = n + 1 := Nat.exists_eq_succ_of_ne_zero fun none => some (List.length_eq_zero_iff.mp none)
    rw [count, pairPieces, if_pos (by omega)]
  rw [State.pairSend, if_pos up]
  dsimp only
  rw [piece]
  rfl

/-- The bits of word 0 of a heartbeat (R366). -/
theorem heartbeat_flags (role : BitVec 2) (lease island hand double unit : Bool) :
    let h : BitVec 32 := at32 role 0 ||| bitAt lease 2 ||| bitAt island 3 ||| bitAt hand 4 ||| bitAt double 5 ||| bitAt unit 6
    BitVec.extractLsb' 0 2 h = role ∧ h.getLsbD 2 = lease ∧ h.getLsbD 4 = hand := by
  revert role lease island hand double unit
  decide

/-- The frame of a heartbeat (R365, R366). -/
theorem heartbeatFrame_shows (s : State) : ∃ f, f = pairFrame 0 true s.pr.seqTx s.tb.pickNum 0 (heartbeatWords s) ∧ f.length = 16 ∧
    f.getD 1 0#32 = s.pr.seqTx ∧ f.getD 2 0#32 = s.tb.pickNum ∧ BitVec.extractLsb' 0 2 (f.getD 4 0#32) = s.pr.role.code ∧
    (f.getD 4 0#32).getLsbD 2 = s.lease ∧ (f.getD 4 0#32).getLsbD 4 = s.pr.handOwn.isSome ∧
    f.getD 15 0#32 = crc32c (wordsBytes (f.take 15)) := by
  obtain ⟨role, lease, hand⟩ := heartbeat_flags s.pr.role.code s.lease (islandOk s) s.pr.handOwn.isSome s.sv.second.isSome s.pr.unit
  exact ⟨_, rfl, rfl, rfl, rfl, role, lease, hand, rfl⟩

theorem State.sendHeartbeat_shows (s : State) : s.sendHeartbeat.pr.alvOut = !s.pr.alvOut ∧ s.sendHeartbeat.pr.hbAt = s.now ∧
    s.sendHeartbeat.pr.handOwn = s.pr.handOwn ∧ s.sendHeartbeat.pr.handReq = s.pr.handReq ∧
    { s.sendHeartbeat with pr := s.pr, out := s.out } = s ∧
    (pairUp s = true → s.sendHeartbeat.out = .alv (!s.pr.alvOut) :: .pair 0 (pairFrame 0 true s.pr.seqTx s.tb.pickNum 0
      (heartbeatWords s)) :: s.out ∧ s.sendHeartbeat.pr.seqTx = s.pr.seqTx + 1#32) := by
  have some : heartbeatWords s ≠ [] := nofun
  have short : (heartbeatWords s).length ≤ 4095 := by
    have count : (heartbeatWords s).length = 11 := rfl
    omega
  unfold State.sendHeartbeat
  by_cases up : pairUp s = true
  · rw [State.pairSend_one (by exact up) 0 s.tb.pickNum some short]
    exact ⟨rfl, rfl, rfl, rfl, rfl, fun _ => ⟨rfl, rfl⟩⟩
  · rw [State.pairSend, if_neg (by exact up)]
    exact ⟨rfl, rfl, rfl, rfl, rfl, fun there => absurd there up⟩

/-- A handover that has been asked for is named in the heartbeat (R381). -/
def State.handoverNamed (s : State) : State :=
  if s.pr.handReq then s.modPr fun p => { p with handOwn := some (s.tb.pickNum + 1#32), handReq := false } else s

theorem State.handoverNamed_eq (s : State) : s.handoverNamed = { s with
    pr.handOwn := if s.pr.handReq then some (s.tb.pickNum + 1#32) else s.pr.handOwn, pr.handReq := false } := by
  unfold State.handoverNamed
  by_cases asked : s.pr.handReq = true
  · rw [if_pos asked, if_pos asked]
    rfl
  · rw [if_neg asked, if_neg asked, ← Bool.eq_false_of_not_eq_true asked]

theorem State.handoverNamed_now (s : State) : s.handoverNamed.now = s.now := by
  rw [State.handoverNamed_eq]
  rfl

/-- The heartbeat of a device at an instant, with a handover that has been asked for. -/
theorem State.sendHeartbeat_named (s : State) : ∃ t, s.handoverNamed.sendHeartbeat = t ∧
    t.pr.alvOut = !s.pr.alvOut ∧ t.pr.hbAt = t.now ∧ t.now = s.now ∧
    t.pr.handOwn = (if s.pr.handReq then some (s.tb.pickNum + 1#32) else s.pr.handOwn) ∧ t.pr.handReq = false ∧
    (pairUp s = true → ∃ f, t.out = .alv (!s.pr.alvOut) :: .pair 0 f :: s.out ∧ f.length = 16 ∧
      f.getD 1 0#32 = s.pr.seqTx ∧ f.getD 2 0#32 = s.tb.pickNum ∧ BitVec.extractLsb' 0 2 (f.getD 4 0#32) = s.pr.role.code ∧
      (f.getD 4 0#32).getLsbD 2 = s.lease ∧ (f.getD 4 0#32).getLsbD 4 = t.pr.handOwn.isSome ∧
      f.getD 15 0#32 = crc32c (wordsBytes (f.take 15)) ∧ t.pr.seqTx = s.pr.seqTx + 1#32) ∧
    { t with pr := s.pr, out := s.out } = s := by
  have named := s.handoverNamed_eq
  have now := s.handoverNamed_now
  generalize s.handoverNamed = v at named now
  obtain ⟨alive, stamped, hand, asked, rest, link⟩ := v.sendHeartbeat_shows
  obtain ⟨f, frame, long, seq, tag, role, lease, flag, check⟩ := heartbeatFrame_shows v
  rw [← frame] at link
  rw [← hand] at flag
  generalize v.sendHeartbeat = t at alive stamped hand asked rest link flag
  have still : t.now = v.now := congrArg (·.tb.timeFix / nsUnit) rest
  rw [named] at alive hand asked seq tag role lease rest link
  refine ⟨t, rfl, alive, stamped.trans still.symm, still.trans now, hand, asked, fun up => ?_, congrArg (fun x : State => { x with pr := s.pr }) rest⟩
  obtain ⟨out, next⟩ := link up
  exact ⟨f, out, long, seq, tag, role, lease, flag, check, next⟩

theorem heartbeatSend_sends {s : State} (sends : beats s = true) : ∃ t, exec .heartbeatSend s = .next t ∧ t.pr.alvOut = !s.pr.alvOut ∧
    t.pr.hbAt = t.now ∧ s.pr.hbAt + 4000 ≤ t.now ∧
    t.pr.handOwn = (if s.pr.handReq then some (s.tb.pickNum + 1#32) else s.pr.handOwn) ∧ t.pr.handReq = false ∧
    (s.pr.lane[0] = true ∨ s.pr.lane[1] = true → ∃ f, t.out = .alv (!s.pr.alvOut) :: .pair 0 f :: s.out ∧ f.length = 16 ∧
      f.getD 1 0#32 = s.pr.seqTx ∧ f.getD 2 0#32 = s.tb.pickNum ∧ BitVec.extractLsb' 0 2 (f.getD 4 0#32) = s.pr.role.code ∧
      (f.getD 4 0#32).getLsbD 2 = s.lease ∧ (f.getD 4 0#32).getLsbD 4 = t.pr.handOwn.isSome ∧
      f.getD 15 0#32 = crc32c (wordsBytes (f.take 15)) ∧ t.pr.seqTx = s.pr.seqTx + 1#32) ∧
    { t with tb := s.tb, pr := s.pr, out := s.out } = s := by
  have ran : exec .heartbeatSend s = execHeartbeatSend s := rfl
  have sent : execHeartbeatSend s = .next (s.reach (s.pr.hbAt + 4000)).handoverNamed.sendHeartbeat := if_pos sends
  obtain ⟨fix, reached, late⟩ := s.reach_frame (s.pr.hbAt + 4000)
  generalize s.reach (s.pr.hbAt + 4000) = u at sent reached late
  obtain ⟨t, shown, alive, stamped, now, hand, asked, link, rest⟩ := u.sendHeartbeat_named
  rw [← now] at late
  rw [reached] at alive hand link rest
  refine ⟨t, (ran.trans sent).trans (congrArg _ shown), alive, stamped, late, hand, asked, fun lane => link ?_,
    congrArg (fun x : State => { x with tb := s.tb }) rest⟩
  exact (Bool.or_eq_true _ _).mpr lane

theorem heartbeatSend_rests {s : State} (silent : beats s = false) : ∃ t, exec .heartbeatSend s = .next t ∧
    t.pr = { s.pr with alvOut := false } ∧ { t with pr := s.pr, out := s.out } = s := by
  have ran : exec .heartbeatSend s = .next s.alvLow := (if_neg (by simp [silent]) : execHeartbeatSend s = _)
  refine ⟨_, ran, ?_⟩
  unfold State.alvLow
  split
  · exact ⟨rfl, rfl⟩
  · next low => exact ⟨by rw [← Bool.eq_false_of_not_eq_true low], rfl⟩

/-! ### A heartbeat that arrives (R366, R377, R381, R388) -/

theorem linkParse_bad {w : List (BitVec 32)} (bad : ¬((BitVec.extractLsb' 8 12 (w.getD 0 0#32)).toNat + 5 ≤ w.length ∧
    crc32c (wordsBytes (w.take ((BitVec.extractLsb' 8 12 (w.getD 0 0#32)).toNat + 4))) =
      w.getD ((BitVec.extractLsb' 8 12 (w.getD 0 0#32)).toNat + 4) 0#32)) : linkParse w = none := by
  unfold linkParse field
  extract_lets h n
  by_cases short : w.length < n + 5
  · exact if_pos short
  · rw [if_neg short]
    exact if_pos fun check => bad ⟨Nat.not_lt.mp short, check⟩

theorem linkParse_good {w : List (BitVec 32)} (long : (BitVec.extractLsb' 8 12 (w.getD 0 0#32)).toNat + 5 ≤ w.length)
    (check : crc32c (wordsBytes (w.take ((BitVec.extractLsb' 8 12 (w.getD 0 0#32)).toNat + 4))) =
      w.getD ((BitVec.extractLsb' 8 12 (w.getD 0 0#32)).toNat + 4) 0#32) :
    linkParse w = some { head := w.getD 0 0#32, seq := w.getD 1 0#32, tag := w.getD 2 0#32
                         frag := (field (w.getD 3 0#32) 0 12).toNat
                         body := (w.drop 4).take (BitVec.extractLsb' 8 12 (w.getD 0 0#32)).toNat } := by
  unfold linkParse field
  extract_lets h n
  rw [if_neg (Nat.not_lt.mpr long), if_neg (not_not_intro check)]

/-- Word `i` of the payload is word `i + 4` of the frame (R365). -/
theorem getD_payload {w : List (BitVec 32)} {n i : Nat} (within : i < n) : ((w.drop 4).take n).getD i 0#32 = w.getD (i + 4) 0#32 := by
  simp [List.getD, within, List.getElem?_drop, Nat.add_comm]

@[simp] theorem State.extTrack_standing (s : State) (th : Int) (c : Nat) : (s.extTrack th c).standing = s.standing := by
  unfold State.extTrack
  extract_lets fresh osc h fit
  obtain ⟨_, fits⟩ := ntFit_frame s h
  simp only [fit, fits]
  rfl

@[simp] theorem State.extTrack_aside (s : State) (th : Int) (c : Nat) : (s.extTrack th c).aside = s.aside := by
  unfold State.extTrack
  extract_lets fresh osc h fit
  obtain ⟨_, fits⟩ := ntFit_frame s h
  simp only [fit, fits]
  rfl

@[simp] theorem State.pairClose_aside (s : State) : s.pairClose.aside = s.aside := by
  unfold State.pairClose
  split <;> rfl

/-- What a heartbeat says: the partner's role, the instant of its arrival, its number, the lease and a handover; with the own role. -/
def State.hearing (s : State) : PairRole × Nat × BitVec 32 × Nat × PairRole × Option (BitVec 32) :=
  (s.pr.partner, s.pr.heard, s.pr.rxSeq, s.pr.leaseAt, s.pr.role, s.pr.handFrom)

theorem State.hearing_of_standing {s t : State} (same : t.standing = s.standing) : t.hearing = s.hearing := by
  have view := congrArg (fun p : Pair => (p.partner, p.heard, p.rxSeq, p.leaseAt, p.role, p.handFrom)) same
  exact view

theorem State.pairClose_hearing (s : State) : s.pairClose.hearing = s.hearing := by
  unfold State.pairClose
  split <;> rfl

theorem State.prSet_hearing (s : State) (i : Nat) : (s.prSet i).hearing = s.hearing := by
  obtain ⟨_, _, set⟩ := s.prSet_frame i
  rw [set]
  rfl

theorem State.pairMute_hearing (s : State) : s.pairMute.hearing = s.hearing := by
  unfold State.pairMute State.alvLow
  split
  · split <;> rfl
  · rfl

/-- The servo follows the partner, the solution that waits is complete, and the windows of pair faults close (R372, R385, R387). -/
def State.heartbeatTaken (s : State) (x : LinkFrame) (d : BitVec 16) : State :=
  let w := x.body
  let s2 := if follows s then
      let f := s.takeFresh
      (f.2.modPr fun p => { p with skew := Config.free32 f.1 }).extTrack ((wordsNet w 2 + d.toNat - s.now) * nsUnit) s.now
    else s
  let s3 := if (s2.pr.unacked.map fun q => q.1) = some (w.getD 10 0#32) || !leads s2 then s2.solutionAcked else s2
  s3.pairClose

theorem State.heartbeatTaken_shows (s : State) (x : LinkFrame) (d : BitVec 16) :
    (s.heartbeatTaken x d).hearing = s.hearing ∧ (s.heartbeatTaken x d).aside = s.aside := by
  unfold State.heartbeatTaken
  extract_lets w f s2 s3
  have tracked : s2.hearing = s.hearing ∧ s2.aside = s.aside := by
    simp only [s2]
    split
    · exact ⟨(State.hearing_of_standing (State.extTrack_standing _ _ _)).trans rfl, (State.extTrack_aside _ _ _).trans rfl⟩
    · exact ⟨rfl, rfl⟩
  have acked : s3.hearing = s2.hearing ∧ s3.aside = s2.aside := by
    simp only [s3]
    clear_value s2
    split
    · exact ⟨State.hearing_of_standing s2.solutionAcked_standing, s2.solutionAcked_aside⟩
    · exact ⟨rfl, rfl⟩
  exact ⟨s3.pairClose_hearing.trans (acked.1.trans tracked.1), s3.pairClose_aside.trans (acked.2.trans tracked.2)⟩

/-- A partner in SAFE_HOLD takes the device there (R388). -/
def State.doubleHeard (s : State) : State :=
  let a := s.takeFresh
  let b := a.2.takeFresh
  (((b.2.emit 20 0x008#12 [0x31#32, Config.free32 a.1, Config.free32 b.1]).prSet 7).enterSafeHold 2).pairMute

theorem State.doubleHeard_hearing (s : State) : s.doubleHeard.hearing = s.hearing := by
  unfold State.doubleHeard
  extract_lets a b
  rw [State.pairMute_hearing, State.hearing_of_standing (State.enterSafeHold_standing _ 2), State.prSet_hearing,
    State.hearing_of_standing (State.emit_standing _ _ _ _)]
  rfl

theorem State.doubleHeard_state {s : State} (on : s.pw.state ≠ .off) : s.doubleHeard.pw.state = .safeHold := by
  unfold State.doubleHeard
  extract_lets a b
  generalize recorded : b.2.emit 20 0x008#12 _ = u
  have powered : (u.prSet 7).pw.state ≠ .off := by
    have aside : (u.prSet 7).aside = s.aside := by simp [← recorded, a, b]
    rwa [State.aside_pw aside]
  exact (congrArg Power.state (State.aside_pw (State.pairMute_aside _))).trans ((u.prSet 7).enterSafeHold_state 2 powered)

theorem State.heartbeat_eq (s : State) (x : LinkFrame) : s.heartbeat x =
    let w := x.body
    let h := w.getD 0 0#32
    let d := pairDelay s w ((s.now : Int) + s.nt.ofs)
    let t := (s.modPr fun p => { p with
      partner := .ofCode (field h 0 2), heard := s.now, leaseAt := if bit h 2 then s.now else p.leaseAt, rxSeq := x.seq
      rxNet := (s.now : Int) + s.nt.ofs, delay := d, handFrom := if bit h 4 then some (w.getD 1 0#32) else none }).heartbeatTaken x d
    if bit h 5 && decide (t.pw.state ≠ .safeHold) then t.doubleHeard else t := rfl

theorem State.heartbeat_shows (s : State) (x : LinkFrame) : let h := x.body.getD 0 0#32
    (s.heartbeat x).hearing = (.ofCode (field h 0 2), s.now, x.seq, if bit h 2 then s.now else s.pr.leaseAt, s.pr.role,
      if bit h 4 then some (x.body.getD 1 0#32) else none) ∧
    (bit h 5 = true → s.pw.state ≠ .off → (s.heartbeat x).pw.state = .safeHold) ∧ (bit h 5 = false → (s.heartbeat x).pw = s.pw) := by
  rw [State.heartbeat_eq]
  extract_lets h0 w h d t
  obtain ⟨hearing, aside⟩ := State.heartbeatTaken_shows (s.modPr fun p => { p with
    partner := .ofCode (field h 0 2), heard := s.now, leaseAt := if bit h 2 then s.now else p.leaseAt, rxSeq := x.seq
    rxNet := (s.now : Int) + s.nt.ofs, delay := d, handFrom := if bit h 4 then some (w.getD 1 0#32) else none }) x d
  change t.hearing = _ at hearing
  change t.aside = _ at aside
  have pw : t.pw = s.pw := State.aside_pw aside
  clear_value t
  split
  · next double =>
    rw [Bool.and_eq_true] at double
    refine ⟨t.doubleHeard_hearing.trans hearing, fun _ on => State.doubleHeard_state (by rwa [pw]), fun single => ?_⟩
    rw [double.1] at single
    exact nomatch single
  · next other =>
    refine ⟨hearing, fun double on => ?_, fun _ => pw⟩
    exact Classical.not_not.mp fun awake => other (by rw [double, decide_eq_true awake]; rfl)

section
variable {s : State} (en : s.pr.en = true) (up : pairUp s = true) {frame : List (BitVec 32)}
include en up

theorem heartbeatReceive_counts (bad : linkParse frame = none) :
    exec (.heartbeatReceive frame) s = .next { s with pr.cnt := upd s.pr.cnt 2 satInc } := by
  have ran : exec (.heartbeatReceive frame) s = execHeartbeatReceive frame s := rfl
  rw [ran, execHeartbeatReceive, if_neg (pairLink_open en up), bad, ← s.pairBad_one]

theorem heartbeatReceive_takes {x : LinkFrame} (parsed : linkParse frame = some x) (ty : field x.head 0 4 = 0#4) :
    exec (.heartbeatReceive frame) s = .next (s.heartbeat x) := by
  have ran : exec (.heartbeatReceive frame) s = execHeartbeatReceive frame s := rfl
  rw [ran, execHeartbeatReceive, if_neg (pairLink_open en up), parsed]
  exact congrArg _ (if_pos (show (field x.head 0 4).toNat = 0 by rw [ty]; rfl))

end

/-! ### The alive signal (R367) -/

theorem pairAlvInChange_lives {s : State} {b : Bool} (changed : b ≠ s.pr.alvIn) :
    exec (.pairAlvInChange b) s = .next { s with pr := { s.pr with alvIn := b, alvAt := s.now, alive := true } } :=
  (if_neg changed : execPairAlvInChange b s = _)

theorem partnerSilent_shows {s : State} (alive : s.pr.alive = true) : ∃ t, exec .partnerSilent s = .next t ∧
    t.pr = { s.pr with alive := false } ∧ s.pr.alvAt + 12000 ≤ t.now ∧ { t with tb := s.tb, pr := s.pr } = s := by
  have ran : exec .partnerSilent s = execPartnerSilent s := rfl
  have silent : execPartnerSilent s = .next ((s.reach (s.pr.alvAt + 12000)).modPr fun p => { p with alive := false }) := if_pos alive
  obtain ⟨fix, reached, late⟩ := s.reach_frame (s.pr.alvAt + 12000)
  generalize s.reach (s.pr.alvAt + 12000) = u at silent reached late
  refine ⟨_, ran.trans silent, ?_, late.trans_eq (u.modPr_now _).symm, ?_⟩
  · rw [reached]
    rfl
  · rw [reached]
    rfl

end Sys2Proof.Machine
end

section
/-! SUPPORT. The loss of the partner and of a lane, handovers asked for (R364, R377 to R381, R387), and O50. -/
namespace Sys2Proof.Machine

/-! ### Windows that are open (R387, R388) -/

/-- A window is open on this device, or for a pair fault that the partner told of. -/
theorem openWindow_none_iff (s : State) :
    openWindow s = none ↔ ¬(s.sv.first.isSome ∨ s.pr.own.isSome ∨ ∃ c, s.pr.fault = some (20, c)) := by
  unfold openWindow
  split
  · next f first => simp [first]
  · next f first own => simp [own]
  · next f first own fault =>
    obtain ⟨src, code⟩ := f
    simp [first, own, fault]
  · next first own fault => simp [first, own, fault]

theorem openWindow_of_rest {s t : State} (sv : t.sv = s.sv) (pr : t.pr = s.pr) : openWindow t = openWindow s := by
  unfold openWindow
  rw [sv, pr]

theorem State.reach_openWindow (s : State) (t : Nat) : openWindow (s.reach t) = openWindow s := by
  rw [State.reach_eq]
  rfl

/-! ### Lease expiry (R377, R378) -/

theorem leaseExpire_eq {s : State} (role : s.pr.role = .standby) (us : Fin 11) : exec (.leaseExpire us) s = .next
    (if (s.reach (s.pr.leaseAt + 30000)).pr.alive then
      (((s.reach (s.pr.leaseAt + 30000)).setRole .syncing 4).linkFault 0).pairFaultFound 0x003#12 false
    else (s.reach (s.pr.leaseAt + 30000)).takeOver us.val) := by
  have ran : exec (.leaseExpire us) s = execLeaseExpire us s := rfl
  rw [ran, execLeaseExpire, if_neg (not_not_intro role)]
  dsimp only
  split <;> rfl

theorem State.lease_of_role {s : State} : (s.pr.role = .alone → s.lease = true) ∧ (s.pr.role = .syncing → s.lease = false) := by
  unfold State.lease
  exact ⟨fun alone => by simp [alone], fun syncing => by simp [syncing]⟩

theorem Keeps.now {s t : State} (kept : Keeps s t) : s.now ≤ t.now := Nat.div_le_div_right kept.time

/-- A standby whose partner lives has lost the link (R377). -/
theorem State.linkLost_shows (s : State) : let t := ((s.setRole .syncing 4).linkFault 0).pairFaultFound 0x003#12 false
    t.pr.role = .syncing ∧ t.lease = false ∧ t.pr.sticky.getLsbD 2 = true ∧ s.now ≤ t.now := by
  extract_lets t
  have takes := s.setRole_takes .syncing 4
  have alarm := (State.linkFault_pairKept (s.setRole .syncing 4) 0).trans (State.pairFaultFound_pairKept _ 0x003#12 false)
  have role := alarm.role.trans takes.role
  exact ⟨role, State.lease_of_role.2 role, (State.pairFaultFound_pairKept _ _ _).sticky 2 (State.linkFault_sticky _ _),
    (State.pairFaultFound_keeps _ _ (State.linkFault_keeps _ (State.setRole_keeps _ _ (.refl s)))).now⟩

/-- The end of a takeover: the device is recorded, shown and measured from the last heartbeat, `heard` (R378). -/
def State.takenOver (s : State) (heard : Nat) : State :=
  let t := min 65535 ((s.now - heard) / 1000)
  ((s.modPr fun p => { p with fault := none, solIn := none, takeoverUs := BitVec.ofNat 16 t, sync := none }).emit 20 0x002#12
    [s.tb.pickNum, BitVec.ofNat 32 t]).prSet 1

theorem State.takenOver_shows (s : State) (heard : Nat) : (s.takenOver heard).pr.role = s.pr.role ∧
    (s.takenOver heard).pr.sticky.getLsbD 1 = true ∧ (s.takenOver heard).now = s.now ∧ (s.takenOver heard).pr.fault = none ∧
    (s.takenOver heard).pr.sync = none ∧
    (s.takenOver heard).pr.takeoverUs = BitVec.ofNat 16 (min 65535 ((s.now - heard) / 1000)) := by
  unfold State.takenOver
  extract_lets t
  obtain ⟨_, _, _, shown⟩ := (s.modPr fun p => { p with
    fault := none, solIn := none, takeoverUs := BitVec.ofNat 16 t, sync := none }).emit_prSet_frame 0x002#12
      [s.tb.pickNum, BitVec.ofNat 32 t] 1
  rw [shown, getLsbD_setBit]
  exact ⟨rfl, by simp, rfl, rfl, rfl, rfl⟩

/-- A standby whose partner is silent, in no open window, takes over (R378). -/
theorem State.takeOver_takes {s : State} (shut : openWindow s = none) (us : Nat) : (s.takeOver us).pr.role = .alone ∧
    (s.takeOver us).pr.sticky.getLsbD 1 = true ∧ s.now + 1000 * us ≤ (s.takeOver us).now ∧
    (s.takeOver us).pr.fault = none ∧ (s.takeOver us).pr.sync = none ∧
    (s.takeOver us).pr.takeoverUs = BitVec.ofNat 16 (min 65535 (((s.takeOver us).now - s.pr.heard) / 1000)) := by
  have runs : s.takeOver us = ((s.reach (s.now + 1000 * us)).setRole .alone 2).takenOver s.pr.heard := by
    rw [State.takeOver, shut]
    rfl
  have takes := (s.reach (s.now + 1000 * us)).setRole_takes .alone 2
  have late := s.le_reach_now (s.now + 1000 * us)
  generalize (s.reach (s.now + 1000 * us)) = u at runs takes late
  obtain ⟨role, shown, now, fault, sync, time⟩ := (u.setRole .alone 2).takenOver_shows s.pr.heard
  rw [← now] at time
  rw [runs]
  exact ⟨role.trans takes.role, shown, late.trans_eq (now.trans takes.only.now).symm, fault, sync, time⟩

/-- A takeover inside an open window is a double fault instead (R388). -/
theorem State.takeOver_doubles {s : State} (isOpen : openWindow s ≠ none) (on : s.pw.state ≠ .off) (us : Nat) :
    (s.takeOver us).pw.state = .safeHold ∧ (s.takeOver us).pr.role = s.pr.role := by
  obtain ⟨g, window⟩ := Option.ne_none_iff_exists'.mp isOpen
  have runs : s.takeOver us = s.doubleFault g (20, 0x002#12) := by rw [State.takeOver, window]
  rw [runs]
  exact ⟨State.doubleFault_state g _ on, (s.doubleFault_pairKept g _).role⟩

section
variable {s : State} (role : s.pr.role = .standby) (us : Fin 11)
include role

theorem leaseExpire_resyncs (alive : s.pr.alive = true) : ∃ t, exec (.leaseExpire us) s = .next t ∧ t.pr.role = .syncing ∧
    t.lease = false ∧ t.pr.sticky.getLsbD 2 = true ∧ s.pr.leaseAt + 30000 ≤ t.now := by
  refine ⟨_, leaseExpire_eq role us, ?_⟩
  have late := s.le_reach_now (s.pr.leaseAt + 30000)
  rw [if_pos (by rw [State.reach_pr]; exact alive)]
  generalize s.reach (s.pr.leaseAt + 30000) = u at late
  obtain ⟨syncing, lease, shown, later⟩ := u.linkLost_shows
  exact ⟨syncing, lease, shown, late.trans later⟩

variable (silent : s.pr.alive = false)
include silent

theorem leaseExpire_takesOver (shut : openWindow s = none) : ∃ t, exec (.leaseExpire us) s = .next t ∧ t.pr.role = .alone ∧
    t.lease = true ∧ t.pr.sticky.getLsbD 1 = true ∧ s.pr.leaseAt + 30000 + 1000 * us.val ≤ t.now ∧ t.pr.fault = none ∧ t.pr.sync = none ∧
    t.pr.takeoverUs = BitVec.ofNat 16 (min 65535 ((t.now - s.pr.heard) / 1000)) := by
  refine ⟨_, leaseExpire_eq role us, ?_⟩
  have late := s.le_reach_now (s.pr.leaseAt + 30000)
  have pair := s.reach_pr (s.pr.leaseAt + 30000)
  have window := (s.reach_openWindow (s.pr.leaseAt + 30000)).trans shut
  rw [if_neg (by rw [pair, silent]; exact Bool.false_ne_true)]
  generalize s.reach (s.pr.leaseAt + 30000) = u at late pair window
  obtain ⟨alone, shown, later, fault, sync, time⟩ := State.takeOver_takes window us.val
  rw [pair] at time
  exact ⟨alone, State.lease_of_role.1 alone, shown, (Nat.add_le_add_right late _).trans later, fault, sync, time⟩

theorem leaseExpire_doubles (isOpen : openWindow s ≠ none) (on : s.pw.state ≠ .off) : ∃ t, exec (.leaseExpire us) s = .next t ∧
    t.pw.state = .safeHold ∧ t.pr.role = .standby := by
  refine ⟨_, leaseExpire_eq role us, ?_⟩
  have pair := s.reach_pr (s.pr.leaseAt + 30000)
  have window := s.reach_openWindow (s.pr.leaseAt + 30000)
  have powered : (s.reach (s.pr.leaseAt + 30000)).pw.state ≠ .off := by
    rw [State.reach_eq]
    exact on
  rw [if_neg (by rw [pair, silent]; exact Bool.false_ne_true)]
  generalize s.reach (s.pr.leaseAt + 30000) = u at pair window powered
  obtain ⟨state, still⟩ := State.takeOver_doubles (window ▸ isOpen) powered us.val
  exact ⟨state, still.trans (pair ▸ role)⟩

end

/-! ### A standby or a leader that is lost (R379, R388) -/

/-- What an ACTIVE device does when it has heard nothing for 30 µs (R379). -/
def State.standbyGone (s : State) : State :=
  if s.pr.alive then ((s.linkFault 0).pairFaultFound 0x003#12 false).setRole .alone 4
  else match openWindow s with
    | some g => (s.doubleFault g (20, 0x001#12)).setRole .alone 3
    | none => (s.setRole .alone 3).modPr fun p => { p with fault := none }

theorem State.standbyGone_shows (s : State) : s.standbyGone.pr.role = .alone ∧ s.now ≤ s.standbyGone.now ∧
    (s.pr.alive = true → s.standbyGone.pr.sticky.getLsbD 2 = true) ∧
    (s.pr.alive = false → openWindow s = none → s.standbyGone.pr.fault = none ∧ s.standbyGone.pw = s.pw) := by
  unfold State.standbyGone
  by_cases alive : s.pr.alive = true
  · rw [if_pos alive]
    have takes := ((s.linkFault 0).pairFaultFound 0x003#12 false).setRole_takes .alone 4
    refine ⟨takes.role, (State.setRole_keeps _ _ (State.pairFaultFound_keeps _ _ (State.linkFault_keeps 0 (.refl s)))).now, fun _ => ?_,
      fun silent => absurd alive (by simp [silent])⟩
    exact takes.sticky 2 ((State.pairFaultFound_pairKept _ _ _).sticky 2 (s.linkFault_sticky 0))
  · rw [if_neg alive]
    split
    · next g window =>
      exact ⟨(State.setRole_takes _ .alone 3).role, (State.setRole_keeps _ _ (State.doubleFault_keeps _ _ (.refl s))).now,
        fun there => absurd there alive, fun _ shut => absurd shut (by simp [window])⟩
    · have takes := s.setRole_takes .alone 3
      have now : ((s.setRole .alone 3).modPr fun p => { p with fault := none }).now = s.now := takes.only.now
      exact ⟨takes.role, now.ge, fun there => absurd there alive, fun _ _ => ⟨rfl, takes.only.pw⟩⟩

theorem standbyLost_active {s : State} (role : s.pr.role = .active) :
    exec .standbyLost s = .next (s.reach (s.pr.heard + 30000)).standbyGone := by
  have ran : exec .standbyLost s = execStandbyLost s := rfl
  rw [ran, execStandbyLost, if_pos role]
  generalize s.reach (s.pr.heard + 30000) = u
  dsimp only
  by_cases alive : u.pr.alive = true
  · rw [State.standbyGone, if_pos alive, if_pos alive]
  · rw [State.standbyGone, if_neg alive, if_neg alive]
    cases openWindow u <;> rfl

theorem standbyLost_leaves {s : State} (role : s.pr.role = .active) : ∃ t, exec .standbyLost s = .next t ∧ t.pr.role = .alone ∧
    t.lease = true ∧ s.pr.heard + 30000 ≤ t.now ∧ (s.pr.alive = true → t.pr.sticky.getLsbD 2 = true) ∧
    (s.pr.alive = false → openWindow s = none → t.pr.fault = none ∧ t.pw = s.pw) := by
  refine ⟨_, standbyLost_active role, ?_⟩
  have late := s.le_reach_now (s.pr.heard + 30000)
  have pair := s.reach_pr (s.pr.heard + 30000)
  have window := s.reach_openWindow (s.pr.heard + 30000)
  have pw : (s.reach (s.pr.heard + 30000)).pw = s.pw := by rw [State.reach_eq]
  generalize s.reach (s.pr.heard + 30000) = u at late pair window pw
  obtain ⟨alone, later, link, quiet⟩ := u.standbyGone_shows
  rw [pair, window, pw] at quiet
  rw [pair] at link
  exact ⟨alone, State.lease_of_role.1 alone, late.trans later, link, quiet⟩

/-- What a device in SYNCING does when its partner is silent (R379, R388). -/
def State.leaderGone (s : State) : State :=
  match windowOf s with
  | some _ => (s.enterSafeHold 2).pairMute
  | none => ((s.setRole .alone 3).modPr fun p => { p with sync := none, retryAt := none }).forEach (fins 80) State.svFaultAxis

theorem standbyLost_syncing {s : State} (role : s.pr.role = .syncing) (silent : s.pr.alive = false) :
    exec .standbyLost s = .next (s.reach (s.pr.heard + 30000)).leaderGone := by
  have ran : exec .standbyLost s = execStandbyLost s := rfl
  rw [ran, execStandbyLost, if_neg (by simp [role]), if_pos (by simp [role, silent])]
  generalize s.reach (s.pr.heard + 30000) = u
  rw [State.leaderGone]
  dsimp only
  cases windowOf u <;> rfl

theorem State.leaderGone_alone {s : State} (shut : windowOf s = none) : s.leaderGone.pr.role = .alone ∧ s.leaderGone.pr.sync = none ∧
    ∀ a, (s.axis a).state ≠ .fault → (s.leaderGone.axis a).state = .fault := by
  have takes := s.setRole_takes .alone 3
  have cell := takes.only.cell
  rw [State.leaderGone, shut]
  dsimp only
  generalize resolved : ((s.setRole .alone 3).modPr fun p => { p with sync := none, retryAt := none }) = u
  have pr := (MotionOnly.forEach (l := fins 80) (fun t a => t.svFaultAxis_motion a) u).pr
  have axes (a : Fin 80) : u.axis a = s.axis a := by
    rw [← resolved]
    exact congrArg (·.ax[a]) cell
  have role : u.pr.role = .alone := resolved ▸ takes.role
  have sync : u.pr.sync = none := resolved ▸ rfl
  rw [pr]
  refine ⟨role, sync, fun a sound => ?_⟩
  exact (State.forEach_svFaultAxis (List.mem_finRange a) fun fault => absurd (axes a ▸ fault) sound).1

theorem State.leaderGone_holds {s : State} (isOpen : windowOf s ≠ none) (on : s.pw.state ≠ .off) : s.leaderGone.pw.state = .safeHold := by
  obtain ⟨g, window⟩ := Option.ne_none_iff_exists'.mp isOpen
  have runs : s.leaderGone = (s.enterSafeHold 2).pairMute := by rw [State.leaderGone, window]
  rw [runs, State.aside_pw (State.pairMute_aside _)]
  exact s.enterSafeHold_state 2 on

theorem State.reach_windowOf (s : State) (t : Nat) : windowOf (s.reach t) = windowOf s := by
  rw [State.reach_eq]
  rfl

theorem standbyLost_alone {s : State} (role : s.pr.role = .syncing) (silent : s.pr.alive = false) (shut : windowOf s = none) :
    ∃ t, exec .standbyLost s = .next t ∧ t.pr.role = .alone ∧ t.pr.sync = none ∧
      ∀ a, (s.axis a).state ≠ .fault → (t.axis a).state = .fault := by
  have axes (a : Fin 80) : (s.reach (s.pr.heard + 30000)).axis a = s.axis a := by
    rw [State.reach_eq]
    rfl
  obtain ⟨alone, sync, faults⟩ := State.leaderGone_alone ((s.reach_windowOf (s.pr.heard + 30000)).trans shut)
  exact ⟨_, standbyLost_syncing role silent, alone, sync, fun a sound => faults a (axes a ▸ sound)⟩

theorem standbyLost_holds {s : State} (role : s.pr.role = .syncing) (silent : s.pr.alive = false) (isOpen : windowOf s ≠ none)
    (on : s.pw.state ≠ .off) : ∃ t, exec .standbyLost s = .next t ∧ t.pw.state = .safeHold := by
  have pw : (s.reach (s.pr.heard + 30000)).pw = s.pw := by rw [State.reach_eq]
  exact ⟨_, standbyLost_syncing role silent, State.leaderGone_holds ((s.reach_windowOf _).trans_ne isOpen) (pw ▸ on)⟩

/-! ### Lanes (R364, R387) -/

theorem windowOf_of_rest {s t : State} (sv : t.sv = s.sv) (own : t.pr.own = s.pr.own) (fault : t.pr.fault = s.pr.fault)
    (role : t.pr.role = s.pr.role) : windowOf t = windowOf s := by
  unfold windowOf Sys2Proof.Machine.paired
  rw [sv, own, fault, role]

/-- The first pair fault opens its window, and the partner is told (R387, R388). -/
theorem State.pairFaultFound_opens {s : State} (shut : windowOf s = none) (awake : s.pw.state ≠ .safeHold) (code : BitVec 12) (lane : Bool) :
    ∃ seq out, s.pairFaultFound code lane = { s with
      pr.own := some (20, code), pr.ownLane := lane, pr.handOwn := none, pr.handReq := false, pr.handFrom := none, pr.seqTx := seq
      out := out } := by
  rw [State.pairFaultFound, if_neg awake, shut]
  dsimp only
  unfold State.pairCtl
  split <;> exact ⟨_, _, rfl⟩

theorem pairLaneChange_lost {s : State} (en : s.pr.en = true) (both : s.pr.lane = #v[true, true]) (shut : windowOf s = none)
    (awake : s.pw.state ≠ .safeHold) (pair : paired s = true) : ∃ t, exec (.pairLaneChange false true) s = .next t ∧
      t.pr.lane = #v[false, true] ∧ t.pr.sticky.getLsbD 2 = true ∧ t.pr.own = some (20, 0x003#12) ∧ t.pr.ownLane = true ∧
      t.pr.role = s.pr.role := by
  have told : exec (.pairLaneChange false true) s =
      .next (((s.modPr fun p => { p with lane := #v[false, true] }).linkFault 1).pairFaultFound 0x003#12 true) := by
    have ran : exec (.pairLaneChange false true) s = .next (s.laneChange false true) := rfl
    have together : paired ((s.modPr fun p => { p with lane := #v[false, true] }).linkFault 1) = true :=
      (State.linkFault_pairKept _ 1).paired.trans pair
    rw [ran, State.laneChange]
    simp [en, both, together]
  have shown := (s.modPr fun p => { p with lane := #v[false, true] }).linkFault_sticky 1
  obtain ⟨_, _, _, marked⟩ : ∃ er pba out, (s.modPr fun p => { p with lane := #v[false, true] }).linkFault 1 =
      { s with pr.lane := #v[false, true], pr.sticky := setBit s.pr.sticky 2, er := er, hi.pba := pba, out := out } :=
    State.emit_prSet_frame _ _ _ _
  generalize (s.modPr fun p => { p with lane := #v[false, true] }).linkFault 1 = u at told shown marked
  have window : windowOf u = none := marked ▸ shut
  have state : u.pw.state ≠ .safeHold := marked ▸ awake
  obtain ⟨_, _, opens⟩ := State.pairFaultFound_opens window state 0x003#12 true
  have lane : u.pr.lane = #v[false, true] := by rw [marked]
  have role : u.pr.role = s.pr.role := by rw [marked]
  refine ⟨_, told, ?_⟩
  rw [opens]
  exact ⟨lane, shown, rfl, rfl, role⟩

theorem pairLaneChange_restored {s : State} (en : s.pr.en = true) (lost : s.pr.ownLane = true) :
    ∃ t, exec (.pairLaneChange true true) s = .next t ∧ t.pr.lane = #v[true, true] ∧ t.pr.own = none ∧ t.pr.role = s.pr.role := by
  have ran : exec (.pairLaneChange true true) s = .next (s.laneChange true true) := rfl
  obtain ⟨u, closed⟩ : ∃ u, u = (s.modPr fun p => { p with lane := #v[true, true] }).modPr fun p =>
      { p with own := none, ownLane := false } := ⟨_, rfl⟩
  have runs : s.laneChange true true =
      if !pairUp s && pairUp u && decide (u.pr.role = .syncing) then u.requestSync else u := by
    rw [closed]
    simp [State.laneChange, en, lost]
  have up : pairUp u = true := by rw [closed]; rfl
  obtain ⟨asks, -, -⟩ := u.requestSync_asks up
  have shows : u.pr.lane = #v[true, true] ∧ u.pr.own = none ∧ u.pr.role = s.pr.role := by
    rw [closed]
    exact ⟨rfl, rfl, rfl⟩
  refine ⟨_, ran, ?_⟩
  rw [runs]
  split
  · rw [asks]
    exact shows
  · exact shows

/-! ### Handover (R381) -/

theorem handoverRequest_sets {s : State} (up : (s.domain 11).up = true) {v : BitVec 32} (clear : v.getLsbD 1 = false) :
    exec (.handoverRequest v) s = .next
      (if s.pr.role = .active ∧ s.pr.partner = .standby then { s with pr.handReq := true } else s.prSet 8) := by
  have ran : exec (.handoverRequest v) s = .next (s.setPairCtrl (setBit v 0)) := (if_pos up : execHandoverRequest v s = _)
  have first : bit (setBit v 0) 0 = true := bit_setBit_same v 0 (by decide)
  have second : bit (setBit v 0) 1 = false := (bit_setBit_ne v 0 1 (by decide)).trans clear
  rw [ran, State.setPairCtrl, first, second]
  rfl

end Sys2Proof.Machine
end

section
/-! SUPPORT. The settlement of O50. -/
namespace Sys2Proof.Machine

/-- Settles O50: heartbeats and the alive signal, the loss of a partner by role and window, lanes, and handovers asked for. -/
theorem partnersWatchEachOther : Obligations.PartnersWatchEachOther := by
  intro s
  refine ⟨heartbeatSend_sends, heartbeatSend_rests, fun frame => ?_, fun b => pairAlvInChange_lives, partnerSilent_shows, ?_,
    fun en => ⟨pairLaneChange_lost en, pairLaneChange_restored en⟩, fun v up clear => ?_⟩
  · intro n h good en lane
    have up : pairUp s = true := (Bool.or_eq_true _ _).mpr lane
    refine ⟨fun bad => heartbeatReceive_counts en up (linkParse_bad bad), fun ⟨long, check⟩ ty words => ?_⟩
    have parsed := linkParse_good long check
    refine ⟨_, heartbeatReceive_takes en up parsed ty, ?_⟩
    obtain ⟨hearing, hold, quiet⟩ := s.heartbeat_shows { head := frame.getD 0 0#32, seq := frame.getD 1 0#32, tag := frame.getD 2 0#32
                                                         frag := (field (frame.getD 3 0#32) 0 12).toNat, body := (frame.drop 4).take n }
    dsimp only at hearing hold quiet
    rw [getD_payload (show 0 < n by omega), getD_payload (show 1 < n by omega)] at hearing
    rw [getD_payload (show 0 < n by omega)] at hold quiet
    simp only [State.hearing, Prod.mk.injEq] at hearing
    obtain ⟨partner, heard, seq, lease, role, hand⟩ := hearing
    exact ⟨partner, heard, seq, lease, role, hand, hold, quiet⟩
  · intro open_
    have shut : openWindow s = none ↔ ¬open_ := openWindow_none_iff s
    refine ⟨fun role us => ⟨leaseExpire_resyncs role us, fun silent calm => leaseExpire_takesOver role us silent (shut.mpr calm),
      fun silent isOpen on => leaseExpire_doubles role us silent (fun none => shut.mp none isOpen) on⟩, fun role => ?_,
      fun role silent => ⟨standbyLost_alone role silent, standbyLost_holds role silent⟩⟩
    rw [← shut]
    exact standbyLost_leaves role
  · rw [handoverRequest_sets up clear]
    refine ⟨fun role partner => ?_, fun other => ?_⟩
    · rw [if_pos ⟨role, partner⟩]
    · obtain ⟨_, _, set⟩ := s.prSet_frame 8
      rw [if_neg other, set]
      exact ⟨_, rfl, rfl, rfl⟩

end Sys2Proof.Machine
end

section
/-! SUPPORT. An object cut into pair frames, and what a receiver makes of them (R365). -/
namespace Sys2Proof.Machine

/-! ### Word 0 of a frame -/

theorem getLsbD_nat32 (v lo i : Nat) : (nat32 v lo).getLsbD i = (decide (i < 32) && decide (lo ≤ i) && v.testBit (i - lo)) := by
  rw [nat32, BitVec.getLsbD_shiftLeft, BitVec.getLsbD_ofNat]
  by_cases inWord : i < 32
  · by_cases below : i < lo
    · simp [below]
    · simp [inWord, below, Nat.le_of_not_lt below, show i - lo < 32 by omega]
  · simp [inWord]

theorem getLsbD_bitAt {n : Nat} (b : Bool) (k i : Nat) : (bitAt b k : BitVec n).getLsbD i = (b && decide (k < n) && decide (k = i)) := by
  cases b <;> simp [bitAt]

theorem testBit_above {v k i : Nat} (small : v < 2 ^ k) (above : k ≤ i) : v.testBit i = false :=
  Nat.testBit_lt_two_pow (small.trans_le (Nat.pow_le_pow_right (by decide) above))

/-- TYPE, LAST and LEN of word 0 read back (R365). -/
theorem frameHead_fields {ty n : Nat} (last : Bool) (type : ty < 16) (len : n < 4096) :
    let h := nat32 ty 0 ||| bitAt last 4 ||| nat32 n 8
    (field h 0 4).toNat = ty ∧ bit h 4 = last ∧ (BitVec.extractLsb' 8 12 h).toNat = n := by
  extract_lets h
  have bits (i : Nat) (inWord : i < 32) :
      h.getLsbD i = (ty.testBit i || (last && decide (4 = i)) || (decide (8 ≤ i) && n.testBit (i - 8))) := by
    simp only [h, BitVec.getLsbD_or, getLsbD_nat32, getLsbD_bitAt]
    simp [inWord]
  refine ⟨?_, ?_, ?_⟩
  · rw [show ty = (BitVec.ofNat 4 ty).toNat by simp [Nat.mod_eq_of_lt type]]
    refine congrArg _ (BitVec.eq_of_getLsbD_eq fun i small => ?_)
    rw [field, BitVec.getLsbD_extractLsb', Nat.zero_add, bits i (by omega), BitVec.getLsbD_ofNat]
    simp [show i < 4 from small, show ¬8 ≤ i by omega, show 4 ≠ i by omega]
  · rw [bit, bits 4 (by decide), testBit_above (k := 4) type (by decide)]
    simp
  · rw [show n = (BitVec.ofNat 12 n).toNat by simp [Nat.mod_eq_of_lt len]]
    refine congrArg _ (BitVec.eq_of_getLsbD_eq fun i small => ?_)
    rw [BitVec.getLsbD_extractLsb', bits (8 + i) (by omega), testBit_above (k := 4) type (by omega), BitVec.getLsbD_ofNat]
    simp [show i < 12 from small, show 4 ≠ 8 + i by omega]

/-! ### One frame -/

/-- The parts of the frame that carries piece `p` of an object. -/
def framePart (ty : Nat) (last : Bool) (seq tag : BitVec 32) (frag : Nat) (p : List (BitVec 32)) : LinkFrame :=
  { head := nat32 ty 0 ||| bitAt last 4 ||| nat32 p.length 8, seq := seq, tag := tag, frag := frag, body := p }

/-- A frame that is sent passes the checks of the receiver. -/
theorem linkParse_pairFrame {ty frag : Nat} {p : List (BitVec 32)} (type : ty < 16) (fragment : frag < 4096) (len : p.length ≤ 4095)
    (last : Bool) (seq tag : BitVec 32) : linkParse (pairFrame ty last seq tag frag p) = some (framePart ty last seq tag frag p) := by
  obtain ⟨-, -, count⟩ := frameHead_fields last type (show p.length < 4096 by omega)
  have frame : pairFrame ty last seq tag frag p = (nat32 ty 0 ||| bitAt last 4 ||| nat32 p.length 8) :: seq :: tag :: nat32 frag 0 ::
      (p ++ [crc32c (wordsBytes ((nat32 ty 0 ||| bitAt last 4 ||| nat32 p.length 8) :: seq :: tag :: nat32 frag 0 :: p))]) := rfl
  have number : (field (nat32 frag 0) 0 12).toNat = frag := by
    simp [field, nat32, Nat.mod_eq_of_lt fragment, Nat.mod_eq_of_lt (show frag < 4294967296 by omega)]
  rw [framePart]
  generalize nat32 ty 0 ||| bitAt last 4 ||| nat32 p.length 8 = h at count frame ⊢
  rw [frame, linkParse_good]
  · simp [count, number]
  · simp [count]
  · simp [count]

/-! ### The pieces of a payload -/

theorem pairPieces_spec (fuel : Nat) (p : List (BitVec 32)) (enough : p.length ≤ fuel) : (pairPieces fuel p).flatten = p ∧
    (∀ x ∈ pairPieces fuel p, x.length ≤ 4095) ∧ (p ≠ [] → pairPieces fuel p ≠ [] ∧ 4095 * (pairPieces fuel p).length < p.length + 4095) := by
  induction fuel generalizing p with
  | zero =>
    obtain rfl := List.length_eq_zero_iff.mp (Nat.le_zero.mp enough)
    exact ⟨rfl, fun x none => absurd none List.not_mem_nil, fun filled => absurd rfl filled⟩
  | succ fuel ih =>
    rw [pairPieces]
    by_cases short : p.length ≤ 4095
    · rw [if_pos short]
      refine ⟨List.flatten_singleton, fun x member => by rwa [List.mem_singleton.mp member], fun filled => ⟨nofun, ?_⟩⟩
      have : p.length ≠ 0 := fun none => filled (List.length_eq_zero_iff.mp none)
      rw [List.length_singleton]
      omega
    · rw [if_neg short]
      have rest : (p.drop 4095).length = p.length - 4095 := List.length_drop
      obtain ⟨whole, pieces, count⟩ := ih (p.drop 4095) (by omega)
      refine ⟨by rw [List.flatten_cons, whole, List.take_append_drop], fun x member => ?_, fun _ => ⟨nofun, ?_⟩⟩
      · rcases List.mem_cons.mp member with rfl | later
        · exact List.length_take_le _ _
        · exact pieces x later
      · obtain ⟨-, few⟩ := count fun none => by
          rw [none, List.length_nil] at rest
          omega
        rw [List.length_cons]
        omega

/-! ### The frames of an object -/

/-- The frames into which an object is cut, from the sequence number `seq` on. -/
def objectFrames (ty : Nat) (seq tag : BitVec 32) (ps : List (List (BitVec 32))) : List (List (BitVec 32)) :=
  (ps.zip (List.range ps.length)).map fun q =>
    pairFrame ty (decide (q.2 + 1 = ps.length)) (seq + BitVec.ofNat 32 q.2) tag q.2 q.1

/-- Their parts. -/
def objectParts (ty : Nat) (seq tag : BitVec 32) (ps : List (List (BitVec 32))) : List LinkFrame :=
  (ps.zip (List.range ps.length)).map fun q =>
    framePart ty (decide (q.2 + 1 = ps.length)) (seq + BitVec.ofNat 32 q.2) tag q.2 q.1

section
variable {ty : Nat} {seq tag : BitVec 32} {ps : List (List (BitVec 32))}

theorem objectParts_length : (objectParts ty seq tag ps).length = ps.length := by simp [objectParts]

theorem objectParts_getElem {i : Nat} (inside : i < (objectParts ty seq tag ps).length) : (objectParts ty seq tag ps)[i] =
    framePart ty (decide (i + 1 = ps.length)) (seq + BitVec.ofNat 32 i) tag i (ps[i]'(objectParts_length ▸ inside)) := by
  simp [objectParts]

theorem objectParts_body : ((objectParts ty seq tag ps).flatMap fun x => x.body) = ps.flatten := by
  have bodies : (objectParts ty seq tag ps).map (fun x => x.body) = ps := by
    rw [objectParts, List.map_map]
    exact (List.map_fst_zip (by simp) : (ps.zip (List.range ps.length)).map Prod.fst = ps)
  rw [List.flatMap_def, bodies]

/-- The frames carry consecutive fragments and numbers, and the last one says so. -/
theorem linkWhole_objectParts (type : ty < 16) (pieces : ∀ x ∈ ps, x.length ≤ 4095) (nonempty : ps ≠ []) :
    linkWhole ty (objectParts ty seq tag ps) = true := by
  obtain ⟨x, r, parts⟩ := List.exists_cons_of_ne_nil (l := objectParts ty seq tag ps) fun none =>
    nonempty (List.length_eq_zero_iff.mp (objectParts_length.symm.trans (List.length_eq_zero_iff.mpr none)))
  have first : x = framePart ty (decide (0 + 1 = ps.length)) (seq + BitVec.ofNat 32 0) tag 0 (ps[0]'(List.length_pos_iff.mpr nonempty)) := by
    rw [← objectParts_getElem (by rw [parts]; exact Nat.zero_lt_succ _)]
    simp [parts]
  have count : r.length + 1 = ps.length := by rw [← objectParts_length (ty := ty) (seq := seq) (tag := tag), parts, List.length_cons]
  have all := List.all_eq_true (l := (List.range (r.length + 1)).zip (objectParts ty seq tag ps)) (p := fun q =>
    decide (q.2.ty = ty) && decide (q.2.frag = q.1) && decide (q.2.seq = x.seq + BitVec.ofNat 32 q.1) &&
      decide (q.2.tag = x.tag) && (bit q.2.head 4 == decide (q.1 = r.length)))
  rw [parts] at all ⊢
  refine all.mpr fun q member => ?_
  rw [← parts] at member
  obtain ⟨i, inside, rfl⟩ := List.mem_iff_getElem.mp member
  have within : i < ps.length := by simpa [objectParts_length, count] using inside
  obtain ⟨kind, last, -⟩ := frameHead_fields (decide (i + 1 = ps.length)) type (show (ps[i]).length < 4096 from
    Nat.lt_succ_of_le (pieces _ (List.getElem_mem within)))
  rw [List.getElem_zip, List.getElem_range, objectParts_getElem, first]
  simp only [Bool.and_eq_true, decide_eq_true_eq, beq_iff_eq]
  exact ⟨⟨⟨⟨kind, rfl⟩, by simp [framePart]⟩, rfl⟩, last.trans (by simp [← count])⟩

/-- The frames into which an object is cut give it back. -/
theorem linkObject_objectFrames (type : ty < 16) (pieces : ∀ x ∈ ps, x.length ≤ 4095) (nonempty : ps ≠ []) (few : ps.length ≤ 4096) :
    linkObject ty (objectFrames ty seq tag ps) = (0, some (tag, ps.flatten)) := by
  have parsed : (objectFrames ty seq tag ps).map linkParse = (objectParts ty seq tag ps).map Option.some := by
    rw [objectFrames, objectParts, List.map_map, List.map_map]
    refine List.map_congr_left fun q member => ?_
    obtain ⟨piece, index⟩ := List.of_mem_zip (show (q.1, q.2) ∈ _ from member)
    exact linkParse_pairFrame type ((List.mem_range.mp index).trans_le few) (pieces _ piece) _ _ _
  have good : ((objectParts ty seq tag ps).map Option.some).filter Option.isNone = [] := by simp
  have tags : ((objectParts ty seq tag ps).head?.map fun x => x.tag) = Option.some tag := by
    rw [List.head?_eq_getElem?, List.getElem?_eq_getElem (by rw [objectParts_length]; exact List.length_pos_iff.mpr nonempty),
      objectParts_getElem]
    rfl
  have l : ((objectParts ty seq tag ps).map Option.some).filterMap id = objectParts ty seq tag ps := by simp
  rw [linkObject, parsed]
  rw [good, l, linkWhole_objectParts type pieces nonempty, tags, objectParts_body]
  rfl

end

/-- An object that is sent leaves as the frames into which it is cut (R364, R365). -/
theorem State.forEach_frames (ty : Nat) (tag seq : BitVec 32) (n : Nat) (ps : List (List (BitVec 32))) (i : Nat) (s : State)
    (next : s.pr.seqTx = seq + BitVec.ofNat 32 i) :
    ((s.forEach (ps.zip (List.range' i ps.length)) fun s q =>
      { s with out := .pair ty (pairFrame ty (decide (q.2 + 1 = n)) s.pr.seqTx tag q.2 q.1) :: s.out, pr.seqTx := s.pr.seqTx + 1#32 }).out =
      ((ps.zip (List.range' i ps.length)).map fun q =>
        Out.pair ty (pairFrame ty (decide (q.2 + 1 = n)) (seq + BitVec.ofNat 32 q.2) tag q.2 q.1)).reverse ++ s.out) ∧
    (s.forEach (ps.zip (List.range' i ps.length)) fun s q =>
      { s with out := .pair ty (pairFrame ty (decide (q.2 + 1 = n)) s.pr.seqTx tag q.2 q.1) :: s.out, pr.seqTx := s.pr.seqTx + 1#32 }).pr.seqTx =
      seq + BitVec.ofNat 32 (i + ps.length) := by
  induction ps generalizing i s with
  | nil => exact ⟨rfl, next⟩
  | cons p ps ih =>
    obtain ⟨out, last⟩ := ih (i + 1)
      { s with out := .pair ty (pairFrame ty (decide (i + 1 = n)) s.pr.seqTx tag i p) :: s.out, pr.seqTx := s.pr.seqTx + 1#32 }
      (by simp [next, BitVec.ofNat_add, BitVec.add_assoc])
    rw [List.length_cons, List.range'_succ, List.zip_cons_cons]
    refine ⟨out.trans ?_, last.trans ?_⟩
    · simp [next]
    · rw [Nat.add_assoc, Nat.add_comm 1]

theorem State.pairSend_frames {s : State} (up : pairUp s = true) (ty : Nat) (tag : BitVec 32) (p : List (BitVec 32)) :
    (s.pairSend ty tag p).out = ((objectFrames ty s.pr.seqTx tag (pairPieces p.length p)).map (Out.pair ty)).reverse ++ s.out ∧
    (s.pairSend ty tag p).pr.seqTx = s.pr.seqTx + BitVec.ofNat 32 (objectFrames ty s.pr.seqTx tag (pairPieces p.length p)).length := by
  rw [State.pairSend, if_pos up]
  extract_lets ps n
  obtain ⟨out, next⟩ := State.forEach_frames ty tag s.pr.seqTx n ps 0 s (by simp)
  rw [← List.range_eq_range'] at out next
  refine ⟨out.trans ?_, next.trans ?_⟩
  · rw [objectFrames, List.map_map]
    rfl
  · simp [objectFrames, ps]

/-- The pieces of an object of 1 to 4,095 x 4,096 words fill at most 4,096 frames (R365). -/
theorem linkObject_pairPieces {ty : Nat} (seq tag : BitVec 32) {p : List (BitVec 32)} (type : ty < 16) (nonempty : p ≠ [])
    (size : p.length ≤ 4095 * 4096) : linkObject ty (objectFrames ty seq tag (pairPieces p.length p)) = (0, some (tag, p)) := by
  obtain ⟨whole, pieces, count⟩ := pairPieces_spec p.length p le_rfl
  obtain ⟨cut, few⟩ := count nonempty
  rw [linkObject_objectFrames type pieces cut (by omega), whole]

end Sys2Proof.Machine
end

section
/-! SUPPORT. What a pick computes leaves of the pair unit: the axes and their channels, the loops, Churn, Loom, Reed and the ring change
nothing but the digest words, the solutions in flight, the log and the number of the next frame (R44, R368, R372, R373). -/
namespace Sys2Proof.Machine

/-- A pair unit without what the blocks change of it in passing. -/
def Pair.settled (p : Pair) : Pair := { p with seqTx := 0#32, log := [], digest := [], solIn := none, unacked := none, ext := {} }

@[simp] theorem State.standing_mk (tb tr lm fb ce cell pg stl sv sio sl pr qp rd sw nt can wr dr er hi boot pw cr hw pend mem out rdata
    fresh pending) : State.standing ⟨tb, tr, lm, fb, ce, cell, pg, stl, sv, sio, sl, pr, qp, rd, sw, nt, can, wr, dr, er, hi, boot, pw, cr,
      hw, pend, mem, out, rdata, fresh, pending⟩ = pr.settled := rfl

@[simp] theorem State.settled_fold (s : State) : s.pr.settled = s.standing := rfl

theorem State.ite_standing {p : Prop} [Decidable p] {s t u : State} (yes : t.standing = s.standing) (no : u.standing = s.standing) :
    (if p then t else u).standing = s.standing := by
  split
  · exact yes
  · exact no

/-! ### The blocks' own fields -/

@[simp] theorem State.modAxis_standing (s : State) (a : Fin 80) (g : Axis → Axis) : (s.modAxis a g).standing = s.standing := rfl
@[simp] theorem State.modArm_standing (s : State) (r : Fin 8) (g : Arm → Arm) : (s.modArm r g).standing = s.standing := rfl
@[simp] theorem State.modCh_standing (s : State) (c : Fin 96) (g : FbCh → FbCh) : (s.modCh c g).standing = s.standing := rfl
@[simp] theorem State.modSlice_standing (s : State) (a : Fin 80) (g : Slice → Slice) : (s.modSlice a g).standing = s.standing := rfl
@[simp] theorem State.modPax_standing (s : State) (a : Fin 80) (g : PgAxis → PgAxis) : (s.modPax a g).standing = s.standing := rfl
@[simp] theorem State.modRd_standing (s : State) (g : Reed → Reed) : (s.modRd g).standing = s.standing := rfl
@[simp] theorem State.modFlow_standing (s : State) (f : Fin 16) (g : FlowS → FlowS) : (s.modFlow f g).standing = s.standing := rfl
@[simp] theorem State.modSlot_standing (s : State) (d : Fin 8) (g : Slot → Slot) : (s.modSlot d g).standing = s.standing := rfl
@[simp] theorem State.modNode_standing (s : State) (d : Fin 8) (c i : Nat) (g : NodeRec → NodeRec) :
    (s.modNode d c i g).standing = s.standing := rfl
@[simp] theorem State.modQp_standing (s : State) (g : Churn → Churn) : (s.modQp g).standing = s.standing := rfl
@[simp] theorem State.modTb_standing (s : State) (g : TimeBase → TimeBase) : (s.modTb g).standing = s.standing := rfl

@[simp] theorem State.fbSet_standing (s : State) (c : Fin 96) (i : Nat) : (s.fbSet c i).standing = s.standing := irqWatch_standing _ _ _ _
@[simp] theorem State.ceSet_standing (s : State) (a : Fin 80) (i : Nat) : (s.ceSet a i).standing = s.standing := irqWatch_standing _ _ _ _
@[simp] theorem State.pgSet_standing (s : State) (a : Fin 80) (i : Nat) : (s.pgSet a i).standing = s.standing := irqWatch_standing _ _ _ _
@[simp] theorem State.rdSet_standing (s : State) (i : Nat) : (s.rdSet i).standing = s.standing := rfl

@[simp] theorem State.ceSetMany_standing (s : State) (a : Fin 80) (m : BitVec 11) : (s.ceSetMany a m).standing = s.standing :=
  State.ite_standing rfl (irqWatch_standing _ _ _ _)

/-! ### Channels -/

@[simp] theorem State.trace_standing (s : State) (c : Fin 96) (kind : BitVec 2) (count : Int) (t : Nat) :
    (s.trace c kind count t).standing = s.standing :=
  State.ite_standing (State.ite_standing rfl rfl) rfl

@[simp] theorem State.fireCompare_standing (s : State) (c : Fin 96) (t : Nat) : (s.fireCompare c t).standing = s.standing := by
  unfold State.fireCompare
  dsimp only
  split
  · split <;> simp
  · simp

@[simp] theorem State.reportEdge_standing (s : State) (c : Fin 96) (rep d : Int) (t k : Nat) :
    (s.reportEdge c rep d t k).standing = s.standing := by
  unfold State.reportEdge
  dsimp only
  split
  · rw [State.fireCompare_standing, State.trace_standing]
    exact State.ite_standing (by simp) rfl
  · rw [State.trace_standing]
    exact State.ite_standing (by simp) rfl

@[simp] theorem State.enterNormal_standing (s : State) (c : Fin 96) : (s.enterNormal c).standing = s.standing :=
  State.ite_standing rfl (State.reportEdge_standing _ _ _ _ _ _)

@[simp] theorem State.modeAuto_standing (s : State) (a : Fin 80) : (s.modeAuto a).standing = s.standing :=
  State.forEach_standing fun _ _ => State.ite_standing rfl (by simp)

@[simp] theorem State.shiftAxis_standing (s : State) (a : Fin 80) (d : Int) : (s.shiftAxis a d).standing = s.standing := by
  obtain ⟨ch, pos, pba, out, shifts, -⟩ := s.shiftAxis_frame a d
  rw [shifts]
  rfl

@[simp] theorem State.shiftCommand_standing (s : State) (a : Fin 80) (d : Int) : (s.shiftCommand a d).standing = s.standing := rfl

/-! ### Axes and arms -/

@[simp] theorem State.leaveArm_standing (s : State) (a : Fin 80) : (s.leaveArm a).standing = s.standing := (s.leaveArm_motion a).standing
@[simp] theorem State.stopAxis_standing (s : State) (a : Fin 80) (quick safety : Bool) : (s.stopAxis a quick safety).standing = s.standing :=
  (s.stopAxis_motion a quick safety).standing
@[simp] theorem State.loseMaster_standing (s : State) (a : Fin 80) : (s.loseMaster a).standing = s.standing := (s.loseMaster_motion a).standing
@[simp] theorem State.holdAxis_standing (s : State) (a : Fin 80) (x : Int) : (s.holdAxis a x).standing = s.standing :=
  (s.holdAxis_motion a x).standing
@[simp] theorem State.endMpc_standing (s : State) (r : Fin 8) : (s.endMpc r).standing = s.standing := (s.endMpc_motion r).standing
@[simp] theorem State.mpcSweep_standing (s : State) : s.mpcSweep.standing = s.standing := s.mpcSweep_motion.standing

@[simp] theorem State.setAxis_standing (s : State) (a : Fin 80) (st : AxisState) : (s.setAxis a st).standing = s.standing := by
  unfold State.setAxis
  dsimp only
  split
  case h_1 | h_2 | h_3 => exact State.ite_standing rfl (by simp)
  all_goals simp

@[simp] theorem State.stopArmMove_standing (s : State) (r : Fin 8) (quick safety : Bool) :
    (s.stopArmMove r quick safety).standing = s.standing := by
  unfold State.stopArmMove
  split
  · rfl
  · exact State.forEach_standing fun _ _ => rfl

@[simp] theorem State.effectStop_standing (s : State) (a : Fin 80) (quick safety : Bool) : (s.effectStop a quick safety).standing = s.standing := by
  unfold State.effectStop
  split
  case h_4 => exact State.ite_standing (by simp) rfl
  all_goals simp

@[simp] theorem State.effectArmStop_standing (s : State) (r : Fin 8) (quick safety : Bool) :
    (s.effectArmStop r quick safety).standing = s.standing :=
  (State.forEach_standing fun t a => t.effectStop_standing a quick safety).trans (State.ite_standing rfl (by simp))

/-! ### Operations and effects -/

@[simp] theorem State.stopFlow_standing (s : State) (f : Fin 16) (i : BitVec 21) : (s.stopFlow f i).standing = s.standing := by
  simp [State.stopFlow]

@[simp] theorem State.opDone_standing (s : State) (f : Fin 16) (id : Nat) (st : Status) (flags : BitVec 8) (r : Option W64) :
    (s.opDone f id st flags r).standing = s.standing := by
  unfold State.opDone
  split
  · rfl
  · exact State.ite_standing (by simp) rfl

@[simp] theorem State.enableAxis_standing (s : State) (a : Fin 80) : (s.enableAxis a).standing = s.standing := by simp [State.enableAxis]

@[simp] theorem State.startMove_standing (s : State) (a : Fin 80) (x : Int) (w : Option (Int × Int × Int)) :
    (s.startMove a x w).standing = s.standing := by simp [State.startMove]

@[simp] theorem State.startSeg_standing (s : State) (a : Fin 80) (slot : Fin 8) : (s.startSeg a slot).standing = s.standing := by
  simp [State.startSeg]

@[simp] theorem State.startHome_standing (s : State) (a : Fin 80) (m : BitVec 4) (w0 : Int) : (s.startHome a m w0).standing = s.standing :=
  State.ite_standing (by simp) (by simp)

@[simp] theorem State.startGear_standing (s : State) (a m : Fin 80) (ratio : Int) (w1 : Option Int) :
    (s.startGear a m ratio w1).standing = s.standing := State.ite_standing rfl (by simp)

@[simp] theorem State.startMpc_standing (s : State) (r : Fin 8) : (s.startMpc r).standing = s.standing :=
  State.forEach_standing fun _ _ => by simp

@[simp] theorem State.startArmMove_standing (s : State) (r : Fin 8) (targets : List Int) : (s.startArmMove r targets).standing = s.standing := by
  unfold State.startArmMove
  dsimp only
  rw [State.standing_mk, State.settled_fold, State.forEach_standing fun _ _ => by simp, State.forEach_standing fun _ _ => by simp]

@[simp] theorem State.doEffect_standing (s : State) (e : Effect) : (s.doEffect e).standing = s.standing := by
  unfold State.doEffect
  split
  case h_9 | h_10 | h_11 | h_12 => simp
  case h_2 => exact State.forEach_standing fun _ _ => State.ite_standing rfl (by simp)
  case h_13 =>
    split
    · rw [State.opDone_standing]
      exact State.ite_standing (by simp) rfl
    · rfl
  all_goals exact State.forEach_standing fun _ _ => by simp

@[simp] theorem State.dropEffect_standing (s : State) (e : Effect) (k b : BitVec 32) : (s.dropEffect e k b).standing = s.standing := by
  have shown : (s.forEach e.axes fun s a => s.pgSet a 7).standing = s.standing := State.forEach_standing fun _ _ => by simp
  unfold State.dropEffect
  dsimp only
  split <;> simp [shown]

theorem State.applyEffects_standing (s : State) (k b : BitVec 32) (edge : Bool) : (s.applyEffects k b edge).standing = s.standing :=
  State.forEach_standing fun _ _ => State.ite_standing (by simp) (by simp)

/-! ### Entries -/

@[simp] theorem State.stopEnded_standing (s : State) (a : Fin 80) (x : Int) : (s.stopEnded a x).standing = s.standing :=
  State.ite_standing (by simp) (State.ite_standing (by simp) (by simp))

@[simp] theorem State.moveEnded_standing (s : State) (a : Fin 80) (x : Int) : (s.moveEnded a x).standing = s.standing :=
  State.ite_standing rfl (by simp)

@[simp] theorem State.planEnded_standing (s : State) (a : Fin 80) (x : Int) : (s.planEnded a x).standing = s.standing := by
  unfold State.planEnded
  dsimp only
  refine State.ite_standing rfl ?_
  split <;> simp

@[simp] theorem State.homeTravel_standing (s : State) (a : Fin 80) (x : Int) : (s.homeTravel a x).standing = s.standing :=
  State.ite_standing (by simp) rfl

@[simp] theorem State.limitStop_standing (s : State) (a : Fin 80) (hi : Bool) (k : BitVec 32) : (s.limitStop a hi k).standing = s.standing := by
  simp [State.limitStop]

@[simp] theorem State.runEntry_standing (s : State) (a : Fin 80) (k : BitVec 32) (t : Nat) : (s.runEntry a k t).standing = s.standing :=
  State.ite_standing (State.planEnded_standing _ _ _) (State.homeTravel_standing _ _ _)

@[simp] theorem State.axisEntry_standing (s : State) (a : Fin 80) (k : BitVec 32) (t : Nat) : (s.axisEntry a k t).standing = s.standing := by
  unfold State.axisEntry
  dsimp only
  refine State.ite_standing rfl (State.ite_standing rfl ?_)
  split <;> simp

@[simp] theorem State.armSync_standing (s : State) (r : Fin 8) (m : ArmMove) : (s.armSync r m).standing = s.standing :=
  State.ite_standing (State.forEach_standing fun _ _ => by simp) rfl

@[simp] theorem State.armRun_standing (s : State) (r : Fin 8) (k : BitVec 32) (t : Nat) : (s.armRun r k t).standing = s.standing := by
  unfold State.armRun
  split
  · rfl
  · refine State.ite_standing ?_ (State.forEach_standing fun _ _ => rfl)
    refine Eq.trans (State.forEach_standing fun _ _ => State.ite_standing ?_ ?_) (State.forEach_standing fun _ _ => rfl)
    all_goals simp

@[simp] theorem State.armPick_standing (s : State) (r : Fin 8) (k : BitVec 32) (t : Nat) : (s.armPick r k t).standing = s.standing := by
  unfold State.armPick
  split
  · rfl
  · refine State.ite_standing ?_ (State.ite_standing (by simp) rfl)
    rw [State.armRun_standing]
    exact State.ite_standing rfl ((State.forEach_standing fun _ _ => by simp).trans (State.stopArmMove_standing _ _ _ _))

@[simp] theorem State.gearEntry_standing (s : State) (a : Fin 80) (k : BitVec 32) (t : Nat) : (s.gearEntry a k t).standing = s.standing := by
  unfold State.gearEntry
  dsimp only
  split
  · simp
  · exact State.ite_standing (by simp) rfl

theorem State.formEntries_standing (s : State) (k : BitVec 32) (t : Nat) : (s.formEntries k t).standing = s.standing := by
  unfold State.formEntries
  dsimp only
  rw [State.forEach_standing fun _ _ => State.forEach_standing fun _ _ => State.gearEntry_standing _ _ _ _,
    State.forEach_standing fun _ _ => State.ite_standing (State.axisEntry_standing _ _ _ _) rfl,
    State.forEach_standing fun _ _ => State.armPick_standing _ _ _ _]
  exact State.forEach_standing fun _ _ => rfl

/-! ### Slices and homing -/

theorem State.scaleUpdate_standing (s : State) : s.scaleUpdate.standing = s.standing := by
  unfold State.scaleUpdate
  dsimp only
  refine Eq.trans (State.forEach_standing fun _ _ => rfl) (Eq.trans (State.forEach_standing fun _ _ => rfl) ?_)
  exact State.forEach_standing fun _ _ => rfl

theorem State.svMotion_standing (s : State) : s.svMotion.standing = s.standing := by
  unfold State.svMotion
  dsimp only
  rw [State.mpcSweep_standing]
  refine Eq.trans (State.forEach_standing fun u j => ?_) (State.forEach_standing fun u r => ?_)
  · split
    · rfl
    · have stopped := State.ite_standing (p := toStop u (Fin.ofNat 80 (64 + j.val)) = true)
        (u.effectStop_standing (Fin.ofNat 80 (64 + j.val)) true true) rfl
      exact State.ite_standing ((State.setAxis_standing _ _ _).trans stopped) stopped
  · split
    · rfl
    · have stopped := State.ite_standing (p := (sealedAxes u r).any (toStop u) = true)
        (State.ite_standing (p := u.armMatches r = true) (u.effectArmStop_standing r true true)
          (State.forEach_standing (l := sealedAxes u r) fun t a => t.effectStop_standing a true true)) rfl
      exact State.ite_standing ((State.forEach_standing fun _ _ => State.setAxis_standing _ _ _).trans stopped) stopped

@[simp] theorem State.swapBank_standing (s : State) (a : Fin 80) : (s.swapBank a).standing = s.standing := by simp [State.swapBank]

@[simp] theorem State.swapPick_standing (s : State) (t : Nat) (a : Fin 80) : (s.swapPick t a).standing = s.standing := by
  unfold State.swapPick
  dsimp only
  split
  · rfl
  · exact (State.forEach_standing fun _ _ => State.opDone_standing _ _ _ _ _ _).trans (by simp)

theorem State.driveFaults_standing (s : State) : s.driveFaults.standing = s.standing :=
  State.forEach_standing fun _ _ => State.faultAxis_standing _ _

@[simp] theorem State.armBypass_standing (s : State) (r : Fin 8) (k : BitVec 32) : (s.armBypass r k).standing = s.standing := by
  unfold State.armBypass
  dsimp only
  refine State.ite_standing ?_ rfl
  split
  · refine (State.forEach_standing fun _ _ => State.ceSet_standing _ _ _).trans ?_
    exact State.ite_standing rfl (State.emit_standing _ _ _ _)
  · exact State.ite_standing (by simp) rfl

@[simp] theorem State.missPick_standing (s : State) (a : Fin 80) : (s.missPick a).1.standing = s.standing := by
  unfold State.missPick
  dsimp only
  split
  · rfl
  · split
    · rfl
    · split <;> simp

@[simp] theorem State.sliceOne_standing (s : State) (k : BitVec 32) (a : Fin 80) : (s.sliceOne k a).1.standing = s.standing := by
  unfold State.sliceOne
  dsimp only
  split
  · rfl
  · split
    · simp
    · rename_i e _
      generalize (((s.missPick a).1.slice a).update _ _ e _ _) = u
      split <;> simp

theorem State.slicesAll_standing (s : State) (k : BitVec 32) : (s.slicesAll k).standing = s.standing := by
  have folded (l : List (Fin 80)) (r : State × List (Fin 80)) : (l.foldl (fun (r : State × List (Fin 80)) a =>
      let q := r.1.sliceOne k a
      (q.1, if q.2 then r.2 ++ [a] else r.2)) r).1.standing = r.1.standing := by
    induction l generalizing r with
    | nil => rfl
    | cons a l ih => exact (ih _).trans (r.1.sliceOne_standing k a)
  unfold State.slicesAll
  dsimp only
  rw [State.mpcSweep_standing, State.forEach_standing fun _ _ => State.faultAxis_standing _ _]
  exact folded _ _

@[simp] theorem State.homeFound_standing (s : State) (a : Fin 80) (h : Int) (stall : Bool) : (s.homeFound a h stall).standing = s.standing := by
  unfold State.homeFound
  dsimp only
  rw [State.modPax_standing, State.shiftCommand_standing, State.shiftAxis_standing]
  exact State.ite_standing rfl rfl

@[simp] theorem State.homePick_standing (s : State) (a : Fin 80) (t : Nat) : (s.homePick a t).standing = s.standing :=
  State.ite_standing (State.ite_standing (State.ite_standing (by simp) rfl) (State.ite_standing (by simp) rfl)) rfl

theorem State.axesPick_standing (s : State) (k b : BitVec 32) (edge : Bool) (t : Nat) : (s.axesPick k b edge t).standing = s.standing := by
  have beat (u : State) : (if edge then u.psiBeat b else u).standing = u.standing := State.ite_standing rfl rfl
  refine State.ite_standing ?_ rfl
  rw [State.signsAll, State.standing_mk, State.settled_fold, State.forEach_standing fun _ _ => State.homePick_standing _ _ _, State.slicesAll_standing,
    State.forEach_standing fun _ _ => State.armBypass_standing _ _ _, State.formEntries_standing, State.applyEffects_standing,
    State.driveFaults_standing, State.forEach_standing fun _ _ => State.swapPick_standing _ _ _]
  rw [State.measureAll, State.standing_mk, State.settled_fold, State.svMotion_standing, beat]
  exact s.scaleUpdate_standing

/-! ### Churn at a boundary -/

@[simp] theorem State.abandon_standing (s : State) (cause : BitVec 2) (index : BitVec 32) : (s.abandon cause index).standing = s.standing := by
  unfold State.abandon
  dsimp only
  rw [State.emit_standing]
  rfl

theorem State.publish_standing (s : State) (c : BitVec 32) : (s.publish c).standing = s.standing := by
  unfold State.publish
  dsimp only
  split
  · rfl
  · exact State.ite_standing (by simp) (State.ite_standing (by rw [State.emit_standing]; rfl) rfl)

theorem State.publishNamed_standing (s : State) (b : BitVec 32) : (s.publishNamed b).standing = s.standing := by
  unfold State.publishNamed
  split
  · exact State.ite_standing rfl rfl
  · rfl

theorem State.endLate_standing (s : State) (c : BitVec 32) : (s.endLate c).standing = s.standing :=
  State.forEach_standing fun _ _ => State.ite_standing (State.abandon_standing _ _ _) rfl

theorem State.stopPlanning_standing (s : State) : s.stopPlanning.standing = s.standing :=
  State.forEach_standing fun _ _ => State.abandon_standing _ _ _

theorem State.qpStops_standing (s : State) : s.qpStops.standing = s.standing :=
  State.ite_standing rfl ((State.forEach_standing fun _ _ => State.opDone_standing _ _ _ _ _ _).trans s.stopPlanning_standing)

theorem State.qpStarts_standing (s : State) : s.qpStarts.standing = s.standing := by
  unfold State.qpStarts
  split
  · exact State.ite_standing rfl rfl
  · rfl

theorem State.costExchange_standing (s : State) : s.costExchange.standing = s.standing := by
  unfold State.costExchange
  split
  · rfl
  · next c _ =>
    have withdrawn (u : State) : (u.forEach c.overw fun s q =>
        if c.dead || q.2.2 then s.opDone q.1 q.2.1 .aborted 0#8 none else s.opDone q.1 q.2.1 .ok flagNoEffect none).standing = u.standing :=
      State.forEach_standing fun _ _ => State.ite_standing (State.opDone_standing _ _ _ _ _ _) (State.opDone_standing _ _ _ _ _ _)
    exact State.ite_standing ((State.opDone_standing _ _ _ _ _ _).trans (withdrawn _))
      ((State.opDone_standing _ _ _ _ _ _).trans (withdrawn _))

theorem State.qpBoundary_standing (s : State) (c : BitVec 32) : (s.qpBoundary c).standing = s.standing := by
  rw [State.qpBoundary, State.costExchange_standing, State.qpStarts_standing, State.qpStops_standing]
  refine Eq.trans (State.ite_standing rfl rfl) ((State.endLate_standing _ _).trans ?_)
  exact State.ite_standing rfl (s.publish_standing c)

theorem State.churnPick_standing (s : State) (b : BitVec 32) (named : Option (BitVec 32)) : (s.churnPick b named).standing = s.standing := by
  refine State.ite_standing ((State.qpBoundary_standing _ _).trans ?_) rfl
  split
  · exact s.publishNamed_standing _
  · rfl

/-! ### Loom, Reed and the ring -/

@[simp] theorem State.voidNode_standing (s : State) (d : Fin 8) (c i reason : Nat) : (s.voidNode d c i reason).standing = s.standing := by
  unfold State.voidNode
  dsimp only
  split
  · exact State.ite_standing rfl (State.emit_standing _ _ _ _)
  · rfl

@[simp] theorem State.interpArm_standing (s : State) (r : Fin 8) (i : BitVec 32) (t : BitVec 64) : (s.interpArm r i t).standing = s.standing := by
  refine State.ite_standing ?_ rfl
  split
  · refine State.forEach_standing fun _ _ => ?_
    split <;> rfl
  · rfl

@[simp] theorem State.handOver_standing (s : State) (x : DraftInst) (rate : Bool) (item : Nat) (out : KernelOut) (credit : Bool) :
    (s.handOver x rate item out credit).standing = s.standing := by
  unfold State.handOver
  dsimp only
  split
  · exact State.forEach_standing fun _ _ => rfl
  · exact State.interpArm_standing _ _ _ _
  · rfl
  · rfl
  · exact State.ite_standing rfl rfl
  · rfl
  · rfl
  · rfl

theorem State.releaseAll_standing (s : State) : s.releaseAll.standing = s.standing :=
  State.forEach_standing fun _ _ => State.forEach_standing fun _ _ => by
    unfold State.releaseNode
    dsimp only
    split
    · exact State.ite_standing rfl (State.handOver_standing _ _ _ _ _ _)
    · rfl

@[simp] theorem State.becomeReady_standing (s : State) (d : Fin 8) (c i : Nat) : (s.becomeReady d c i).standing = s.standing :=
  State.ite_standing (by simp) (State.ite_standing rfl (State.ite_standing rfl rfl))

theorem State.loomAdvance_standing (fuel : Nat) (s : State) : (State.loomAdvance fuel s).standing = s.standing := by
  induction fuel generalizing s with
  | zero => rfl
  | succ fuel ih =>
    have dropped (u : State) : u.dropInsts.standing = u.standing := State.forEach_standing fun _ _ => rfl
    rw [State.loomAdvance]
    refine State.ite_standing ((dropped _).trans s.releaseAll_standing) ((ih _).trans ?_)
    rw [State.forEach_standing fun _ _ => State.becomeReady_standing _ _ _ _, dropped, State.releaseAll_standing]

@[simp] theorem State.releaseDraft_standing (s : State) (d : Fin 8) (index : BitVec 32) (t : Nat) :
    (s.releaseDraft d index t).standing = s.standing :=
  State.ite_standing (by simp) (State.ite_standing rfl rfl)

theorem State.releaseDrafts_standing (s : State) (k b : BitVec 32) (edge : Bool) (t : Nat) :
    (s.releaseDrafts k b edge t).standing = s.standing :=
  (State.loomAdvance_standing _ _).trans (State.forEach_standing fun _ _ =>
    State.ite_standing (State.ite_standing (State.ite_standing (by simp) rfl) (by simp)) rfl)

theorem State.reedSnapshot_standing (s : State) (k : BitVec 32) : (s.reedSnapshot k).standing = s.standing :=
  State.ite_standing (State.forEach_standing fun _ _ => by simp) rfl

theorem State.trajSend_standing (s : State) : s.trajSend.standing = s.standing := by
  unfold State.trajSend
  split
  · exact State.ite_standing (State.ite_standing (State.forEach_standing fun _ _ => rfl) rfl) rfl
  · rfl

/-! ### The pick -/

theorem State.sendRecord_standing (s : State) (pub : Option (BitVec 32)) : (s.sendRecord pub).standing = s.standing :=
  Eq.trans rfl (State.ite_standing (State.pairSend_standing _ _ _ _) rfl)

theorem State.pickWork_standing (s : State) (named : Option (BitVec 32)) : (s.pickWork named).standing = s.standing := by
  unfold State.pickWork
  dsimp only
  rw [State.modTb_standing]
  refine (State.ite_standing (State.trajSend_standing _) rfl).trans ((State.reedSnapshot_standing _ _).trans ?_)
  refine (State.ite_standing (State.releaseDrafts_standing _ _ _ _ _) rfl).trans ((State.axesPick_standing _ _ _ _ _).trans ?_)
  refine (State.sendRecord_standing _ _).trans (State.ite_standing ((State.churnPick_standing _ _ _).trans ?_) ?_)
  · rfl
  · rfl

/-- Cell time stands where it stood when the pick's work is done. -/
theorem State.pickWork_now (s : State) (named : Option (BitVec 32)) : (s.pickWork named).now = s.now := rfl

end Sys2Proof.Machine
end

section
/-! SUPPORT. What a device that follows takes from its partner: the input record of a pick, with the digest compared in it, and a pick
without one (R369, R371, R386, R387). -/
namespace Sys2Proof.Machine

/-! ### What an unadopted pick has shown stays shown -/

/-- The wait for a record, the record kept, the count of unadopted picks and its bit of PR_STICKY are as before (R369). -/
structure MissShown (s t : State) : Prop where
  await : t.pr.await = s.pr.await
  early : t.pr.early = s.pr.early
  count : t.pr.cnt[1] = s.pr.cnt[1]
  sticky : s.pr.sticky.getLsbD 4 = true → t.pr.sticky.getLsbD 4 = true

section
variable {s t u : State}

theorem MissShown.refl : MissShown s s := ⟨rfl, rfl, rfl, id⟩

theorem MissShown.trans (first : MissShown s t) (second : MissShown t u) : MissShown s u :=
  ⟨second.await.trans first.await, second.early.trans first.early, second.count.trans first.count, fun set => second.sticky (first.sticky set)⟩

theorem PairKept.missShown (kept : PairKept s t) : MissShown s t := by
  refine ⟨?_, ?_, ?_, kept.sticky 4⟩
  · change t.standing.await = s.pr.await
    rw [kept.pair]
    rfl
  · change t.standing.early = s.pr.early
    rw [kept.pair]
    rfl
  · change t.standing.cnt[1] = s.pr.cnt[1]
    rw [kept.pair]
    rfl

theorem TakesRole.missShown {r : PairRole} (takes : TakesRole s t r) : MissShown s t := by
  refine ⟨?_, ?_, ?_, takes.sticky 4⟩
  · change t.standing.await = s.pr.await
    rw [takes.pair]
    rfl
  · change t.standing.early = s.pr.early
    rw [takes.pair]
    rfl
  · change t.standing.cnt[1] = s.pr.cnt[1]
    rw [takes.pair]
    rfl

end

theorem State.emit_pairKept (s : State) (src : Nat) (code : BitVec 12) (p : List (BitVec 32)) : PairKept s (s.emit src code p) :=
  .of_standing (s.emit_standing src code p)

/-! ### A divergence (R371, R387) -/

/-- The state in which a divergence has been counted and the resynchronisation begun. -/
def State.divergeCounted (s : State) (k own other : BitVec 32) : State :=
  let s1 := ((s.setRole .syncing 5).emit 20 0x004#12 [k, own, other]).prSet 3
  s1.modPr fun p => { p with cnt := upd p.cnt 0 satInc, streak := 0#2, misses := 0, sync := some { at_ := s1.now, step := 3#3 } }

theorem State.divergeCounted_shows (s : State) (k own other : BitVec 32) :
    (s.divergeCounted k own other).pr.role = .syncing ∧ MissShown s (s.divergeCounted k own other) := by
  have takes := s.setRole_takes .syncing 5
  unfold State.divergeCounted
  extract_lets s1
  have kept : PairKept (s.setRole .syncing 5) s1 := (State.emit_pairKept _ _ _ _).trans (State.prSet_pairKept _ 3)
  clear_value s1
  refine ⟨kept.role.trans takes.role, (takes.missShown.trans kept.missShown).trans ⟨rfl, rfl, ?_, id⟩⟩
  exact upd_get_ne s1.pr.cnt 0 satInc 1 (by decide) (by decide)

theorem State.diverge_shows (s : State) (k own other : BitVec 32) :
    (s.diverge k own other).pr.role = .syncing ∧ MissShown s (s.diverge k own other) := by
  obtain ⟨role, shown⟩ := s.divergeCounted_shows k own other
  have kept : PairKept (s.divergeCounted k own other) (s.diverge k own other) :=
    (State.dropSetpoints_pairKept _).trans (State.pairFaultFound_pairKept _ 0x004#12 false)
  exact ⟨kept.role.trans role, shown.trans kept.missShown⟩

/-! ### A pick without a record (R369, R371) -/

/-- The pick is counted as unadopted, recorded and shown. -/
def State.missCounted (s : State) : State :=
  ((s.modPr fun p => { p with misses := s.pr.misses + 1, cnt := upd p.cnt 1 satInc, await := false, early := none }).emit 20 0x009#12
    [s.tb.pickNum]).prSet 4

theorem State.missCounted_shows (s : State) : s.missCounted.pr.await = false ∧ s.missCounted.pr.early = none ∧
    s.missCounted.pr.cnt[1] = satInc s.pr.cnt[1] ∧ s.missCounted.pr.sticky.getLsbD 4 = true := by
  unfold State.missCounted
  generalize counted : (s.modPr fun p => { p with misses := s.pr.misses + 1, cnt := upd p.cnt 1 satInc, await := false, early := none }) = u
  generalize recorded : u.emit 20 0x009#12 [s.tb.pickNum] = v
  have same : v.pr = u.pr := recorded ▸ u.emit_pr _ _ _
  obtain ⟨pba, out, set⟩ := v.prSet_frame 4
  rw [set]
  refine ⟨?_, ?_, ?_, by simp [getLsbD_setBit]⟩
  · change v.pr.await = false
    rw [same, ← counted]
    rfl
  · change v.pr.early = none
    rw [same, ← counted]
    rfl
  · change v.pr.cnt[1] = _
    rw [same, ← counted]
    exact upd_get_same s.pr.cnt 1 satInc

/-- A second unadopted pick in a row while heartbeats arrive is treated as a divergence; one in SYNCING ends the row of matches. -/
def State.missJudged (s : State) (k : BitVec 32) (n : Nat) : State :=
  if s.pr.role = .standby && decide (2 ≤ n) && decide (s.now < s.pr.heard + 30000) then
    let a := s.takeFresh
    let b := a.2.takeFresh
    b.2.diverge k (Config.free32 a.1) (Config.free32 b.1)
  else if s.pr.role = .syncing then s.modPr fun p => { p with streak := 0#2 } else s

theorem State.missPickRecord_eq (s : State) :
    s.missPickRecord = (s.missCounted.missJudged s.tb.pickNum (s.pr.misses + 1)).pickWork none := rfl

theorem State.missJudged_shows (s : State) (k : BitVec 32) (n : Nat) : MissShown s (s.missJudged k n) := by
  unfold State.missJudged
  split
  · exact (show MissShown s s.takeFresh.2.takeFresh.2 from ⟨rfl, rfl, rfl, id⟩).trans (State.diverge_shows _ _ _ _).2
  split
  · exact ⟨rfl, rfl, rfl, id⟩
  · exact .refl

theorem State.missPickRecord_shows (s : State) : let t := s.missPickRecord
    t.pr.await = false ∧ t.pr.early = none ∧ t.pr.cnt[1] = satInc s.pr.cnt[1] ∧ t.pr.sticky.getLsbD 4 = true := by
  obtain ⟨await, early, count, sticky⟩ := s.missCounted_shows
  have shown : MissShown s.missCounted s.missPickRecord := by
    rw [State.missPickRecord_eq]
    exact (State.missJudged_shows _ _ _).trans (PairKept.of_standing (State.pickWork_standing _ none)).missShown
  exact ⟨shown.await.trans await, shown.early.trans early, shown.count.trans count, shown.sticky sticky⟩

/-- At the limit a pick that still waits is unadopted (R369). -/
theorem State.adoptLimit_shows {s : State} (waits : s.pr.await = true) : ∃ t, exec .adoptLimitExpire s = .next t ∧ t.pr.await = false ∧
    t.pr.early = none ∧ t.pr.cnt[1] = satInc s.pr.cnt[1] ∧ t.pr.sticky.getLsbD 4 = true ∧
    s.tb.pickTime.toNat + 1000 * s.pr.adopt.toNat ≤ t.now := by
  have ran : exec .adoptLimitExpire s = .next s.adoptLimit := rfl
  have due : s.adoptLimit = (s.reach (s.tb.pickTime.toNat + 1000 * s.pr.adopt.toNat)).missPickRecord := if_pos waits
  have late := s.le_reach_now (s.tb.pickTime.toNat + 1000 * s.pr.adopt.toNat)
  have same := s.reach_pr (s.tb.pickTime.toNat + 1000 * s.pr.adopt.toNat)
  refine ⟨_, ran, ?_⟩
  rw [due]
  generalize s.tb.pickTime.toNat + 1000 * s.pr.adopt.toNat = limit at late same ⊢
  generalize s.reach limit = u at late same ⊢
  obtain ⟨await, early, count, sticky⟩ := u.missPickRecord_shows
  exact ⟨await, early, count.trans (by rw [same]), sticky, late.trans (State.missPickRecord_keeps (.refl u)).now⟩

/-! ### The record of the present pick (R369, R371) -/

theorem State.adoptChannel_standing (s : State) (w : List (BitVec 32)) (c : Fin 96) : (s.adoptChannel w c).standing = s.standing :=
  State.ite_standing (State.ite_standing (State.faultAxis_standing _ _) rfl) rfl

theorem State.adoptLatches_standing (s : State) (w : List (BitVec 32)) : (s.adoptLatches w).standing = s.standing := by
  unfold State.adoptLatches
  dsimp only
  rw [State.standing_mk, State.settled_fold]
  exact State.forEach_standing fun _ _ => State.adoptChannel_standing _ _ _

/-- A standby whose digest differs from the record's goes to SYNCING (R371). -/
theorem State.compareDigest_diverges {s : State} {w : List (BitVec 32)} {own : BitVec 32} (standby : s.pr.role = .standby)
    (digest : s.pr.digestOwn = some own) (valid : (w.getD 5 0#32).getLsbD 1 = true) (differs : own ≠ w.getD 3 0#32) (copied : Bool) :
    (s.compareDigest w copied).pr.role = .syncing := by
  have compared : (if bit (w.getD 5 0#32) 1 then s.pr.digestOwn else none) = some own := (if_pos valid).trans digest
  unfold State.compareDigest
  dsimp only
  rw [compared]
  dsimp only
  rw [if_pos standby, if_neg differs]
  exact (State.diverge_shows _ _ _ _).1

/-- The record adopted by a standby, without a command to replay (R369, R371). -/
theorem State.adoptPick_diverges {s : State} {w : List (BitVec 32)} {own : BitVec 32} (standby : s.pr.role = .standby)
    (digest : s.pr.digestOwn = some own) (valid : (w.getD 5 0#32).getLsbD 1 = true) (differs : own ≠ w.getD 3 0#32)
    (noLog : w.getD 7 0#32 = 0#32) : (s.adoptPick w).pr.role = .syncing := by
  have noCopy : (if s.pr.role = .syncing then copyFor s (w.getD 6 0#32) else none) = none := if_neg (by rw [standby]; nofun)
  have latched := s.adoptLatches_standing w
  have role : (s.adoptLatches w).pr.role = .standby := by
    change (s.adoptLatches w).standing.role = .standby
    rw [latched]
    exact standby
  have own_ : (s.adoptLatches w).pr.digestOwn = some own := by
    change (s.adoptLatches w).standing.digestOwn = some own
    rw [latched]
    exact digest
  have diverged := State.compareDigest_diverges role own_ valid differs false
  have worked := PairKept.of_standing (((s.adoptLatches w).compareDigest w false).pickWork_standing
    (if bit (w.getD 5 0#32) 0 then some (w.getD 4 0#32) else none))
  unfold State.adoptPick
  rw [noCopy, noLog]
  exact worked.role.trans diverged

section
variable {s : State} (en : s.pr.en = true) (up : pairUp s = true)
include en up

/-- INPUT_RECORD_RECEIVE of an object whose frames are good (R365, R369). -/
theorem inputRecord_taken (follow : follows s = true) (running : s.tb.running = true) {frames : List (List (BitVec 32))} {k : BitVec 32}
    {ws : List (BitVec 32)} (object : linkObject 1 frames = (0, some (k, ws))) : exec (.inputRecordReceive frames) s = .next
      (if k = s.tb.pickNum && s.pr.await then s.adoptPick ws
       else if k = s.tb.pickNum + 1#32 then { s with pr.early := some ws } else s) := by
  have ran : exec (.inputRecordReceive frames) s = execInputRecordReceive frames s := rfl
  rw [ran, execInputRecordReceive, if_neg (by simp [en, up]), object]
  dsimp only
  rw [s.pairBad_zero, if_neg (by simp [follow, running])]
  split
  · rfl
  · split <;> rfl

/-- INPUT_RECORD_RECEIVE of frames that give no object (R365). -/
theorem inputRecord_counted {frames : List (List (BitVec 32))} {n : Nat} (object : linkObject 1 frames = (n, none)) :
    exec (.inputRecordReceive frames) s = .next { s with pr.cnt := upd s.pr.cnt 2 fun c => satAdd c n } := by
  have ran : exec (.inputRecordReceive frames) s = execInputRecordReceive frames s := rfl
  rw [ran, execInputRecordReceive, if_neg (by simp [en, up]), object]
  rfl

end

end Sys2Proof.Machine
end

section
/-! SUPPORT. State copies, solutions, safety records and configuration blocks, and the settlement of O51 (R365, R368 to R374, R383, R384,
R386). -/
namespace Sys2Proof.Machine

/-! ### The state copy of a pick (R386) -/

/-- The leader sends the copy of the present pick, once. -/
theorem stateCopy_sent {s : State} (up : pairUp s = true) (lead : leads s = true) (free : s.pr.mute = false) (running : s.tb.running = true)
    (unsent : s.pr.copyPick ≠ some s.tb.pickNum) : ∃ t c, exec .stateCopySend s = .next t ∧ t.out = .copy c :: s.out ∧
      c.gen = s.pr.genSent + 1#32 ∧ c.pick = s.tb.pickNum ∧ c.cell = s.cell ∧ c.sl = s.ce.sl ∧ c.fb = s.fb.ch ∧ c.pg = s.pg ∧
      t.pr.genSent = c.gen ∧ { t with pr := s.pr, out := s.out } = s ∧ exec .stateCopySend t = .next t := by
  have ran (u : State) : exec .stateCopySend u = execStateCopySend u := rfl
  have sends : (leads s && pairSends s && s.tb.running && decide (s.pr.copyPick ≠ some s.tb.pickNum)) = true := by
    simp [lead, pairSends, up, free, running, unsent]
  refine ⟨_, copyOf s, (ran s).trans (if_pos sends), rfl, rfl, rfl, rfl, rfl, rfl, rfl, rfl, rfl, ?_⟩
  exact (ran _).trans (if_neg (by simp [State.modPr]))

section
variable {s : State} (en : s.pr.en = true) (up : pairUp s = true)
include en up

theorem stateCopy_taken (c : CopySet) : exec (.stateCopyReceive true c) s = .next { s with pr := { s.pr with cnt := upd s.pr.cnt 2 satInc } } ∧
    exec (.stateCopyReceive false c) s = .next (if follows s then { s with pr := { s.pr with copy := some c, gotGen := c.gen } } else s) := by
  have ran (bad : Bool) : exec (.stateCopyReceive bad c) s = execStateCopyReceive bad c s := rfl
  refine ⟨(ran true).trans ?_, (ran false).trans ?_⟩
  · rw [execStateCopyReceive, if_neg (by simp [en, up]), if_pos rfl, s.pairBad_one]
  · rw [execStateCopyReceive, if_neg (by simp [en, up]), if_neg Bool.false_ne_true]
    split <;> rfl

/-! ### Solutions (R372) -/

theorem solutionCopy_taken {frames : List (List (BitVec 32))} {i : BitVec 32} {ws : List (BitVec 32)}
    (object : linkObject 4 frames = (0, some (i, ws))) : exec (.solutionCopyReceive frames) s = .next
      (if follows s then { s with pr := { s.pr with solIn := some (i, ws), gotSol := i } } else s) := by
  have ran : exec (.solutionCopyReceive frames) s = execSolutionCopyReceive frames s := rfl
  rw [ran, execSolutionCopyReceive, if_neg (by simp [en, up]), object]
  dsimp only
  rw [s.pairBad_zero]
  rfl

end

/-! ### Safety records (R373, R374) -/

section
variable {s : State} {r : PairSafe} {q : Fin 8}

/-- A record of a sealed partner counts. -/
theorem partnerSafe_sealed (pair : paired s = true) (kept : s.pr.safe = some r) (a : r.a = .sealed) (b : r.b = .sealed) :
    partnerSafe s = some r := by
  rw [partnerSafe, if_pos pair, kept]
  simp [a, b]

/-- A record of a partner that is not sealed does not count. -/
theorem partnerSafe_open (kept : s.pr.safe = some r) (open_ : r.a ≠ .sealed ∨ r.b ≠ .sealed) : partnerSafe s = none := by
  rw [partnerSafe, kept]
  rcases open_ with a | b
  · simp [a]
  · simp [b]

theorem toNat_smaller {n : Nat} (a b : BitVec n) : (if a.toNat ≤ b.toNat then a else b).toNat = min a.toNat b.toNat := by
  split <;> omega

theorem scaleNow_sealed (counts : partnerSafe s = some r) : (scaleNow s q).toNat =
    min (min (svScale s 0 q).toNat (svScale s 1 q).toNat) (r.scale.getD q.val 0#16).toNat := by
  rw [scaleNow, counts, Option.elim_some]
  dsimp only
  rw [toNat_smaller, toNat_smaller]

end

theorem svWatch_pr (s t : State) : (svWatch s t).pr = t.pr := by
  obtain ⟨hi, out, watched⟩ := svWatch_frame s t
  rw [watched]

theorem State.ossdUpdate_pr (s : State) : s.ossdUpdate.pr = s.pr := rfl

theorem State.svPublish_pr (s : State) : s.svPublish.pr = s.pr := s.svPublish_motion.pr

/-- A safety record that checks in time is combined with the own values (R374). -/
theorem safetyRecord_combined {s : State} (en : s.pr.en = true) (up : pairUp s = true) {r : PairSafe} (pair : paired s = true)
    (running : s.tb.running = true) (pick : r.pick = s.tb.pickNum) (inTime : s.now ≤ s.tb.pickTime.toNat + 20000) :
    ∃ t, exec (.safetyRecordReceive false true r) s = .next t ∧ t.pr = { s.pr with safe := some r } ∧
      ∀ q : Fin 8, (t.sv.armPub[q]).stop = catStop (armCatNow (s.modPr fun p => { p with safe := some r }) q) ∧
        (t.sv.armPub[q]).scale = scaleNow (s.modPr fun p => { p with safe := some r }) q := by
  obtain ⟨u, keeps⟩ : ∃ u, u = s.modPr fun p => { p with safe := some r } := ⟨_, rfl⟩
  have ran : exec (.safetyRecordReceive false true r) s = execSafetyRecordReceive false true r s := rfl
  have taken : execSafetyRecordReceive false true r s = .next (svWatch s u.svPublish.ossdUpdate) := by
    rw [execSafetyRecordReceive, if_neg (by simp [en, up]), if_neg Bool.false_ne_true, if_pos (by simp [pair, running, pick, inTime]), keeps]
  have sv : (svWatch s u.svPublish.ossdUpdate).sv = u.svPublish.sv := (svWatch_sv _ _).trans (State.ossdUpdate_sv _)
  have pr : (svWatch s u.svPublish.ossdUpdate).pr = u.pr := (svWatch_pr _ _).trans (u.svPublish.ossdUpdate_pr.trans u.svPublish_pr)
  generalize svWatch s u.svPublish.ossdUpdate = t at taken sv pr
  refine ⟨t, ran.trans taken, by rw [pr, keeps]; rfl, fun q => ?_⟩
  rw [sv, u.svPublish_armPub, ← keeps]
  exact ⟨rfl, if_pos (by rw [keeps]; exact running)⟩

/-- SAFETY_RECORD_RECEIVE (R365, R373, R374). -/
theorem safetyRecord_taken {s : State} (en : s.pr.en = true) (up : pairUp s = true) (r : PairSafe) :
    exec (.safetyRecordReceive true true r) s = .next { s with pr := { s.pr with cnt := upd s.pr.cnt 2 satInc } } ∧
      exec (.safetyRecordReceive false false r) s = .next s ∧
      (paired s = true → s.tb.running = true → r.pick = s.tb.pickNum → s.now ≤ s.tb.pickTime.toNat + 20000 →
        ∃ t, exec (.safetyRecordReceive false true r) s = .next t ∧ t.pr = { s.pr with safe := some r } ∧
          (r.a = .sealed → r.b = .sealed → ∀ q : Fin 8,
            let own := min ((s.svCh 0).armCat q) ((s.svCh 1).armCat q)
            (t.sv.armPub[q]).stop = catStop (min own (r.cat.getD q.val 3)) ∧
            (t.sv.armPub[q]).scale.toNat =
              min (min (svScale s 0 q).toNat (svScale s 1 q).toNat) (r.scale.getD q.val 0#16).toNat) ∧
          (r.a ≠ .sealed ∨ r.b ≠ .sealed → ∀ q : Fin 8,
            (t.sv.armPub[q]).stop = catStop (min ((s.svCh 0).armCat q) ((s.svCh 1).armCat q)))) := by
  have ran (bad check : Bool) : exec (.safetyRecordReceive bad check r) s = execSafetyRecordReceive bad check r s := rfl
  refine ⟨(ran _ _).trans ?_, (ran _ _).trans ?_, fun pair running pick inTime => ?_⟩
  · rw [execSafetyRecordReceive, if_neg (by simp [en, up]), if_pos rfl, s.pairBad_one]
  · rw [execSafetyRecordReceive, if_neg (by simp [en, up]), if_neg Bool.false_ne_true, if_neg (by simp)]
  · obtain ⟨t, executed, pr, combined⟩ := safetyRecord_combined en up pair running pick inTime
    refine ⟨t, executed, pr, fun a b q => ?_, fun open_ q => ?_⟩
    · obtain ⟨stop, scale⟩ := combined q
      have counts := partnerSafe_sealed (s := s.modPr fun p => { p with safe := some r }) pair rfl a b
      rw [stop, scale, scaleNow_sealed counts, armCatNow, counts]
      exact ⟨rfl, rfl⟩
    · rw [(combined q).1, armCatNow, partnerSafe_open (s := s.modPr fun p => { p with safe := some r }) rfl open_]
      rfl

/-! ### The configuration set (R383, R384) -/

/-- A block changes no more of the pair unit than the start that the resynchronisation has been given. -/
theorem State.cfgTake_pr (s : State) (part : CfgPart) : ∃ g : PairSync → PairSync,
    (s.cfgTake part).pr = { s.pr with sync := s.pr.sync.map g } ∧ ∀ y, (g y).block = y.block ∧ (g y).cfg = y.cfg := by
  have same {t : State} (pr : t.pr = s.pr) : ∃ g : PairSync → PairSync,
      t.pr = { s.pr with sync := s.pr.sync.map g } ∧ ∀ y, (g y).block = y.block ∧ (g y).cfg = y.cfg :=
    ⟨id, by rw [pr, Option.map_id]; rfl, fun _ => ⟨rfl, rfl⟩⟩
  cases part with
  | timeBase per n net pick beat => exact ⟨_, rfl, fun _ => ⟨rfl, rfl⟩⟩
  | _ => exact same rfl

/-- Picks that start anew leave the pair unit and the profile generator as they are. -/
theorem State.alignStart_kept (s : State) (net : Int) (pick beat : BitVec 32) :
    (s.alignStart net pick beat).pr = s.pr ∧ (s.alignStart net pick beat).pg = s.pg := by
  unfold State.alignStart
  extract_lets s0 org n j s1
  have started : s1.pr = s.pr ∧ s1.pg = s.pg := ⟨rfl, rfl⟩
  obtain ⟨_, _, _, _, fits⟩ := s1.stlFitAll_frame
  rw [fits]
  exact started

/-- The device is in SYNCING; the blocks of its resynchronisation, and the profile generator, are as before. -/
structure SyncKept (y : PairSync) (s t : State) : Prop where
  role : t.pr.role = .syncing
  sync : ∃ z, t.pr.sync = some z ∧ z.block = y.block ∧ z.cfg = y.cfg
  pg : t.pg = s.pg

theorem syncAdvance_kept {s : State} {y : PairSync} (role : s.pr.role = .syncing) (sync : s.pr.sync = some y) :
    SyncKept y s (syncAdvance s) := by
  have same : SyncKept y s s := ⟨role, ⟨y, sync, rfl, rfl⟩, rfl⟩
  unfold syncAdvance
  extract_lets s1
  have stepped : SyncKept y s s1 := by
    unfold s1
    split
    · next held =>
      obtain rfl := Option.some.inj (sync.symm.trans held)
      split
      · exact same
      split
      · next net pick beat _ =>
        obtain ⟨pr, pg⟩ := s.alignStart_kept net pick beat
        generalize s.alignStart net pick beat = u at pr pg ⊢
        exact ⟨(by rw [pr, role] : u.pr.role = .syncing), ⟨_, rfl, rfl, rfl⟩, pg⟩
      · exact ⟨role, ⟨_, rfl, rfl, rfl⟩, rfl⟩
    · exact same
  clear_value s1
  split
  · rw [if_neg (by simp [follows, stepped.role])]
    exact stepped
  · exact stepped

/-- CONFIG_FRAME_RECEIVE (R365, R383, R384). -/
theorem configFrame_taken {s : State} (en : s.pr.en = true) (up : pairUp s = true) (b : BitVec 32) (last : Bool) (part : CfgPart) :
    exec (.configFrameReceive true b last part) s = .next { s with pr := { s.pr with cnt := upd s.pr.cnt 2 satInc } } ∧
      ∀ y, s.pr.role = .syncing → s.pr.sync = some y →
        (b ≠ y.block → exec (.configFrameReceive false b last part) s = .next s) ∧
        (b = y.block → ∃ t z, exec (.configFrameReceive false b last part) s = .next t ∧ t.pr.role = .syncing ∧ t.pr.sync = some z ∧
          z.block = b + 1#32 ∧ (last = true → z.cfg = true) ∧ ∀ d, part = .scale d → t.pg.dsUp = d) := by
  have ran (bad : Bool) : exec (.configFrameReceive bad b last part) s = execConfigFrameReceive bad b last part s := rfl
  refine ⟨?_, fun y role sync => ⟨fun other => ?_, fun next => ?_⟩⟩
  · rw [ran, execConfigFrameReceive, if_neg (by simp [en, up]), if_pos rfl, s.pairBad_one]
  · rw [ran, execConfigFrameReceive, if_neg (by simp [en, up]), if_neg Bool.false_ne_true, role, sync]
    exact if_neg other
  · obtain ⟨g, pr, same⟩ := s.cfgTake_pr part
    obtain ⟨block, cfg⟩ := same y
    obtain ⟨u, takes⟩ : ∃ u, u = (s.cfgTake part).modPr fun p => { p with sync := p.sync.map fun y =>
      { y with block := y.block + 1#32, cfg := y.cfg || last, step := if last && decide (y.step.toNat < 2) then 2#3 else y.step } } := ⟨_, rfl⟩
    have taken : execConfigFrameReceive false b last part s = .next (syncAdvance u) := by
      rw [execConfigFrameReceive, if_neg (by simp [en, up]), if_neg Bool.false_ne_true, role, sync, takes]
      exact if_pos next
    have uPr : u.pr.role = .syncing ∧ ∃ z, u.pr.sync = some z ∧ z.block = b + 1#32 ∧ (last = true → z.cfg = true) := by
      rw [takes]
      dsimp only [State.modPr]
      rw [pr, sync]
      exact ⟨role, _, rfl, by rw [next, ← block], fun ends => by simp [ends]⟩
    obtain ⟨syncing, z, held, number, whole⟩ := uPr
    obtain ⟨role', ⟨z', held', block', cfg'⟩, pg⟩ := syncAdvance_kept syncing held
    refine ⟨_, z', (ran _).trans taken, role', held', block'.trans number, fun ends => cfg'.trans (whole ends), fun d scale => ?_⟩
    rw [pg, takes, scale]
    rfl

end Sys2Proof.Machine
end

section
/-! SUPPORT. The settlement of O51. -/
namespace Sys2Proof.Machine

/-- Settles O51: the cut and the receiver's checks are inverse by induction on the pieces; a follower's clauses rest on what a pick's
work leaves of the pair unit. -/
theorem followersTakeWhatIsSent : Obligations.FollowersTakeWhatIsSent := by
  unfold Obligations.FollowersTakeWhatIsSent
  refine ⟨fun ty seq tag p type nonempty size => ⟨linkObject_pairPieces seq tag type nonempty size, fun s up next => ?_⟩,
    fun s en up => ⟨fun follow running frames k ws object => ?_, fun frames n object => inputRecord_counted en up object,
      fun waits => State.adoptLimit_shows waits, fun lead free running unsent => stateCopy_sent up lead free running unsent,
      fun c => stateCopy_taken en up c, fun frames i ws object => solutionCopy_taken en up object, fun r => safetyRecord_taken en up r,
      fun b last part => configFrame_taken en up b last part⟩⟩
  · subst next
    exact State.pairSend_frames up ty tag p
  · have taken := inputRecord_taken en up follow running object
    refine ⟨fun ahead => ?_, fun other unused => ?_, fun present waits => ?_⟩
    · have notNow : k ≠ s.tb.pickNum := by
        rw [ahead]
        simp
      rw [taken, if_neg (by simp [notNow]), if_pos ahead]
    · rw [taken, if_neg (by simpa [imp_iff_not_or] using unused), if_neg other]
    · rw [if_pos (by simp [present, waits])] at taken
      refine ⟨_, taken, rfl, rfl, rfl, fun standby own digest valid differs noLog => ?_⟩
      exact State.adoptPick_diverges standby digest valid differs noLog

end Sys2Proof.Machine
end
